-- ==== Sys2Proof/Word.lean ====
section
/-! DEFINITION. Words, bytes and the sparse tables that the state is made of. -/
namespace Sys2Proof

/-- A 64-bit register or memory word (R69). -/
abbrev Word := BitVec 64

/-- One byte of memory. -/
abbrev Byte := BitVec 8

/-- A table of numbered things. An index that is not listed holds the table's default value, which each
reader names; the entries stand in rising order of index and none of them is the default value. -/
abbrev Tbl (α : Type) := List (Nat × α)

end Sys2Proof
end

