-- ==== Sys2Proof/Syntax.lean ====
section
/-! DEFINITION. The commands of the block: one constructor of `Instr` for each row of spec/opcode_table.json.
The table gives its rows no operand bits; the operands here are what each rule says the step depends on. -/
namespace Sys2Proof

/-- A hardware thread: a core thread 0-639 or an adze thread 0-511 (R28). -/
inductive Thr where
  | core (i : Fin 640)
  | adze (i : Fin 512)
deriving DecidableEq, Repr

/-- A mesh source by kind and logical index (R30). -/
inductive Src where
  | core (i : Fin 160)
  | engine (i : Fin 64)
  | bay (i : Fin 40)
deriving DecidableEq, Repr

/-- An agent of the coherence protocol (R227): a bay agent, a home slice, an adze engine or a hub agent 0-7 (R230). -/
inductive Agent where
  | bay (i : Fin 40)
  | home (i : Fin 40)
  | engine (i : Fin 64)
  | hub (i : Fin 8)
deriving DecidableEq, Repr

/-- A ridge port, encoded W 0, E 1, N 2, S 3 (R28). -/
inductive Port where
  | W | E | N | S
deriving DecidableEq, Repr

/-- The supply rails (R443). -/
inductive Rail where
  | vcore (d : Fin 4)
  | vhub
  | vsill
  | vddq (g : Fin 4)
  | vserdes
  | vio18
deriving DecidableEq, Repr

/-- The clocked blocks behind the crossings of R55. -/
inductive Clk where
  | ddr (c : Fin 16)
  | endpoint
  | ridge (x : Port)
  | wright
  | sill
deriving DecidableEq, Repr

/-- The strap lands (R507, R508). DESIGN CHOICE (log entry 3). -/
structure Straps where
  frameHead : Bool
  mgmtI3c : Bool
  ringPos : BitVec 6
deriving DecidableEq, Repr

/-- The mailboxes a Belilpin command may stand in (R418). -/
inductive Mbox where
  | host (m : Fin 8)
  | mgmt
  | mgmtUrgent
  | dev (m : Fin 16)
deriving DecidableEq, Repr

/-- The power domains of R454 that drop and wake as domains of their own row. -/
inductive Dom where
  | core (c : Fin 160)
  | bay (b : Fin 40)
  | cluster (k : Fin 16)
  | die (d : Fin 4)
  | channel (c : Fin 16)
  | port (x : Port)
deriving DecidableEq, Repr

/-- The instruction fields of format A (R79); OP and MINOR follow from the command. -/
structure FmtA where
  gd : BitVec 5
  gs1 : BitVec 5
  gs2 : BitVec 5
deriving DecidableEq, Repr

/-- Format B. -/
structure FmtB where
  gd : BitVec 5
  gs1 : BitVec 5
  imm : BitVec 16
deriving DecidableEq, Repr

/-- Format C. -/
structure FmtC where
  gt : BitVec 5
  gb : BitVec 5
  off : BitVec 12
deriving DecidableEq, Repr

/-- Format D. -/
structure FmtD where
  gs1 : BitVec 5
  gs2 : BitVec 5
  off : BitVec 16
deriving DecidableEq, Repr

/-- Format E. -/
structure FmtE where
  off : BitVec 26
deriving DecidableEq, Repr

/-- Format F. -/
structure FmtF where
  gd : BitVec 5
  gs1 : BitVec 5
  imm : BitVec 12
deriving DecidableEq, Repr

/-- The floating-point form of format A: P, the rounding-mode field and bit 3 of MINOR, which must be 0 (R90). -/
structure FmtFP where
  fd : BitVec 5
  fs1 : BitVec 5
  fs2 : BitVec 5
  p : Bool
  rm : BitVec 3
  m3 : Bool
deriving DecidableEq, Repr

/-- One coherence message as it reaches its receiver (R227, R247): who sent it, with the generation and physical
site it carries; its receiver; the 64-byte line it names; and what its kind of message holds.
DESIGN CHOICE (log entry 38). -/
structure CMsg where
  src : Agent
  gen : BitVec 16
  site : BitVec 7
  dst : Agent
  /-- Who the answer or acknowledgement goes to (the collector or requester of R227). -/
  coll : Agent
  line : BitVec 42
  /-- Granted state E (true) or S (false) of GRANT, D_H and D_F. -/
  excl : Bool
  /-- The number of ACK_INV to expect, or the NACKs the request has received. -/
  count : BitVec 8
  data : BitVec 512
  poison : Bool
  /-- Byte mask of HWR (R227); in D_H and GRANT the bays whose ACK_INV the count announces. -/
  mask : BitVec 64
  /-- the generation of the receiver as the sender has it (R249) -/
  dgen : BitVec 16
  /-- which request of an engine or hub agent it is or answers (R227) -/
  tag : BitVec 16
  /-- streaming hint of the fill it causes (R197) -/
  nt : Bool
deriving DecidableEq, Repr

/-- The operation an HATM performs at the home (R227, R237). -/
inductive AtomOp where
  | ldres
  | stcnd
  | faa
  | cas
  /-- an LDA, which only reads -/
  | lda
deriving DecidableEq, Repr

/-- Causes of an access completed with error (R179). -/
inductive LostCause where
  | timeout
  | targetDown
  | ridgeUnreachable
  | writeFailed
  | deviceError
deriving DecidableEq, Repr

/-- What the read of a cache array finds (R213). In an L1, `sector` is the sector with bad parity, the upper one when
true; none for a tag or state error. -/
inductive CacheFind where
  | clean
  | l1i (sector : Option Bool)
  | l1d (sector : Option Bool)
  | l2Single
  | l2Double
  | l2Tag
  | llcSingle
  | llcDouble
  | llcTag
  | shimParity
deriving DecidableEq, Repr

/-- What a DRAM read finds (R339, R342). -/
inductive DramFind where
  | clean
  | corrected (device : BitVec 6)
  | uncorrectable (device : BitVec 6)
deriving DecidableEq, Repr

/-- What a read of a SECDED word finds (R265). -/
inductive EccFind where
  | clean
  | single
  | double
deriving DecidableEq, Repr

/-- Status of a PCI Express completion (R368). -/
inductive CplStatus where
  | ok
  | unsupported
  | abort
  | poisoned
deriving DecidableEq, Repr

/-- Who makes a register write (R361, R417, R511). -/
inductive Writer where
  | host
  | mgmt
  | thread (t : Thr)
  | wright
deriving DecidableEq, Repr

/-- The header of a received flit (R392). -/
structure Flit where
  port : Port
  seq : BitVec 9
  ack : BitVec 9
  vc : BitVec 4
  crvc : BitVec 4
  cred : BitVec 4
deriving DecidableEq, Repr

/-- Which flits of a message a command brings (R396): all of them one after the other; the head of a two-flit message,
with the first 48 bytes of data; or its body, with the rest, for which the flit header alone counts besides the data. -/
inductive MsgPart where
  | whole
  | head
  | body
deriving DecidableEq, Repr

/-- A ridge message with the flit header that brought it (R399). -/
structure RMsg where
  flit : Flit
  dst : BitVec 16
  src : BitVec 16
  status : BitVec 2
  poison : Bool
  tag : BitVec 16
  addr : BitVec 64
  data : List Byte
  part : MsgPart
deriving DecidableEq, Repr

/-- The commands: one constructor per row of the opcode table. -/
inductive Instr where
  -- power, reset and modes
  | sillPowerUp
  | sillPowerLoss
  | pwrgoodDeassert
  | pwrgoodAssert (pins : Straps)
  | strapLatch (pins : Straps)
  | resetNDebounce
  | warmResetEffect
  | bringupStart
  | bringupDone
  | bringupTimeout
  | railWarning (r : Rail) (mv : BitVec 16)
  | bracedExit
  | vcoreResetCrossing (d : Fin 4) (mv : BitVec 16)
  | vhubResetCrossing (mv : BitVec 16)
  | vio18ResetCrossing (mv : BitVec 16)
  | vddqResetCrossing (g : Fin 4) (mv : BitVec 16)
  | vserdesResetCrossing (mv : BitVec 16)
  | dieStall (d : Fin 4) (mv : BitVec 16)
  | dieResume (d : Fin 4) (mv : BitVec 16)
  | dieRailRecovered (d : Fin 4) (pass : Bool)
  | thermalSample (die : Fin 5) (a b c e : BitVec 16)
  | thermalLimitClear
  | throttleStep (d : Fin 4)
  | dimmTempSample (c : Fin 16) (slot : Fin 2) (reading : BitVec 16)
  | regulatorAck (r : Rail) (mv : BitVec 16)
  | regulatorAckTimeout (r : Rail)
  | neighbourLinkFail (l : Fin 4) (onLink : BitVec 8)
  | hubLinkFail (d : Fin 4) (onLink : BitVec 8)
  | beatWindowEnd (m : Fin 5) (beats : BitVec 16)
  | beatMonClr (m : Fin 5)
  | clockStop (b : Clk)
  | sillClockTick
  | refLost
  | refRestored
  | ptmRefresh (offset : BitVec 64)
  | interruptEntry (t : Fin 640)
  -- integer register (R83)
  | add (t : Thr) (f : FmtA)
  | sub (t : Thr) (f : FmtA)
  | and (t : Thr) (f : FmtA)
  | or (t : Thr) (f : FmtA)
  | xor (t : Thr) (f : FmtA)
  | andn (t : Thr) (f : FmtA)
  | sll (t : Thr) (f : FmtA)
  | srl (t : Thr) (f : FmtA)
  | sra (t : Thr) (f : FmtA)
  | rotr (t : Thr) (f : FmtA)
  | slt (t : Thr) (f : FmtA)
  | sltu (t : Thr) (f : FmtA)
  | min (t : Thr) (f : FmtA)
  | max (t : Thr) (f : FmtA)
  | minu (t : Thr) (f : FmtA)
  | maxu (t : Thr) (f : FmtA)
  | addw (t : Thr) (f : FmtA)
  | subw (t : Thr) (f : FmtA)
  | clz (t : Thr) (f : FmtA)
  | ctz (t : Thr) (f : FmtA)
  | popc (t : Thr) (f : FmtA)
  | bswap (t : Thr) (f : FmtA)
  | sextb (t : Thr) (f : FmtA)
  | sexth (t : Thr) (f : FmtA)
  | sextw (t : Thr) (f : FmtA)
  | zextw (t : Thr) (f : FmtA)
  | cmovz (t : Thr) (f : FmtA)
  | cmovnz (t : Thr) (f : FmtA)
  -- integer immediate (R84)
  | addi (t : Thr) (f : FmtB)
  | andi (t : Thr) (f : FmtB)
  | ori (t : Thr) (f : FmtB)
  | xori (t : Thr) (f : FmtB)
  | slti (t : Thr) (f : FmtB)
  | sltui (t : Thr) (f : FmtB)
  | shi (t : Thr) (f : FmtB)
  | ins (t : Thr) (f : FmtB)
  -- multiply and divide (R85)
  | mul (t : Thr) (f : FmtA)
  | mulhs (t : Thr) (f : FmtA)
  | mulhu (t : Thr) (f : FmtA)
  | mulw (t : Thr) (f : FmtA)
  | div (t : Thr) (f : FmtA)
  | divu (t : Thr) (f : FmtA)
  | rem (t : Thr) (f : FmtA)
  | remu (t : Thr) (f : FmtA)
  -- decimal (R89)
  | dadd (t : Thr) (f : FmtA)
  | dsub (t : Thr) (f : FmtA)
  | dcmp (t : Thr) (f : FmtA)
  | dcvtBd (t : Thr) (f : FmtA)
  | dcvtDb (t : Thr) (f : FmtA)
  | dmulk (t : Thr) (f : FmtB)
  -- floating point (R90)
  | fadd (t : Thr) (f : FmtFP)
  | fsub (t : Thr) (f : FmtFP)
  | fmul (t : Thr) (f : FmtFP)
  | fdiv (t : Thr) (f : FmtFP)
  | fsqrt (t : Thr) (f : FmtFP)
  | fmadd (t : Thr) (f : FmtFP)
  | fmsub (t : Thr) (f : FmtFP)
  | fmin (t : Thr) (f : FmtFP)
  | fmax (t : Thr) (f : FmtFP)
  | fabs (t : Thr) (f : FmtFP)
  | fneg (t : Thr) (f : FmtFP)
  | fcpysgn (t : Thr) (f : FmtFP)
  | fceq (t : Thr) (f : FmtFP)
  | fclt (t : Thr) (f : FmtFP)
  | fcle (t : Thr) (f : FmtFP)
  | fclass (t : Thr) (f : FmtFP)
  | fcvtGF (t : Thr) (f : FmtFP)
  | fcvtGuF (t : Thr) (f : FmtFP)
  | fcvtFG (t : Thr) (f : FmtFP)
  | fcvtFGu (t : Thr) (f : FmtFP)
  | fcvtSd (t : Thr) (f : FmtFP)
  | fmvGF (t : Thr) (f : FmtFP)
  | fmvFG (t : Thr) (f : FmtFP)
  -- loads and stores (R94)
  | ldb (t : Thr) (f : FmtC)
  | ldh (t : Thr) (f : FmtC)
  | ldw (t : Thr) (f : FmtC)
  | ldd (t : Thr) (f : FmtC)
  | ldbs (t : Thr) (f : FmtC)
  | ldhs (t : Thr) (f : FmtC)
  | ldws (t : Thr) (f : FmtC)
  | fls (t : Thr) (f : FmtC)
  | fld (t : Thr) (f : FmtC)
  | lda (t : Thr) (f : FmtC) (dbl : Bool)
  | lddNt (t : Thr) (f : FmtC)
  | stb (t : Thr) (f : FmtC)
  | sth (t : Thr) (f : FmtC)
  | stw (t : Thr) (f : FmtC)
  | std (t : Thr) (f : FmtC)
  | fss (t : Thr) (f : FmtC)
  | fsd (t : Thr) (f : FmtC)
  | stl (t : Thr) (f : FmtC) (dbl : Bool)
  | stdNt (t : Thr) (f : FmtC)
  -- reservations and atomics (R95)
  | ldres (t : Thr) (f : FmtA) (dbl : Bool)
  | stcnd (t : Thr) (f : FmtA) (dbl : Bool)
  | faa (t : Thr) (f : FmtA) (dbl : Bool)
  | cas (t : Thr) (f : FmtA) (dbl : Bool)
  -- fences (R96)
  | fenceO (t : Thr) (f : FmtF)
  | fenceC (t : Thr) (f : FmtF)
  | fenceCDrained (t : Thr)
  | isync (t : Thr) (f : FmtF)
  -- CRC and AES (R97)
  | crc32c (t : Thr) (f : FmtA) (size : BitVec 2)
  | aesenc (t : Thr) (f : FmtA)
  | aesencl (t : Thr) (f : FmtA)
  | aesdec (t : Thr) (f : FmtA)
  | aesdecl (t : Thr) (f : FmtA)
  | aesimc (t : Thr) (f : FmtA)
  -- branches and jumps (R98)
  | beq (t : Thr) (f : FmtD)
  | bne (t : Thr) (f : FmtD)
  | blt (t : Thr) (f : FmtD)
  | bge (t : Thr) (f : FmtD)
  | bltu (t : Thr) (f : FmtD)
  | bgeu (t : Thr) (f : FmtD)
  | j (t : Thr) (f : FmtE)
  | jl (t : Thr) (f : FmtE)
  | jr (t : Thr) (f : FmtA)
  | jlr (t : Thr) (f : FmtA)
  | ret (t : Thr) (f : FmtA)
  -- system, cache and TLB maintenance (R99, R100)
  | mfs (t : Thr) (f : FmtF)
  | mts (t : Thr) (f : FmtF)
  | eret (t : Thr) (f : FmtF)
  | syscall (t : Thr) (f : FmtF)
  | mcall (t : Thr) (f : FmtF)
  | brk (t : Thr) (f : FmtF)
  | evdone (t : Thr) (f : FmtF)
  | wait (t : Thr) (f : FmtF)
  | cclean (t : Thr) (f : FmtF)
  | cflush (t : Thr) (f : FmtF)
  | cinv (t : Thr) (f : FmtF)
  | czero (t : Thr) (f : FmtF)
  | iinv (t : Thr) (f : FmtF)
  | tlbinv (t : Thr) (f : FmtF)
  -- core execution (R112 to R149)
  | branchResolved (t : Fin 640)
  | instructionConfirmed (t : Fin 640) (found : CacheFind)
  | storeAddressKnown (t : Fin 640) (older : Nat)
  | mdpEntryExpire (t : Fin 640) (pc : Word)
  -- ordering (R150 to R189)
  | storeRelease (t : Thr)
  | completionAck (t : Thr) (id : Nat) (found : CacheFind)
  | accessTimeout (t : Thr) (id : Nat)
  | targetAbsentReport (t : Thr) (id : Nat) (cause : LostCause)
  | reservationMonitorExpire (t : Thr) (g : BitVec 41)
  | reservationHoldExpire (t : Fin 640)
  | coreSoloWrite (t : Fin 640) (gs1 : BitVec 5)
  | soloParked (c : Fin 160)
  | asidWrite (t : Thr) (gs1 : BitVec 5)
  -- caches (R190 to R218)
  | cacheCtlWrite (t : Fin 640) (gs1 : BitVec 5)
  | cacheCtlDrainDone (c : Fin 160) (l : BitVec 42) (found : CacheFind)
  | l2amCtlWrite (t : Fin 640) (gs1 : BitVec 5)
  | l2amStepDone (b : Fin 40) (l : BitVec 42) (found : CacheFind)
  -- coherence (R219 to R252)
  | rdS (m : CMsg) (found : CacheFind)
  | rdX (m : CMsg) (found : CacheFind)
  | upg (m : CMsg) (found : CacheFind)
  | rdZ (m : CMsg) (found : CacheFind)
  | peek (m : CMsg) (found : CacheFind)
  | cln (m : CMsg) (found : CacheFind)
  | flsRequest (m : CMsg) (found : CacheFind)
  | inv (m : CMsg) (found : CacheFind)
  | hrd (m : CMsg) (found : CacheFind)
  | hwr (m : CMsg) (found : CacheFind)
  | hatm (m : CMsg) (t : Fin 512) (op : AtomOp) (pa : BitVec 48) (dbl : Bool) (a b : Word) (found : CacheFind)
  | fS (m : CMsg) (found : CacheFind)
  | fX (m : CMsg) (found : CacheFind)
  | fInv (m : CMsg) (found : CacheFind)
  | fCln (m : CMsg) (found : CacheFind)
  | fFls (m : CMsg) (found : CacheFind)
  | fDis (m : CMsg) (found : CacheFind)
  | ackInv (m : CMsg)
  | ackF (m : CMsg)
  | missWb (m : CMsg)
  | nack (m : CMsg)
  | nackRetryGapExpire (b : Agent) (line : BitVec 42)
  | defer (m : CMsg)
  | grant (m : CMsg)
  | doneMsg (m : CMsg)
  | wbAck (m : CMsg)
  | dH (m : CMsg) (found : CacheFind)
  | dF (m : CMsg) (found : CacheFind)
  | dO (m : CMsg) (found : CacheFind)
  | dP (m : CMsg)
  | wbD (m : CMsg) (found : CacheFind)
  | wbC (m : CMsg) (found : CacheFind)
  | cohTimeout (a : Agent) (line : BitVec 42)
  | coherenceErrorReport (p : Fin 8) (code : BitVec 8) (det : BitVec 6) (unit : Option Src)
  | partitionSalvage (p : Fin 8) (unreadable : List (Fin 40)) (sectors : List (BitVec 42))
  | partitionRestart (p : Fin 8) (bayPasses : Bool)
  | sisterStepTimeout (u : Src)
  | liveSisterDrained (u : Src) (failed : Bool)
  -- adze engines (R253 to R281)
  | adzeInterruptEntry (t : Fin 512)
  | storeQueueSend (t : Fin 512)
  | scratchScrub (e : Fin 64) (line : Option (BitVec 12)) (found : EccFind)
  | adzRunWrite (e : Fin 64) (v : Word)
  | adzScrCtlWrite (e : Fin 64) (v : Word)
  -- work items (R282 to R308)
  | doorbell (inst : Fin 256) (slot : Fin 256) (v : Word) (whole : Bool) (vc1 : Bool)
  | inlineItem (inst : Fin 256) (slot : Fin 256) (v : BitVec 512) (whole : Bool) (vc1 : Bool)
  | dispatchSelect (p : Fin 8)
  | descriptorReadDone (e : Fin 65536)
  | itemDataReadDone (e : Fin 65536)
  | itemBufferWritten (e : Fin 65536) (err : Option LostCause)
  | itemDone (t : Thr) (gen : BitVec 16) (site : BitVec 7) (v : Word) (whole : Bool)
  | runLimitExpire (e : Fin 65536)
  | queueWaitExpire (e : Fin 65536)
  | recordDelivery (e : Fin 65536)
  | ledgerUe (e : Fin 65536) (a b : EccFind)
  -- events (R309 to R328)
  | evSendWrite (t : Thr) (gen : BitVec 16) (site : BitVec 7) (v : Word) (whole : Bool)
  | evInjectWrite (t : Thr) (gs1 : BitVec 5)
  | timerFire (t : Thr)
  | eventRecordWritten (t : Thr)
  | heldDispatchRelease (t : Thr)
  | evqCtlWrite (t : Thr) (gs1 : BitVec 5)
  | evqTailWrite (t : Thr) (p : Fin 16) (gs1 : BitVec 5)
  -- DRAM (R329 to R352)
  | dramRead (c : Fin 16) (line : BitVec 42) (found : DramFind) (peek : Bool)
  | dramWrite (c : Fin 16) (line : BitVec 42) (data : BitVec 512) (poison : Bool)
  | rowIdleClose (c : Fin 16) (rank : BitVec 4) (bg : BitVec 2) (ba : BitVec 2)
  | refresh (c : Fin 16)
  | patrolScrub (c : Fin 16) (found mate : DramFind)
  | caParityAlert (c : Fin 16) (line : BitVec 42) (retries : Fin 6)
  | pairingSweepDone (c : Fin 16) (upTo : BitVec 42) (found : List (BitVec 42 × DramFind))
  | softPprDone (c : Fin 16)
  | rankSpareCopyDone (c : Fin 16) (upTo : BitVec 42) (found : List (BitVec 42 × DramFind))
  | channelTrained (c : Fin 16)
  | channelTrainingFail (c : Fin 16)
  | phyRelockTimeout (c : Fin 16)
  | resilverDone (c : Fin 16) (upTo : BitVec 42) (found : List (BitVec 42 × DramFind))
  -- host endpoint (R353 to R386)
  | perstAssert
  | perstDeassert
  | linkTrained (lanes : Fin 3) (rate : Fin 5)
  | linkDown
  | hotReset
  | configRequest (wr : Bool) (off : BitVec 10) (be : BitVec 4) (v : BitVec 32)
  | tlpErrorFreeze (code : BitVec 8)
  | freezeForce
  | freezeRelease (count : BitVec 8)
  | epNotifyWrite (v : Word)
  | instStatResetWrite (i : Fin 256)
  | readCompletion (tag : BitVec 10) (st : CplStatus) (data : List Byte)
  | completionTimeout (tag : BitVec 10)
  | windowRead (n : Fin 64) (off : BitVec 26) (len : Nat) (vc1 : Bool)
  | windowWrite (n : Fin 64) (off : BitVec 26) (data : List Byte) (vc1 : Bool)
  | windowReadTimeout (tag : BitVec 16)
  | mailboxPageWrite (m : Mbox) (t : Thr) (off : BitVec 12) (data : List Byte) (vc1 : Bool)
  -- ridge (R387 to R414)
  | idleFlit (f : Flit)
  | skipFlit (f : Flit) (id : BitVec 16) (port : Port)
  | skipInsert (x : Port)
  | nakFlit (f : Flit) (expected : BitVec 9)
  | flitError (x : Port)
  | ridgeAckTimeout (x : Port)
  | initFlit (f : Flit) (credits : BitVec 80)
  | timeSyncTimer (x : Port)
  | timeSync (f : Flit) (t1 : Word)
  | timeResp (f : Flit) (t1 t2 t3 : Word)
  | joinReq (f : Flit) (id : BitVec 16)
  | joinReqRepeat (ns : Bool)
  | joinSwitch (ns : Bool)
  | holdDone (f : Flit) (id : BitVec 16)
  | leaveReq (f : Flit) (id : BitVec 16)
  | leaveDrained (ns : Bool)
  | leaveBypassSwitch (ns : Bool)
  | ringState (f : Flit) (changes : BitVec 8) (live : BitVec 64) (frame : BitVec 16) (column : Bool)
  | portLockLoss (x : Port)
  | ridgeTrainingDone (x : Port) (partner : BitVec 16) (pport : Port) (spread : BitVec 3)
  | ridgeTrainingFail (x : Port)
  | wRd (m : RMsg)
  | wWr (m : RMsg)
  | wRsp (m : RMsg)
  | hRd (m : RMsg)
  | hWr (m : RMsg)
  | hRsp (m : RMsg)
  | dRd (m : RMsg)
  | dDat (m : RMsg)
  | dWr (m : RMsg)
  | dAck (m : RMsg)
  | recMsg (m : RMsg)
  | rAck (m : RMsg)
  | rRel (m : RMsg)
  -- fencing and the Wright (R45, R415 to R442)
  | fenceDeliveryDone
  | fenceDeliveryTimeout
  | watchdogExpire
  | wrightServing
  | mboxDoorbell (m : Mbox) (v : Word) (eight : Bool) (vc1 : Bool)
  | dmboxDoorbell (t : Thr) (m : Fin 16) (v : Word) (eight : Bool)
  | commandComplete (m : Mbox)
  | getIdentity (m : Mbox)
  | getUnits (m : Mbox)
  | getSource (m : Mbox)
  | partGet (m : Mbox)
  | partSet (m : Mbox)
  | partStop (m : Mbox)
  | partStart (m : Mbox)
  | partStandby (m : Mbox)
  | partFree (m : Mbox)
  | pwrGet (m : Mbox)
  | vcoreSet (m : Mbox)
  | vote (m : Mbox)
  | braceRate (m : Mbox)
  | quiesce (m : Mbox)
  | resume (m : Mbox)
  | warmReset (m : Mbox)
  | sister (m : Mbox)
  | setSpare (m : Mbox) (pass : Bool)
  | chRetire (m : Mbox)
  | chRetrain (m : Mbox) (pass : Bool)
  | memRepair (m : Mbox)
  | portRetrain (m : Mbox) (pass : Bool)
  | slotInfo (m : Mbox)
  | slotWrite (m : Mbox)
  | slotVerify (m : Mbox)
  | activate (m : Mbox)
  | activateRestart
  | activateTimeout
  | commit (m : Mbox)
  | settingsGet (m : Mbox)
  | instCreate (m : Mbox)
  | instModify (m : Mbox)
  | instDestroy (m : Mbox)
  | instReset (m : Mbox)
  | queueSetup (m : Mbox)
  | queueModify (m : Mbox)
  | queueEnable (m : Mbox)
  | queueRemove (m : Mbox)
  | setHostRoute (m : Mbox)
  | logRead (m : Mbox)
  | heldRecords (m : Mbox)
  | modeHistory (m : Mbox)
  | regRead (m : Mbox)
  | attest (m : Mbox)
  | getIdKey (m : Mbox)
  | quench (m : Mbox)
  | release (m : Mbox)
  | fenceSelf (m : Mbox)
  | smbusSetOffset (data : List Byte) (pecOk : Bool)
  | smbusBlockRead (n : Nat) (pecOk : Bool)
  | smbusBlockWrite (data : List Byte) (pecOk : Bool)
  | i3cPrivateWrite (data : List Byte)
  | i3cPrivateRead (n : Nat)
  | i3cDynamicAddress (a : BitVec 7)
  -- power domains and counters
  | coreDrop (c : Fin 160)
  | bayDrop (b : Fin 40)
  | domainDrop (d : Dom)
  | domainWake (d : Dom)
  | pmcCtlWrite (t : Thr) (n : Fin 6) (gs1 : BitVec 5)
  | pmcWrite (t : Thr) (n : Fin 7) (gs1 : BitVec 5)
  | bwWindowEnd
  | bwCtlWrite (v : Word)
  | registerWrite (who : Writer) (addr : BitVec 48) (size : Fin 4) (v : Word)
  -- rows that complete the events above
  | pllRelock (b : Clk)
  | railRecovery (r : Rail) (mv : BitVec 16)
  | resetNChange (level : Bool)
  | selfTestDone (d : Fin 4) (badSites : List (Fin 10 × Fin 5)) (badBays : BitVec 10) (badClusters : BitVec 4)
  | monitorImageLoaded (p : Fin 8) (copied : Bool) (digestOk : Bool)
deriving DecidableEq, Repr

end Sys2Proof
end

