-- ==== Sys2Proof/Decode.lean ====
section
/-! DEFINITION. The words of the instruction set (R79 to R100): formats A to F split into their fields, and the row that an
opcode and minor code name. The other rows of spec/opcode_table.json have no bits. -/
namespace Sys2Proof

/-! ## Formats (R79) -/

def opField (w : BitVec 32) : Nat := (w.extractLsb' 26 6).toNat
def fmtA (w : BitVec 32) : FmtA := ⟨w.extractLsb' 21 5, w.extractLsb' 16 5, w.extractLsb' 11 5⟩
def minorA (w : BitVec 32) : Nat := (w.extractLsb' 0 11).toNat
def fmtB (w : BitVec 32) : FmtB := ⟨w.extractLsb' 21 5, w.extractLsb' 16 5, w.extractLsb' 0 16⟩
def fmtC (w : BitVec 32) : FmtC := ⟨w.extractLsb' 21 5, w.extractLsb' 16 5, w.extractLsb' 0 12⟩
def minorC (w : BitVec 32) : Nat := (w.extractLsb' 12 4).toNat
def fmtD (w : BitVec 32) : FmtD := ⟨w.extractLsb' 21 5, w.extractLsb' 16 5, w.extractLsb' 0 16⟩
def fmtE (w : BitVec 32) : FmtE := ⟨w.extractLsb' 0 26⟩
def fmtF (w : BitVec 32) : FmtF := ⟨w.extractLsb' 21 5, w.extractLsb' 16 5, w.extractLsb' 4 12⟩
def minorF (w : BitVec 32) : Nat := (w.extractLsb' 0 4).toNat

/-- Format A as the floating-point rows use it (R90): MINOR[10:5] is the operation, [4] P, [3] a bit that must be 0,
[2:0] the rounding mode. -/
def fmtFP (w : BitVec 32) : FmtFP :=
  ⟨w.extractLsb' 21 5, w.extractLsb' 16 5, w.extractLsb' 11 5, w.getLsbD 4, w.extractLsb' 0 3, w.getLsbD 3⟩
def opFP (w : BitVec 32) : Nat := (w.extractLsb' 5 6).toNat

/-! ## Rows by minor code; `none` is a reserved code (R80) -/

/-- Integer register (R83). -/
def rowInteger (t : Thr) (w : BitVec 32) : Option Instr :=
  match minorA w with
  | 0x00 => some (.add t (fmtA w))
  | 0x01 => some (.sub t (fmtA w))
  | 0x02 => some (.and t (fmtA w))
  | 0x03 => some (.or t (fmtA w))
  | 0x04 => some (.xor t (fmtA w))
  | 0x05 => some (.andn t (fmtA w))
  | 0x08 => some (.sll t (fmtA w))
  | 0x09 => some (.srl t (fmtA w))
  | 0x0A => some (.sra t (fmtA w))
  | 0x0B => some (.rotr t (fmtA w))
  | 0x10 => some (.slt t (fmtA w))
  | 0x11 => some (.sltu t (fmtA w))
  | 0x12 => some (.min t (fmtA w))
  | 0x13 => some (.max t (fmtA w))
  | 0x14 => some (.minu t (fmtA w))
  | 0x15 => some (.maxu t (fmtA w))
  | 0x18 => some (.addw t (fmtA w))
  | 0x19 => some (.subw t (fmtA w))
  | 0x20 => some (.clz t (fmtA w))
  | 0x21 => some (.ctz t (fmtA w))
  | 0x22 => some (.popc t (fmtA w))
  | 0x23 => some (.bswap t (fmtA w))
  | 0x24 => some (.sextb t (fmtA w))
  | 0x25 => some (.sexth t (fmtA w))
  | 0x26 => some (.sextw t (fmtA w))
  | 0x27 => some (.zextw t (fmtA w))
  | 0x30 => some (.cmovz t (fmtA w))
  | 0x31 => some (.cmovnz t (fmtA w))
  | _ => none

/-- Multiply and divide (R85). -/
def rowMulDiv (t : Thr) (w : BitVec 32) : Option Instr :=
  match minorA w with
  | 0x00 => some (.mul t (fmtA w))
  | 0x01 => some (.mulhs t (fmtA w))
  | 0x02 => some (.mulhu t (fmtA w))
  | 0x04 => some (.mulw t (fmtA w))
  | 0x08 => some (.div t (fmtA w))
  | 0x09 => some (.divu t (fmtA w))
  | 0x0A => some (.rem t (fmtA w))
  | 0x0B => some (.remu t (fmtA w))
  | _ => none

/-- Decimal (R89). -/
def rowDecimal (t : Thr) (w : BitVec 32) : Option Instr :=
  match minorA w with
  | 0x00 => some (.dadd t (fmtA w))
  | 0x01 => some (.dsub t (fmtA w))
  | 0x02 => some (.dcmp t (fmtA w))
  | 0x04 => some (.dcvtBd t (fmtA w))
  | 0x05 => some (.dcvtDb t (fmtA w))
  | _ => none

/-- CRC and AES (R97). -/
def rowCrypto (t : Thr) (w : BitVec 32) : Option Instr :=
  match minorA w with
  | 0x00 => some (.crc32c t (fmtA w) 0)
  | 0x01 => some (.crc32c t (fmtA w) 1)
  | 0x02 => some (.crc32c t (fmtA w) 2)
  | 0x03 => some (.crc32c t (fmtA w) 3)
  | 0x10 => some (.aesenc t (fmtA w))
  | 0x11 => some (.aesencl t (fmtA w))
  | 0x12 => some (.aesdec t (fmtA w))
  | 0x13 => some (.aesdecl t (fmtA w))
  | 0x14 => some (.aesimc t (fmtA w))
  | _ => none

/-- Floating point (R90). -/
def rowFloat (t : Thr) (w : BitVec 32) : Option Instr :=
  match opFP w with
  | 0x00 => some (.fadd t (fmtFP w))
  | 0x01 => some (.fsub t (fmtFP w))
  | 0x02 => some (.fmul t (fmtFP w))
  | 0x03 => some (.fdiv t (fmtFP w))
  | 0x04 => some (.fsqrt t (fmtFP w))
  | 0x05 => some (.fmadd t (fmtFP w))
  | 0x06 => some (.fmsub t (fmtFP w))
  | 0x08 => some (.fmin t (fmtFP w))
  | 0x09 => some (.fmax t (fmtFP w))
  | 0x0A => some (.fabs t (fmtFP w))
  | 0x0B => some (.fneg t (fmtFP w))
  | 0x0C => some (.fcpysgn t (fmtFP w))
  | 0x10 => some (.fceq t (fmtFP w))
  | 0x11 => some (.fclt t (fmtFP w))
  | 0x12 => some (.fcle t (fmtFP w))
  | 0x13 => some (.fclass t (fmtFP w))
  | 0x18 => some (.fcvtGF t (fmtFP w))
  | 0x19 => some (.fcvtGuF t (fmtFP w))
  | 0x1A => some (.fcvtFG t (fmtFP w))
  | 0x1B => some (.fcvtFGu t (fmtFP w))
  | 0x1C => some (.fcvtSd t (fmtFP w))
  | 0x1E => some (.fmvGF t (fmtFP w))
  | 0x1F => some (.fmvFG t (fmtFP w))
  | _ => none

/-- Loads (R94). -/
def rowLoad (t : Thr) (w : BitVec 32) : Option Instr :=
  match minorC w with
  | 0x00 => some (.ldb t (fmtC w))
  | 0x01 => some (.ldh t (fmtC w))
  | 0x02 => some (.ldw t (fmtC w))
  | 0x03 => some (.ldd t (fmtC w))
  | 0x04 => some (.ldbs t (fmtC w))
  | 0x05 => some (.ldhs t (fmtC w))
  | 0x06 => some (.ldws t (fmtC w))
  | 0x08 => some (.fls t (fmtC w))
  | 0x09 => some (.fld t (fmtC w))
  | 0x0A => some (.lda t (fmtC w) false)
  | 0x0B => some (.lda t (fmtC w) true)
  | 0x0C => some (.lddNt t (fmtC w))
  | _ => none

/-- Stores (R94). -/
def rowStore (t : Thr) (w : BitVec 32) : Option Instr :=
  match minorC w with
  | 0x00 => some (.stb t (fmtC w))
  | 0x01 => some (.sth t (fmtC w))
  | 0x02 => some (.stw t (fmtC w))
  | 0x03 => some (.std t (fmtC w))
  | 0x08 => some (.fss t (fmtC w))
  | 0x09 => some (.fsd t (fmtC w))
  | 0x0A => some (.stl t (fmtC w) false)
  | 0x0B => some (.stl t (fmtC w) true)
  | 0x0C => some (.stdNt t (fmtC w))
  | _ => none

/-- Reservations and atomics (R95). -/
def rowAtomic (t : Thr) (w : BitVec 32) : Option Instr :=
  match minorA w with
  | 0x00 => some (.ldres t (fmtA w) false)
  | 0x01 => some (.ldres t (fmtA w) true)
  | 0x02 => some (.stcnd t (fmtA w) false)
  | 0x03 => some (.stcnd t (fmtA w) true)
  | 0x04 => some (.faa t (fmtA w) false)
  | 0x05 => some (.faa t (fmtA w) true)
  | 0x06 => some (.cas t (fmtA w) false)
  | 0x07 => some (.cas t (fmtA w) true)
  | _ => none

/-- Fences (R96). -/
def rowFence (t : Thr) (w : BitVec 32) : Option Instr :=
  match minorF w with
  | 0x00 => some (.fenceO t (fmtF w))
  | 0x01 => some (.fenceC t (fmtF w))
  | 0x02 => some (.isync t (fmtF w))
  | _ => none

/-- Indirect jumps (R98). -/
def rowJump (t : Thr) (w : BitVec 32) : Option Instr :=
  match minorA w with
  | 0x00 => some (.jr t (fmtA w))
  | 0x01 => some (.jlr t (fmtA w))
  | 0x02 => some (.ret t (fmtA w))
  | _ => none

/-- System (R99). -/
def rowSystem (t : Thr) (w : BitVec 32) : Option Instr :=
  match minorF w with
  | 0x00 => some (.mfs t (fmtF w))
  | 0x01 => some (.mts t (fmtF w))
  | 0x02 => some (.eret t (fmtF w))
  | 0x03 => some (.syscall t (fmtF w))
  | 0x04 => some (.mcall t (fmtF w))
  | 0x05 => some (.brk t (fmtF w))
  | 0x06 => some (.evdone t (fmtF w))
  | 0x07 => some (.wait t (fmtF w))
  | _ => none

/-- Cache and TLB maintenance (R100). -/
def rowMaint (t : Thr) (w : BitVec 32) : Option Instr :=
  match minorF w with
  | 0x00 => some (.cclean t (fmtF w))
  | 0x01 => some (.cflush t (fmtF w))
  | 0x02 => some (.cinv t (fmtF w))
  | 0x03 => some (.czero t (fmtF w))
  | 0x04 => some (.iinv t (fmtF w))
  | 0x08 => some (.tlbinv t (fmtF w))
  | _ => none

/-- The row that a word spells for a thread (R81): its major opcode picks the format and the group, its minor code the
row. `none` is a word whose opcode or minor code is reserved, 0x0000_0000 and 0xFFFF_FFFF among them; it raises ILLEGAL
(R80). -/
def decodeWord (t : Thr) (w : BitVec 32) : Option Instr :=
  match opField w with
  | 0x01 => rowInteger t w
  | 0x02 => rowMulDiv t w
  | 0x03 => rowDecimal t w
  | 0x04 => some (.dmulk t (fmtB w))
  | 0x05 => rowCrypto t w
  | 0x08 => some (.addi t (fmtB w))
  | 0x09 => some (.andi t (fmtB w))
  | 0x0A => some (.ori t (fmtB w))
  | 0x0B => some (.xori t (fmtB w))
  | 0x0C => some (.slti t (fmtB w))
  | 0x0D => some (.sltui t (fmtB w))
  | 0x0E => some (.shi t (fmtB w))
  | 0x0F => some (.ins t (fmtB w))
  | 0x10 => rowFloat t w
  | 0x20 => rowLoad t w
  | 0x21 => rowStore t w
  | 0x22 => rowAtomic t w
  | 0x24 => rowFence t w
  | 0x30 => some (.beq t (fmtD w))
  | 0x31 => some (.bne t (fmtD w))
  | 0x32 => some (.blt t (fmtD w))
  | 0x33 => some (.bge t (fmtD w))
  | 0x34 => some (.bltu t (fmtD w))
  | 0x35 => some (.bgeu t (fmtD w))
  | 0x38 => some (.j t (fmtE w))
  | 0x39 => some (.jl t (fmtE w))
  | 0x3A => rowJump t w
  | 0x3C => rowSystem t w
  | 0x3D => rowMaint t w
  | _ => none

/-- The command that a word spells: an instruction of the instruction set, at core thread 0, by the encodings of R79 to
R100. The table itself gives its rows no bits. DESIGN CHOICE (log entry 9). -/
def decodeTableWord (nbits w : Nat) : Option Instr :=
  if nbits = 32 then decodeWord (.core 0) (BitVec.ofNat 32 w) else none

end Sys2Proof
end

