-- ==== Sys2Proof/Config.lean ====
section
/-! DEFINITION. What the spec leaves open, as constants with no value: free values taken by a counter of the state,
and the fused or published quantities whose bits the spec does not state. -/
namespace Sys2Proof

/-- The n-th free yes-or-no the spec leaves open: whether a store completed with error is performed at its target
(R179). -/
opaque Config.freeBit : Nat → Bool

/-- The n-th free byte: bytes of lost-store rings that overlap (R184), SIZE of a whole-line entry (R183), and other bytes
that no rule gives. -/
opaque Config.freeByte : Nat → Byte

/-- The index of a hub agent as a receiver in the error log (R433): the ledger (0), the event router (1), another unit of
the device regions (2), the ridge switch (3). The spec numbers
the eight hub agents nowhere. -/
opaque Config.hubAgent : Nat → BitVec 12

/-- The number by which a TYPE 0x000C log entry names a rail that PWR_GET does not number (R433). -/
opaque Config.railCode : Nat → BitVec 3

/-- The rate correction, in 2^-32 ns for each 10 ns, that alignment sets for a measured offset in ns below 1 us (R62); the
spec gives its effect and its limits. -/
opaque Config.rateFor : Int → Int

/-- The n-th free TLP header: that of a TLP which AER logs and whose command does not bring it (R375). PRESUMED
(log entry 111). -/
opaque Config.tlpHeader : Nat → BitVec 128

/-- Bytes of the endpoint's completion buffer beyond the 4 KiB of one whole read; opaque: the spec states no size (R357).
DESIGN CHOICE (log entry 121). -/
opaque Config.readBufferExtra : Nat

/-- Max Read Request Size code that holds at a head at some TIME, as a remote device knows it; opaque: no message of R400
carries it (R408). DESIGN CHOICE (log entry 121). -/
opaque Config.headMrrs : BitVec 16 → Word → BitVec 3

/-- Scrambler seed of a ridge lane; opaque: the spec states none (R387). DESIGN CHOICE (log entry 109). -/
opaque Config.scrambleSeed : Nat → BitVec 23

/-- The n-th free mask of ring spans: those that no link carries after a RING_STATE, whose payload does not name them
(R393, R401). DEDUCED (log entry 108). -/
opaque Config.freeSpans : Nat → BitVec 64

/-- Bits of configuration-space doublewords that neither the spec nor its capability table fixes (R356). -/
opaque Config.cfgOpen : Nat → BitVec 32

/-- The fused serial number (R361); the spec states no value. -/
opaque Config.serial : BitVec 64

/-- SHA-384 of a byte string (R435, R469), as the published standard gives it. -/
opaque Config.sha384 : List Byte → List Byte

/-- ECDSA verification over brainpoolP384r1 (R469, R470): public key index, message digest, signature. -/
opaque Config.ecdsaVerify : Nat → List Byte → List Byte → Bool

/-- The fused hash of the store's verifying key (R435, R470); the spec states no value. -/
opaque Config.storeKeyHash : List Byte

/-- The identity key's ECDSA signature over a digest (R435). -/
opaque Config.identitySign : List Byte → List Byte

/-- The identity public key, a 97-byte SEC1 uncompressed point (R435). -/
opaque Config.identityKey : List Byte

/-- ADZ_ID.ENGINE of the spare Sd while it serves no index; opaque: the spec states none (R28, R279).
DESIGN CHOICE (log entry 98). -/
opaque Config.idleSpareIndex : Nat → BitVec 6

/-- TYPE of the error log entry of an ECC mode that a channel's population does not meet; opaque: R433 lists none (R339).
DESIGN CHOICE (log entry 97). -/
opaque Config.unmetModeType : BitVec 16

/-- TYPE of the error log entry of a WRIGHT notice for which R433 lists no TYPE; opaque: the spec states none (R313, R433).
DESIGN CHOICE (log entry 97). -/
opaque Config.noticeType : BitVec 16

/-- TYPE of the error log entry of a settings entry that is not used; opaque: R433 lists none (R473).
DESIGN CHOICE (log entry 97). -/
opaque Config.unusedEntryType : BitVec 16

end Sys2Proof
end

