-- ==== Sys2Proof/Machine/Bits.lean ====
section
/-! DEFINITION. Bit fields, sign extension, little-endian bytes (R12) and saturating counts. -/
namespace Sys2Proof.Machine

/-- Bits [lo+n-1:lo] of a word (R12). -/
def fld (w : Word) (lo n : Nat) : BitVec n := w.extractLsb' lo n

/-- Bit `i` of a word. -/
def bit (w : Word) (i : Nat) : Bool := w.getLsbD i

/-- A field placed at bit `lo` of a 64-bit word. -/
def at' {n : Nat} (v : BitVec n) (lo : Nat) : Word := (v.setWidth 64) <<< lo

/-- A flag placed at bit `i`. -/
def atB (b : Bool) (i : Nat) : Word := if b then (1 : Word) <<< i else 0

/-- One bit as a number. -/
def bnat (b : Bool) : Nat := if b then 1 else 0

/-- Sign extension of the low `n` bits of a word. -/
def sextN (n : Nat) (w : Word) : Word := (w.setWidth n).signExtend 64

/-- Zero extension of the low `n` bits of a word. -/
def zextN (n : Nat) (w : Word) : Word := (w.setWidth n).setWidth 64

/-- Replace bits [lo+n-1:lo] of a word. -/
def setFld {n : Nat} (w : Word) (lo : Nat) (v : BitVec n) : Word :=
  (w &&& ~~~(at' (BitVec.allOnes n) lo)) ||| at' v lo

/-- The `n` low bytes of a word, lowest first (R12). -/
def bytesOf (n : Nat) (w : Word) : List Byte := (List.range n).map (fun i => w.extractLsb' (8 * i) 8)

/-- The number that bytes spell, lowest first (R12). -/
def natOfBytes : List Byte → Nat
  | [] => 0
  | b :: t => b.toNat + 256 * natOfBytes t

/-- The word that up to eight bytes spell. -/
def wordOf (l : List Byte) : Word := BitVec.ofNat 64 (natOfBytes l)

/-- The `n` bytes of a number, lowest first. -/
def bytesOfNat : Nat → Nat → List Byte
  | 0, _ => []
  | n + 1, v => BitVec.ofNat 8 v :: bytesOfNat n (v / 256)

/-- Bytes [off, off+n) of a list, zero beyond its end. -/
def sliceB (l : List Byte) (off n : Nat) : List Byte :=
  (List.range n).map (fun i => (l[off + i]?).getD 0)

/-- A little-endian field of `n` bytes at byte offset `off`. -/
def fieldB (l : List Byte) (off n : Nat) : Nat := natOfBytes (sliceB l off n)

/-- Pad with zero bytes to `n` bytes, or cut to `n`. -/
def padTo (n : Nat) (l : List Byte) : List Byte := sliceB l 0 n

/-- One bit of CRC-32C, with the reflected polynomial (R97). -/
def crcBit (c : BitVec 32) : BitVec 32 := if c.getLsbD 0 then (c >>> 1) ^^^ 0x82F63B78 else c >>> 1

/-- One byte of CRC-32C (R97). -/
def crcByte (c : BitVec 32) (b : Byte) : BitVec 32 :=
  (List.range 8).foldl (fun acc _ => crcBit acc) (c ^^^ b.setWidth 32)

/-- Add `k` without passing the largest value of the width (saturating counts). -/
def satAdd {n : Nat} (v : BitVec n) (k : Nat) : BitVec n := BitVec.ofNat n (Nat.min (v.toNat + k) (2 ^ n - 1))

/-- Add 1 without passing the largest value of the width. -/
def satInc {n : Nat} (v : BitVec n) : BitVec n := satAdd v 1

/-- Number of set bits. -/
def popcount {n : Nat} (v : BitVec n) : Nat := ((List.range n).filter (fun i => v.getLsbD i)).length

/-- Indices of the set bits, rising. -/
def bitsOf {n : Nat} (v : BitVec n) : List Nat := (List.range n).filter (fun i => v.getLsbD i)

/-- Set or clear bit `i`. -/
def setBit {n : Nat} (v : BitVec n) (i : Nat) (b : Bool) : BitVec n :=
  if b then v ||| BitVec.twoPow n i else v &&& ~~~(BitVec.twoPow n i)

/-- All of the 64-byte line that holds a physical address: its number pa[47:6]. -/
def lineOf (pa : BitVec 48) : BitVec 42 := pa.extractLsb' 6 42

/-- First address of a line. -/
def lineAddr (l : BitVec 42) : BitVec 48 := (l.setWidth 48) <<< 6

/-- Reservation granule pa[47:7] (R173). -/
def granuleOf (pa : BitVec 48) : BitVec 41 := pa.extractLsb' 7 41

/-- The granule of a line. -/
def granuleOfLine (l : BitVec 42) : BitVec 41 := l.extractLsb' 1 41

/-- Bits [63:48] all equal bit 47 (R72). -/
def canonicalVa (va : Word) : Bool := (va.setWidth 48).signExtend 64 == va

/-- Sign-extended from bit 47, as X_EVEC and X_EPC read (R77). -/
def sext48 (v : BitVec 48) : Word := v.signExtend 64

end Sys2Proof.Machine
end

