-- ==== Sys2Proof/Machine/State.lean ====
section
/-! DEFINITION. The state of the block: every register, buffer, queue, mode and pin the spec gives the AW3160, as
plain data, and its value after reset. A `Tbl` holds an entry only where it differs from the reset value beside it. -/
namespace Sys2Proof.Machine

/-- Reasons a command could stop with a fault. The spec gives every command of the table an effect, so no meaning
raises one (safe: nothing is stopped that the hardware would do). DESIGN CHOICE (log entry 78). -/
inductive Fault where
  /-- Kept so that the type has a value; raised by nothing. Safe. -/
  | noEffectGiven
deriving DecidableEq, Repr

/-- Reasons the model refuses a command. DESIGN CHOICE (log entry 78). -/
inductive Refusal where
  /-- The command has no meaning in this model yet; raised by the dispatch alone. Safe. -/
  | notModelled (mnemonic : String)
deriving DecidableEq, Repr

/-- Byte memory: address and byte pairs in rising order of address, none equal to what an unlisted address reads. -/
abbrev Mem := List Host.Cell

/-! ## Threads (R69 to R111) -/

/-- A general register with its poison tag (R69). -/
structure PReg where
  val : Word
  poison : Bool
deriving DecidableEq, Repr

/-- A floating-point register with its poison tag and its width tag, true for S (R71). -/
structure FReg where
  val : Word
  poison : Bool
  single : Bool
deriving DecidableEq, Repr

/-- The privilege levels of R73. -/
inductive Priv where
  | U | K | M
deriving DecidableEq, Repr

/-- The registers an exception saves into, once for K and once for M (R77). -/
structure XRegs where
  /-- X_EVEC[47:8] -/
  evec : BitVec 40
  /-- X_EPC[47:2] -/
  epc : BitVec 46
  code : BitVec 8
  half : Bool
  acc : BitVec 2
  lost : BitVec 16
  eaddr : Word
  einfo : Word
  scratch : Word
deriving DecidableEq, Repr

/-- DESIGN CHOICE (log entry 1). -/
def XRegs.reset : XRegs := ⟨0, 0, 0, false, 0, 0, 0, 0, 0⟩

/-- TSTAT (R77). -/
structure Tstat where
  priv : Priv
  ie : Bool
  kFrame : Bool
  mFrame : Bool
  kPpriv : Priv
  mPpriv : Priv
  kPie : Bool
  mPie : Bool
deriving DecidableEq, Repr

def Tstat.reset : Tstat := ⟨.M, false, false, false, .U, .U, false, false⟩

/-- Where an adze thread that runs stands in its instruction (R273, R274, R279). -/
inductive Held where
  /-- at an instruction boundary -/
  | ready
  /-- in a wait that an interrupt ends: a store held in M for a queue entry, a FENCE.O -/
  | abandonable
  /-- in any other wait of its instruction -/
  | other
  /-- in beats 1 to 6 of an interrupt entry -/
  | entering
deriving DecidableEq, Repr

/-- What a thread is doing (R107, R279, R320). -/
inductive Run where
  | notStarted
  | running
  /-- dozing in WAIT -/
  | dozing
  /-- stopped under R107 -/
  | stopped
  /-- waiting for the response to the outstanding access named -/
  | awaiting (id : Nat)
  /-- a FENCE.C waits for older accesses (R161) -/
  | fencing
deriving DecidableEq, Repr

/-- Kinds of released access; the first eight are the KIND codes of R183. -/
inductive AccKind where
  | store | stcnd | faa | cas | czero | cclean | cinv | iinv | load
deriving DecidableEq, Repr

/-- Where a returning value goes: a g register, sign- or zero-extended, or an f register (R94). -/
structure Dest where
  reg : BitVec 5
  isF : Bool
  signed : Bool
  single : Bool
deriving DecidableEq, Repr

/-- A store in the thread's store buffer or store queue (R155, R270), and a released access that has no
completion acknowledgement yet (R152, R178). Size in bytes, data from bit 0 in memory order. -/
structure Access where
  id : Nat
  seq : Nat
  kind : AccKind
  va : Word
  pa : BitVec 48
  size : Nat
  data : Word
  poison : Bool
  /-- second piece of a line-crossing access -/
  piece : Bool
  split : Bool
  /-- confirmed under R123 -/
  conf : Bool
  /-- its address is known (R131) -/
  known : Bool
  /-- STL: released only after every older access is performed (R163) -/
  ordered : Bool
  /-- streaming hint (R197) -/
  nt : Bool
  dest : Option Dest
  /-- TIME of release -/
  tRel : Word
  /-- LOST_PENDING as it stood at release (R296) -/
  lost : BitVec 16
  /-- bytes of a two-piece load already returned -/
  part : Word
  /-- an LDRES (R173) -/
  resv : Bool
  /-- an atomic: some register it read is poisoned (R102) -/
  tagged : Bool
  /-- its line missed in the L1 data cache when it was made (R196, R199) -/
  missed : Bool
  /-- a store to EV_SEND whose event the router has accepted: its record is awaited (R321) -/
  sent : Bool
  /-- its message has been discarded at the receiver (R249) -/
  gone : Bool
  /-- generation and site of its thread's unit at release (R247, R250) -/
  gen : BitVec 16
  site : BitVec 7
deriving DecidableEq, Repr

/-- Architectural registers kept with an unconfirmed load, restored by a squash (R133). -/
structure Snapshot where
  g : Tbl PReg
  f : Tbl FReg
  pc : Word
  dov : Bool
  fpFlags : BitVec 5
deriving DecidableEq, Repr

/-- A conditional branch, JR, JLR or RET in flight: where it goes, what was predicted, and whether it has resolved. -/
structure BrInfo where
  target : Word
  predicted : Option Word
  resolved : Bool
  isRet : Bool
deriving DecidableEq, Repr

/-- A load in flight (R131, R199). -/
structure LdInfo where
  pa : BitVec 48
  /-- first byte of the second piece of a line-crossing load -/
  pa2 : Option (BitVec 48)
  size : Nat
  /-- trains prefetch streams (R199) -/
  trains : Bool
  /-- streaming hint (R197) -/
  nt : Bool
  /-- marked as executing again after a memory-order violation -/
  again : Bool
  /-- its destination, where that is a g register -/
  reg : Option (BitVec 5)
  /-- number of the store that gave it every byte, so that it read no memory (R156) -/
  fwd : Option Nat
  /-- lines it took from shim entries, whose ordinary read their comparison makes (R129) -/
  shim : List (BitVec 42)
  /-- the L1 way each of its lines hit when it executed (R198) -/
  ways : List (BitVec 42 × Nat)
  /-- its first line missed in the L1 data cache when it executed (R199) -/
  missed : Bool
deriving DecidableEq, Repr

/-- How a fetched instruction came to its thread ahead of confirmation: the line and the half of it, the L1 way it hit,
or a peek (R129, R198). -/
structure FetchUse where
  line : BitVec 42
  hi : Bool
  way : Option Nat
  peek : Bool
deriving DecidableEq, Repr

/-- An entry of a thread's fetch buffer (R112, R114). -/
structure FetchE where
  pc : Word
  use : Option FetchUse
deriving DecidableEq, Repr

/-- An executed instruction of a core thread that has not retired: its reorder entry (R112, R123). -/
structure UOp where
  seq : Nat
  pc : Word
  /-- confirmed (R123) -/
  conf : Bool
  /-- how it was fetched, when that was ahead of confirmation -/
  fetch : Option FetchUse
  /-- first virtual byte and size of its memory access; size 0 for one that makes none -/
  va : Word
  sz : Nat
  br : Option BrInfo
  /-- return address pushed on confirmation (R119) -/
  push : Option Word
  /-- RET: pops on confirmation -/
  pop : Bool
  ld : Option LdInfo
  /-- id of the store-buffer entry -/
  st : Option Nat
  /-- events it caused before confirmation, counted at confirmation (R480) -/
  evs : List Nat
  snap : Snapshot
deriving DecidableEq, Repr

/-- The reservation of a thread (R173): its granule and the TIME and place of its LDRES. -/
structure Resv where
  /-- pa[47:7] -/
  granule : BitVec 41
  dbl : Bool
  pa : BitVec 48
deriving DecidableEq, Repr

/-- One 16-byte event record (R312). -/
structure EvRec where
  source : BitVec 8
  prio : BitVec 4
  inj : Bool
  ovf : Bool
  index : BitVec 16
  tstamp : BitVec 32
  payload : Word
  /-- the key of its sender and the store that carries it, which waits for the record (R321) -/
  sender : Option (Nat × Nat)
deriving DecidableEq, Repr

/-- The event state of a thread (R323). -/
structure EvState where
  /-- EVQ_BASE[47:6] -/
  base : BitVec 42
  en : Bool
  size : BitVec 4
  tprio : BitVec 4
  cprio : BitVec 4
  /-- priority stack, top first (R317) -/
  stack : List (BitVec 4)
  injData : Word
  timer : Word
  ovf : BitVec 16
  noq : BitVec 16
  head : Tbl (BitVec 16)
  tail : Tbl (BitVec 16)
  /-- lanes whose next record carries OVF (R316) -/
  lostLanes : BitVec 16
  /-- records written whose acknowledgement is awaited (R310), oldest first -/
  writing : List EvRec
  /-- the DISPATCH event held at the router (R316) -/
  held : Option EvRec
deriving DecidableEq, Repr

def EvState.reset : EvState :=
  ⟨0, false, 2, 3, 0xE, [], 0, 0, 0, 0, [], [], 0, [], none⟩

/-- PMC_CTL_n (R482). -/
structure PmcCtl where
  event : BitVec 8
  en : Bool
  level : Bool
  chain : Bool
  int : Bool
  priv : BitVec 3
  spec : Bool
  ctxPriv : Priv
  ctxAsid : BitVec 16
deriving DecidableEq, Repr

def PmcCtl.reset : PmcCtl := ⟨0, false, false, false, false, 7, false, .U, 0⟩

/-- The performance counters of a thread (R476). -/
structure Pmu where
  freeze : Bool
  uread : Bool
  tEn : Bool
  tPriv : BitVec 3
  frzOvf : Bool
  ovf : BitVec 6
  time : Word
  ctl : Tbl PmcCtl
  cnt : Tbl (BitVec 48)
deriving DecidableEq, Repr

def Pmu.reset : Pmu := ⟨false, false, true, 7, false, 0, 0, [], []⟩

/-- One thread. Core-only fields stay at their reset values on adze threads. -/
structure Thread where
  g : Tbl PReg
  f : Tbl FReg
  pc : Word
  tstat : Tstat
  dov : Bool
  dove : Bool
  /-- FPCSR flags NX UF OF DZ NV from bit 0 -/
  fpFlags : BitVec 5
  fpTrap : BitVec 5
  fpRm : BitVec 3
  xk : XRegs
  xm : XRegs
  /-- EXC_ROUTE.ROUTE: bit n routes exception n + 1 -/
  route : BitVec 18
  irqM : Bool
  ptRoot : BitVec 36
  asid : BitVec 16
  trEn : Bool
  trKnxU : Bool
  trKaccU : Bool
  noMds : Bool
  noRsp : Bool
  noPeek : Bool
  tmo : BitVec 12
  logEn : Bool
  logSize : BitVec 4
  logBase : BitVec 36
  logHead : BitVec 32
  logTail : BitVec 32
  logFirst : BitVec 32
  lostPending : BitVec 16
  dropped : BitVec 16
  loadLost : BitVec 16
  logFail : Bool
  ev : EvState
  pmu : Pmu
  run : Run
  /-- parked at an instruction boundary while its unit is sistered or its domain drops (R246, R456) -/
  parked : Bool
  /-- parked by solo mode (R136) -/
  soloParked : Bool
  /-- an MTS of SOLO = 1 that another thread's went before; it executes when the thread is released (R136) -/
  soloLater : Bool
  /-- fetched instructions not executed yet, at most 16 (R112) -/
  fbuf : List FetchE
  /-- it waits for a fetch grant (R114) -/
  waitFetch : Bool
  /-- where an adze thread stands in its instruction (R273) -/
  held : Held
  /-- its next access waits for a shim entry (R126), or its store for a queue entry (R270) -/
  waitRoom : Bool
  /-- events that the instruction now at its access has caused so far, unconfirmed (R480) -/
  evs : List Nat
  /-- next sequence and access numbers of this thread -/
  nextSeq : Nat
  unconf : List UOp
  /-- return stack, top first (R119) -/
  rstack : List Word
  /-- memory-dependence predictor: marked load PCs with the confirmed loads since (R131) -/
  mdp : List (Word × Nat)
  /-- PC of the load a memory-order violation squashed, until it executes again (R131) -/
  redo : Option Word
  stores : List Access
  outst : List Access
  resv : Option Resv
deriving DecidableEq, Repr

/-- DESIGN CHOICE (log entry 1). -/
def Thread.reset : Thread where
  g := []
  f := []
  pc := 0
  tstat := Tstat.reset
  dov := false
  dove := false
  fpFlags := 0
  fpTrap := 0
  fpRm := 0
  xk := XRegs.reset
  xm := XRegs.reset
  route := 0
  irqM := false
  ptRoot := 0
  asid := 0
  trEn := false
  trKnxU := true
  trKaccU := false
  noMds := false
  noRsp := false
  noPeek := false
  tmo := 0x07D
  logEn := false
  logSize := 6
  logBase := 0
  logHead := 0
  logTail := 0
  logFirst := 0
  lostPending := 0
  dropped := 0
  loadLost := 0
  logFail := false
  ev := EvState.reset
  pmu := Pmu.reset
  run := .notStarted
  parked := false
  soloParked := false
  soloLater := false
  fbuf := []
  waitFetch := false
  held := .ready
  waitRoom := false
  evs := []
  nextSeq := 0
  unconf := []
  rstack := []
  mdp := []
  redo := none
  stores := []
  outst := []
  resv := none

/-! ## Caches, TLBs and cores (R112 to R149, R190 to R218) -/

/-- Line states of R219. -/
inductive Mesi where
  | I | S | E | M
deriving DecidableEq, Repr

/-- One way of a cache (R194): the line it holds (pa[47:6]), its state, age, and per-sector valid and dirty bits. -/
structure CLine where
  line : BitVec 42
  st : Mesi
  age : BitVec 2
  sv : BitVec 2
  sd : BitVec 2
  /-- this copy, which is clean, was poisoned in place or came so (R213, R215) -/
  bad : Bool
deriving DecidableEq, Repr

def CLine.reset : CLine := ⟨0, .I, 0, 0, 0, false⟩

/-- A TLB entry (R146). -/
structure TlbE where
  vpn : BitVec 36
  /-- page size as log2: 12, 21 or 30 -/
  lg : Nat
  asid : BitVec 16
  glb : Bool
  wr : Bool
  ex : Bool
  ua : Bool
  nrd : Bool
  ref : Bool
  mod : Bool
  /-- address of the page-table entry it was filled from, and the value the walk read (R143) -/
  pte : BitVec 48
  raw : Word
  ppn : BitVec 36
deriving DecidableEq, Repr

/-- A shim buffer entry: a peeked line with its data, or a walk result (R126). -/
structure ShimE where
  thr : Fin 4
  /-- number of the instruction that allocated it -/
  seq : Nat
  /-- a line for the instruction cache -/
  instr : Bool
  /-- lines, channels and devices of the corrected errors its peeks met, recorded if the access is confirmed (R130) -/
  found : List (BitVec 42 × Fin 16 × BitVec 6)
  line : BitVec 42
  data : BitVec 512
  poison : Bool
  /-- the data has arrived -/
  filled : Bool
  /-- answered DEFER: waits for confirmation (R127) -/
  deferred : Bool
  walk : Option TlbE
deriving DecidableEq, Repr

/-- A prefetch stream (R199). -/
structure Stream where
  thr : Fin 4
  pc : Word
  last : BitVec 48
  stride : Int
  conf : Nat
  run : Nat
deriving DecidableEq, Repr

/-- A coherence message in flight, by kind (R227). -/
inductive CKind where
  | rdS | rdX | upg | rdZ | peek | cln | fls | inv | hrd | hwr | hatm
  | fS | fX | fInv | fCln | fFls | fDis
  | ackInv | ackF | missWb | nack | defer | grant | done | wbAck
  | dH | dF | dO | dP | wbD | wbC
deriving DecidableEq, Repr

/-- Forwards whose answer a core withholds for a reservation (R176). -/
structure Hold where
  thr : Fin 4
  granule : BitVec 41
  owed : List (CKind × CMsg)
  /-- TIME at which the first of them began to wait (R240) -/
  since : Word
deriving DecidableEq, Repr

/-- A page walk ahead of confirmation (R143): the lines of the tables that its peeks have brought. -/
structure WalkE where
  thr : Fin 4
  /-- number of the instruction it is made for -/
  seq : Nat
  va : Word
  instr : Bool
  got : List (BitVec 42)
  /-- the line its peek has asked for -/
  await : Option (BitVec 42)
  /-- a peek was answered DEFER: the walk waits for confirmation (R127) -/
  deferred : Bool
  found : List (BitVec 42 × Fin 16 × BitVec 6)
deriving DecidableEq, Repr

/-- One general core. -/
structure Core where
  soloBit : Bool
  soloActive : Bool
  soloOwner : Fin 4
  /-- a CORE_SOLO write waits for the other threads to park -/
  soloWait : Option (Fin 4)
  /-- TIME of that write: a write of a lower thread in the same beat goes first (R136) -/
  soloAt : Word
  ien : Bool
  den : Bool
  pfen : Bool
  pfDepth : BitVec 2
  /-- a CACHE_CTL write that clears DEN waits for the store buffers: its thread and value (R206) -/
  ccWait : Option (Fin 4 × Word)
  l1i : Tbl CLine
  l1d : Tbl CLine
  itlb : List TlbE
  dtlb : List TlbE
  stlb : List TlbE
  shim : List ShimE
  /-- the page walkers, at most two (R112, R143) -/
  walks : List WalkE
  streams : List Stream
  prefetch : List (BitVec 42)
  /-- forwards held back for reservations, one entry per thread (R176) -/
  hold : List Hold
  /-- threads in the order they were last granted fetch, least recent first (R114) -/
  grants : List (Fin 4)
  deep : BitVec 4
  powered : Bool
  /-- the host's vote (VOTE) -/
  hvote : Bool
  drops : BitVec 16
deriving DecidableEq, Repr

def Core.reset : Core where
  soloBit := false
  soloActive := false
  soloOwner := 0
  soloWait := none
  soloAt := 0
  ien := true
  den := true
  pfen := true
  pfDepth := 1
  ccWait := none
  l1i := []
  l1d := []
  itlb := []
  dtlb := []
  stlb := []
  shim := []
  walks := []
  streams := []
  prefetch := []
  hold := []
  grants := [0, 1, 2, 3]
  deep := 0
  powered := false
  hvote := false
  drops := 0

/-! ## Bays, slices and coherence (R219 to R252) -/

/-- A reservation monitor entry: who holds it and the granule (R173, R192). -/
structure MonE where
  thr : Thr
  granule : BitVec 41
  gen : BitVec 16
  /-- one of the 24 shared entries -/
  shared : Bool
deriving DecidableEq, Repr

/-- The kinds of request a home takes (R227). -/
inductive ReqKind where
  | rdS | rdX | upg | rdZ | cln | fls | inv | hrd | hwr | hatm
deriving DecidableEq, Repr

/-- A request a requester has made and not finished (R224, R230). -/
structure CReq where
  kind : ReqKind
  line : BitVec 42
  home : Fin 40
  /-- the core whose L1 the line goes to, and whether to its instruction cache -/
  core : Option (Fin 160)
  instr : Bool
  /-- streaming fill (R197) -/
  nt : Bool
  /-- ACK_INV announced, once known -/
  need : Option (BitVec 8)
  got : BitVec 8
  /-- the bays those come from, and the bays that have sent theirs (R240) -/
  awaited : BitVec 40
  acked : BitVec 40
  haveData : Bool
  excl : Bool
  /-- the data came poisoned (R215) -/
  bad : Bool
  nacks : BitVec 8
  /-- TIME before which a NACKed request may not be retried -/
  backoff : Bool
  since : Word
deriving DecidableEq, Repr

/-- A request of an adze engine to a home, not answered yet (R237). Its message's tag tells it from the others. -/
structure EReq where
  kind : ReqKind
  msg : CMsg
  thr : Fin 512
  id : Nat
  backoff : Bool
  since : Word
deriving DecidableEq, Repr

/-- A bay's write-back buffer entry (R233): its message has been sent, or waits for a credit of its home (R226). -/
structure WbE where
  line : BitVec 42
  dirty : Bool
  sent : Bool
  /-- TIME at which its message was sent (R240) -/
  since : Word
deriving DecidableEq, Repr

/-- A bay: its cores' site map, L2, L2-as-memory and bay agent. -/
structure Bay where
  /-- sites of logical cores 0-3; 7 absent (R29) -/
  site0 : BitVec 3
  site1 : BitVec 3
  site2 : BitVec 3
  site3 : BitVec 3
  /-- spare site; 7 none -/
  spare : BitVec 3
  bad : BitVec 5
  retired : BitVec 5
  failed : Bool
  l2 : Tbl CLine
  wb : List WbE
  reqs : List CReq
  amSize : BitVec 3
  amCur : BitVec 3
  amBusy : Bool
  amLost : Bool
  l1Par : BitVec 16
  l2Ce : BitVec 16
  l2Ue : BitVec 8
  llcCe : BitVec 16
  llcUe : BitVec 8
  mon : List MonE
  retWays : BitVec 8
  powered : Bool
  hvote : Bool
  drops : BitVec 16
deriving DecidableEq, Repr

def Bay.reset : Bay where
  site0 := 0
  site1 := 1
  site2 := 2
  site3 := 3
  spare := 4
  bad := 0
  retired := 0
  failed := false
  l2 := []
  wb := []
  reqs := []
  amSize := 0
  amCur := 0
  amBusy := false
  amLost := false
  l1Par := 0
  l2Ce := 0
  l2Ue := 0
  llcCe := 0
  llcUe := 0
  mon := []
  retWays := 0
  powered := false
  hvote := false
  drops := 0

/-- Directory states of R222. -/
inductive DirSt where
  | I | S | X | BS | BX | BW | BE
deriving DecidableEq, Repr

/-- A directory entry (R221) with the request in progress for its line and the answers still to come. -/
structure DirE where
  line : BitVec 42
  st : DirSt
  sharers : BitVec 40
  owner : BitVec 6
  rsvq : Bool
  /-- the accepted request that made the entry busy -/
  req : Option (ReqKind × CMsg)
  /-- the entry was in X when the transaction began (R243) -/
  fromX : Bool
  /-- bays whose answers the home itself still awaits -/
  awaits : BitVec 40
  /-- bays sent a forward in this transaction that MISS_WB may answer (R234) -/
  fwd : BitVec 40
  /-- the bays whose write-backs a BW entry waits for -/
  wbOf : BitVec 40
  /-- bays whose WB_C was acknowledged while the entry was busy, cleared when it is next stable (R233) -/
  gone : BitVec 40
  since : Word
deriving DecidableEq, Repr

def DirE.reset : DirE := ⟨0, .I, 0, 0, false, none, false, 0, 0, 0, 0, 0⟩

/-- An LLC slice with its directory: the home node (R220, R223). -/
structure Slice where
  dir : Tbl DirE
  llc : Tbl CLine
  /-- requests held while a victim entry is evicted (R236): the victim's way key and the request -/
  heldAlloc : List (Nat × ReqKind × CMsg)
  /-- reservation queue, oldest first (R230) -/
  rsv : List (ReqKind × CMsg)
  /-- write-back messages held while their entry is busy (R234) -/
  wbBuf : List (CKind × CMsg)
  /-- reservations of adze threads on DRAM (R192) -/
  mon : List MonE
  /-- requesters of lines without an entry whose DONE is still to come -/
  dones : List (Agent × BitVec 42)
  /-- owners sent F_S whose D_O may still come, even after the entry has moved on (R227) -/
  late : List (Nat × BitVec 42)
deriving DecidableEq, Repr

def Slice.reset : Slice := ⟨[], [], [], [], [], [], [], []⟩

/-- A source-table entry (R247). -/
structure SrcEnt where
  gen : BitVec 16
  isOpen : Bool
  tChange : Word
deriving DecidableEq, Repr

def SrcEnt.reset : SrcEnt := ⟨0, false, 0⟩

/-- Partition states of R34. -/
inductive PartSt where
  | unused | active | standby | down | restarting
deriving DecidableEq, Repr

/-- A partition: its layout, its coherence registers and its event routing (R31, R251, R324). -/
structure Part where
  st : PartSt
  bays : BitVec 40
  engines : BitVec 64
  /-- owned 1 GiB ranges, rising -/
  ranges : List (BitVec 13)
  dmbox : BitVec 16
  standby : Option (Fin 8)
  hold : Bool
  cohTmo : BitVec 12
  retryGap : BitVec 4
  cause : BitVec 8
  detBay : BitVec 6
  downs : BitVec 16
  rsvGrants : BitVec 16
  /-- the unit the cause names (R244) -/
  downUnit : Option Src
  salvaged : Bool
  /-- its threads have started (R463) -/
  started : Bool
  /-- a start failed (R463) -/
  startFailed : Bool
  /-- start reason that g2 receives: 0 bring-up, 1 restart after DOWN, 2 PART_SET (R463) -/
  reason : BitVec 2
  kthread : BitVec 10
  kkind : Bool
  ken : Bool
  sprio : BitVec 4
  dprio : BitVec 16
  mprio : BitVec 4
  /-- TIMEs of class 1-3 dispatches while braced (R295) -/
  braceTimes : List Word
  /-- deficit round robin: items each queue may still send this round, by queue (R292) -/
  credits : Tbl Nat
  /-- the queue served last in each class -/
  lastq : Tbl Nat
deriving DecidableEq, Repr

def Part.reset : Part where
  st := .unused
  bays := 0
  engines := 0
  ranges := []
  dmbox := 0
  standby := none
  hold := false
  cohTmo := 0x020
  retryGap := 1
  cause := 0
  detBay := 0
  downs := 0
  rsvGrants := 0
  downUnit := none
  salvaged := false
  started := false
  startFailed := false
  reason := 0
  kthread := 0
  kkind := false
  ken := false
  sprio := 2
  dprio := 0xC840
  mprio := 6
  braceTimes := []
  credits := []
  lastq := []

/-! ## Adze engines (R253 to R281) -/

/-- An entry of an engine's address map (R279). -/
structure MapE where
  v : Bool
  nrd : Bool
  wr : Bool
  ex : Bool
  ua : Bool
  glb : Bool
  lg : BitVec 6
  vbase : BitVec 36
  pbase : BitVec 36
  asid : BitVec 16
deriving DecidableEq, Repr

def MapE.reset : MapE := ⟨false, false, false, false, false, false, 0x0C, 0, 0, 0⟩

/-- An adze engine by its index. -/
structure Engine where
  onSpare : Bool
  outOfService : Bool
  cls : BitVec 32
  ibufBase : BitVec 8
  ibufSize : BitVec 3
  scrubEn : Bool
  lost : Bool
  ce : BitVec 16
  ue : BitVec 8
  lastUe : BitVec 18
  start : BitVec 16
  map : Tbl MapE
  mon : List MonE
  scrubPtr : BitVec 12
  /-- TIME of the scrubber's last read -/
  scrubT : Word
deriving DecidableEq, Repr

def Engine.reset : Engine where
  onSpare := false
  outOfService := false
  cls := 0xEEEEEEE1
  ibufBase := 0xE0
  ibufSize := 4
  scrubEn := true
  lost := false
  ce := 0
  ue := 0
  lastUe := 0
  start := 0
  map := []
  mon := []
  scrubPtr := 0
  scrubT := 0

/-- An adze cluster's power domain (R454). -/
structure Cluster where
  powered : Bool
  hvote : Bool
deriving DecidableEq, Repr

def Cluster.reset : Cluster := ⟨false, false⟩

/-! ## Ingress queues, ledger and dispatcher (R282 to R308) -/

/-- The register block of an ingress queue (R282), and where it is mapped. -/
structure Queue where
  en : Bool
  inlineMode : Bool
  cls : BitVec 2
  part : BitVec 3
  inst : BitVec 8
  target : BitVec 2
  rsize : BitVec 4
  quota : BitVec 16
  weight : BitVec 8
  rlimit : BitVec 5
  qlimit : BitVec 5
  quenched : Bool
  vector : BitVec 11
  vecEn : Bool
  descBase : BitVec 52
  cplBase : BitVec 52
  ai : BitVec 32
  floor : BitVec 32
  delivered : BitVec 32
  lastReason : BitVec 4
  lastValue : BitVec 32
  refused : BitVec 24
  slot : Option (Fin 256)
  /-- delivery is armed (R304) -/
  armed : Bool
deriving DecidableEq, Repr

def Queue.reset : Queue where
  en := false
  inlineMode := false
  cls := 3
  part := 0
  inst := 0
  target := 3
  rsize := 0
  quota := 0
  weight := 1
  rlimit := 0
  qlimit := 0
  quenched := false
  vector := 0
  vecEn := false
  descBase := 0
  cplBase := 0
  ai := 0
  floor := 0
  delivered := 0
  lastReason := 0
  lastValue := 0
  refused := 0
  slot := none
  armed := false

/-- Ledger entry states of R300. -/
inductive EntSt where
  | free | queued | fetch | owned | closing
deriving DecidableEq, Repr

/-- A ledger entry with what the device holds of its item. -/
structure Entry where
  st : EntSt
  queue : Fin 1024
  seq : BitVec 32
  cls : BitVec 2
  etag : BitVec 16
  tAccept : Word
  qlimit : BitVec 5
  isInline : Bool
  /-- the 64 bytes of an inline item, or the descriptor once read -/
  desc : List Byte
  /-- the descriptor has passed its checks -/
  descOk : Bool
  data : List Byte
  /-- DATA_LEN learnt from the descriptor (R293) -/
  dataLen : Option Nat
  /-- TAG of the descriptor, once it has been read (R301) -/
  tag : Option Word
  resv : Option Thr
  /-- the buffer write is under way -/
  writing : Bool
  owner : Option Thr
  gen : BitVec 16
  tOwned : Word
  rlimit : BitVec 5
  evSent : Bool
  fail : Bool
  trunc : Bool
  lastStep : BitVec 4
  cause : BitVec 8
  detail : BitVec 8
  code : BitVec 16
  resLen : BitVec 16
  lost : BitVec 16
  tEnd : Word
  result : List Byte
  /-- result bytes that came from a poisoned line, by line of the data area -/
  resPoison : List Bool
  /-- remote delivery: D_WR messages not yet acknowledged, and REC sent (R408) -/
  dwrWait : Nat
  recSent : Bool
  /-- the head has acknowledged every D_WR of the item (R408) -/
  dwrDone : Bool
deriving DecidableEq, Repr

def Entry.reset : Entry where
  st := .free
  queue := 0
  seq := 0
  cls := 0
  etag := 0
  tAccept := 0
  qlimit := 0
  isInline := false
  desc := []
  descOk := false
  data := []
  dataLen := none
  tag := none
  resv := none
  writing := false
  owner := none
  gen := 0
  tOwned := 0
  rlimit := 0
  evSent := false
  fail := false
  trunc := false
  lastStep := 0
  cause := 0
  detail := 0
  code := 0
  resLen := 0
  lost := 0
  tEnd := 0
  result := []
  resPoison := []
  dwrWait := 0
  recSent := false
  dwrDone := false

/-- DISP_CORE_t (R291). -/
structure DispCore where
  en : Bool
  classes : BitVec 4
  ibuf : BitVec 36
deriving DecidableEq, Repr

def DispCore.reset : DispCore := ⟨false, 0, 0⟩

/-- The item ledger and the dispatcher. -/
structure Ledger where
  ent : Tbl Entry
  late : BitVec 24
  ce : BitVec 16
  disp : Tbl DispCore
  braceRate : BitVec 16
  /-- the entry and ETAG of the item that each thread holds (R291, R297) -/
  holds : Tbl (Option (Nat × BitVec 16))
  /-- thread keys in the order they were last given an item, least recent first -/
  given : List Nat
deriving DecidableEq, Repr

def Ledger.reset : Ledger := ⟨[], 0, 0, [], 0x0010, [], []⟩

/-! ## DRAM (R329 to R352) -/

/-- Module type of a DIMM (R329). -/
inductive ModKind where
  | rdimm
  | lrdimm
  | rdimm3ds
  /-- UDIMM, SODIMM, NVDIMM -/
  | other
deriving DecidableEq, Repr

/-- A DIMM as its SPD data describes it (R329). -/
structure Dimm where
  kind : ModKind
  /-- 72 bits wide, with ECC -/
  ecc : Bool
  /-- device width in bits -/
  width : Nat
  /-- device density in Gb -/
  density : Nat
  /-- package ranks -/
  ranks : Nat
  /-- 3DS stack height; 1 for devices that are not stacked -/
  stack : Nat
  /-- rated speed as MC_STAT.SPEED codes it -/
  speed : BitVec 3
deriving DecidableEq, Repr

/-- The DIMMs of a channel, by slot (R330). DESIGN CHOICE (log entry 12). -/
structure Dimms where
  slot0 : Option Dimm
  slot1 : Option Dimm
deriving DecidableEq, Repr

/-- DESIGN CHOICE (log entry 12). -/
def Dimms.none : Dimms := ⟨Option.none, Option.none⟩

/-- Work of a channel's conversion queue (R346). -/
inductive ChanJob where
  | pairing (rank : BitVec 4)
  | rankCopy (rank : BitVec 4)
  | softPpr (line : BitVec 42)
  | resilver
deriving DecidableEq, Repr

/-- A memory channel: MC_CTL, MC_STAT, MC_ERR, MC_ELOG and what the controller keeps. DESIGN CHOICE (log entry 42). -/
structure Chan where
  eccMode : BitVec 2
  scrubEn : Bool
  scrubHours : BitVec 8
  spareRank : Bool
  pprEn : Bool
  devThresh : BitVec 8
  rankThresh : BitVec 8
  rowThresh : BitVec 4
  st : BitVec 3
  solo : Bool
  sparedRank : BitVec 4
  spareUsed : Bool
  speed : BitVec 3
  devMarked : BitVec 16
  sppr : BitVec 8
  ce : BitVec 16
  ue : BitVec 16
  masked : BitVec 16
  wbLost : BitVec 16
  elLine : BitVec 42
  elRank : BitVec 4
  elDevice : BitVec 6
  elUe : Bool
  elPatrol : Bool
  /-- open rows: rank, bank group, bank (as one number) and row -/
  rows : Tbl (Option (BitVec 18))
  /-- last readings of the two DIMM sensors, signed, in units of 0.125 °C (R333) -/
  dimmT0 : BitVec 16
  dimmT1 : BitVec 16
  /-- a sensor read above 95 °C and has not been clear for 10 ms; TIME from which both have been at or below 90 °C -/
  hot : Bool
  coolFrom : Option Word
  /-- corrected errors: rank, device, line and TIME -/
  ceLog : List (BitVec 4 × BitVec 6 × BitVec 42 × Word)
  /-- TIMEs of uncorrectable reads -/
  ueLog : List Word
  /-- soft repairs made: rank and bank group -/
  pprUsed : List (BitVec 4 × BitVec 2)
  paired : BitVec 16
  /-- marked devices: rank and device (R343) -/
  marked : List (BitVec 4 × BitVec 6)
  job : Option ChanJob
  jobs : List ChanJob
  /-- sweep or copy pointer of the job, in lines of channel address: lines below it are done (R343, R345, R349) -/
  sweep : BitVec 42
  patrolPtr : BitVec 42
  /-- TIME of the last patrol read -/
  patrolT : Word
  powered : Bool
  hvote : Bool
deriving DecidableEq, Repr

def Chan.reset : Chan where
  eccMode := 1
  scrubEn := true
  scrubHours := 0x18
  spareRank := false
  pprEn := true
  devThresh := 0x10
  rankThresh := 0x40
  rowThresh := 2
  st := 0
  solo := false
  sparedRank := 0
  spareUsed := false
  speed := 0
  devMarked := 0
  sppr := 0
  ce := 0
  ue := 0
  masked := 0
  wbLost := 0
  elLine := 0
  elRank := 0
  elDevice := 0
  elUe := false
  elPatrol := false
  rows := []
  dimmT0 := 0
  dimmT1 := 0
  hot := false
  coolFrom := none
  ceLog := []
  ueLog := []
  pprUsed := []
  paired := 0
  marked := []
  job := none
  jobs := []
  sweep := 0
  patrolPtr := 0
  patrolT := 0
  powered := false
  hvote := false

/-- MEM_REGION_k (R338). -/
structure Region where
  v : Bool
  mirror : Bool
  base : BitVec 13
  size : BitVec 14
  chans : BitVec 16
  rankBits : BitVec 3
deriving DecidableEq, Repr

def Region.reset : Region := ⟨false, false, 0, 0, 0, 0⟩

/-! ## Host endpoint (R353 to R386) -/

/-- Configuration-space fields that host software writes (R356, R357). -/
structure Config where
  memEn : Bool
  master : Bool
  bar0 : BitVec 64
  bar2 : BitVec 64
  bar4 : BitVec 64
  d3hot : Bool
  msixEn : Bool
  msixMask : Bool
  /-- Max Payload Size and Max Read Request Size codes of Device Control -/
  mps : BitVec 3
  mrrs : BitVec 3
  roEn : Bool
  extTag : Bool
  /-- Device Control 2 -/
  cplTmo : BitVec 4
  cplTmoDis : Bool
  idoReq : Bool
  idoCpl : Bool
  tag10 : Bool
  /-- VC1: enable and its TC map -/
  vc1En : Bool
  vc1Tc : BitVec 8
  /-- AER Uncorrectable Error Status, First Error Pointer and header log (R375) -/
  aer : BitVec 32
  aerFirst : BitVec 5
  aerHdr : BitVec 128
  /-- the other writable bits of the header and capabilities, by doubleword number -/
  rw : Tbl (BitVec 32)
deriving DecidableEq, Repr

def Config.reset : Config where
  memEn := false
  master := false
  bar0 := 0
  bar2 := 0
  bar4 := 0
  d3hot := false
  msixEn := false
  msixMask := false
  mps := 0
  mrrs := 2
  roEn := false
  extTag := true
  cplTmo := 0
  cplTmoDis := false
  idoReq := false
  idoCpl := false
  tag10 := false
  vc1En := false
  vc1Tc := 0
  aer := 0
  aerFirst := 0
  aerHdr := 0
  rw := [(0xA0, 5), (0x108, 0x00400000), (0x10C, 0x00462030), (0x15C, 0xFE)]

/-- An MSI-X table entry (R361). -/
structure Msix where
  addr : BitVec 64
  data : BitVec 32
  mask : Bool
deriving DecidableEq, Repr

def Msix.reset : Msix := ⟨0, 0, true⟩

/-- A read the endpoint has issued or, for a device served by another head, sent over the ridge (R367, R408). -/
structure ReadRec where
  tag : BitVec 16
  entry : Fin 65536
  isDesc : Bool
  addr : BitVec 64
  len : Nat
  got : List Byte
  since : Word
  remote : Bool
  /-- requester and tag of a D_RD that this head serves -/
  serves : Option (BitVec 16 × BitVec 16 × BitVec 4)
  resent : Bool
  /-- false while it waits to be issued (R357, R377) -/
  issued : Bool
deriving DecidableEq, Repr

/-- A host read through a ring window that has no answer yet (R365). -/
structure WinRead where
  tag : BitVec 16
  pos : Fin 64
  off : BitVec 26
  len : Nat
  since : Word
deriving DecidableEq, Repr

/-- The endpoint. -/
structure Endpoint where
  perst : Bool
  training : Bool
  up : Bool
  lanes : BitVec 5
  rate : BitVec 3
  /-- configuration requests are answered with retry until this TIME (R354) -/
  crsUntil : Option Word
  firstUp : Bool
  cfg : Config
  nVec : BitVec 11
  nEn : Bool
  nMode : Bool
  nReady : Bool
  nFreeze : Bool
  nRing : Bool
  vcMisuse : BitVec 16
  frozen : Bool
  fCount : BitVec 8
  fCause : BitVec 8
  fRefused : BitVec 16
  fTime : Word
  fLog : Tbl (BitVec 32)
  /-- the freeze's notice message waits for release (R376) -/
  fHeld : Bool
  ringPresent : BitVec 64
  headPos : BitVec 6
  routeValid : Bool
  wrDrop : BitVec 32
  rdOnes : BitVec 32
  msix : Tbl Msix
  pba : Tbl Bool
  /-- pending vectors whose message goes on VC1 (R373) -/
  pbaVc1 : Tbl Bool
  reads : List ReadRec
  /-- tags of abandoned reads, the TIME they were issued, and the bytes that may still come (R378) -/
  deadTags : List (BitVec 16 × Word × Nat)
  winReads : List WinRead
  nextTag : BitVec 10
deriving DecidableEq, Repr

def Endpoint.reset : Endpoint where
  perst := true
  training := false
  up := false
  lanes := 0
  rate := 0
  crsUntil := none
  firstUp := true
  cfg := Config.reset
  nVec := 0
  nEn := false
  nMode := false
  nReady := false
  nFreeze := false
  nRing := false
  vcMisuse := 0
  frozen := false
  fCount := 0
  fCause := 0
  fRefused := 0
  fTime := 0
  fLog := []
  fHeld := false
  ringPresent := 0
  headPos := 0
  routeValid := false
  wrDrop := 0
  rdOnes := 0
  msix := []
  pba := []
  pbaVc1 := []
  reads := []
  deadTags := []
  winReads := []
  nextTag := 0

/-- A host-side instance (R380). `st` is INST_STAT.STATE. -/
structure Inst where
  st : BitVec 2
  unmapped : BitVec 16
  vcMisuse : BitVec 16
  poisoned : BitVec 16
  vecBase : BitVec 11
  vecCount : BitVec 12
  /-- DMA ranges in force: first and last 4 KiB page -/
  dma : Tbl (Option (BitVec 52 × BitVec 52))
  resPoison : Tbl (BitVec 32 × BitVec 10)
  /-- slot to queue -/
  qmap : Tbl (Option (Fin 1024))
deriving DecidableEq, Repr

def Inst.reset : Inst := ⟨0, 0, 0, 0, 0, 0, [], [], []⟩

/-! ## Ridge (R387 to R414) -/

/-- What a flit carries (R393, R400). -/
inductive FlitBody where
  | idle
  | skip (id : BitVec 16) (prt : Port)
  | nak (expected : BitVec 9)
  /-- five bits of credits for each virtual channel -/
  | init (credits : BitVec 80)
  | timeSync (t1 : Word)
  | timeResp (t1 t2 t3 : Word)
  | joinReq (id : BitVec 16)
  | holdDone (id : BitVec 16)
  | leaveReq (id : BitVec 16)
  | ringState (changes : BitVec 8) (live : BitVec 64) (frame : BitVec 16) (column : Bool)
  | msg (op : BitVec 6) (dst src : BitVec 16) (status : BitVec 2) (poison : Bool) (tag : BitVec 16)
      (addr : BitVec 64) (data : List Byte)
  /-- the body of a two-flit message: the data past 48 bytes (R399) -/
  | tail (data : List Byte)
deriving DecidableEq, Repr

/-- A flit kept for replay or held before sending. -/
structure SentFlit where
  seq : BitVec 9
  vc : BitVec 4
  body : FlitBody
deriving DecidableEq, Repr

/-- A ridge port: RPORT_STAT and the link-level state (R394, R395). DESIGN CHOICE (log entry 44). -/
structure PortSt where
  st : BitVec 3
  partner : BitVec 16
  pport : BitVec 2
  bypassed : BitVec 2
  replays : BitVec 16
  retrains : BitVec 8
  crcErr : BitVec 16
  txSeq : BitVec 9
  rxSeq : BitVec 9
  replay : List SentFlit
  nakSent : Bool
  /-- replays of one flit with no progress -/
  stuck : Nat
  lastAck : Word
  sinceSkip : Nat
  failsInRow : Nat
  /-- credits held for each of the 16 channels -/
  credits : Tbl Nat
  /-- new flits wait: the partner's join or leave holds this direction (R411, R412) -/
  holding : Bool
  /-- messages that wait to be sent, with the receive buffer each still fills -/
  waiting : List (SentFlit × Option (Port × BitVec 4))
  /-- credits to be returned for each of the 16 channels -/
  owe : Tbl Nat
  /-- the device that asks to join, or leaves, on this link, and whether HOLD_DONE has been sent -/
  joiner : Option (BitVec 16)
  holdSent : Bool
  /-- a full training or a retrain runs: no flit passes (R389) -/
  training : Bool
  t1 : Word
  /-- link delay in units of 1/32 ns -/
  delay : Word
  powered : Bool
  hvote : Bool
  /-- INIT has gone out and the partner's has not come (R393) -/
  awaitInit : Bool
  /-- heads of two-flit messages whose body has not come, by channel (R396) -/
  heads : Tbl (Option (BitVec 6 × RMsg))
  /-- slots each class has waited through, and the input each class and lane served last (R397) -/
  slots : Tbl Nat
  served : Tbl Nat
  /-- flits sent since training, which reset the scrambler (R387) -/
  flits : Nat
  /-- the partner's spread setting, exchanged at training (R389) -/
  pspread : BitVec 3
deriving DecidableEq, Repr

def PortSt.reset : PortSt where
  st := 0
  partner := 0
  pport := 0
  bypassed := 0
  replays := 0
  retrains := 0
  crcErr := 0
  txSeq := 0
  rxSeq := 0
  replay := []
  nakSent := false
  stuck := 0
  lastAck := 0
  sinceSkip := 0
  failsInRow := 0
  credits := []
  holding := false
  waiting := []
  owe := []
  joiner := none
  holdSent := false
  training := false
  t1 := 0
  delay := 0
  powered := false
  hvote := false
  awaitInit := false
  heads := []
  slots := []
  served := []
  flits := 0
  pspread := 0

/-- Steps of this device's own join or leave of a pair (R411, R412). -/
inductive PairStep where
  | idle | monitoring | repeating | asking | leaving | drained | leftHold
deriving DecidableEq, Repr

/-- A pair of ports and its scarf path (R23): `isOpen` is the switch. -/
structure Pair where
  isOpen : Bool
  step : PairStep
  /-- HOLD_DONE received from the low and the high port's partner -/
  doneLo : Bool
  doneHi : Bool
  /-- TIME of the last JOIN_REQ (R411) -/
  lastAsk : Word
deriving DecidableEq, Repr

def Pair.reset : Pair := ⟨false, .idle, false, false, 0⟩

/-- RWIN_k (R414). -/
structure Rwin where
  v : Bool
  wr : Bool
  cls : BitVec 2
  part : BitVec 3
  lbase : BitVec 36
  target : BitVec 16
  lg : BitVec 6
  tbase : BitVec 36
deriving DecidableEq, Repr

def Rwin.reset : Rwin := ⟨false, false, 3, 0, 0, 0, 0x0C, 0⟩

/-- RACL_k (R414). -/
structure Racl where
  v : Bool
  rd : Bool
  wr : Bool
  src : BitVec 16
  smask : BitVec 16
  lg : BitVec 6
  base : BitVec 36
deriving DecidableEq, Repr

def Racl.reset : Racl := ⟨false, false, false, 0, 0xFFFF, 0x0C, 0⟩

/-- A request this device has sent over the ridge and awaits the answer of (R403). -/
structure RReq where
  op : BitVec 6
  tag : BitVec 16
  dst : BitVec 16
  addr : BitVec 64
  port : Port
  /-- W_: the thread and access it serves -/
  thr : Option (Thr × Nat)
  /-- D_RD, D_WR and REC: the ledger entry -/
  entry : Option (Fin 65536)
  /-- D_RD: bytes still to come -/
  left : Nat
deriving DecidableEq, Repr

/-- A D_WR, REC or D_RD that this head holds until its endpoint may issue it (R357, R377, R408). -/
structure HeadJob where
  op : BitVec 6
  src : BitVec 16
  cls : BitVec 2
  tag : BitVec 16
  addr : BitVec 64
  data : List Byte
  poison : Bool
deriving DecidableEq, Repr

/-- The ridge. -/
structure Ridge where
  nsEn : Bool
  spread : BitVec 3
  frame : BitVec 10
  frames : BitVec 10
  pop : BitVec 64
  changes : BitVec 16
  unreach : BitVec 16
  aclDeny : BitVec 16
  discarded : BitVec 16
  ports : Tbl PortSt
  we : Pair
  ns : Pair
  win : Tbl Rwin
  acl : Tbl Racl
  /-- live positions of this frame's ring, and live frames of this column (R401) -/
  live : BitVec 64
  liveCol : BitVec 64
  /-- live positions of the rings of other frames, once RING_STATE has told them (R403) -/
  liveOf : Tbl (Option (BitVec 64))
  /-- bit p: no link is known to carry the span from live position p eastward to the next (R401) -/
  breaks : BitVec 64
  /-- change count of the last RING_STATE passed on, by frame, and of the column's -/
  seen : Tbl (Option (BitVec 8))
  seenCol : Option (BitVec 8)
  reqs : List RReq
  nextTag : BitVec 16
  /-- records this head has issued (R408): source, queue, SEQ, and the completion slot that R_REL echoes -/
  issued : List (BitVec 16 × BitVec 10 × BitVec 32 × BitVec 64)
  /-- messages held while the route to their destination changes (R403) -/
  held : List SentFlit
  atHead : List HeadJob
deriving DecidableEq, Repr

def Ridge.reset : Ridge where
  nsEn := false
  spread := 0
  frame := 0
  frames := 0
  pop := 0xFFFFFFFFFFFFFFFF
  changes := 0
  unreach := 0
  aclDeny := 0
  discarded := 0
  ports := []
  we := Pair.reset
  ns := Pair.reset
  win := []
  acl := []
  live := 0
  liveCol := 0
  liveOf := []
  breaks := 0
  seen := []
  seenCol := none
  reqs := []
  nextTag := 0
  issued := []
  held := []
  atHead := []

/-! ## The Wright, mailboxes and store (R415 to R442, R466 to R474) -/

/-- The Wright (R416, R440, R442). -/
inductive WrightSt where
  | off
  /-- running, firmware not serving yet -/
  | booting
  | serving
  | restarting
  | stopped
deriving DecidableEq, Repr

/-- A response ready to be written (R421). -/
structure Resp where
  status : BitVec 8
  detail : BitVec 16
  payload : List Byte
deriving DecidableEq, Repr

/-- A mailbox: page and doorbell (R419). `vec` is VECTOR, or THREAD on a device mailbox. -/
structure MboxSt where
  page : Mem
  vec : BitVec 11
  kind : Bool
  vecEn : Bool
  st : BitVec 2
  lastSeq : BitVec 16
  refused : BitVec 16
  tTaken : Word
  /-- the taken command's result, once it has run -/
  resp : Option Resp
  /-- the running command has made an effect outside the Wright's memory (R440) -/
  effected : Bool
  groupsOff : BitVec 16
deriving DecidableEq, Repr

def MboxSt.reset : MboxSt := ⟨[], 0, false, false, 0, 0, 0, 0, none, false, 0⟩

/-- An error-log entry (R433). -/
structure LogE where
  time : Word
  seq : BitVec 32
  type : BitVec 16
  a : Word
  b : Word
deriving DecidableEq, Repr

/-- A store slot (R431): condition 0 empty, 1 verified, 2 unverified, 3 failed; and its bytes. -/
structure Slot where
  cond : BitVec 2
  bytes : Mem
deriving DecidableEq, Repr

/-- A selector copy (R468). -/
structure Selector where
  valid : Bool
  gen : BitVec 32
  deflt : Bool
deriving DecidableEq, Repr

/-- The Filolmelo store and the fuses. `active` is the slot running (true B); `none` when no slot passed. -/
structure Store where
  slotA : Slot
  slotB : Slot
  sel0 : Selector
  sel1 : Selector
  capacity : Nat
  /-- repair list: line repaired and channel, and whether it is pending (R472) -/
  repairs : List (BitVec 4 × BitVec 4 × BitVec 42 × Bool)
  fuse : BitVec 7
  active : Option Bool
deriving DecidableEq, Repr

/-- A live update in progress (R439). -/
inductive Update where
  | none
  /-- ACTIVATE taken: the mailbox it answers and the new slot -/
  | taken (m : Mbox) (slot : Bool)
  /-- restarting into the new slot, since TIME -/
  | starting (m : Mbox) (slot : Bool) (since : Word)
  /-- returning to the old slot -/
  | returning (m : Mbox) (slot : Bool)
deriving DecidableEq, Repr

/-- The Wright and what it keeps. -/
structure Wright where
  st : WrightSt
  since : Word
  /-- TIME of the last service of the watchdog that is known (R416) -/
  wdServed : Word
  /-- TIMEs of watchdog restarts -/
  restarts : List Word
  boxes : Tbl MboxSt
  /-- taken commands in the order they were taken -/
  order : List Mbox
  log : List LogE
  logNext : BitVec 32
  history : List (Word × BitVec 32)
  /-- events to the Wright held while it restarts, and how many were lost -/
  heldEvents : Nat
  lostEvents : Nat
  update : Update
  store : Store
  /-- journal: live sistering units and their step -/
  sistering : List (Src × Nat)
  mgmtOff : BitVec 32
  i3cAddr : Option (BitVec 7)
  badXfer : BitVec 16
deriving DecidableEq, Repr

def Wright.reset : Wright where
  st := .off
  since := 0
  wdServed := 0
  restarts := []
  boxes := []
  order := []
  log := []
  logNext := 0
  history := []
  heldEvents := 0
  lostEvents := 0
  update := .none
  store := ⟨⟨0, []⟩, ⟨0, []⟩, ⟨false, 0, false⟩, ⟨false, 0, false⟩, 0x4000000, [], 0, none⟩
  sistering := []
  mgmtOff := 0
  i3cAddr := none
  badXfer := 0

/-! ## Power, pins and modes (R40 to R45, R443 to R475) -/

/-- A rail (R66, R446, RAIL_STAT_r). -/
structure RailSt where
  meas : BitVec 16
  set : BitVec 16
  /-- a request that awaits its acknowledgement -/
  req : Option (BitVec 16 × Word)
  warn : Bool
  /-- the rail crossed its warning level and has not yet been clear for 50 us -/
  crossed : Bool
  /-- TIME from which the 50 us of R449 count -/
  exitFrom : Option Word
  warns : BitVec 8
  /-- below the reset level -/
  below : Bool
deriving DecidableEq, Repr

def RailSt.reset : RailSt := ⟨0, 0, none, false, false, none, 0, false⟩

/-- A die: compute dies 0-3, hub 4. -/
structure Die where
  /-- the sensors' present reading, and RAIL_STAT's copy of it, which a reset clears -/
  tj : BitVec 16
  tjReg : BitVec 16
  stalled : Bool
  /-- the die read at or above LIMIT and has not been clear for 10 ms -/
  hot : Bool
  /-- TIME from which it has read at or below LIMIT - HYST; none before it first read above -/
  clearFrom : Option Word
  /-- TIME of the last step of R452 -/
  stepAt : Option Word
  opPoint : BitVec 16
  throttled : Bool
  tested : Bool
  /-- TIME from which VCORE_d has stayed at or above 0.64 V after a reset crossing -/
  recoverFrom : Option Word
  railDown : Bool
  linkFailed : Bool
  beats : BitVec 16
  slowest : BitVec 16
  /-- TIME at which the present window of the beat monitor began (R54) -/
  winFrom : Word
  vsetMv : BitVec 16
  powered : Bool
  hvote : Bool
deriving DecidableEq, Repr

def Die.reset : Die :=
  ⟨0, 0, false, false, none, none, 850, false, false, none, false, false, 0, 0xFFFF, 0, 0x0384, false, false⟩

/-- The readiness map (R464). -/
structure Ready where
  wright : Bool
  ledger : Bool
  events : Bool
  store : Bool
  vset : Bool
  part : BitVec 8
  ch : BitVec 16
  port : BitVec 4
  die : BitVec 4
  bay : BitVec 40
  cluster : BitVec 16
deriving DecidableEq, Repr

def Ready.reset : Ready := ⟨false, false, false, false, false, 0, 0, 0, 0, 0, 0⟩

/-- The steps of FENCE-SELF that wait (R45). -/
inductive FenceStep where
  | none
  /-- step 4: delivering records since TIME; the mailbox that asked -/
  | delivering (since : Word) (items : Nat) (m : Mbox)
  /-- step 5: the open pairs leave and their scarf paths close; TIME is that of step 1 -/
  | leaving (since : Word) (items : Nat) (m : Mbox)
  | done
deriving DecidableEq, Repr

/-- Power, pins, modes and bring-up. -/
structure Power where
  sillOn : Bool
  pwrgood : Bool
  /-- RESET_N level, and TIME of its last change -/
  resetN : Bool
  resetNAt : Word
  straps : Straps
  thermtrip : Bool
  /-- the main logic is held in reset: a COLD reset, or a warm reset that has taken effect (R40) -/
  inReset : Bool
  /-- a warm reset's flush runs since TIME (R305) -/
  flush : Option Word
  fenced : Bool
  bringing : Bool
  quiesce : Bool
  braced : Bool
  /-- DEVICE_MODE.MODE as displayed, and MODE_CHANGES -/
  mode : BitVec 4
  modeChanges : BitVec 8
  bringupDone : Bool
  bringupAt : Word
  bringupTmo : Word
  fence : FenceStep
  ready : Ready
  rails : Tbl RailSt
  dies : Tbl Die
  /-- failed neighbour links 0-1, 1-3, 3-2, 2-0 (R25) -/
  linksFailed : BitVec 4
  thLimit : BitVec 8
  thHyst : BitVec 4
  thFloor : BitVec 12
  thStep : BitVec 8
  ioSpi : BitVec 2
  ioMgmt : BitVec 2
  ioAvs : BitVec 2
  ioPmbus : BitVec 2
  ioStatus : BitVec 2
  ioTest : BitVec 2
  /-- stopped clocks (R57) -/
  clkDdr : BitVec 16
  clkEp : Bool
  clkRidge : BitVec 4
  clkWright : Bool
  clkSill : Bool
  /-- the Wright has moved from its 400 MHz oscillator to its 800 MHz clock (R57, R462) -/
  wrightFast : Bool
  /-- dispatcher votes by core (R455) -/
  dvotes : BitVec 160
  /-- spare adze engines in use or retired, by die -/
  spareUsed : BitVec 4
  /-- retention sets of dropped cores' threads and their CACHE_CTL, and event state of dropped clusters (R457) -/
  retained : Tbl (Option Thread)
  /-- wake buffer: held events in the order accepted (R325) -/
  wake : List (Nat × EvRec)
  /-- events the router holds for a unit being live-sistered, in the order accepted (R327) -/
  routerHeld : List (Nat × EvRec)
  /-- configured link width and rate of the settings record (R355) -/
  cfgLanes : BitVec 5
  cfgRate : BitVec 3
deriving DecidableEq, Repr

/-- DESIGN CHOICE (log entry 11). -/
def Power.reset : Power where
  sillOn := true
  pwrgood := false
  resetN := true
  resetNAt := 0
  straps := ⟨false, false, 0⟩
  thermtrip := false
  inReset := true
  flush := none
  fenced := false
  bringing := false
  quiesce := false
  braced := false
  mode := 1
  modeChanges := 0
  bringupDone := false
  bringupAt := 0
  bringupTmo := 2000000000
  fence := .none
  ready := Ready.reset
  rails := []
  dies := []
  linksFailed := 0
  thLimit := 0x78
  thHyst := 5
  thFloor := 0x2A8
  thStep := 0x0A
  ioSpi := 2
  ioMgmt := 0
  ioAvs := 1
  ioPmbus := 0
  ioStatus := 0
  ioTest := 1
  clkDdr := 0
  clkEp := false
  clkRidge := 0
  clkWright := false
  clkSill := false
  wrightFast := false
  dvotes := 0
  spareUsed := 0
  retained := []
  wake := []
  routerHeld := []
  cfgLanes := 16
  cfgRate := 5

/-- The time base (R59 to R64). `frac` counts 2^-32 ns; `corr` is the rate correction, signed, in 2^-32 ns for each 10 ns
of nominal period (R59). DEDUCED (log entry 48). -/
structure TimeBase where
  now : Word
  frac : BitVec 32
  source : BitVec 2
  aligned : Bool
  refLost : Bool
  steps : BitVec 8
  offset : BitVec 16
  corr : BitVec 32
  /-- an alignment has been made since the SILL reset, and since the last reset -/
  alignedOnce : Bool
  alignedSince : Bool
deriving DecidableEq, Repr

def TimeBase.reset : TimeBase := ⟨0, 0, 0, false, false, 0, 0, 0, false, false⟩

/-- The hub bandwidth counters (R487). -/
structure Bw where
  window : BitVec 20
  seq : BitVec 32
  latched : Tbl (BitVec 40)
  running : Tbl (BitVec 40)
  start : Word
deriving DecidableEq, Repr

def Bw.reset : Bw := ⟨0x3E8, 0, [], [], 0⟩

/-! ## Outputs -/

/-- What a request or completion of the endpoint carries beside its address and data: its channel and traffic class
(R373), ID-based and relaxed ordering (R372), and an ECRC (R353). -/
structure TlpAttr where
  vc1 : Bool
  tc : BitVec 3
  ido : Bool
  ro : Bool
  ecrc : Bool
deriving DecidableEq, Repr

/-- What the device sends out, newest first: the model's own record of its outputs. DESIGN CHOICE (log entry 13). -/
inductive Out where
  /-- a posted write of the endpoint to host memory -/
  | hostWrite (addr : BitVec 64) (data : List Byte) (poison : Bool) (a : TlpAttr)
  /-- an MSI-X message -/
  | msi (addr : BitVec 64) (data : BitVec 32) (a : TlpAttr)
  /-- a memory read request of the endpoint -/
  | hostRead (tag : BitVec 10) (addr : BitVec 64) (len : Nat) (a : TlpAttr)
  /-- the answer to a read of a BAR or to a configuration request, with ID-based ordering or without (R372); not
  successful is Unsupported Request -/
  | completion (success : Bool) (data : List Byte) (ido : Bool)
  /-- configuration request retry status -/
  | retry
  /-- the flow-control credits advertised on VC0 or VC1, completion credits among them: none is infinite (R357) -/
  | credits (vc1 : Bool) (posted postedData nonPosted nonPostedData : Nat) (completion : Option Nat)
  /-- an error message of AER, fatal or non-fatal (R375) -/
  | errMsg (fatal : Bool)
  /-- a flit on a ridge port, the n-th since its training (R387, R392) -/
  | flit (x : Port) (n : Nat) (f : SentFlit) (ack : BitVec 9) (crvc cred : BitVec 4)
  /-- bytes returned on the management bus -/
  | mgmt (data : List Byte)
  /-- an in-band interrupt with its data byte -/
  | ibi (b : Byte)
  /-- a regulator request in millivolts -/
  | regulator (r : Rail) (mv : BitVec 16)
deriving DecidableEq, Repr

/-! ## Crossings (R55 to R57) -/

/-- What enters a crossing: a command for the far side, or a write of a mailbox doorbell. -/
inductive XWhat where
  /-- a doorbell on its way to the Wright; `refuse` answers it STATE (R374) -/
  | ring (m : Mbox) (v : Word) (refuse : Bool)
  | dramRead (c : Fin 16) (line : BitVec 42) (found : DramFind) (peek : Bool)
  | dramWrite (c : Fin 16) (line : BitVec 42) (data : BitVec 512) (poison : Bool)
  | configRequest (wr : Bool) (off : BitVec 10) (be : BitVec 4) (v : BitVec 32)
  | readCompletion (tag : BitVec 10) (st : CplStatus) (data : List Byte)
  | doorbell (inst : Fin 256) (slot : Fin 256) (v : Word) (whole vc1 : Bool)
  | inlineItem (inst : Fin 256) (slot : Fin 256) (v : BitVec 512) (whole vc1 : Bool)
  | epNotifyWrite (v : Word)
  | instStatResetWrite (i : Fin 256)
  | windowRead (n : Fin 64) (off : BitVec 26) (len : Nat) (vc1 : Bool)
  | windowWrite (n : Fin 64) (off : BitVec 26) (data : List Byte) (vc1 : Bool)
  | mailboxPageWrite (m : Mbox) (t : Thr) (off : BitVec 12) (data : List Byte) (vc1 : Bool)
  | mboxDoorbell (m : Mbox) (v : Word) (eight vc1 : Bool)
  | hostWrite (addr : BitVec 48) (size : Fin 4) (v : Word)
  | idleFlit (f : Flit)
  | skipFlit (f : Flit) (id : BitVec 16) (prt : Port)
  | nakFlit (f : Flit) (expected : BitVec 9)
  | initFlit (f : Flit) (credits : BitVec 80)
  | timeSync (f : Flit) (t1 : Word)
  | timeResp (f : Flit) (t1 t2 t3 : Word)
  | joinReq (f : Flit) (id : BitVec 16)
  | holdDone (f : Flit) (id : BitVec 16)
  | leaveReq (f : Flit) (id : BitVec 16)
  | ringState (f : Flit) (changes : BitVec 8) (live : BitVec 64) (frame : BitVec 16) (column : Bool)
  /-- a message of the ridge, by its opcode (R400) -/
  | message (op : BitVec 6) (m : RMsg)
  | freezeForce
  | freezeRelease (count : BitVec 8)
  /-- what the endpoint, or a port, sends -/
  | hostOut (o : Out)
  | flitOut (x : Port) (f : SentFlit)
  /-- transfers of the management port -/
  | smbusSetOffset (data : List Byte) (pecOk : Bool)
  | smbusBlockRead (n : Nat) (pecOk : Bool)
  | smbusBlockWrite (data : List Byte) (pecOk : Bool)
  | i3cPrivateWrite (data : List Byte)
  | i3cPrivateRead (n : Nat)
deriving DecidableEq, Repr

/-- One value in a crossing and the FIFO entries it takes. -/
structure XEnt where
  units : Nat
  what : XWhat
deriving DecidableEq, Repr

/-- A crossing (R55, R56): the FIFO in each direction, oldest first, and what the stages that feed a full one withhold. -/
structure Crossing where
  toBlock : List XEnt
  toFabric : List XEnt
  heldBlock : List XEnt
  heldFabric : List XEnt
deriving DecidableEq, Repr

def Crossing.reset : Crossing := ⟨[], [], [], []⟩

/-- The state of the block. DESIGN CHOICE (log entry 5). -/
structure State where
  /-- waiting commands, first in first out -/
  pending : List Instr
  time : TimeBase
  pw : Power
  thr : Tbl Thread
  core : Tbl Core
  bay : Tbl Bay
  slice : Tbl Slice
  srcs : Tbl SrcEnt
  eng : Tbl Engine
  cluster : Tbl Cluster
  part : Tbl Part
  stale : BitVec 24
  downDrop : BitVec 24
  stray : BitVec 16
  /-- coherence messages in flight -/
  net : List (CKind × CMsg)
  /-- requests of adze engines that await an answer, oldest first -/
  ereqs : List EReq
  mem : Mem
  /-- lines whose DRAM copy is older than the value agents read: DRAM's bytes and poison -/
  old : Tbl (Option (BitVec 512 × Bool))
  /-- poisoned lines, by pa[47:6], rising -/
  poison : List Nat
  queue : Tbl Queue
  led : Ledger
  dimms : Tbl Dimms
  chan : Tbl Chan
  region : Tbl Region
  ep : Endpoint
  inst : Tbl Inst
  ridge : Ridge
  wr : Wright
  bw : Bw
  /-- crossings into clocked logic: channel c at c, the endpoint 16, ridge ports 17-20, the Wright 21, the sill 22 -/
  xing : Tbl Crossing
  out : List Out
  /-- how many free values have been taken (the model's own counter) -/
  fresh : Nat
deriving DecidableEq, Repr

/-- The block right after reset: the sill powered, main power absent, nothing configured. DESIGN CHOICE (log entry 11). -/
def State.reset : State where
  pending := []
  time := TimeBase.reset
  pw := Power.reset
  thr := []
  core := []
  bay := []
  slice := []
  srcs := []
  eng := []
  cluster := []
  part := []
  stale := 0
  downDrop := 0
  stray := 0
  net := []
  ereqs := []
  mem := []
  old := []
  poison := []
  queue := []
  led := Ledger.reset
  dimms := []
  chan := []
  region := []
  ep := Endpoint.reset
  inst := []
  ridge := Ridge.reset
  wr := Wright.reset
  bw := Bw.reset
  xing := []
  out := []
  fresh := 0

end Sys2Proof.Machine
end

