-- ==== Sys2Proof/Machine/Tables.lean ====
section
/-! DEFINITION. Reading and writing sparse tables, and small list operations. -/
namespace Sys2Proof.Machine

/-- The value at index `k`: the default `d` where the table lists none. DESIGN CHOICE (log entry 10). -/
def look {α : Type} (d : α) : Tbl α → Nat → α
  | [], _ => d
  | (i, v) :: t, k => if i = k then v else look d t k

/-- The table with no entry at index `k`. -/
def drop {α : Type} : Tbl α → Nat → Tbl α
  | [], _ => []
  | (i, v) :: t, k => if i = k then drop t k else (i, v) :: drop t k

/-- The table with `v` at index `k`, entries rising. -/
def place {α : Type} : Tbl α → Nat → α → Tbl α
  | [], k, v => [(k, v)]
  | (i, w) :: t, k, v =>
    if i = k then (k, v) :: t else if k < i then (k, v) :: (i, w) :: t else (i, w) :: place t k v

/-- Writing `v` at index `k`: the default value is never listed. DESIGN CHOICE (log entry 10). -/
def put {α : Type} [DecidableEq α] (d : α) (t : Tbl α) (k : Nat) (v : α) : Tbl α :=
  if v = d then drop t k else place t k v

/-- Changing the value at index `k` by `f`. -/
def edit {α : Type} [DecidableEq α] (d : α) (f : α → α) (t : Tbl α) (k : Nat) : Tbl α :=
  put d t k (f (look d t k))

/-- Indices in rising order from `k` on. -/
def risingFrom {α : Type} (k : Nat) : Tbl α → Bool
  | [] => true
  | (i, _) :: t => decide (k ≤ i) && risingFrom (i + 1) t

/-- The canonical form: indices strictly rising and no entry equal to the default. -/
def canonical {α : Type} [DecidableEq α] (d : α) (t : Tbl α) : Bool :=
  risingFrom 0 t && t.all (fun e => decide (e.2 ≠ d))

/-- Apply `f` for each index of a list, left to right. -/
def forEach {α β : Type} (l : List α) (f : α → β → β) (b : β) : β := l.foldl (fun acc a => f a acc) b

/-- Insert a line number into a rising list. -/
def insertRising (k : Nat) : List Nat → List Nat
  | [] => [k]
  | i :: t => if i = k then i :: t else if k < i then k :: i :: t else i :: insertRising k t

/-- Remove a line number from a rising list. -/
def removeRising (k : Nat) : List Nat → List Nat
  | [] => []
  | i :: t => if i = k then removeRising k t else i :: removeRising k t

/-- Remove the first element that meets the test. -/
def removeFirst {α : Type} (p : α → Bool) : List α → List α
  | [] => []
  | a :: t => if p a then t else a :: removeFirst p t

/-- Change the first element that meets the test. -/
def editFirst {α : Type} (p : α → Bool) (f : α → α) : List α → List α
  | [] => []
  | a :: t => if p a then f a :: t else a :: editFirst p f t

/-- The least of the `n` numbers from `k` on that meets the test. -/
def firstFrom (p : Nat → Bool) : Nat → Nat → Option Nat
  | 0, _ => none
  | n + 1, k => if p k then some k else firstFrom p n (k + 1)

/-- The least index below `n` that meets the test. -/
def firstBelow (n : Nat) (p : Nat → Bool) : Option Nat := firstFrom p n 0

/-- Left rotation of a list, so that the element after position `k` comes first: a round-robin order. -/
def afterIndex (n k : Nat) : List Nat := (List.range n).map (fun i => (k + 1 + i) % n)

/-! ## Sorting -/

/-- Insert before the first entry that is not below. -/
def insertBy {α : Type} (le : α → α → Bool) (x : α) : List α → List α
  | [] => [x]
  | y :: l => if le x y then x :: y :: l else y :: insertBy le x l

/-- A list in ascending order; entries that are equal keep theirs. -/
def sortBy {α : Type} (le : α → α → Bool) (l : List α) : List α := l.foldr (insertBy le) []

end Sys2Proof.Machine
end

