-- ==== Sys2Proof/Machine/Ops.lean ====
section
/-! DEFINITION. The named operations over the state: units and their numbering (R28), registers, memory bytes,
poison and the lines DRAM holds stale, partitions, sources and free values. -/
namespace Sys2Proof.Machine

/-- The outcome of a command. -/
abbrev Result := Host.Outcome State Fault Refusal

/-! ## Numbering (R28, R30) -/

/-- Table key of a thread: core threads 0-639, adze threads from 1024. -/
def thrKey : Thr → Nat
  | .core i => i.val
  | .adze j => 1024 + j.val

/-- The thread of a key. -/
def thrOfKey (k : Nat) : Option Thr :=
  if h : k < 640 then some (.core ⟨k, h⟩)
  else if h : 1024 ≤ k ∧ k - 1024 < 512 then some (.adze ⟨k - 1024, h.2⟩) else none

/-- The thread that a thread index and a kind bit name (R77, R313). -/
def thrOfIndex (ix : Nat) (adze : Bool) : Option Thr :=
  if adze then (if h : ix < 512 then some (.adze ⟨ix, h⟩) else none)
  else (if h : ix < 640 then some (.core ⟨ix, h⟩) else none)

/-- An adze thread. -/
def isAdze : Thr → Bool
  | .core _ => false
  | .adze _ => true

/-- Thread index without its kind. -/
def thrIx : Thr → Nat
  | .core i => i.val
  | .adze j => j.val

/-- Logical core of a core thread; engine of an adze thread. -/
def unitIx : Thr → Nat
  | .core i => i.val / 4
  | .adze j => j.val / 8

/-- Thread number within its unit. -/
def thrSlot : Thr → Nat
  | .core i => i.val % 4
  | .adze j => j.val % 8

def bayOfCore (c : Nat) : Nat := c / 4
def dieOfBay (b : Nat) : Nat := b / 10
def dieOfEngine (e : Nat) : Nat := e / 16

/-- Compute die of a thread. -/
def dieOfThr : Thr → Nat
  | .core i => i.val / 160
  | .adze j => j.val / 128

/-- Table key of a mesh source: core i, 256 + engine, 512 + bay. -/
def srcKey : Src → Nat
  | .core i => i.val
  | .engine i => 256 + i.val
  | .bay i => 512 + i.val

/-- Mesh source of a thread (R30). -/
def srcOfThr : Thr → Src
  | .core i => .core ⟨i.val / 4, by omega⟩
  | .adze j => .engine ⟨j.val / 8, by omega⟩

/-- The four threads of a core. -/
def thrsOfCore (c : Nat) : List Thr := (List.range 4).filterMap (fun i => thrOfIndex (4 * c + i) false)

/-- The eight threads of an engine. -/
def thrsOfEngine (e : Nat) : List Thr := (List.range 8).filterMap (fun i => thrOfIndex (8 * e + i) true)

def thrsOfSrc : Src → List Thr
  | .core i => thrsOfCore i.val
  | .engine i => thrsOfEngine i.val
  | .bay i => (List.range 4).flatMap (fun c => thrsOfCore (4 * i.val + c))

/-! ## Access to the tables of the state -/

def thr (s : State) (t : Thr) : Thread := look Thread.reset s.thr (thrKey t)
def setThr (t : Thr) (v : Thread) (s : State) : State := { s with thr := put Thread.reset s.thr (thrKey t) v }
def updThr (t : Thr) (f : Thread → Thread) (s : State) : State := setThr t (f (thr s t)) s

def core (s : State) (c : Nat) : Core := look Core.reset s.core c
def updCore (c : Nat) (f : Core → Core) (s : State) : State := { s with core := edit Core.reset f s.core c }

def bay (s : State) (b : Nat) : Bay := look Bay.reset s.bay b
def updBay (b : Nat) (f : Bay → Bay) (s : State) : State := { s with bay := edit Bay.reset f s.bay b }

def slice (s : State) (b : Nat) : Slice := look Slice.reset s.slice b
def updSlice (b : Nat) (f : Slice → Slice) (s : State) : State := { s with slice := edit Slice.reset f s.slice b }

def srcEnt (s : State) (x : Src) : SrcEnt := look SrcEnt.reset s.srcs (srcKey x)
def updSrc (x : Src) (f : SrcEnt → SrcEnt) (s : State) : State :=
  { s with srcs := edit SrcEnt.reset f s.srcs (srcKey x) }

def engine (s : State) (e : Nat) : Engine := look Engine.reset s.eng e
def updEngine (e : Nat) (f : Engine → Engine) (s : State) : State := { s with eng := edit Engine.reset f s.eng e }

def cluster (s : State) (k : Nat) : Cluster := look Cluster.reset s.cluster k
def updCluster (k : Nat) (f : Cluster → Cluster) (s : State) : State :=
  { s with cluster := edit Cluster.reset f s.cluster k }

def part (s : State) (p : Nat) : Part := look Part.reset s.part p
def updPart (p : Nat) (f : Part → Part) (s : State) : State := { s with part := edit Part.reset f s.part p }

def queue (s : State) (q : Nat) : Queue := look Queue.reset s.queue q
def updQueue (q : Nat) (f : Queue → Queue) (s : State) : State := { s with queue := edit Queue.reset f s.queue q }

def entry (s : State) (e : Nat) : Entry := look Entry.reset s.led.ent e
def updEntry (e : Nat) (f : Entry → Entry) (s : State) : State :=
  { s with led := { s.led with ent := edit Entry.reset f s.led.ent e } }

def chan (s : State) (c : Nat) : Chan := look Chan.reset s.chan c
def updChan (c : Nat) (f : Chan → Chan) (s : State) : State := { s with chan := edit Chan.reset f s.chan c }

def region (s : State) (k : Nat) : Region := look Region.reset s.region k

def inst (s : State) (i : Nat) : Inst := look Inst.reset s.inst i
def updInst (i : Nat) (f : Inst → Inst) (s : State) : State := { s with inst := edit Inst.reset f s.inst i }

def port (s : State) (x : Nat) : PortSt := look PortSt.reset s.ridge.ports x
def updPort (x : Nat) (f : PortSt → PortSt) (s : State) : State :=
  { s with ridge := { s.ridge with ports := edit PortSt.reset f s.ridge.ports x } }

def rail (s : State) (r : Nat) : RailSt := look RailSt.reset s.pw.rails r
def updRail (r : Nat) (f : RailSt → RailSt) (s : State) : State :=
  { s with pw := { s.pw with rails := edit RailSt.reset f s.pw.rails r } }

/-- Compute dies 0-3, hub 4. -/
def die (s : State) (d : Nat) : Die := look Die.reset s.pw.dies d
def updDie (d : Nat) (f : Die → Die) (s : State) : State :=
  { s with pw := { s.pw with dies := edit Die.reset f s.pw.dies d } }

/-- Table key of a mailbox: host 0-7, management 8, management urgent 9, device 16 + m. -/
def boxKey : Mbox → Nat
  | .host m => m.val
  | .mgmt => 8
  | .mgmtUrgent => 9
  | .dev m => 16 + m.val

def box (s : State) (m : Mbox) : MboxSt := look MboxSt.reset s.wr.boxes (boxKey m)
def updBox (m : Mbox) (f : MboxSt → MboxSt) (s : State) : State :=
  { s with wr := { s.wr with boxes := edit MboxSt.reset f s.wr.boxes (boxKey m) } }

def updPw (f : Power → Power) (s : State) : State := { s with pw := f s.pw }
def updEp (f : Endpoint → Endpoint) (s : State) : State := { s with ep := f s.ep }
def updWr (f : Wright → Wright) (s : State) : State := { s with wr := f s.wr }
def updRidge (f : Ridge → Ridge) (s : State) : State := { s with ridge := f s.ridge }
def updLed (f : Ledger → Ledger) (s : State) : State := { s with led := f s.led }

/-- Add `n` bytes to hub bandwidth counter `p` (R487). -/
def countBytes (p n : Nat) (s : State) : State :=
  { s with bw := { s.bw with running := edit 0 (fun v => v + BitVec.ofNat 40 n) s.bw.running p } }

/-- Record an output of the device; payload bytes sent on PCI Express are counted. DESIGN CHOICE (log entry 13). -/
def emit (o : Out) (s : State) : State :=
  let s := match o with
    | .hostWrite _ data _ _ => countBytes 1 data.length s
    | .msi _ _ _ => countBytes 1 4 s
    | _ => s
  { s with out := o :: s.out }

/-- Change every listed entry of a table. -/
def editAll {α : Type} [DecidableEq α] (d : α) (f : Nat → α → α) : Tbl α → Tbl α
  | [] => []
  | (k, v) :: t => put d (editAll d f t) k (f k v)

/-- Change every thread that is not in its reset state. -/
def mapThrs (f : Nat → Thread → Thread) (s : State) : State := { s with thr := editAll Thread.reset f s.thr }

/-! ## Registers of a thread (R69 to R71, R101) -/

def PReg.zero : PReg := ⟨0, false⟩
def FReg.zero : FReg := ⟨0, false, false⟩

/-- A general register; g0 reads 0 with a clear tag (R70). -/
def readG (th : Thread) (r : BitVec 5) : PReg := if r = 0 then PReg.zero else look PReg.zero th.g r.toNat

/-- Writing a general register; a write to g0 is discarded with its tag (R70). -/
def writeG (r : BitVec 5) (v : PReg) (th : Thread) : Thread :=
  if r = 0 then th else { th with g := put PReg.zero th.g r.toNat v }

def readF (th : Thread) (r : BitVec 5) : FReg := look FReg.zero th.f r.toNat
def writeF (r : BitVec 5) (v : FReg) (th : Thread) : Thread := { th with f := put FReg.zero th.f r.toNat v }

/-- Encoding of a privilege level (R73). -/
def privCode : Priv → BitVec 2
  | .U => 0
  | .K => 1
  | .M => 3

/-- The thread is held at an instruction boundary (R136, R246, R456). -/
def halted (th : Thread) : Bool := th.parked || th.soloParked

/-- The PC after an instruction: the fetch buffer gives up what it held, or all of it where execution does not go on in
sequence (R115). -/
def stepPc (pc : Word) (th : Thread) : Thread :=
  { th with pc := pc, held := .ready, waitFetch := false, fbuf := if pc = th.pc + 4 then th.fbuf.drop 1 else [] }

/-- The privilege a two-bit code names; 0b10 is reserved. -/
def privOf (v : BitVec 2) : Option Priv :=
  if v = 0 then some .U else if v = 1 then some .K else if v = 3 then some .M else none

/-- A level at least as high as needed. -/
def privGe (have' need : Priv) : Bool := (privCode need).toNat ≤ (privCode have').toNat

/-! ## Partitions and sources (R30 to R34) -/

def partOfBay (s : State) (b : Nat) : Option Nat := firstBelow 8 (fun p => (part s p).bays.getLsbD b)
def partOfEngine (s : State) (e : Nat) : Option Nat := firstBelow 8 (fun p => (part s p).engines.getLsbD e)

/-- Partition of a thread's unit. -/
def partOf (s : State) : Thr → Option Nat
  | .core i => partOfBay s (i.val / 16)
  | .adze j => partOfEngine s (j.val / 8)

def partOfSrc (s : State) : Src → Option Nat
  | .core i => partOfBay s (i.val / 4)
  | .engine i => partOfEngine s i.val
  | .bay i => partOfBay s i.val

/-- Partition that owns the 1 GiB range holding a DRAM address. -/
def partOfAddr (s : State) (pa : BitVec 48) : Option Nat :=
  firstBelow 8 (fun p => (part s p).ranges.contains (pa.extractLsb' 30 13))

/-- The home slice of a DRAM address: the hash of R201 over the bays of the owning partition. -/
def homeOf (s : State) (pa : BitVec 48) : Option Nat :=
  match partOfAddr s pa with
  | none => none
  | some p =>
    let h := (List.range 7).foldl (fun acc i => acc ^^^ pa.extractLsb' (6 * i + 6) 6) (0 : BitVec 6)
    let bs := bitsOf (part s p).bays
    bs[h.toNat % bs.length]?

/-- Site of a logical core in its bay; 7 absent (R29). -/
def siteOfCore (s : State) (c : Nat) : BitVec 3 :=
  let b := bay s (c / 4)
  if c % 4 = 0 then b.site0 else if c % 4 = 1 then b.site1 else if c % 4 = 2 then b.site2 else b.site3

/-- Physical site that a source sends from (R247): a core's site; an engine's own number or 0x40 + d on the spare;
0 for a bay agent, which has one place only. -/
def siteOf (s : State) : Src → BitVec 7
  | .core i => (siteOfCore s i.val).setWidth 7
  | .engine i => if (engine s i.val).onSpare then BitVec.ofNat 7 (0x40 + i.val / 16) else BitVec.ofNat 7 i.val
  | .bay _ => 0

/-- A unit as the error log encodes it (R433). -/
def unitCode (x : Src) (site : BitVec 7) : Word :=
  match x with
  | .core i => at' (BitVec.ofNat 8 i.val) 8 ||| at' site 16
  | .engine i => 1 ||| at' (BitVec.ofNat 8 i.val) 8 ||| at' site 16
  | .bay i => 2 ||| at' (BitVec.ofNat 8 i.val) 8 ||| at' site 16

/-- The device ID (R28): frame and ring position. -/
def deviceId (s : State) : BitVec 16 := s.ridge.frame ++ s.pw.straps.ringPos

/-! ## Memory bytes, poison and stale DRAM lines -/

/-- DESIGN CHOICE (log entry 4). -/
def readByte (s : State) (a : Nat) : Byte := look 0 s.mem a
def readBytes (s : State) (a n : Nat) : List Byte := (List.range n).map (fun i => readByte s (a + i))

/-- Bytes written from an address up. -/
def writeList : Nat → List Byte → Mem → Mem
  | _, [], m => m
  | a, b :: t, m => writeList (a + 1) t (put 0 m a b)

def writeBytes (a : Nat) (l : List Byte) (s : State) : State := { s with mem := writeList a l s.mem }

/-- The memory's canonical form: addresses rising, no listed byte equal to what an unlisted address reads.
DESIGN CHOICE (log entry 4). -/
def Memory.wf (m : Mem) : Bool := canonical (0 : Byte) m

/-- A 64-bit little-endian word of memory. -/
def readWord (s : State) (a : Nat) : Word := wordOf (readBytes s a 8)

def isPoisoned (s : State) (l : BitVec 42) : Bool := s.poison.contains l.toNat
def setPoison (l : BitVec 42) (b : Bool) (s : State) : State :=
  { s with poison := if b then insertRising l.toNat s.poison else removeRising l.toNat s.poison }

/-- A line of the DRAM range (R37). -/
def isDramLine (l : BitVec 42) : Bool := l.toNat < 2 ^ 37

/-- The 64 bytes of a line, as one number. -/
def lineData (s : State) (l : BitVec 42) : BitVec 512 := BitVec.ofNat 512 (natOfBytes (readBytes s (l.toNat * 64) 64))

/-- Write a whole line's data. -/
def writeLineData (l : BitVec 42) (v : BitVec 512) (s : State) : State :=
  writeBytes (l.toNat * 64) (bytesOfNat 64 v.toNat) s

/-- Some cache holds newer data than DRAM for the line. -/
def isDirty (s : State) (l : BitVec 42) : Bool := (look none s.old l.toNat).isSome

/-- From now on DRAM holds an older value of the line than agents read. DEDUCED (log entry 14). -/
def dirtyLine (l : BitVec 42) (s : State) : State :=
  if isDramLine l && !isDirty s l then
    { s with old := put none s.old l.toNat (some (lineData s l, isPoisoned s l)) } else s

/-- The line has been written back: DRAM holds what agents read. DEDUCED (log entry 14). -/
def cleanLine (l : BitVec 42) (s : State) : State := { s with old := put none s.old l.toNat none }

/-- Dirty data of the line is discarded; DRAM keeps what it held (R204). -/
def discardLine (l : BitVec 42) (s : State) : State :=
  match look none s.old l.toNat with
  | none => s
  | some (v, p) => { setPoison l p (writeLineData l v s) with old := put none s.old l.toNat none }

/-! ## Crossings (R55 to R57) -/

/-- Table key of a clocked block's crossing. -/
def clkIx : Clk → Nat
  | .ddr c => c.val
  | .endpoint => 16
  | .ridge .W => 17
  | .ridge .E => 18
  | .ridge .N => 19
  | .ridge .S => 20
  | .wright => 21
  | .sill => 22

/-- The block's clock is stopped or its PLL has lost lock (R57). -/
def clockStopped (s : State) : Clk → Bool
  | .ddr c => s.pw.clkDdr.getLsbD c.val
  | .endpoint => s.pw.clkEp
  | .ridge .W => s.pw.clkRidge.getLsbD 0
  | .ridge .E => s.pw.clkRidge.getLsbD 1
  | .ridge .N => s.pw.clkRidge.getLsbD 2
  | .ridge .S => s.pw.clkRidge.getLsbD 3
  | .wright => s.pw.clkWright
  | .sill => s.pw.clkSill

/-- Depth of a crossing in each direction, in entries (R55). -/
def crossingDepth : Clk → Nat
  | .ddr _ => 16
  | .endpoint => 32
  | .ridge _ => 8
  | .wright => 8
  | .sill => 4

/-- Bytes of one entry of a crossing (R55). -/
def crossingWidth : Clk → Nat
  | .ddr _ => 64
  | .endpoint => 64
  | .ridge _ => 72
  | .wright => 16
  | .sill => 8

/-- Entries of a crossing that `n` bytes take. -/
def entriesOf (b : Clk) (n : Nat) : Nat := Nat.max 1 ((n + crossingWidth b - 1) / crossingWidth b)

def crossingOf (s : State) (b : Clk) : Crossing := look Crossing.reset s.xing (clkIx b)
def updCrossing (b : Clk) (f : Crossing → Crossing) (s : State) : State :=
  { s with xing := edit Crossing.reset f s.xing (clkIx b) }

/-- Entries of a crossing that only VC1 takes (R357). -/
def crossingReserve : Clk → Nat
  | .endpoint => 4
  | _ => 0

/-- What passes the endpoint's crossing on VC1. -/
def onSecondVc : XWhat → Bool
  | .doorbell _ _ _ _ vc1 => vc1
  | .inlineItem _ _ _ _ vc1 => vc1
  | .windowRead _ _ _ vc1 => vc1
  | .windowWrite _ _ _ vc1 => vc1
  | .mailboxPageWrite _ _ _ _ vc1 => vc1
  | .mboxDoorbell _ _ _ vc1 => vc1
  | .hostOut (.hostWrite _ _ _ a) => a.vc1
  | .hostOut (.msi _ _ a) => a.vc1
  | .hostOut (.hostRead _ _ _ a) => a.vc1
  | _ => false

/-- Entries in use in one direction. -/
def usedEntries (l : List XEnt) : Nat := l.foldl (fun n e => n + e.units) 0

/-- The FIFO of a crossing has room for an entry: one of VC0 leaves free what is kept for VC1 (R357). -/
def fifoRoom (b : Clk) (e : XEnt) (q : List XEnt) : Bool :=
  decide (usedEntries q + e.units ≤ crossingDepth b) && (onSecondVc e.what ||
    decide (usedEntries (q.filter (fun x => !onSecondVc x.what)) + e.units ≤ crossingDepth b - crossingReserve b))

/-- A value enters a FIFO, behind what its feeding stages already withhold of its channel; on a full FIFO they withhold it
as well (R56). -/
def enterFifo (b : Clk) (e : XEnt) (q held : List XEnt) : List XEnt × List XEnt :=
  if !held.any (fun x => onSecondVc x.what = onSecondVc e.what) && fifoRoom b e q then (q ++ [e], held) else (q, held ++ [e])

/-- A value enters the crossing of a block, toward the fabric or toward the block (R56). -/
def enterCrossing (b : Clk) (fabric : Bool) (e : XEnt) (s : State) : State :=
  updCrossing b (fun x =>
    if fabric then
      let r := enterFifo b e x.toFabric x.heldFabric
      { x with toFabric := r.1, heldFabric := r.2 }
    else
      let r := enterFifo b e x.toBlock x.heldBlock
      { x with toBlock := r.1, heldBlock := r.2 }) s

/-- A command that passes a block's crossing: it acts at once, or is held there while the block's clock is stopped
(R57). `bytes` is what it carries. DESIGN CHOICE (log entry 75). -/
def through (b : Clk) (fabric : Bool) (bytes : Nat) (c : XWhat) (run : State → Result) (s : State) : Result :=
  if clockStopped s b then .next (enterCrossing b fabric ⟨entriesOf b bytes, c⟩ s) else run s

/-- What a crossing holds, in the order in which it leaves (R56). -/
def crossingOrder (x : Crossing) : List XEnt := x.toBlock ++ x.heldBlock ++ x.toFabric ++ x.heldFabric

/-- An alignment of TIME made from now on is the first after a reset (R63). -/
def afterReset (s : State) : State := { s with time := { s.time with alignedSince := false } }

/-- Take the next free yes-or-no. -/
def freeBit (s : State) : Bool × State := (Config.freeBit s.fresh, { s with fresh := s.fresh + 1 })

end Sys2Proof.Machine
end

