-- ==== Sys2Proof/Machine/RidgeSend.lean ====
section
/-! DEFINITION. The ridge at the sender: routing and the dateline (R401, R402), the layout of flits and messages (R387,
R392, R393, R399), transmission with replay, credits and priorities (R394 to R397), requests that wait for a route (R403),
and the head through which this device reaches its host (R366). -/
namespace Sys2Proof.Machine

/-! ## Ports, positions and distances -/

def portIx : Port → Nat
  | .W => 0
  | .E => 1
  | .N => 2
  | .S => 3

def portOf (i : Nat) : Port := if i = 0 then .W else if i = 1 then .E else if i = 2 then .N else .S

/-- The other port of the pair. -/
def portMate : Port → Port
  | .W => .E
  | .E => .W
  | .N => .S
  | .S => .N

/-- W and E against N and S. -/
def isNs : Port → Bool
  | .N => true
  | .S => true
  | _ => false

def pairOf (s : State) (ns : Bool) : Pair := if ns then s.ridge.ns else s.ridge.we
def updPair (ns : Bool) (f : Pair → Pair) (s : State) : State :=
  updRidge (fun r => if ns then { r with ns := f r.ns } else { r with we := f r.we }) s

/-- The low (W, N) and high (E, S) port of a pair. -/
def pairPorts (ns : Bool) : List Port := if ns then [.N, .S] else [.W, .E]

def devPos (d : BitVec 16) : Nat := (d.extractLsb' 0 6).toNat
def devFrame (d : BitVec 16) : Nat := (d.extractLsb' 6 10).toNat
def devOf (frame pos : Nat) : BitVec 16 := BitVec.ofNat 10 frame ++ BitVec.ofNat 6 pos

def myPos (s : State) : Nat := s.pw.straps.ringPos.toNat
def myFrame (s : State) : Nat := s.ridge.frame.toNat

/-- Ports that carry flits: up or holding (RPORT_STAT.STATE). -/
def portUp (s : State) (x : Port) : Bool := (port s (portIx x)).st = 3 || (port s (portIx x)).st = 4

/-- The live positions of this frame's ring, this device's own among them. -/
def liveRing (s : State) : BitVec 64 := setBit s.ridge.live (myPos s) true

/-- The live positions passed going E from `a` up to `b`, `b` among them where it is live. -/
def passedEast (live : BitVec 64) (a b : Nat) : List Nat :=
  ((List.range 64).filter (fun i => decide (i < (b + 64 - a) % 64) && live.getLsbD ((a + 1 + i) % 64))).map
    (fun i => (a + 1 + i) % 64)

/-- The eastward distance of R401. -/
def eastDist (live : BitVec 64) (a b : Nat) : Nat := (passedEast live a b).length

/-- No span of the way from `a` east to `b` is known to carry no link. -/
def eastWhole (s : State) (a b : Nat) : Bool :=
  (a :: passedEast (liveRing s) a b).all (fun i => i = b || !s.ridge.breaks.getLsbD i)

/-- Where a message goes from here. -/
inductive Way where
  | deliver
  | out (x : Port)
  | none
deriving DecidableEq, Repr

/-- One of two directions: the only one that reaches, or the shorter, the first on a tie (R401). -/
def pick (a b : Port) (ra rb : Bool) (da db : Nat) : Way :=
  match ra, rb with
  | true, true => if da ≤ db then .out a else .out b
  | true, false => .out a
  | false, true => .out b
  | false, false => .none

/-- The way within the ring to a position. DEDUCED (log entry 108). -/
def ringWay (s : State) (tp : Nat) : Way :=
  let p := myPos s
  let live := liveRing s
  pick .E .W (portUp s .E && eastWhole s p tp) (portUp s .W && eastWhole s tp p) (eastDist live p tp) (eastDist live tp p)

/-- Frame hops from `f` to `g` going N. -/
def northDist (s : State) (f g : Nat) : Nat := (g + (s.ridge.frames.toNat + 1) - f % (s.ridge.frames.toNat + 1)) % (s.ridge.frames.toNat + 1)

/-- The routing of R401. -/
def route (s : State) (dst : BitVec 16) : Way :=
  let f := myFrame s
  let tp := devPos dst
  let tf := devFrame dst
  if tf = f && tp = myPos s then .deliver
  else if tp ≠ myPos s then
    if (liveRing s).getLsbD tp then ringWay s tp else .none
  else if s.ridge.frames.toNat < tf || !s.ridge.nsEn || (tf < 64 && !s.ridge.liveCol.getLsbD tf) then .none
  else pick .N .S (portUp s .N) (portUp s .S) (northDist s f tf) (northDist s tf f)

/-- The hop out of this device through `x` crosses the dateline of its dimension (R402). -/
def crossesDateline (s : State) (x : Port) : Bool :=
  let ps := bitsOf (liveRing s)
  match x with
  | .E => ps.getLast? = some (myPos s)
  | .W => ps.head? = some (myPos s)
  | .N => myFrame s = s.ridge.frames.toNat
  | .S => myFrame s = 0

/-- Virtual channel: class, lane and dateline set (R395). -/
def vcOf (cls : BitVec 2) (rsp set : Bool) : BitVec 4 := cls ++ BitVec.ofBool rsp ++ BitVec.ofBool set

def vcClass (v : BitVec 4) : BitVec 2 := v.extractLsb' 2 2
def vcRsp (v : BitVec 4) : Bool := v.getLsbD 1
def vcSet (v : BitVec 4) : Bool := v.getLsbD 0

/-- Opcodes of R400 that travel on the RSP lane. -/
def isRsp (op : BitVec 6) : Bool :=
  op = 0x03 || op = 0x0A || op = 0x11 || op = 0x13 || op = 0x15 || op = 0x16

/-! ## Flits and messages (R387, R392, R393, R399) -/

/-- The flits of a message or control flit: data beyond 48 bytes goes in a body flit. -/
def flitsFor : FlitBody → List FlitBody
  | .msg op dst src st p tag a d =>
    if 48 < d.length then [.msg op dst src st p tag a d, .tail (d.drop 48)] else [.msg op dst src st p tag a d]
  | b => [b]

def flitsOf (b : FlitBody) : Nat := (flitsFor b).length

def bodyDst : FlitBody → BitVec 16
  | .msg _ dst _ _ _ _ _ _ => dst
  | _ => 0

def isMsg : FlitBody → Bool
  | .msg _ _ _ _ _ _ _ _ => true
  | _ => false

/-- FK of a flit header. -/
def flitKind : FlitBody → BitVec 2
  | .msg _ _ _ _ _ _ _ d => if 48 < d.length then 2 else 1
  | .tail _ => 3
  | _ => 0

/-- Word 0 of a message header. -/
def msgWord0 (op : BitVec 6) (dst src : BitVec 16) (st : BitVec 2) (poison : Bool) (tag : BitVec 16) (len : Nat) : Word :=
  at' dst 0 ||| at' src 16 ||| at' op 32 ||| at' st 38 ||| at' (BitVec.ofNat 7 len) 40 ||| atB poison 47 ||| at' tag 48

/-- The 64 payload bytes of a flit. A payload that the table of R393 does not place follows the type byte. DESIGN CHOICE
(log entry 109). -/
def flitPayload (b : FlitBody) : List Byte := padTo 64 (match b with
  | .idle => [0x00]
  | .skip id prt => 0x01 :: bytesOf 2 (id.setWidth 64) ++ [BitVec.ofNat 8 (portIx prt)]
  | .nak e => 0x02 :: bytesOf 2 (e.setWidth 64)
  | .init c => 0x03 :: bytesOfNat 10 c.toNat
  | .timeSync t1 => 0x04 :: bytesOf 8 t1
  | .timeResp t1 t2 t3 => 0x05 :: bytesOf 8 t1 ++ bytesOf 8 t2 ++ bytesOf 8 t3
  | .joinReq id => 0x06 :: bytesOf 2 (id.setWidth 64)
  | .holdDone id => 0x07 :: bytesOf 2 (id.setWidth 64)
  | .leaveReq id => 0x08 :: bytesOf 2 (id.setWidth 64)
  | .ringState n live frame col => 0x09 :: n :: bytesOf 8 live ++ bytesOf 2 (frame.setWidth 64) ++ [if col then 1 else 0]
  | .msg op dst src st p tag a d => bytesOf 8 (msgWord0 op dst src st p tag d.length) ++ bytesOf 8 a ++ d.take 48
  | .tail d => d)

/-- Header bits [31:0]. -/
def headerLow (f : SentFlit) (ack : BitVec 9) (crvc cred : BitVec 4) : BitVec 32 :=
  cred ++ crvc ++ flitKind f.body ++ f.vc ++ ack ++ f.seq

/-- The 72 bytes of a flit, its CRC over header bits [31:0] and the payload. -/
def flitBytes (f : SentFlit) (ack : BitVec 9) (crvc cred : BitVec 4) : List Byte :=
  let low := bytesOf 4 ((headerLow f ack crvc cred).setWidth 64)
  let crc : BitVec 32 := ~~~(low ++ flitPayload f.body).foldl crcByte 0xFFFFFFFF
  low ++ bytesOf 4 (crc.setWidth 64) ++ flitPayload f.body

/-- One step of the lane scrambler, x^23 + x^21 + x^16 + x^8 + x^5 + x^2 + 1. -/
def scrambleStep (r : BitVec 23) : BitVec 23 := if r.getLsbD 22 then (r <<< 1) ^^^ 0x210125 else r <<< 1

/-- The byte with which the scrambler meets the next byte of a lane, lowest bit first. DESIGN CHOICE (log entry 109). -/
def scrambleByte (r : BitVec 23) : Byte :=
  (List.range 8).foldl (fun b i => setBit b i ((scrambleStep^[i] r).getLsbD 22)) 0

/-- The nine bytes a lane carries of the n-th flit since training: byte i of the flit goes on lane i mod 8, scrambled. -/
def laneBytes (lane n : Nat) (flit : List Byte) : List Byte :=
  (List.range 9).map (fun i => (flit[8 * i + lane]?).getD 0
    ^^^ scrambleByte (scrambleStep^[72 * n + 8 * i] (Config.scrambleSeed lane)))

/-- What the eight lanes of a port carry of an output. -/
def lanesOf : Out → List (List Byte)
  | .flit _ n f ack crvc cred => (List.range 8).map (fun l => laneBytes l n (flitBytes f ack crvc cred))
  | _ => []

/-! ## Transmission -/

/-- A flit leaves a port: it carries the acknowledgement and up to 15 credits of one channel (R392, R395). While the port's
clock is stopped it stays in the port's crossing (R57). -/
def emitFlit (x : Port) (f : SentFlit) (s : State) : State :=
  if clockStopped s (.ridge x) then enterCrossing (.ridge x) false ⟨1, .flitOut x f⟩ s else
  let k := port s (portIx x)
  let c : Nat × Nat := match k.owe with
    | [] => (0, 0)
    | (v, n) :: _ => (v, Nat.min n 15)
  let s := updPort (portIx x) (fun p => { p with
    owe := if c.2 = 0 then p.owe else put 0 p.owe c.1 (look 0 p.owe c.1 - c.2)
    sinceSkip := p.sinceSkip + 1, flits := p.flits + 1 }) s
  emit (.flit x k.flits f k.rxSeq (BitVec.ofNat 4 c.1) (BitVec.ofNat 4 c.2)) s

/-- An unsequenced control flit. -/
def sendControl (x : Port) (b : FlitBody) (s : State) : State := emitFlit x ⟨0, 0, b⟩ s

/-- IDLE: acknowledgement and credits go back to a partner when nothing else does (R393). DESIGN CHOICE (log entry 45). -/
def sendIdle (x : Port) (s : State) : State :=
  if portUp s x && !(port s (portIx x)).training then sendControl x .idle s else s

/-- A sequenced flit takes the next SEQ and is kept until acknowledged (R393). -/
def sendOne (x : Port) (vc : BitVec 4) (b : FlitBody) (s : State) : State :=
  let f : SentFlit := ⟨(port s (portIx x)).txSeq, vc, b⟩
  emitFlit x f (updPort (portIx x) (fun p => { p with
    txSeq := p.txSeq + 1, replay := p.replay ++ [f]
    lastAck := if p.replay.isEmpty then s.time.now else p.lastAck }) s)

/-- The flits of a message or of a sequenced control flit, one after the other; the hub counts the bytes of messages
(R487). -/
def sendSequenced (x : Port) (vc : BitVec 4) (b : FlitBody) (s : State) : State :=
  forEach (flitsFor b) (sendOne x vc) (if isMsg b then countBytes (3 + 2 * portIx x) (72 * flitsOf b) s else s)

/-- New sequenced flits may go: the port is up, in no hold and in no training. -/
def mayTransmit (k : PortSt) : Bool := k.st = 3 && !k.holding && !k.training

/-- The port can send this message now: credits for every flit, room in the replay buffer (R393, R396). -/
def canSend (k : PortSt) (vc : BitVec 4) (n : Nat) : Bool :=
  mayTransmit k && decide (n ≤ look 0 k.credits vc.toNat) && decide (k.replay.length + n ≤ 128)

/-- Credits are owed for the receive buffer a message leaves. -/
def freeBuffer (from' : Option (Port × BitVec 4)) (n : Nat) (s : State) : State :=
  match from' with
  | none => s
  | some (x, v) =>
    sendIdle x (updPort (portIx x) (fun p => { p with owe := put 0 p.owe v.toNat (look 0 p.owe v.toNat + n) }) s)

/-! ## What an output sends next (R397) -/

/-- The input a message came by: a port, or this device itself. -/
def inputOf : Option (Port × BitVec 4) → Nat
  | none => 4
  | some (x, _) => portIx x

/-- The oldest message of one input for one channel, where it can go now. -/
def oldestReady (k : PortSt) (i : Nat) (v : BitVec 4) : Option (SentFlit × Option (Port × BitVec 4)) :=
  match k.waiting.find? (fun w => isMsg w.1.body && w.1.vc = v && inputOf w.2 = i) with
  | some w => if canSend k v (flitsOf w.1.body) then some w else none
  | none => none

/-- Row of a class and lane in the round robin of inputs. -/
def laneRow (c : Nat) (rsp : Bool) : Nat := 2 * c + (if rsp then 1 else 0)

/-- The message of a class that goes next: RSP before REQ, inputs in turn. DESIGN CHOICE (log entry 45). -/
def nextOfClass (k : PortSt) (c : Nat) : Option (SentFlit × Option (Port × BitVec 4)) :=
  [true, false].findSome? (fun rsp => (List.range 5).findSome? (fun j =>
    [false, true].findSome? (fun d => oldestReady k ((look 0 k.served (laneRow c rsp) + j) % 5) (vcOf (BitVec.ofNat 2 c) rsp d))))

/-- A sequenced control flit that waits. -/
def nextControl (k : PortSt) : Option (SentFlit × Option (Port × BitVec 4)) :=
  if mayTransmit k && decide (k.replay.length < 128) then k.waiting.find? (fun w => !isMsg w.1.body) else none

/-- What an output sends at this flit boundary: a class of 1 to 3 that has waited through 31 slots; a control flit; then
by class. -/
def nextOut (k : PortSt) : Option (SentFlit × Option (Port × BitVec 4)) :=
  (([1, 2, 3].filter (fun c => decide (31 ≤ look 0 k.slots c))).findSome? (nextOfClass k)).or
    ((nextControl k).or ((List.range 4).findSome? (nextOfClass k)))

/-- The slots that `n` flits take are waited through by each class of 1 to 3 that has a message left and is not the one
served. -/
def countSlots (n : Nat) (cls : Option Nat) (k : PortSt) : PortSt :=
  { k with slots := [1, 2, 3].foldl (fun t c =>
      let waits := k.waiting.any (fun w => isMsg w.1.body && (vcClass w.1.vc).toNat = c)
      put 0 t c (if cls = some c || !waits then 0 else look 0 t c + n)) k.slots }

/-- What the port keeps once it sends `w`: one message fewer, its credits taken, its input served. -/
def takeSlot (w : SentFlit × Option (Port × BitVec 4)) (k : PortSt) : PortSt :=
  let n := flitsOf w.1.body
  let left := { k with waiting := removeFirst (fun y => y = w) k.waiting }
  if isMsg w.1.body then
    let c := (vcClass w.1.vc).toNat
    countSlots n (some c) { left with
      credits := put 0 k.credits w.1.vc.toNat (look 0 k.credits w.1.vc.toNat - n)
      served := put 0 k.served (laneRow c (vcRsp w.1.vc)) ((inputOf w.2 + 1) % 5) }
  else countSlots n none left

/-- Send, flit boundary by flit boundary, what can go. -/
def pumpSlots (x : Port) : Nat → State → State
  | 0, s => s
  | fuel + 1, s =>
    match nextOut (port s (portIx x)) with
    | none => s
    | some w =>
      pumpSlots x fuel (freeBuffer w.2 (flitsOf w.1.body)
        (sendSequenced x w.1.vc w.1.body (updPort (portIx x) (takeSlot w) s)))

def pumpPort (x : Port) (s : State) : State :=
  if s.pw.clkRidge.getLsbD (portIx x) then s else pumpSlots x (port s (portIx x)).waiting.length s

/-- A message takes its place at an output and goes as credits allow. -/
def portSend (x : Port) (vc : BitVec 4) (b : FlitBody) (from' : Option (Port × BitVec 4)) (s : State) : State :=
  pumpPort x (updPort (portIx x) (fun p => { p with waiting := p.waiting ++ [(⟨0, vc, b⟩, from')] }) s)

/-! ## Sending from this device -/

/-- The device still originates messages on the pair of a port (R412). -/
def mayOriginate (s : State) (x : Port) : Bool :=
  match (pairOf s (isNs x)).step with
  | .idle => true
  | _ => false

/-- Send a response or acknowledgement along its route; it is dropped where no route exists. -/
def sendRsp (cls : BitVec 2) (b : FlitBody) (s : State) : State :=
  match route s (bodyDst b) with
  | .out x => portSend x (vcOf cls true (crossesDateline s x)) b none s
  | _ => updRidge (fun r => { r with discarded := satInc r.discarded }) s

/-- A request completes UNREACHABLE here (RIDGE_STAT.UNREACH). -/
def countUnreach (s : State) : State := updRidge (fun r => { r with unreach := satInc r.unreach }) s

/-- The record of a request stands for this message. -/
def isReqOf (b : FlitBody) (q : RReq) : Bool :=
  match b with
  | .msg op dst _ _ _ tag _ _ => q.op = op && q.tag = tag && q.dst = dst
  | _ => false

/-- A request waits while an earlier one to its destination, on another route, is not answered (R403). -/
def mustHold (earlier : List RReq) (dst : BitVec 16) (x : Port) : Bool :=
  earlier.any (fun q => q.dst = dst && q.port ≠ x)

/-- Send a request; none where no route exists. The record of the request stands until its answer. -/
def sendReq (cls : BitVec 2) (b : FlitBody) (q : RReq) (s : State) : Option State :=
  match route s (bodyDst b) with
  | .out x =>
    if !mayOriginate s x then none else
    let hold := mustHold s.ridge.reqs (bodyDst b) x
    let vc := vcOf cls false (crossesDateline s x)
    let s := updRidge (fun r => { r with reqs := r.reqs ++ [{ q with port := x }] }) s
    some (if hold then updRidge (fun r => { r with held := r.held ++ [⟨0, vc, b⟩] }) s else portSend x vc b none s)
  | _ => none

/-- The way of a held request, once nothing earlier to its destination is open on another. -/
def heldWay (s : State) (f : SentFlit) : Option Port :=
  match route s (bodyDst f.body) with
  | .out x => if mustHold (s.ridge.reqs.takeWhile (fun q => !isReqOf f.body q)) (bodyDst f.body) x then none else some x
  | _ => none

/-- Held requests go once nothing earlier to their destination is open on another route, on the channel of their way now
(R402, R403). -/
def pumpHeld : Nat → State → State
  | 0, s => s
  | fuel + 1, s =>
    match s.ridge.held.find? (fun f => (heldWay s f).isSome) with
    | none => s
    | some f =>
      let x := (heldWay s f).getD .W
      let s := updRidge (fun r => { r with
        held := removeFirst (fun y => y = f) r.held
        reqs := editFirst (isReqOf f.body) (fun q => { q with port := x }) r.reqs }) s
      pumpHeld fuel (portSend x (vcOf (vcClass f.vc) false (crossesDateline s x)) f.body none s)

/-- The answer to a request has come, or it ends: it leaves the list, and held requests may follow. -/
def closeReq (p : RReq → Bool) (s : State) : State :=
  let s := updRidge (fun r => { r with reqs := removeFirst p r.reqs }) s
  pumpHeld s.ridge.held.length s

/-- The next request tag. -/
def takeTag (s : State) : BitVec 16 × State :=
  (s.ridge.nextTag, updRidge (fun r => { r with nextTag := r.nextTag + 1 }) s)

/-! ## The serving head (R366) -/

inductive Head where
  | here
  | there (d : BitVec 16)
  | nowhere
deriving DecidableEq, Repr

def headOf (s : State) : Head :=
  if s.ep.routeValid then
    if s.ep.headPos.toNat = myPos s then .here else .there (devOf (myFrame s) s.ep.headPos.toNat)
  else if s.pw.straps.frameHead then .here else .nowhere

end Sys2Proof.Machine
end

