-- ==== Sys2Proof/Machine/Router.lean ====
section
/-! DEFINITION. The error log, MSI-X messages and notices, the event router (R309 to R327), the thread counters
(R476 to R484), readiness and the device mode (R40 to R43). -/
namespace Sys2Proof.Machine

/-! ## Error log (R433) -/

/-- Append an entry; the ring holds 16,384. DESIGN CHOICE (log entry 58). -/
def logEntry (type : BitVec 16) (a b : Word) (s : State) : State :=
  updWr (fun w => { w with
    log := (w.log ++ [LogE.mk s.time.now w.logNext type a b]).drop (w.log.length + 1 - 16384)
    logNext := w.logNext + 1 }) s

/-- An event to the Wright, which logs it; while the Wright restarts, at most 4,096 are held (R440).
DESIGN CHOICE (log entry 58). -/
def wrightEvent (type : BitVec 16) (a b : Word) (s : State) : State :=
  if s.wr.st = .restarting then
    if s.wr.heldEvents < 4096 then logEntry type a b (updWr (fun w => { w with heldEvents := w.heldEvents + 1 }) s)
    else updWr (fun w => { w with lostEvents := w.lostEvents + 1 }) s
  else logEntry type a b s

/-! ## What the endpoint sends (R357, R372, R373) -/

/-- The endpoint may issue requests and messages: link up, D0, Bus Master Enable, not frozen. -/
def mayIssue (s : State) : Bool := s.ep.up && s.ep.cfg.master && !s.ep.cfg.d3hot && !s.ep.frozen && !s.pw.clkEp

/-- The lowest traffic class that host software has mapped to VC1. -/
def vc1Class (c : Config) : BitVec 3 := BitVec.ofNat 3 ((bitsOf c.vc1Tc).headD 0)

/-- What a request of the device carries: its channel, and ordering by the settings of Device Control. -/
def reqAttr (s : State) (vc1 read : Bool) : TlpAttr :=
  let c := s.ep.cfg
  { vc1 := vc1, tc := if vc1 then vc1Class c else 0, ido := c.idoReq, ro := read && !c.idoReq && c.roEn
    ecrc := (look 0 c.rw 0x118).getLsbD 6 }

/-- The endpoint sends; while its clock is stopped, what it sends stays in its crossing (R57). -/
def emitHost (o : Out) (s : State) : State :=
  if s.pw.clkEp then enterCrossing .endpoint false ⟨1, .hostOut o⟩ s else emit o s

/-- The answer to a host read of a BAR. -/
def complete (success : Bool) (data : List Byte) (s : State) : State :=
  emitHost (.completion success data (s.ep.cfg.idoReq && s.ep.cfg.idoCpl)) s

/-- Those for which the test holds go first, each group in its order: VC1 has strict priority over VC0 (R373). -/
def urgentFirst {α : Type} (p : α → Bool) (l : List α) : List α := l.filter p ++ l.filter (fun x => !p x)

/-! ## MSI-X and notices (R357, R361 to R363, R366, R377) -/

/-- A vector is signalled later. -/
def pendMsi (v : Nat) (urgent : Bool) (s : State) : State :=
  updEp (fun p => { p with
    pba := put false p.pba v true, pbaVc1 := put false p.pbaVc1 v (urgent || look false p.pbaVc1 v) }) s

/-- Signal a vector at this endpoint: sent at once, or kept pending while the function, the vector or the endpoint holds
it. `urgent` sends it on VC1 while that is enabled: the message of a class-0 queue or of mailbox 7 (R373). -/
def msiHere (v : Nat) (urgent : Bool) (s : State) : State :=
  let e := look Msix.reset s.ep.msix v
  if !s.ep.cfg.msixEn then s
  else if s.ep.cfg.msixMask || e.mask || !mayIssue s then pendMsi v urgent s
  else emit (.msi e.addr e.data (reqAttr s (urgent && s.ep.cfg.vc1En) false)) s

/-- Signal a vector through the head of another device: the message of this device's table entry goes to the head as a
D_WR of four bytes. DESIGN CHOICE (log entry 110). -/
def msiThere (d : BitVec 16) (v : Nat) (urgent : Bool) (s : State) : State :=
  let e := look Msix.reset s.ep.msix v
  if e.mask then pendMsi v urgent s else
  let tg := takeTag s
  let q : RReq := { op := 0x12, tag := tg.1, dst := d, addr := e.addr, port := .W, thr := none, entry := none, left := 1 }
  match sendReq (if urgent then 0 else 1) (.msg 0x12 d (deviceId s) 0 false tg.1 e.addr (bytesOf 4 (e.data.setWidth 64))) q tg.2 with
  | some s => s
  | none => pendMsi v urgent s

/-- Signal a vector through the head that serves this device; with none it stays pending (R366). -/
def sendMsi (v : Nat) (urgent : Bool) (s : State) : State :=
  match headOf s with
  | .here => msiHere v urgent s
  | .there d => msiThere d v urgent s
  | .nowhere => pendMsi v urgent s

/-- Pending messages go now: nothing holds the function's, or another device's head takes them. -/
def msiFlows (s : State) : Bool :=
  match headOf s with
  | .here => s.ep.cfg.msixEn && !s.ep.cfg.msixMask && mayIssue s
  | .there _ => true
  | .nowhere => false

/-- Send the pending messages that nothing holds any more, those of VC1 first. -/
def flushMsi (s : State) : State :=
  if !msiFlows s then s else
  let isUrgent := fun (e : Nat × Bool) => look false s.ep.pbaVc1 e.1
  forEach (urgentFirst isUrgent s.ep.pba) (fun e acc =>
    if (look Msix.reset acc.ep.msix e.1).mask then acc
    else sendMsi e.1 (isUrgent e) (updEp (fun p => { p with
      pba := put false p.pba e.1 false, pbaVc1 := put false p.pbaVc1 e.1 false }) acc)) s

/-- One message on the notice vector, when notices are signalled (R363). -/
def noticeMsg (s : State) : State := if s.ep.nEn then sendMsi s.ep.nVec.toNat false s else s

def notifyMode (s : State) : State :=
  if s.ep.nMode then s else noticeMsg (updEp (fun e => { e with nMode := true }) s)
def notifyReady (s : State) : State :=
  if s.ep.nReady then s else noticeMsg (updEp (fun e => { e with nReady := true }) s)
def notifyRing (s : State) : State :=
  if s.ep.nRing then s else noticeMsg (updEp (fun e => { e with nRing := true }) s)

/-- Change the readiness map; a change of any bit is a notice (R465). -/
def setReady (f : Ready → Ready) (s : State) : State :=
  let r := f s.pw.ready
  if r = s.pw.ready then s else notifyReady (updPw (fun p => { p with ready := r }) s)

/-! ## Event router (R309 to R317) -/

/-- Priorities of the lanes that hold a record, highest first. -/
def laneUsed (e : EvState) (p : Nat) : Nat := (look 0 e.head p - look 0 e.tail p).toNat

def laneSize (e : EvState) : Nat := 2 ^ e.size.toNat

def nonEmptyLanes (e : EvState) : List Nat := (List.range 16).filter (fun p => laneUsed e p ≠ 0)

/-- The priority an entry would push: the highest non-empty lane above the top of the stack (R317). -/
def irqPrio (th : Thread) : Option Nat :=
  if !th.ev.en then none else
  match nonEmptyLanes th.ev with
  | [] => none
  | p :: _ =>
    match th.ev.stack with
    | [] => some p
    | top :: _ => if p < top.toNat then some p else none

def irqPending (th : Thread) : Bool := (irqPrio th).isSome

/-- The external interrupt may be taken now (R110). -/
def irqTakes (th : Thread) : Bool := th.tstat.ie && irqPending th

/-- Address of slot `i` of a lane (R309). -/
def laneSlot (e : EvState) (p i : Nat) : Nat :=
  e.base.toNat * 64 + p * laneSize e * 16 + (i % laneSize e) * 16

/-- The two words of a record (R312). -/
def recWord0 (r : EvRec) : Word :=
  at' r.source 0 ||| at' r.prio 8 ||| atB r.inj 12 ||| atB r.ovf 13 ||| at' r.index 16 ||| at' r.tstamp 32

/-- A thread whose power domain is down: its state is in retention memory (R325). -/
def domainDown (s : State) (t : Thr) : Bool := (look none s.pw.retained (thrKey t)).isSome

def partBad (s : State) (p : Nat) : Bool :=
  match (part s p).st with
  | .down => true
  | .restarting => true
  | _ => false

/-- The router discards every event for the thread: its partition is DOWN or RESTARTING, or the device is FENCED (R327,
R328). -/
def evDiscards (s : State) (t : Thr) : Bool :=
  s.pw.fenced || (match partOf s t with
    | none => true
    | some p => partBad s p)

/-- The thread's unit is being live-sistered: the router holds its events (R327). -/
def sisterHeld (s : State) (t : Thr) : Bool := s.wr.sistering.any (fun e => e.1 = srcOfThr t)

/-- Room in lane `p`, counting the records being written. -/
def laneFull (e : EvState) (p : Nat) : Bool :=
  laneSize e ≤ laneUsed e p + (e.writing.filter (fun r => r.prio.toNat = p)).length

/-- The record goes to the event logic, which writes it; the lane's OVF mark goes with it (R316). -/
def evStart (r : EvRec) (e : EvState) : EvState :=
  { e with
    writing := e.writing ++ [{ r with ovf := e.lostLanes.getLsbD r.prio.toNat }]
    lostLanes := setBit e.lostLanes r.prio.toNat false }

def updEv (f : EvState → EvState) (th : Thread) : Thread := { th with ev := f th.ev }

/-- What the router made of an event. -/
inductive EvFate where
  | taken
  | held
  | lost
deriving DecidableEq, Repr

/-- What becomes of an event for thread `t` (R316, R325). -/
def evFate (s : State) (t : Thr) (r : EvRec) : EvFate :=
  let e := (thr s t).ev
  if evDiscards s t then .lost
  else if sisterHeld s t then .held
  else if domainDown s t then
    if r.source = 1 then .held
    else if (s.pw.wake.filter (fun w => w.2.source ≠ 1)).length < 1024 then .held else .lost
  else if !e.en || laneFull e r.prio.toNat then (if r.source = 1 then .held else .lost)
  else .taken

/-- What the router does with an event it has stamped, for thread `t`. -/
def placeEvent (t : Thr) (r : EvRec) (s : State) : State :=
  if evDiscards s t then s
  else if sisterHeld s t then updPw (fun p => { p with routerHeld := p.routerHeld ++ [(thrKey t, r)] }) s
  else if domainDown s t then
    match evFate s t r with
    | .held => updPw (fun p => { p with wake := p.wake ++ [(thrKey t, r)] }) s
    | _ => updThr t (updEv (fun e => { e with ovf := satInc e.ovf })) s
  else if !(thr s t).ev.en then
    if r.source = 1 then updThr t (updEv (fun e => { e with held := some r })) s
    else if r.source = 2 then s
    else updThr t (updEv (fun e => { e with noq := satInc e.noq })) s
  else if laneFull (thr s t).ev r.prio.toNat then
    if r.source = 1 then updThr t (updEv (fun e => { e with held := some r })) s
    else if r.source = 2 then s
    else updThr t (updEv (fun e => { e with
      ovf := satInc e.ovf, lostLanes := setBit e.lostLanes r.prio.toNat true })) s
  else updThr t (updEv (evStart r)) s

/-- The router accepts an event for thread `t`. -/
def acceptEvent (t : Thr) (r : EvRec) (s : State) : State := placeEvent t { r with tstamp := s.time.now.setWidth 32 } s

/-- The thread that takes a partition's MODE, WRIGHT and MEM_ERR events, when it names one of its threads (R324).
DEDUCED (log entry 76). -/
def kthreadOf (s : State) (p : Nat) : Option Thr :=
  let pt := part s p
  match thrOfIndex pt.kthread.toNat pt.kkind with
  | none => none
  | some t => if partOf s t = some p then some t else none

/-- Send a MODE (6), WRIGHT (7) or MEM_ERR (8) event to a partition (R313). DEDUCED (log entry 76). -/
def partEvent (p : Nat) (source : BitVec 8) (index : BitVec 16) (payload : Word) (s : State) : State :=
  if !(part s p).ken || s.pw.fenced then s else
  match kthreadOf s p with
  | some t => acceptEvent t ⟨source, (part s p).sprio, false, false, index, 0, payload, none⟩ s
  | none =>
    match thrOfIndex (part s p).kthread.toNat (part s p).kkind with
    | some t => updThr t (updEv (fun e => { e with noq := satInc e.noq })) s
    | none => s

/-- A notice that R433 gives an entry of its own: the restart, the sistered unit, the retired channel. -/
def noticeLogged (index : BitVec 16) (payload : Word) : Bool :=
  index = 1 || index = 4 || (index = 6 && payload.getLsbD 8)

/-- A WRIGHT notice to one partition (R441). While KEN is 0 the error log still records it; one without an entry type in
R433 is recorded with its code, its partition and its payload (R313). DESIGN CHOICE (log entry 97). -/
def notice (p : Nat) (index : BitVec 16) (payload : Word) (s : State) : State :=
  if (part s p).ken || noticeLogged index payload then partEvent p 7 index payload s
  else wrightEvent Config.noticeType (at' index 0 ||| at' (BitVec.ofNat 3 p) 16) payload s

/-- A WRIGHT notice to every ACTIVE partition. -/
def noticeActive (index : BitVec 16) (payload : Word) (s : State) : State :=
  forEach (List.range 8) (fun p acc => if (part acc p).st = .active then notice p index payload acc else acc) s

/-! ## Thread counters (R477 to R484) -/

/-- Kind of an event of R479 for the kind of unit: none where it is not listed; true for level kind. -/
def eventKind (code : Nat) (adze : Bool) : Option Bool :=
  if code = 0 then none
  else if code = 1 then some false
  else if code ≤ 0x0F then (if adze then none else some (code = 4 || code = 0x0D))
  else if code = 0x12 || code = 0x17 then (if adze then none else some (code = 0x17))
  else if code ≤ 0x1A then some (code = 0x18)
  else if 0x20 ≤ code && code ≤ 0x25 then (if adze then some (code = 0x21 || code = 0x23) else none)
  else none

/-- Bit of a PRIV selection field for a level (R477, R478). -/
def privSel (sel : BitVec 3) (p : Priv) : Bool :=
  match p with
  | .U => sel.getLsbD 0
  | .K => sel.getLsbD 1
  | .M => sel.getLsbD 2

/-- Counter `n` counts at this moment, its event apart (R478, R481). -/
def pmcLive (th : Thread) (c : PmcCtl) : Bool :=
  c.en && !th.pmu.freeze &&
    (!c.spec || (th.tstat.priv = c.ctxPriv && th.asid = c.ctxAsid))

/-- Add `k` to counter `n`; the second value says whether it wrapped. -/
def pmcAdd (n k : Nat) (th : Thread) : Thread × Bool :=
  let v := (look 0 th.pmu.cnt n).toNat + k
  ({ th with pmu := { th.pmu with
      cnt := put 0 th.pmu.cnt n (BitVec.ofNat 48 v)
      ovf := if 2 ^ 48 ≤ v then setBit th.pmu.ovf n true else th.pmu.ovf } }, 2 ^ 48 ≤ v)

/-- A wrap of counter `n` ripples into the chained counters above it (R484); gives the counters that wrapped. -/
def pmcChain : Nat → Nat → Thread → List Nat → Thread × List Nat
  | 0, _, th, w => (th, w)
  | fuel + 1, n, th, w =>
    let prev := look PmcCtl.reset th.pmu.ctl n
    let c := look PmcCtl.reset th.pmu.ctl (n + 1)
    if n + 1 < 6 && c.chain && c.en && !th.pmu.freeze && !prev.spec then
      let (th', wr) := pmcAdd (n + 1) 1 th
      if wr then pmcChain fuel (n + 1) th' (w ++ [n + 1]) else (th', w)
    else (th, w)

/-- COUNTER events of the counters that wrapped, and FREEZE (R483). -/
def pmcWraps (t : Thr) (ws : List Nat) (s : State) : State :=
  forEach ws (fun n acc =>
    let th := thr acc t
    let c := look PmcCtl.reset th.pmu.ctl n
    let acc := if th.pmu.frzOvf && c.int && !c.spec
      then updThr t (fun x => { x with pmu := { x.pmu with freeze := true } }) acc else acc
    if c.int && !c.spec then
      acceptEvent t ⟨4, th.ev.cprio, false, false, BitVec.ofNat 16 n, 0, at' th.pmu.ovf 0, none⟩ acc
    else acc) s

/-- The counters whose own event is `code`, each with what it adds; then their chains and wraps. `sel` picks the
counters with SPEC = 0 or SPEC = 1 (R480, R481), or both. -/
def pmcCount (t : Thr) (code k : Nat) (level : Bool) (sel : Option Bool) (s : State) : State :=
  let th := thr s t
  let hits := (List.range 6).filter (fun n =>
    let c := look PmcCtl.reset th.pmu.ctl n
    pmcLive th c && (sel = none || sel = some c.spec) && !(c.chain && n ≠ 0) && c.event.toNat = code && privSel c.priv th.tstat.priv
      && (match eventKind code (isAdze t) with
          | none => false
          | some lv => if lv then (c.level = level) else !level))
  let r := hits.foldl (fun (acc : Thread × List Nat) n =>
    let (th', wr) := pmcAdd n k acc.1
    if wr then (let (th2, w2) := pmcChain 5 n th' [n]; (th2, acc.2 ++ w2)) else (th', acc.2)) (th, [])
  pmcWraps t r.2 (setThr t r.1 s)

/-- One occurrence of an edge event, or one entry into a level condition (R478). -/
def countEvent (t : Thr) (code : Nat) (s : State) : State := pmcCount t code 1 false none s

/-- An adze thread begins to await a response from outside its engine: event 0x21 (R256, R478, R479). -/
def countAwait (t : Thr) (s : State) : State := if isAdze t then countEvent t 0x21 s else s

/-- `k` occurrences of an edge event. -/
def countMany (t : Thr) (code k : Nat) (s : State) : State := if k = 0 then s else pmcCount t code k false none s

/-- `k` occurrences seen by the counters with SPEC = 0, at confirmation or retirement (R480). -/
def countConfirmed (t : Thr) (code k : Nat) (s : State) : State :=
  if k = 0 then s else pmcCount t code k false (some false) s

/-- Events that an instruction can cause before it is confirmed (R479). -/
def causedEarly (code : Nat) : Bool := 2 ≤ code && code ≤ 0x0F && code ≠ 7

/-- An event held with an instruction counts at its confirmation, where the counters with SPEC = 1 have not counted it
already (R480, R481). -/
def countHeld (t : Thr) (code : Nat) (s : State) : State :=
  if causedEarly code then countConfirmed t code 1 s else pmcCount t code 1 false none s

/-- One occurrence an unconfirmed instruction causes, seen by the counters with SPEC = 1 (R481). -/
def countUnconfirmed (t : Thr) (code : Nat) (s : State) : State := pmcCount t code 1 false (some true) s

/-- `ns` of TIME during which a level condition held. DESIGN CHOICE (log entry 24). -/
def countLevel (t : Thr) (code ns : Nat) (s : State) : State := pmcCount t code ns true none s

/-! ## Poison notices (R215) -/

/-- The partition whose memory a line is: the owner of its DRAM range, of its L2-as-memory bay or of its scratch engine
(R33). -/
def partOfLine (s : State) (l : BitVec 42) : Option Nat :=
  let a := (lineAddr l).toNat
  if isDramLine l then partOfAddr s (lineAddr l)
  else if 0xF00000000000 ≤ a && a < 0xF00002800000 then partOfBay s ((a - 0xF00000000000) / 0x100000)
  else if 0xF00004000000 ≤ a && a < 0xF00005000000 then partOfEngine s ((a - 0xF00004000000) / 0x40000)
  else none

/-- Poison a line; a line newly poisoned is logged with where it stands and its partition is told (R215, R313). -/
def poisonLine (l : BitVec 42) (whereB : Word) (s : State) : State :=
  if isPoisoned s l then s else
    let a := at' (lineAddr l) 0
    let s := wrightEvent 5 a whereB (setPoison l true s)
    match partOfLine s l with
    | some p => partEvent p 8 0 a s
    | none => s

/-! ## The device mode (R40 to R43) -/

/-- DEVICE_MODE.PART_DOWN (R42). -/
def partDownBits (s : State) : BitVec 8 :=
  (List.range 8).foldl (fun acc p => setBit acc p (partBad s p)) 0

/-- A logical core of the bay runs on its sister site. -/
def sisterInUse (b : Bay) : Bool :=
  (b.site0 ≠ 0 && b.site0 ≠ 7) || (b.site1 ≠ 1 && b.site1 ≠ 7) ||
  (b.site2 ≠ 2 && b.site2 ≠ 7) || (b.site3 ≠ 3 && b.site3 ≠ 7)

/-- The PCI Express link is up below its configured width or rate (R355). -/
def linkLow (s : State) : Bool :=
  s.ep.up && (decide (s.ep.lanes.toNat < s.pw.cfgLanes.toNat) || decide (s.ep.rate.toNat < s.pw.cfgRate.toNat))

/-- A function that bring-up failed is failed still (R464). -/
def someFailed (s : State) : Bool :=
  s.chan.any (fun e => e.2.st = 4) || s.ridge.ports.any (fun e => e.2.st = 5) || s.bay.any (fun e => e.2.failed)
    || s.eng.any (fun e => e.2.outOfService) || s.part.any (fun e => e.2.startFailed)

/-- The degraded condition (R40, R464). -/
def degraded (s : State) : Bool :=
  (partDownBits s ≠ 0) || s.chan.any (fun e => e.2.st = 4) || s.ridge.ports.any (fun e => e.2.st = 5)
    || (s.pw.linksFailed ≠ 0) || linkLow s || s.bay.any (fun e => sisterInUse e.2)
    || s.eng.any (fun e => e.2.onSpare) || (s.pw.bringupDone && someFailed s)

/-- Main power absent or held in reset (R40). -/
def standbyCond (s : State) : Bool :=
  !s.pw.pwrgood || (rail s 4).below || (rail s 11).below || s.pw.thermtrip || s.pw.inReset

/-- The main logic runs: powered and out of reset (R40). -/
def mainOn (s : State) : Bool := s.pw.sillOn && !standbyCond s

/-- The mode of the highest-precedence condition (R40); 0 stands for OFF, which no register reports. -/
def modeNow (s : State) : BitVec 4 :=
  if !s.pw.sillOn then 0
  else if standbyCond s then 1
  else if s.pw.fenced then 7
  else if s.pw.bringing then 2
  else if s.pw.quiesce then 6
  else if s.pw.braced then 5
  else if degraded s then 4
  else 3

/-- Items in flight: entries not FREE (R300). -/
def inflight (s : State) : Nat := (s.led.ent.filter (fun e => e.2.st ≠ .free)).length

/-- DEVICE_MODE (R42). -/
def deviceMode (s : State) : BitVec 32 :=
  (at' s.pw.mode 0 ||| atB (degraded s) 8 ||| atB s.pw.braced 9 ||| atB s.pw.quiesce 10
    ||| atB (s.pw.quiesce && inflight s = 0) 11 ||| atB s.pw.bringupDone 12 ||| at' (partDownBits s) 16
    ||| at' s.pw.modeChanges 24).setWidth 32

/-- The displayed mode follows the conditions: on a change DEVICE_MODE is updated, MODE_CHANGES advances, the change
is logged and every partition and the host are told (R43). The passage from OFF counts no change. -/
def settleMode (s : State) : State :=
  let m := modeNow s
  if m = s.pw.mode || m = 0 || s.pw.mode = 0 then updPw (fun p => { p with mode := m }) s
  else
    let s := updPw (fun p => { p with mode := m, modeChanges := p.modeChanges + 1 }) s
    let w := deviceMode s
    let s := updWr (fun x => { x with
      history := (x.history ++ [(s.time.now, w)]).drop (x.history.length + 1 - 64) }) s
    let s := wrightEvent 1 (w.setWidth 64) 0 s
    let s := forEach (List.range 8) (fun p acc => partEvent p 6 0 (w.setWidth 64) acc) s
    notifyMode s

end Sys2Proof.Machine
end

