-- ==== Sys2Proof/Machine/Ledger.lean ====
section
/-! DEFINITION. Writes to memory by any agent with their effect on reservations and cached copies (R174, R215, R237),
and the item ledger's shared operations (R297 to R304). -/
namespace Sys2Proof.Machine

/-! ## Reservations and writes -/

/-- Every monitor keeps only the entries that meet the test. -/
def keepMon (p : MonE → Bool) (s : State) : State :=
  { s with
    bay := editAll Bay.reset (fun _ b => { b with mon := b.mon.filter p }) s.bay
    eng := editAll Engine.reset (fun _ e => { e with mon := e.mon.filter p }) s.eng
    slice := editAll Slice.reset (fun _ x => { x with mon := x.mon.filter p }) s.slice }

/-- Thread `t` loses its reservation, and the entry its own unit's monitor has for it; a shared entry of another unit's
monitor stays taken until R173 frees it (R173, R174). -/
def loseResv (t : Thr) (s : State) : State :=
  keepMon (fun m => m.thr ≠ t || m.shared) (updThr t (fun th => { th with resv := none }) s)

/-- Thread `t` loses its reservation by a store to its granule, which frees a shared entry too (R173). -/
def loseResvAt (t : Thr) (g : BitVec 41) (s : State) : State :=
  keepMon (fun m => m.thr ≠ t || m.granule ≠ g) (loseResv t s)

/-- A write to a granule by `who` loses the reservation every other thread holds on it (R174). -/
def loseResvOn (who : Option Thr) (g : BitVec 41) (s : State) : State :=
  forEach s.thr (fun e acc =>
    match thrOfKey e.1 with
    | none => acc
    | some t =>
      if some t = who then acc else
      match (thr acc t).resv with
      | some r => if r.granule = g then loseResvAt t g acc else acc
      | none => acc) s

/-- Where a line stands, as TYPE 0x0005 of the error log says it (R433): its bay, or its engine. -/
def lineWhere (s : State) (l : BitVec 42) : Word :=
  let a := (lineAddr l).toNat
  if 0xF00004000000 ≤ a then at' (BitVec.ofNat 6 ((a - 0xF00004000000) / 0x40000)) 0 ||| atB true 8
  else if 0xF00000000000 ≤ a then at' (BitVec.ofNat 6 ((a - 0xF00000000000) / 0x100000)) 0
  else match homeOf s (lineAddr l) with
    | none => 0
    | some b => at' (BitVec.ofNat 6 b) 0

/-- A write of bytes inside one line by `who`, poisoned or not (R215): a poisoned write poisons the line, a write of
all 64 clean bytes clears poison, a partial write leaves it. -/
def storeBytes (who : Option Thr) (pa : BitVec 48) (l : List Byte) (poison : Bool) (s : State) : State :=
  let ln := lineOf pa
  let s := writeBytes pa.toNat l (dirtyLine ln s)
  let s := if poison then poisonLine ln (lineWhere s ln) s
    else if l.length = 64 then setPoison ln false s else s
  loseResvOn who (granuleOf pa) s

/-- Drop every cached copy of a line, and its directory record unless a transaction of the line has it busy (R191).
DEDUCED (log entry 39). -/
def dropCopies (l : BitVec 42) (s : State) : State :=
  let ways := fun (t : Tbl CLine) => editAll CLine.reset (fun _ w => if w.line = l then CLine.reset else w) t
  let stable := fun (d : DirE) => d.st = .S || d.st = .X
  { s with
    core := editAll Core.reset (fun _ c => { c with l1i := ways c.l1i, l1d := ways c.l1d }) s.core
    bay := editAll Bay.reset (fun _ b => { b with l2 := ways b.l2 }) s.bay
    slice := editAll Slice.reset (fun _ x => { x with
      dir := editAll DirE.reset (fun _ d => if d.line = l && stable d then DirE.reset else d) x.dir }) s.slice }

/-- Pieces of a byte string that do not cross a 64-byte line. -/
def linePieces : Nat → Nat → List Byte → List (Nat × List Byte)
  | 0, _, _ => []
  | fuel + 1, a, l =>
    if l.isEmpty then [] else
    let n := 64 - a % 64
    (a, l.take n) :: linePieces fuel (a + n) (l.drop n)

/-- A write that no transaction of the coherence protocol makes: a core's lost-store log entry (R182), an event record's
(R309) and the Wright's image of a monitor (R463). In DRAM every cached copy goes first. DEDUCED (log entry 39). -/
def hubWrite (pa : BitVec 48) (l : List Byte) (poison : Bool) (s : State) : State :=
  forEach (linePieces (l.length + 1) pa.toNat l) (fun pc acc =>
    let a : BitVec 48 := BitVec.ofNat 48 pc.1
    let acc := if isDramLine (lineOf a) then dropCopies (lineOf a) acc else acc
    storeBytes none a pc.2 poison acc) s

/-! ## Items -/

/-- The step an entry has reached (R300). -/
def stepOf (e : Entry) : BitVec 4 :=
  match e.st with
  | .free => 0
  | .queued => 3
  | .fetch => 4
  | .owned => if e.evSent then 6 else 5
  | .closing => e.lastStep

/-- Microseconds of a limit code as ns; none for 0 (R282). -/
def limitNs (c : BitVec 5) : Option Nat :=
  if c = 0 then none else if c.toNat ≤ 27 then some (2 ^ (c.toNat - 1) * 1000) else none

/-- Core of a thread key, for the dispatcher's vote (R455). -/
def dispVote (t : Thr) (b : Bool) (s : State) : State :=
  match t with
  | .core i => updPw (fun p => { p with dvotes := setBit p.dvotes (i.val / 4) b }) s
  | .adze _ => s

/-- The tag of a read that stays out of use, with the bytes that may still come (R378). -/
def deadOf (r : ReadRec) : BitVec 16 × Word × Nat := (r.tag, r.since, r.len - r.got.length)

/-- The reads of an entry are abandoned; the tags of those issued here stay out of use (R378). -/
def abandonReads (e : Nat) (s : State) : State :=
  let mine := fun (r : ReadRec) => r.entry.val = e && r.serves = none
  updEp (fun p => { p with
    deadTags := p.deadTags ++ (p.reads.filter (fun r => mine r && r.issued && !r.remote)).map deadOf
    reads := p.reads.filter (fun r => !mine r) }) s

/-- Decide the end of an item (R299): an entry that is FREE or already CLOSING keeps what it has. -/
def endItem (e : Nat) (fail : Bool) (cause detail : BitVec 8) (s : State) : State :=
  let x := entry s e
  if x.st = .free || x.st = .closing then s else
  let s := updEntry e (fun x => { x with
    st := .closing, lastStep := stepOf x, fail := fail, cause := cause, detail := detail
    tEnd := s.time.now
    gen := match x.owner with
      | some t => (srcEnt s (srcOfThr t)).gen
      | none => 0
    resv := none, writing := false }) s
  let s := abandonReads e s
  match (match x.resv with | some t => some t | none => x.owner) with
  | some t => dispVote t false s
  | none => s

/-- The entry and ETAG of the item a thread holds (R291, R297). -/
def heldEntry (s : State) (t : Thr) : Option (Nat × BitVec 16) := look none s.led.holds (thrKey t)

def setHeld (t : Thr) (e : Option (Nat × BitVec 16)) (s : State) : State :=
  updLed (fun l => { l with holds := put none l.holds (thrKey t) e }) s

/-- The OWNED entry of a thread. -/
def ownedBy (s : State) (t : Thr) : Option Nat :=
  (s.led.ent.find? (fun e => e.2.st = .owned && e.2.owner = some t)).map (·.1)

/-- An OWNED item of thread `t` fails (R298). -/
def failOwned (t : Thr) (cause detail : BitVec 8) (s : State) : State :=
  match ownedBy s t with
  | some e => endItem e true cause detail s
  | none => s

/-- The TAG of an item, once its descriptor has been read (R301). -/
def keptTag (x : Entry) : Option Word :=
  if !x.isInline && 64 ≤ x.desc.length then some (wordOf (sliceB x.desc 0 8)) else x.tag

/-- An item goes back to QUEUED; a wait limit already past ends it with QUEUE_WAIT at once (R293, R298). -/
def requeue (e : Nat) (s : State) : State :=
  let x := entry s e
  let s := abandonReads e s
  let s := match x.resv with
    | some t => dispVote t false s
    | none => s
  let s := updEntry e (fun x => { x with
    st := .queued, resv := none, writing := false, data := [], tag := keptTag x, desc := if x.isInline then x.desc else [], descOk := false }) s
  match limitNs x.qlimit with
  | none => s
  | some n => if x.tAccept.toNat + n ≤ s.time.now.toNat then endItem e true 7 0 s else s

/-- Count an ITEM_DONE that changed no record (R297). -/
def countLate (s : State) : State := updLed (fun l => { l with late := satInc l.late }) s

/-- Entries of a queue that are not FREE (QCNT.HELD). -/
def heldOf (s : State) (q : Nat) : Nat :=
  (s.led.ent.filter (fun e => e.2.st ≠ .free && e.2.queue.val = q)).length

/-- FLOOR: the lowest sequence number of the queue not delivered; AI when none is outstanding (R282). -/
def floorOf (s : State) (q : Nat) : BitVec 32 :=
  let ai := (queue s q).ai
  let ds := (s.led.ent.filter (fun e => e.2.st ≠ .free && e.2.queue.val = q)).map (fun e => (ai - e.2.seq).toNat)
  ai - BitVec.ofNat 32 (ds.foldl Nat.max 0)

/-- Free an entry (record delivered). -/
def freeEntry (e : Nat) (s : State) : State :=
  updEntry e (fun x => { Entry.reset with etag := x.etag }) s

end Sys2Proof.Machine
end

