-- ==== Sys2Proof/Machine/Store.lean ====
section
/-! DEFINITION. The Filolmelo store (R466 to R474): slots, headers, verification, the settings record with its
defaults (R473, R512), and partition layouts (R428). -/
namespace Sys2Proof.Machine

/-! ## Slots -/

def slotOf (st : Store) (b : Bool) : Slot := if b then st.slotB else st.slotA

def setSlot (b : Bool) (v : Slot) (st : Store) : Store := if b then { st with slotB := v } else { st with slotA := v }

/-- Bytes of a slot from an offset. -/
def slotBytes (x : Slot) (off n : Nat) : List Byte := (List.range n).map (fun i => look 0 x.bytes (off + i))

def slotNat (x : Slot) (off n : Nat) : Nat := natOfBytes (slotBytes x off n)

/-- Size of a slot for a flash of `c` bytes (R467). -/
def slotSize (c : Nat) : Nat := c / 2 - 0x100000

/-- Header fields (R469). -/
def rbIndex (x : Slot) : Nat := slotNat x 6 1
def fwVersion (x : Slot) : Word := BitVec.ofNat 64 (slotNat x 8 8)

/-- An area lies in the slot, outside the header, on a multiple of 4 KiB (R469). -/
def areaOk (size off len : Nat) : Bool := off % 4096 = 0 && 4096 ≤ off && off + len ≤ size

/-- Verification of a slot (R470): none when it passes, else the status of the first check that fails. `keyHash` is
the fused hash of the store key. UNVERIFIED (log entry 73). -/
def verifySlot (keyHash : List Byte) (fuse size : Nat) (x : Slot) : Option (BitVec 8) :=
  let fwOff := slotNat x 0x10 4
  let fwLen := slotNat x 0x14 4
  let setOff := slotNat x 0x18 4
  let setLen := slotNat x 0x1C 4
  if slotNat x 0 4 ≠ 0x4C4D4C46 || slotNat x 4 2 ≠ 1 || 64 < rbIndex x || 786432 < fwLen || 65536 < setLen
    || !areaOk size fwOff fwLen || !areaOk size setOff setLen then some 9
  else if Config.sha384 (slotBytes x 0xE0 97) ≠ keyHash then some 9
  else if !Config.ecdsaVerify 0 (Config.sha384 (slotBytes x 0 0x80)) (slotBytes x 0x80 96 ++ slotBytes x 0xE0 97) then
    some 9
  else if rbIndex x < fuse then some 10
  else if Config.sha384 (slotBytes x fwOff fwLen) ≠ slotBytes x 0x20 48 then some 9
  else if Config.sha384 (slotBytes x setOff setLen) ≠ slotBytes x 0x50 48 then some 9
  else none

/-- The boot default: the valid selector copy with the higher GEN; slot A with none (R468). -/
def bootDefault (st : Store) : Bool :=
  if st.sel0.valid && (!st.sel1.valid || st.sel1.gen.toNat < st.sel0.gen.toNat) then st.sel0.deflt
  else if st.sel1.valid then st.sel1.deflt else false

/-- COMMIT writes the copy with the lower GEN, or an invalid one, with GEN one higher than the other (R468). -/
def writeSelector (deflt : Bool) (st : Store) : Store :=
  if st.sel0.valid && (!st.sel1.valid || st.sel1.gen.toNat < st.sel0.gen.toNat) then
    { st with sel1 := ⟨true, st.sel0.gen + 1, deflt⟩ }
  else if st.sel1.valid then { st with sel0 := ⟨true, st.sel1.gen + 1, deflt⟩ }
  else { st with sel0 := ⟨true, 1, deflt⟩ }

/-! ## The settings record (R473) -/

/-- Entries of a record: type and value bytes. -/
def recordEntries : Nat → List Byte → List (Nat × List Byte)
  | 0, _ => []
  | fuel + 1, l =>
    let ty := fieldB l 0 2
    let len := fieldB l 4 4
    if l.length < 8 || ty = 0 then [] else
    (ty, sliceB l 8 len) :: recordEntries fuel (l.drop (8 + (len + 7) / 8 * 8))

/-- Entries of the active slot's settings record; none when no slot is active. -/
def settings (st : Store) : List (Nat × List Byte) :=
  match st.active with
  | none => []
  | some b =>
    let x := slotOf st b
    let len := slotNat x 0x1C 4
    recordEntries (len / 8 + 1) (slotBytes x (slotNat x 0x18 4) len)

def settingOf (st : Store) (ty : Nat) : Option (List Byte) := ((settings st).find? (fun e => e.1 = ty)).map (·.2)

def settingsOf (st : Store) (ty : Nat) : List (List Byte) := ((settings st).filter (fun e => e.1 = ty)).map (·.2)

/-! ## Partition layouts (R428) -/

structure Layout where
  p : Nat
  hold : Bool
  standby : Fin 8
  standbyV : Bool
  dmbox : BitVec 16
  bays : BitVec 40
  engines : BitVec 64
  ranges : List (BitVec 13)
deriving DecidableEq, Repr

/-- A layout from its bytes (offset 0 is 0x40 of the page); none where a field is out of range. -/
def parseLayout (l : List Byte) : Option Layout :=
  let w := wordOf (sliceB l 0 8)
  let n := fieldB l 0x18 8
  let rs := (List.range n).map (fun i => fieldB l (0x20 + 2 * i) 2)
  if n = 0 || 64 < n || w.extractLsb' 11 5 ≠ 0 || w.extractLsb' 48 16 ≠ 0 || rs.any (fun r => decide (8191 < r))
    || fieldB l 0x0D 3 ≠ 0 || !rs.Nodup then none
  else some {
    p := (w.extractLsb' 0 3).toNat
    hold := w.getLsbD 3
    standby := (w.extractLsb' 4 3).toFin
    standbyV := w.getLsbD 7
    dmbox := w.extractLsb' 16 16
    bays := BitVec.ofNat 40 (fieldB l 8 5)
    engines := BitVec.ofNat 64 (fieldB l 0x10 8)
    ranges := (sortBy (fun a b => decide (a ≤ b)) rs).map (BitVec.ofNat 13) }

/-- Installed 1 GiB ranges. -/
def installedRanges (s : State) : List (BitVec 13) :=
  ((List.range 8192).filter (fun g => s.region.any (fun e => e.2.v && decide (e.2.base.toNat ≤ g)
    && decide (g < e.2.base.toNat + e.2.size.toNat)))).map (BitVec.ofNat 13)

/-- The layout a partition has at bring-up: from the settings record, else the default of R36: every installed
range, be they more than 64. DESIGN CHOICE (log entry 107). -/
def bringupLayout (s : State) (p : Nat) : Option Layout :=
  match settingsOf s.wr.store 3 with
  | [] =>
    if p ≠ 0 then none else some {
      p := 0, hold := false, standby := 0, standbyV := false, dmbox := 0xFFFF, bays := BitVec.allOnes 40
      engines := BitVec.allOnes 64, ranges := installedRanges s }
  | ls => (ls.filterMap parseLayout).find? (fun x => x.p = p)

/-- Partition `p` holds a queue: one mapped with its PART, or, at the default of R36, every queue. -/
def holdsQueue (s : State) (p : Nat) : Bool :=
  s.queue.any (fun e => e.2.slot.isSome && e.2.part.toNat = p) || (p = 0 && (settingsOf s.wr.store 3).isEmpty)

/-- Apply the resources of a layout. -/
def applyLayout (x : Layout) (s : State) : State :=
  updPart x.p (fun y => { y with
    bays := x.bays, engines := x.engines, ranges := x.ranges, dmbox := x.dmbox, hold := x.hold
    standby := if x.standbyV then some x.standby else none }) s

/-! ## Monitor images (R463, R473) -/

structure Monitor where
  imageOff : Nat
  imageLen : Nat
  loadOff : Nat
  entryOff : Nat
deriving DecidableEq, Repr

/-- The MONITOR entry that a partition uses. -/
def monitorOf (s : State) (p : Nat) : Option Monitor :=
  ((settingsOf s.wr.store 4).find? (fun l => (BitVec.ofNat 8 (fieldB l 0 1)).getLsbD p)).map (fun l =>
    { imageOff := fieldB l 8 4, imageLen := fieldB l 0xC 4, loadOff := fieldB l 0x10 8, entryOff := fieldB l 0x18 8 })

/-- The image lies in the active slot and its load offset is a multiple of 4 KiB. -/
def monitorFits (s : State) (x : Monitor) : Bool :=
  x.imageOff + x.imageLen ≤ slotSize s.wr.store.capacity && x.loadOff % 4096 = 0

end Sys2Proof.Machine
end

