-- ==== Sys2Proof/Machine/Belilpin.lean ====
section
/-! DEFINITION. The mailbox logic (R418 to R423): pages, doorbells, taking, answering and completing a command, and the
checks every command makes. -/
namespace Sys2Proof.Machine

/-! ## Pages (R419) -/

def pageBytes (b : MboxSt) (off n : Nat) : List Byte := (List.range n).map (fun i => look 0 b.page (off + i))
def pageNat (b : MboxSt) (off n : Nat) : Nat := natOfBytes (pageBytes b off n)
def pageWord (b : MboxSt) (off : Nat) : Word := wordOf (pageBytes b off 8)
def boxCode (b : MboxSt) : Nat := pageNat b 0 2
def boxSeq (b : MboxSt) : BitVec 16 := BitVec.ofNat 16 (pageNat b 2 2)
def boxPlen (b : MboxSt) : Nat := pageNat b 4 2 % 4096

def isUrgent : Mbox → Bool
  | .host m => m.val = 7
  | .mgmtUrgent => true
  | _ => false

/-- Statuses of R422. -/
def stOk : BitVec 8 := 0x00
def stBusy : BitVec 8 := 0x01
def stBadCode : BitVec 8 := 0x02
def stBadLength : BitVec 8 := 0x03
def stBadParam : BitVec 8 := 0x04
def stDenied : BitVec 8 := 0x05
def stState : BitVec 8 := 0x06
def stLimit : BitVec 8 := 0x07
def stFailed : BitVec 8 := 0x08
def stSeq : BitVec 8 := 0x0B
def stUnavailable : BitVec 8 := 0x0C

/-- Codes that Belilpin 1.4 defines. -/
def definedCode (c : Nat) : Bool :=
  (0x101 ≤ c && c ≤ 0x103) || (0x201 ≤ c && c ≤ 0x206) || (0x301 ≤ c && c ≤ 0x307) || (0x401 ≤ c && c ≤ 0x406)
    || (0x501 ≤ c && c ≤ 0x506) || (0x601 ≤ c && c ≤ 0x609) || (0x701 ≤ c && c ≤ 0x704) || (0x801 ≤ c && c ≤ 0x802)
    || (0x901 ≤ c && c ≤ 0x903)

/-- Codes of the Wright's commands that the tables mark as changing state (R423, R427 to R435). -/
def changesState (c : Nat) : Bool :=
  definedCode c && c < 0x900 && !(c / 256 = 1 || c / 256 = 7 || c / 256 = 8 || c = 0x201 || c = 0x301 || c = 0x501 || c = 0x506)

/-- A mailbox accepts the code's group (R418). -/
def acceptsCode (b : MboxSt) (m : Mbox) (c : Nat) : Bool :=
  let g := c / 256
  !b.groupsOff.getLsbD g && (match m with
    | .host k => if k.val = 7 then g = 9 else 1 ≤ g && g ≤ 8
    | .mgmt => g ≠ 6 && g ≠ 9
    | .mgmtUrgent => g = 9
    | .dev _ => g = 1 || c = 0x201 || c = 0x303 || c = 0x401 || g = 7 || g = 8)

/-- Partition that owns a device mailbox. -/
def partOfBox (s : State) : Mbox → Option Nat
  | .dev k => firstBelow 8 (fun p => (part s p).dmbox.getLsbD k.val)
  | _ => none

/-! ## Signalling (R421) -/

def signalBox (m : Mbox) (status : BitVec 8) (seq : BitVec 16) (rlen : Nat) (s : State) : State :=
  let b := box s m
  match m with
  | .host k => if b.vecEn then sendMsi b.vec.toNat (k.val = 7) s else s
  | .mgmt => if s.pw.straps.mgmtI3c then emit (.ibi 0) s else s
  | .mgmtUrgent => if s.pw.straps.mgmtI3c then emit (.ibi 1) s else s
  | .dev k =>
    if !b.vecEn then s else
    match partOfBox s m with
    | none => s
    | some p =>
      let word : Word := at' status 0 ||| at' seq 8 ||| at' (BitVec.ofNat 12 rlen) 24
      match thrOfIndex b.vec.toNat b.kind with
      | none => s
      | some t =>
        if partOf s t = some p then
          acceptEvent t ⟨5, (part s p).mprio, false, false, BitVec.ofNat 16 k.val, 0, word, none⟩ s
        else updThr t (updEv (fun e => { e with noq := satInc e.noq })) s

/-- Header bytes 0x08 to 0x1F of an answer. -/
def answerBytes (status : BitVec 8) (detail : BitVec 16) (rlen : Nat) (seq : BitVec 16) (taken done : Word) : List Byte :=
  let w : Word := at' status 0 ||| at' (BitVec.ofNat 12 rlen) 16 ||| at' seq 32 ||| at' detail 48
  bytesOf 8 w ++ bytesOf 8 taken ++ bytesOf 8 done

/-- Write an answer into the page, set STATE to DONE and signal (R421). -/
def finishBox (m : Mbox) (status : BitVec 8) (detail : BitVec 16) (payload : List Byte) (seq : BitVec 16) (taken : Word)
    (s : State) : State :=
  let n := payload.length
  let s := updBox m (fun b => { b with
    page := writeList 8 (answerBytes status detail n seq taken s.time.now) (writeList 0x40 payload b.page)
    st := 2, resp := none, effected := false }) s
  signalBox m status seq n s

/-! ## Taking a command (R420) -/

def wrightUp (s : State) : Bool := s.wr.st = .serving || s.wr.st = .booting

/-- The response of a command whose code the mailbox does not take. -/
def refuseCode (b : MboxSt) (m : Mbox) : Option Resp :=
  let c := boxCode b
  if !definedCode c then some ⟨stBadCode, 0, []⟩
  else if !acceptsCode b m c then some ⟨stDenied, 0, []⟩ else none

/-- An ACTIVATE has been taken and is not answered: doorbells from then on are answered BUSY (R439). -/
def activateTaken (s : State) : Bool :=
  (List.range 32).any (fun k =>
    let b := look MboxSt.reset s.wr.boxes k
    b.st = 1 && b.resp.isNone && boxCode b = 0x504)

/-- The mailbox answers BUSY: the Wright is restarting or not yet serving, or takes no command during a live update
(R420, R439, R442, R474). -/
def boxBusy (s : State) (m : Mbox) : Bool :=
  match s.wr.st with
  | .restarting => true
  | .booting => (match m with | .mgmt => s.wr.store.active.isSome || s.pw.bringupAt = s.time.now | _ => true)
  | .serving => activateTaken s || s.wr.update ≠ .none
  | _ => false

/-- A ringing write of a doorbell, in the cases of R420. DESIGN CHOICE (log entry 66). -/
def ringNow (m : Mbox) (v : Word) (s : State) : State :=
  let b := box s m
  let ring : BitVec 16 := v.extractLsb' 0 16
  let s := updBox m (fun b => { b with
    vec := match m with | .dev _ => (v.extractLsb' 16 10).setWidth 11 | _ => v.extractLsb' 16 11
    kind := match m with | .dev _ => v.getLsbD 26 | _ => b.kind
    vecEn := v.getLsbD 27 }) s
  let refuseAs := fun (st : BitVec 8) => finishBox m st 0 [] ring 0 s
  if b.st = 1 then updBox m (fun _ => { b with refused := satInc b.refused }) s
  else if s.pw.mode = 1 || s.pw.mode = 0 then refuseAs stUnavailable
  else if !isUrgent m && boxBusy s m then refuseAs stBusy
  else if !isUrgent m && (s.wr.st = .stopped || s.wr.st = .off) then refuseAs stUnavailable
  else if boxSeq b = ring && ring = b.lastSeq && b.st = 2 then
    let w := pageWord b 8
    signalBox m (w.extractLsb' 0 8) (w.extractLsb' 32 16) (w.extractLsb' 16 12).toNat s
  else if boxSeq b ≠ ring then refuseAs stSeq
  else
    let s := updBox m (fun b => { b with
      page := writeList 0x10 (bytesOf 8 s.time.now) b.page
      st := 1, lastSeq := ring, tTaken := s.time.now, resp := refuseCode b m, effected := false }) s
    if isUrgent m then s else updWr (fun w => { w with order := w.order.filter (fun x => x ≠ m) ++ [m] }) s

/-- A doorbell that the Wright takes; `refuse` has a command that it begins answered STATE (R374). -/
def ringTaken (m : Mbox) (v : Word) (refuse : Bool) (s : State) : State :=
  let was := (box s m).st
  let s := ringNow m v s
  if refuse && was ≠ 1 && (box s m).st = 1 then
    updBox m (fun b => { b with resp := some ⟨stState, 0, []⟩ }) s else s

/-- A doorbell passes the Wright's crossing, which holds it while the Wright's clock is stopped; the urgent sequencer is
hub logic (R55, R57, R436). -/
def ringBox (m : Mbox) (v : Word) (refuse : Bool) (s : State) : State :=
  if s.pw.clkWright && !isUrgent m then enterCrossing .wright false ⟨1, .ring m v refuse⟩ s else ringTaken m v refuse s

/-- A write to a page: discarded and counted while the mailbox is BUSY (R420). -/
def writeBoxPage (m : Mbox) (off : Nat) (data : List Byte) (s : State) : State :=
  if (box s m).st = 1 then updBox m (fun b => { b with refused := satInc b.refused }) s
  else updBox m (fun b => { b with page := writeList off data b.page }) s

/-- MBOX_DB_m and DMBOX_DB_m as they read. -/
def boxDbWord (m : Mbox) (b : MboxSt) : Word :=
  let low : Word := match m with
    | .dev _ => at' (b.vec.setWidth 10) 16 ||| atB b.kind 26 ||| atB b.vecEn 27
    | _ => at' b.vec 16 ||| atB b.vecEn 27
  low ||| at' b.st 28 ||| at' b.lastSeq 32 ||| at' b.refused 48

/-! ## Running a command -/

/-- What a command answers, and the state it leaves; `none` where it waits for a later event. -/
structure Answer where
  status : BitVec 8
  detail : BitVec 16
  payload : List Byte
  wait : Bool

def ok (payload : List Byte) : Answer := ⟨stOk, 0, payload, false⟩
def bad (status : BitVec 8) : Answer := ⟨status, 0, [], false⟩
def badD (status : BitVec 8) (detail : BitVec 16) : Answer := ⟨status, detail, [], false⟩
/-- The command goes on; a later event answers it. -/
def later : Answer := ⟨stOk, 0, [], true⟩

/-- Set the response of a running command, which COMMAND_COMPLETE then writes. -/
def respond (m : Mbox) (a : Answer) (s : State) : State :=
  if a.wait then updBox m (fun b => { b with effected := true }) s
  else updBox m (fun b => { b with resp := some ⟨a.status, a.detail, a.payload⟩, effected := false }) s

/-- Some command of the Wright that changes state is running. ACTIVATE lets the commands taken before it run (R439), and
the urgent sequencer's commands are not the Wright's. -/
def changingRuns (s : State) : Bool :=
  s.wr.boxes.any (fun e => e.2.st = 1 && e.2.effected && boxCode e.2 < 0x900 && boxCode e.2 ≠ 0x504)

/-- A command that changes state waits for those taken before it: their doorbells reached the Wright first (R423). -/
def waitsTurn (s : State) (m : Mbox) : Bool :=
  (s.wr.order.takeWhile (fun x => x ≠ m)).any (fun x =>
    let b := box s x
    b.st = 1 && b.resp.isNone && !b.effected && changesState (boxCode b))

/-- The reserved bits of the request header are 0 (R419, R422). -/
def headerFits (b : MboxSt) : Bool := pageWord b 0 >>> 44 = 0

/-- The Wright or the urgent sequencer runs the command taken in mailbox `m`, if it is this one: BAD_LENGTH on a wrong
PLEN, BAD_PARAM on a reserved bit of the header, then the command's own checks and effect (R422, R423, R436). With no slot
verified the boot ROM runs only GET_IDENTITY and 0x0501 to 0x0504, from the management mailbox (R474). DESIGN CHOICE
(log entry 7). DESIGN CHOICE (log entry 66). -/
def command (m : Mbox) (code : Nat) (changes : Bool) (plenOk : MboxSt → Nat → Bool)
    (body : MboxSt → State → Answer × State) (s : State) : Result :=
  let b := box s m
  let may := isUrgent m || (!s.pw.clkWright && (s.wr.st = .serving || (s.wr.st = .booting && m = .mgmt)))
  if b.st ≠ 1 || b.resp.isSome || b.effected || boxCode b ≠ code || !may || (changes && !isUrgent m && (changingRuns s || waitsTurn s m)) then
    .next s
  else if s.wr.st = .booting && !isUrgent m && code ≠ 0x101 && (code < 0x501 || 0x504 < code) then
    .next (respond m (bad stState) s)
  else if !plenOk b (boxPlen b) then .next (respond m (bad stBadLength) s)
  else if !headerFits b then .next (respond m (bad stBadParam) s)
  else
    let r := body b s
    .next (respond m r.1 r.2)

/-- PLEN is a fixed number. -/
def plenIs (n : Nat) : MboxSt → Nat → Bool := fun _ k => k = n

/-- Bits [63:n] of a request word are 0, with those of `keep` taken out. -/
def onlyBits (w keep : Word) : Bool := w &&& ~~~keep = 0

/-- The mailbox that runs a command of this code. -/
def runningBox (s : State) (code : Nat) : Option Mbox :=
  ((List.finRange 8).map Mbox.host ++ [Mbox.mgmt, Mbox.mgmtUrgent] ++ (List.finRange 16).map Mbox.dev).find? (fun m =>
    (box s m).st = 1 && (box s m).effected && boxCode (box s m) = code)

/-- Answer a command that waited. -/
def answerRunning (code : Nat) (a : Answer) (s : State) : State :=
  match runningBox s code with
  | some m => respond m a s
  | none => s

end Sys2Proof.Machine
end

