-- ==== Sys2Proof/Machine/Failure.lean ====
section
/-! DEFINITION. Stopping threads and taking a partition DOWN (R107, R137, R187, R239 to R242). -/
namespace Sys2Proof.Machine

/-- The threads that solo mode parked resume (R137). -/
def releaseSolo (c : Nat) (s : State) : State :=
  let k := core s c
  if !k.soloActive && k.soloWait.isNone then s else
  let s := forEach (thrsOfCore c) (fun t acc => updThr t (fun th => { th with soloParked := false }) acc) s
  updCore c (fun k => { k with soloBit := false, soloActive := false, soloOwner := 0, soloWait := none }) s

/-- An MTS of SOLO = 1 begins: the core waits for its other threads to be parked (R136). -/
def beginSolo (c : Nat) (me : Fin 4) (s : State) : State :=
  updCore c (fun k => { k with soloBit := true, soloWait := some me, soloAt := s.time.now }) s

/-- Solo mode of a core ends; an MTS of SOLO = 1 that was put off executes now, the lowest thread's first (R136, R137). -/
def endSolo (c : Nat) (s : State) : State :=
  let s := releaseSolo c s
  if (core s c).soloWait.isSome then s else
  match (List.finRange 4).find? (fun i => match thrOfIndex (4 * c + i.val) false with
      | some t => (thr s t).soloLater && (thr s t).run ≠ .stopped
      | none => false) with
  | none => s
  | some i =>
    match thrOfIndex (4 * c + i.val) false with
    | some t => beginSolo c i (updThr t (fun th => { stepPc (th.pc + 4) th with soloLater := false }) s)
    | none => s

/-- A thread stops under R107: it retires nothing more and keeps its registers; its item fails; the Wright is told. -/
def stopThread (t : Thr) (causeWord : Word) (s : State) : State :=
  let s := updThr t (fun th => { th with run := .stopped }) s
  let s := wrightEvent 0x000E (at' (BitVec.ofNat 10 (thrIx t)) 0 ||| atB (isAdze t) 10) causeWord s
  let s := failOwned t 5 0 s
  match t with
  | .core i =>
    let c := i.val / 4
    if (core s c).soloActive && (core s c).soloOwner.val = i.val % 4 then endSolo c s else s
  | .adze _ => s

/-- Sources of a partition: its bay agents, their cores and its engines (R30). -/
def sourcesOf (s : State) (p : Nat) : List Src :=
  let bs := (List.finRange 40).filter (fun b => (part s p).bays.getLsbD b.val)
  let cs := (List.finRange 160).filter (fun c => (part s p).bays.getLsbD (c.val / 4))
  let es := (List.finRange 64).filter (fun e => (part s p).engines.getLsbD e.val)
  bs.map Src.bay ++ cs.map Src.core ++ es.map Src.engine

/-- Keys of threads that are not in their reset state and belong to partition `p`. -/
def threadsOf (s : State) (p : Nat) : List Thr :=
  (s.thr.filterMap (fun e => thrOfKey e.1)).filter (fun t => partOf s t = some p)

/-- The bytes that a released store, CZERO or atomic puts in memory where it is performed now (R95, R175, R177). -/
def storedNow (t : Thr) (a : Access) (s : State) : List Byte :=
  let old := readBytes s a.pa.toNat a.size
  match a.kind with
  | .store => bytesOf a.size a.data
  | .czero => List.replicate 64 0
  | .faa => bytesOf a.size (wordOf old + a.data)
  | .cas => if old = bytesOf a.size a.part then bytesOf a.size a.data else []
  | .stcnd => if (thr s t).resv.any (fun r => r.granule = granuleOf a.pa) then bytesOf a.size a.data else []
  | _ => []

/-- A released store, CZERO or atomic to memory of a thread whose unit stops may still be performed, or not (R187): a free
choice. A store to a device region is not: its unit discards what a DOWN source sends (R242).
DESIGN CHOICE (log entry 27). -/
def maybePerform (t : Thr) (a : Access) (s : State) : State :=
  let plain := !(storedNow t a s).isEmpty && (isDramLine (lineOf a.pa) || (0xF00000000000 ≤ a.pa.toNat && a.pa.toNat < 0xF00005000000))
  if !plain then s else
    let (b, s) := freeBit s
    if b then storeBytes (some t) a.pa (storedNow t a s) a.poison s else s

/-- Stop a thread whose partition goes DOWN: nothing more retires, its store buffer is discarded (R187, R242). -/
def haltThread (t : Thr) (s : State) : State :=
  let outst := (thr s t).outst
  let s := loseResv t s
  let s := updThr t (fun th => { th with
    run := if th.run = .notStarted then .notStarted else .stopped
    parked := false, soloParked := false, soloLater := false, fbuf := [], waitFetch := false
    stores := [], unconf := [], outst := []
    ev := { th.ev with writing := [], held := none } }) s
  forEach outst (maybePerform t) s

/-- Mark sources OPEN or DOWN in every source table (R242, R244). -/
def markSources (l : List Src) (o : Bool) (s : State) : State :=
  forEach l (fun x acc => updSrc x (fun e => { e with isOpen := o, tChange := s.time.now }) acc) s

/-- Items of a partition that goes DOWN: OWNED items fail PART_DOWN, FETCH items go back to QUEUED (R304). -/
def downItems (p : Nat) (code : BitVec 8) (s : State) : State :=
  forEach s.led.ent (fun e acc =>
    let x := entry acc e.1
    let mine := fun (o : Option Thr) => match o with
      | some t => partOf acc t = some p
      | none => false
    if x.st = .owned && mine x.owner then endItem e.1 true 4 code acc
    else if x.st = .fetch && mine x.resv then requeue e.1 acc else acc) s

/-- Queues of a partition that was ACTIVE go to its standby, those never set up too, and the standby becomes ACTIVE
(R35). -/
def redirect (p : Nat) (s : State) : State :=
  match (part s p).standby with
  | none => s
  | some q =>
    if (part s q.val).st ≠ .standby then s else
    let s := forEach (List.range 1024) (fun k acc =>
      if (queue acc k).part.toNat = p then updQueue k (fun x => { x with part := BitVec.ofNat 3 q.val }) acc else acc) s
    let s := updPart q.val (fun x => { x with st := .active }) s
    notice q.val 8 (BitVec.ofNat 64 p) s

/-- Steps 1 to 5 of R242, with the unit the cause names and the unit waited for as the log says it. -/
def downSteps (p : Nat) (code : BitVec 8) (det : BitVec 6) (unit : Option Src) (logB : Word) (s : State) : State :=
  let wasActive := (part s p).st = .active
  let s := updPart p (fun x => { x with
    cause := code, detBay := det, downs := satInc x.downs, downUnit := unit, salvaged := false
    reason := 1, startFailed := false }) s
  let ts := threadsOf s p
  let s := markSources (sourcesOf s p) false s
  let s := forEach (bitsOf (part s p).bays) (fun b acc =>
    forEach (List.range 4) (fun c a => releaseSolo (4 * b + c) a) acc) s
  let s := forEach ts haltThread s
  let s := updPw (fun w => { w with
    wake := w.wake.filter (fun e => match thrOfKey e.1 with | some t => partOf s t ≠ some p | none => true)
    routerHeld := w.routerHeld.filter (fun e => match thrOfKey e.1 with | some t => partOf s t ≠ some p | none => true)
    retained := w.retained.filter (fun e => match thrOfKey e.1 with | some t => partOf s t ≠ some p | none => true) }) s
  let s := updPart p (fun x => { x with st := .down, started := false }) s
  let bs := (part s p).bays
  let s := setReady (fun r => { r with part := setBit r.part p false, bay := r.bay &&& ~~~bs }) s
  let s := settleMode (downItems p code s)
  let s := if wasActive then redirect p s else s
  wrightEvent 2 (at' (BitVec.ofNat 3 p) 0 ||| at' code 8 ||| at' det 16) logB s

/-- A report of a coherence error in partition `p` (R239). DEDUCED (log entry 74). -/
def reportCoherence (p : Nat) (code : BitVec 8) (det : BitVec 6) (unit : Option Src) (s : State) : State :=
  let logB := match unit with
    | none => 0
    | some x => unitCode x (siteOf s x) ||| at' (srcEnt s x).gen 32
  let openAgain := (sourcesOf s p).any (fun x => (srcEnt s x).isOpen)
  match (part s p).st with
  | .active => downSteps p code det unit logB s
  | .standby => downSteps p code det unit logB s
  | .restarting => if openAgain then downSteps p code det unit logB s
      else wrightEvent 2 (at' (BitVec.ofNat 3 p) 0 ||| at' code 8 ||| at' det 16) logB s
  | _ => wrightEvent 2 (at' (BitVec.ofNat 3 p) 0 ||| at' code 8 ||| at' det 16) logB s

/-- Every partition with a bay or engine on die `d` goes DOWN (R26, R65). -/
def dieDown (d : Nat) (code : BitVec 8) (s : State) : State :=
  forEach (List.range 8) (fun p acc =>
    let pt := part acc p
    let onDie := (bitsOf pt.bays).any (fun b => b / 10 = d) || (bitsOf pt.engines).any (fun e => e / 16 = d)
    if onDie then reportCoherence p code 0x3F none acc else acc) s

end Sys2Proof.Machine
end

