-- ==== Sys2Proof/Machine/DramMap.lean ====
section
/-! DEFINITION. The DRAM address map (R336 to R338): regions, channels and DRAM locations. -/
namespace Sys2Proof.Machine

/-! ## DIMMs (R329 to R331) -/

def dimms (s : State) (c : Nat) : Dimms := look Dimms.none s.dimms c

/-- Capacity in GiB: 64 data bits of devices for each package rank and stack layer. -/
def dimmGib (d : Dimm) : Nat := d.density * 8 / d.width * d.ranks * d.stack

/-- The table of R329. -/
def dimmSupported (d : Dimm) : Bool :=
  d.ecc && (d.width = 4 || (d.width = 8 && decide (d.kind = .rdimm))) && (d.density = 8 || d.density = 16) &&
    (match d.kind with
     | .rdimm => (d.ranks = 1 || d.ranks = 2) && d.stack = 1
     | .lrdimm => (d.ranks = 2 || d.ranks = 4) && d.stack = 1
     | .rdimm3ds => (d.ranks = 2 || d.ranks = 4) && (d.stack = 2 || d.stack = 4 || d.stack = 8)
     | .other => false) &&
    decide (8 ≤ dimmGib d) && decide (dimmGib d ≤ 256) && decide (1 ≤ d.speed.toNat) && decide (d.speed.toNat ≤ 4)

def dimmCount (d : Dimms) : Nat := (if d.slot0.isSome then 1 else 0) + (if d.slot1.isSome then 1 else 0)

/-- Logical ranks of a channel (R329). -/
def logicalRanks (d : Dimms) : Nat :=
  match d.slot0 with
  | some x => dimmCount d * x.ranks * x.stack
  | none => 0

/-- The population keeps R330: slot 0 first, both DIMMs alike, at most 16 logical ranks; and its DIMMs are supported. -/
def popFits (d : Dimms) : Bool :=
  match d.slot0, d.slot1 with
  | some x, none => dimmSupported x && decide (logicalRanks d ≤ 16)
  | some x, some y => dimmSupported x && decide (x = y) && decide (logicalRanks d ≤ 16)
  | none, _ => false

/-- The channel is in the map; one that breaks R329 or R330 is left out and reported absent. -/
def populated (s : State) (c : Nat) : Bool := popFits (dimms s c)

/-- Capacity of a channel in GiB, its width, its rank bits and its rated speed. -/
def popGib (d : Dimms) : Nat := match d.slot0 with | some x => dimmCount d * dimmGib x | none => 0
def popX4 (d : Dimms) : Bool := match d.slot0 with | some x => x.width = 4 | none => true
def rankBitsOf (d : Dimms) : Nat := Nat.log2 (logicalRanks d)
def popSpeed (d : Dimms) : Nat := match d.slot0 with | some x => x.speed.toNat | none => 0

/-! ## The map -/

/-- The valid region that holds a physical address. -/
def regionOf (s : State) (pa : Nat) : Option Nat :=
  firstBelow 16 (fun k =>
    let r := region s k
    r.v && decide (r.base.toNat ≤ pa / 2 ^ 30) && decide (pa / 2 ^ 30 < r.base.toNat + r.size.toNat))

/-- The channel list of R337: ascending, the even channel of each pair when mirrored. -/
def chanList (r : Region) : List Nat := (bitsOf r.chans).filter (fun c => !r.mirror || c % 2 = 0)

/-- A DRAM location: region, channel (the even one when mirrored), channel address, and the fields of R337. -/
structure Loc where
  region : Nat
  chan : Nat
  mirror : Bool
  ca : Nat
  rank : Nat
  row : Nat
  bg : Nat
  ba : Nat
  col : Nat
deriving DecidableEq, Repr

/-- Logical ranks that a channel's addresses rotate over: all of them, but for the highest where it is held out as a spare
(R337, R345). DEDUCED (log entry 42). -/
def mappedRanks (s : State) (c : Nat) (bits : Nat) : Nat :=
  if (chan s c).spareRank && bits ≠ 0 then 2 ^ bits - 1 else 2 ^ bits

/-- The mapping of R337. DESIGN CHOICE (log entry 42). -/
def locOf (s : State) (pa : Nat) : Option Loc :=
  match regionOf s pa with
  | none => none
  | some k =>
    let r := region s k
    let l := chanList r
    let o := pa - r.base.toNat * 2 ^ 30
    let g := o / 256
    match l[g % l.length]? with
    | none => none
    | some c =>
      let ca := g / l.length * 256 + o % 256
      let rr := ca / 2 ^ 17
      let n := mappedRanks s c r.rankBits.toNat
      let row := rr / n
      some { region := k, chan := c, mirror := r.mirror, ca := ca, rank := rr % n, row := row
             bg := Nat.xor (ca / 256 % 4) (row % 4), ba := Nat.xor (ca / 2 ^ 15 % 4) (row / 4 % 4)
             col := ca / 64 % 4 * 8 + ca / 1024 % 32 * 32 }

def locOfLine (s : State) (l : BitVec 42) : Option Loc := locOf s (l.toNat * 64)

/-- Key of a bank among a channel's open rows. -/
def bankKey (x : Loc) : Nat := x.rank * 16 + x.bg * 4 + x.ba

def retired (s : State) (c : Nat) : Bool := (chan s c).st = 4

/-- A mirrored pair's other channel. -/
def mateOf (c : Nat) : Nat := if c % 2 = 0 then c + 1 else c - 1

/-- The channel answers reads: it is ready, or converts; not while it trains, is retired or is resilvered (R347 to R349). -/
def serves (s : State) (c : Nat) : Bool := (chan s c).st = 2 || (chan s c).st = 3

/-- A channel that can serve the location answers reads (R340, R348). -/
def locServed (s : State) (x : Loc) : Bool := serves s x.chan || (x.mirror && serves s (x.chan + 1))

/-- No channel of a region still trains; in a mirrored region one channel of each pair is enough (R347, R352). -/
def regionTrained (s : State) (k : Nat) : Bool :=
  let r := region s k
  let trains := fun (c : Nat) => (chan s c).st = 1
  (chanList r).all (fun c => !trains c || (r.mirror && !trains (c + 1)))

/-- The line's channel serves requests, and its range is usable (R347). -/
def lineServed (s : State) (l : BitVec 42) : Bool :=
  match locOfLine s l with
  | some x => locServed s x && regionTrained s x.region
  | none => true

/-- The channel belongs to a mirrored region. -/
def inMirror (s : State) (c : Nat) : Bool := s.region.any (fun e => e.2.v && e.2.mirror && e.2.chans.getLsbD c)

/-- Physical address of a channel address, the inverse of R337. -/
def paOfChan (s : State) (c ca : Nat) : Option Nat :=
  let base := if inMirror s c then c / 2 * 2 else c
  match s.region.find? (fun e => e.2.v && e.2.chans.getLsbD c) with
  | none => none
  | some (_, r) =>
    let l := chanList r
    match l.idxOf? base with
    | none => none
    | some i => some (r.base.toNat * 2 ^ 30 + (ca / 256 * l.length + i) * 256 + ca % 256)

/-- Partitions that own a range with a line on the channel. -/
def partsOnChan (s : State) (c : Nat) : List Nat :=
  (List.range 8).filter (fun p => (part s p).ranges.any (fun g =>
    match regionOf s (g.toNat * 2 ^ 30) with
    | some k => (region s k).chans.getLsbD c
    | none => false))

/-- Core threads lose their reservations on granules one of whose DRAM lines meets the test (R174). -/
def loseResvIf (p : BitVec 42 → Bool) (s : State) : State :=
  forEach s.thr (fun e acc =>
    match thrOfKey e.1 with
    | some (.core i) =>
      match (thr acc (.core i)).resv with
      | none => acc
      | some r =>
        let l : BitVec 42 := r.granule ++ (0 : BitVec 1)
        if isDramLine l && (p l || p (l ||| 1)) then loseResv (.core i) acc else acc
    | _ => acc) s

/-- Requests, write-backs and messages of the lines that meet the test are given up: nothing answers them (R348). -/
def forgetLines (p : BitVec 42 → Bool) (s : State) : State :=
  let msg := fun (e : CKind × CMsg) => !p e.2.line
  let req := fun (e : ReqKind × CMsg) => !p e.2.line
  { s with
    net := s.net.filter msg
    ereqs := s.ereqs.filter (fun e => !p e.msg.line)
    core := editAll Core.reset (fun _ c => { c with
      prefetch := c.prefetch.filter (fun l => !p l)
      hold := c.hold.map (fun h => { h with owed := h.owed.filter msg }) }) s.core
    bay := editAll Bay.reset (fun _ b => { b with
      reqs := b.reqs.filter (fun r => !p r.line), wb := b.wb.filter (fun w => !p w.line) }) s.bay
    slice := editAll Slice.reset (fun _ x => { x with
      heldAlloc := x.heldAlloc.filter (fun e => !p e.2.2.line), rsv := x.rsv.filter req, wbBuf := x.wbBuf.filter msg
      dones := x.dones.filter (fun e => !p e.2), late := x.late.filter (fun e => !p e.2) }) s.slice }

/-- Drop every cached copy and directory record of the lines that meet the test. -/
def dropCopiesIf (p : BitVec 42 → Bool) (s : State) : State :=
  let s := forgetLines p (loseResvIf p s)
  let ways := fun (t : Tbl CLine) => editAll CLine.reset (fun _ w => if p w.line then CLine.reset else w) t
  { s with
    core := editAll Core.reset (fun _ c => { c with l1i := ways c.l1i, l1d := ways c.l1d }) s.core
    bay := editAll Bay.reset (fun _ b => { b with l2 := ways b.l2 }) s.bay
    slice := editAll Slice.reset (fun _ x => { x with
      llc := ways x.llc
      dir := editAll DirE.reset (fun _ d => if p d.line then DirE.reset else d) x.dir }) s.slice }

end Sys2Proof.Machine
end

