-- ==== Sys2Proof/Machine/Operands.lean ====
section
/-! DEFINITION. Operand forms: the physical address map (R37 to R39), the source checks of R33 and R38, translation on
cores (R141 to R146) and on adze engines (R267, R268), and the physical addresses of units' registers. -/
namespace Sys2Proof.Machine

/-! ## The physical address map (R37) -/

/-- What a physical address names. -/
inductive Space where
  | dram
  | ridge
  | l2am (b : Nat)
  | scratch (e : Nat)
  | dieReg (d : Nat) (off : Nat)
  | hubReg (off : Nat)
  | reserved
deriving DecidableEq, Repr

def spaceOf (pa : BitVec 48) : Space :=
  let a := pa.toNat
  if a < 0x080000000000 then .dram
  else if 0x800000000000 ≤ a && a < 0xC00000000000 then .ridge
  else if a < 0xF00000000000 then .reserved
  else if a < 0xF00002800000 then .l2am ((a - 0xF00000000000) / 0x100000)
  else if 0xF00004000000 ≤ a && a < 0xF00005000000 then .scratch ((a - 0xF00004000000) / 0x40000)
  else if 0xF00010000000 ≤ a && a < 0xF00018000000 then
    .dieReg ((a - 0xF00010000000) / 0x2000000) ((a - 0xF00010000000) % 0x2000000)
  else if 0xF00018000000 ≤ a && a < 0xF00020000000 then .hubReg (a - 0xF00018000000)
  else .reserved

def isDevice (x : Space) : Bool :=
  match x with
  | .dieReg _ _ => true
  | .hubReg _ => true
  | _ => false

/-- The unit a compute-die register offset belongs to (R279, R296, R321, R418, R455). -/
inductive DieUnit where
  | shared
  | engine (e : Nat)
  | spare (d : Nat)
  | core (c : Nat)
  | bay (b : Nat)
  | devBox (m : Nat)
  | none
deriving DecidableEq, Repr

def dieUnit (d off : Nat) : DieUnit :=
  if 0x1000000 ≤ off && off < 0x1010000 then .engine (d * 16 + (off - 0x1000000) / 0x1000)
  else if 0x1010000 ≤ off && off < 0x1011000 then .spare d
  else if off = 0x1800000 || off = 0x1800004 || off = 0x1800008 || off = 0x180000C then .shared
  else if 0x1800000 ≤ off && off < 0x1800010 then .shared
  else if 0x1900000 ≤ off && off < 0x1910000 then .devBox ((off - 0x1900000) / 0x1000)
  else if 0x1910000 ≤ off && off < 0x1910080 then .devBox ((off - 0x1910000) / 8)
  else if 0x1A00000 ≤ off && off < 0x1A00140 then .core (d * 40 + (off - 0x1A00000) / 8)
  else if 0x1A01000 ≤ off && off < 0x1A01050 then .bay (d * 10 + (off - 0x1A01000) / 8)
  else .none

/-- The engine a spare serves, if any (R279). -/
def spareServes (s : State) (d : Nat) : Option Nat :=
  firstBelow 64 (fun e => e / 16 = d && (engine s e).onSpare)

/-- A compute-die register is one of the thread's own partition's units (R39). -/
def dieUnitOwn (s : State) (p : Nat) (d off : Nat) : Bool :=
  match dieUnit d off with
  | .shared => true
  | .engine e => partOfEngine s e = some p
  | .spare d => match spareServes s d with
    | some e => partOfEngine s e = some p
    | none => false
  | .core c => partOfBay s (c / 4) = some p
  | .bay b => partOfBay s b = some p
  | .devBox m => (part s p).dmbox.getLsbD m
  | .none => false

/-! ## Source checks (R33, R38, R39, R95, R404) -/

/-- The installed part of the DRAM range: some valid region covers it (R338). -/
def installed (s : State) (pa : BitVec 48) : Bool :=
  let g := pa.toNat / 2 ^ 30
  s.region.any (fun e => e.2.v && decide (e.2.base.toNat ≤ g) && decide (g < e.2.base.toNat + e.2.size.toNat))

/-- A DRAM address of the partition's ranges that is installed. -/
def ownDram (s : State) (p : Option Nat) (pa : BitVec 48) : Bool :=
  pa.toNat < 0x080000000000 && p.isSome && partOfAddr s pa = p && installed s pa

/-- Bytes [lo, 48) of an address kept, the bits below taken as 0. -/
def clearBelow (n : Nat) (v : Nat) : Nat := v / 2 ^ n * 2 ^ n

/-- The ridge window a physical address reaches: the lowest valid one that covers it (R404). -/
def windowOf (s : State) (pa : BitVec 48) : Option Nat :=
  firstBelow 64 (fun k =>
    let w := look Rwin.reset s.ridge.win k
    let n := w.lg.toNat
    let base := clearBelow n (w.lbase.toNat * 4096)
    w.v && decide (12 ≤ n) && decide (n ≤ 43) && decide (base ≤ pa.toNat) && decide (pa.toNat < base + 2 ^ n))

/-- Kinds of access a translation is made for: permissions, exception number and X_ECAUSE.ACC (R104, R144). -/
inductive AK where
  | fetch | load | store | resv | atomic | maint | czero
deriving DecidableEq, Repr

def AK.code : AK → Nat
  | .fetch => 4
  | .load => 5
  | .resv => 5
  | .maint => 5
  | .store => 6
  | .atomic => 6
  | .czero => 6

def AK.acc : AK → BitVec 2
  | .fetch => 0
  | .load => 1
  | .maint => 1
  | .store => 2
  | .czero => 2
  | .resv => 3
  | .atomic => 3

/-- Needs write permission. -/
def AK.writes : AK → Bool
  | .store => true
  | .atomic => true
  | .czero => true
  | _ => false

/-- The access may be sent: the checks of R33, R38, R39, R95, R204 and R404 at its source. -/
def regionOk (s : State) (t : Thr) (k : AK) (pa : BitVec 48) : Bool :=
  let p := partOf s t
  match spaceOf pa with
  | .dram => ownDram s p pa
  | .reserved => false
  | .ridge =>
    match windowOf s pa with
    | none => false
    | some i =>
      let w := look Rwin.reset s.ridge.win i
      (p = some w.part.toNat) && k ≠ .atomic && k ≠ .resv && (w.wr || !k.writes)
  | .l2am b => (p.isSome && partOfBay s b = p) && decide ((pa.toNat % 0x100000) < (bay s b).amCur.toNat * 0x40000)
  | .scratch e => p.isSome && partOfEngine s e = p
  | .dieReg d off =>
    if k = .atomic || k = .resv || k = .maint || k = .czero then false else
    match (thr s t).tstat.priv with
    | .M => true
    | .K => match p with
      | some q => dieUnitOwn s q d off
      | none => false
    | .U => false
  | .hubReg _ =>
    if k = .atomic || k = .resv || k = .maint || k = .czero then false else (thr s t).tstat.priv = .M

/-- A misaligned access faults here (R93). -/
def needsAlign (k : AK) (ordered : Bool) (pa : BitVec 48) : Bool :=
  match spaceOf pa with
  | .scratch _ => true
  | .dieReg _ _ => true
  | .hubReg _ => true
  | _ => ordered || k = .atomic || k = .resv

/-! ## Translation -/

/-- The result of translating one address: the physical address with the leaf used, or a reason and level (R145). -/
inductive XRes where
  /-- `walked` says the tables were read -/
  | ok (pa : BitVec 48) (te : Option TlbE) (walked : Bool)
  | fault (reason level : Nat)
deriving DecidableEq, Repr

/-- The permission an access lacks: the UA rule first, then the page's own permissions (R144). DEDUCED (log entry 31). -/
def permFault (k : AK) (th : Thread) (wr ex ua nrd : Bool) : Option Nat :=
  let uaBad : Bool := match th.tstat.priv with
    | .U => !ua
    | .K => ua && (if k = .fetch then th.trKnxU else !th.trKaccU)
    | .M => false
  let permBad : Bool := match k with
    | .fetch => !ex
    | .load => nrd
    | .resv => nrd
    | .maint => nrd
    | .store => !wr
    | .czero => !wr
    | .atomic => !wr || nrd
  if uaBad then some 6 else if permBad then some 5 else none

/-- Index of a table level in a virtual address (R141). -/
def vaIndex (va : Word) (level : Nat) : Nat := (va.extractLsb' (12 + 9 * (level - 1)) 9).toNat

/-- Walk of the tables from `level` down, the table at `tbl` (R141, R142, R145). -/
def walk (s : State) (p : Option Nat) (va : Word) (asid : BitVec 16) : Nat → BitVec 48 → XRes
  | 0, _ => .fault 3 1
  | level + 1, tbl =>
    let lv := level + 1
    let a : BitVec 48 := tbl + BitVec.ofNat 48 (vaIndex va lv * 8)
    if !ownDram s p a then .fault 7 lv
    else if isPoisoned s (lineOf a) then .fault 8 lv
    else
      let e := readWord s a.toNat
      let addr : BitVec 36 := e.extractLsb' 12 36
      if !bit e 0 then .fault 2 lv
      else if e.extractLsb' 48 16 ≠ 0 then .fault 3 lv
      else if bit e 1 then
        if (bit e 2 && bit e 8) || lv = 4 then .fault 3 lv
        else if (lv = 2 && addr.extractLsb' 0 9 ≠ 0) || (lv = 3 && addr.extractLsb' 0 18 ≠ 0) then .fault 4 lv
        else
          let lg := 12 + 9 * (lv - 1)
          let off := va.toNat % 2 ^ lg
          .ok (BitVec.ofNat 48 (addr.toNat * 4096 + off))
            (some { vpn := va.extractLsb' 12 36, lg := lg, asid := asid, glb := bit e 5, wr := bit e 2, ex := bit e 3
                    ua := bit e 4, nrd := bit e 8, ref := bit e 6, mod := bit e 7, pte := a, raw := e, ppn := addr }) true
      else if lv = 1 || e.extractLsb' 2 7 ≠ 0 then .fault 3 lv
      else walk s p va asid level ((addr.setWidth 48) <<< 12)

/-- The addresses of the entries that a walk reads. -/
def walkPath (s : State) (va : Word) : Nat → BitVec 48 → List (BitVec 48)
  | 0, _ => []
  | level + 1, tbl =>
    let a : BitVec 48 := tbl + BitVec.ofNat 48 (vaIndex va (level + 1) * 8)
    let e := readWord s a.toNat
    if !bit e 0 || bit e 1 then [a] else a :: walkPath s va level (((e.extractLsb' 12 36).setWidth 48) <<< 12)

/-- A TLB entry covers an address under an identifier (R146). -/
def tlbHit (va : Word) (asid : BitVec 16) (e : TlbE) : Bool :=
  decide (va.toNat % 2 ^ 48 / 2 ^ e.lg = e.vpn.toNat * 4096 / 2 ^ e.lg) && (e.glb || e.asid = asid)

/-- A lookup hits: the entry covers the address and its permissions match the access (R146). -/
def tlbServes (k : AK) (th : Thread) (va : Word) (e : TlbE) : Bool :=
  tlbHit va th.asid e && (permFault k th e.wr e.ex e.ua e.nrd).isNone

/-- The address a TLB entry gives. -/
def tlbPa (va : Word) (e : TlbE) : BitVec 48 := BitVec.ofNat 48 (e.ppn.toNat * 4096 + va.toNat % 2 ^ e.lg)

/-- The entries a core's lookup searches: the first-level TLB, the second-level TLB, the thread's shim walks (R126). -/
def tlbsFor (s : State) (i : Fin 640) (k : AK) : List TlbE :=
  let c := core s (i.val / 4)
  (if k = .fetch then c.itlb else c.dtlb) ++ c.stlb
    ++ c.shim.filterMap (fun e => if e.thr.val = i.val % 4 then e.walk else none)

/-- A walk of the tables for an access, with the permissions of the leaf (R141 to R145). DEDUCED (log entry 31). -/
def walkFor (s : State) (i : Fin 640) (k : AK) (va : Word) : XRes :=
  let th := thr s (.core i)
  match walk s (partOf s (.core i)) va th.asid 4 ((th.ptRoot.setWidth 48) <<< 12) with
  | .ok pa (some e) w =>
    match permFault k th e.wr e.ex e.ua e.nrd with
    | some reason => .fault reason ((e.lg - 12) / 9 + 1)
    | none => .ok pa (some e) w
  | r => r

/-- Translation at U and K on a core (R141): TLBs and shim, then the tables. -/
def translateCore (s : State) (i : Fin 640) (k : AK) (va : Word) : XRes :=
  match (tlbsFor s i k).find? (tlbServes k (thr s (.core i)) va) with
  | some e => .ok (tlbPa va e) (some e) false
  | none => walkFor s i k va

/-- Translation at U and K on an engine: the lowest matching map entry (R268). -/
def translateAdze (s : State) (j : Fin 512) (k : AK) (va : Word) : XRes :=
  let th := thr s (.adze j)
  let eng := engine s (j.val / 8)
  let m := firstBelow 16 (fun n =>
    let e := look MapE.reset eng.map n
    let lg := e.lg.toNat
    let inRange := decide (12 ≤ lg) && decide (lg ≤ 47)
    e.v && (e.glb || e.asid = th.asid) &&
      (!inRange || decide (va.toNat % 2 ^ 48 / 2 ^ lg = e.vbase.toNat * 4096 / 2 ^ lg)))
  match m with
  | none => .fault 2 0
  | some n =>
    let e := look MapE.reset eng.map n
    let lg := e.lg.toNat
    if (e.wr && e.nrd) || lg < 12 || 47 < lg then .fault 3 0
    else if e.pbase.toNat * 4096 % 2 ^ lg ≠ 0 then .fault 4 0
    else match permFault k th e.wr e.ex e.ua e.nrd with
      | some reason => .fault reason 0
      | none => .ok (BitVec.ofNat 48 (e.pbase.toNat * 4096 + va.toNat % 2 ^ lg)) none false

/-- Translate one address for thread `t` (R72, R141, R268). -/
def translate (s : State) (t : Thr) (k : AK) (va : Word) : XRes :=
  let th := thr s t
  if !canonicalVa va then .fault 1 0
  else if th.tstat.priv = .M || !th.trEn then .ok (va.setWidth 48) none false
  else match t with
    | .core i => translateCore s i k va
    | .adze j => translateAdze s j k va

end Sys2Proof.Machine
end

