-- ==== Sys2Proof/Machine/CacheOps.lean ====
section
/-! DEFINITION. The arrays of the caches: lookup, replacement (R196), fills and evictions (R191, R194, R233), and the
messages a bay sends to a home (R227). -/
namespace Sys2Proof.Machine

/-! ## One set of ways (R190, R196) -/

/-- Sets of the L1 caches, the L2 and the LLC. -/
def l1Set (l : BitVec 42) : Nat := l.toNat % 64
def l2Set (l : BitVec 42) : Nat := l.toNat % 2048
def llcSet (l : BitVec 42) : Nat := l.toNat % 4096

/-- Ways of a set by key: 16 × set + way. -/
def wayKeys (set n : Nat) : List Nat := (List.range n).map (fun w => 16 * set + w)

/-- The way that holds a line. -/
def findWay (t : Tbl CLine) (set : Nat) (l : BitVec 42) : Option Nat :=
  (wayKeys set 16).find? (fun k => (look CLine.reset t k).line = l && (look CLine.reset t k).st ≠ .I)

def lineState (t : Tbl CLine) (set : Nat) (l : BitVec 42) : Mesi :=
  match findWay t set l with
  | some k => (look CLine.reset t k).st
  | none => .I

/-- The copy of a line in a table is poisoned (R215). -/
def copyBad (t : Tbl CLine) (set : Nat) (l : BitVec 42) : Bool :=
  match findWay t set l with
  | some k => (look CLine.reset t k).bad
  | none => false

/-- Poison the copy of a line in a table. -/
def spoilCopy (t : Tbl CLine) (set : Nat) (l : BitVec 42) : Tbl CLine :=
  match findWay t set l with
  | some k => edit CLine.reset (fun w => { w with bad := true }) t k
  | none => t

/-- Raise the age of every valid way of the first `n` by 1. -/
def raiseAges (t : Tbl CLine) (set n : Nat) : Tbl CLine :=
  forEach (wayKeys set n) (fun k acc => edit CLine.reset
    (fun w => if w.st = .I then w else { w with age := satInc w.age }) acc k) t

/-- The victim way among the first `n` of a set, with the ages as the search leaves them (R196).
DESIGN CHOICE (log entry 37). -/
def victimWay (n : Nat) : Nat → Tbl CLine → Nat → Nat × Tbl CLine
  | 0, t, set => (16 * set, t)
  | fuel + 1, t, set =>
    match (wayKeys set n).find? (fun k => (look CLine.reset t k).st = .I) with
    | some k => (k, t)
    | none =>
      match (wayKeys set n).find? (fun k => (look CLine.reset t k).age = 3) with
      | some k => (k, t)
      | none => victimWay n fuel (raiseAges t set n) set

/-- Set the age of the way holding a line, if it is still there (R198). -/
def touch (t : Tbl CLine) (set : Nat) (l : BitVec 42) (age : BitVec 2) : Tbl CLine :=
  match findWay t set l with
  | some k => edit CLine.reset (fun w => { w with age := age }) t k
  | none => t

/-- Put a line of a set into another state; I frees every way that holds it, S and E leave no sector dirty (R194). -/
def setLineState (t : Tbl CLine) (set : Nat) (l : BitVec 42) (st : Mesi) : Tbl CLine :=
  if st = .I then
    forEach (wayKeys set 16) (fun k acc => edit CLine.reset (fun w => if w.line = l then CLine.reset else w) acc k) t
  else match findWay t set l with
    | some k => edit CLine.reset (fun w => { w with st := st, sd := if st = .M then w.sd else 0 }) t k
    | none => t

/-- The age that an access leaves on the way it hits: 0, or what it was with the streaming hint (R196). -/
def touchBy (nt : Bool) (t : Tbl CLine) (set : Nat) (l : BitVec 42) : Tbl CLine := if nt then t else touch t set l 0

/-- Sectors of a line that `n` bytes from an address of it touch, the lower one at bit 0 (R194). -/
def sectorMask (a : Nat) (n : Nat) : BitVec 2 :=
  (if a % 64 < 32 then 1 else 0) ||| (if 32 < a % 64 + n then 2 else 0)

/-! ## The L1 caches -/

/-- Every thread of a core loses a DRAM reservation on a line that leaves its L1 (R174). -/
def loseCoreResv (c : Nat) (l : BitVec 42) (s : State) : State :=
  forEach (thrsOfCore c) (fun t acc =>
    match (thr acc t).resv with
    | some r => if r.granule = granuleOfLine l && isDramLine l then loseResv t acc else acc
    | none => acc) s

/-- Remove a line from one core's L1 data cache; dirty sectors go into the L2 line (R191, R219). -/
def l1dDrop (c : Nat) (l : BitVec 42) (s : State) : State :=
  if lineState (core s c).l1d (l1Set l) l = .I then s else
  loseCoreResv c l (updCore c (fun k => { k with l1d := setLineState k.l1d (l1Set l) l .I }) s)

def l1iDrop (c : Nat) (l : BitVec 42) (s : State) : State :=
  updCore c (fun k => { k with l1i := setLineState k.l1i (l1Set l) l .I }) s

/-- Every L1 copy in a bay goes (R140, R191). -/
def bayL1Drop (b : Nat) (l : BitVec 42) (s : State) : State :=
  forEach (List.range 4) (fun c acc => l1iDrop (4 * b + c) l (l1dDrop (4 * b + c) l acc)) s

/-- The other L1 copies of the bay go: every instruction cache's, and every data cache's but core `c`'s (R219). -/
def dropOthers (c : Nat) (l : BitVec 42) (s : State) : State :=
  forEach (List.range 4) (fun i acc =>
    let acc := l1iDrop (4 * (c / 4) + i) l acc
    if 4 * (c / 4) + i = c then acc else l1dDrop (4 * (c / 4) + i) l acc) s

/-- Fill a core's L1 with both sectors of a line; a line that it has keeps the sectors it has (R194). Exclusive use goes to
one data cache alone (R219). -/
def l1Fill (c : Nat) (instr : Bool) (l : BitVec 42) (st : Mesi) (age : BitVec 2) (s : State) : State :=
  let k := core s c
  let l2Bad := copyBad (bay s (c / 4)).l2 (l2Set l) l
  if instr then
    if !k.ien || (findWay k.l1i (l1Set l) l).isSome then s else
    let (w, t) := victimWay 16 4 k.l1i (l1Set l)
    updCore c (fun k => { k with l1i := put CLine.reset t w ⟨l, .S, age, 3, 0, l2Bad⟩ }) s
  else
    if !k.den then s else
    let s := if st = .S then s else dropOthers c l s
    match findWay k.l1d (l1Set l) l with
    | some _ => updCore c (fun k => { k with l1d := setLineState k.l1d (l1Set l) l st }) s
    | none =>
      let (w, t) := victimWay 16 4 (core s c).l1d (l1Set l)
      let v := look CLine.reset t w
      let s := updCore c (fun k => { k with l1d := put CLine.reset t w ⟨l, st, age, 3, 0, l2Bad⟩ }) s
      if v.st = .I then s else loseCoreResv c v.line s

/-! ## Messages -/

/-- The agent of a bay, and the mesh source of an agent (R247); homes and hub agents have no source entry. -/
def srcOfAgent : Agent → Option Src
  | .bay i => some (.bay i)
  | .engine i => some (.engine i)
  | .home _ => none
  | .hub _ => none

/-- The source whose entry a receiver stands behind: a home stands with its bay. -/
def srcOfReceiver : Agent → Option Src
  | .bay i => some (.bay i)
  | .home i => some (.bay i)
  | .engine i => some (.engine i)
  | .hub _ => none

/-- A message with the sender's generation and site, and the receiver's generation. -/
def mkMsg (s : State) (src dst : Agent) (l : BitVec 42) : CMsg :=
  { src := src
    gen := match srcOfAgent src with | some x => (srcEnt s x).gen | none => 0
    site := match srcOfAgent src with | some x => siteOf s x | none => 0
    dst := dst, coll := src, line := l, excl := false, count := 0, data := 0, poison := false, mask := 0
    dgen := match srcOfReceiver dst with | some x => (srcEnt s x).gen | none => 0
    tag := 0, nt := false }

def send (k : CKind) (m : CMsg) (s : State) : State := { s with net := s.net ++ [(k, m)] }

/-- The home agent of a line. -/
def homeAgent (s : State) (l : BitVec 42) : Option (Fin 40) :=
  match homeOf s (lineAddr l) with
  | some h => if hh : h < 40 then some ⟨h, hh⟩ else none
  | none => none

/-- Kind of the message that makes a request. -/
def reqMsg : ReqKind → CKind
  | .rdS => .rdS
  | .rdX => .rdX
  | .upg => .upg
  | .rdZ => .rdZ
  | .cln => .cln
  | .fls => .fls
  | .inv => .inv
  | .hrd => .hrd
  | .hwr => .hwr
  | .hatm => .hatm

/-! ## The write-back buffer (R226, R233) -/

/-- Entries of a home's write-back buffer that each bay of its partition may use: an equal share of the 64, at least one. -/
def wbCredits (s : State) (h : Nat) : Nat :=
  match partOfBay s h with
  | none => 1
  | some p => Nat.max 1 (64 / popcount (part s p).bays)

/-- The bay holds a credit of the home for one more write-back. -/
def creditFree (s : State) (b : Nat) (h : Fin 40) : Bool :=
  ((bay s b).wb.filter (fun w => w.sent && homeAgent s w.line = some h)).length < wbCredits s h.val

/-- Requests that bring a line into the L2, and so may need a write-back entry for a victim. -/
def fillsL2 : ReqKind → Bool
  | .rdS => true
  | .rdX => true
  | .rdZ => true
  | .upg => true
  | _ => false

/-- A write-back entry is left for one more victim: 16 entries, one kept for each fill that is on its way (R226, R233).
DEDUCED (log entry 95). -/
def wbRoom (y : Bay) : Bool := y.wb.length + (y.reqs.filter (fun r => fillsL2 r.kind)).length < 16

/-- The bay may send a request for the line: none is in flight, the line is not in its write-back buffer, and a victim
would find an entry there (R226, R233). -/
def canRequest (s : State) (b : Nat) (k : ReqKind) (l : BitVec 42) : Bool :=
  let y := bay s b
  !y.reqs.any (fun r => r.line = l) && !y.wb.any (fun w => w.line = l) && (!fillsL2 k || wbRoom y) &&
    (homeAgent s l).isSome

/-- A bay makes a request for a line, where it may. -/
def bayRequest (b : Fin 40) (k : ReqKind) (l : BitVec 42) (c : Option (Fin 160)) (instr nt : Bool) (s : State) : State :=
  if !canRequest s b.val k l then s else
  match homeAgent s l with
  | none => s
  | some h =>
    let r : CReq := { kind := k, line := l, home := h, core := c, instr := instr, nt := nt, need := none, got := 0
                      awaited := 0, acked := 0, haveData := false, excl := false, bad := false, nacks := 0, backoff := false
                      since := s.time.now }
    send (reqMsg k) { mkMsg s (.bay b) (.home h) l with nt := nt }
      (updBay b.val (fun y => { y with reqs := y.reqs ++ [r] }) s)

/-! ## The L2 -/

/-- Ways of a bay's L2 that serve as cache (R209). -/
def l2Ways (y : Bay) : Nat := 16 - 2 * y.amCur.toNat

/-- The message of a write-back entry: the data of a dirty line, or the notice for a clean one. -/
def sendWb (b h : Fin 40) (w : WbE) (s : State) : State :=
  send (if w.dirty then .wbD else .wbC)
    { mkMsg s (.bay b) (.home h) w.line with data := lineData s w.line, poison := isPoisoned s w.line } s

/-- Write-backs that waited for a credit go, oldest first, while credits of their homes last (R226). -/
def pumpWb (b : Fin 40) (s : State) : State :=
  forEach (bay s b.val).wb (fun w acc =>
    match homeAgent acc w.line with
    | none => acc
    | some h =>
      if w.sent || !creditFree acc b.val h then acc
      else sendWb b h w (updBay b.val (fun y => { y with
        wb := editFirst (fun x => x = w) (fun x => { x with sent := true, since := acc.time.now }) y.wb }) acc)) s

/-- A line leaves a bay's L2: L1 copies are invalidated, and the home is told as soon as a credit allows (R191, R233). -/
def l2Evict (b : Fin 40) (l : BitVec 42) (s : State) : State :=
  let st := lineState (bay s b.val).l2 (l2Set l) l
  if st = .I then s else
  let s := bayL1Drop b.val l s
  pumpWb b (updBay b.val (fun y => { y with
    l2 := setLineState y.l2 (l2Set l) l .I, wb := y.wb ++ [⟨l, st = .M, false, s.time.now⟩] }) s)

/-- Fill a bay's L2 with a line; a streaming fill enters at age 3 (R196, R197). -/
def l2Fill (b : Fin 40) (l : BitVec 42) (st : Mesi) (nt bad : Bool) (s : State) : State :=
  let y := bay s b.val
  match findWay y.l2 (l2Set l) l with
  | some _ => updBay b.val (fun y => { y with l2 := touchBy nt (setLineState y.l2 (l2Set l) l st) (l2Set l) l }) s
  | none =>
    let (w, t) := victimWay (l2Ways y) 4 y.l2 (l2Set l)
    let v := look CLine.reset t w
    let s := updBay b.val (fun y => { y with l2 := t }) s
    let s := if v.st = .I then s else l2Evict b v.line s
    updBay b.val (fun y => { y with l2 := put CLine.reset y.l2 w ⟨l, st, if nt then 3 else 1, 3, 0, bad⟩ }) s

/-- The bay holds the line exclusively. -/
def bayOwns (s : State) (b : Nat) (l : BitVec 42) : Bool :=
  match lineState (bay s b).l2 (l2Set l) l with
  | .E => true
  | .M => true
  | _ => false

/-- A constrained loop on another core of the thread's bay keeps the line's granule (R176). -/
def heldBack (s : State) (i : Fin 640) (l : BitVec 42) : Bool :=
  (List.range 4).any (fun c => decide (4 * (i.val / 16) + c ≠ i.val / 4) &&
    (core s (4 * (i.val / 16) + c)).hold.any (fun h => h.granule = granuleOfLine l))

/-- A line that the bay is about to write: a poisoned copy makes the line itself poisoned, and travels with it (R215). -/
def ownPoison (b : Nat) (l : BitVec 42) (s : State) : State :=
  if copyBad (bay s b).l2 (l2Set l) l then
    setPoison l true (updBay b (fun y => { y with l2 := match findWay y.l2 (l2Set l) l with
      | some k => edit CLine.reset (fun w => { w with bad := false }) y.l2 k
      | none => y.l2 }) s)
  else s

/-- The poison that a read at a line's home meets (R215). -/
def homePoison (s : State) (l : BitVec 42) : Bool :=
  isPoisoned s l || (match homeAgent s l with
    | some h => copyBad (slice s h.val).llc (llcSet l) l
    | none => false)

/-- The poison that a core's read of a line meets: the line's own, or that of the copy it reads (R215). -/
def readPoison (s : State) (i : Fin 640) (instr : Bool) (l : BitVec 42) : Bool :=
  let k := core s (i.val / 4)
  let t := if instr then k.l1i else k.l1d
  if lineState t (l1Set l) l ≠ .I then isPoisoned s l || copyBad t (l1Set l) l
  else if lineState (bay s (i.val / 16)).l2 (l2Set l) l ≠ .I then
    isPoisoned s l || copyBad (bay s (i.val / 16)).l2 (l2Set l) l
  else homePoison s l

/-- The bay's L2 line becomes dirty without an L1 copy: what an access makes at the L2 while DEN is 0 (R207). Every L1
copy of the bay goes. -/
def ownAtL2 (b : Nat) (l : BitVec 42) (s : State) : State :=
  updBay b (fun y => { y with l2 := setLineState y.l2 (l2Set l) l .M }) (bayL1Drop b l (ownPoison b l s))

/-- A store of core `c` is about to write sectors of a line its bay owns: the other L1 copies of the bay go, E becomes M
silently, the sectors become dirty (R194, R219). A store that finds its sectors in the L1 leaves the L2's ages alone; one
that lacks them, or the line, reads the L2 (R194, R196, R198). `filled` says that its own miss brought the line. -/
def ownForStore (c : Nat) (l : BitVec 42) (nt filled : Bool) (sectors : BitVec 2) (s : State) : State :=
  let b := c / 4
  let s := dropOthers c l (ownPoison b l s)
  let hit := match findWay (core s c).l1d (l1Set l) l with
    | some w => (look CLine.reset (core s c).l1d w).sv &&& sectors = sectors
    | none => false
  let s := updBay b (fun y => { y with
    l2 := let t := setLineState y.l2 (l2Set l) l .M; if hit then t else touchBy nt t (l2Set l) l }) s
  let s := l1Fill c false l .M (if nt then 3 else 1) s
  match findWay (core s c).l1d (l1Set l) l with
  | some w =>
    let t := edit CLine.reset (fun x => { x with
      st := .M, bad := false, sv := x.sv ||| sectors, sd := x.sd ||| sectors
      age := if hit && !nt && !filled then 0 else x.age }) (core s c).l1d w
    updCore c (fun k => { k with l1d := t }) s
  | none => s

/-! ## The LLC slice -/

/-- Allocate a line in its home slice; a dirty victim is written to DRAM (R191, R341). A streaming fill enters at age 3,
and a streaming hit leaves the age (R196, R197). -/
def llcFill (h : Nat) (l : BitVec 42) (dirty nt : Bool) (s : State) : State :=
  let x := slice s h
  match findWay x.llc (llcSet l) l with
  | some k =>
    let t := edit CLine.reset (fun w => { w with
      age := if nt then w.age else 0, st := if dirty then .M else w.st, bad := w.bad && !dirty }) x.llc k
    updSlice h (fun x => { x with llc := t }) s
  | none =>
    let (w, t) := victimWay 16 4 x.llc (llcSet l)
    let v := look CLine.reset t w
    let s := if v.st = .M then cleanLine v.line s else s
    updSlice h (fun x => { x with llc := put CLine.reset t w ⟨l, if dirty then .M else .S, if nt then 3 else 1, 3, 0, false⟩ }) s

end Sys2Proof.Machine
end

