-- ==== Sys2Proof/Machine/Confirm.lean ====
section
/-! DEFINITION. Instructions in flight on a core: squash (R132, R133), confirmation (R123), the return stack (R119),
the memory-dependence predictor (R131), TLB fills with REF and MOD (R143, R146), peek validation (R129) and prefetch
streams (R199, R200). -/
namespace Sys2Proof.Machine

/-- Registers as they stand before an instruction. -/
def snapOf (th : Thread) : Snapshot := ⟨th.g, th.f, th.pc, th.dov, th.fpFlags⟩

/-- Registers restored from a snapshot. -/
def restore (sn : Snapshot) (th : Thread) : Thread :=
  { th with g := sn.g, f := sn.f, pc := sn.pc, dov := sn.dov, fpFlags := sn.fpFlags }

/-- How the thread's next instruction came to it, if that was ahead of confirmation. -/
def fetchOf (th : Thread) : Option FetchUse :=
  match th.fbuf with
  | [] => none
  | e :: _ => if e.pc = th.pc then e.use else none

/-- What has been fetched is discarded (R132, R138). -/
def dropFetched (th : Thread) : Thread := { th with fbuf := [], waitFetch := false }

def refetch (t : Thr) (s : State) : State := updThr t dropFetched s

/-- Lines a load in flight touches. -/
def linesOfLd (ld : LdInfo) : List (BitVec 42) :=
  match ld.pa2 with
  | none => [lineOf ld.pa]
  | some a => [lineOf ld.pa, lineOf a]

def linesOfUOps (l : List UOp) : List (BitVec 42) :=
  l.flatMap (fun u => match u.ld with | some ld => linesOfLd ld | none => [])

/-- Shim entries of a thread that meet a test are freed. -/
def freeShim (i : Fin 640) (p : ShimE → Bool) (s : State) : State :=
  updCore (i.val / 4) (fun c => { c with shim := c.shim.filter (fun e => !(e.thr.val = i.val % 4 && p e)) }) s

/-- Page walks of a thread that meet a test are given up. -/
def dropWalks (i : Fin 640) (p : WalkE → Bool) (s : State) : State :=
  updCore (i.val / 4) (fun c => { c with walks := c.walks.filter (fun w => !(w.thr.val = i.val % 4 && p w)) }) s

/-- Squash a thread's instructions from sequence number `seq` on, those it has only fetched included: registers, queue
entries, walks and the shim entries they allocated go (R133). Execution resumes at the first of them; a load that executes
again is still to be marked only if it is that one (R124, R131). -/
def squashFrom (i : Fin 640) (seq : Nat) (s : State) : State :=
  let th := thr s (.core i)
  let first := th.unconf.find? (fun u => decide (seq ≤ u.seq))
  let sn := match first with | some u => u.snap | none => snapOf th
  let redo := match first with
    | some u => (u.ld.filter (·.again)).map (fun _ => u.pc)
    | none => th.redo
  dropWalks i (fun w => decide (seq ≤ w.seq)) (freeShim i (fun e => decide (seq ≤ e.seq))
    (updThr (.core i) (fun th => dropFetched { restore sn th with
      unconf := th.unconf.filter (fun v => decide (v.seq < seq))
      stores := th.stores.filter (fun a => a.conf || decide (a.seq < seq))
      redo := redo, waitRoom := false, evs := [] }) s))

/-- Squash what is younger than an instruction; execution goes on at an address. -/
def squashAfter (i : Fin 640) (seq : Nat) (pc : Word) (s : State) : State :=
  updThr (.core i) (fun th => { th with pc := pc }) (squashFrom i (seq + 1) s)

/-- Squash every unretired instruction of a core thread (R132). -/
def squashAll (t : Thr) (s : State) : State :=
  match t with
  | .adze _ => s
  | .core i => squashFrom i 0 s

/-- Empty a thread's return stack, predictor and prefetch streams (R122). -/
def flushPredictors (t : Thr) (s : State) : State :=
  match t with
  | .adze _ => s
  | .core i =>
    let s := updThr t (fun th => { th with rstack := [], mdp := [], redo := none }) s
    updCore (i.val / 4) (fun c => { c with streams := c.streams.filter (fun x => x.thr.val ≠ i.val % 4) }) s

/-- An event that only a confirmed instruction causes: counted at once where nothing older is in flight, else held with the
instruction until its confirmation (R479, R480). -/
def instrEvent (t : Thr) (k : Nat) (s : State) : State :=
  if (thr s t).unconf.isEmpty then countEvent t k s else updThr t (fun th => { th with evs := th.evs ++ [k] }) s

/-! ## Lines for confirmed accesses -/

/-- Fill age: streaming fills enter at 3 (R196). -/
def fillAge (nt : Bool) : BitVec 2 := if nt then 3 else 1

/-- L1 data caches of the bay that hold the line exclusively give it up to shared, their dirty sectors into the L2 line:
every one but core `c`'s own where its data cache asks, every one where its instruction cache does (R219). -/
def shareInBay (c : Nat) (instr : Bool) (l : BitVec 42) (s : State) : State :=
  let b := c / 4
  forEach (List.range 4) (fun i acc =>
    if 4 * b + i = c && !instr then acc else
    let st : Mesi := if lineState (core acc (4 * b + i)).l1d (l1Set l) l = .I then .I else .S
    updCore (4 * b + i) (fun k => { k with l1d := setLineState k.l1d (l1Set l) l st }) acc) s

/-- A way of an L1 holds the line with every sector of a mask. -/
def sectorWay (t : Tbl CLine) (l : BitVec 42) (mask : BitVec 2) : Option Nat :=
  (findWay t (l1Set l) l).filter (fun w => (look CLine.reset t w).sv &&& mask = mask)

/-- The L1 table a load or a fetch looks in. -/
def l1Table (k : Core) (instr : Bool) : Tbl CLine := if instr then k.l1i else k.l1d

def setL1Table (instr : Bool) (t : Tbl CLine) (k : Core) : Core := if instr then { k with l1i := t } else { k with l1d := t }

/-- An ordinary read of sectors of a line for a confirmed access of core thread `i` (R128, R196, R200): a hit ages the
way; a sector the L1 has lost, or the line, comes from the L2 (R194); else the home is asked. `count` counts the misses. -/
def readLineBy (count : Nat → State → State) (i : Fin 640) (instr nt : Bool) (l : BitVec 42) (mask : BitVec 2)
    (s : State) : State :=
  let c : Fin 160 := ⟨i.val / 4, by omega⟩
  let b : Fin 40 := ⟨i.val / 16, by omega⟩
  if !isDramLine l || heldBack s i l then s else
  let tbl := l1Table (core s c.val) instr
  let fromL2 := fun (s : State) => updBay b.val (fun y => { y with l2 := touchBy nt y.l2 (l2Set l) l }) s
  match sectorWay tbl l mask with
  | some _ => updCore c.val (setL1Table instr (touchBy nt tbl (l1Set l) l)) s
  | none =>
    let s := count (if instr then 8 else 9) s
    match findWay tbl (l1Set l) l with
    | some w =>
      let t := edit CLine.reset (fun x => { x with sv := x.sv ||| mask }) tbl w
      updCore c.val (setL1Table instr t) (fromL2 s)
    | none =>
      if lineState (bay s b.val).l2 (l2Set l) l ≠ .I then
        l1Fill c.val instr l .S (fillAge nt) (shareInBay c.val instr l (fromL2 s))
      else bayRequest b .rdS l (some c) instr nt (count 0x0A s)

def readLine (i : Fin 640) (instr nt : Bool) (l : BitVec 42) (mask : BitVec 2) (s : State) : State :=
  readLineBy (fun _ s => s) i instr nt l mask s

/-- Exclusive use of a line is asked for when the bay does not have it (R227). -/
def wantExclusive (i : Fin 640) (noData nt : Bool) (l : BitVec 42) (s : State) : State :=
  let c : Fin 160 := ⟨i.val / 4, by omega⟩
  let b : Fin 40 := ⟨i.val / 16, by omega⟩
  if bayOwns s b.val l then s
  else if noData then bayRequest b .rdZ l (some c) false nt s
  else if lineState (bay s b.val).l2 (l2Set l) l = .S then bayRequest b .upg l (some c) false nt s
  else bayRequest b .rdX l (some c) false nt s

/-! ## DRAM error registers that a confirmed peek updates (R130, R350, R351) -/

def mcElog (c : Chan) : Word :=
  at' c.elLine 0 ||| at' c.elRank 42 ||| at' c.elDevice 46 ||| atB c.elUe 52 ||| atB c.elPatrol 53

/-- The error registers, the log and the corrected-error history of a found error. -/
def noteError (c : Nat) (x : Loc) (l : BitVec 42) (dev : BitVec 6) (ue patrol : Bool) (s : State) : State :=
  let s := updChan c (fun k => { k with
    elLine := l, elRank := BitVec.ofNat 4 x.rank, elDevice := dev, elUe := ue, elPatrol := patrol }) s
  wrightEvent 6 (at' (lineAddr l) 0) (mcElog (chan s c) ||| at' (BitVec.ofNat 4 c) 60) s

/-- The corrected errors that peeks met are logged and counted, now that their access is confirmed (R130); they count toward
no repair (R334). -/
def logFound (l : List (BitVec 42 × Fin 16 × BitVec 6)) (s : State) : State :=
  forEach l (fun f acc => match locOfLine acc f.1 with
    | some x => noteError f.2.1.val x f.1 f.2.2 false false (updChan f.2.1.val (fun k => { k with ce := satInc k.ce }) acc)
    | none => acc) s

/-- Shim entries of a thread that meet a test have served a confirmed access: what their peeks found is recorded, and they
are freed (R126, R130). -/
def releaseShim (i : Fin 640) (p : ShimE → Bool) (s : State) : State :=
  let l := (core s (i.val / 4)).shim.filter (fun e => e.thr.val = i.val % 4 && p e)
  freeShim i p (logFound (l.flatMap (·.found)) s)

/-! ## TLB fills -/

/-- Two entries for the same page under the same identifier. -/
def tlbSame (a b : TlbE) : Bool :=
  decide (a.vpn.toNat * 4096 / 2 ^ a.lg = b.vpn.toNat * 4096 / 2 ^ b.lg) && a.lg = b.lg && a.asid = b.asid && a.glb = b.glb

/-- Set of the second-level TLB (R112). DESIGN CHOICE (log entry 37). -/
def stlbSet (e : TlbE) : Nat := e.vpn.toNat / 2 ^ (e.lg - 12) % 256

/-- A new entry at the head; of the entries in its set the oldest beyond the `n` ways goes. DESIGN CHOICE (log entry 37). -/
def tlbAdd (n : Nat) (inSet : TlbE → Bool) (e : TlbE) (l : List TlbE) : List TlbE :=
  let rest := l.filter (fun x => !tlbSame x e)
  e :: ((rest.filter inSet).take (n - 1) ++ rest.filter (fun x => !inSet x))

/-- The first-level TLB of the access and the second-level TLB take an entry (R112, R146). -/
def tlbInstall (c : Nat) (k : AK) (e : TlbE) (s : State) : State :=
  let all := fun (_ : TlbE) => true
  updCore c (fun x => { x with
    itlb := if k = .fetch then tlbAdd 64 all e x.itlb else x.itlb
    dtlb := if k = .fetch then x.dtlb else tlbAdd 64 all e x.dtlb
    stlb := tlbAdd 8 (fun y => stlbSet y = stlbSet e) e x.stlb }) s

/-- What an attempt to set REF and MOD comes to. -/
inductive RefMod where
  /-- the entry no longer holds what the walk read -/
  | changed
  /-- its line is not the bay's yet -/
  | waits (s : State)
  | done (e : TlbE) (s : State)

/-- Set REF, and MOD for a write, by an atomic update of the entry in memory, made only if it still holds what the
walk read (R143). The update is made at the L2, which must own the line. DEDUCED (log entry 31). -/
def setRefMod (i : Fin 640) (e : TlbE) (write : Bool) (s : State) : RefMod :=
  let l := lineOf e.pte
  let b : Fin 40 := ⟨i.val / 16, by omega⟩
  let w := e.raw ||| atB true 6 ||| atB write 7
  if readWord s e.pte.toNat ≠ e.raw then .changed
  else if !bayOwns s b.val l then
    .waits (bayRequest b (if lineState (bay s b.val).l2 (l2Set l) l = .S then .upg else .rdX) l none false false s)
  else if heldBack s i l then .waits s
  else .done { e with ref := true, mod := bit w 7, raw := w }
    (storeBytes (some (.core i)) e.pte (bytesOf 8 w) false (ownAtL2 b.val l s))

/-- A translation that went stale leaves the TLBs and the shim buffer, so that the access walks again. -/
def dropXlate (i : Fin 640) (va : Word) (s : State) : State :=
  let a := (thr s (.core i)).asid
  let f := fun (l : List TlbE) => l.filter (fun e => !tlbHit va a e)
  freeShim i (fun e => match e.walk with | some w => tlbHit va a w | none => false)
    (updCore (i.val / 4) (fun c => { c with itlb := f c.itlb, dtlb := f c.dtlb, stlb := f c.stlb }) s)

/-- Lines of the tables that a walk reads and the bay's L2 has not got (R143). -/
def walkMisses (s : State) (i : Fin 640) (va : Word) : List (BitVec 42) :=
  ((walkPath s va 4 (((thr s (.core i)).ptRoot.setWidth 48) <<< 12)).filter (fun a =>
    ownDram s (partOf s (.core i)) a && lineServed s (lineOf a)
      && lineState (bay s (i.val / 16)).l2 (l2Set (lineOf a)) (lineOf a) = .I)).map lineOf

/-- A confirmed walk reads the tables from the L2: the lines it reads there are hits (R143, R196). -/
def touchWalk (i : Fin 640) (va : Word) (s : State) : State :=
  updBay (i.val / 16) (fun y => { y with
    l2 := forEach (walkPath s va 4 (((thr s (.core i)).ptRoot.setWidth 48) <<< 12))
      (fun a t => touch t (l2Set (lineOf a)) (lineOf a) 0) y.l2 }) s

/-- A confirmed walk asks for lines it lacks with ordinary reads, which do not allocate in the L1 (R143). -/
def askWalk (i : Fin 640) (va : Word) (s : State) : State :=
  forEach (walkMisses s i va) (fun l acc => bayRequest ⟨i.val / 16, by omega⟩ .rdS l none false false acc) s

/-- What a confirmed access's use of its translation comes to. -/
inductive Xl where
  | ready (s : State)
  /-- it waits for lines of the tables -/
  | wait (s : State)
  /-- the translation no longer holds: the access executes again -/
  | redo (s : State)

/-- Results of walks that the thread holds for an address are not needed any more: a confirmed access has its translation
(R126). -/
def releaseWalks (i : Fin 640) (va : Word) (s : State) : State :=
  let a := (thr s (.core i)).asid
  releaseShim i (fun e => match e.walk with | some w => tlbHit va a w | none => false) s

/-- The result of a walk serves a confirmed access: REF and MOD are set, the TLBs take it (R126, R143). -/
def applyLeaf (i : Fin 640) (k : AK) (va : Word) (e : TlbE) (s : State) : Xl :=
  let take := fun (e' : TlbE) (s : State) => Xl.ready (tlbInstall (i.val / 4) k e' (releaseWalks i va s))
  if e.ref && (e.mod || !k.writes) then take e s
  else match setRefMod i e k.writes s with
    | .changed => .redo (dropXlate i va s)
    | .waits s => .wait s
    | .done e' s => take e' s

/-- A confirmed access walks the tables (R143). -/
def rewalk (i : Fin 640) (k : AK) (va : Word) (s : State) : Xl :=
  if !(walkMisses s i va).isEmpty then .wait (askWalk i va s) else
  match walkFor s i k va with
  | .ok _ (some e) _ =>
    let s := countEvent (.core i) 0x0F (touchWalk i va s)
    applyLeaf i k va e (if k = .fetch then s else countEvent (.core i) 0x0E s)
  | .ok _ none _ => .ready s
  | .fault _ _ => .redo (dropXlate i va s)

/-- The confirmed access of a thread uses a translation: a TLB entry serves, but for a store that finds MOD = 0 there; a
walk result held in the shim buffer is installed; else the tables are walked (R126, R143, R146). A walk by peeks that is
not complete is given up. -/
def useXlate (i : Fin 640) (k : AK) (va : Word) (s : State) : Xl :=
  let th := thr s (.core i)
  if th.tstat.priv = .M || !th.trEn then .ready s else
  let s := dropWalks i (fun w => w.va / 4096 = va / 4096) s
  let c := core s (i.val / 4)
  let serves := tlbServes k th va
  match ((if k = .fetch then c.itlb else c.dtlb) ++ c.stlb).find? serves with
  | some e => if k.writes && !e.mod then rewalk i k va s else .ready (tlbInstall (i.val / 4) k e (releaseWalks i va s))
  | none =>
    match (c.shim.filterMap (fun e => if e.thr.val = i.val % 4 then e.walk else none)).find? serves with
    | some e => applyLeaf i k va e s
    | none => rewalk i k va s

/-- The translations of both ends of an access. -/
def useXlates (i : Fin 640) (k : AK) (va : Word) (n : Nat) (s : State) : Xl :=
  match useXlate i k va s with
  | .ready s => useXlate i k (va + BitVec.ofNat 64 (n - 1)) s
  | x => x

/-! ## Prefetch (R199) -/

def prefetchDepth (k : Core) : Nat := 2 ^ k.pfDepth.toNat

/-- Prefetches of a trained stream: lines of the same 4 KiB page in the partition's DRAM, neither present nor asked
for, at most 8 outstanding. -/
def issuePrefetch (i : Fin 640) (pa : BitVec 48) (stride : Int) (stream : Bool) (s : State) : State :=
  let c : Fin 160 := ⟨i.val / 4, by omega⟩
  let b : Fin 40 := ⟨i.val / 16, by omega⟩
  forEach ((List.range (prefetchDepth (core s c.val))).map Nat.succ) (fun (k : Nat) acc =>
    let ai := (pa.toNat : Int) + (k : Int) * stride
    if ai < 0 then acc else
    let a : BitVec 48 := BitVec.ofNat 48 ai.toNat
    let l := lineOf a
    if ai.toNat / 4096 ≠ pa.toNat / 4096 || !ownDram acc (partOf acc (.core i)) a || heldBack acc i l
      || lineState (core acc c.val).l1d (l1Set l) l ≠ .I || (bay acc b.val).reqs.any (fun r => r.line = l)
      || 8 ≤ (core acc c.val).prefetch.length then acc
    else if lineState (bay acc b.val).l2 (l2Set l) l ≠ .I then
      readLine i false stream l 3 (countEvent (.core i) 0x12 acc)
    else if !canRequest acc b.val .rdS l then acc
    else
      bayRequest b .rdS l (some c) false stream
        (updCore c.val (fun x => { x with prefetch := x.prefetch ++ [l] }) (countEvent (.core i) 0x12 acc))) s

/-- Train the stream of a confirmed load (R199). What a stream just allocated holds is DESIGN CHOICE (log entry 87). -/
def trainStream (i : Fin 640) (pc : Word) (pa : BitVec 48) (missed : Bool) (s : State) : State :=
  let c := i.val / 4
  let k := core s c
  let t : Fin 4 := ⟨i.val % 4, by omega⟩
  if !k.pfen then s else
  match k.streams.find? (fun x => x.thr = t && x.pc = pc) with
  | none =>
    if !missed then s else
    updCore c (fun k => { k with streams := (⟨t, pc, pa, 0, 0, 0⟩ :: k.streams).take 16 }) s
  | some x =>
    let d : Int := (pa.toNat : Int) - (x.last.toNat : Int)
    let hit := decide (d = x.stride) && decide (d ≠ 0)
    let y : Stream := if hit then { x with conf := Nat.min (x.conf + 1) 3, run := Nat.min (x.run + 1) 63, last := pa }
      else { x with stride := d, conf := 0, run := 0, last := pa }
    let s := updCore c (fun k => { k with streams := y :: k.streams.filter (fun z => !(z.thr = t && z.pc = pc)) }) s
    if 2 ≤ y.conf && y.stride.natAbs ≤ 2048 && k.den then issuePrefetch i pa y.stride (32 ≤ y.run) s else s

/-! ## Peeks taken ahead of confirmation (R126, R129) -/

/-- The shim entry a thread has for a line. -/
def shimOf (s : State) (i : Fin 640) (l : BitVec 42) : Option ShimE :=
  (core s (i.val / 4)).shim.find? (fun e => e.thr.val = i.val % 4 && e.line = l && e.walk.isNone)

def dropShim (i : Fin 640) (l : BitVec 42) (s : State) : State := freeShim i (fun e => e.line = l && e.walk.isNone) s

/-- Sectors of a line that a load in flight covers. -/
def loadSectors (ld : LdInfo) (l : BitVec 42) : BitVec 2 :=
  let k := if ld.pa2.isSome then 64 - ld.pa.toNat % 64 else ld.size
  (if lineOf ld.pa = l then sectorMask ld.pa.toNat k else 0) |||
    (match ld.pa2 with | some a => if lineOf a = l then sectorMask a.toNat (ld.size - k) else 0 | none => 0)

/-- The sector of a fetch that came by a peek. -/
def fetchSectors (f : Option FetchUse) (l : BitVec 42) : BitVec 2 :=
  match f with
  | some f => if f.peek && f.line = l then (if f.hi then 2 else 1) else 0
  | none => 0

/-- Sectors of a line that an instruction's load took from the thread's shim entry, and not from one before it. -/
def loadTook (e : ShimE) (u : UOp) (l : BitVec 42) : BitVec 2 :=
  match u.ld with
  | some ld => if !ld.shim.contains l || u.seq < e.seq then 0 else loadSectors ld l
  | none => 0

/-- Sectors of a line that an instruction took from a peek, by its fetch or its load. -/
def peekTook (e : ShimE) (u : UOp) (l : BitVec 42) : BitVec 2 := fetchSectors u.fetch l ||| loadTook e u l

/-- Sectors in which two values of a line differ, in data or poison. -/
def sectorsDiffer (e : ShimE) (data : BitVec 512) (poison : Bool) : BitVec 2 :=
  if e.poison ≠ poison then 3 else
  (if e.data.setWidth 256 = data.setWidth 256 then 0 else 1) |||
    (if (e.data >>> 256).setWidth 256 = (data >>> 256).setWidth 256 then 0 else 2)

/-- Compare a shim entry with the line as it now reads, in the sectors that accesses took (R129): equal, the entry is
freed; otherwise the first instruction that took a sector that differs is squashed with everything younger. -/
def validatePeek (i : Fin 640) (l : BitVec 42) (s : State) : State :=
  match shimOf s i l with
  | none => s
  | some e =>
    if !e.filled || e.deferred then s else
    let diff := sectorsDiffer e (lineData s l) (readPoison s i e.instr l)
    let s := releaseShim i (fun x => x = e) s
    let th := thr s (.core i)
    match th.unconf.find? (fun u => peekTook e u l &&& diff ≠ 0) with
    | some u => countEvent (.core i) 7 (squashFrom i u.seq s)
    | none =>
      if th.fbuf.any (fun x => fetchSectors x.use l &&& diff ≠ 0) then countEvent (.core i) 7 (refetch (.core i) s) else s

/-- A line whose comparison is due, with the ordinary read that it takes. -/
structure Check129 where
  instr : Bool
  line : BitVec 42
  nt : Bool
  mask : BitVec 2
deriving DecidableEq, Repr

/-- The comparison that a fetch asks for. -/
def fetchCheck (s : State) (i : Fin 640) (f : Option FetchUse) : List Check129 :=
  match f with
  | some f => if f.peek && (shimOf s i f.line).isSome then [⟨true, f.line, false, if f.hi then 2 else 1⟩] else []
  | none => []

/-- Lines that an instruction took from a peek and that are not compared yet. -/
def peekLines (s : State) (i : Fin 640) (u : UOp) : List Check129 :=
  let ls := match u.ld with
    | some ld => (ld.shim.filter (fun l => (shimOf s i l).any (fun e => loadTook e u l ≠ 0))).map (fun l =>
        (⟨false, l, ld.nt, loadSectors ld l⟩ : Check129))
    | none => []
  fetchCheck s i u.fetch ++ ls

/-- One ordinary read is made for each line of a peek, and the line is compared where the bay has it (R129). True when none
is left to wait for. -/
def validateLines (i : Fin 640) (ls : List Check129) (s : State) : Bool × State :=
  let s := forEach ls (fun c acc => readLine i c.instr c.nt c.line c.mask acc) s
  let here := ls.filter (fun c => lineState (bay s (i.val / 16)).l2 (l2Set c.line) c.line ≠ .I)
  (here.length = ls.length, forEach here (fun c acc => validatePeek i c.line acc) s)

/-! ## Confirmation (R123) -/

/-- A confirmed access's part in the L1: the way it hit is aged if the line is still there (R198); a line it did not hit
is read (R128). -/
def confirmLine (i : Fin 640) (instr nt : Bool) (l : BitVec 42) (mask : BitVec 2) (way : Option Nat) (s : State) : State :=
  match way with
  | none => readLine i instr nt l mask s
  | some w =>
    let tbl := l1Table (core s (i.val / 4)) instr
    let x := look CLine.reset tbl w
    if nt || x.line ≠ l || x.st = .I then s
    else updCore (i.val / 4) (setL1Table instr (edit CLine.reset (fun y => { y with age := 0 }) tbl w)) s

/-- A load of the thread is confirmed: the entries of its memory-dependence predictor count it, and one that executed
again after a violation is marked (R131). How the 64 entries are kept is DESIGN CHOICE (log entry 86). -/
def countLoad (pc : Word) (again : Bool) (th : Thread) : Thread :=
  let mdp := th.mdp.map (fun m => (m.1, m.2 + 1))
  { th with mdp := if again then ((pc, 0) :: mdp.filter (fun m => m.1 ≠ pc)).take 64 else mdp }

/-- A load that executes as the oldest instruction is confirmed as it completes (R131). -/
def countOldest (th : Thread) : Thread :=
  let again : Bool := th.redo = some th.pc
  { countLoad th.pc again th with redo := if again then none else th.redo }

/-- The confirmed fetch of an instruction: its line's part in the L1. What a peek gave has been read (R129). -/
def confirmFetchLine (i : Fin 640) (f : Option FetchUse) (s : State) : State :=
  match f with
  | some f => if f.peek then s else confirmLine i true false f.line (if f.hi then 2 else 1) f.way s
  | none => s

/-- A younger load of the thread that has read memory, or taken its bytes from an older store, and overlaps a store whose
address becomes known (R131). -/
def violates (ps : List Access) (older : Nat) (u : UOp) : Bool :=
  match u.ld with
  | none => false
  | some ld =>
    let hit := fun (a k : Nat) => ps.any (fun x => decide (a < x.pa.toNat + x.size) && decide (x.pa.toNat < a + k))
    let k := if ld.pa2.isSome then 64 - ld.pa.toNat % 64 else ld.size
    older < u.seq && (match ld.fwd with | none => true | some q => decide (q < older)) &&
      (hit ld.pa.toNat k || (match ld.pa2 with | some a => hit a.toNat (ld.size - k) | none => false))

/-- The address of a store becomes known: the first younger load that overlaps it is squashed with everything younger, and
executes again (R131, R132). -/
def knowStore (i : Fin 640) (older : Nat) (s : State) : State :=
  let t := Thr.core i
  let ps := (thr s t).stores.filter (fun a => a.seq = older && !a.known)
  if ps.isEmpty then s else
  let s := updThr t (fun th => { th with
    stores := th.stores.map (fun a => if a.seq = older then { a with known := true } else a) }) s
  match (thr s t).unconf.find? (violates ps older) with
  | none => s
  | some u =>
    updThr t (fun th => { th with redo := some u.pc, evs := th.evs ++ [6] }) (countUnconfirmed t 6 (squashFrom i u.seq s))

/-- What the confirmation of an instruction changes: the return stack, the predictors, the caches, the store buffer, the
shim buffer and the counters (R119, R123, R126, R131, R198, R480). -/
def confirmUOp (i : Fin 640) (u : UOp) (s : State) : State :=
  let t := Thr.core i
  let s := confirmFetchLine i u.fetch s
  let s := match u.st with | some q => knowStore i q s | none => s
  let s := match u.ld with
    | some ld =>
      let s := if ld.fwd.isSome then s else forEach ((linesOfLd ld).filter (fun l => !ld.shim.contains l)) (fun l acc =>
        confirmLine i false ld.nt l (loadSectors ld l) ((ld.ways.find? (fun w => w.1 = l)).map (·.2)) acc) s
      let s := updThr t (countLoad u.pc ld.again) s
      if ld.trains && isDramLine (lineOf ld.pa) then trainStream i u.pc ld.pa ld.missed s else s
    | none => s
  let s := updThr t (fun th =>
    let rs := if u.pop then th.rstack.drop 1 else th.rstack
    { th with
      unconf := editFirst (fun v => v.seq = u.seq) (fun v => { v with conf := true, fetch := none, evs := [] }) th.unconf
      rstack := match u.push with | some a => (a :: rs).take 16 | none => rs
      stores := th.stores.map (fun a => if u.st.isSome && a.seq = u.seq then { a with conf := true } else a) }) s
  let s := match u.br with
    | some b => if b.predicted.isNone then countConfirmed t 4 1 s else s
    | none => s
  let s := releaseShim i (fun e => decide (e.seq ≤ u.seq)) s
  countConfirmed t 2 1 (forEach u.evs (countHeld t) s)

/-- The branch of an instruction has resolved, or it is none. -/
def UOp.settled (u : UOp) : Bool := match u.br with | some b => b.resolved | none => true

/-- The oldest instruction leaves once it is confirmed and, if it is a branch, has resolved: it retires (R480). -/
def retireHead (i : Fin 640) (s : State) : State :=
  match (thr s (.core i)).unconf with
  | [] => s
  | u :: _ =>
    if !u.conf || !u.settled then s else
    countMany (.core i) 1 1 (updThr (.core i) (fun th => { th with unconf := th.unconf.drop 1 }) s)

/-- The translations an instruction used, of its fetch and of its access (R143). -/
def confirmXlates (i : Fin 640) (u : UOp) (s : State) : Xl :=
  let k : AK := if u.st.isSome then .store else .load
  match (if u.fetch.isSome then useXlate i .fetch u.pc s else .ready s) with
  | .ready s => if u.sz = 0 then .ready s else useXlates i k u.va u.sz s
  | x => x

/-- Confirm the oldest instruction in flight of a core thread, if it is not confirmed yet; the flag says whether it is
now. Every older one has retired, so nothing older stands in its way (R123). What it took from peeks is compared first
(R129); a translation that no longer holds sends it back to execute again (R143). -/
def confirmNext (i : Fin 640) (s : State) : Bool × State :=
  match (thr s (.core i)).unconf with
  | [] => (false, s)
  | u :: _ =>
    if u.conf then (false, retireHead i s) else
    match confirmXlates i u s with
    | .wait s => (false, s)
    | .redo s => (false, squashFrom i u.seq s)
    | .ready s =>
      let ls := match u.ld with | some ld => linesOfLd ld | none => []
      if ls.any (heldBack s i) then (false, s) else
      let r := validateLines i (peekLines s i u) s
      match (thr r.2 (.core i)).unconf with
      | v :: _ => if r.1 && v.seq = u.seq then (true, retireHead i (confirmUOp i v r.2)) else (false, r.2)
      | [] => (false, r.2)

/-- A branch in flight resolves (R117). A RET that was predicted to go elsewhere squashes what is younger, and fetch
restarts at its target; the return stack is not repaired (R121). A confirmed one retires. -/
def resolveBranch (i : Fin 640) (u : UOp) (s : State) : State :=
  let t := Thr.core i
  match u.br with
  | none => s
  | some b =>
    let s := updThr t (fun th => { th with
      unconf := editFirst (fun v => v.seq = u.seq) (fun v => { v with br := some { b with resolved := true } }) th.unconf }) s
    let s :=
      if b.isRet && b.predicted.isSome && b.predicted ≠ some b.target then
        let s := countUnconfirmed t 5 (squashAfter i u.seq b.target s)
        if u.conf then countConfirmed t 5 1 s
        else updThr t (fun th => { th with
          unconf := editFirst (fun v => v.seq = u.seq) (fun v => { v with evs := v.evs ++ [5] }) th.unconf }) s
      else s
    retireHead i s

/-- What the thread's next instruction took by its fetch is confirmed, once nothing older is in flight: its translation,
the lines of peeks, the age of the way (R128, R129, R143, R198). False where it must wait or be fetched again. -/
def confirmFetch (i : Fin 640) (s : State) : Bool × State :=
  let pc := (thr s (.core i)).pc
  match fetchOf (thr s (.core i)) with
  | none => (true, s)
  | some f =>
    match useXlate i .fetch pc s with
    | .wait s => (false, s)
    | .redo s => (false, refetch (.core i) s)
    | .ready s =>
      let r := validateLines i (fetchCheck s i (some f)) s
      if !r.1 || fetchOf (thr r.2 (.core i)) ≠ some f then (false, r.2) else
      let s := confirmFetchLine i (some f) r.2
      (true, updThr (.core i) (fun th => { th with
        fbuf := editFirst (fun e => e.pc = pc) (fun e => { e with use := none }) th.fbuf }) s)

/-- Bring every older instruction of a thread to its end, so that the next is the oldest: branches resolve, stores and
loads are confirmed. The flag is false where a squash sends the thread back, or one must wait.
DESIGN CHOICE (log entry 15). -/
def drainOlder (i : Fin 640) : Nat → State → Bool × State
  | 0, s => (true, s)
  | fuel + 1, s =>
    match (thr s (.core i)).unconf with
    | [] => (true, s)
    | u :: _ =>
      let s := if u.settled then s else resolveBranch i u s
      let s := (confirmNext i s).2
      if (thr s (.core i)).unconf.any (fun w => w.seq = u.seq) then (false, s) else drainOlder i fuel s

/-- The thread's next instruction becomes its oldest (R124, R134): true when it may execute now. -/
def makeOldest (t : Thr) (s : State) : Bool × State :=
  match t with
  | .adze _ => (true, s)
  | .core i =>
    let pc := (thr s t).pc
    let r := drainOlder i (thr s t).unconf.length s
    if !r.1 || (thr r.2 t).pc ≠ pc then (false, r.2) else confirmFetch i r.2

end Sys2Proof.Machine
end

