-- ==== Sys2Proof/Machine/Shim.lean ====
section
/-! DEFINITION. What an access or a fetch may use ahead of confirmation: the L1 as it stands, and the shim buffer, filled
from the bay's own L2, by a peek, or by a walk (R124 to R130, R203). -/
namespace Sys2Proof.Machine

/-- Room for one more shim entry of the thread (R112, R126). -/
def shimRoom (s : State) (i : Fin 640) : Bool :=
  let k := core s (i.val / 4)
  k.shim.length < 16 && (k.soloActive || (k.shim.filter (fun e => e.thr.val = i.val % 4)).length < 8)

/-- The access waits for a shim entry (R126). -/
def shimFull (i : Fin 640) (s : State) : State :=
  if (thr s (.core i)).waitRoom then s
  else countUnconfirmed (.core i) 0x0D
    (updThr (.core i) (fun th => { th with waitRoom := true, evs := th.evs ++ [0x0D] }) s)

/-- A shim entry of the thread, allocated by its next instruction and filled. -/
def shimEntry (s : State) (i : Fin 640) (instr : Bool) (l : BitVec 42) : ShimE where
  thr := ⟨i.val % 4, by omega⟩
  seq := (thr s (.core i)).nextSeq
  instr := instr
  found := []
  line := l
  data := 0
  poison := false
  filled := true
  deferred := false
  walk := none

def addShim (i : Fin 640) (e : ShimE) (s : State) : State := updCore (i.val / 4) (fun k => { k with shim := k.shim ++ [e] }) s

/-- Events an access causes ahead of confirmation: counted now where unconfirmed events are, and held with the instruction
until its confirmation (R480, R481). -/
def specEvents (i : Fin 640) (l : List Nat) (s : State) : State :=
  forEach l (fun k acc => countUnconfirmed (.core i) k acc)
    (updThr (.core i) (fun th => { th with evs := th.evs ++ l, waitRoom := false }) s)

/-- Another L1 of the bay than the one that asks holds the line exclusively (R203). -/
def takenInBay (s : State) (i : Fin 640) (instr : Bool) (l : BitVec 42) : Bool :=
  (List.range 4).any (fun x =>
    let c := 4 * (i.val / 16) + x
    let st := lineState (core s c).l1d (l1Set l) l
    (decide (c ≠ i.val / 4) || instr) && (st = .E || st = .M))

/-- A line for an unconfirmed access: from the L1 way named, from the shim buffer, or not yet. -/
inductive SpecLine where
  | ready (way : Option Nat) (e : Option ShimE) (s : State)
  | stall (s : State)

/-- A load or fetch ahead of confirmation reads sectors of a line (R124, R126, R127, R203): the L1 as it stands, or a shim
entry, filled from the bay's own L2 or by a peek. With NO_PEEK set it waits for its confirmation (R135). -/
def specLine (i : Fin 640) (instr : Bool) (l : BitVec 42) (mask : BitVec 2) (s : State) : SpecLine :=
  match sectorWay (l1Table (core s (i.val / 4)) instr) l mask with
  | some w => .ready (some w) none s
  | none =>
    match shimOf s i l with
    | some e => if e.filled && !e.deferred then .ready none (some e) s else .stall s
    | none =>
      let miss := if instr then 8 else 9
      let e := shimEntry s i instr l
      if (thr s (.core i)).noPeek then .stall s
      else if !shimRoom s i then .stall (shimFull i s)
      else if lineState (bay s (i.val / 16)).l2 (l2Set l) l ≠ .I then
        let s := specEvents i [miss] s
        if takenInBay s i instr l then .stall (specEvents i [0x0C] (addShim i { e with filled := false, deferred := true } s))
        else
          let e := { e with data := lineData s l, poison := readPoison s i instr l }
          .ready none (some e) (addShim i e s)
      else
        match homeAgent s l with
        | none => .stall s
        | some h =>
          let s := specEvents i [miss, 0x0A, 0x0B] (addShim i { e with filled := false } s)
          .stall (send .peek (mkMsg s (.bay ⟨i.val / 16, by omega⟩) (.home h) l) s)

/-- The thread's walk for a page, if one of the core's walkers makes it. -/
def walkOf (s : State) (i : Fin 640) (instr : Bool) (va : Word) : Option WalkE :=
  (core s (i.val / 4)).walks.find? (fun w => w.thr.val = i.val % 4 && w.instr = instr && w.va / 4096 = va / 4096)

def setWalk (i : Fin 640) (w w' : WalkE) (s : State) : State :=
  updCore (i.val / 4) (fun k => { k with walks := editFirst (fun x => x = w) (fun _ => w') k.walks }) s

/-- The walk's next peek asks for a line of the tables (R143). -/
def walkPeek (i : Fin 640) (w : WalkE) (l : BitVec 42) (s : State) : State :=
  match homeAgent s l with
  | none => s
  | some h =>
    send .peek (mkMsg s (.bay ⟨i.val / 16, by omega⟩) (.home h) l)
      (specEvents i [0x0B] (setWalk i w { w with await := some l } s))

/-- The result of a walk goes into the shim buffer (R126, R143). -/
def walkEnds (i : Fin 640) (k : AK) (e : TlbE) (found : List (BitVec 42 × Fin 16 × BitVec 6)) (s : State) : Bool × State :=
  if !shimRoom s i then (false, shimFull i s)
  else
    let s' := addShim i { shimEntry s i (k = .fetch) 0 with walk := some e, found := found } s
    (true, specEvents i (if k = .fetch then [0x0F] else [0x0E, 0x0F]) s')

/-- A page walk for an unconfirmed access reads the tables by peeks, one line after another, in one of the core's two
walkers; its result is held in the shim buffer (R112, R126, R143). False where it is not complete. -/
def specWalk (i : Fin 640) (k : AK) (va : Word) (s : State) : Bool × State :=
  let th := thr s (.core i)
  if th.unconf.isEmpty then (true, s) else
  match translate s (.core i) k va with
  | .ok _ (some e) true =>
    let misses := walkMisses s i va
    if th.noPeek then (false, s) else
    match walkOf s i (k = .fetch) va with
    | some w =>
      if w.deferred || w.await.isSome then (false, s) else
      match misses.find? (fun l => !w.got.contains l) with
      | some l => (false, walkPeek i w l s)
      | none =>
        let r := walkEnds i k e w.found s
        if r.1 then (true, dropWalks i (fun x => x = w) r.2) else r
    | none =>
      match misses with
      | [] => walkEnds i k e [] s
      | l :: _ =>
        if 2 ≤ (core s (i.val / 4)).walks.length then (false, s) else
        let w : WalkE := { thr := ⟨i.val % 4, by omega⟩, seq := th.nextSeq, va := va, instr := k = .fetch, got := []
                           await := none, deferred := false, found := [] }
        (false, walkPeek i w l (updCore (i.val / 4) (fun x => { x with walks := x.walks ++ [w] }) s))
  | _ => (true, s)

/-- Walks for both ends of an access. -/
def specWalks (i : Fin 640) (k : AK) (va : Word) (n : Nat) (s : State) : Bool × State :=
  let r := specWalk i k va s
  if !r.1 then r else specWalk i k (va + BitVec.ofNat 64 (n - 1)) r.2

end Sys2Proof.Machine
end

