-- ==== Sys2Proof/Machine/Exceptions.lean ====
section
/-! DEFINITION. Taking an exception or an interrupt and returning from one (R103 to R110, R274), and the frame in which
every instruction runs: fetch, the checks of R108 in order, retirement. -/
namespace Sys2Proof.Machine

/-- An exception with what it saves (R104). -/
structure Exc where
  code : Nat
  eaddr : Word
  einfo : Word
  acc : BitVec 2
  half : Bool
  lost : BitVec 16
deriving DecidableEq, Repr

/-- An exception that saves no access kind. -/
def excPlain (code : Nat) (eaddr einfo : Word) : Exc := ⟨code, eaddr, einfo, 0, false, 0⟩

/-- X_ECAUSE (R77). -/
def causeWord (e : Exc) : Word :=
  at' (BitVec.ofNat 8 e.code) 0 ||| atB e.half 8 ||| at' e.acc 9 ||| at' e.lost 16

/-- The level an exception is taken at, before R107 (R105). -/
def excLevel (th : Thread) (code : Nat) : Priv :=
  if code = 13 || code = 18 then .M
  else if th.tstat.priv = .M then .M
  else if code = 0x20 then (if th.irqM then .M else .K)
  else if 1 ≤ code && code ≤ 18 && th.route.getLsbD (code - 1) then .M else .K

/-- The saved registers, TSTAT and PC of an entry at level X (R105). -/
def enterLevel (x : Priv) (e : Exc) (epc : Word) (th : Thread) : Thread :=
  let f := fun (r : XRegs) => { r with
    epc := epc.extractLsb' 2 46, code := BitVec.ofNat 8 e.code, half := e.half, acc := e.acc, lost := e.lost
    eaddr := e.eaddr, einfo := e.einfo }
  let evec := if x = .M then th.xm.evec else th.xk.evec
  let base := sext48 (evec ++ (0 : BitVec 8))
  let th := if x = .M then { th with xm := f th.xm } else { th with xk := f th.xk }
  let ts := th.tstat
  let ts := if x = .M then { ts with mPpriv := ts.priv, mPie := ts.ie, mFrame := true }
    else { ts with kPpriv := ts.priv, kPie := ts.ie, kFrame := true }
  { th with
    tstat := { ts with ie := false, priv := x }
    pc := if e.code = 0x20 then base + 0x80 else base
    run := .running
    fbuf := []
    waitFetch := false
    held := .ready
    waitRoom := false
    evs := [] }

/-- Which entry an exception leads to (R107): at its level, as DOUBLE at M, or the thread stops. -/
inductive Entering where
  | at (x : Priv) (e : Exc)
  | stop (cause : Word)
deriving DecidableEq, Repr

def entering (th : Thread) (e : Exc) (epc : Word) : Entering :=
  match excLevel th e.code with
  | .M => if th.tstat.mFrame then .stop (causeWord e) else .at .M e
  | _ =>
    if !th.tstat.kFrame then .at .K e
    else
      let d := excPlain 18 epc (BitVec.ofNat 64 e.code)
      if th.tstat.mFrame then .stop (causeWord d) else .at .M d

/-- Exception entry as one step: EXCEPTION_ENTRY, DOUBLE_ENTRY or THREAD_STOP (R105, R107), with the reservation lost
(R174), the predictors flushed (R122) and a POISON reported to the ledger (R298). The entry of COMPLETION clears
LOST_PENDING (R185). -/
def enterException (t : Thr) (e : Exc) (s : State) : State :=
  let th := thr s t
  let s := loseResv t s
  let s := if e.code = 15 then failOwned t 2 0 s else s
  match entering th e th.pc with
  | .stop w => stopThread t w s
  | .at x e' =>
    countEvent t (if e'.code = 0x20 then 0x15 else 0x16)
      (flushPredictors t (updThr t (fun v =>
        let v := enterLevel x e' th.pc v
        if e'.code = 17 then { v with lostPending := 0 } else v) s))

/-- The interrupt as an entry: no address, no detail (R317). -/
def irqExc : Exc := excPlain 0x20 0 0

/-- Interrupt entry: unretired instructions are squashed (R132), the entry is made, and the highest pending priority
is pushed unless the entry turned into DOUBLE or stopped the thread (R107, R317). -/
def enterInterrupt (t : Thr) (s : State) : State :=
  let s := squashAll t s
  let th := thr s t
  match irqPrio th with
  | none => s
  | some p =>
    let s' := enterException t irqExc s
    match entering th irqExc th.pc with
    | .at _ e' =>
      if e'.code = 0x20 then updThr t (updEv (fun v => { v with stack := BitVec.ofNat 4 p :: v.stack })) s' else s'
    | .stop _ => s'

/-- The thread's unit can execute: its die is not stalled and no core-wide sequence holds it (R65, R205). -/
def unitRuns (s : State) (t : Thr) : Bool :=
  !(die s (dieOfThr t)).stalled &&
    (match t with
     | .core i => (core s (i.val / 4)).ccWait.isNone && (core s (i.val / 4)).soloWait.isNone
     | .adze _ => true)

/-- Fetch waits behind an unresolved branch that has no predicted target (R116). -/
def fetchStopped (th : Thread) : Bool :=
  th.unconf.any (fun u => match u.br with
    | some b => !b.resolved && b.predicted.isNone
    | none => false)

/-- Room for one more instruction in flight: 96 of a thread, or all 256 in solo mode, and 256 of the core (R112). -/
def robRoom (s : State) (t : Thr) : Bool :=
  match t with
  | .adze _ => true
  | .core i =>
    let c := i.val / 4
    decide ((thr s t).unconf.length < (if (core s c).soloActive then 256 else 96)) &&
      decide (((thrsOfCore c).map (fun x => (thr s x).unconf.length)).sum < 256)

/-- The thread may execute its next instruction. -/
def canExec (s : State) (t : Thr) : Bool :=
  let th := thr s t
  th.run = .running && th.held ≠ .entering && !halted th && unitRuns s t && !fetchStopped th && robRoom s t

/-- What fetching the next instruction raises, if anything (R72, R108, R264, R510, R216). A line that nothing serves is
delivered marked, as a poisoned one is. DEDUCED (log entry 96). -/
def fetchExc (s : State) (t : Thr) : Option Exc :=
  let pc := (thr s t).pc
  match translate s t .fetch pc with
  | .fault r l => some (excPlain 4 pc (BitVec.ofNat 64 (r + 256 * l)))
  | .ok pa _ _ =>
    let l := lineOf pa
    let own := match t with
      | .core _ => ownDram s (partOf s t) pa
      | .adze j => spaceOf pa = .scratch (j.val / 8)
    let lost := match t with
      | .core i => !lineServed s l && lineState (bay s (i.val / 16)).l2 (l2Set l) l = .I
      | .adze _ => false
    let bad := match t with | .core i => readPoison s i true l | .adze _ => isPoisoned s l
    if !own then some (excPlain 7 pc (at' pa 0))
    else if bad || lost then some (excPlain 15 (at' (lineAddr l) 0) 0x500)
    else none

/-! ## The fetch buffer (R112, R114, R115) -/

/-- What the fetch of an instruction comes to. -/
inductive Fetched where
  | got (s : State)
  | bad (e : Exc) (s : State)
  | wait (s : State)

/-- Sector of a line that holds an address, as a mask. -/
def sectorOf (pa : BitVec 48) : BitVec 2 := if pa.getLsbD 5 then 2 else 1

/-- A fetch of the thread's next line has missed and is not answered yet (R114). -/
def fetchMissing (s : State) (i : Fin 640) : Bool :=
  let th := thr s (.core i)
  match translate s (.core i) .fetch th.pc with
  | .ok pa _ _ =>
    let l := lineOf pa
    (bay s (i.val / 16)).reqs.any (fun r => r.line = l && (r.instr || (sectorWay (core s (i.val / 4)).l1i l (sectorOf pa)).isNone))
      || (!th.unconf.isEmpty && (match shimOf s i l with | some e => !e.filled | none => false))
  | .fault _ _ => false

/-- The thread waits for a fetch grant and is eligible for one (R114). -/
def wantsFetch (s : State) (t : Thr) : Bool :=
  let th := thr s t
  th.waitFetch && th.run = .running && !halted th && unitRuns s t && !fetchStopped th && decide (th.fbuf.length ≤ 8) &&
    (match t with | .core i => !fetchMissing s i | .adze _ => false)

/-- The next grant is the thread's: no thread of its core that was granted less recently waits for one (R114).
DESIGN CHOICE (log entry 93). -/
def fetchTurn (s : State) (i : Fin 640) : Bool :=
  ((core s (i.val / 4)).grants.takeWhile (fun x => x.val ≠ i.val % 4)).all (fun x =>
    match thrOfIndex (4 * (i.val / 4) + x.val) false with
    | some t => !wantsFetch s t
    | none => true)

/-- The thread is the one granted most recently. -/
def grantFetch (i : Fin 640) (s : State) : State :=
  let me : Fin 4 := ⟨i.val % 4, by omega⟩
  updCore (i.val / 4) (fun k => { k with grants := k.grants.filter (fun x => x ≠ me) ++ [me] }) s

/-- A grant delivers what is left of the 32-byte sector, up to 8 instructions (R112, R115). Where one of them sends
execution elsewhere, what follows it is discarded. -/
def deliverGroup (i : Fin 640) (use : Option FetchUse) (s : State) : State :=
  updThr (.core i) (fun th => { th with
    fbuf := (List.range (8 - th.pc.toNat % 32 / 4)).map (fun j => ⟨th.pc + BitVec.ofNat 64 (4 * j), use⟩)
    waitFetch := false }) s

def waitFetch (i : Fin 640) (s : State) : State := updThr (.core i) (fun th => { th with waitFetch := true }) s

/-- A confirmed fetch: an ordinary read of the line, which the thread waits for where it misses; with IEN clear the L2
serves it (R128, R206). What a peek brought for it is not used any more (R126). -/
def fetchConfirmed (i : Fin 640) (pa : BitVec 48) (s : State) : Fetched :=
  let l := lineOf pa
  let s := readLineBy (countEvent (.core i)) i true false l (sectorOf pa) (releaseShim i (fun e => e.line = l && e.walk.isNone) s)
  let k := core s (i.val / 4)
  if (sectorWay k.l1i l (sectorOf pa)).isSome || (!k.ien && lineState (bay s (i.val / 16)).l2 (l2Set l) l ≠ .I) then
    .got (deliverGroup i none s)
  else .wait (waitFetch i s)

/-- A fetch ahead of confirmation (R126, R127, R135). -/
def fetchAhead (i : Fin 640) (pa : BitVec 48) (s : State) : Fetched :=
  let l := lineOf pa
  let r := specWalk i .fetch (thr s (.core i)).pc s
  if !r.1 then .wait (waitFetch i r.2) else
  match specLine i true l (sectorOf pa) r.2 with
  | .stall s => .wait (waitFetch i s)
  | .ready w e s => .got (deliverGroup i (some ⟨l, pa.getLsbD 5, w, e.isSome⟩) s)

/-- A fetch grant of a core thread; one whose own miss is not answered is not eligible (R114). -/
def fetchGroup (i : Fin 640) (s : State) : Fetched :=
  let t := Thr.core i
  if fetchMissing s i || !fetchTurn s i then .wait (waitFetch i s) else
  let s := countUnconfirmed t 3 (grantFetch i
    (updThr t (fun th => { dropFetched th with evs := th.evs ++ [3] }) s))
  match fetchExc s t with
  | some e => .bad e s
  | none =>
    match translate s t .fetch (thr s t).pc with
    | .fault _ _ => .wait s
    | .ok pa _ _ =>
      if !(thr s t).unconf.isEmpty then fetchAhead i pa s else
      match useXlate i .fetch (thr s t).pc s with
      | .ready s => fetchConfirmed i pa s
      | .wait s => .wait (waitFetch i s)
      | .redo s => .wait (waitFetch i s)

/-- The thread's next instruction stands at the head of its fetch buffer, or is fetched. Once nothing older is in flight,
what its fetch took ahead is confirmed first. -/
def fetchNow (t : Thr) (s : State) : Fetched :=
  match t with
  | .adze _ => match fetchExc s t with | some e => .bad e s | none => .got s
  | .core i =>
    let th := thr s t
    if th.fbuf.head?.map (·.pc) ≠ some th.pc then fetchGroup i s
    else if !th.unconf.isEmpty then .got s
    else
      let r := confirmFetch i s
      if r.1 then .got r.2 else .wait r.2

/-- A J, JL or ERET ends its fetch group: the next grant fetches from where it leads (R115, R132). -/
def endGroup (t : Thr) (s : State) : State := updThr t (fun th => { th with fbuf := th.fbuf.take 1 }) s

/-- The word fetched at the thread's PC. -/
def fetchedWord (s : State) (t : Thr) : Option (BitVec 32) :=
  match translate s t .fetch (thr s t).pc with
  | .ok pa _ _ => some ((wordOf (readBytes s pa.toNat 4)).setWidth 32)
  | .fault _ _ => none

/-- The fetched word spells no row: its opcode or minor code is reserved (R80). -/
def fetchedReserved (s : State) (t : Thr) : Option (BitVec 32) :=
  (fetchedWord s t).filter (fun w => (decodeWord t w).isNone)

/-- What an instruction's own operation comes to. -/
inductive Eff where
  /-- it retires and the next instruction follows -/
  | done (s : State)
  /-- it retires and execution goes on at an address -/
  | jump (pc : Word) (s : State)
  /-- it raises an exception; the state holds the sticky flags it set -/
  | raise (e : Exc) (s : State)
  /-- it does not complete now -/
  | wait (s : State)

/-- An instruction ends: the PC moves and events 0x01 and 0x02 are counted, at once or, behind others in flight, when it
is confirmed and retires; it then holds a reorder entry (R112, R123, R479, R480). Alone, it leaves no shim entry behind
(R126). `th0` is the thread before it. -/
def retireTo (t : Thr) (pc : Word) (th0 : Thread) (s : State) : State :=
  let s := countUnconfirmed t 2 s
  let th := thr s t
  match th.unconf.getLast? with
  | none =>
    let s := match t with | .core i => releaseShim i (fun _ => true) s | .adze _ => s
    let s := forEach th.evs (countHeld t) (updThr t (fun th => stepPc pc { th with evs := [], waitRoom := false }) s)
    countConfirmed t 2 1 (countMany t 1 1 s)
  | some u =>
    if th0.nextSeq ≤ u.seq then updThr t (stepPc pc) s
    else
      let v : UOp := { seq := th.nextSeq, pc := th.pc, conf := false, fetch := fetchOf th, va := 0, sz := 0, br := none
                       push := none, pop := false, ld := none, st := none, evs := th.evs, snap := snapOf th0 }
      updThr t (fun th => stepPc pc { th with
        unconf := th.unconf ++ [v], nextSeq := th.nextSeq + 1, evs := [], waitRoom := false }) s

/-- The confirmed walk behind a page fault reads the tables with ordinary reads first (R143). -/
def faultWaits (t : Thr) (e : Exc) (s : State) : Option State :=
  match t with
  | .adze _ => none
  | .core i =>
    if 4 ≤ e.code && e.code ≤ 6 && !(walkMisses s i e.eaddr).isEmpty then some (askWalk i e.eaddr s) else none

/-- The line of a poisoned fetch leaves the L1 instruction cache when its POISON is raised (R216). -/
def dropFetchLine (t : Thr) (e : Exc) (s : State) : State :=
  match t with
  | .adze _ => s
  | .core i => if e.code = 15 && e.einfo = 0x500 then l1iDrop (i.val / 4) (lineOf (e.eaddr.setWidth 48)) s else s

/-- An exception is raised: the instruction becomes the oldest, a pending interrupt goes first (R103, R110). `s` holds the
sticky flags and events of the operation, which take effect only then; `s0` is the state before it (R124). -/
def raiseExc (t : Thr) (e : Exc) (s0 s : State) : State :=
  let r := makeOldest t (if irqTakes (thr s0 t) then s0 else s)
  if !r.1 then (makeOldest t s0).2
  else if irqTakes (thr r.2 t) then enterInterrupt t r.2
  else match faultWaits t e r.2 with
    | some s => s
    | none =>
      let s := forEach (thr r.2 t).evs (countHeld t) r.2
      enterException t e (dropFetchLine t e s)

/-- What an instruction's checks need to know (R80, R74, R102, R111). -/
structure Check where
  word : BitVec 32
  /-- no reserved code and no unused field set (R80) -/
  legal : Bool
  /-- absent from adze engines (R111) -/
  coreOnly : Bool
  /-- privilege it needs -/
  need : Priv
  /-- executes only as the oldest instruction (R124) -/
  oldest : Bool
  /-- registers whose poison raises POISON: an f register, its number, the use code, X_ECAUSE.ACC (R102, R104) -/
  uses : List (Bool × BitVec 5 × Nat × BitVec 2)

/-- A check that asks for nothing but a legal word. -/
def plainCheck (word : BitVec 32) (legal : Bool) : Check := ⟨word, legal, false, .U, false, []⟩

/-- The POISON exception of a register in a use (R102, R104). -/
def poisonExc (isF : Bool) (r : BitVec 5) (use : Nat) (acc : BitVec 2) : Exc :=
  ⟨15, 0, at' r 0 ||| atB isF 5 ||| at' (BitVec.ofNat 3 use) 8, acc, false, 0⟩

/-- The first exception of R108 that the checks before the operation raise; of several poisoned registers the first of the
uses is named. DESIGN CHOICE (log entry 115). -/
def checkExc (th : Thread) (t : Thr) (k : Check) : Option Exc :=
  if !k.legal then some (excPlain 1 0 (k.word.setWidth 64))
  else if k.coreOnly && isAdze t then some (excPlain 2 0 (k.word.setWidth 64))
  else if !privGe th.tstat.priv k.need then some (excPlain 3 0 (k.word.setWidth 64))
  else match k.uses.find? (fun u => if u.1 then (readF th u.2.1).poison else (readG th u.2.1).poison) with
    | some u => some (poisonExc u.1 u.2.1 u.2.2.1 u.2.2.2)
    | none => none

/-- An adze thread stays in its instruction, in a wait that no interrupt ends unless it is marked abandonable (R273). -/
def holdAdze (t : Thr) (s : State) : State :=
  match t with
  | .core _ => s
  | .adze _ => updThr t (fun th => { th with held := if th.run = .running && th.held = .ready then .other else th.held }) s

/-- What an instruction's own operation leads to, once its checks have passed. `s0` is the state before it: where the
interrupt is pending there, it goes before the exception and no flag of the instruction stays set (R110). -/
def finish (t : Thr) (s0 : State) : Eff → State
  | .done s => retireTo t ((thr s0 t).pc + 4) (thr s0 t) s
  | .jump p s => retireTo t p (thr s0 t) s
  | .raise e s => raiseExc t e s0 s
  | .wait s => holdAdze t s

/-- One instruction of thread `t`: nothing while the thread does not execute; otherwise the fetch, the checks in the
order of R108, the operation, and retirement or the exception. A fetched word that spells no row raises ILLEGAL (R80).
DESIGN CHOICE (log entry 7). DESIGN CHOICE (log entry 9). -/
def runInstr (t : Thr) (k : Check) (body : Thread → State → Eff) (s : State) : State :=
  if !canExec s t then s else
  match fetchNow t s with
  | .wait s => s
  | .bad e s => raiseExc t e s s
  | .got s =>
    match (match fetchedReserved s t with
      | some w => some (excPlain 1 0 (w.setWidth 64))
      | none => checkExc (thr s t) t k) with
    | some e => raiseExc t e s s
    | none =>
      let r := if k.oldest then makeOldest t s else (true, s)
      if !r.1 then r.2 else finish t r.2 (body (thr r.2 t) r.2)

/-! ## Instruction words (R79, R81) -/

def wordA (op : Nat) (f : FmtA) (minor : Nat) : BitVec 32 :=
  BitVec.ofNat 6 op ++ f.gd ++ f.gs1 ++ f.gs2 ++ BitVec.ofNat 11 minor
def wordB (op : Nat) (f : FmtB) : BitVec 32 := BitVec.ofNat 6 op ++ f.gd ++ f.gs1 ++ f.imm
def wordC (op : Nat) (f : FmtC) (minor : Nat) : BitVec 32 :=
  BitVec.ofNat 6 op ++ f.gt ++ f.gb ++ BitVec.ofNat 4 minor ++ f.off
def wordD (op : Nat) (f : FmtD) : BitVec 32 := BitVec.ofNat 6 op ++ f.gs1 ++ f.gs2 ++ f.off
def wordE (op : Nat) (f : FmtE) : BitVec 32 := BitVec.ofNat 6 op ++ f.off
def wordF (op : Nat) (f : FmtF) (minor : Nat) : BitVec 32 :=
  BitVec.ofNat 6 op ++ f.gd ++ f.gs1 ++ f.imm ++ BitVec.ofNat 4 minor

end Sys2Proof.Machine
end

