-- ==== Sys2Proof/Machine/Access.lean ====
section
/-! DEFINITION. Accesses that a thread has released: how a returning value completes one (R94, R169), lost stores and
their log (R179 to R184), lost loads (R180), and the atomic operations where they are performed (R173 to R177). -/
namespace Sys2Proof.Machine

def outAccess (s : State) (t : Thr) (id : Nat) : Option Access := (thr s t).outst.find? (fun a => a.id = id)

def removeOut (t : Thr) (id : Nat) (s : State) : State :=
  updThr t (fun th => { th with outst := removeFirst (fun a => a.id = id) th.outst }) s

/-! ## Values -/

/-- Write a returning value of `size` bytes to its register (R94). -/
def writeDest (d : Dest) (size : Nat) (v : Word) (poison : Bool) (th : Thread) : Thread :=
  let z := v &&& BitVec.ofNat 64 (2 ^ (8 * size) - 1)
  if d.isF then writeF d.reg ⟨z, poison, d.single⟩ th
  else writeG d.reg ⟨if d.signed then sextN (8 * size) v else z, poison⟩ th

/-- An access that its thread awaits has its value: the last piece writes the register, and the instruction retires.
An access whose instruction was squashed only leaves. For a load `data` holds the size of the whole access.
DEDUCED (log entry 81). -/
def valueDone (t : Thr) (id : Nat) (v : Word) (poison : Bool) (s : State) : State :=
  match outAccess s t id with
  | none => s
  | some a =>
    let s := removeOut t id s
    let poison := poison || (if a.kind = .load then a.poison else a.tagged)
    let keep := v &&& BitVec.ofNat 64 (2 ^ (8 * a.size) - 1)
    match (thr s t).outst.find? (fun b => b.seq = a.seq && b.split) with
    | some b =>
      let give := fun (x : Access) => { x with part := keep, poison := poison }
      let awaitIt := fun (r : Run) => match r with | .awaiting i => if i = id then .awaiting b.id else r | r => r
      updThr t (fun th => { th with
        outst := editFirst (fun x => x.id = b.id) give th.outst
        run := awaitIt th.run }) s
    | none =>
      let whole := if a.split then a.data.toNat else a.size
      let v := if !a.split then v
        else if a.piece then a.part ||| (keep <<< (8 * (whole - a.size)))
        else keep ||| (a.part <<< (8 * a.size))
      match a.dest with
      | none => s
      | some d =>
        let other := isAdze t || a.kind ≠ .load || a.resv
        let s := updThr t (fun th => { writeDest d whole v poison (if other then th else countOldest th) with run := .running }) s
        retireTo t ((thr s t).pc + 4) (thr s t) s

/-! ## Lost accesses (R179 to R184) -/

def causeCode : LostCause → BitVec 4
  | .timeout => 1
  | .targetDown => 2
  | .ridgeUnreachable => 3
  | .writeFailed => 4
  | .deviceError => 5

/-- KIND of R183. -/
def kindCode : AccKind → BitVec 3
  | .store => 0
  | .stcnd => 1
  | .faa => 2
  | .cas => 3
  | .czero => 4
  | .cclean => 5
  | .cinv => 6
  | .iinv => 7
  | .load => 0

/-- Ring of a thread's lost-store log: first byte and length; bits of BASE below 6 + SIZE count as 0 (R188). -/
def logRing (th : Thread) : Nat × Nat :=
  let n := 6 + th.logSize.toNat
  (clearBelow n (th.logBase.toNat * 4096), 2 ^ n)

/-- The ring lies in DRAM of the thread's partition (R184). -/
def logRingOk (s : State) (t : Thr) : Bool :=
  let r := logRing (thr s t)
  let p := partOf s t
  (List.range (r.2 / 2 ^ 30 + 1)).all (fun i => ownDram s p (BitVec.ofNat 48 (r.1 + i * 2 ^ 30)))
    && ownDram s p (BitVec.ofNat 48 (r.1 + r.2 - 1))

/-- Another thread's ring overlaps this one, so that the contents of both are unpredictable (R184). -/
def logRingShared (s : State) (t : Thr) : Bool :=
  let r := logRing (thr s t)
  s.thr.any (fun e => decide (e.1 ≠ thrKey t) && e.2.logEn &&
    (let q := logRing e.2; decide (q.1 < r.1 + r.2) && decide (r.1 < q.1 + q.2)))

/-- A whole-line operation: DATA of its entry is 0, and nothing states its SIZE (R183). -/
def lostWhole (a : Access) : Bool :=
  match a.kind with
  | .czero => true
  | .cclean => true
  | .cinv => true
  | .iinv => true
  | _ => false

/-- SIZE of an entry (R183); for a whole-line operation a free value within the field's bounds 1 to 8.
DESIGN CHOICE (log entry 28). -/
def lostSize (a : Access) (s : State) : BitVec 4 :=
  BitVec.ofNat 4 (if lostWhole a then (Config.freeByte s.fresh).toNat % 8 + 1 else a.size)

/-- The 64 bytes of an entry (R183). DESIGN CHOICE (log entry 28). -/
def lostEntry (a : Access) (size : BitVec 4) (cause : LostCause) (seq : BitVec 32) (now : Word) : List Byte :=
  let w0 := at' a.pa 0 ||| at' size 48 ||| at' (causeCode cause) 52 ||| at' (kindCode a.kind) 56
    ||| atB a.piece 59 ||| atB a.split 60
  let data := if lostWhole a then 0 else a.data &&& BitVec.ofNat 64 (2 ^ (8 * a.size) - 1)
  bytesOf 8 w0 ++ bytesOf 8 data ++ bytesOf 8 a.va ++ bytesOf 8 a.tRel ++ bytesOf 8 now ++ bytesOf 8 (seq.setWidth 64)
    ++ bytesOf 8 0 ++ bytesOf 8 0

/-- A store completed with error: logged, in DRAM itself, and counted (R182, R184). -/
def lostStore (t : Thr) (a : Access) (cause : LostCause) (s : State) : State :=
  let th := thr s t
  let r := logRing th
  let seq := th.logHead
  let addr := r.1 + (seq.toNat % 2 ^ th.logSize.toNat) * 64
  let free := (th.logHead - th.logTail).toNat < 2 ^ th.logSize.toNat
  let may := th.logEn && free && logRingOk s t
  let line := lineOf (BitVec.ofNat 48 addr)
  let fails := may && !lineServed s line
  let drop := fun (b : Bool) (s : State) =>
    if b then updThr t (fun th => { th with dropped := satInc th.dropped, logFail := th.logFail || fails }) s else s
  let s :=
    if may && !fails then
      if logRingShared s t then
        let bs := (List.range 64).map (fun i => Config.freeByte (s.fresh + i))
        cleanLine line (hubWrite (BitVec.ofNat 48 addr) bs false { s with fresh := s.fresh + 64 })
      else cleanLine line (hubWrite (BitVec.ofNat 48 addr) (lostEntry a (lostSize a s) cause seq s.time.now) false
        (if lostWhole a then { s with fresh := s.fresh + 1 } else s))
    else drop true s
  let s := updThr t (fun th => { th with
    logHead := th.logHead + 1
    logFirst := if th.lostPending = 0 then seq else th.logFirst
    lostPending := satInc th.lostPending }) s
  countEvent t 0x13 s

/-- An access ends with error (R179 to R181): a load returns a poisoned 0; anything else is a lost store, and the
destination of an atomic receives a poisoned 0, with 1 for STCND, which loses its reservation (R174).
DEDUCED (log entry 81). -/
def accessLost (t : Thr) (a : Access) (cause : LostCause) (s : State) : State :=
  match a.kind with
  | .load =>
    let s := countEvent t 0x14 (updThr t (fun th => { th with loadLost := satInc th.loadLost }) s)
    valueDone t a.id 0 true s
  | k =>
    let s := lostStore t a cause s
    if k = .faa || k = .cas then valueDone t a.id 0 true s
    else if k = .stcnd then valueDone t a.id 1 true (loseResv t s)
    else removeOut t a.id s

/-! ## Atomic operations where they are performed (R173 to R177) -/

/-- The value of `size` bytes at an address, as it would be loaded by an atomic or reservation. -/
def atomVal (s : State) (pa : BitVec 48) (dbl : Bool) : Word :=
  if dbl then readWord s pa.toNat else sextN 32 (wordOf (readBytes s pa.toNat 4))

/-- FAA and CAS: the old value, and the state with the store made (R95, R177). `a` is gs2 of FAA or the expected
value of CAS, `b` the value CAS stores. -/
def atomDo (t : Thr) (op : AtomOp) (pa : BitVec 48) (dbl : Bool) (a b : Word) (poison : Bool) (s : State) :
    Word × Bool × State :=
  let old := atomVal s pa dbl
  let wasP := isPoisoned s (lineOf pa)
  let n := if dbl then 8 else 4
  match op with
  | .faa => (old, wasP, storeBytes (some t) pa (bytesOf n (old + a)) poison s)
  | .cas =>
    let eq := if dbl then old = a else old.setWidth 32 = a.setWidth 32
    (old, wasP, if eq then storeBytes (some t) pa (bytesOf n b) poison s else s)
  | _ => (old, wasP, s)

/-- A reservation is held and covers the address (R175). -/
def resvHolds (s : State) (t : Thr) (pa : BitVec 48) : Bool :=
  match (thr s t).resv with
  | some r => r.granule = granuleOf pa
  | none => false

/-- Where a monitor of R173 stands. -/
inductive MonAt where
  | bay (b : Nat)
  | engine (e : Nat)
  | slice (h : Nat)
deriving DecidableEq, Repr

def monAt (s : State) : MonAt → List MonE
  | .bay b => (bay s b).mon
  | .engine e => (engine s e).mon
  | .slice h => (slice s h).mon

def setMon (m : MonAt) (l : List MonE) (s : State) : State :=
  match m with
  | .bay b => updBay b (fun y => { y with mon := l }) s
  | .engine e => updEngine e (fun x => { x with mon := l }) s
  | .slice h => updSlice h (fun x => { x with mon := l }) s

/-- The thread belongs to the monitor's own unit, or to the home's partition (R173, R192). -/
def monOwn (m : MonAt) (t : Thr) : Bool :=
  match m, t with
  | .bay b, .core i => i.val / 16 = b
  | .engine e, .adze j => j.val / 8 = e
  | .slice _, .adze _ => true
  | _, _ => false

/-- A thread's entry leaves one monitor. -/
def monDrop (m : MonAt) (t : Thr) (s : State) : State := setMon m ((monAt s m).filter (fun e => e.thr ≠ t)) s

/-- STCND: stores only while the reservation holds and covers the address; the reservation goes in either case, with the
entry of the monitor that the STCND reaches (R173). The first value is gd (R95, R175). -/
def stcndDo (t : Thr) (m : Option MonAt) (pa : BitVec 48) (dbl : Bool) (v : Word) (poison : Bool) (s : State) :
    Word × State :=
  let ok := resvHolds s t pa
  let s := loseResv t s
  let s := match m with | some m => monDrop m t s | none => s
  if ok then (0, storeBytes (some t) pa (bytesOf (if dbl then 8 else 4) v) poison s) else (1, s)

/-- LDRES takes a monitor entry: the one it has there already, else an entry of its own, or one of the 24 shared; with none
free the reservation is not held (R173). -/
def monTake (m : MonAt) (t : Thr) (pa : BitVec 48) (dbl : Bool) (s : State) : State :=
  let s := monDrop m t (loseResv t s)
  let own := monOwn m t
  let l := monAt s m
  if !own && 24 ≤ (l.filter (fun e => e.shared)).length then s else
    let e : MonE := { thr := t, granule := granuleOf pa, gen := (srcEnt s (srcOfThr t)).gen, shared := !own }
    updThr t (fun th => { th with resv := some ⟨granuleOf pa, dbl, pa⟩ }) (setMon m (l ++ [e]) s)

end Sys2Proof.Machine
end

