-- ==== Sys2Proof/Machine/Coherence.lean ====
section
/-! DEFINITION. The coherence protocol: source checks (R247 to R249), the home with its directory (R220 to R236), the
bay agent, adze and hub accesses (R237), and timeouts (R240). -/
namespace Sys2Proof.Machine

/-! ## Source checks -/

/-- Partition of an agent; hub agents belong to none. -/
def partOfAgent (s : State) : Agent → Option Nat
  | .bay i => partOfBay s i.val
  | .home i => partOfBay s i.val
  | .engine i => partOfEngine s i.val
  | .hub _ => none

/-- A receiver as the error log encodes it (R433). -/
def recvCode : Agent → Word
  | .bay i => at' (BitVec.ofNat 12 i.val) 0 ||| at' (1 : BitVec 4) 12
  | .home i => at' (BitVec.ofNat 12 i.val) 0 ||| at' (2 : BitVec 4) 12
  | .engine i => at' (BitVec.ofNat 12 i.val) 0 ||| at' (3 : BitVec 4) 12
  | .hub i => at' (BitVec.ofNat 12 i.val) 0 ||| at' (4 : BitVec 4) 12

/-- What the checks of R241, R242 and R249 make of a source at a receiver. -/
inductive SrcCheck where
  | good | stale | down | stray
deriving DecidableEq, Repr

/-- DESIGN CHOICE (log entry 40). -/
def checkSrc (s : State) (x : Src) (gen : BitVec 16) (site : BitVec 7) (dst : Option Nat) : SrcCheck :=
  let e := srcEnt s x
  if e.gen ≠ gen || siteOf s x ≠ site then .stale
  else if !e.isOpen then .down
  else if dst.isSome && partOfSrc s x ≠ dst then .stray
  else .good

/-- A stale discard: counted, and logged with both generations (R249). -/
def staleDiscard (x : Src) (gen : BitVec 16) (site : BitVec 7) (recv : Word) (s : State) : State :=
  wrightEvent 3 (unitCode x site ||| at' gen 32 ||| at' (srcEnt s x).gen 48) recv { s with stale := satInc s.stale }

/-- A message of a source marked DOWN is discarded as stale (R249). -/
def downDiscard (x : Src) (gen : BitVec 16) (site : BitVec 7) (recv : Word) (s : State) : State :=
  wrightEvent 3 (unitCode x site ||| at' gen 32 ||| at' (srcEnt s x).gen 48) recv { s with downDrop := satInc s.downDrop }

/-- A message of a wrong partition's source (R241). DESIGN CHOICE (log entry 53). -/
def strayDiscard (x : Src) (site : BitVec 7) (recv : Word) (s : State) : State :=
  wrightEvent 4 (unitCode x site) recv { s with stray := satInc s.stray }

/-- The compute die of an agent; hub agents stand on the hub die. -/
def dieOfAgent : Agent → Nat
  | .bay i => dieOfBay i.val
  | .home i => dieOfBay i.val
  | .engine i => dieOfEngine i.val
  | .hub _ => 4

/-- The message carries an old generation of the source it is addressed to (R249). -/
def staleTarget (s : State) (m : CMsg) : Option Src :=
  (match m.dst with | .home _ => none | a => srcOfReceiver a).filter (fun x => (srcEnt s x).gen ≠ m.dgen)

/-- A message is delivered: it leaves the mesh, and acts only if the checks at its receiver pass. While the receiver's die
is stalled it waits (R65). DESIGN CHOICE (log entry 5). DESIGN CHOICE (log entry 40). -/
def deliver (k : CKind) (m : CMsg) (act : State → State) (s : State) : Result :=
  if (die s (dieOfAgent m.dst)).stalled then .next s else
  let s := { s with net := removeFirst (fun e => e.1 = k && e.2 = m) s.net }
  let toDown : Bool := match srcOfReceiver m.dst with | some y => !(srcEnt s y).isOpen | none => false
  let good := if toDown then { s with downDrop := satInc s.downDrop }
    else match staleTarget s m with
      | some y => staleDiscard y m.dgen (siteOf s y) (recvCode m.dst) s
      | none => act s
  match srcOfAgent m.src with
  | none => .next good
  | some x =>
    match checkSrc s x m.gen m.site (partOfAgent s m.dst) with
    | .stale => .next (staleDiscard x m.gen m.site (recvCode m.dst) s)
    | .stray => .next (strayDiscard x m.site (recvCode m.dst) s)
    | .down => .next (downDiscard x m.gen m.site (recvCode m.dst) s)
    | .good => .next good

/-- PROTOCOL: a message the receiver's state does not allow (R239). -/
def protocol (a : Agent) (s : State) : State :=
  match partOfAgent s a with
  | none => s
  | some p =>
    let det : BitVec 6 := match a with
      | .bay i => BitVec.ofNat 6 i.val
      | .home i => BitVec.ofNat 6 i.val
      | .engine _ => 0x3F
      | .hub _ => 0x3F
    reportCoherence p 1 det none s

/-! ## Errors of the cache arrays (R213) -/

/-- Partition DOWN for an error of the arrays of bay `b`, with the unit that the cause names (R244). -/
def arrayDown (b : Nat) (code : BitVec 8) (unit : Option Src) (s : State) : State :=
  match partOfBay s b with
  | some p => reportCoherence p code (BitVec.ofNat 6 b) unit s
  | none => s

/-- A line with two bad bits: poisoned in place and logged, a line already poisoned too. A clean copy among others is
poisoned alone, by `spoil` (R213, R215). -/
def poisonFound (l : BitVec 42) (clean : Bool) (spoil : State → State) (s : State) : State :=
  if isPoisoned s l then wrightEvent 5 (at' (lineAddr l) 0) (lineWhere s l) s
  else if !clean then poisonLine l (lineWhere s l) s
  else
    let s := wrightEvent 5 (at' (lineAddr l) 0) (lineWhere s l) (spoil s)
    match partOfLine s l with
    | some p => partEvent p 8 0 (at' (lineAddr l) 0) s
    | none => s

/-- The core of a bay whose L1 an error concerns: the one that reads, or the lowest that holds the line.
DEDUCED (log entry 102). -/
def errorCore (s : State) (b : Nat) (reader : Option Nat) (instr : Bool) (l : BitVec 42) : Option Nat :=
  match reader with
  | some c => if (findWay (l1Table (core s c) instr) (l1Set l) l).isSome then some c else none
  | none => (List.range 4).map (fun i => 4 * b + i) |>.find? (fun c => (findWay (l1Table (core s c) instr) (l1Set l) l).isSome)

/-- A sector of an L1 line becomes invalid (R194, R214). -/
def loseSector (c : Nat) (instr : Bool) (l : BitVec 42) (upper : Bool) (s : State) : State :=
  updCore c (fun k =>
    let t := l1Table k instr
    match findWay t (l1Set l) l with
    | some w => setL1Table instr (edit CLine.reset (fun x => { x with sv := setBit x.sv (bnat upper) false }) t w) k
    | none => k) s

/-- The line whose copy in the arrays a read meets: the line itself, as L2-as-memory, or the victim that a fill for it would
choose. DEDUCED (log entry 102). -/
def foundLine (t : Tbl CLine) (set n : Nat) (l : BitVec 42) : BitVec 42 :=
  if (findWay t set l).isSome || !isDramLine l then l else
  let v := victimWay n 4 t set
  let x := look CLine.reset v.2 v.1
  if x.st = .I then l else x.line

/-- The core and line of an L1 array whose read finds an error: the line read, its L1 copy where the L2 evicts it, or the
victim of the L1 fill that the line's data makes. DEDUCED (log entry 102). -/
def errorL1 (s : State) (b : Nat) (reader : Option Nat) (instr : Bool) (l inL2 : BitVec 42) : Option (Nat × BitVec 42) :=
  match errorCore s b reader instr l, errorCore s b reader instr inL2 with
  | some c, _ => some (c, l)
  | none, some c => some (c, inL2)
  | none, none =>
    let asked : Option CReq := (bay s b).reqs.find? (fun (r : CReq) => r.line = l)
    let filler : Option Nat := match reader with
      | some c => some c
      | none => asked.bind (fun r => r.core.map (fun (c : Fin 160) => c.val))
    filler.bind (fun c =>
      let v := foundLine (l1Table (core s c) instr) (l1Set l) 16 l
      if v = l then none else some (c, v))

/-- A confirmed read of bay `b`'s arrays, or of its LLC slice, for a line finds an error: the count and the action of
R213. The flag says that the partition goes DOWN. -/
def cacheFinds (b : Nat) (reader : Option Nat) (l : BitVec 42) (found : CacheFind) (s : State) : Bool × State :=
  let y := bay s b
  let inL2 := foundLine y.l2 (l2Set l) (l2Ways y) l
  let inLlc := foundLine (slice s b).llc (llcSet l) 16 l
  let unit : Option Src := if h : b < 40 then some (.bay ⟨b, h⟩) else none
  let par := fun (s : State) => updBay b (fun y => { y with l1Par := satInc y.l1Par }) s
  match found with
  | .clean => (false, s)
  | .l1i sector =>
    match errorL1 s b reader true l inL2 with
    | none => (false, s)
    | some (c, x) =>
      match sector with
      | some h => (false, loseSector c true x h (par s))
      | none => (false, l1iDrop c x (par s))
  | .l1d sector =>
    match errorL1 s b reader false l inL2 with
    | none => (false, s)
    | some (c, x) =>
      let d := match findWay (core s c).l1d (l1Set x) x with
        | some w => (look CLine.reset (core s c).l1d w).sd
        | none => 0
      let dirty := match sector with | some h => d.getLsbD (bnat h) | none => d ≠ 0
      if dirty then (true, arrayDown b 4 (if h : c < 160 then some (.core ⟨c, h⟩) else none) (par s))
      else match sector with
        | some h => (false, loseSector c false x h (par s))
        | none => (false, l1dDrop c x (par s))
  | .shimParity => (false, par s)
  | .l2Single => (false, updBay b (fun y => { y with l2Ce := satInc y.l2Ce }) s)
  | .l2Double =>
    let clean := lineState y.l2 (l2Set inL2) inL2 = .S || lineState y.l2 (l2Set inL2) inL2 = .E
    let spoil := updBay b (fun y => { y with l2 := spoilCopy y.l2 (l2Set inL2) inL2 })
    (false, poisonFound inL2 clean spoil (updBay b (fun y => { y with l2Ue := satInc y.l2Ue }) s))
  | .l2Tag => (true, arrayDown b 5 unit (updBay b (fun y => { y with l2Ue := satInc y.l2Ue }) s))
  | .llcSingle => (false, updBay b (fun y => { y with llcCe := satInc y.llcCe }) s)
  | .llcDouble =>
    let clean := lineState (slice s b).llc (llcSet inLlc) inLlc = .S
    let spoil := updSlice b (fun x => { x with llc := spoilCopy x.llc (llcSet inLlc) inLlc })
    (false, poisonFound inLlc clean spoil (updBay b (fun y => { y with llcUe := satInc y.llcUe }) s))
  | .llcTag => (true, arrayDown b 5 unit (updBay b (fun y => { y with llcUe := satInc y.llcUe }) s))

/-- A message at a bay or home reads the arrays there; then it acts, unless the partition went DOWN. -/
def withFind (m : CMsg) (found : CacheFind) (act : State → State) (s : State) : State :=
  let at? : Option Nat := match m.dst with | .bay i => some i.val | .home i => some i.val | _ => none
  match at? with
  | none => act s
  | some b => let r := cacheFinds b none m.line found s; if r.1 then r.2 else act r.2

/-! ## Directory -/

def isBusy : DirSt → Bool
  | .BS => true
  | .BX => true
  | .BW => true
  | .BE => true
  | _ => false

def dirAt (s : State) (h key : Nat) : DirE := look DirE.reset (slice s h).dir key

def dirFind (s : State) (h : Nat) (l : BitVec 42) : Option Nat :=
  (wayKeys (llcSet l) 16).find? (fun k => (dirAt s h k).st ≠ .I && (dirAt s h k).line = l)

def updDir (h key : Nat) (f : DirE → DirE) (s : State) : State :=
  updSlice h (fun x => { x with dir := edit DirE.reset f x.dir key }) s

/-- A way taken for a line, with the mark of a queued reservation that names it (R221, R230). -/
def takeWay (h key : Nat) (l : BitVec 42) (s : State) : State :=
  updDir h key (fun _ => { DirE.reset with
    line := l, since := s.time.now, rsvq := (slice s h).rsv.any (fun e => e.2.line = l) }) s

/-- Bit of a bay in a 40-bit map. -/
def bayBit (b : Nat) : BitVec 40 := setBit 0 b true

/-- An agent's bay number, 63 for none. -/
def bayNum : Agent → Nat
  | .bay i => i.val
  | _ => 63

/-- Requests that need a directory entry. -/
def needsEntry : ReqKind → Bool
  | .rdS => true
  | .rdX => true
  | .upg => true
  | .rdZ => true
  | _ => false

/-- Place of a requester in reservation queues (R230). -/
def placeKey (s : State) : Agent → Nat
  | .bay i => i.val
  | .engine e => if (engine s e.val).onSpare then 100 + e.val / 16 else 200 + e.val / 4
  | .hub i => 300 + i.val
  | .home i => 400 + i.val

def homeMsg (s : State) (h : Fin 40) (dst : Agent) (m : CMsg) : CMsg :=
  { mkMsg s (.home h) dst m.line with coll := m.src, tag := m.tag, nt := m.nt }

/-- A forward to each bay of a map. -/
def forwardAll (h : Fin 40) (k : CKind) (bays : BitVec 40) (coll : Agent) (m : CMsg) (s : State) : State :=
  forEach (List.finRange 40) (fun b acc =>
    if bays.getLsbD b.val then send k { homeMsg acc h (.bay b) m with coll := coll } acc else acc) s

/-- GRANT, with the bays whose ACK_INV it announces. -/
def grant (h : Fin 40) (m : CMsg) (acks : BitVec 40) (s : State) : State :=
  send .grant { homeMsg s h m.src m with count := BitVec.ofNat 8 (popcount acks), mask := acks.setWidth 64 } s

/-- The home answers with the line's data and announces the acknowledgements to come; a read allocates it in the slice
(R191). -/
def homeData (h : Fin 40) (m : CMsg) (excl : Bool) (acks : BitVec 40) (s : State) : State :=
  let s := llcFill h.val m.line false m.nt s
  send .dH { homeMsg s h m.src m with
    excl := excl, count := BitVec.ofNat 8 (popcount acks), mask := acks.setWidth 64
    data := lineData s m.line, poison := homePoison s m.line } s

/-- The slice's copy of a line is clean, or gone. -/
def llcClean (h : Nat) (l : BitVec 42) (s : State) : State :=
  updSlice h (fun x => { x with llc := match findWay x.llc (llcSet l) l with
    | some k => edit CLine.reset (fun w => { w with st := .S, sd := 0 }) x.llc k
    | none => x.llc }) s

def llcDrop (h : Nat) (l : BitVec 42) (s : State) : State :=
  updSlice h (fun x => { x with llc := setLineState x.llc (llcSet l) l .I }) s

/-- A grant of exclusive use of either line of a granule clears the adze reservations on it at its homes (R174, R237). -/
def clearHomeMon (h : Nat) (l : BitVec 42) (s : State) : State :=
  let homes := (h :: ([0, 1].filterMap (fun n => homeAgent s (BitVec.ofNat 42 (2 * (l.toNat / 2) + n)))).map (·.val)).dedup
  let l := homes.flatMap (fun x => (slice s x).mon.filter (fun e => e.granule = granuleOfLine l))
  forEach l (fun e acc => loseResvAt e.thr e.granule acc) s

/-! ## Accesses of adze engines and hub agents (R237) -/

/-- Operation, address and operands of an HATM, as the message carries them. DESIGN CHOICE (log entry 38). -/
def packAtom (t : Fin 512) (op : AtomOp) (pa : BitVec 48) (dbl : Bool) (a b : Word) : BitVec 512 :=
  let o : Nat := match op with | .ldres => 0 | .stcnd => 1 | .faa => 2 | .cas => 3 | .lda => 4
  BitVec.ofNat 512 (a.toNat + b.toNat * 2 ^ 64 + pa.toNat * 2 ^ 128 + t.val * 2 ^ 176 + o * 2 ^ 186 + bnat dbl * 2 ^ 189)

def atomOpOf (v : BitVec 3) : AtomOp :=
  if v = 0 then .ldres else if v = 1 then .stcnd else if v = 2 then .faa else if v = 3 then .cas else .lda

/-- Write the bytes of a line that a mask selects (R215, R227). -/
def storeMasked (who : Option Thr) (l : BitVec 42) (data : BitVec 512) (mask : BitVec 64) (poison : Bool) (s : State) :
    State :=
  if mask = BitVec.allOnes 64 then storeBytes who (lineAddr l) (bytesOfNat 64 data.toNat) poison s
  else
    let s := dirtyLine l s
    let s := forEach (bitsOf mask) (fun i acc => writeBytes (l.toNat * 64 + i) [data.extractLsb' (8 * i) 8] acc) s
    let s := if poison then poisonLine l (lineWhere s l) s else s
    loseResvOn who (granuleOfLine l) s

/-- An engine's outstanding request that a message carries or answers. -/
def ereqOf (s : State) (a : Agent) (tag : BitVec 16) (l : BitVec 42) : Option EReq :=
  s.ereqs.find? (fun e => e.msg.src = a && e.msg.line = l && e.msg.tag = tag && !e.backoff)

/-- HRD, HWR or HATM performed at the slice, and answered. -/
def performHub (h : Fin 40) (k : ReqKind) (m : CMsg) (s : State) : State :=
  let who := (ereqOf s m.src m.tag m.line).map (fun e => Thr.adze e.thr)
  match k with
  | .hwr =>
    let s := storeMasked who m.line m.data m.mask m.poison s
    grant h m 0 (llcFill h.val m.line true m.nt s)
  | .hatm =>
    let f := fun (lo n : Nat) => m.data.extractLsb' lo n
    let a : Word := f 0 64
    let b : Word := f 64 64
    let pa : BitVec 48 := f 128 48
    let dbl := m.data.getLsbD 189
    let j := (f 176 9).toNat
    let t : Thr := if hj : j < 512 then .adze ⟨j, hj⟩ else .adze 0
    let r : Word × Bool × State := match atomOpOf (m.data.extractLsb' 186 3) with
      | .ldres => (atomVal s pa dbl, isPoisoned s m.line, monTake (.slice h.val) t pa dbl s)
      | .stcnd => let q := stcndDo t (some (.slice h.val)) pa dbl a m.poison s; (q.1, false, q.2)
      | op => atomDo t op pa dbl a b m.poison s
    let s := llcFill h.val m.line (isDirty r.2.2 m.line) false r.2.2
    send .dH { homeMsg s h m.src m with data := r.1.setWidth 512, poison := r.2.1 } s
  | _ => homeData h m false 0 s

/-! ## Transactions of the home -/

/-- A request begins at its entry, which is stable (R223, R227, R237). -/
def beginTx (h : Fin 40) (key : Nat) (k : ReqKind) (m : CMsg) (s : State) : State :=
  let d := dirAt s h.val key
  let me := bayNum m.src
  let isX := d.st = .X
  let others := d.sharers &&& ~~~(bayBit me)
  let home : Agent := .home h
  let ownBit := bayBit d.owner.toNat
  let busy := fun (st : DirSt) (sh aw fw : BitVec 40) (s : State) => updDir h.val key (fun e => { e with
    st := st, owner := BitVec.ofNat 6 me, req := some (k, m), fromX := isX, sharers := sh, awaits := aw, fwd := fw, gone := 0
    since := s.time.now }) s
  let alone := fun (s : State) => if d.sharers = 0 then updDir h.val key (fun _ => DirE.reset) s else s
  let excl := fun (data : Bool) (s : State) =>
    let s := forwardAll h .fInv others m.src m (busy .BX 0 0 0 s)
    if data then homeData h m true others s else grant h m others s
  match k with
  | .rdS =>
    if isX then
      let owes := updSlice h.val (fun y => { y with late := (d.owner.toNat, m.line) :: y.late.filter (fun e => e ≠ (d.owner.toNat, m.line)) })
      forwardAll h .fS ownBit m.src m (owes (busy .BS ownBit 0 ownBit s))
    else homeData h m false 0 (busy .BS d.sharers 0 0 s)
  | .rdX =>
    let s := clearHomeMon h.val m.line s
    if isX then forwardAll h .fX ownBit m.src m (busy .BX 0 0 ownBit s) else excl true s
  | .upg =>
    let s := clearHomeMon h.val m.line s
    if isX then forwardAll h .fX ownBit m.src m (busy .BX 0 0 ownBit s) else excl (!d.sharers.getLsbD me) s
  | .rdZ =>
    let s := clearHomeMon h.val m.line s
    if isX then forwardAll h .fFls ownBit home m (busy .BX 0 ownBit ownBit s) else excl false s
  | .cln =>
    if isX then forwardAll h .fCln ownBit home m (busy .BX ownBit ownBit ownBit s)
    else grant h m 0 (busy .BX d.sharers 0 0 (llcClean h.val m.line (cleanLine m.line s)))
  | .fls =>
    if isX then forwardAll h .fFls ownBit home m (busy .BX 0 ownBit ownBit s)
    else
      let s := llcDrop h.val m.line (cleanLine m.line s)
      grant h m d.sharers (forwardAll h .fInv d.sharers m.src m (busy .BX 0 0 0 s))
  | .inv =>
    let who := if isX then ownBit else d.sharers
    let s := llcDrop h.val m.line (discardLine m.line s)
    grant h m who (forwardAll h .fDis who m.src m (busy .BX 0 0 who s))
  | .hrd =>
    if isX then forwardAll h .fCln ownBit home m (busy .BS ownBit ownBit ownBit s) else performHub h .hrd m s
  | k =>
    if isX then forwardAll h .fFls ownBit home m (busy .BX 0 ownBit ownBit s)
    else if d.sharers ≠ 0 then forwardAll h .fInv d.sharers home m (busy .BX 0 d.sharers 0 s)
    else alone (performHub h k m s)

/-- A request for a line that has no entry and needs none: no bay holds the line. A bay's DONE is still to come.
DESIGN CHOICE (log entry 120). -/
def serveBare (h : Fin 40) (k : ReqKind) (m : CMsg) (s : State) : State :=
  let owed := fun (s : State) => updSlice h.val (fun y => { y with dones := y.dones ++ [(m.src, m.line)] }) s
  match k with
  | .cln => grant h m 0 (owed (llcClean h.val m.line (cleanLine m.line s)))
  | .fls => grant h m 0 (owed (llcDrop h.val m.line (cleanLine m.line s)))
  | .inv => grant h m 0 (owed (llcDrop h.val m.line (discardLine m.line s)))
  | k => performHub h k m s

/-- Threads of a requester that wait for a line, for the counters of R479. -/
def waitersFor (s : State) (a : Agent) (l : BitVec 42) : List Thr :=
  let ts := match a with
    | .bay i => (List.range 4).flatMap (fun c => thrsOfCore (4 * i.val + c))
    | .engine e => thrsOfEngine e.val
    | _ => []
  ts.filter (fun t => (thr s t).outst.any (fun x => lineOf x.pa = l) || (thr s t).stores.any (fun x => lineOf x.pa = l)
    || (linesOfUOps (thr s t).unconf).contains l)

/-- NACK; a request with eight NACKs behind it takes a place of the reservation queue instead (R229, R230). -/
def nackOrQueue (h : Fin 40) (k : ReqKind) (m : CMsg) (s : State) : State :=
  let x := slice s h.val
  let holds := x.rsv.any (fun e => placeKey s e.2.src = placeKey s m.src)
  if 8 ≤ m.count.toNat && !holds then
    let s := updSlice h.val (fun y => { y with rsv := y.rsv ++ [(k, m)] }) s
    let s := match dirFind s h.val m.line with
      | some key => updDir h.val key (fun d => { d with rsvq := true }) s
      | none => s
    forEach (waitersFor s m.src m.line) (fun t acc => countEvent t 0x11 acc) s
  else send .nack { homeMsg s h m.src m with count := satInc m.count } s

/-- Bays an entry records. -/
def recorded (d : DirE) : Nat := if d.st = .X then 1 else popcount d.sharers

/-- The way to evict: fewest bays, then lowest number, among those not busy (R235). -/
def victimDir (s : State) (h : Nat) (keys : List Nat) : Option Nat :=
  keys.foldl (fun acc k =>
    let d := dirAt s h k
    if isBusy d.st then acc else
    match acc with
    | none => some k
    | some b => if recorded d < recorded (dirAt s h b) then some k else acc) none

/-- The entry is being evicted: it is busy for no request of its own line (R236). -/
def evicting (d : DirE) : Bool := isBusy d.st && d.req.isNone

/-- Requests that the slice holds accepted: one for each busy entry that serves one, those that wait for a victim's
eviction, and those served without an entry whose DONE is to come (R223). -/
def inHand (x : Slice) : Nat :=
  (x.dir.filter (fun e => isBusy e.2.st && e.2.req.isSome)).length + x.heldAlloc.length + x.dones.length

/-- The home can take a request now: none of the cases of R229 holds. -/
def canServe (s : State) (h : Nat) (k : ReqKind) (l : BitVec 42) : Bool :=
  decide (inHand (slice s h) < 48) &&
  match dirFind s h l with
  | some key => !isBusy (dirAt s h key).st
  | none =>
    let keys := wayKeys (llcSet l) 16
    !needsEntry k || (!keys.any (fun w => evicting (dirAt s h w)) &&
      (keys.any (fun w => (dirAt s h w).st = .I) || (victimDir s h keys).isSome))

/-- A request that the home can take: at its entry, without one, in a free way, or held while a victim is evicted (R223,
R235, R236). -/
def serve (h : Fin 40) (k : ReqKind) (m : CMsg) (s : State) : State :=
  match dirFind s h.val m.line with
  | some key => beginTx h key k m s
  | none =>
    if !needsEntry k then serveBare h k m s else
    let keys := wayKeys (llcSet m.line) 16
    match keys.find? (fun w => (dirAt s h.val w).st = .I) with
    | some w => beginTx h w k m (takeWay h.val w m.line s)
    | none =>
      match victimDir s h.val keys with
      | none => s
      | some v =>
        let d := dirAt s h.val v
        let isX := d.st = .X
        let who := if isX then bayBit d.owner.toNat else d.sharers
        let s := updDir h.val v (fun e => { e with
          st := .BE, awaits := who, fwd := if isX then who else 0, fromX := isX, req := none, gone := 0
          owner := if isX then d.owner else 63, since := s.time.now }) s
        let s := updSlice h.val (fun y => { y with heldAlloc := y.heldAlloc ++ [(v, k, m)] }) s
        forwardAll h (if isX then .fFls else .fInv) who (.home h) { m with line := d.line, tag := 0, nt := false } s

/-- A place of the reservation queue waits for the line, or could be served now in the set whose way the request would take
(R231). -/
def queuedAhead (s : State) (h : Nat) (k : ReqKind) (l : BitVec 42) : Bool :=
  (slice s h).rsv.any (fun e => e.2.line = l ||
    (needsEntry k && (dirFind s h l).isNone && llcSet e.2.line = llcSet l && canServe s h e.1 e.2.line))

/-- A request arrives at its home: served, or not accepted. Queued places go first, and a requester that holds one is served
nothing else (R229 to R231). -/
def accept (h : Fin 40) (k : ReqKind) (m : CMsg) (s : State) : State :=
  let holds := (slice s h.val).rsv.any (fun e => placeKey s e.2.src = placeKey s m.src)
  if holds || queuedAhead s h.val k m.line || !canServe s h.val k m.line then nackOrQueue h k m s else serve h k m s

/-- A write-back message at a stable entry (R233). -/
def absorbWb (h : Fin 40) (k : CKind) (m : CMsg) (s : State) : State :=
  let me := bayNum m.src
  let ack := fun (s : State) => send .wbAck (homeMsg s h m.src m) s
  match dirFind s h.val m.line with
  | none => if k = .wbD then protocol (.home h) s else ack s
  | some key =>
    let d := dirAt s h.val key
    let mine := d.st = .X && d.owner.toNat = me
    if k = .wbD then
      if !mine then protocol (.home h) s
      else ack (updDir h.val key (fun _ => DirE.reset) (llcFill h.val m.line true false s))
    else
      let left := d.sharers &&& ~~~(bayBit me)
      if mine || (d.st = .S && left = 0) then ack (updDir h.val key (fun _ => DirE.reset) s)
      else ack (updDir h.val key (fun e => { e with sharers := left }) s)

/-- The line has no entry, or one that is not busy. -/
def stableLine (s : State) (h : Nat) (l : BitVec 42) : Bool :=
  match dirFind s h l with
  | some k => !isBusy (dirAt s h k).st
  | none => true

/-- The reservation to serve next: the oldest for the line or its set; else the oldest that waited only for one of the
slice's request places (R229, R231). DEDUCED (log entry 103). -/
def nextPlace (s : State) (h : Nat) (l : BitVec 42) : Option (ReqKind × CMsg) :=
  let can := (slice s h).rsv.filter (fun e => canServe s h e.1 e.2.line)
  match can.find? (fun e => e.2.line = l || llcSet e.2.line = llcSet l) with
  | some e => some e
  | none => can.head?

/-- An entry has become stable, or a way or a place free: held write-backs are absorbed, then reservations that can be
served are, each counted (R231). -/
def settleDir (h : Fin 40) (l : BitVec 42) : Nat → State → State
  | 0, s => s
  | fuel + 1, s =>
    match (if stableLine s h.val l then (slice s h.val).wbBuf.find? (fun e => e.2.line = l) else none) with
    | some e =>
      let s := updSlice h.val (fun y => { y with wbBuf := removeFirst (fun z => z = e) y.wbBuf }) s
      settleDir h l fuel (absorbWb h e.1 e.2 s)
    | none =>
      match nextPlace s h.val l with
      | none => s
      | some e =>
        let s := updSlice h.val (fun y => { y with rsv := removeFirst (fun z => z = e) y.rsv }) s
        let more := (slice s h.val).rsv.any (fun z => z.2.line = e.2.line)
        let s := match dirFind s h.val e.2.line with
          | some key => updDir h.val key (fun d => { d with rsvq := more }) s
          | none => s
        let s := match partOfBay s h.val with
          | some p => updPart p (fun x => { x with rsvGrants := satInc x.rsvGrants }) s
          | none => s
        settleDir h l fuel (serve h e.1 e.2 s)

/-- Fuel for `settleDir`: every held write-back and reservation once. -/
def settleFuel (s : State) (h : Nat) : Nat := (slice s h).wbBuf.length + (slice s h).rsv.length + 2

def settleLine (h : Fin 40) (l : BitVec 42) (s : State) : State := settleDir h l (settleFuel s h.val) s

/-- Directory ways have become free at every home: the places that wait there are served (R231). -/
def settleHomes (s : State) : State :=
  forEach (List.finRange 40) (fun h acc =>
    forEach (slice acc h.val).rsv (fun e acc => settleLine h e.2.line acc) acc) s

/-- Every answer the home awaited has come (R236, R237); its wait for DONE begins (R240). -/
def answered (h : Fin 40) (key : Nat) (s : State) : State :=
  let d := dirAt s h.val key
  let l := d.line
  let waitsAnew := fun (s : State) => updDir h.val key (fun e => { e with since := s.time.now }) s
  match d.req with
  | none =>
    let held := (slice s h.val).heldAlloc.find? (fun e => e.1 = key)
    let s := updSlice h.val (fun y => { y with heldAlloc := y.heldAlloc.filter (fun e => e.1 ≠ key) }) s
    let s := updDir h.val key (fun _ => DirE.reset) s
    let s := match held with
      | some (_, k, m) =>
        beginTx h key k m (takeWay h.val key m.line s)
      | none => s
    settleLine h l s
  | some (k, m) =>
    match k with
    | .rdZ => grant h m 0 (waitsAnew s)
    | .cln => grant h m 0 (llcClean h.val l (cleanLine l (waitsAnew s)))
    | .fls => grant h m 0 (llcDrop h.val l (cleanLine l (waitsAnew s)))
    | .hrd =>
      let s := performHub h .hrd m s
      let s := match bitsOf d.sharers with
        | b :: _ => updDir h.val key (fun e => { e with
            st := .X, owner := BitVec.ofNat 6 b, sharers := 0, req := none, fromX := false, fwd := 0, gone := 0 }) s
        | [] => updDir h.val key (fun _ => DirE.reset) s
      settleLine h l s
    | k => settleLine h l (updDir h.val key (fun _ => DirE.reset) (performHub h k m s))

/-- One awaited bay has answered. -/
def answerFrom (h : Fin 40) (key b : Nat) (s : State) : State :=
  let left := (dirAt s h.val key).awaits &&& ~~~(bayBit b)
  let s := updDir h.val key (fun e => { e with awaits := left, fwd := e.fwd &&& ~~~(bayBit b) }) s
  if left = 0 then answered h key s else s

/-- A crossing write-back meets its MISS_WB: the request is served with its data, then WB_ACK goes. CINV discards the data,
and the home acknowledges to the collector in the bay's place (R204, R234). -/
def matchWb (h : Fin 40) (key : Nat) (k : CKind) (w : CMsg) (s : State) : State :=
  let d := dirAt s h.val key
  let b := bayNum w.src
  let discards : Bool := match d.req with | some (.inv, _) => true | _ => false
  let s := if k ≠ .wbD then s else if discards then discardLine w.line s else llcFill h.val w.line true false s
  let s := updDir h.val key (fun e =>
    let left := e.wbOf &&& ~~~(bayBit b)
    { e with
    sharers := e.sharers &&& ~~~(bayBit b)
    wbOf := left
    since := s.time.now
    st := if left ≠ 0 then .BW else match e.req with
      | none => .BE
      | some (.rdS, _) => .BS
      | some (.hrd, _) => .BS
      | some _ => .BX }) s
  let s := match d.req with
    | some (.rdS, m) => homeData h m false 0 s
    | some (.rdX, m) => homeData h m true 0 s
    | some (.upg, m) => homeData h m true 0 s
    | some (.inv, m) => send .ackInv { homeMsg s h m.src m with coll := w.src } s
    | _ => answerFrom h key b s
  send .wbAck (homeMsg s h w.src w) s

/-- DONE: the requester has everything; the entry leaves its busy state (R224), without the bays whose WB_C came meanwhile
(R233). -/
def closeTx (h : Fin 40) (key : Nat) (s : State) : State :=
  let d := dirAt s h.val key
  let keep := fun (st : DirSt) (own : BitVec 6) (sh : BitVec 40) =>
    let left := sh &&& ~~~d.gone
    if (st = .X && d.gone.getLsbD own.toNat) || (st = .S && left = 0) then updDir h.val key (fun _ => DirE.reset)
    else updDir h.val key (fun e => { e with
      st := st, owner := own, sharers := left, req := none, fromX := false, awaits := 0, fwd := 0, gone := 0 })
  let s := match d.req with
    | some (.rdS, _) => keep .S 0 (d.sharers ||| bayBit d.owner.toNat) s
    | some (.cln, _) =>
      match d.fromX, bitsOf d.sharers with
      | true, b :: _ => keep .X (BitVec.ofNat 6 b) 0 s
      | _, _ => keep .S 0 d.sharers s
    | some (.fls, _) => updDir h.val key (fun _ => DirE.reset) s
    | some (.inv, _) => updDir h.val key (fun _ => DirE.reset) s
    | some _ => keep .X d.owner 0 s
    | none => s
  settleLine h d.line s

/-! ## The bay -/

/-- A line leaves every L1 and the L2 of a bay. -/
def bayDrop (b : Nat) (l : BitVec 42) (s : State) : State :=
  updBay b (fun y => { y with l2 := setLineState y.l2 (l2Set l) l .I }) (bayL1Drop b l s)

/-- The bay's caches hold the line in a lesser state: an L1 that held it exclusively in `l1`, its dirty sectors in the L2
line; an L1 that shared it still does. -/
def bayDemote (b : Nat) (l : BitVec 42) (l1 st : Mesi) (s : State) : State :=
  let s := forEach (List.range 4) (fun c acc =>
    let held := lineState (core acc (4 * b + c)).l1d (l1Set l) l
    if held = .E || held = .M then updCore (4 * b + c) (fun k => { k with l1d := setLineState k.l1d (l1Set l) l l1 }) acc
    else acc) s
  updBay b (fun y => { y with l2 := setLineState y.l2 (l2Set l) l st }) s

/-- A message of a bay with a line's data. -/
def bayData (s : State) (b : Fin 40) (dst : Agent) (l : BitVec 42) : CMsg :=
  { mkMsg s (.bay b) dst l with
    data := lineData s l, poison := isPoisoned s l || copyBad (bay s b.val).l2 (l2Set l) l }

/-- A bay acts on a forward (R227, R234). -/
def doForward (b : Fin 40) (k : CKind) (m : CMsg) (s : State) : State :=
  let l := m.line
  let st := lineState (bay s b.val).l2 (l2Set l) l
  let inWb := (bay s b.val).wb.any (fun w => w.line = l)
  let toHome := fun (kk : CKind) (s : State) => send kk { mkMsg s (.bay b) m.src l with coll := m.coll } s
  let ack := fun (s : State) => send .ackInv (mkMsg s (.bay b) m.coll l) s
  let owned := st = .E || st = .M
  if k = .fInv then ack (if st = .I then s else bayDrop b.val l s)
  else if inWb then toHome .missWb s
  else if k = .fDis then ack (if st = .I then s else bayDrop b.val l (if st = .M then discardLine l s else s))
  else if !owned then protocol (.bay b) s
  else
    let dirty := st = .M
    let home := fun (s : State) => if dirty then send .dO (bayData s b m.src l) s else toHome .ackF s
    match k with
    | .fS =>
      let s := send .dF { bayData s b m.coll l with excl := false } s
      let s := if dirty then send .dO (bayData s b m.src l) s else s
      bayDemote b.val l .S .S s
    | .fX => bayDrop b.val l (send .dF { bayData s b m.coll l with excl := true } s)
    | .fCln => bayDemote b.val l .E .E (home s)
    | _ => bayDrop b.val l (home s)

/-- A forward for a line whose granule a core of the bay protects waits for its reservation (R176, R225). -/
def takeForward (b : Fin 40) (k : CKind) (m : CMsg) (s : State) : State :=
  let holds := fun (hd : Hold) => hd.granule = granuleOfLine m.line
  match (List.range 4).find? (fun c => (core s (4 * b.val + c)).hold.any holds) with
  | some c =>
    let owe := fun (x : Hold) => { x with owed := x.owed ++ [(k, m)], since := if x.owed.isEmpty then s.time.now else x.since }
    updCore (4 * b.val + c) (fun x => { x with hold := editFirst holds owe x.hold }) s
  | none => doForward b k m s

/-- The answers withheld for a thread go, unless another thread's reservation still holds them back (R176).
DESIGN CHOICE (log entry 26). -/
def releaseHold (i : Fin 640) (s : State) : State :=
  let mine := fun (hd : Hold) => hd.thr.val = i.val % 4
  match (core s (i.val / 4)).hold.find? mine with
  | none => s
  | some hd =>
    let s := updCore (i.val / 4) (fun x => { x with hold := removeFirst mine x.hold }) s
    forEach hd.owed (fun e acc => takeForward ⟨i.val / 16, by omega⟩ e.1 e.2 acc) s

/-- Kinds of maintenance access a request serves. -/
def maintKind : ReqKind → Option AccKind
  | .cln => some .cclean
  | .fls => some .cclean
  | .inv => some .cinv
  | _ => none

/-- The oldest instruction in flight of a thread used the line. -/
def headUses (s : State) (i : Fin 640) (l : BitVec 42) : Bool :=
  match (thr s (.core i)).unconf with
  | [] => match fetchOf (thr s (.core i)) with | some f => f.line = l | none => false
  | u :: _ => !u.conf && (match u.fetch with | some f => f.line = l | none => false) || (linesOfUOps [u]).contains l

/-- Threads of a bay's cores. -/
def thrsOfBay (b : Fin 40) : List (Fin 640) := (List.finRange 16).map (fun x => ⟨16 * b.val + x.val, by omega⟩)

/-- A bay's request has everything: DONE goes, the line is installed, instructions about to be confirmed that took it from a
peek are compared, and a maintenance access completes (R129, R204, R224). -/
def finishReq (b : Fin 40) (r : CReq) (s : State) : State :=
  let l := r.line
  let s := updBay b.val (fun y => { y with reqs := y.reqs.filter (fun x => x.line ≠ l) }) s
  let s := send .done (mkMsg s (.bay b) (.home r.home) l) s
  match maintKind r.kind, r.core with
  | some k, some c =>
    forEach (thrsOfCore c.val) (fun t acc =>
      updThr t (fun th => { th with outst := th.outst.filter (fun a => !(a.kind = k && lineOf a.pa = l)) }) acc) s
  | some _, none => s
  | none, _ =>
    let newer := isDirty s l && (lineState (slice s r.home.val).llc (llcSet l) l ≠ .M)
    let st : Mesi := if !r.excl then .S else if newer then .M else .E
    let here := lineState (bay s b.val).l2 (l2Set l) l ≠ .I
    let bad := r.bad && !isPoisoned s l
    let s := if here && r.kind = .upg then updBay b.val (fun y => { y with l2 := setLineState y.l2 (l2Set l) l st }) s
      else l2Fill b l st r.nt bad s
    match r.core with
    | none => s
    | some c =>
      let s := l1Fill c.val r.instr l (if r.excl && !r.instr then .E else .S) (fillAge r.nt) s
      let s := updCore c.val (fun k => { k with prefetch := k.prefetch.filter (fun x => x ≠ l) }) s
      forEach (thrsOfBay b) (fun t acc => if headUses acc t l then validatePeek t l acc else acc) s

/-- An answer reaches a bay's request. -/
def reqAnswer (b : Fin 40) (l : BitVec 42) (f : CReq → CReq) (s : State) : State :=
  match (bay s b.val).reqs.find? (fun r => r.line = l) with
  | none => protocol (.bay b) s
  | some r =>
    let r := f r
    match r.need with
    | some n =>
      if n.toNat < r.got.toNat then protocol (.bay b) s
      else if n = r.got && r.haveData then finishReq b r s
      else updBay b.val (fun y => { y with reqs := editFirst (fun x => x.line = l) (fun _ => r) y.reqs }) s
    | none => updBay b.val (fun y => { y with reqs := editFirst (fun x => x.line = l) (fun _ => r) y.reqs }) s

/-- An adze engine's request is answered (R237, R256, R271); it sends no DONE. DEDUCED (log entry 119). -/
def engineAnswer (a : Agent) (kinds : List ReqKind) (m : CMsg) (s : State) : State :=
  match (ereqOf s a m.tag m.line).filter (fun e => kinds.contains e.kind) with
  | none => protocol a s
  | some e =>
    let s := { s with ereqs := removeFirst (fun x => x = e) s.ereqs }
    let t := Thr.adze e.thr
    match outAccess s t e.id with
    | none => s
    | some x =>
      match e.kind with
      | .hwr => removeOut t e.id s
      | .hrd => valueDone t e.id ((m.data >>> (8 * (x.pa.toNat % 64))).setWidth 64) m.poison s
      | _ => valueDone t e.id (m.data.setWidth 64) m.poison s

/-- A tag that no outstanding request of the engine carries. -/
def engineTag (s : State) (a : Agent) : BitVec 16 :=
  let used := (s.ereqs.filter (fun e => e.msg.src = a)).map (fun e => e.msg.tag)
  BitVec.ofNat 16 (((List.range (used.length + 1)).find? (fun n => !used.contains (BitVec.ofNat 16 n))).getD 0)

/-- An adze thread's access to DRAM goes to the home (R192, R237). -/
def engineRequest (j : Fin 512) (id : Nat) (k : ReqKind) (l : BitVec 42) (data : BitVec 512) (mask : BitVec 64)
    (poison nt : Bool) (s : State) : State :=
  match homeAgent s l with
  | none => s
  | some h =>
    let src : Agent := .engine ⟨j.val / 8, by omega⟩
    let m := { mkMsg s src (.home h) l with data := data, mask := mask, poison := poison, tag := engineTag s src, nt := nt }
    let e : EReq := { kind := k, msg := m, thr := j, id := id, backoff := false, since := s.time.now }
    send (reqMsg k) m { s with ereqs := s.ereqs ++ [e] }

/-! ## Accesses of the dispatcher and the ridge (R237) -/

/-- The owner's copy before a hub agent's access, its dirty data in the slice. -/
def hubTakes (h : Fin 40) (b : Nat) (l : BitVec 42) (keep : Bool) (s : State) : State :=
  let s := if lineState (bay s b).l2 (l2Set l) l = .M then llcFill h.val l true false s else s
  if lineState (bay s b).l2 (l2Set l) l = .I then s else if keep then bayDemote b l .E .E s else bayDrop b l s

/-- The bays that hold a line as its home knows it: a hub agent's access goes on once no core of them holds back the
forward that it causes (R176). DEDUCED (log entry 39). -/
def endHolds (l : BitVec 42) (bays : List Nat) (s : State) : State :=
  forEach bays (fun b acc => forEach (List.range 16) (fun x acc =>
    if h : 16 * b + x < 640 then
      let i : Fin 640 := ⟨16 * b + x, h⟩
      if (core acc (i.val / 4)).hold.any (fun hd => hd.thr.val = i.val % 4 && hd.granule = granuleOfLine l) then releaseHold i acc
      else acc
    else acc) acc) s

/-- A write-back of the line that its bay has sent or is about to send is absorbed before a hub agent's access (R233). -/
def absorbCrossing (h : Fin 40) (b : Nat) (l : BitVec 42) (s : State) : State :=
  if !(bay s b).wb.any (fun w => w.line = l) then s else
  let isWb := fun (e : CKind × CMsg) => (e.1 = .wbD || e.1 = .wbC) && e.2.line = l && bayNum e.2.src = b
  let dirty := (bay s b).wb.any (fun w => w.line = l && w.dirty)
  let s := { s with net := s.net.filter (fun e => !isWb e) }
  let s := updSlice h.val (fun y => { y with wbBuf := y.wbBuf.filter (fun e => !isWb e) }) s
  let s := updBay b (fun y => { y with wb := y.wb.filter (fun w => w.line ≠ l) }) s
  let s := if dirty then llcFill h.val l true false s else s
  if hb : b < 40 then pumpWb ⟨b, hb⟩ s else s

/-- The copies of a line as HRD (`keep`) or HWR leaves them at its home: F_CLN or F_FLS to an owner, F_INV to sharers, and
after HWR the entry is I. An entry in the middle of a transaction keeps it, and the access counts as made when that ends.
DEDUCED (log entry 39). -/
def hubLine (l : BitVec 42) (keep : Bool) (s : State) : State :=
  match homeAgent s l with
  | none => s
  | some h =>
    match dirFind s h.val l with
    | none => s
    | some key =>
      let d := dirAt s h.val key
      if isBusy d.st then (if keep then s else dropCopies l s)
      else if d.st = .X then
        let crossing := (bay s d.owner.toNat).wb.any (fun w => w.line = l)
        let s := hubTakes h d.owner.toNat l keep (absorbCrossing h d.owner.toNat l (endHolds l [d.owner.toNat] s))
        if keep && !crossing then s else settleLine h l (updDir h.val key (fun _ => DirE.reset) s)
      else if keep then s
      else
        let s := forEach (bitsOf d.sharers) (fun b acc => bayDrop b l (absorbCrossing h b l acc)) (endHolds l (bitsOf d.sharers) s)
        settleLine h l (updDir h.val key (fun _ => DirE.reset) s)

/-- Lines that `n` bytes from an address touch, those of DRAM. -/
def dramLines (pa : BitVec 48) (n : Nat) : List (BitVec 42) :=
  ((linePieces (n + 1) pa.toNat (List.replicate n 0)).map (fun x => lineOf (BitVec.ofNat 48 x.1))).filter isDramLine

/-- A hub agent reads bytes: HRD for each DRAM line, which allocates it in its slice (R191, R237). -/
def homeRead (pa : BitVec 48) (n : Nat) (s : State) : State :=
  forEach (dramLines pa n) (fun l acc =>
    let acc := hubLine l true acc
    match homeAgent acc l with
    | some h => llcFill h.val l false false acc
    | none => acc) s

/-- A hub agent writes bytes: HWR for each DRAM line (R237), a plain write elsewhere. -/
def homeWrite (pa : BitVec 48) (l : List Byte) (poison : Bool) (s : State) : State :=
  forEach (linePieces (l.length + 1) pa.toNat l) (fun pc acc =>
    let a : BitVec 48 := BitVec.ofNat 48 pc.1
    let ln := lineOf a
    if !isDramLine ln then storeBytes none a pc.2 poison acc else
    let acc := storeBytes none a pc.2 poison (hubLine ln false acc)
    match homeAgent acc ln with
    | some h => llcFill h.val ln true false acc
    | none => acc) s

/-! ## Requests -/

/-- A request that no channel serves is answered by nothing: its requester has it in hand no more (R348). -/
def requestAbsent (m : CMsg) (s : State) : State :=
  let s := { s with ereqs := s.ereqs.filter (fun e => !(e.msg.src = m.src && e.msg.line = m.line && e.msg.tag = m.tag)) }
  match m.src with
  | .bay b => updBay b.val (fun y => { y with reqs := y.reqs.filter (fun r => r.line ≠ m.line) }) s
  | _ => s

/-- A request reaches a home; where its line's channel does not serve, it is not served (R348). -/
def requestAt (k : ReqKind) (m : CMsg) (s : State) : State :=
  match m.dst with
  | .home h =>
    if homeOf s (lineAddr m.line) = some h.val && !lineServed s m.line then requestAbsent m s
    else if homeOf s (lineAddr m.line) = some h.val then settleLine h m.line (accept h k m s) else protocol m.dst s
  | _ => protocol m.dst s

def execRdS (m : CMsg) (found : CacheFind) (s : State) : Result :=
  deliver .rdS m (withFind m found (requestAt .rdS m)) s
def execRdX (m : CMsg) (found : CacheFind) (s : State) : Result :=
  deliver .rdX m (withFind m found (requestAt .rdX m)) s
def execUpg (m : CMsg) (found : CacheFind) (s : State) : Result :=
  deliver .upg m (withFind m found (requestAt .upg m)) s
def execRdZ (m : CMsg) (found : CacheFind) (s : State) : Result :=
  deliver .rdZ m (withFind m found (requestAt .rdZ m)) s
def execCln (m : CMsg) (found : CacheFind) (s : State) : Result :=
  deliver .cln m (withFind m found (requestAt .cln m)) s
def execFlsRequest (m : CMsg) (found : CacheFind) (s : State) : Result :=
  deliver .fls m (withFind m found (requestAt .fls m)) s
def execInv (m : CMsg) (found : CacheFind) (s : State) : Result :=
  deliver .inv m (withFind m found (requestAt .inv m)) s
def execHrd (m : CMsg) (found : CacheFind) (s : State) : Result :=
  deliver .hrd m (withFind m found (requestAt .hrd m)) s
def execHwr (m : CMsg) (found : CacheFind) (s : State) : Result :=
  deliver .hwr m (withFind m found (requestAt .hwr m)) s

def execHatm (m : CMsg) (t : Fin 512) (op : AtomOp) (pa : BitVec 48) (dbl : Bool) (a b : Word) (found : CacheFind)
    (s : State) : Result :=
  let m' := { m with data := packAtom t op pa dbl a b }
  deliver .hatm m (withFind m found (requestAt .hatm m')) s

/-- PEEK at the home: data, or DEFER where the entry is busy or another agent holds the line; nothing changes there
(R127, R203, R232). What it finds in the arrays changes nothing either (R124): data with two bad bits comes poisoned, and
the slice's arrays with a bad tag give none. DEDUCED (log entry 102). -/
def peekAt (m : CMsg) (found : CacheFind) (s : State) : State :=
  let bad : Bool := found = .llcDouble
  match m.dst with
  | .home h =>
    let held : Bool := match dirFind s h.val m.line with
      | some k => isBusy (dirAt s h.val k).st || (dirAt s h.val k).st = .X
      | none => false
    if held || found = .llcTag || !lineServed s m.line then send .defer (homeMsg s h m.src m) s
    else send .dP { homeMsg s h m.src m with data := lineData s m.line, poison := bad || homePoison s m.line } s
  | _ => protocol m.dst s

def execPeek (m : CMsg) (found : CacheFind) (s : State) : Result := deliver .peek m (peekAt m found) s

/-! ## Forwards -/

def forwardAt (k : CKind) (m : CMsg) (s : State) : State :=
  match m.dst with
  | .bay b => takeForward b k m s
  | a => protocol a s

def execFS (m : CMsg) (found : CacheFind) (s : State) : Result :=
  deliver .fS m (withFind m found (forwardAt .fS m)) s
def execFX (m : CMsg) (found : CacheFind) (s : State) : Result :=
  deliver .fX m (withFind m found (forwardAt .fX m)) s
def execFInv (m : CMsg) (found : CacheFind) (s : State) : Result :=
  deliver .fInv m (withFind m found (forwardAt .fInv m)) s
def execFCln (m : CMsg) (found : CacheFind) (s : State) : Result :=
  deliver .fCln m (withFind m found (forwardAt .fCln m)) s
def execFFls (m : CMsg) (found : CacheFind) (s : State) : Result :=
  deliver .fFls m (withFind m found (forwardAt .fFls m)) s
def execFDis (m : CMsg) (found : CacheFind) (s : State) : Result :=
  deliver .fDis m (withFind m found (forwardAt .fDis m)) s

/-! ## Answers at the home -/

/-- An acknowledgement without data, or dirty data, from a bay the home awaits. The D_O that F_S asked for may come after the
requester's DONE, and after the entry has moved on (R227). -/
def homeAnswer (h : Fin 40) (m : CMsg) (dirty : Bool) (s : State) : State :=
  let b := bayNum m.src
  let owed := (slice s h.val).late.contains (b, m.line)
  let s := if dirty && owed then updSlice h.val (fun y => { y with late := y.late.filter (fun e => e ≠ (b, m.line)) }) s else s
  match dirFind s h.val m.line with
  | none => if dirty && owed then llcFill h.val m.line true false s else protocol (.home h) s
  | some key =>
    let d := dirAt s h.val key
    let s := if dirty then llcFill h.val m.line true false s else s
    if isBusy d.st && d.awaits.getLsbD b then answerFrom h key b s
    else if dirty && owed then s
    else protocol (.home h) s

/-- ACK_INV reaches its collector: a bay's request, or the home. -/
def ackInvAt (m : CMsg) (s : State) : State :=
  match m.dst with
  | .bay b =>
    let who := match m.src with | .bay i => i.val | _ => bayNum m.coll
    reqAnswer b m.line (fun r => { r with got := r.got + 1, acked := setBit r.acked who true }) s
  | .home h => homeAnswer h m false s
  | a => protocol a s

def execAckInv (m : CMsg) (s : State) : Result := deliver .ackInv m (ackInvAt m) s

def homeOnly (m : CMsg) (f : Fin 40 → State → State) (s : State) : State :=
  match m.dst with
  | .home h => f h s
  | a => protocol a s

def execAckF (m : CMsg) (s : State) : Result := deliver .ackF m (homeOnly m (fun h => homeAnswer h m false)) s
def execDO (m : CMsg) (found : CacheFind) (s : State) : Result :=
  deliver .dO m (withFind m found (homeOnly m (fun h => homeAnswer h m true))) s

/-- MISS_WB: the entry becomes BW, and the write-back it crossed is matched at once if it has arrived (R234). -/
def missWbAt (h : Fin 40) (m : CMsg) (s : State) : State :=
  match dirFind s h.val m.line with
  | none => protocol (.home h) s
  | some key =>
    let b := bayNum m.src
    let d := dirAt s h.val key
    if !isBusy d.st || !d.fwd.getLsbD b then protocol (.home h) s
    else
      let s := updDir h.val key (fun e => { e with
        st := .BW, wbOf := setBit e.wbOf b true, fwd := e.fwd &&& ~~~(bayBit b), since := s.time.now }) s
      match (slice s h.val).wbBuf.find? (fun e => e.2.line = m.line && e.2.src = m.src) with
      | none => s
      | some e =>
        matchWb h key e.1 e.2
          (updSlice h.val (fun y => { y with wbBuf := removeFirst (fun z => z = e) y.wbBuf }) s)

def execMissWb (m : CMsg) (s : State) : Result := deliver .missWb m (homeOnly m (fun h => missWbAt h m)) s

/-- DONE closes the transaction of its sender, or ends a request that was served without an entry; any other is PROTOCOL. -/
def doneAt (h : Fin 40) (m : CMsg) (s : State) : State :=
  let bare := fun (s : State) =>
    if (slice s h.val).dones.contains (m.src, m.line) then
      updSlice h.val (fun y => { y with dones := removeFirst (fun z => z = (m.src, m.line)) y.dones }) s
    else protocol (.home h) s
  match dirFind s h.val m.line with
  | none => bare s
  | some key =>
    let d := dirAt s h.val key
    if (d.st = .BS || d.st = .BX) && d.owner.toNat = bayNum m.src && d.awaits = 0 then closeTx h key s else bare s

def execDoneMsg (m : CMsg) (s : State) : Result := deliver .done m (homeOnly m (fun h => doneAt h m)) s

/-- A write-back or notice at the home (R233, R234): absorbed at a stable entry; matched where MISS_WB has come; else WB_D is
held, and so is the WB_C of a bay that has a forward to answer; any other WB_C is acknowledged at once.
DESIGN CHOICE (log entry 89). -/
def wbAt (k : CKind) (h : Fin 40) (m : CMsg) (s : State) : State :=
  match dirFind s h.val m.line with
  | none => absorbWb h k m s
  | some key =>
    let d := dirAt s h.val key
    let b := bayNum m.src
    if !isBusy d.st then settleLine h m.line (absorbWb h k m s)
    else if d.st = .BW && d.wbOf.getLsbD b then matchWb h key k m s
    else if k = .wbD || d.fwd.getLsbD b then
      updSlice h.val (fun y => { y with wbBuf := y.wbBuf ++ [(k, m)] }) s
    else
      let s := updDir h.val key (fun e => { e with sharers := e.sharers &&& ~~~(bayBit b), gone := setBit e.gone b true }) s
      send .wbAck (homeMsg s h m.src m) s

def execWbD (m : CMsg) (found : CacheFind) (s : State) : Result :=
  deliver .wbD m (withFind m found (homeOnly m (fun h => wbAt .wbD h m))) s
def execWbC (m : CMsg) (found : CacheFind) (s : State) : Result :=
  deliver .wbC m (withFind m found (homeOnly m (fun h => wbAt .wbC h m))) s

/-! ## Answers at the requester -/

/-- NACK: the request waits for RETRY_GAP with its count (R230). -/
def nackAt (m : CMsg) (s : State) : State :=
  let count := fun (s : State) => forEach (waitersFor s m.dst m.line) (fun t acc => countEvent t 0x10 acc) s
  match m.dst with
  | .bay b =>
    let mine := fun (r : CReq) => r.line = m.line && !r.backoff
    if (bay s b.val).reqs.any mine then
      updBay b.val (fun y => { y with
        reqs := editFirst mine (fun r => { r with nacks := m.count, backoff := true }) y.reqs }) (count s)
    else protocol m.dst s
  | .engine _ =>
    match ereqOf s m.dst m.tag m.line with
    | none => protocol m.dst s
    | some e =>
      let mark := fun (x : EReq) => { x with msg := { x.msg with count := m.count }, backoff := true }
      let s := count s
      { s with ereqs := editFirst (fun x => x = e) mark s.ereqs }
  | .hub _ => s
  | .home _ => protocol m.dst s

def execNack (m : CMsg) (s : State) : Result := deliver .nack m (nackAt m) s

/-- NACK_RETRY_GAP_EXPIRE: the request goes again, with its count of NACKs (R230), while its die is not stalled (R65). -/
def execNackRetryGapExpire (a : Agent) (l : BitVec 42) (s : State) : Result :=
  if (die s (dieOfAgent a)).stalled then .next s else
  match a with
  | .bay b =>
    match (bay s b.val).reqs.find? (fun r => r.line = l && r.backoff) with
    | none => .next s
    | some r =>
      let s := updBay b.val (fun y => { y with
        reqs := editFirst (fun x => x.line = l) (fun x => { x with backoff := false, since := s.time.now }) y.reqs }) s
      .next (send (reqMsg r.kind) { mkMsg s (.bay b) (.home r.home) l with count := r.nacks, nt := r.nt } s)
  | .engine _ =>
    match s.ereqs.find? (fun e => e.msg.src = a && e.msg.line = l && e.backoff) with
    | none => .next s
    | some e =>
      let go := fun (x : EReq) => { x with backoff := false, since := s.time.now }
      .next (send (reqMsg e.kind) e.msg { s with ereqs := editFirst (fun x => x = e) go s.ereqs })
  | _ => .next s

/-- Shim entries of a bay's threads that wait for a line. -/
def forShims (b : Nat) (l : BitVec 42) (f : ShimE → ShimE) (s : State) : State :=
  forEach (List.range 4) (fun c acc => updCore (4 * b + c) (fun k => { k with
    shim := k.shim.map (fun e => if e.line = l && e.walk.isNone && !e.filled && !e.deferred then f e else e) }) acc) s

/-- Threads of a bay with a shim entry for a line that waits. -/
def shimWaiters (s : State) (b : Nat) (l : BitVec 42) : List Thr :=
  (List.range 4).flatMap (fun c => ((core s (4 * b + c)).shim.filter (fun e =>
    e.line = l && e.walk.isNone && !e.filled && !e.deferred)).filterMap (fun e => thrOfIndex (16 * b + 4 * c + e.thr.val) false))

/-- Page walks of a bay's cores whose peek asked for a line. -/
def forWalks (b : Nat) (l : BitVec 42) (f : WalkE → WalkE) (s : State) : State :=
  forEach (List.range 4) (fun c acc => updCore (4 * b + c) (fun k => { k with
    walks := k.walks.map (fun w => if w.await = some l then f { w with await := none } else w) }) acc) s

/-- DEFER: the access waits for its confirmation (R127). -/
def deferAt (m : CMsg) (s : State) : State :=
  match m.dst with
  | .bay b =>
    let s := forEach (shimWaiters s b.val m.line) (fun t acc =>
      countUnconfirmed t 0x0C (updThr t (fun th => { th with evs := th.evs ++ [0x0C] }) acc)) s
    forWalks b.val m.line (fun w => { w with deferred := true }) (forShims b.val m.line (fun e => { e with deferred := true }) s)
  | a => protocol a s

def execDefer (m : CMsg) (s : State) : Result := deliver .defer m (deferAt m) s

/-- D_P: the peeked line fills its shim entries, or goes to the page walks that asked for it (R126, R143). -/
def peekData (m : CMsg) (s : State) : State :=
  match m.dst with
  | .bay b => forWalks b.val m.line (fun w => { w with got := m.line :: w.got }) <| forShims b.val m.line (fun e => { e with data := m.data, poison := m.poison || e.poison, filled := true }) s
  | a => protocol a s

def execDP (m : CMsg) (s : State) : Result := deliver .dP m (peekData m) s

def grantAt (m : CMsg) (s : State) : State :=
  match m.dst with
  | .bay b => reqAnswer b m.line (fun r => { r with
      need := some m.count, haveData := true, excl := maintKind r.kind = none, awaited := m.mask.setWidth 40 }) s
  | .engine e => engineAnswer (.engine e) [.hwr] m s
  | .hub _ => s
  | a => protocol a s

def execGrant (m : CMsg) (s : State) : Result := deliver .grant m (grantAt m) s

def homeDataAt (m : CMsg) (s : State) : State :=
  match m.dst with
  | .bay b => reqAnswer b m.line (fun r => { r with
      need := some m.count, haveData := true, excl := m.excl, bad := m.poison, awaited := m.mask.setWidth 40 }) s
  | .engine e => engineAnswer (.engine e) [.hrd, .hatm] m s
  | .hub _ => s
  | a => protocol a s

def execDH (m : CMsg) (found : CacheFind) (s : State) : Result :=
  deliver .dH m (withFind m found (homeDataAt m)) s

def fwdDataAt (m : CMsg) (s : State) : State :=
  match m.dst with
  | .bay b => reqAnswer b m.line (fun r => { r with need := some 0, haveData := true, excl := m.excl, bad := m.poison }) s
  | a => protocol a s

def execDF (m : CMsg) (found : CacheFind) (s : State) : Result := deliver .dF m (withFind m found (fwdDataAt m)) s

/-- WB_ACK frees the write-back buffer entry and returns its credit (R226, R233). -/
def wbAckAt (m : CMsg) (s : State) : State :=
  match m.dst with
  | .bay b =>
    if (bay s b.val).wb.any (fun w => w.line = m.line) then
      pumpWb b (updBay b.val (fun y => { y with wb := removeFirst (fun w => w.line = m.line) y.wb }) s)
    else protocol m.dst s
  | a => protocol a s

def execWbAck (m : CMsg) (s : State) : Result := deliver .wbAck m (wbAckAt m) s

/-! ## Timeouts (R240) -/

/-- COH_CTL.TMO in ns. -/
def cohTmoNs (s : State) (p : Nat) : Nat := (part s p).cohTmo.toNat * 16000

def baySrc (b : Nat) : Option Src := if h : b < 40 then some (.bay ⟨b, h⟩) else none

/-- The waits of an agent for a line: since when, and for which agent (R240). A bay waits for its L1s, whose core withholds
the answer to a forward; for the home that serves its request, or is to absorb its write-back; for the bays whose ACK_INV
has not come. A home waits for the bays that have a forward to answer, for a write-back, or for the requester's DONE. Of
several agents waited for, the lowest is named. DEDUCED (log entry 104). -/
def waitsOf (s : State) (a : Agent) (l : BitVec 42) : List (Word × Option Src) :=
  match a with
  | .bay b =>
    let l1s := (List.range 4).flatMap (fun c =>
      ((core s (4 * b.val + c)).hold.filter (fun h => h.owed.any (fun e => e.2.line = l))).map (fun h =>
        (h.since, if hc : 4 * b.val + c < 160 then some (Src.core ⟨4 * b.val + c, hc⟩) else none)))
    let reqs := ((bay s b.val).reqs.filter (fun r => r.line = l && !r.backoff)).map (fun r =>
      (r.since, match bitsOf (r.awaited &&& ~~~r.acked) with
        | x :: _ => if r.haveData then baySrc x else baySrc r.home.val
        | [] => baySrc r.home.val))
    let wbs := ((bay s b.val).wb.filter (fun w => w.line = l && w.sent)).map (fun w =>
      (w.since, (homeAgent s l).bind (fun h => baySrc h.val)))
    l1s ++ reqs ++ wbs
  | .engine _ => (s.ereqs.filter (fun e => e.msg.src = a && e.msg.line = l && !e.backoff)).map (fun e =>
      (e.since, match e.msg.dst with | .home h => baySrc h.val | _ => none))
  | .home h =>
    match dirFind s h.val l with
    | none => []
    | some k =>
      let d := dirAt s h.val k
      if !isBusy d.st then []
      else if d.st = .BW then [(d.since, ((bitsOf d.wbOf).head?).bind baySrc)]
      else [(d.since, match bitsOf d.awaits with | b :: _ => baySrc b | [] => baySrc d.owner.toNat)]
  | .hub _ => []

/-- A wait that has lasted longer than COH_CTL.TMO of a partition (R240). -/
def overdue (s : State) (p : Nat) (w : Word × Option Src) : Bool :=
  decide (w.1.toNat + cohTmoNs s p ≤ s.time.now.toNat)

/-- COH_TIMEOUT: an agent has waited longer than COH_CTL.TMO; its partition goes DOWN, and the report names the agent
waited for. -/
def execCohTimeout (a : Agent) (l : BitVec 42) (s : State) : Result :=
  match partOfAgent s a with
  | none => .next s
  | some p =>
    match (waitsOf s a l).find? (overdue s p) with
    | none => .next s
    | some w =>
      let det : BitVec 6 := match a with | .bay i => BitVec.ofNat 6 i.val | .home i => BitVec.ofNat 6 i.val | _ => 0x3F
      .next (reportCoherence p 2 det w.2 s)

end Sys2Proof.Machine
end

