-- ==== Sys2Proof/Machine/RidgeLink.lean ====
section
/-! DEFINITION. The ridge link layer at the receiver: flits, replay and credits (R392 to R397), messages on their way
(R401, R402), and the live map (R403). -/
namespace Sys2Proof.Machine

/-! ## Reception -/

/-- A cumulative acknowledgement: flits before it leave the replay buffer (R392 to R394). -/
def takeAck (x : Port) (ack : BitVec 9) (s : State) : State :=
  let k := port s (portIx x)
  let acked := fun (f : SentFlit) => decide ((ack - (f.seq + 1)).toNat < 256)
  if (k.replay.takeWhile acked).isEmpty then s
  else updPort (portIx x) (fun p => { p with
    replay := p.replay.dropWhile acked, lastAck := s.time.now, stuck := 0 }) s

def takeCredit (x : Port) (vc cred : BitVec 4) (s : State) : State :=
  if cred = 0 then s
  else updPort (portIx x) (fun p => { p with
    credits := put 0 p.credits vc.toNat (look 0 p.credits vc.toNat + cred.toNat) }) s

/-- Once a held direction has no flit unacknowledged, HOLD_DONE goes (R411). -/
def tryHoldDone (x : Port) (s : State) : State :=
  let k := port s (portIx x)
  if k.holding && !k.holdSent && k.replay.isEmpty && k.joiner.isSome then
    sendControl x (.holdDone (deviceId s)) (updPort (portIx x) (fun p => { p with holdSent := true }) s)
  else s

/-- The port's receiver works: it is in use, not in training, and its clock runs (R57). -/
def portHears (s : State) (x : Port) : Bool :=
  let k := port s (portIx x)
  k.st ≠ 0 && k.st ≠ 5 && k.st ≠ 6 && !k.training && !s.pw.clkRidge.getLsbD (portIx x)

/-- What every good flit's header does on a port that is up (R392). -/
def takeHeader (f : Flit) (s : State) : State :=
  if !portUp s f.port then s else
  pumpPort f.port (tryHoldDone f.port (takeCredit f.port f.crvc f.cred (takeAck f.port f.ack s)))

/-- An unsequenced flit arrives. -/
def unsequenced (f : Flit) (act : State → State) (s : State) : State :=
  if !portHears s f.port then s else act (takeHeader f s)

/-- A sequenced flit of `n` flits arrives: the next expected SEQ is accepted; an older one is discarded; after a gap one
NAK goes (R394). -/
def sequenced (f : Flit) (n : Nat) (act : State → State) (s : State) : State :=
  if !portHears s f.port || !portUp s f.port then s else
  let s := takeHeader f s
  let k := port s (portIx f.port)
  let back := (k.rxSeq - f.seq).toNat
  if back = 0 then
    act (sendIdle f.port
      (updPort (portIx f.port) (fun p => { p with rxSeq := p.rxSeq + BitVec.ofNat 9 n, nakSent := false }) s))
  else if back ≤ 256 || k.nakSent then s
  else sendControl f.port (.nak k.rxSeq) (updPort (portIx f.port) (fun p => { p with nakSent := true }) s)

/-- Answer a request as UNREACHABLE (R403). -/
def unreachableTo (op : BitVec 6) (src : BitVec 16) (cls : BitVec 2) (tag : BitVec 16) (addr : BitVec 64) (s : State) :
    State :=
  let rsp : Option (BitVec 6) := if op = 0x01 || op = 0x02 then some 0x03 else if op = 0x08 || op = 0x09 then some 0x0A
    else if op = 0x10 then some 0x11 else if op = 0x12 then some 0x13 else if op = 0x14 then some 0x15 else none
  match rsp with
  | none => updRidge (fun r => { r with discarded := satInc r.discarded }) s
  | some o =>
    let s := countUnreach s
    sendRsp cls (.msg o src (deviceId s) 3 false tag addr []) s

/-- Bytes of the flits that a command brings (R399). -/
def msgBytes (m : RMsg) : Nat := if m.part = .whole && decide (48 < m.data.length) then 144 else 72

/-- A whole message is here: one for this device acts and frees its buffer; any other is forwarded on its route, never back
where it came from, or answered UNREACHABLE (R396, R401 to R403, R412). -/
def arrive (op : BitVec 6) (m : RMsg) (act : RMsg → State → State) (s : State) : State :=
  let body : FlitBody := .msg op m.dst m.src m.status m.poison m.tag m.addr m.data
  let n := flitsOf body
  let from' := some (m.flit.port, m.flit.vc)
  let cls := vcClass m.flit.vc
  let stuck := fun (s : State) => unreachableTo op m.src cls m.tag m.addr (freeBuffer from' n s)
  match route s m.dst with
  | .deliver =>
    let s := freeBuffer from' n s
    if mayOriginate s m.flit.port || isRsp op then act m s else unreachableTo op m.src cls m.tag m.addr s
  | .out x =>
    if x = m.flit.port then stuck s else
    let set := crossesDateline s x || (vcSet m.flit.vc && isNs x = isNs m.flit.port)
    portSend x (vcOf cls (isRsp op) set) body from' s
  | .none => stuck s

/-- A message flit or two arrive: the body of a two-flit message joins its head, which came by the same channel, flits of
other channels between them or not (R396). -/
def message (op : BitVec 6) (m : RMsg) (act : RMsg → State → State) (s : State) : State :=
  let x := portIx m.flit.port
  let v := m.flit.vc.toNat
  let count := countBytes (2 + 2 * x) (msgBytes m)
  match m.part with
  | .whole => sequenced m.flit (msgBytes m / 72) (fun s => arrive op m act (count s)) s
  | .head => sequenced m.flit 1 (fun s =>
      updPort x (fun p => { p with heads := put none p.heads v (some (op, m)) }) (count s)) s
  | .body => sequenced m.flit 1 (fun s =>
      match look none (port s x).heads v with
      | none => count s
      | some (o, h) =>
        let s := updPort x (fun p => { p with heads := put none p.heads v none }) (count s)
        if o = op then arrive op { h with data := h.data.take 48 ++ m.data, part := .whole } act s else s) s

/-! ## The live map (R365, R401, R403) -/

/-- Positions between `a` and `b`, ends apart, going E. -/
def between (a b : Nat) : List Nat := (List.range ((b + 64 - a) % 64 - 1)).map (fun i => (a + 1 + i) % 64)

/-- Positions of a route out through `x` from `a` to `b`, ends apart. -/
def pathOut (a b : Nat) (x : Port) : List Nat :=
  match x with
  | .E => between a b
  | .W => between b a
  | _ => []

/-- The port by which the shorter way of a ring leaves, E on a tie. -/
def shorter (live : BitVec 64) (a b : Nat) : Port := if eastDist live a b ≤ eastDist live b a then .E else .W

/-- Frames that a way in the column from `f` to `g` passes or ends in, N on a tie. -/
def columnPath (s : State) (f g : Nat) : List Nat :=
  let n := s.ridge.frames.toNat + 1
  let up := northDist s f g
  let down := northDist s g f
  if up ≤ down then (List.range up).map (fun i => (f + 1 + i) % n) else (List.range down).map (fun i => (f + n - 1 - i) % n)

/-- The live positions of the ring of a frame: this one's own, or another's as RING_STATE told, else as populated. -/
def liveIn (s : State) (g : Nat) : BitVec 64 :=
  if g = myFrame s then liveRing s else (look none s.ridge.liveOf g).getD s.ridge.pop

/-- The way of a request that left by `q.port`, or of its answer, passes or ends at one of the positions `gone` of the ring
of frame `g`; `live` is the map of that ring before (R401, R403). -/
def crossedAt (s : State) (g : Nat) (live gone : BitVec 64) (q : RReq) : Bool :=
  let p := myPos s
  let f := myFrame s
  let tp := devPos q.dst
  let tf := devFrame q.dst
  let hit := fun (i : Nat) => gone.getLsbD i
  (g = f && ((pathOut p tp q.port).any hit || hit tp))
    || (g = tf && ((pathOut tp p (shorter live tp p)).any hit || hit tp || (tf ≠ f && hit p)))
    || (tf ≠ f && ((columnPath s f tf).contains g && hit tp || (columnPath s tf f).contains g && g ≠ f && hit p))

/-- The same for spans of this frame's ring that carry no link any more. -/
def crossedSpan (s : State) (spans : BitVec 64) (q : RReq) : Bool :=
  let p := myPos s
  let tp := devPos q.dst
  let live := liveRing s
  let way := fun (a b : Nat) (x : Port) => (match x with
    | .E => (a :: passedEast live a b).any (fun i => i ≠ b && spans.getLsbD i)
    | .W => (b :: passedEast live b a).any (fun i => i ≠ a && spans.getLsbD i)
    | _ => false)
  tp ≠ p && (way p tp q.port || (devFrame q.dst = myFrame s && way tp p (shorter live tp p)))

/-- The port by which the answer to a request comes in. -/
def answerPort (s : State) (q : RReq) : Port :=
  let tf := devFrame q.dst
  let f := myFrame s
  if tf = f then portMate (shorter (liveRing s) (devPos q.dst) (myPos s))
  else if northDist s tf f ≤ northDist s f tf then .S else .N

/-- RING_PRESENT follows the live map; a change is a notice (R363, R365). -/
def setLive (v : BitVec 64) (s : State) : State :=
  let s := updRidge (fun r => { r with live := v }) s
  let w := liveRing s
  if w = s.ep.ringPresent then s else notifyRing (updEp (fun e => { e with ringPresent := w }) s)

/-- The ridge topology has changed: a WRIGHT notice to the partitions that hold ridge windows (R441). -/
def topologyNotice (s : State) : State :=
  forEach (List.range 8) (fun p acc =>
    if acc.ridge.win.any (fun e => e.2.v && e.2.part.toNat = p) then notice p 7 (at' acc.ridge.changes 0) acc else acc) s

/-- The RING_STATE last passed on, for a ring of a frame or for the column. -/
def lastSeen (s : State) (column : Bool) (g : Nat) : Option (BitVec 8) :=
  if column then s.ridge.seenCol else look none s.ridge.seen g
def markSeen (column : Bool) (g : Nat) (n : BitVec 8) (s : State) : State :=
  updRidge (fun r => if column then { r with seenCol := some n } else { r with seen := put none r.seen g (some n) }) s

/-- RING_STATE goes out on every up port but one: that of this frame's ring on all ports, so that every frame learns of it;
the column's along the column. DEDUCED (log entry 108). -/
def passOn (column : Bool) (skip : Option Port) (b : FlitBody) (s : State) : State :=
  forEach (pairPorts true ++ (if column then [] else pairPorts false)) (fun x acc =>
    if portUp acc x && some x ≠ skip then portSend x 0 b none acc else acc) s

/-- A change of this device's own: it is counted and told to the partners. -/
def flood (column : Bool) (s : State) : State :=
  let s := topologyNotice (updRidge (fun r => { r with changes := satInc r.changes }) s)
  let n : BitVec 8 := s.ridge.changes.setWidth 8
  passOn column none (.ringState n (if column then s.ridge.liveCol else liveRing s) (BitVec.ofNat 16 (myFrame s)) column)
    (markSeen column (myFrame s) n s)

/-- The messages a port holds that were bound for a lost link are discarded and counted (R403). -/
def discardPort (x : Port) (s : State) : State :=
  let k := port s (portIx x)
  let n := (k.replay.filter (fun f => isMsg f.body)).length + (k.waiting.filter (fun w => isMsg w.1.body)).length
  let s := updPort (portIx x) (fun p => { p with replay := [], waiting := [], credits := [], owe := [], heads := [] }) s
  let s := forEach k.waiting (fun w acc => freeBuffer w.2 (flitsOf w.1.body) acc) s
  updRidge (fun r => { r with discarded := satAdd r.discarded n }) s

/-- Flits received on a channel of a port that still fill its buffers: messages waiting at an output, and heads. -/
def buffered (s : State) (x : Port) (v : Nat) : Nat :=
  let held := fun (y : Port) => (port s (portIx y)).waiting.foldl (fun n w =>
    if w.2 = some (x, BitVec.ofNat 4 v) then n + flitsOf w.1.body else n) 0
  held .W + held .E + held .N + held .S + (if (look none (port s (portIx x)).heads v).isSome then 1 else 0)

/-- Credits of INIT: the free part of the 24 flits of every channel (R393, R395). -/
def initCredits (s : State) (x : Port) : BitVec 80 :=
  (List.range 16).foldl (fun m v => m ||| (BitVec.ofNat 80 (24 - buffered s x v) <<< (5 * v))) 0

/-- Flits not yet acknowledged take their places anew from SEQ 0: none is dropped (R411). -/
def renumber (k : PortSt) : PortSt :=
  { k with
    replay := (k.replay.zip (List.range k.replay.length)).map (fun e => { e.1 with seq := BitVec.ofNat 9 e.2 })
    txSeq := BitVec.ofNat 9 k.replay.length }

/-- Transmit and receive start again at SEQ 0, and INIT goes (R393). -/
def startLink (x : Port) (s : State) : State :=
  let c := initCredits s x
  let s := sendControl x (.init c) (updPort (portIx x) (fun p => { renumber p with
    rxSeq := 0, nakSent := false, stuck := 0, holding := false, holdSent := false, credits := [], owe := []
    joiner := none, training := false, st := 3, powered := true, failsInRow := 0, awaitInit := true
    lastAck := s.time.now }) s)
  forEach (port s (portIx x)).replay (emitFlit x) s

end Sys2Proof.Machine
end

