-- ==== Sys2Proof/Machine/HostPath.lean ====
section
/-! DEFINITION. How the device reaches host memory (R366 to R370): reads by the dispatcher and for remote devices,
records with their results (R301, R302), and the work of a head for the other ring positions (R408). -/
namespace Sys2Proof.Machine

/-! ## Cutting and joining -/

/-- Max Read Request Size and Max Payload Size in bytes. -/
def mrrsBytes (s : State) : Nat := 128 * 2 ^ Nat.min s.ep.cfg.mrrs.toNat 5
def mpsBytes (s : State) : Nat := 128 * 2 ^ Nat.min s.ep.cfg.mps.toNat 2

/-- Cut an address range at 4 KiB boundaries and at most `n` bytes a piece (R367, R370). -/
def splitRange (n : Nat) : Nat → Nat → Nat → List (Nat × Nat)
  | 0, _, _ => []
  | fuel + 1, a, len =>
    if len = 0 then [] else
    let k := Nat.min len (Nat.min n (4096 - a % 4096))
    (a, k) :: splitRange n fuel (a + k) (len - k)

/-- Put bytes into a list at an offset, zero-filled up to there. -/
def overlayB (l : List Byte) (off : Nat) (b : List Byte) : List Byte :=
  padTo off l ++ b ++ l.drop (off + b.length)

/-! ## Ring addresses -/

def ringSize (q : Queue) : Nat := 2 ^ (q.rsize.toNat + 6)
def descAddr (q : Queue) (seq : BitVec 32) : Nat := q.descBase.toNat * 4096 + seq.toNat % ringSize q * 64
def cplAddr (q : Queue) (seq : BitVec 32) : Nat := q.cplBase.toNat * 4096 + seq.toNat % ringSize q * 64

/-- Words of a descriptor (R289). -/
def descWord (x : Entry) (off : Nat) : Word := wordOf (sliceB x.desc off 8)
def descSeq (x : Entry) : BitVec 32 := (descWord x 0x10).extractLsb' 0 32
def descLen (x : Entry) : Nat := ((descWord x 0x10).extractLsb' 32 12).toNat
def descResEn (x : Entry) : Bool := (descWord x 0x10).getLsbD 52
def descRlimit (x : Entry) : BitVec 5 := (descWord x 0x10).extractLsb' 53 5
def resMax (x : Entry) : Nat := if x.isInline then 16 else ((descWord x 0x20).extractLsb' 0 12).toNat
def hsel (x : Entry) : BitVec 8 := if x.isInline then (descWord x 0).extractLsb' 32 8 else (descWord x 0x10).extractLsb' 44 8

/-! ## Reads (R367, R368, R408) -/

/-- Reads this endpoint has issued that have no end yet. -/
def readsOut (s : State) : Nat := (s.ep.reads.filter (fun r => r.issued && !r.remote)).length

/-- A tag that no read holds. -/
def freeTag (s : State) : Option Nat :=
  firstBelow (if s.ep.cfg.tag10 then 1024 else 256) (fun t =>
    !s.ep.reads.any (fun r => r.issued && !r.remote && r.tag.toNat = t) && !s.ep.deadTags.any (fun d => d.1.toNat = t))

/-- Change one read record. -/
def updRead (r : ReadRec) (f : ReadRec → ReadRec) (s : State) : State :=
  updEp (fun p => { p with reads := editFirst (fun y => y = r) f p.reads }) s

/-- Bytes that reads still to be answered have reserved in the completion buffer, abandoned ones among them (R357). -/
def readSpace (s : State) : Nat :=
  (s.ep.reads.filter (fun r => r.issued && !r.remote)).foldl (fun n r => n + r.len) 0
    + s.ep.deadTags.foldl (fun n d => n + d.2.2) 0

/-- The completion buffer: it holds one whole read at least. DESIGN CHOICE (log entry 121). -/
def readBuffer : Nat := 4096 + Config.readBufferExtra

/-- Class of the traffic a read belongs to: its item's, or that of the D_RD it serves. -/
def readClass (s : State) (r : ReadRec) : BitVec 2 :=
  match r.serves with
  | some (_, _, c) => c.setWidth 2
  | none => (entry s r.entry.val).cls

/-- Traffic of a class-0 queue goes on VC1 while it is enabled (R373). -/
def onVc1 (s : State) (cls : BitVec 2) : Bool := s.ep.cfg.vc1En && cls = 0

/-- A read that this endpoint may issue now: tags, the limit of reads and the buffer for the whole of it (R357, R367). -/
def readFits (s : State) (r : ReadRec) : Bool :=
  mayIssue s && decide (readsOut s < if s.ep.cfg.tag10 then 512 else 256) && decide (readSpace s + r.len ≤ readBuffer)

/-- Issue one waiting read: at this endpoint, or over the ridge; with no route to the head the item fails. -/
def issueRead (r : ReadRec) (s : State) : State :=
  match (if r.serves.isSome then Head.here else headOf s) with
  | .nowhere => s
  | .here =>
    if !readFits s r then s else
    match freeTag s with
    | none => s
    | some t =>
      let a := reqAttr s (onVc1 s (readClass s r)) true
      let s := updRead r (fun y => { y with tag := BitVec.ofNat 16 t, issued := true, remote := false, since := s.time.now }) s
      emit (.hostRead (BitVec.ofNat 10 t) r.addr r.len a) s
  | .there d =>
    let tg := takeTag s
    let q : RReq := { op := 0x10, tag := tg.1, dst := d, addr := r.addr, port := .W, thr := none, entry := some r.entry
                      left := r.len }
    let body : FlitBody := .msg 0x10 d (deviceId s) 0 false tg.1 r.addr (bytesOfNat 2 r.len)
    match sendReq (entry s r.entry.val).cls body q tg.2 with
    | none => endItem r.entry.val true 9 5 (countUnreach s)
    | some s => updRead r (fun y => { y with tag := tg.1, issued := true, remote := true, since := s.time.now }) s

/-- The largest read that may be issued now: MRRS here, or at the head that serves this device (R367, R408).
DESIGN CHOICE (log entry 121). -/
def readLimit (s : State) (r : ReadRec) : Nat :=
  match (if r.serves.isSome then Head.here else headOf s) with
  | .here => mrrsBytes s
  | .there d => 128 * 2 ^ Nat.min (Config.headMrrs d s.time.now).toNat 5
  | .nowhere => 4096

/-- A read that has not been issued is split at every 4 KiB boundary and wherever MRRS requires (R367). -/
def splitRead (n : Nat) (r : ReadRec) : List ReadRec :=
  (splitRange n (r.len + 1) r.addr.toNat r.len).map (fun p => { r with addr := BitVec.ofNat 64 p.1, len := p.2 })

/-- Issue every read that waits, class-0 traffic on VC1 first (R373). -/
def pumpReads (s : State) : State :=
  let s := updEp (fun p => { p with
    reads := p.reads.flatMap (fun r => if r.issued then [r] else splitRead (readLimit s r) r) }) s
  forEach (urgentFirst (fun r => onVc1 s (readClass s r)) (s.ep.reads.filter (fun r => !r.issued))) (fun r acc =>
    if acc.ep.reads.contains r then issueRead r acc else acc) s

/-- Ask for bytes of host memory for an entry. -/
def queueReads (e : Fin 65536) (isDesc : Bool) (a len : Nat) (s : State) : State :=
  let r : ReadRec := ReadRec.mk 0 e isDesc (BitVec.ofNat 64 a) len [] 0 false none false false
  pumpReads (updEp (fun p => { p with reads := p.reads ++ splitRead 4096 r }) s)

/-- Pieces of at most 64 bytes. -/
def chunks64 (a : Nat) (l : List Byte) : List (Nat × List Byte) :=
  (List.range ((l.length + 63) / 64)).map (fun i => (a + 64 * i, (l.drop (64 * i)).take 64))

/-- A read has every byte: they go to its entry, or back to the device this head serves. -/
def readWhole (r : ReadRec) (bytes : List Byte) (s : State) : State :=
  let s := updEp (fun p => { p with reads := removeFirst (fun y => y = r) p.reads }) s
  match r.serves with
  | some (src, tag, cls) =>
    forEach (chunks64 r.addr.toNat bytes) (fun c acc =>
      sendRsp (cls.setWidth 2) (.msg 0x11 src (deviceId acc) 0 false tag (BitVec.ofNat 64 c.1) c.2) acc) s
  | none =>
    let x := entry s r.entry.val
    let s := if r.isDesc then
        updEntry r.entry.val (fun y => { y with desc := overlayB y.desc (r.addr.toNat - descAddr (queue s x.queue.val) x.seq) bytes }) s
      else updEntry r.entry.val (fun y => { y with data := overlayB y.data (r.addr - descWord x 8).toNat bytes }) s
    pumpReads s

/-- The tag of a read that ended early stays out of use while bytes of it may come (R368, R378). -/
def keepDead (l : List ReadRec) (s : State) : State :=
  updEp (fun p => { p with deadTags := p.deadTags ++ (l.map deadOf).filter (fun d => 0 < d.2.2) }) s

/-- A read ends with an error: the item fails, or the device this head serves is told with STATUS and, where the host
answered, one byte of DETAIL. -/
def readFailed (r : ReadRec) (cause detail : BitVec 8) (status : BitVec 2) (s : State) : State :=
  match r.serves with
  | some (src, tag, cls) =>
    let s := keepDead (s.ep.reads.filter (fun y => y.serves = r.serves && y.issued && y ≠ r)) s
    let s := updEp (fun p => { p with reads := p.reads.filter (fun y => y.serves ≠ r.serves) }) s
    pumpReads (sendRsp (cls.setWidth 2) (.msg 0x11 src (deviceId s) status (cause = 2) tag r.addr [detail]) s)
  | none =>
    let s := updEp (fun p => { p with reads := removeFirst (fun y => y = r) p.reads }) s
    pumpReads (endItem r.entry.val true cause detail s)

/-! ## Records (R301, R302, R370) -/

/-- A result byte with its line poisoned reads 0 (R370). -/
def resultByte (x : Entry) (i : Nat) : Byte :=
  if (x.resPoison[i / 64]?).getD false then 0 else (x.result[i]?).getD 0

/-- TAG as the record carries it; before the descriptor has been read nothing gives it. DESIGN CHOICE (log entry 50). -/
def recordTag (s : State) (x : Entry) : Word :=
  if x.isInline then 0
  else match keptTag x with
    | some w => w
    | none => wordOf ((List.range 8).map (fun i => Config.freeByte (s.fresh + i)))

/-- The 64 bytes of a record (R301). DESIGN CHOICE (log entry 50). -/
def recordBytes (s : State) (x : Entry) : List Byte :=
  let w1 := at' x.seq 0 ||| at' (BitVec.ofNat 10 x.queue.val) 32 ||| at' x.cls 42 ||| atB x.fail 44 ||| atB x.trunc 45
    ||| at' x.lastStep 48
  let w2 := at' x.cause 0 ||| at' x.detail 8 ||| at' x.code 16 ||| at' x.resLen 32 ||| at' x.lost 48
  let own : Word := match x.owner with
    | some t => at' (BitVec.ofNat 10 (thrIx t)) 16 ||| atB (isAdze t) 26 ||| at' x.gen 32
    | none => 0
  bytesOf 8 (recordTag s x) ++ bytesOf 8 w1 ++ bytesOf 8 w2 ++ bytesOf 8 x.tAccept ++ bytesOf 8 x.tEnd
    ++ bytesOf 8 (at' (deviceId s) 0 ||| own)
    ++ (List.range 16).map (fun i => if i < x.resLen.toNat then resultByte x i else 0)

/-- Result bytes are written to the host for this item. -/
def writesResult (x : Entry) : Bool := !x.isInline && descResEn x && x.resLen ≠ 0

/-- The writes of the result: address, bytes and whether the line was poisoned. -/
def resultWrites (n : Nat) (x : Entry) : List (Nat × List Byte × Bool) :=
  let base := (descWord x 0x18).toNat
  let len := x.resLen.toNat
  let n := if x.resPoison.any id then 64 else n
  let cut := fun (a k : Nat) => (a, (List.range k).map (fun i => resultByte x (a - base + i)),
    (x.resPoison[(a - base) / 64]?).getD false)
  if x.resPoison.any id then
    (List.range ((len + 63) / 64)).flatMap (fun i =>
      (splitRange n 3 (base + 64 * i) (Nat.min 64 (len - 64 * i))).map (fun p => cut p.1 p.2))
  else (splitRange n (len + 1) base len).map (fun p => cut p.1 p.2)

/-- An item whose result came from a poisoned line is entered in its instance's log (R370). -/
def notePoisonedResult (x : Entry) (s : State) : State :=
  if !writesResult x || !x.resPoison.any id then s else
  updInst (queue s x.queue.val).inst.toNat (fun i => { i with
    resPoison := put (0, 0) i.resPoison (i.poisoned.toNat % 16) (x.seq, BitVec.ofNat 10 x.queue.val)
    poisoned := i.poisoned + 1 }) s

/-- The record is delivered: the entry is FREE and FLOOR advances (R302). -/
def recordDone (e : Nat) (s : State) : State :=
  let q := (entry s e).queue.val
  let s := freeEntry e s
  updQueue q (fun x => { x with delivered := x.delivered + 1, floor := floorOf s q }) s

/-- The record goes out at this endpoint: result, record, MSI-X. -/
def deliverHere (e : Nat) (s : State) : State :=
  let x := entry s e
  let q := queue s x.queue.val
  let v := onVc1 s x.cls
  let a := reqAttr s v false
  let rs := if writesResult x then resultWrites (mpsBytes s) x else []
  let s := forEach rs (fun w acc => emit (.hostWrite (BitVec.ofNat 64 w.1) w.2.1 w.2.2 a) acc) s
  let s := emit (.hostWrite (BitVec.ofNat 64 (cplAddr q x.seq)) (recordBytes s x) false a) s
  let s := if x.desc.length < 64 && !x.isInline then { s with fresh := s.fresh + 8 } else s
  let s := if q.vecEn then msiHere q.vector.toNat (x.cls = 0) s else s
  recordDone e (notePoisonedResult x s)

/-- REC goes to the head (R408). -/
def sendRec (e : Fin 65536) (d : BitVec 16) (s : State) : State :=
  let x := entry s e.val
  let q := queue s x.queue.val
  let tag : BitVec 16 := (BitVec.ofBool q.vecEn ++ q.vector).setWidth 16
  let slot : BitVec 64 := BitVec.ofNat 64 (cplAddr q x.seq)
  let rq : RReq := { op := 0x14, tag := tag, dst := d, addr := slot, port := .W, thr := none, entry := some e, left := 1 }
  match sendReq x.cls (.msg 0x14 d (deviceId s) 0 false tag slot (recordBytes s x)) rq s with
  | none => s
  | some s => updEntry e.val (fun y => { y with recSent := true }) s

/-- The record goes over the ridge: result bytes as D_WR, then REC once all are acknowledged; a lost REC goes alone. -/
def deliverThere (e : Fin 65536) (d : BitVec 16) (s : State) : State :=
  let x := entry s e.val
  let rs := if writesResult x then
      (resultWrites 64 x).flatMap (fun w => (chunks64 w.1 w.2.1).map (fun c => (c.1, c.2, w.2.2))) else []
  if rs.isEmpty || x.dwrDone then sendRec e d s else
  forEach rs (fun w acc =>
    let tg := takeTag acc
    let rq : RReq := { op := 0x12, tag := tg.1, dst := d, addr := BitVec.ofNat 64 w.1, port := .W, thr := none
                       entry := some e, left := 1 }
    match sendReq x.cls (.msg 0x12 d (deviceId acc) 0 w.2.2 tg.1 (BitVec.ofNat 64 w.1) w.2.1) rq tg.2 with
    | none => acc
    | some acc => updEntry e.val (fun y => { y with dwrWait := y.dwrWait + 1 }) acc) s

/-- Records are no longer delivered: after step 6 of R45, or with main power in reset. -/
def deliveryOver (s : State) : Bool :=
  s.pw.inReset || (match s.pw.fence with | .leaving _ _ _ => true | .done => true | _ => false)

/-- A record of a lower sequence number of the queue has not gone yet. -/
def earlierHeld (s : State) (e : Nat) : Bool :=
  let x := entry s e
  let ai := (queue s x.queue.val).ai
  s.led.ent.any (fun y => y.1 ≠ e && y.2.st = .closing && y.2.queue = x.queue && !y.2.recSent && y.2.dwrWait = 0
    && decide ((ai - x.seq).toNat < (ai - y.2.seq).toNat))

/-- Deliver the record of a CLOSING entry where delivery is possible now (R302, R304, R357, R366). -/
def deliverRecord (e : Fin 65536) (s : State) : State :=
  let x := entry s e.val
  if x.st ≠ .closing || !(queue s x.queue.val).armed || deliveryOver s || x.recSent || x.dwrWait ≠ 0 || earlierHeld s e.val then s
  else match headOf s with
  | .nowhere => s
  | .here => if mayIssue s then deliverHere e.val s else s
  | .there d => deliverThere e d s

/-! ## The head's work for other ring positions (R408) -/

/-- Answer a D_WR or REC. -/
def headAnswer (j : HeadJob) (op : BitVec 6) (status : BitVec 2) (s : State) : State :=
  sendRsp j.cls (.msg op j.src (deviceId s) status false j.tag j.addr []) s

/-- One job of a head; false where it waits. -/
def headJob (j : HeadJob) (s : State) : Bool × State :=
  let down := !s.ep.up
  if j.op = 0x12 then
    if down then (true, headAnswer j 0x13 2 s)
    else if !mayIssue s then (false, s)
    else (true, headAnswer j 0x13 0 (emit (.hostWrite j.addr j.data j.poison (reqAttr s (onVc1 s j.cls) false)) s))
  else
    let w := wordOf (sliceB j.data 8 8)
    let key : BitVec 16 × BitVec 10 × BitVec 32 × BitVec 64 := (j.src, w.extractLsb' 32 10, w.extractLsb' 0 32, j.addr)
    if s.ridge.issued.any (fun k => k.1 = key.1 && k.2.1 = key.2.1 && k.2.2.1 = key.2.2.1) then (true, headAnswer j 0x15 0 s)
    else if down then (true, headAnswer j 0x15 2 s)
    else if !mayIssue s || 8192 ≤ s.ridge.issued.length then (false, s)
    else
      let s := emit (.hostWrite j.addr j.data false (reqAttr s (onVc1 s j.cls) false)) s
      let s := if j.tag.getLsbD 11 then msiHere (j.tag.extractLsb' 0 11).toNat (j.cls = 0) s else s
      (true, headAnswer j 0x15 0 (updRidge (fun r => { r with issued := r.issued ++ [key] }) s))

/-- The waiting jobs of the head: those of class 0 first while they go on VC1 (R373), each class in order. -/
def pumpHead (s : State) : State :=
  let js := urgentFirst (fun j => onVc1 s j.cls) s.ridge.atHead
  forEach js (fun j acc =>
    let r := headJob j acc
    if r.1 then r.2 else updRidge (fun x => { x with atHead := x.atHead ++ [j] }) acc)
    (updRidge (fun x => { x with atHead := [] }) s)

/-- The endpoint may issue requests again: what waited goes (R357, R378). -/
def pumpEndpoint (s : State) : State := pumpReads (pumpHead (flushMsi s))

/-! ## The endpoint's link is lost (R304, R368, R378) -/

/-- Reads in flight end: items in FETCH with a read fail HOST_READ 4, and devices served here are told DOWN.
DEDUCED (log entry 51). -/
def hostLinkLost (s : State) : State :=
  let fetchMine := headOf s = .here
  let s := forEach (s.ep.reads.filter (fun r => r.serves.isSome)) (fun r acc =>
    if acc.ep.reads.contains r then readFailed r 9 4 2 acc else acc) s
  let s := if fetchMine then forEach s.led.ent (fun e acc =>
      if (entry acc e.1).st = .fetch then endItem e.1 true 9 4 acc else acc) s else s
  let s := updEp (fun p => { p with reads := p.reads.filter (fun r => r.remote), deadTags := [] }) s
  pumpHead s

end Sys2Proof.Machine
end

