-- ==== Sys2Proof/Machine/WorkItems.lean ====
section
/-! DEFINITION. Ingress, dispatch and the item ledger (R282 to R308). -/
namespace Sys2Proof.Machine

/-! ## Item buffers (R266, R290) -/

/-- Bytes of a thread's data area: the buffer less its 64-byte head. -/
def dataArea (s : State) : Thr → Nat
  | .core _ => 4032
  | .adze j => 2 ^ (engine s (j.val / 8)).ibufSize.toNat * 256 - 64

def dispCore (s : State) (i : Nat) : DispCore := look DispCore.reset s.led.disp i

/-- Physical address of a thread's item buffer. -/
def bufAddr (s : State) : Thr → Nat
  | .core i => (dispCore s i.val).ibuf.toNat * 4096
  | .adze j =>
    let e := j.val / 8
    0xF00004000000 + e * 0x40000 + (engine s e).ibufBase.toNat * 1024 + j.val % 8 * (2 ^ (engine s e).ibufSize.toNat * 256)

/-- The buffer may be written: a core thread's lies in an installed range of its partition (R293). -/
def bufOk (s : State) : Thr → Bool
  | .core i => ownDram s (partOf s (.core i)) (BitVec.ofNat 48 (bufAddr s (.core i)))
  | .adze _ => true

/-- The 64-byte head of the buffer and the data after it (R290). -/
def bufferBytes (e : Nat) (x : Entry) : List Byte :=
  let len := x.dataLen.getD 0
  let w1 := at' x.seq 0 ||| at' (BitVec.ofNat 10 x.queue.val) 32 ||| at' x.cls 42 ||| at' (hsel x) 44 ||| atB x.isInline 52
  let w2 := at' (BitVec.ofNat 16 e) 0 ||| at' x.etag 16 ||| at' (BitVec.ofNat 12 len) 32
  bytesOf 8 (if x.isInline then 0 else descWord x 0) ++ bytesOf 8 w1 ++ bytesOf 8 w2 ++ bytesOf 8 x.tAccept
    ++ (if x.isInline then List.replicate 24 0 else sliceB x.desc 0x28 24) ++ bytesOf 8 (BitVec.ofNat 64 (resMax x))
    ++ (if x.isInline then sliceB x.desc 8 len else padTo len x.data)

/-! ## Eligibility (R278, R291) -/

/-- The thread's mask admits the class. -/
def admits (s : State) (t : Thr) (c : BitVec 2) : Bool :=
  match t with
  | .core i => (dispCore s i.val).en && (dispCore s i.val).classes.getLsbD c.toNat
  | .adze j => (engine s (j.val / 8)).cls.getLsbD (4 * (j.val % 8) + c.toNat)

/-- TARGET allows the thread's kind. -/
def kindAllowed (q : Queue) (t : Thr) : Bool := if isAdze t then q.target.getLsbD 0 else q.target.getLsbD 1

/-- The thread's engine is in service. -/
def inService (s : State) : Thr → Bool
  | .core _ => true
  | .adze j => !(engine s (j.val / 8)).outOfService

/-- Some entry has reserved the thread. -/
def reserved (s : State) (t : Thr) : Bool := s.led.ent.any (fun e => e.2.st = .fetch && e.2.resv = some t)

/-- The thread may be given the item (R291). An item whose DATA_LEN is known and that no data area of its partition holds
any more stays QUEUED: DETAIL 2 is judged only when a descriptor has been read. DESIGN CHOICE (log entry 92). -/
def eligible (s : State) (q : Queue) (x : Entry) (t : Thr) : Bool :=
  let th := thr s t
  partOf s t = some q.part.toNat && (part s q.part.toNat).st = .active && kindAllowed q t && admits s t q.cls
    && inService s t && th.run ≠ .notStarted && th.run ≠ .stopped && !halted th && (heldEntry s t).isNone
    && !reserved s t && (x.isInline || decide (x.dataLen.getD 0 ≤ dataArea s t))

/-- Among candidates, the thread given an item least recently; never given comes first, then the lower index. -/
def leastRecent (given : List Nat) (l : List Thr) : Option Thr :=
  match l.find? (fun t => !given.contains (thrKey t)) with
  | some t => some t
  | none => (given.find? (fun k => l.any (fun t => thrKey t = k))).bind thrOfKey

/-- The thread for an item (R292): an adze thread where TARGET allows one, else a core thread. -/
def chooseThread (s : State) (q : Queue) (x : Entry) : Option Thr :=
  let ts := (threadsOf s q.part.toNat).filter (eligible s q x)
  match leastRecent s.led.given (ts.filter isAdze) with
  | some t => some t
  | none => leastRecent s.led.given (ts.filter (fun t => !isAdze t))

/-! ## Selection (R292, R295) -/

/-- The queue's oldest QUEUED item. -/
def headItem (s : State) (q : Nat) : Option Nat :=
  let ai := (queue s q).ai
  let es := s.led.ent.filter (fun e => e.2.st = .queued && e.2.queue.val = q)
  (es.foldl (fun (acc : Option (Nat × Nat)) e =>
    let d := (ai - e.2.seq).toNat
    match acc with
    | none => some (e.1, d)
    | some b => if b.2 < d then some (e.1, d) else acc) none).map (·.1)

/-- Queues of a partition and class with a waiting item and an eligible thread: queue, entry, thread. -/
def candidates (s : State) (p c : Nat) : List (Nat × Nat × Thr) :=
  (s.queue.filter (fun e => e.2.part.toNat = p && e.2.cls.toNat = c)).filterMap (fun e =>
    (headItem s e.1).bind (fun k => (chooseThread s e.2 (entry s k)).map (fun t => (e.1, k, t))))

/-- Class-1 to 3 dispatches of a partition in the last 10 µs. -/
def recentBraced (s : State) (p : Nat) : List Word :=
  (part s p).braceTimes.filter (fun t => decide (s.time.now.toNat - t.toNat < 10000))

/-- The class may be dispatched now (R295). -/
def classOpen (s : State) (p c : Nat) : Bool :=
  c = 0 || !s.pw.braced || (recentBraced s p).length < s.led.braceRate.toNat

/-- Deficit round robin: the queue served last goes on while it has items left in its round; then the next in order,
with a round of WEIGHT items. -/
def drrPick (s : State) (p c : Nat) (l : List (Nat × Nat × Thr)) : Option ((Nat × Nat × Thr) × Nat) :=
  let last := look 0 (part s p).lastq c
  let left := look 0 (part s p).credits (4096 * c + last)
  let weight := fun (q : Nat) => (queue s q).weight.toNat
  match (if left = 0 then none else l.find? (fun e => e.1 = last)) with
  | some e => some (e, left - 1)
  | none =>
    match l.find? (fun e => decide (last < e.1)), l with
    | some e, _ => some (e, weight e.1 - 1)
    | none, e :: _ => some (e, weight e.1 - 1)
    | none, [] => none

/-- The buffer write begins, or the item ends where a core thread's buffer is in no range of its partition (R293). -/
def startBuffer (e : Nat) (s : State) : State :=
  let x := entry s e
  match x.resv with
  | none => s
  | some t =>
    if bufOk s t then updEntry e (fun y => { y with writing := true }) s else endItem e true 0x0A 4 s

/-- Reserve the thread and begin to fetch the item. -/
def beginItem (e : Fin 65536) (t : Thr) (c : BitVec 2) (s : State) : State :=
  let s := updEntry e.val (fun y => { y with st := .fetch, resv := some t, cls := c, descOk := y.isInline }) s
  let s := dispVote t true s
  let x := entry s e.val
  if x.isInline then startBuffer e.val s
  else queueReads e true (descAddr (queue s x.queue.val) x.seq) 64 s

/-- Items wait for the host: this device is a head whose link is down or whose endpoint is frozen (R304). -/
def hostHolds (s : State) : Bool := decide (headOf s = .here) && (!s.ep.up || s.ep.frozen)

/-- Dispatch of one partition goes on: it is ACTIVE, the device neither fenced nor about to reset, and the host's path
serves (R304). -/
def mayDispatch (s : State) (p : Nat) : Bool :=
  (part s p).st = .active && !s.pw.fenced && s.pw.flush.isNone && !standbyCond s && !hostHolds s

/-- DISPATCH_SELECT: the next item of a partition, in the order of R292. -/
def execDispatchSelect (p : Fin 8) (s : State) : Result :=
  if !mayDispatch s p.val then .next s else
  let pick := (List.range 4).findSome? (fun c =>
    if classOpen s p.val c then (drrPick s p.val c (candidates s p.val c)).map (fun r => (c, r)) else none)
  match pick with
  | none => .next s
  | some (c, (q, k, t), left) =>
    let s := updPart p.val (fun x => { x with
      lastq := put 0 x.lastq c q
      credits := put 0 (x.credits.filter (fun e => e.1 / 4096 ≠ c)) (4096 * c + q) left
      braceTimes := if c = 0 then x.braceTimes else recentBraced s p.val ++ [s.time.now] }) s
    if h : k < 65536 then .next (beginItem ⟨k, h⟩ t (BitVec.ofNat 2 c) s) else .next s

/-! ## Fetch (R289, R293, R369) -/

/-- No read of the entry is without its end. -/
def readsDone (s : State) (e : Nat) : Bool := !s.ep.reads.any (fun r => r.serves.isNone && r.entry.val = e)

/-- DETAIL of the first descriptor check that fails; none when all pass. DEDUCED (log entry 51). -/
def descFault (x : Entry) : Option (BitVec 8) :=
  if descSeq x ≠ x.seq then some 1
  else if 4032 < descLen x || 4032 < resMax x then some 2
  else if (descWord x 0x10).extractLsb' 58 6 ≠ 0 || (descWord x 0x20).extractLsb' 12 52 ≠ 0 then some 3
  else if 28 ≤ (descRlimit x).toNat then some 4
  else none

/-- Every byte of a host range lies in the instance's DMA ranges; an empty range does (R369). -/
def dmaOk (i : Inst) (a len : Nat) : Bool :=
  let fuel := i.dma.length
  let rec cover : Nat → Nat → Bool
    | 0, a' => decide (a + len ≤ a')
    | k + 1, a' =>
      if a + len ≤ a' then true else
      match i.dma.find? (fun e => match e.2 with
        | some (b, l) => decide (b.toNat * 4096 ≤ a') && decide (a' < (l.toNat + 1) * 4096)
        | none => false) with
      | some (_, some (_, l)) => cover k ((l.toNat + 1) * 4096)
      | _ => false
  cover fuel a

/-- Some thread of the partition has a data area for the length (R293). -/
def someAreaHolds (s : State) (q : Queue) (len : Nat) : Bool :=
  let p := part s q.part.toNat
  let adze := (bitsOf p.engines).any (fun e => (thrsOfEngine e).any (fun t =>
    q.target.getLsbD 0 && admits s t q.cls && decide (len ≤ dataArea s t)))
  let cores := s.led.disp.any (fun e => match thrOfIndex e.1 false with
    | some t => q.target.getLsbD 1 && partOf s t = some q.part.toNat && admits s t q.cls && decide (len ≤ 4032)
    | none => false)
  adze || cores

/-- DESCRIPTOR_READ_DONE: the descriptor is checked; the data is read, or the item goes back, or ends. -/
def execDescriptorReadDone (e : Fin 65536) (s : State) : Result :=
  let x := entry s e.val
  if x.st ≠ .fetch || x.isInline || x.descOk || !readsDone s e.val || x.desc.length < 64 then .next s else
  let q := queue s x.queue.val
  let len := descLen x
  match descFault x, x.resv with
  | some d, _ => .next (endItem e.val true 8 d s)
  | none, none => .next s
  | none, some t =>
    let s := updEntry e.val (fun y => { y with dataLen := some len }) s
    if dataArea s t < len then
      if someAreaHolds s q len then .next (requeue e.val s) else .next (endItem e.val true 8 2 s)
    else
      let i := inst s q.inst.toNat
      if (len ≠ 0 && !dmaOk i (descWord x 8).toNat len)
          || (descResEn x && resMax x ≠ 0 && !dmaOk i (descWord x 0x18).toNat (resMax x)) then
        .next (endItem e.val true 9 1 s)
      else .next (queueReads e false (descWord x 8).toNat len (updEntry e.val (fun y => { y with descOk := true, data := [] }) s))

/-- ITEM_DATA_READ_DONE: every data byte is here; the buffer write begins. -/
def execItemDataReadDone (e : Fin 65536) (s : State) : Result :=
  let x := entry s e.val
  if x.st ≠ .fetch || x.isInline || !x.descOk || x.writing || !readsDone s e.val || x.data.length < x.dataLen.getD 0 then .next s
  else .next (startBuffer e.val s)

/-- Priority of a partition's DISPATCH events for a class (EVR_PART_p.DPRIO). -/
def dispPrio (s : State) (p : Nat) (c : BitVec 2) : BitVec 4 := (part s p).dprio.extractLsb' (4 * c.toNat) 4

/-- ITEM_BUFFER_WRITTEN: with the write complete the owner is recorded and the DISPATCH event sent (R293, R294); a write
completed with error ends the item, and may or may not have been performed (R179). -/
def execItemBufferWritten (e : Fin 65536) (err : Option LostCause) (s : State) : Result :=
  let x := entry s e.val
  match x.resv with
  | none => .next s
  | some t =>
    if x.st ≠ .fetch || !x.writing then .next s else
    let a : BitVec 48 := BitVec.ofNat 48 (bufAddr s t)
    let served := !isDramLine (lineOf a) || lineServed s (lineOf a)
    match (if served then err else some .targetDown) with
    | some c =>
      let fb := freeBit s
      let s := if fb.1 && served then homeWrite a (bufferBytes e.val x) false fb.2 else fb.2
      .next (endItem e.val true 0x0A ((causeCode c).setWidth 8) s)
    | none =>
      let s := homeWrite a (bufferBytes e.val x) false s
      let q := queue s x.queue.val
      let own := srcEnt s (srcOfThr t)
      let s := updEntry e.val (fun y => { y with
        st := .owned, owner := some t, gen := own.gen, resv := none, writing := false, tOwned := s.time.now
        evSent := true, rlimit := if !x.isInline && descRlimit x ≠ 0 then descRlimit x else q.rlimit }) s
      let s := setHeld t (some (e.val, x.etag)) s
      let s := updLed (fun l => { l with given := l.given.filter (fun k => k ≠ thrKey t) ++ [thrKey t] }) s
      let p := (partOf s t).getD 0
      .next (acceptEvent t ⟨1, dispPrio s p x.cls, false, false, BitVec.ofNat 16 x.queue.val, 0,
        BitVec.ofNat 64 e.val ||| at' x.etag 16, none⟩ s)

/-! ## Ends (R296 to R299) -/

/-- The thread no longer holds an item. -/
def releaseThread (t : Thr) (s : State) : State := dispVote t false (setHeld t none s)

/-- The ledger takes an ITEM_DONE of thread `t` with the LOST_PENDING attached to it: from the item's recorded owner and
generation alone (R250, R297). -/
def ledgerDone (t : Thr) (v : Word) (lost : BitVec 16) (s : State) : State :=
  let e := (v.extractLsb' 0 16).toNat
  let x := entry s e
  let tagOk := x.etag = v.extractLsb' 16 16
  let names := heldEntry s t = some (e, v.extractLsb' 16 16)
  if x.st ≠ .owned || x.owner ≠ some t || x.gen ≠ (srcEnt s (srcOfThr t)).gen || !tagOk then
    let s := countLate s
    if names then releaseThread t s else s
  else
    let want := (v.extractLsb' 36 12).toNat
    let len := Nat.min want (resMax x)
    let fail := v.getLsbD 32
    let a := bufAddr s t + 64
    let s := homeRead (BitVec.ofNat 48 a) len s
    let res := readBytes s a len
    let lines := (List.range ((len + 63) / 64)).map (fun i => isPoisoned s (lineOf (BitVec.ofNat 48 (a + 64 * i))))
    let s := endItem e (fail || lost ≠ 0) (if fail then 1 else if lost ≠ 0 then 3 else 0) 0 s
    let s := updEntry e (fun y => { y with
      lastStep := 7, code := v.extractLsb' 48 16, resLen := BitVec.ofNat 16 len, trunc := decide (resMax x < want)
      lost := lost, result := res, resPoison := lines }) s
    releaseThread t s

/-- Physical address of a die's ITEM_DONE. -/
def itemDonePa (d : Nat) : Nat := 0xF00011800000 + d * 0x2000000

/-- The released store of a thread that carries this write, if there is one. -/
def carrying (s : State) (t : Thr) (pa : Nat) (v : Word) : Option Access :=
  (thr s t).outst.find? (fun a => a.pa.toNat = pa && a.size = 8 && a.data = v && !a.sent)

/-- ITEM_DONE: the source is checked under R249; a write that is not one aligned STD is counted in LATE (R296, R297).
DESIGN CHOICE (log entry 53). -/
def execItemDone (t : Thr) (gen : BitVec 16) (site : BitVec 7) (v : Word) (whole : Bool) (s : State) : Result :=
  let x := srcOfThr t
  let recv : Word := at' (4 : BitVec 4) 12 ||| at' (Config.hubAgent 0) 0
  match checkSrc s x gen site none with
  | .stale => .next (staleDiscard x gen site recv s)
  | .down => .next (downDiscard x gen site recv s)
  | .stray => .next (strayDiscard x site recv s)
  | .good =>
    let c := carrying s t (itemDonePa (dieOfThr t)) v
    let lost := match c with | some a => a.lost | none => (thr s t).lostPending
    let s := match c with | some a => removeOut t a.id s | none => s
    .next (if whole then ledgerDone t v lost s else countLate s)

/-- RUN_LIMIT_EXPIRE (R298). -/
def execRunLimitExpire (e : Fin 65536) (s : State) : Result :=
  let x := entry s e.val
  match limitNs x.rlimit with
  | none => .next s
  | some n => if x.st = .owned && x.tOwned.toNat + n ≤ s.time.now.toNat then .next (endItem e.val true 6 0 s) else .next s

/-- QUEUE_WAIT_EXPIRE (R298). -/
def execQueueWaitExpire (e : Fin 65536) (s : State) : Result :=
  let x := entry s e.val
  match limitNs x.qlimit with
  | none => .next s
  | some n => if x.st = .queued && x.tAccept.toNat + n ≤ s.time.now.toNat then .next (endItem e.val true 7 0 s) else .next s

/-- RECORD_DELIVERY: the result, the record and the MSI-X message are issued; the entry frees, FLOOR advances (R302). -/
def execRecordDelivery (e : Fin 65536) (s : State) : Result := .next (deliverRecord e s)

/-! ## Ingress (R284 to R286, R382) -/

/-- A refusal creates no item; the queue counts it (R286). -/
def refuseIngress (q : Nat) (reason : BitVec 4) (value : BitVec 32) (s : State) : State :=
  let s := updQueue q (fun x => { x with lastReason := reason, lastValue := value, refused := satInc x.refused }) s
  if reason = 3 then updEp (fun p => { p with fRefused := satInc p.fRefused }) s else s

/-- The first check of R286 that fails. `frozen` is the endpoint through which the write entered.
DEDUCED (log entry 77). -/
def ingressReason (s : State) (q i : Nat) (inl frozen whole : Bool) (seqOk fmtOk : Bool) (n : Nat) : Option (BitVec 4) :=
  let x := queue s q
  if !x.en || x.inst.toNat ≠ i || x.inlineMode ≠ inl then some 1
  else if x.quenched then some 2
  else if frozen then some 3
  else if s.pw.quiesce then some 4
  else if s.pw.fenced || s.pw.flush.isSome then some 5
  else if s.pw.bringing && !s.pw.ready.part.getLsbD x.part.toNat then some 6
  else if !whole then some 8
  else if !seqOk then some 7
  else if !fmtOk then some 8
  else if x.quota.toNat < heldOf s q + n then some 9
  else none

/-- The lowest entry that is FREE. DESIGN CHOICE (log entry 49). -/
def freeSlot (s : State) : Option Nat := firstBelow 65536 (fun e => (entry s e).st = .free)

/-- One item is accepted: an entry is allocated with the next sequence number (R46, R284, R285).
DESIGN CHOICE (log entry 49). -/
def acceptItem (q : Fin 1024) (item : List Byte) (s : State) : State :=
  match freeSlot s with
  | none => s
  | some e =>
    let x := queue s q.val
    let s := updEntry e (fun y => { Entry.reset with
      st := .queued, queue := q, seq := x.ai, cls := x.cls, etag := y.etag + 1, tAccept := s.time.now
      qlimit := x.qlimit, isInline := x.inlineMode, desc := item
      dataLen := if x.inlineMode then some (fieldB item 5 1 % 64) else none }) s
    updQueue q.val (fun y => { y with ai := y.ai + 1 }) s

def acceptItems (q : Fin 1024) : Nat → State → State
  | 0, s => s
  | n + 1, s => acceptItems q n (acceptItem q [] s)

/-- A descriptor doorbell for a queue (R284). DEDUCED (log entry 77). -/
def ringQueue (q : Fin 1024) (i : Nat) (v : Word) (whole frozen : Bool) (s : State) : State :=
  let x := queue s q.val
  let pi : BitVec 32 := v.extractLsb' 0 32
  let n := (pi - x.ai).toNat
  match ingressReason s q.val i false frozen whole (decide (n ≠ 0) && decide (n ≤ ringSize x)) (v.extractLsb' 32 32 = 0) n with
  | some r => refuseIngress q.val r (if whole then pi else 0) s
  | none => acceptItems q n s

/-- An inline item for a queue (R285). -/
def inlineQueue (q : Fin 1024) (i : Nat) (v : BitVec 512) (whole frozen : Bool) (s : State) : State :=
  let seq : BitVec 32 := v.extractLsb' 0 32
  let fmt := v.extractLsb' 46 18 = 0 && (v.extractLsb' 40 6).toNat ≤ 56
  match ingressReason s q.val i true frozen whole (seq = (queue s q.val).ai) fmt 1 with
  | some r => refuseIngress q.val r (if whole then seq else 0) s
  | none => acceptItem q (bytesOfNat 64 v.toNat) s

/-- A doorbell or inline write to a slot of an instance page: VC1 takes class-0 queues only (R373); an unmapped slot
discards it (R382). -/
def pageWrite (i : Fin 256) (slot : Nat) (vc1 : Bool) (act : Fin 1024 → State → State) (s : State) : State :=
  let q := look none (inst s i.val).qmap slot
  let class0 : Bool := match q with | some k => (queue s k.val).cls = 0 | none => false
  if vc1 && !class0 then updInst i.val (fun x => { x with vcMisuse := satInc x.vcMisuse }) s
  else match q with
    | none => updInst i.val (fun x => { x with unmapped := satInc x.unmapped }) s
    | some k => act k s

end Sys2Proof.Machine
end

