-- ==== Sys2Proof/Machine/Events.lean ====
section
/-! DEFINITION. Events (R309 to R328): sending, injection, timers, the record writes of the event logic, and the event
registers of a thread. -/
namespace Sys2Proof.Machine

/-! ## Event registers (R323) -/

/-- A DISPATCH event is held for the thread at the router or in the wake buffer. -/
def dispatchHeld (s : State) (t : Thr) : Bool :=
  (thr s t).ev.held.isSome || s.pw.wake.any (fun e => e.1 = thrKey t && e.2.source = 1)

def nonEmptyMask (e : EvState) : BitVec 16 := (nonEmptyLanes e).foldl (fun m p => setBit m p true) 0

def evqCtlWord (e : EvState) : Word := atB e.en 0 ||| at' e.size 4 ||| at' e.tprio 8 ||| at' e.cprio 12

def evqPendWord (s : State) (t : Thr) : Word :=
  let th := thr s t
  at' (nonEmptyMask th.ev) 0 ||| atB (dispatchHeld s t) 16 ||| atB (irqPending th) 17

def evStackWord (e : EvState) : Word :=
  let mask := e.stack.foldl (fun (m : BitVec 16) p => setBit m p.toNat true) 0
  match e.stack with
  | [] => atB true 20
  | top :: _ => at' mask 0 ||| at' top 16

def evqStatWord (e : EvState) : Word := at' e.ovf 0 ||| at' e.noq 16

/-! ## Where a queue may lie (R311) -/

/-- Bytes of a queue of lanes of 2^size records. -/
def queueBytes (size : Nat) : Nat := 16 * 2 ^ size * 16

/-- The area from `a` of `n` bytes lies wholly in a place the table of R311 allows; in DRAM that is one range. -/
def queuePlaceOk (s : State) (t : Thr) (a n : Nat) : Bool :=
  match t with
  | .adze j =>
    let e := j.val / 8
    let base := 0xF00004000000 + e * 0x40000
    let eng := engine s e
    let lo := base + eng.ibufBase.toNat * 1024
    let hi := lo + 8 * (2 ^ eng.ibufSize.toNat * 256)
    decide (base ≤ a) && decide (a + n ≤ base + 0x40000) && (decide (a + n ≤ lo) || decide (hi ≤ a))
  | .core i =>
    let b := i.val / 16
    let am := 0xF00000000000 + b * 0x100000
    let inL2 := decide (am ≤ a) && decide (a + n ≤ am + (bay s b).amCur.toNat * 0x40000)
    let p := partOf s t
    inL2 || (ownDram s p (BitVec.ofNat 48 a) && decide (a / 2 ^ 30 = (a + n - 1) / 2 ^ 30))

/-! ## Record writes (R310, R312) -/

/-- A non-empty lane ends a doze (R320). -/
def wakeThread (t : Thr) (s : State) : State :=
  if (thr s t).run = .dozing && !(nonEmptyLanes (thr s t).ev).isEmpty then updThr t (fun th => { th with run := .running }) s
  else s

/-- The store that carried the event of a THREAD record is acknowledged (R321). -/
def ackSender (r : EvRec) (s : State) : State :=
  match r.sender with
  | some (k, id) => (match thrOfKey k with | some x => removeOut x id s | none => s)
  | none => s

/-- The 16 bytes of the oldest record being written stand in its lane, HEAD_p advances, a doze ends, and the store of an
EV_SEND is acknowledged (R310, R312, R320, R321, R479). -/
def recordWritten (t : Thr) (s : State) : State :=
  let e := (thr s t).ev
  match e.writing with
  | [] => s
  | r :: rest =>
    let p := r.prio.toNat
    let n := look 0 e.head p
    let a : BitVec 48 := BitVec.ofNat 48 (laneSlot e p n.toNat)
    let s := homeWrite a (bytesOf 8 (recWord0 r) ++ bytesOf 8 r.payload) false s
    let s := updThr t (updEv (fun x => { x with writing := rest, head := put 0 x.head p (n + 1) })) s
    wakeThread t (ackSender r (if r.source = 1 then countEvent t 0x19 s else s))

/-- EVENT_RECORD_WRITTEN: the oldest record write is acknowledged. None is while the unit is being live-sistered, while
its domain is down, or once the router discards the thread's events (R325, R327, R328). -/
def execEventRecordWritten (t : Thr) (s : State) : Result :=
  .next (if evDiscards s t || sisterHeld s t || domainDown s t then s else recordWritten t s)

/-- Every record being written for a thread is written. DEDUCED (log entry 52). -/
def drainRecords (t : Thr) : Nat → State → State
  | 0, s => s
  | n + 1, s => drainRecords t n (recordWritten t s)

/-- A write of EVQ_CTL: EN is judged with the BASE held and the SIZE written; a change of EN to 1 empties every lane; a
reserved SIZE is refused, and SIZE is ignored while EN is 1 (R16, R311). Records being written are written before EN
becomes 0. DEDUCED (log entry 52). -/
def writeEvqCtl (t : Thr) (v : Word) (s : State) : State :=
  let e := (thr s t).ev
  let want : BitVec 4 := v.extractLsb' 4 4
  let size := if e.en || want.toNat < 2 || 8 < want.toNat then e.size else want
  let ok := e.en || queuePlaceOk s t (e.base.toNat * 64) (queueBytes size.toNat)
  let en := v.getLsbD 0 && ok
  let s := if en then s else drainRecords t e.writing.length s
  updThr t (updEv (fun x => { x with
    en := en, size := size, tprio := v.extractLsb' 8 4, cprio := v.extractLsb' 12 4
    head := if en && !e.en then [] else x.head
    tail := if en && !e.en then [] else x.tail })) s

/-- A write of EVQ_TAIL_p: ignored when it passes HEAD. -/
def writeEvqTail (t : Thr) (p : Nat) (v : Word) (s : State) : State :=
  let e := (thr s t).ev
  let n : BitVec 16 := v.extractLsb' 0 16
  let tail := look 0 e.tail p
  if (look 0 e.head p - tail).toNat < (n - tail).toNat then s
  else updThr t (updEv (fun x => { x with tail := put 0 x.tail p n })) s

/-- Sources that R313 defines. -/
def knownSource (c : BitVec 8) : Bool := 1 ≤ c.toNat && c.toNat ≤ 8

/-- A write of EV_INJECT (R322): an event of "all others" whatever its SOURCE; a reserved SOURCE is ignored. -/
def writeEvInject (t : Thr) (v : Word) (s : State) : State :=
  let src : BitVec 8 := v.extractLsb' 0 8
  let prio : BitVec 4 := v.extractLsb' 8 4
  let e := (thr s t).ev
  if !knownSource src then s
  else if !e.en then updThr t (updEv (fun x => { x with noq := satInc x.noq })) s
  else if laneFull e prio.toNat then
    updThr t (updEv (fun x => { x with ovf := satInc x.ovf, lostLanes := setBit x.lostLanes prio.toNat true })) s
  else updThr t (updEv (evStart ⟨src, prio, true, false, v.extractLsb' 16 16, s.time.now.setWidth 32, e.injData, none⟩)) s

/-! ## Timers -/

/-- TIMER_FIRE: TIME has reached EV_TIMER.CMP; a TIMER event is sent and CMP is cleared (R313, R323, R325). -/
def execTimerFire (t : Thr) (s : State) : Result :=
  let e := (thr s t).ev
  if e.timer = 0 || s.time.now.toNat < e.timer.toNat || (thr s t).run = .notStarted || !mainOn s || evDiscards s t then .next s else
  let s := updThr t (updEv (fun x => { x with timer := 0 })) s
  .next (acceptEvent t ⟨3, e.tprio, false, false, 0, 0, s.time.now, none⟩ s)

/-! ## Held events -/

/-- HELD_DISPATCH_RELEASE: a held DISPATCH event goes to the event logic once EN is 1 and its lane has room (R316). -/
def execHeldDispatchRelease (t : Thr) (s : State) : Result :=
  let e := (thr s t).ev
  match e.held with
  | none => .next s
  | some r =>
    if !e.en || laneFull e r.prio.toNat || domainDown s t || sisterHeld s t || evDiscards s t then .next s
    else .next (updThr t (updEv (fun x => evStart r { x with held := none })) s)

/-- An event that was held for thread `t` goes on. A THREAD event that now finds no place is lost, and its store is
completed with error (R316, R321). -/
def placeHeld (t : Thr) (r : EvRec) (s : State) : State :=
  match evFate s t r, r.sender with
  | .lost, some (k, id) =>
    (match thrOfKey k with
     | none => s
     | some x => match outAccess s x id with
       | some a => accessLost x a .writeFailed s
       | none => s)
  | _, _ => placeEvent t r s

/-- Live sistering of a unit is over: the events the router held for it follow in the order accepted (R327). -/
def releaseRouter (x : Src) (s : State) : State :=
  let mine := fun (e : Nat × EvRec) => match thrOfKey e.1 with | some t => srcOfThr t = x | none => false
  let held := s.pw.routerHeld.filter mine
  let s := updPw (fun p => { p with routerHeld := p.routerHeld.filter (fun e => !mine e) }) s
  forEach held (fun e acc => match thrOfKey e.1 with | some t => placeHeld t e.2 acc | none => acc) s

/-! ## EV_SEND (R321) -/

/-- What a thread's store to EV_SEND comes to: the cause it is completed with, or none when the event is accepted and the
acknowledgement waits for its record. `id` is the store that carries it. -/
def sendEvent (t : Thr) (id : Option Nat) (v : Word) (whole : Bool) (s : State) : Option LostCause × State :=
  if !whole then (some .deviceError, s) else
  match thrOfIndex (v.extractLsb' 0 10).toNat (v.getLsbD 10) with
  | none => (some .deviceError, s)
  | some u =>
    if (partOf s t).isNone || partOf s u ≠ partOf s t then (some .deviceError, s)
    else
      let p := (partOf s u).getD 0
      let r : EvRec := ⟨2, v.extractLsb' 12 4, false, false,
        (BitVec.ofBool (isAdze t) ++ BitVec.ofNat 10 (thrIx t)).setWidth 16, 0, (v.extractLsb' 16 48).setWidth 64,
        id.map (fun k => (thrKey t, k))⟩
      if partBad s p || (thr s u).run = .stopped || (thr s u).run = .notStarted then (some .targetDown, s)
      else
        (if evFate s u r = .lost then some .writeFailed else none, acceptEvent u r s)

/-- The event of the thread's store `id` is accepted: the store waits for its record (R321). -/
def markSent (t : Thr) (id : Nat) (s : State) : State :=
  updThr t (fun th => { th with outst := th.outst.map (fun a => if a.id = id then { a with sent := true } else a) }) s

def evSendPa (d : Nat) : Nat := 0xF00011800008 + d * 0x2000000

/-- The record of a store to EV_SEND that is not among the thread's outstanding accesses. -/
def evSendStore (t : Thr) (pa : Nat) (v : Word) (whole : Bool) (s : State) : Access :=
  { id := 0, seq := 0, kind := .store, va := BitVec.ofNat 64 pa, pa := BitVec.ofNat 48 pa
    size := if whole then 8 else 4, data := v, poison := false, piece := false, split := false
    conf := true, known := true, ordered := false, nt := false, dest := none, tRel := s.time.now
    lost := (thr s t).lostPending, part := 0, resv := false, tagged := false, missed := false, sent := false, gone := false
    gen := (srcEnt s (srcOfThr t)).gen, site := siteOf s (srcOfThr t) }

/-- EV_SEND_WRITE: a thread's store to EV_SEND reaches the router with the generation and site of its source; a stale one
is discarded (R249, R250), and a failed send is a lost store (R179, R321). -/
def execEvSendWrite (t : Thr) (gen : BitVec 16) (site : BitVec 7) (v : Word) (whole : Bool) (s : State) : Result :=
  match checkSrc s (srcOfThr t) gen site none with
  | .stale => .next (staleDiscard (srcOfThr t) gen site (at' (Config.hubAgent 1) 0 ||| at' (4 : BitVec 4) 12) s)
  | .down => .next (downDiscard (srcOfThr t) gen site (at' (Config.hubAgent 1) 0 ||| at' (4 : BitVec 4) 12) s)
  | _ =>
    let pa := evSendPa (dieOfThr t)
    let found := if whole then carrying s t pa v else none
    let r := sendEvent t (found.map (·.id)) v whole s
    .next (match r.1, found with
      | none, some a => markSent t a.id r.2
      | none, none => r.2
      | some c, some a => accessLost t a c r.2
      | some c, none => lostStore t (evSendStore t pa v whole s) c r.2)

end Sys2Proof.Machine
end

