-- ==== Sys2Proof/Machine/Partition.lean ====
section
/-! DEFINITION. Salvage, restart and start of a partition (R243, R244, R463) and live sistering (R245, R246). -/
namespace Sys2Proof.Machine

/-! ## Memory areas -/

/-- Bytes [lo, hi) become zeros and lose their poison; both ends stand on lines. -/
def clearArea (lo hi : Nat) (s : State) : State :=
  { s with
    mem := s.mem.filter (fun e => decide (e.1 < lo) || decide (hi ≤ e.1))
    poison := s.poison.filter (fun l => decide (l * 64 < lo) || decide (hi ≤ l * 64)) }

def scratchBase (e : Nat) : Nat := 0xF00004000000 + e * 0x40000
def l2amBase (b : Nat) : Nat := 0xF00000000000 + b * 0x100000

/-- The line lies in a memory range of the partition. -/
def inRanges (s : State) (p : Nat) (l : BitVec 42) : Bool := isDramLine l && decide (partOfAddr s (lineAddr l) = some p)

/-- Lines of a 1 GiB range. -/
def linesOfRange (g : BitVec 13) : List (BitVec 42) :=
  (List.range (2 ^ 24)).map (fun i => BitVec.ofNat 42 (g.toNat * 2 ^ 24 + i))

/-! ## Salvage (R243) -/

/-- The partition's directory entries. -/
def dirOf (s : State) (p : Nat) : List DirE :=
  (bitsOf (part s p).bays).flatMap (fun b => (slice s b).dir.map (·.2))

/-- Lines that salvage can only poison: busy entries that began in X or whose OWNER is a bay, and lines recorded as owned by
a bay that cannot be read. Which busy entries have OWNER valid is DEDUCED (log entry 88). -/
def lostLines (s : State) (p : Nat) (unreadable : List (Fin 40)) : List (BitVec 42) :=
  ((dirOf s p).filter (fun d =>
    (isBusy d.st && (d.fromX || decide (d.owner.toNat < 40))) ||
    (d.st = .X && unreadable.any (fun b => b.val = d.owner.toNat)))).map (·.line)

/-- Lines of the partition homed at a slice that cannot be read. -/
def unreadLines (s : State) (p : Nat) (h : Nat) : List (BitVec 42) :=
  (part s p).ranges.flatMap (fun g => (linesOfRange g).filter (fun l => decide (homeOf s (lineAddr l) = some h)))

/-- Write every dirty line of the partition to DRAM, then poison those whose latest value cannot be had.
DEDUCED (log entry 74). -/
def salvage (p : Nat) (unreadable : List (Fin 40)) (sectors : List (BitVec 42)) (s : State) : State :=
  let bad := lostLines s p unreadable ++ sectors.filter (fun l => isDirty s l) ++
    unreadable.flatMap (fun h => unreadLines s p h.val)
  let s := forEach s.old (fun e acc =>
    let l : BitVec 42 := BitVec.ofNat 42 e.1
    if inRanges acc p l then cleanLine l acc else acc) s
  forEach bad (fun l acc => if inRanges acc p l then setPoison l true acc else acc) s

/-- PARTITION_SALVAGE: the Wright receives the event of step 6 of R242, sets the partition RESTARTING and salvages. It
waits while the Wright is not serving (R440). `unreadable` names the slices and bays that cannot be read, `sectors` the
lines with a dirty L1 sector that cannot. -/
def execPartitionSalvage (p : Fin 8) (unreadable : List (Fin 40)) (sectors : List (BitVec 42)) (s : State) : Result :=
  if (part s p.val).st ≠ .down || s.wr.st ≠ .serving || s.pw.fenced then .next s
  else .next (updPart p.val (fun x => { x with st := .restarting, salvaged := true })
    (salvage p.val unreadable sectors s))

/-! ## Sistering (R29, R30, R244 to R246) -/

/-- A unit moves to a new site: its generation advances, the move is logged and its partition is told (R433, R441). -/
def newSite (x : Src) (move : State → State) (s : State) : State :=
  let old := unitCode x (siteOf s x)
  let s := updSrc x (fun e => { e with gen := e.gen + 1, tChange := s.time.now }) (move s)
  let gen := (srcEnt s x).gen
  let s := wrightEvent 0xB old (at' gen 0 ||| at' (siteOf s x) 16) s
  let kind : BitVec 2 := match x with | .core _ => 0 | .engine _ => 1 | .bay _ => 2
  let ix : BitVec 8 := match x with
    | .core i => BitVec.ofNat 8 i.val
    | .engine i => BitVec.ofNat 8 i.val
    | .bay i => BitVec.ofNat 8 i.val
  match partOfSrc s x with
  | some p => notice p 4 (at' kind 0 ||| at' ix 8 ||| at' gen 16) s
  | none => s

/-- Write the site of a logical core in its bay's map. -/
def setSite (c : Nat) (v : BitVec 3) (y : Bay) : Bay :=
  if c % 4 = 0 then { y with site0 := v } else if c % 4 = 1 then { y with site1 := v }
  else if c % 4 = 2 then { y with site2 := v } else { y with site3 := v }

/-- The bay's spare site takes a logical core; the old site is retired. -/
def coreToSpare (c : Nat) (s : State) : State :=
  let old := siteOfCore s c
  updBay (c / 4) (fun y =>
    let y := setSite c y.spare y
    { y with retired := setBit y.retired old.toNat true, spare := 7 }) s

/-- The die's spare engine takes an engine's index; its registers as an idle spare, which are kept as those of engine 64 + d
(R253, R279), are reached no more. -/
def engineToSpare (e : Nat) (s : State) : State :=
  updPw (fun w => { w with spareUsed := setBit w.spareUsed (e / 16) true })
    (updEngine e (fun x => { x with onSpare := true }) (updEngine (64 + e / 16) (fun _ => Engine.reset) s))

/-- A spare exists for the unit, and its generation can advance (R29, R30). -/
def hasSpare (s : State) (x : Src) : Bool :=
  (srcEnt s x).gen ≠ 0xFFFF && (match x with
    | .core i => (bay s (i.val / 4)).spare ≠ 7 && siteOfCore s i.val ≠ 7
    | .engine i => !s.pw.spareUsed.getLsbD (i.val / 16) && !(engine s i.val).onSpare
    | .bay _ => false)

/-- Move a unit to its spare. -/
def toSpare (x : Src) (s : State) : State :=
  match x with
  | .core i => newSite x (coreToSpare i.val) s
  | .engine i => newSite x (engineToSpare i.val) s
  | .bay _ => s

/-- The unit that a DOWN's cause names (step 1 of R244). -/
def causeUnit (x : Part) : Option Src :=
  match x.cause.toNat, x.downUnit with
  | 7, some (.core i) => some (.core i)
  | 7, some (.engine i) => some (.engine i)
  | 4, some (.core i) => some (.core i)
  | 2, u => u
  | 5, some (.bay i) => some (.bay i)
  | _, _ => none

/-- Step 1 of R244: the failed unit is sistered, left absent, put out of service, or its bay removed. -/
def repairUnit (p : Nat) (bayPasses : Bool) (s : State) : State :=
  match causeUnit (part s p) with
  | none => s
  | some (.core i) =>
    if hasSpare s (.core i) then toSpare (.core i) s else updBay (i.val / 4) (setSite i.val 7) s
  | some (.engine i) =>
    if hasSpare s (.engine i) then
      clearArea (scratchBase i.val) (scratchBase (i.val + 1)) (toSpare (.engine i) s)
    else updEngine i.val (fun x => { x with outOfService := true }) s
  | some (.bay i) =>
    if bayPasses then s
    else updPart p (fun x => { x with bays := setBit x.bays i.val false })
      (updBay i.val (fun y => { y with failed := true }) s)

/-! ## Resetting a partition's units (R17, R244) -/

/-- A thread's registers, its dispatcher entry and the item record it held. -/
def resetThreads (mine : Nat → Bool) (s : State) : State :=
  { s with
    thr := s.thr.filter (fun e => !mine e.1)
    led := { s.led with
      disp := s.led.disp.filter (fun e => !mine e.1)
      holds := s.led.holds.filter (fun e => !mine e.1) } }

/-- A bay's units: cores, caches, L2-as-memory, slice. Its site map stays; PWR_CORE_n and PWR_BAY_b
return to reset with the rest (R17, R454). -/
def resetBay (b : Nat) (s : State) : State :=
  let s := updBay b (fun y => { Bay.reset with
    site0 := y.site0, site1 := y.site1, site2 := y.site2, site3 := y.site3, spare := y.spare, bad := y.bad
    retired := y.retired, failed := y.failed }) s
  let s := forEach (List.range 4) (fun c acc =>
    updPw (fun w => { w with dvotes := setBit w.dvotes (4 * b + c) false })
      (updCore (4 * b + c) (fun _ => Core.reset) acc)) s
  clearArea (l2amBase b) (l2amBase (b + 1)) (updSlice b (fun _ => Slice.reset) s)

def resetEngine (e : Nat) (s : State) : State :=
  updEngine e (fun x => { Engine.reset with onSpare := x.onSpare, outOfService := x.outOfService }) s

/-- Reset every unit and PART register of a set of bays, engines and device mailboxes. -/
def resetUnits (bays : BitVec 40) (engines : BitVec 64) (dmbox : BitVec 16) (s : State) : State :=
  let mine := fun (k : Nat) => match thrOfKey k with
    | some (.core i) => bays.getLsbD (i.val / 16)
    | some (.adze j) => engines.getLsbD (j.val / 8)
    | none => false
  let s := resetThreads mine s
  let s := updPw (fun w => { w with
    retained := w.retained.filter (fun e => !mine e.1), wake := w.wake.filter (fun e => !mine e.1)
    routerHeld := w.routerHeld.filter (fun e => !mine e.1) }) s
  let s := forEach (bitsOf bays) resetBay s
  let s := forEach (bitsOf engines) resetEngine s
  forEach (bitsOf dmbox) (fun m acc =>
    if h : m < 16 then updBox (.dev ⟨m, h⟩) (fun b => { MboxSt.reset with page := b.page, groupsOff := b.groupsOff }) acc
    else acc) s

/-- Messages of a partition's agents are discarded: they come from or go to sources that were DOWN (R242). -/
def dropMessages (p : Nat) (s : State) : State :=
  let mine := fun (a : Agent) => decide (partOfAgent s a = some p)
  let gone := s.net.filter (fun m => mine m.2.src || mine m.2.dst)
  { s with
    net := s.net.filter (fun m => !(mine m.2.src || mine m.2.dst))
    ereqs := s.ereqs.filter (fun e => !mine e.msg.src)
    downDrop := satAdd s.downDrop gone.length }

/-- PARTITION_RESTART: steps 1 to 3 of R244 on a salvaged partition that is not held and has no die waiting under R447. Step 4 starts the boot code with
MONITOR_IMAGE_LOADED. A partition left with no bay is not started. -/
def execPartitionRestart (p : Fin 8) (bayPasses : Bool) (s : State) : Result :=
  let x := part s p.val
  let dark := (bitsOf x.bays).any (fun b => (die s (b / 10)).railDown) || (bitsOf x.engines).any (fun e => (die s (e / 16)).railDown)
  if x.st ≠ .restarting || !x.salvaged || x.hold || dark || s.wr.st ≠ .serving || s.pw.fenced then .next s else
  let s := dropMessages p.val s
  let s := repairUnit p.val bayPasses s
  let y := part s p.val
  let s := afterReset (resetUnits x.bays y.engines y.dmbox s)
  let s := updPart p.val (fun x => { x with salvaged := false, downUnit := none, startFailed := decide (x.bays = 0) }) s
  let s := if y.bays = 0 then s else markSources (sourcesOf s p.val) true s
  .next (settleMode s)

/-! ## Starting a partition (R149, R463) -/

/-- A core thread at the start of its monitor: at M, translation off, the start's values in g1, g2 and g3. -/
def startThread (t : Thr) (pc : Word) (p : Nat) (reason : BitVec 2) (cause : BitVec 8) (s : State) : State :=
  setThr t (writeG 3 ⟨cause.setWidth 64, false⟩ (writeG 2 ⟨reason.setWidth 64, false⟩
    (writeG 1 ⟨BitVec.ofNat 64 p, false⟩ { Thread.reset with pc := pc, run := .running }))) s

/-- Core threads of a partition, absent cores left out. -/
def startingThreads (s : State) (p : Nat) : List Thr :=
  (bitsOf (part s p).bays).flatMap (fun b =>
    (List.range 4).flatMap (fun c => if siteOfCore s (4 * b + c) = 7 then [] else thrsOfCore (4 * b + c)))

/-- Every channel of the partition's lowest range is ready, or one of each mirrored pair (R347). -/
def lowestReady (s : State) (p : Nat) : Bool :=
  match (part s p).ranges with
  | [] => false
  | g :: _ =>
    match regionOf s (g.toNat * 2 ^ 30) with
    | none => false
    | some k =>
      let r := region s k
      (chanList r).all (fun c => s.pw.ready.ch.getLsbD c || (r.mirror && s.pw.ready.ch.getLsbD (c + 1)))

/-- Ready bits of a started partition (R464, R465). -/
def readyParts (p : Nat) (s : State) : State :=
  let x := part s p
  let cl := (bitsOf x.engines).foldl (fun (m : BitVec 16) e => setBit m (e / 4) true) 0
  setReady (fun r => { r with
    part := setBit r.part p true, bay := r.bay ||| x.bays, cluster := r.cluster ||| cl }) s

/-- A start failed: the partition stays RESTARTING, and the failure is logged. -/
def failStart (p : Nat) (s : State) : State :=
  let s := updPart p (fun x => { x with st := .restarting, startFailed := true }) s
  settleMode (wrightEvent 2 (at' (BitVec.ofNat 3 p) 0 ||| at' (part s p).cause 8 ||| at' (0x3F : BitVec 6) 16) 0 s)

/-- Copy the image to the lowest range and start every present core thread. -/
def startPartition (p : Nat) (x : Monitor) (s : State) : State :=
  let base := match (part s p).ranges with | g :: _ => g.toNat * 2 ^ 30 | [] => 0
  let image := match s.wr.store.active with
    | some b => slotBytes (slotOf s.wr.store b) x.imageOff x.imageLen
    | none => []
  let s := hubWrite (BitVec.ofNat 48 (base + x.loadOff)) image false s
  let s := markSources (sourcesOf s p) true s
  let pc := BitVec.ofNat 64 (base + x.loadOff + x.entryOff)
  let y := part s p
  let s := forEach (startingThreads s p) (fun t acc => startThread t pc p y.reason y.cause acc) s
  let s := forEach (bitsOf y.bays) (fun b acc => updBay b (fun k => { k with powered := true })
    (forEach (List.range 4) (fun c a => updCore (4 * b + c) (fun k => { k with powered := true }) a) acc)) s
  let s := updPart p (fun z => { z with
    st := if holdsQueue s p then .active else .standby, started := true, startFailed := false }) s
  settleMode (readyParts p s)

/-- A partition's COH_CTL image of the settings record; reserved codes leave a field as it was (R16, R473). -/
def applyCohCtl (p : Nat) (s : State) : State :=
  match settingOf s.wr.store 9 with
  | none => s
  | some l =>
    let w := wordOf (sliceB l (8 * p) 8)
    let tmo : BitVec 12 := w.extractLsb' 0 12
    let gap : BitVec 4 := w.extractLsb' 16 4
    updPart p (fun x => { x with
      cohTmo := if tmo = 0 || 0xFA0 < tmo.toNat then x.cohTmo else tmo
      retryGap := if gap = 0 then x.retryGap else gap }) s

/-- The partition may start or fail to start now: a first start with its layout applied, or one whose sources are OPEN
again after R244. -/
def startPending (s : State) (p : Nat) : Bool :=
  let x := part s p
  (x.bays ≠ 0) && !x.hold && !x.startFailed && (x.st = .unused || (x.st = .restarting && !x.salvaged))

/-- A layout without what another partition has taken already: a resource belongs to one partition (R31). Which of two
entries that name it goes first is DESIGN CHOICE (log entry 107). -/
def notTaken (s : State) (p : Nat) (x : Layout) : Layout :=
  let others := ((List.range 8).filter (fun q => q ≠ p)).map (part s)
  { x with
    bays := others.foldl (fun b q => b &&& ~~~q.bays) x.bays
    engines := others.foldl (fun b q => b &&& ~~~q.engines) x.engines
    dmbox := others.foldl (fun b q => b &&& ~~~q.dmbox) x.dmbox
    ranges := x.ranges.filter (fun g => others.all (fun q => !q.ranges.contains g)) }

/-- Step 9 of R462 for one partition during bring-up: its layout and COH_CTL are applied; HOLD leaves it RESTARTING. -/
def takeLayout (p : Nat) (s : State) : State :=
  if (part s p).st ≠ .unused || (part s p).bays ≠ 0 || !s.pw.bringing then s else
  match (bringupLayout s p).map (notTaken s p) with
  | none => s
  | some x =>
    if x.bays = 0 then s else
    let s := applyCohCtl p (applyLayout { x with p := p } s)
    if x.hold then settleMode (updPart p (fun y => { y with st := .restarting, salvaged := true }) s) else s

/-- MONITOR_IMAGE_LOADED: the copy of a partition's monitor image ends and its digest is checked (R463). Nothing happens
before the partition's bays have passed self-test and its lowest range is ready. -/
def execMonitorImageLoaded (p : Fin 8) (copied digestOk : Bool) (s : State) : Result :=
  if s.wr.st ≠ .serving || s.pw.fenced then .next s else
  let s := takeLayout p.val s
  if !startPending s p.val || !lowestReady s p.val then .next s
  else if (bitsOf (part s p.val).bays).any (fun b => (bay s b).failed) then .next s
  else match monitorOf s p.val with
    | none => .next (failStart p.val s)
    | some x =>
      if !monitorFits s x || !copied || !digestOk then .next (failStart p.val s)
      else .next (startPartition p.val x s)

/-! ## Coherence errors and live sistering -/

/-- COHERENCE_ERROR_REPORT (R239). -/
def execCoherenceErrorReport (p : Fin 8) (code : BitVec 8) (det : BitVec 6) (unit : Option Src) (s : State) : Result :=
  .next (reportCoherence p.val code det unit s)

/-- A core's L1 data cache is written back and invalidated; every DRAM reservation of its threads is lost (R206). -/
def emptyL1d (c : Nat) (s : State) : State :=
  let lines := ((core s c).l1d.filter (fun e => e.2.st ≠ .I)).map (fun e => e.2.line)
  let s := forEach (thrsOfCore c) (fun t acc => match t with | .core i => releaseHold i acc | .adze _ => acc) s
  updCore c (fun k => { k with l1d := [] }) (forEach lines (fun l acc => l1dDrop c l acc) s)

/-- A core's L1 data cache is emptied, and so are its other arrays (step 3 of R246, R456). -/
def emptyL1 (c : Nat) (s : State) : State :=
  let s := emptyL1d c s
  let s := forEach (thrsOfCore c) (fun t acc => flushPredictors t acc) s
  updCore c (fun k => { k with l1i := [], itlb := [], dtlb := [], stlb := [], shim := [], prefetch := [] }) s

/-- Step 2 has ended for the unit: no store waits and no released access is open. -/
def drained (s : State) (x : Src) : Bool := (thrsOfSrc x).all (fun t => (thr s t).stores.isEmpty && (thr s t).outst.isEmpty)

/-- The live sistering of a unit is over. -/
def endSister (x : Src) (a : Answer) (s : State) : State :=
  let s := updWr (fun w => { w with sistering := w.sistering.filter (fun e => e.1 ≠ x) }) s
  releaseRouter x (answerRunning 0x401 a s)

/-- Every reservation that the unit's own monitor has an entry for is lost with its sistering (R174). -/
def loseMonitor (x : Src) (s : State) : State :=
  match x with
  | .engine e =>
    forEach (engine s e.val).mon (fun m acc => monDrop (.engine e.val) m.thr
      (match (thr acc m.thr).resv with
       | some r => if r.granule = m.granule then loseResv m.thr acc else acc
       | none => acc)) s
  | _ => s

/-- The unit's partition still serves. -/
def sisterAlive (s : State) (x : Src) : Bool :=
  match partOfSrc s x with
  | some p => (part s p).st = .active || (part s p).st = .standby
  | none => false

/-- Steps 2 and 3 have run for longer than COH_CTL.TMO each (R246). -/
def sisterLate (s : State) (u : Src) : Bool :=
  match partOfSrc s u with
  | some p => s.wr.sistering.any (fun e => e.1 = u && decide (e.2 + 2 * cohTmoNs s p ≤ s.time.now.toNat))
  | none => false

/-- LIVE_SISTER_DRAINED: steps 3 to 7 of R246; `failed` says that one of them reports an error, and the unit has then
FAILED (R239, R246). The threads that solo mode parked stay so. DEDUCED (log entry 90). -/
def execLiveSisterDrained (u : Src) (failed : Bool) (s : State) : Result :=
  let late := sisterLate s u
  if !s.wr.sistering.any (fun e => e.1 = u) || !drained s u || s.wr.st ≠ .serving then .next s
  else if !sisterAlive s u then .next (endSister u (bad stFailed) s)
  else if failed || late then
    .next (match partOfSrc s u with
      | some p => endSister u (bad stFailed) (reportCoherence p 7 0x3F (some u) s)
      | none => s)
  else
  let s := match u with | .core i => emptyL1 i.val s | _ => s
  let s := loseMonitor u (forEach (thrsOfSrc u) (fun t acc => loseResv t acc) s)
  let s := toSpare u s
  let gen := (srcEnt s u).gen
  let own := fun (_ : Nat) (e : Entry) => match e.owner with
    | some t => if e.st = .owned && srcOfThr t = u then { e with gen := gen } else e
    | none => e
  let s := updLed (fun l => { l with ent := editAll Entry.reset own l.ent }) s
  let s := forEach (thrsOfSrc u) (fun t acc => updThr t (fun th => { th with parked := false }) acc) s
  .next (settleMode (endSister u (ok (bytesOf 8 (at' gen 0 ||| at' (siteOf s u) 16))) s))

/-- SISTER_STEP_TIMEOUT: step 2 has run for COH_CTL.TMO, or step 3 after it; the Wright reports UNIT_FAILED (R246). -/
def execSisterStepTimeout (u : Src) (s : State) : Result :=
  match s.wr.sistering.find? (fun e => e.1 = u), partOfSrc s u with
  | some (_, t0), some p =>
    if !sisterAlive s u then .next (endSister u (bad stFailed) s)
    else if (t0 + cohTmoNs s p ≤ s.time.now.toNat && !drained s u) || sisterLate s u then
      .next (endSister u (bad stFailed) (reportCoherence p 7 0x3F (some u) s))
    else .next s
  | _, _ => .next s

end Sys2Proof.Machine
end

