-- ==== Sys2Proof/Machine/Adze.lean ====
section
/-! DEFINITION. Adze engines: their registers (R279), starting threads, the scratch scrubber (R265) and interrupt entry
(R274). -/
namespace Sys2Proof.Machine

/-! ## Registers -/

/-- Mesh column of the engine's stop (ADZ_ID.COL). The idle spare Sd is engine 64 + d here (R253, R279). -/
def engineCol (s : State) (e : Nat) : BitVec 3 :=
  if 64 ≤ e || (engine s e).onSpare then 2 else
  let k := e % 16 / 4
  if k < 2 then BitVec.ofNat 3 k else BitVec.ofNat 3 (k + 1)

def siteOfEngine (s : State) (e : Nat) : BitVec 7 :=
  if 64 ≤ e then BitVec.ofNat 7 e else if (engine s e).onSpare then BitVec.ofNat 7 (0x40 + e / 16) else BitVec.ofNat 7 e

def adzIdWord (s : State) (e : Nat) : Word :=
  at' (if 64 ≤ e then Config.idleSpareIndex (e - 64) else BitVec.ofNat 6 e) 0 ||| at' (siteOfEngine s e) 8 ||| at' (engineCol s e) 16

def adzScrCtlWord (x : Engine) : Word :=
  at' x.ibufBase 0 ||| at' x.ibufSize 8 ||| atB x.scrubEn 12 ||| atB x.lost 13

def adzScrErrWord (x : Engine) : Word := at' x.ce 0 ||| at' x.ue 16 ||| at' x.lastUe 24

/-- STATE_t of ADZ_THREAD. -/
def threadState (th : Thread) : BitVec 3 :=
  if th.parked then 7 else
  match th.run with
  | .notStarted => 0
  | .running => (match th.held with
    | .ready => 1
    | .other => 1
    | .abandonable => 3
    | .entering => 5)
  | .awaiting _ => 2
  | .fencing => 3
  | .dozing => 4
  | .stopped => 6

def adzThreadWord (s : State) (e : Nat) : Word :=
  forEach (List.range 8) (fun t acc =>
    match thrOfIndex (8 * e + t) true with
    | some x => acc ||| at' (threadState (thr s x)) (4 * t)
    | none => acc) 0

/-- The thread has started: it is in any state but not started. -/
def startedThr (s : State) (t : Thr) : Bool := (thr s t).run ≠ .notStarted

def adzRunWord (s : State) (e : Nat) : Word :=
  forEach (List.range 8) (fun t acc =>
    match thrOfIndex (8 * e + t) true with
    | some x => acc ||| atB (startedThr s x) t
    | none => acc) (at' (engine s e).start 16)

def mapVWord (m : MapE) : Word :=
  atB m.v 0 ||| atB m.nrd 1 ||| atB m.wr 2 ||| atB m.ex 3 ||| atB m.ua 4 ||| atB m.glb 5 ||| at' m.lg 6 ||| at' m.vbase 12

def mapPWord (m : MapE) : Word := at' m.pbase 12 ||| at' m.asid 48

/-- An engine register by its system register number; none where there is no such register. -/
def adzRead (s : State) (e n : Nat) : Option Word :=
  let x := engine s e
  if n = 0x400 then some (adzIdWord s e)
  else if n = 0x401 then some (at' x.cls 0)
  else if n = 0x402 then some (adzScrCtlWord x)
  else if n = 0x403 then some (adzScrErrWord x)
  else if n = 0x404 then some (adzThreadWord s e)
  else if n = 0x405 then some (adzRunWord s e)
  else if 0x140 ≤ n && n ≤ 0x15F then
    let m := look MapE.reset x.map ((n - 0x140) / 2)
    some (if n % 2 = 0 then mapVWord m else mapPWord m)
  else none

/-- ADZ_SCR_CTL: a reserved IBUF_SIZE leaves that field (R16); buffers past the scratch drop the whole write (R266). -/
def writeScrCtl (e : Nat) (v : Word) (s : State) : State :=
  let x := engine s e
  let base : BitVec 8 := v.extractLsb' 0 8
  let size : BitVec 3 := if 5 ≤ (v.extractLsb' 8 3 : BitVec 3).toNat then x.ibufSize else v.extractLsb' 8 3
  if 0x40000 < base.toNat * 1024 + 8 * (2 ^ size.toNat * 256) then s
  else updEngine e (fun x => { x with
    ibufBase := base, ibufSize := size, scrubEn := v.getLsbD 12, lost := x.lost && !v.getLsbD 13 }) s

/-- A thread's power domain is back: its retention set is restored, a dozing thread goes on after its WAIT, and the events
of the wake buffer follow in the order accepted (R325, R326, R456). -/
def restoreThread (t : Thr) (s : State) : State :=
  match look none s.pw.retained (thrKey t) with
  | none => s
  | some saved =>
    let run : Run := if saved.run = .dozing then .running else saved.run
    let s := setThr t { saved with ev := (thr s t).ev, run := run } s
    let held := (s.pw.wake.filter (fun e => e.1 = thrKey t)).map (·.2)
    let s := updPw (fun p => { p with
      retained := put none p.retained (thrKey t) none, wake := p.wake.filter (fun e => e.1 ≠ thrKey t) }) s
    forEach held (fun r acc => placeHeld t r acc) s

/-- An adze cluster wakes with zeroed scratch, ADZ_SCR_CTL.LOST set, and its threads' event state (R265, R325). -/
def wakeCluster (k : Nat) (s : State) : State :=
  if (cluster s k).powered then s else
  let s := updCluster k (fun x => { x with powered := true }) s
  let s := forEach (List.range 4) (fun i acc => updEngine (4 * k + i) (fun x => { x with lost := true }) acc) s
  forEach (List.range 4) (fun i acc => forEach (thrsOfEngine (4 * k + i)) restoreThread acc) s

/-- Start an adze thread at M from its reset values (ADZ_RUN); it holds a vote, so its cluster is powered.
DEDUCED (log entry 35). -/
def startAdze (e t : Nat) (s : State) : State :=
  match thrOfIndex (8 * e + t) true with
  | none => s
  | some x =>
    if startedThr s x then s
    else
      let s := wakeCluster (e / 4) s
      setThr x { Thread.reset with
        pc := sext48 (BitVec.ofNat 48 (scratchBase e + (engine s e).start.toNat * 4)), run := .running } s

/-- ADZ_RUN: START is written, and each thread whose RUN bit is written 1 starts, once. An engine that is out of
service, or whose source is DOWN, starts none. DEDUCED (log entry 35). -/
def writeRun (e : Nat) (v : Word) (s : State) : State :=
  let s := updEngine e (fun x => { x with start := v.extractLsb' 16 16 }) s
  let live : Bool := if h : e < 64 then (srcEnt s (.engine ⟨e, h⟩)).isOpen && !(engine s e).outOfService else false
  if !live then s else
  forEach (List.range 8) (fun t acc => if v.getLsbD t then startAdze e t acc else acc) s

def writeMapV (n : Nat) (v : Word) (x : Engine) : Engine :=
  { x with map := edit MapE.reset (fun m => { m with
      v := v.getLsbD 0, nrd := v.getLsbD 1, wr := v.getLsbD 2, ex := v.getLsbD 3, ua := v.getLsbD 4, glb := v.getLsbD 5
      lg := v.extractLsb' 6 6, vbase := v.extractLsb' 12 36 }) x.map n }

def writeMapP (n : Nat) (v : Word) (x : Engine) : Engine :=
  { x with map := edit MapE.reset (fun m => { m with
      pbase := v.extractLsb' 12 36, asid := v.extractLsb' 48 16 }) x.map n }

/-- Write an engine register by its system register number; read-only registers ignore it (R14). -/
def adzWrite (e n : Nat) (v : Word) (s : State) : State :=
  if n = 0x401 then updEngine e (fun x => { x with cls := v.extractLsb' 0 32 }) s
  else if n = 0x402 then writeScrCtl e v s
  else if n = 0x403 then updEngine e (fun x => { x with ce := v.extractLsb' 0 16, ue := v.extractLsb' 16 8 }) s
  else if n = 0x405 then writeRun e v s
  else if 0x140 ≤ n && n ≤ 0x15F then
    updEngine e (if n % 2 = 0 then writeMapV ((n - 0x140) / 2) v else writeMapP ((n - 0x140) / 2) v) s
  else s

def execAdzRunWrite (e : Fin 64) (v : Word) (s : State) : Result :=
  if mainOn s && !(die s (dieOfEngine e.val)).stalled then .next (adzWrite e.val 0x405 v s) else .next s

def execAdzScrCtlWrite (e : Fin 64) (v : Word) (s : State) : Result :=
  if mainOn s then .next (adzWrite e.val 0x402 v s) else .next s

/-! ## The scrubber -/

/-- What a read of a scratch line finds (R265): a corrected word is counted; a two-bit error poisons the line. -/
def scratchFinds (e : Nat) (off : Nat) (found : EccFind) (s : State) : State :=
  match found with
  | .clean => s
  | .single => updEngine e (fun x => { x with ce := satInc x.ce }) s
  | .double =>
    let l := lineOf (BitVec.ofNat 48 (scratchBase e + off))
    let s := updEngine e (fun x => { x with ue := satInc x.ue, lastUe := BitVec.ofNat 18 (off / 64 * 64) }) s
    poisonLine l (lineWhere s l) s

/-- 2 µs of TIME have passed since the scrubber's last read (R265). -/
def scrubDue (s : State) (e : Nat) : Bool := decide ((engine s e).scrubT.toNat + 2000 ≤ s.time.now.toNat)

/-- SCRATCH_SCRUB: with no line named, the scrubber reads its line and moves to the next, every 2 µs of TIME (R265). With
a line named, it is what the next load, fetch, atomic or external access that reads that line finds there.
DESIGN CHOICE (log entry 99). -/
def execScratchScrub (e : Fin 64) (line : Option (BitVec 12)) (found : EccFind) (s : State) : Result :=
  let x := engine s e.val
  if !mainOn s || !(cluster s (e.val / 4)).powered || (die s (dieOfEngine e.val)).stalled then .next s else
  match line with
  | some l => .next (scratchFinds e.val (l.toNat * 64) found s)
  | none =>
    if !x.scrubEn || !scrubDue s e.val then .next s else
    .next (updEngine e.val (fun x => { x with scrubPtr := x.scrubPtr + 1, scrubT := s.time.now })
      (scratchFinds e.val (x.scrubPtr.toNat * 64) found s))

/-! ## Interrupt entry -/

/-- The thread stands at an instruction boundary (R110, R273). -/
def atBoundary (s : State) (t : Thr) : Bool :=
  let th := thr s t
  (match th.run with
   | .running => th.held = .ready || th.held = .abandonable
   | .dozing => true
   | .fencing => true
   | _ => false) && !halted th && unitRuns s t

/-- Beat 1 of the entry: the interrupt is recognised; an abandoned instruction is discarded (R273, R274). -/
def beginEntry (th : Thread) : Thread := { th with run := .running, held := .entering, waitRoom := false }

/-- ADZE_INTERRUPT_ENTRY: the interrupt is recognised at a boundary, and the row again ends the entry with beat 7, which
pushes the highest priority pending by then (R274, R275). -/
def execAdzeInterruptEntry (t : Fin 512) (s : State) : Result :=
  let x := Thr.adze t
  if (thr s x).held = .entering && (thr s x).run = .running then
    .next (if unitRuns s x && !halted (thr s x) then enterInterrupt x s else s)
  else if atBoundary s x && irqTakes (thr s x) then .next (updThr x beginEntry s)
  else .next s

end Sys2Proof.Machine
end

