-- ==== Sys2Proof/Machine/Endpoint.lean ====
section
/-! DEFINITION. The host PCI Express endpoint (R353 to R386): link, configuration space, freeze, reads, instances. -/
namespace Sys2Proof.Machine

/-! ## Registers -/

def epStatusWord (s : State) : Word :=
  let e := s.ep
  at' e.rate 0 ||| at' e.lanes 3 ||| atB e.cfg.vc1En 8 ||| atB e.cfg.idoReq 9 ||| atB e.cfg.roEn 10 ||| atB e.frozen 11
    ||| atB (linkLow s) 12 ||| atB (e.cfg.master && !e.cfg.d3hot) 13 ||| at' e.vcMisuse 16

def epNotifyWord (e : Endpoint) : Word :=
  at' e.nVec 0 ||| atB e.nEn 11 ||| atB e.nMode 16 ||| atB e.nReady 17 ||| atB e.nFreeze 18 ||| atB e.nRing 19

def freezeCtlWord (e : Endpoint) : Word := atB e.frozen 0 ||| at' e.fCount 8

/-- Records held in CLOSING entries. -/
def heldRecords (s : State) : Nat := (s.led.ent.filter (fun e => e.2.st = .closing)).length

def freezeStatusWord (s : State) : Word :=
  at' s.ep.fCause 0 ||| at' (satAdd (0 : BitVec 16) (heldRecords s)) 16
    ||| at' (satAdd (0 : BitVec 16) (if s.ep.frozen then readsOut s else 0)) 32 ||| at' s.ep.fRefused 48

def hostRouteWord (e : Endpoint) : Word := at' e.headPos 0 ||| atB e.routeValid 6
def winStatWord (e : Endpoint) : Word := at' e.wrDrop 0 ||| at' e.rdOnes 32
def identWord (s : State) : Word :=
  at' (deviceId s) 0 ||| at' (0x10 : BitVec 8) 16 ||| at' (0x3160 : BitVec 16) 32 ||| atB s.pw.straps.frameHead 48

/-! ## Instances (R384, R385) -/

/-- The INST domain of an instance resets (R17). -/
def instDomainReset (x : Inst) : Inst := { x with unmapped := 0, vcMisuse := 0, poisoned := 0, resPoison := [] }

/-- A queue belongs to an instance: it is mapped to one of its slots. -/
def ownedByInst (q : Queue) (i : Nat) : Bool := q.slot.isSome && q.inst.toNat = i

/-- Reset of one instance, in the order of R384; it is a reset for R63. At an unused instance nothing changes. DESIGN CHOICE
(log entry 114). -/
def resetInst (i : Nat) (s : State) : State :=
  if (inst s i).st = 0 then s else
  let off := fun (_ : Nat) (q : Queue) => if ownedByInst q i then { q with en := false, armed := false } else q
  let s := { s with queue := editAll Queue.reset off s.queue }
  let s := forEach s.led.ent (fun e acc =>
    let x := entry acc e.1
    if ownedByInst (queue acc x.queue.val) i && (x.st = .queued || x.st = .fetch) then endItem e.1 true 0x0B 0 acc else acc) s
  afterReset (updInst i (fun x => { instDomainReset x with st := 3 }) s)

/-- Instances after a link down, PERST# or hot reset (R385). -/
def allInstsRearm (s : State) : State :=
  let s := { s with inst := editAll Inst.reset (fun _ x => { instDomainReset x with st := if x.st = 0 then 0 else 3 }) s.inst }
  if headOf s = .here then
    { s with queue := editAll Queue.reset (fun _ q => { q with armed := false }) s.queue } else s

/-! ## Freeze (R375 to R379) -/

/-- AER Uncorrectable Error Status bit of an error of R375, as the PCI-SIG definition places it. -/
def aerBit (code : BitVec 8) : Nat :=
  if code = 1 then 18 else if code = 2 then 19 else if code = 3 then 12 else if code = 4 then 16
  else if code = 5 then 17 else if code = 6 then 13 else if code = 7 then 4 else 22

/-- Errors of which the PCI-SIG definition logs the TLP's header: of AER's bits those for poisoned data, completer abort,
unexpected completion, malformed TLP, ECRC and unsupported request. -/
def aerLogs (b : Nat) : Bool := b = 12 || b = 15 || b = 16 || b = 18 || b = 19 || b = 20

/-- AER records an error: its status bit; and, where it is not masked and none came first, the First Error Pointer and the
header log. It is signalled, fatal or not by its severity, as Device Control and the SERR# enable let it (R375). PRESUMED
(log entry 111). -/
def recordAer (b : Nat) (s : State) : State :=
  let c := s.ep.cfg
  let masked := (look 0 c.rw 0x108).getLsbD b
  let fatal := (look 0 c.rw 0x10C).getLsbD b
  let first := !masked && decide (c.aer &&& ~~~(look 0 c.rw 0x108) = 0)
  let hdr := first && aerLogs b
  let s := { updEp (fun e => { e with cfg := { e.cfg with
      aer := setBit e.cfg.aer b true
      aerFirst := if first then BitVec.ofNat 5 b else e.cfg.aerFirst
      aerHdr := if hdr then Config.tlpHeader s.fresh else e.cfg.aerHdr } }) s with
    fresh := if hdr then s.fresh + 1 else s.fresh }
  let dev := look 0 c.rw 0x78
  let en := (look 0 c.rw 0x04).getLsbD 8 || dev.getLsbD (if fatal then 2 else 1)
  if s.ep.up && !masked && en then emitHost (.errMsg fatal) s else s

/-- A freeze takes effect (R376); one that meets a frozen endpoint changes only its AER record. -/
def freeze (code : BitVec 8) (s : State) : State :=
  let s := if code = 0x0F then s else recordAer (aerBit code) s
  if s.ep.frozen then s else
  let newNotice := !s.ep.nFreeze && s.ep.nEn
  let s := updEp (fun e => { e with
    frozen := true, fCount := e.fCount + 1, fCause := code, fTime := s.time.now, fRefused := 0
    fLog := (s.queue.map (fun q => (q.1, q.2.ai))).filter (fun q => q.2 ≠ 0)
    nFreeze := true, fHeld := newNotice }) s
  wrightEvent 9 (at' code 0) (at' s.ep.fCount 0) s

/-- TLP_ERROR_FREEZE: the TLP that carries the error is discarded and the endpoint freezes. -/
def execTlpErrorFreeze (code : BitVec 8) (s : State) : Result :=
  if s.ep.up && 1 ≤ code.toNat && code.toNat ≤ 8 then .next (freeze code s) else .next s

/-- A register of BAR0 takes a write of host software that has a command of its own: the endpoint serves, and not only what
R44 gives a fenced device. -/
def regServed (s : State) : Bool := s.ep.up && s.ep.cfg.memEn && !s.ep.cfg.d3hot && s.pw.fence ≠ .done

/-- FREEZE_FORCE: FREEZE_CTL.FORCE is written. -/
def execFreezeForce (s : State) : Result :=
  through .endpoint true 8 .freezeForce (fun s => if regServed s then .next (freeze 0x0F s) else .next s) s

/-- CLOSING entries of one queue, lowest sequence number first. -/
def closingOf (s : State) (q : Nat) : List Nat :=
  let ai := (queue s q).ai
  (sortBy (fun a b => decide ((ai - b.2.seq).toNat ≤ (ai - a.2.seq).toNat))
    (s.led.ent.filter (fun e => e.2.st = .closing && e.2.queue.val = q))).map (·.1)

/-- Held records of a queue go out in sequence order (R302, R378, R384). -/
def deliverQueue (q : Nat) (s : State) : State :=
  forEach (closingOf s q) (fun e acc => if h : e < 65536 then deliverRecord ⟨e, h⟩ acc else acc) s

/-- Held records of every queue go out, those of class-0 queues first while they go on VC1 (R373). -/
def deliverAll (s : State) : State :=
  forEach (urgentFirst (fun q => onVc1 s q.2.cls) s.queue) (fun q acc => deliverQueue q.1 acc) s

/-- Release of a freeze (R378): with the matching count, doorbells are accepted again, unanswered reads are issued again
with new tags, held records and notices go out. -/
def releaseFreeze (count : BitVec 8) (s : State) : State :=
  if !s.ep.frozen || count ≠ s.ep.fCount then s else
  let again := fun (r : ReadRec) => if r.issued && !r.remote then { r with issued := false, got := [] } else r
  let msg := s.ep.fHeld
  let s := updEp (fun e => { e with
    frozen := false, fHeld := false
    deadTags := e.deadTags ++ (e.reads.filter (fun r => r.issued && !r.remote)).map deadOf
    reads := e.reads.map again }) s
  let s := deliverAll (pumpEndpoint s)
  if msg then noticeMsg s else s

def execFreezeRelease (count : BitVec 8) (s : State) : Result :=
  through .endpoint true 8 (.freezeRelease count) (fun s => .next (if regServed s then releaseFreeze count s else s)) s

/-! ## Link (R353 to R355, R385) -/

/-- The PCIE domain resets, instances await re-arm, and host traffic in flight ends (R354, R379, R385); a PTM source of
TIME goes with the link (R64). -/
def pcieReset (s : State) : State :=
  let s := updEp (fun e => { e with
    up := false, lanes := 0, rate := 0, cfg := Config.reset, nVec := 0, nEn := false, nMode := false, nReady := false
    nFreeze := false, nRing := false, vcMisuse := 0, frozen := false, fCount := 0, fCause := 0, fRefused := 0, fTime := 0
    fLog := [], fHeld := false, wrDrop := 0, rdOnes := 0, msix := [], pba := [], pbaVc1 := [], winReads := [] }) s
  let s := if s.time.source = 1 then { s with time := { s.time with aligned := false } } else s
  settleMode (allInstsRearm (hostLinkLost (afterReset s)))

/-- A device whose FRAME_HEAD strap is 0 ignores PERST# (R353). -/
def execPerstAssert (s : State) : Result :=
  if !s.pw.straps.frameHead then .next s
  else .next (updEp (fun e => { e with perst := true, training := false, crsUntil := none }) (pcieReset s))

/-- PERST_DEASSERT: training starts, and configuration requests get retry status for at most 300 ms on the first
bring-up after a COLD reset, 2 ms later on (R354). -/
def execPerstDeassert (s : State) : Result :=
  if !s.pw.straps.frameHead || !s.ep.perst then .next s
  else
    let ns : Nat := if s.ep.firstUp then 300000000 else 2000000
    .next (updEp (fun e => { e with
      perst := false, training := s.pw.pwrgood, crsUntil := some (s.time.now + BitVec.ofNat 64 ns), firstUp := false }) s)

/-- The endpoint's link can train. -/
def canTrain (s : State) : Bool :=
  s.pw.straps.frameHead && !s.ep.perst && s.ep.training && s.pw.pwrgood && !standbyCond s && !(rail s 10).below && !s.pw.clkEp

/-- The credits the endpoint advertises when a virtual channel starts (R357). -/
def advertise (vc1 : Bool) (s : State) : State :=
  emit (if vc1 then .credits true 8 32 4 4 none else .credits false 64 1024 64 64 none) s

/-- LINK_TRAINED: at most the configured width and rate; below either the device is degraded (R353, R355). VC0 starts
with the credits of R357. -/
def execLinkTrained (lanes : Fin 3) (rate : Fin 5) (s : State) : Result :=
  if !canTrain s || s.ep.up then .next s
  else
    let w : BitVec 5 := BitVec.ofNat 5 (Nat.min (4 * 2 ^ lanes.val) s.pw.cfgLanes.toNat)
    let r : BitVec 3 := BitVec.ofNat 3 (Nat.min (rate.val + 1) s.pw.cfgRate.toNat)
    .next (settleMode (advertise false (updEp (fun e => { e with up := true, training := false, lanes := w, rate := r }) s)))

/-- LINK_DOWN without PERST#: the effects of a conventional reset, and the endpoint retrains on its own (R354). -/
def linkDown (s : State) : State :=
  if s.ep.up then updEp (fun e => { e with training := true }) (pcieReset s) else s

/-- The bit of AER for a link that goes down without PERST# is sticky: it outlives the reset (R375). PRESUMED (log entry
111). -/
def execLinkDown (s : State) : Result :=
  if !s.ep.up then .next s else .next (recordAer 5 (linkDown s))

/-- HOT_RESET (R385). -/
def execHotReset (s : State) : Result := .next (linkDown s)

/-! ## Configuration space (R356 to R358) -/

/-- Subsystem Vendor ID and Subsystem ID: the settings record's, or the defaults (R512). -/
def subsystem (s : State) : BitVec 32 :=
  match settingOf s.wr.store 1 with
  | some l => BitVec.ofNat 32 (fieldB l 2 4)
  | none => 0x31601F4C

/-- What a doubleword of configuration space reads as where the spec fixes it: the value and the bits it fixes.
PRESUMED (log entry 54). -/
def cfgKnown (s : State) (off : Nat) : BitVec 32 × BitVec 32 :=
  let c := s.ep.cfg
  let all : BitVec 32 := 0xFFFFFFFF
  let b := fun (x : Bool) (i : Nat) => if x then BitVec.twoPow 32 i else (0 : BitVec 32)
  let f := fun {n : Nat} (x : BitVec n) (i : Nat) => (x.setWidth 32) <<< i
  let bar := fun (x : BitVec 64) (hi : Bool) => if hi then x.extractLsb' 32 32 else x.extractLsb' 0 32
  let serial : Word := Config.serial
  let cap := fun (id ver next : Nat) => (BitVec.ofNat 32 (id + ver * 0x10000 + next * 0x100000), all)
  match off with
  | 0x00 => (0x31601F4C, all)
  | 0x04 => (b c.memEn 1 ||| b c.master 2 ||| b true 20, 0x00100006)
  | 0x08 => (0x0B400010, all)
  | 0x0C => (0, 0x00FF0000)
  | 0x10 => (bar c.bar0 false ||| 4, all)
  | 0x14 => (bar c.bar0 true, all)
  | 0x18 => (bar c.bar2 false ||| 0xC, all)
  | 0x1C => (bar c.bar2 true, all)
  | 0x20 => (bar c.bar4 false ||| 0xC, all)
  | 0x24 => (bar c.bar4 true, all)
  | 0x28 => (0, all)
  | 0x2C => (subsystem s, all)
  | 0x30 => (0, all)
  | 0x34 => (0x40, all)
  | 0x38 => (0, all)
  | 0x3C => (0, 0xFFFFFF00)
  | 0x40 => (0x00035001, 0xFE07FFFF)
  | 0x44 => (b c.d3hot 0 ||| b c.d3hot 1 ||| b true 3, 0x0000810B)
  | 0x50 => (0x07FF7011 ||| b c.msixMask 30 ||| b c.msixEn 31, all)
  | 0x54 => (0x00020000, all)
  | 0x58 => (0x00028000, all)
  | 0x70 => (0x00020010, all)
  | 0x74 => (2 ||| b true 5 ||| b true 15, 0x1000803F)
  | 0x78 => (b c.roEn 4 ||| f c.mps 5 ||| b c.extTag 8 ||| f c.mrrs 12, 0x000071F0)
  | 0x7C => (5 ||| f (16 : BitVec 6) 4 ||| f (2 : BitVec 2) 10 ||| b true 20, 0x00100FFF)
  | 0x80 => (f s.ep.rate 16 ||| f s.ep.lanes 20 ||| b s.ep.up 29, 0x23FF0000)
  | 0x94 => (0xF ||| b true 4 ||| b true 16 ||| b true 17, 0x0003FBFF)
  | 0x98 => (f c.cplTmo 0 ||| b c.cplTmoDis 4 ||| b c.idoReq 8 ||| b c.idoCpl 9 ||| b c.tag10 12, 0x000017FF)
  | 0x9C => (0x3E, 0x000000FE)
  | 0x100 => cap 0x0001 2 0x148
  | 0x104 => (c.aer, all)
  | 0x118 => (f c.aerFirst 0 ||| b true 5 ||| b true 7, 0x000000BF)
  | 0x11C => (c.aerHdr.extractLsb' 0 32, all)
  | 0x120 => (c.aerHdr.extractLsb' 32 32, all)
  | 0x124 => (c.aerHdr.extractLsb' 64 32, all)
  | 0x128 => (c.aerHdr.extractLsb' 96 32, all)
  | 0x148 => cap 0x0002 1 0x170
  | 0x14C => (1, 0x77)
  | 0x15C => (b true 0 ||| b true 31, 0x87000001)
  | 0x168 => (f c.vc1Tc 0 ||| b true 24 ||| b c.vc1En 31, 0x870000FF)
  | 0x170 => cap 0x0003 1 0x180
  | 0x174 => (serial.extractLsb' 0 32, all)
  | 0x178 => (serial.extractLsb' 32 32, all)
  | 0x180 => cap 0x0019 1 0x1B0
  | 0x1B0 => cap 0x0025 1 0x1C0
  | 0x1B4 => (0, 0x00000001)
  | 0x1C0 => cap 0x0026 1 0x1F0
  | 0x1F0 => cap 0x002A 1 0x220
  | 0x220 => cap 0x0027 1 0x270
  | 0x270 => cap 0x001F 1 0x280
  | 0x274 => (1, 0x00000007)
  | 0x280 => cap 0x0023 1 0
  | 0x284 => (0x1F4C, 0x0000FFFF)
  | 0x288 => (0x0001, 0x0000FFFF)
  | 0x28C => ((identWord s).extractLsb' 0 32, all)
  | 0x290 => ((identWord s).extractLsb' 32 32, all)
  | 0x294 => ((epStatusWord s).extractLsb' 0 32, all)
  | 0x298 => ((epStatusWord s).extractLsb' 32 32, all)
  | _ => (0, 0)

/-- Other bits that the PCI-SIG definitions let software write: command, cache line, interrupt line, Device, Link and
Link 2 Control, AER masks, severity and control, the VC0 map and PTM Control. PRESUMED (log entry 54). -/
def cfgRwMask (off : Nat) : BitVec 32 :=
  match off with
  | 0x04 => 0x00000540
  | 0x0C => 0x000000FF
  | 0x3C => 0x000000FF
  | 0x78 => 0x0000080F
  | 0x80 => 0x000000C3
  | 0xA0 => 0x0000000F
  | 0x108 => 0x007FF030
  | 0x10C => 0x007FF030
  | 0x114 => 0x0000F1C1
  | 0x118 => 0x00000140
  | 0x15C => 0x000000FE
  | 0x278 => 0x0000FF03
  | _ => 0

/-- A doubleword of configuration space as it reads: what the spec fixes, what software wrote, and the rest open. -/
def cfgRead (s : State) (off : Nat) : BitVec 32 :=
  let k := cfgKnown s off
  let m := cfgRwMask off
  (k.1 &&& k.2) ||| (look 0 s.ep.cfg.rw off &&& m &&& ~~~k.2) ||| (Config.cfgOpen off &&& ~~~k.2 &&& ~~~m)

/-- Byte enables as a bit mask. -/
def beMask (be : BitVec 4) : BitVec 32 :=
  (List.range 4).foldl (fun m i => if be.getLsbD i then m ||| ((0xFF : BitVec 32) <<< (8 * i)) else m) 0

/-- A BAR half with the bits above its size writable (R358). -/
def barWrite (old : BitVec 64) (hi : Bool) (v m : BitVec 32) (sizeMask : BitVec 32) : BitVec 64 :=
  let lo := old.extractLsb' 0 32
  let h := old.extractLsb' 32 32
  if hi then ((h &&& ~~~m) ||| (v &&& m)) ++ lo else h ++ (((lo &&& ~~~m) ||| (v &&& m)) &&& sizeMask)

/-- A write of a configuration doubleword under its byte enables. Enabling VC1 starts it with its credits (R357). -/
def cfgWrite (off : Nat) (v m : BitVec 32) (s : State) : State :=
  let bitv := fun (old : Bool) (i : Nat) => if m.getLsbD i then v.getLsbD i else old
  let fldv := fun {n : Nat} (old : BitVec n) (i : Nat) => BitVec.ofNat n
    ((((old.setWidth 32 <<< i) &&& ~~~m) ||| (v &&& m)) >>> i).toNat
  let wasEn := s.ep.cfg.vc1En
  let s := updEp (fun e => { e with cfg := { e.cfg with
    rw := put 0 e.cfg.rw off (((look 0 e.cfg.rw off &&& ~~~m) ||| (v &&& m)) &&& cfgRwMask off) } }) s
  let s := updEp (fun e =>
    let c := e.cfg
    { e with cfg := match off with
      | 0x04 => { c with memEn := bitv c.memEn 1, master := bitv c.master 2 }
      | 0x10 => { c with bar0 := barWrite c.bar0 false v m 0xFC000000 }
      | 0x14 => { c with bar0 := barWrite c.bar0 true v m 0 }
      | 0x18 => { c with bar2 := barWrite c.bar2 false v m 0 }
      | 0x1C => { c with bar2 := barWrite c.bar2 true v m 0 }
      | 0x20 => { c with bar4 := barWrite c.bar4 false v m 0xFF000000 }
      | 0x24 => { c with bar4 := barWrite c.bar4 true v m 0 }
      | 0x44 =>
        let st : BitVec 2 := v.extractLsb' 0 2
        if m.getLsbD 0 && (st = 0 || st = 3) then { c with d3hot := st = 3 } else c
      | 0x50 => { c with msixMask := bitv c.msixMask 30, msixEn := bitv c.msixEn 31 }
      | 0x78 => { c with roEn := bitv c.roEn 4, mps := fldv c.mps 5, extTag := bitv c.extTag 8, mrrs := fldv c.mrrs 12 }
      | 0x98 => { c with
          cplTmo := fldv c.cplTmo 0, cplTmoDis := bitv c.cplTmoDis 4, idoReq := bitv c.idoReq 8, idoCpl := bitv c.idoCpl 9
          tag10 := bitv c.tag10 12 }
      | 0x104 => { c with aer := c.aer &&& ~~~(v &&& m) }
      | 0x168 => { c with vc1Tc := fldv c.vc1Tc 0 &&& 0xFE, vc1En := bitv c.vc1En 31 }
      | _ => c }) s
  pumpEndpoint (if s.ep.cfg.vc1En && !wasEn then advertise true s else s)

/-- CONFIG_REQUEST: answered with retry status in the window of R354, else served. -/
def execConfigRequest (wr : Bool) (off : BitVec 10) (be : BitVec 4) (v : BitVec 32) (s : State) : Result :=
  through .endpoint true 4 (.configRequest wr off be v) (fun s =>
  if !s.ep.up || s.pw.clkEp then .next s else
    let inWindow : Bool := match s.ep.crsUntil with
      | some t => decide (s.time.now.toNat < t.toNat)
      | none => false
    if inWindow then .next (emit .retry s)
    else
      let o := off.toNat * 4
      let s := updEp (fun e => { e with crsUntil := none }) s
      if wr then .next (emitHost (.completion true [] false) (cfgWrite o v (beMask be) (countBytes 0 4 s)))
      else .next (emitHost (.completion true (bytesOf 4 ((cfgRead s o).setWidth 64)) false) (countBytes 1 4 s))) s

/-! ## Reads of the device (R368, R375, R378) -/

/-- The completion timeout of Device Control 2, in ns (R368). -/
def cplTmoNs (v : BitVec 4) : Nat :=
  match v.toNat with
  | 1 => 80000
  | 2 => 8000000
  | 5 => 40000000
  | 6 => 160000000
  | 9 => 640000000
  | 10 => 2500000000
  | 13 => 10000000000
  | 14 => 40000000000
  | _ => 40000000

/-- DEDUCED (log entry 55). -/
def readOf (s : State) (tag : BitVec 10) : Option ReadRec :=
  s.ep.reads.find? (fun r => r.issued && !r.remote && r.tag = tag.setWidth 16)

/-- An abandoned read of this tag. -/
def deadTag (s : State) (tag : BitVec 10) : Option (BitVec 16 × Word × Nat) :=
  s.ep.deadTags.find? (fun d => d.1 = tag.setWidth 16)

/-- A tag leaves the abandoned ones. -/
def freeDead (tag : BitVec 10) (s : State) : State :=
  updEp (fun e => { e with deadTags := removeFirst (fun d => d.1 = tag.setWidth 16) e.deadTags }) s

/-- A completion on an abandoned tag is discarded without error; the tag is free once the whole of it has come, or it ends
with an error (R378). -/
def deadCompletion (d : BitVec 16 × Word × Nat) (tag : BitVec 10) (last : Bool) (n : Nat) (s : State) : State :=
  if last || decide (d.2.2 ≤ n) then pumpReads (freeDead tag s)
  else updEp (fun e => { e with deadTags := editFirst (fun y => y = d) (fun y => (y.1, y.2.1, y.2.2 - n)) e.deadTags }) s

/-- A completion of the device's own read: bytes arrive in order, in any number of pieces; an error ends the read, and
poison leaves its tag out of use until the rest has come (R368). -/
def readCompletes (r : ReadRec) (st : CplStatus) (data : List Byte) (s : State) : State :=
  let got := r.got ++ data
  match st with
  | .unsupported => readFailed r 9 1 1 (recordAer 20 s)
  | .abort => readFailed r 9 2 1 (recordAer 15 s)
  | .poisoned =>
    readFailed r 2 (if r.isDesc then 1 else 2) 0 (keepDead [{ r with got := got }] (recordAer 12 s))
  | .ok =>
    if r.len ≤ got.length then readWhole r (got.take r.len) s else updRead r (fun y => { y with got := got }) s

/-- READ_COMPLETION: for a read still open, for an abandoned one, or for no read, which is unexpected and freezes (R368,
R375, R378). -/
def execReadCompletion (tag : BitVec 10) (st : CplStatus) (data : List Byte) (s : State) : Result :=
  through .endpoint true data.length (.readCompletion tag st data) (fun s =>
  if !s.ep.up || s.pw.clkEp then .next s else
    let s := countBytes 0 data.length s
    match readOf s tag, deadTag s tag with
    | some r, _ => .next (readCompletes r st data s)
    | none, some d => .next (deadCompletion d tag (st = .unsupported || st = .abort) data.length s)
    | none, none => .next (freeze 4 s)) s

/-- COMPLETION_TIMEOUT (R368, R378). -/
def execCompletionTimeout (tag : BitVec 10) (s : State) : Result :=
  if s.ep.cfg.cplTmoDis then .next s else
  let past := fun (t : Word) => decide (t.toNat + cplTmoNs s.ep.cfg.cplTmo ≤ s.time.now.toNat)
  match readOf s tag with
  | some r => if past r.since then .next (readFailed r 9 3 1 (recordAer 14 s)) else .next s
  | none =>
    match deadTag s tag with
    | some d => if past d.2.1 then .next (pumpReads (freeDead tag s)) else .next s
    | none => .next s

/-! ## Notices and instance resets -/

/-- A write of EP_NOTIFY: vector and enable, and the notice bits that it clears (R363). -/
def writeEpNotify (v m : Word) (s : State) : State :=
  let w := (epNotifyWord s.ep &&& ~~~m) ||| (v &&& m)
  let clr := fun (i : Nat) (old : Bool) => old && !(m.getLsbD i && v.getLsbD i)
  updEp (fun e => { e with
    nVec := w.extractLsb' 0 11, nEn := w.getLsbD 11
    nMode := clr 16 e.nMode, nReady := clr 17 e.nReady, nFreeze := clr 18 e.nFreeze, nRing := clr 19 e.nRing }) s

def execEpNotifyWrite (v : Word) (s : State) : Result :=
  through .endpoint true 8 (.epNotifyWrite v) (fun s =>
  if regServed s then .next (writeEpNotify v (BitVec.allOnes 64) s) else .next s) s

/-- A write of 1 to INST_STAT.RESET (R384); while the endpoint is frozen, or fenced, it is discarded (R44, R377). -/
def execInstStatResetWrite (i : Fin 256) (s : State) : Result :=
  through .endpoint true 8 (.instStatResetWrite i) (fun s =>
  if s.ep.frozen || !regServed s then .next s else .next (resetInst i.val s)) s

/-! ## Doorbells and inline items as TLPs (R360, R373) -/

/-- The endpoint takes writes to instance pages: its link is up and it serves more than R44 leaves a fenced device. -/
def pagesServed (s : State) : Bool := s.ep.up && s.ep.cfg.memEn && !s.ep.cfg.d3hot && !s.pw.clkEp && s.pw.fence ≠ .done

/-- DOORBELL: a write to the doorbell address of a slot; a TLP on VC1 while VC1 is off is malformed (R373). -/
def execDoorbell (i : Fin 256) (slot : Fin 256) (v : Word) (whole vc1 : Bool) (s : State) : Result :=
  through .endpoint true 8 (.doorbell i slot v whole vc1) (fun s =>
  if !pagesServed s then .next s
    else if vc1 && !s.ep.cfg.vc1En then .next (freeze 1 s)
    else .next (pageWrite i slot.val vc1 (fun q => ringQueue q i.val v whole s.ep.frozen) (countBytes 0 8 s))) s

/-- INLINE_ITEM: a write to the inline address of a slot. -/
def execInlineItem (i : Fin 256) (slot : Fin 256) (v : BitVec 512) (whole vc1 : Bool) (s : State) : Result :=
  through .endpoint true 64 (.inlineItem i slot v whole vc1) (fun s =>
  if !pagesServed s then .next s
    else if vc1 && !s.ep.cfg.vc1En then .next (freeze 1 s)
    else .next (pageWrite i slot.val vc1 (fun q => inlineQueue q i.val v whole s.ep.frozen) (countBytes 0 64 s))) s

end Sys2Proof.Machine
end

