-- ==== Sys2Proof/Machine/TimeBase.lean ====
section
/-! DEFINITION. TIME and its alignment (R59 to R64), beat monitors (R54), stopped clocks (R57), and what counts at every
sill cycle (R477, R478). -/
namespace Sys2Proof.Machine

/-! ## Registers -/

/-- The rate correction in units of 0.1 ppm, to the nearest. DEDUCED (log entry 48). -/
def ratePpm (corr : BitVec 32) : BitVec 16 :=
  BitVec.ofInt 16 ((corr.toInt * 1000000 + (2 : Int) ^ 31) / (2 : Int) ^ 32)

def timeStatusWord (t : TimeBase) : Word :=
  at' t.source 0 ||| atB t.aligned 2 ||| atB t.refLost 3 ||| at' t.steps 8 ||| at' t.offset 16 ||| at' (ratePpm t.corr) 32

def beatMonWord (d : Die) : Word := at' d.beats 0 ||| at' d.slowest 16 ||| at' d.vsetMv 32

/-! ## The sill cycle -/

/-- Nominal period of the sill clock in ns: 100 MHz, or the internal 25 MHz (R59). DEDUCED (log entry 48). -/
def sillPeriod (t : TimeBase) : Nat := if t.refLost then 40 else 10

/-- TIME after one sill cycle: the period and the rate correction, in units of 2^-32 ns (R59). DESIGN CHOICE (log entry 6).
DESIGN CHOICE (log entry 8). DEDUCED (log entry 48). -/
def tick (t : TimeBase) : TimeBase :=
  let unit : Int := (2 : Int) ^ 32
  let p : Int := (sillPeriod t : Int) * unit
  let total : Int := (t.now.toNat : Int) * unit + (t.frac.toNat : Int) + p + t.corr.toInt * ((sillPeriod t / 10 : Nat) : Int)
  { t with now := BitVec.ofInt 64 (total / unit), frac := BitVec.ofInt 32 (total % unit) }

/-- A level condition of R479 holds for the thread. DESIGN CHOICE (log entry 24). -/
def levelHolds (s : State) (t : Thr) (code : Nat) : Bool :=
  let th := thr s t
  match t with
  | .core _ =>
    if code = 4 then fetchStopped th
    else if code = 0x0D then th.waitRoom
    else if code = 0x17 then
      th.soloParked
    else code = 0x18 && th.run = .dozing
  | .adze _ =>
    if code = 0x18 then th.run = .dozing
    else if code = 0x21 then (match th.run with | .awaiting _ => true | _ => false)
    else code = 0x23 && th.waitRoom

/-- What one thread counts over `ns` of TIME. -/
def countThread (t : Thr) (ns : Nat) (s : State) : State :=
  let s := forEach [4, 0x0D, 0x17, 0x18, 0x21, 0x23] (fun c acc =>
    if levelHolds acc t c then countLevel t c ns acc else acc) s
  updThr t (fun th =>
    let p := th.pmu
    if p.tEn && !p.freeze && privSel p.tPriv th.tstat.priv && th.run ≠ .notStarted && !halted th then
      { th with pmu := { p with time := p.time + BitVec.ofNat 64 ns } }
    else th) s

/-- Every started thread counts, while the main logic runs and the device is not fenced (R489). -/
def countThreads (ns : Nat) (s : State) : State :=
  if !mainOn s || s.pw.fenced then s else
  forEach (s.thr.map (·.1)) (fun k acc =>
    match thrOfKey k with
    | some t => if domainDown acc t then acc else countThread t ns acc
    | none => acc) s

/-- SILL_CLOCK_TICK (R59). DESIGN CHOICE (log entry 8). -/
def execSillClockTick (s : State) : Result :=
  if !s.pw.sillOn || s.pw.clkSill then .next s else
  let old := s.time.now
  let s := { s with time := tick s.time }
  .next (countThreads (s.time.now - old).toNat s)

/-! ## Alignment -/

/-- The source this device aligns to: the settings record's, or the default of R62. DESIGN CHOICE (log entry 47). -/
def timeSource (s : State) : BitVec 2 :=
  match settingOf s.wr.store 7 with
  | some l => BitVec.ofNat 2 (fieldB l 0 1 % 4)
  | none => if s.pw.straps.frameHead && s.ep.up then 1 else 2

def clampInt (n v : Int) : Int := if v < -n then -n else if n < v then n else v

/-- The limit of the rate correction: 500 ppm of 10 ns, in 2^-32 ns (R59). -/
def corrMax : Int := 21474836

/-- The rate correction for an offset: at its limit from 1 us on, which 2 ms removes; below, as the device sets it
(R62). DESIGN CHOICE (log entry 47). -/
def rateFor (off : Int) : BitVec 32 :=
  BitVec.ofInt 32 (if 1000 ≤ off then -corrMax else if off ≤ -1000 then corrMax else clampInt corrMax (Config.rateFor off))

/-- One alignment with the measured offset, local minus source: TIME steps in the two cases of R63, else its rate
changes. `bound` is that of R64. ALIGNED does not set while REF_LOST is 1. DESIGN CHOICE (log entry 82). -/
def align (src : BitVec 2) (off : Int) (bound : Nat) (s : State) : State :=
  let t := s.time
  let noActive := (List.range 8).all (fun p => decide ((part s p).st ≠ .active))
  let step := !t.alignedOnce || (!t.alignedSince && noActive)
  { s with time := { t with
      source := src
      now := if step then t.now - BitVec.ofInt 64 off else t.now
      steps := if step then t.steps + 1 else t.steps
      corr := if step then t.corr else rateFor off
      offset := BitVec.ofInt 16 (clampInt 32767 off)
      aligned := !t.refLost && (step || decide (off.natAbs ≤ bound))
      alignedOnce := true
      alignedSince := true } }

/-- PTM_REFRESH: a head device with a trained host link, aligned by PTM; no exchange ends while the endpoint's clock is
stopped (R57). -/
def execPtmRefresh (offset : BitVec 64) (s : State) : Result :=
  if !mainOn s || !s.pw.straps.frameHead || !s.ep.up || s.pw.clkEp || timeSource s ≠ 1 then .next s
  else .next (align 1 offset.toInt 40 s)

def execRefLost (s : State) : Result :=
  if !s.pw.sillOn then .next s
  else .next { s with time := { s.time with refLost := true, aligned := false } }

def execRefRestored (s : State) : Result :=
  if !s.pw.sillOn then .next s else .next { s with time := { s.time with refLost := false } }

/-! ## Beat monitors -/

/-- The monitor's domain is powered: the hub is with the main logic. -/
def beatPowered (s : State) (m : Fin 5) : Bool := mainOn s && (m.val = 4 || (die s m.val).powered)

/-- BEAT_WINDOW_END: a window of 4,096 ns of TIME has passed; its count, and the lowest since CLR. The next window begins
(R54). -/
def execBeatWindowEnd (m : Fin 5) (beats : BitVec 16) (s : State) : Result :=
  if !beatPowered s m || decide (s.time.now.toNat < (die s m.val).winFrom.toNat + 4096) then .next s else
  .next (updDie m.val (fun d => { d with
    beats := beats, slowest := if beats.toNat < d.slowest.toNat then beats else d.slowest, winFrom := s.time.now }) s)

/-- BEAT_MON_CLR; a fenced device's registers take no write (R44). -/
def execBeatMonClr (m : Fin 5) (s : State) : Result :=
  if !mainOn s || s.pw.fence = .done then .next s else .next (updDie m.val (fun d => { d with slowest := 0xFFFF }) s)

/-! ## Stopped clocks -/

/-- Stop or restart the clock of a block (R57). -/
def setClock (b : Clk) (stopped : Bool) (s : State) : State :=
  match b with
  | .ddr c => updPw (fun p => { p with clkDdr := setBit p.clkDdr c.val stopped }) s
  | .endpoint => updPw (fun p => { p with clkEp := stopped }) s
  | .ridge x => updPw (fun p => { p with clkRidge := setBit p.clkRidge (portIx x) stopped }) s
  | .wright => updPw (fun p => { p with clkWright := stopped }) s
  | .sill => updPw (fun p => { p with clkSill := stopped }) s

/-- CLOCK_STOP: the clock stops or the PLL loses lock; the block's crossing holds its entries and stalls, and none is
lost (R57). -/
def execClockStop (b : Clk) (s : State) : Result := .next (setClock b true s)

end Sys2Proof.Machine
end

