-- ==== Sys2Proof/Machine/RidgePorts.lean ====
section
/-! DEFINITION. The ridge's control flits, link-level retry, training, joining and leaving (R387 to R398, R409 to R413),
and what a lost route does to the requests that crossed it (R403). -/
namespace Sys2Proof.Machine

/-! ## Lost requests (R403, R407, R408) -/

/-- A thread's access over the ridge ends with error. -/
def ridgeAccessLost (t : Thr) (id : Nat) (cause : LostCause) (s : State) : State :=
  match outAccess s t id with
  | some a => accessLost t a cause s
  | none => s

/-- A request lost with its route: a thread's access ends, a host read goes once more or fails its item, a record and its
result bytes go again when a route exists; forwarded host accesses are not reported. -/
def loseReq (q : RReq) (s : State) : State :=
  let s := closeReq (fun r => r = q) s
  match q.thr, q.entry with
  | some (t, id), _ => ridgeAccessLost t id .ridgeUnreachable (countUnreach s)
  | none, some e =>
    if q.op = 0x10 then
      match s.ep.reads.find? (fun r => r.remote && r.issued && r.tag = q.tag && r.entry = e) with
      | none => s
      | some r =>
        if r.resent then readFailed r 9 5 0 (countUnreach s)
        else
          let again := { r with issued := false, remote := false, resent := true, got := [] }
          pumpReads (updRead r (fun _ => again) s)
    else if q.op = 0x12 then
      updEntry e.val (fun y => { y with dwrWait := 0 })
        (updRidge (fun r => { r with reqs := r.reqs.filter (fun x => !(x.op = 0x12 && x.entry = some e)) }) s)
    else updEntry e.val (fun y => { y with recSent := false }) s
  | none, none => s

/-- A request that waits for its route and has sent nothing yet. -/
def isHeld (s : State) (q : RReq) : Bool := s.ridge.held.any (fun f => isReqOf f.body q)

/-- End the requests that meet the test, with the held ones that no route carries any more (R403); then send what may go
again. -/
def loseReqs (p : RReq → Bool) (s : State) : State :=
  let noWay := fun (q : RReq) => (match route s q.dst with | .out _ => false | _ => true)
  let gone := s.ridge.reqs.filter (fun q => if isHeld s q then noWay q else p q)
  let s := updRidge (fun r => { r with held := r.held.filter (fun f => !gone.any (isReqOf f.body)) }) s
  deliverAll (forEach gone loseReq s)

/-! ## Ports going down -/

def setPortReady (x : Port) (b : Bool) (s : State) : State :=
  setReady (fun r => { r with port := setBit r.port (portIx x) b }) s

/-- The port this device aligns its TIME through (R409): toward its frame's head, W on a tie; a head's N or S port is the
one its settings record names. DESIGN CHOICE (log entry 47). -/
def alignPort (s : State) : Port :=
  if s.pw.straps.frameHead then
    (match settingOf s.wr.store 7 with
     | some l => if (fieldB l 0 1 / 4) % 4 = 3 then .S else .N
     | none => .N)
  else
    let p := myPos s
    let h := s.ep.headPos.toNat
    let live := liveRing s
    match pick .W .E (portUp s .W && eastWhole s h p) (portUp s .E && eastWhole s p h) (eastDist live h p) (eastDist live p h) with
    | .out x => x
    | _ => .W

/-- ALIGNED clears with its source (TIME_STATUS). -/
def sourceLost (x : Port) (s : State) : State :=
  if (timeSource s = 2 || s.time.source = 2) && alignPort s = x then { s with time := { s.time with aligned := false } }
  else s

/-- The link of a port is gone: its messages are discarded, the requests sent through it end, and its ring is told. -/
def portDown (x : Port) (st : BitVec 3) (s : State) : State :=
  let s := sourceLost x (discardPort x s)
  let s := updPort (portIx x) (fun p => { p with
    st := st, holding := false, holdSent := false, joiner := none, nakSent := false, stuck := 0 }) s
  flood (isNs x) (loseReqs (fun q => q.port = x || answerPort s q = x) (setPortReady x false s))

/-- A failed port: logged, its ready bit clear, the degraded condition raised; a pair with both ports failed closes
(R389, R410). -/
def failPort (x : Port) (s : State) : State :=
  let partner := (port s (portIx x)).partner
  let s := updPort (portIx x) (fun p => { p with training := false, powered := false }) (portDown x 5 s)
  let s := wrightEvent 8 (BitVec.ofNat 64 (portIx x)) (partner.setWidth 64) s
  let both := (port s (portIx (portMate x))).st = 5
  settleMode (if both then updPair (isNs x) (fun p => { p with isOpen := false }) s else s)

/-- The partner at a port is no longer live. -/
def partnerGone (x : Port) (s : State) : State :=
  let id := (port s (portIx x)).partner
  if isNs x then
    if devFrame id < 64 then updRidge (fun r => { r with liveCol := setBit r.liveCol (devFrame id) false }) s else s
  else setLive (setBit s.ridge.live (devPos id) false) s

/-- PORT_LOCK_LOSS: the partner's lock is lost with the partner (R413): its position is absent from the map that is
flooded, what crossed it ends, and the port is a chain end and trains directly. -/
def execPortLockLoss (x : Port) (s : State) : Result :=
  if !portUp s x then .next s else
  let id := (port s (portIx x)).partner
  let old := liveRing s
  let gone := setBit (0 : BitVec 64) (devPos id) true
  let s := portDown x 6 (partnerGone x s)
  let s := if isNs x then s else loseReqs (crossedAt s (myFrame s) old gone) s
  .next (updPort (portIx x) (fun p => { p with training := true }) s)

/-! ## Training (R389, R391) -/

/-- Populated devices that the link passes over between this device and its partner. -/
def bypassedCount (s : State) (x : Port) (partner : BitVec 16) : Nat :=
  if isNs x then
    let n := s.ridge.frames.toNat + 1
    let f := myFrame s
    let g := devFrame partner
    (match x with | .N => (g + n - f % n) % n | _ => (f + n - g % n) % n) - 1
  else ((pathOut (myPos s) (devPos partner) x).filter (fun p => s.ridge.pop.getLsbD p)).length

/-- The live maps once a link with a partner is up: the partner is live and the positions passed over are absent.
DESIGN CHOICE (log entry 44). -/
def linkLive (x : Port) (partner : BitVec 16) (s : State) : State :=
  if isNs x then
    let v := if devFrame partner < 64 then setBit s.ridge.liveCol (devFrame partner) true else s.ridge.liveCol
    let v := if myFrame s < 64 then setBit v (myFrame s) true else v
    updRidge (fun r => { r with liveCol := v }) s
  else
    let gone := pathOut (myPos s) (devPos partner) x
    setLive (gone.foldl (fun v i => setBit v i false) (setBit s.ridge.live (devPos partner) true)) s

/-- A retrain keeps the link's state; what is not acknowledged goes again. -/
def resend (x : Port) (s : State) : State :=
  pumpPort x (forEach (port s (portIx x)).replay (fun f acc => emitFlit x f acc) s)

/-- Start a retrain (R394). -/
def retrain (x : Port) (s : State) : State :=
  updPort (portIx x) (fun p => { p with training := true, retrains := satInc p.retrains, stuck := 0 }) s

/-- A link of the pair may come up: the device is not fenced and does not leave the pair (R44, R45, R412). -/
def pairMayOpen (s : State) (ns : Bool) : Bool :=
  let st := (pairOf s ns).step
  !s.pw.fenced && st ≠ .leaving && st ≠ .drained

/-- The partner of a port is known: the devices passed over are counted (R391). -/
def setPartner (x : Port) (id : BitVec 16) (s : State) : State :=
  updPort (portIx x) (fun p => { p with
    partner := id, bypassed := BitVec.ofNat 2 (Nat.min (bypassedCount s x id) 3) }) s

/-- The link to the partner passes over more devices than the loss budget bears (R391). -/
def tooLong (s : State) (x : Port) : Bool := decide (2 < bypassedCount s x (port s (portIx x)).partner)

/-- The link stays unused, and the port is a chain end (R391). -/
def leaveUnused (x : Port) (s : State) : State :=
  settleMode (setPortReady x false (updPort (portIx x) (fun p => { p with
    st := 6, training := false, holding := false, holdSent := false, joiner := none }) s))

/-- Training has reset the scrambler, and the partner's spread setting is known (R387, R389). -/
def trainingEnds (x : Port) (spread : BitVec 3) (s : State) : State :=
  updPort (portIx x) (fun p => { p with
    training := false, failsInRow := 0, powered := true, flits := 0, pspread := spread, lastAck := s.time.now }) s

/-- A full training has ended well: the devices passed over are counted, and the link comes up, or stays unused with both
ends chain ends. -/
def linkTrained (x : Port) (partner : BitVec 16) (pport : BitVec 2) (s : State) : State :=
  let s := updPort (portIx x) (fun p => { p with pport := pport }) (setPartner x partner s)
  if tooLong s x || !pairMayOpen s (isNs x) then leaveUnused x s
  else
    let s := startLink x s
    let s := updPair (isNs x) (fun p => { p with isOpen := true, step := .idle }) s
    let s := setPortReady x true (linkLive x partner s)
    settleMode (deliverAll (flood (isNs x) s))

/-- A port in training: a full training or a retrain runs; a port that monitors a direction with no link trains directly
with its partner (R411). -/
def trains (k : PortSt) : Bool := k.training || k.st = 1

/-- RIDGE_TRAINING_DONE: a retrain brings the port back; a full training brings the link up. The partner's ID, port and
spread setting have been exchanged (R389). -/
def execRidgeTrainingDone (x : Port) (partner : BitVec 16) (pport : Port) (spread : BitVec 3) (s : State) : Result :=
  if !trains (port s (portIx x)) then .next s
  else
    let up := portUp s x
    let s := trainingEnds x spread s
    if up then .next (resend x s) else .next (linkTrained x partner (BitVec.ofNat 2 (portIx pport)) s)

/-- A training has failed; after a third failure in a row the port is failed. -/
def trainingFailed (x : Port) (s : State) : State :=
  let n := (port s (portIx x)).failsInRow + 1
  let s := if portUp s x then portDown x 6 s else s
  let s := updPort (portIx x) (fun p => { p with failsInRow := n, training := true }) s
  if 3 ≤ n then failPort x s else s

/-- RIDGE_TRAINING_FAIL. -/
def execRidgeTrainingFail (x : Port) (s : State) : Result :=
  if trains (port s (portIx x)) then .next (trainingFailed x s) else .next s

/-! ## Control flits and link-level retry (R388, R393, R394) -/

def execIdleFlit (f : Flit) (s : State) : Result :=
  through (.ridge f.port) true 72 (.idleFlit f) (fun s =>
  .next (unsequenced f (fun s => s) s)) s

/-- SKIP: absorbed; it tells a receiver who its partner is, and so how many devices the link passes over (R388, R391,
R411). -/
def execSkipFlit (f : Flit) (id : BitVec 16) (prt : Port) (s : State) : Result :=
  through (.ridge f.port) true 72 (.skipFlit f id prt) (fun s =>
  .next (unsequenced f (fun s =>
      let s := updPort (portIx f.port) (fun p => { p with pport := BitVec.ofNat 2 (portIx prt) }) (setPartner f.port id s)
      if portUp s f.port && tooLong s f.port then settleMode (portDown f.port 6 s) else s) s)) s

/-- SKIP_INSERT: after 256 flits (R388). -/
def execSkipInsert (x : Port) (s : State) : Result :=
  if !portUp s x || (port s (portIx x)).training || (port s (portIx x)).sinceSkip < 256 then .next s
  else .next (updPort (portIx x) (fun p => { p with sinceSkip := 0 }) (sendControl x (.skip (deviceId s) x) s))

/-- NAK: resend from the named SEQ; after 8 replays without progress the port retrains. -/
def execNakFlit (f : Flit) (expected : BitVec 9) (s : State) : Result :=
  through (.ridge f.port) true 72 (.nakFlit f expected) (fun s =>
  .next (unsequenced f (fun s =>
      if !portUp s f.port then s else
      let s := takeAck f.port expected s
      let n := (port s (portIx f.port)).stuck + 1
      let s := resend f.port (updPort (portIx f.port) (fun p => { p with replays := satInc p.replays, stuck := n }) s)
      if 8 ≤ n then retrain f.port s else s) s)) s

/-- FLIT_ERROR: a flit with a bad CRC is discarded; one NAK goes for the gap. -/
def execFlitError (x : Port) (s : State) : Result :=
  if !portHears s x || !portUp s x then .next s else
  let s := updPort (portIx x) (fun p => { p with crcErr := satInc p.crcErr }) s
  let k := port s (portIx x)
  if k.nakSent then .next s
  else .next (sendControl x (.nak k.rxSeq) (updPort (portIx x) (fun p => { p with nakSent := true }) s))

/-- RIDGE_ACK_TIMEOUT: 64 us with flits unacknowledged and no ACK advance. -/
def execRidgeAckTimeout (x : Port) (s : State) : Result :=
  let k := port s (portIx x)
  if portUp s x && !k.training && !k.replay.isEmpty && decide (k.lastAck.toNat + 64000 ≤ s.time.now.toNat) then .next (retrain x s)
  else .next s

/-- The nearest live position west of `p`, or `p`. -/
def westLive (live : BitVec 64) (p : Nat) : Nat :=
  (((List.range 63).map (fun i => (p + 63 - i) % 64)).find? (fun i => live.getLsbD i)).getD p

/-- The next live device beyond the one that leaves, on the far side of port `x`. -/
def beyond (s : State) (x : Port) (id : BitVec 16) : BitVec 16 :=
  let p := devPos id
  let live := liveRing s
  let n := s.ridge.frames.toNat + 1
  let col := fun (l : List Nat) => (match l.find? (fun g => decide (64 ≤ g) || s.ridge.liveCol.getLsbD g || decide (g = myFrame s)) with
    | some g => devOf g (myPos s)
    | none => id)
  match x with
  | .E => devOf (myFrame s) ((passedEast live p ((p + 63) % 64)).headD p)
  | .W => devOf (myFrame s) (westLive live p)
  | .N => col ((List.range n).map (fun i => (devFrame id + 1 + i) % n))
  | .S => col ((List.range n).map (fun i => (devFrame id + n - 1 - i % n) % n))

/-- A new device on the link, or the link past a device that left, is up: the partner is known, the hold ends, the ring
is told (step 6 of R411, step 5 of R412); a link that has become too long stays unused (R391). -/
def holdEnds (x : Port) (id : BitVec 16) (s : State) : State :=
  let leaves := (port s (portIx x)).partner = id
  let partner := if leaves then beyond s x id else id
  let s := setPartner x partner s
  if tooLong s x then settleMode (portDown x 6 s)
  else
    let s := startLink x s
    if leaves then s else linkLive x partner s

/-- INIT: credits for every channel, SEQ at 0 in both directions; a held direction is answered and goes on, and so is a
link that this device has not itself started anew. -/
def execInitFlit (f : Flit) (credits : BitVec 80) (s : State) : Result :=
  through (.ridge f.port) true 72 (.initFlit f credits) (fun s =>
  if !portHears s f.port then .next s else
    let x := f.port
    let k := port s (portIx x)
    let joined : Bool := k.holding && k.joiner.isSome
    let s := match k.holding, k.joiner with
      | true, some id => holdEnds x id s
      | _, _ => if k.awaitInit || !portUp s x then s else startLink x s
    if !portUp s x then .next s else
    let all := (List.range 16).foldl (fun t v => put 0 t v (credits.extractLsb' (5 * v) 5).toNat) ([] : Tbl Nat)
    let s := updPort (portIx x) (fun p => { p with rxSeq := 0, nakSent := false, awaitInit := false, credits := all }) s
    .next (pumpPort x (if joined then deliverAll (flood (isNs x) s) else s))) s

/-! ## Time messages (R409) -/

/-- A stamp of TIME in units of 1/32 ns. -/
def stamp (s : State) : Word := (s.time.now <<< 5) ||| ((s.time.frac.extractLsb' 27 5).setWidth 64)

/-- TIME_SYNC_TIMER: every 64 us of TIME on an up link. -/
def execTimeSyncTimer (x : Port) (s : State) : Result :=
  let t1 := stamp s
  let k := port s (portIx x)
  if !portUp s x || k.training || (k.t1 ≠ 0 && decide ((t1 - k.t1).toNat < 64000 * 32)) then .next s else
  .next (sendControl x (.timeSync t1) (updPort (portIx x) (fun p => { p with t1 := t1 }) s))

/-- TIME_SYNC: stamped on arrival (T2), and again as the answer leaves (T3). -/
def execTimeSync (f : Flit) (t1 : Word) (s : State) : Result :=
  through (.ridge f.port) true 72 (.timeSync f t1) (fun s =>
  .next (unsequenced f (fun s =>
      if portUp s f.port then sendControl f.port (.timeResp t1 (stamp s) (stamp s)) s else s) s)) s

/-- TIME_RESP, stamped on arrival (T4): the link delay; and, on the port toward the source, one alignment. -/
def execTimeResp (f : Flit) (t1 t2 t3 : Word) (s : State) : Result :=
  through (.ridge f.port) true 72 (.timeResp f t1 t2 t3) (fun s =>
  .next (unsequenced f (fun s =>
      if !portUp s f.port || (port s (portIx f.port)).t1 ≠ t1 then s else
      let t4 := stamp s
      let d : Int := ((t4 - t1).toInt - (t3 - t2).toInt) / 2
      let off : Int := ((t1 - t2).toInt + (t4 - t3).toInt) / 64
      let s := updPort (portIx f.port) (fun p => { p with delay := BitVec.ofInt 64 d }) s
      if timeSource s = 2 && alignPort s = f.port then align 2 off (if isNs f.port then 20 else 10) s else s) s)) s

/-! ## Joining (R411) -/

/-- JOIN_SWITCH: locked on both directions, the device repeats each through its retimer. -/
def execJoinSwitch (ns : Bool) (s : State) : Result :=
  if (pairOf s ns).step ≠ .monitoring || (ns && !s.ridge.nsEn) || s.pw.fenced then .next s else
  let s := forEach (pairPorts ns) (fun x acc => updPort (portIx x) (fun p => { p with st := 2 }) acc) s
  .next (updPair ns (fun p => { p with step := .repeating, doneLo := false, doneHi := false }) s)

/-- JOIN_REQ_REPEAT: the joining device asks in both directions, every 1 us. -/
def execJoinReqRepeat (ns : Bool) (s : State) : Result :=
  let k := pairOf s ns
  let early : Bool := k.step = .asking && decide (s.time.now.toNat < k.lastAsk.toNat + 1000)
  if (k.step ≠ .repeating && k.step ≠ .asking) || early || s.pw.fenced then .next s else
  let s := forEach (pairPorts ns) (fun x acc => sendControl x (.joinReq (deviceId s)) acc) s
  .next (updPair ns (fun p => { p with step := .asking, lastAsk := s.time.now }) s)

/-- JOIN_REQ at a partner: one join at a time on a link; new flits stop, and HOLD_DONE follows once every flit is
acknowledged. -/
def execJoinReq (f : Flit) (id : BitVec 16) (s : State) : Result :=
  through (.ridge f.port) true 72 (.joinReq f id) (fun s =>
  .next (unsequenced f (fun s =>
      let k := port s (portIx f.port)
      if k.st ≠ 3 || k.joiner.isSome then s else
      tryHoldDone f.port (updPort (portIx f.port) (fun p => { p with
        st := 4, holding := true, holdSent := false, joiner := some id }) s)) s)) s

/-- Both partners hold: the pair opens, and INIT goes on each port; a link that is too long stays unused (R391). -/
def openPair (ns : Bool) (s : State) : State :=
  let s := forEach (pairPorts ns) (fun x acc =>
    let partner := (port acc (portIx x)).partner
    let acc := setPartner x partner acc
    if tooLong acc x then leaveUnused x acc else setPortReady x true (linkLive x partner (startLink x acc))) s
  settleMode (deliverAll (updPair ns (fun p => { p with isOpen := true, step := .idle, doneLo := false, doneHi := false }) s))

/-- HOLD_DONE: at the joining device, from each partner; at the partner of a leaving device, the link past it starts. -/
def execHoldDone (f : Flit) (id : BitVec 16) (s : State) : Result :=
  through (.ridge f.port) true 72 (.holdDone f id) (fun s =>
  .next (unsequenced f (fun s =>
      let ns := isNs f.port
      let k := port s (portIx f.port)
      if (pairOf s ns).step = .asking && !s.pw.fenced then
        let low : Bool := match f.port with | .W => true | .N => true | _ => false
        let s := updPair ns (fun p => if low then { p with doneLo := true } else { p with doneHi := true }) s
        if (pairOf s ns).doneLo && (pairOf s ns).doneHi then openPair ns s else s
      else if k.holding && k.joiner = some id && k.partner = id then sendControl f.port (.init (initCredits s f.port)) s
      else s) s)) s

/-! ## Leaving (R412) -/

/-- Step 1: LEAVE_REQ on both ports of an open pair; nothing more is originated. -/
def beginLeave (ns : Bool) (s : State) : State :=
  if !(pairOf s ns).isOpen || (pairOf s ns).step ≠ .idle then s else
  let s := forEach (pairPorts ns) (fun x acc =>
    if portUp acc x then portSend x 0 (.leaveReq (deviceId s)) none acc else acc) s
  updPair ns (fun p => { p with step := .leaving }) s

/-- LEAVE_REQ at a partner: the leaver is absent, and new flits toward it stop. -/
def execLeaveReq (f : Flit) (id : BitVec 16) (s : State) : Result :=
  through (.ridge f.port) true 72 (.leaveReq f id) (fun s =>
  .next (sequenced f 1 (fun s =>
      let x := f.port
      let s := updPort (portIx x) (fun p => { p with st := 4, holding := true, holdSent := true, joiner := some id }) s
      let col := if devFrame id < 64 then setBit s.ridge.liveCol (devFrame id) false else s.ridge.liveCol
      if isNs x then updRidge (fun r => { r with liveCol := col }) s
      else setLive (setBit s.ridge.live (devPos id) false) s) s)) s

/-- The pair's buffers and replay buffers are empty. -/
def pairEmpty (s : State) (ns : Bool) : Bool :=
  (pairPorts ns).all (fun x => (port s (portIx x)).waiting.isEmpty && (port s (portIx x)).replay.isEmpty)

/-- LEAVE_DRAINED: the leaver repeats through its retimer and sends HOLD_DONE both ways; a ridge source of TIME is lost to
it (R64, R68). -/
def execLeaveDrained (ns : Bool) (s : State) : Result :=
  if (pairOf s ns).step ≠ .leaving || !pairEmpty s ns then .next s else
  let s := forEach (pairPorts ns) (fun x acc =>
    if (port acc (portIx x)).st = 5 then acc
    else sendControl x (.holdDone (deviceId s)) (updPort (portIx x) (fun p => { p with st := 2 })
      (if portUp acc x then sourceLost x acc else acc))) s
  .next (updPair ns (fun p => { p with step := .drained }) s)

/-- The ports of a pair go off and its scarf path closes; a ridge source of TIME goes with them (R64, R68). -/
def closePair (ns : Bool) (step : PairStep) (s : State) : State :=
  let s := forEach (pairPorts ns) (fun x acc => if portUp acc x then sourceLost x acc else acc) s
  let s := forEach (pairPorts ns) (fun x acc =>
    setPortReady x false (updPort (portIx x) (fun p => if p.st = 5 then p else { PortSt.reset with
      partner := p.partner, pport := p.pport, bypassed := p.bypassed, replays := p.replays, retrains := p.retrains
      crcErr := p.crcErr, hvote := p.hvote }) acc)) s
  updPair ns (fun _ => { Pair.reset with step := step }) s

/-! ## Steps 5 and 6 of FENCE-SELF (R45, R436) -/

/-- An event to the Wright that it logs nothing of; while it restarts, the hub buffer holds it or it is lost (R440). -/
def heldEvent (s : State) : State :=
  if s.wr.st ≠ .restarting then s
  else if s.wr.heldEvents < 4096 then updWr (fun w => { w with heldEvents := w.heldEvents + 1 }) s
  else updWr (fun w => { w with lostEvents := w.lostEvents + 1 }) s

/-- A command that the urgent sequencer executed: its own log entry, and an event to the Wright (R433, R436). -/
def logUrgent (m : Mbox) (status : BitVec 8) (scope : BitVec 2) (index : BitVec 10) (tEffect : Word) (s : State) : State :=
  let b := box s m
  let mg : Bool := decide (m = .mgmtUrgent)
  heldEvent (logEntry 0x000F (at' (BitVec.ofNat 16 (boxCode b)) 0 ||| at' b.lastSeq 16 ||| atB mg 32 ||| at' status 40
    ||| at' scope 48 ||| at' index 50) tEffect s)

/-- A pair that is not open when step 5 begins, joining or idle, stays closed and its ports go off (R44, R410). -/
def closeUnopened (ns : Bool) (s : State) : State :=
  if (pairOf s ns).isOpen then s else closePair ns .leftHold s

/-- Step 6 and the answer, once both scarf paths are closed. -/
def fenceStep6 (s : State) : State :=
  match s.pw.fence with
  | .leaving tEffect n m =>
    if (pairOf s false).isOpen || (pairOf s true).isOpen then s else
    let s := logUrgent m stOk 0 0 tEffect (updPw (fun p => { p with fence := .done }) s)
    respond m (ok (bytesOf 8 (BitVec.ofNat 64 n) ++ bytesOf 8 tEffect)) s
  | _ => s

/-- LEAVE_BYPASS_SWITCH: step 6 of R412; the last pair's ends step 5 of R45. -/
def execLeaveBypassSwitch (ns : Bool) (s : State) : Result :=
  if (pairOf s ns).step ≠ .drained then .next s else .next (fenceStep6 (settleMode (closePair ns .leftHold s)))

/-! ## RING_STATE (R403) -/

/-- Messages at the ports that no route carries any more are discarded and counted. -/
def discardStranded (s : State) : State :=
  forEach [Port.W, .E, .N, .S] (fun x acc =>
    let bad := fun (w : SentFlit × Option (Port × BitVec 4)) => isMsg w.1.body && decide (route acc (bodyDst w.1.body) = .none)
    let gone := (port acc (portIx x)).waiting.filter bad
    let acc := forEach gone (fun w a => freeBuffer w.2 (flitsOf w.1.body) a) acc
    let acc := updPort (portIx x) (fun p => { p with waiting := p.waiting.filter (fun w => !bad w) }) acc
    updRidge (fun r => { r with discarded := satAdd r.discarded gone.length }) acc) s

/-- Spans over positions that have gone: those of the live positions just west of them. -/
def gapSpans (old gone : BitVec 64) : BitVec 64 :=
  (List.range 64).foldl (fun m p =>
    if old.getLsbD p && ((passedEast old p ((p + 63) % 64)).head?.any (fun i => gone.getLsbD i)) then setBit m p true else m) 0

/-- A map of this device's own ring: positions lost are gone. Which spans carry no link any more the payload does not say:
those over lost positions may, and one that changes no position tells of a lost link, or, after one, of its return; the
spans at its own ports a device knows itself (R393, R401, R413). DEDUCED (log entry 108). -/
def takeRing (live : BitVec 64) (s : State) : State :=
  let old := liveRing s
  let gone := old &&& ~~~live &&& ~~~(setBit (0 : BitVec 64) (myPos s) true)
  let same : Bool := setBit live (myPos s) true = old
  let known := setBit (setBit (0 : BitVec 64) (myPos s) true) (westLive old (myPos s)) true
  let lost := Config.freeSpans s.fresh &&& ~~~known
    &&& (if gone ≠ 0 then gapSpans old gone else if same && s.ridge.breaks = 0 then BitVec.allOnes 64 else 0)
  let before := s.ridge.breaks
  let s := { setLive live s with fresh := s.fresh + 1 }
  let s := updRidge (fun r => { r with breaks := lost }) s
  loseReqs (fun q => crossedAt s (myFrame s) old gone q || crossedSpan s (lost &&& ~~~before) q) s

/-- RING_STATE not passed on before: what crossed a lost link ends, stranded messages are discarded, held requests follow,
and the flit goes on as it came (R403). -/
def execRingState (f : Flit) (changes : BitVec 8) (live : BitVec 64) (frame : BitVec 16) (column : Bool) (s : State) : Result :=
  through (.ridge f.port) true 72 (.ringState f changes live frame column) (fun s =>
  .next (sequenced f 1 (fun s =>
      let g := frame.toNat
      if lastSeen s column g = some changes || (column && !isNs f.port) then s else
      let s := topologyNotice (updRidge (fun r => { r with changes := satInc r.changes }) (markSeen column g changes s))
      let s :=
        if column then
          let gone := s.ridge.liveCol &&& ~~~live
          let s := updRidge (fun r => { r with liveCol := live }) s
          loseReqs (fun q => (columnPath s (myFrame s) (devFrame q.dst) ++ columnPath s (devFrame q.dst) (myFrame s)).any
            (fun i => gone.getLsbD i && i ≠ myFrame s) && devFrame q.dst ≠ myFrame s) s
        else if g = myFrame s then takeRing live s
        else
          let old := liveIn s g
          let s := updRidge (fun r => { r with liveOf := put none r.liveOf g (some live) }) s
          loseReqs (crossedAt s g old (old &&& ~~~live)) s
      let s := pumpHeld s.ridge.held.length (discardStranded s)
      deliverAll (passOn column (some f.port) (.ringState changes live frame column) s)) s)) s

end Sys2Proof.Machine
end

