-- ==== Sys2Proof/Machine/RidgeMessages.lean ====
section
/-! DEFINITION. Ridge messages for this device: window accesses at the target and at their source (R404 to R406), host
reads and records through the head (R408). -/
namespace Sys2Proof.Machine

/-! ## Window accesses at the target (R405, R406) -/

/-- Some valid RACL entry permits the access. -/
def raclPermits (s : State) (src : BitVec 16) (a len : Nat) (write : Bool) : Bool :=
  (List.range 32).any (fun k =>
    let e := look Racl.reset s.ridge.acl k
    let n := e.lg.toNat
    let base := clearBelow n (e.base.toNat * 4096)
    e.v && (if write then e.wr else e.rd) && decide ((src ^^^ e.src) &&& e.smask = 0) && decide (12 ≤ n) && decide (n ≤ 43)
      && decide (base ≤ a) && decide (a + len ≤ base + 2 ^ n))

/-- What stands at the target address: the partition whose DRAM or scratch it is. -/
def ridgeTarget (s : State) (pa : BitVec 48) : Option Nat :=
  match spaceOf pa with
  | .dram => if installed s pa then partOfAddr s pa else none
  | .scratch e => partOfEngine s e
  | _ => none

/-- STATUS of a window access: NO_ACCESS, DOWN or OK. -/
def windowStatus (s : State) (m : RMsg) (len : Nat) (write : Bool) : BitVec 2 :=
  let pa : BitVec 48 := m.addr.extractLsb' 0 48
  if !raclPermits s m.src pa.toNat len write then 1 else
  match ridgeTarget s pa with
  | none => 1
  | some p =>
    if (part s p).st = .down || (part s p).st = .restarting || !lineServed s (lineOf pa) then 2 else 0

/-- Count a denied access. -/
def countDeny (st : BitVec 2) (s : State) : State :=
  if st = 1 then updRidge (fun r => { r with aclDeny := satInc r.aclDeny }) s else s

/-- Answer a message in its class, TAG and ADDR echoed. -/
def answerMsg (m : RMsg) (op : BitVec 6) (st : BitVec 2) (poison : Bool) (data : List Byte) (s : State) : State :=
  sendRsp (vcClass m.flit.vc) (.msg op m.src (deviceId s) st poison m.tag m.addr data) s

/-- What a W_RD or W_WR comes to at its target: STATUS, POISON and the bytes read. -/
def windowDone (m : RMsg) (write : Bool) (s : State) : (BitVec 2 × Bool × List Byte) × State :=
  let pa : BitVec 48 := m.addr.extractLsb' 0 48
  let n := m.data.length
  let st := windowStatus s m n write
  if st ≠ 0 then ((st, false, []), countDeny st s)
  else if write then ((0, false, []), homeWrite pa m.data m.poison s)
  else
    let s := homeRead pa n s
    let last : BitVec 48 := pa + BitVec.ofNat 48 (n - 1)
    ((0, isPoisoned s (lineOf pa) || isPoisoned s (lineOf last), readBytes s pa.toNat n), s)

def windowRead (m : RMsg) (s : State) : State :=
  let r := windowDone m false s
  answerMsg m 0x03 r.1.1 r.1.2.1 r.1.2.2 r.2

def windowWrite (m : RMsg) (s : State) : State :=
  let r := windowDone m true s
  answerMsg m 0x03 r.1.1 r.1.2.1 r.1.2.2 r.2

/-- DEDUCED (log entry 46). -/
def execWRd (m : RMsg) (s : State) : Result :=
  through (.ridge m.flit.port) true (msgBytes m) (.message 0x01 m) (fun s =>
  .next (message 0x01 m windowRead s)) s

def execWWr (m : RMsg) (s : State) : Result :=
  through (.ridge m.flit.port) true (msgBytes m) (.message 0x02 m) (fun s =>
  .next (message 0x02 m windowWrite s)) s

/-! ## The answer at the source (R406) -/

def statusCause (st : BitVec 2) : LostCause :=
  if st = 1 then .writeFailed else if st = 2 then .targetDown else .ridgeUnreachable

/-- An outstanding access of thread `t` ends as the STATUS of its window's answer says; one that has already ended changes
nothing more. -/
def windowEnds (t : Thr) (id : Nat) (st : BitVec 2) (poison : Bool) (data : List Byte) (s : State) : State :=
  match outAccess s t id with
  | none => s
  | some a =>
    if st ≠ 0 then accessLost t a (statusCause st) s
    else if a.kind = .load then valueDone t id (wordOf data) poison s
    else removeOut t id s

/-- W_RSP ends the outstanding access it answers. -/
def windowAnswer (m : RMsg) (s : State) : State :=
  let isIt := fun (q : RReq) => (q.op = 0x01 || q.op = 0x02) && q.tag = m.tag && q.dst = m.src
  match s.ridge.reqs.find? isIt with
  | none => s
  | some q =>
    let s := closeReq isIt s
    let s := if m.status = 3 then countUnreach s else s
    match q.thr with
    | none => s
    | some (t, id) => windowEnds t id m.status m.poison m.data s

/-- An access through a window onto this device itself: its ridge agent serves it with no flit (R401). DEDUCED (log entry
108). -/
def ownWindow (t : Thr) (id : Nat) (addr : BitVec 64) (data : List Byte) (poison write : Bool) (s : State) : State :=
  let r := windowDone { flit := ⟨.W, 0, 0, 0, 0, 0⟩, dst := deviceId s, src := deviceId s, status := 0, poison := poison
                        tag := 0, addr := addr, data := data, part := .whole } write s
  windowEnds t id r.1.1 r.1.2.1 r.1.2.2 r.2

def execWRsp (m : RMsg) (s : State) : Result :=
  through (.ridge m.flit.port) true (msgBytes m) (.message 0x03 m) (fun s =>
  .next (message 0x03 m windowAnswer s)) s

/-! ## At the head (R408) -/

/-- D_RD: the head reads the host's memory for a ring position. -/
def headRead (m : RMsg) (s : State) : State :=
  let n := fieldB m.data 0 2
  if !s.ep.up then answerMsg m 0x11 2 false [] s else
  let serves := some (m.src, m.tag, (vcClass m.flit.vc).setWidth 4)
  pumpReads (updEp (fun p => { p with
    reads := p.reads ++ splitRead 4096 (ReadRec.mk 0 0 false m.addr n [] 0 false serves false false) }) s)

def execDRd (m : RMsg) (s : State) : Result :=
  through (.ridge m.flit.port) true (msgBytes m) (.message 0x10 m) (fun s =>
  .next (message 0x10 m headRead s)) s

/-- D_WR and REC join the head's work. -/
def headQueue (op : BitVec 6) (m : RMsg) (s : State) : State :=
  let j : HeadJob := { op := op, src := m.src, cls := vcClass m.flit.vc, tag := m.tag, addr := m.addr, data := m.data
                       poison := m.poison }
  pumpHead (updRidge (fun r => { r with atHead := r.atHead ++ [j] }) s)

/-- DEDUCED (log entry 46). -/
def execDWr (m : RMsg) (s : State) : Result :=
  through (.ridge m.flit.port) true (msgBytes m) (.message 0x12 m) (fun s =>
  .next (message 0x12 m (headQueue 0x12) s)) s

def execRecMsg (m : RMsg) (s : State) : Result :=
  through (.ridge m.flit.port) true (msgBytes m) (.message 0x14 m) (fun s =>
  .next (message 0x14 m (headQueue 0x14) s)) s

/-- R_REL: the record leaves the head's table, which may make room. -/
def headRelease (m : RMsg) (s : State) : State :=
  pumpHead (updRidge (fun r => { r with
    issued := removeFirst (fun k => k.1 = m.src && k.2.2.2 = m.addr) r.issued }) s)

def execRRel (m : RMsg) (s : State) : Result :=
  through (.ridge m.flit.port) true (msgBytes m) (.message 0x16 m) (fun s =>
  .next (message 0x16 m headRelease s)) s

/-! ## At the remote device (R408) -/

/-- D_DAT: bytes of a host read take their place by ADDR; an error ends the read and fails its item. -/
def remoteData (m : RMsg) (s : State) : State :=
  let isIt := fun (q : RReq) => q.op = 0x10 && q.tag = m.tag && q.dst = m.src
  match s.ridge.reqs.find? isIt with
  | none => s
  | some q =>
    let r? := s.ep.reads.find? (fun r => r.remote && r.issued && r.tag = m.tag && some r.entry = q.entry)
    if m.status ≠ 0 then
      let s := closeReq isIt s
      match r? with
      | none => s
      | some r =>
        if m.status = 2 then readFailed r 9 4 0 s
        else if m.status = 3 then
          readFailed r 9 5 0 (countUnreach s)
        else
          let detail := (m.data.head?).getD 0
          if m.poison then readFailed r 2 (if r.isDesc then 1 else 2) 0 s else readFailed r 9 detail 0 s
    else
      let left := q.left - m.data.length
      let s := if left = 0 then closeReq isIt s
        else updRidge (fun x => { x with reqs := editFirst isIt (fun q => { q with left := left }) x.reqs }) s
      match r? with
      | none => s
      | some r =>
        let got := overlayB r.got (m.addr - r.addr).toNat m.data
        if left = 0 then readWhole r (padTo r.len got) s else updRead r (fun y => { y with got := got }) s

def execDDat (m : RMsg) (s : State) : Result :=
  through (.ridge m.flit.port) true (msgBytes m) (.message 0x11 m) (fun s =>
  .next (message 0x11 m remoteData s)) s

/-- Delivery of an item's queue is no longer armed: the head's host link is down (R304). -/
def disarm (e : Nat) (s : State) : State :=
  updQueue (entry s e).queue.val (fun q => { q with armed := false }) s

/-- D_ACK: the head has issued a D_WR; after the last, REC goes. -/
def remoteAck (m : RMsg) (s : State) : State :=
  let isIt := fun (q : RReq) => q.op = 0x12 && q.tag = m.tag && q.dst = m.src
  match s.ridge.reqs.find? isIt with
  | none => s
  | some q =>
    let s := closeReq isIt s
    let s := if m.status = 3 then countUnreach s else s
    match q.entry with
    | none => s
    | some e =>
      if m.status ≠ 0 then
        let s := updEntry e.val (fun y => { y with dwrWait := 0 })
          (updRidge (fun r => { r with reqs := r.reqs.filter (fun x => !(x.op = 0x12 && x.entry = some e)) }) s)
        if m.status = 2 then disarm e.val s else s
      else
        let s := updEntry e.val (fun y => { y with dwrWait := y.dwrWait - 1 }) s
        let x := entry s e.val
        if x.dwrWait = 0 && x.st = .closing && !x.recSent then
          sendRec e m.src (updEntry e.val (fun y => { y with dwrDone := true }) (notePoisonedResult x s))
        else s

def execDAck (m : RMsg) (s : State) : Result :=
  through (.ridge m.flit.port) true (msgBytes m) (.message 0x13 m) (fun s =>
  .next (message 0x13 m remoteAck s)) s

/-- R_ACK: the head has issued the record: R_REL goes, and the entry is FREE. -/
def remoteDone (m : RMsg) (s : State) : State :=
  let isIt := fun (q : RReq) => q.op = 0x14 && q.addr = m.addr && q.dst = m.src
  match s.ridge.reqs.find? isIt with
  | none => s
  | some q =>
    let s := closeReq isIt s
    let s := if m.status = 3 then countUnreach s else s
    match q.entry with
    | none => s
    | some e =>
      if m.status = 0 then
        let qu := (entry s e.val).queue.val
        deliverQueue qu (recordDone e.val (answerMsg m 0x16 0 false [] s))
      else
        let s := updEntry e.val (fun y => { y with recSent := false }) s
        if m.status = 2 then disarm e.val s else s

def execRAck (m : RMsg) (s : State) : Result :=
  through (.ridge m.flit.port) true (msgBytes m) (.message 0x15 m) (fun s =>
  .next (message 0x15 m remoteDone s)) s

end Sys2Proof.Machine
end

