-- ==== Sys2Proof/Machine/Registers.lean ====
section
/-! DEFINITION. The register regions of the compute dies and the hub, and BAR0 (R361, R511): what each register reads as,
and what a write by each writer changes, field by field (R14 to R16). -/
namespace Sys2Proof.Machine

/-! ## Words of hub registers -/

def cohCtlWord (x : Part) : Word := at' x.cohTmo 0 ||| at' x.retryGap 16
def cohStatusWord (x : Part) : Word := at' x.cause 0 ||| at' x.detBay 8 ||| at' x.downs 16 ||| at' x.rsvGrants 32
def staleWord (s : State) : Word := at' s.stale 0 ||| at' s.downDrop 24 ||| at' s.stray 48

def qcfgWord (q : Queue) : Word :=
  atB q.en 0 ||| atB q.inlineMode 1 ||| at' q.cls 2 ||| at' q.part 4 ||| at' q.inst 8 ||| at' q.target 16 ||| at' q.rsize 18
    ||| at' q.quota 24 ||| at' q.weight 40 ||| at' q.rlimit 48 ||| at' q.qlimit 53 ||| atB q.quenched 63

def qringDWord (q : Queue) : Word := at' q.vector 0 ||| atB q.vecEn 11 ||| at' q.descBase 12
def qringCWord (q : Queue) : Word := at' q.cplBase 12
def qseqWord (q : Queue) : Word := at' q.ai 0 ||| at' q.floor 32
def qcntWord (s : State) (q : Nat) : Word := at' (satAdd (0 : BitVec 16) (heldOf s q)) 0 ||| at' (queue s q).delivered 32
def qrefWord (q : Queue) : Word := at' q.lastReason 0 ||| at' q.lastValue 8 ||| at' q.refused 40

/-- Register `i` (0 to 7) of a queue's block. -/
def queueReg (s : State) (q i : Nat) : Word :=
  let x := queue s q
  if i = 0 then qcfgWord x else if i = 1 then qringDWord x else if i = 2 then qringCWord x else if i = 3 then qseqWord x
  else if i = 4 then qcntWord s q else if i = 5 then qrefWord x else 0

def dispCoreWord (x : DispCore) : Word := atB x.en 0 ||| at' x.classes 1 ||| at' x.ibuf 12
def ledgerStatWord (s : State) : Word := at' (BitVec.ofNat 17 (inflight s)) 0 ||| at' s.led.late 24 ||| at' s.led.ce 48
def evrPartWord (x : Part) : Word :=
  at' x.kthread 0 ||| atB x.kkind 10 ||| atB x.ken 11 ||| at' x.sprio 12 ||| at' x.dprio 16 ||| at' x.mprio 32

def memRegionWord (r : Region) : Word :=
  atB r.v 0 ||| atB r.mirror 1 ||| at' r.base 4 ||| at' r.size 17 ||| at' r.chans 32 ||| at' r.rankBits 48

def mcCtlWord (c : Chan) : Word :=
  at' c.eccMode 0 ||| atB c.scrubEn 2 ||| at' c.scrubHours 3 ||| atB c.spareRank 11 ||| atB c.pprEn 12
    ||| at' c.devThresh 16 ||| at' c.rankThresh 24 ||| at' c.rowThresh 32

def mcStatWord (c : Chan) : Word :=
  at' c.st 0 ||| atB c.solo 3 ||| at' c.sparedRank 4 ||| atB c.spareUsed 8 ||| at' c.speed 9 ||| at' c.devMarked 16
    ||| at' c.sppr 32

def mcErrWord (c : Chan) : Word := at' c.ce 0 ||| at' c.ue 16 ||| at' c.masked 32 ||| at' c.wbLost 48
def mcElogWord (c : Chan) : Word :=
  at' c.elLine 0 ||| at' c.elRank 42 ||| at' c.elDevice 46 ||| atB c.elUe 52 ||| atB c.elPatrol 53

/-- Register `i` (0 to 3) of a channel. -/
def chanReg (c : Chan) (i : Nat) : Word :=
  if i = 0 then mcCtlWord c else if i = 1 then mcStatWord c else if i = 2 then mcErrWord c
  else if i = 3 then mcElogWord c else 0

def ridgeCfgWord (r : Ridge) : Word := atB r.nsEn 0 ||| at' r.spread 1 ||| at' r.frame 16 ||| at' r.frames 26
def ridgeStatWord (r : Ridge) : Word := at' r.changes 0 ||| at' r.unreach 16 ||| at' r.aclDeny 32 ||| at' r.discarded 48

def rportStatWord (s : State) (x : Nat) : Word :=
  let p := port s x
  at' p.st 0 ||| atB (pairOf s (2 ≤ x)).isOpen 3 ||| at' p.partner 4 ||| at' p.pport 20 ||| at' p.bypassed 22
    ||| at' p.replays 24 ||| at' p.retrains 40 ||| at' p.crcErr 48

def rwinLoWord (w : Rwin) : Word :=
  atB w.v 0 ||| atB w.wr 1 ||| at' w.cls 2 ||| at' w.part 4 ||| at' w.lbase 12 ||| at' w.target 48
def rwinHiWord (w : Rwin) : Word := at' w.lg 0 ||| at' w.tbase 12
def raclLoWord (e : Racl) : Word := atB e.v 0 ||| atB e.rd 1 ||| atB e.wr 2 ||| at' e.src 16 ||| at' e.smask 32
def raclHiWord (e : Racl) : Word := at' e.lg 0 ||| at' e.base 12

def thermCtlWord (p : Power) : Word := at' p.thLimit 0 ||| at' p.thHyst 8 ||| at' p.thFloor 16 ||| at' p.thStep 32

/-- RAIL_STAT_r: the reading of TJ is that of the rail's die. -/
def railStatWord (s : State) (r : Nat) : Word :=
  let x := rail s r
  at' x.meas 0 ||| at' x.set 16 ||| atB x.warn 32 ||| atB x.exitFrom.isSome 33 ||| at' x.warns 40
    ||| (if r ≤ 4 then at' (die s r).tjReg 48 else 0)

def ioSlewWord (p : Power) : Word :=
  at' p.ioSpi 0 ||| at' p.ioMgmt 2 ||| at' p.ioAvs 4 ||| at' p.ioPmbus 6 ||| at' p.ioStatus 8 ||| at' p.ioTest 10

/-- Doubleword `i` (0 to 7) of the readiness map (R464). -/
def readyWord (r : Ready) (i : Nat) : Word :=
  if i = 0 then atB r.wright 0 ||| atB r.ledger 1 ||| atB r.events 2 ||| atB r.store 3 ||| atB r.vset 4 ||| at' r.part 8
      ||| at' r.ch 16 ||| at' r.port 32 ||| at' r.die 36 ||| at' (r.bay.extractLsb' 0 24) 40
  else if i = 1 then at' (r.bay.extractLsb' 24 16) 0 ||| at' r.cluster 16
  else 0

/-- Doubleword `i` of the MSI-X table: address, then data with the vector control. -/
def msixWord (e : Endpoint) (i : Nat) : Word :=
  let m := look Msix.reset e.msix (i / 2)
  if i % 2 = 0 then m.addr else at' m.data 0 ||| atB m.mask 32

def pbaWord (e : Endpoint) (i : Nat) : Word :=
  (List.range 64).foldl (fun w k => w ||| atB (look false e.pba (64 * i + k)) k) 0

def freezeLogWord (e : Endpoint) (i : Nat) : Word := at' (look 0 e.fLog (2 * i)) 0 ||| at' (look 0 e.fLog (2 * i + 1)) 32

/-- The host mailbox of a page or doorbell number. -/
def hostBox (m : Nat) : Mbox := if h : m < 8 then .host ⟨m, h⟩ else .mgmt

/-- A doubleword of BAR0 at a multiple of 8; a reserved offset reads 0 (R359, R361). -/
def barWord (s : State) (o : Nat) : Word :=
  if o = 0 then identWord s
  else if o = 8 then Config.serial
  else if o = 0x40 then at' (deviceMode s) 0
  else if o = 0x80 then s.time.now
  else if o = 0x88 then timeStatusWord s.time
  else if 0x100 ≤ o && o ≤ 0x120 then beatMonWord (die s ((o - 0x100) / 8))
  else if o = 0x200 then ledgerStatWord s
  else if o = 0x208 then at' s.led.braceRate 0
  else if 0x400 ≤ o && o < 0x440 then readyWord s.pw.ready ((o - 0x400) / 8)
  else if o = 0x800 then epStatusWord s
  else if o = 0x808 then epNotifyWord s.ep
  else if o = 0x810 then freezeCtlWord s.ep
  else if o = 0x818 then freezeStatusWord s
  else if o = 0x820 then s.ep.fTime
  else if o = 0x828 then s.ep.ringPresent
  else if o = 0x830 then hostRouteWord s.ep
  else if o = 0x838 then winStatWord s.ep
  else if 0x4000 ≤ o && o < 0x4400 then chanReg (chan s ((o - 0x4000) / 0x40)) (o % 0x40 / 8)
  else if 0x5000 ≤ o && o < 0x5100 then (if o % 0x10 = 0 then memRegionWord (region s ((o - 0x5000) / 0x10)) else 0)
  else if 0x10000 ≤ o && o < 0x18000 then pageWord (box s (hostBox ((o - 0x10000) / 0x1000))) (o % 0x1000)
  else if 0x18000 ≤ o && o < 0x18040 then
    boxDbWord (hostBox ((o - 0x18000) / 8)) (box s (hostBox ((o - 0x18000) / 8)))
  else if 0x20000 ≤ o && o < 0x28000 then msixWord s.ep ((o - 0x20000) / 8)
  else if 0x28000 ≤ o && o < 0x28100 then pbaWord s.ep ((o - 0x28000) / 8)
  else if 0x30000 ≤ o && o < 0x31000 then freezeLogWord s.ep ((o - 0x30000) / 8)
  else if 0x100000 ≤ o && o < 0x110000 then queueReg s ((o - 0x100000) / 0x40) (o % 0x40 / 8)
  else 0

/-- A doubleword of the hub register region: BAR0's registers at their offsets, and those only device software sees. -/
def hubWord (s : State) (o : Nat) : Word :=
  if 0x2000 ≤ o && o < 0x2200 then
    let x := part s ((o - 0x2000) / 0x40)
    if o % 0x40 = 0 then cohCtlWord x else if o % 0x40 = 8 then cohStatusWord x else 0
  else if o = 0x2200 then staleWord s
  else if 0x3000 ≤ o && o < 0x3080 then (if o % 0x10 = 0 then evrPartWord (part s ((o - 0x3000) / 0x10)) else 0)
  else if o = 0x6000 then ridgeCfgWord s.ridge
  else if o = 0x6008 then s.ridge.pop
  else if o = 0x6010 then ridgeStatWord s.ridge
  else if 0x6040 ≤ o && o < 0x6060 then rportStatWord s ((o - 0x6040) / 8)
  else if 0x6100 ≤ o && o < 0x6500 then
    let w := look Rwin.reset s.ridge.win ((o - 0x6100) / 0x10)
    if o % 0x10 = 0 then rwinLoWord w else rwinHiWord w
  else if 0x6600 ≤ o && o < 0x6800 then
    let e := look Racl.reset s.ridge.acl ((o - 0x6600) / 0x10)
    if o % 0x10 = 0 then raclLoWord e else raclHiWord e
  else if 0x7000 ≤ o && o < 0x7060 then railStatWord s ((o - 0x7000) / 8)
  else if o = 0x7080 then thermCtlWord s.pw
  else if o = 0x7100 then ioSlewWord s.pw
  else if o = 0x8000 then at' s.bw.window 0
  else if o = 0x8008 then at' s.bw.seq 0
  else if 0x8100 ≤ o && o < 0x8250 then at' (look 0 s.bw.latched ((o - 0x8100) / 8)) 0
  else if 0x110000 ≤ o && o < 0x111400 then dispCoreWord (dispCore s ((o - 0x110000) / 8))
  else if o < 0x2000000 then barWord s o
  else 0

/-! ## Compute die registers -/

/-- Thread `t` holds a vote for its core (R325, R455). -/
def threadVotes (s : State) (t : Thr) : Bool :=
  let th := thr s t
  let deep := match t with | .core i => (core s (i.val / 4)).deep.getLsbD (i.val % 4) | .adze _ => false
  th.run ≠ .notStarted && !domainDown s t &&
    (!(th.run = .dozing && deep) || !(nonEmptyLanes th.ev).isEmpty || !th.ev.writing.isEmpty)

/-- The Wright brings up, salvages or restarts the bay's partition (R455). DEDUCED (log entry 64). -/
def wrightHoldsBay (s : State) (b : Nat) : Bool :=
  s.pw.bringing || (match partOfBay s b with
    | some p => (part s p).st = .restarting
    | none => false)

/-- The Wright votes for a core: as for its bay, or while it sisters the core. DEDUCED (log entry 64). -/
def wrightHoldsCore (s : State) (c : Nat) : Bool :=
  wrightHoldsBay s (c / 4) || s.wr.sistering.any (fun e => match e.1 with | .core i => i.val = c | _ => false)

def pwrCoreWord (s : State) (c : Nat) : Word :=
  let k := core s c
  let tv := (List.range 4).foldl (fun w i => match thrOfIndex (4 * c + i) false with
    | some t => w ||| atB (threadVotes s t) (4 + i) | none => w) (0 : Word)
  at' k.deep 0 ||| tv ||| atB (wrightHoldsCore s c) 8 ||| atB k.hvote 9 ||| atB (s.pw.dvotes.getLsbD c) 10 ||| atB k.powered 11
    ||| at' k.drops 16

def pwrBayWord (s : State) (b : Nat) : Word :=
  let y := bay s b
  at' y.retWays 0 ||| atB (wrightHoldsBay s b) 8 ||| atB y.hvote 9 ||| atB y.powered 10 ||| at' y.drops 16

/-- Engine register number of an offset in an engine's block. -/
def engineRegNo (off : Nat) : Nat :=
  let o := off % 0x1000
  if o < 0x30 then 0x400 + o / 8 else if 0x100 ≤ o && o < 0x200 then 0x140 + (o - 0x100) / 8 else 0

/-- The device mailbox of a page or doorbell number. -/
def devBox (m : Nat) : Mbox := if h : m < 16 then .dev ⟨m, h⟩ else .mgmt

/-- A doubleword of a compute die's register region at a multiple of 8. -/
def dieWord (s : State) (d off : Nat) : Word :=
  match dieUnit d off with
  | .engine e => (adzRead s e (engineRegNo off)).getD 0
  | .spare d => (adzRead s ((spareServes s d).getD (64 + d)) (engineRegNo off)).getD 0
  | .core c => pwrCoreWord s c
  | .bay b => pwrBayWord s b
  | .devBox m =>
    if off < 0x1910000 then pageWord (box s (devBox m)) (off % 0x1000) else boxDbWord (devBox m) (box s (devBox m))
  | .shared => 0
  | .none => 0

/-- A mailbox page takes accesses of any size. -/
def isPage (x : Space) : Bool :=
  match x with
  | .dieReg _ off => decide (0x1900000 ≤ off) && decide (off < 0x1910000)
  | .hubReg off => decide (0x10000 ≤ off) && decide (off < 0x18000)
  | _ => false

/-- The doubleword of a device region that holds an address. -/
def regionWord (s : State) (x : Space) : Word :=
  match x with
  | .dieReg d off => dieWord s d (off / 8 * 8)
  | .hubReg off => hubWord s (off / 8 * 8)
  | _ => 0

/-- An aligned read of 1, 2, 4 or 8 bytes (R511). -/
def deviceRead (s : State) (pa : BitVec 48) (n : Nat) : Word :=
  let w := regionWord s (spaceOf pa) >>> (8 * (pa.toNat % 8))
  if n = 8 then w
  else if n = 4 then w &&& 0xFFFFFFFF
  else if isPage (spaceOf pa) then w &&& BitVec.ofNat 64 (2 ^ (8 * n) - 1)
  else 0

/-- A thread's load from a device region: the value, and its effect. A load of ITEM_DONE is an access that R296 counts in
LATE. -/
def deviceLoad (s : State) (pa : BitVec 48) (n : Nat) : Word × State :=
  (deviceRead s pa n, match spaceOf pa with
    | .dieReg _ off => if off / 8 * 8 = 0x1800000 then countLate s else s
    | _ => s)

/-! ## Writes -/

/-- Bits [63:0] of a register after a write of the bits that `m` selects. -/
def mergeW (old v m : Word) : Word := (old &&& ~~~m) ||| (v &&& m)

/-- The bits and value of an aligned access of `n` bytes at byte `o` of a doubleword. -/
def laneMask (o n : Nat) : Word := BitVec.ofNat 64 (2 ^ (8 * n) - 1) <<< (8 * o)

/-- QCFG_q: reserved codes leave their field (R16). -/
def writeQcfg (w : Word) (q : Queue) : Queue :=
  let rs : BitVec 4 := w.extractLsb' 18 4
  let rl : BitVec 5 := w.extractLsb' 48 5
  let ql : BitVec 5 := w.extractLsb' 53 5
  { q with
    en := bit w 0, inlineMode := bit w 1, cls := w.extractLsb' 2 2, part := w.extractLsb' 4 3, inst := w.extractLsb' 8 8
    target := if fld w 16 2 = 0 then q.target else w.extractLsb' 16 2
    rsize := if 10 < rs.toNat then q.rsize else rs
    quota := w.extractLsb' 24 16
    weight := if fld w 40 8 = 0 then q.weight else w.extractLsb' 40 8
    rlimit := if 28 ≤ rl.toNat then q.rlimit else rl
    qlimit := if 28 ≤ ql.toNat then q.qlimit else ql }

def writeQringD (w : Word) (q : Queue) : Queue :=
  { q with vector := w.extractLsb' 0 11, vecEn := bit w 11, descBase := w.extractLsb' 12 52 }

/-- The sums of R283 with queue `q` counted at a quota and mode. -/
def sumsFit (s : State) (q quota : Nat) (inl : Bool) : Bool :=
  let l := s.queue.filter (fun e => e.1 ≠ q && (e.2.en || heldOf s e.1 ≠ 0))
  let sum := fun (l : Tbl Queue) => l.foldl (fun n e => n + e.2.quota.toNat) 0
  sum l + quota ≤ 65536 && sum (l.filter (fun e => e.2.inlineMode)) + (if inl then quota else 0) ≤ 8192

/-- PART, MODE, RSIZE and the ring bases change only while the queue has EN = 0 and HELD = 0; the other fields at any
time (R282). The firmware makes no write that breaks the sums of R283. -/
def writeQueueReg (q i : Nat) (w : Word) (s : State) : State :=
  let held := heldOf s q
  let free := !(queue s q).en && held = 0
  updQueue q (fun x =>
    if i = 0 then (let y := writeQcfg w x
      let z := if free then y else { y with part := x.part, inlineMode := x.inlineMode, rsize := x.rsize }
      if (z.en || held ≠ 0) && !sumsFit s q z.quota.toNat z.inlineMode then x else z)
    else if i = 1 then (let y := writeQringD w x; if free then y else { y with descBase := x.descBase })
    else if i = 2 && free then { x with cplBase := w.extractLsb' 12 52 } else x) s

/-- COH_CTL_p. -/
def writeCohCtl (p : Nat) (w : Word) (s : State) : State :=
  let tmo : BitVec 12 := w.extractLsb' 0 12
  let gap : BitVec 4 := w.extractLsb' 16 4
  updPart p (fun x => { x with
    cohTmo := if tmo = 0 || 0xFA0 < tmo.toNat then x.cohTmo else tmo
    retryGap := if gap = 0 then x.retryGap else gap }) s

/-- Every channel that a range of the region maps to is ready, or one of each mirrored pair (R347). -/
def regionReady (s : State) (k : Nat) : Bool :=
  let r := region s k
  r.v && (chanList r).all (fun c => s.pw.ready.ch.getLsbD c || (r.mirror && s.pw.ready.ch.getLsbD (c + 1)))

/-- MEM_REGION_k. -/
def writeRegion (k : Nat) (w : Word) (s : State) : State :=
  let rb : BitVec 3 := w.extractLsb' 48 3
  let f := fun (r : Region) => { r with
    v := bit w 0, mirror := bit w 1, base := w.extractLsb' 4 13, size := w.extractLsb' 17 14, chans := w.extractLsb' 32 16
    rankBits := if 4 < rb.toNat then r.rankBits else rb }
  { s with region := edit Region.reset f s.region k }

/-- MC_CTL_c. SCRUB_HOURS from 169 to 255, which the map neither gives nor lists as reserved, leaves the field unchanged.
DESIGN CHOICE (log entry 83). -/
def writeMcCtl (c : Nat) (w : Word) (s : State) : State :=
  updChan c (fun x => { x with
    eccMode := if fld w 0 2 = 3 then x.eccMode else w.extractLsb' 0 2
    scrubEn := bit w 2
    scrubHours := if fld w 3 8 = 0 || 168 < (fld w 3 8).toNat then x.scrubHours else w.extractLsb' 3 8
    spareRank := bit w 11
    pprEn := bit w 12
    devThresh := w.extractLsb' 16 8
    rankThresh := w.extractLsb' 24 8
    rowThresh := if fld w 32 4 = 0 then x.rowThresh else w.extractLsb' 32 4 }) s

/-- RIDGE_CFG. -/
def writeRidgeCfg (w : Word) (s : State) : State :=
  updRidge (fun r => { r with
    nsEn := bit w 0, spread := if 4 ≤ (fld w 1 3).toNat then r.spread else w.extractLsb' 1 3
    frame := w.extractLsb' 16 10, frames := w.extractLsb' 26 10 }) s

def writeRwin (k : Nat) (hi : Bool) (w : Word) (s : State) : State :=
  let f := fun (r : Rwin) =>
    if hi then { r with lg := w.extractLsb' 0 6, tbase := w.extractLsb' 12 36 }
    else { r with v := bit w 0, wr := bit w 1, cls := w.extractLsb' 2 2, part := w.extractLsb' 4 3
                  lbase := w.extractLsb' 12 36, target := w.extractLsb' 48 16 }
  updRidge (fun x => { x with win := edit Rwin.reset f x.win k }) s

def writeRacl (k : Nat) (hi : Bool) (w : Word) (s : State) : State :=
  let f := fun (r : Racl) =>
    if hi then { r with lg := w.extractLsb' 0 6, base := w.extractLsb' 12 36 }
    else { r with v := bit w 0, rd := bit w 1, wr := bit w 2, src := w.extractLsb' 16 16, smask := w.extractLsb' 32 16 }
  updRidge (fun x => { x with acl := edit Racl.reset f x.acl k }) s

/-- THERM_CTL: a value outside the range of its field leaves the field as it was. DESIGN CHOICE (log entry 113). -/
def writeTherm (w : Word) (s : State) : State :=
  let lim := (fld w 0 8).toNat
  let flo := (fld w 16 12).toNat
  let stp := (fld w 32 8).toNat
  updPw (fun p => { p with
    thLimit := if lim < 85 || 125 < lim then p.thLimit else w.extractLsb' 0 8
    thHyst := if fld w 8 4 = 0 then p.thHyst else w.extractLsb' 8 4
    thFloor := if flo < 680 || 950 < flo then p.thFloor else w.extractLsb' 16 12
    thStep := if stp < 5 || 50 < stp || stp % 5 ≠ 0 then p.thStep else w.extractLsb' 32 8 }) s

/-- IO_SLEW. -/
def writeIoSlew (w : Word) (s : State) : State :=
  updPw (fun p => { p with
    ioSpi := w.extractLsb' 0 2, ioMgmt := w.extractLsb' 2 2, ioAvs := w.extractLsb' 4 2, ioPmbus := w.extractLsb' 6 2
    ioStatus := w.extractLsb' 8 2, ioTest := w.extractLsb' 10 2 }) s

/-- A write of BW_CTL.WINDOW ends the window without latching and starts a new one (R487). -/
def writeBwCtl (v : Word) (s : State) : State :=
  let w : BitVec 20 := v.extractLsb' 0 20
  { s with bw := { s.bw with
      window := if w = 0 || 1000000 < w.toNat then s.bw.window else w, running := [], start := s.time.now } }

def writeEvrPart (p : Nat) (w : Word) (s : State) : State :=
  updPart p (fun x => { x with
    kthread := w.extractLsb' 0 10, kkind := bit w 10, ken := bit w 11, sprio := w.extractLsb' 12 4
    dprio := w.extractLsb' 16 16, mprio := w.extractLsb' 32 4 }) s

def writeDispCore (t : Nat) (w : Word) (s : State) : State :=
  let f := fun (x : DispCore) => { x with en := bit w 0, classes := w.extractLsb' 1 4, ibuf := w.extractLsb' 12 36 }
  updLed (fun l => { l with disp := edit DispCore.reset f l.disp t }) s

/-- Registers of the hub that only the Wright's firmware writes (R417). -/
def wrightWrite (o : Nat) (v m : Word) (s : State) : State :=
  let w := mergeW (hubWord s o) v m
  if 0x2000 ≤ o && o < 0x2200 then (if o % 0x40 = 0 then writeCohCtl ((o - 0x2000) / 0x40) w s else s)
  else if o = 0x208 then updLed (fun l => { l with braceRate := w.extractLsb' 0 16 }) s
  else if 0x4000 ≤ o && o < 0x4400 then (if o % 0x40 = 0 then writeMcCtl ((o - 0x4000) / 0x40) w s else s)
  else if 0x5000 ≤ o && o < 0x5100 then
    (if o % 0x10 = 0 && s.pw.bringing && !regionReady s ((o - 0x5000) / 0x10) then writeRegion ((o - 0x5000) / 0x10) w s else s)
  else if o = 0x6000 then writeRidgeCfg w s
  else if o = 0x6008 then updRidge (fun r => { r with pop := w }) s
  else if 0x6100 ≤ o && o < 0x6500 then writeRwin ((o - 0x6100) / 0x10) (o % 0x10 = 8) w s
  else if 0x6600 ≤ o && o < 0x6800 then writeRacl ((o - 0x6600) / 0x10) (o % 0x10 = 8) w s
  else if o = 0x7080 then writeTherm w s
  else if o = 0x7100 then writeIoSlew w s
  else if o = 0x8000 then writeBwCtl w s
  else if 0x100000 ≤ o && o < 0x110000 then writeQueueReg ((o - 0x100000) / 0x40) (o % 0x40 / 8) w s
  else s

/-- Registers of BAR0 that host software, and device software at M, may write: BEAT_MON.CLR, EP_NOTIFY, FREEZE_CTL. -/
def sharedWrite (o : Nat) (v m : Word) (s : State) : State :=
  let b := v &&& m
  if 0x100 ≤ o && o ≤ 0x120 then
    (if bit b 48 then updDie ((o - 0x100) / 8) (fun d => { d with slowest := 0xFFFF }) s else s)
  else if o = 0x808 then writeEpNotify v m s
  else if o = 0x810 then
    let s := if bit b 1 then freeze 0x0F s else s
    if bit b 16 then releaseFreeze (b.extractLsb' 24 8) s else s
  else s

/-- A write of the MSI-X table, a doubleword at a time; an unmasked pending vector then goes out. -/
def writeMsix (i : Nat) (v m : Word) (s : State) : State :=
  let f := fun (x : Msix) => if i % 2 = 0 then { x with addr := mergeW x.addr v m }
    else
      let w := mergeW (at' x.data 0 ||| atB x.mask 32) v m
      { x with data := w.extractLsb' 0 32, mask := bit w 32 }
  flushMsi (updEp (fun e => { e with msix := edit Msix.reset f e.msix (i / 2) }) s)

/-- A register write by host software at a multiple of 8 in BAR0. -/
def hostRegWrite (o : Nat) (v m : Word) (s : State) : State :=
  if 0x20000 ≤ o && o < 0x28000 then writeMsix ((o - 0x20000) / 8) v m s else sharedWrite o v m s

/-- A register write by device software in the hub region (R324, R291, R361, R511). -/
def threadHubWrite (o : Nat) (v m : Word) (s : State) : State :=
  if 0x3000 ≤ o && o < 0x3080 then
    (if o % 0x10 = 0 then writeEvrPart ((o - 0x3000) / 0x10) (mergeW (hubWord s o) v m) s else s)
  else if 0x110000 ≤ o && o < 0x111400 then writeDispCore ((o - 0x110000) / 8) (mergeW (hubWord s o) v m) s
  else sharedWrite o v m s

/-- An engine register through the register region: W1C bits and RUN act on the bits written. -/
def engineRegWrite (e n : Nat) (v m : Word) (s : State) : State :=
  let old := (adzRead s e n).getD 0
  let keep : Word := if n = 0x402 then ~~~((1 : Word) <<< 13) else if n = 0x405 then 0xFFFFFFFFFFFFFF00 else BitVec.allOnes 64
  adzWrite e n (mergeW (old &&& keep) v m) s

/-- PWR_CORE.DEEP and PWR_BAY.RET_WAYS. -/
def powerRegWrite (u : DieUnit) (w : Word) (s : State) : State :=
  match u with
  | .core c => updCore c (fun k => { k with deep := w.extractLsb' 0 4 }) s
  | .bay b => updBay b (fun y => { y with retWays := w.extractLsb' 0 8 }) s
  | _ => s

/-- The address is an EV_SEND register (R321). -/
def isEvSend (pa : BitVec 48) : Bool :=
  match spaceOf pa with
  | .dieReg _ off => decide (off / 8 * 8 = 0x1800008)
  | _ => false

/-- What a device store comes to, `lost` being the LOST_PENDING it carries (R186) and `id` its place among the outstanding
accesses: none when it is made or discarded, else the cause it is completed with. -/
def deviceWrite (t : Thr) (id : Option Nat) (pa : BitVec 48) (n : Nat) (v : Word) (lost : BitVec 16) (s : State) : Option LostCause × State :=
  let o := pa.toNat % 8
  let m := laneMask o n
  let v' := v <<< (8 * o)
  match spaceOf pa with
  | .hubReg off =>
    if isPage (.hubReg off) || n < 4 then (none, s) else (none, threadHubWrite (off / 8 * 8) v' m s)
  | .dieReg d off =>
    let whole := n = 8
    match dieUnit d off with
    | .shared =>
      if off / 8 * 8 = 0x1800000 then
        (none, if whole && d = dieOfThr t then ledgerDone t v lost s else countLate s)
      else if off / 8 * 8 = 0x1800008 then sendEvent t id v whole s
      else (none, s)
    | .engine e => (none, if n < 4 then s else engineRegWrite e (engineRegNo (off / 8 * 8)) v' m s)
    | .spare d =>
      (none, if n < 4 then s else engineRegWrite ((spareServes s d).getD (64 + d)) (engineRegNo (off / 8 * 8)) v' m s)
    | .devBox k =>
      if off < 0x1910000 then (none, writeBoxPage (devBox k) (off % 0x1000) (bytesOf n v) s)
      else if whole then (none, ringBox (devBox k) v false s)
      else (none, updBox (devBox k) (fun b => { b with refused := satInc b.refused }) s)
    | .core c => (none, if n < 4 then s else powerRegWrite (.core c) (mergeW (pwrCoreWord s c) v' m) s)
    | .bay b => (none, if n < 4 then s else powerRegWrite (.bay b) (mergeW (pwrBayWord s b) v' m) s)
    | .none => (none, s)
  | _ => (none, s)

/-- The endpoint serves register accesses of host software. -/
def hostServed (s : State) : Bool := s.ep.up && s.ep.cfg.memEn && !s.ep.cfg.d3hot && !s.pw.clkEp

/-- Host writes to registers: in the fenced behaviour none but mailboxes act; frozen, only FREEZE_CTL and EP_NOTIFY
(R44, R377). -/
def hostWrites (s : State) (o : Nat) : Bool :=
  s.pw.fence ≠ .done && (!s.ep.frozen || o = 0x808 || o = 0x810)

/-- Bytes of the access size code 0 to 3. -/
def sizeOf' (z : Fin 4) : Nat := 2 ^ z.val

/-- REGISTER_WRITE: one aligned write by one writer to a register with no row of its own (R14 to R16, R511). The host's
address is an offset of BAR0; a thread's is checked as R38 and R39 give; the management port writes no register. -/
def execRegisterWrite (who : Writer) (addr : BitVec 48) (size : Fin 4) (v : Word) (s : State) : Result :=
  let n := sizeOf' size
  if addr.toNat % n ≠ 0 then .next s else
  let o := addr.toNat % 8
  let a := addr.toNat / 8 * 8
  match who with
  | .host =>
    through .endpoint true n (.hostWrite addr size v) (fun s =>
      if !hostServed s || !hostWrites s a || n < 4 then .next s
      else .next (hostRegWrite a (v <<< (8 * o)) (laneMask o n) (countBytes 0 n s))) s
  | .thread t =>
    if !mainOn s || !(srcEnt s (srcOfThr t)).isOpen || !regionOk s t .store addr || !isDevice (spaceOf addr) then .next s else .next (deviceWrite t none addr n v (thr s t).lostPending s).2
  | .wright =>
    match spaceOf addr with
    | .hubReg off => if s.wr.st = .serving && 4 ≤ n then .next (wrightWrite (off / 8 * 8) (v <<< (8 * o)) (laneMask o n) s) else .next s
    | _ => .next s
  | .mgmt => .next s

/-! ## Bandwidth counters (R487) -/

/-- BW_WINDOW_END: a window's length of TIME has passed. -/
def execBwWindowEnd (s : State) : Result :=
  if !mainOn s || s.time.now.toNat < s.bw.start.toNat + s.bw.window.toNat * 1000 then .next s
  else .next { s with bw := { s.bw with
    latched := s.bw.running, running := [], seq := s.bw.seq + 1, start := s.time.now } }

/-- BW_CTL_WRITE, by the Wright's firmware. -/
def execBwCtlWrite (v : Word) (s : State) : Result :=
  if s.wr.st = .serving then .next (writeBwCtl v s) else .next s

end Sys2Proof.Machine
end

