-- ==== Sys2Proof/Machine/LoadStore.lean ====
section
/-! DEFINITION. Loads and stores (R93, R94): their checks (R108, R109, R168), forwarding (R156), reads of a core ahead of
confirmation through the shim buffer (R126 to R130), stores into the store buffer or store queue (R155, R270), and
accesses sent over a ridge window (R404 to R406). -/
namespace Sys2Proof.Machine

/-! ## Pieces and checks -/

/-- The pieces of an access: its bytes in the lower and in the higher line (R167). -/
def piecesOf (va : Word) (n : Nat) : List (Word × Nat) :=
  let k := 64 - va.toNat % 64
  if n ≤ k then [(va, n)] else [(va, k), (va + BitVec.ofNat 64 k, n - k)]

/-- What the checks of an access come to: the pieces with their physical addresses, or the exception. -/
inductive Checked where
  | ok (l : List (BitVec 48 × Nat))
  | bad (e : Exc)
deriving DecidableEq, Repr

/-- Translation and region rules, piece by piece (R108, R109). -/
def checkPieces (s : State) (t : Thr) (k : AK) : Bool → List (Word × Nat) → Checked
  | _, [] => .ok []
  | half, (va, n) :: rest =>
    match translate s t k va with
    | .fault r l => .bad ⟨k.code, va, BitVec.ofNat 64 (r + 256 * l), k.acc, half, 0⟩
    | .ok pa _ _ =>
      if !regionOk s t k pa then .bad ⟨7, va, at' pa 0, k.acc, half, 0⟩ else
      match checkPieces s t k true rest with
      | .ok l => .ok ((pa, n) :: l)
      | b => b

/-- Regions to which a poisoned register may not be stored (R102). DEDUCED (log entry 80). -/
def refusesPoison (x : Space) : Bool :=
  match x with
  | .ridge => true
  | .scratch _ => true
  | x => isDevice x

/-- A test of the physical address of some piece that translates. -/
def anyPiece (s : State) (t : Thr) (k : AK) (ps : List (Word × Nat)) (p : BitVec 48 → Bool) : Bool :=
  ps.any (fun x => match translate s t k x.1 with
    | .ok pa _ _ => p pa
    | .fault _ _ => false)

/-- The checks of an access of `n` bytes in the order of R108: poisoned store data, alignment, then each piece.
DEDUCED (log entry 80). -/
def checkAccess (s : State) (t : Thr) (k : AK) (ordered : Bool) (word : BitVec 32) (va : Word) (n : Nat)
    (data : Option (Bool × BitVec 5)) : Checked :=
  let ps := piecesOf va n
  let th := thr s t
  let tagged : Option (Bool × BitVec 5) := data.filter (fun d => if d.1 then (readF th d.2).poison else (readG th d.2).poison)
  match tagged with
  | some d =>
    if anyPiece s t k ps (fun pa => refusesPoison (spaceOf pa)) then .bad (poisonExc d.1 d.2 4 k.acc)
    else if va.toNat % n ≠ 0 && (needsAlign k ordered 0 || anyPiece s t k ps (needsAlign k ordered)) then
      .bad ⟨8, va, word.setWidth 64, k.acc, false, 0⟩
    else checkPieces s t k false ps
  | none =>
    if va.toNat % n ≠ 0 && (needsAlign k ordered 0 || anyPiece s t k ps (needsAlign k ordered)) then
      .bad ⟨8, va, word.setWidth 64, k.acc, false, 0⟩
    else checkPieces s t k false ps

/-- An access that executes as the oldest instruction uses its translation at once: REF and MOD are set, or it walks
again (R143). -/
def withXlate (t : Thr) (k : AK) (va : Word) (n : Nat) (s : State) (go : State → Eff) : Eff :=
  match t with
  | .adze _ => go s
  | .core i =>
    match useXlates i k va n s with
    | .ready s => go s
    | .wait s => .wait s
    | .redo s => .wait s

/-! ## Older stores of the thread -/

/-- Stores not performed yet whose address is known, oldest first: released, then waiting. Device stores are never forwarded
(R131, R156, R171). -/
def olderStores (th : Thread) : List Access :=
  (th.outst ++ th.stores).filter (fun a => (a.kind = .store || a.kind = .czero) && a.known && !isDevice (spaceOf a.pa))

/-- Physical addresses of the bytes of pieces, in the order of the access. -/
def byteAddrs (ps : List (BitVec 48 × Nat)) : List Nat :=
  ps.flatMap (fun p => (List.range p.2).map (fun i => p.1.toNat + i))

def coversByte (x : Access) (b : Nat) : Bool := decide (x.pa.toNat ≤ b) && decide (b < x.pa.toNat + x.size)

/-- The byte a store puts at an address. -/
def storeByteAt (x : Access) (b : Nat) : Byte :=
  if x.kind = .czero then 0 else x.data.extractLsb' (8 * (b - x.pa.toNat)) 8

/-- What the thread's older stores give a load (R156). -/
inductive Fwd where
  | none
  | waits
  /-- the value, and the number of the store that gives it -/
  | gives (v : Word) (poison : Bool) (store : Nat)
deriving DecidableEq, Repr

/-- The youngest older store that overlaps the load forwards if it covers every byte; otherwise the load waits. -/
def forwardOf (th : Thread) (ps : List (BitVec 48 × Nat)) : Fwd :=
  let bs := byteAddrs ps
  match (olderStores th).reverse.find? (fun x => bs.any (coversByte x)) with
  | none => .none
  | some y =>
    let grp := (olderStores th).filter (fun x => x.seq = y.seq)
    if bs.all (fun b => grp.any (fun x => coversByte x b)) then
      .gives (wordOf (bs.map (fun b => match grp.find? (fun x => coversByte x b) with
        | some x => storeByteAt x b
        | none => 0))) y.poison y.seq
    else .waits

/-- Some older store of the thread overlaps the bytes. -/
def overlapsOlder (th : Thread) (ps : List (BitVec 48 × Nat)) : Bool :=
  (olderStores th).any (fun x => (byteAddrs ps).any (coversByte x))

/-- An older STL is not performed yet (R163). -/
def olderRelease (th : Thread) : Bool := (th.outst ++ th.stores).any (fun a => a.ordered)

/-! ## Accesses that leave the unit -/

/-- The target answers: its channel serves the line, or a cache of the core does; its bay or engine is open (R179). -/
def targetServed (s : State) (t : Thr) (pa : BitVec 48) : Bool :=
  let l := lineOf pa
  match spaceOf pa with
  | .dram => lineServed s l || (match t with
    | .core i => lineState (core s (i.val / 4)).l1d (l1Set l) l ≠ .I || lineState (bay s (i.val / 16)).l2 (l2Set l) l ≠ .I
    | .adze _ => false)
  | .l2am b => if h : b < 40 then (srcEnt s (.bay ⟨b, h⟩)).isOpen else false
  | .scratch e => if h : e < 64 then (srcEnt s (.engine ⟨e, h⟩)).isOpen else false
  | _ => true

/-- An access record with nothing special about it. -/
def plainAccess (id seq : Nat) (k : AccKind) (va : Word) (pa : BitVec 48) (n : Nat) (data : Word) : Access :=
  { id := id, seq := seq, kind := k, va := va, pa := pa, size := n, data := data, poison := false, piece := false
    split := false, conf := true, known := true, ordered := false, nt := false, dest := none, tRel := 0, lost := 0, part := 0
    resv := false, tagged := false, missed := false, sent := false, gone := false, gen := 0, site := 0 }

/-- The access leaves its unit: its timeout starts, and it carries LOST_PENDING, the generation and the site of its source
(R178, R186, R247); whether a core's L1 has its line is kept for the age of the way (R196). -/
def released (s : State) (t : Thr) (a : Access) : Access :=
  { a with
    tRel := s.time.now, lost := (thr s t).lostPending
    missed := match t with
      | .core i => (findWay (core s (i.val / 4)).l1d (l1Set (lineOf a.pa)) (lineOf a.pa)).isNone
      | .adze _ => false
    gen := (srcEnt s (srcOfThr t)).gen, site := siteOf s (srcOfThr t) }

/-- The records of the pieces of an access; `data` is cut by piece. -/
def pieceAccesses (seq : Nat) (k : AccKind) (va : Word) (ps : List (BitVec 48 × Nat)) (data : Word) : List Access :=
  match ps with
  | [(a, n)] => [plainAccess seq seq k va a n data]
  | [(a, n), (b, m)] =>
    [{ plainAccess seq seq k va a n data with split := true },
     { plainAccess (seq + 1) seq k (va + BitVec.ofNat 64 n) b m (data >>> (8 * n)) with split := true, piece := true }]
  | _ => []

/-- Bytes of a released access, as a message carries them. -/
def accessBytes (a : Access) : List Byte := if a.kind = .czero then List.replicate 64 0 else bytesOf a.size a.data

/-- Send an outstanding access of a ridge window to its target device (R404, R406); without a route it ends with error
at once. -/
def ridgeSend (t : Thr) (a : Access) (s : State) : State :=
  match windowOf s a.pa with
  | none => accessLost t a .ridgeUnreachable s
  | some k =>
    let w := look Rwin.reset s.ridge.win k
    let n := w.lg.toNat
    let pa := clearBelow n (w.tbase.toNat * 4096) + a.pa.toNat % 2 ^ n
    let addr : Word := at' (BitVec.ofNat 48 pa) 0 ||| at' (BitVec.ofNat 6 k) 48
    let data := if a.kind = .load then List.replicate a.size 0 else accessBytes a
    if w.target = deviceId s then ownWindow t a.id addr data a.poison (a.kind ≠ .load) s else
    let (tag, s) := takeTag s
    let op : BitVec 6 := if a.kind = .load then 0x01 else 0x02
    let body : FlitBody := .msg op w.target (deviceId s) 0 a.poison tag addr data
    let q : RReq := { op := op, tag := tag, dst := w.target, addr := addr, port := .W
                      thr := some (t, a.id), entry := none, left := 0 }
    match sendReq w.cls body q s with
    | some s => s
    | none => accessLost t a .ridgeUnreachable (countUnreach s)

/-- Byte mask of an access in its line, and its bytes placed there (R227). -/
def lineMask (a : Access) : BitVec 64 :=
  if a.kind = .czero then BitVec.allOnes 64 else BitVec.ofNat 64 ((2 ^ a.size - 1) * 2 ^ (a.pa.toNat % 64))
def linePlaced (a : Access) : BitVec 512 :=
  if a.kind = .czero then 0
  else BitVec.ofNat 512 ((a.data.toNat % 2 ^ (8 * a.size)) * 2 ^ (8 * (a.pa.toNat % 64)))

/-- The bytes of a piece, from memory or from a shim entry. -/
def pieceVal (s : State) (t : Thr) (e : Option ShimE) (pa : BitVec 48) (n : Nat) : Word × Bool :=
  match e with
  | none => (wordOf (readBytes s pa.toNat n), match t with
    | .core i => readPoison s i false (lineOf pa)
    | .adze _ => isPoisoned s (lineOf pa))
  | some x => ((x.data >>> (8 * (pa.toNat % 64))).setWidth 64 &&& BitVec.ofNat 64 (2 ^ (8 * n) - 1), x.poison)

/-- A released piece of a load whose target answers: a core's DRAM line by an ordinary read, L2-as-memory and scratch where
they lie (R128, R167, R169). Other pieces have messages of their own. -/
def answerPiece (t : Thr) (a : Access) (s : State) : State :=
  if !targetServed s t a.pa then s else
  let give := fun (s : State) => let v := pieceVal s t none a.pa a.size; valueDone t a.id v.1 v.2 s
  match spaceOf a.pa, t with
  | .dram, .core i => give (readLine i false a.nt (lineOf a.pa) (sectorMask a.pa.toNat a.size) s)
  | .l2am _, _ => give s
  | .scratch _, _ => give s
  | _, _ => s

/-- The forms of R94: size, sign extension, f register, binary32, acquire or release, streaming hint. -/
structure LdForm where
  size : Nat
  signed : Bool
  isF : Bool
  ordered : Bool
  nt : Bool
deriving DecidableEq, Repr

def plainForm (n : Nat) : LdForm := ⟨n, false, false, false, false⟩

def LdForm.dest (m : LdForm) (r : BitVec 5) : Dest := ⟨r, m.isF, m.signed, m.isF && m.size = 4⟩

/-- Load accesses become outstanding and the thread awaits them; of two pieces, one whose target answers is read (R169,
R178, R256). An engine reads DRAM by HRD, for LDA by HATM (R237, R271). `data` holds the size of the whole load. -/
def awaitLoads (t : Thr) (d : Dest) (m : LdForm) (va : Word) (ps : List (BitVec 48 × Nat)) (whole : Nat) (s : State) : State :=
  let th := thr s t
  let accs := (pieceAccesses th.nextSeq .load va ps 0).map (fun a =>
    { released s t a with data := BitVec.ofNat 64 whole, dest := some d, nt := m.nt })
  let s := countAwait t (updThr t (fun th => { th with
    outst := th.outst ++ accs, run := .awaiting th.nextSeq, nextSeq := th.nextSeq + 2 }) s)
  forEach accs (fun a acc =>
    match spaceOf a.pa, t with
    | .ridge, _ => ridgeSend t a acc
    | .dram, .adze j =>
      if !lineServed acc (lineOf a.pa) then acc
      else if m.ordered then
        engineRequest j a.id .hatm (lineOf a.pa) (packAtom j .lda a.pa (a.size = 8) 0 0) 0 false false acc
      else engineRequest j a.id .hrd (lineOf a.pa) 0 0 false m.nt acc
    | _, _ => answerPiece t a acc) s

/-! ## Loads of a core -/

/-- How a load got its value ahead of confirmation: from a store of the buffer, from L1 ways, from shim entries, past an L1
miss. -/
structure LdHow where
  fwd : Option Nat
  ways : List (BitVec 42 × Nat)
  shim : List (BitVec 42)
  missed : Bool

/-- The load enters the load queue as an instruction in flight (R123). DESIGN CHOICE (log entry 15). -/
def pushLoad (i : Fin 640) (m : LdForm) (d : Dest) (va : Word) (ps : List (BitVec 48 × Nat)) (h : LdHow) (s : State) : State :=
  updThr (.core i) (fun th =>
    let again : Bool := th.redo = some th.pc
    let ld : LdInfo :=
      { pa := (ps.head?.map (·.1)).getD 0, pa2 := ((ps.drop 1).head?.map (·.1)), size := m.size
        trains := !m.isF && !m.nt, nt := m.nt, again := again, reg := if m.isF then none else some d.reg
        fwd := h.fwd, ways := h.ways, shim := h.shim, missed := h.missed }
    let u : UOp := { seq := th.nextSeq, pc := th.pc, conf := false, fetch := fetchOf th, va := va, sz := m.size, br := none
                     push := none, pop := false, ld := some ld, st := none, evs := th.evs, snap := snapOf th }
    { th with
      unconf := th.unconf ++ [u], nextSeq := th.nextSeq + 2, evs := [], waitRoom := false
      redo := if again then none else th.redo }) s

/-- The load takes its value now. DESIGN CHOICE (log entry 16). -/
def loadNow (i : Fin 640) (m : LdForm) (d : Dest) (va : Word) (ps : List (BitVec 48 × Nat)) (h : LdHow) (v : Word)
    (poison : Bool) (s : State) : Eff :=
  .done (updThr (.core i) (writeDest d m.size v poison) (pushLoad i m d va ps h s))

/-- DRAM lines of the pieces of an access, with the sectors touched. -/
def pieceLines (ps : List (BitVec 48 × Nat)) : List (BitVec 42 × BitVec 2) :=
  (ps.filter (fun p => isDramLine (lineOf p.1))).map (fun p => (lineOf p.1, sectorMask p.1.toNat p.2))

/-- The L1 ways that serve lines of a load. -/
def hitWays (s : State) (i : Fin 640) (ls : List (BitVec 42 × BitVec 2)) : List (BitVec 42 × Nat) :=
  ls.filterMap (fun l => (sectorWay (core s (i.val / 4)).l1d l.1 l.2).map (fun w => (l.1, w)))

/-- The lines of an unconfirmed load, in order: the shim entry each came from, or the L1. -/
def specLines (i : Fin 640) : List (BitVec 42 × BitVec 2) → State → Option (List (BitVec 42 × Option ShimE)) × State
  | [], s => (some [], s)
  | l :: rest, s =>
    match specLine i false l.1 l.2 s with
    | .stall s => (none, s)
    | .ready _ e s => let r := specLines i rest s; (r.1.map (fun es => (l.1, e) :: es), r.2)

/-- The value of a load from its pieces. -/
def joinPieces (s : State) (t : Thr) : List ((BitVec 48 × Nat) × Option ShimE) → Word × Bool
  | [] => (0, false)
  | ((pa, n), e) :: rest =>
    let a := pieceVal s t e pa n
    let b := joinPieces s t rest
    (a.1 ||| (b.1 <<< (8 * n)), a.2 || b.2)

/-- A load that is the oldest instruction meets its lines: one that misses in the L1 is counted, and a shim entry that its
peek brought is not used any more (R126, R127, R128). -/
def meetLines (i : Fin 640) (ls : List (BitVec 42 × BitVec 2)) (s : State) : State :=
  forEach ls (fun l acc =>
    let free := releaseShim i (fun e => e.line = l.1 && e.walk.isNone)
    if (sectorWay (core acc (i.val / 4)).l1d l.1 l.2).isSome || (shimOf acc i l.1).isSome then free acc
    else specEvents i (if lineState (bay acc (i.val / 16)).l2 (l2Set l.1) l.1 ≠ .I then [9] else [9, 0x0A]) acc) s

/-- Load-queue entries: 32 of a thread, or all 96 in solo mode, and 96 of the core (R112). -/
def loadRoom (s : State) (i : Fin 640) : Bool :=
  let loads := fun (t : Thr) => ((thr s t).unconf.filter (fun u => u.ld.isSome)).length
  decide (loads (.core i) < (if (core s (i.val / 4)).soloActive then 96 else 32)) &&
    decide (((thrsOfCore (i.val / 4)).map loads).sum < 96)

/-- A region read only when confirmed, or a target that does not answer. -/
def readsLate (s : State) (t : Thr) (pa : BitVec 48) : Bool := spaceOf pa = .ridge || !targetServed s t pa

/-- An access that acts only as the oldest instruction: older ones end first, then its translation is used (R124, R143). -/
def asOldest (i : Fin 640) (k : AK) (va : Word) (n : Nat) (s : State) (go : State → Eff) : Eff :=
  let r := makeOldest (.core i) s
  if !r.1 then .wait r.2 else withXlate (.core i) k va n r.2 go

/-- The load waits until every older store of its thread has a known address: the predictor marks it, or NO_MDS is set
(R131, R135). -/
def waitsForStores (th : Thread) : Bool :=
  (th.noMds || th.mdp.any (fun m => m.1 = th.pc)) && th.stores.any (fun a => !a.known)

/-- A load of a core thread whose checks have passed. A device region, a ridge window and a target that does not answer are
read only by the oldest instruction, which awaits the value (R171, R180); with NO_PEEK set so is everything outside the L1
(R135). DESIGN CHOICE (log entry 15). DESIGN CHOICE (log entry 16). -/
def coreLoad (i : Fin 640) (m : LdForm) (d : Dest) (va : Word) (ps : List (BitVec 48 × Nat)) (s : State) : Eff :=
  let t := Thr.core i
  let th := thr s t
  let ls := pieceLines ps
  let late := fun (s : State) => asOldest i .load va m.size s (fun s => .wait (awaitLoads t d m va ps m.size s))
  if ps.any (fun p => isDevice (spaceOf p.1)) then late s
  else if (m.ordered && olderRelease th) || !loadRoom s i || waitsForStores th then .wait s
  else match forwardOf th ps with
  | .waits => .wait s
  | .gives v p q =>
    let r := specWalks i .load va m.size s
    if r.1 then loadNow i m d va ps ⟨some q, [], [], false⟩ v p r.2 else .wait r.2
  | .none =>
    if ps.any (fun p => readsLate s t p.1) then late s
    else
      let how : LdHow := ⟨none, hitWays s i ls, [], ls.any (fun l => (sectorWay (core s (i.val / 4)).l1d l.1 l.2).isNone)⟩
      if th.unconf.isEmpty then
        let s := meetLines i ls s
        let v := joinPieces s t (ps.map (fun p => (p, none)))
        loadNow i m d va ps how v.1 v.2 s
      else if th.noPeek && ps.any (fun p => !isDramLine (lineOf p.1)) then .wait s
      else
        let r := specWalks i .load va m.size s
        if !r.1 then .wait r.2 else
        let q := specLines i ls r.2
        match q.1 with
        | none => .wait q.2
        | some es =>
          let v := joinPieces q.2 t (ps.map (fun p => (p, (es.find? (fun x => x.1 = lineOf p.1)).bind (·.2))))
          let took := (es.filter (fun x => x.2.isSome)).map (·.1)
          loadNow i m d va ps { how with shim := took } v.1 v.2 q.2

/-! ## Loads of an engine -/

/-- The address lies in the thread's own scratch. -/
def ownScratch (j : Fin 512) (pa : BitVec 48) : Bool := spaceOf pa = .scratch (j.val / 8)

/-- A load of an adze thread (R259, R271). -/
def adzeLoad (j : Fin 512) (m : LdForm) (d : Dest) (va : Word) (ps : List (BitVec 48 × Nat)) (s : State) : Eff :=
  let t := Thr.adze j
  let th := thr s t
  let own := ps.all (fun p => ownScratch j p.1)
  let count := fun (s : State) => countEvent t (if own then 0x24 else 0x25) s
  let give := fun (v : Word) (p : Bool) (s : State) => Eff.done (updThr t (writeDest d m.size v p) (count s))
  if ps.any (fun p => isDevice (spaceOf p.1)) then .wait (awaitLoads t d m va ps m.size (count s))
  else if m.ordered && olderRelease th then .wait s
  else match (if own then Fwd.none else forwardOf th ps) with
  | .waits => .wait s
  | .gives v p _ => give v p s
  | .none =>
    if !own && ps.any (fun p => isDramLine (lineOf p.1) || readsLate s t p.1) then
      .wait (awaitLoads t d m va ps m.size (count s))
    else
      let v := joinPieces s t (ps.map (fun p => (p, none)))
      give v.1 v.2 (if own then s else countAwait t s)

/-! ## The load instructions -/

def loadOp (t : Thr) (f : FmtC) (minor : Nat) (m : LdForm) (s : State) : Result :=
  let word := wordC 0x20 f minor
  let k := { plainCheck word true with coreOnly := m.isF, uses := [(false, f.gb, 0, 1)] }
  .next (runInstr t k (fun th s =>
    let va := (readG th f.gb).val + f.off.signExtend 64
    match checkAccess s t .load m.ordered word va m.size none with
    | .bad e => .raise e s
    | .ok ps => match t with
      | .core i => coreLoad i m (m.dest f.gt) va ps s
      | .adze j => adzeLoad j m (m.dest f.gt) va ps s) s)

def execLdb (t : Thr) (f : FmtC) (s : State) : Result := loadOp t f 0x0 (plainForm 1) s
def execLdh (t : Thr) (f : FmtC) (s : State) : Result := loadOp t f 0x1 (plainForm 2) s
def execLdw (t : Thr) (f : FmtC) (s : State) : Result := loadOp t f 0x2 (plainForm 4) s
def execLdd (t : Thr) (f : FmtC) (s : State) : Result := loadOp t f 0x3 (plainForm 8) s
def execLdbs (t : Thr) (f : FmtC) (s : State) : Result := loadOp t f 0x4 { plainForm 1 with signed := true } s
def execLdhs (t : Thr) (f : FmtC) (s : State) : Result := loadOp t f 0x5 { plainForm 2 with signed := true } s
def execLdws (t : Thr) (f : FmtC) (s : State) : Result := loadOp t f 0x6 { plainForm 4 with signed := true } s
def execFls (t : Thr) (f : FmtC) (s : State) : Result := loadOp t f 0x8 { plainForm 4 with isF := true } s
def execFld (t : Thr) (f : FmtC) (s : State) : Result := loadOp t f 0x9 { plainForm 8 with isF := true } s

/-- LDA.W sign-extends its 4 bytes (R94, R163). -/
def execLda (t : Thr) (f : FmtC) (dbl : Bool) (s : State) : Result :=
  loadOp t f (if dbl then 0xB else 0xA) { plainForm (if dbl then 8 else 4) with signed := !dbl, ordered := true } s

def execLddNt (t : Thr) (f : FmtC) (s : State) : Result := loadOp t f 0xC { plainForm 8 with nt := true } s

/-! ## Stores -/

/-- Entries of a store buffer or queue: the pieces of one store count as one, until both are gone (R270). -/
def storeEntries (l : List Access) : Nat := ((l.map (fun a => a.seq)).dedup).length

/-- Store-buffer entries: 24 of a thread, or all 64 in solo mode, and 64 of the core (R112). -/
def storeRoom (s : State) (i : Fin 640) : Bool :=
  let used := fun (t : Thr) => storeEntries (thr s t).stores
  decide (used (.core i) < (if (core s (i.val / 4)).soloActive then 64 else 24)) &&
    decide (((thrsOfCore (i.val / 4)).map used).sum < 64)

/-- The records of a store. -/
def storeAccesses (th : Thread) (m : LdForm) (va : Word) (ps : List (BitVec 48 × Nat)) (data : Word)
    (poison conf known : Bool) : List Access :=
  (pieceAccesses th.nextSeq .store va ps data).map (fun a => { a with
    poison := poison, conf := conf, known := known, ordered := m.ordered, nt := m.nt
    data := a.data &&& BitVec.ofNat 64 (2 ^ (8 * a.size) - 1) })

/-- The register that gives a store its address is still to come from a load in flight: the address is not known yet (R131).
DESIGN CHOICE (log entry 105). -/
def addrPending (th : Thread) (r : BitVec 5) : Bool :=
  r ≠ 0 && th.unconf.any (fun u => !u.conf && u.ld.any (fun ld => ld.reg = some r))

/-- A store of a core thread enters the store buffer; a store to a device region executes as the oldest instruction
(R155, R171). -/
def coreStore (i : Fin 640) (m : LdForm) (base : BitVec 5) (va : Word) (ps : List (BitVec 48 × Nat)) (data : Word) (poison : Bool)
    (s : State) : Eff :=
  let t := Thr.core i
  if !storeRoom s i then .wait s
  else if ps.any (fun p => isDevice (spaceOf p.1)) then
    asOldest i .store va m.size s (fun s =>
      .done (updThr t (fun th => { th with
        stores := th.stores ++ storeAccesses th { m with ordered := false } va ps data poison true true
        nextSeq := th.nextSeq + 2 }) s))
  else
    let r := specWalks i .store va m.size s
    if !r.1 then .wait r.2 else
    .done (updThr t (fun th =>
      let u : UOp := { seq := th.nextSeq, pc := th.pc, conf := false, fetch := fetchOf th, va := va, sz := m.size, br := none
                       push := none, pop := false, ld := none, st := some th.nextSeq, evs := th.evs, snap := snapOf th }
      { th with
        unconf := th.unconf ++ [u], evs := [], waitRoom := false
        stores := th.stores ++ storeAccesses th m va ps data poison false (!addrPending th base)
        nextSeq := th.nextSeq + 2 }) r.2)

/-- Every older access of the thread is performed (R163). -/
def allPerformed (th : Thread) : Bool := th.outst.isEmpty && th.stores.isEmpty

/-- A store or CZERO of an adze thread enters the store queue, or waits in M for an entry (R270). -/
def queueStore (j : Fin 512) (l : Thread → List Access) (s : State) : Eff :=
  let t := Thr.adze j
  if 4 ≤ storeEntries (thr s t).stores then
    .wait (if (thr s t).waitRoom then s else countEvent t 0x23 (updThr t (fun th => { th with waitRoom := true, held := .abandonable }) s))
  else .done (countEvent t 0x25 (updThr t (fun th => { th with
    stores := th.stores ++ l th, waitRoom := false, nextSeq := th.nextSeq + 2 }) s))

/-- A store of an adze thread: performed at once in the engine's own scratch, queued elsewhere (R270). -/
def adzeStore (j : Fin 512) (m : LdForm) (va : Word) (ps : List (BitVec 48 × Nat)) (data : Word) (poison : Bool)
    (s : State) : Eff :=
  let t := Thr.adze j
  if ps.all (fun p => ownScratch j p.1) then
    if m.ordered && !allPerformed (thr s t) then .wait s
    else .done (countEvent t 0x24 (storeBytes (some t) ((ps.head?.map (·.1)).getD 0) (bytesOf m.size data) poison s))
  else
    let m := if ps.any (fun p => isDevice (spaceOf p.1)) then { m with ordered := false } else m
    queueStore j (fun th => storeAccesses th m va ps data poison true true) s

def storeOp (t : Thr) (f : FmtC) (minor : Nat) (m : LdForm) (s : State) : Result :=
  let word := wordC 0x21 f minor
  let k := { plainCheck word true with coreOnly := m.isF, uses := [(false, f.gb, 0, 2)] }
  .next (runInstr t k (fun th s =>
    let va := (readG th f.gb).val + f.off.signExtend 64
    match checkAccess s t .store m.ordered word va m.size (some (m.isF, f.gt)) with
    | .bad e => .raise e s
    | .ok ps =>
      let d := if m.isF then (readF th f.gt).val else (readG th f.gt).val
      let p := if m.isF then (readF th f.gt).poison else (readG th f.gt).poison
      match t with
      | .core i => coreStore i m f.gb va ps d p s
      | .adze j => adzeStore j m va ps d p s) s)

def execStb (t : Thr) (f : FmtC) (s : State) : Result := storeOp t f 0x0 (plainForm 1) s
def execSth (t : Thr) (f : FmtC) (s : State) : Result := storeOp t f 0x1 (plainForm 2) s
def execStw (t : Thr) (f : FmtC) (s : State) : Result := storeOp t f 0x2 (plainForm 4) s
def execStd (t : Thr) (f : FmtC) (s : State) : Result := storeOp t f 0x3 (plainForm 8) s
def execFss (t : Thr) (f : FmtC) (s : State) : Result := storeOp t f 0x8 { plainForm 4 with isF := true } s
def execFsd (t : Thr) (f : FmtC) (s : State) : Result := storeOp t f 0x9 { plainForm 8 with isF := true } s

def execStl (t : Thr) (f : FmtC) (dbl : Bool) (s : State) : Result :=
  storeOp t f (if dbl then 0xB else 0xA) { plainForm (if dbl then 8 else 4) with ordered := true } s

def execStdNt (t : Thr) (f : FmtC) (s : State) : Result := storeOp t f 0xC { plainForm 8 with nt := true } s

end Sys2Proof.Machine
end

