-- ==== Sys2Proof/Machine/Atomics.lean ====
section
/-! DEFINITION. Reservations and atomics (R95, R173 to R177): LDRES, STCND, FAA and CAS on every region that takes them,
and CZERO's exclusive line. -/
namespace Sys2Proof.Machine

/-! ## Targets (R154) -/

inductive Target where
  | home (h : Option Nat)
  | bay (b : Nat)
  | engine (e : Nat)
  | window (k : Option Nat)
  /-- device regions carry no order among themselves (R171) -/
  | device
deriving DecidableEq, Repr

def targetOf (s : State) (pa : BitVec 48) : Target :=
  match spaceOf pa with
  | .dram => .home (homeOf s pa)
  | .l2am b => .bay b
  | .scratch e => .engine e
  | .ridge => .window (windowOf s pa)
  | _ => .device

/-- An older store of the thread to the same target is not performed yet (R153). DEDUCED (log entry 25). -/
def olderSameTarget (s : State) (t : Thr) (pa : BitVec 48) : Bool :=
  (olderStores (thr s t)).any (fun a => targetOf s a.pa = targetOf s pa)

/-! ## Exclusive lines of a core -/

/-- Threads' DRAM accesses of this core bypass its L1 while DEN is 0 (R207). -/
def uncached (s : State) (i : Fin 640) : Bool := !(core s (i.val / 4)).den

/-- The core's L1 takes an exclusively held line of its bay, unwritten: the other L1 copies of the bay go (R219). -/
def ownLine (c : Nat) (l : BitVec 42) (s : State) : State :=
  let st := lineState (core s c).l1d (l1Set l) l
  let s := if st = .I then updBay (c / 4) (fun y => { y with l2 := touch y.l2 (l2Set l) l 0 }) s else s
  let s := l1Fill c false l (if st = .M then .M else .E) 1 s
  if st = .I then s else updCore c (fun k => { k with l1d := touch k.l1d (l1Set l) l 0 }) s

/-- The bay holds the lines exclusively, and no constrained loop on another of its cores keeps them (R176). -/
def linesReady (s : State) (i : Fin 640) (ls : List (BitVec 42)) : Bool :=
  ls.all (fun l => bayOwns s (i.val / 16) l && !heldBack s i l)

/-- The lines are asked for exclusively. -/
def wantLines (i : Fin 640) (noData : Bool) (ls : List (BitVec 42)) (s : State) : State :=
  forEach ls (fun l acc => wantExclusive i noData false l acc) s

/-- Both lines of a granule. -/
def granuleLines (pa : BitVec 48) : List (BitVec 42) :=
  let g := (granuleOf pa).toNat
  [BitVec.ofNat 42 (2 * g), BitVec.ofNat 42 (2 * g + 1)]

/-- What an atomic does once it may be performed: at a bay, an engine or in the core's L1. The values are gd's and the
tag it adds to the register's. -/
structure AtomForm where
  op : AtomOp
  kind : AccKind
  dbl : Bool
  /-- FAA: gs2; CAS: the expected value; STCND: the value stored -/
  a : Word
  /-- CAS: the value stored -/
  b : Word
  /-- the bytes a lost store would have written (R183) -/
  data : Word
  /-- the stored register is poisoned -/
  sp : Bool
  /-- any register read is poisoned -/
  rp : Bool

/-! ## An atomic that awaits its result -/

/-- The access is released and its thread awaits the result (R178, R256); `part` keeps the value CAS expects. -/
def awaitAtom (t : Thr) (x : AtomForm) (d : Dest) (va : Word) (pa : BitVec 48) (missed : Bool) (s : State) : State :=
  let th := thr s t
  let a : Access := { released s t (plainAccess th.nextSeq th.nextSeq x.kind va pa (if x.dbl then 8 else 4) x.data) with
    part := x.a, dest := some d, poison := x.sp, tagged := x.rp, resv := x.op = .ldres, missed := missed }
  countAwait t (updThr t (fun th => { th with
    outst := th.outst ++ [a], run := .awaiting th.nextSeq, nextSeq := th.nextSeq + 2 }) s)

/-- The form of an atomic that awaits its result. -/
def formOf (a : Access) : AtomForm :=
  { op := match a.kind with | .stcnd => .stcnd | .faa => .faa | .cas => .cas | _ => .ldres
    kind := a.kind, dbl := a.size = 8, a := if a.kind = .cas then a.part else a.data, b := a.data, data := a.data
    sp := a.poison, rp := a.tagged }

/-- An atomic of an adze thread on DRAM goes to the home as HATM (R237, R271). -/
def sendHatm (j : Fin 512) (x : AtomForm) (d : Dest) (va : Word) (pa : BitVec 48) (s : State) : State :=
  let t := Thr.adze j
  let id := (thr s t).nextSeq
  let s := awaitAtom t x d va pa false s
  if lineServed s (lineOf pa) then
    engineRequest j id .hatm (lineOf pa) (packAtom j x.op pa x.dbl x.a x.b) 0 x.sp false s
  else s

/-! ## The common frame -/

/-- The monitor of an address outside DRAM (R173). -/
def monitorAt (pa : BitVec 48) : Option MonAt :=
  match spaceOf pa with
  | .l2am b => some (.bay b)
  | .scratch e => some (.engine e)
  | _ => none

/-- The operation at the place where it is performed; `m` is the monitor that keeps reservations there, none for the
core's L1. -/
def atomPerform (t : Thr) (x : AtomForm) (pa : BitVec 48) (m : Option MonAt) (s : State) : Word × Bool × State :=
  match x.op with
  | .ldres =>
    let v := atomVal s pa x.dbl
    let p := isPoisoned s (lineOf pa)
    match m with
    | some m => (v, p, monTake m t pa x.dbl s)
    | none => (v, p, updThr t (fun th => { th with resv := some ⟨granuleOf pa, x.dbl, pa⟩ }) (loseResv t s))
  | .stcnd => let r := stcndDo t m pa x.dbl x.a x.sp s; (r.1, false, r.2)
  | op => atomDo t op pa x.dbl x.a x.b x.sp s

/-- The result is written and the instruction retires. -/
def atomDone (t : Thr) (gd : BitVec 5) (x : AtomForm) (r : Word × Bool × State) : Eff :=
  .done (updThr t (writeG gd ⟨r.1, r.2.1 || x.rp⟩) r.2.2)

/-- The operation will write its location. -/
def atomStores (s : State) (t : Thr) (x : AtomForm) (pa : BitVec 48) : Bool :=
  match x.op with
  | .ldres => false
  | .stcnd => resvHolds s t pa
  | .faa => true
  | .lda => false
  | .cas => if x.dbl then atomVal s pa true = x.a else (atomVal s pa false).setWidth 32 = x.a.setWidth 32

/-- Lines that an atomic on DRAM needs exclusively: both of the granule for LDRES (R173). -/
def atomLines (x : AtomForm) (pa : BitVec 48) : List (BitVec 42) := if x.op = .ldres then granuleLines pa else [lineOf pa]

/-- On DRAM a core performs it in its L1, with its lines held exclusively; with DEN clear at the bay's L2 (R173, R177,
R207). A LDRES trains the prefetcher and begins to hold answers back (R176, R199). -/
def dramAtomDo (i : Fin 640) (x : AtomForm) (pa : BitVec 48) (missed : Bool) (s : State) : Word × Bool × State :=
  let t := Thr.core i
  let c := i.val / 4
  let l := lineOf pa
  let n := if x.dbl then 8 else 4
  let stores := atomStores s t x pa
  let bad := readPoison s i false l
  let s := if x.op = .stcnd then releaseHold i s else s
  let s :=
    if uncached s i then (if stores then ownAtL2 (c / 4) l s else s)
    else if stores then ownForStore c l false missed (sectorMask pa.toNat n) s
    else forEach (atomLines x pa) (fun l acc => ownLine c l acc) s
  let r := atomPerform t x pa (if uncached s i then some (MonAt.bay (c / 4)) else none) s
  if x.op = .stcnd then r else
  if x.op ≠ .ldres then (r.1, r.2.1 || bad, r.2.2) else
  let s := updThr t countOldest r.2.2
  let s := trainStream i (thr s t).pc pa missed s
  let hold : Hold := ⟨⟨i.val % 4, by omega⟩, granuleOf pa, [], 0⟩
  let s := releaseHold i s
  (r.1, r.2.1 || bad, if uncached s i then s else updCore c (fun k => { k with hold := k.hold ++ [hold] }) s)

/-- An atomic of a core on DRAM: performed at once where it can be; else its lines are asked for, and the thread awaits the
result (R178). An STCND whose reservation is gone fails without them. -/
def coreDramAtom (i : Fin 640) (gd : BitVec 5) (x : AtomForm) (d : Dest) (va : Word) (pa : BitVec 48) (s : State) : Eff :=
  let t := Thr.core i
  let ls := atomLines x pa
  if x.op = .stcnd && !resvHolds s t pa then
    atomDone t gd x (atomPerform t x pa none (releaseHold i s))
  else
    let missed := (sectorWay (core s (i.val / 4)).l1d (lineOf pa) (sectorMask pa.toNat 1)).isNone
    if linesReady s i ls then atomDone t gd x (dramAtomDo i x pa missed s)
    else .wait (wantLines i false ls (awaitAtom t x d va pa missed s))

/-- An atomic of a thread whose checks have passed. DEDUCED (log entry 25). -/
def atomGo (t : Thr) (gd : BitVec 5) (x : AtomForm) (va : Word) (pa : BitVec 48) (s : State) : Eff :=
  let n := if x.dbl then 8 else 4
  let d : Dest := ⟨gd, false, !x.dbl, false⟩
  let th := thr s t
  let own := match t with | .adze j => ownScratch j pa | .core _ => false
  let blocked := if x.op = .ldres then overlapsOlder th [(pa, n)] else olderSameTarget s t pa
  if blocked && !own then .wait s else
  let s := if isAdze t then countEvent t (if own then 0x24 else 0x25) s else s
  if !own && !targetServed s t pa then .wait (awaitAtom t x d va pa false s)
  else match monitorAt pa, t with
  | some m, _ => atomDone t gd x (atomPerform t x pa (some m) (if own then s else countAwait t s))
  | none, .core i => coreDramAtom i gd x d va pa s
  | none, .adze j => .wait (sendHatm j x d va pa s)

/-- The frame of the four instructions: the address is gs1, naturally aligned (R95); each executes as the oldest, since
it acts only when confirmed (R124). -/
def atomInstr (t : Thr) (f : FmtA) (minor : Nat) (legal : Bool) (k : AK) (n : Nat) (data : Option (Bool × BitVec 5))
    (form : Thread → AtomForm) (s : State) : Result :=
  let word := wordA 0x22 f minor
  let c := { plainCheck word legal with oldest := true, uses := [(false, f.gs1, 0, 3)] }
  .next (runInstr t c (fun th s =>
    let va := (readG th f.gs1).val
    match checkAccess s t k true word va n data with
    | .bad e => .raise e s
    | .ok ps => withXlate t k va n s (atomGo t f.gd (form th) va ((ps.head?.map (·.1)).getD 0))) s)

def sizeOfDbl (dbl : Bool) : Nat := if dbl then 8 else 4

/-- DESIGN CHOICE (log entry 26). -/
def execLdres (t : Thr) (f : FmtA) (dbl : Bool) (s : State) : Result :=
  atomInstr t f (0x000 + bnat dbl) (f.gs2 = 0) .resv (sizeOfDbl dbl) none
    (fun _ => ⟨.ldres, .load, dbl, 0, 0, BitVec.ofNat 64 (sizeOfDbl dbl), false, false⟩) s

def execStcnd (t : Thr) (f : FmtA) (dbl : Bool) (s : State) : Result :=
  atomInstr t f (0x002 + bnat dbl) true .atomic (sizeOfDbl dbl) (some (false, f.gs2))
    (fun th => let v := readG th f.gs2; ⟨.stcnd, .stcnd, dbl, v.val, 0, v.val, v.poison, v.poison⟩) s

/-- FAA: gs2 is the addend, and DATA of its lost-store log entry. DESIGN CHOICE (log entry 117). -/
def execFaa (t : Thr) (f : FmtA) (dbl : Bool) (s : State) : Result :=
  atomInstr t f (0x004 + bnat dbl) true .atomic (sizeOfDbl dbl) (some (false, f.gs2))
    (fun th => let v := readG th f.gs2; ⟨.faa, .faa, dbl, v.val, 0, v.val, v.poison, v.poison⟩) s

def execCas (t : Thr) (f : FmtA) (dbl : Bool) (s : State) : Result :=
  atomInstr t f (0x006 + bnat dbl) true .atomic (sizeOfDbl dbl) (some (false, f.gs2))
    (fun th => let v := readG th f.gs2; let e := readG th f.gd
      ⟨.cas, .cas, dbl, e.val, v.val, v.val, v.poison, v.poison || e.poison⟩) s

end Sys2Proof.Machine
end

