-- ==== Sys2Proof/Machine/Branch.lean ====
section
/-! DEFINITION. Branches and jumps (R98), how they stop fetch (R116) and how the return stack predicts (R119, R120);
and BRANCH_RESOLVED (R117, R121). -/
namespace Sys2Proof.Machine

/-! ## Instructions in flight -/

/-- The return stack as the instructions in flight and not yet confirmed adjust it, oldest first (R120). -/
def adjustedStack (th : Thread) : List Word :=
  (th.unconf.filter (fun u => !u.conf)).foldl (fun rs u =>
    let rs := if u.pop then rs.drop 1 else rs
    match u.push with | some a => (a :: rs).take 16 | none => rs) th.rstack

/-- The target a RET is predicted to have, if any (R116, R120). -/
def predictRet (th : Thread) : Option Word :=
  let open4 := (th.unconf.filter (fun u => match u.br with
    | some b => b.isRet && !b.resolved | none => false)).length
  if th.noRsp || 4 ≤ open4 then none else (adjustedStack th).head?

/-- A branch or call enters the instructions in flight of a core thread; on an adze thread it is confirmed when
fetched (R257). -/
def pushBranch (t : Thr) (br : Option BrInfo) (call : Option Word) (pop : Bool) (s : State) : State :=
  match t with
  | .adze _ => s
  | .core _ =>
    let stops : Bool := match br with | some b => b.predicted.isNone | none => false
    let s := if stops then countUnconfirmed t 4 s else s
    updThr t (fun th =>
      let u : UOp := { seq := th.nextSeq, pc := th.pc, conf := false, fetch := fetchOf th, va := 0, sz := 0, br := br
                       push := call, pop := pop, ld := none, st := none, evs := th.evs, snap := snapOf th }
      { th with
        nextSeq := th.nextSeq + 1, unconf := th.unconf ++ [u], evs := []
        fbuf := if br.isSome then [] else th.fbuf }) s

/-! ## Conditional branches -/

/-- Where a conditional branch leads. -/
def branchTarget (pc : Word) (off : BitVec 16) : Word := pc + (off.signExtend 64 <<< 2)

/-- A conditional branch compares gs1 with gs2; poison in either raises POISON (R98, R102), and X_EINFO names gs1 where both
are poisoned. DESIGN CHOICE (log entry 115). X_ECAUSE.ACC of that exception: DESIGN CHOICE (log entry 84). -/
def branchOp (op : Nat) (t : Thr) (f : FmtD) (takes : Word → Word → Bool) (s : State) : Result :=
  let k := plainCheck (wordD op f) true
  .next (runInstr t { k with uses := [(false, f.gs1, 1, 0), (false, f.gs2, 1, 0)] } (fun th s =>
    let pc := if takes (readG th f.gs1).val (readG th f.gs2).val then branchTarget th.pc f.off else th.pc + 4
    .jump pc (pushBranch t (some ⟨pc, none, false, false⟩) none false s)) s)

def execBeq (t : Thr) (f : FmtD) (s : State) : Result := branchOp 0x30 t f (fun a b => a = b) s

def execBne (t : Thr) (f : FmtD) (s : State) : Result := branchOp 0x31 t f (fun a b => a ≠ b) s

def execBlt (t : Thr) (f : FmtD) (s : State) : Result := branchOp 0x32 t f (fun a b => a.slt b) s

def execBge (t : Thr) (f : FmtD) (s : State) : Result := branchOp 0x33 t f (fun a b => !a.slt b) s

def execBltu (t : Thr) (f : FmtD) (s : State) : Result := branchOp 0x34 t f (fun a b => a.ult b) s

def execBgeu (t : Thr) (f : FmtD) (s : State) : Result := branchOp 0x35 t f (fun a b => !a.ult b) s

/-! ## Jumps -/

def jumpTarget (pc : Word) (off : BitVec 26) : Word := pc + (off.signExtend 64 <<< 2)

def execJ (t : Thr) (f : FmtE) (s : State) : Result :=
  .next (runInstr t (plainCheck (wordE 0x38 f) true) (fun th s => .jump (jumpTarget th.pc f.off) (endGroup t s)) s)

/-- JL: the call is pushed on the return stack when it is confirmed (R119). -/
def execJl (t : Thr) (f : FmtE) (s : State) : Result :=
  .next (runInstr t (plainCheck (wordE 0x39 f) true) (fun th s =>
    .jump (jumpTarget th.pc f.off)
      (endGroup t (updThr t (writeG 31 ⟨th.pc + 4, false⟩) (pushBranch t none (some (th.pc + 4)) false s)))) s)

/-- A jump to a register: ALIGN on a target with bits [1:0] not 0, before anything is written (R98). Execution goes on at
the target, or where fetch predicts that it lies. X_ECAUSE.ACC of these exceptions: DESIGN CHOICE (log entry 84). -/
def jumpOp (t : Thr) (word : BitVec 32) (legal : Bool) (r : BitVec 5) (next : Thread → Word → Word)
    (go : Thread → Word → State → State) (s : State) : Result :=
  .next (runInstr t { plainCheck word legal with uses := [(false, r, 2, 0)] } (fun th s =>
    let a := (readG th r).val
    if a.extractLsb' 0 2 ≠ 0 then .raise (excPlain 8 a (word.setWidth 64)) s
    else .jump (next th a) (go th a s)) s)

def execJr (t : Thr) (f : FmtA) (s : State) : Result :=
  jumpOp t (wordA 0x3A f 0x000) (f.gd = 0 && f.gs2 = 0) f.gs1 (fun _ a => a)
    (fun _ a s => pushBranch t (some ⟨a, none, false, false⟩) none false s) s

/-- JLR: gd receives the return address; only gd = g31 pushes the return stack (R119). -/
def execJlr (t : Thr) (f : FmtA) (s : State) : Result :=
  jumpOp t (wordA 0x3A f 0x001) (f.gs2 = 0) f.gs1 (fun _ a => a)
    (fun th a s => updThr t (writeG f.gd ⟨th.pc + 4, false⟩)
      (pushBranch t (some ⟨a, none, false, false⟩) (if f.gd = 31 then some (th.pc + 4) else none) false s)) s

/-- RET: predicted by the return stack where it can be; it pops one entry when confirmed (R120, R121). -/
def execRet (t : Thr) (f : FmtA) (s : State) : Result :=
  jumpOp t (wordA 0x3A f 0x002) (f.gd = 0 && f.gs1 = 0 && f.gs2 = 0) 31 (fun th a => if isAdze t then a else (predictRet th).getD a)
    (fun th a s => pushBranch t (some ⟨a, predictRet th, false, true⟩) none true s) s

/-! ## BRANCH_RESOLVED -/

/-- Branches of the thread in flight that have not resolved, oldest first. -/
def openBranches (th : Thread) : List UOp := th.unconf.filter (fun u => !u.settled)

/-- An unresolved branch of the thread resolves (R117, R121). Which one has its operands is a free choice among them.
DESIGN CHOICE (log entry 94). -/
def execBranchResolved (t : Fin 640) (s : State) : Result :=
  if (die s (t.val / 160)).stalled then .next s else
  match openBranches (thr s (.core t)) with
  | [] => .next s
  | [u] => .next (resolveBranch t u s)
  | u :: us =>
    let n := (Config.freeByte s.fresh).toNat % (us.length + 1)
    .next (resolveBranch t ((u :: us).getD n u) { s with fresh := s.fresh + 1 })

end Sys2Proof.Machine
end

