-- ==== Sys2Proof/Machine/Dram.lean ====
section
/-! DEFINITION. The DDR4 memory subsystem (R329 to R352): reads and what they find, writes, rows, refresh, scrub,
sparing, repair, training, retirement and resilvering. -/
namespace Sys2Proof.Machine

/-! ## Registers (R350, R351) -/

def mcStat (c : Chan) : Word :=
  at' c.st 0 ||| atB c.solo 3 ||| at' c.sparedRank 4 ||| atB c.spareUsed 8 ||| at' c.speed 9 ||| at' c.devMarked 16
    ||| at' c.sppr 32

def mcErr (c : Chan) : Word := at' c.ce 0 ||| at' c.ue 16 ||| at' c.masked 32 ||| at' c.wbLost 48

def mcCtl (c : Chan) : Word :=
  at' c.eccMode 0 ||| atB c.scrubEn 2 ||| at' c.scrubHours 3 ||| atB c.spareRank 11 ||| atB c.pprEn 12
    ||| at' c.devThresh 16 ||| at' c.rankThresh 24 ||| at' c.rowThresh 32

/-! ## Rows -/

/-- The channel serves requests: ready, converting or resilvering, with its clock running (R57), and not after a fence
(R352). -/
def chanLive (s : State) (c : Nat) : Bool :=
  let st := (chan s c).st
  (st = 2 || st = 3 || st = 5) && !s.pw.clkDdr.getLsbD c && !s.pw.fenced

/-- The channel serves reads too: one that is resilvered leaves them to its mate (R349). -/
def chanReads (s : State) (c : Nat) : Bool := chanLive s c && (chan s c).st ≠ 5

/-- An access leaves its row open (R333). -/
def openRow (c : Nat) (x : Loc) (s : State) : State :=
  updChan c (fun k => { k with rows := put none k.rows (bankKey x) (some (BitVec.ofNat 18 x.row)) }) s

/-! ## Queued work (R346) -/

def startJob (c : Nat) (s : State) : State :=
  updChan c (fun k =>
    match k.job, k.jobs with
    | none, j :: r => { k with job := some j, jobs := r, sweep := 0, st := if j = .resilver then 5 else 3 }
    | none, [] => { k with st := if k.st = 3 || k.st = 5 then 2 else k.st }
    | some _, _ => k) s

def queueJob (c : Nat) (j : ChanJob) (s : State) : State :=
  startJob c (updChan c (fun k => { k with jobs := k.jobs ++ [j] }) s)

def endJob (c : Nat) (s : State) : State := startJob c (updChan c (fun k => { k with job := none }) s)

/-- The work is under way or queued. -/
def hasJob (k : Chan) (j : ChanJob) : Bool := k.job = some j || k.jobs.contains j

/-- The work that rewrites or copies the channel's lines in order has its pointer at the location, so that a request for it
waits (R343, R345). -/
def atPointer (s : State) (c : Nat) (x : Loc) : Bool :=
  let k := chan s c
  (match k.job with
   | some (.pairing r) => BitVec.ofNat 4 x.rank = r || BitVec.ofNat 4 x.rank = r ^^^ 1
   | some (.rankCopy r) => BitVec.ofNat 4 x.rank = r
   | some .resilver => true
   | _ => false) && x.ca / 64 = k.sweep.toNat

/-- Rank sparing of a rank, once per channel, when there is a spare (R345). -/
def spareRankOf (c : Nat) (r : BitVec 4) (s : State) : State :=
  let k := chan s c
  let busy := (k.job.toList ++ k.jobs).any (fun j => match j with | .rankCopy _ => true | _ => false)
  if !k.spareRank || k.spareUsed || busy then s else queueJob c (.rankCopy r) s

/-- A device of a rank is marked: paired where it can be, else rank sparing (R343). -/
def markDevice (c : Nat) (r : BitVec 4) (dev : BitVec 6) (s : State) : State :=
  let k := chan s c
  let s := updChan c (fun k => { k with
    devMarked := setBit k.devMarked r.toNat true
    marked := if k.marked.contains (r, dev) then k.marked else k.marked ++ [(r, dev)] }) s
  let paired := k.paired.getLsbD r.toNat
  if k.eccMode = 1 && !paired && !hasJob k (.pairing r) && !hasJob k (.pairing (r ^^^ 1)) then queueJob c (.pairing r) s
  else spareRankOf c r s

/-- Soft repair of the row that holds a line: one per bank group of a rank (R344). -/
def softRepair (c : Nat) (l : BitVec 42) (s : State) : State :=
  match locOfLine s l with
  | none => s
  | some x =>
    let k := chan s c
    let key := (BitVec.ofNat 4 x.rank, BitVec.ofNat 2 x.bg)
    if k.pprUsed.contains key || hasJob k (.softPpr l) then s
    else queueJob c (.softPpr l) (updChan c (fun k => { k with pprUsed := k.pprUsed ++ [key] }) s)

/-! ## Retirement (R348) -/

/-- Lines whose channel is `c` with no live mate. -/
def onDeadChan (s : State) (c : Nat) (l : BitVec 42) : Bool :=
  match locOfLine s l with
  | none => false
  | some x => (x.chan = c || (x.mirror && x.chan + 1 = c)) && !locServed s x

/-- A channel is retired: its requests fail, its cached lines go, each dirty one counted and treated as newly
poisoned; the mate of a mirrored pair serves alone. -/
def retireChan (c : Nat) (cause : Nat) (s : State) : State :=
  if retired s c || (chan s c).st = 0 then s else
  let s := updChan c (fun k => { k with st := 4, job := none, jobs := [], rows := [], solo := false }) s
  let m := mateOf c
  let s := if inMirror s c && !retired s m then updChan m (fun k => { k with solo := true }) s else s
  let dead := onDeadChan s c
  let dirty := s.old.filter (fun e => dead (BitVec.ofNat 42 e.1))
  let s := settleHomes (dropCopiesIf dead s)
  let s := forEach dirty (fun e acc =>
    let l := BitVec.ofNat 42 e.1
    poisonLine l (lineWhere acc l)
      (updChan c (fun k => { k with wbLost := satInc k.wbLost }) (discardLine l acc))) s
  let s := setReady (fun r => { r with ch := setBit r.ch c false }) s
  let s := wrightEvent 7 (BitVec.ofNat 64 c) (BitVec.ofNat 64 cause) s
  let s := forEach (partsOnChan s c) (fun p acc => notice p 6 (at' (BitVec.ofNat 4 c) 0 ||| atB true 8) acc) s
  settleMode s

/-- Capacity of a channel in GiB; rank sparing keeps one rank out (R336). -/
def chanGib (s : State) (c : Nat) : Nat :=
  let d := dimms s c
  if (chan s c).spareRank then popGib d - popGib d / logicalRanks d else popGib d

/-- A channel that fails training: retired, and an unmirrored region is rebuilt over the rest (R347). -/
def failTraining (c : Nat) (s : State) : State :=
  let gib := chanGib s c
  let s := if inMirror s c then s else { s with
    region := editAll Region.reset (fun _ r =>
      if r.v && r.chans.getLsbD c then
        let ch := setBit r.chans c false
        if ch = 0 then Region.reset else { r with chans := ch, size := r.size - BitVec.ofNat 14 gib }
      else r) s.region }
  retireChan c 0 s

/-! ## What a read finds (R342) -/

def hourNs : Nat := 3600000000000

/-- Entries of the corrected-error history within the last hour of TIME. -/
def lastHour (s : State) (k : Chan) : List (BitVec 4 × BitVec 6 × BitVec 42 × Word) :=
  k.ceLog.filter (fun e => decide (s.time.now.toNat - e.2.2.2.toNat ≤ hourNs))

/-- A corrected error counts against its device, rank and row (R342 to R345). -/
def correctedAt (c : Nat) (x : Loc) (l : BitVec 42) (dev : BitVec 6) (patrol : Bool) (s : State) : State :=
  let r := BitVec.ofNat 4 x.rank
  let s := updChan c (fun k => { k with ce := satInc k.ce, ceLog := k.ceLog ++ [(r, dev, l, s.time.now)] }) s
  let s := noteError c x l dev false patrol s
  let k := chan s c
  let h := lastHour s k
  let sameRow := fun (m : BitVec 42) => match locOfLine s m with
    | some y => y.chan = x.chan && y.rank = x.rank && y.bg = x.bg && y.ba = x.ba && y.row = x.row
    | none => false
  let rowLines := ((k.ceLog.map (fun e => e.2.2.1)).filter sameRow).dedup
  let s := if k.devThresh.toNat < (h.filter (fun e => e.1 = r && e.2.1 = dev)).length && !k.marked.contains (r, dev)
    then markDevice c r dev s else s
  let s := if k.rankThresh.toNat < (h.filter (fun e => e.1 = r)).length then spareRankOf c r s else s
  if k.pprEn && k.rowThresh.toNat ≤ rowLines.length then softRepair c l s else s

/-- An uncorrectable demand read with no good copy: poison in place, the events, the counts, and retirement past 16
in one second of an unmirrored channel (R342, R348). -/
def uncorrectableAt (c : Nat) (x : Loc) (l : BitVec 42) (dev : BitVec 6) (patrol : Bool) (s : State) : State :=
  let s := updChan c (fun k => { k with ue := satInc k.ue, ueLog := k.ueLog ++ [s.time.now] }) s
  let s := noteError c x l dev true patrol s
  let s := if isPoisoned s l then s else
    let s := setPoison l true s
    match partOfAddr s (lineAddr l) with
    | some p => partEvent p 8 0 (at' (lineAddr l) 0) s
    | none => s
  let k := chan s c
  let recent := k.ueLog.filter (fun t => decide (s.time.now.toNat - t.toNat < 1000000000))
  let s := if k.pprEn then softRepair c l s else s
  if !x.mirror && 16 < recent.length then retireChan c 3 s else s

/-- What one read of a line on channel `c` finds: on the odd channel of a pair whose even channel serves, it is the fallback
of R340. An uncorrectable error begins the repair of its row, with a good copy too (R344). DESIGN CHOICE (log entry 41). -/
def readFinds (c : Nat) (x : Loc) (l : BitVec 42) (found : DramFind) (patrol : Bool) (s : State) : State :=
  let mateUp := x.mirror && serves s (mateOf c)
  match found with
  | .clean =>
    if mateUp && c ≠ x.chan then updChan x.chan (fun k => { k with ce := satInc k.ce }) s else s
  | .corrected dev =>
    let s := correctedAt c x l dev patrol s
    if mateUp && c ≠ x.chan then updChan x.chan (fun k => { k with ce := satInc k.ce }) s else s
  | .uncorrectable dev =>
    if mateUp && c = x.chan then (if (chan s c).pprEn then softRepair c l s else s)
    else uncorrectableAt (if mateUp then x.chan else c) x l dev patrol s

/-- The poison pattern is read: it is returned poisoned with no event to a partition, and MC_ELOG and the error log name the
line (R341, R342). DEVICE is a free value: no device is at fault. DESIGN CHOICE (log entry 41). -/
def poisonPattern (c : Nat) (x : Loc) (l : BitVec 42) (patrol : Bool) (s : State) : State :=
  noteError c x l ((Config.freeByte s.fresh).setWidth 6) false patrol { s with fresh := s.fresh + 1 }

/-- The bank of the location is held by a soft repair (R344). -/
def bankHeld (s : State) (c : Nat) (x : Loc) : Bool :=
  match (chan s c).job with
  | some (.softPpr l) => (match locOfLine s l with
    | some y => bankKey y = bankKey x
    | none => false)
  | _ => false

/-- The location is on this channel. -/
def onChan (x : Loc) (c : Nat) : Bool := x.chan = c || (x.mirror && x.chan + 1 = c)

/-- What a peek finds is recorded nowhere yet (R130, R334): a corrected error goes with the shim entries that wait for the
line, and is recorded when one is confirmed; an uncorrectable one without a good copy comes back poisoned. -/
def peekFinds (c : Nat) (x : Loc) (l : BitVec 42) (found : DramFind) (s : State) : State :=
  let put := fun (f : ShimE → ShimE) => { s with core := editAll Core.reset (fun _ (k : Core) =>
    { k with shim := k.shim.map (fun e => if e.line = l && e.walk.isNone && !e.filled then f e else e) }) s.core }
  let note := fun (d : BitVec 42 × Fin 16 × BitVec 6) (s : State) => { s with core := editAll Core.reset (fun _ (k : Core) =>
    { k with walks := k.walks.map (fun w => if w.await = some l then { w with found := d :: w.found } else w) }) s.core }
  match found with
  | .clean => s
  | .corrected dev => if h : c < 16 then note (l, ⟨c, h⟩, dev) (put (fun e => { e with found := (l, ⟨c, h⟩, dev) :: e.found })) else s
  | .uncorrectable _ =>
    if x.mirror && serves s (mateOf c) && c = x.chan then s else put (fun e => { e with poison := true })

/-- DRAM_READ: a read leaves the crossing FIFO and is served (R333 to R335, R340, R342). A peek leaves the bank as it
found it, waits where another row is open, and what it finds is not recorded yet (R130). A bank held by a soft repair and the
pointer of a sweep let it wait (R343, R344). The poison pattern is returned with no new event (R341).
DESIGN CHOICE (log entry 41). -/
def execDramRead (c : Fin 16) (line : BitVec 42) (found : DramFind) (peek : Bool) (s : State) : Result :=
  through (.ddr c) false 64 (.dramRead c line found peek) (fun s =>
  match locOfLine s line with
    | none => .next s
    | some x =>
      if !onChan x c.val || !chanReads s c.val || bankHeld s c.val x || atPointer s c.val x then .next s else
      let row := look none (chan s c.val).rows (bankKey x)
      let other : Bool := match row with | some r => r ≠ BitVec.ofNat 18 x.row | none => false
      if peek && other then .next s else
      let s := countBytes (10 + 2 * c.val) 64 (if peek then s else openRow c.val x s)
      let inDram : Bool := match look none s.old line.toNat with | some v => v.2 | none => isPoisoned s line
      if peek then .next (peekFinds c.val x line found s)
      else if inDram && found = .clean then .next (poisonPattern c.val x line false s) else .next (readFinds c.val x line found false s)) s

/-- DRAM_WRITE: a write to a line completes in DRAM, on both channels of a pair; a write queued on a retired channel
is discarded and counted (R335, R341, R348). -/
def execDramWrite (c : Fin 16) (line : BitVec 42) (data : BitVec 512) (poison : Bool) (s : State) : Result :=
  through (.ddr c) false 64 (.dramWrite c line data poison) (fun s =>
  match locOfLine s line with
    | none => .next s
    | some x =>
      if !onChan x c.val then .next s
      else if retired s c.val then .next (updChan c.val (fun k => { k with wbLost := satInc k.wbLost }) s)
      else if !chanLive s c.val || bankHeld s c.val x || atPointer s c.val x then .next s
      else
        let s := countBytes (11 + 2 * c.val) 64 (openRow c.val x s)
        if isDirty s line then
          if data = lineData s line && poison = isPoisoned s line then .next (cleanLine line s)
          else .next { s with old := put none s.old line.toNat (some (data, poison)) }
        else .next (setPoison line poison (writeLineData line data s))) s

/-- ROW_IDLE_CLOSE: 64 idle controller cycles close an open row (R333). -/
def execRowIdleClose (c : Fin 16) (rank : BitVec 4) (bg ba : BitVec 2) (s : State) : Result :=
  let key := rank.toNat * 16 + bg.toNat * 4 + ba.toNat
  .next (updChan c.val (fun k => { k with rows := put none k.rows key none }) s)

/-- REFRESH: every row of the channel is closed and refreshed (R333, JESD79-4), also in FENCED (R352). -/
def execRefresh (c : Fin 16) (s : State) : Result :=
  let st := (chan s c.val).st
  if (st = 2 || st = 3 || st = 5) && !s.pw.clkDdr.getLsbD c.val then
    .next (updChan c.val (fun k => { k with rows := [] }) s)
  else .next s

/-- Next line of the patrol, wrapping at the channel's capacity (R351). -/
def patrolNext (s : State) (c : Nat) : BitVec 42 :=
  let n := chanGib s c * 2 ^ 24
  let p := (chan s c).patrolPtr.toNat + 1
  BitVec.ofNat 42 (if n ≤ p then 0 else p)

/-- The even rate of the patrol allows its next read: SCRUB_HOURS of TIME, spread over the lines of the channel (R351). -/
def patrolDue (s : State) (c : Nat) : Bool :=
  let k := chan s c
  decide (k.scrubHours.toNat * hourNs ≤ (s.time.now.toNat - k.patrolT.toNat) * (chanGib s c * 2 ^ 24))

/-- The patrol finds a line uncorrectable, in both copies of a pair: where it is held dirty only the log is written (R342). -/
def patrolBad (c : Nat) (x : Loc) (l : BitVec 42) (dev : BitVec 6) (s : State) : State :=
  if isDirty s l then noteError c x l dev true true (updChan c (fun k => { k with masked := satInc k.masked }) s)
  else uncorrectableAt c x l dev true s

/-- The patrol finds one copy of a mirrored pair uncorrectable: the other copy is read; a good one is written back and
counted on the even channel (R340, R342, R344). -/
def patrolMate (c : Nat) (x : Loc) (l : BitVec 42) (mate : DramFind) (s : State) : State :=
  let s := if (chan s c).pprEn then softRepair c l s else s
  let counted := fun (s : State) => updChan x.chan (fun k => { k with ce := satInc k.ce }) s
  match mate with
  | .clean => counted s
  | .corrected dev => counted (correctedAt (mateOf c) x l dev true s)
  | .uncorrectable dev => patrolBad x.chan x l dev s

/-- The patrol's line stands in a bank held by a soft repair, or at the pointer of a sweep: its read waits (R343, R344). -/
def patrolWaits (s : State) (c : Nat) : Bool :=
  match (paOfChan s c ((chan s c).patrolPtr.toNat * 64)).bind (locOf s) with
  | some x => bankHeld s c x || atPointer s c x
  | none => false

/-- PATROL_SCRUB: one line is read; an uncorrectable find on a line held dirty is only logged; its
row stays open (R333, R342, R351). On a mirrored pair the other copy is then read, and `mate` is what it gives (R340). -/
def execPatrolScrub (c : Fin 16) (found mate : DramFind) (s : State) : Result :=
  let k := chan s c.val
  if !k.scrubEn || !chanReads s c.val || !patrolDue s c.val || patrolWaits s c.val then .next s else
  let ca := k.patrolPtr.toNat * 64
  let s := countBytes (10 + 2 * c.val) 64 (updChan c.val (fun k => { k with
    patrolPtr := patrolNext s c.val, patrolT := s.time.now }) s)
  match paOfChan s c.val ca with
  | none => .next s
  | some pa =>
    let l : BitVec 42 := BitVec.ofNat 42 (pa / 64)
    match locOfLine s l with
    | none => .next s
    | some x =>
      let s := openRow c.val x s
      match found with
      | .uncorrectable dev =>
        if x.mirror && serves s (mateOf c.val) then .next (patrolMate c.val x l mate s)
        else .next (patrolBad c.val x l dev s)
      | .corrected dev => .next (correctedAt c.val x l dev true s)
      | .clean =>
        let inDram : Bool := match look none s.old l.toNat with | some v => v.2 | none => isPoisoned s l
        .next (if inDram then poisonPattern c.val x l true s else s)

/-- CA_PARITY_ALERT: the command, for a line, is retried up to 4 times; a fifth failure retires the channel (R342, R348). -/
def execCaParityAlert (c : Fin 16) (line : BitVec 42) (retries : Fin 6) (s : State) : Result :=
  if !chanLive s c.val then .next s else
  let s := updChan c.val (fun k => { k with ce := satInc k.ce }) s
  let s := match locOfLine s line with
    | some x => noteError c.val x line ((Config.freeByte s.fresh).setWidth 6) false false { s with fresh := s.fresh + 1 }
    | none => s
  .next (if 4 < retries.val then retireChan c.val 2 s else s)

/-- A sweep or copy has done the lines below `upTo`, and its reads have found what the list names (R342, R343, R345, R349).
True once every line of the channel is done. DESIGN CHOICE (log entry 106). -/
def sweepTo (c : Nat) (upTo : BitVec 42) (found : List (BitVec 42 × DramFind)) (s : State) : Bool × State :=
  let s := updChan c (fun k => { k with sweep := if k.sweep.toNat < upTo.toNat then upTo else k.sweep }) s
  let s := forEach found (fun f acc => match locOfLine acc f.1 with
    | some x => if onChan x c || (x.mirror && x.chan = mateOf c) then readFinds c x f.1 f.2 false acc else acc
    | none => acc) s
  (chanGib s c * 2 ^ 24 ≤ upTo.toNat, s)

/-- PAIRING_SWEEP_DONE: the sweep has rewritten the lines below `upTo`; with the last of them both ranks are held in paired
form (R343). -/
def execPairingSweepDone (c : Fin 16) (upTo : BitVec 42) (found : List (BitVec 42 × DramFind)) (s : State) : Result :=
  match (chan s c.val).job with
  | some (.pairing r) =>
    let q := sweepTo c.val upTo found s
    .next (if q.1 && (chan q.2 c.val).job = some (.pairing r) then
      endJob c.val (updChan c.val (fun k => { k with
        paired := setBit (setBit k.paired r.toNat true) (r ^^^ 1).toNat true }) q.2) else q.2)
  | _ => .next s

/-- SOFT_PPR_DONE: the row is repaired; the Wright records it for a hard repair (R344, R472). -/
def execSoftPprDone (c : Fin 16) (s : State) : Result :=
  match (chan s c.val).job with
  | some (.softPpr l) =>
    let rank := match locOfLine s l with | some x => BitVec.ofNat 4 x.rank | none => 0
    let s := updChan c.val (fun k => { k with sppr := satInc k.sppr }) s
    let s := if s.wr.store.repairs.length < 61440 then
        updWr (fun w => { w with
          store := { w.store with repairs := w.store.repairs ++ [(BitVec.ofNat 4 c.val, rank, l, true)] } }) s
      else wrightEvent 6 (at' (lineAddr l) 0) (mcElog (chan s c.val) ||| at' (BitVec.ofNat 4 c.val) 60) s
    .next (endJob c.val s)
  | _ => .next s

/-- RANK_SPARE_COPY_DONE: the copy has done the lines below `upTo`; with the last of them the spare takes the failed
rank's index (R345). -/
def execRankSpareCopyDone (c : Fin 16) (upTo : BitVec 42) (found : List (BitVec 42 × DramFind)) (s : State) : Result :=
  match (chan s c.val).job with
  | some (.rankCopy r) =>
    let q := sweepTo c.val upTo found s
    .next (if q.1 && (chan q.2 c.val).job = some (.rankCopy r) then
      endJob c.val (updChan c.val (fun k => { k with sparedRank := r, spareUsed := true }) q.2) else q.2)
  | _ => .next s

/-- The data rate of every populated channel: the lowest rating or population limit, coded as MC_STAT.SPEED (R331). -/
def dataRate (s : State) : BitVec 3 :=
  BitVec.ofNat 3 ((s.dimms.filter (fun e => popFits e.2)).foldl (fun m e =>
    Nat.min m (Nat.min (popSpeed e.2) (if dimmCount e.2 = 2 then 3 else 4))) 4)

/-- CHANNEL_TRAINED: a training channel is ready, its pending hard repairs made (R344, R347). -/
def execChannelTrained (c : Fin 16) (s : State) : Result :=
  if (chan s c.val).st ≠ 1 then .next s else
  let s := updChan c.val (fun k => { k with st := 2, speed := dataRate s, powered := true }) s
  let made := fun (e : BitVec 4 × BitVec 4 × BitVec 42 × Bool) =>
    if e.1.toNat = c.val then (e.1, e.2.1, e.2.2.1, false) else e
  let s := updWr (fun w => { w with store := { w.store with repairs := w.store.repairs.map made } }) s
  .next (setReady (fun r => { r with ch := setBit r.ch c.val true }) s)

def execChannelTrainingFail (c : Fin 16) (s : State) : Result :=
  if (chan s c.val).st ≠ 1 then .next s
  else .next (settleMode (failTraining c.val s))

/-- PHY_RELOCK_TIMEOUT: 1 ms has passed with no lock (R57, R348). DESIGN CHOICE (log entry 43). -/
def execPhyRelockTimeout (c : Fin 16) (s : State) : Result :=
  if (chan s c.val).st = 0 then .next s else .next (retireChan c.val 1 s)

/-- RESILVER_DONE: the lines below `upTo` are copied from the mate; with the last of them the pair serves together again
(R349, R441). -/
def execResilverDone (c : Fin 16) (upTo : BitVec 42) (found : List (BitVec 42 × DramFind)) (s : State) : Result :=
  let k := chan s c.val
  if k.st ≠ 5 || k.job ≠ some .resilver then .next s else
  let q := sweepTo c.val upTo found s
  if !q.1 || (chan q.2 c.val).job ≠ some .resilver then .next q.2 else
  let s := endJob c.val q.2
  let s := updChan (mateOf c.val) (fun k => { k with solo := false }) s
  let s := setReady (fun r => { r with ch := setBit r.ch c.val true }) s
  let s := forEach (partsOnChan s c.val) (fun p acc => notice p 6 (at' (BitVec.ofNat 4 c.val) 0) acc) s
  .next (settleMode s)

/-- A retired channel of a mirrored pair retrains (R349): resilvering follows. -/
def beginResilver (c : Nat) (s : State) : State :=
  updChan c (fun k => { k with st := 5, job := some .resilver, sweep := 0, speed := dataRate s, powered := true }) s

end Sys2Proof.Machine
end

