-- ==== Sys2Proof/Machine/Windows.lean ====
section
/-! DEFINITION. Host accesses through the endpoint and the ring windows (R359 to R365, R373, R407), mailbox pages and
doorbells from each of their writers (R374, R419, R420). -/
namespace Sys2Proof.Machine

/-! ## Instance pages (R381) -/

def instStatWord (i : Nat) (x : Inst) : Word :=
  at' (BitVec.ofNat 8 i) 0 ||| at' x.st 8 ||| atB (x.st = 2) 10 ||| at' x.unmapped 16 ||| at' x.vcMisuse 32 ||| at' x.poisoned 48

/-- INST_QMAP_j. -/
def qmapHalf (x : Inst) (j : Nat) : BitVec 16 :=
  match look none x.qmap j with
  | some q => BitVec.ofNat 10 q.val |>.setWidth 16 |>.or 0x8000
  | none => 0

/-- A doubleword of an instance page. -/
def pageReg (s : State) (i off : Nat) : Word :=
  let x := inst s i
  if off = 0 then instStatWord i x
  else if off = 8 then at' x.vecBase 0 ||| at' x.vecCount 16
  else if 0x40 ≤ off && off < 0xC0 then
    match look none x.dma ((off - 0x40) / 0x10) with
    | none => 0
    | some (lo, hi) => if off % 0x10 = 0 then atB true 0 ||| at' lo 12 else at' hi 12
  else if 0x100 ≤ off && off < 0x180 then
    let e := look (0, 0) x.resPoison ((off - 0x100) / 8)
    at' e.1 0 ||| at' e.2 32
  else if 0x800 ≤ off && off < 0xA00 then
    let j := (off - 0x800) / 2
    at' (qmapHalf x j) 0 ||| at' (qmapHalf x (j + 1)) 16 ||| at' (qmapHalf x (j + 2)) 32 ||| at' (qmapHalf x (j + 3)) 48
  else if 0x2000 ≤ off && off < 0x4000 then
    match look none x.qmap ((off - 0x2000) / 0x20) with
    | none => 0
    | some q =>
      let k := off % 0x20 / 8
      queueReg s q.val (if k = 0 then 3 else if k = 1 then 4 else if k = 2 then 5 else 0)
  else 0

/-! ## Reads of a window (R359, R364, R373) -/

/-- First window offset of the instance pages (R364). -/
def pagesBase : Nat := 0x3000000

def inMailbox7 (o : Nat) : Bool := (0x17000 ≤ o && o < 0x18000) || (0x18038 ≤ o && o < 0x18040)

/-- Reads that VC1 takes. -/
def vc1Reads (o : Nat) : Bool :=
  inMailbox7 o || (0x40 ≤ o && o < 0x48) ||
    (pagesBase ≤ o && 0x2000 ≤ (o - pagesBase) % 0x10000 && (o - pagesBase) % 0x10000 < 0x4000)

/-- What a fenced device's endpoint still serves (R44). DEDUCED (log entry 57). -/
def fencedServes (o : Nat) : Bool :=
  o < 0x10 || (0x40 ≤ o && o < 0x48) || (0x400 ≤ o && o < 0x440) || (0x10000 ≤ o && o < 0x18040)

/-- The doubleword at a window offset of this device. -/
def windowWord (s : State) (o : Nat) : Word :=
  if o < pagesBase then barWord s (o / 8 * 8) else pageReg s ((o - pagesBase) / 0x10000) ((o - pagesBase) % 0x10000 / 8 * 8)

/-- A read of `n` bytes at a window offset of this device: none is Unsupported Request; an access of a size no register
takes reads 0. -/
def windowValue (s : State) (o n : Nat) (vc1 : Bool) : Option (List Byte) :=
  if s.pw.fence = .done && !fencedServes o then none
  else if vc1 && !vc1Reads o then none
  else if (n ≠ 4 && n ≠ 8) || o % n ≠ 0 then some (List.replicate n 0)
  else some (bytesOf n (windowWord s o >>> (8 * (o % 8))))

/-! ## Writes of a window (R359, R360, R373, R377) -/

/-- Cut bytes at multiples of `unit`: each piece with its offset. -/
def cutAt (unit : Nat) : Nat → Nat → List Byte → List (Nat × List Byte)
  | 0, _, _ => []
  | fuel + 1, o, l =>
    if l = [] then [] else
    let k := unit - o % unit
    (o, l.take k) :: cutAt unit fuel (o + k) (l.drop k)

/-- The doorbells and inline addresses of the instance pages. -/
def isDoorbell (o : Nat) : Bool :=
  pagesBase ≤ o && 0x1000 ≤ (o - pagesBase) % 0x10000 && (o - pagesBase) % 0x10000 < 0x1800
def isInlineAddr (o : Nat) : Bool :=
  pagesBase ≤ o && 0x4000 ≤ (o - pagesBase) % 0x10000 && (o - pagesBase) % 0x10000 < 0x8000
def isBoxPage (o : Nat) : Bool := 0x10000 ≤ o && o < 0x18000

/-- Writes that VC1 takes, the slot's class apart. -/
def vc1Writes (o : Nat) : Bool := inMailbox7 o || isDoorbell o || isInlineAddr o

/-- Count a posted write that its VC may not make. -/
def countMisuse (o : Nat) (s : State) : State :=
  if o < pagesBase then updEp (fun e => { e with vcMisuse := satInc e.vcMisuse }) s
  else updInst ((o - pagesBase) / 0x10000) (fun x => { x with vcMisuse := satInc x.vcMisuse }) s

/-- The write stands on a channel that may not make it (R373). -/
def vcWrong (s : State) (o : Nat) (vc1 : Bool) : Bool :=
  if vc1 then !vc1Writes o else s.ep.cfg.vc1En && inMailbox7 o

/-- A ringing write of a host or management mailbox. While VC1 is off, every command rung on mailbox 7 is answered
STATE (R374). -/
def ringHost (m : Mbox) (v : Word) (vc1 : Bool) (s : State) : State := ringBox m v (m = .host 7 && !vc1) s

/-- A doorbell of BAR0: only a whole write rings. -/
def doorbellWrite (m : Mbox) (v : Word) (eight vc1 : Bool) (s : State) : State :=
  if eight then ringHost m v vc1 s else updBox m (fun b => { b with refused := satInc b.refused }) s

/-- One piece of a write, within 64 aligned bytes, at a window offset of this device. `whole` is the length of the write
it came from, `frozen` says that the endpoint it entered by is frozen. -/
def pieceWrite (o : Nat) (l : List Byte) (whole : Nat) (vc1 frozen : Bool) (s : State) : State :=
  let n := l.length
  if vcWrong s o vc1 then countMisuse o s
  else if o < pagesBase then
    if isBoxPage o then writeBoxPage (hostBox ((o - 0x10000) / 0x1000)) (o % 0x1000) l s
    else if 0x18000 ≤ o && o < 0x18040 then
      doorbellWrite (hostBox ((o - 0x18000) / 8)) (wordOf l) (n = 8 && o % 8 = 0) vc1 s
    else if (whole ≠ 4 && whole ≠ 8) || n ≠ whole || o % n ≠ 0 || s.pw.fence = .done then s
    else if frozen && o / 8 * 8 ≠ 0x808 && o / 8 * 8 ≠ 0x810 then s
    else hostRegWrite (o / 8 * 8) (wordOf l <<< (8 * (o % 8))) (laneMask (o % 8) n) s
  else
    if s.pw.fence = .done then s else
    let i := (o - pagesBase) / 0x10000
    let off := (o - pagesBase) % 0x10000
    if h : i < 256 then
      if isDoorbell o then
        forEach (cutAt 8 9 off l) (fun p acc => pageWrite ⟨i, h⟩ ((p.1 - 0x1000) / 8) vc1
          (fun q => ringQueue q i (wordOf p.2) (p.2.length = 8) frozen) acc) s
      else if isInlineAddr o then
        pageWrite ⟨i, h⟩ ((off - 0x4000) / 0x40) vc1
          (fun q => inlineQueue q i (BitVec.ofNat 512 (natOfBytes l)) (n = 64) frozen) s
      else if off = 0 && (whole = 4 || whole = 8) && n = whole && bit (wordOf l) 10 && !frozen then resetInst i s
      else s
    else s

/-- A posted write at a window offset of this device: bytes in rising order of address (R360). -/
def windowStore (o : Nat) (l : List Byte) (vc1 frozen : Bool) (s : State) : State :=
  forEach (cutAt 64 (l.length + 1) o l) (fun p acc => pieceWrite p.1 p.2 l.length vc1 frozen acc) s

/-! ## Host windows (R364, R365, R407) -/

/-- Complete a read with every byte 0xFF, and count it. -/
def readOnes (n : Nat) (s : State) : State :=
  complete true (List.replicate n 0xFF) (updEp (fun e => { e with rdOnes := satInc e.rdOnes }) (countBytes 1 n s))

/-- Complete a read as Unsupported Request; AER records the request (R375). -/
def readRefused (s : State) : State := complete false [] (recordAer 20 s)

def dropWrite (s : State) : State := updEp (fun e => { e with wrDrop := satInc e.wrDrop }) s

/-- The answer to a read of this device's own registers. -/
def readHere (o n : Nat) (vc1 : Bool) (s : State) : State :=
  match windowValue s o n vc1 with
  | none => readRefused s
  | some l => complete true l (countBytes 1 n s)

/-- Class of a forwarded host access (R400). -/
def hostClass (vc1 : Bool) : BitVec 2 := if vc1 then 0 else 1

/-- H_RD toward a ring position. -/
def sendHRd (n : Fin 64) (o : BitVec 26) (len : Nat) (vc1 : Bool) (s : State) : State :=
  let dst := devOf (myFrame s) n.val
  let tg := takeTag s
  let q : RReq := { op := 0x08, tag := tg.1, dst := dst, addr := o.setWidth 64, port := .W, thr := none, entry := none
                    left := len }
  match sendReq (hostClass vc1) (.msg 0x08 dst (deviceId s) 0 false tg.1 (o.setWidth 64) (List.replicate (Nat.min len 64) 0)) q tg.2 with
  | none => readOnes len (countUnreach s)
  | some s => updEp (fun e => { e with winReads := e.winReads ++ [WinRead.mk tg.1 n o len s.time.now] }) s

/-- H_WR toward a ring position; STATUS 1 marks one that entered through a frozen endpoint. -/
def sendHWr (n : Fin 64) (o : Nat) (l : List Byte) (vc1 frozen : Bool) (s : State) : State :=
  let dst := devOf (myFrame s) n.val
  let tg := takeTag s
  let a : BitVec 64 := BitVec.ofNat 64 o
  let q : RReq := { op := 0x09, tag := tg.1, dst := dst, addr := a, port := .W, thr := none, entry := none, left := 0 }
  match sendReq (hostClass vc1) (.msg 0x09 dst (deviceId s) (if frozen then 1 else 0) false tg.1 a l) q tg.2 with
  | none => dropWrite (countUnreach s)
  | some s => s

/-- TIME and TIME_STATUS stand in the sill domain (R55, R61). -/
def inSill (o : Nat) : Bool := 0x80 ≤ o && o < 0x90

/-- A read of BAR2 served by this device's endpoint. -/
def windowReadHere (n : Fin 64) (off : BitVec 26) (len : Nat) (vc1 : Bool) (s : State) : Result :=
  if !hostServed s then .next s
  else if vc1 && !s.ep.cfg.vc1En then .next (freeze 1 s)
  else if vc1 && !vc1Reads off.toNat then .next (readRefused s)
  else if n.val = myPos s then .next (readHere off.toNat len vc1 s)
  else if s.pw.fence = .done then .next (readRefused s)
  else if !s.ep.ringPresent.getLsbD n.val then .next (readOnes len s)
  else .next (sendHRd n off len vc1 s)

/-- WINDOW_READ: a read of `len` bytes of BAR2 at offset `off` of window `n`; one of TIME passes the sill's crossing as
well. DEDUCED (log entry 56). -/
def execWindowRead (n : Fin 64) (off : BitVec 26) (len : Nat) (vc1 : Bool) (s : State) : Result :=
  let c : XWhat := .windowRead n off len vc1
  through .endpoint true len c (fun s =>
    if n.val = myPos s && inSill off.toNat then through .sill true 8 c (windowReadHere n off len vc1) s
    else windowReadHere n off len vc1 s) s

/-- WINDOW_WRITE: a posted write of BAR2 at offset `off` of window `n`. A register write of a size that no register
takes is discarded here. DEDUCED (log entry 56). -/
def execWindowWrite (n : Fin 64) (off : BitVec 26) (data : List Byte) (vc1 : Bool) (s : State) : Result :=
  through .endpoint true data.length (.windowWrite n off data vc1) (fun s =>
  let o := off.toNat
    if !hostServed s then .next s
    else if vc1 && !s.ep.cfg.vc1En then .next (freeze 1 s)
    else
      let s := countBytes 0 data.length s
      if s.pw.fence = .done then .next s
      else if vc1 && !vc1Writes o then .next (updEp (fun e => { e with vcMisuse := satInc e.vcMisuse }) s)
      else if n.val = myPos s then .next (windowStore o data vc1 s.ep.frozen s)
      else if !s.ep.ringPresent.getLsbD n.val then .next (dropWrite s)
      else if !(isBoxPage o || isDoorbell o || isInlineAddr o) && data.length ≠ 4 && data.length ≠ 8 then .next s
      else .next (forEach (cutAt 64 (data.length + 1) o data)
        (fun p acc => sendHWr n p.1 p.2 vc1 acc.ep.frozen acc) s)) s

/-- WINDOW_READ_TIMEOUT: 1 ms of TIME without an answer. -/
def execWindowReadTimeout (tag : BitVec 16) (s : State) : Result :=
  match s.ep.winReads.find? (fun w => w.tag = tag) with
  | none => .next s
  | some w =>
    if s.time.now.toNat < w.since.toNat + 1000000 then .next s else
    .next (readOnes w.len (closeReq (fun q => q.op = 0x08 && q.tag = tag)
      (updEp (fun e => { e with winReads := removeFirst (fun x => x.tag = tag) e.winReads }) s)))

/-- H_RD at its target: answered from this device's registers; a fenced device answers DOWN, and NO_ACCESS stands for
Unsupported Request. -/
def hostReadHere (m : RMsg) (s : State) : State :=
  let vc1 : Bool := vcClass m.flit.vc = 0
  if s.pw.fence = .done then answerMsg m 0x0A 2 false [] s else
  match windowValue s (m.addr.toNat % 2 ^ 26) m.data.length vc1 with
  | none => answerMsg m 0x0A 1 false [] s
  | some l => answerMsg m 0x0A 0 false l s

def execHRd (m : RMsg) (s : State) : Result :=
  through (.ridge m.flit.port) true (msgBytes m) (.message 0x08 m) (fun s =>
  .next (message 0x08 m hostReadHere s)) s

/-- H_WR at its target takes effect as at this device's own endpoint; a fenced device discards it. -/
def hostWriteHere (m : RMsg) (s : State) : State :=
  let vc1 : Bool := vcClass m.flit.vc = 0
  if s.pw.fence = .done then answerMsg m 0x0A 2 false [] s
  else answerMsg m 0x0A 0 false [] (windowStore (m.addr.toNat % 2 ^ 26) m.data vc1 (m.status = 1) s)

def execHWr (m : RMsg) (s : State) : Result :=
  through (.ridge m.flit.port) true (msgBytes m) (.message 0x09 m) (fun s =>
  .next (message 0x09 m hostWriteHere s)) s

/-- H_RSP at the head: the read completes, with all ones where the target did not answer from a register; a write that
the target discarded is counted. -/
def hostAnswer (m : RMsg) (s : State) : State :=
  let isIt := fun (q : RReq) => (q.op = 0x08 || q.op = 0x09) && q.tag = m.tag && q.dst = m.src
  match s.ridge.reqs.find? isIt with
  | none => s
  | some q =>
    let s := closeReq isIt s
    let s := if m.status = 3 then countUnreach s else s
    if q.op = 0x09 then (if m.status = 0 then s else dropWrite s)
    else match s.ep.winReads.find? (fun w => w.tag = m.tag) with
    | none => s
    | some w =>
      let s := updEp (fun e => { e with winReads := removeFirst (fun w => w.tag = m.tag) e.winReads }) s
      if m.status = 0 then complete true (padTo w.len m.data) (countBytes 1 w.len s)
      else if m.status = 1 then readRefused s
      else readOnes w.len s

def execHRsp (m : RMsg) (s : State) : Result :=
  through (.ridge m.flit.port) true (msgBytes m) (.message 0x0A m) (fun s =>
  .next (message 0x0A m hostAnswer s)) s

/-! ## Mailboxes (R419, R420) -/

/-- A host access to a mailbox reaches it. -/
def boxServed (s : State) (m : Mbox) : Bool :=
  match m with
  | .host _ => hostServed s
  | _ => s.pw.sillOn

/-- A host's access to a mailbox passes the endpoint's crossing, the board management controller's the sill's; device
software reaches it within the fabric (R55). -/
def throughBox (m : Mbox) (fabric : Bool) (bytes : Nat) (c : XWhat) (run : State → Result) (s : State) : Result :=
  match m with
  | .host _ => through .endpoint fabric bytes c run s
  | .dev _ => run s
  | _ => through .sill fabric bytes c run s

/-- Physical address in a device mailbox's page or of its doorbell, on the thread's own die (R418). -/
def devBoxAddr (t : Thr) (off : Nat) : BitVec 48 :=
  BitVec.ofNat 48 (0xF00010000000 + dieOfThr t * 0x2000000 + 0x1900000 + off)

/-- A thread's store reaches a register of its own die: it runs, and the checks of R38 and R39 let it through. -/
def threadReaches (s : State) (t : Thr) (pa : BitVec 48) : Bool :=
  mainOn s && (thr s t).run = .running && regionOk s t .store pa

/-- MAILBOX_PAGE_WRITE: bytes written to a page, by the host on a channel, over the management port, or by the thread `t`
of device software. -/
def execMailboxPageWrite (m : Mbox) (t : Thr) (off : BitVec 12) (data : List Byte) (vc1 : Bool) (s : State) : Result :=
  throughBox m true data.length (.mailboxPageWrite m t off data vc1) (fun s =>
  let l := data.take (4096 - off.toNat)
    if !boxServed s m then .next s else
    match m with
    | .host k =>
      let o := 0x10000 + 0x1000 * k.val + off.toNat
      if vc1 && !s.ep.cfg.vc1En then .next (freeze 1 s)
      else if vcWrong s o vc1 then .next (countMisuse o s)
      else .next (writeBoxPage m off.toNat l (countBytes 0 l.length s))
    | .dev k =>
      if threadReaches s t (devBoxAddr t (0x1000 * k.val + off.toNat)) then .next (writeBoxPage m off.toNat l s) else .next s
    | _ => .next (writeBoxPage m off.toNat l s)) s

/-- MBOX_DOORBELL: a write of MBOX_DB_m by the host, or of a management mailbox's doorbell over the management port. -/
def execMboxDoorbell (m : Mbox) (v : Word) (eight vc1 : Bool) (s : State) : Result :=
  throughBox m true 8 (.mboxDoorbell m v eight vc1) (fun s =>
  if !boxServed s m then .next s else
    match m with
    | .host k =>
      let o := 0x18000 + 8 * k.val
      let n := if eight then 8 else 4
      if vc1 && !s.ep.cfg.vc1En then .next (freeze 1 s)
      else if vcWrong s o vc1 then .next (countMisuse o s)
      else .next (doorbellWrite m v eight vc1 (countBytes 0 n s))
    | .dev _ => .next s
    | _ => .next (doorbellWrite m v eight vc1 s)) s

/-- Physical address of a device mailbox's doorbell, on the thread's own die (R418). -/
def devDoorbell (t : Thr) (m : Fin 16) : BitVec 48 := devBoxAddr t (0x10000 + 8 * m.val)

/-- DMBOX_DOORBELL: a store of a device thread to DMBOX_DB_m, which the checks of R38 and R39 let through. -/
def execDmboxDoorbell (t : Thr) (m : Fin 16) (v : Word) (eight : Bool) (s : State) : Result :=
  if !threadReaches s t (devDoorbell t m) then .next s
  else .next (deviceWrite t none (devDoorbell t m) (if eight then 8 else 4) v (thr s t).lostPending s).2

end Sys2Proof.Machine
end

