-- ==== Sys2Proof/Machine/Resets.lean ====
section
/-! DEFINITION. Resets (R17, R305, R460, R461), stopping every partition, and FENCE-SELF (R45). -/
namespace Sys2Proof.Machine

/-! ## Stopping (R45, R305) -/

/-- Every partition stops: its sources are DOWN in every table, solo mode ends, and no instruction retires. -/
def stopAll (s : State) : State :=
  forEach (List.range 8) (fun p acc =>
    let ts := threadsOf acc p
    let acc := markSources ((sourcesOf acc p).filter (fun x => (srcEnt acc x).isOpen)) false acc
    let acc := forEach (bitsOf (part acc p).bays) (fun b a =>
      forEach (List.range 4) (fun c a => endSolo (4 * b + c) a) a) acc
    forEach ts haltThread acc) s

/-- Items whose end is not decided. -/
def openItems (s : State) : List Nat :=
  (s.led.ent.filter (fun e => e.2.st ≠ .free && e.2.st ≠ .closing)).map (·.1)

/-- Every item whose end is not decided fails; then the records that can go are delivered. -/
def failAll (cause : BitVec 8) (s : State) : State :=
  deliverAll (forEach (openItems s) (fun e acc => endItem e true cause 0 acc) s)

/-- The leave sequence of every open pair starts (R410, R412). -/
def leaveAll (s : State) : State := beginLeave true (beginLeave false s)

/-! ## Reset (R17, R460) -/

/-- A bay's site map, spare and retired sites through a warm reset (R29, R30). -/
def keepBay (y : Bay) : Bay :=
  { Bay.reset with
    site0 := y.site0, site1 := y.site1, site2 := y.site2, site3 := y.site3, spare := y.spare, bad := y.bad
    retired := y.retired }

/-- The endpoint after a reset: PERST# is a pin, and the first bring-up after a COLD reset has its longer window. -/
def resetEndpoint (cold : Bool) (e : Endpoint) : Endpoint :=
  { Endpoint.reset with perst := e.perst, firstUp := cold || e.firstUp }

/-- The Wright after a reset: flash, fuses and the management port's registers stay; the error log and the mode history
are lost on a COLD reset only (R433, R434). The sill holds the management pages (R425). -/
def resetWright (cold : Bool) (w : Wright) : Wright :=
  let page := fun (b : MboxSt) => { MboxSt.reset with page := b.page }
  let boxes := (w.boxes.filter (fun e => e.1 = 8 || e.1 = 9)).map (fun e => (e.1, page e.2))
  { Wright.reset with
    boxes := boxes.filter (fun e => e.2 ≠ MboxSt.reset)
    log := if cold then [] else w.log
    logNext := if cold then 0 else w.logNext
    history := if cold then [] else w.history
    store := { w.store with active := none }
    mgmtOff := w.mgmtOff, i3cAddr := w.i3cAddr, badXfer := w.badXfer }

/-- Every field of RAIL_STAT_r returns to reset; what the comparators see, and that the rail has crossed, stay (R40,
R449). -/
def resetRail (r : RailSt) : RailSt := { RailSt.reset with crossed := r.crossed, below := r.below }

/-- A die after a reset: the sensors and comparators go on; RAIL_STAT's reading returns to reset. -/
def resetDie (d : Die) : Die :=
  { Die.reset with tj := d.tj, hot := d.hot, clearFrom := d.clearFrom, stalled := d.stalled }

/-- The reset value of IO_SLEW.MGMT follows the strap MGMT_I3C (17_electrical.md, IO_SLEW). -/
def slewMgmt (x : Straps) : BitVec 2 := if x.mgmtI3c then 1 else 0

def resetPower (cold : Bool) (p : Power) : Power :=
  { Power.reset with
    sillOn := p.sillOn, pwrgood := p.pwrgood, resetN := p.resetN, resetNAt := p.resetNAt, straps := p.straps
    thermtrip := p.thermtrip, braced := p.braced, mode := p.mode, modeChanges := p.modeChanges
    rails := editAll RailSt.reset (fun _ r => resetRail r) p.rails
    dies := editAll Die.reset (fun _ d => resetDie d) p.dies
    ioSpi := if cold then Power.reset.ioSpi else p.ioSpi
    ioMgmt := if cold then slewMgmt p.straps else p.ioMgmt
    ioAvs := if cold then Power.reset.ioAvs else p.ioAvs
    ioPmbus := if cold then Power.reset.ioPmbus else p.ioPmbus
    ioStatus := if cold then Power.reset.ioStatus else p.ioStatus
    ioTest := if cold then Power.reset.ioTest else p.ioTest
    clkSill := p.clkSill
    spareUsed := if cold then 0 else p.spareUsed }

/-- The main logic is reset, COLD or WARM: every unit, table, queue and register returns to its reset value but those the
kind of reset keeps; TIME runs on, free (R68). Memory contents are not relied on afterwards. DEDUCED (log entry 59). -/
def resetMain (cold : Bool) (s : State) : State :=
  let s := closePair true .idle (closePair false .idle s)
  settleMode { State.reset with
    pending := s.pending
    time := { s.time with alignedSince := false, source := 0, aligned := false }
    pw := resetPower cold s.pw
    bay := if cold then [] else editAll Bay.reset (fun _ y => keepBay y) s.bay
    srcs := if cold then [] else editAll SrcEnt.reset (fun _ e => { e with isOpen := false }) s.srcs
    eng := if cold then [] else editAll Engine.reset (fun _ e => { Engine.reset with onSpare := e.onSpare }) s.eng
    stale := if cold then 0 else s.stale
    downDrop := if cold then 0 else s.downDrop
    stray := if cold then 0 else s.stray
    queue := editAll Queue.reset (fun _ q => { Queue.reset with ai := q.ai, floor := q.floor }) s.queue
    dimms := s.dimms
    ep := resetEndpoint cold s.ep
    wr := resetWright cold s.wr
    out := s.out
    fresh := s.fresh }

/-- A COLD reset, with no flush. DEDUCED (log entry 59). -/
def coldReset (s : State) : State := if s.pw.sillOn then resetMain true s else s

/-- A warm reset begins with its flush (R305): doorbells are refused, every partition stops, every item whose end is not
decided fails, records go out, and the open pairs leave. -/
def beginFlush (s : State) : State :=
  if !mainOn s || s.pw.flush.isSome then s
  else leaveAll (failAll 0x0D (stopAll (updPw (fun p => { p with flush := some s.time.now }) s)))

/-- RESET_N_CHANGE: the pin changes level and its debounce counts from now. -/
def execResetNChange (level : Bool) (s : State) : Result :=
  if !s.pw.sillOn || s.pw.resetN = level then .next s
  else .next (updPw (fun p => { p with resetN := level, resetNAt := s.time.now }) s)

/-- The pin has stood at its level for 2 ms. -/
def debounced (s : State) : Bool := decide (s.pw.resetNAt.toNat + 2000000 ≤ s.time.now.toNat)

/-- RESET_N_DEBOUNCE: the pin has been low for 2 ms. -/
def execResetNDebounce (s : State) : Result :=
  if s.pw.resetN || !debounced s then .next s else .next (beginFlush s)

/-- WARM_RESET_EFFECT: every record has gone, or 1 ms of TIME has passed since the flush began. -/
def execWarmResetEffect (s : State) : Result :=
  match s.pw.flush with
  | none => .next s
  | some t =>
    if inflight s = 0 || decide (t.toNat + 1000000 ≤ s.time.now.toNat) then .next (resetMain false s) else .next s

/-- LEDGER_UE: the two copies of an entry are read, whatever its state. Both uncorrectable, the warm reset begins; each
corrected error is counted in LEDGER_STAT.CE (R300). DESIGN CHOICE (log entry 100). -/
def execLedgerUe (_e : Fin 65536) (a b : EccFind) (s : State) : Result :=
  if a = .double && b = .double then .next (beginFlush s)
  else
    let n := (if a = .single then 1 else 0) + (if b = .single then 1 else 0)
    .next (updLed (fun l => { l with ce := satAdd l.ce n }) s)

/-- PWRGOOD_DEASSERT: a COLD reset; THERMTRIP_N is released once every die reads below 110 °C (R453). -/
def execPwrgoodDeassert (s : State) : Result :=
  if !s.pw.sillOn || !s.pw.pwrgood then .next s
  else
    let cool := (List.range 5).all (fun d => decide ((die s d).tj.toInt < 880))
    .next (coldReset (updPw (fun p => { p with pwrgood := false, thermtrip := p.thermtrip && !cool }) s))

/-- Straps are latched while PWRGOOD is deasserted and never change while it is asserted (R508); IO_SLEW.MGMT, in reset
then, follows them. DESIGN CHOICE (log entry 3). -/
def latchStraps (pins : Straps) (s : State) : State :=
  updPw (fun p => { p with straps := pins, ioMgmt := slewMgmt pins }) s

/-- STRAP_LATCH: the sill samples the strap lands. -/
def execStrapLatch (pins : Straps) (s : State) : Result :=
  if !s.pw.sillOn || s.pw.pwrgood then .next s else .next (latchStraps pins s)

/-- PWRGOOD_ASSERT: the straps are latched again (R508). -/
def execPwrgoodAssert (pins : Straps) (s : State) : Result :=
  if !s.pw.sillOn || s.pw.pwrgood then .next s
  else .next (settleMode (updPw (fun p => { p with pwrgood := true }) (latchStraps pins s)))

/-- The block with its sill unpowered: everything is lost but the flash, the fuses and the DIMMs. -/
def sillReset (s : State) : State :=
  { State.reset with
    pending := s.pending, out := s.out, fresh := s.fresh, dimms := s.dimms
    pw := { Power.reset with sillOn := false, mode := 0, pwrgood := s.pw.pwrgood, resetN := s.pw.resetN }
    wr := { Wright.reset with store := { s.wr.store with active := none } }
    ep := { Endpoint.reset with perst := s.ep.perst } }

/-- SILL_POWER_LOSS: OFF. -/
def execSillPowerLoss (s : State) : Result := if s.pw.sillOn then .next (sillReset s) else .next s

/-- SILL_POWER_UP: TIME starts from 0 and the device enters STANDBY; the passage counts no change of mode (R43). -/
def execSillPowerUp (s : State) : Result :=
  if s.pw.sillOn then .next s
  else .next (settleMode { sillReset s with pw := { (sillReset s).pw with sillOn := true } })

/-! ## FENCE-SELF (R45, R436) -/

/-- Steps 1 to 4: the device is FENCED, every partition stops, every item fails, and records go out. -/
def beginFence (m : Mbox) (s : State) : State :=
  let now := s.time.now
  let s := settleMode (updPw (fun p => { p with fenced := true }) s)
  let n := (openItems s).length
  updPw (fun p => { p with fence := .delivering now n m }) (failAll 0x0C (stopAll s))

/-- Step 5: the open pairs leave and every scarf path closes; with nothing to leave, step 6 follows at once. -/
def endFence (tEffect : Word) (n : Nat) (m : Mbox) (s : State) : State :=
  let s := updPw (fun p => { p with fence := .leaving tEffect n m }) s
  fenceStep6 (closeUnopened true (closeUnopened false (leaveAll s)))

/-- FENCE_DELIVERY_DONE: step 4 has delivered every record. -/
def execFenceDeliveryDone (s : State) : Result :=
  match s.pw.fence with
  | .delivering t n m => if inflight s = 0 then .next (endFence t n m s) else .next s
  | _ => .next s

/-- FENCE_DELIVERY_TIMEOUT: 1 ms of TIME has passed in step 4. -/
def execFenceDeliveryTimeout (s : State) : Result :=
  match s.pw.fence with
  | .delivering t n m => if t.toNat + 1000000 ≤ s.time.now.toNat then .next (endFence t n m s) else .next s
  | _ => .next s

/-! ## Completion of a command (R421) -/

/-- COMMAND_COMPLETE: the answer is written, STATE becomes DONE, and completion is signalled; the flush of WARM_RESET
begins after that (R429). While the Wright restarts it answers nothing (R440). -/
def execCommandComplete (m : Mbox) (s : State) : Result :=
  let b := box s m
  match b.resp with
  | none => .next s
  | some r =>
    if !isUrgent m && s.wr.st = .restarting then .next s else
    let s := updWr (fun w => { w with order := w.order.filter (fun x => x ≠ m) }) s
    let s := finishBox m r.status r.detail r.payload b.lastSeq b.tTaken s
    .next (if boxCode b = 0x307 && r.status = stOk then beginFlush s else s)

/-! ## Pins -/

/-- ERR_N is driven low (R494). -/
def errN (s : State) : Bool :=
  !(s.pw.mode = 0 || s.pw.mode = 1) &&
    ((partDownBits s ≠ 0) || s.wr.st = .stopped || s.ep.frozen || s.pw.fenced)

end Sys2Proof.Machine
end

