-- ==== Sys2Proof/Machine/Power.lean ====
section
/-! DEFINITION. Rails and their monitors (R445 to R449), stalls (R65), die-to-die links (R26), temperature and
throttling (R450 to R453). -/
namespace Sys2Proof.Machine

/-! ## Rails -/

/-- Number of a rail as RAIL_STAT_r counts it. -/
def railNo : Rail → Nat
  | .vcore d => d.val
  | .vhub => 4
  | .vsill => 5
  | .vddq g => 6 + g.val
  | .vserdes => 10
  | .vio18 => 11

def vcoreOf (d : Nat) : Rail := if h : d < 4 then .vcore ⟨d, h⟩ else .vhub

/-- Warning and reset levels in mV (R446). -/
def warnLevel (r : Nat) : Nat :=
  if r < 4 then 620 else if r = 4 then 720 else if r = 5 then 740 else if r < 10 then 1100 else if r = 10 then 840 else 1650
def resetLevel (r : Nat) : Nat :=
  if r < 4 then 550 else if r = 4 then 680 else if r = 5 then 700 else if r < 10 then 1050 else if r = 10 then 800 else 1550

/-- In STANDBY only VSILL, VIO18 and VHUB are watched (R475). -/
def watched (s : State) (r : Nat) : Bool := s.pw.sillOn && (!standbyCond s || r = 4 || r = 5 || r = 11)

/-- A TYPE 0x000C entry: the rail, below warning, below reset, and the measured voltage (R433). -/
def logRail (r : Nat) (warn below : Bool) (mv : BitVec 16) (s : State) : State :=
  let n : BitVec 3 := if r ≤ 4 then BitVec.ofNat 3 r else Config.railCode r
  wrightEvent 0x000C (at' n 0 ||| atB warn 8 ||| atB below 9) (at' mv 0) s

def measure (r : Nat) (mv : BitVec 16) (s : State) : State := updRail r (fun x => { x with meas := mv }) s

/-- The braced condition arises (R448). -/
def brace (s : State) : State := settleMode (updPw (fun p => { p with braced := true }) s)

/-- A rail is below its warning level: the crossing counts, its count of R449 starts again, and the braced condition
holds. -/
def warned (r : Nat) (mv : BitVec 16) (s : State) : State :=
  let new := !(rail s r).warn
  let s := updRail r (fun x => { x with
    meas := mv, warn := true, crossed := true, exitFrom := none, warns := if new then satInc x.warns else x.warns }) s
  brace (if new then logRail r true false mv s else s)

/-- The voltage a condition of a rail goes by (R66): the lower of the measured level and the acknowledged setpoint, where
the device sets the rail, and of a setpoint below that from the moment it is requested. -/
def railVolt (s : State) (r : Nat) (mv : BitVec 16) : Nat :=
  let x := rail s r
  let v := if x.set = 0 then mv.toNat else Nat.min mv.toNat x.set.toNat
  match x.req with
  | some (w, _) => if x.set ≠ 0 && decide (w.toNat < x.set.toNat) then Nat.min v w.toNat else v
  | none => v

/-- RAIL_WARNING. -/
def execRailWarning (r : Rail) (mv : BitVec 16) (s : State) : Result :=
  let k := railNo r
  if !watched s k || warnLevel k ≤ railVolt s k mv then .next s else .next (warned k mv s)

/-- A reset crossing: below both levels. -/
def crossed (r : Nat) (mv : BitVec 16) (s : State) : State :=
  logRail r true true mv (updRail r (fun x => { x with below := true }) (warned r mv s))

/-- Every thermal limit has cleared (R451). -/
def thermalClear (s : State) : Bool := !s.pw.dies.any (fun e => e.2.hot) && !s.chan.any (fun e => e.2.hot)

/-- Every rail that crossed has stayed clear for 50 us. -/
def railsClear (s : State) : Bool :=
  s.pw.rails.all (fun e => !e.2.crossed || (match e.2.exitFrom with
    | some t => decide (t.toNat + 50000 ≤ s.time.now.toNat)
    | none => false))

/-- The braced condition clears when both parts of R449 hold. -/
def leaveBraced (s : State) : State :=
  if !s.pw.braced || !thermalClear s || !railsClear s then s
  else settleMode (updPw (fun p => { p with
    braced := false, rails := editAll RailSt.reset (fun _ x => { x with crossed := false, exitFrom := none }) p.rails }) s)

/-- BRACED_EXIT. -/
def execBracedExit (s : State) : Result := .next (leaveBraced s)

/-- The endpoint trains again once its rail is in range (R354). -/
def retrainEndpoint (s : State) : State :=
  if s.ep.up || s.ep.perst || !s.pw.straps.frameHead then s else updEp (fun e => { e with training := true }) s

/-- RAIL_RECOVERY: a rail rises. At warning + 20 mV its 50 us start; between, they are broken. -/
def execRailRecovery (r : Rail) (mv : BitVec 16) (s : State) : Result :=
  let k := railNo r
  if !s.pw.sillOn then .next s else
  let s := measure k mv s
  if !watched s k then .next (if resetLevel k ≤ mv.toNat then updRail k (fun x => { x with below := false }) s else s) else
  let x := rail s k
  let above := decide (warnLevel k + 20 ≤ mv.toNat)
  let s := updRail k (fun x => { x with
    warn := x.warn && decide (railVolt s k mv < warnLevel k)
    below := x.below && decide (railVolt s k mv < resetLevel k)
    exitFrom := if above && x.crossed then (match x.exitFrom with | some t => some t | none => some s.time.now) else none }) s
  let s := if k < 4 then updDie k (fun d => { d with
      recoverFrom := if above && d.railDown then (match d.recoverFrom with | some t => some t | none => some s.time.now)
        else none }) s else s
  .next (settleMode (if k = 10 && x.below && !(rail s k).below then retrainEndpoint s else s))

/-! ## Ready bits of dies (R464, R465) -/

/-- A die with a bay or engine of some partition; during bring-up every die may have one. -/
def dieUsed (s : State) (d : Nat) : Bool :=
  s.pw.bringing || (List.range 8).any (fun p =>
    (bitsOf (part s p).bays).any (fun b => b / 10 = d) || (bitsOf (part s p).engines).any (fun e => e / 16 = d))

/-- The die stands at its acknowledged operating point. -/
def atPoint (s : State) (d : Nat) : Bool := (rail s d).req.isNone && (rail s d).set = (die s d).opPoint && (rail s d).set ≠ 0

/-- VSET and DIE_d follow the acknowledged setpoints: a die's bit sets at its operating point and clears with its rail or
its hub link. -/
def dieBits (s : State) : State :=
  let ok := fun (d : Nat) => (die s d).tested && !(die s d).railDown && !(die s d).linkFailed
  let vset := (List.range 4).all (fun d => !dieUsed s d || atPoint s d)
  setReady (fun r => { r with
    vset := vset && s.wr.st ≠ .booting && s.wr.st ≠ .off
    die := (List.range 4).foldl (fun (m : BitVec 4) d =>
      setBit m d (ok d && (r.die.getLsbD d || (atPoint s d && s.wr.st ≠ .booting)))) r.die }) s

/-! ## Reset crossings (R446, R447) -/

/-- VCORE_RESET_CROSSING: every partition with a unit on the die goes DOWN with cause CORE_RAIL.
DEDUCED (log entry 63). -/
def execVcoreResetCrossing (d : Fin 4) (mv : BitVec 16) (s : State) : Result :=
  if !mainOn s || 550 ≤ railVolt s d.val mv then .next s else
  let s := crossed d.val mv s
  let s := updDie d.val (fun x => { x with railDown := true, recoverFrom := none, stalled := true }) s
  .next (dieBits (dieDown d.val 8 s))

/-- VHUB_RESET_CROSSING: a COLD reset. -/
def execVhubResetCrossing (mv : BitVec 16) (s : State) : Result :=
  if !s.pw.sillOn || 680 ≤ railVolt s 4 mv then .next s else .next (coldReset (crossed 4 mv s))

/-- VIO18_RESET_CROSSING: a COLD reset. -/
def execVio18ResetCrossing (mv : BitVec 16) (s : State) : Result :=
  if !s.pw.sillOn || 1550 ≤ railVolt s 11 mv then .next s else .next (coldReset (crossed 11 mv s))

/-- VDDQ_RESET_CROSSING: channels 4g to 4g + 3 are retired. -/
def execVddqResetCrossing (g : Fin 4) (mv : BitVec 16) (s : State) : Result :=
  if !mainOn s || 1050 ≤ railVolt s (6 + g.val) mv then .next s else
  .next (forEach (List.range 4) (fun i acc => retireChan (4 * g.val + i) 5 acc) (crossed (6 + g.val) mv s))

/-- VSERDES_RESET_CROSSING: every ridge port in use fails and the host link goes down. -/
def execVserdesResetCrossing (mv : BitVec 16) (s : State) : Result :=
  if !mainOn s || 800 ≤ railVolt s 10 mv then .next s else
  let s := crossed 10 mv s
  let s := forEach [Port.W, .E, .N, .S] (fun x acc =>
    if (port acc (portIx x)).st = 0 || (port acc (portIx x)).st = 5 then acc else failPort x acc) s
  .next (linkDown s)

/-- Request a setpoint of a rail's regulator (R445). -/
def requestRail (r : Rail) (mv : BitVec 16) (s : State) : State :=
  emit (.regulator r mv) (updRail (railNo r) (fun x => { x with req := some (mv, s.time.now) }) s)

/-- DIE_RAIL_RECOVERED: 50 us at or above 0.64 V; the die is self-tested again and its operating point set. Its
partitions then restart under R244. A die that fails stays down. DEDUCED (log entry 63). -/
def execDieRailRecovered (d : Fin 4) (pass : Bool) (s : State) : Result :=
  let x := die s d.val
  match x.recoverFrom with
  | none => .next s
  | some t =>
    if !mainOn s || s.wr.st ≠ .serving || !x.railDown || s.time.now.toNat < t.toNat + 50000 then .next s
    else if !pass then .next (dieBits (updDie d.val (fun x => { x with tested := false }) s))
    else
      let s := updDie d.val (fun x => { x with tested := true, railDown := false, recoverFrom := none, stalled := false }) s
      .next (dieBits (requestRail (.vcore d) x.opPoint s))

/-! ## Stalls (R65) -/

/-- DIE_STALL: between 0.58 V and the reset level the die holds its state. -/
def execDieStall (d : Fin 4) (mv : BitVec 16) (s : State) : Result :=
  if !mainOn s || 580 ≤ railVolt s d.val mv || railVolt s d.val mv < 550 then .next s
  else .next (updDie d.val (fun x => { x with stalled := true }) (warned d.val mv s))

/-- DIE_RESUME. -/
def execDieResume (d : Fin 4) (mv : BitVec 16) (s : State) : Result :=
  if !mainOn s || railVolt s d.val mv < 580 || (die s d.val).railDown then .next s
  else .next (updDie d.val (fun x => { x with stalled := false }) (measure d.val mv s))

/-! ## Links (R26) -/

/-- Partitions whose messages were on a failed link report LINK_LOST. -/
def linkLost (onLink : BitVec 8) (s : State) : State :=
  forEach (bitsOf onLink) (fun p acc => reportCoherence p 6 0x3F none acc) s

/-- NEIGHBOUR_LINK_FAIL: traffic goes through the hub; the device is degraded. -/
def execNeighbourLinkFail (l : Fin 4) (onLink : BitVec 8) (s : State) : Result :=
  if !mainOn s then .next s
  else .next (settleMode (linkLost onLink (updPw (fun p => { p with linksFailed := setBit p.linksFailed l.val true }) s)))

/-- HUB_LINK_FAIL: every partition with a unit on the die goes DOWN. -/
def execHubLinkFail (d : Fin 4) (onLink : BitVec 8) (s : State) : Result :=
  if !mainOn s then .next s
  else .next (linkLost onLink (dieBits (dieDown d.val 6 (updDie d.val (fun x => { x with linkFailed := true }) s))))

/-! ## Temperature (R450, R451, R453) -/

/-- The highest of the four sensors, signed. -/
def hottest (a b c e : BitVec 16) : BitVec 16 :=
  let m := fun (x y : BitVec 16) => if x.toInt < y.toInt then y else x
  m (m a b) (m c e)

/-- A reading is at or below LIMIT − HYST. -/
def coolDie (s : State) (t : BitVec 16) : Bool :=
  decide (t.toInt ≤ ((s.pw.thLimit.toNat : Int) - s.pw.thHyst.toNat) * 8)

/-- THERMAL_SAMPLE: a die's reading is refreshed; at LIMIT the braced condition arises, at 130 °C the device trips. -/
def execThermalSample (d : Fin 5) (a b c e : BitVec 16) (s : State) : Result :=
  if !s.pw.sillOn then .next s else
  let t := hottest a b c e
  let wasCool := coolDie s (die s d.val).tj
  let hot := decide ((s.pw.thLimit.toNat : Int) * 8 ≤ t.toInt) && !standbyCond s
  let s := updDie d.val (fun x => { x with
    tj := t, tjReg := t, hot := x.hot || hot, clearFrom := if coolDie s t && !wasCool then some s.time.now else x.clearFrom }) s
  if 1040 ≤ t.toInt then .next (coldReset (updPw (fun p => { p with thermtrip := true }) s))
  else
    let cool := (List.range 5).all (fun d => decide ((die s d).tj.toInt < 880))
    let s := updPw (fun p => { p with thermtrip := p.thermtrip && (p.pwrgood || !cool) }) s
    .next (if hot then brace s else s)

/-- A DIMM reading is at or below 90 °C. DEDUCED (log entry 79). -/
def coolDimm (t : BitVec 16) : Bool := decide (t.toInt ≤ 720)

/-- DIMM_TEMP_SAMPLE: a DIMM sensor is read, in units of 0.125 °C; above 95 °C it is a thermal limit.
DEDUCED (log entry 79). -/
def execDimmTempSample (c : Fin 16) (slot : Fin 2) (reading : BitVec 16) (s : State) : Result :=
  if !mainOn s || (if slot.val = 0 then (dimms s c.val).slot0 else (dimms s c.val).slot1).isNone then .next s else
  let k := chan s c.val
  let wasCool := coolDimm k.dimmT0 && coolDimm k.dimmT1
  let hot := decide (760 < reading.toInt)
  let s := updChan c.val (fun k =>
    let k := if slot.val = 0 then { k with dimmT0 := reading } else { k with dimmT1 := reading }
    { k with
      hot := k.hot || hot
      coolFrom := if coolDimm k.dimmT0 && coolDimm k.dimmT1 && !wasCool then some s.time.now else k.coolFrom }) s
  .next (if hot then brace s else s)

/-- The refresh interval is halved while a DIMM of the channel reads above 85 °C (R333). -/
def refiHalved (k : Chan) : Bool := decide (680 < k.dimmT0.toInt) || decide (680 < k.dimmT1.toInt)

/-- A time has passed since a sensor fell to its clear level. -/
def coolFor (s : State) (t : Option Word) : Bool :=
  match t with
  | some t => decide (t.toNat + 10000000 ≤ s.time.now.toNat)
  | none => true

/-- THERMAL_LIMIT_CLEAR: every die and DIMM has read at or below its clear level for 10 ms. -/
def execThermalLimitClear (s : State) : Result :=
  let dies := (List.range 5).all (fun d => coolDie s (die s d).tj && coolFor s (die s d).clearFrom)
  let dimms := (List.range 16).all (fun c =>
    coolDimm (chan s c).dimmT0 && coolDimm (chan s c).dimmT1 && coolFor s (chan s c).coolFrom)
  if !dies || !dimms then .next s else
  let s := updPw (fun p => { p with dies := editAll Die.reset (fun _ d => { d with hot := false }) p.dies }) s
  .next (leaveBraced { s with chan := editAll Chan.reset (fun _ k => { k with hot := false }) s.chan })

/-! ## Throttling (R452) -/

/-- A step has been made less than 1 ms ago. -/
def stepSoon (s : State) (d : Nat) : Bool :=
  match (die s d).stepAt with
  | some t => decide (s.time.now.toNat < t.toNat + 1000000)
  | none => false

/-- THROTTLE_STEP: once per millisecond, down to FLOOR_MV while the die reads at or above LIMIT, up to the operating
point once the thermal limit has cleared; each step waits for the acknowledgement of the one before. -/
def execThrottleStep (d : Fin 4) (s : State) : Result :=
  let x := die s d.val
  let r := rail s d.val
  let set := r.set.toNat
  let stepMv := s.pw.thStep.toNat
  if !mainOn s || s.wr.st ≠ .serving || r.req.isSome || stepSoon s d.val || set = 0 then .next s
  else if decide ((s.pw.thLimit.toNat : Int) * 8 ≤ x.tj.toInt) && !r.warn then
    let low := Nat.max s.pw.thFloor.toNat (set - stepMv)
    if set ≤ low then .next s
    else
      let s := updDie d.val (fun y => { y with throttled := true, stepAt := some s.time.now }) s
      .next (requestRail (.vcore d) (BitVec.ofNat 16 low) s)
  else if x.throttled && thermalClear s && set < x.opPoint.toNat then
    let up := Nat.min x.opPoint.toNat (set + stepMv)
    let s := updDie d.val (fun y => { y with stepAt := some s.time.now }) s
    .next (requestRail (.vcore d) (BitVec.ofNat 16 up) s)
  else if x.throttled && thermalClear s then .next (updDie d.val (fun y => { y with throttled := false }) s)
  else .next s

/-! ## Acknowledgements (R445) -/

/-- The read-back is within the regulator's tolerance of the request: ±10 mV on AVSBus, ±1 % on PMBus. -/
def ackFits (r mv want : Nat) : Bool :=
  if r < 4 then want ≤ mv + 10 && mv ≤ want + 10 else 99 * want ≤ 100 * mv && 100 * mv ≤ 101 * want

/-- A class-0 queue of a partition with units on the die is enabled (R429). -/
def class0OnDie (s : State) (d : Nat) : Bool :=
  s.queue.any (fun e => e.2.en && e.2.cls = 0 &&
    ((bitsOf (part s e.2.part.toNat).bays).any (fun b => b / 10 = d)
      || (bitsOf (part s e.2.part.toNat).engines).any (fun g => g / 16 = d)))

/-- A VCORE setpoint is acknowledged: partitions with units on the die are told, a running VCORE_SET is answered, and the
die is powered. -/
def vcoreAcked (d : Nat) (mv : BitVec 16) (s : State) : State :=
  let s := updDie d (fun x => { x with
    vsetMv := mv, powered := true, winFrom := if x.powered then x.winFrom else s.time.now
    throttled := x.throttled && decide (mv.toNat < x.opPoint.toNat) }) s
  let s := forEach (List.range 8) (fun p acc =>
    let pt := part acc p
    if (bitsOf pt.bays).any (fun b => b / 10 = d) || (bitsOf pt.engines).any (fun e => e / 16 = d) then
      notice p 5 (at' (BitVec.ofNat 2 d) 0 ||| at' mv 16) acc else acc) s
  let s := match runningBox s 0x302 with
    | none => s
    | some m =>
      if pageNat (box s m) 0x40 1 % 4 ≠ d then s else
      let detail : BitVec 16 := if mv.toNat < 800 && class0OnDie s d then 2 else 0
      let s := updDie d (fun x => { x with opPoint := mv }) s
      respond m ⟨stOk, detail, bytesOf 8 (at' mv 0), false⟩ s
  dieBits s

/-- REGULATOR_ACK: the regulator reports its request done and reads back `mv`. -/
def execRegulatorAck (r : Rail) (mv : BitVec 16) (s : State) : Result :=
  let k := railNo r
  match (rail s k).req with
  | none => .next s
  | some (want, _) =>
    if !mainOn s || !ackFits k mv.toNat want.toNat then .next s else
    let s := updRail k (fun x => { x with set := want, meas := mv, req := none }) s
    .next (if k < 4 then vcoreAcked k want s
      else if k = 4 then updDie 4 (fun x => { x with vsetMv := want }) s else s)

/-- REGULATOR_ACK_TIMEOUT: 1 ms; the setpoint is unchanged, the failure is logged, a VCORE_SET fails. -/
def execRegulatorAckTimeout (r : Rail) (s : State) : Result :=
  let k := railNo r
  let x := rail s k
  match x.req with
  | none => .next s
  | some (_, t) =>
    if s.time.now.toNat < t.toNat + 1000000 then .next s else
    let s := logRail k x.warn x.below x.meas (updRail k (fun x => { x with req := none }) s)
    .next (match runningBox s 0x302 with
      | some m => if k < 4 && pageNat (box s m) 0x40 1 % 4 = k then respond m (badD stFailed 1) s else s
      | none => s)

end Sys2Proof.Machine
end

