-- ==== Sys2Proof/Machine/Domains.lean ====
section
/-! DEFINITION. Power domains: votes, drops and wakes (R325, R326, R454 to R459). -/
namespace Sys2Proof.Machine

/-! ## Votes (R454, R455) -/

/-- Events of a thread wait in the wake buffer. -/
def wakeWaits (s : State) (t : Thr) : Bool := s.pw.wake.any (fun e => e.1 = thrKey t)

/-- A core holds a vote: of a thread, the Wright, the host or the dispatcher. -/
def coreVoted (s : State) (c : Nat) : Bool :=
  (thrsOfCore c).any (fun t => threadVotes s t || (domainDown s t && wakeWaits s t)) || wrightHoldsCore s c
    || (core s c).hvote || s.pw.dvotes.getLsbD c

def coresOfBay (b : Nat) : List Nat := (List.range 4).map (fun c => 4 * b + c)

def bayVoted (s : State) (b : Nat) : Bool :=
  wrightHoldsBay s b || (bay s b).hvote || (coresOfBay b).any (fun c => (core s c).powered || coreVoted s c)

/-- Threads of an adze cluster. -/
def thrsOfCluster (k : Nat) : List Thr := (List.range 4).flatMap (fun i => thrsOfEngine (4 * k + i))

/-- The Wright brings up or restarts a partition with an engine of the cluster, or sisters one. -/
def wrightHoldsCluster (s : State) (k : Nat) : Bool :=
  s.pw.bringing || (List.range 4).any (fun i => match partOfEngine s (4 * k + i) with
      | some p => (part s p).st = .restarting
      | none => false)
    || s.wr.sistering.any (fun e => match e.1 with | .engine i => i.val / 4 = k | _ => false)

def clusterVoted (s : State) (k : Nat) : Bool :=
  (thrsOfCluster k).any (fun t => startedThr s t || (domainDown s t && wakeWaits s t)) || wrightHoldsCluster s k
    || (cluster s k).hvote

/-- A compute die is powered while it or a domain inside it holds a vote. -/
def dieVoted (s : State) (d : Nat) : Bool :=
  s.pw.bringing || (die s d).hvote
    || (List.range 10).any (fun b => (bay s (10 * d + b)).powered || bayVoted s (10 * d + b))
    || (List.range 4).any (fun k => (cluster s (4 * d + k)).powered || clusterVoted s (4 * d + k))

/-- A channel is in use: some request for it waits, or the Wright trains or repairs it. -/
def chanVoted (s : State) (c : Nat) : Bool :=
  s.pw.bringing || (chan s c).hvote || (chan s c).st = 1 || (chan s c).job.isSome

/-- A ridge port carries a link or trains. -/
def portVoted (s : State) (x : Port) : Bool :=
  let k := port s (portIx x)
  s.pw.bringing || k.hvote || k.training || portUp s x || k.st = 2

/-- Domains drop in service only: none during bring-up, and none while FENCED (R475). -/
def mayDrop (s : State) : Bool := mainOn s && !s.pw.bringing && !s.pw.fenced && s.pw.flush.isNone

/-! ## Drops (R456 to R459) -/

/-- The retention set of a core thread (R457): what it was executing is not part of it. -/
def retentionSet (th : Thread) : Thread :=
  { th with
    parked := false, fbuf := [], waitFetch := false, waitRoom := false, evs := [], nextSeq := 0, unconf := [], rstack := [], mdp := [], redo := none
    stores := [], outst := [], resv := none }

/-- A thread's state is saved before its core loses power. -/
def retain (t : Thr) (keep : Thread) (s : State) : State :=
  updPw (fun p => { p with retained := put none p.retained (thrKey t) (some keep) }) (setThr t keep s)

/-- CORE_DROP: the last vote is withdrawn, every store has been performed or logged, the L1 data cache is written back,
retention sets and CACHE_CTL are saved. -/
def execCoreDrop (c : Fin 160) (s : State) : Result :=
  let k := core s c.val
  if !mayDrop s || !k.powered || coreVoted s c.val || k.soloActive || k.soloWait.isSome || k.ccWait.isSome
    || !drained s (.core c) then .next s else
  let s := emptyL1 c.val s
  let s := forEach (thrsOfCore c.val) (fun t acc => loseResv t acc) s
  let s := forEach (thrsOfCore c.val) (fun t acc => retain t (retentionSet (thr acc t)) acc) s
  .next (updCore c.val (fun k => { Core.reset with
    ien := k.ien, den := k.den, pfen := k.pfen, pfDepth := k.pfDepth, deep := k.deep, hvote := k.hvote
    drops := satInc k.drops }) s)

/-- The converted way that holds 128 KiB number `k` of the bay's L2-as-memory: from way 15 down (R209).
DESIGN CHOICE (log entry 118). -/
def wayOfArea (k : Nat) : Nat := 15 - k

/-- Converted ways that are not selected for retention come back as zeros, with LOST set (R212, R458). -/
def loseWays (b : Nat) (s : State) : State :=
  forEach (List.range (2 * (bay s b).amCur.toNat)) (fun k acc =>
    if (bay acc b).retWays.getLsbD (wayOfArea k - 8) then acc
    else
      let lo := l2amBase b + k * 0x20000
      updBay b (fun y => { y with amLost := true }) (clearArea lo (lo + 0x20000) acc)) s

/-- BAY_DROP: every core has dropped; the L2 evicts its DRAM lines as write-back entries come free, and the bay drops once
none is left (R233). -/
def execBayDrop (b : Fin 40) (s : State) : Result :=
  let y := bay s b.val
  if !mayDrop s || !y.powered || bayVoted s b.val || !y.reqs.isEmpty || y.amBusy then .next s else
  let s := forEach ((y.l2.filter (fun e => e.2.st ≠ .I)).map (fun e => e.2.line)) (fun l acc =>
    if wbRoom (bay acc b.val) then l2Evict b l acc else acc) s
  if (bay s b.val).l2.any (fun e => e.2.st ≠ .I) then .next s else
  let s := forEach ((bay s b.val).mon.map (·.thr)) (fun t acc => loseResv t acc) s
  .next (updBay b.val (fun y => { y with l2 := [], powered := false, drops := satInc y.drops }) (loseWays b.val s))

/-- An adze cluster drops with its scratch and thread state; only the event state is kept (R265, R457). -/
def dropCluster (k : Nat) (s : State) : State :=
  let s := forEach (thrsOfCluster k) (fun t acc => retain t { Thread.reset with ev := (thr acc t).ev } (loseResv t acc)) s
  let s := clearArea (scratchBase (4 * k)) (scratchBase (4 * k + 4)) s
  updCluster k (fun x => { x with powered := false }) s

/-- A die drops: none of its bays or engines belongs to a partition. -/
def dropDie (d : Nat) (s : State) : State :=
  dieBits (updDie d (fun x => { x with powered := false, tested := false, beats := 0, winFrom := s.time.now }) s)

/-- The partitions with a range on the channel, if any. -/
def chanOwned (s : State) (c : Nat) : Bool := !(partsOnChan s c).isEmpty

/-- DOMAIN_DROP: a domain with no votes, where R454 lets it drop. -/
def execDomainDrop (d : Dom) (s : State) : Result :=
  if !mayDrop s then .next s else
  match d with
  | .core c => execCoreDrop c s
  | .bay b => execBayDrop b s
  | .cluster k => .next (if (cluster s k.val).powered && !clusterVoted s k.val then dropCluster k.val s else s)
  | .die d => .next (if (die s d.val).powered && !dieVoted s d.val && !dieUsed s d.val then dropDie d.val s else s)
  | .channel c =>
    .next (if (chan s c.val).powered && !chanVoted s c.val && !chanOwned s c.val then
      updChan c.val (fun k => { k with powered := false, rows := [] }) s else s)
  | .port x =>
    .next (if (port s (portIx x)).powered && !portVoted s x then
      updPort (portIx x) (fun k => { k with powered := false, st := if k.st = 5 then 5 else 0 }) s else s)

/-! ## Wakes -/

/-- A core wakes: its threads' state is restored before any thread executes; each dozing one goes on after its WAIT. -/
def wakeCore (c : Nat) (s : State) : State :=
  if (core s c).powered then s else
  let s := updBay (c / 4) (fun y => { y with powered := true }) s
  let s := updCore c (fun k => { k with powered := true }) s
  forEach (thrsOfCore c) restoreThread s

/-- The compute die around a domain is powered; a domain outside the dies has none. -/
def dieAround (s : State) : Dom → Bool
  | .core c => (die s (c.val / 40)).powered
  | .bay b => (die s (b.val / 10)).powered
  | .cluster k => (die s (k.val / 4)).powered
  | _ => true

/-- DOMAIN_WAKE: a vote has come for a domain that is down; a die wakes before what is inside it (R454). -/
def execDomainWake (d : Dom) (s : State) : Result :=
  if !mainOn s || !dieAround s d then .next s else
  match d with
  | .core c => .next (if coreVoted s c.val && siteOfCore s c.val ≠ 7 then wakeCore c.val s else s)
  | .bay b => .next (if bayVoted s b.val then updBay b.val (fun y => { y with powered := true }) s else s)
  | .cluster k => .next (if clusterVoted s k.val then wakeCluster k.val s else s)
  | .die d => .next (if dieVoted s d.val || dieUsed s d.val then
      updDie d.val (fun x => { x with powered := true, winFrom := if x.powered then x.winFrom else s.time.now }) s else s)
  | .channel c =>
    .next (if chanVoted s c.val || chanOwned s c.val then updChan c.val (fun k => { k with powered := true }) s else s)
  | .port x =>
    .next (if portVoted s x && !s.pw.fenced && !(port s (portIx x)).powered && (port s (portIx x)).st ≠ 5 then
      updPort (portIx x) (fun k => { k with powered := true, st := if k.st = 0 then 1 else k.st }) s else s)

end Sys2Proof.Machine
end

