-- ==== Sys2Proof/Machine/Bringup.lean ====
section
/-! DEFINITION. Bring-up (R462 to R465), the memory map it builds (R336, R339), the settings it applies (R473, R512), and
the start, restart and stop of the Wright (R415, R416, R439, R440, R474). -/
namespace Sys2Proof.Machine

/-! ## Step 1 -/

/-- The conditions of R41 for leaving STANDBY. -/
def mayBringUp (s : State) : Bool :=
  s.pw.sillOn && s.pw.inReset && s.pw.pwrgood && !(rail s 4).below && !(rail s 11).below && !s.pw.thermtrip && s.pw.resetN
    && debounced s

/-- BRINGUP_START: the main logic is released, the boot value of 0.90 V is requested on every VCORE_d, the boot ROM starts,
and the ledger and the event router come up. DEDUCED (log entry 62). -/
def execBringupStart (s : State) : Result :=
  if !mayBringUp s then .next s else
  let now := s.time.now
  let s := updPw (fun p => { p with inReset := false, bringing := true, bringupDone := false, bringupAt := now }) s
  let s := updWr (fun w => { w with st := .booting, since := now }) s
  let s := updEp (fun e => { e with ringPresent := setBit e.ringPresent (myPos s) true }) s
  let s := forEach (List.range 4) (fun d acc => requestRail (vcoreOf d) 900 acc) s
  let s := updDie 4 (fun x => { x with winFrom := now }) (retrainEndpoint s)
  .next (settleMode (setReady (fun r => { r with ledger := true, events := true }) s))

/-! ## Self-test -/

/-- Bays with no partition that have passed self-test, and clusters that have, are usable (R464). -/
def unitBits (s : State) : State :=
  let taken := fun (b : Nat) => (partOfBay s b).isSome || (s.pw.bringing &&
    (List.range 8).any (fun p => match bringupLayout s p with | some x => x.bays.getLsbD b | none => false))
  let bays := (List.range 40).foldl (fun (m : BitVec 40) b =>
    if (die s (b / 10)).tested && !(bay s b).failed && !taken b && s.wr.st ≠ .booting then setBit m b true else m) 0
  let cl := (List.range 16).foldl (fun (m : BitVec 16) k =>
    if (die s (k / 4)).tested && (List.range 4).any (fun i => !(engine s (4 * k + i)).outOfService) then setBit m k true
    else m) 0
  setReady (fun r => { r with bay := r.bay ||| bays, cluster := r.cluster ||| cl }) s

/-- A core site fails: a logical core on it moves to the bay's spare, or is absent with none; a failed spare is none. -/
def failSite (b site : Nat) (s : State) : State :=
  let v := BitVec.ofNat 3 site
  let s := updBay b (fun y => { y with bad := setBit y.bad site true, spare := if y.spare = v then 7 else y.spare })  s
  forEach (List.range 4) (fun c acc =>
    let k := 4 * b + c
    if siteOfCore acc k ≠ v then acc
    else if h : k < 160 then
      (if hasSpare acc (.core ⟨k, h⟩) then toSpare (.core ⟨k, h⟩) acc else updBay b (setSite k 7) acc)
    else acc) s

/-- SELF_TEST_DONE: the self-test of a die's arrays, core sites and clusters ends. Its clusters are powered, with zeroed
scratch. DEDUCED (log entry 62). -/
def execSelfTestDone (d : Fin 4) (badSites : List (Fin 10 × Fin 5)) (badBays : BitVec 10) (badClusters : BitVec 4)
    (s : State) : Result :=
  let x := die s d.val
  if !mainOn s || !x.powered || x.tested || x.railDown then .next s else
  let s := forEach badSites (fun e acc => failSite (10 * d.val + e.1.val) e.2.val acc) s
  let s := forEach (bitsOf badBays) (fun b acc => updBay (10 * d.val + b) (fun y => { y with failed := true }) acc) s
  let s := forEach (bitsOf badClusters) (fun k acc =>
    forEach (List.range 4) (fun i a => updEngine (4 * (4 * d.val + k) + i) (fun y => { y with outOfService := true }) a) acc) s
  let s := forEach (List.range 4) (fun k acc => updCluster (4 * d.val + k) (fun y => { y with powered := true }) acc) s
  .next (settleMode (unitBits (dieBits (updDie d.val (fun y => { y with tested := true }) s))))

/-! ## The memory map (R336, R339) -/

/-- The sets of R336 by default: the populated channels of one population. -/
def defaultSets (s : State) : List (BitVec 16 × Bool) :=
  let same := fun (a b : Nat) => decide (dimms s a = dimms s b)
  let first := (List.range 16).filter (fun c => populated s c && !(List.range c).any (fun a => populated s a && same a c))
  first.map (fun c => ((List.range 16).foldl (fun (m : BitVec 16) a =>
    if populated s a && same a c then setBit m a true else m) 0, false))

/-- A named set as R336 lets it stand: its channels are populated alike and in no earlier set, and a mirrored one holds
both of each pair; the others are left out. DESIGN CHOICE (log entry 101). -/
def legalSet (s : State) (used : BitVec 16) (e : BitVec 16 × Bool) : BitVec 16 × Bool :=
  let free := (bitsOf e.1).filter (fun c => populated s c && !used.getLsbD c)
  let same := free.filter (fun c => decide (dimms s c = dimms s (free.headD 0)))
  let kept := if e.2 then same.filter (fun c => same.contains (mateOf c)) else same
  (kept.foldl (fun m c => setBit m c true) 0, e.2)

/-- The sets of the MEMORY entry: words of channel mask and MIRROR flag. -/
def namedSets (s : State) (l : List Byte) : List (BitVec 16 × Bool) :=
  let all := (List.range 16).map (fun i => wordOf (sliceB l (8 * i) 8))
  let r := all.foldl (fun (acc : BitVec 16 × List (BitVec 16 × Bool)) w =>
    let e := legalSet s acc.1 (w.extractLsb' 0 16, w.getLsbD 16)
    if e.1 = 0 then acc else (acc.1 ||| e.1, acc.2 ++ [e])) (0, [])
  sortBy (fun a b => decide ((bitsOf a.1).headD 16 ≤ (bitsOf b.1).headD 16)) r.2

/-- Region of a set from `base`: its size is the capacity of its channels or pairs. -/
def regionFor (s : State) (base : Nat) (set : BitVec 16) (mirror : Bool) : Region :=
  let n := (bitsOf set).length / (if mirror then 2 else 1)
  let c := (bitsOf set).headD 0
  { v := true, mirror := mirror, base := BitVec.ofNat 13 base, size := BitVec.ofNat 14 (n * chanGib s c), chans := set
    rankBits := BitVec.ofNat 3 (rankBitsOf (dimms s c)) }

def regionsFrom (s : State) : Nat → Nat → List (BitVec 16 × Bool) → Tbl Region → Tbl Region
  | _, _, [], t => t
  | k, base, (m, mir) :: r, t =>
    let x := regionFor s base m mir
    regionsFrom s (k + 1) (base + x.size.toNat) r (put Region.reset t k x)

/-- The channel's population meets an ECC mode (R339). -/
def eccFits (d : Dimms) (mode : BitVec 2) : Bool :=
  if mode = 0 then popX4 d else if mode = 1 then popX4 d && rankBitsOf d ≠ 0 else if mode = 2 then !popX4 d else false

def strongest (d : Dimms) : BitVec 2 := if !popX4 d then 2 else if rankBitsOf d ≠ 0 then 1 else 0

/-- Steps 6 and 8: MC_CTL_c, the map, and training of every populated channel. -/
def buildMap (s : State) : State :=
  let named := settingOf s.wr.store 5
  let s := match named with
    | some l => forEach (List.range 16) (fun c acc => writeMcCtl c (wordOf (sliceB l (128 + 8 * c) 8)) acc) s
    | none => s
  let given := named.isSome
  let s := forEach ((List.range 16).filter (populated s)) (fun c acc =>
    let d := dimms acc c
    let unmet := given && !eccFits d (chan acc c).eccMode
    let acc := if unmet then wrightEvent Config.unmetModeType (BitVec.ofNat 64 c) (at' (chan acc c).eccMode 0) acc else acc
    updChan c (fun k => { k with
      eccMode := if given && eccFits d k.eccMode then k.eccMode else strongest d, st := 1, powered := true }) acc) s
  let sets := match named with
    | some l => if (namedSets s l).isEmpty then defaultSets s else namedSets s l
    | none => defaultSets s
  { s with region := regionsFrom s 0 0 sets [] }

/-! ## Settings (R473, R512) -/

/-- An instance's vectors and DMA ranges from Layout I, past its first word (R432). -/
def rangesOf (l : List Byte) : Tbl (Option (BitVec 52 × BitVec 52)) :=
  (List.range 8).foldl (fun t k =>
    let lo := wordOf (sliceB l (8 + 16 * k) 8)
    let hi := wordOf (sliceB l (16 + 16 * k) 8)
    put none t k (if lo.getLsbD 0 then some (lo.extractLsb' 12 52, hi.extractLsb' 12 52) else none)) []

/-- Instance 0 exists from bring-up. -/
def makeInstance0 (s : State) : State :=
  match settingOf s.wr.store 2 with
  | none => updInst 0 (fun x => { x with st := 1, vecBase := 0, vecCount := 2048 }) s
  | some l =>
    let w := wordOf (sliceB l 0 8)
    updInst 0 (fun x => { x with
      st := 1, vecBase := w.extractLsb' 16 11, vecCount := w.extractLsb' 32 12, dma := rangesOf l }) s

def applyEndpoint (s : State) : State :=
  match settingOf s.wr.store 1 with
  | none => s
  | some l =>
    let w := wordOf (sliceB l 0 8)
    updPw (fun p => { p with cfgLanes := w.extractLsb' 0 5, cfgRate := w.extractLsb' 5 3 }) s

/-- DESIGN CHOICE (log entry 61). -/
def applyVoltage (s : State) : State :=
  match settingOf s.wr.store 8 with
  | none => s
  | some l =>
    let s := forEach (List.range 4) (fun d acc => updDie d (fun x => { x with opPoint := BitVec.ofNat 16 (fieldB l (2 * d) 2) }) acc) s
    writeTherm (wordOf (sliceB l 8 8)) s

/-- DESIGN CHOICE (log entry 61). -/
def applyRidge (s : State) : State :=
  match settingOf s.wr.store 6 with
  | none => s
  | some l =>
    let w := fun (i : Nat) => wordOf (sliceB l (8 * i) 8)
    let s := updRidge (fun r => { r with pop := w 1 }) (writeRidgeCfg (w 0) s)
    let s := forEach (List.range 64) (fun k acc => writeRwin k true (w (3 + 2 * k)) (writeRwin k false (w (2 + 2 * k)) acc)) s
    forEach (List.range 32) (fun k acc => writeRacl k true (w (131 + 2 * k)) (writeRacl k false (w (130 + 2 * k)) acc)) s

/-- Groups withdrawn from each mailbox: host 0 to 7, management, management urgent, device 0 to 15. -/
def applyMailbox (s : State) : State :=
  match settingOf s.wr.store 10 with
  | none => s
  | some l =>
    let all := (List.finRange 8).map Mbox.host ++ [Mbox.mgmt, Mbox.mgmtUrgent] ++ (List.finRange 16).map Mbox.dev
    forEach (all.zip (List.range 26)) (fun e acc =>
      updBox e.1 (fun b => { b with groupsOff := BitVec.ofNat 16 (fieldB l (2 * e.2) 2) }) acc) s

def applyBringup (s : State) : State :=
  match settingOf s.wr.store 12 with
  | none => s
  | some l => updPw (fun p => { p with bringupTmo := BitVec.ofNat 64 (fieldB l 0 4 * 1000000) }) s

/-- The ridge ports monitor the passing directions and wait to join (R410, R411). -/
def startRidge (s : State) : State :=
  let start := fun (ns : Bool) (s : State) =>
    updPair ns (fun p => { p with step := .monitoring })
      (forEach (pairPorts ns) (fun x acc => updPort (portIx x) (fun k => { k with st := 1, powered := true }) acc) s)
  let s := start false s
  if s.ridge.nsEn then start true s else s

/-- Entries of an unknown type, and further ones of a type that is used once, are logged and ignored (R473).
DESIGN CHOICE (log entry 97). -/
def logUnused (s : State) : State :=
  let l := settings s.wr.store
  let unused := ((l.map (·.1)).zip (List.range l.length)).filter (fun e =>
    12 < e.1 || (e.1 ≠ 3 && e.1 ≠ 4 && (l.take e.2).any (fun y => y.1 = e.1)))
  forEach unused (fun e acc => wrightEvent Config.unusedEntryType (BitVec.ofNat 64 e.1) 0 acc) s

/-- Steps 4 to 7 of R462: what the firmware does once it runs from a verified slot. -/
def firmwareSteps (s : State) : State :=
  let s := applyBringup (applyMailbox (applyRidge (applyVoltage (applyEndpoint (logUnused s)))))
  let s := updEp (fun e => { e with crsUntil := none }) (makeInstance0 s)
  let s := startRidge (buildMap s)
  let s := requestRail .vhub 850 s
  let s := forEach (List.finRange 4) (fun g acc => requestRail (.vddq g) 1200 acc) s
  let s := requestRail .vserdes 900 s
  let s := forEach (List.range 4) (fun d acc =>
    if (die acc d).powered && (rail acc d).req.isNone then requestRail (vcoreOf d) (die acc d).opPoint acc else acc) s
  settleMode (unitBits s)

/-! ## Starting the Wright (R440, R474) -/

/-- UNVERIFIED (log entry 73). -/
def slotPasses (s : State) (b : Bool) : Bool :=
  (verifySlot Config.storeKeyHash s.wr.store.fuse.toNat (slotSize s.wr.store.capacity) (slotOf s.wr.store b)).isNone

/-- A slot verified at boot changes condition (R431, R470). -/
def judgeSlot (b : Bool) (s : State) : State :=
  let ok := slotPasses s b
  updWr (fun w => { w with store := setSlot b { slotOf w.store b with cond := if ok then 1 else 3 } w.store }) s

/-- The boot ROM's choice: the boot default, else the other slot. -/
def bootChoice (s : State) : Option Bool :=
  let d := bootDefault s.wr.store
  if slotPasses s d then some d else if slotPasses s (!d) then some (!d) else none

/-- The firmware serves from slot `b`: its ready bits set. -/
def serveFrom (b : Bool) (s : State) : State :=
  let s := updWr (fun w => { w with st := .serving, since := s.time.now, wdServed := s.time.now, store := { w.store with active := some b } }) s
  setReady (fun r => { r with wright := true, store := true }) s

def activeVersion (s : State) : Word :=
  match s.wr.store.active with
  | some b => fwVersion (slotOf s.wr.store b)
  | none => 0

/-- The restart ends: it is logged, the events lost meanwhile are counted, and the partitions are told (R433, R440,
R441). -/
def servingAgain (update : Bool) (s : State) : State :=
  let n := (s.wr.restarts.filter (fun t => decide (s.time.now.toNat < t.toNat + 10000000000))).length
  let s := logEntry 0x000A (atB update 0 ||| at' (BitVec.ofNat 8 n) 8) (activeVersion s) s
  let s := if s.wr.lostEvents = 0 then s else logEntry 0x000D (BitVec.ofNat 64 s.wr.lostEvents) 0 s
  noticeActive 2 (activeVersion s) (updWr (fun w => { w with heldEvents := 0, lostEvents := 0 }) s)

/-- WRIGHT_SERVING: the boot ROM has loaded and verified a slot and the firmware serves. During bring-up the Wright moves to
its 800 MHz clock, its crossing held while its clock is stopped (R57, R462), and goes on with its steps; after a live
update it answers ACTIVATE. -/
def execWrightServing (s : State) : Result :=
  if !mainOn s || s.pw.clkWright then .next s else
  match s.wr.st, s.wr.update with
  | .booting, .none =>
    let s := updPw (fun p => { p with wrightFast := true }) s
    let d := bootDefault s.wr.store
    let c := bootChoice s
    let s := if c = some d then judgeSlot d s else judgeSlot (!d) (judgeSlot d s)
    .next (match c with
      | some b => firmwareSteps (serveFrom b s)
      | none => s)
  | .restarting, .starting m slot _ =>
    if !slotPasses s slot then .next s else
    let first := s.wr.store.active.isNone
    let s := updWr (fun w => { w with update := .none }) (serveFrom slot s)
    let s := servingAgain true s
    let s := respond m (ok (bytesOf 8 (activeVersion s))) s
    .next (if first then firmwareSteps s else s)
  | .restarting, .returning m _ =>
    let back := s.wr.store.active
    let s := updWr (fun w => { w with update := .none }) s
    .next (match back with
      | some b => respond m (badD stFailed 1) (servingAgain true (serveFrom b s))
      | none => respond m (badD stFailed 1) (updWr (fun w => { w with st := .booting }) s))
  | .restarting, _ =>
    .next (match s.wr.store.active with
      | some b => if slotPasses s b then servingAgain false (serveFrom b s) else s
      | none => s)
  | _, _ => .next s

/-! ## Restart and stop (R440) -/

/-- Live sistering that has not passed step 5 is undone: its threads resume on the old site. DEDUCED (log entry 65). -/
def undoSister (s : State) : State :=
  let s := forEach s.wr.sistering (fun e acc =>
    forEach (thrsOfSrc e.1) (fun t a => updThr t (fun th => { th with parked := false }) a) acc) s
  let us := s.wr.sistering.map (·.1)
  let s := updWr (fun w => { w with sistering := [] }) s
  let s := forEach us (fun u acc => releaseRouter u acc) s
  answerRunning 0x401 (badD stFailed 0xFFFF) s

/-- The Wright restarts: its ready bit clears and hub logic tells the partitions. DEDUCED (log entry 65). -/
def restartWright (update : Bool) (s : State) : State :=
  let s := updWr (fun w => { w with st := .restarting, since := s.time.now }) s
  noticeActive 1 (atB update 0) (setReady (fun r => { r with wright := false }) s)

/-- The Wright stops: every command running or taken is answered UNAVAILABLE. -/
def stopWright (s : State) : State :=
  let s := updWr (fun w => { w with st := .stopped, update := .none, order := [] }) s
  let s := setReady (fun r => { r with wright := false }) s
  let all := (List.finRange 7).map (fun i => Mbox.host (i.castLE (by omega))) ++ [Mbox.mgmt] ++ (List.finRange 16).map Mbox.dev
  forEach all (fun m acc =>
    let b := box acc m
    if b.st = 1 then finishBox m stUnavailable 0 [] b.lastSeq b.tTaken acc else acc) s

/-- WATCHDOG_EXPIRE: 50 ms of TIME without service (R416); a restart, or a stop on the third within 10 s of TIME. ACTIVATE
not yet begun is discarded. DESIGN CHOICE (log entry 112). -/
def execWatchdogExpire (s : State) : Result :=
  if s.wr.st ≠ .serving || s.time.now.toNat < s.wr.wdServed.toNat + 50000000 then .next s else
  let now := s.time.now
  let recent := s.wr.restarts.filter (fun t => decide (now.toNat < t.toNat + 10000000000)) ++ [now]
  let s := updWr (fun w => { w with restarts := recent }) s
  if 3 ≤ recent.length then .next (stopWright s)
  else
    let s := match s.wr.update with
      | .taken m _ => respond m (badD stFailed 0xFFFF) (updWr (fun w => { w with update := .none }) s)
      | _ => s
    .next (restartWright false (undoSister s))

/-! ## Live update (R439) -/

/-- ACTIVATE_RESTART: every command taken before ACTIVATE has completed. -/
def execActivateRestart (s : State) : Result :=
  match s.wr.update with
  | .taken m slot =>
    if (s.wr.st ≠ .serving && s.wr.st ≠ .booting) || s.wr.order.any (fun x => x ≠ m) then .next s
    else .next (restartWright true (updWr (fun w => { w with update := .starting m slot s.time.now }) (undoSister s)))
  | _ => .next s

/-- ACTIVATE_TIMEOUT: 200 ms without the new firmware; the boot ROM restarts the old slot. -/
def execActivateTimeout (s : State) : Result :=
  match s.wr.update with
  | .starting m slot since =>
    if s.time.now.toNat < since.toNat + 200000000 then .next s
    else .next (updWr (fun w => { w with update := .returning m slot }) s)
  | _ => .next s

/-! ## The end of bring-up (R464) -/

/-- Channels and ports that the BRINGUP entry expects, or the defaults of R512. -/
def expectedChans (s : State) : List Nat :=
  match settingOf s.wr.store 12 with
  | some l => bitsOf (BitVec.ofNat 16 (fieldB l 4 2))
  | none => (List.range 16).filter (populated s)

def expectedPorts (s : State) : List Port :=
  match settingOf s.wr.store 12 with
  | some l => (bitsOf (BitVec.ofNat 4 (fieldB l 6 1))).map portOf
  | none => if s.ridge.nsEn then [.W, .E, .N, .S] else [.W, .E]

/-- A partition that a layout configures has started, has failed to start, or is held. -/
def partSettled (s : State) (p : Nat) : Bool :=
  let x := part s p
  match bringupLayout s p with
  | none => true
  | some _ => x.started || x.startFailed || x.hold

def chanSettled (s : State) (c : Nat) : Bool := s.pw.ready.ch.getLsbD c || (chan s c).st = 4
def portSettled (s : State) (x : Port) : Bool := portUp s x || (port s (portIx x)).st = 5

/-- Bring-up is declared done and the next mode is selected. -/
def declareDone (s : State) : State :=
  settleMode (updPw (fun p => { p with bringing := false, bringupDone := true }) s)

/-- BRINGUP_DONE: every function named is ready or has been failed. -/
def execBringupDone (s : State) : Result :=
  if !s.pw.bringing || s.wr.st ≠ .serving || !s.pw.ready.vset then .next s
  else if (expectedChans s).all (chanSettled s) && (expectedPorts s).all (portSettled s)
      && (List.range 8).all (partSettled s) then .next (declareDone s)
  else .next s

/-- BRINGUP_TIMEOUT: what is not ready is failed and logged. -/
def execBringupTimeout (s : State) : Result :=
  if !s.pw.bringing || s.wr.st ≠ .serving || s.time.now.toNat < s.pw.bringupAt.toNat + s.pw.bringupTmo.toNat then .next s
  else
    let s := forEach ((expectedChans s).filter (fun c => !chanSettled s c)) (fun c acc => failTraining c acc) s
    let s := forEach ((expectedPorts s).filter (fun x => !portSettled s x)) (fun x acc => failPort x acc) s
    let s := forEach ((List.range 8).filter (fun p => !partSettled s p)) (fun p acc => failStart p (takeLayout p acc)) s
    .next (declareDone s)

end Sys2Proof.Machine
end

