-- ==== Sys2Proof/Machine/CacheMaint.lean ====
section
/-! DEFINITION. Cache and TLB maintenance (R100, R147, R204). -/
namespace Sys2Proof.Machine

/-- The line's write-back buffer entry, or another request of the bay for it, stands in the way (R233).
DEDUCED (log entry 32). -/
def lineBusy (s : State) (b : Nat) (l : BitVec 42) : Bool :=
  (bay s b).reqs.any (fun r => r.line = l) || (bay s b).wb.any (fun w => w.line = l)

/-- A maintenance access or CZERO is released and waits for its acknowledgement (R178, R204). -/
def releaseMaint (t : Thr) (k : AccKind) (va : Word) (pa : BitVec 48) (s : State) : Nat × State :=
  let th := thr s t
  let a : Access := released s t (plainAccess th.nextSeq th.nextSeq k va pa 64 0)
  (a.id, updThr t (fun th => { th with outst := th.outst ++ [a], nextSeq := th.nextSeq + 2 }) s)

/-- The frame of CCLEAN, CFLUSH, CINV, CZERO and IINV: the address is gs1 (R100). DESIGN CHOICE (log entry 23). -/
def maintInstr (t : Thr) (f : FmtF) (minor : Nat) (need : Priv) (k : AK) (go : Word → BitVec 48 → State → Eff) (s : State) :
    Result :=
  let word := wordF 0x3D f minor
  let c := { plainCheck word (f.gd = 0 && f.imm = 0) with need := need, oldest := true, uses := [(false, f.gs1, 0, k.acc)] }
  .next (runInstr t c (fun th s =>
    let va := (readG th f.gs1).val
    match checkAccess s t k false word va 1 none with
    | .bad e => .raise e s
    | .ok ps => withXlate t k va 1 s (go va (lineAddr (lineOf ((ps.head?.map (·.1)).getD 0))))) s)

/-- A clean, flush or invalidation of a DRAM line by a core asks the home; elsewhere, and on an engine, it completes
at once (R204, R272). DEDUCED (log entry 32). -/
def maintLine (t : Thr) (kind : AccKind) (req : ReqKind) (va : Word) (pa : BitVec 48) (s : State) : Eff :=
  match t with
  | .adze _ => .done s
  | .core i =>
    let l := lineOf pa
    if !isDramLine l then .done s
    else if lineBusy s (i.val / 16) l || olderSameTarget s t pa then .wait s
    else
      let s := (releaseMaint t kind va pa s).2
      .done (if lineServed s l then bayRequest ⟨i.val / 16, by omega⟩ req l (some ⟨i.val / 4, by omega⟩) false false s else s)

def execCclean (t : Thr) (f : FmtF) (s : State) : Result := maintInstr t f 0x0 .U .maint (maintLine t .cclean .cln) s
def execCflush (t : Thr) (f : FmtF) (s : State) : Result := maintInstr t f 0x1 .U .maint (maintLine t .cclean .fls) s
def execCinv (t : Thr) (f : FmtF) (s : State) : Result := maintInstr t f 0x2 .M .maint (maintLine t .cinv .inv) s

/-- 64 zero bytes written where the line stands; poison is cleared. -/
def zeroLine (t : Thr) (pa : BitVec 48) (s : State) : State := storeBytes (some t) pa (List.replicate 64 0) false s

/-- CZERO on a core (R204): where the line is not the bay's yet, it is released and made when it is (R178). -/
def coreZero (i : Fin 640) (va : Word) (pa : BitVec 48) (s : State) : Eff :=
  let t := Thr.core i
  if olderSameTarget s t pa then .wait s
  else if !targetServed s t pa then .done (releaseMaint t .czero va pa s).2
  else match spaceOf pa with
  | .ridge =>
    let r := releaseMaint t .czero va pa s
    match outAccess r.2 t r.1 with
    | some a => .done (ridgeSend t a r.2)
    | none => .done r.2
  | .dram =>
    let l := lineOf pa
    if !linesReady s i [l] then .done (wantLines i true [l] (releaseMaint t .czero va pa s).2)
    else .done (zeroLine t pa (if uncached s i then ownAtL2 (i.val / 16) l s else ownForStore (i.val / 4) l false false 3 s))
  | _ => .done (zeroLine t pa s)

/-- CZERO on an engine: at once in its own scratch, through the store queue elsewhere (R270, R272). -/
def adzeZero (j : Fin 512) (va : Word) (pa : BitVec 48) (s : State) : Eff :=
  let t := Thr.adze j
  if ownScratch j pa then .done (countEvent t 0x24 (zeroLine t pa s))
  else queueStore j (fun th => [plainAccess th.nextSeq th.nextSeq .czero va pa 64 0]) s

def execCzero (t : Thr) (f : FmtF) (s : State) : Result :=
  maintInstr t f 0x3 .U .czero (fun va pa s => match t with
    | .core i => coreZero i va pa s
    | .adze j => adzeZero j va pa s) s

/-- IINV: the line leaves the executing core's L1 instruction cache (R140, R204). It has no effect on an engine (R272). -/
def execIinv (t : Thr) (f : FmtF) (s : State) : Result :=
  match t with
  | .core i => maintInstr t f 0x4 .U .maint (fun _ pa s =>
      .done (if isDramLine (lineOf pa) then l1iDrop (i.val / 4) (lineOf pa) s else s)) s
  | .adze _ => .next (runInstr t (plainCheck (wordF 0x3D f 0x4) (f.gd = 0 && f.imm = 0)) (fun _ s => .done s) s)

/-- A TLB entry that a TLBINV of a scope names (R100, R147). A global entry matches every identifier (R142).
DEDUCED (log entry 22). -/
def tlbInvHit (scope : BitVec 2) (v : Word) (asid : BitVec 16) (e : TlbE) : Bool :=
  if scope = 0 then true
  else if scope = 1 then e.glb || e.asid = v.extractLsb' 0 16
  else if scope = 2 then tlbHit v asid e
  else tlbHit v (v.extractLsb' 48 16) e

/-- TLBINV: matching entries of the core's TLBs and walks in its shim buffer go (R147); on an engine it only checks its
privilege (R269). DEDUCED (log entry 22). -/
def execTlbinv (t : Thr) (f : FmtF) (s : State) : Result :=
  let scope : BitVec 2 := f.imm.extractLsb' 0 2
  let legal := f.gd = 0 && f.imm.extractLsb' 2 10 = 0 && (scope ≠ 0 || f.gs1 = 0)
  let k := { plainCheck (wordF 0x3D f 0x8) legal with
    need := .K, oldest := true, uses := if scope.getLsbD 1 then [(false, f.gs1, 0, 0)] else [] }
  .next (runInstr t k (fun th s =>
    match t with
    | .adze _ => .done s
    | .core i =>
      let hit := tlbInvHit scope (readG th f.gs1).val th.asid
      let keep := fun (l : List TlbE) => l.filter (fun e => !hit e)
      .done (updCore (i.val / 4) (fun c => { c with
        itlb := keep c.itlb, dtlb := keep c.dtlb, stlb := keep c.stlb
        shim := c.shim.filter (fun e => match e.walk with | some w => !hit w | none => true) }) (refetch t s))) s)

end Sys2Proof.Machine
end

