-- ==== Sys2Proof/Machine/CmdInfo.lean ====
section
/-! DEFINITION. Commands that change no state (R427, R428, R429, R431, R434, R435): identity, units, sources, layouts,
rails, slots, settings, logs, registers and attestation. -/
namespace Sys2Proof.Machine

/-! ## Shared checks -/

/-- A unit or partition that a command names lies in what its mailbox may name: any, for a host or management mailbox;
the owning partition's, for a device mailbox (R418, R426). -/
def boxMay (s : State) (m : Mbox) (p : Option Nat) : Bool :=
  match m with
  | .dev _ => p.isSome && decide (partOfBox s m = p)
  | _ => true

/-- Bits of the `k`-th request word outside `mask` are 0. -/
def wordFits (b : MboxSt) (off : Nat) (mask : Word) : Bool := pageWord b off &&& ~~~mask = 0

/-- `n` free bytes, as one little-endian word. -/
def freeWord (s : State) : Word × State :=
  (wordOf ((List.range 8).map (fun i => Config.freeByte (s.fresh + i))), { s with fresh := s.fresh + 8 })

/-! ## Identity (R427) -/

/-- [15:0] command-set version; [16] active slot; [17] committed: the active slot is the boot default (R474). -/
def slotWord (st : Store) : Word :=
  match st.active with
  | none => at' (0x0104 : BitVec 16) 0
  | some b => at' (0x0104 : BitVec 16) 0 ||| atB b 16 ||| atB (bootDefault st = b) 17

/-- GET_IDENTITY; with no active slot nothing gives the slot bit and FW_VERSION. -/
def getIdentity (s : State) : Answer × State :=
  match s.wr.store.active with
  | some _ => (ok (bytesOf 8 (identWord s) ++ bytesOf 8 Config.serial ++ bytesOf 8 (slotWord s.wr.store)
      ++ bytesOf 8 (activeVersion s)), s)
  | none =>
    let (v, s1) := freeWord s
    let (a, s2) := freeBit s1
    (ok (bytesOf 8 (identWord s) ++ bytesOf 8 Config.serial ++ bytesOf 8 (slotWord s.wr.store ||| atB a 16)
      ++ bytesOf 8 v), s2)

def execGetIdentity (m : Mbox) (s : State) : Result :=
  command m 0x101 false (plenIs 0) (fun _ s => getIdentity s) s

/-- The 2 bytes of a bay in GET_UNITS. -/
def bayUnits (y : Bay) : List Byte :=
  bytesOf 2 (at' y.site0 0 ||| at' y.site1 3 ||| at' y.site2 6 ||| at' y.site3 9 ||| at' y.spare 12 ||| atB y.failed 15)

/-- The byte of an engine in GET_UNITS. -/
def engineUnits (s : State) (e : Fin 64) : List Byte :=
  bytesOf 1 (at' (siteOf s (.engine e)) 0 ||| atB (engine s e.val).outOfService 7)

def unitBytes (s : State) : List Byte :=
  (List.range 40).flatMap (fun k => bayUnits (bay s k)) ++ (List.finRange 64).flatMap (engineUnits s)
    ++ bytesOf 8 (at' (~~~s.pw.spareUsed) 0)

def execGetUnits (m : Mbox) (s : State) : Result :=
  command m 0x102 false (plenIs 0) (fun _ s => (ok (unitBytes s), s)) s

/-- The source that a kind and an index name. -/
def srcNamed (kind ix : Nat) : Option Src :=
  if kind = 0 then (if h : ix < 160 then some (.core ⟨ix, h⟩) else none)
  else if kind = 1 then (if h : ix < 64 then some (.engine ⟨ix, h⟩) else none)
  else if kind = 2 then (if h : ix < 40 then some (.bay ⟨ix, h⟩) else none)
  else none

def getSource (m : Mbox) (b : MboxSt) (s : State) : Answer × State :=
  let w := pageWord b 0x40
  match srcNamed (fld w 0 2).toNat (fld w 8 8).toNat with
  | none => (bad stBadParam, s)
  | some x =>
    if !wordFits b 0x40 0xFF03 then (bad stBadParam, s)
    else if !boxMay s m (partOfSrc s x) then (bad stDenied, s)
    else
      let e := srcEnt s x
      (ok (bytesOf 8 (at' e.gen 0 ||| at' (siteOf s x) 16 ||| atB e.isOpen 24) ++ bytesOf 8 e.tChange), s)

def execGetSource (m : Mbox) (s : State) : Result := command m 0x103 false (plenIs 8) (getSource m) s

/-! ## Layouts (R428) -/

/-- Queues that a partition serves; at the default of R36 partition 0 holds every ingress queue that no other serves. -/
def queuesOf (s : State) (p : Nat) : Nat :=
  if p = 0 && (settingsOf s.wr.store 3).isEmpty then
    1024 - (s.queue.filter (fun e => e.2.slot.isSome && e.2.part.toNat ≠ 0)).length
  else (s.queue.filter (fun e => e.2.slot.isSome && decide (e.2.part.toNat = p))).length

def partStCode : PartSt → BitVec 3
  | .unused => 0
  | .active => 1
  | .standby => 2
  | .down => 3
  | .restarting => 4

/-- The bytes of a layout L; an UNUSED partition has N = 0. -/
def layoutBytes (s : State) (p : Nat) : List Byte :=
  let x := part s p
  let sb : BitVec 3 := match x.standby with | some q => BitVec.ofNat 3 q.val | none => 0
  let rs := if x.st = .unused then [] else x.ranges
  bytesOf 8 (at' (BitVec.ofNat 3 p) 0 ||| atB x.hold 3 ||| at' sb 4 ||| atB x.standby.isSome 7 ||| at' (partStCode x.st) 8
      ||| at' x.dmbox 16 ||| at' (BitVec.ofNat 16 (queuesOf s p)) 32)
    ++ bytesOf 8 (at' x.bays 0) ++ bytesOf 8 x.engines ++ bytesOf 8 (BitVec.ofNat 64 rs.length)
    ++ rs.flatMap (fun g => bytesOf 2 (g.setWidth 64))

def partGet (m : Mbox) (b : MboxSt) (s : State) : Answer × State :=
  let p := (fld (pageWord b 0x40) 0 3).toNat
  if !wordFits b 0x40 7 then (bad stBadParam, s)
  else if !boxMay s m (some p) then (bad stDenied, s)
  else (ok (layoutBytes s p), s)

def execPartGet (m : Mbox) (s : State) : Result := command m 0x201 false (plenIs 8) (partGet m) s

/-! ## Rails (R429) -/

/-- The doubleword of a rail in PWR_GET. -/
def railWord (s : State) (r : Nat) : Word :=
  let x := rail s r
  let d := die s r
  at' x.set 0 ||| at' x.meas 16 ||| at' d.tj 32 ||| atB x.warn 48 ||| atB d.hot 49

def execPwrGet (m : Mbox) (s : State) : Result :=
  command m 0x301 false (plenIs 0) (fun _ s => (ok ((List.range 5).flatMap (fun r => bytesOf 8 (railWord s r))), s)) s

/-! ## Store (R431) -/

/-- The 112 bytes of a slot in SLOT_INFO. -/
def slotInfo (st : Store) (b : Bool) : List Byte :=
  let x := slotOf st b
  bytesOf 8 (at' x.cond 0 ||| at' (BitVec.ofNat 8 (rbIndex x)) 8 ||| atB (st.active = some b) 16 ||| atB (bootDefault st = b) 17)
    ++ bytesOf 8 (fwVersion x) ++ slotBytes x 0x20 48 ++ slotBytes x 0x50 48

def execSlotInfo (m : Mbox) (s : State) : Result :=
  command m 0x501 false (plenIs 0) (fun _ s =>
    let st := s.wr.store
    (ok (slotInfo st false ++ slotInfo st true ++ bytesOf 8 (at' st.fuse 0)), s)) s

/-- SETTINGS_GET; a page holds at most 4,032 bytes of a value. -/
def settingsGet (b : MboxSt) (s : State) : Answer × State :=
  if !wordFits b 0x40 0xFFFF then (bad stBadParam, s) else
  match settingOf s.wr.store (fld (pageWord b 0x40) 0 16).toNat with
  | none => (badD stFailed 1, s)
  | some l => (ok (l.take 4032), s)

def execSettingsGet (m : Mbox) (s : State) : Result := command m 0x506 false (plenIs 8) settingsGet s

/-! ## Logs and registers (R434) -/

/-- An error-log entry's 32 bytes (R433). -/
def logBytes (e : LogE) : List Byte :=
  bytesOf 8 e.time ++ bytesOf 8 (at' e.seq 0 ||| at' e.type 32) ++ bytesOf 8 e.a ++ bytesOf 8 e.b

/-- Entries from FROM on, SEQ values compared modulo 2^32. -/
def logFrom (w : Wright) (frm : BitVec 32) (max : Nat) : List LogE :=
  let oldest := w.logNext - BitVec.ofNat 32 w.log.length
  if 0 ≤ (frm - w.logNext).toInt then []
  else if (frm - oldest).toInt < 0 then w.log.take max
  else (w.log.drop (frm - oldest).toNat).take max

/-- LOG_READ; with no entry returned nothing gives the SEQ of the first. -/
def logRead (b : MboxSt) (s : State) : Answer × State :=
  let w := pageWord b 0x40
  let max := (fld w 32 7).toNat
  if !wordFits b 0x40 0x7FFFFFFFFF || max = 0 || 125 < max then (bad stBadParam, s) else
  let l := logFrom s.wr (fld w 0 32) max
  let oldest := s.wr.logNext - BitVec.ofNat 32 s.wr.log.length
  let (first, s') : BitVec 32 × State := match l with
    | e :: _ => (e.seq, s)
    | [] => ((freeWord s).1.extractLsb' 0 32, (freeWord s).2)
  (ok (bytesOf 8 (at' first 0 ||| at' (BitVec.ofNat 7 l.length) 32) ++ bytesOf 8 (at' oldest 0 ||| at' s.wr.logNext 32)
    ++ l.flatMap logBytes), s')

def execLogRead (m : Mbox) (s : State) : Result := command m 0x701 false (plenIs 8) logRead s

/-- Held records of a queue from a sequence number on. -/
def heldFrom (s : State) (q : Nat) (frm : BitVec 32) : List Nat :=
  ((closingOf s q).filter (fun e => decide (0 ≤ ((entry s e).seq - frm).toInt))).take 62

def heldRecordsGet (b : MboxSt) (s : State) : Answer × State :=
  let w := pageWord b 0x40
  if !wordFits b 0x40 0xFFFFFFFF000003FF then (bad stBadParam, s) else
  let l := heldFrom s (fld w 0 10).toNat (fld w 32 32)
  let r := l.foldl (fun (acc : List Byte × State) e =>
    (acc.1 ++ recordBytes acc.2 (entry acc.2 e), { acc.2 with fresh := acc.2.fresh + 8 })) ([], s)
  (ok (bytesOf 8 (BitVec.ofNat 64 l.length) ++ bytesOf 8 0 ++ r.1), r.2)

def execHeldRecords (m : Mbox) (s : State) : Result := command m 0x702 false (plenIs 8) heldRecordsGet s

def execModeHistory (m : Mbox) (s : State) : Result :=
  command m 0x703 false (plenIs 0) (fun _ s =>
    (ok (s.wr.history.flatMap (fun e => bytesOf 8 e.1 ++ bytesOf 8 (at' e.2 0))), s)) s

/-- REG_READ: words of the hub register region. -/
def regRead (b : MboxSt) (s : State) : Answer × State :=
  let a := (pageWord b 0x40).toNat
  let n := (fld (pageWord b 0x48) 0 10).toNat
  if !wordFits b 0x48 0x3FF || n = 0 || 504 < n || a % 8 ≠ 0 || a < 0xF00018000000 || 0xF00020000000 < a + 8 * n then
    (bad stBadParam, s)
  else (ok ((List.range n).flatMap (fun i => bytesOf 8 (deviceRead s (BitVec.ofNat 48 (a + 8 * i)) 8))), s)

def execRegRead (m : Mbox) (s : State) : Result := command m 0x704 false (plenIs 16) regRead s

/-! ## Attestation (R435) -/

/-- SHA-384 of bytes, 48 bytes long. -/
def digest (l : List Byte) : List Byte := padTo 48 (Config.sha384 l)

/-- The active slot's firmware and settings bytes. -/
def activeArea (st : Store) (off len : Nat) : List Byte :=
  match st.active with
  | some b => slotBytes (slotOf st b) (slotNat (slotOf st b) off 4) (slotNat (slotOf st b) len 4)
  | none => []

/-- Report bytes 0x000 to 0x107. -/
def report (nonce : List Byte) (s : State) : List Byte :=
  let st := s.wr.store
  bytesOf 8 (at' (0x0001 : BitVec 16) 0 ||| at' (0x0168 : BitVec 16) 16 ||| at' (deviceId s) 32 ||| at' (0x10 : BitVec 8) 48)
    ++ bytesOf 8 Config.serial ++ nonce ++ bytesOf 8 s.time.now
    ++ bytesOf 8 (atB (st.active = some true) 0 ||| atB (st.active = some (bootDefault st)) 1 ||| at' st.fuse 8
      ||| at' (0x0104 : BitVec 16) 16)
    ++ bytesOf 8 (activeVersion s) ++ digest (activeArea st 0x10 0x14) ++ digest (activeArea st 0x18 0x1C)
    ++ padTo 48 Config.storeKeyHash ++ digest ((List.range 8).flatMap (layoutBytes s))

def attest (b : MboxSt) (s : State) : Answer × State :=
  let r := report (pageBytes b 0x40 32) s
  (ok (r ++ padTo 96 (Config.identitySign (digest r))), s)

def execAttest (m : Mbox) (s : State) : Result := command m 0x801 false (plenIs 32) attest s

def execGetIdKey (m : Mbox) (s : State) : Result :=
  command m 0x802 false (plenIs 0) (fun _ s => (ok (padTo 97 Config.identityKey), s)) s

end Sys2Proof.Machine
end

