-- ==== Sys2Proof/Machine/CmdHost.lean ====
section
/-! DEFINITION. Instance and queue commands (R282, R283, R305, R366, R374, R380, R384, R432). -/
namespace Sys2Proof.Machine

/-! ## Instances -/

/-- Layout I has only its own bits set. -/
def instFits (b : MboxSt) : Bool :=
  let w := pageWord b 0x40
  let base := (fld w 16 11).toNat
  let n := (fld w 32 12).toNat
  wordFits b 0x40 0xFFF07FF00FF && n ≤ 2048 && base + n ≤ 2048 &&
    (List.range 8).all (fun k => wordFits b (0x48 + 16 * k) 0xFFFFFFFFFFFFF001 && wordFits b (0x50 + 16 * k) 0xFFFFFFFFFFFFF000)

def instNamed (b : MboxSt) : Nat := (fld (pageWord b 0x40) 0 8).toNat

/-- Two blocks of vectors share one. -/
def blocksMeet (a n b m : Nat) : Bool := a < b + m && b < a + n

/-- The block shares a vector with another instance's. -/
def blockTaken (s : State) (i base n : Nat) : Bool :=
  s.inst.any (fun e => e.1 ≠ i && e.2.st ≠ 0 && blocksMeet base n e.2.vecBase.toNat e.2.vecCount.toNat)

/-- Vectors and ranges of Layout I. -/
def takeInst (b : MboxSt) (x : Inst) : Inst :=
  let w := pageWord b 0x40
  { x with vecBase := fld w 16 11, vecCount := fld w 32 12, dma := rangesOf (pageBytes b 0x40 0x88) }

def instCreate (b : MboxSt) (s : State) : Answer × State :=
  let i := instNamed b
  let w := pageWord b 0x40
  if !instFits b then (bad stBadParam, s)
  else if s.pw.fenced || (inst s i).st ≠ 0 then (bad stState, s)
  else if blockTaken s i (fld w 16 11).toNat (fld w 32 12).toNat then (bad stLimit, s)
  else (ok [], updInst i (fun _ => takeInst b { Inst.reset with st := 1 }) s)

def execInstCreate (m : Mbox) (s : State) : Result := command m 0x601 true (plenIs 0x88) instCreate s

/-- A queue of the instance signals a vector outside the block. -/
def vectorUsed (s : State) (i base n : Nat) : Bool :=
  s.queue.any (fun e => ownedByInst e.2 i && e.2.vecEn && !(base ≤ e.2.vector.toNat && e.2.vector.toNat < base + n))

def instModify (b : MboxSt) (s : State) : Answer × State :=
  let i := instNamed b
  let w := pageWord b 0x40
  let base := (fld w 16 11).toNat
  let n := (fld w 32 12).toNat
  if !instFits b then (bad stBadParam, s)
  else if s.pw.fenced || (inst s i).st = 0 || vectorUsed s i base n then (bad stState, s)
  else if blockTaken s i base n then (bad stLimit, s)
  else (ok [], updInst i (takeInst b) s)

def execInstModify (m : Mbox) (s : State) : Result := command m 0x602 true (plenIs 0x88) instModify s

/-- INST_DESTROY; instance 0 stays. -/
def instDestroy (b : MboxSt) (s : State) : Answer × State :=
  let i := instNamed b
  if !wordFits b 0x40 0xFF then (bad stBadParam, s)
  else if s.pw.fenced || i = 0 || (inst s i).st = 0 || (inst s i).qmap ≠ [] then (bad stState, s)
  else (ok [], updInst i (fun _ => Inst.reset) s)

def execInstDestroy (m : Mbox) (s : State) : Result := command m 0x603 true (plenIs 8) instDestroy s

def instResetBy (b : MboxSt) (s : State) : Answer × State :=
  let i := instNamed b
  if !wordFits b 0x40 0xFF then (bad stBadParam, s)
  else if s.pw.fenced || (inst s i).st = 0 then (bad stState, s)
  else (ok [], resetInst i s)

def execInstReset (m : Mbox) (s : State) : Result := command m 0x604 true (plenIs 8) instResetBy s

/-! ## Queues -/

def queueNamed (b : MboxSt) : Fin 1024 := (fld (pageWord b 0x40) 0 10).toFin
def slotOfQueue (b : MboxSt) : Fin 256 := (fld (pageWord b 0x40) 24 8).toFin
def instOfQueue (b : MboxSt) : Nat := (fld (pageWord b 0x40) 16 8).toNat

/-- The images have no reserved bit or code, the quota fits the ring, and INST agrees (R282, R432). -/
def imagesFit (b : MboxSt) : Bool :=
  let c := pageWord b 0x48
  let rs := (fld c 18 4).toNat
  wordFits b 0x40 0xFFFF03FF && (c &&& 0x7C00000000C00080 = 0) && wordFits b 0x58 0xFFFFFFFFFFFFF000 && rs ≤ 10 &&
    (fld c 16 2 ≠ 0) && (fld c 40 8 ≠ 0) && (fld c 48 5).toNat ≤ 27 && (fld c 53 5).toNat ≤ 27 &&
    (fld c 24 16).toNat ≤ 2 ^ (rs + 6) && (fld c 8 8).toNat = instOfQueue b

/-- The rings lie in the instance's ranges and the vector in its block; an inline queue has no descriptor ring (R380). -/
def ringsFit (b : MboxSt) (x : Inst) : Bool :=
  let c := pageWord b 0x48
  let d := pageWord b 0x50
  let len := 64 * 2 ^ ((fld c 18 4).toNat + 6)
  let v := (fld d 0 11).toNat
  (bit c 1 || dmaOk x ((fld d 12 52).toNat * 4096) len) && dmaOk x ((fld (pageWord b 0x58) 12 52).toNat * 4096) len &&
    (!bit d 11 || (x.vecBase.toNat ≤ v && v < x.vecBase.toNat + x.vecCount.toNat))

/-- The queue's registers take the images; EN and QUENCHED stay. -/
def takeImages (b : MboxSt) (x : Queue) : Queue :=
  let y := writeQringD (pageWord b 0x50) (writeQcfg (pageWord b 0x48) x)
  { y with en := x.en, cplBase := fld (pageWord b 0x58) 12 52 }

/-- A STANDBY partition that holds a queue is ACTIVE (R34, R428). -/
def servesQueue (p : Nat) (s : State) : State :=
  settleMode (updPart p (fun x => { x with st := if x.st = .standby then .active else x.st }) s)

/-- DEDUCED (log entry 69). -/
def queueSetup (b : MboxSt) (s : State) : Answer × State :=
  let q := queueNamed b
  let i := instOfQueue b
  let j := slotOfQueue b
  if !imagesFit b then (bad stBadParam, s)
  else if s.pw.fenced || (inst s i).st = 0 || (queue s q.val).slot.isSome || heldOf s q.val ≠ 0
      || (look none (inst s i).qmap j.val).isSome then (bad stState, s)
  else if !ringsFit b (inst s i) then (bad stBadParam, s)
  else
    let s := updQueue q.val (fun x => { takeImages b x with en := false, armed := false, slot := some j }) s
    let s := updInst i (fun x => { x with qmap := put none x.qmap j.val (some q) }) s
    (ok [], servesQueue (queue s q.val).part.toNat s)

def execQueueSetup (m : Mbox) (s : State) : Result := command m 0x605 true (plenIs 0x20) queueSetup s

/-- Fields that only a queue with EN = 0 and HELD = 0 may change differ (R282). -/
def frozenDiffer (x y : Queue) : Bool :=
  x.part ≠ y.part || x.inlineMode ≠ y.inlineMode || x.rsize ≠ y.rsize || x.descBase ≠ y.descBase || x.cplBase ≠ y.cplBase

/-- DEDUCED (log entry 69). -/
def queueModify (b : MboxSt) (s : State) : Answer × State :=
  let q := queueNamed b
  let i := instOfQueue b
  let x := queue s q.val
  let y := takeImages b x
  let counted : Bool := x.en || heldOf s q.val ≠ 0
  if !imagesFit b then (bad stBadParam, s)
  else if s.pw.fenced || (inst s i).st = 0 || look none (inst s i).qmap (slotOfQueue b).val ≠ some q then (bad stState, s)
  else if !ringsFit b (inst s i) then (bad stBadParam, s)
  else if (counted && frozenDiffer x y) || (x.en && y.cls = 0 && !s.ep.cfg.vc1En) then (bad stState, s)
  else if counted && !sumsFit s q.val y.quota.toNat y.inlineMode then (bad stLimit, s)
  else (ok [], servesQueue y.part.toNat (updQueue q.val (fun _ => y) s))

def execQueueModify (m : Mbox) (s : State) : Result := command m 0x606 true (plenIs 0x20) queueModify s

/-- Re-arming: the held records go out in sequence order (R304, R305, R384). -/
def rearm (q i : Nat) (s : State) : State :=
  let s := updQueue q (fun x => { x with en := true, armed := true, floor := floorOf s q }) s
  deliverQueue q (updInst i (fun x => { x with st := if x.st = 3 then 1 else x.st }) s)

def queueEnable (b : MboxSt) (s : State) : Answer × State :=
  let q := queueNamed b
  let x := queue s q.val
  let i := x.inst.toNat
  let en := bit (pageWord b 0x40) 16
  let r := bytesOf 8 (at' x.ai 0 ||| at' x.floor 32)
  if !wordFits b 0x40 0x103FF then (bad stBadParam, s)
  else if s.pw.fenced || x.slot.isNone || (inst s i).st = 2 || (en && x.cls = 0 && !s.ep.cfg.vc1En) then (bad stState, s)
  else if en && !sumsFit s q.val x.quota.toNat x.inlineMode then (bad stLimit, s)
  else if en then (ok r, rearm q.val i s)
  else (ok r, updQueue q.val (fun x => { x with en := false }) s)

def execQueueEnable (m : Mbox) (s : State) : Result := command m 0x607 true (plenIs 8) queueEnable s

def queueRemove (b : MboxSt) (s : State) : Answer × State :=
  let q := queueNamed b
  let x := queue s q.val
  if !wordFits b 0x40 0x3FF then (bad stBadParam, s)
  else match x.slot with
    | none => (bad stState, s)
    | some j =>
      if s.pw.fenced || x.en || heldOf s q.val ≠ 0 then (bad stState, s)
      else
        let s := updInst x.inst.toNat (fun y => { y with qmap := put none y.qmap j.val none }) s
        (ok [], updQueue q.val (fun y => { y with slot := none, armed := false }) s)

def execQueueRemove (m : Mbox) (s : State) : Result := command m 0x608 true (plenIs 8) queueRemove s

/-- SET_HOST_ROUTE: what waited for a head goes on (R366). -/
def setHostRoute (b : MboxSt) (s : State) : Answer × State :=
  let w := pageWord b 0x40
  if !wordFits b 0x40 0x7F then (bad stBadParam, s)
  else (ok [], pumpEndpoint (deliverAll (updEp (fun e => { e with headPos := fld w 0 6, routeValid := bit w 6 }) s)))

def execSetHostRoute (m : Mbox) (s : State) : Result := command m 0x609 true (plenIs 8) setHostRoute s

end Sys2Proof.Machine
end

