-- ==== Sys2Proof/Machine/CmdPart.lean ====
section
/-! DEFINITION. Partition commands that change state (R31 to R36, R202, R428). -/
namespace Sys2Proof.Machine

/-! ## What may move (R36, R202) -/

/-- A partition's bay list may change. -/
def movable (s : State) (p : Nat) : Bool :=
  (part s p).st = .unused || (part s p).st = .standby || (part s p).st = .restarting

/-- Every thread of the engine is not started. -/
def engineIdle (s : State) (e : Nat) : Bool := (thrsOfEngine e).all (fun t => decide ((thr s t).run = .notStarted))

/-- Partitions other than `p`. -/
def otherParts (p : Nat) : List Nat := (List.range 8).filter (fun q => q ≠ p)

/-- Bays move only between partitions that may both change their lists. -/
def baysMayMove (s : State) (x : Layout) : Bool :=
  (x.bays = (part s x.p).bays || movable s x.p) &&
    (otherParts x.p).all (fun q => (part s q).bays &&& x.bays = 0 || movable s q)

/-- An engine moves under the same condition, or while it is idle. -/
def enginesMayMove (s : State) (x : Layout) : Bool :=
  (List.range 64).all (fun e =>
    let owner := partOfEngine s e
    let after : Option Nat := if x.engines.getLsbD e then some x.p else if owner = some x.p then none else owner
    let both := movable s x.p && (match owner with | some q => movable s q | none => true)
    after = owner || engineIdle s e || both)

/-- Ranges a partition keeps when `x` takes its own. -/
def rangesLeft (s : State) (q : Nat) (x : Layout) : List (BitVec 13) :=
  (part s q).ranges.filter (fun g => !x.ranges.contains g)

/-- The layout takes something from partition `q`. -/
def losesTo (s : State) (q : Nat) (x : Layout) : Bool :=
  let y := part s q
  (y.bays &&& x.bays ≠ 0) || (y.engines &&& x.engines ≠ 0) || (y.dmbox &&& x.dmbox ≠ 0) || rangesLeft s q x ≠ y.ranges

/-- Partition `q` would be left with a resource but with no bay or no memory range (R31). -/
def leftShort (s : State) (q : Nat) (x : Layout) : Bool :=
  let b := (part s q).bays &&& ~~~x.bays
  let e := (part s q).engines &&& ~~~x.engines
  let r := rangesLeft s q x
  losesTo s q x && ((b ≠ 0) || (e ≠ 0) || r ≠ [] || holdsQueue s q) && (b = 0 || r = [])

/-- PART_SET may apply the layout. -/
def layoutFits (s : State) (x : Layout) : Bool :=
  baysMayMove s x && enginesMayMove s x && !(otherParts x.p).any (fun q => leftShort s q x)

/-! ## Moving -/

/-- Lines of some 1 GiB ranges are written back, and every copy and directory entry of them goes (R36, R202). -/
def cleanRanges (gs : List (BitVec 13)) (s : State) : State :=
  let mine := fun (l : BitVec 42) => isDramLine l && gs.contains ((lineAddr l).extractLsb' 30 13)
  let s := forEach s.old (fun e acc =>
    if mine (BitVec.ofNat 42 e.1) then cleanLine (BitVec.ofNat 42 e.1) acc else acc) s
  dropCopiesIf mine s

/-- Ranges whose lines must be written back before the layout applies: those of every partition whose bay list changes,
and those that move. -/
def rangesToClean (s : State) (x : Layout) : List (BitVec 13) :=
  let old := (part s x.p).ranges
  let moved := old.filter (fun g => !x.ranges.contains g) ++ x.ranges.filter (fun g => !old.contains g)
  let own := if x.bays = (part s x.p).bays then [] else old ++ x.ranges
  moved ++ own ++ (otherParts x.p).flatMap (fun q => if (part s q).bays &&& x.bays = 0 then [] else (part s q).ranges)

/-- Sources among some bays and engines (R30). -/
def sourcesAmong (bays : BitVec 40) (engines : BitVec 64) : List Src :=
  ((List.finRange 40).filter (fun b => bays.getLsbD b.val)).map Src.bay ++
    ((List.finRange 160).filter (fun c => bays.getLsbD (c.val / 4))).map Src.core ++
    ((List.finRange 64).filter (fun e => engines.getLsbD e.val)).map Src.engine

/-- The other partitions give up what the layout takes; one left with nothing is UNUSED (R34). -/
def giveUp (x : Layout) (s : State) : State :=
  forEach (otherParts x.p) (fun q acc =>
    if !losesTo acc q x then acc else
    let acc := updPart q (fun y => { y with
      bays := y.bays &&& ~~~x.bays, engines := y.engines &&& ~~~x.engines, dmbox := y.dmbox &&& ~~~x.dmbox
      ranges := y.ranges.filter (fun g => !x.ranges.contains g) }) acc
    let y := part acc q
    let acc := if y.bays = 0 && y.engines = 0 && y.ranges = [] && !holdsQueue acc q then
        updPart q (fun y => { y with st := .unused, hold := false, standby := none, started := false, startFailed := false }) acc
      else acc
    notice q 3 (BitVec.ofNat 64 q) acc) s

/-- State that the partition is in once its layout is applied: an UNUSED one, or one whose start failed, starts, or is held
RESTARTING. -/
def afterLayout (was : PartSt) (hold : Bool) (y : Part) : Part :=
  match was with
  | .unused => if hold then { y with st := .restarting, hold := true, salvaged := true, reason := 2 }
      else { y with hold := false, startFailed := false, reason := 2 }
  | .restarting => { y with
      hold := hold, startFailed := false
      salvaged := y.salvaged || y.startFailed, reason := if y.startFailed then 2 else y.reason }
  | _ => y

/-- Apply a layout to a running device. DEDUCED (log entry 67). -/
def setLayout (x : Layout) (s : State) : State :=
  let old := part s x.p
  let s := cleanRanges (rangesToClean s x) s
  let gainB := x.bays &&& ~~~old.bays
  let lostB := old.bays &&& ~~~x.bays
  let gainE := x.engines &&& ~~~old.engines
  let lostE := old.engines &&& ~~~x.engines
  let box := (x.dmbox ^^^ old.dmbox)
  let s := giveUp x s
  let s := updPart x.p (afterLayout old.st x.hold) (applyLayout { x with hold := old.hold } s)
  let s := resetUnits (gainB ||| lostB) (gainE ||| lostE) box s
  let s := markSources (sourcesAmong (gainB ||| lostB) (gainE ||| lostE)) false s
  let serves : Bool := old.st = .active || old.st = .standby
  let s := if serves then markSources (sourcesAmong gainB gainE) true s else s
  settleMode (notice x.p 3 (BitVec.ofNat 64 x.p) s)

/-! ## The commands (R428) -/

/-- Length of a layout of N ranges. -/
def layoutLen : MboxSt → Nat → Bool := fun b k => k = 0x20 + 2 * (pageNat b 0x58 1 % 128)

/-- DEDUCED (log entry 67). -/
def partSet (b : MboxSt) (s : State) : Answer × State :=
  match parseLayout (pageBytes b 0x40 (boxPlen b)) with
  | none => (bad stBadParam, s)
  | some x =>
    if x.bays = 0 then (bad stBadParam, s)
    else if s.pw.fenced || !layoutFits s x then (bad stState, s)
    else (ok [], setLayout x s)

def execPartSet (m : Mbox) (s : State) : Result := command m 0x202 true layoutLen partSet s

/-- The partition that the first request word names. -/
def partNamed (b : MboxSt) : Nat := (fld (pageWord b 0x40) 0 3).toNat

/-- OWNED items of a partition. -/
def ownedOf (s : State) (p : Nat) : Nat :=
  (s.led.ent.filter (fun e => e.2.st = .owned && (match e.2.owner with
    | some t => decide (partOf s t = some p)
    | none => false))).length

/-- PART_STOP: DOWN with cause ORDERED. DEDUCED (log entry 68). -/
def partStop (b : MboxSt) (s : State) : Answer × State :=
  let p := partNamed b
  if !wordFits b 0x40 0xF then (bad stBadParam, s)
  else if s.pw.fenced || ((part s p).st ≠ .active && (part s p).st ≠ .standby) then (bad stState, s)
  else
    let n := ownedOf s p
    let s := updPart p (fun x => { x with hold := bit (pageWord b 0x40) 3 }) s
    (ok (bytesOf 8 (BitVec.ofNat 64 n)), reportCoherence p 9 0x3F none s)

def execPartStop (m : Mbox) (s : State) : Result := command m 0x203 true (plenIs 8) partStop s

/-- PART_START: the restart of a held partition goes on. DEDUCED (log entry 68). -/
def partStart (b : MboxSt) (s : State) : Answer × State :=
  let p := partNamed b
  if !wordFits b 0x40 7 then (bad stBadParam, s)
  else if s.pw.fenced || (part s p).st ≠ .restarting || !(part s p).hold then (bad stState, s)
  else (ok [], updPart p (fun x => { x with hold := false }) s)

def execPartStart (m : Mbox) (s : State) : Result := command m 0x204 true (plenIs 8) partStart s

/-- PART_STANDBY. -/
def partStandby (b : MboxSt) (s : State) : Answer × State :=
  let p := partNamed b
  let w := pageWord b 0x40
  let q : Fin 8 := (fld w 4 3).toFin
  if !wordFits b 0x40 0xF7 then (bad stBadParam, s)
  else if s.pw.fenced then (bad stState, s)
  else if bit w 7 then
    if (part s p).st ≠ .active || (part s q.val).st ≠ .standby then (bad stState, s)
    else (ok [], updPart p (fun x => { x with standby := some q }) s)
  else if (part s p).st = .unused then (bad stState, s)
  else (ok [], updPart p (fun x => { x with standby := none }) s)

def execPartStandby (m : Mbox) (s : State) : Result := command m 0x205 true (plenIs 8) partStandby s

/-- A partition with nothing: UNUSED. -/
def unusedPart (x : Part) : Part := { x with
  st := .unused, bays := 0, engines := 0, ranges := [], dmbox := 0, standby := none, hold := false, downUnit := none
  salvaged := false, started := false, startFailed := false, reason := 0, braceTimes := [], credits := [], lastq := [] }

/-- Release every resource of a partition. -/
def freePart (p : Nat) (s : State) : State :=
  let x := part s p
  let s := cleanRanges x.ranges s
  let s := markSources (sourcesOf s p) false (dropMessages p s)
  let s := resetUnits x.bays x.engines x.dmbox s
  let s := setReady (fun r => { r with part := setBit r.part p false, bay := r.bay &&& ~~~x.bays }) s
  settleMode (updPart p unusedPart s)

/-- PART_FREE; a DOWN partition waits for its salvage (R36). -/
def partFree (b : MboxSt) (s : State) : Answer × State :=
  let p := partNamed b
  if !wordFits b 0x40 7 then (bad stBadParam, s)
  else if s.pw.fenced || !movable s p || holdsQueue s p then (bad stState, s)
  else (ok [], freePart p s)

def execPartFree (m : Mbox) (s : State) : Result := command m 0x206 true (plenIs 8) partFree s

end Sys2Proof.Machine
end

