-- ==== Sys2Proof/Machine/Ordering.lean ====
section
/-! DEFINITION. Released stores and their ends: STORE_RELEASE, STORE_QUEUE_SEND, COMPLETION_ACK, ACCESS_TIMEOUT and
TARGET_ABSENT_REPORT (R152 to R155, R178 to R182, R270), and the two reservation timers (R173, R176). -/
namespace Sys2Proof.Machine

/-! ## Release -/

/-- The pieces of the oldest store of the buffer or queue. -/
def headStore (th : Thread) : List Access :=
  match th.stores with
  | [] => []
  | a :: _ => th.stores.filter (fun b => b.seq = a.seq)

/-- A released store goes toward its target: a core asks for its DRAM line, an engine sends HWR, a window store goes out
on the ridge; other targets take it at COMPLETION_ACK. -/
def sendStore (t : Thr) (a : Access) (s : State) : State :=
  match spaceOf a.pa, t with
  | .ridge, _ => ridgeSend t a s
  | .dram, .core i => if targetServed s t a.pa then wantExclusive i (a.kind = .czero) a.nt (lineOf a.pa) s else s
  | .dram, .adze j =>
    if lineServed s (lineOf a.pa) then
      engineRequest j a.id .hwr (lineOf a.pa) (linePlaced a) (lineMask a) a.poison a.nt s
    else s
  | _, _ => s

/-- The oldest store leaves: its timeout starts (R155, R178). An STL leaves only once every older access is performed
(R163). -/
def releaseHead (t : Thr) (s : State) : State :=
  let th := thr s t
  let ps := headStore th
  if ps.isEmpty || ps.any (fun a => !a.conf || (a.ordered && !th.outst.isEmpty)) || (die s (dieOfThr t)).stalled then s
  else
    let out := ps.map (released s t)
    let s := updThr t (fun th => { th with
      stores := th.stores.filter (fun b => ps.all (fun a => a.seq ≠ b.seq)), outst := th.outst ++ out }) s
    forEach out (fun a acc => sendStore t a acc) s

/-- An older store of the thread to the same target is outstanding (R153). -/
def olderOut (s : State) (t : Thr) (a : Access) : Bool :=
  ((thr s t).outst.takeWhile (fun b => b.id ≠ a.id)).any (fun b =>
    (b.kind = .store || b.kind = .czero) && b.seq ≠ a.seq && !isDevice (spaceOf b.pa) && targetOf s b.pa = targetOf s a.pa)

/-- The next store of an engine is for a home that has not acknowledged an older one: its HWR might be performed first,
were the older one refused, so it waits (R153, R230). DEDUCED (log entry 25). -/
def homeAhead (s : State) (t : Thr) : Bool :=
  isAdze t && (headStore (thr s t)).any (fun a => isDramLine (lineOf a.pa) && olderOut s t a)

/-- STORE_RELEASE; on an engine the store queue sends its oldest store, at most 16 unacknowledged (R155, R270). -/
def releaseStore (t : Thr) (s : State) : State :=
  if isAdze t && (16 ≤ storeEntries ((thr s t).outst.filter (fun a => a.kind ≠ .load)) || homeAhead s t) then s
  else releaseHead t s

def execStoreRelease (t : Thr) (s : State) : Result := .next (releaseStore t s)

def execStoreQueueSend (j : Fin 512) (s : State) : Result := .next (releaseStore (.adze j) s)

/-! ## Acknowledgement -/

/-- The store is made at its place, and its acknowledgement has arrived. -/
def performStore (t : Thr) (a : Access) (s : State) : State :=
  removeOut t a.id (storeBytes (some t) a.pa (accessBytes a) a.poison s)

/-- COMPLETION_ACK for a store or CZERO (R150, R152): it is performed at its target. A DRAM store of a core needs its line
exclusively first. Stores sent as HWR, over the ridge or as requests of the bay end by the answers of those. -/
def ackStore (t : Thr) (a : Access) (s : State) : State :=
  match spaceOf a.pa, t with
  | .dram, .core i =>
    let l := lineOf a.pa
    if !targetServed s t a.pa then s
    else if !linesReady s i [l] then wantExclusive i (a.kind = .czero) a.nt l s
    else performStore t a (if uncached s i then ownAtL2 (i.val / 16) l s
      else ownForStore (i.val / 4) l a.nt a.missed (if a.kind = .czero then 3 else sectorMask a.pa.toNat a.size) s)
  | .dram, .adze _ => s
  | .ridge, _ => s
  | .l2am b, _ =>
    if !targetServed s t a.pa then s
    else if (bay s b).amCur.toNat * 0x40000 ≤ a.pa.toNat % 0x100000 then accessLost t a .writeFailed s
    else performStore t a s
  | .scratch _, _ => if targetServed s t a.pa then performStore t a s else s
  | _, _ =>
    match deviceWrite t (some a.id) a.pa a.size a.data a.lost s with
    | (some c, s) => accessLost t a c s
    | (none, s) => if isEvSend a.pa && a.size = 8 then markSent t a.id s else removeOut t a.id s

/-- COMPLETION_ACK for an atomic of a core on DRAM: it is performed once its lines are the bay's (R173, R177). One that an
interrupt has squashed only leaves. -/
def ackAtom (t : Thr) (a : Access) (s : State) : State :=
  match spaceOf a.pa, t with
  | .dram, .core i =>
    let x := formOf a
    if a.dest.isNone then removeOut t a.id s
    else if !targetServed s t a.pa then s
    else if a.kind = .stcnd && !resvHolds s t a.pa then
      let r := atomPerform t x a.pa none (releaseHold i s)
      valueDone t a.id r.1 r.2.1 r.2.2
    else if !linesReady s i (atomLines x a.pa) then wantLines i false (atomLines x a.pa) s
    else
      let r := dramAtomDo i x a.pa a.missed s
      valueDone t a.id r.1 r.2.1 r.2.2
  | _, _ => s

/-- COMPLETION_ACK for a load: that of a device region has its value, and so has one whose target answers (R150, R169). -/
def ackLoad (t : Thr) (a : Access) (s : State) : State :=
  if a.resv then ackAtom t a s
  else if isDevice (spaceOf a.pa) then
    let r := deviceLoad s a.pa a.size
    valueDone t a.id r.1 false r.2
  else answerPiece t a s

/-- An access reaches its target, or its answer the thread. -/
def ackAccess (t : Thr) (a : Access) (s : State) : State :=
  match a.kind with
  | .store => ackStore t a s
  | .czero => ackStore t a s
  | .load => ackLoad t a s
  | .stcnd => ackAtom t a s
  | .faa => ackAtom t a s
  | .cas => ackAtom t a s
  | _ => s

/-- The receiver that checks the source of an access (R249, R250). -/
def receiverOf (t : Thr) (pa : BitVec 48) : Word :=
  let bay := fun (b : Nat) => at' (BitVec.ofNat 12 b) 0 ||| at' (1 : BitVec 4) 12
  match spaceOf pa with
  | .l2am b => bay b
  | .scratch e => at' (BitVec.ofNat 12 e) 0 ||| at' (3 : BitVec 4) 12
  | .ridge => at' (Config.hubAgent 3) 0 ||| at' (4 : BitVec 4) 12
  | .dram => match t with | .core i => bay (i.val / 16) | .adze j => at' (BitVec.ofNat 12 (j.val / 8)) 0 ||| at' (3 : BitVec 4) 12
  | _ => at' (Config.hubAgent 2) 0 ||| at' (4 : BitVec 4) 12

/-- The access's message has been discarded: only its timeout is left (R249). -/
def markGone (t : Thr) (id : Nat) (s : State) : State :=
  updThr t (fun th => { th with outst := th.outst.map (fun a => if a.id = id then { a with gone := true } else a) }) s

/-- The bay whose arrays an access reads: its core's for DRAM, the owner of L2-as-memory (R213). -/
def readsBay (t : Thr) (pa : BitVec 48) : Option Nat :=
  match spaceOf pa, t with
  | .dram, .core i => some (i.val / 16)
  | .l2am b, _ => some b
  | _, _ => none

/-- A confirmed access reads the arrays, with what that finds; it goes on unless the partition goes DOWN (R213, R214). -/
def withAccessFind (t : Thr) (pa : BitVec 48) (found : CacheFind) (act : State → State) (s : State) : State :=
  match readsBay t pa with
  | none => act s
  | some b =>
    let reader := match t with | .core i => if isDramLine (lineOf pa) then some (i.val / 4) else none | .adze _ => none
    let r := cacheFinds b reader (lineOf pa) found s
    if r.1 then r.2 else act r.2

/-- COMPLETION_ACK: an access that is outstanding is made or answered, in the order R153 asks for, while its die is not
stalled (R65); `found` is what it meets in the arrays (R213). One whose source is stale or DOWN is discarded where it
arrives, and is answered by nothing (R249, R250). -/
def execCompletionAck (t : Thr) (id : Nat) (found : CacheFind) (s : State) : Result :=
  match outAccess s t id with
  | none => .next s
  | some a =>
    if a.sent || a.gone || (die s (dieOfThr t)).stalled || ((a.kind = .store || a.kind = .czero) && olderOut s t a) then .next s
    else match checkSrc s (srcOfThr t) a.gen a.site none with
      | .stale => .next (staleDiscard (srcOfThr t) a.gen a.site (receiverOf t a.pa) (markGone t id s))
      | .down => .next (downDiscard (srcOfThr t) a.gen a.site (receiverOf t a.pa) (markGone t id s))
      | _ => .next (withAccessFind t a.pa found (ackAccess t a) s)

/-! ## Accesses completed with error -/

/-- STORE_TMO in ns (R188). -/
def storeTmoNs (th : Thread) : Nat := th.tmo.toNat * 16000

/-- The effect of a lost store at its target is unknown: performed or not, by a free choice (R179). The message of an
engine's DRAM access, or of a window store, decides for itself. DESIGN CHOICE (log entry 27). -/
def maybeMade (t : Thr) (a : Access) (s : State) : State :=
  let sent : Bool := match spaceOf a.pa, t with
    | .ridge, _ => true
    | .dram, .adze _ => true
    | _, _ => false
  if sent || a.kind = .load then s else
  let (b, s) := freeBit s
  if !b then s else
  let dbl := a.size = 8
  match a.kind with
  | .store =>
    if a.sent then s
    else if isDevice (spaceOf a.pa) then (deviceWrite t none a.pa a.size a.data a.lost s).2
    else storeBytes (some t) a.pa (accessBytes a) a.poison s
  | .czero => storeBytes (some t) a.pa (accessBytes a) false s
  | .faa => (atomDo t .faa a.pa dbl a.data 0 a.poison s).2.2
  | .cas => (atomDo t .cas a.pa dbl a.part a.data a.poison s).2.2
  | .stcnd => (stcndDo t (monitorAt a.pa) a.pa dbl a.data a.poison s).2
  | _ => s

/-- An outstanding access ends with error. -/
def endLost (t : Thr) (a : Access) (c : LostCause) (s : State) : State := accessLost t a c (maybeMade t a s)

/-- ACCESS_TIMEOUT: STORE_TMO has passed since the access left (R178 to R181). -/
def execAccessTimeout (t : Thr) (id : Nat) (s : State) : Result :=
  match outAccess s t id with
  | none => .next s
  | some a =>
    if a.tRel.toNat + storeTmoNs (thr s t) ≤ s.time.now.toNat then .next (endLost t a .timeout s) else .next s

/-- The engine, or a core of the bay, that serves the address is being live-sistered (R179, R246). -/
def beingSistered (s : State) (pa : BitVec 48) : Bool :=
  s.wr.sistering.any (fun e => match spaceOf pa, e.1 with
    | .scratch x, .engine i => i.val = x
    | .l2am b, .bay i => i.val = b
    | _, _ => false)

/-- The path to the access's target can report this cause (R179). -/
def reportFits (s : State) (t : Thr) (a : Access) (c : LostCause) : Bool :=
  match c with
  | .timeout => false
  | .targetDown => !targetServed s t a.pa || beingSistered s a.pa
  | .ridgeUnreachable => spaceOf a.pa = .ridge
  | .writeFailed => a.kind ≠ .load
  | .deviceError => isDevice (spaceOf a.pa)

/-- TARGET_ABSENT_REPORT: the access ends with error at once (R179, R180). -/
def execTargetAbsentReport (t : Thr) (id : Nat) (cause : LostCause) (s : State) : Result :=
  match outAccess s t id with
  | none => .next s
  | some a =>
    if !reportFits s t a cause then .next s
    else
      let mine := fun (q : RReq) => q.thr = some (t, id)
      .next (endLost t a cause (if spaceOf a.pa = .ridge then closeReq mine s else s))

/-! ## Reservation timers -/

/-- RESERVATION_MONITOR_EXPIRE: the shared entry of a thread for a granule is freed 256 bt after its LDRES, and with it the
reservation it stands for (R173). -/
def execReservationMonitorExpire (t : Thr) (g : BitVec 41) (s : State) : Result :=
  let mine := fun (e : MonE) => e.thr = t && e.shared && e.granule = g
  let has := s.bay.any (fun b => b.2.mon.any mine) || s.eng.any (fun e => e.2.mon.any mine)
    || s.slice.any (fun x => x.2.mon.any mine)
  let lost := has && (thr s t).resv.any (fun r => r.granule = g)
  let s := keepMon (fun m => !mine m) s
  .next (if lost then loseResv t s else s)

/-- RESERVATION_HOLD_EXPIRE: the core answers the forwards it was holding back (R176); a fenced cache does nothing more
(R218). -/
def execReservationHoldExpire (t : Fin 640) (s : State) : Result :=
  .next (if s.pw.fenced || (die s (t.val / 160)).stalled then s else releaseHold t s)

end Sys2Proof.Machine
end

