-- ==== Sys2Proof/Machine/System.lean ====
section
/-! DEFINITION. The system registers (R75 to R78, R148, R188, R205, R217, R323, R476), the system instructions (R99), solo
mode (R136, R137), CACHE_CTL (R205 to R208) and L2AM_CTL (R209 to R211). -/
namespace Sys2Proof.Machine

/-! ## Which registers there are (R75, R76) -/

/-- Numbers that only core threads have. -/
def coreNumber (n : Nat) : Bool :=
  n = 0x100 || n = 0x108 || n = 0x110 || n = 0x200 || n = 0x210 || n = 0x220

/-- Numbers that only adze threads have (R279). -/
def adzeNumber (n : Nat) : Bool := (0x140 ≤ n && n ≤ 0x15F) || (0x400 ≤ n && n ≤ 0x405)

/-- Numbers that both kinds have; FPCSR and FPTAGS among them, since they raise UNIMPL on an engine. -/
def commonNumber (n : Nat) : Bool :=
  n ≤ 0x005 || (0x010 ≤ n && n ≤ 0x015) || (0x020 ≤ n && n ≤ 0x026) || n = 0x101 || n = 0x102 || (0x280 ≤ n && n ≤ 0x284)
    || (0x300 ≤ n && n ≤ 0x307) || (0x310 ≤ n && n ≤ 0x31F) || (0x320 ≤ n && n ≤ 0x32F) || n = 0x380 || n = 0x381
    || n = 0x388 || (0x390 ≤ n && n ≤ 0x395) || (0x398 ≤ n && n ≤ 0x39D)

/-- The number is defined for the thread's kind of unit. -/
def numberOf (t : Thr) (n : Nat) : Bool := commonNumber n || (if isAdze t then adzeNumber n else coreNumber n)

/-- Numbers that no privilege may write (R76, R77). DEDUCED (log entry 18). -/
def neverWritten (n : Nat) : Bool := n = 0x003 || n = 0x004

/-- Counter reads permitted at U (R476). -/
def userCounter (th : Thread) (n : Nat) : Bool :=
  th.pmu.uread && (n = 0x388 || (0x398 ≤ n && n ≤ 0x39D && !(look PmcCtl.reset th.pmu.ctl (n - 0x398)).spec))

/-- Privilege an MFS needs. -/
def readPriv (th : Thread) (n : Nat) : Priv :=
  if n ≤ 0x005 || n = 0x284 || n = 0x400 || userCounter th n then .U else if 0x020 ≤ n && n ≤ 0x026 then .M else .K

/-- Privilege an MTS needs. -/
def writePriv (n : Nat) : Priv :=
  if n = 0x001 || n = 0x002 || n = 0x005 then .U else if 0x020 ≤ n && n ≤ 0x026 then .M else .K

/-! ## Reads -/

def tstatWord (x : Tstat) : Word :=
  at' (privCode x.priv) 0 ||| atB x.ie 2 ||| atB x.kFrame 4 ||| atB x.mFrame 5 ||| at' (privCode x.kPpriv) 8
    ||| at' (privCode x.mPpriv) 10 ||| atB x.kPie 12 ||| atB x.mPie 13

def fpcsrWord (th : Thread) : Word := at' th.fpFlags 0 ||| at' th.fpTrap 8 ||| at' th.fpRm 16

def fptagsWord (th : Thread) : Word :=
  forEach (List.range 32) (fun i acc => acc ||| atB (look FReg.zero th.f i).single i) 0

def tidWord (s : State) (t : Thr) : Word :=
  at' (BitVec.ofNat 10 (thrIx t)) 0 ||| atB (isAdze t) 10 ||| at' (BitVec.ofNat 3 ((partOf s t).getD 0)) 12
    ||| at' (deviceId s) 16 ||| at' (srcEnt s (srcOfThr t)).gen 32

def ecauseWord (x : XRegs) : Word := at' x.code 0 ||| atB x.half 8 ||| at' x.acc 9 ||| at' x.lost 16

/-- X_ register `i` of a level. -/
def xregWord (x : XRegs) (i : Nat) : Word :=
  if i = 0 then sext48 (x.evec ++ (0 : BitVec 8))
  else if i = 1 then sext48 (x.epc ++ (0 : BitVec 2))
  else if i = 2 then ecauseWord x
  else if i = 3 then x.eaddr
  else if i = 4 then x.einfo
  else x.scratch

def excRouteWord (th : Thread) : Word := at' th.route 1 ||| atB th.irqM 63

def transWord (th : Thread) : Word := atB th.trEn 0 ||| atB th.trKnxU 1 ||| atB th.trKaccU 2

def specWord (th : Thread) : Word := atB th.noMds 0 ||| atB th.noRsp 1 ||| atB th.noPeek 2

def soloWord (k : Core) : Word :=
  atB k.soloBit 0 ||| atB k.soloActive 1 ||| (if k.soloActive then at' (BitVec.ofNat 2 k.soloOwner.val) 2 else 0)

def cacheCtlWord (k : Core) : Word := atB k.ien 0 ||| atB k.den 1 ||| atB k.pfen 2 ||| at' k.pfDepth 4

def l2amWord (y : Bay) : Word := at' y.amSize 0 ||| at' y.amCur 4 ||| atB y.amBusy 7 ||| atB y.amLost 8

def cacheErrWord (y : Bay) : Word :=
  at' y.l1Par 0 ||| at' y.l2Ce 16 ||| at' y.l2Ue 32 ||| at' y.llcCe 40 ||| at' y.llcUe 56

def lslogCtlWord (th : Thread) : Word := atB th.logEn 0 ||| at' th.logSize 4 ||| at' th.logBase 12

def ordStatusWord (th : Thread) : Word :=
  at' th.lostPending 0 ||| at' th.dropped 16 ||| at' th.loadLost 32 ||| atB th.logFail 48

def pmuCtlWord (p : Pmu) : Word := atB p.freeze 0 ||| atB p.uread 1 ||| atB p.tEn 2 ||| at' p.tPriv 3 ||| atB p.frzOvf 6

def pmcCtlWord (c : PmcCtl) : Word :=
  at' c.event 0 ||| atB c.en 8 ||| atB c.level 9 ||| atB c.chain 10 ||| atB c.int 11 ||| at' c.priv 12 ||| atB c.spec 15
    ||| at' (privCode c.ctxPriv) 16 ||| at' c.ctxAsid 20

/-- A counter read: a counter with SPEC = 1 shows its count in its own context only (R481). -/
def pmcRead (th : Thread) (n : Nat) : Word :=
  let c := look PmcCtl.reset th.pmu.ctl n
  if c.spec && !(th.tstat.priv = c.ctxPriv && th.asid = c.ctxAsid) then 0 else at' (look 0 th.pmu.cnt n) 0

/-- MFS: the value of system register `n` for thread `t`. Fields that only exist to be written read 0. -/
def sysRead (s : State) (t : Thr) (n : Nat) : Word :=
  let th := thr s t
  let c := core s (unitIx t)
  let b := bay s (unitIx t / 4)
  if n = 0x000 then tstatWord th.tstat
  else if n = 0x001 then atB th.dov 0 ||| atB th.dove 1
  else if n = 0x002 then fpcsrWord th
  else if n = 0x003 then tidWord s t
  else if n = 0x004 then s.time.now
  else if n = 0x005 then fptagsWord th
  else if 0x010 ≤ n && n ≤ 0x015 then xregWord th.xk (n - 0x010)
  else if 0x020 ≤ n && n ≤ 0x025 then xregWord th.xm (n - 0x020)
  else if n = 0x026 then excRouteWord th
  else if n = 0x100 then at' th.ptRoot 12
  else if n = 0x101 then at' th.asid 0
  else if n = 0x102 then transWord th
  else if n = 0x108 then specWord th
  else if n = 0x110 then soloWord c
  else if n = 0x200 then cacheCtlWord c
  else if n = 0x210 then l2amWord b
  else if n = 0x220 then cacheErrWord b
  else if n = 0x280 then at' th.tmo 0
  else if n = 0x281 then lslogCtlWord th
  else if n = 0x282 then at' th.logHead 0 ||| at' th.logTail 32
  else if n = 0x283 then at' th.logFirst 0
  else if n = 0x284 then ordStatusWord th
  else if n = 0x300 then at' th.ev.base 6
  else if n = 0x301 then evqCtlWord th.ev
  else if n = 0x302 then evqPendWord s t
  else if n = 0x303 then evStackWord th.ev
  else if n = 0x304 then th.ev.injData
  else if n = 0x306 then th.ev.timer
  else if n = 0x307 then evqStatWord th.ev
  else if 0x310 ≤ n && n ≤ 0x31F then at' (look 0 th.ev.head (n - 0x310)) 0
  else if 0x320 ≤ n && n ≤ 0x32F then at' (look 0 th.ev.tail (n - 0x320)) 0
  else if n = 0x380 then pmuCtlWord th.pmu
  else if n = 0x381 then at' th.pmu.ovf 0
  else if n = 0x388 then th.pmu.time
  else if 0x390 ≤ n && n ≤ 0x395 then pmcCtlWord (look PmcCtl.reset th.pmu.ctl (n - 0x390))
  else if 0x398 ≤ n && n ≤ 0x39D then pmcRead th (n - 0x398)
  else if isAdze t then (adzRead s (unitIx t) n).getD 0
  else 0

/-! ## Writes -/

/-- A privilege field: the reserved code, and any level above `top`, leaves the field as it was (R16). -/
def privField (old : Priv) (top : Priv) (v : BitVec 2) : Priv :=
  match privOf v with
  | some p => if privGe top p then p else old
  | none => old

/-- TSTAT at K writes IE and the K_ fields; at M every RW field (R78). -/
def writeTstat (v : Word) (x : Tstat) : Tstat :=
  let x' := { x with
    ie := bit v 2, kFrame := bit v 4, kPpriv := privField x.kPpriv .K (v.extractLsb' 8 2), kPie := bit v 12 }
  if x.priv = .M then
    { x' with mFrame := bit v 5, mPpriv := privField x.mPpriv .M (v.extractLsb' 10 2), mPie := bit v 13 }
  else x'

def writeFpcsr (v : Word) (th : Thread) : Thread :=
  let rm : BitVec 3 := v.extractLsb' 16 3
  { th with
    fpFlags := v.extractLsb' 0 5, fpTrap := v.extractLsb' 8 5, fpRm := if 5 ≤ rm.toNat then th.fpRm else rm }

/-- FPTAGS sets the width tags and leaves the registers' bits. -/
def writeFptags (v : Word) (th : Thread) : Thread :=
  { th with f := forEach (List.range 32) (fun i acc =>
      edit FReg.zero (fun r => { r with single := bit v i }) acc i) th.f }

def writeXreg (i : Nat) (v : Word) (x : XRegs) : XRegs :=
  if i = 0 then { x with evec := v.extractLsb' 8 40 }
  else if i = 1 then { x with epc := v.extractLsb' 2 46 }
  else if i = 2 then { x with
    code := v.extractLsb' 0 8, half := bit v 8, acc := v.extractLsb' 9 2, lost := v.extractLsb' 16 16 }
  else if i = 3 then { x with eaddr := v }
  else if i = 4 then { x with einfo := v }
  else { x with scratch := v }

def writeLslogCtl (v : Word) (th : Thread) : Thread :=
  let size : BitVec 4 := v.extractLsb' 4 4
  { th with
    logEn := bit v 0, logBase := v.extractLsb' 12 36
    logSize := if size.toNat < 6 || 12 < size.toNat then th.logSize else size }

def writeTmo (v : Word) (th : Thread) : Thread :=
  let tmo : BitVec 12 := v.extractLsb' 0 12
  { th with tmo := if tmo = 0 || 0xFA0 < tmo.toNat then th.tmo else tmo }

/-- ASID: the predictors are flushed and the reservation is lost (R122, R174). -/
def writeAsid (t : Thr) (v : Word) (s : State) : State :=
  loseResv t (flushPredictors t (updThr t (fun th => { th with asid := v.extractLsb' 0 16 }) s))

/-- The other threads of a core pause with their unretired instructions squashed (R132, R206).
DESIGN CHOICE (log entry 19). -/
def pauseOthers (i : Fin 640) (s : State) : State :=
  forEach (thrsOfCore (i.val / 4)) (fun t acc => if t = .core i then acc else squashAll t acc) s

/-- CORE_SOLO: SOLO = 1 begins parking the other threads, SOLO = 0 by the owner ends solo mode; a write squashes what is
younger in every thread of the core (R132, R136, R137). DESIGN CHOICE (log entry 19). -/
def writeSolo (i : Fin 640) (v : Word) (s : State) : State :=
  let c := i.val / 4
  let k := core s c
  let me : Fin 4 := ⟨i.val % 4, by omega⟩
  let s := pauseOthers i s
  if bit v 0 then
    if k.soloActive || k.soloWait.isSome then s else beginSolo c me s
  else if k.soloActive && k.soloOwner = me then endSolo c s
  else s

/-- The fields of CACHE_CTL take their values (R206 to R208). -/
def applyCacheCtl (c : Nat) (v : Word) (s : State) : State :=
  updCore c (fun k => { k with
    l1i := if k.ien && !bit v 0 then [] else k.l1i
    ien := bit v 0, den := bit v 1, pfen := bit v 2
    streams := if bit v 2 then k.streams else []
    pfDepth := v.extractLsb' 4 2 }) s

/-- CACHE_CTL: clearing DEN begins the sequence of R206; any other write performs steps 1, 2 and 6 (R208). -/
def writeCacheCtl (i : Fin 640) (v : Word) (s : State) : State :=
  let c := i.val / 4
  let s := pauseOthers i s
  if (core s c).den && !bit v 1 then updCore c (fun k => { k with ccWait := some (⟨i.val % 4, by omega⟩, v) }) s
  else applyCacheCtl c v s

/-- L2AM_CTL: a larger SIZE starts a conversion, a smaller one takes effect at once; a reserved SIZE leaves the field,
and a write while BUSY redirects (R209 to R211). DESIGN CHOICE (log entry 21). -/
def writeL2am (b : Nat) (v : Word) (s : State) : State :=
  let y := bay s b
  let want : BitVec 3 := v.extractLsb' 0 3
  let n := if 5 ≤ want.toNat then y.amSize else want
  let s := updBay b (fun y => { y with amSize := n, amLost := y.amLost && !bit v 8, amBusy := y.amCur.toNat < n.toNat }) s
  if n.toNat < y.amCur.toNat then
    clearArea (l2amBase b + n.toNat * 0x40000) (l2amBase b + y.amCur.toNat * 0x40000)
      (updBay b (fun y => { y with amCur := n }) s)
  else s

def writeCacheErr (b : Nat) (v : Word) (s : State) : State :=
  updBay b (fun y => { y with
    l1Par := v.extractLsb' 0 16, l2Ce := v.extractLsb' 16 16, l2Ue := v.extractLsb' 32 8, llcCe := v.extractLsb' 40 16
    llcUe := v.extractLsb' 56 8 }) s

def writePmuCtl (v : Word) (th : Thread) : Thread :=
  { th with pmu := { th.pmu with
    freeze := bit v 0, uread := bit v 1, tEn := bit v 2, tPriv := v.extractLsb' 3 3, frzOvf := bit v 6 } }

/-- PMC_CTL_n: a change of SPEC, CTX_PRIV or CTX_ASID sets PMC_n to 0 in the same step (R482). -/
def writePmcCtl (n : Nat) (v : Word) (th : Thread) : Thread :=
  let c := look PmcCtl.reset th.pmu.ctl n
  let c' : PmcCtl :=
    { event := v.extractLsb' 0 8, en := bit v 8, level := bit v 9, chain := bit v 10 && n ≠ 0, int := bit v 11
      priv := v.extractLsb' 12 3, spec := bit v 15, ctxPriv := privField c.ctxPriv .M (v.extractLsb' 16 2)
      ctxAsid := v.extractLsb' 20 16 }
  let same := c'.spec = c.spec && c'.ctxPriv = c.ctxPriv && c'.ctxAsid = c.ctxAsid
  { th with pmu := { th.pmu with
    ctl := put PmcCtl.reset th.pmu.ctl n c', cnt := if same then th.pmu.cnt else put 0 th.pmu.cnt n 0 } }

/-- PMC_n, or PMC_TIME as number 6 (R485). -/
def writePmc (n : Nat) (v : Word) (th : Thread) : Thread :=
  if n = 6 then { th with pmu := { th.pmu with time := v } }
  else { th with pmu := { th.pmu with cnt := put 0 th.pmu.cnt n (v.extractLsb' 0 48) } }

/-- MTS: write `v` to system register `n` (R14 to R16). Registers whose fields are all read-only ignore it.
DEDUCED (log entry 18). -/
def sysWrite (t : Thr) (n : Nat) (v : Word) (s : State) : State :=
  let on := fun (f : Thread → Thread) => updThr t f s
  let onEv := fun (f : EvState → EvState) => updThr t (updEv f) s
  let b := unitIx t / 4
  if n = 0x000 then on (fun th => { th with tstat := writeTstat v th.tstat })
  else if n = 0x001 then on (fun th => { th with dov := bit v 0, dove := bit v 1 })
  else if n = 0x002 then on (writeFpcsr v)
  else if n = 0x005 then on (writeFptags v)
  else if 0x010 ≤ n && n ≤ 0x015 then on (fun th => { th with xk := writeXreg (n - 0x010) v th.xk })
  else if 0x020 ≤ n && n ≤ 0x025 then on (fun th => { th with xm := writeXreg (n - 0x020) v th.xm })
  else if n = 0x026 then on (fun th => { th with route := v.extractLsb' 1 18, irqM := bit v 63 })
  else if n = 0x100 then on (fun th => { th with ptRoot := v.extractLsb' 12 36 })
  else if n = 0x101 then writeAsid t v s
  else if n = 0x102 then on (fun th => { th with trEn := bit v 0, trKnxU := bit v 1, trKaccU := bit v 2 })
  else if n = 0x108 then on (fun th => { th with noMds := bit v 0, noRsp := bit v 1, noPeek := bit v 2 })
  else if n = 0x110 then (match t with | .core i => writeSolo i v s | .adze _ => s)
  else if n = 0x200 then (match t with | .core i => writeCacheCtl i v s | .adze _ => s)
  else if n = 0x210 then writeL2am b v s
  else if n = 0x220 then writeCacheErr b v s
  else if n = 0x280 then on (writeTmo v)
  else if n = 0x281 then on (writeLslogCtl v)
  else if n = 0x282 then on (fun th => { th with logTail := v.extractLsb' 32 32 })
  else if n = 0x284 then on (fun th => { th with
    dropped := v.extractLsb' 16 16, loadLost := v.extractLsb' 32 16, logFail := th.logFail && !bit v 48 })
  else if n = 0x300 then onEv (fun e => if e.en then e else { e with base := v.extractLsb' 6 42 })
  else if n = 0x301 then writeEvqCtl t v s
  else if n = 0x304 then onEv (fun e => { e with injData := v })
  else if n = 0x305 then writeEvInject t v s
  else if n = 0x306 then onEv (fun e => { e with timer := v })
  else if n = 0x307 then onEv (fun e => { e with ovf := v.extractLsb' 0 16, noq := v.extractLsb' 16 16 })
  else if 0x320 ≤ n && n ≤ 0x32F then writeEvqTail t (n - 0x320) v s
  else if n = 0x380 then on (writePmuCtl v)
  else if n = 0x381 then on (fun th => { th with pmu := { th.pmu with ovf := th.pmu.ovf &&& ~~~(v.extractLsb' 0 6) } })
  else if n = 0x388 then on (writePmc 6 v)
  else if 0x390 ≤ n && n ≤ 0x395 then on (writePmcCtl (n - 0x390) v)
  else if 0x398 ≤ n && n ≤ 0x39D then on (writePmc (n - 0x398) v)
  else if isAdze t then adzWrite (unitIx t) n v s
  else s

/-! ## The system instructions (R99) -/

/-- MFS executes as the oldest instruction (R124); one of TIME waits while the sill's crossing is stalled (R55, R57).
DEDUCED (log entry 17). -/
def execMfs (t : Thr) (f : FmtF) (s : State) : Result :=
  let n := f.imm.toNat
  if n = 0x004 && s.pw.clkSill then .next s else
  let k := { plainCheck (wordF 0x3C f 0x0) (f.gs1 = 0 && numberOf t n) with
    coreOnly := n = 0x002 || n = 0x005, need := readPriv (thr s t) n, oldest := true }
  .next (runInstr t k (fun _ s => .done (updThr t (writeG f.gd ⟨sysRead s t n, false⟩) s)) s)

/-- A write of the register squashes what is younger, and the next instruction is fetched anew (R132, R134). -/
def refetches (n : Nat) : Bool :=
  n = 0x100 || n = 0x101 || n = 0x102 || n = 0x108 || n = 0x110 || n = 0x200

/-- An MTS of SOLO = 1 that another thread of the core went before in the same beat: its thread is parked with the MTS not
executed, and it executes when the thread is released (R136). -/
def soloLoses (s : State) (t : Thr) (n : Nat) (v : PReg) : Bool :=
  match t with
  | .adze _ => false
  | .core i =>
    let k := core s (i.val / 4)
    let th := thr s t
    n = 0x110 && bit v.val 0 && !v.poison && k.soloWait.isSome && !k.soloActive && decide (k.soloWait ≠ some ⟨i.val % 4, by omega⟩)
      && th.run = .running && !th.parked && !(die s (dieOfThr t)).stalled && privGe th.tstat.priv .K

/-- Two threads of a core have written SOLO = 1: of the writes in one beat the lower thread's goes first, and the other's is
executed when its thread is released (R136). DESIGN CHOICE (log entry 19). -/
def soloRace (t : Thr) (s : State) : State :=
  match t with
  | .adze _ => s
  | .core i =>
    let c := i.val / 4
    let me : Fin 4 := ⟨i.val % 4, by omega⟩
    let r := makeOldest t s
    if !r.1 then r.2 else
    match (core s c).soloWait with
    | none => r.2
    | some o =>
      match thrOfIndex (4 * c + o.val) false with
      | none => r.2
      | some x =>
        if me.val < o.val && (core s c).soloAt = s.time.now then
          let s := updThr x (fun th => { dropFetched th with pc := th.pc - 4, soloLater := true }) r.2
          refetch t (beginSolo c me (retireTo t ((thr s t).pc + 4) (thr s t) s))
        else updThr t (fun th => { th with soloLater := true }) r.2

/-- An MTS of register `gs1` to system register `n`: it executes as the oldest instruction, and a poisoned source raises
POISON (R102, R124, R132, R134). DEDUCED (log entries 17, 84). -/
def mtsTo (t : Thr) (word : BitVec 32) (legal : Bool) (n : Nat) (gs1 : BitVec 5) (s : State) : State :=
  if soloLoses s t n (readG (thr s t) gs1) then soloRace t s else
  let k := { plainCheck word (legal && numberOf t n && !neverWritten n) with
    coreOnly := n = 0x002 || n = 0x005, need := writePriv n, oldest := true, uses := [(false, gs1, 3, 0)] }
  runInstr t k (fun th s =>
    let s := sysWrite t n (readG th gs1).val s
    .done (if refetches n then refetch t s else s)) s

/-- MTS (R76). -/
def execMts (t : Thr) (f : FmtF) (s : State) : Result :=
  .next (mtsTo t (wordF 0x3C f 0x1) (f.gd = 0) f.imm.toNat f.gs1 s)

/-- ERET at the current level (R106); the predictors are flushed and the reservation is lost (R122, R174). -/
def execEret (t : Thr) (f : FmtF) (s : State) : Result :=
  let k := { plainCheck (wordF 0x3C f 0x2) (f.gd = 0 && f.gs1 = 0 && f.imm = 0) with need := .K, oldest := true }
  .next (runInstr t k (fun th s =>
    let ts := th.tstat
    let atM := ts.priv = .M
    let ts' : Tstat := if atM then { ts with priv := ts.mPpriv, ie := ts.mPie, mFrame := false }
      else { ts with priv := ts.kPpriv, ie := ts.kPie, kFrame := false }
    let pc := sext48 ((if atM then th.xm.epc else th.xk.epc) ++ (0 : BitVec 2))
    .jump pc (endGroup t (loseResv t (flushPredictors t (updThr t (fun th => { th with tstat := ts' }) s))))) s)

/-- An instruction that raises an exception with its IMM12. -/
def callOp (t : Thr) (f : FmtF) (minor : Nat) (need : Priv) (code : Nat) (s : State) : Result :=
  let k := { plainCheck (wordF 0x3C f minor) (f.gd = 0 && f.gs1 = 0) with need := need }
  .next (runInstr t k (fun _ s => .raise (excPlain code 0 (at' f.imm 0)) s) s)

def execSyscall (t : Thr) (f : FmtF) (s : State) : Result := callOp t f 0x3 .U 12 s
def execMcall (t : Thr) (f : FmtF) (s : State) : Result := callOp t f 0x4 .K 13 s
def execBrk (t : Thr) (f : FmtF) (s : State) : Result := callOp t f 0x5 .U 14 s

/-- EVDONE pops the priority stack when its top is the priority named; otherwise PRIO_STACK (R318). -/
def execEvdone (t : Thr) (f : FmtF) (s : State) : Result :=
  let q : BitVec 4 := f.imm.extractLsb' 0 4
  let legal := f.gd = 0 && f.gs1 = 0 && f.imm.extractLsb' 4 8 = 0
  let k := { plainCheck (wordF 0x3C f 0x6) legal with need := .K, oldest := true }
  .next (runInstr t k (fun th s =>
    match th.ev.stack with
    | [] => .raise (excPlain 16 0 (at' q 0 ||| atB true 8)) s
    | top :: rest =>
      if top = q then .done (updThr t (updEv (fun e => { e with stack := rest })) s)
      else .raise (excPlain 16 0 (at' q 0 ||| at' top 4)) s) s)

/-- WAIT: with a lane non-empty the thread goes on at once; otherwise it dozes behind the instruction (R99, R320).
DESIGN CHOICE (log entry 116). -/
def execWait (t : Thr) (f : FmtF) (s : State) : Result :=
  let k := { plainCheck (wordF 0x3C f 0x7) (f.gd = 0 && f.gs1 = 0 && f.imm = 0) with oldest := true }
  .next (runInstr t k (fun th s =>
    if (nonEmptyLanes th.ev).isEmpty then
      .done (countEvent t 0x18 (updThr t (fun th => { th with run := .dozing }) s))
    else .done s) s)

/-! ## Register writes that are rows of their own -/

/-- The MTS of a row that names its register. DESIGN CHOICE (log entry 20). -/
def mtsRow (t : Thr) (n : Nat) (gs1 : BitVec 5) (s : State) : State :=
  mtsTo t (wordF 0x3C ⟨0, gs1, BitVec.ofNat 12 n⟩ 0x1) true n gs1 s

/-- ASID_WRITE (R122). -/
def execAsidWrite (t : Thr) (gs1 : BitVec 5) (s : State) : Result := .next (mtsRow t 0x101 gs1 s)

/-- CORE_SOLO_WRITE (R136, R137). -/
def execCoreSoloWrite (t : Fin 640) (gs1 : BitVec 5) (s : State) : Result := .next (mtsRow (.core t) 0x110 gs1 s)

/-- CACHE_CTL_WRITE (R205 to R208). -/
def execCacheCtlWrite (t : Fin 640) (gs1 : BitVec 5) (s : State) : Result := .next (mtsRow (.core t) 0x200 gs1 s)

/-- L2AM_CTL_WRITE (R209 to R211). -/
def execL2amCtlWrite (t : Fin 640) (gs1 : BitVec 5) (s : State) : Result := .next (mtsRow (.core t) 0x210 gs1 s)

/-- EVQ_CTL_WRITE (R311, R323). -/
def execEvqCtlWrite (t : Thr) (gs1 : BitVec 5) (s : State) : Result := .next (mtsRow t 0x301 gs1 s)

/-- EV_INJECT_WRITE (R322, R323). -/
def execEvInjectWrite (t : Thr) (gs1 : BitVec 5) (s : State) : Result := .next (mtsRow t 0x305 gs1 s)

/-- EVQ_TAIL_WRITE (R310, R323). -/
def execEvqTailWrite (t : Thr) (p : Fin 16) (gs1 : BitVec 5) (s : State) : Result :=
  .next (mtsRow t (0x320 + p.val) gs1 s)

/-- PMC_CTL_WRITE (R476, R478). -/
def execPmcCtlWrite (t : Thr) (n : Fin 6) (gs1 : BitVec 5) (s : State) : Result :=
  .next (mtsRow t (0x390 + n.val) gs1 s)

/-- PMC_WRITE: counters 0 to 5, and the fixed one (R476). -/
def execPmcWrite (t : Thr) (n : Fin 7) (gs1 : BitVec 5) (s : State) : Result :=
  .next (mtsRow t (if n.val = 6 then 0x388 else 0x398 + n.val) gs1 s)

/-! ## Solo mode -/

/-- A thread is parked at an instruction boundary: its unretired instructions are squashed, and a fence it waits in
executes again (R136, R246). -/
def parkAt (f : Thread → Thread) (t : Thr) (s : State) : State :=
  let s := squashAll t s
  let r := (thr s t).run
  if r = .notStarted || r = .stopped then s
  else countEvent t 0x17 (updThr t (fun th => { f th with
    run := if th.run = .fencing then .running else th.run, held := .ready, waitRoom := false }) s)

def parkThread (t : Thr) (s : State) : State := parkAt (fun th => { th with parked := true }) t s

/-- Parked by solo mode (R136). -/
def soloPark (t : Thr) (s : State) : State := parkAt (fun th => { th with soloParked := true }) t s

/-- An instruction of the thread is in the middle of an access. -/
def midAccess (s : State) (t : Thr) : Bool := match (thr s t).run with | .awaiting _ => true | _ => false

/-- SOLO_PARKED: every other thread has finished the instruction it executes and is parked; ACTIVE sets (R136). -/
def execSoloParked (c : Fin 160) (s : State) : Result :=
  match (core s c.val).soloWait with
  | none => .next s
  | some o =>
    let others := (thrsOfCore c.val).filter (fun t => thrSlot t ≠ o.val)
    if others.any (midAccess s) || (die s (c.val / 40)).stalled then .next s
    else
      let s := forEach others (fun t acc => soloPark t acc) s
      .next (updCore c.val (fun k => { k with soloActive := true, soloOwner := o, soloWait := none }) s)

/-! ## The data cache off (R206) and ways converted (R210) -/

/-- CACHE_CTL_DRAIN_DONE: every store of the four threads has been performed or completed with error; the L1 is
written back and invalidated, and the MTS completes (R206). `found` is what the read of a line of it finds (R213, R214). -/
def execCacheCtlDrainDone (c : Fin 160) (l : BitVec 42) (found : CacheFind) (s : State) : Result :=
  match (core s c.val).ccWait with
  | none => .next s
  | some (_, v) =>
    if !(thrsOfCore c.val).all (fun t => allPerformed (thr s t)) || (die s (c.val / 40)).stalled || s.pw.fenced then .next s
    else
      let r := cacheFinds (c.val / 4) (some c.val) l found s
      .next (if r.1 then r.2 else
        updCore c.val (fun k => { k with ccWait := none }) (applyCacheCtl c.val v (emptyL1d c.val r.2)))

/-- Lines in the ways that a conversion to `n` × 256 KiB takes (R209). -/
def linesInWays (y : Bay) (n : Nat) : List (BitVec 42) :=
  (y.l2.filter (fun e => decide (16 - 2 * n ≤ e.1 % 16) && e.2.st ≠ .I)).map (fun e => e.2.line)

/-- L2AM_STEP_DONE: the lines of the converted ways are evicted, as write-back entries come free; then the ways are zero
with no poison, and CUR takes the new value (R210, R218). `found` is what the read of an evicted line finds (R213). While
the die is stalled nothing moves (R65). DESIGN CHOICE (log entry 21). -/
def execL2amStepDone (b : Fin 40) (l : BitVec 42) (found : CacheFind) (s : State) : Result :=
  let y := bay s b.val
  if !y.amBusy || s.pw.fenced || (die s (dieOfBay b.val)).stalled then .next s
  else
    let r := cacheFinds b.val none l found s
    if r.1 then .next r.2 else
    let s := r.2
    let s := forEach (linesInWays y y.amSize.toNat) (fun l acc =>
      if wbRoom (bay acc b.val) then l2Evict b l acc else acc) s
    if !(linesInWays (bay s b.val) y.amSize.toNat).isEmpty then .next s else
    let s := clearArea (l2amBase b.val + y.amCur.toNat * 0x40000) (l2amBase b.val + y.amSize.toNat * 0x40000) s
    .next (updBay b.val (fun y => { y with amCur := y.amSize, amBusy := false }) s)

end Sys2Proof.Machine
end

