-- ==== Sys2Proof/Machine/CmdPower.lean ====
section
/-! DEFINITION. Power and device-state commands (R429) and repair and sistering commands (R430). -/
namespace Sys2Proof.Machine

/-! ## Power (R429, R445, R452, R455) -/

/-- The die and the value of a VCORE_SET. -/
def vcoreDie (b : MboxSt) : Fin 4 := (fld (pageWord b 0x40) 0 2).toFin
def vcoreMv (b : MboxSt) : BitVec 16 := fld (pageWord b 0x40) 16 16

/-- VCORE_SET: on a throttled die the value becomes its operating point; else it is requested and the acknowledgement
answers. -/
def vcoreSet (b : MboxSt) (s : State) : Answer × State :=
  let d := vcoreDie b
  let mv := (vcoreMv b).toNat
  let now := (rail s d.val).set
  if !wordFits b 0x40 0xFFFF0003 || mv < 680 || 950 < mv || mv % 5 ≠ 0 then (bad stBadParam, s)
  else if (die s d.val).throttled then
    (⟨stOk, 3, bytesOf 8 (at' now 0), false⟩, updDie d.val (fun x => { x with opPoint := vcoreMv b }) s)
  else if s.pw.braced && mv < now.toNat then (bad stState, s)
  else (later, requestRail (.vcore d) (vcoreMv b) s)

/-- VCORE_SET waits while a request of the rail is not acknowledged (R66). -/
def execVcoreSet (m : Mbox) (s : State) : Result :=
  if (rail s (vcoreDie (box s m)).val).req.isSome then .next s
  else command m 0x302 true (plenIs 8) vcoreSet s

/-- The domain that a VOTE names. -/
def voteDom (kind ix : Nat) : Option Dom :=
  match kind with
  | 1 => if h : ix < 160 then some (.core ⟨ix, h⟩) else none
  | 2 => if h : ix < 40 then some (.bay ⟨ix, h⟩) else none
  | 3 => if h : ix < 4 then some (.die ⟨ix, h⟩) else none
  | 4 => if h : ix < 16 then some (.channel ⟨ix, h⟩) else none
  | 5 => if ix < 4 then some (.port (portOf ix)) else none
  | 6 => if h : ix < 16 then some (.cluster ⟨ix, h⟩) else none
  | _ => none

/-- Partition of a domain that a device mailbox names: it must own the domain's unit (R418). -/
def domPart (s : State) : Dom → Option Nat
  | .core c => partOfBay s (c.val / 4)
  | .bay b => partOfBay s b.val
  | .cluster k => if (List.range 4).all (fun i => decide (partOfEngine s (4 * k.val + i) = partOfEngine s (4 * k.val)))
      then partOfEngine s (4 * k.val) else none
  | _ => none

/-- The host's vote on a domain. -/
def hostVote (d : Dom) (v : Bool) (s : State) : State :=
  match d with
  | .core c => updCore c.val (fun x => { x with hvote := v }) s
  | .bay b => updBay b.val (fun x => { x with hvote := v }) s
  | .die d => updDie d.val (fun x => { x with hvote := v }) s
  | .channel c => updChan c.val (fun x => { x with hvote := v }) s
  | .port x => updPort (portIx x) (fun p => { p with hvote := v }) s
  | .cluster k => updCluster k.val (fun x => { x with hvote := v }) s

def domPowered (s : State) : Dom → Bool
  | .core c => (core s c.val).powered
  | .bay b => (bay s b.val).powered
  | .die d => (die s d.val).powered
  | .channel c => (chan s c.val).powered
  | .port x => (port s (portIx x)).powered
  | .cluster k => (cluster s k.val).powered

def voteOn (m : Mbox) (b : MboxSt) (s : State) : Answer × State :=
  let w := pageWord b 0x40
  match voteDom (fld w 0 3).toNat (fld w 16 10).toNat with
  | none => (bad stBadParam, s)
  | some d =>
    if !wordFits b 0x40 0x103FF0007 then (bad stBadParam, s)
    else if !boxMay s m (domPart s d) then (bad stDenied, s)
    else if s.pw.fenced then (bad stState, s)
    else
      let s := hostVote d (bit w 32) s
      (ok (bytesOf 8 (atB (domPowered s d) 0)), s)

def execVote (m : Mbox) (s : State) : Result := command m 0x303 true (plenIs 8) (voteOn m) s

/-- BRACE_RATE: writes DISP_CTL. -/
def braceRateSet (b : MboxSt) (s : State) : Answer × State :=
  if !wordFits b 0x40 0xFFFF then (bad stBadParam, s)
  else (ok [], updLed (fun l => { l with braceRate := fld (pageWord b 0x40) 0 16 }) s)

def execBraceRate (m : Mbox) (s : State) : Result := command m 0x304 true (plenIs 8) braceRateSet s

/-- QUIESCE, in SERVICE, DEGRADED and BRACED. -/
def quiesceOn (s : State) : Answer × State :=
  if s.pw.mode = 3 || s.pw.mode = 4 || s.pw.mode = 5 then
    (ok [], settleMode (updPw (fun p => { p with quiesce := true }) s))
  else (bad stState, s)

def execQuiesce (m : Mbox) (s : State) : Result := command m 0x305 true (plenIs 0) (fun _ s => quiesceOn s) s

/-- RESUME, in QUIESCE. -/
def quiesceOff (s : State) : Answer × State :=
  if s.pw.mode = 6 then (ok [], settleMode (updPw (fun p => { p with quiesce := false }) s)) else (bad stState, s)

def execResume (m : Mbox) (s : State) : Result := command m 0x306 true (plenIs 0) (fun _ s => quiesceOff s) s

/-- WARM_RESET: the flush begins once completion is signalled (COMMAND_COMPLETE). -/
def execWarmReset (m : Mbox) (s : State) : Result := command m 0x307 true (plenIs 0) (fun _ s => (ok [], s)) s

/-! ## Sistering and spares (R29, R30, R245, R246) -/

/-- A mode in which live sistering is permitted. -/
def sisterMode (s : State) : Bool := s.pw.mode = 3 || s.pw.mode = 4 || s.pw.mode = 5 || s.pw.mode = 6

/-- The unit has a site to leave. -/
def unitPresent (s : State) : Src → Bool
  | .core i => siteOfCore s i.val ≠ 7
  | .engine i => !(engine s i.val).outOfService
  | .bay _ => false

/-- SISTER: step 1 of R246; the later steps answer it. -/
def sisterUnit (m : Mbox) (b : MboxSt) (s : State) : Answer × State :=
  let w := pageWord b 0x40
  let kind := (fld w 0 2).toNat
  match (if kind < 2 then srcNamed kind (fld w 16 8).toNat else none) with
  | none => (bad stBadParam, s)
  | some u =>
    if !wordFits b 0x40 0xFF0003 then (bad stBadParam, s)
    else if !boxMay s m (partOfSrc s u) then (bad stDenied, s)
    else if s.pw.fenced || !sisterMode s || !sisterAlive s u || !unitPresent s u then (bad stState, s)
    else if !hasSpare s u then (bad stLimit, s)
    else
      let s := forEach (thrsOfSrc u) (fun t acc => parkThread t acc) s
      (later, updWr (fun x => { x with sistering := x.sistering ++ [(u, s.time.now.toNat)] }) s)

def execSister (m : Mbox) (s : State) : Result := command m 0x401 true (plenIs 8) (sisterUnit m) s

/-- A site that some logical core of the bay runs on. DEDUCED (log entry 71). -/
def siteMapped (y : Bay) (v : BitVec 3) : Bool := y.site0 = v || y.site1 = v || y.site2 = v || y.site3 = v

/-- SET_SPARE: a site that passes self-test becomes the bay's spare. A retired site never sends again until COLD (R30).
DEDUCED (log entry 71). -/
def setSpareSite (pass : Bool) (b : MboxSt) (s : State) : Answer × State :=
  let w := pageWord b 0x40
  let y := (fld w 0 6).toNat
  let v : BitVec 3 := fld w 8 3
  if !wordFits b 0x40 0x73F || 40 ≤ y || 4 < v.toNat then (bad stBadParam, s)
  else if s.pw.fenced || siteMapped (bay s y) v || (bay s y).retired.getLsbD v.toNat then (bad stState, s)
  else if !pass then (bad stFailed, updBay y (fun k => { k with bad := setBit k.bad v.toNat true }) s)
  else (ok [], updBay y (fun k => { k with spare := v, bad := setBit k.bad v.toNat false }) s)

def execSetSpare (m : Mbox) (pass : Bool) (s : State) : Result := command m 0x402 true (plenIs 8) (setSpareSite pass) s

/-! ## Memory and ports (R346, R348, R349, R389) -/

def chanNamed (b : MboxSt) : Nat := (fld (pageWord b 0x40) 0 4).toNat

/-- CH_RETIRE. -/
def chanRetire (b : MboxSt) (s : State) : Answer × State :=
  let c := chanNamed b
  if !wordFits b 0x40 0xF then (bad stBadParam, s)
  else if s.pw.fenced || (chan s c).st = 0 || (chan s c).st = 4 then (bad stState, s)
  else (ok [], retireChan c 4 s)

def execChRetire (m : Mbox) (s : State) : Result := command m 0x403 true (plenIs 8) chanRetire s

/-- CH_RETRAIN: `pass` is the outcome of the training. -/
def chanRetrain (pass : Bool) (b : MboxSt) (s : State) : Answer × State :=
  let c := chanNamed b
  if !wordFits b 0x40 0xF then (bad stBadParam, s)
  else if s.pw.fenced || (chan s c).st ≠ 4 || !inMirror s c || !serves s (mateOf c) then (bad stState, s)
  else if !pass then (bad stFailed, s)
  else (ok [], settleMode (beginResilver c s))

/-- DESIGN CHOICE (log entry 43). -/
def execChRetrain (m : Mbox) (pass : Bool) (s : State) : Result := command m 0x404 true (plenIs 8) (chanRetrain pass) s

/-- Position in the channel's queue of work that has just joined it: 0 when it has started. -/
def queuePlace (s : State) (c : Nat) : Answer := ok (bytesOf 8 (at' (BitVec.ofNat 8 (chan s c).jobs.length) 0))

/-- MEM_REPAIR: a device mark, rank sparing or a soft repair. -/
def memRepairJob (b : MboxSt) (s : State) : Answer × State :=
  let w := pageWord b 0x40
  let c := chanNamed b
  let act := (fld w 4 2).toNat
  let r : BitVec 4 := fld w 8 4
  let l : BitVec 42 := fld (pageWord b 0x48) 0 42
  let onIt : Bool := match locOfLine s l with | some x => onChan x c | none => false
  if !wordFits b 0x40 0x3FF3F || !wordFits b 0x48 0x3FFFFFFFFFF || act = 3 || (act = 2 && !onIt)
    || (act ≠ 2 && populated s c && decide (logicalRanks (dimms s c) ≤ r.toNat))
    || (act = 0 && populated s c && decide ((if (chan s c).paired.getLsbD r.toNat then 36 else 18) ≤ (fld w 12 6 : BitVec 6).toNat)) then
    (bad stBadParam, s)
  else if s.pw.fenced || !chanLive s c then (bad stState, s)
  else
    let t := if act = 0 then markDevice c r (fld w 12 6) s else if act = 1 then spareRankOf c r s else softRepair c l s
    if act ≠ 0 && t = s then (bad stLimit, s) else (queuePlace t c, t)

def execMemRepair (m : Mbox) (s : State) : Result := command m 0x405 true (plenIs 16) memRepairJob s

/-- PORT_RETRAIN: one full training; `pass` is its outcome. -/
def portRetrainNow (pass : Bool) (b : MboxSt) (s : State) : Answer × State :=
  let x := portOf (fld (pageWord b 0x40) 0 2).toNat
  if !wordFits b 0x40 3 then (bad stBadParam, s)
  else if s.pw.fenced || (port s (portIx x)).st = 0 then (bad stState, s)
  else
    let k := port s (portIx x)
    let s := if portUp s x then portDown x 6 s else s
    if pass then (ok [], linkTrained x k.partner k.pport (trainingEnds x k.pspread s))
    else if k.st = 5 then (bad stFailed, s)
    else (bad stFailed, trainingFailed x s)

def execPortRetrain (m : Mbox) (pass : Bool) (s : State) : Result :=
  command m 0x406 true (plenIs 8) (portRetrainNow pass) s

end Sys2Proof.Machine
end

