-- ==== Sys2Proof/Machine/CmdStore.lean ====
section
/-! DEFINITION. Commands of the Filolmelo store that change it (R431, R439, R468, R470). -/
namespace Sys2Proof.Machine

def slotNamed (b : MboxSt) : Bool := bit (pageWord b 0x40) 0

/-- Length of SLOT_WRITE. -/
def slotWriteLen : MboxSt → Nat → Bool := fun b k => k = 0x20 + pageNat b 0x50 2 % 4096

/-- The active slot and the boot default take no write. -/
def slotHeld (st : Store) (x : Bool) : Bool := st.active = some x || bootDefault st = x

/-- SLOT_WRITE: the slot becomes unverified. DEDUCED (log entry 70). -/
def slotWrite (b : MboxSt) (s : State) : Answer × State :=
  let x := slotNamed b
  let off := (pageWord b 0x48).toNat
  let len := (fld (pageWord b 0x50) 0 12).toNat
  let st := s.wr.store
  if !wordFits b 0x40 1 || !wordFits b 0x50 0xFFF || off % 64 ≠ 0 || len % 64 ≠ 0 || 3968 < len
    || slotSize st.capacity < off + len then (bad stBadParam, s)
  else if slotHeld st x then (bad stState, s)
  else
    let y := slotOf st x
    let y : Slot := { cond := 2, bytes := writeList off (pageBytes b 0x60 len) y.bytes }
    (ok [], updWr (fun w => { w with store := setSlot x y w.store }) s)

def execSlotWrite (m : Mbox) (s : State) : Result := command m 0x502 true slotWriteLen slotWrite s

/-- SLOT_VERIFY: AUTH and ROLLBACK leave the slot failed. -/
def slotVerify (b : MboxSt) (s : State) : Answer × State :=
  if !wordFits b 0x40 1 then (bad stBadParam, s) else
  let x := slotNamed b
  let st := s.wr.store
  match verifySlot Config.storeKeyHash st.fuse.toNat (slotSize st.capacity) (slotOf st x) with
  | none => (ok [], updWr (fun w => { w with store := setSlot x { slotOf w.store x with cond := 1 } w.store }) s)
  | some why => (bad why, updWr (fun w => { w with store := setSlot x { slotOf w.store x with cond := 3 } w.store }) s)

def execSlotVerify (m : Mbox) (s : State) : Result := command m 0x503 true (plenIs 8) slotVerify s

/-- ACTIVATE: step 1 of R439; the restart answers it. -/
def activate (m : Mbox) (b : MboxSt) (s : State) : Answer × State :=
  let x := slotNamed b
  if !wordFits b 0x40 1 then (bad stBadParam, s)
  else if (slotOf s.wr.store x).cond ≠ 1 then (bad stState, s)
  else (later, updWr (fun w => { w with update := .taken m x }) s)

def execActivate (m : Mbox) (s : State) : Result := command m 0x504 true (plenIs 8) (activate m) s

/-- COMMIT: the active slot becomes the boot default and the fuse counter rises to its RB_INDEX.
DEDUCED (log entry 70). -/
def commit (s : State) : Answer × State :=
  let st := s.wr.store
  match st.active with
  | none => (bad stState, s)
  | some x =>
    if bootDefault st = x then (bad stState, s) else
    let fuse := BitVec.ofNat 7 (Nat.max st.fuse.toNat (rbIndex (slotOf st x)))
    (ok (bytesOf 8 (at' fuse 0)), updWr (fun w => { w with store := { writeSelector x w.store with fuse := fuse } }) s)

def execCommit (m : Mbox) (s : State) : Result := command m 0x505 true (plenIs 0) (fun _ s => commit s) s

end Sys2Proof.Machine
end

