-- ==== Sys2Proof/Machine/CmdUrgent.lean ====
section
/-! DEFINITION. The urgent sequencer's commands (R436, R437) and the management port (R424, R425). -/
namespace Sys2Proof.Machine

/-! ## The urgent sequencer -/

/-- The other urgent mailbox holds a command taken earlier: the sequencer serves one at a time, in order. -/
def urgentWaits (s : State) (m : Mbox) : Bool :=
  let o : Mbox := if m = .mgmtUrgent then .host 7 else .mgmtUrgent
  (box s o).st = 1 && (box s o).resp.isNone && ((box s o).effected || (box s o).tTaken.toNat < (box s m).tTaken.toNat)

/-- Queues in the scope of QUENCH and RELEASE: one, those mapped to a slot of an instance, or all (R437). -/
def inScope (s : State) (scope ix : Nat) : List Nat :=
  if scope = 0 then [ix]
  else if scope = 1 then ((s.queue.filter (fun e => ownedByInst e.2 ix)).map (·.1))
  else List.range 1024

/-- QUENCH and RELEASE: QUENCHED takes the value on every queue in scope; the command is logged (R433, R436).
DESIGN CHOICE (log entry 60). -/
def quenchScope (v : Bool) (m : Mbox) (b : MboxSt) (s : State) : Answer × State :=
  let w := pageWord b 0x40
  let scope : BitVec 2 := fld w 0 2
  let ix : BitVec 10 := fld w 16 10
  if !wordFits b 0x40 0x3FF0003 || scope = 3 || (scope = 1 && 255 < ix.toNat) then (bad stBadParam, s)
  else
    let qs := inScope s scope.toNat ix.toNat
    let n := (qs.filter (fun q => v || (queue s q).quenched)).length
    let s := forEach qs (fun q acc => updQueue q (fun x => { x with quenched := v }) acc) s
    (ok (bytesOf 8 (BitVec.ofNat 64 n) ++ bytesOf 8 s.time.now), logUrgent m stOk scope ix s.time.now s)

/-- DESIGN CHOICE (log entry 60). -/
def execQuench (m : Mbox) (s : State) : Result :=
  if urgentWaits s m then .next s else command m 0x901 true (plenIs 8) (quenchScope true m) s

def execRelease (m : Mbox) (s : State) : Result :=
  if urgentWaits s m then .next s else command m 0x902 true (plenIs 8) (quenchScope false m) s

/-- FENCE_SELF: steps 1 to 4 of R45; the end of step 6 answers it. A device already FENCED answers at once.
DEDUCED (log entry 57). -/
def fenceNow (m : Mbox) (s : State) : Answer × State :=
  if s.pw.fenced then (ok (bytesOf 8 0 ++ bytesOf 8 s.time.now), logUrgent m stOk 0 0 s.time.now s)
  else (later, beginFence m s)

def execFenceSelf (m : Mbox) (s : State) : Result :=
  if urgentWaits s m then .next s else command m 0x903 true (plenIs 0) (fun _ s => fenceNow m s) s

/-! ## The management address space (R425) -/

/-- MGMT_STAT. -/
def mgmtStatWord (s : State) : Word :=
  at' s.wr.badXfer 0 ||| at' (0x40 ||| (s.pw.straps.ringPos.setWidth 5).setWidth 7 : BitVec 7) 16 ||| atB s.pw.straps.mgmtI3c 23

/-- BAR0 offsets that are readable in STANDBY. -/
def standbyReads (o : Nat) : Bool := o < 0x10 || (0x40 ≤ o && o < 0x48) || (0x80 ≤ o && o < 0x90)

/-- A doubleword of the management address space at a multiple of 8. -/
def mgmtWord (s : State) (o : Nat) : Word :=
  if 0x4000000 ≤ o && o < 0x4001000 then pageWord (box s .mgmt) (o - 0x4000000)
  else if o = 0x4001000 then boxDbWord .mgmt (box s .mgmt)
  else if 0x4002000 ≤ o && o < 0x4003000 then pageWord (box s .mgmtUrgent) (o - 0x4002000)
  else if o = 0x4003000 then boxDbWord .mgmtUrgent (box s .mgmtUrgent)
  else if o = 0x4004000 then mgmtStatWord s
  else if o < 0x4000000 then (if standbyCond s && !standbyReads o then 0 else barWord s o)
  else 0

/-- Bytes read from an offset on. -/
def mgmtBytes (s : State) (o n : Nat) : List Byte :=
  (List.range n).map (fun i => (mgmtWord s ((o + i) / 8 * 8)).extractLsb' (8 * ((o + i) % 8)) 8)

/-- One piece of a write, within 8 aligned bytes: pages and doorbells only. -/
def mgmtPiece (o : Nat) (l : List Byte) (s : State) : State :=
  if 0x4000000 ≤ o && o < 0x4001000 then writeBoxPage .mgmt (o - 0x4000000) l s
  else if 0x4002000 ≤ o && o < 0x4003000 then writeBoxPage .mgmtUrgent (o - 0x4002000) l s
  else if o / 8 * 8 = 0x4001000 then doorbellWrite .mgmt (wordOf l) (l.length = 8) true s
  else if o / 8 * 8 = 0x4003000 then doorbellWrite .mgmtUrgent (wordOf l) (l.length = 8) true s
  else s

def mgmtWrite (o : Nat) (l : List Byte) (s : State) : State :=
  forEach (cutAt 8 (l.length + 1) o l) (fun p acc => mgmtPiece p.1 p.2 acc) s

/-! ## Transfers (R424) -/

/-- A transfer is discarded and counted. DEDUCED (log entry 72). -/
def badTransfer (s : State) : State := updWr (fun w => { w with badXfer := satInc w.badXfer }) s

/-- The offset moves on. -/
def setOffset (o : Nat) (s : State) : State := updWr (fun w => { w with mgmtOff := BitVec.ofNat 32 o }) s

def leNat (l : List Byte) : Nat := natOfBytes l

/-- The bus speaks SMBus; it serves while the sill is powered. -/
def smbusOn (s : State) : Bool := s.pw.sillOn && !s.pw.straps.mgmtI3c
def i3cOn (s : State) : Bool := s.pw.sillOn && s.pw.straps.mgmtI3c

/-- SMBUS_SET_OFFSET: command 0x10. -/
def execSmbusSetOffset (data : List Byte) (pecOk : Bool) (s : State) : Result :=
  through .sill true 4 (.smbusSetOffset data pecOk) (fun s =>
  if !smbusOn s then .next s
  else if !pecOk || data.length ≠ 4 || leNat data % 4 ≠ 0 then .next (badTransfer s)
  else .next (setOffset (leNat data) s)) s

/-- SMBUS_BLOCK_READ: command 0x11. -/
def execSmbusBlockRead (n : Nat) (pecOk : Bool) (s : State) : Result :=
  through .sill true n (.smbusBlockRead n pecOk) (fun s =>
  let o := s.wr.mgmtOff.toNat
  if !smbusOn s then .next s
  else if !pecOk || n % 4 ≠ 0 || n < 4 || 32 < n then .next (badTransfer s)
  else .next (setOffset (o + n) (emit (.mgmt (mgmtBytes s o n)) s))) s

/-- SMBUS_BLOCK_WRITE: command 0x12. -/
def execSmbusBlockWrite (data : List Byte) (pecOk : Bool) (s : State) : Result :=
  through .sill true data.length (.smbusBlockWrite data pecOk) (fun s =>
  let o := s.wr.mgmtOff.toNat
  let n := data.length
  if !smbusOn s then .next s
  else if !pecOk || n % 4 ≠ 0 || n < 4 || 32 < n then .next (badTransfer s)
  else .next (setOffset (o + n) (mgmtWrite o data s))) s

/-- I3C_PRIVATE_WRITE: a 4-byte offset, then the bytes to write from it. DEDUCED (log entry 72). -/
def execI3cPrivateWrite (data : List Byte) (s : State) : Result :=
  through .sill true data.length (.i3cPrivateWrite data) (fun s =>
  let o := leNat (data.take 4)
  let l := data.drop 4
  if !i3cOn s then .next s
  else if data.length < 4 || o % 4 ≠ 0 || l.length % 4 ≠ 0 || 252 < l.length then .next (badTransfer s)
  else .next (setOffset (o + l.length) (mgmtWrite o l s))) s

/-- I3C_PRIVATE_READ: bytes from the last offset written, advancing. -/
def execI3cPrivateRead (n : Nat) (s : State) : Result :=
  through .sill true n (.i3cPrivateRead n) (fun s =>
  let o := s.wr.mgmtOff.toNat
  if !i3cOn s then .next s
  else if n % 4 ≠ 0 then .next (badTransfer s)
  else .next (setOffset (o + n) (emit (.mgmt (mgmtBytes s o n)) s))) s

/-- I3C_DYNAMIC_ADDRESS: SETDASA or ENTDAA gives the device an address; MGMT_STAT keeps the static one. -/
def execI3cDynamicAddress (a : BitVec 7) (s : State) : Result :=
  if i3cOn s then .next (updWr (fun w => { w with i3cAddr := some a }) s) else .next s

end Sys2Proof.Machine
end

