-- ==== Sys2Proof/Machine/CoreExec.lean ====
section
/-! DEFINITION. Core execution events: confirmation (R123), a store address that becomes known (R131), expiry of a
predictor entry (R131) and the external interrupt of a core thread (R105, R110). -/
namespace Sys2Proof.Machine

/-- The line that an instruction's confirmed access of the arrays reads: its fetch's for an error of the instruction
cache, else its load's. -/
def confirmReads (u : UOp) (found : CacheFind) : Option (Bool × BitVec 42) :=
  match found with
  | .l1i _ => u.fetch.map (fun f => (true, f.line))
  | _ => match u.ld with
    | some ld => if ld.fwd.isSome then none else some (false, lineOf ld.pa)
    | none => u.fetch.map (fun f => (true, f.line))

/-- The sectors of an error are fetched again for the confirmed access (R213, R214). -/
def fetchAgain (i : Fin 640) (instr : Bool) (l : BitVec 42) (found : CacheFind) (s : State) : State :=
  match found with
  | .l1i _ => readLine i instr false l 3 s
  | .l1d _ => readLine i instr false l 3 s
  | _ => s

/-- Two bad bits in the data of a line. -/
def findsDouble : CacheFind → Bool
  | .l2Double => true
  | .llcDouble => true
  | _ => false

/-- A load's line is found with two bad bits when it is confirmed: the value that it took lacks the poison, so it executes
again (R213, R215). -/
def confirmSpoiled (t : Fin 640) (u : UOp) (found : CacheFind) (s : State) : Option State :=
  match confirmReads u found with
  | some (false, l) =>
    if findsDouble found && !readPoison s t false l then
      some (squashFrom t u.seq (cacheFinds (t.val / 16) (some (t.val / 4)) l found s).2)
    else none
  | _ => none

/-- INSTRUCTION_CONFIRMED: the oldest instruction in flight is confirmed (R123, R126, R129). `found` is what its access of
the arrays finds, which counts and acts only once it is confirmed (R213, R214, R217). A shim entry with an error is
discarded by the comparison with the ordinary read that the confirmation makes. A load whose line is found with two bad
bits executes again. -/
def execInstructionConfirmed (t : Fin 640) (found : CacheFind) (s : State) : Result :=
  if (die s (t.val / 160)).stalled then .next s else
  match (thr s (.core t)).unconf with
  | [] => .next s
  | u :: _ =>
    match confirmSpoiled t u found s with
    | some s => .next s
    | none =>
      let peeked := !(peekLines s t u).isEmpty
      let r := confirmNext t s
      if !r.1 || (found = .shimParity && !peeked) then .next r.2 else
      match confirmReads u found with
      | none => .next r.2
      | some (instr, l) =>
        let q := cacheFinds (t.val / 16) (some (t.val / 4)) l found r.2
        .next (if q.1 then q.2 else fetchAgain t instr l found q.2)

/-- STORE_ADDRESS_KNOWN: the address of store `older` becomes known and is compared with the younger loads; the first that
overlaps is squashed with everything younger, and is marked when it executes again (R131, R132). -/
def execStoreAddressKnown (t : Fin 640) (older : Nat) (s : State) : Result :=
  .next (if (die s (t.val / 160)).stalled then s else knowStore t older s)

/-- MDP_ENTRY_EXPIRE: 65,536 loads of the thread have been confirmed since the entry was made (R131). -/
def execMdpEntryExpire (t : Fin 640) (pc : Word) (s : State) : Result :=
  .next (updThr (.core t) (fun th => { th with mdp := th.mdp.filter (fun m => !(m.1 = pc && decide (65536 ≤ m.2))) }) s)

/-- An unretired load that waits for its value is squashed by an interrupt; its access stays in flight and returns to
nothing (R132, R133). A load of a device region is not: it is never repeated (R171). DEDUCED (log entry 36). -/
def abandonLoad (t : Thr) (s : State) : State :=
  match (thr s t).run with
  | .awaiting id =>
    match outAccess s t id with
    | some a =>
      if a.kind ≠ .load || isDevice (spaceOf a.pa) then s
      else updThr t (fun th => { th with
        run := .running, outst := th.outst.map (fun b => if b.seq = a.seq then { b with dest := none } else b) }) s
    | none => s
  | _ => s

/-- INTERRUPT_ENTRY: taken between instructions while IE is 1; a fence, WAIT and an unretired load are squashed, an
atomic is not (R105, R110, R132, R162). DEDUCED (log entry 36). -/
def execInterruptEntry (t : Fin 640) (s : State) : Result :=
  if !irqTakes (thr s (.core t)) then .next s else
  let s' := abandonLoad (.core t) s
  if atBoundary s' (.core t) then .next (enterInterrupt (.core t) s') else .next s

end Sys2Proof.Machine
end

