-- ==== Sys2Proof/Machine/Crossings.lean ====
section
/-! DEFINITION. A clock that runs again: what its block's crossing held goes on, in the order in which it entered
(R56, R57). -/
namespace Sys2Proof.Machine

/-- The state that a command's outcome leaves; a command that stops leaves the state as it was. -/
def stateAfter (r : Result) (s : State) : State :=
  match r with
  | .next u => u
  | _ => s

/-- A message of the ridge acts, by its opcode (R400). -/
def messageActs (op : BitVec 6) (m : RMsg) (s : State) : Result :=
  if op = 0x01 then execWRd m s
  else if op = 0x02 then execWWr m s
  else if op = 0x03 then execWRsp m s
  else if op = 0x08 then execHRd m s
  else if op = 0x09 then execHWr m s
  else if op = 0x0A then execHRsp m s
  else if op = 0x10 then execDRd m s
  else if op = 0x11 then execDDat m s
  else if op = 0x12 then execDWr m s
  else if op = 0x13 then execDAck m s
  else if op = 0x14 then execRecMsg m s
  else if op = 0x15 then execRAck m s
  else if op = 0x16 then execRRel m s
  else .next s

/-- One entry leaves a crossing on its far side. -/
def leaveCrossing (e : XEnt) (s : State) : State :=
  match e.what with
  | .ring m v refuse => ringTaken m v refuse s
  | .dramRead c line found peek => stateAfter (execDramRead c line found peek s) s
  | .dramWrite c line data poison => stateAfter (execDramWrite c line data poison s) s
  | .configRequest wr off be v => stateAfter (execConfigRequest wr off be v s) s
  | .readCompletion tag st data => stateAfter (execReadCompletion tag st data s) s
  | .doorbell i slot v whole vc1 => stateAfter (execDoorbell i slot v whole vc1 s) s
  | .inlineItem i slot v whole vc1 => stateAfter (execInlineItem i slot v whole vc1 s) s
  | .epNotifyWrite v => stateAfter (execEpNotifyWrite v s) s
  | .instStatResetWrite i => stateAfter (execInstStatResetWrite i s) s
  | .windowRead n off len vc1 => stateAfter (execWindowRead n off len vc1 s) s
  | .windowWrite n off data vc1 => stateAfter (execWindowWrite n off data vc1 s) s
  | .mailboxPageWrite m t off data vc1 => stateAfter (execMailboxPageWrite m t off data vc1 s) s
  | .mboxDoorbell m v eight vc1 => stateAfter (execMboxDoorbell m v eight vc1 s) s
  | .hostWrite addr size v => stateAfter (execRegisterWrite .host addr size v s) s
  | .idleFlit f => stateAfter (execIdleFlit f s) s
  | .skipFlit f id p => stateAfter (execSkipFlit f id p s) s
  | .nakFlit f n => stateAfter (execNakFlit f n s) s
  | .initFlit f n => stateAfter (execInitFlit f n s) s
  | .timeSync f t1 => stateAfter (execTimeSync f t1 s) s
  | .timeResp f t1 t2 t3 => stateAfter (execTimeResp f t1 t2 t3 s) s
  | .joinReq f id => stateAfter (execJoinReq f id s) s
  | .holdDone f id => stateAfter (execHoldDone f id s) s
  | .leaveReq f id => stateAfter (execLeaveReq f id s) s
  | .ringState f n live frame col => stateAfter (execRingState f n live frame col s) s
  | .message op m => stateAfter (messageActs op m s) s
  | .freezeForce => stateAfter (execFreezeForce s) s
  | .freezeRelease n => stateAfter (execFreezeRelease n s) s
  | .hostOut o => emitHost o s
  | .flitOut x f => emitFlit x f s
  | .smbusSetOffset l pec => stateAfter (execSmbusSetOffset l pec s) s
  | .smbusBlockRead n pec => stateAfter (execSmbusBlockRead n pec s) s
  | .smbusBlockWrite l pec => stateAfter (execSmbusBlockWrite l pec s) s
  | .i3cPrivateWrite l => stateAfter (execI3cPrivateWrite l s) s
  | .i3cPrivateRead n => stateAfter (execI3cPrivateRead n s) s

/-- Everything a crossing holds leaves it, in order (R56). -/
def emptyCrossing (b : Clk) (s : State) : State :=
  let l := crossingOrder (crossingOf s b)
  forEach l leaveCrossing (updCrossing b (fun _ => Crossing.reset) s)

/-- PLL_RELOCK: the clock runs again, the crossing's entries leave it in order, and what its block withheld goes on
(R56, R57). -/
def execPllRelock (b : Clk) (s : State) : Result :=
  let s := emptyCrossing b (setClock b false s)
  match b with
  | .endpoint => .next (pumpEndpoint s)
  | .ridge x => .next (pumpPort x s)
  | _ => .next s

end Sys2Proof.Machine
end

