-- ==== Sys2Proof/Machine/Crypto.lean ====
section
/-! DEFINITION. CRC-32C and AES (R97). -/
namespace Sys2Proof.Machine

/-! ## CRC-32C -/

/-- CRC of the low `n` bytes of `w`, byte 0 first, with no inversion. -/
def crc32c (n : Nat) (c : BitVec 32) (w : Word) : BitVec 32 := (bytesOf n w).foldl crcByte c

def execCrc32c (t : Thr) (f : FmtA) (size : BitVec 2) (s : State) : Result :=
  .next (runInstr t (plainCheck (wordA 5 f size.toNat) true) (fun th s =>
    let a := readG th f.gs1
    let b := readG th f.gs2
    let v := crc32c (2 ^ size.toNat) (a.val.setWidth 32) b.val
    .done (updThr t (writeG f.gd ⟨v.setWidth 64, a.poison || b.poison⟩) s)) s)

/-! ## AES (FIPS 197) -/

/-- Multiplication by x in the field of FIPS 197. -/
def xtime (b : Byte) : Byte := if b.getLsbD 7 then (b <<< 1) ^^^ 0x1B else b <<< 1

def gmulFrom : Nat → Byte → Byte → Byte
  | 0, _, _ => 0
  | n + 1, a, b => (if b.getLsbD 0 then a else 0) ^^^ gmulFrom n (xtime a) (b >>> 1)

/-- Product in the field. -/
def gmul (a b : Byte) : Byte := gmulFrom 8 a b

/-- a to the power 2^n − 2 of the field: the inverse, 0 for 0. -/
def ginv (a : Byte) : Byte :=
  let a2 := gmul a a
  let a4 := gmul a2 a2
  let a8 := gmul a4 a4
  let a16 := gmul a8 a8
  let a32 := gmul a16 a16
  let a64 := gmul a32 a32
  let a128 := gmul a64 a64
  gmul a2 (gmul a4 (gmul a8 (gmul a16 (gmul a32 (gmul a64 a128)))))

/-- SubBytes and InvSubBytes on one byte. -/
def sbox (a : Byte) : Byte :=
  let b := ginv a
  b ^^^ b.rotateLeft 1 ^^^ b.rotateLeft 2 ^^^ b.rotateLeft 3 ^^^ b.rotateLeft 4 ^^^ 0x63

def invSbox (a : Byte) : Byte := ginv (a.rotateLeft 1 ^^^ a.rotateLeft 3 ^^^ a.rotateLeft 6 ^^^ 0x05)

/-- The state's byte at row `r`, column `c`. -/
def stAt (l : List Byte) (r c : Nat) : Byte := (l[4 * (c % 4) + r]?).getD 0

/-- A state built byte by byte, columns first. -/
def mkState (f : Nat → Nat → Byte) : List Byte := (List.range 16).map (fun i => f (i % 4) (i / 4))

def shiftRows (l : List Byte) : List Byte := mkState (fun r c => stAt l r (c + r))
def invShiftRows (l : List Byte) : List Byte := mkState (fun r c => stAt l r (c + 4 - r))

/-- One column multiplied by the circulant matrix of `k0 k1 k2 k3`. -/
def mixWith (k0 k1 k2 k3 : Byte) (l : List Byte) : List Byte :=
  mkState (fun r c => gmul k0 (stAt l r c) ^^^ gmul k1 (stAt l ((r + 1) % 4) c)
    ^^^ gmul k2 (stAt l ((r + 2) % 4) c) ^^^ gmul k3 (stAt l ((r + 3) % 4) c))

def mixColumns (l : List Byte) : List Byte := mixWith 2 3 1 1 l
def invMixColumns (l : List Byte) : List Byte := mixWith 0x0E 0x0B 0x0D 0x09 l

def addKey (l k : List Byte) : List Byte := (l.zip k).map (fun p => p.1 ^^^ p.2)

/-- The register after an even one. -/
def oddOf (r : BitVec 5) : BitVec 5 := r ||| 1

/-- A pair operand as sixteen bytes with its poison (R97). -/
def readPair (th : Thread) (r : BitVec 5) : List Byte × Bool :=
  let a := readG th r
  let b := readG th (oddOf r)
  (bytesOf 8 a.val ++ bytesOf 8 b.val, a.poison || b.poison)

def writePair (r : BitVec 5) (l : List Byte) (poison : Bool) (th : Thread) : Thread :=
  writeG (oddOf r) ⟨wordOf (l.drop 8), poison⟩ (writeG r ⟨wordOf (l.take 8), poison⟩ th)

/-- An AES row: pairs must be even; `two` says that gs2 is a pair. -/
def aesOp (minor : Nat) (t : Thr) (f : FmtA) (two : Bool) (g : List Byte → List Byte → List Byte) (s : State) : Result :=
  let even := fun (r : BitVec 5) => !r.getLsbD 0
  .next (runInstr t (plainCheck (wordA 5 f minor)
      (even f.gd && even f.gs1 && (if two then even f.gs2 else f.gs2 = 0))) (fun th s =>
    let a := readPair th f.gs1
    let b := if two then readPair th f.gs2 else ([], false)
    .done (updThr t (writePair f.gd (g a.1 b.1) (a.2 || b.2)) s)) s)

def execAesenc (t : Thr) (f : FmtA) (s : State) : Result :=
  aesOp 0x010 t f true (fun a k => addKey (mixColumns ((shiftRows a).map sbox)) k) s

def execAesencl (t : Thr) (f : FmtA) (s : State) : Result :=
  aesOp 0x011 t f true (fun a k => addKey ((shiftRows a).map sbox) k) s

def execAesdec (t : Thr) (f : FmtA) (s : State) : Result :=
  aesOp 0x012 t f true (fun a k => addKey (invMixColumns ((invShiftRows a).map invSbox)) k) s

def execAesdecl (t : Thr) (f : FmtA) (s : State) : Result :=
  aesOp 0x013 t f true (fun a k => addKey ((invShiftRows a).map invSbox) k) s

def execAesimc (t : Thr) (f : FmtA) (s : State) : Result :=
  aesOp 0x014 t f false (fun a _ => invMixColumns a) s

end Sys2Proof.Machine
end

