-- ==== Sys2Proof/Machine/Flags.lean ====
section
/-! DEFINITION. The flag computations: packed decimal with its overflow flag (R86 to R88), and the floating-point
status flags with their traps (R92). -/
namespace Sys2Proof.Machine

/-! ## Decimal (R86 to R88) -/

/-- The sixteen digits of a register, digit 0 first. -/
def digitsOf (w : Word) : List (BitVec 4) := (List.range 16).map (fun i => w.extractLsb' (4 * i) 4)

/-- The lowest digit position that holds more than 9 (R88). -/
def badDigit (w : Word) : Option Nat := (List.range 16).find? (fun i => 9 < (w.extractLsb' (4 * i) 4).toNat)

def natOfDigits : List (BitVec 4) → Nat
  | [] => 0
  | d :: t => d.toNat + 10 * natOfDigits t

/-- The value of a decimal operand in ten's complement (R86). -/
def decVal (w : Word) : Int :=
  let v : Int := natOfDigits (digitsOf w)
  if 5 ≤ (w.extractLsb' 60 4).toNat then v - 10 ^ 16 else v

/-- The sixteen digits of a number below 10^16, packed. -/
def packDigits : Nat → Nat → Nat
  | 0, _ => 0
  | n + 1, v => v % 10 + 16 * packDigits n (v / 10)

/-- The digits of r mod 10^16 (R86). -/
def decDigits (r : Int) : Word := BitVec.ofNat 64 (packDigits 16 (r.emod (10 ^ 16)).toNat)

/-- A result outside the range of R86 overflows (R87). -/
def decOverflows (r : Int) : Bool := decide (r < -5 * 10 ^ 15) || decide (5 * 10 ^ 15 - 1 < r)

/-- DEC_DATA for operand `r`, gs1 or gs2 (R104). DEDUCED (log entry 34). -/
def decDataExc (r : BitVec 5) (second : Bool) (pos : Nat) : Exc :=
  excPlain 9 0 (at' r 0 ||| atB second 5 ||| at' (BitVec.ofNat 4 pos) 8)

/-- Write a decimal result: DOV is set on overflow, and with DOVE the instruction raises DEC_OVF instead of writing
(R87). -/
def decWrite (t : Thr) (gd : BitVec 5) (r : Int) (poison : Bool) (s : State) : Eff :=
  if decOverflows r then
    let s := instrEvent t 0x1A (updThr t (fun th => { th with dov := true }) s)
    if (thr s t).dove then .raise (excPlain 10 0 (decDigits r)) s
    else .done (updThr t (writeG gd ⟨decDigits r, poison⟩) s)
  else .done (updThr t (writeG gd ⟨decDigits r, poison⟩) s)

/-! ## Floating-point flags (R92) -/

/-- The sticky flags an operation raises, in FPCSR order NX UF OF DZ NV from bit 0. -/
structure FFlags where
  nx : Bool
  uf : Bool
  of : Bool
  dz : Bool
  nv : Bool
deriving DecidableEq, Repr

def FFlags.none : FFlags := ⟨false, false, false, false, false⟩
def FFlags.invalid : FFlags := ⟨false, false, false, false, true⟩

def flagBits (f : FFlags) : BitVec 5 :=
  (atB f.nx 0 ||| atB f.uf 1 ||| atB f.of 2 ||| atB f.dz 3 ||| atB f.nv 4).setWidth 5

/-- Set the raised flags; a raised flag whose trap is enabled raises FP and nothing is written (R92). -/
def fpFinish (t : Thr) (fl : FFlags) (write : Thread → Thread) (s : State) : Eff :=
  let b := flagBits fl
  let s := updThr t (fun th => { th with fpFlags := th.fpFlags ||| b }) s
  if b &&& (thr s t).fpTrap ≠ 0 then .raise (excPlain 11 0 (at' b 0)) s
  else .done (updThr t write s)

end Sys2Proof.Machine
end

