-- ==== Sys2Proof/Machine/Decimal.lean ====
section
/-! DEFINITION. The packed-decimal instructions (R86 to R89). -/
namespace Sys2Proof.Machine

/-- An operation on one or two decimal operands, checked for digits above 9 (R88). DEDUCED (log entry 34). -/
def decOp (t : Thr) (word : BitVec 32) (legal : Bool) (gs1 : BitVec 5) (gs2 : Option (BitVec 5))
    (body : Int → Int → Bool → State → Eff) (s : State) : Result :=
  .next (runInstr t (plainCheck word legal) (fun th s =>
    let a := readG th gs1
    let b := match gs2 with | some r => readG th r | none => PReg.zero
    match badDigit a.val with
    | some p => .raise (decDataExc gs1 false p) s
    | none =>
      match badDigit b.val with
      | some p => .raise (decDataExc (gs2.getD 0) true p) s
      | none => body (decVal a.val) (decVal b.val) (a.poison || b.poison) s) s)

/-- A comparison as −1, 0 or 1 in binary. -/
def decCompare (a b : Int) : Word := if a < b then BitVec.allOnes 64 else if a = b then 0 else 1

def execDadd (t : Thr) (f : FmtA) (s : State) : Result :=
  decOp t (wordA 3 f 0x000) true f.gs1 (some f.gs2) (fun a b p s => decWrite t f.gd (a + b) p s) s

def execDsub (t : Thr) (f : FmtA) (s : State) : Result :=
  decOp t (wordA 3 f 0x001) true f.gs1 (some f.gs2) (fun a b p s => decWrite t f.gd (a - b) p s) s

def execDcmp (t : Thr) (f : FmtA) (s : State) : Result :=
  decOp t (wordA 3 f 0x002) true f.gs1 (some f.gs2)
    (fun a b p s => .done (updThr t (writeG f.gd ⟨decCompare a b, p⟩) s)) s

/-- DCVT.BD: the operand is binary and is not checked (R88). -/
def execDcvtBd (t : Thr) (f : FmtA) (s : State) : Result :=
  .next (runInstr t (plainCheck (wordA 3 f 0x004) (f.gs2 = 0)) (fun th s =>
    let a := readG th f.gs1
    decWrite t f.gd a.val.toInt a.poison s) s)

def execDcvtDb (t : Thr) (f : FmtA) (s : State) : Result :=
  decOp t (wordA 3 f 0x005) (f.gs2 = 0) f.gs1 none
    (fun a _ p s => .done (updThr t (writeG f.gd ⟨BitVec.ofInt 64 a, p⟩) s)) s

def execDmulk (t : Thr) (f : FmtB) (s : State) : Result :=
  decOp t (wordB 4 f) true f.gs1 none (fun a _ p s => decWrite t f.gd (a * (f.imm.toNat : Int)) p s) s

end Sys2Proof.Machine
end

