-- ==== Sys2Proof/Machine/Fences.lean ====
section
/-! DEFINITION. Fences and synchronisation (R96, R138, R159 to R164, R185). -/
namespace Sys2Proof.Machine

/-- An older access that counts as a store for FENCE.O is not performed yet (R159). DEDUCED (log entry 29). -/
def storesOpen (th : Thread) : Bool := (th.outst ++ th.stores).any (fun a => a.kind ≠ .load && !isDevice (spaceOf a.pa))

/-- FENCE.O: with SL or SS in its mask it waits until every older store to normal memory is performed. Older loads have
their values before it executes, so LL and LS ask for nothing more. DEDUCED (log entry 29). -/
def execFenceO (t : Thr) (f : FmtF) (s : State) : Result :=
  let legal := f.gd = 0 && f.gs1 = 0 && f.imm.extractLsb' 4 8 = 0
  .next (runInstr t (plainCheck (wordF 0x24 f 0x0) legal) (fun th s =>
    if (f.imm.getLsbD 2 || f.imm.getLsbD 3) && storesOpen th then
      .wait (updThr t (fun th => { th with held := if isAdze t then .abandonable else th.held }) s)
    else .done s) s)

/-- COMPLETION reports the stores lost since the last FENCE.C (R185). DEDUCED (log entry 30). -/
def completionExc (th : Thread) : Exc := ⟨17, 0, at' th.logFirst 0, 0, false, th.lostPending⟩

/-- FENCE.C (R161): with nothing outstanding it ends at once; otherwise the thread waits in it. -/
def execFenceC (t : Thr) (f : FmtF) (s : State) : Result :=
  let k := { plainCheck (wordF 0x24 f 0x1) (f.gd = 0 && f.gs1 = 0 && f.imm = 0) with oldest := true }
  .next (runInstr t k (fun th s =>
    if !allPerformed th then .wait (updThr t (fun th => { th with run := .fencing }) s)
    else if th.lostPending ≠ 0 then .raise (completionExc th) s
    else .done s) s)

/-- FENCE_C_DRAINED: the accesses that a FENCE.C waits for are all complete (R161, R185). -/
def execFenceCDrained (t : Thr) (s : State) : Result :=
  let th := thr s t
  if th.run ≠ .fencing || !allPerformed th || halted th || !unitRuns s t then .next s
  else if th.lostPending ≠ 0 then .next (raiseExc t (completionExc th) s s)
  else .next (retireTo t (th.pc + 4) th (updThr t (fun th => { th with run := .running }) s))

/-- ISYNC completes when every older store has left the store buffer or queue (R138, R272). -/
def execIsync (t : Thr) (f : FmtF) (s : State) : Result :=
  let k := { plainCheck (wordF 0x24 f 0x2) (f.gd = 0 && f.gs1 = 0 && f.imm = 0) with oldest := true }
  .next (runInstr t k (fun th s => if th.stores.isEmpty then .done (refetch t s) else .wait s) s)

end Sys2Proof.Machine
end

