-- ==== Sys2Proof/Machine/Float.lean ====
section
/-! DEFINITION. Floating point (R71, R90 to R92): IEEE 754-2019 binary64 and binary32 by exact arithmetic on
m × 2^e and one rounding, with tininess detected after rounding. -/
namespace Sys2Proof.Machine

/-! ## Formats and values -/

/-- A format: precision in bits and exponent bias. -/
structure Fmt where
  p : Nat
  bias : Nat
deriving DecidableEq, Repr

def binary64 : Fmt := ⟨53, 1023⟩
def binary32 : Fmt := ⟨24, 127⟩

def fmtOf (single : Bool) : Fmt := if single then binary32 else binary64

/-- Exponent of the lowest bit of a subnormal. -/
def Fmt.qMin (f : Fmt) : Int := 2 - (f.bias : Int) - (f.p : Int)

/-- Bits of +∞ and of the sign. -/
def Fmt.infBits (f : Fmt) : Nat := (2 * f.bias + 1) * 2 ^ (f.p - 1)
def Fmt.signBit (f : Fmt) : Nat := (2 * f.bias + 2) * 2 ^ (f.p - 1)

/-- The default NaN of R91. -/
def Fmt.nanBits (f : Fmt) : Nat := f.infBits + 2 ^ (f.p - 2)

/-- An operand: a number is (−1)^neg × m × 2^e. -/
inductive FVal where
  | nan (signalling : Bool)
  | inf (neg : Bool)
  | num (neg : Bool) (m : Nat) (e : Int)
deriving DecidableEq, Repr

/-- What the bits of a format stand for. -/
def unpack (f : Fmt) (b : Nat) : FVal :=
  let neg := decide (f.signBit ≤ b)
  let v := b % f.signBit
  let frac := v % 2 ^ (f.p - 1)
  let ex := v / 2 ^ (f.p - 1)
  if v = f.infBits then .inf neg
  else if f.infBits < v then .nan (frac / 2 ^ (f.p - 2) = 0)
  else if ex = 0 then .num neg frac f.qMin
  else .num neg (frac + 2 ^ (f.p - 1)) (f.qMin + (ex : Int) - 1)

/-- An operand of a precision read from a register: the quiet default NaN where the width tag differs (R71). -/
def readFVal (single : Bool) (r : FReg) : FVal :=
  if r.single ≠ single then .nan false
  else unpack (fmtOf single) (if single then r.val.toNat % 2 ^ 32 else r.val.toNat)

/-! ## Rounding -/

/-- Round m ÷ 2^k to a whole number: the result and whether it is inexact. `rm` is coded as FPCSR.RM. -/
def roundShift (rm : BitVec 3) (neg : Bool) (m k : Nat) : Nat × Bool :=
  let q := m / 2 ^ k
  let r := m % 2 ^ k
  if r = 0 then (q, false) else
  let twice := 2 * r
  let up : Bool :=
    if rm = 0 then decide (2 ^ k < twice) || (decide (twice = 2 ^ k) && q % 2 = 1)
    else if rm = 1 then false
    else if rm = 2 then neg
    else if rm = 3 then !neg
    else decide (2 ^ k ≤ twice)
  (if up then q + 1 else q, true)

/-- Round m × 2^e to a multiple of 2^q. -/
def roundAt (rm : BitVec 3) (neg : Bool) (m : Nat) (e q : Int) : Nat × Bool :=
  if q ≤ e then (m * 2 ^ (e - q).toNat, false) else roundShift rm neg m (q - e).toNat

/-- The result of an operation: its bits and the flags it raises. -/
abbrev FRes := Nat × FFlags

def signed (f : Fmt) (neg : Bool) (b : Nat) : Nat := if neg then f.signBit + b else b

/-- Round an exact number to a format (R90): overflow by the rounding mode, underflow where the result rounded with
an unbounded exponent is below the least normal number and the delivered result is inexact. -/
def roundTo (f : Fmt) (rm : BitVec 3) (neg : Bool) (m : Nat) (e : Int) : FRes :=
  if m = 0 then (signed f neg 0, FFlags.none) else
  let top : Int := (Nat.log2 m : Int) + e
  let q0 := top - ((f.p : Int) - 1)
  let q := if q0 < f.qMin then f.qMin else q0
  let free := (roundAt rm neg m e q0).1
  let tiny := decide (q0 < f.qMin) && !(decide (q0 + 1 = f.qMin) && decide (free = 2 ^ f.p))
  let r := roundAt rm neg m e q
  let b := (q - f.qMin).toNat * 2 ^ (f.p - 1) + r.1
  if f.infBits ≤ b then
    let toInf := rm = 0 || rm = 4 || (rm = 2 && neg) || (rm = 3 && !neg)
    (signed f neg (if toInf then f.infBits else f.infBits - 1), { FFlags.none with of := true, nx := true })
  else (signed f neg b, { FFlags.none with nx := r.2, uf := tiny && r.2 })

def resNan (f : Fmt) (nv : Bool) : FRes := (f.nanBits, { FFlags.none with nv := nv })
def resInf (f : Fmt) (neg : Bool) : FRes := (signed f neg f.infBits, FFlags.none)

def isSig : FVal → Bool
  | .nan b => b
  | _ => false

def isNan : FVal → Bool
  | .nan _ => true
  | _ => false

/-! ## Arithmetic -/

def negV : FVal → FVal
  | .nan b => .nan b
  | .inf n => .inf !n
  | .num n m e => .num (!n) m e

/-- A signed integer m at exponent e. -/
def toSigned (neg : Bool) (m : Nat) : Int := if neg then -(m : Int) else (m : Int)

/-- Exact sum of two numbers, rounded once; a zero sum of unlike signs is −0 toward −∞, otherwise +0. -/
def addNum (f : Fmt) (rm : BitVec 3) (n1 : Bool) (m1 : Nat) (e1 : Int) (n2 : Bool) (m2 : Nat) (e2 : Int) : FRes :=
  if m1 = 0 && m2 = 0 then (signed f (if n1 = n2 then n1 else rm = 2) 0, FFlags.none) else
  let e := if e1 < e2 then e1 else e2
  let v := toSigned n1 (m1 * 2 ^ (e1 - e).toNat) + toSigned n2 (m2 * 2 ^ (e2 - e).toNat)
  if v = 0 then (signed f (rm = 2) 0, FFlags.none) else roundTo f rm (decide (v < 0)) v.natAbs e

def addV (f : Fmt) (rm : BitVec 3) (a b : FVal) : FRes :=
  match a, b with
  | .inf n1, .inf n2 => if n1 = n2 then resInf f n1 else resNan f true
  | .inf n, .num _ _ _ => resInf f n
  | .num _ _ _, .inf n => resInf f n
  | .num n1 m1 e1, .num n2 m2 e2 => addNum f rm n1 m1 e1 n2 m2 e2
  | _, _ => resNan f (isSig a || isSig b)

def mulV (f : Fmt) (rm : BitVec 3) (a b : FVal) : FRes :=
  match a, b with
  | .inf n1, .inf n2 => resInf f (n1 != n2)
  | .inf n1, .num n2 m _ => if m = 0 then resNan f true else resInf f (n1 != n2)
  | .num n1 m _, .inf n2 => if m = 0 then resNan f true else resInf f (n1 != n2)
  | .num n1 m1 e1, .num n2 m2 e2 => roundTo f rm (n1 != n2) (m1 * m2) (e1 + e2)
  | _, _ => resNan f (isSig a || isSig b)

/-- Quotient to 128 places below the divisor's size, with the rest of it as a sticky bit. -/
def divNum (f : Fmt) (rm : BitVec 3) (neg : Bool) (m1 : Nat) (e1 : Int) (m2 : Nat) (e2 : Int) : FRes :=
  let n := m1 * 2 ^ 128
  let s := if n % m2 = 0 then 0 else 1
  roundTo f rm neg (2 * (n / m2) + s) (e1 - e2 - 129)

def divV (f : Fmt) (rm : BitVec 3) (a b : FVal) : FRes :=
  match a, b with
  | .inf _, .inf _ => resNan f true
  | .inf n1, .num n2 _ _ => resInf f (n1 != n2)
  | .num n1 _ _, .inf n2 => (signed f (n1 != n2) 0, FFlags.none)
  | .num n1 m1 e1, .num n2 m2 e2 =>
    if m2 = 0 then
      if m1 = 0 then resNan f true else (signed f (n1 != n2) f.infBits, { FFlags.none with dz := true })
    else divNum f rm (n1 != n2) m1 e1 m2 e2
  | _, _ => resNan f (isSig a || isSig b)

/-- Whole square root, by one bit at a time from bit `k - 1` down. -/
def isqrt (n : Nat) : Nat → Nat → Nat
  | 0, r => r
  | k + 1, r => let c := r + 2 ^ k; if c * c ≤ n then isqrt n k c else isqrt n k r

/-- Square root: the operand scaled to an even exponent, with the rest as a sticky bit. -/
def sqrtV (f : Fmt) (rm : BitVec 3) (a : FVal) : FRes :=
  match a with
  | .nan s => resNan f s
  | .inf n => if n then resNan f true else resInf f false
  | .num n m e =>
    if m = 0 then (signed f n 0, FFlags.none)
    else if n then resNan f true
    else
      let odd : Nat := if e % 2 = 0 then 0 else 1
      let v := m * 2 ^ (128 + odd)
      let h := (e - 128 - (odd : Int)) / 2
      let r := isqrt v 96 0
      roundTo f rm false (2 * r + (if r * r = v then 0 else 1)) (h - 1)

/-- a × b + c rounded once; the flag says that IEEE 754 leaves NV open: 0 × ∞ with a quiet NaN addend.
DESIGN CHOICE (log entry 33). -/
def fmaV (f : Fmt) (rm : BitVec 3) (a b c : FVal) : FRes × Bool :=
  let invalidMul : Bool := match a, b with
    | .inf _, .num _ m _ => m = 0
    | .num _ m _, .inf _ => m = 0
    | _, _ => false
  match c with
  | .nan s =>
    if invalidMul && !s then (resNan f false, true) else (resNan f (s || isSig a || isSig b), false)
  | _ =>
    if invalidMul then (resNan f true, false)
    else match a, b, c with
      | .num n1 m1 e1, .num n2 m2 e2, .num n3 m3 e3 =>
        (addNum f rm (n1 != n2) (m1 * m2) (e1 + e2) n3 m3 e3, false)
      | .num _ _ _, .num _ _ _, .inf n => (resInf f n, false)
      | _, _, _ =>
        if isNan a || isNan b then (resNan f (isSig a || isSig b), false)
        else
          let neg : Bool := match a, b with
            | .inf n1, .inf n2 => n1 != n2
            | .inf n1, .num n2 _ _ => n1 != n2
            | .num n1 _ _, .inf n2 => n1 != n2
            | _, _ => false
          (match c with
            | .inf n => if n = neg then resInf f neg else resNan f true
            | _ => resInf f neg, false)

/-! ## Comparison -/

/-- Compare two numbers or infinities; none where either is a NaN. Zeros of either sign are equal. -/
def cmpV (a b : FVal) : Option Ordering :=
  match a, b with
  | .nan _, _ => none
  | _, .nan _ => none
  | .inf n1, .inf n2 => some (if n1 = n2 then .eq else if n1 then .lt else .gt)
  | .inf n, .num _ _ _ => some (if n then .lt else .gt)
  | .num _ _ _, .inf n => some (if n then .gt else .lt)
  | .num n1 m1 e1, .num n2 m2 e2 =>
    let e := if e1 < e2 then e1 else e2
    let x := toSigned n1 (m1 * 2 ^ (e1 - e).toNat)
    let y := toSigned n2 (m2 * 2 ^ (e2 - e).toNat)
    some (if x < y then .lt else if x = y then .eq else .gt)

/-- A negative operand, zero included. -/
def negOf : FVal → Bool
  | .nan _ => false
  | .inf n => n
  | .num n _ _ => n

/-- Bits of a value in its own format. -/
def packV (f : Fmt) : FVal → Nat
  | .nan _ => f.nanBits
  | .inf n => signed f n f.infBits
  | .num n m e => (roundTo f 0 n m e).1

/-- minimumNumber and maximumNumber: a NaN yields to a number, −0 is below +0, a signalling NaN raises NV. -/
def minMaxV (f : Fmt) (wantMax : Bool) (a b : FVal) : FRes :=
  let fl := { FFlags.none with nv := isSig a || isSig b }
  if isNan a && isNan b then (f.nanBits, fl)
  else if isNan a then (packV f b, fl)
  else if isNan b then (packV f a, fl)
  else
    let aLess : Bool := match cmpV a b with
      | some .lt => true
      | some .eq => negOf a && !negOf b
      | _ => false
    (packV f (if aLess = wantMax then b else a), fl)

/-! ## Conversions -/

/-- To an integer between `lo` and `hi`, saturating with NV (R91). -/
def toIntV (rm : BitVec 3) (lo hi : Int) (a : FVal) : Int × FFlags :=
  match a with
  | .nan _ => (hi, FFlags.invalid)
  | .inf n => (if n then lo else hi, FFlags.invalid)
  | .num n m e =>
    let r := roundAt rm n m e 0
    let v := toSigned n r.1
    if v < lo then (lo, FFlags.invalid)
    else if hi < v then (hi, FFlags.invalid)
    else (v, { FFlags.none with nx := r.2 })

/-- The one-hot class of FCLASS. -/
def classV (f : Fmt) : FVal → Nat
  | .nan s => if s then 0 else 1
  | .inf n => if n then 9 else 2
  | .num n m _ =>
    if m = 0 then (if n then 6 else 5)
    else if m < 2 ^ (f.p - 1) then (if n then 7 else 4)
    else (if n then 8 else 3)

/-- From one format to another. -/
def convV (f : Fmt) (rm : BitVec 3) : FVal → FRes
  | .nan s => resNan f s
  | .inf n => resInf f n
  | .num n m e => roundTo f rm n m e

/-! ## The instruction form -/

/-- The word of a floating-point instruction (R90). -/
def wordFP (op : Nat) (f : FmtFP) : BitVec 32 :=
  BitVec.ofNat 6 0x10 ++ f.fd ++ f.fs1 ++ f.fs2 ++ BitVec.ofNat 6 op ++ BitVec.ofBool f.p ++ BitVec.ofBool f.m3 ++ f.rm

/-- The rounding mode in force; 0b111 selects FPCSR.RM. -/
def rmOf (th : Thread) (rm : BitVec 3) : BitVec 3 := if rm = 7 then th.fpRm else rm

/-- Checks of a floating-point instruction: its rounding field, its unused fields, and the kind of unit (R80, R111). -/
def checkFP (op : Nat) (f : FmtFP) (rounds two : Bool) : Check :=
  { plainCheck (wordFP op f) ((if rounds then decide (f.rm ≠ 5 ∧ f.rm ≠ 6) else f.rm = 0) && (two || f.fs2 = 0) && !f.m3)
    with coreOnly := true }

/-- A value of a precision as a register's contents. -/
def fregOf (single : Bool) (bits : Nat) (poison : Bool) : FReg := ⟨BitVec.ofNat 64 bits, poison, single⟩

/-- An operation on one or two f registers that gives a value of the same precision. -/
def fpOp (op : Nat) (t : Thr) (f : FmtFP) (rounds two : Bool) (g : Fmt → BitVec 3 → FVal → FVal → FRes) (s : State) :
    Result :=
  .next (runInstr t (checkFP op f rounds two) (fun th s =>
    let a := readF th f.fs1
    let b := if two then readF th f.fs2 else FReg.zero
    let r := g (fmtOf f.p) (rmOf th f.rm) (readFVal f.p a) (readFVal f.p b)
    fpFinish t r.2 (writeF f.fd (fregOf f.p r.1 (a.poison || b.poison))) s) s)

/-- FMADD and FMSUB: fd is read as the addend (R90, R101). DESIGN CHOICE (log entry 33). -/
def fpFma (op : Nat) (t : Thr) (f : FmtFP) (sub : Bool) (s : State) : Result :=
  .next (runInstr t (checkFP op f true true) (fun th s =>
    let a := readF th f.fs1
    let b := readF th f.fs2
    let d := readF th f.fd
    let c := readFVal f.p d
    let r := fmaV (fmtOf f.p) (rmOf th f.rm) (readFVal f.p a) (readFVal f.p b) (if sub then negV c else c)
    let q := if r.2 then freeBit s else (r.1.2.nv, s)
    fpFinish t { r.1.2 with nv := q.1 } (writeF f.fd (fregOf f.p r.1.1 (a.poison || b.poison || d.poison))) q.2) s)

/-- An operation on f registers that writes a g register. -/
def fpToG (op : Nat) (t : Thr) (f : FmtFP) (rounds two : Bool) (g : Fmt → BitVec 3 → FVal → FVal → Word × FFlags)
    (s : State) : Result :=
  .next (runInstr t (checkFP op f rounds two) (fun th s =>
    let a := readF th f.fs1
    let b := if two then readF th f.fs2 else FReg.zero
    let r := g (fmtOf f.p) (rmOf th f.rm) (readFVal f.p a) (readFVal f.p b)
    fpFinish t r.2 (writeG f.fd ⟨r.1, a.poison || b.poison⟩) s) s)

/-- A sign operation on the bits of the operand as it is read; no flag is raised. A NaN keeps its other bits, as R90 has
abs, negate and copySign of IEEE 754 do, and does not become the default NaN of R91. DEDUCED (log entry 85). -/
def fpSign (op : Nat) (t : Thr) (f : FmtFP) (two : Bool) (neg : Bool → Bool → Bool) (s : State) : Result :=
  .next (runInstr t (checkFP op f false two) (fun th s =>
    let m := fmtOf f.p
    let bits := fun (r : FReg) =>
      if r.single ≠ f.p then m.nanBits else if f.p then r.val.toNat % 2 ^ 32 else r.val.toNat
    let a := readF th f.fs1
    let b := if two then readF th f.fs2 else ⟨0, false, f.p⟩
    let sign := neg (m.signBit ≤ bits a) (m.signBit ≤ bits b)
    .done (updThr t (writeF f.fd (fregOf f.p (signed m sign (bits a % m.signBit)) (a.poison || b.poison))) s)) s)

/-! ## The instructions (R90) -/

def execFadd (t : Thr) (f : FmtFP) (s : State) : Result := fpOp 0x00 t f true true addV s

def execFsub (t : Thr) (f : FmtFP) (s : State) : Result :=
  fpOp 0x01 t f true true (fun m rm a b => addV m rm a (negV b)) s

def execFmul (t : Thr) (f : FmtFP) (s : State) : Result := fpOp 0x02 t f true true mulV s

def execFdiv (t : Thr) (f : FmtFP) (s : State) : Result := fpOp 0x03 t f true true divV s

def execFsqrt (t : Thr) (f : FmtFP) (s : State) : Result :=
  fpOp 0x04 t f true false (fun m rm a _ => sqrtV m rm a) s

def execFmadd (t : Thr) (f : FmtFP) (s : State) : Result := fpFma 0x05 t f false s

def execFmsub (t : Thr) (f : FmtFP) (s : State) : Result := fpFma 0x06 t f true s

def execFmin (t : Thr) (f : FmtFP) (s : State) : Result :=
  fpOp 0x08 t f false true (fun m _ a b => minMaxV m false a b) s

def execFmax (t : Thr) (f : FmtFP) (s : State) : Result :=
  fpOp 0x09 t f false true (fun m _ a b => minMaxV m true a b) s

def execFabs (t : Thr) (f : FmtFP) (s : State) : Result := fpSign 0x0A t f false (fun _ _ => false) s

def execFneg (t : Thr) (f : FmtFP) (s : State) : Result := fpSign 0x0B t f false (fun a _ => !a) s

def execFcpysgn (t : Thr) (f : FmtFP) (s : State) : Result := fpSign 0x0C t f true (fun _ b => b) s

/-- One if a comparison holds, with NV where it signals. -/
def cmpRes (quiet : Bool) (want : Ordering → Bool) (a b : FVal) : Word × FFlags :=
  let nv := if quiet then isSig a || isSig b else isNan a || isNan b
  (match cmpV a b with
    | some o => if want o then 1 else 0
    | none => 0, { FFlags.none with nv := nv })

def execFceq (t : Thr) (f : FmtFP) (s : State) : Result :=
  fpToG 0x10 t f false true (fun _ _ a b => cmpRes true (fun o => o == .eq) a b) s

def execFclt (t : Thr) (f : FmtFP) (s : State) : Result :=
  fpToG 0x11 t f false true (fun _ _ a b => cmpRes false (fun o => o == .lt) a b) s

def execFcle (t : Thr) (f : FmtFP) (s : State) : Result :=
  fpToG 0x12 t f false true (fun _ _ a b => cmpRes false (fun o => o != .gt) a b) s

def execFclass (t : Thr) (f : FmtFP) (s : State) : Result :=
  fpToG 0x13 t f false false (fun m _ a _ => (BitVec.ofNat 64 (2 ^ classV m a), FFlags.none)) s

def execFcvtGF (t : Thr) (f : FmtFP) (s : State) : Result :=
  fpToG 0x18 t f true false (fun _ rm a _ =>
    let r := toIntV rm (-2 ^ 63) (2 ^ 63 - 1) a
    (BitVec.ofInt 64 r.1, r.2)) s

def execFcvtGuF (t : Thr) (f : FmtFP) (s : State) : Result :=
  fpToG 0x19 t f true false (fun _ rm a _ =>
    let r := toIntV rm 0 (2 ^ 64 - 1) a
    (BitVec.ofInt 64 r.1, r.2)) s

/-- A g register read as an integer and rounded to the precision. -/
def fpFromG (op : Nat) (t : Thr) (f : FmtFP) (isSigned : Bool) (s : State) : Result :=
  .next (runInstr t (checkFP op f true false) (fun th s =>
    let a := readG th f.fs1
    let v : Int := if isSigned then a.val.toInt else (a.val.toNat : Int)
    let r := roundTo (fmtOf f.p) (rmOf th f.rm) (decide (v < 0)) v.natAbs 0
    fpFinish t r.2 (writeF f.fd (fregOf f.p r.1 a.poison)) s) s)

def execFcvtFG (t : Thr) (f : FmtFP) (s : State) : Result := fpFromG 0x1A t f true s

def execFcvtFGu (t : Thr) (f : FmtFP) (s : State) : Result := fpFromG 0x1B t f false s

/-- FCVT.SD: P names the precision of the result; the operand has the other. -/
def execFcvtSd (t : Thr) (f : FmtFP) (s : State) : Result :=
  .next (runInstr t (checkFP 0x1C f true false) (fun th s =>
    let a := readF th f.fs1
    let r := convV (fmtOf f.p) (rmOf th f.rm) (readFVal (!f.p) a)
    fpFinish t r.2 (writeF f.fd (fregOf f.p r.1 a.poison)) s) s)

/-- FMV.G.F: all 64 bits whatever the tag; P must be 0. -/
def execFmvGF (t : Thr) (f : FmtFP) (s : State) : Result :=
  let k := checkFP 0x1E f false false
  .next (runInstr t { k with legal := k.legal && !f.p } (fun th s =>
    let a := readF th f.fs1
    .done (updThr t (writeG f.fd ⟨a.val, a.poison⟩) s)) s)

def execFmvFG (t : Thr) (f : FmtFP) (s : State) : Result :=
  .next (runInstr t (checkFP 0x1F f false false) (fun th s =>
    let a := readG th f.fs1
    .done (updThr t (writeF f.fd (fregOf f.p (if f.p then a.val.toNat % 2 ^ 32 else a.val.toNat) a.poison)) s)) s)

end Sys2Proof.Machine
end

