-- ==== Sys2Proof/Machine/Integer.lean ====
section
/-! DEFINITION. The integer instructions: register (R83), immediate (R84), multiply and divide (R85). -/
namespace Sys2Proof.Machine

/-! ## Operations -/

/-- One if a comparison holds, else zero. -/
def oneIf (b : Bool) : Word := if b then 1 else 0

/-- Leading zeros of a word; 64 for 0. -/
def clz64 (a : Word) : Word := if a = 0 then 64 else BitVec.ofNat 64 (63 - Nat.log2 a.toNat)

/-- Trailing zeros of a word; 64 for 0. -/
def ctz64 (a : Word) : Word := BitVec.ofNat 64 (((List.range 64).find? (fun i => a.getLsbD i)).getD 64)

/-- The eight bytes reversed. -/
def bswap64 (a : Word) : Word := wordOf (bytesOf 8 a).reverse

/-- Shifts and rotate by the low six bits of the amount (R83, R84). -/
def shiftOp (kind : BitVec 2) (a : Word) (n : BitVec 6) : Word :=
  if kind = 0 then a <<< n.toNat
  else if kind = 1 then a >>> n.toNat
  else if kind = 2 then a.sshiftRight n.toNat
  else a.rotateRight n.toNat

/-- Quotient rounded toward zero; all ones for a divisor of 0 (R85). -/
def divS (a b : Word) : Word := if b = 0 then BitVec.allOnes 64 else a.sdiv b
def divU (a b : Word) : Word := if b = 0 then BitVec.allOnes 64 else a.udiv b

/-- Remainder with the sign of the dividend; the dividend for a divisor of 0 (R85). -/
def remS (a b : Word) : Word := if b = 0 then a else a.srem b
def remU (a b : Word) : Word := if b = 0 then a else a.umod b

/-- High half of the signed and the unsigned 128-bit product. -/
def mulHiS (a b : Word) : Word := ((a.signExtend 128) * (b.signExtend 128)).extractLsb' 64 64
def mulHiU (a b : Word) : Word := ((a.setWidth 128) * (b.setWidth 128)).extractLsb' 64 64

/-! ## Shared forms -/

/-- A format A operation on two general registers (one where `two` is false); the poison of what it reads goes with
the result (R101). -/
def regOp (op : Nat) (t : Thr) (f : FmtA) (minor : Nat) (two : Bool) (g : Word → Word → Word) (s : State) : Result :=
  .next (runInstr t (plainCheck (wordA op f minor) (two || f.gs2 = 0)) (fun th s =>
    let a := readG th f.gs1
    let b := if two then readG th f.gs2 else PReg.zero
    .done (updThr t (writeG f.gd ⟨g a.val b.val, a.poison || b.poison⟩) s)) s)

/-- A conditional move: the old contents of gd count as read (R83, R101). -/
def cmovOp (t : Thr) (f : FmtA) (minor : Nat) (takes : Word → Bool) (s : State) : Result :=
  .next (runInstr t (plainCheck (wordA 1 f minor) true) (fun th s =>
    let a := readG th f.gs1
    let b := readG th f.gs2
    let d := readG th f.gd
    .done (updThr t (writeG f.gd ⟨if takes b.val then a.val else d.val, a.poison || b.poison || d.poison⟩) s)) s)

/-- A format B operation on a register and an immediate. -/
def immOp (op : Nat) (t : Thr) (f : FmtB) (legal : Bool) (g : Word → Word) (s : State) : Result :=
  .next (runInstr t (plainCheck (wordB op f) legal) (fun th s =>
    let a := readG th f.gs1
    .done (updThr t (writeG f.gd ⟨g a.val, a.poison⟩) s)) s)

/-! ## Integer register (R83) -/

def execAdd (t : Thr) (f : FmtA) (s : State) : Result :=
  regOp 1 t f 0x000 true (fun a b => a + b) s

def execSub (t : Thr) (f : FmtA) (s : State) : Result :=
  regOp 1 t f 0x001 true (fun a b => a - b) s

def execAnd (t : Thr) (f : FmtA) (s : State) : Result :=
  regOp 1 t f 0x002 true (fun a b => a &&& b) s

def execOr (t : Thr) (f : FmtA) (s : State) : Result :=
  regOp 1 t f 0x003 true (fun a b => a ||| b) s

def execXor (t : Thr) (f : FmtA) (s : State) : Result :=
  regOp 1 t f 0x004 true (fun a b => a ^^^ b) s

def execAndn (t : Thr) (f : FmtA) (s : State) : Result :=
  regOp 1 t f 0x005 true (fun a b => a &&& ~~~b) s

def execSll (t : Thr) (f : FmtA) (s : State) : Result :=
  regOp 1 t f 0x008 true (fun a b => shiftOp 0 a (b.setWidth 6)) s

def execSrl (t : Thr) (f : FmtA) (s : State) : Result :=
  regOp 1 t f 0x009 true (fun a b => shiftOp 1 a (b.setWidth 6)) s

def execSra (t : Thr) (f : FmtA) (s : State) : Result :=
  regOp 1 t f 0x00A true (fun a b => shiftOp 2 a (b.setWidth 6)) s

def execRotr (t : Thr) (f : FmtA) (s : State) : Result :=
  regOp 1 t f 0x00B true (fun a b => shiftOp 3 a (b.setWidth 6)) s

def execSlt (t : Thr) (f : FmtA) (s : State) : Result :=
  regOp 1 t f 0x010 true (fun a b => oneIf (a.slt b)) s

def execSltu (t : Thr) (f : FmtA) (s : State) : Result :=
  regOp 1 t f 0x011 true (fun a b => oneIf (a.ult b)) s

def execMin (t : Thr) (f : FmtA) (s : State) : Result :=
  regOp 1 t f 0x012 true (fun a b => if a.slt b then a else b) s

def execMax (t : Thr) (f : FmtA) (s : State) : Result :=
  regOp 1 t f 0x013 true (fun a b => if a.slt b then b else a) s

def execMinu (t : Thr) (f : FmtA) (s : State) : Result :=
  regOp 1 t f 0x014 true (fun a b => if a.ult b then a else b) s

def execMaxu (t : Thr) (f : FmtA) (s : State) : Result :=
  regOp 1 t f 0x015 true (fun a b => if a.ult b then b else a) s

def execAddw (t : Thr) (f : FmtA) (s : State) : Result :=
  regOp 1 t f 0x018 true (fun a b => sextN 32 (a + b)) s

def execSubw (t : Thr) (f : FmtA) (s : State) : Result :=
  regOp 1 t f 0x019 true (fun a b => sextN 32 (a - b)) s

def execClz (t : Thr) (f : FmtA) (s : State) : Result :=
  regOp 1 t f 0x020 false (fun a _ => clz64 a) s

def execCtz (t : Thr) (f : FmtA) (s : State) : Result :=
  regOp 1 t f 0x021 false (fun a _ => ctz64 a) s

def execPopc (t : Thr) (f : FmtA) (s : State) : Result :=
  regOp 1 t f 0x022 false (fun a _ => BitVec.ofNat 64 (popcount a)) s

def execBswap (t : Thr) (f : FmtA) (s : State) : Result :=
  regOp 1 t f 0x023 false (fun a _ => bswap64 a) s

def execSextb (t : Thr) (f : FmtA) (s : State) : Result :=
  regOp 1 t f 0x024 false (fun a _ => sextN 8 a) s

def execSexth (t : Thr) (f : FmtA) (s : State) : Result :=
  regOp 1 t f 0x025 false (fun a _ => sextN 16 a) s

def execSextw (t : Thr) (f : FmtA) (s : State) : Result :=
  regOp 1 t f 0x026 false (fun a _ => sextN 32 a) s

def execZextw (t : Thr) (f : FmtA) (s : State) : Result :=
  regOp 1 t f 0x027 false (fun a _ => zextN 32 a) s

def execCmovz (t : Thr) (f : FmtA) (s : State) : Result := cmovOp t f 0x030 (fun b => b = 0) s

def execCmovnz (t : Thr) (f : FmtA) (s : State) : Result := cmovOp t f 0x031 (fun b => b ≠ 0) s

/-! ## Integer immediate (R84) -/

def execAddi (t : Thr) (f : FmtB) (s : State) : Result :=
  immOp 0x08 t f true (fun a => a + f.imm.signExtend 64) s

def execAndi (t : Thr) (f : FmtB) (s : State) : Result :=
  immOp 0x09 t f true (fun a => a &&& f.imm.setWidth 64) s

def execOri (t : Thr) (f : FmtB) (s : State) : Result :=
  immOp 0x0A t f true (fun a => a ||| f.imm.setWidth 64) s

def execXori (t : Thr) (f : FmtB) (s : State) : Result :=
  immOp 0x0B t f true (fun a => a ^^^ f.imm.setWidth 64) s

def execSlti (t : Thr) (f : FmtB) (s : State) : Result :=
  immOp 0x0C t f true (fun a => oneIf (a.slt (f.imm.signExtend 64))) s

def execSltui (t : Thr) (f : FmtB) (s : State) : Result :=
  immOp 0x0D t f true (fun a => oneIf (a.ult (f.imm.signExtend 64))) s

def execShi (t : Thr) (f : FmtB) (s : State) : Result :=
  immOp 0x0E t f (f.imm.extractLsb' 8 8 = 0) (fun a => shiftOp (f.imm.extractLsb' 6 2) a (f.imm.setWidth 6)) s

/-- INS: sixteen bits of gd replaced; the rest of gd counts as read (R84, R101). -/
def execIns (t : Thr) (f : FmtB) (s : State) : Result :=
  .next (runInstr t (plainCheck (wordB 0x0F f) (f.gs1.extractLsb' 2 3 = 0)) (fun th s =>
    let d := readG th f.gd
    let p := (f.gs1.extractLsb' 0 2).toNat
    .done (updThr t (writeG f.gd ⟨setFld d.val (16 * p) f.imm, d.poison⟩) s)) s)

/-! ## Multiply and divide (R85) -/

def execMul (t : Thr) (f : FmtA) (s : State) : Result :=
  regOp 2 t f 0x000 true (fun a b => a * b) s

def execMulhs (t : Thr) (f : FmtA) (s : State) : Result :=
  regOp 2 t f 0x001 true (mulHiS) s

def execMulhu (t : Thr) (f : FmtA) (s : State) : Result :=
  regOp 2 t f 0x002 true (mulHiU) s

def execMulw (t : Thr) (f : FmtA) (s : State) : Result :=
  regOp 2 t f 0x004 true (fun a b => sextN 32 (a * b)) s

def execDiv (t : Thr) (f : FmtA) (s : State) : Result :=
  regOp 2 t f 0x008 true (divS) s

def execDivu (t : Thr) (f : FmtA) (s : State) : Result :=
  regOp 2 t f 0x009 true (divU) s

def execRem (t : Thr) (f : FmtA) (s : State) : Result :=
  regOp 2 t f 0x00A true (remS) s

def execRemu (t : Thr) (f : FmtA) (s : State) : Result :=
  regOp 2 t f 0x00B true (remU) s

end Sys2Proof.Machine
end

