-- ==== Sys2Proof/Machine/Dispatch.lean ====
section
/-! DEFINITION. The dispatch: each command of the table has one meaning. -/
namespace Sys2Proof.Machine

def exec (i : Instr) (s : State) : Host.Outcome State Fault Refusal :=
  match i with
  | .sillPowerUp => Sys2Proof.Machine.execSillPowerUp s
  | .sillPowerLoss => Sys2Proof.Machine.execSillPowerLoss s
  | .pwrgoodDeassert => Sys2Proof.Machine.execPwrgoodDeassert s
  | .pwrgoodAssert pins => Sys2Proof.Machine.execPwrgoodAssert pins s
  | .strapLatch pins => Sys2Proof.Machine.execStrapLatch pins s
  | .resetNDebounce => Sys2Proof.Machine.execResetNDebounce s
  | .warmResetEffect => Sys2Proof.Machine.execWarmResetEffect s
  | .bringupStart => Sys2Proof.Machine.execBringupStart s
  | .bringupDone => Sys2Proof.Machine.execBringupDone s
  | .bringupTimeout => Sys2Proof.Machine.execBringupTimeout s
  | .railWarning r mv => Sys2Proof.Machine.execRailWarning r mv s
  | .bracedExit => Sys2Proof.Machine.execBracedExit s
  | .vcoreResetCrossing d mv => Sys2Proof.Machine.execVcoreResetCrossing d mv s
  | .vhubResetCrossing mv => Sys2Proof.Machine.execVhubResetCrossing mv s
  | .vio18ResetCrossing mv => Sys2Proof.Machine.execVio18ResetCrossing mv s
  | .vddqResetCrossing g mv => Sys2Proof.Machine.execVddqResetCrossing g mv s
  | .vserdesResetCrossing mv => Sys2Proof.Machine.execVserdesResetCrossing mv s
  | .dieStall d mv => Sys2Proof.Machine.execDieStall d mv s
  | .dieResume d mv => Sys2Proof.Machine.execDieResume d mv s
  | .dieRailRecovered d pass => Sys2Proof.Machine.execDieRailRecovered d pass s
  | .thermalSample die a b c e => Sys2Proof.Machine.execThermalSample die a b c e s
  | .thermalLimitClear => Sys2Proof.Machine.execThermalLimitClear s
  | .throttleStep d => Sys2Proof.Machine.execThrottleStep d s
  | .dimmTempSample c slot reading => Sys2Proof.Machine.execDimmTempSample c slot reading s
  | .regulatorAck r mv => Sys2Proof.Machine.execRegulatorAck r mv s
  | .regulatorAckTimeout r => Sys2Proof.Machine.execRegulatorAckTimeout r s
  | .neighbourLinkFail l onLink => Sys2Proof.Machine.execNeighbourLinkFail l onLink s
  | .hubLinkFail d onLink => Sys2Proof.Machine.execHubLinkFail d onLink s
  | .beatWindowEnd m beats => Sys2Proof.Machine.execBeatWindowEnd m beats s
  | .beatMonClr m => Sys2Proof.Machine.execBeatMonClr m s
  | .clockStop b => Sys2Proof.Machine.execClockStop b s
  | .sillClockTick => Sys2Proof.Machine.execSillClockTick s
  | .refLost => Sys2Proof.Machine.execRefLost s
  | .refRestored => Sys2Proof.Machine.execRefRestored s
  | .ptmRefresh offset => Sys2Proof.Machine.execPtmRefresh offset s
  | .interruptEntry t => Sys2Proof.Machine.execInterruptEntry t s
  | .add t f => Sys2Proof.Machine.execAdd t f s
  | .sub t f => Sys2Proof.Machine.execSub t f s
  | .and t f => Sys2Proof.Machine.execAnd t f s
  | .or t f => Sys2Proof.Machine.execOr t f s
  | .xor t f => Sys2Proof.Machine.execXor t f s
  | .andn t f => Sys2Proof.Machine.execAndn t f s
  | .sll t f => Sys2Proof.Machine.execSll t f s
  | .srl t f => Sys2Proof.Machine.execSrl t f s
  | .sra t f => Sys2Proof.Machine.execSra t f s
  | .rotr t f => Sys2Proof.Machine.execRotr t f s
  | .slt t f => Sys2Proof.Machine.execSlt t f s
  | .sltu t f => Sys2Proof.Machine.execSltu t f s
  | .min t f => Sys2Proof.Machine.execMin t f s
  | .max t f => Sys2Proof.Machine.execMax t f s
  | .minu t f => Sys2Proof.Machine.execMinu t f s
  | .maxu t f => Sys2Proof.Machine.execMaxu t f s
  | .addw t f => Sys2Proof.Machine.execAddw t f s
  | .subw t f => Sys2Proof.Machine.execSubw t f s
  | .clz t f => Sys2Proof.Machine.execClz t f s
  | .ctz t f => Sys2Proof.Machine.execCtz t f s
  | .popc t f => Sys2Proof.Machine.execPopc t f s
  | .bswap t f => Sys2Proof.Machine.execBswap t f s
  | .sextb t f => Sys2Proof.Machine.execSextb t f s
  | .sexth t f => Sys2Proof.Machine.execSexth t f s
  | .sextw t f => Sys2Proof.Machine.execSextw t f s
  | .zextw t f => Sys2Proof.Machine.execZextw t f s
  | .cmovz t f => Sys2Proof.Machine.execCmovz t f s
  | .cmovnz t f => Sys2Proof.Machine.execCmovnz t f s
  | .addi t f => Sys2Proof.Machine.execAddi t f s
  | .andi t f => Sys2Proof.Machine.execAndi t f s
  | .ori t f => Sys2Proof.Machine.execOri t f s
  | .xori t f => Sys2Proof.Machine.execXori t f s
  | .slti t f => Sys2Proof.Machine.execSlti t f s
  | .sltui t f => Sys2Proof.Machine.execSltui t f s
  | .shi t f => Sys2Proof.Machine.execShi t f s
  | .ins t f => Sys2Proof.Machine.execIns t f s
  | .mul t f => Sys2Proof.Machine.execMul t f s
  | .mulhs t f => Sys2Proof.Machine.execMulhs t f s
  | .mulhu t f => Sys2Proof.Machine.execMulhu t f s
  | .mulw t f => Sys2Proof.Machine.execMulw t f s
  | .div t f => Sys2Proof.Machine.execDiv t f s
  | .divu t f => Sys2Proof.Machine.execDivu t f s
  | .rem t f => Sys2Proof.Machine.execRem t f s
  | .remu t f => Sys2Proof.Machine.execRemu t f s
  | .dadd t f => Sys2Proof.Machine.execDadd t f s
  | .dsub t f => Sys2Proof.Machine.execDsub t f s
  | .dcmp t f => Sys2Proof.Machine.execDcmp t f s
  | .dcvtBd t f => Sys2Proof.Machine.execDcvtBd t f s
  | .dcvtDb t f => Sys2Proof.Machine.execDcvtDb t f s
  | .dmulk t f => Sys2Proof.Machine.execDmulk t f s
  | .fadd t f => Sys2Proof.Machine.execFadd t f s
  | .fsub t f => Sys2Proof.Machine.execFsub t f s
  | .fmul t f => Sys2Proof.Machine.execFmul t f s
  | .fdiv t f => Sys2Proof.Machine.execFdiv t f s
  | .fsqrt t f => Sys2Proof.Machine.execFsqrt t f s
  | .fmadd t f => Sys2Proof.Machine.execFmadd t f s
  | .fmsub t f => Sys2Proof.Machine.execFmsub t f s
  | .fmin t f => Sys2Proof.Machine.execFmin t f s
  | .fmax t f => Sys2Proof.Machine.execFmax t f s
  | .fabs t f => Sys2Proof.Machine.execFabs t f s
  | .fneg t f => Sys2Proof.Machine.execFneg t f s
  | .fcpysgn t f => Sys2Proof.Machine.execFcpysgn t f s
  | .fceq t f => Sys2Proof.Machine.execFceq t f s
  | .fclt t f => Sys2Proof.Machine.execFclt t f s
  | .fcle t f => Sys2Proof.Machine.execFcle t f s
  | .fclass t f => Sys2Proof.Machine.execFclass t f s
  | .fcvtGF t f => Sys2Proof.Machine.execFcvtGF t f s
  | .fcvtGuF t f => Sys2Proof.Machine.execFcvtGuF t f s
  | .fcvtFG t f => Sys2Proof.Machine.execFcvtFG t f s
  | .fcvtFGu t f => Sys2Proof.Machine.execFcvtFGu t f s
  | .fcvtSd t f => Sys2Proof.Machine.execFcvtSd t f s
  | .fmvGF t f => Sys2Proof.Machine.execFmvGF t f s
  | .fmvFG t f => Sys2Proof.Machine.execFmvFG t f s
  | .ldb t f => Sys2Proof.Machine.execLdb t f s
  | .ldh t f => Sys2Proof.Machine.execLdh t f s
  | .ldw t f => Sys2Proof.Machine.execLdw t f s
  | .ldd t f => Sys2Proof.Machine.execLdd t f s
  | .ldbs t f => Sys2Proof.Machine.execLdbs t f s
  | .ldhs t f => Sys2Proof.Machine.execLdhs t f s
  | .ldws t f => Sys2Proof.Machine.execLdws t f s
  | .fls t f => Sys2Proof.Machine.execFls t f s
  | .fld t f => Sys2Proof.Machine.execFld t f s
  | .lda t f dbl => Sys2Proof.Machine.execLda t f dbl s
  | .lddNt t f => Sys2Proof.Machine.execLddNt t f s
  | .stb t f => Sys2Proof.Machine.execStb t f s
  | .sth t f => Sys2Proof.Machine.execSth t f s
  | .stw t f => Sys2Proof.Machine.execStw t f s
  | .std t f => Sys2Proof.Machine.execStd t f s
  | .fss t f => Sys2Proof.Machine.execFss t f s
  | .fsd t f => Sys2Proof.Machine.execFsd t f s
  | .stl t f dbl => Sys2Proof.Machine.execStl t f dbl s
  | .stdNt t f => Sys2Proof.Machine.execStdNt t f s
  | .ldres t f dbl => Sys2Proof.Machine.execLdres t f dbl s
  | .stcnd t f dbl => Sys2Proof.Machine.execStcnd t f dbl s
  | .faa t f dbl => Sys2Proof.Machine.execFaa t f dbl s
  | .cas t f dbl => Sys2Proof.Machine.execCas t f dbl s
  | .fenceO t f => Sys2Proof.Machine.execFenceO t f s
  | .fenceC t f => Sys2Proof.Machine.execFenceC t f s
  | .fenceCDrained t => Sys2Proof.Machine.execFenceCDrained t s
  | .isync t f => Sys2Proof.Machine.execIsync t f s
  | .crc32c t f size => Sys2Proof.Machine.execCrc32c t f size s
  | .aesenc t f => Sys2Proof.Machine.execAesenc t f s
  | .aesencl t f => Sys2Proof.Machine.execAesencl t f s
  | .aesdec t f => Sys2Proof.Machine.execAesdec t f s
  | .aesdecl t f => Sys2Proof.Machine.execAesdecl t f s
  | .aesimc t f => Sys2Proof.Machine.execAesimc t f s
  | .beq t f => Sys2Proof.Machine.execBeq t f s
  | .bne t f => Sys2Proof.Machine.execBne t f s
  | .blt t f => Sys2Proof.Machine.execBlt t f s
  | .bge t f => Sys2Proof.Machine.execBge t f s
  | .bltu t f => Sys2Proof.Machine.execBltu t f s
  | .bgeu t f => Sys2Proof.Machine.execBgeu t f s
  | .j t f => Sys2Proof.Machine.execJ t f s
  | .jl t f => Sys2Proof.Machine.execJl t f s
  | .jr t f => Sys2Proof.Machine.execJr t f s
  | .jlr t f => Sys2Proof.Machine.execJlr t f s
  | .ret t f => Sys2Proof.Machine.execRet t f s
  | .mfs t f => Sys2Proof.Machine.execMfs t f s
  | .mts t f => Sys2Proof.Machine.execMts t f s
  | .eret t f => Sys2Proof.Machine.execEret t f s
  | .syscall t f => Sys2Proof.Machine.execSyscall t f s
  | .mcall t f => Sys2Proof.Machine.execMcall t f s
  | .brk t f => Sys2Proof.Machine.execBrk t f s
  | .evdone t f => Sys2Proof.Machine.execEvdone t f s
  | .wait t f => Sys2Proof.Machine.execWait t f s
  | .cclean t f => Sys2Proof.Machine.execCclean t f s
  | .cflush t f => Sys2Proof.Machine.execCflush t f s
  | .cinv t f => Sys2Proof.Machine.execCinv t f s
  | .czero t f => Sys2Proof.Machine.execCzero t f s
  | .iinv t f => Sys2Proof.Machine.execIinv t f s
  | .tlbinv t f => Sys2Proof.Machine.execTlbinv t f s
  | .branchResolved t => Sys2Proof.Machine.execBranchResolved t s
  | .instructionConfirmed t found => Sys2Proof.Machine.execInstructionConfirmed t found s
  | .storeAddressKnown t older => Sys2Proof.Machine.execStoreAddressKnown t older s
  | .mdpEntryExpire t pc => Sys2Proof.Machine.execMdpEntryExpire t pc s
  | .storeRelease t => Sys2Proof.Machine.execStoreRelease t s
  | .completionAck t id found => Sys2Proof.Machine.execCompletionAck t id found s
  | .accessTimeout t id => Sys2Proof.Machine.execAccessTimeout t id s
  | .targetAbsentReport t id cause => Sys2Proof.Machine.execTargetAbsentReport t id cause s
  | .reservationMonitorExpire t g => Sys2Proof.Machine.execReservationMonitorExpire t g s
  | .reservationHoldExpire t => Sys2Proof.Machine.execReservationHoldExpire t s
  | .coreSoloWrite t gs1 => Sys2Proof.Machine.execCoreSoloWrite t gs1 s
  | .soloParked c => Sys2Proof.Machine.execSoloParked c s
  | .asidWrite t gs1 => Sys2Proof.Machine.execAsidWrite t gs1 s
  | .cacheCtlWrite t gs1 => Sys2Proof.Machine.execCacheCtlWrite t gs1 s
  | .cacheCtlDrainDone c l found => Sys2Proof.Machine.execCacheCtlDrainDone c l found s
  | .l2amCtlWrite t gs1 => Sys2Proof.Machine.execL2amCtlWrite t gs1 s
  | .l2amStepDone b l found => Sys2Proof.Machine.execL2amStepDone b l found s
  | .rdS m found => Sys2Proof.Machine.execRdS m found s
  | .rdX m found => Sys2Proof.Machine.execRdX m found s
  | .upg m found => Sys2Proof.Machine.execUpg m found s
  | .rdZ m found => Sys2Proof.Machine.execRdZ m found s
  | .peek m found => Sys2Proof.Machine.execPeek m found s
  | .cln m found => Sys2Proof.Machine.execCln m found s
  | .flsRequest m found => Sys2Proof.Machine.execFlsRequest m found s
  | .inv m found => Sys2Proof.Machine.execInv m found s
  | .hrd m found => Sys2Proof.Machine.execHrd m found s
  | .hwr m found => Sys2Proof.Machine.execHwr m found s
  | .hatm m t op pa dbl a b found => Sys2Proof.Machine.execHatm m t op pa dbl a b found s
  | .fS m found => Sys2Proof.Machine.execFS m found s
  | .fX m found => Sys2Proof.Machine.execFX m found s
  | .fInv m found => Sys2Proof.Machine.execFInv m found s
  | .fCln m found => Sys2Proof.Machine.execFCln m found s
  | .fFls m found => Sys2Proof.Machine.execFFls m found s
  | .fDis m found => Sys2Proof.Machine.execFDis m found s
  | .ackInv m => Sys2Proof.Machine.execAckInv m s
  | .ackF m => Sys2Proof.Machine.execAckF m s
  | .missWb m => Sys2Proof.Machine.execMissWb m s
  | .nack m => Sys2Proof.Machine.execNack m s
  | .nackRetryGapExpire b line => Sys2Proof.Machine.execNackRetryGapExpire b line s
  | .defer m => Sys2Proof.Machine.execDefer m s
  | .grant m => Sys2Proof.Machine.execGrant m s
  | .doneMsg m => Sys2Proof.Machine.execDoneMsg m s
  | .wbAck m => Sys2Proof.Machine.execWbAck m s
  | .dH m found => Sys2Proof.Machine.execDH m found s
  | .dF m found => Sys2Proof.Machine.execDF m found s
  | .dO m found => Sys2Proof.Machine.execDO m found s
  | .dP m => Sys2Proof.Machine.execDP m s
  | .wbD m found => Sys2Proof.Machine.execWbD m found s
  | .wbC m found => Sys2Proof.Machine.execWbC m found s
  | .cohTimeout a line => Sys2Proof.Machine.execCohTimeout a line s
  | .coherenceErrorReport p code det unit => Sys2Proof.Machine.execCoherenceErrorReport p code det unit s
  | .partitionSalvage p unreadable sectors => Sys2Proof.Machine.execPartitionSalvage p unreadable sectors s
  | .partitionRestart p bayPasses => Sys2Proof.Machine.execPartitionRestart p bayPasses s
  | .sisterStepTimeout u => Sys2Proof.Machine.execSisterStepTimeout u s
  | .liveSisterDrained u failed => Sys2Proof.Machine.execLiveSisterDrained u failed s
  | .adzeInterruptEntry t => Sys2Proof.Machine.execAdzeInterruptEntry t s
  | .storeQueueSend t => Sys2Proof.Machine.execStoreQueueSend t s
  | .scratchScrub e line found => Sys2Proof.Machine.execScratchScrub e line found s
  | .adzRunWrite e v => Sys2Proof.Machine.execAdzRunWrite e v s
  | .adzScrCtlWrite e v => Sys2Proof.Machine.execAdzScrCtlWrite e v s
  | .doorbell inst slot v whole vc1 => Sys2Proof.Machine.execDoorbell inst slot v whole vc1 s
  | .inlineItem inst slot v whole vc1 => Sys2Proof.Machine.execInlineItem inst slot v whole vc1 s
  | .dispatchSelect p => Sys2Proof.Machine.execDispatchSelect p s
  | .descriptorReadDone e => Sys2Proof.Machine.execDescriptorReadDone e s
  | .itemDataReadDone e => Sys2Proof.Machine.execItemDataReadDone e s
  | .itemBufferWritten e err => Sys2Proof.Machine.execItemBufferWritten e err s
  | .itemDone t gen site v whole => Sys2Proof.Machine.execItemDone t gen site v whole s
  | .runLimitExpire e => Sys2Proof.Machine.execRunLimitExpire e s
  | .queueWaitExpire e => Sys2Proof.Machine.execQueueWaitExpire e s
  | .recordDelivery e => Sys2Proof.Machine.execRecordDelivery e s
  | .ledgerUe e a b => Sys2Proof.Machine.execLedgerUe e a b s
  | .evSendWrite t gen site v whole => Sys2Proof.Machine.execEvSendWrite t gen site v whole s
  | .evInjectWrite t gs1 => Sys2Proof.Machine.execEvInjectWrite t gs1 s
  | .timerFire t => Sys2Proof.Machine.execTimerFire t s
  | .eventRecordWritten t => Sys2Proof.Machine.execEventRecordWritten t s
  | .heldDispatchRelease t => Sys2Proof.Machine.execHeldDispatchRelease t s
  | .evqCtlWrite t gs1 => Sys2Proof.Machine.execEvqCtlWrite t gs1 s
  | .evqTailWrite t p gs1 => Sys2Proof.Machine.execEvqTailWrite t p gs1 s
  | .dramRead c line found peek => Sys2Proof.Machine.execDramRead c line found peek s
  | .dramWrite c line data poison => Sys2Proof.Machine.execDramWrite c line data poison s
  | .rowIdleClose c rank bg ba => Sys2Proof.Machine.execRowIdleClose c rank bg ba s
  | .refresh c => Sys2Proof.Machine.execRefresh c s
  | .patrolScrub c found mate => Sys2Proof.Machine.execPatrolScrub c found mate s
  | .caParityAlert c line retries => Sys2Proof.Machine.execCaParityAlert c line retries s
  | .pairingSweepDone c upTo found => Sys2Proof.Machine.execPairingSweepDone c upTo found s
  | .softPprDone c => Sys2Proof.Machine.execSoftPprDone c s
  | .rankSpareCopyDone c upTo found => Sys2Proof.Machine.execRankSpareCopyDone c upTo found s
  | .channelTrained c => Sys2Proof.Machine.execChannelTrained c s
  | .channelTrainingFail c => Sys2Proof.Machine.execChannelTrainingFail c s
  | .phyRelockTimeout c => Sys2Proof.Machine.execPhyRelockTimeout c s
  | .resilverDone c upTo found => Sys2Proof.Machine.execResilverDone c upTo found s
  | .perstAssert => Sys2Proof.Machine.execPerstAssert s
  | .perstDeassert => Sys2Proof.Machine.execPerstDeassert s
  | .linkTrained lanes rate => Sys2Proof.Machine.execLinkTrained lanes rate s
  | .linkDown => Sys2Proof.Machine.execLinkDown s
  | .hotReset => Sys2Proof.Machine.execHotReset s
  | .configRequest wr off be v => Sys2Proof.Machine.execConfigRequest wr off be v s
  | .tlpErrorFreeze code => Sys2Proof.Machine.execTlpErrorFreeze code s
  | .freezeForce => Sys2Proof.Machine.execFreezeForce s
  | .freezeRelease count => Sys2Proof.Machine.execFreezeRelease count s
  | .epNotifyWrite v => Sys2Proof.Machine.execEpNotifyWrite v s
  | .instStatResetWrite ix => Sys2Proof.Machine.execInstStatResetWrite ix s
  | .readCompletion tag st data => Sys2Proof.Machine.execReadCompletion tag st data s
  | .completionTimeout tag => Sys2Proof.Machine.execCompletionTimeout tag s
  | .windowRead n off len vc1 => Sys2Proof.Machine.execWindowRead n off len vc1 s
  | .windowWrite n off data vc1 => Sys2Proof.Machine.execWindowWrite n off data vc1 s
  | .windowReadTimeout tag => Sys2Proof.Machine.execWindowReadTimeout tag s
  | .mailboxPageWrite m t off data vc1 => Sys2Proof.Machine.execMailboxPageWrite m t off data vc1 s
  | .idleFlit f => Sys2Proof.Machine.execIdleFlit f s
  | .skipFlit f id port => Sys2Proof.Machine.execSkipFlit f id port s
  | .skipInsert x => Sys2Proof.Machine.execSkipInsert x s
  | .nakFlit f expected => Sys2Proof.Machine.execNakFlit f expected s
  | .flitError x => Sys2Proof.Machine.execFlitError x s
  | .ridgeAckTimeout x => Sys2Proof.Machine.execRidgeAckTimeout x s
  | .initFlit f credits => Sys2Proof.Machine.execInitFlit f credits s
  | .timeSyncTimer x => Sys2Proof.Machine.execTimeSyncTimer x s
  | .timeSync f t1 => Sys2Proof.Machine.execTimeSync f t1 s
  | .timeResp f t1 t2 t3 => Sys2Proof.Machine.execTimeResp f t1 t2 t3 s
  | .joinReq f id => Sys2Proof.Machine.execJoinReq f id s
  | .joinReqRepeat ns => Sys2Proof.Machine.execJoinReqRepeat ns s
  | .joinSwitch ns => Sys2Proof.Machine.execJoinSwitch ns s
  | .holdDone f id => Sys2Proof.Machine.execHoldDone f id s
  | .leaveReq f id => Sys2Proof.Machine.execLeaveReq f id s
  | .leaveDrained ns => Sys2Proof.Machine.execLeaveDrained ns s
  | .leaveBypassSwitch ns => Sys2Proof.Machine.execLeaveBypassSwitch ns s
  | .ringState f changes live frame column => Sys2Proof.Machine.execRingState f changes live frame column s
  | .portLockLoss x => Sys2Proof.Machine.execPortLockLoss x s
  | .ridgeTrainingDone x partner pport spread => Sys2Proof.Machine.execRidgeTrainingDone x partner pport spread s
  | .ridgeTrainingFail x => Sys2Proof.Machine.execRidgeTrainingFail x s
  | .wRd m => Sys2Proof.Machine.execWRd m s
  | .wWr m => Sys2Proof.Machine.execWWr m s
  | .wRsp m => Sys2Proof.Machine.execWRsp m s
  | .hRd m => Sys2Proof.Machine.execHRd m s
  | .hWr m => Sys2Proof.Machine.execHWr m s
  | .hRsp m => Sys2Proof.Machine.execHRsp m s
  | .dRd m => Sys2Proof.Machine.execDRd m s
  | .dDat m => Sys2Proof.Machine.execDDat m s
  | .dWr m => Sys2Proof.Machine.execDWr m s
  | .dAck m => Sys2Proof.Machine.execDAck m s
  | .recMsg m => Sys2Proof.Machine.execRecMsg m s
  | .rAck m => Sys2Proof.Machine.execRAck m s
  | .rRel m => Sys2Proof.Machine.execRRel m s
  | .fenceDeliveryDone => Sys2Proof.Machine.execFenceDeliveryDone s
  | .fenceDeliveryTimeout => Sys2Proof.Machine.execFenceDeliveryTimeout s
  | .watchdogExpire => Sys2Proof.Machine.execWatchdogExpire s
  | .wrightServing => Sys2Proof.Machine.execWrightServing s
  | .mboxDoorbell m v eight vc1 => Sys2Proof.Machine.execMboxDoorbell m v eight vc1 s
  | .dmboxDoorbell t m v eight => Sys2Proof.Machine.execDmboxDoorbell t m v eight s
  | .commandComplete m => Sys2Proof.Machine.execCommandComplete m s
  | .getIdentity m => Sys2Proof.Machine.execGetIdentity m s
  | .getUnits m => Sys2Proof.Machine.execGetUnits m s
  | .getSource m => Sys2Proof.Machine.execGetSource m s
  | .partGet m => Sys2Proof.Machine.execPartGet m s
  | .partSet m => Sys2Proof.Machine.execPartSet m s
  | .partStop m => Sys2Proof.Machine.execPartStop m s
  | .partStart m => Sys2Proof.Machine.execPartStart m s
  | .partStandby m => Sys2Proof.Machine.execPartStandby m s
  | .partFree m => Sys2Proof.Machine.execPartFree m s
  | .pwrGet m => Sys2Proof.Machine.execPwrGet m s
  | .vcoreSet m => Sys2Proof.Machine.execVcoreSet m s
  | .vote m => Sys2Proof.Machine.execVote m s
  | .braceRate m => Sys2Proof.Machine.execBraceRate m s
  | .quiesce m => Sys2Proof.Machine.execQuiesce m s
  | .resume m => Sys2Proof.Machine.execResume m s
  | .warmReset m => Sys2Proof.Machine.execWarmReset m s
  | .sister m => Sys2Proof.Machine.execSister m s
  | .setSpare m pass => Sys2Proof.Machine.execSetSpare m pass s
  | .chRetire m => Sys2Proof.Machine.execChRetire m s
  | .chRetrain m pass => Sys2Proof.Machine.execChRetrain m pass s
  | .memRepair m => Sys2Proof.Machine.execMemRepair m s
  | .portRetrain m pass => Sys2Proof.Machine.execPortRetrain m pass s
  | .slotInfo m => Sys2Proof.Machine.execSlotInfo m s
  | .slotWrite m => Sys2Proof.Machine.execSlotWrite m s
  | .slotVerify m => Sys2Proof.Machine.execSlotVerify m s
  | .activate m => Sys2Proof.Machine.execActivate m s
  | .activateRestart => Sys2Proof.Machine.execActivateRestart s
  | .activateTimeout => Sys2Proof.Machine.execActivateTimeout s
  | .commit m => Sys2Proof.Machine.execCommit m s
  | .settingsGet m => Sys2Proof.Machine.execSettingsGet m s
  | .instCreate m => Sys2Proof.Machine.execInstCreate m s
  | .instModify m => Sys2Proof.Machine.execInstModify m s
  | .instDestroy m => Sys2Proof.Machine.execInstDestroy m s
  | .instReset m => Sys2Proof.Machine.execInstReset m s
  | .queueSetup m => Sys2Proof.Machine.execQueueSetup m s
  | .queueModify m => Sys2Proof.Machine.execQueueModify m s
  | .queueEnable m => Sys2Proof.Machine.execQueueEnable m s
  | .queueRemove m => Sys2Proof.Machine.execQueueRemove m s
  | .setHostRoute m => Sys2Proof.Machine.execSetHostRoute m s
  | .logRead m => Sys2Proof.Machine.execLogRead m s
  | .heldRecords m => Sys2Proof.Machine.execHeldRecords m s
  | .modeHistory m => Sys2Proof.Machine.execModeHistory m s
  | .regRead m => Sys2Proof.Machine.execRegRead m s
  | .attest m => Sys2Proof.Machine.execAttest m s
  | .getIdKey m => Sys2Proof.Machine.execGetIdKey m s
  | .quench m => Sys2Proof.Machine.execQuench m s
  | .release m => Sys2Proof.Machine.execRelease m s
  | .fenceSelf m => Sys2Proof.Machine.execFenceSelf m s
  | .smbusSetOffset data pecOk => Sys2Proof.Machine.execSmbusSetOffset data pecOk s
  | .smbusBlockRead n pecOk => Sys2Proof.Machine.execSmbusBlockRead n pecOk s
  | .smbusBlockWrite data pecOk => Sys2Proof.Machine.execSmbusBlockWrite data pecOk s
  | .i3cPrivateWrite data => Sys2Proof.Machine.execI3cPrivateWrite data s
  | .i3cPrivateRead n => Sys2Proof.Machine.execI3cPrivateRead n s
  | .i3cDynamicAddress a => Sys2Proof.Machine.execI3cDynamicAddress a s
  | .coreDrop c => Sys2Proof.Machine.execCoreDrop c s
  | .bayDrop b => Sys2Proof.Machine.execBayDrop b s
  | .domainDrop d => Sys2Proof.Machine.execDomainDrop d s
  | .domainWake d => Sys2Proof.Machine.execDomainWake d s
  | .pmcCtlWrite t n gs1 => Sys2Proof.Machine.execPmcCtlWrite t n gs1 s
  | .pmcWrite t n gs1 => Sys2Proof.Machine.execPmcWrite t n gs1 s
  | .bwWindowEnd => Sys2Proof.Machine.execBwWindowEnd s
  | .bwCtlWrite v => Sys2Proof.Machine.execBwCtlWrite v s
  | .registerWrite who addr size v => Sys2Proof.Machine.execRegisterWrite who addr size v s
  | .pllRelock b => Sys2Proof.Machine.execPllRelock b s
  | .railRecovery r mv => Sys2Proof.Machine.execRailRecovery r mv s
  | .resetNChange level => Sys2Proof.Machine.execResetNChange level s
  | .selfTestDone d badSites badBays badClusters => Sys2Proof.Machine.execSelfTestDone d badSites badBays badClusters s
  | .monitorImageLoaded p copied digestOk => Sys2Proof.Machine.execMonitorImageLoaded p copied digestOk s

end Sys2Proof.Machine
end

