-- ==== Sys2Proof/Safety.lean ====
section
/-! DEFINITION. What a good state and a safe run are, and what a command leaves unchanged, in the terms the statements
use. -/
namespace Sys2Proof.Machine

/-- Memory, the poisoned lines and the stale DRAM lines are in their one canonical form. -/
def State.memOk (s : State) : Prop :=
  Memory.wf s.mem = true ∧ canonical (none : Option (BitVec 512 × Bool)) s.old = true ∧ s.poison.Pairwise (· < ·)

/-- A step ends in a next state. -/
def answers (s : State) : Prop := ∃ t, step s = .next t

/-! ## Pieces of the state -/

/-- The pieces a frame speaks of: the fields of `State`, with the events that the router holds apart from the rest of the
power state, the pending-bit array of MSI-X apart from the rest of the endpoint, and the error log apart from the rest of
the Wright. -/
inductive Piece where
  | pending | time | thr | core | bay | slice | srcs | eng | cluster | part | stale | downDrop | stray | net
  | ereqs | mem | old | poison | queue | led | dimms | chan | region | inst | ridge | bw | xing | out | fresh
  | pw | wake | ep | pba | wr | log
deriving DecidableEq, Repr

/-- The Wright without its error log. -/
def Wright.noLog (w : Wright) : Wright := { w with log := [], logNext := 0, heldEvents := 0, lostEvents := 0 }

/-- The piece is the same in both states. -/
def Piece.same (s u : State) : Piece → Prop
  | .pending => u.pending = s.pending
  | .time => u.time = s.time
  | .thr => u.thr = s.thr
  | .core => u.core = s.core
  | .bay => u.bay = s.bay
  | .slice => u.slice = s.slice
  | .srcs => u.srcs = s.srcs
  | .eng => u.eng = s.eng
  | .cluster => u.cluster = s.cluster
  | .part => u.part = s.part
  | .stale => u.stale = s.stale
  | .downDrop => u.downDrop = s.downDrop
  | .stray => u.stray = s.stray
  | .net => u.net = s.net
  | .ereqs => u.ereqs = s.ereqs
  | .mem => u.mem = s.mem
  | .old => u.old = s.old
  | .poison => u.poison = s.poison
  | .queue => u.queue = s.queue
  | .led => u.led = s.led
  | .dimms => u.dimms = s.dimms
  | .chan => u.chan = s.chan
  | .region => u.region = s.region
  | .inst => u.inst = s.inst
  | .ridge => u.ridge = s.ridge
  | .bw => u.bw = s.bw
  | .xing => u.xing = s.xing
  | .out => u.out = s.out
  | .fresh => u.fresh = s.fresh
  | .pw => { u.pw with wake := [], routerHeld := [] } = { s.pw with wake := [], routerHeld := [] }
  | .wake => u.pw.wake = s.pw.wake ∧ u.pw.routerHeld = s.pw.routerHeld
  | .ep => { u.ep with pba := [], pbaVc1 := [] } = { s.ep with pba := [], pbaVc1 := [] }
  | .pba => u.ep.pba = s.ep.pba ∧ u.ep.pbaVc1 = s.ep.pbaVc1
  | .wr => u.wr.noLog = s.wr.noLog
  | .log => u.wr.log = s.wr.log ∧ u.wr.logNext = s.wr.logNext ∧ u.wr.heldEvents = s.wr.heldEvents
      ∧ u.wr.lostEvents = s.wr.lostEvents

/-- Every piece of the state that the list does not name is unchanged. -/
def Keeps (l : List Piece) (s u : State) : Prop := ∀ p : Piece, p ∉ l → p.same s u

/-- Every byte of memory reads as before, but for those at `n` addresses from `a` on. -/
def MemKept (a n : Nat) (s u : State) : Prop :=
  ∀ x : Nat, ¬ (a ≤ x ∧ x < a + n) → readByte u x = readByte s x

/-! ## Threads -/

/-- A thread without what counting, fetching and prediction change beside any instruction: the counts, the queued
COUNTER events, the reservation, and the model's own record of what it has fetched and of instructions in flight. -/
def Thread.calm (th : Thread) : Thread :=
  { th with
    ev := { th.ev with writing := [], ovf := 0, noq := 0, lostLanes := 0 }
    pmu := { th.pmu with freeze := false, ovf := 0, cnt := [] }
    evs := [], waitRoom := false, nextSeq := 0, unconf := [], redo := none, resv := none
    fbuf := [], waitFetch := false, held := .ready }

/-- Every other thread keeps its registers. -/
def OthersCalm (t : Thr) (s u : State) : Prop := ∀ x : Thr, x ≠ t → (thr u x).calm = (thr s x).calm

/-- The thread's next instruction has been fetched (R112, R257), and its word is no reserved one (R80): it stands at the
head of a core thread's fetch buffer, and what its fetch took ahead is confirmed or waits for instructions in flight; an
adze thread's fetch raises nothing. -/
def hasFetched (s : State) (t : Thr) : Bool :=
  (fetchedReserved s t).isNone &&
  match t with
  | .core _ => decide ((thr s t).fbuf.head?.map (·.pc) = some (thr s t).pc) &&
      (!(thr s t).unconf.isEmpty || (fetchOf (thr s t)).isNone)
  | .adze _ => (fetchExc s t).isNone

/-- The thread executes its next instruction: it runs, and the instruction has been fetched. -/
def Goes (s : State) (t : Thr) : Prop := canExec s t = true ∧ hasFetched s t = true

/-- As `Goes`, with no instruction in flight before it: what a core thread needs for an instruction that executes only
as the oldest. -/
def GoesAlone (s : State) (t : Thr) : Prop := Goes s t ∧ (thr s t).unconf = []

/-- What retiring may change beside the state an instruction's own effect names: its thread, and the router's events. -/
def retirePieces : List Piece := [.thr, .wake]

/-- The instruction retired with its effect `f` on its own thread, execution goes on at `pc`, and nothing else changed but
what its retirement changes and the pieces named. -/
def RetiredTo (extra : List Piece) (pc : Word) (t : Thr) (f : Thread → Thread) (s u : State) : Prop :=
  (thr u t).calm = (f { thr s t with pc := pc }).calm ∧ (thr u t).resv = (thr s t).resv
    ∧ OthersCalm t s u ∧ Keeps (extra ++ retirePieces) s u

/-- The instruction retired with its effect `f` on its own thread, at the address after it, and with no other effect. -/
def Retired (t : Thr) (f : Thread → Thread) (s u : State) : Prop := RetiredTo [] ((thr s t).pc + 4) t f s u

end Sys2Proof.Machine
end

