-- ==== Sys2Proof/WellFormed.lean ====
section
/-! DEFINITION. Which commands are well formed: their byte strings, lists and addresses keep the bounds their rules give.
A command that the spec itself answers, refuses or discards for its contents is well formed. -/
namespace Sys2Proof

/-- A command keeps the bounds of its rule: a window access lies in its 64 MiB window (R364), a page write in its page
(R419), a read's completion within the largest read (R368), an SMBus block within its byte count and an I3C write within
its frame (R424), a ridge message within 64 data bytes (R399), an atomic comes from its thread's engine and names its
line (R227), lists name nothing twice, and a register access is aligned (R511). -/
def Instr.wf (i : Instr) : Bool :=
  match i with
  | .hatm m t _ pa _ _ _ _ => decide (m.src = .engine ⟨t.val / 8, by omega⟩) && decide (pa.extractLsb' 6 42 = m.line)
  | .partitionSalvage _ unreadable sectors => decide unreadable.Nodup && decide sectors.Nodup
  | .readCompletion _ _ data => decide (data.length ≤ 4096)
  | .windowRead _ off len _ => decide (1 ≤ len) && decide (off.toNat + len ≤ 2 ^ 26)
  | .windowWrite _ off data _ => decide (1 ≤ data.length) && decide (off.toNat + data.length ≤ 2 ^ 26)
  | .mailboxPageWrite _ _ off data _ => decide (1 ≤ data.length) && decide (off.toNat + data.length ≤ 4096)
  | .smbusSetOffset data _ => decide (data.length ≤ 255)
  | .smbusBlockRead n _ => decide (n ≤ 255)
  | .smbusBlockWrite data _ => decide (data.length ≤ 255)
  | .i3cPrivateWrite data => decide (data.length ≤ 256)
  | .i3cPrivateRead n => decide (n ≤ 65535)
  | .registerWrite _ addr size _ => decide (addr.toNat % 2 ^ size.val = 0)
  | .selfTestDone _ badSites _ _ => decide badSites.Nodup
  | .wRd m | .wWr m | .wRsp m | .hRd m | .hWr m | .hRsp m | .dRd m | .dDat m | .dWr m | .dAck m | .recMsg m
  | .rAck m | .rRel m => decide (m.data.length ≤ 64)
  | .sillPowerUp .. | .sillPowerLoss .. | .pwrgoodDeassert .. | .pwrgoodAssert .. | .strapLatch ..
  | .resetNDebounce .. | .warmResetEffect .. | .bringupStart .. | .bringupDone .. | .bringupTimeout ..
  | .railWarning .. | .bracedExit .. | .vcoreResetCrossing .. | .vhubResetCrossing .. | .vio18ResetCrossing ..
  | .vddqResetCrossing .. | .vserdesResetCrossing .. | .dieStall .. | .dieResume .. | .dieRailRecovered ..
  | .thermalSample .. | .thermalLimitClear .. | .throttleStep .. | .dimmTempSample .. | .regulatorAck ..
  | .regulatorAckTimeout .. | .neighbourLinkFail .. | .hubLinkFail .. | .beatWindowEnd .. | .beatMonClr ..
  | .clockStop .. | .sillClockTick .. | .refLost .. | .refRestored .. | .ptmRefresh .. | .interruptEntry ..
  | .add .. | .sub .. | .and .. | .or .. | .xor .. | .andn .. | .sll .. | .srl .. | .sra .. | .rotr .. | .slt ..
  | .sltu .. | .min .. | .max .. | .minu .. | .maxu .. | .addw .. | .subw .. | .clz .. | .ctz .. | .popc ..
  | .bswap .. | .sextb .. | .sexth .. | .sextw .. | .zextw .. | .cmovz .. | .cmovnz .. | .addi .. | .andi ..
  | .ori .. | .xori .. | .slti .. | .sltui .. | .shi .. | .ins .. | .mul .. | .mulhs .. | .mulhu .. | .mulw ..
  | .div .. | .divu .. | .rem .. | .remu .. | .dadd .. | .dsub .. | .dcmp .. | .dcvtBd .. | .dcvtDb .. | .dmulk ..
  | .fadd .. | .fsub .. | .fmul .. | .fdiv .. | .fsqrt .. | .fmadd .. | .fmsub .. | .fmin .. | .fmax .. | .fabs ..
  | .fneg .. | .fcpysgn .. | .fceq .. | .fclt .. | .fcle .. | .fclass .. | .fcvtGF .. | .fcvtGuF .. | .fcvtFG ..
  | .fcvtFGu .. | .fcvtSd .. | .fmvGF .. | .fmvFG .. | .ldb .. | .ldh .. | .ldw .. | .ldd .. | .ldbs .. | .ldhs ..
  | .ldws .. | .fls .. | .fld .. | .lda .. | .lddNt .. | .stb .. | .sth .. | .stw .. | .std .. | .fss .. | .fsd ..
  | .stl .. | .stdNt .. | .ldres .. | .stcnd .. | .faa .. | .cas .. | .fenceO .. | .fenceC .. | .fenceCDrained ..
  | .isync .. | .crc32c .. | .aesenc .. | .aesencl .. | .aesdec .. | .aesdecl .. | .aesimc .. | .beq .. | .bne ..
  | .blt .. | .bge .. | .bltu .. | .bgeu .. | .j .. | .jl .. | .jr .. | .jlr .. | .ret .. | .mfs .. | .mts ..
  | .eret .. | .syscall .. | .mcall .. | .brk .. | .evdone .. | .wait .. | .cclean .. | .cflush .. | .cinv ..
  | .czero .. | .iinv .. | .tlbinv .. | .branchResolved .. | .instructionConfirmed .. | .storeAddressKnown ..
  | .mdpEntryExpire .. | .storeRelease .. | .completionAck .. | .accessTimeout .. | .targetAbsentReport ..
  | .reservationMonitorExpire .. | .reservationHoldExpire .. | .coreSoloWrite .. | .soloParked .. | .asidWrite ..
  | .cacheCtlWrite .. | .cacheCtlDrainDone .. | .l2amCtlWrite .. | .l2amStepDone .. | .rdS .. | .rdX .. | .upg ..
  | .rdZ .. | .peek .. | .cln .. | .flsRequest .. | .inv .. | .hrd .. | .hwr .. | .fS .. | .fX .. | .fInv ..
  | .fCln .. | .fFls .. | .fDis .. | .ackInv .. | .ackF .. | .missWb .. | .nack .. | .nackRetryGapExpire ..
  | .defer .. | .grant .. | .doneMsg .. | .wbAck .. | .dH .. | .dF .. | .dO .. | .dP .. | .wbD .. | .wbC ..
  | .cohTimeout .. | .coherenceErrorReport .. | .partitionRestart .. | .sisterStepTimeout .. | .liveSisterDrained ..
  | .adzeInterruptEntry .. | .storeQueueSend .. | .scratchScrub .. | .adzRunWrite .. | .adzScrCtlWrite ..
  | .doorbell .. | .inlineItem .. | .dispatchSelect .. | .descriptorReadDone .. | .itemDataReadDone ..
  | .itemBufferWritten .. | .itemDone .. | .runLimitExpire .. | .queueWaitExpire .. | .recordDelivery ..
  | .ledgerUe .. | .evSendWrite .. | .evInjectWrite .. | .timerFire .. | .eventRecordWritten ..
  | .heldDispatchRelease .. | .evqCtlWrite .. | .evqTailWrite .. | .dramRead .. | .dramWrite .. | .rowIdleClose ..
  | .refresh .. | .patrolScrub .. | .caParityAlert .. | .pairingSweepDone .. | .softPprDone ..
  | .rankSpareCopyDone .. | .channelTrained .. | .channelTrainingFail .. | .phyRelockTimeout .. | .resilverDone ..
  | .perstAssert .. | .perstDeassert .. | .linkTrained .. | .linkDown .. | .hotReset .. | .configRequest ..
  | .tlpErrorFreeze .. | .freezeForce .. | .freezeRelease .. | .epNotifyWrite .. | .instStatResetWrite ..
  | .completionTimeout .. | .windowReadTimeout .. | .idleFlit .. | .skipFlit .. | .skipInsert ..
  | .nakFlit .. | .flitError .. | .ridgeAckTimeout .. | .initFlit .. | .timeSyncTimer .. | .timeSync ..
  | .timeResp .. | .joinReq .. | .joinReqRepeat .. | .joinSwitch .. | .holdDone .. | .leaveReq .. | .leaveDrained ..
  | .leaveBypassSwitch .. | .ringState .. | .portLockLoss .. | .ridgeTrainingDone .. | .ridgeTrainingFail ..
  | .fenceDeliveryDone .. | .fenceDeliveryTimeout .. | .watchdogExpire .. | .wrightServing .. | .mboxDoorbell ..
  | .dmboxDoorbell .. | .commandComplete .. | .getIdentity .. | .getUnits .. | .getSource .. | .partGet ..
  | .partSet .. | .partStop .. | .partStart .. | .partStandby .. | .partFree .. | .pwrGet .. | .vcoreSet ..
  | .vote .. | .braceRate .. | .quiesce .. | .resume .. | .warmReset .. | .sister .. | .setSpare .. | .chRetire ..
  | .chRetrain .. | .memRepair .. | .portRetrain .. | .slotInfo .. | .slotWrite .. | .slotVerify .. | .activate ..
  | .activateRestart .. | .activateTimeout .. | .commit .. | .settingsGet .. | .instCreate .. | .instModify ..
  | .instDestroy .. | .instReset .. | .queueSetup .. | .queueModify .. | .queueEnable .. | .queueRemove ..
  | .setHostRoute .. | .logRead .. | .heldRecords .. | .modeHistory .. | .regRead .. | .attest .. | .getIdKey ..
  | .quench .. | .release .. | .fenceSelf .. | .i3cDynamicAddress .. | .coreDrop .. | .bayDrop .. | .domainDrop ..
  | .domainWake .. | .pmcCtlWrite .. | .pmcWrite .. | .bwWindowEnd .. | .bwCtlWrite .. | .pllRelock ..
  | .railRecovery .. | .resetNChange .. | .monitorImageLoaded .. => true

end Sys2Proof
end

