-- ==== Sys2Proof/Certificates/Slice0/Obligations.lean ====
section
/-! DEFINITION. The statements for the provers, with the predicates they are made of. Each statement's docstring names
the rules of spec/ it formalises. -/
namespace Sys2Proof.Machine

/-! ## Forms of statements about instructions -/

/-- A register row of format A: with gs2 (`two`) or with the gs2 field 0, gd receives `g` of the operands and the poison
tag of what was read, and the instruction retires (R82, R101). -/
def RegRow (c : Thr → FmtA → Instr) (two : Bool) (g : Word → Word → Word) : Prop :=
  ∀ (s : State) (t : Thr) (f : FmtA), Goes s t → (two = true ∨ f.gs2 = 0) →
    ∃ u, exec (c t f) s = .next u ∧
      Retired t (writeG f.gd ⟨g (readG (thr s t) f.gs1).val (readG (thr s t) f.gs2).val,
        (readG (thr s t) f.gs1).poison || (two && (readG (thr s t) f.gs2).poison)⟩) s u

/-- A row of format B on gs1 and the immediate, where the immediate is one the row permits. -/
def ImmRow (c : Thr → FmtB → Instr) (ok : BitVec 16 → Prop) (g : Word → BitVec 16 → Word) : Prop :=
  ∀ (s : State) (t : Thr) (f : FmtB), Goes s t → ok f.imm →
    ∃ u, exec (c t f) s = .next u ∧
      Retired t (writeG f.gd ⟨g (readG (thr s t) f.gs1).val f.imm, (readG (thr s t) f.gs1).poison⟩) s u

/-- A conditional move: gd takes gs1 where `takes gs2`, else keeps its value; gd counts as read (R101). -/
def MoveRow (c : Thr → FmtA → Instr) (takes : Word → Prop) : Prop :=
  ∀ (s : State) (t : Thr) (f : FmtA), Goes s t →
    let a := readG (thr s t) f.gs1
    let b := readG (thr s t) f.gs2
    let d := readG (thr s t) f.gd
    ∃ u v, exec (c t f) s = .next u ∧ (takes b.val → v = a.val) ∧ (¬ takes b.val → v = d.val) ∧
      Retired t (writeG f.gd ⟨v, a.poison || b.poison || d.poison⟩) s u

/-- A thread whose predictors an exception entry or a return has emptied; an engine has none (R122). -/
def flushed (t : Thr) (th : Thread) : Thread :=
  match t with
  | .adze _ => th
  | .core _ => { th with rstack := [], mdp := [], redo := none }

/-- What an entry, a return or the loss of a reservation may change: the thread, its core's streams, the monitors, and the
router's events. -/
def entryPieces : List Piece := [.thr, .core, .bay, .slice, .eng, .wake]

/-- The exception `e` was taken by a running thread whose handler is free: at the level and with the saved registers of
R105, or as DOUBLE at M (R107); nothing else changed but its core's streams, its reservation's monitors and the router's
events. -/
def Entered (t : Thr) (e : Exc) (s u : State) : Prop :=
  (∀ x e', entering (thr s t) e (thr s t).pc = .at x e' →
      (thr u t).calm = (flushed t (enterLevel x e' (thr s t).pc (thr s t))).calm)
    ∧ (thr u t).resv = none ∧ OthersCalm t s u ∧ Keeps entryPieces s u

/-- The thread's next instruction raises an exception: no interrupt goes before it, and its handler is free. -/
def MayEnter (s : State) (t : Thr) : Prop :=
  GoesAlone s t ∧ irqTakes (thr s t) = false ∧ (thr s t).tstat.mFrame = false

/-- A decimal row: with no digit above 9 in what it reads, r in range goes to gd; r out of range sets DOV, and with
DOVE = 0 gd receives the digits of r mod 10^16 (R86 to R88). -/
def DecResult (t : Thr) (gd : BitVec 5) (r : Int) (poison : Bool) (s u : State) : Prop :=
  Retired t (fun th => writeG gd ⟨decDigits r, poison⟩
    { th with dov := th.dov || decide (r < -5 * 10 ^ 15) || decide (5 * 10 ^ 15 - 1 < r) }) s u

/-- A floating-point row that gives a value of its own precision: fd receives it with the width tag of the precision,
the flags it raises are set, and none of them traps (R71, R90, R92). -/
def FpRow (c : Thr → FmtFP → Instr) (rounds two : Bool) (g : Fmt → BitVec 3 → FVal → FVal → FRes) : Prop :=
  ∀ (s : State) (i : Fin 640) (f : FmtFP), Goes s (.core i) → f.m3 = false →
    (if rounds then f.rm ≠ 5 ∧ f.rm ≠ 6 else f.rm = 0) → (two = true ∨ f.fs2 = 0) →
    let th := thr s (.core i)
    let b := if two then readF th f.fs2 else FReg.zero
    let r := g (fmtOf f.p) (if f.rm = 7 then th.fpRm else f.rm) (readFVal f.p (readF th f.fs1)) (readFVal f.p b)
    flagBits r.2 &&& th.fpTrap = 0 →
    ∃ u, exec (c (.core i) f) s = .next u ∧
      Retired (.core i) (fun th => writeF f.fd ⟨BitVec.ofNat 64 r.1, (readF th f.fs1).poison || b.poison, f.p⟩
        { th with fpFlags := th.fpFlags ||| flagBits r.2 }) s u

/-- A floating-point row that gives a g register. -/
def FpToGRow (c : Thr → FmtFP → Instr) (rounds two : Bool) (g : Fmt → BitVec 3 → FVal → FVal → Word × FFlags) : Prop :=
  ∀ (s : State) (i : Fin 640) (f : FmtFP), Goes s (.core i) → f.m3 = false →
    (if rounds then f.rm ≠ 5 ∧ f.rm ≠ 6 else f.rm = 0) → (two = true ∨ f.fs2 = 0) →
    let th := thr s (.core i)
    let b := if two then readF th f.fs2 else FReg.zero
    let r := g (fmtOf f.p) (if f.rm = 7 then th.fpRm else f.rm) (readFVal f.p (readF th f.fs1)) (readFVal f.p b)
    flagBits r.2 &&& th.fpTrap = 0 →
    ∃ u, exec (c (.core i) f) s = .next u ∧
      Retired (.core i) (fun th => writeG f.fd ⟨r.1, (readF th f.fs1).poison || b.poison⟩
        { th with fpFlags := th.fpFlags ||| flagBits r.2 }) s u

/-- A conversion of a g register to a floating-point value. -/
def FpFromGRow (c : Thr → FmtFP → Instr) (isSigned : Bool) : Prop :=
  ∀ (s : State) (i : Fin 640) (f : FmtFP), Goes s (.core i) → f.m3 = false → f.rm ≠ 5 → f.rm ≠ 6 → f.fs2 = 0 →
    let th := thr s (.core i)
    let a := readG th f.fs1
    let v : Int := if isSigned then a.val.toInt else (a.val.toNat : Int)
    let r := roundTo (fmtOf f.p) (if f.rm = 7 then th.fpRm else f.rm) (decide (v < 0)) v.natAbs 0
    flagBits r.2 &&& th.fpTrap = 0 →
    ∃ u, exec (c (.core i) f) s = .next u ∧
      Retired (.core i) (fun th => writeF f.fd ⟨BitVec.ofNat 64 r.1, a.poison, f.p⟩
        { th with fpFlags := th.fpFlags ||| flagBits r.2 }) s u

/-- A fused row: fd is read as the addend. Where IEEE 754 leaves NV open (0 × ∞ with a quiet NaN addend) the flag is the
free yes-or-no at the state's counter, and the counter advances. -/
def FmaRow (c : Thr → FmtFP → Instr) (sub : Bool) : Prop :=
  ∀ (s : State) (i : Fin 640) (f : FmtFP), Goes s (.core i) → f.m3 = false → f.rm ≠ 5 → f.rm ≠ 6 →
    let th := thr s (.core i)
    let d := readFVal f.p (readF th f.fd)
    let r := fmaV (fmtOf f.p) (if f.rm = 7 then th.fpRm else f.rm) (readFVal f.p (readF th f.fs1))
      (readFVal f.p (readF th f.fs2)) (if sub then negV d else d)
    let fl : FFlags := { r.1.2 with nv := if r.2 then Config.freeBit s.fresh else r.1.2.nv }
    flagBits fl &&& th.fpTrap = 0 →
    ∃ u, exec (c (.core i) f) s = .next u ∧ u.fresh = (if r.2 then s.fresh + 1 else s.fresh) ∧
      RetiredTo [.fresh] (th.pc + 4) (.core i) (fun th =>
        writeF f.fd ⟨BitVec.ofNat 64 r.1.1,
          (readF th f.fs1).poison || (readF th f.fs2).poison || (readF th f.fd).poison, f.p⟩
        { th with fpFlags := th.fpFlags ||| flagBits fl }) s u

/-- A sign operation: the bits of the operand as it is read (R71), its sign replaced; no flag is raised. -/
def FpSignRow (c : Thr → FmtFP → Instr) (two : Bool) (sign : Bool → Bool → Bool) : Prop :=
  ∀ (s : State) (i : Fin 640) (f : FmtFP), Goes s (.core i) → f.m3 = false → f.rm = 0 → (two = true ∨ f.fs2 = 0) →
    let th := thr s (.core i)
    let bits := fun (r : FReg) => if r.single ≠ f.p then (if f.p then 0x7FC00000 else 0x7FF8000000000000)
      else if f.p then r.val.toNat % 2 ^ 32 else r.val.toNat
    let top : Nat := if f.p then 2 ^ 31 else 2 ^ 63
    let a := bits (readF th f.fs1)
    let b := if two then bits (readF th f.fs2) else 0
    let v := a % top + (if sign (decide (top ≤ a)) (decide (top ≤ b)) then top else 0)
    ∃ u, exec (c (.core i) f) s = .next u ∧
      Retired (.core i) (writeF f.fd
        ⟨BitVec.ofNat 64 v, (readF th f.fs1).poison || (two && (readF th f.fs2).poison), f.p⟩) s u

/-! ## Loads and stores -/

/-- A core thread's queues have room: 32 loads, 24 stores, and the core's own totals (R112). -/
def queuesRoom (s : State) (t : Thr) : Bool :=
  match t with
  | .adze _ => true
  | .core i => loadRoom s i && storeRoom s i

/-- A piece of a load that its thread reads at once: its region answers, and it is no device, no ridge window, and on an
engine no DRAM. -/
def LoadsNow (s : State) (t : Thr) (pa : BitVec 48) : Prop :=
  isDevice (spaceOf pa) = false ∧ spaceOf pa ≠ .ridge ∧ targetServed s t pa = true ∧
    (isAdze t = true → isDramLine (lineOf pa) = false)

/-- An access of `n` bytes at `va` translates and is permitted, piece by piece, and is aligned where it must be (R93,
R108). -/
def Passes (s : State) (t : Thr) (k : AK) (ordered : Bool) (va : Word) (n : Nat) (ps : List (BitVec 48 × Nat)) : Prop :=
  checkPieces s t k false (piecesOf va n) = .ok ps ∧
    (va.toNat % n = 0 ∨ (needsAlign k ordered 0 = false ∧ ∀ p ∈ ps, needsAlign k ordered p.1 = false))

/-- The bytes of the pieces, as memory reads. -/
def pieceBytes (s : State) (ps : List (BitVec 48 × Nat)) : List Byte := ps.flatMap (fun p => readBytes s p.1.toNat p.2)

/-- A load of `n` bytes with no older access of its thread open: the destination receives the bytes at the address as
`write` extends them, with the poison of the lines read (R94, R101). Beside its thread it changes only its core's shim
entries of those lines. -/
def LoadRow (c : Thr → FmtC → Instr) (isF : Bool) (n : Nat) (ordered : Bool)
    (write : BitVec 5 → Word → Bool → Thread → Thread) : Prop :=
  ∀ (s : State) (t : Thr) (f : FmtC) (ps : List (BitVec 48 × Nat)), GoesAlone s t → (isF = true → isAdze t = false) →
    (thr s t).outst = [] → (thr s t).stores = [] → (readG (thr s t) f.gb).poison = false →
    queuesRoom s t = true → Passes s t .load ordered ((readG (thr s t) f.gb).val + f.off.signExtend 64) n ps →
    (∀ p ∈ ps, LoadsNow s t p.1) →
    ∃ u, exec (c t f) s = .next u ∧
      RetiredTo [.core] ((thr s t).pc + 4) t
        (write f.gt (wordOf (pieceBytes s ps)) (ps.any (fun p => isPoisoned s (lineOf p.1)))) s u ∧
      (∀ k, { core u k with shim := [] } = { core s k with shim := [] }) ∧ (isAdze t = true → u.core = s.core)

def toG (ext : Word → Word) (r : BitVec 5) (v : Word) (p : Bool) (th : Thread) : Thread := writeG r ⟨ext v, p⟩ th
def toF (single : Bool) (r : BitVec 5) (v : Word) (p : Bool) (th : Thread) : Thread := writeF r ⟨v, p, single⟩ th

/-- A store of the low `n` bytes of `val`. On a core it enters the store buffer and memory is unchanged; an engine makes
it at once in its own scratch and queues it for other regions (R94, R155, R270). -/
def StoreRow (c : Thr → FmtC → Instr) (isF : Bool) (n : Nat) (ordered nt : Bool) : Prop :=
  ∀ (s : State) (t : Thr) (f : FmtC) (ps : List (BitVec 48 × Nat)), GoesAlone s t → (isF = true → isAdze t = false) →
    (thr s t).outst = [] → (thr s t).stores = [] → (readG (thr s t) f.gb).poison = false →
    let th := thr s t
    let va := (readG th f.gb).val + f.off.signExtend 64
    let v := if isF then (readF th f.gt).val else (readG th f.gt).val
    let p := if isF then (readF th f.gt).poison else (readG th f.gt).poison
    queuesRoom s t = true → Passes s t .store ordered va n ps → (∀ x ∈ ps, isDevice (spaceOf x.1) = false) →
    (p = false ∨ ∀ x ∈ ps, refusesPoison (spaceOf x.1) = false) →
    ∃ u, exec (c t f) s = .next u ∧
      ((∃ j, t = .adze j ∧ (∀ x ∈ ps, ownScratch j x.1 = true) ∧
          RetiredTo [.bay, .slice, .eng, .mem] (th.pc + 4) t id s u ∧ (∀ a l, ps = [(a, l)] → readBytes u a.toNat n = bytesOf n v ∧ MemKept a.toNat n s u))
       ∨ ((∀ j, t = .adze j → ∃ x ∈ ps, ownScratch j x.1 = false) ∧
          ∃ l : List Access, Retired t (fun th => { th with stores := l }) s u ∧
            l.map (fun a => (a.pa, a.size)) = ps ∧ l.flatMap (fun a => bytesOf a.size a.data) = bytesOf n v ∧
            ∀ a ∈ l, a.kind = .store ∧ a.poison = p ∧ a.ordered = ordered ∧ a.nt = nt))

end Sys2Proof.Machine

open Sys2Proof Sys2Proof.Machine

namespace Sys2Proof.Machine

/-! ## Branches, system instructions and accesses that use a data translation -/

/-- A branch left for `next`: on a core it stands last among the instructions in flight, unresolved, with the target it has
and the prediction it was given, and nothing is fetched behind it yet (R98, R115, R116, R123); the thread changes by `f` and
nothing else does. -/
def Branched (next target : Word) (pred : Option Word) (isRet : Bool) (t : Thr) (f : Thread → Thread) (s u : State) : Prop :=
  RetiredTo [] next t f s u ∧
    (isAdze t = false → ((thr u t).unconf.getLast?).bind (fun x => x.br) = some ⟨target, pred, false, isRet⟩ ∧
      (thr u t).fbuf = [])

/-- A conditional branch on two unpoisoned registers: to PC + sext(OFF16) × 4 where it is taken, else to PC + 4. -/
def BranchRow (c : Thr → FmtD → Instr) (takes : Word → Word → Prop) : Prop :=
  ∀ (s : State) (t : Thr) (f : FmtD), Goes s t → (readG (thr s t) f.gs1).poison = false →
    (readG (thr s t) f.gs2).poison = false →
    ∃ u pc, exec (c t f) s = .next u ∧ Branched pc pc none false t id s u ∧
      (takes (readG (thr s t) f.gs1).val (readG (thr s t) f.gs2).val →
        pc = (thr s t).pc + f.off.signExtend 64 * 4) ∧
      (¬ takes (readG (thr s t) f.gs1).val (readG (thr s t) f.gs2).val → pc = (thr s t).pc + 4)

/-- An MTS of a system register by a thread that may write it: the fields `w` gives take their values, and nothing else
changes (R14 to R16, R75, R77). -/
def MtsRow (n : Nat) (may : Thread → Prop) (core : Bool) (w : Word → Thread → Thread) : Prop :=
  ∀ (s : State) (t : Thr) (f : FmtF), GoesAlone s t → f.gd = 0 → f.imm = BitVec.ofNat 12 n → may (thr s t) →
    (core = true → isAdze t = false) → (readG (thr s t) f.gs1).poison = false →
    ∃ u, exec (.mts t f) s = .next u ∧ Retired t (w (readG (thr s t) f.gs1).val) s u

def atK (th : Thread) : Prop := th.tstat.priv ≠ .U
def atM (th : Thread) : Prop := th.tstat.priv = .M

/-- The state in which an instruction that executes as the oldest has used the translation of its access: on a core the
entries of the walk get REF and MOD and the TLBs take it (R143); an engine has none. -/
def AfterXlate (t : Thr) (k : AK) (va : Word) (n : Nat) (s s2 : State) : Prop :=
  match t with
  | .adze _ => s2 = s
  | .core i => useXlates i k va n s = .ready s2

/-- What the use of a translation may change beside the thread: the TLBs, the table entries in memory, the caches that
hold them, reservations on them, and the requests a core's reads send. -/
def xlatePieces : List Piece := [.thr, .core, .bay, .slice, .eng, .net, .mem, .old, .wake]

/-- The instruction retired with its effect `f` on its thread; apart from what it says of memory, it changed only what its
translations change, the reservations and the pieces named. -/
def Performed (extra : List Piece) (t : Thr) (f : Thread → Thread) (s u : State) : Prop :=
  (thr u t).calm = (f { thr s t with pc := (thr s t).pc + 4 }).calm ∧ OthersCalm t s u ∧
    Keeps (extra ++ xlatePieces) s u

/-- Where an atomic is performed when it executes: the engine's own scratch, an L2-as-memory area or scratch that answers,
or a DRAM line that the core's bay holds exclusively and no constrained loop on another of its cores keeps (R95, R173, R176,
R177). -/
def AtomHere (s : State) (t : Thr) (lines : List (BitVec 42)) (pa : BitVec 48) : Prop :=
  (∃ j, t = .adze j ∧ ownScratch j pa = true) ∨ ((monitorAt pa).isSome = true ∧ targetServed s t pa = true) ∨
    (∃ i, t = .core i ∧ spaceOf pa = .dram ∧ targetServed s t pa = true ∧
      ∀ l ∈ lines, bayOwns s (i.val / 16) l = true ∧ heldBack s i l = false)

/-- The value at an address as LDRES, FAA and CAS give it: 4 bytes sign-extended, or 8 bytes. -/
def atomOld (s : State) (pa : BitVec 48) (dbl : Bool) : Word :=
  if dbl then wordOf (readBytes s pa.toNat 8) else ((wordOf (readBytes s pa.toNat 4)).setWidth 32).signExtend 64

/-- The common hypotheses of LDRES, STCND, FAA and CAS: the thread runs, nothing older of it is open, its address register
is not poisoned, and the access is permitted, aligned and has used its translation in `s2`. -/
def AtomReady (t : Thr) (k : AK) (f : FmtA) (dbl : Bool) (pa : BitVec 48) (s s2 : State) : Prop :=
  GoesAlone s t ∧ (thr s t).outst = [] ∧ (thr s t).stores = [] ∧ (readG (thr s t) f.gs1).poison = false ∧
    Passes s t k true (readG (thr s t) f.gs1).val (sizeOfDbl dbl) [(pa, sizeOfDbl dbl)] ∧
    AfterXlate t k (readG (thr s t) f.gs1).val (sizeOfDbl dbl) s s2

/-- The data register of STCND, FAA or CAS may be stored at the address (R102). -/
def DataFits (th : Thread) (r : BitVec 5) (pa : BitVec 48) : Prop :=
  (readG th r).poison = false ∨ refusesPoison (spaceOf pa) = false

/-- A maintenance instruction whose address translates and may be accessed. -/
def MaintReady (t : Thr) (k : AK) (f : FmtF) (pa : BitVec 48) (s s2 : State) : Prop :=
  GoesAlone s t ∧ f.gd = 0 ∧ f.imm = 0 ∧ (thr s t).outst = [] ∧ (thr s t).stores = [] ∧
    (readG (thr s t) f.gs1).poison = false ∧
    Passes s t k false (readG (thr s t) f.gs1).val 1 [(pa, 1)] ∧
    AfterXlate t k (readG (thr s t) f.gs1).val 1 s s2

/-- CCLEAN, CFLUSH or CINV: on an engine, and outside DRAM, nothing happens; a core sends the request for the line to its
home and keeps an access outstanding until the answer (R204, R272). -/
def MaintRow (c : Thr → FmtF → Instr) (needM : Bool) (kind : AccKind) (msg : CKind) : Prop :=
  ∀ (s s2 : State) (t : Thr) (f : FmtF) (pa : BitVec 48), MaintReady t .maint f pa s s2 →
    (needM = true → (thr s t).tstat.priv = .M) →
    (isAdze t = true ∨ isDramLine (lineOf pa) = false →
      ∃ u, exec (c t f) s = .next u ∧ Performed [] t id s u ∧ u.net = s2.net ∧ ∀ x, readByte u x = readByte s2 x) ∧
    (∀ i h, t = .core i → isDramLine (lineOf pa) = true → lineServed s2 (lineOf pa) = true →
      lineBusy s2 (i.val / 16) (lineOf pa) = false → homeAgent s2 (lineOf pa) = some h →
      ∃ u a m, exec (c t f) s = .next u ∧ Performed [] t (fun th => { th with outst := [a] }) s u ∧
        a.kind = kind ∧ a.pa = lineAddr (lineOf pa) ∧ u.net = s2.net ++ [(msg, m)] ∧ m.line = lineOf pa ∧
        m.dst = .home h ∧ m.src = .bay ⟨i.val / 16, by omega⟩ ∧ ∀ x, readByte u x = readByte s2 x)

/-- What confirming or resolving leaves of the instructions in flight: the oldest retires once it is confirmed and has
resolved (R117, R480). -/
def headRetires (l : List UOp) : List UOp :=
  match l with
  | [] => []
  | x :: rest => if x.conf && x.settled then rest else l

/-- The command only removes the message from the mesh and does `act` to the rest (R247, R249): its receiver's die runs, its
sender's generation and site and the generation of its receiver are current, its sender and its receiver's bay are open,
and both are of one partition. -/
def Arrives (m : CMsg) (s : State) : Prop :=
  (die s (dieOfAgent m.dst)).stalled = false ∧ staleTarget s m = none ∧ (match srcOfReceiver m.dst with | some y => (srcEnt s y).isOpen | none => true) = true ∧
    match srcOfAgent m.src with
    | none => True
    | some x => checkSrc s x m.gen m.site (partOfAgent s m.dst) = .good

/-- What an access of a hub agent to memory may change: the copies of its lines, reservations on them, and memory (R191,
R237). -/
def hubPieces : List Piece := [.thr, .core, .bay, .slice, .eng, .net, .mem, .old]

/-- No request and no write-back waits at the home of a DRAM line of the bytes, and no core holds one back. -/
def NoneQueued (s : State) (a : BitVec 48) (n : Nat) : Prop :=
  ∀ l ∈ dramLines a n, (∀ h, homeAgent s l = some h → (slice s h.val).rsv = [] ∧ (slice s h.val).wbBuf = []) ∧
    ∀ c, ∀ h ∈ (core s c).hold, h.granule ≠ granuleOfLine l

/-- A thread's MTS of system register `n`, its source unpoisoned, at K or M (R75, R102, R134). -/
def MayMts (s : State) (t : Thr) (gs1 : BitVec 5) : Prop :=
  GoesAlone s t ∧ (thr s t).tstat.priv ≠ .U ∧ (readG (thr s t) gs1).poison = false

/-- An MTS has left a thread's event state so; where no counter of it is programmed nothing else adds an event (R476). -/
def EventsLeft (t : Thr) (e' : EvState) (s u : State) : Prop :=
  Retired t (fun th => { th with ev := e' }) s u ∧ ((thr s t).pmu.ctl = [] → (thr u t).ev = e')

/-- The mesh without the first copy of a message. -/
def netWithout (k : CKind) (m : CMsg) (s : State) : List (CKind × CMsg) :=
  removeFirst (fun e => decide (e.1 = k) && decide (e.2 = m)) s.net

end Sys2Proof.Machine

open Sys2Proof Sys2Proof.Machine

/-! ## Integer instructions -/

/-- R83: the integer register rows. Each gives gd as the table states and sets no flag; shifts and the rotate take the
low six bits of gs2; a row that does not use gs2 executes with 0 in that field.
R84: the integer immediate rows, with SHI for the immediates it permits, and INS, which replaces sixteen bits of gd
and keeps the others.
R85: the multiply and divide rows, with the results listed for division by zero; nothing traps.
R70: g0 reads as 0 with a clear poison tag, and a write to it is discarded with its tag; every other register reads
back what was written and no other register changes.
Where it rests on the model's choices and inferences they are those of log entry 9. -/
def Obligations.IntegerRows : Prop :=
  (RegRow .add true (fun a b => a + b) ∧ RegRow .sub true (fun a b => a - b) ∧
   RegRow .and true (fun a b => a &&& b) ∧ RegRow .or true (fun a b => a ||| b) ∧ RegRow .xor true (fun a b => a ^^^ b) ∧
   RegRow .andn true (fun a b => a &&& ~~~b) ∧
   RegRow .sll true (fun a b => a <<< (b.toNat % 64)) ∧ RegRow .srl true (fun a b => a >>> (b.toNat % 64)) ∧
   RegRow .sra true (fun a b => a.sshiftRight (b.toNat % 64)) ∧
   RegRow .rotr true (fun a b => (a >>> (b.toNat % 64)) ||| (a <<< (64 - b.toNat % 64))) ∧
   RegRow .slt true (fun a b => if a.toInt < b.toInt then 1 else 0) ∧
   RegRow .sltu true (fun a b => if a.toNat < b.toNat then 1 else 0) ∧
   RegRow .min true (fun a b => if a.toInt ≤ b.toInt then a else b) ∧
   RegRow .max true (fun a b => if a.toInt ≤ b.toInt then b else a) ∧
   RegRow .minu true (fun a b => if a.toNat ≤ b.toNat then a else b) ∧
   RegRow .maxu true (fun a b => if a.toNat ≤ b.toNat then b else a) ∧
   RegRow .addw true (fun a b => (a.setWidth 32 + b.setWidth 32).signExtend 64) ∧
   RegRow .subw true (fun a b => (a.setWidth 32 - b.setWidth 32).signExtend 64) ∧
   RegRow .clz false (fun a _ => BitVec.ofNat 64 (((List.range 64).find? (fun i => a.getLsbD (63 - i))).getD 64)) ∧
   RegRow .ctz false (fun a _ => BitVec.ofNat 64 (((List.range 64).find? (fun i => a.getLsbD i)).getD 64)) ∧
   RegRow .popc false (fun a _ => BitVec.ofNat 64 ((List.range 64).countP (fun i => a.getLsbD i))) ∧
   RegRow .bswap false (fun a _ => a.extractLsb' 0 8 ++ a.extractLsb' 8 8 ++ a.extractLsb' 16 8 ++ a.extractLsb' 24 8 ++
     a.extractLsb' 32 8 ++ a.extractLsb' 40 8 ++ a.extractLsb' 48 8 ++ a.extractLsb' 56 8) ∧
   RegRow .sextb false (fun a _ => (a.setWidth 8).signExtend 64) ∧
   RegRow .sexth false (fun a _ => (a.setWidth 16).signExtend 64) ∧
   RegRow .sextw false (fun a _ => (a.setWidth 32).signExtend 64) ∧
   RegRow .zextw false (fun a _ => (a.setWidth 32).setWidth 64) ∧
   MoveRow .cmovz (fun b => b = 0) ∧ MoveRow .cmovnz (fun b => b ≠ 0)) ∧
  (ImmRow .addi (fun _ => True) (fun a k => a + k.signExtend 64) ∧
   ImmRow .andi (fun _ => True) (fun a k => a &&& k.setWidth 64) ∧
   ImmRow .ori (fun _ => True) (fun a k => a ||| k.setWidth 64) ∧
   ImmRow .xori (fun _ => True) (fun a k => a ^^^ k.setWidth 64) ∧
   ImmRow .slti (fun _ => True) (fun a k => if a.toInt < k.toInt then 1 else 0) ∧
   ImmRow .sltui (fun _ => True) (fun a k => if a.toNat < (k.signExtend 64).toNat then 1 else 0) ∧
   ImmRow .shi (fun k => k.toNat < 256) (fun a k =>
     let n := k.toNat % 64
     if k.toNat / 64 = 0 then a <<< n else if k.toNat / 64 = 1 then a >>> n
     else if k.toNat / 64 = 2 then a.sshiftRight n else (a >>> n) ||| (a <<< (64 - n))) ∧
   (∀ (s : State) (t : Thr) (f : FmtB), Goes s t → f.gs1.toNat < 4 →
     let d := readG (thr s t) f.gd
     ∃ u v, exec (.ins t f) s = .next u ∧ Retired t (writeG f.gd ⟨v, d.poison⟩) s u ∧
       ∀ i < 64, v.getLsbD i = if i / 16 = f.gs1.toNat then f.imm.getLsbD (i % 16) else d.val.getLsbD i)) ∧
  (RegRow .mul true (fun a b => BitVec.ofInt 64 (a.toInt * b.toInt)) ∧
   RegRow .mulhs true (fun a b => BitVec.ofInt 64 (a.toInt * b.toInt / 2 ^ 64)) ∧
   RegRow .mulhu true (fun a b => BitVec.ofNat 64 (a.toNat * b.toNat / 2 ^ 64)) ∧
   RegRow .mulw true (fun a b => (a.setWidth 32 * b.setWidth 32).signExtend 64) ∧
   RegRow .div true (fun a b => if b = 0 then 0xFFFFFFFFFFFFFFFF else BitVec.ofInt 64 (a.toInt.tdiv b.toInt)) ∧
   RegRow .divu true (fun a b => if b = 0 then 0xFFFFFFFFFFFFFFFF else BitVec.ofNat 64 (a.toNat / b.toNat)) ∧
   RegRow .rem true (fun a b => if b = 0 then a else BitVec.ofInt 64 (a.toInt.tmod b.toInt)) ∧
   RegRow .remu true (fun a b => if b = 0 then a else BitVec.ofNat 64 (a.toNat % b.toNat))) ∧
  (∀ (th : Thread) (v : PReg) (r q : BitVec 5),
     readG th 0 = ⟨0, false⟩ ∧ writeG 0 v th = th ∧ (r ≠ 0 → readG (writeG r v th) r = v) ∧
       (q ≠ r → readG (writeG r v th) q = readG th q) ∧ readF (writeF r ⟨v.val, v.poison, false⟩ th) r = ⟨v.val, v.poison, false⟩)

/-! ## Decimal instructions -/

/-- R86: a decimal operand with no digit above 9 has its ten's-complement value, which the digits of that value spell
again, and every result is written as the sixteen digits of r mod 10^16.
R87 to R89: DADD, DSUB, DMULK and DCVT.BD write the digits of r and set DOV where r is out of range (where DOVE is 0,
or r is in range); DCMP and DCVT.DB write a binary value and leave DOV.
R88 and R87: an operand with a digit above 9 raises DEC_DATA, which names the register, the operand and the lowest
such digit (R104), one of the two where both are so, with gd and DOV unchanged; DCVT.BD checks nothing. With DOVE = 1 a result out of range sets DOV and
raises DEC_OVF with its digits, and gd is unchanged. -/
def Obligations.DecimalRows : Prop :=
  ((∀ w : Word, (∀ i < 16, (w.extractLsb' (4 * i) 4).toNat ≤ 9) →
     badDigit w = none ∧ -5 * 10 ^ 15 ≤ decVal w ∧ decVal w ≤ 5 * 10 ^ 15 - 1 ∧ decDigits (decVal w) = w) ∧
   (∀ (r : Int) (i : Nat), i < 16 →
     (((decDigits r).extractLsb' (4 * i) 4).toNat : Int) = r % 10 ^ 16 / 10 ^ i % 10)) ∧
  (∀ (s : State) (t : Thr), Goes s t →
     let th := thr s t
     let fits := fun (r : Int) => th.dove = false ∨ (-5 * 10 ^ 15 ≤ r ∧ r ≤ 5 * 10 ^ 15 - 1)
     (∀ f : FmtA, badDigit (readG th f.gs1).val = none → badDigit (readG th f.gs2).val = none →
       let a := decVal (readG th f.gs1).val
       let b := decVal (readG th f.gs2).val
       let p := (readG th f.gs1).poison || (readG th f.gs2).poison
       (fits (a + b) → ∃ u, exec (.dadd t f) s = .next u ∧ DecResult t f.gd (a + b) p s u) ∧
       (fits (a - b) → ∃ u, exec (.dsub t f) s = .next u ∧ DecResult t f.gd (a - b) p s u) ∧
       (∃ u, exec (.dcmp t f) s = .next u ∧ Retired t (writeG f.gd
         ⟨if a < b then 0xFFFFFFFFFFFFFFFF else if a = b then 0 else 1, p⟩) s u)) ∧
     (∀ f : FmtA, f.gs2 = 0 → fits (readG th f.gs1).val.toInt →
       ∃ u, exec (.dcvtBd t f) s = .next u ∧ DecResult t f.gd (readG th f.gs1).val.toInt (readG th f.gs1).poison s u) ∧
     (∀ f : FmtA, f.gs2 = 0 → badDigit (readG th f.gs1).val = none →
       ∃ u, exec (.dcvtDb t f) s = .next u ∧
         Retired t (writeG f.gd ⟨BitVec.ofInt 64 (decVal (readG th f.gs1).val), (readG th f.gs1).poison⟩) s u) ∧
     (∀ f : FmtB, badDigit (readG th f.gs1).val = none → fits (decVal (readG th f.gs1).val * f.imm.toNat) →
       ∃ u, exec (.dmulk t f) s = .next u ∧
         DecResult t f.gd (decVal (readG th f.gs1).val * f.imm.toNat) (readG th f.gs1).poison s u)) ∧
  ((∀ (w : Word) (p : Nat), badDigit w = some p ↔ p < 16 ∧ 9 < (w.extractLsb' (4 * p) 4).toNat ∧
     ∀ i < p, (w.extractLsb' (4 * i) 4).toNat ≤ 9) ∧
   (∀ (s : State) (t : Thr), MayEnter s t →
     let th := thr s t
     let data := fun (c : Instr) (r : BitVec 5) (second : Bool) (p : Nat) => ∃ u, exec c s = .next u ∧
       Entered t ⟨9, 0, r.setWidth 64 ||| (if second then 0x20 else 0) ||| BitVec.ofNat 64 (p * 256), 0, false, 0⟩ s u
     let wraps := fun (c : Instr) (r : Int) => r < -5 * 10 ^ 15 ∨ 5 * 10 ^ 15 - 1 < r →
       ∃ u x e, exec c s = .next u ∧ entering th ⟨10, 0, decDigits r, 0, false, 0⟩ th.pc = .at x e ∧
         (thr u t).calm = (flushed t (enterLevel x e th.pc { th with dov := true })).calm ∧
         OthersCalm t s u ∧ Keeps entryPieces s u
     (∀ (f : FmtA) (p : Nat), badDigit (readG th f.gs1).val = some p →
       (badDigit (readG th f.gs2).val = none →
         data (.dadd t f) f.gs1 false p ∧ data (.dsub t f) f.gs1 false p ∧ data (.dcmp t f) f.gs1 false p) ∧
       (∀ q, badDigit (readG th f.gs2).val = some q →
         ∀ c ∈ [Instr.dadd t f, .dsub t f, .dcmp t f], data c f.gs1 false p ∨ data c f.gs2 true q) ∧
       (f.gs2 = 0 → data (.dcvtDb t f) f.gs1 false p)) ∧
     (∀ (f : FmtB) (p : Nat), badDigit (readG th f.gs1).val = some p → data (.dmulk t f) f.gs1 false p) ∧
     (∀ (f : FmtA) (p : Nat), badDigit (readG th f.gs1).val = none → badDigit (readG th f.gs2).val = some p →
       data (.dadd t f) f.gs2 true p ∧ data (.dsub t f) f.gs2 true p ∧ data (.dcmp t f) f.gs2 true p) ∧
     (th.dove = true →
       (∀ f : FmtA, badDigit (readG th f.gs1).val = none → badDigit (readG th f.gs2).val = none →
         wraps (.dadd t f) (decVal (readG th f.gs1).val + decVal (readG th f.gs2).val) ∧
         wraps (.dsub t f) (decVal (readG th f.gs1).val - decVal (readG th f.gs2).val)) ∧
       (∀ f : FmtA, f.gs2 = 0 → wraps (.dcvtBd t f) (readG th f.gs1).val.toInt) ∧
       (∀ f : FmtB, badDigit (readG th f.gs1).val = none →
         wraps (.dmulk t f) (decVal (readG th f.gs1).val * f.imm.toNat)))))

/-! ## Floating point -/

/-- R90: the arithmetic rows, the fused rows, minimum and maximum on a core thread with an rm that is not reserved. fd
receives the result in its own precision with the poison of the operands read, the flags raised are added to FPCSR, no
other register changes and the PC advances, where no flag raised is enabled to trap. Where IEEE 754 leaves NV of a fused row
open the flag is a free value.
Where it rests on the model's choices and inferences they are those of log entries 9 and 33. -/
def Obligations.FloatArithmetic : Prop :=
  FpRow .fadd true true addV ∧ FpRow .fsub true true (fun m rm a b => addV m rm a (negV b)) ∧
  FpRow .fmul true true mulV ∧ FpRow .fdiv true true divV ∧ FpRow .fsqrt true false (fun m rm a _ => sqrtV m rm a) ∧
  FmaRow .fmadd false ∧ FmaRow .fmsub true ∧
  FpRow .fmin false true (fun m _ a b => minMaxV m false a b) ∧ FpRow .fmax false true (fun m _ a b => minMaxV m true a b)

/-- R90 and R91: sign operations, comparisons, classes, conversions and moves on a core thread: the register named receives
the value with the poison of its operand, flags raised are added, and no other register changes.
R91: a NaN result is the default NaN, an operand of the other width is a quiet NaN (R71), and a conversion to an
integer saturates with NV.
Where it rests on the model's choices and inferences they are those of log entry 9. -/
def Obligations.FloatMoves : Prop :=
  (FpSignRow .fabs false (fun _ _ => false) ∧ FpSignRow .fneg false (fun a _ => !a) ∧ FpSignRow .fcpysgn true (fun _ b => b) ∧
   FpToGRow .fceq false true (fun _ _ a b =>
     (if cmpV a b = some .eq then 1 else 0, { FFlags.none with nv := isSig a || isSig b })) ∧
   FpToGRow .fclt false true (fun _ _ a b =>
     (if cmpV a b = some .lt then 1 else 0, { FFlags.none with nv := isNan a || isNan b })) ∧
   FpToGRow .fcle false true (fun _ _ a b =>
     (if cmpV a b = some .lt ∨ cmpV a b = some .eq then 1 else 0, { FFlags.none with nv := isNan a || isNan b })) ∧
   FpToGRow .fclass false false (fun m _ a _ => (BitVec.ofNat 64 (2 ^ classV m a), FFlags.none)) ∧
   FpToGRow .fcvtGF true false (fun _ rm a _ =>
     (BitVec.ofInt 64 (toIntV rm (-2 ^ 63) (2 ^ 63 - 1) a).1, (toIntV rm (-2 ^ 63) (2 ^ 63 - 1) a).2)) ∧
   FpToGRow .fcvtGuF true false (fun _ rm a _ =>
     (BitVec.ofInt 64 (toIntV rm 0 (2 ^ 64 - 1) a).1, (toIntV rm 0 (2 ^ 64 - 1) a).2)) ∧
   FpFromGRow .fcvtFG true ∧ FpFromGRow .fcvtFGu false ∧
   (∀ (s : State) (i : Fin 640) (f : FmtFP), Goes s (.core i) → f.m3 = false → f.rm ≠ 5 → f.rm ≠ 6 → f.fs2 = 0 →
     let th := thr s (.core i)
     let r := convV (fmtOf f.p) (if f.rm = 7 then th.fpRm else f.rm) (readFVal (!f.p) (readF th f.fs1))
     flagBits r.2 &&& th.fpTrap = 0 →
     ∃ u, exec (.fcvtSd (.core i) f) s = .next u ∧
       Retired (.core i) (fun th => writeF f.fd ⟨BitVec.ofNat 64 r.1, (readF th f.fs1).poison, f.p⟩
         { th with fpFlags := th.fpFlags ||| flagBits r.2 }) s u) ∧
   (∀ (s : State) (i : Fin 640) (f : FmtFP), Goes s (.core i) → f.m3 = false → f.rm = 0 → f.fs2 = 0 →
     (f.p = false → ∃ u, exec (.fmvGF (.core i) f) s = .next u ∧
       Retired (.core i) (fun th => writeG f.fd ⟨(readF th f.fs1).val, (readF th f.fs1).poison⟩ th) s u) ∧
     ∃ u, exec (.fmvFG (.core i) f) s = .next u ∧
       Retired (.core i) (fun th => writeF f.fd ⟨if f.p then ((readG th f.fs1).val.setWidth 32).setWidth 64
         else (readG th f.fs1).val, (readG th f.fs1).poison, f.p⟩ th) s u)) ∧
  ((∀ (m : Fmt) (rm : BitVec 3) (a b : FVal), (m = binary64 ∨ m = binary32) → isNan a = true ∨ isNan b = true →
     (addV m rm a b).1 = m.nanBits ∧ (mulV m rm a b).1 = m.nanBits ∧ (divV m rm a b).1 = m.nanBits ∧
       ∀ c, (fmaV m rm a b c).1.1 = m.nanBits ∧ (fmaV m rm c a b).1.1 = m.nanBits) ∧
   binary64.nanBits = 0x7FF8000000000000 ∧ binary32.nanBits = 0x7FC00000 ∧
   (∀ r : FReg, readFVal (!r.single) r = .nan false) ∧
   (∀ (rm : BitVec 3) (lo hi : Int) (a : FVal), lo ≤ 0 → 0 < hi →
     lo ≤ (toIntV rm lo hi a).1 ∧ (toIntV rm lo hi a).1 ≤ hi ∧
     (isNan a = true ∨ a = .inf false → toIntV rm lo hi a = (hi, FFlags.invalid)) ∧
     (a = .inf true → toIntV rm lo hi a = (lo, FFlags.invalid))))

/-! ## Loads and stores -/

/-- R93, R94 and R101: the loads, where no older access of the thread is open and the access translates, is permitted, is
aligned where it must be and is answered at once. The register receives the bytes at the address, zero-extended or
sign-extended as the row says, with the poison of the lines read, and no other register and no byte of memory changes; on a
core the load waits among the instructions in flight for its confirmation.
Where it rests on the model's choices and inferences they are those of log entries 9, 14, 16 and 91. -/
def Obligations.Loads : Prop :=
  LoadRow .ldb false 1 false (toG id) ∧ LoadRow .ldh false 2 false (toG id) ∧ LoadRow .ldw false 4 false (toG id) ∧
  LoadRow .ldd false 8 false (toG id) ∧ LoadRow .lddNt false 8 false (toG id) ∧
  LoadRow .ldbs false 1 false (toG (fun v => (v.setWidth 8).signExtend 64)) ∧
  LoadRow .ldhs false 2 false (toG (fun v => (v.setWidth 16).signExtend 64)) ∧
  LoadRow .ldws false 4 false (toG (fun v => (v.setWidth 32).signExtend 64)) ∧
  LoadRow .fls true 4 false (toF true) ∧ LoadRow .fld true 8 false (toF false) ∧
  LoadRow (fun t f => .lda t f false) false 4 true (toG (fun v => (v.setWidth 32).signExtend 64)) ∧
  LoadRow (fun t f => .lda t f true) false 8 true (toG id)

/-- R94, R102, R155 and R270: the stores, where no older access of the thread is open and the access passes its checks
outside device regions. On a core the low bytes of the register enter the store buffer, as one access or as one per line,
and memory is unchanged; an engine writes its own scratch at once, at the address and nowhere else, and queues a store to any
other place.
Where it rests on the model's choices and inferences they are those of log entries 9, 15 and 105. -/
def Obligations.Stores : Prop :=
  StoreRow .stb false 1 false false ∧ StoreRow .sth false 2 false false ∧ StoreRow .stw false 4 false false ∧
  StoreRow .std false 8 false false ∧ StoreRow .fss true 4 false false ∧ StoreRow .fsd true 8 false false ∧
  StoreRow (fun t f => .stl t f false) false 4 true false ∧ StoreRow (fun t f => .stl t f true) false 8 true false ∧
  StoreRow .stdNt false 8 false true

/-! ## CRC and AES -/

/-- R97: CRC-32C by the reflected polynomial, a bit at a time, over the low bytes of gs2.
R97: each AES row on even registers writes the pair with its rounds' steps, and the steps are inverse to each other:
the substitution, the row shifts and the column mixes undo one another, so a decryption round undoes its encryption.
Where it rests on the model's choices and inferences they are those of log entry 9. -/
def Obligations.CrcAndAes : Prop :=
  ((∀ (s : State) (t : Thr) (f : FmtA) (size : BitVec 2), Goes s t →
     ∃ u, exec (.crc32c t f size) s = .next u ∧
       Retired t (writeG f.gd ⟨(crc32c (2 ^ size.toNat) ((readG (thr s t) f.gs1).val.setWidth 32)
         (readG (thr s t) f.gs2).val).setWidth 64, (readG (thr s t) f.gs1).poison || (readG (thr s t) f.gs2).poison⟩) s u) ∧
   (∀ (c : BitVec 32) (w : Word), crc32c 0 c w = c) ∧
   (∀ (n : Nat) (c : BitVec 32) (w : Word), n < 8 →
     crc32c (n + 1) c w = (List.range 8).foldl (fun x _ => if x.getLsbD 0 then (x >>> 1) ^^^ 0x82F63B78 else x >>> 1)
       (crc32c n c w ^^^ (w.extractLsb' (8 * n) 8).setWidth 32)) ∧
   crc32c 8 (crc32c 1 0xFFFFFFFF 0x31) 0x3938373635343332 ^^^ 0xFFFFFFFF = 0xE3069283) ∧
  ((∀ (s : State) (t : Thr) (f : FmtA), Goes s t → f.gd.getLsbD 0 = false → f.gs1.getLsbD 0 = false →
     let a := readPair (thr s t) f.gs1
     let k := readPair (thr s t) f.gs2
     let wrote := fun (c : Instr) (l : List Byte) (p : Bool) =>
       ∃ u, exec c s = .next u ∧ Retired t (fun th =>
         writeG (f.gd ||| 1) ⟨wordOf (l.drop 8), p⟩ (writeG f.gd ⟨wordOf (l.take 8), p⟩ th)) s u
     (f.gs2.getLsbD 0 = false →
       wrote (.aesenc t f) (addKey (mixColumns ((shiftRows a.1).map sbox)) k.1) (a.2 || k.2) ∧
       wrote (.aesencl t f) (addKey ((shiftRows a.1).map sbox) k.1) (a.2 || k.2) ∧
       wrote (.aesdec t f) (addKey (invMixColumns ((invShiftRows a.1).map invSbox)) k.1) (a.2 || k.2) ∧
       wrote (.aesdecl t f) (addKey ((invShiftRows a.1).map invSbox) k.1) (a.2 || k.2)) ∧
     (f.gs2 = 0 → wrote (.aesimc t f) (invMixColumns a.1) a.2)) ∧
   (∀ b : Byte, invSbox (sbox b) = b ∧ sbox (invSbox b) = b) ∧
   (∀ l : List Byte, l.length = 16 →
     invShiftRows (shiftRows l) = l ∧ invMixColumns (mixColumns l) = l ∧
     ∀ k : List Byte, k.length = 16 → addKey (addKey l k) k = l))

/-! ## Branches and jumps -/

/-- R98: the conditional branches on two unpoisoned registers go to PC + OFF16 x 4 where their condition holds and else to
PC + 4, and change no register; on a core they stand in flight, unresolved.
R98, R102, R116 and R120: the jumps. A register target must be unpoisoned and have bits [1:0] 0; JLR reads its target
before it writes gd; J and JL are not branches in flight. A core's RET goes on at its predicted target where it has one,
the top of the return stack where nothing is in flight, and else at its own.
Where it rests on the model's choices and inferences they are those of log entries 9, 15 and 115. -/
def Obligations.BranchesAndJumps : Prop :=
  (BranchRow .beq (fun a b => a = b) ∧ BranchRow .bne (fun a b => a ≠ b) ∧
   BranchRow .blt (fun a b => a.toInt < b.toInt) ∧ BranchRow .bge (fun a b => b.toInt ≤ a.toInt) ∧
   BranchRow .bltu (fun a b => a.toNat < b.toNat) ∧ BranchRow .bgeu (fun a b => b.toNat ≤ a.toNat)) ∧
  (∀ (s : State) (t : Thr), Goes s t →
     (∀ f : FmtE,
       (∃ u, exec (.j t f) s = .next u ∧ RetiredTo [] ((thr s t).pc + f.off.signExtend 64 * 4) t id s u) ∧
       (∃ u, exec (.jl t f) s = .next u ∧
         RetiredTo [] ((thr s t).pc + f.off.signExtend 64 * 4) t (writeG 31 ⟨(thr s t).pc + 4, false⟩) s u)) ∧
     (∀ f : FmtA, f.gs2 = 0 →
       (f.gd = 0 → (readG (thr s t) f.gs1).poison = false → (readG (thr s t) f.gs1).val.extractLsb' 0 2 = 0 →
         ∃ u, exec (.jr t f) s = .next u ∧ Branched (readG (thr s t) f.gs1).val (readG (thr s t) f.gs1).val none false t id s u) ∧
       ((readG (thr s t) f.gs1).poison = false → (readG (thr s t) f.gs1).val.extractLsb' 0 2 = 0 →
         ∃ u, exec (.jlr t f) s = .next u ∧
           Branched (readG (thr s t) f.gs1).val (readG (thr s t) f.gs1).val none false t (writeG f.gd ⟨(thr s t).pc + 4, false⟩) s u) ∧
       (f.gd = 0 → f.gs1 = 0 → (readG (thr s t) 31).poison = false → (readG (thr s t) 31).val.extractLsb' 0 2 = 0 →
         let a := (readG (thr s t) 31).val
         let p := predictRet (thr s t)
         ∃ u, exec (.ret t f) s = .next u ∧ Branched (if isAdze t then a else p.getD a) a p true t id s u) ∧
       ((thr s t).unconf = [] → predictRet (thr s t) = if (thr s t).noRsp then none else (thr s t).rstack.head?)))

/-! ## Exceptions -/

/-- R105: what one entry writes. At level X the saved registers take the PC, the cause and the detail, TSTAT keeps the old
privilege and IE in the fields of X, IE is cleared, the frame bit of X is set, the privilege becomes X, and the PC is
X_EVEC, or X_EVEC + 0x80 for the interrupt; no other register changes.
R105 and R107: the level an exception is taken at, and what happens where the frame of that level is open: at K it
becomes DOUBLE at M with the first number in M_EINFO, and at M the thread stops. -/
def Obligations.ExceptionEntry : Prop :=
  (∀ (th : Thread) (x : Priv) (e : Exc) (pc : Word), x = .K ∨ x = .M →
     let v := enterLevel x e pc th
     let old := if x = .M then th.xm else th.xk
     let new := if x = .M then v.xm else v.xk
     (if x = .M then v.xk = th.xk else v.xm = th.xm) ∧
     new = { old with epc := pc.extractLsb' 2 46, code := BitVec.ofNat 8 e.code, half := e.half, acc := e.acc,
                      lost := e.lost, eaddr := e.eaddr, einfo := e.einfo } ∧
     v.tstat = (if x = .M then { th.tstat with mPpriv := th.tstat.priv, mPie := th.tstat.ie, mFrame := true, ie := false, priv := .M }
       else { th.tstat with kPpriv := th.tstat.priv, kPie := th.tstat.ie, kFrame := true, ie := false, priv := .K }) ∧
     v.pc = ((old.evec ++ (0 : BitVec 8)).signExtend 64) + (if e.code = 0x20 then 0x80 else 0) ∧
     v.g = th.g ∧ v.f = th.f ∧ v.dov = th.dov ∧ v.fpFlags = th.fpFlags ∧ v.ev = th.ev ∧ v.stores = th.stores ∧
       v.outst = th.outst) ∧
  (∀ (th : Thread) (e : Exc) (pc : Word), 1 ≤ e.code → e.code ≤ 18 ∨ e.code = 0x20 →
     let toM := e.code = 13 ∨ e.code = 18 ∨ th.tstat.priv = .M ∨
       (if e.code = 0x20 then th.irqM = true else th.route.getLsbD (e.code - 1) = true)
     (toM → entering th e pc = if th.tstat.mFrame then .stop (causeWord e) else .at .M e) ∧
     (¬ toM → entering th e pc =
       if th.tstat.kFrame = false then .at .K e
       else if th.tstat.mFrame then .stop (causeWord ⟨18, pc, BitVec.ofNat 64 e.code, 0, false, 0⟩)
       else .at .M ⟨18, pc, BitVec.ofNat 64 e.code, 0, false, 0⟩) ∧
     privGe (excLevel th e.code) th.tstat.priv = true)

/-- R80, R74, R76, R102, R108 and R111: an instruction that fails a check takes the exception named and has no other
effect. Shown for an unused field, a reserved minor code, an operation absent from engines, a privilege, and a poisoned register in each use.
Where it rests on the model's choices and inferences they are those of log entries 9 and 115. -/
def Obligations.Checks : Prop :=
  ∀ (s : State) (t : Thr), MayEnter s t → ownedBy s t = none →
    (∀ f : FmtA, f.gs2 ≠ 0 →
      ∃ u, exec (.clz t f) s = .next u ∧ Entered t ⟨1, 0, (wordA 1 f 0x020).setWidth 64, 0, false, 0⟩ s u) ∧
    (∀ f : FmtFP, f.m3 = true →
      ∃ u, exec (.fclass t f) s = .next u ∧ Entered t ⟨1, 0, (wordFP 0x13 f).setWidth 64, 0, false, 0⟩ s u) ∧
    (∀ f : FmtFP, isAdze t = true → f.rm = 0 → f.fs2 = 0 → f.m3 = false →
      ∃ u, exec (.fclass t f) s = .next u ∧ Entered t ⟨2, 0, (wordFP 0x13 f).setWidth 64, 0, false, 0⟩ s u) ∧
    (∀ f : FmtF, (thr s t).tstat.priv = .U → f.gd = 0 → f.gs1 = 0 → f.imm = 0 →
      ∃ u, exec (.eret t f) s = .next u ∧ Entered t ⟨3, 0, (wordF 0x3C f 2).setWidth 64, 0, false, 0⟩ s u) ∧
    (∀ f : FmtC, (readG (thr s t) f.gb).poison = true →
      ∃ u, exec (.ldd t f) s = .next u ∧ Entered t ⟨15, 0, f.gb.setWidth 64, 1, false, 0⟩ s u) ∧
    (∀ f : FmtD, (readG (thr s t) f.gs1).poison = true →
      ∃ u, exec (.beq t f) s = .next u ∧ Entered t ⟨15, 0, f.gs1.setWidth 64 ||| 0x100, 0, false, 0⟩ s u) ∧
    (∀ f : FmtA, (readG (thr s t) f.gs1).poison = true → f.gs2 = 0 →
      ∃ u, exec (.jlr t f) s = .next u ∧ Entered t ⟨15, 0, f.gs1.setWidth 64 ||| 0x200, 0, false, 0⟩ s u) ∧
    (∀ f : FmtF, (readG (thr s t) f.gs1).poison = true → f.gd = 0 → f.imm = 1 →
      ∃ u, exec (.mts t f) s = .next u ∧ Entered t ⟨15, 0, f.gs1.setWidth 64 ||| 0x300, 0, false, 0⟩ s u)

/-- R99, R103 and R104: SYSCALL, MCALL and BREAK take their exception with IMM12 as the detail and their own address
saved; EVDONE of a priority that is not on top of the stack raises PRIO_STACK.
R106, R318 and R320: ERET returns from the level it runs at, EVDONE ends the event on top of the stack, and WAIT goes
on where a lane holds a record and dozes behind the instruction where none does.
Where it rests on the model's choices and inferences they are those of log entry 116. -/
def Obligations.SystemCallsAndReturns : Prop :=
  (∀ (s : State) (t : Thr) (f : FmtF), MayEnter s t → f.gd = 0 → f.gs1 = 0 →
     (∃ u, exec (.syscall t f) s = .next u ∧ Entered t ⟨12, 0, f.imm.setWidth 64, 0, false, 0⟩ s u) ∧
     ((thr s t).tstat.priv ≠ .U → ∃ u, exec (.mcall t f) s = .next u ∧ Entered t ⟨13, 0, f.imm.setWidth 64, 0, false, 0⟩ s u) ∧
     (∃ u, exec (.brk t f) s = .next u ∧ Entered t ⟨14, 0, f.imm.setWidth 64, 0, false, 0⟩ s u) ∧
     ((thr s t).tstat.priv ≠ .U → f.imm.toNat < 16 → (thr s t).ev.stack.head? ≠ some (f.imm.setWidth 4) →
       ∃ u e, exec (.evdone t f) s = .next u ∧ Entered t ⟨16, 0, e, 0, false, 0⟩ s u ∧
         e = (match (thr s t).ev.stack with
           | [] => f.imm.setWidth 64 ||| 0x100
           | top :: _ => f.imm.setWidth 64 ||| (top.setWidth 64 <<< 4)))) ∧
  (∀ (s : State) (t : Thr) (f : FmtF), GoesAlone s t → f.gd = 0 → f.gs1 = 0 →
     (f.imm = 0 → (thr s t).tstat.priv ≠ .U →
       let th := thr s t
       let ts := if th.tstat.priv = .M then { th.tstat with priv := th.tstat.mPpriv, ie := th.tstat.mPie, mFrame := false }
         else { th.tstat with priv := th.tstat.kPpriv, ie := th.tstat.kPie, kFrame := false }
       let epc := if th.tstat.priv = .M then th.xm.epc else th.xk.epc
       ∃ u, exec (.eret t f) s = .next u ∧
         (thr u t).calm = (flushed t { th with tstat := ts, pc := (epc ++ (0 : BitVec 2)).signExtend 64 }).calm ∧
         (thr u t).resv = none ∧ OthersCalm t s u ∧ Keeps entryPieces s u) ∧
     (∀ top rest, (thr s t).tstat.priv ≠ .U → f.imm.toNat < 16 → (thr s t).ev.stack = top :: rest → top = f.imm.setWidth 4 →
       ∃ u, exec (.evdone t f) s = .next u ∧ Retired t (fun th => { th with ev := { th.ev with stack := rest } }) s u) ∧
     (f.imm = 0 → (∃ p < 16, look 0 (thr s t).ev.head p ≠ look 0 (thr s t).ev.tail p) →
       ∃ u, exec (.wait t f) s = .next u ∧ Retired t id s u) ∧
     (f.imm = 0 → (∀ p < 16, look 0 (thr s t).ev.head p = look 0 (thr s t).ev.tail p) →
       ∃ u, exec (.wait t f) s = .next u ∧ Retired t (fun th => { th with run := .dozing }) s u))

/-! ## System registers -/

/-- R75 and R77: MFS completes for every number that the thread's kind of unit has (FPCSR and FPTAGS on a core only) at a
privilege that may read it: gd receives the register's value, unpoisoned, the thread goes on at PC + 4, and nothing else
changes. The words of the registers of R77 are laid out as its tables say.
Where it rests on the model's choices and inferences they are those of log entries 9 and 17. -/
def Obligations.ReadSystemRegister : Prop :=
  (∀ (s : State) (t : Thr) (f : FmtF), GoesAlone s t → f.gs1 = 0 → numberOf t f.imm.toNat = true →
    (isAdze t = true → f.imm ≠ 2 ∧ f.imm ≠ 5) →
    privGe (thr s t).tstat.priv (readPriv (thr s t) f.imm.toNat) = true →
    ∃ u, exec (.mfs t f) s = .next u ∧
      Retired t (writeG f.gd ⟨sysRead s t f.imm.toNat, false⟩) s u) ∧
  (∀ (s : State) (t : Thr),
    let ts := (thr s t).tstat
    let w := sysRead s t 0x000
    w.extractLsb' 0 2 = privCode ts.priv ∧ w.getLsbD 2 = ts.ie ∧ w.getLsbD 4 = ts.kFrame ∧ w.getLsbD 5 = ts.mFrame ∧
    w.extractLsb' 8 2 = privCode ts.kPpriv ∧ w.extractLsb' 10 2 = privCode ts.mPpriv ∧ w.getLsbD 12 = ts.kPie ∧
    w.getLsbD 13 = ts.mPie ∧ w.extractLsb' 14 50 = 0 ∧
    (sysRead s t 0x003).extractLsb' 0 10 = BitVec.ofNat 10 (thrIx t) ∧ (sysRead s t 0x003).getLsbD 10 = isAdze t ∧
    (sysRead s t 0x003).extractLsb' 16 16 = deviceId s ∧
    (sysRead s t 0x003).extractLsb' 32 16 = (srcEnt s (srcOfThr t)).gen ∧
    sysRead s t 0x004 = s.time.now ∧
    sysRead s t 0x010 = ((thr s t).xk.evec ++ (0 : BitVec 8)).signExtend 64 ∧
    sysRead s t 0x021 = ((thr s t).xm.epc ++ (0 : BitVec 2)).signExtend 64 ∧
    (sysRead s t 0x012).extractLsb' 0 8 = (thr s t).xk.code ∧ (sysRead s t 0x012).getLsbD 8 = (thr s t).xk.half ∧
    (sysRead s t 0x012).extractLsb' 9 2 = (thr s t).xk.acc ∧ (sysRead s t 0x012).extractLsb' 16 16 = (thr s t).xk.lost)

/-- R75 to R78: MTS writes the RW fields of a register from the bits its map gives them, and nothing else. TSTAT at K
writes the K fields and IE; at M every RW field; a reserved privilege code leaves its field.
Where it rests on the model's choices and inferences they are those of log entries 9 and 17. -/
def Obligations.WriteSystemRegister : Prop :=
  MtsRow 0x000 (fun th => th.tstat.priv = .K) false (fun v th => { th with tstat := { th.tstat with
    ie := v.getLsbD 2, kFrame := v.getLsbD 4, kPie := v.getLsbD 12
    kPpriv := if v.extractLsb' 8 2 = 0 then .U else if v.extractLsb' 8 2 = 1 then .K else th.tstat.kPpriv } }) ∧
  MtsRow 0x000 atM false (fun v th => { th with tstat := { th.tstat with
    ie := v.getLsbD 2, kFrame := v.getLsbD 4, kPie := v.getLsbD 12, mFrame := v.getLsbD 5, mPie := v.getLsbD 13
    kPpriv := if v.extractLsb' 8 2 = 0 then .U else if v.extractLsb' 8 2 = 1 then .K else th.tstat.kPpriv
    mPpriv := if v.extractLsb' 10 2 = 0 then .U else if v.extractLsb' 10 2 = 1 then .K
      else if v.extractLsb' 10 2 = 3 then .M else th.tstat.mPpriv } }) ∧
  MtsRow 0x001 (fun _ => True) false (fun v th => { th with dov := v.getLsbD 0, dove := v.getLsbD 1 }) ∧
  MtsRow 0x002 (fun _ => True) true (fun v th => { th with
    fpFlags := v.extractLsb' 0 5, fpTrap := v.extractLsb' 8 5
    fpRm := if 5 ≤ (v.extractLsb' 16 3).toNat then th.fpRm else v.extractLsb' 16 3 }) ∧
  MtsRow 0x010 atK false (fun v th => { th with xk := { th.xk with evec := v.extractLsb' 8 40 } }) ∧
  MtsRow 0x011 atK false (fun v th => { th with xk := { th.xk with epc := v.extractLsb' 2 46 } }) ∧
  MtsRow 0x012 atK false (fun v th => { th with xk := { th.xk with
    code := v.extractLsb' 0 8, half := v.getLsbD 8, acc := v.extractLsb' 9 2, lost := v.extractLsb' 16 16 } }) ∧
  MtsRow 0x013 atK false (fun v th => { th with xk := { th.xk with eaddr := v } }) ∧
  MtsRow 0x014 atK false (fun v th => { th with xk := { th.xk with einfo := v } }) ∧
  MtsRow 0x015 atK false (fun v th => { th with xk := { th.xk with scratch := v } }) ∧
  MtsRow 0x020 atM false (fun v th => { th with xm := { th.xm with evec := v.extractLsb' 8 40 } }) ∧
  MtsRow 0x021 atM false (fun v th => { th with xm := { th.xm with epc := v.extractLsb' 2 46 } }) ∧
  MtsRow 0x026 atM false (fun v th => { th with route := v.extractLsb' 1 18, irqM := v.getLsbD 63 }) ∧
  MtsRow 0x100 atK true (fun v th => { th with ptRoot := v.extractLsb' 12 36 }) ∧
  MtsRow 0x102 atK false (fun v th => { th with trEn := v.getLsbD 0, trKnxU := v.getLsbD 1, trKaccU := v.getLsbD 2 }) ∧
  MtsRow 0x108 atK true (fun v th => { th with noMds := v.getLsbD 0, noRsp := v.getLsbD 1, noPeek := v.getLsbD 2 }) ∧
  MtsRow 0x306 atK false (fun v th => { th with ev := { th.ev with timer := v } })

/-! ## Atomics, fences and cache maintenance -/

/-- R95, R101, R173 and R177: FAA and CAS where they are performed at once. Memory at the address takes the sum, or gs2
where the old value equals gd; gd receives the old value; no other byte changes.
Where it rests on the model's choices and inferences they are those of log entries 9, 14, 25 and 117. -/
def Obligations.AtomicUpdates : Prop :=
  ∀ (s s2 : State) (t : Thr) (f : FmtA) (dbl : Bool) (pa : BitVec 48), AtomReady t .atomic f dbl pa s s2 →
    DataFits (thr s t) f.gs2 pa → AtomHere s2 t [lineOf pa] pa →
    let b := readG (thr s t) f.gs2
    let e := readG (thr s t) f.gd
    let old := atomOld s2 pa dbl
    let n := sizeOfDbl dbl
    let wasP := isPoisoned s2 (lineOf pa)
    let hit := if dbl then old = e.val else old.setWidth 32 = e.val.setWidth 32
    (∃ u, exec (.faa t f dbl) s = .next u ∧
      Performed [.poison, .log] t (writeG f.gd ⟨old, wasP || b.poison⟩) s u ∧
      readBytes u pa.toNat n = bytesOf n (old + b.val) ∧ MemKept pa.toNat n s2 u) ∧
    (∃ u, exec (.cas t f dbl) s = .next u ∧
      Performed [.poison, .log] t (writeG f.gd ⟨old, wasP || b.poison || e.poison⟩) s u ∧
      (hit → readBytes u pa.toNat n = bytesOf n b.val ∧ MemKept pa.toNat n s2 u) ∧
      (¬ hit → ∀ x, readByte u x = readByte s2 x))

/-- R96, R138, R159, R161 and R185: the fences. FENCE.O waits only for older stores to normal memory, and only with SL or
SS in its mask; FENCE.C ends where nothing is outstanding and no store was lost, and raises COMPLETION where one was;
ISYNC ends where the store buffer is empty. A fence that waits leaves the thread at the fence.
Where it rests on the model's choices and inferences they are those of log entries 9, 29 and 30. -/
def Obligations.Fences : Prop :=
  ∀ (s : State) (t : Thr) (f : FmtF), f.gd = 0 → f.gs1 = 0 →
    let th := thr s t
    let waits := fun (c : Instr) (run : Run) => ∃ u, exec c s = .next u ∧ (thr u t).calm = { th with run := run }.calm ∧
      OthersCalm t s u ∧ Keeps retirePieces s u
    let e : Exc := ⟨17, 0, th.logFirst.setWidth 64, 0, false, th.lostPending⟩
    (Goes s t → f.imm.toNat < 16 →
      let must := (f.imm.getLsbD 2 = true ∨ f.imm.getLsbD 3 = true) ∧
        ∃ a ∈ th.outst ++ th.stores, a.kind ≠ .load ∧ isDevice (spaceOf a.pa) = false
      (¬ must → ∃ u, exec (.fenceO t f) s = .next u ∧ Retired t id s u) ∧ (must → waits (.fenceO t f) .running)) ∧
    (GoesAlone s t → f.imm = 0 →
      (th.outst = [] → th.stores = [] → th.lostPending = 0 → ∃ u, exec (.fenceC t f) s = .next u ∧ Retired t id s u) ∧
      (th.outst ≠ [] ∨ th.stores ≠ [] → waits (.fenceC t f) .fencing) ∧
      (th.outst = [] → th.stores = [] → th.lostPending ≠ 0 → irqTakes th = false →
        ∀ x, entering th e th.pc = .at x e →
        ∃ u, exec (.fenceC t f) s = .next u ∧
          (thr u t).calm = { flushed t (enterLevel x e th.pc th) with lostPending := 0 }.calm ∧
          OthersCalm t s u ∧ Keeps entryPieces s u) ∧
      (th.stores = [] → ∃ u, exec (.isync t f) s = .next u ∧ Retired t id s u) ∧
      (th.stores ≠ [] → waits (.isync t f) .running)) ∧
    (th.run = .fencing → halted th = false → th.unconf = [] → unitRuns s t = true → th.outst = [] → th.stores = [] → th.lostPending = 0 →
      ∃ u, exec (.fenceCDrained t) s = .next u ∧ (thr u t).calm = { th with run := .running, pc := th.pc + 4 }.calm ∧
        (thr u t).resv = th.resv ∧ OthersCalm t s u ∧ Keeps [.thr, .wake] s u)

/-- R100, R204 and R272: CCLEAN, CFLUSH and CINV do nothing on an engine and outside DRAM; on a core they send the request
for the line to its home, with one access outstanding until the answer, and change no byte.
R100, R140, R147, R204 and R215: CZERO writes 64 zero bytes to the whole line and clears its poison; IINV takes the
line out of the core's L1 instruction cache alone, and does nothing on an engine; TLBINV removes the matching entries of the
core's TLBs, and the matching walks its shim buffer holds, alone.
Where it rests on the model's choices and inferences they are those of log entries 9, 14, 22 and 32. -/
def Obligations.CacheMaintenance : Prop :=
  (MaintRow .cclean false .cclean .cln ∧ MaintRow .cflush false .cclean .fls ∧ MaintRow .cinv true .cinv .inv) ∧
  ((∀ (s s2 : State) (t : Thr) (f : FmtF) (pa : BitVec 48), MaintReady t .czero f pa s s2 →
     let base := lineAddr (lineOf pa)
     ((∃ j, t = .adze j ∧ ownScratch j base = true) ∨ (∃ i, t = .core i ∧ targetServed s2 t base = true ∧
       ((monitorAt base).isSome = true ∨
         (spaceOf base = .dram ∧ bayOwns s2 (i.val / 16) (lineOf pa) = true ∧ heldBack s2 i (lineOf pa) = false)))) →
     ∃ u, exec (.czero t f) s = .next u ∧ Performed [.poison] t id s u ∧ isPoisoned u (lineOf pa) = false ∧
       (∀ x, base.toNat ≤ x → x < base.toNat + 64 → readByte u x = 0) ∧ MemKept base.toNat 64 s2 u) ∧
   (∀ (s s2 : State) (i : Fin 640) (f : FmtF) (pa : BitVec 48), MaintReady (.core i) .maint f pa s s2 →
     ∃ u, exec (.iinv (.core i) f) s = .next u ∧ Performed [] (.core i) id s u ∧ (∀ x, readByte u x = readByte s2 x) ∧
       (isDramLine (lineOf pa) = true → core u (i.val / 4) = { core s2 (i.val / 4) with
         l1i := setLineState (core s2 (i.val / 4)).l1i (l1Set (lineOf pa)) (lineOf pa) .I })) ∧
   (∀ (s : State) (j : Fin 512) (f : FmtF), Goes s (.adze j) → f.gd = 0 → f.imm = 0 →
     ∃ u, exec (.iinv (.adze j) f) s = .next u ∧ Retired (.adze j) id s u) ∧
   (∀ (s : State) (t : Thr) (f : FmtF), GoesAlone s t → f.gd = 0 → f.imm.toNat < 4 → (f.imm = 0 → f.gs1 = 0) →
     (thr s t).tstat.priv ≠ .U → (2 ≤ f.imm.toNat → (readG (thr s t) f.gs1).poison = false) →
     let v := (readG (thr s t) f.gs1).val
     let hit := fun (e : TlbE) => decide (f.imm = 0) || (decide (f.imm = 1) && (e.glb || decide (e.asid = v.setWidth 16))) ||
       (decide (f.imm = 2) && tlbHit v (thr s t).asid e) || (decide (f.imm = 3) && tlbHit v (v.extractLsb' 48 16) e)
     ∃ u, exec (.tlbinv t f) s = .next u ∧ RetiredTo [.core] ((thr s t).pc + 4) t id s u ∧
       (isAdze t = true → u.core = s.core) ∧ ∀ i, t = .core i →
         let k := core s (i.val / 4)
         (core u (i.val / 4)).itlb = k.itlb.filter (fun e => !hit e) ∧
         (core u (i.val / 4)).dtlb = k.dtlb.filter (fun e => !hit e) ∧
         (core u (i.val / 4)).stlb = k.stlb.filter (fun e => !hit e) ∧
         ∀ e ∈ (core u (i.val / 4)).shim, ∀ w, e.walk = some w → hit w = false))

/-! ## Events of a core -/

/-- R114, R115 and R123: an instruction of a core thread that is not in the fetch buffer is fetched and then runs as any other
that is; it waits where the thread's grant does not deliver it.
R117, R119, R121, R123 and R131: of the unresolved branches of a thread one resolves; where it is the only one, a RET that was
predicted to go elsewhere squashes what is younger and goes on at its target, and any other changes no register. The
oldest instruction in flight is confirmed, with its call or return on the return stack, its load counted in the predictor and
its store marked confirmed, and leaves unless it is a branch that has not resolved; an entry of the memory-dependence
predictor older than 65,536 loads goes.
R131 to R133: when a store's address becomes known, the first younger load that read a byte it writes is squashed with
everything younger: the registers are as they were before that load, its address is the PC, and the load is marked when it
executes again. With no such load only the store's own pieces change, and a store whose address is known already changes
nothing.
Where it rests on the model's choices and inferences they are those of log entries 15 and 105. -/
def Obligations.InstructionsInFlight : Prop :=
  (∀ (s u : State) (i : Fin 640) (k : Check) (body : Thread → State → Eff), canExec s (.core i) = true →
     (fetchNow (.core i) s = .wait u → runInstr (.core i) k body s = u) ∧
     (fetchNow (.core i) s = .got u → canExec u (.core i) = true →
       fetchNow (.core i) u = .got u → runInstr (.core i) k body s = runInstr (.core i) k body u) ∧
     (∀ pa, (thr s (.core i)).unconf = [] → (thr s (.core i)).fbuf = [] → fetchTurn s i = true →
       ((thr s (.core i)).tstat.priv = .M ∨ (thr s (.core i)).trEn = false) → (thr s (.core i)).pc.toNat < 2 ^ 47 →
       pa = (thr s (.core i)).pc.setWidth 48 → ownDram s (partOf s (.core i)) pa = true → isPoisoned s (lineOf pa) = false →
       sectorWay (core s (i.val / 4)).l1i (lineOf pa) (sectorOf pa) ≠ none → heldBack s i (lineOf pa) = false →
       (bay s (i.val / 16)).reqs = [] → (lineServed s (lineOf pa) = true) →
       ∃ w, fetchNow (.core i) s = .got w ∧ (thr w (.core i)).fbuf.map (·.pc) =
         (List.range (8 - (thr s (.core i)).pc.toNat % 32 / 4)).map (fun j => (thr s (.core i)).pc + BitVec.ofNat 64 (4 * j)) ∧
         (∀ t, (thr w t).calm = (thr s t).calm) ∧ Keeps [.thr, .core, .wake] s w)) ∧
  ((∀ (s : State) (i : Fin 640), (die s (i.val / 160)).stalled = false →
     let th := thr s (.core i)
     (th.unconf.map (·.seq)).Nodup →
     (openBranches th ≠ [] → ∃ u, exec (.branchResolved i) s = .next u ∧
       (openBranches (thr u (.core i))).length < (openBranches th).length ∧
       OthersCalm (.core i) s u ∧ Keeps [.thr, .core, .wake, .fresh] s u) ∧
     (∀ (pre post : List UOp) (x : UOp) (b : BrInfo), th.unconf = pre ++ x :: post → (∀ y ∈ pre ++ post, y.settled = true) →
       x.br = some b → b.resolved = false →
       let x' := { x with br := some { b with resolved := true } }
       ∃ u, exec (.branchResolved i) s = .next u ∧ OthersCalm (.core i) s u ∧ Keeps [.thr, .core, .wake] s u ∧
         ((b.isRet = false ∨ b.predicted = none ∨ b.predicted = some b.target) →
           (thr u (.core i)).unconf = headRetires (pre ++ x' :: post) ∧ (thr u (.core i)).calm = th.calm) ∧
         (b.isRet = true → (∃ p, b.predicted = some p ∧ p ≠ b.target) →
           let from' := (th.unconf.find? (fun y => x.seq < y.seq)).map (·.snap)
           let sn := from'.getD (snapOf th)
           (thr u (.core i)).calm = { th with
             g := sn.g, f := sn.f, pc := b.target, dov := sn.dov, fpFlags := sn.fpFlags
             stores := th.stores.filter (fun (a : Access) => a.conf || decide (a.seq ≤ x.seq)) }.calm ∧
           ∀ y ∈ (thr u (.core i)).unconf, y.seq ≤ x.seq))) ∧
   (∀ (s : State) (i : Fin 640) (x : UOp) (rest : List UOp), (thr s (.core i)).unconf = x :: rest → x.conf = false →
     (die s (i.val / 160)).stalled = false → (thr s (.core i)).tstat.priv = .M ∨ (thr s (.core i)).trEn = false →
     peekLines s i x = [] → (∀ ld, x.ld = some ld → ∀ l ∈ linesOfLd ld, heldBack s i l = false) →
     (∀ a ∈ (thr s (.core i)).stores, x.st = some a.seq → a.known = true) →
     (∀ e ∈ (core s (i.val / 4)).shim, e.found = []) →
     let th := thr s (.core i)
     let rs := if x.pop then th.rstack.drop 1 else th.rstack
     ∃ u, exec (.instructionConfirmed i .clean) s = .next u ∧
       (thr u (.core i)).unconf = headRetires ({ x with conf := true, fetch := none, evs := [] } :: rest) ∧
       (thr u (.core i)).calm = { th with
         rstack := (match x.push with | some a => (a :: rs).take 16 | none => rs)
         mdp := (match x.ld with | some ld => (countLoad x.pc ld.again th).mdp | none => th.mdp)
         stores := th.stores.map (fun (a : Access) => if x.st.isSome && a.seq = x.seq then { a with conf := true } else a) }.calm ∧
       OthersCalm (.core i) s u ∧ Keeps [.thr, .core, .bay, .slice, .eng, .net, .wake] s u) ∧
   (∀ (s : State) (i : Fin 640) (pc : Word),
     ∃ u, exec (.mdpEntryExpire i pc) s = .next u ∧
       thr u (.core i) = { thr s (.core i) with
         mdp := (thr s (.core i)).mdp.filter (fun m => !(decide (m.1 = pc) && decide (65536 ≤ m.2))) } ∧
       (∀ x, x ≠ Thr.core i → thr u x = thr s x) ∧ Keeps [.thr] s u)) ∧
  (∀ (s : State) (i : Fin 640) (older : Nat),
     let th := thr s (.core i)
     let ps := th.stores.filter (fun a => a.seq = older && !a.known)
     let known := th.stores.map (fun (a : Access) => if a.seq = older then { a with known := true } else a)
     (die s (i.val / 160)).stalled = false →
     (ps = [] → exec (.storeAddressKnown i older) s = .next s) ∧
     (ps ≠ [] → th.unconf.find? (violates ps older) = none →
       ∃ u, exec (.storeAddressKnown i older) s = .next u ∧ thr u (.core i) = { th with stores := known } ∧
         (∀ t, t ≠ .core i → thr u t = thr s t) ∧ Keeps [.thr] s u) ∧
     (∀ x, ps ≠ [] → th.unconf.find? (violates ps older) = some x →
       th.unconf.find? (fun y => decide (x.seq ≤ y.seq)) = some x →
       ∃ u, exec (.storeAddressKnown i older) s = .next u ∧
         (thr u (.core i)).calm = { th with
           g := x.snap.g, f := x.snap.f, pc := x.snap.pc, dov := x.snap.dov, fpFlags := x.snap.fpFlags
           stores := known.filter (fun a => a.conf || decide (a.seq < x.seq)) }.calm ∧
         (thr u (.core i)).unconf = th.unconf.filter (fun y => y.seq < x.seq) ∧ (thr u (.core i)).redo = some x.pc ∧
         OthersCalm (.core i) s u ∧ Keeps [.thr, .core, .wake] s u))

/-- R105, R110, R273, R274 and R317: the external interrupt of a thread at an instruction boundary with nothing in flight,
while IE is 1 and a lane above the top of the priority stack holds a record: the entry is made and that priority is pushed.
On an engine it is recognised first, which discards an instruction in an abandonable wait, and the end of its 7 beats makes
the entry.
Where it rests on the model's choices and inferences they are those of log entry 36. -/
def Obligations.InterruptEntry : Prop :=
  ∀ (s : State) (t : Thr) (p : Nat) (x : Priv),
    let th := thr s t
    let irq : Exc := ⟨0x20, 0, 0, 0, false, 0⟩
    let enters := fun (u : State) => (thr u t).calm = (flushed t { enterLevel x irq th.pc th with
        ev := { th.ev with stack := BitVec.ofNat 4 p :: th.ev.stack } }).calm ∧
      (thr u t).resv = none ∧ OthersCalm t s u ∧ Keeps entryPieces s u
    th.unconf = [] → halted th = false → unitRuns s t = true → th.tstat.ie = true → irqPrio th = some p →
    entering th irq th.pc = .at x irq →
    (th.run = .dozing ∨ th.run = .fencing ∨ (th.run = .running ∧ th.held ≠ .other ∧ th.held ≠ .entering) →
      (∀ i, t = .core i → (∀ a ∈ th.stores, a.conf = true) →
        ∃ u, exec (.interruptEntry i) s = .next u ∧ enters u) ∧
      (∀ j, t = .adze j → ∃ u, exec (.adzeInterruptEntry j) s = .next u ∧
        thr u t = { th with run := .running, held := .entering, waitRoom := false } ∧
        (∀ y, y ≠ t → thr u y = thr s y) ∧ Keeps [.thr] s u)) ∧
    (∀ j, t = .adze j → th.run = .running → th.held = .entering →
      ∃ u, exec (.adzeInterruptEntry j) s = .next u ∧ enters u)

/-! ## Stores on their way, and their ends -/

/-- R152, R155, R163, R178, R270 and R271: the oldest store leaves the buffer or queue once it is confirmed (an STL only
when nothing older is outstanding; an engine's DRAM store not while one before it is on its way to the same home) and becomes
outstanding, stamped with the TIME and its source; memory does not change yet.
R150, R152, R153, R215, R223 and R250: a released store is performed where its target answers: at an L2-as-memory address
below CUR, in scratch, or in a DRAM line that the core's bay holds exclusively. Its bytes are in memory, no other byte
changes, it is no longer outstanding, and every other thread's reservation on its granule is lost.
Where it rests on the model's choices and inferences they are those of log entries 14, 15 and 27. -/
def Obligations.StoreTravels : Prop :=
  (∀ (s : State) (t : Thr) (a : Access) (rest : List Access), (thr s t).stores = a :: rest →
     let th := thr s t
     let out := th.stores.filter (fun b => b.seq = a.seq)
     (∀ b ∈ out, b.conf = true ∧ (b.ordered = true → th.outst = []) ∧ spaceOf b.pa ≠ .ridge) →
     (die s (dieOfThr t)).stalled = false →
     (isAdze t = true → storeEntries (th.outst.filter (fun b => b.kind ≠ .load)) < 16 ∧ homeAhead s t = false) →
     ∃ u, exec (.storeRelease t) s = .next u ∧ (∀ j, t = .adze j → exec (.storeQueueSend j) s = .next u) ∧
       (thr u t).calm = { th with
         stores := th.stores.filter (fun b => b.seq ≠ a.seq)
         outst := th.outst ++ out.map (fun (b : Access) => { b with
           tRel := s.time.now, lost := th.lostPending, gen := (srcEnt s (srcOfThr t)).gen, site := siteOf s (srcOfThr t) }) }.calm ∧
       (∀ x, x ≠ t → thr u x = thr s x) ∧ Keeps [.thr, .bay, .net, .ereqs] s u) ∧
  (∀ (s : State) (t : Thr) (id : Nat) (a : Access), outAccess s t id = some a → a.id = id → a.kind = .store →
     a.sent = false → a.gone = false → (die s (dieOfThr t)).stalled = false → checkSrc s (srcOfThr t) a.gen a.site none = .good →
     olderOut s t a = false → targetServed s t a.pa = true → a.size ≤ 8 →
     ((∃ b, spaceOf a.pa = .l2am b ∧ a.pa.toNat % 0x100000 < (bay s b).amCur.toNat * 0x40000) ∨
       (∃ e, spaceOf a.pa = .scratch e) ∨
       (∃ i, t = .core i ∧ spaceOf a.pa = .dram ∧ bayOwns s (i.val / 16) (lineOf a.pa) = true ∧
         heldBack s i (lineOf a.pa) = false)) →
     ∃ u, exec (.completionAck t id .clean) s = .next u ∧
       readBytes u a.pa.toNat a.size = bytesOf a.size a.data ∧ MemKept a.pa.toNat a.size s u ∧
       (thr u t).calm = { thr s t with outst := removeFirst (fun b => b.id = id) (thr s t).outst }.calm ∧
       (∀ x r, x ≠ t → (thr u x).resv = some r → r.granule ≠ granuleOf a.pa) ∧
       OthersCalm t s u ∧ Keeps [.thr, .core, .bay, .slice, .eng, .mem, .old, .poison, .log, .wake] s u)

/-- R178 to R180: a load whose timeout passes, or whose target reports that it is absent, ends with error: its register
receives a poisoned 0, the thread goes on, and the lost load is counted.
R179, R181 to R185: a store that ends with error is a lost store: the counts of ORD_STATUS and the head of the log
advance, the first lost index is kept, and with the log enabled, room in it and its ring in served DRAM of its own, the
64-byte entry of R183 stands in the ring. Whether the store is performed at its target is left open: only bytes of the
target and of the ring may change.
Where it rests on the model's choices and inferences they are those of log entries 7, 27, 81 and 117. -/
def Obligations.LostAccesses : Prop :=
  (∀ (s : State) (t : Thr) (id : Nat) (a : Access) (d : Dest), outAccess s t id = some a → a.id = id → a.kind = .load →
     a.split = false → a.dest = some d → (∀ b ∈ (thr s t).outst, b.seq = a.seq → b.split = false) →
     let v := fun (th : Thread) => if d.isF then writeF d.reg ⟨0, true, d.single⟩ th else writeG d.reg ⟨0, true⟩ th
     let ends := fun (u : State) => (thr u t).calm = (v { thr s t with
         mdp := if isAdze t then (thr s t).mdp else (countOldest (thr s t)).mdp
         loadLost := satInc (thr s t).loadLost, run := .running, pc := (thr s t).pc + 4
         outst := removeFirst (fun b => b.id = id) (thr s t).outst }).calm ∧
       OthersCalm t s u ∧ Keeps [.thr, .ridge, .wake] s u
     (a.tRel.toNat + (thr s t).tmo.toNat * 16000 ≤ s.time.now.toNat →
       ∃ u, exec (.accessTimeout t id) s = .next u ∧ ends u) ∧
     (targetServed s t a.pa = false → ∃ u, exec (.targetAbsentReport t id .targetDown) s = .next u ∧ ends u)) ∧
  (∀ (s : State) (t : Thr) (id : Nat) (a : Access) (c : LostCause), outAccess s t id = some a → a.id = id →
     a.kind = .store → isDevice (spaceOf a.pa) = false →
     let th := thr s t
     let n := 6 + th.logSize.toNat
     let ring := th.logBase.toNat * 4096 / 2 ^ n * 2 ^ n + th.logHead.toNat % 2 ^ th.logSize.toNat * 64
     let logs := th.logEn = true ∧ (th.logHead - th.logTail).toNat < 2 ^ th.logSize.toNat ∧ logRingOk s t = true ∧
       logRingShared s t = false ∧ lineServed s (lineOf (BitVec.ofNat 48 ring)) = true
     let row := if c = .timeout then Instr.accessTimeout t id else .targetAbsentReport t id c
     (if c = .timeout then a.tRel.toNat + th.tmo.toNat * 16000 ≤ s.time.now.toNat
       else c = .targetDown ∧ (targetServed s t a.pa = false ∨ beingSistered s a.pa = true)) →
     ∃ u, exec row s = .next u ∧
       (logs ∨ th.logEn = false → (thr u t).calm = { th with
         outst := removeFirst (fun b => b.id = id) th.outst
         logHead := th.logHead + 1, lostPending := satInc th.lostPending
         logFirst := if th.lostPending = 0 then th.logHead else th.logFirst
         dropped := if th.logEn then th.dropped else satInc th.dropped }.calm) ∧
       (logs → ∀ w < 8, readBytes u (ring + 8 * w) 8 = bytesOf 8 (
         if w = 0 then at' a.pa 0 ||| at' (BitVec.ofNat 4 a.size) 48 ||| at' (causeCode c) 52 ||| atB a.piece 59 ||| atB a.split 60
         else if w = 1 then a.data &&& BitVec.ofNat 64 (2 ^ (8 * a.size) - 1) else if w = 2 then a.va
         else if w = 3 then a.tRel else if w = 4 then s.time.now else if w = 5 then th.logHead.setWidth 64 else 0)) ∧
       (∀ x, ¬ (ring ≤ x ∧ x < ring + 64) → ¬ (a.pa.toNat ≤ x ∧ x < a.pa.toNat + a.size) → readByte u x = readByte s x) ∧
       OthersCalm t s u)

/-- R95, R131, R173 and R175: LDRES takes the reservation on its 128-byte granule and STCND stores only while the thread's
reservation holds and covers the address; the reservation goes in both cases, and gd says which. Stated where no forward
is held back for the thread (R176), an entry of the monitor is free, and the line stands in the core's L1.
R173, R174 and R176: a thread's shared monitor entry for a granule goes from every monitor when it expires, and with it
the thread's reservation where that stood for it; a reservation on another granule, or one that no entry stood for, stays.
The hold of a reservation ends with the answers it withheld, here an invalidation that is acknowledged to its collector.
Where it rests on the model's choices and inferences they are those of log entries 9 and 26. -/
def Obligations.Reservations : Prop :=
  (∀ (s s2 : State) (t : Thr) (f : FmtA) (dbl : Bool) (pa : BitVec 48),
     (∀ i, t = .core i → ∀ h ∈ (core s2 (i.val / 4)).hold, h.thr.val = i.val % 4 → h.owed = []) →
     let n := sizeOfDbl dbl
     let v := readG (thr s t) f.gs2
     let holds := ∃ r, (thr s2 t).resv = some r ∧ r.granule = granuleOf pa
     (AtomReady t .resv f dbl pa s s2 → f.gs2 = 0 → AtomHere s2 t (granuleLines pa) pa →
       (∀ m, monitorAt pa = some m → monOwn m t = true ∨ ((monAt s2 m).filter (fun e => e.shared)).length < 24) →
       let th := thr s t
       let mdp := if (monitorAt pa).isSome || isAdze t then th.mdp else (countOldest th).mdp
       ∃ u, exec (.ldres t f dbl) s = .next u ∧
         Performed [] t (fun x => writeG f.gd ⟨atomOld s2 pa dbl, isPoisoned s2 (lineOf pa)⟩ { x with mdp := mdp }) s u ∧
         (∃ r, (thr u t).resv = some r ∧ r.granule = granuleOf pa) ∧ ∀ x, readByte u x = readByte s2 x) ∧
     (AtomReady t .atomic f dbl pa s s2 → DataFits (thr s t) f.gs2 pa → AtomHere s2 t [lineOf pa] pa → holds →
       (∀ i, t = .core i → spaceOf pa = .dram → (core s2 (i.val / 4)).den = true →
         lineState (core s2 (i.val / 4)).l1d (l1Set (lineOf pa)) (lineOf pa) ≠ .I) →
       ∃ u, exec (.stcnd t f dbl) s = .next u ∧ Performed [.poison, .log] t (writeG f.gd ⟨0, v.poison⟩) s u ∧
         (thr u t).resv = none ∧ readBytes u pa.toNat n = bytesOf n v.val ∧ MemKept pa.toNat n s2 u) ∧
     (AtomReady t .atomic f dbl pa s s2 → DataFits (thr s t) f.gs2 pa → AtomHere s2 t [] pa → ¬ holds →
       ∃ u, exec (.stcnd t f dbl) s = .next u ∧ Performed [] t (writeG f.gd ⟨1, v.poison⟩) s u ∧
         (thr u t).resv = none ∧ ∀ x, readByte u x = readByte s2 x)) ∧
  ((∀ (s : State) (t : Thr) (g : BitVec 41), ∃ u, exec (.reservationMonitorExpire t g) s = .next u ∧
     (∀ x, x ≠ t → thr u x = thr s x) ∧ Keeps [.thr, .bay, .eng, .slice] s u ∧
     let mine := fun (e : MonE) => decide (e.thr = t) && e.shared && decide (e.granule = g)
     let own := fun (e : MonE) => decide (e.thr = t) && !e.shared
     let all := s.bay.flatMap (fun b => b.2.mon) ++ s.eng.flatMap (fun e => e.2.mon) ++ s.slice.flatMap (fun x => x.2.mon)
     (∀ r k, (thr s t).resv = some r → r.granule = g →
         (∃ e ∈ (bay s k).mon ++ (engine s k).mon ++ (slice s k).mon, mine e = true) →
       thr u t = { thr s t with resv := none } ∧
       (∀ k, (bay u k).mon = (bay s k).mon.filter (fun x => !mine x && !own x)) ∧
       (∀ k, (engine u k).mon = (engine s k).mon.filter (fun x => !mine x && !own x)) ∧
       (∀ k, (slice u k).mon = (slice s k).mon.filter (fun x => !mine x && !own x))) ∧
     ((∀ r, (thr s t).resv = some r → r.granule = g → ∀ e ∈ all, mine e = false) →
       thr u t = thr s t ∧
       (∀ k, (bay u k).mon = (bay s k).mon.filter (fun x => !mine x)) ∧
       (∀ k, (engine u k).mon = (engine s k).mon.filter (fun x => !mine x)) ∧
       (∀ k, (slice u k).mon = (slice s k).mon.filter (fun x => !mine x)))) ∧
   (∀ (s : State) (i : Fin 640) (h : Hold), (core s (i.val / 4)).hold = [h] → h.thr.val = i.val % 4 →
     s.pw.fenced = false → (die s (i.val / 160)).stalled = false →
     (h.owed = [] → ∃ u, exec (.reservationHoldExpire i) s = .next u ∧
       core u (i.val / 4) = { core s (i.val / 4) with hold := [] } ∧ Keeps [.core] s u) ∧
     (∀ m, h.owed = [(.fInv, m)] → (∀ c < 4, c ≠ i.val / 4 % 4 → (core s (i.val / 16 * 4 + c)).hold = []) →
       ∃ u a, exec (.reservationHoldExpire i) s = .next u ∧ (core u (i.val / 4)).hold = [] ∧ u.net = s.net ++ [(.ackInv, a)] ∧
         a.line = m.line ∧ a.dst = m.coll ∧ a.src = .bay ⟨i.val / 16, by omega⟩ ∧
         Keeps [.thr, .core, .bay, .slice, .eng, .net] s u)))

/-! ## Solo mode, caches and ways -/

/-- R124, R132, R136, R137, R122 and R174: an MTS of CORE_SOLO squashes what is in flight in the core's other threads; one that
sets SOLO begins to park the other threads; SOLO_PARKED sets ACTIVE
with each other thread parked; an MTS of 0 by the owner ends solo mode and resumes them, and the MTS of a thread that lost
the same beat then executes; an MTS of ASID also empties the predictors and loses the reservation. Each row is the MTS of its
register by a thread that may write it: it takes the value of gs1 and the thread goes on at PC + 4.
Where it rests on the model's choices and inferences they are those of log entries 19 and 20. -/
def Obligations.SoloAndAsid : Prop :=
  (∀ (s : State) (i : Fin 640) (gs1 : BitVec 5), GoesAlone s (.core i) → (thr s (.core i)).tstat.priv ≠ .U →
    (readG (thr s (.core i)) gs1).poison = false →
    let c := i.val / 4
    let v := (readG (thr s (.core i)) gs1).val
    let next := (thr s (.core i)).pc + 4
    let others := fun (k : Fin 640) => k.val / 4 = c ∧ k ≠ i
    (∃ u, exec (.coreSoloWrite i gs1) s = .next u ∧ ∀ k, others k → (thr u (.core k)).unconf = []) ∧
    ((∀ k, others k → (thr s (.core k)).unconf = [] ∧ ∀ a ∈ (thr s (.core k)).stores, a.conf = true) →
    (v.getLsbD 0 = true → (core s c).soloActive = false → (core s c).soloWait = none →
      ∃ u, exec (.coreSoloWrite i gs1) s = .next u ∧ RetiredTo [.core] next (.core i) id s u ∧
        { core u c with shim := [] } = { core s c with
          soloBit := true, soloWait := some ⟨i.val % 4, by omega⟩, soloAt := s.time.now, shim := [] } ∧
        ((∀ k, others k → (thr s (.core k)).run = .running ∧ (thr s (.core k)).outst = []) →
          ∃ w, exec (.soloParked ⟨c, by omega⟩) u = .next w ∧
            { core w c with shim := [] } = { core s c with
              soloBit := true, soloActive := true, soloOwner := ⟨i.val % 4, by omega⟩, soloWait := none, soloAt := s.time.now
              shim := [] } ∧
            (∀ k : Fin 640, k.val / 4 = c →
              ((thr w (.core k)).soloParked = true ↔ k ≠ i ∨ (thr s (.core k)).soloParked = true)) ∧
            (∀ t, (thr w t).g = (thr s t).g ∧ (t ≠ .core i → (thr w t).pc = (thr s t).pc)) ∧
            Keeps [.thr, .core, .wake] s w)) ∧
    (v.getLsbD 0 = false → (core s c).soloActive = true → (core s c).soloOwner.val = i.val % 4 →
      let th := { thr s (.core i) with pc := next, soloParked := false }
      let off := { core s c with soloBit := false, soloActive := false, soloOwner := 0, soloWait := none }
      ∃ u, exec (.coreSoloWrite i gs1) s = .next u ∧ Keeps [.thr, .core, .wake] s u ∧
        (thr u (.core i)).soloParked = false ∧
        (∀ t, (∀ k : Fin 640, k.val / 4 = c → t ≠ .core k) → (thr u t).calm = (thr s t).calm) ∧
        ((∀ k : Fin 640, k.val / 4 = c → (thr s (.core k)).soloLater = false) → (thr u (.core i)).calm = th.calm ∧
          { core u c with shim := [] } = { off with shim := [] } ∧
          ∀ k : Fin 640, k.val / 4 = c → k ≠ i → (thr u (.core k)).calm = { thr s (.core k) with soloParked := false }.calm) ∧
        (∀ k : Fin 640, k.val / 4 = c → k ≠ i → (thr s (.core k)).soloLater = true → (thr s (.core k)).run ≠ .stopped →
          (∀ j : Fin 640, j.val / 4 = c → j.val < k.val → (thr s (.core j)).soloLater = false) →
          { core u c with shim := [] } = { off with
            soloBit := true, soloWait := some ⟨k.val % 4, by omega⟩, soloAt := s.time.now, shim := [] } ∧
          (thr u (.core k)).calm = { thr s (.core k) with
            soloParked := false, soloLater := false, pc := (thr s (.core k)).pc + 4 }.calm)))) ∧
  (∀ (s : State) (t : Thr) (gs1 : BitVec 5), GoesAlone s t → (thr s t).tstat.priv ≠ .U →
    (readG (thr s t) gs1).poison = false →
    ∃ u, exec (.asidWrite t gs1) s = .next u ∧ Keeps entryPieces s u ∧ OthersCalm t s u ∧ (thr u t).resv = none ∧
      (thr u t).calm = (flushed t { thr s t with
        asid := (readG (thr s t) gs1).val.setWidth 16, pc := (thr s t).pc + 4 }).calm)

/-- R205 to R208: an MTS of CACHE_CTL that leaves DEN takes effect at once; one that clears DEN holds the core until every
store of its threads is performed, and then the L1 data cache is empty and the fields have their values.
R209 to R211 and R218: an MTS of L2AM_CTL with a larger SIZE starts a conversion and with a smaller one gives the ways back
at once, the bytes of their part of the area no longer there. A conversion waits while lines of its ways are left and no
write-back entry is free; with none left CUR takes SIZE and its bytes are zero.
Where it rests on the model's choices and inferences they are those of log entries 19, 20, 21 and 118. -/
def Obligations.CacheControl : Prop :=
  ((∀ (s : State) (i : Fin 640) (gs1 : BitVec 5), GoesAlone s (.core i) → (thr s (.core i)).tstat.priv ≠ .U →
     (readG (thr s (.core i)) gs1).poison = false →
     (∀ k : Fin 640, k.val / 4 = i.val / 4 → k ≠ i →
       (thr s (.core k)).unconf = [] ∧ ∀ a ∈ (thr s (.core k)).stores, a.conf = true) →
     let k := core s (i.val / 4)
     let v := (readG (thr s (.core i)) gs1).val
     ∃ u, exec (.cacheCtlWrite i gs1) s = .next u ∧ RetiredTo [.core] ((thr s (.core i)).pc + 4) (.core i) id s u ∧
       ((k.den = false ∨ v.getLsbD 1 = true) → { core u (i.val / 4) with shim := [] } = { k with
         ien := v.getLsbD 0, den := v.getLsbD 1, pfen := v.getLsbD 2, pfDepth := v.extractLsb' 4 2, shim := []
         l1i := if k.ien && !v.getLsbD 0 then [] else k.l1i, streams := if v.getLsbD 2 then k.streams else [] }) ∧
       (k.den = true → v.getLsbD 1 = false → { core u (i.val / 4) with shim := [] } =
         { k with ccWait := some (⟨i.val % 4, by omega⟩, v), shim := [] } ∧
         ∀ x : Fin 640, x.val / 4 = i.val / 4 → canExec u (.core x) = false)) ∧
   (∀ (s : State) (c : Fin 160) (o : Fin 4) (v : Word) (l : BitVec 42), (core s c.val).ccWait = some (o, v) →
     (∀ i : Fin 640, i.val / 4 = c.val → (thr s (.core i)).outst = [] ∧ (thr s (.core i)).stores = []) →
     (die s (c.val / 40)).stalled = false → s.pw.fenced = false → (core s c.val).hold = [] →
     ∃ u, exec (.cacheCtlDrainDone c l .clean) s = .next u ∧ (core u c.val).ccWait = none ∧ (core u c.val).l1d = [] ∧
       (core u c.val).ien = v.getLsbD 0 ∧ (core u c.val).den = v.getLsbD 1 ∧ (core u c.val).pfen = v.getLsbD 2 ∧
       (core u c.val).pfDepth = v.extractLsb' 4 2 ∧ Keeps [.thr, .core, .bay, .slice, .eng] s u ∧
       ∀ t, (thr u t).calm = (thr s t).calm)) ∧
  ((∀ (s : State) (i : Fin 640) (gs1 : BitVec 5), GoesAlone s (.core i) → (thr s (.core i)).tstat.priv ≠ .U →
     let p := readG (thr s (.core i)) gs1
     p.poison = false → (p.val.extractLsb' 0 3).toNat ≤ 4 →
     let b := i.val / 16
     let y := bay s b
     let want : BitVec 3 := p.val.extractLsb' 0 3
     let base := 0xF00000000000 + b * 0x100000
     ∃ u, exec (.l2amCtlWrite i gs1) s = .next u ∧
       (y.amCur.toNat ≤ want.toNat → RetiredTo [.bay] ((thr s (.core i)).pc + 4) (.core i) id s u ∧
         bay u b = { y with
           amSize := want, amBusy := decide (y.amCur.toNat < want.toNat), amLost := y.amLost && !p.val.getLsbD 8 }) ∧
       (want.toNat < y.amCur.toNat →
         RetiredTo [.bay, .mem, .poison] ((thr s (.core i)).pc + 4) (.core i) id s u ∧
         bay u b = { y with amSize := want, amCur := want, amBusy := false, amLost := y.amLost && !p.val.getLsbD 8 } ∧
         MemKept (base + want.toNat * 0x40000) ((y.amCur.toNat - want.toNat) * 0x40000) s u)) ∧
   (∀ (s : State) (b : Fin 40) (l : BitVec 42), (bay s b.val).amBusy = true → s.pw.fenced = false →
     (die s (dieOfBay b.val)).stalled = false →
     (bay s b.val).amCur.toNat ≤ (bay s b.val).amSize.toNat →
     let y := bay s b.val
     let base := 0xF00000000000 + b.val * 0x100000
     (linesInWays y y.amSize.toNat = [] →
       ∃ u, exec (.l2amStepDone b l .clean) s = .next u ∧ bay u b.val = { y with amBusy := false, amCur := y.amSize } ∧
         (∀ x, base + y.amCur.toNat * 0x40000 ≤ x → x < base + y.amSize.toNat * 0x40000 → readByte u x = 0) ∧
         MemKept (base + y.amCur.toNat * 0x40000) ((y.amSize.toNat - y.amCur.toNat) * 0x40000) s u ∧
         Keeps [.bay, .mem, .poison] s u) ∧
     (linesInWays y y.amSize.toNat ≠ [] → wbRoom y = false → exec (.l2amStepDone b l .clean) s = .next s)))

/-! ## Coherence -/

/-- R65, R241, R242, R247 and R249: every message of the protocol waits while its receiver's die is stalled, and is checked
against the sender's entry before it acts: one with another generation or site is discarded, counted and logged with both
generations, and so is one that carries an old generation of its receiver; one of a source that is DOWN is only counted;
nothing else changes.
Where it rests on the model's choices and inferences they are those of log entry 40. -/
def Obligations.MessageChecks : Prop :=
  ∀ (s : State) (m : CMsg) (x : Src) (k : CKind) (c : Instr) (f : CacheFind) (j : Fin 512) (op : AtomOp) (pa : BitVec 48)
    (dbl : Bool) (v w : Word), srcOfAgent m.src = some x →
    (k, c) ∈ [(CKind.rdS, Instr.rdS m f), (.rdX, .rdX m f), (.upg, .upg m f), (.rdZ, .rdZ m f), (.peek, .peek m f),
      (.cln, .cln m f), (.fls, .flsRequest m f), (.inv, .inv m f), (.hrd, .hrd m f), (.hwr, .hwr m f),
      (.hatm, .hatm m j op pa dbl v w f), (.fS, .fS m f), (.fX, .fX m f), (.fInv, .fInv m f), (.fCln, .fCln m f),
      (.fFls, .fFls m f), (.fDis, .fDis m f), (.ackInv, .ackInv m), (.ackF, .ackF m), (.missWb, .missWb m), (.nack, .nack m),
      (.defer, .defer m), (.grant, .grant m), (.done, .doneMsg m), (.wbAck, .wbAck m), (.dH, .dH m f), (.dF, .dF m f),
      (.dO, .dO m f), (.dP, .dP m), (.wbD, .wbD m f), (.wbC, .wbC m f)] →
    let e := srcEnt s x
    let stale := fun (old now : BitVec 16) => ∃ u l, exec c s = .next u ∧ u.net = netWithout k m s ∧
      u.stale = satInc s.stale ∧ u.wr.log.getLast? = some l ∧ l.type = 3 ∧ l.a.extractLsb' 32 16 = old ∧
      l.a.extractLsb' 48 16 = now ∧ Keeps [.net, .stale, .log] s u
    ((die s (dieOfAgent m.dst)).stalled = true → exec c s = .next s) ∧
    ((die s (dieOfAgent m.dst)).stalled = false →
      (e.gen ≠ m.gen ∨ siteOf s x ≠ m.site → s.wr.st ≠ .restarting → stale m.gen e.gen) ∧
      (e.gen = m.gen → siteOf s x = m.site → e.isOpen = true →
        (partOfAgent s m.dst = none ∨ partOfSrc s x = partOfAgent s m.dst) → s.wr.st ≠ .restarting →
        ∀ y, srcOfReceiver m.dst = some y → (∀ h, m.dst ≠ .home h) → (srcEnt s y).isOpen = true →
          (srcEnt s y).gen ≠ m.dgen → stale m.dgen (srcEnt s y).gen) ∧
      (e.gen = m.gen → siteOf s x = m.site → e.isOpen = false →
        ∃ u, exec c s = .next u ∧ u.net = netWithout k m s ∧ u.downDrop = satInc s.downDrop ∧ Keeps [.net, .downDrop] s u))

/-- What a request finds at the home of its line: nobody queued, no held write-back, room to begin a transaction, and a channel that serves the line (R348). -/
def Sys2Proof.Machine.AtHome (s : State) (m : CMsg) (h : Fin 40) : Prop :=
  Arrives m s ∧ m.dst = .home h ∧ homeOf s (lineAddr m.line) = some h.val ∧ inHand (slice s h.val) < 48 ∧
    (slice s h.val).rsv = [] ∧ (slice s h.val).wbBuf = [] ∧ lineServed s m.line = true

/-- An answer of a home to a requester, which announces the acknowledgements of some bays. -/
def Sys2Proof.Machine.fromHome (s : State) (h : Fin 40) (m : CMsg) (excl : Bool) (acks : BitVec 40) (data : BitVec 512)
    (poison : Bool) : CMsg :=
  { src := .home h, gen := 0, site := 0, dst := m.src, coll := m.src, line := m.line, excl := excl
    count := BitVec.ofNat 8 (popcount acks), data := data, poison := poison, mask := acks.setWidth 64
    dgen := (match srcOfReceiver m.src with | some y => (srcEnt s y).gen | none => 0), tag := m.tag, nt := m.nt }

/-- R191, R204, R223, R227, R232 and R237: requests for a line that no bay holds. RD_S makes a busy entry and sends the
data shared; PEEK and HRD send the data and change no entry; CLN, FLS and INV grant at once, with the line written back or,
for INV, put back to what DRAM held. No agent reads other bytes afterwards, INV apart.
R222, R223, R226 and R227: requests for exclusive use of a line that some bays hold shared. The other sharers are sent
F_INV with the requester as their collector, and the requester learns how many acknowledgements to expect: with the data
for RD_X, with a GRANT for UPG of a sharer and for RD_Z. A line that a bay owns is forwarded to its owner instead.
Where it rests on the model's choices and inferences they are those of log entries 14, 38 and 120. -/
def Obligations.HomeServes : Prop :=
  (∀ (s : State) (m : CMsg) (h : Fin 40), AtHome s m h → dirFind s h.val m.line = none →
     let data := fun (k : CKind) => (k, fromHome s h m false 0 (lineData s m.line) (homePoison s m.line))
     (∀ w, (wayKeys (llcSet m.line) 16).find? (fun k => (dirAt s h.val k).st = .I) = some w →
       (∀ k ∈ wayKeys (llcSet m.line) 16, evicting (dirAt s h.val k) = false) →
       ∃ u, exec (.rdS m .clean) s = .next u ∧ u.net = netWithout .rdS m s ++ [data .dH] ∧
         dirAt u h.val w = { DirE.reset with line := m.line, st := .BS, owner := BitVec.ofNat 6 (bayNum m.src)
                                             req := some (.rdS, m), since := s.time.now } ∧
         Keeps [.net, .slice, .old] s u) ∧
     (∃ u, exec (.peek m .clean) s = .next u ∧ u.net = netWithout .peek m s ++ [data .dP] ∧ Keeps [.net] s u) ∧
     (∃ u, exec (.hrd m .clean) s = .next u ∧ u.net = netWithout .hrd m s ++ [data .dH] ∧ (slice u h.val).dir = (slice s h.val).dir ∧
       Keeps [.net, .slice, .old] s u) ∧
     (∃ u, exec (.cln m .clean) s = .next u ∧ u.net = netWithout .cln m s ++ [(.grant, fromHome s h m false 0 0 false)] ∧
       isDirty u m.line = false ∧ Keeps [.net, .slice, .old] s u) ∧
     (∃ u, exec (.flsRequest m .clean) s = .next u ∧ u.net = netWithout .fls m s ++ [(.grant, fromHome s h m false 0 0 false)] ∧
       isDirty u m.line = false ∧ Keeps [.net, .slice, .old] s u) ∧
     (∃ u, exec (.inv m .clean) s = .next u ∧ u.net = netWithout .inv m s ++ [(.grant, fromHome s h m false 0 0 false)] ∧
       isDirty u m.line = false ∧
       (∀ v p, look none s.old m.line.toNat = some (v, p) → lineData u m.line = v ∧ isPoisoned u m.line = p) ∧
       MemKept (m.line.toNat * 64) 64 s u ∧ Keeps [.net, .slice, .old, .mem, .poison] s u)) ∧
  (∀ (s : State) (m : CMsg) (h : Fin 40) (b : Fin 40) (key : Nat), AtHome s m h → m.src = .bay b →
     dirFind s h.val m.line = some key →
     let d := dirAt s h.val key
     let others := d.sharers &&& ~~~(BitVec.twoPow 40 b.val)
     let invited := fun (u : State) => ∀ x : Fin 40, others.getLsbD x.val = true →
       ∃ f, (CKind.fInv, f) ∈ u.net ∧ f.dst = .bay x ∧ f.coll = .bay b ∧ f.line = m.line
     let busy := fun (u : State) (k : ReqKind) => (dirAt u h.val key).st = .BX ∧ (dirAt u h.val key).req = some (k, m) ∧
       (dirAt u h.val key).owner = BitVec.ofNat 6 b.val ∧ (∀ t, (thr u t).calm = (thr s t).calm) ∧
       Keeps [.thr, .net, .slice, .old, .bay, .eng] s u
     (d.st = .S →
       (∃ u, exec (.rdX m .clean) s = .next u ∧ invited u ∧ busy u .rdX ∧
         (CKind.dH, fromHome s h m true others (lineData s m.line) (homePoison s m.line)) ∈ u.net) ∧
       (d.sharers.getLsbD b.val = true → ∃ u, exec (.upg m .clean) s = .next u ∧ invited u ∧ busy u .upg ∧
         (CKind.grant, fromHome s h m false others 0 false) ∈ u.net) ∧
       (∃ u, exec (.rdZ m .clean) s = .next u ∧ invited u ∧ busy u .rdZ ∧
         (CKind.grant, fromHome s h m false others 0 false) ∈ u.net)) ∧
     (d.st = .X → ∀ o : Fin 40, d.owner = BitVec.ofNat 6 o.val →
       (∃ u, exec (.rdS m .clean) s = .next u ∧ (dirAt u h.val key).st = .BS ∧ Keeps [.net, .slice] s u ∧
         ∃ f, u.net = netWithout .rdS m s ++ [(.fS, f)] ∧ f.dst = .bay o ∧ f.coll = .bay b ∧ f.line = m.line) ∧
       (∃ u, exec (.rdX m .clean) s = .next u ∧ busy u .rdX ∧
         ∃ f, u.net = netWithout .rdX m s ++ [(.fX, f)] ∧ f.dst = .bay o ∧ f.coll = .bay b ∧ f.line = m.line)))

/-- R192, R215, R227 and R237: writes and atomics of engines at the home of a line no bay holds. HWR writes the bytes its
mask names and no others and is granted; HATM performs its operation on the line and answers with the old value (for STCND,
whether it stored).
Where it rests on the model's choices and inferences they are those of log entries 14 and 38. -/
def Obligations.HomeWrites : Prop :=
  ∀ (s : State) (m : CMsg) (h : Fin 40), AtHome s m h → dirFind s h.val m.line = none → m.poison = false →
    (∃ u, exec (.hwr m .clean) s = .next u ∧ u.net = netWithout .hwr m s ++ [(.grant, fromHome s h m false 0 0 false)] ∧
      (∀ i < 64, readByte u (m.line.toNat * 64 + i) =
        if m.mask.getLsbD i then m.data.extractLsb' (8 * i) 8 else readByte s (m.line.toNat * 64 + i)) ∧
      MemKept (m.line.toNat * 64) 64 s u ∧ (isDramLine m.line = true → isDirty u m.line = true) ∧
      Keeps [.thr, .net, .slice, .bay, .eng, .mem, .old, .poison] s u) ∧
    (∀ (t : Fin 512) (pa : BitVec 48) (dbl : Bool) (a b : Word), lineOf pa = m.line → pa.toNat % sizeOfDbl dbl = 0 →
      let old := atomOld s pa dbl
      let n := sizeOfDbl dbl
      let answer := fun (u : State) (v : Word) =>
        (u.net.getLast?).map (fun e => (e.1, e.2.dst, e.2.data.setWidth 64)) = some (CKind.dH, m.src, v)
      (∃ u, exec (.hatm m t .faa pa dbl a b .clean) s = .next u ∧ readBytes u pa.toNat n = bytesOf n (old + a) ∧
        MemKept pa.toNat n s u ∧ answer u old) ∧
      (∃ u, exec (.hatm m t .cas pa dbl a b .clean) s = .next u ∧
        readBytes u pa.toNat n = bytesOf n (if (if dbl then old = a else old.setWidth 32 = a.setWidth 32) then b else old) ∧
        MemKept pa.toNat n s u ∧ answer u old) ∧
      (∃ u, exec (.hatm m t .ldres pa dbl a b .clean) s = .next u ∧ (∀ x, readByte u x = readByte s x) ∧
        (∃ r, (thr u (.adze t)).resv = some r ∧ r.granule = granuleOf pa) ∧ answer u old) ∧
      (∃ u, exec (.hatm m t .stcnd pa dbl a b .clean) s = .next u ∧ (thr u (.adze t)).resv = none ∧
        ((∃ r, (thr s (.adze t)).resv = some r ∧ r.granule = granuleOf pa) →
          readBytes u pa.toNat n = bytesOf n a ∧ MemKept pa.toNat n s u ∧ answer u 0) ∧
        (¬ (∃ r, (thr s (.adze t)).resv = some r ∧ r.granule = granuleOf pa) →
          (∀ x, readByte u x = readByte s x) ∧ answer u 1)))

/-- What a bay needs to act on a forward at once: its own line, in no write-back, that no reservation holds (R176, R234). -/
def Sys2Proof.Machine.AtBay (s : State) (m : CMsg) (b : Fin 40) : Prop :=
  Arrives m s ∧ m.dst = .bay b ∧ (∀ w ∈ (bay s b.val).wb, w.line ≠ m.line) ∧
    (∀ c < 4, ∀ h ∈ (core s (4 * b.val + c)).hold, h.granule ≠ granuleOfLine m.line)

/-- R225, R226 and R227: forwards at a bay that owns the line. F_S and F_X send the data to the requester, F_S with dirty
data to the home as well; F_CLN and F_FLS answer the home, with the data where it is dirty; F_INV and F_DIS are
acknowledged to the collector, F_DIS with an owner's stores undone. The bay keeps the line shared after F_S, unwritten after F_CLN, and not at all otherwise.
Where it rests on the model's choices and inferences they are those of log entries 14 and 38. -/
def Obligations.Forwards : Prop :=
  ∀ (s : State) (m : CMsg) (b : Fin 40), AtBay s m b →
    let l := m.line
    let st := lineState (bay s b.val).l2 (l2Set l) l
    let after := fun (u : State) (x : Mesi) => lineState (bay u b.val).l2 (l2Set l) l = x ∧
      (∀ t, (thr u t).calm = (thr s t).calm) ∧ Keeps [.thr, .core, .bay, .slice, .eng, .net] s u
    let bad := isPoisoned s l || copyBad (bay s b.val).l2 (l2Set l) l
    (st = .E ∨ st = .M →
      (∃ u f, exec (.fS m .clean) s = .next u ∧ after u .S ∧ f.dst = m.coll ∧ f.excl = false ∧ f.data = lineData s l ∧
        f.poison = bad ∧ (st = .E → u.net = netWithout .fS m s ++ [(.dF, f)]) ∧
        (st = .M → ∃ g, u.net = netWithout .fS m s ++ [(.dF, f), (.dO, g)] ∧ g.dst = m.src ∧ g.data = lineData s l)) ∧
      (∃ u, exec (.fX m .clean) s = .next u ∧ after u .I ∧
        ∃ f, u.net = netWithout .fX m s ++ [(.dF, f)] ∧ f.dst = m.coll ∧ f.excl = true ∧ f.data = lineData s l ∧ f.poison = bad) ∧
      (∃ u, exec (.fCln m .clean) s = .next u ∧ after u .E ∧ ∃ k f, u.net = netWithout .fCln m s ++ [(k, f)] ∧ f.dst = m.src ∧
        (st = .M → k = .dO ∧ f.data = lineData s l) ∧ (st = .E → k = .ackF)) ∧
      (∃ u, exec (.fFls m .clean) s = .next u ∧ after u .I ∧ ∃ k f, u.net = netWithout .fFls m s ++ [(k, f)] ∧ f.dst = m.src ∧
        (st = .M → k = .dO ∧ f.data = lineData s l) ∧ (st = .E → k = .ackF))) ∧
    (∃ u, exec (.fInv m .clean) s = .next u ∧ after u .I ∧
      ∃ f, u.net = netWithout .fInv m s ++ [(.ackInv, f)] ∧ f.dst = m.coll ∧ f.line = l ∧ f.src = .bay b) ∧
    (∃ u, exec (.fDis m .clean) s = .next u ∧ lineState (bay u b.val).l2 (l2Set l) l = .I ∧
      (∀ t, (thr u t).calm = (thr s t).calm) ∧ Keeps [.thr, .core, .bay, .slice, .eng, .net, .mem, .old, .poison] s u ∧
      (st = .M → isDirty u l = false ∧ ∀ v p, look none s.old l.toNat = some (v, p) → lineData u l = v ∧ isPoisoned u l = p) ∧
      ∃ f, u.net = netWithout .fDis m s ++ [(.ackInv, f)] ∧ f.dst = m.coll ∧ f.line = l ∧ f.src = .bay b)

/-- R224, R233 to R236: answers at the home. An awaited bay that answers is awaited no more, and its dirty data stands in
the slice; the last answer to a clean grants it; DONE makes a read's entry S with the requester among the sharers and an
exclusive request's entry X with it as owner, without a bay whose WB_C came meanwhile; a write-back of the owner frees the entry, a notice of one sharer leaves the
others, and both are acknowledged; a bay that had a forward to answer and has crossed its write-back puts the entry into
BW.
Where it rests on the model's choices and inferences they are those of log entries 14 and 38. -/
def Obligations.HomeAnswers : Prop :=
  ∀ (s : State) (m : CMsg) (h b : Fin 40) (key : Nat), Arrives m s → m.dst = .home h → m.src = .bay b →
    dirFind s h.val m.line = some key → (slice s h.val).wbBuf = [] → (slice s h.val).rsv = [] →
    let d := dirAt s h.val key
    let bit := BitVec.twoPow 40 b.val
    (isBusy d.st = true → d.awaits.getLsbD b.val = true → d.awaits ≠ bit →
      (∃ u, exec (.ackF m) s = .next u ∧ u.net = netWithout .ackF m s ∧ Keeps [.net, .slice] s u ∧
        dirAt u h.val key = { d with awaits := d.awaits &&& ~~~bit, fwd := d.fwd &&& ~~~bit }) ∧
      (∃ u, exec (.ackInv m) s = .next u ∧ u.net = netWithout .ackInv m s ∧ Keeps [.net, .slice] s u ∧
        dirAt u h.val key = { d with awaits := d.awaits &&& ~~~bit, fwd := d.fwd &&& ~~~bit }) ∧
      (∃ u, exec (.dO m .clean) s = .next u ∧ u.net = netWithout .dO m s ∧ Keeps [.net, .slice, .old] s u ∧
        dirAt u h.val key = { d with awaits := d.awaits &&& ~~~bit, fwd := d.fwd &&& ~~~bit } ∧
        lineState (slice u h.val).llc (llcSet m.line) m.line = .M)) ∧
    (∀ r, isBusy d.st = true → d.awaits = bit → d.req = some (.cln, r) →
      ∃ u g, exec (.ackF m) s = .next u ∧ u.net = netWithout .ackF m s ++ [(.grant, g)] ∧ g.dst = r.src ∧ g.count = 0 ∧
        isDirty u d.line = false ∧ Keeps [.net, .slice, .old] s u) ∧
    (isBusy d.st = true → d.fwd.getLsbD b.val = true → ∃ u, exec (.missWb m) s = .next u ∧ u.net = netWithout .missWb m s ∧
      dirAt u h.val key = { d with
        st := .BW, wbOf := d.wbOf ||| bit, fwd := d.fwd &&& ~~~bit, since := s.time.now } ∧ Keeps [.net, .slice] s u) ∧
    (∀ r, d.owner = BitVec.ofNat 6 b.val → d.awaits = 0 →
      (d.st = .BS → d.req = some (.rdS, r) → ∃ u, exec (.doneMsg m) s = .next u ∧ u.net = netWithout .done m s ∧
        (let left := (d.sharers ||| bit) &&& ~~~d.gone
         dirAt u h.val key = if left = 0 then DirE.reset else
          { d with st := .S, owner := 0, sharers := left, req := none, fromX := false, awaits := 0, fwd := 0, gone := 0 }) ∧
        Keeps [.net, .slice] s u) ∧
      (d.st = .BX → d.req = some (.rdX, r) → ∃ u, exec (.doneMsg m) s = .next u ∧ u.net = netWithout .done m s ∧
        dirAt u h.val key = (if d.gone.getLsbD b.val then DirE.reset else
          { d with st := .X, sharers := 0, req := none, fromX := false, awaits := 0, fwd := 0, gone := 0 }) ∧
        Keeps [.net, .slice] s u)) ∧
    (d.st = .X → d.owner = BitVec.ofNat 6 b.val →
      ∃ u a, exec (.wbD m .clean) s = .next u ∧ u.net = netWithout .wbD m s ++ [(.wbAck, a)] ∧ a.dst = .bay b ∧
        a.line = m.line ∧ dirAt u h.val key = DirE.reset ∧
        lineState (slice u h.val).llc (llcSet m.line) m.line = .M ∧ Keeps [.net, .slice, .old] s u) ∧
    (d.st = .S → d.sharers &&& ~~~bit ≠ 0 →
      ∃ u a, exec (.wbC m .clean) s = .next u ∧ u.net = netWithout .wbC m s ++ [(.wbAck, a)] ∧ a.dst = .bay b ∧ a.line = m.line ∧
        dirAt u h.val key = { d with sharers := d.sharers &&& ~~~bit } ∧ Keeps [.net, .slice] s u)

/-- R126, R127, R224, R230 and R233: answers at the bay that made one request for the line. Acknowledgements and data are
collected until the announced number has come; NACK makes the request wait with its count, and the end of the gap sends it
again; data completes a read, with DONE to the home and the line in the L2; DEFER and D_P mark and fill the shim entries
that wait for the line; WB_ACK frees the write-back entry.
R237, R256 and R271: the home's answers to an engine: the data of HRD goes to the load's register and the thread goes
on; a GRANT of HWR ends the store.
Where it rests on the model's choices and inferences they are those of log entries 15, 16, 38 and 119. -/
def Obligations.RequestersAnswered : Prop :=
  (∀ (s : State) (m : CMsg) (b : Fin 40) (r : CReq), Arrives m s → m.dst = .bay b →
     (bay s b.val).reqs = [r] → r.line = m.line →
     let now := fun (k : CKind) (c : Instr) (r' : CReq) => ∃ u, exec c s = .next u ∧ u.net = netWithout k m s ∧
       bay u b.val = { bay s b.val with reqs := [r'] } ∧ (∀ t, (thr u t).calm = (thr s t).calm) ∧
       Keeps [.net, .bay, .thr, .wake] s u
     let finished := fun (u : State) => (bay u b.val).reqs = [] ∧
       ∃ d, (CKind.done, d) ∈ u.net ∧ d.src = .bay b ∧ d.dst = .home r.home ∧ d.line = m.line
     let who := match m.src with | .bay i => i.val | _ => bayNum m.coll
     let told := { r with need := some m.count, haveData := true, awaited := m.mask.setWidth 40 }
     (r.need = none → now .ackInv (.ackInv m) { r with got := r.got + 1, acked := setBit r.acked who true }) ∧
     (r.backoff = false → now .nack (.nack m) { r with nacks := m.count, backoff := true }) ∧
     (r.got.toNat < m.count.toNat →
       now .dH (.dH m .clean) { told with excl := m.excl, bad := m.poison } ∧
       now .grant (.grant m) { told with excl := decide (maintKind r.kind = none) }) ∧
     (r.kind = .rdS ∨ r.kind = .rdX ∨ r.kind = .upg → r.core = none →
       (m.count = r.got → ∃ u, exec (.dH m .clean) s = .next u ∧ finished u ∧
         lineState (bay u b.val).l2 (l2Set m.line) m.line ≠ .I ∧
         (m.excl = false → lineState (bay u b.val).l2 (l2Set m.line) m.line = .S) ∧ ∀ x, readByte u x = readByte s x) ∧
       (r.got = 0 → ∃ u, exec (.dF m .clean) s = .next u ∧ finished u ∧
         lineState (bay u b.val).l2 (l2Set m.line) m.line ≠ .I ∧ ∀ x, readByte u x = readByte s x)) ∧
     (∀ c : Fin 160, r.kind = .cln → r.core = some c → m.count = r.got →
       ∃ u, exec (.grant m) s = .next u ∧ finished u ∧ Keeps [.net, .bay, .thr] s u ∧
         ∀ i : Fin 640, i.val / 4 = c.val → (thr u (.core i)).outst =
           (thr s (.core i)).outst.filter (fun a => !(decide (a.kind = .cclean) && decide (lineOf a.pa = m.line)))) ∧
     (r.backoff = true → ∃ u q, exec (.nackRetryGapExpire (.bay b) m.line) s = .next u ∧
       u.net = s.net ++ [(reqMsg r.kind, q)] ∧ q.src = .bay b ∧ q.dst = .home r.home ∧ q.line = m.line ∧ q.count = r.nacks ∧ q.nt = r.nt ∧
       bay u b.val = { bay s b.val with reqs := [{ r with backoff := false, since := s.time.now }] } ∧ Keeps [.net, .bay] s u) ∧
     (let waits := fun (e : ShimE) => decide (e.line = m.line) && e.walk.isNone && !e.filled && !e.deferred
      (∃ u, exec (.dP m) s = .next u ∧ Keeps [.net, .core] s u ∧ ∀ c < 4, (core u (4 * b.val + c)).shim =
         (core s (4 * b.val + c)).shim.map (fun (e : ShimE) =>
           if waits e then { e with data := m.data, poison := m.poison || e.poison, filled := true } else e)) ∧
      (∃ u, exec (.defer m) s = .next u ∧ Keeps [.net, .core, .thr, .wake] s u ∧ ∀ c < 4, (core u (4 * b.val + c)).shim =
         (core s (4 * b.val + c)).shim.map (fun (e : ShimE) => if waits e then { e with deferred := true } else e))) ∧
     (∀ w, (bay s b.val).wb = [w] → w.line = m.line → ∃ u, exec (.wbAck m) s = .next u ∧ u.net = netWithout .wbAck m s ∧
       bay u b.val = { bay s b.val with wb := [] } ∧ Keeps [.net, .bay] s u)) ∧
  (∀ (s : State) (m : CMsg) (e : Fin 64) (j : Fin 512) (q : EReq) (a : Access), Arrives m s → m.dst = .engine e →
     s.ereqs = [q] → q.msg.src = .engine e → q.msg.line = m.line → q.msg.tag = m.tag → q.backoff = false → q.thr = j → (thr s (.adze j)).outst = [a] →
     a.id = q.id →
     (∀ d : Dest, q.kind = .hrd → a.split = false → a.dest = some d → d.isF = false → a.size ≤ 8 → a.poison = false →
       ∃ u, exec (.dH m .clean) s = .next u ∧ u.ereqs = [] ∧ u.net = netWithout .dH m s ∧
         let v := (m.data >>> (8 * (a.pa.toNat % 64))).setWidth 64 &&& BitVec.ofNat 64 (2 ^ (8 * a.size) - 1)
         (thr u (.adze j)).calm = (writeG d.reg ⟨if d.signed then sextN (8 * a.size) v else v, m.poison⟩ { thr s (.adze j) with
           outst := [], run := .running, pc := (thr s (.adze j)).pc + 4 }).calm ∧
         OthersCalm (.adze j) s u ∧ Keeps [.net, .ereqs, .thr, .wake] s u) ∧
     (q.kind = .hwr → ∃ u, exec (.grant m) s = .next u ∧ u.ereqs = [] ∧ u.net = netWithout .grant m s ∧
       thr u (.adze j) = { thr s (.adze j) with outst := [] } ∧ Keeps [.net, .ereqs, .thr] s u))

/-- R239 to R242, R187, R240 and R298: a coherence error takes its partition DOWN, in the report's own step: the cause is kept
and counted, every source of the partition is closed, its threads stop with nothing in their buffers, its readiness bit is
clear, and the threads of other partitions keep their registers. A timeout of the protocol is such an error with code 2: an
agent of the partition has waited for COH_CTL.TMO; the row changes nothing before. Both rows complete in every state.
Where it rests on the model's choices and inferences they are those of log entries 27 and 74. -/
def Obligations.PartitionDown : Prop :=
  (∀ (s : State) (p : Fin 8) (code : BitVec 8) (det : BitVec 6) (unit : Option Src) (a : Agent) (l : BitVec 42),
    (∃ u, exec (.coherenceErrorReport p code det unit) s = .next u) ∧ ∃ u, exec (.cohTimeout a l) s = .next u) ∧
  ∀ (s : State) (p : Fin 8) (code : BitVec 8) (det : BitVec 6) (unit : Option Src),
    (part s p.val).st = .active ∨ (part s p.val).st = .standby →
    (∀ b : Fin 40, (part s p.val).bays.getLsbD b.val = true → partOfBay s b.val = some p.val) →
    (∀ e : Fin 64, (part s p.val).engines.getLsbD e.val = true → partOfEngine s e.val = some p.val) →
    let down := fun (u : State) (code : BitVec 8) => (part u p.val).st = .down ∧ (part u p.val).cause = code ∧
      (part u p.val).downs = satInc (part s p.val).downs ∧ (part u p.val).started = false ∧ u.pw.ready.part.getLsbD p.val = false ∧
      (∀ b : Fin 40, (part s p.val).bays.getLsbD b.val = true → (srcEnt u (.bay b)).isOpen = false) ∧
      (∀ c : Fin 160, (part s p.val).bays.getLsbD (c.val / 4) = true → (srcEnt u (.core c)).isOpen = false) ∧
      (∀ e : Fin 64, (part s p.val).engines.getLsbD e.val = true → (srcEnt u (.engine e)).isOpen = false) ∧
      (∀ x, partOfSrc s x ≠ some p.val → srcEnt u x = srcEnt s x) ∧
      (∀ t, partOf s t = some p.val → (thr u t).g = (thr s t).g ∧ (thr u t).stores = [] ∧ (thr u t).outst = [] ∧
        (thr u t).resv = none ∧ ((thr s t).run ≠ .notStarted → (thr u t).run = .stopped)) ∧
      (∀ t, partOf s t ≠ some p.val → (thr u t).calm = (thr s t).calm)
    (∃ u, exec (.coherenceErrorReport p code det unit) s = .next u ∧ down u code) ∧
    (∀ (b : Fin 40) (r : CReq), (part s p.val).bays.getLsbD b.val = true → (bay s b.val).reqs = [r] → r.backoff = false →
      r.since.toNat + (part s p.val).cohTmo.toNat * 16000 ≤ s.time.now.toNat →
      ∃ u, exec (.cohTimeout (.bay b) r.line) s = .next u ∧ down u 2) ∧
    (∀ (a : Agent) (l : BitVec 42), partOfAgent s a = some p.val →
      ((∃ w ∈ waitsOf s a l, overdue s p.val w = true) → ∃ u, exec (.cohTimeout a l) s = .next u ∧ down u 2) ∧
      ((∀ w ∈ waitsOf s a l, overdue s p.val w = false) → exec (.cohTimeout a l) s = .next s))

/-! ## Partitions, engines, events and work items -/

/-- R242 to R247, R243, R244 and R246: salvage writes every dirty line of the partition's ranges back and sets it
RESTARTING, and no agent reads other bytes; the restart of a partition whose cause names no unit resets its threads,
discards its messages and opens its sources; a live sistering whose unit has drained moves the unit to the spare site with
its generation advanced and its threads' registers kept, and one that does not drain in COH_CTL.TMO, or whose later steps
report an error, takes the partition DOWN with code 7. The threads that solo mode parked stay so.
Where it rests on the model's choices and inferences they are those of log entries 14, 74 and 107. -/
def Obligations.PartitionRecovery : Prop :=
  ∀ (s : State) (p : Fin 8), s.wr.st = .serving → s.pw.fenced = false →
    (∀ b : Fin 40, (part s p.val).bays.getLsbD b.val = true → partOfBay s b.val = some p.val) →
    (∀ e : Fin 64, (part s p.val).engines.getLsbD e.val = true → partOfEngine s e.val = some p.val) →
    ((part s p.val).st = .down →
      ∃ u, exec (.partitionSalvage p [] []) s = .next u ∧
        part u p.val = { part s p.val with st := .restarting, salvaged := true } ∧
        (∀ l, inRanges s p.val l = true → isDirty u l = false) ∧ Keeps [.part, .old, .poison] s u) ∧
    ((part s p.val).st = .restarting → (part s p.val).salvaged = true → (part s p.val).hold = false →
      (part s p.val).cause = 0 → (part s p.val).bays ≠ 0 → (∀ d, (die s d).railDown = false) →
      ∃ u, exec (.partitionRestart p true) s = .next u ∧ (part u p.val).st = .restarting ∧ (part u p.val).salvaged = false ∧
        (∀ x ∈ sourcesOf s p.val, (srcEnt u x).isOpen = true ∧ (srcEnt u x).gen = (srcEnt s x).gen) ∧
        (∀ t, partOf s t = some p.val → (thr u t).calm = Thread.reset.calm) ∧
        (∀ t, partOf s t ≠ some p.val → (thr u t).calm = (thr s t).calm) ∧
        (∀ m ∈ u.net, partOfAgent s m.2.src ≠ some p.val ∧ partOfAgent s m.2.dst ≠ some p.val)) ∧
    (∀ (x : Src) (t0 : Nat), s.wr.sistering = [(x, t0)] → partOfSrc s x = some p.val → (part s p.val).st = .active →
      let late := t0 + 2 * cohTmoNs s p.val ≤ s.time.now.toNat
      (drained s x = true → ¬ late → (∀ b, x ≠ .bay b) →
        ∃ u, exec (.liveSisterDrained x false) s = .next u ∧ u.wr.sistering = [] ∧ (srcEnt u x).gen = (srcEnt s x).gen + 1 ∧
          (∀ c : Fin 160, x = .core c → siteOfCore u c.val = (bay s (c.val / 4)).spare ∧ (bay u (c.val / 4)).spare = 7) ∧
          (∀ e : Fin 64, x = .engine e → (engine u e.val).onSpare = true) ∧
          (∀ t ∈ thrsOfSrc x, (thr u t).g = (thr s t).g ∧ (thr u t).pc = (thr s t).pc ∧ (thr u t).parked = false ∧
            (thr u t).soloParked = (thr s t).soloParked ∧ (thr u t).resv = none) ∧
          (s.pw.routerHeld = [] → ∀ a, readByte u a = readByte s a)) ∧
      (drained s x = true → ∀ failed, failed = true ∨ late → ∃ u, exec (.liveSisterDrained x failed) s = .next u ∧
        u.wr.sistering = [] ∧ (part u p.val).st = .down ∧ (part u p.val).cause = 7) ∧
      (late ∨ (drained s x = false ∧ t0 + cohTmoNs s p.val ≤ s.time.now.toNat) →
        ∃ u, exec (.sisterStepTimeout x) s = .next u ∧ u.wr.sistering = [] ∧ (part u p.val).st = .down ∧
          (part u p.val).cause = 7))

/-- R265, R266 and R279: ADZ_RUN starts each thread written 1 that has not started, at M from its reset values at START;
ADZ_SCR_CTL takes its fields and a write that would put the buffers past the scratch changes nothing; the scrubber, 2 µs
of TIME after its last read, reads one line, counts what it finds and moves on; any other access that reads a line with an
error counts and marks it the same way.
Where it rests on the model's choices and inferences they are those of log entries 20 and 35. -/
def Obligations.EngineRegisters : Prop :=
  ∀ (s : State) (e : Fin 64), mainOn s = true → (die s (dieOfEngine e.val)).stalled = false →
    let x := engine s e.val
    (∀ v : Word, (srcEnt s (.engine e)).isOpen = true → x.outOfService = false → (cluster s (e.val / 4)).powered = true →
      ∃ u, exec (.adzRunWrite e v) s = .next u ∧ engine u e.val = { x with start := v.extractLsb' 16 16 } ∧
        (∀ j : Fin 512, thr u (.adze j) =
          if j.val / 8 = e.val ∧ v.getLsbD (j.val % 8) = true ∧ (thr s (.adze j)).run = .notStarted then
            { Thread.reset with run := .running
                                pc := (BitVec.ofNat 48 (scratchBase e.val + (v.extractLsb' 16 16).toNat * 4)).signExtend 64 }
          else thr s (.adze j)) ∧
        (∀ i, thr u (.core i) = thr s (.core i)) ∧ Keeps [.thr, .eng] s u) ∧
    (∀ v : Word, (v.extractLsb' 8 3).toNat ≤ 4 →
      let fits := (v.extractLsb' 0 8).toNat * 1024 + 8 * (2 ^ (v.extractLsb' 8 3).toNat * 256) ≤ 0x40000
      ∃ u, exec (.adzScrCtlWrite e v) s = .next u ∧ Keeps [.eng] s u ∧ (∀ k, k ≠ e.val → engine u k = engine s k) ∧
        (fits → engine u e.val = { x with
          ibufBase := v.extractLsb' 0 8, ibufSize := v.extractLsb' 8 3, scrubEn := v.getLsbD 12, lost := x.lost && !v.getLsbD 13 }) ∧
        (¬ fits → engine u e.val = x)) ∧
    ((cluster s (e.val / 4)).powered = true → ∀ (line : Option (BitVec 12)),
      (line = none → x.scrubEn = true ∧ x.scrubT.toNat + 2000 ≤ s.time.now.toNat) →
      let l := line.getD x.scrubPtr
      let y := if line = none then { x with scrubPtr := x.scrubPtr + 1, scrubT := s.time.now } else x
      (∃ u, exec (.scratchScrub e line .clean) s = .next u ∧ engine u e.val = y ∧ Keeps [.eng] s u) ∧
      (∃ u, exec (.scratchScrub e line .single) s = .next u ∧ Keeps [.eng] s u ∧ engine u e.val = { y with ce := satInc x.ce }) ∧
      (∃ u, exec (.scratchScrub e line .double) s = .next u ∧ Keeps [.eng, .poison, .log, .thr, .wake] s u ∧
        engine u e.val = { y with ue := satInc x.ue, lastUe := BitVec.ofNat 18 (l.toNat * 64) } ∧
        isPoisoned u (lineOf (BitVec.ofNat 48 (scratchBase e.val + l.toNat * 64))) = true))

/-- R310 to R313, R316, R320 to R323: an event with room in its lane is taken by the event logic with the lane's OVF mark;
EV_INJECT makes one from its fields; a timer that TIME has reached is cleared and sends TIMER; the write of a record puts
its 16 bytes in the lane's next slot, advances HEAD, acknowledges the store that carried the event and ends a doze; a held
DISPATCH goes once its lane has room.
R311, R316, R321 and R323: EVQ_CTL takes EN only where the queue lies in a place the table allows, and turning it on
empties every lane and keeps the lanes' pending OVF marks; SIZE keeps its value while EN is 1; a record being written when EN becomes 0 is written first; EVQ_TAIL is
taken unless it would pass HEAD; a store to EV_SEND gives its target's event logic an EVENT record of that priority and
stays outstanding until the record is written.
Where it rests on the model's choices and inferences they are those of log entries 7 and 52. -/
def Obligations.Events : Prop :=
  (∀ (s : State) (t : Thr),
     let th := thr s t
     let e := th.ev
     let taken := fun (r : EvRec) => { e with
       writing := e.writing ++ [{ r with ovf := e.lostLanes.getLsbD r.prio.toNat }]
       lostLanes := setBit e.lostLanes r.prio.toNat false }
     let only := fun (u : State) (e' : EvState) => thr u t = { th with ev := e' } ∧ (∀ x, x ≠ t → thr u x = thr s x) ∧ Keeps [.thr] s u
     (∀ gs1 : BitVec 5, MayMts s t gs1 →
       let v := (readG th gs1).val
       let p : BitVec 4 := v.extractLsb' 8 4
       let known := 1 ≤ (v.extractLsb' 0 8).toNat ∧ (v.extractLsb' 0 8).toNat ≤ 8
       (known → e.en = true → laneFull e p.toNat = false → ∃ u, exec (.evInjectWrite t gs1) s = .next u ∧ EventsLeft t
         (taken ⟨v.extractLsb' 0 8, p, true, false, v.extractLsb' 16 16, s.time.now.setWidth 32, e.injData, none⟩) s u) ∧
       (known → e.en = true → laneFull e p.toNat = true → ∃ u, exec (.evInjectWrite t gs1) s = .next u ∧
         EventsLeft t { e with ovf := satInc e.ovf, lostLanes := setBit e.lostLanes p.toNat true } s u) ∧
       (known → e.en = false → ∃ u, exec (.evInjectWrite t gs1) s = .next u ∧ EventsLeft t { e with noq := satInc e.noq } s u) ∧
       (¬ known → ∃ u, exec (.evInjectWrite t gs1) s = .next u ∧ EventsLeft t e s u)) ∧
     (e.timer ≠ 0 → e.timer.toNat ≤ s.time.now.toNat → th.run ≠ .notStarted → mainOn s = true → evDiscards s t = false →
       sisterHeld s t = false → domainDown s t = false →
       (e.en = true → laneFull e e.tprio.toNat = false → ∃ u, exec (.timerFire t) s = .next u ∧
         only u { taken ⟨3, e.tprio, false, false, 0, s.time.now.setWidth 32, s.time.now, none⟩ with timer := 0 }) ∧
       (e.en = false → ∃ u, exec (.timerFire t) s = .next u ∧ only u { e with timer := 0, noq := satInc e.noq })) ∧
     (∀ r rest, e.writing = r :: rest → evDiscards s t = false → sisterHeld s t = false → domainDown s t = false →
       let p := r.prio.toNat
       let n := look 0 e.head p
       let pa : BitVec 48 := BitVec.ofNat 48 (laneSlot e p n.toNat)
       let a := pa.toNat
       NoneQueued s pa 16 →
       ∃ u, exec (.eventRecordWritten t) s = .next u ∧
         readBytes u a 16 = bytesOf 8 (recWord0 r) ++ bytesOf 8 r.payload ∧ MemKept a 16 s u ∧
         (∀ k id x, r.sender = some (k, id) → thrOfKey k = some x →
           (thr u x).outst = removeFirst (fun b => decide (b.id = id)) (thr s x).outst) ∧
         (thr u t).ev = { e with writing := rest, head := put 0 e.head p (n + 1) } ∧
         (thr u t).g = th.g ∧ (thr u t).pc = th.pc ∧
         (look 0 e.tail p ≠ n + 1 → (thr u t).run = if th.run = .dozing then .running else th.run) ∧
         (∀ x, x ≠ t → (∀ k id, r.sender = some (k, id) → thrOfKey k ≠ some x) → (thr u x).calm = (thr s x).calm) ∧
         Keeps hubPieces s u) ∧
     (∀ r, e.held = some r → e.en = true → laneFull e r.prio.toNat = false → domainDown s t = false →
       sisterHeld s t = false → evDiscards s t = false →
       ∃ u, exec (.heldDispatchRelease t) s = .next u ∧ only u { taken r with held := none })) ∧
  ((∀ (s : State) (t : Thr) (gs1 : BitVec 5), MayMts s t gs1 →
     let e := (thr s t).ev
     let v := (readG (thr s t) gs1).val
     let want : BitVec 4 := v.extractLsb' 4 4
     let fields := { e with tprio := v.extractLsb' 8 4, cprio := v.extractLsb' 12 4 }
     (e.en = false → 2 ≤ want.toNat → want.toNat ≤ 8 →
       let ok := queuePlaceOk s t (e.base.toNat * 64) (16 * 2 ^ want.toNat * 16)
       (v.getLsbD 0 = true ∧ ok = true → ∃ u, exec (.evqCtlWrite t gs1) s = .next u ∧
         EventsLeft t { fields with en := true, size := want, head := [], tail := [] } s u) ∧
       (¬ (v.getLsbD 0 = true ∧ ok = true) → e.writing = [] → ∃ u, exec (.evqCtlWrite t gs1) s = .next u ∧
         EventsLeft t { fields with en := false, size := want } s u)) ∧
     (e.en = true → (v.getLsbD 0 = true ∨ e.writing = []) → ∃ u, exec (.evqCtlWrite t gs1) s = .next u ∧
       EventsLeft t { fields with en := v.getLsbD 0 } s u) ∧
     (∀ r, e.en = true → v.getLsbD 0 = false → e.writing = [r] →
       let p := r.prio.toNat
       let n := look 0 e.head p
       let pa : BitVec 48 := BitVec.ofNat 48 (laneSlot e p n.toNat)
       NoneQueued s pa 16 → ∃ u, exec (.evqCtlWrite t gs1) s = .next u ∧
         readBytes u pa.toNat 16 = bytesOf 8 (recWord0 r) ++ bytesOf 8 r.payload ∧ MemKept pa.toNat 16 s u ∧
         (thr u t).ev.en = false ∧ look 0 (thr u t).ev.head p = n + 1 ∧ (thr u t).pc = (thr s t).pc + 4 ∧
         Keeps (.wake :: hubPieces) s u) ∧
     (∀ p : Fin 16,
       let n : BitVec 16 := v.extractLsb' 0 16
       let tail := look 0 e.tail p.val
       let room := (look 0 e.head p.val - tail).toNat
       ((n - tail).toNat ≤ room → ∃ u, exec (.evqTailWrite t p gs1) s = .next u ∧
         EventsLeft t { e with tail := put 0 e.tail p.val n } s u) ∧
       (room < (n - tail).toNat → ∃ u, exec (.evqTailWrite t p gs1) s = .next u ∧ EventsLeft t e s u))) ∧
   (∀ (s : State) (t y : Thr) (p : Nat) (gen : BitVec 16) (site : BitVec 7) (v : Word),
     checkSrc s (srcOfThr t) gen site none = .good →
     thrOfIndex (v.extractLsb' 0 10).toNat (v.getLsbD 10) = some y → partOf s t = some p → partOf s y = some p →
     (part s p).st = .active → s.pw.fenced = false → (thr s y).run = .running → domainDown s y = false →
     sisterHeld s y = false → (thr s y).ev.en = true → laneFull (thr s y).ev (v.extractLsb' 12 4).toNat = false →
     let e := (thr s y).ev
     let k := (v.extractLsb' 12 4).toNat
     let by' := carrying s t (evSendPa (dieOfThr t)) v
     let r : EvRec := ⟨2, v.extractLsb' 12 4, false, e.lostLanes.getLsbD k,
       (BitVec.ofBool (isAdze t) ++ BitVec.ofNat 10 (thrIx t)).setWidth 16, s.time.now.setWidth 32, (v.extractLsb' 16 48).setWidth 64,
       by'.map (fun a => (thrKey t, a.id))⟩
     ∃ u, exec (.evSendWrite t gen site v true) s = .next u ∧ Keeps [.thr] s u ∧
       ∀ x, thr u x = { thr s x with
         ev := if x = y then { e with writing := e.writing ++ [r], lostLanes := setBit e.lostLanes k false } else (thr s x).ev
         outst := if x = t then (thr s x).outst.map (fun a => if by'.map (·.id) = some a.id then { a with sent := true } else a)
           else (thr s x).outst }))

/-- What an ingress write must meet to make an item: the queue's checks of R286 all pass, and an entry is free. -/
def Sys2Proof.Machine.Admitted (s : State) (i : Fin 256) (slot : Fin 256) (vc1 : Bool) (q : Fin 1024) (e : Nat) : Prop :=
  let x := queue s q.val
  pagesServed s = true ∧ look none (inst s i.val).qmap slot.val = some q ∧
    (vc1 = true → s.ep.cfg.vc1En = true ∧ x.cls = 0) ∧ x.en = true ∧ x.inst.toNat = i.val ∧ x.quenched = false ∧
    s.ep.frozen = false ∧ s.pw.quiesce = false ∧ s.pw.fenced = false ∧ s.pw.flush = none ∧ s.pw.bringing = false ∧
    heldOf s q.val + 1 ≤ x.quota.toNat ∧ freeSlot s = some e

/-- R284 to R286, R300, R382 and R373: a doorbell that moves PI by one, and an inline item with the queue's next sequence
number, make an item in the lowest free entry, QUEUED, with the queue's class and the TIME; AI advances by one. A refused
one makes none, and the queue keeps the reason and counts it; an unmapped slot counts in its instance.
Where it rests on the model's choices and inferences they are those of log entries 7, 49 and 77. -/
def Obligations.Ingress : Prop :=
  ∀ (s : State) (i slot : Fin 256) (vc1 : Bool),
    (∀ (q : Fin 1024) (e : Nat), Admitted s i slot vc1 q e →
      let x := queue s q.val
      let item := { Entry.reset with
        st := .queued, queue := q, seq := x.ai, cls := x.cls, etag := (entry s e).etag + 1, tAccept := s.time.now
        qlimit := x.qlimit, isInline := x.inlineMode }
      let made := fun (u : State) (it : Entry) => entry u e = it ∧ (∀ k, k ≠ e → entry u k = entry s k) ∧
        queue u q.val = { x with ai := x.ai + 1 } ∧ (∀ k, k ≠ q.val → queue u k = queue s k) ∧ Keeps [.bw, .led, .queue] s u
      (x.inlineMode = false →
        ∃ u, exec (.doorbell i slot ((x.ai + 1).setWidth 64) true vc1) s = .next u ∧ made u item) ∧
      (x.inlineMode = true → ∀ v : BitVec 512, v.extractLsb' 0 32 = x.ai → v.extractLsb' 46 18 = 0 →
        (v.extractLsb' 40 6).toNat ≤ 56 → ∃ u, exec (.inlineItem i slot v true vc1) s = .next u ∧
          made u { item with desc := bytesOfNat 64 v.toNat, dataLen := some (v.extractLsb' 40 6).toNat })) ∧
    (∀ (q : Fin 1024) (v : Word), pagesServed s = true → look none (inst s i.val).qmap slot.val = some q → vc1 = false →
      (queue s q.val).en = false ∨ (queue s q.val).inst.toNat ≠ i.val ∨ (queue s q.val).inlineMode = true →
      ∃ u, exec (.doorbell i slot v true vc1) s = .next u ∧ Keeps [.bw, .queue] s u ∧ queue u q.val = { queue s q.val with
        lastReason := 1, lastValue := v.extractLsb' 0 32, refused := satInc (queue s q.val).refused }) ∧
    (∀ v : Word, pagesServed s = true → look none (inst s i.val).qmap slot.val = none → vc1 = false →
      ∃ u, exec (.doorbell i slot v true vc1) s = .next u ∧ Keeps [.bw, .inst] s u ∧
        inst u i.val = { inst s i.val with unmapped := satInc (inst s i.val).unmapped })

/-- R289, R292, R293, R294 and R369: the way of an item to its thread. The dispatcher takes the first class with a waiting
item and reserves the thread for its entry; a descriptor that passes its checks is kept and one that fails ends the item
with cause 8; with its data the item's buffer write begins, and once written the buffer holds the head and the data, and
the thread owns the item.
Where it rests on the model's choices and inferences they are those of log entries 49 and 51. -/
def Obligations.Dispatch : Prop :=
  (∀ (s : State) (p : Fin 8) (c q : Nat) (e : Fin 65536) (t : Thr), mayDispatch s p.val = true → c < 4 →
    classOpen s p.val c = true → candidates s p.val c = [(q, e.val, t)] → (∀ k < c, candidates s p.val k = []) →
    (entry s e.val).isInline = true → bufOk s t = true →
    ∃ u, exec (.dispatchSelect p) s = .next u ∧ entry u e.val = { entry s e.val with
        st := .fetch, resv := some t, cls := BitVec.ofNat 2 c, descOk := true, writing := true } ∧
      (∀ k, k ≠ e.val → entry u k = entry s k) ∧ Keeps [.part, .led, .pw] s u) ∧
  (∀ (s : State) (e : Fin 65536) (t : Thr),
    let x := entry s e.val
    let len := descLen x
    let i := inst s (queue s x.queue.val).inst.toNat
    x.st = .fetch → x.isInline = false → x.resv = some t →
    (x.descOk = false → readsDone s e.val = true → 64 ≤ x.desc.length →
      (∀ d, descFault x = some d → ∃ u, exec (.descriptorReadDone e) s = .next u ∧ (entry u e.val).st = .closing ∧
        (entry u e.val).fail = true ∧ (entry u e.val).cause = 8 ∧ (entry u e.val).detail = d ∧ Keeps [.led, .ep, .pw] s u) ∧
      (descFault x = none → len ≤ dataArea s t → (len = 0 ∨ dmaOk i (descWord x 8).toNat len = true) →
        (descResEn x = false ∨ resMax x = 0 ∨ dmaOk i (descWord x 0x18).toNat (resMax x) = true) → headOf s = .here →
        ∃ u, exec (.descriptorReadDone e) s = .next u ∧
          entry u e.val = { x with descOk := true, dataLen := some len, data := [] } ∧ Keeps [.led, .ep, .out] s u)) ∧
    (x.descOk = true → x.writing = false → readsDone s e.val = true → x.dataLen.getD 0 ≤ x.data.length → bufOk s t = true →
      ∃ u, exec (.itemDataReadDone e) s = .next u ∧ entry u e.val = { x with writing := true } ∧ Keeps [.led] s u)) ∧
  (∀ (s : State) (e : Fin 65536) (t : Thr),
    let x := entry s e.val
    let a := bufAddr s t
    let own := srcEnt s (srcOfThr t)
    x.st = .fetch → x.resv = some t → x.writing = true → x.dataLen.getD 0 ≤ 4032 →
    NoneQueued s (BitVec.ofNat 48 a) (64 + x.dataLen.getD 0) →
    (isDramLine (lineOf (BitVec.ofNat 48 a)) = false ∨ lineServed s (lineOf (BitVec.ofNat 48 a)) = true) →
    (∃ u, exec (.itemBufferWritten e none) s = .next u ∧
      readBytes u a (64 + x.dataLen.getD 0) = bufferBytes e.val x ∧ MemKept a (64 + x.dataLen.getD 0) s u ∧
      (entry u e.val).st = .owned ∧ (entry u e.val).owner = some t ∧ (entry u e.val).gen = own.gen ∧
      (entry u e.val).tOwned = s.time.now ∧ (entry u e.val).resv = none ∧ heldEntry u t = some (e.val, x.etag) ∧
      (∀ y, (thr u y).g = (thr s y).g ∧ (thr u y).pc = (thr s y).pc)) ∧
    (∀ c, ∃ u, exec (.itemBufferWritten e (some c)) s = .next u ∧ (entry u e.val).st = .closing ∧
      (entry u e.val).cause = 0x0A ∧ (entry u e.val).detail = (causeCode c).setWidth 8 ∧ (entry u e.val).fail = true))

/-- R296 to R302: the ends of an item. ITEM_DONE of the thread that owns the entry closes it with its code and the result
bytes of its data area; one that names no item of its thread is only counted; the limits end an item with causes 6 and 7;
the record of a closed item goes to the host's completion slot, the entry is free and the queue's counts follow.
Where it rests on the model's choices and inferences they are those of log entries 49, 50 and 51. -/
def Obligations.ItemEnds : Prop :=
  (∀ (s : State) (t : Thr) (v : Word),
    let y := srcEnt s (srcOfThr t)
    let e := (v.extractLsb' 0 16).toNat
    let x := entry s e
    let len := Nat.min (v.extractLsb' 36 12).toNat (resMax x)
    y.isOpen = true → (thr s t).lostPending = 0 → carrying s t (itemDonePa (dieOfThr t)) v = none →
    (x.st = .owned → x.owner = some t → x.etag = v.extractLsb' 16 16 →
      ∃ u, exec (.itemDone t y.gen (siteOf s (srcOfThr t)) v true) s = .next u ∧
        (entry u e).st = .closing ∧ (entry u e).lastStep = 7 ∧ (entry u e).code = v.extractLsb' 48 16 ∧
        (entry u e).fail = v.getLsbD 32 ∧ (entry u e).cause = (if v.getLsbD 32 then 1 else 0) ∧
        (entry u e).resLen = BitVec.ofNat 16 len ∧ (entry u e).result = readBytes s (bufAddr s t + 64) len ∧
        (entry u e).trunc = decide (resMax x < (v.extractLsb' 36 12).toNat) ∧ (entry u e).tEnd = s.time.now ∧
        heldEntry u t = none ∧ Keeps [.core, .bay, .slice, .old, .led, .ep, .pw] s u) ∧
    (x.st ≠ .owned → heldEntry s t ≠ some (e, v.extractLsb' 16 16) →
      ∃ u, exec (.itemDone t y.gen (siteOf s (srcOfThr t)) v true) s = .next u ∧ u.led.late = satInc s.led.late ∧
        u.led.ent = s.led.ent ∧ Keeps [.led] s u)) ∧
  (∀ (s : State) (e : Fin 65536) (n : Nat),
    let x := entry s e.val
    let ended := fun (u : State) (cause : BitVec 8) => (entry u e.val).st = .closing ∧ (entry u e.val).fail = true ∧
      (entry u e.val).cause = cause ∧ (entry u e.val).lastStep = stepOf x ∧ (entry u e.val).tEnd = s.time.now ∧
      (∀ k, k ≠ e.val → entry u k = entry s k) ∧ Keeps [.led, .ep, .pw] s u
    (limitNs x.rlimit = some n → x.st = .owned → x.tOwned.toNat + n ≤ s.time.now.toNat →
      ∃ u, exec (.runLimitExpire e) s = .next u ∧ ended u 6) ∧
    (limitNs x.qlimit = some n → x.st = .queued → x.tAccept.toNat + n ≤ s.time.now.toNat →
      ∃ u, exec (.queueWaitExpire e) s = .next u ∧ ended u 7)) ∧
  (∀ (s : State) (e : Fin 65536),
    let x := entry s e.val
    let q := queue s x.queue.val
    x.st = .closing → q.armed = true → deliveryOver s = false → x.recSent = false → x.dwrWait = 0 → earlierHeld s e.val = false →
    headOf s = .here → mayIssue s = true →
    ∃ u, exec (.recordDelivery e) s = .next u ∧ entry u e.val = { Entry.reset with etag := x.etag } ∧
      Out.hostWrite (BitVec.ofNat 64 (cplAddr q x.seq)) (recordBytes s x) false (reqAttr s (onVc1 s x.cls) false) ∈ u.out ∧
      (queue u x.queue.val).delivered = q.delivered + 1 ∧ (queue u x.queue.val).floor = floorOf u x.queue.val ∧
      Keeps [.led, .queue, .inst, .bw, .out, .pba, .fresh] s u)

/-! ## DRAM -/

/-- R333 to R335, R340 to R345, R347 to R351: the controller's events. A read opens its row, a peek leaves the bank as it
found it; what a read finds is counted, logged and, where nothing corrects it, poisons the line, and what a peek finds is
not counted; the poison pattern makes no new event; a bank under soft repair, and the line at the pointer of a sweep, let both wait; a write puts the line's bytes
and poison into DRAM, and where a cache holds newer data agents go on reading that; rows close; the patrol opens the row of the line it reads and goes on at its even rate; a
fifth failed retry retires the channel, whose dirty lines are then poisoned; a sweep's pointer advances and finished work ends, with the channel ready;
training and resilvering make it ready.
Where it rests on the model's choices and inferences they are those of log entries 7, 14, 41, 42 and 106. -/
def Obligations.Dram : Prop :=
  ∀ (s : State) (c : Fin 16),
    let k := chan s c.val
    let only := fun (u : State) (k' : Chan) (extra : List Piece) => chan u c.val = k' ∧ (∀ j, j ≠ c.val → chan u j = chan s j) ∧
      Keeps (.chan :: extra) s u
    let idle := if k.st = 3 ∨ k.st = 5 then 2 else k.st
    (∀ (line : BitVec 42) (x : Loc), locOfLine s line = some x → onChan x c.val = true → chanLive s c.val = true →
      chanReads s c.val = true →
      let row : BitVec 18 := BitVec.ofNat 18 x.row
      let was := look none k.rows (bankKey x)
      let opened := { k with rows := put none k.rows (bankKey x) (some row) }
      let inDram := match look none s.old line.toNat with | some v => v.2 | none => isPoisoned s line
      let waits := bankHeld s c.val x || atPointer s c.val x
      (waits = true → ∀ found peek, exec (.dramRead c line found peek) s = .next s) ∧
      (waits = false → x.mirror = false →
        (inDram = false → ∃ u, exec (.dramRead c line .clean false) s = .next u ∧ only u opened [.bw]) ∧
        (inDram = true → ∃ u, exec (.dramRead c line .clean false) s = .next u ∧ (chan u c.val).elLine = line ∧
          (chan u c.val).elUe = false ∧ (chan u c.val).ce = k.ce ∧ Keeps [.chan, .bw, .log, .fresh] s u) ∧
        (was = none ∨ was = some row → ∀ found, (∀ dev, found ≠ .uncorrectable dev) →
          ∃ u, exec (.dramRead c line found true) s = .next u ∧ only u k [.bw, .core]) ∧
        (∀ r, was = some r → r ≠ row → exec (.dramRead c line .clean true) s = .next s) ∧
        (∀ dev, ∃ u, exec (.dramRead c line (.corrected dev) false) s = .next u ∧ (chan u c.val).ce = satInc k.ce ∧
          (chan u c.val).elLine = line ∧ (chan u c.val).elDevice = dev ∧ (chan u c.val).elUe = false ∧
          ∀ a, readByte u a = readByte s a) ∧
        (∀ dev, isPoisoned s line = false → isDirty s line = false →
          ∃ u, exec (.dramRead c line (.uncorrectable dev) false) s = .next u ∧ (chan u c.val).ue = satInc k.ue ∧
            (chan u c.val).elLine = line ∧ (chan u c.val).elUe = true ∧ isPoisoned u line = true)) ∧
      (waits = true → ∀ data poison, exec (.dramWrite c line data poison) s = .next s) ∧
      (waits = false → ∀ (data : BitVec 512) (poison : Bool),
        (isDirty s line = false → ∃ u, exec (.dramWrite c line data poison) s = .next u ∧
          lineData u line = data ∧ isPoisoned u line = poison ∧ MemKept (line.toNat * 64) 64 s u ∧ only u opened [.bw, .mem, .poison]) ∧
        (isDirty s line = true → ∃ u, exec (.dramWrite c line data poison) s = .next u ∧ only u opened [.bw, .old] ∧
          (data = lineData s line → poison = isPoisoned s line → isDirty u line = false) ∧
          (data ≠ lineData s line → look none u.old line.toNat = some (data, poison))))) ∧
    (∀ (line : BitVec 42) (x : Loc) (data : BitVec 512) (poison : Bool), locOfLine s line = some x → onChan x c.val = true →
      k.st = 4 → clockStopped s (.ddr c) = false → ∃ u, exec (.dramWrite c line data poison) s = .next u ∧ only u { k with wbLost := satInc k.wbLost } []) ∧
    (∀ rank bg ba, ∃ u, exec (.rowIdleClose c rank bg ba) s = .next u ∧
      only u { k with rows := put none k.rows (rank.toNat * 16 + bg.toNat * 4 + ba.toNat) none } []) ∧
    (chanLive s c.val = true →
      (∃ u, exec (.refresh c) s = .next u ∧ only u { k with rows := [] } []) ∧
      (k.scrubEn = true → patrolDue s c.val = true → chanReads s c.val = true → patrolWaits s c.val = false → ∀ mate,
        let went := { k with patrolPtr := patrolNext s c.val, patrolT := s.time.now }
        let pa := paOfChan s c.val (k.patrolPtr.toNat * 64)
        (pa = none → ∃ u, exec (.patrolScrub c .clean mate) s = .next u ∧ only u went [.bw]) ∧
        ∀ a x, pa = some a → locOfLine s (BitVec.ofNat 42 (a / 64)) = some x → s.old = [] → s.poison = [] →
          ∃ u, exec (.patrolScrub c .clean mate) s = .next u ∧
            only u { went with rows := put none k.rows (bankKey x) (some (BitVec.ofNat 18 x.row)) } [.bw]) ∧
      (∀ (line : BitVec 42) (n : Fin 6),
        (n.val ≤ 4 → ∃ u, exec (.caParityAlert c line n) s = .next u ∧ (chan u c.val).ce = satInc k.ce ∧
          (chan u c.val).st = k.st ∧ Keeps [.chan, .log, .fresh] s u ∧
          ∀ x, locOfLine s line = some x → (chan u c.val).elLine = line ∧ (chan u c.val).elUe = false) ∧
        (n.val = 5 → ∃ u, exec (.caParityAlert c line n) s = .next u ∧ (chan u c.val).st = 4 ∧
          (chan u c.val).ce = satInc k.ce))) ∧
    (∀ upTo : BitVec 42,
      let on := { k with sweep := if k.sweep.toNat < upTo.toNat then upTo else k.sweep }
      let sweeps := fun (c' : Instr) => upTo.toNat < chanGib s c.val * 2 ^ 24 → ∃ u, exec c' s = .next u ∧ only u on []
      let finished := chanGib s c.val * 2 ^ 24 ≤ upTo.toNat
      let ended := { on with job := none, st := idle }
      (∀ r, k.job = some (.pairing r) → sweeps (.pairingSweepDone c upTo []) ∧
        (finished → k.jobs = [] → ∃ u, exec (.pairingSweepDone c upTo []) s = .next u ∧
          only u { ended with paired := setBit (setBit k.paired r.toNat true) (r ^^^ 1).toNat true } [])) ∧
      (∀ r, k.job = some (.rankCopy r) → sweeps (.rankSpareCopyDone c upTo []) ∧
        (finished → k.jobs = [] → ∃ u, exec (.rankSpareCopyDone c upTo []) s = .next u ∧
          only u { ended with sparedRank := r, spareUsed := true } [])) ∧
      (k.st = 5 → k.job = some .resilver → sweeps (.resilverDone c upTo []) ∧
        (finished → k.jobs = [] → ∃ u, exec (.resilverDone c upTo []) s = .next u ∧
          chan u c.val = { ended with st := 2 } ∧ chan u (mateOf c.val) = { chan s (mateOf c.val) with solo := false } ∧
          u.pw.ready.ch.getLsbD c.val = true ∧ ∀ a, readByte u a = readByte s a))) ∧
    (∀ l, k.jobs = [] → k.job = some (.softPpr l) → s.wr.store.repairs.length < 61440 →
      ∃ u, exec (.softPprDone c) s = .next u ∧ only u { k with job := none, st := idle, sppr := satInc k.sppr } [.wr] ∧
        ∃ r, u.wr.store.repairs = s.wr.store.repairs ++ [(BitVec.ofNat 4 c.val, r, l, true)]) ∧
    (k.st = 1 →
      (∃ u, exec (.channelTrained c) s = .next u ∧ u.pw.ready.ch.getLsbD c.val = true ∧
        only u { k with st := 2, speed := dataRate s, powered := true } [.wr, .pw, .ep, .pba, .out, .bw, .ridge, .xing]) ∧
      (∃ u, exec (.channelTrainingFail c) s = .next u ∧ (chan u c.val).st = 4 ∧
        u.pw.ready.ch.getLsbD c.val = false)) ∧
    (k.st ≠ 0 → k.st ≠ 4 → ∃ u, exec (.phyRelockTimeout c) s = .next u ∧ (chan u c.val).st = 4 ∧
      u.pw.ready.ch.getLsbD c.val = false ∧
      ∀ l, isDirty s l = true → onDeadChan u c.val l = true → isDirty u l = false ∧ isPoisoned u l = true)

/-! ## The host endpoint -/

/-- R353 to R358, R363, R375 to R378, R384 and R385: the link, configuration requests, freezes, notices and instance
resets. PERST#, a link that goes down and a hot reset end host traffic and leave every instance awaiting re-arm; a freeze
keeps its cause and TIME and counts, and only a release with that count ends it; a register write of a host that the
endpoint does not serve changes nothing; an instance reset turns its queues off and
ends their waiting items.
Where it rests on the model's choices and inferences they are those of log entries 7, 111 and 114. -/
def Obligations.EndpointLink : Prop :=
  ∀ s : State,
    let e := s.ep
    let ended := fun (u : State) => u.ep.up = false ∧ u.ep.cfg = Config.reset ∧ u.ep.frozen = false ∧
      ∀ i, (inst u i).st = if (inst s i).st = 0 then 0 else 3
    let frozen := fun (u : State) (code : BitVec 8) => u.ep.frozen = true ∧ u.ep.fCount = e.fCount + 1 ∧ u.ep.fCause = code ∧
      u.ep.fTime = s.time.now ∧ Keeps [.ep, .log, .out, .xing, .fresh] s u
    let regs := regServed s = true ∧ s.pw.clkEp = false
    (s.pw.straps.frameHead = true →
      (∃ u, exec .perstAssert s = .next u ∧ ended u ∧ u.ep.perst = true ∧ u.ep.training = false) ∧
      (e.perst = true → ∃ u, exec .perstDeassert s = .next u ∧ Keeps [.ep] s u ∧ u.ep = { e with
        perst := false, training := s.pw.pwrgood, firstUp := false
        crsUntil := some (s.time.now + BitVec.ofNat 64 (if e.firstUp then 300000000 else 2000000)) })) ∧
    (∀ (l : Fin 3) (r : Fin 5), canTrain s = true → e.up = false → ∃ u, exec (.linkTrained l r) s = .next u ∧
      u.ep.up = true ∧ u.ep.training = false ∧ u.ep.lanes = BitVec.ofNat 5 (Nat.min (4 * 2 ^ l.val) s.pw.cfgLanes.toNat) ∧
      u.ep.rate = BitVec.ofNat 3 (Nat.min (r.val + 1) s.pw.cfgRate.toNat) ∧ .credits false 64 1024 64 64 none ∈ u.out) ∧
    (e.up = true →
      (∃ u, exec .linkDown s = .next u ∧ u.ep.up = false ∧ u.ep.frozen = false ∧ u.ep.training = true ∧
        (∀ i, (inst u i).st = if (inst s i).st = 0 then 0 else 3) ∧ u.ep.cfg.aer.getLsbD 5 = true ∧
        u.ep.cfg = { Config.reset with aer := u.ep.cfg.aer, aerFirst := u.ep.cfg.aerFirst, aerHdr := u.ep.cfg.aerHdr }) ∧
      (∃ u, exec .hotReset s = .next u ∧ ended u ∧ u.ep.training = true) ∧
      (e.frozen = false →
        (∀ code : BitVec 8, 1 ≤ code.toNat → code.toNat ≤ 8 → ∃ u, exec (.tlpErrorFreeze code) s = .next u ∧ frozen u code ∧
          (∃ i, u.ep.cfg.aer.getLsbD i = true)) ∧
        (regs → ∃ u, exec .freezeForce s = .next u ∧ frozen u 0x0F ∧ u.ep.cfg = e.cfg)) ∧
      (regServed s = false → s.pw.clkEp = false → exec .freezeForce s = .next s ∧
        (∀ n, exec (.freezeRelease n) s = .next s) ∧ ∀ v, exec (.epNotifyWrite v) s = .next s) ∧
      (regs → ∀ v : Word, ∃ u, exec (.epNotifyWrite v) s = .next u ∧ Keeps [.ep] s u ∧ u.ep = { e with
        nVec := v.extractLsb' 0 11, nEn := v.getLsbD 11, nMode := e.nMode && !v.getLsbD 16, nReady := e.nReady && !v.getLsbD 17
        nFreeze := e.nFreeze && !v.getLsbD 18, nRing := e.nRing && !v.getLsbD 19 }) ∧
      (s.pw.clkEp = false → ∀ (off : BitVec 10) (be : BitVec 4) (v : BitVec 32),
        (∀ (wr : Bool) (t : Word), e.crsUntil = some t → s.time.now.toNat < t.toNat →
          ∃ u, exec (.configRequest wr off be v) s = .next u ∧ u.out = .retry :: s.out ∧ Keeps [.out] s u) ∧
        (e.crsUntil = none →
          (∃ u, exec (.configRequest false off be v) s = .next u ∧ Keeps [.bw, .out] s u ∧
            u.out = .completion true (bytesOf 4 ((cfgRead s (off.toNat * 4)).setWidth 64)) false :: s.out) ∧
          (∃ u, exec (.configRequest true 1 0xF v) s = .next u ∧ u.out.head? = some (.completion true [] false) ∧
            u.ep.cfg.memEn = v.getLsbD 1 ∧ u.ep.cfg.master = v.getLsbD 2)))) ∧
    cfgRead s 0 = 0x31601F4C ∧
    (e.frozen = true → regs →
      (∃ u, exec (.freezeRelease e.fCount) s = .next u ∧ u.ep.frozen = false ∧
        ∀ r ∈ e.reads, r.issued = true → r.remote = false → deadOf r ∈ u.ep.deadTags) ∧
      ∀ n, n ≠ e.fCount → exec (.freezeRelease n) s = .next s) ∧
    (∀ i : Fin 256, regs → e.frozen = false → (inst s i.val).st ≠ 0 → ∃ u, exec (.instStatResetWrite i) s = .next u ∧
      (inst u i.val).st = 3 ∧ (∀ k, k ≠ i.val → inst u k = inst s k) ∧
      (∀ q, ownedByInst (queue s q) i.val = true → queue u q = { queue s q with en := false, armed := false }) ∧
      (∀ q, ownedByInst (queue s q) i.val = false → queue u q = queue s q) ∧
      (∀ k, ownedByInst (queue s (entry s k).queue.val) i.val = true → (entry s k).st = .queued ∨ (entry s k).st = .fetch →
        (entry u k).st = .closing ∧ (entry u k).cause = 0x0B) ∧ Keeps [.queue, .led, .inst, .ep, .pw] s u)

/-- R367 to R369, R375 and R378: the end of a read that the device has issued for an item. Bytes arrive in order; with the
last the entry has them; an error or a timeout ends the item with its cause; a completion of no read freezes.
Where it rests on the model's choices and inferences they are those of log entries 51, 55 and 121. -/
def Obligations.EndpointReads : Prop :=
  (∀ (s : State) (tag : BitVec 10) (r : ReadRec), s.ep.up = true → s.pw.clkEp = false → readOf s tag = some r →
    s.ep.reads = [r] → r.serves = none →
    let x := entry s r.entry.val
    let failed := fun (u : State) (cause detail : BitVec 8) => (entry u r.entry.val).st = .closing ∧
      (entry u r.entry.val).fail = true ∧ (entry u r.entry.val).cause = cause ∧ (entry u r.entry.val).detail = detail ∧
      u.ep.reads = [] ∧ Keeps [.ep, .led, .bw, .pw, .out, .xing, .fresh] s u
    (∀ data : List Byte, r.got.length + data.length < r.len → ∃ u, exec (.readCompletion tag .ok data) s = .next u ∧
      u.ep.reads = [{ r with got := r.got ++ data }] ∧ Keeps [.ep, .bw] s u) ∧
    (∀ data : List Byte, r.got.length + data.length = r.len → ∃ u, exec (.readCompletion tag .ok data) s = .next u ∧
      u.ep.reads = [] ∧ Keeps [.ep, .led, .bw] s u ∧ entry u r.entry.val =
        (if r.isDesc then { x with
            desc := overlayB x.desc (r.addr.toNat - descAddr (queue s x.queue.val) x.seq) (r.got ++ data) }
          else { x with data := overlayB x.data (r.addr - descWord x 8).toNat (r.got ++ data) })) ∧
    (x.st = .fetch → ∀ data : List Byte,
      (∃ u, exec (.readCompletion tag .unsupported data) s = .next u ∧ failed u 9 1) ∧
      (∃ u, exec (.readCompletion tag .abort data) s = .next u ∧ failed u 9 2) ∧
      (∃ u, exec (.readCompletion tag .poisoned data) s = .next u ∧ failed u 2 (if r.isDesc then 1 else 2) ∧
        (r.got.length + data.length < r.len →
          (r.tag, r.since, r.len - (r.got.length + data.length)) ∈ u.ep.deadTags)) ∧
      (s.ep.cfg.cplTmoDis = false → r.since.toNat + cplTmoNs s.ep.cfg.cplTmo ≤ s.time.now.toNat →
        ∃ u, exec (.completionTimeout tag) s = .next u ∧ failed u 9 3))) ∧
  (∀ (s : State) (tag : BitVec 10) (st : CplStatus) (data : List Byte), s.ep.up = true → s.pw.clkEp = false →
    s.ep.frozen = false → readOf s tag = none → s.ep.deadTags.any (fun d => d.1 = tag.setWidth 16) = false →
    ∃ u, exec (.readCompletion tag st data) s = .next u ∧ u.ep.frozen = true ∧ u.ep.fCause = 4 ∧ Keeps [.ep, .bw, .log, .out, .xing, .fresh] s u)

/-- R359, R364, R365, R373, R407, R418, R419 and R420: host accesses through the ring windows, and mailbox pages. A read of this
device's own window is completed from its registers; one of an absent position reads all ones and is counted, and a write
to one is dropped and counted; one of another position goes over the ridge and reads all ones after 1 ms without an answer.
Bytes written to a mailbox page stand in it, unless the mailbox is BUSY; device software writes the page of its own
mailbox.
Where it rests on the model's choices and inferences they are those of log entry 56. -/
def Obligations.Windows : Prop :=
  (∀ (s : State) (n : Fin 64) (off : BitVec 26), hostServed s = true → s.pw.fence ≠ .done →
    let ido := s.ep.cfg.idoReq && s.ep.cfg.idoCpl
    (n.val = myPos s → s.pw.clkSill = false → ∀ (len : Nat) (v : List Byte), windowValue s off.toNat len false = some v →
      ∃ u, exec (.windowRead n off len false) s = .next u ∧ u.out = .completion true v ido :: s.out ∧ Keeps [.bw, .out] s u) ∧
    (∀ len, len ≠ 4 → len ≠ 8 → windowValue s off.toNat len false = some (List.replicate len 0)) ∧
    (n.val = myPos s → s.ep.cfg.vc1En = false → ∀ (k : Fin 8) (p : Nat) (data : List Byte), p + data.length ≤ 4096 →
      off.toNat = 0x10000 + 0x1000 * k.val + p → (box s (.host k)).st ≠ 1 →
      ∃ u, exec (.windowWrite n off data false) s = .next u ∧ Keeps [.wr, .bw] s u ∧
        ∀ i, look 0 (box u (.host k)).page i =
          if p ≤ i ∧ i < p + data.length then (data[i - p]?).getD 0 else look 0 (box s (.host k)).page i) ∧
    (n.val ≠ myPos s → s.ep.ringPresent.getLsbD n.val = false →
      (∀ len : Nat, ∃ u, exec (.windowRead n off len false) s = .next u ∧ Keeps [.ep, .bw, .out] s u ∧
        u.out = .completion true (List.replicate len 0xFF) ido :: s.out ∧
        u.ep = { s.ep with rdOnes := satInc s.ep.rdOnes }) ∧
      (∀ data : List Byte, ∃ u, exec (.windowWrite n off data false) s = .next u ∧ Keeps [.ep, .bw] s u ∧
        u.ep = { s.ep with wrDrop := satInc s.ep.wrDrop })) ∧
    (∀ x, n.val ≠ myPos s → s.ep.ringPresent.getLsbD n.val = true → route s (devOf (myFrame s) n.val) = .out x →
      mayOriginate s x = true →
      (∀ len : Nat, ∃ u, exec (.windowRead n off len false) s = .next u ∧ Keeps [.ep, .ridge, .bw, .out, .xing] s u ∧
        u.ep = { s.ep with winReads := s.ep.winReads ++ [⟨s.ridge.nextTag, n, off, len, s.time.now⟩] }) ∧
      (∀ data : List Byte, data.length = 8 → off.toNat % 8 = 0 → ∃ u, exec (.windowWrite n off data false) s = .next u ∧
        Keeps [.ridge, .bw, .out, .xing] s u ∧ ∃ q, u.ridge.reqs = s.ridge.reqs ++ [q] ∧ q.op = 0x09 ∧
          q.dst = devOf (myFrame s) n.val ∧ q.addr = off.setWidth 64))) ∧
  (∀ (s : State) (w : WinRead), s.ep.winReads = [w] → w.since.toNat + 1000000 ≤ s.time.now.toNat → s.pw.clkEp = false →
    ∃ u, exec (.windowReadTimeout w.tag) s = .next u ∧ u.ep = { s.ep with winReads := [], rdOnes := satInc s.ep.rdOnes } ∧
      u.out.head? = some (.completion true (List.replicate w.len 0xFF) (s.ep.cfg.idoReq && s.ep.cfg.idoCpl)) ∧
      Keeps [.ep, .ridge, .bw, .out, .xing] s u) ∧
  (∀ (s : State) (m : Mbox) (t : Thr) (off : BitVec 12) (data : List Byte), boxServed s m = true →
    (∀ k, m = .host k → s.ep.cfg.vc1En = false) → (m = .mgmt ∨ m = .mgmtUrgent → clockStopped s .sill = false) →
    (∀ k, m = .dev k → threadReaches s t (devBoxAddr t (0x1000 * k.val + off.toNat)) = true) →
    ((box s m).st ≠ 1 → ∃ u, exec (.mailboxPageWrite m t off data false) s = .next u ∧ Keeps [.wr, .bw] s u ∧
      ∀ i, look 0 (box u m).page i = if off.toNat ≤ i ∧ i < off.toNat + data.length ∧ i < 4096 then
        (data[i - off.toNat]?).getD 0 else look 0 (box s m).page i) ∧
    ((box s m).st = 1 → ∃ u, exec (.mailboxPageWrite m t off data false) s = .next u ∧ Keeps [.wr, .bw] s u ∧
      box u m = { box s m with refused := satInc (box s m).refused })) ∧
  (∀ (s : State) (k : Fin 16) (t : Thr) (off : BitVec 12) (data : List Byte) (vc1 : Bool),
    threadReaches s t (devBoxAddr t (0x1000 * k.val + off.toNat)) = false →
    exec (.mailboxPageWrite (.dev k) t off data vc1) s = .next s)

/-! ## The ridge -/

/-- A flit arrives on a port that hears, holds nothing and has nothing to send again: its header acknowledges nothing and
returns no credit. -/
def Sys2Proof.Machine.QuietPort (s : State) (f : Flit) : Prop :=
  let k := port s (portIx f.port)
  portHears s f.port = true ∧ k.replay = [] ∧ k.waiting = [] ∧ k.holding = false ∧ f.cred = 0

/-- R388, R392 to R396, R403, R409 and R413: control flits and link-level retry. Credits and acknowledgements are taken
from every good flit; SKIP names the partner; a bad flit sends one NAK; a NAK has its flit sent again, and the eighth in a
row retrains the port, as 64 us without an acknowledgement does; INIT starts both directions at SEQ 0 with its credits,
and one that this device has not sent for is answered; a TIME_SYNC is stamped and answered, and the answer gives the link
delay; a link that passes over more than two devices stays unused; a lost lock makes the port a chain end that trains, a training
that ends brings it up, and a third failure in a row fails it.
Where it rests on the model's choices and inferences they are those of log entries 7, 44, 45, 47 and 109. -/
def Obligations.RidgeLinkLayer : Prop :=
  ∀ (s : State) (x : Port),
    let k := port s (portIx x)
    let only := fun (u : State) (k' : PortSt) => port u (portIx x) = k' ∧ (∀ j, j ≠ portIx x → port u j = port s j)
    let sent := fun (u : State) (g : SentFlit) => ∃ c n, u.out = .flit x k.flits g k.rxSeq c n :: s.out
    let clock := clockStopped s (.ridge x) = false
    (∀ f : Flit, f.port = x → portHears s x = true → portUp s x = true → k.waiting = [] → k.holding = false →
      (k.replay = [] →
        let more := put 0 k.credits f.crvc.toNat (look 0 k.credits f.crvc.toNat + f.cred.toNat)
        ∃ u, exec (.idleFlit f) s = .next u ∧ Keeps [.ridge] s u ∧
          only u { k with credits := if f.cred = 0 then k.credits else more }) ∧
      (∀ g : SentFlit, k.replay = [g] → f.cred = 0 → f.ack = g.seq + 1 →
        ∃ u, exec (.idleFlit f) s = .next u ∧ Keeps [.ridge] s u ∧ only u { k with replay := [], lastAck := s.time.now, stuck := 0 }) ∧
      (∀ g : SentFlit, k.replay = [g] → f.cred = 0 → f.ack = g.seq →
        (k.stuck < 7 → ∃ u, exec (.nakFlit f g.seq) s = .next u ∧ sent u g ∧ Keeps [.ridge, .out] s u ∧
          (port u (portIx x)).replays = satInc k.replays ∧ (port u (portIx x)).stuck = k.stuck + 1 ∧ (port u (portIx x)).replay = [g]) ∧
        (7 ≤ k.stuck → ∃ u, exec (.nakFlit f g.seq) s = .next u ∧ sent u g ∧ Keeps [.ridge, .out] s u ∧
          (port u (portIx x)).replays = satInc k.replays ∧ (port u (portIx x)).training = true ∧
          (port u (portIx x)).retrains = satInc k.retrains ∧ (port u (portIx x)).replay = [g]))) ∧
    (∀ f : Flit, f.port = x → QuietPort s f →
      (∀ (id : BitVec 16) (p : Port),
        (portUp s x = false ∨ bypassedCount s x id ≤ 2 → ∃ u, exec (.skipFlit f id p) s = .next u ∧ Keeps [.ridge] s u ∧
          only u { k with partner := id, pport := BitVec.ofNat 2 (portIx p)
                          bypassed := BitVec.ofNat 2 (Nat.min (bypassedCount s x id) 3) }) ∧
        (portUp s x = true → 2 < bypassedCount s x id → ∃ u, exec (.skipFlit f id p) s = .next u ∧
          (port u (portIx x)).st = 6 ∧ (port u (portIx x)).bypassed = 3)) ∧
      (∀ n : BitVec 80, portUp s x = true → ∃ u, exec (.initFlit f n) s = .next u ∧ Keeps [.ridge, .out] s u ∧
        (∀ v < 16, look 0 (port u (portIx x)).credits v = (n.extractLsb' (5 * v) 5).toNat) ∧ (port u (portIx x)).rxSeq = 0 ∧
        (port u (portIx x)).nakSent = false ∧ (port u (portIx x)).awaitInit = false ∧
        (k.awaitInit = true → u.out = s.out ∧ (port u (portIx x)).txSeq = k.txSeq) ∧
        (k.awaitInit = false → (port u (portIx x)).txSeq = 0 ∧
          u.out = .flit x k.flits ⟨0, 0, .init (initCredits s x)⟩ 0 0 0 :: s.out)) ∧
      (∀ t1, portUp s x = true → ∃ u, exec (.timeSync f t1) s = .next u ∧ sent u ⟨0, 0, .timeResp t1 (stamp s) (stamp s)⟩ ∧
        Keeps [.ridge, .out] s u) ∧
      (∀ t2 t3, portUp s x = true → timeSource s ≠ 2 → ∃ u, exec (.timeResp f k.t1 t2 t3) s = .next u ∧ Keeps [.ridge] s u ∧
        only u { k with delay := BitVec.ofInt 64 (((stamp s - k.t1).toInt - (t3 - t2).toInt) / 2) })) ∧
    (portUp s x = true → k.training = false → clock →
      (256 ≤ k.sinceSkip → ∃ u, exec (.skipInsert x) s = .next u ∧ sent u ⟨0, 0, .skip (deviceId s) x⟩ ∧ (port u (portIx x)).sinceSkip = 0 ∧
        Keeps [.ridge, .out] s u) ∧
      (k.replay ≠ [] → k.lastAck.toNat + 64000 ≤ s.time.now.toNat → ∃ u, exec (.ridgeAckTimeout x) s = .next u ∧
        Keeps [.ridge] s u ∧ only u { k with training := true, retrains := satInc k.retrains, stuck := 0 }) ∧
      (k.t1 = 0 ∨ 64000 * 32 ≤ (stamp s - k.t1).toNat → ∃ u, exec (.timeSyncTimer x) s = .next u ∧ sent u ⟨0, 0, .timeSync (stamp s)⟩ ∧ (port u (portIx x)).t1 = stamp s ∧
        Keeps [.ridge, .out] s u)) ∧
    (portHears s x = true → portUp s x = true →
      (k.nakSent = true → ∃ u, exec (.flitError x) s = .next u ∧ Keeps [.ridge] s u ∧ only u { k with crcErr := satInc k.crcErr }) ∧
      (k.nakSent = false → ∃ u, exec (.flitError x) s = .next u ∧ sent u ⟨0, 0, .nak k.rxSeq⟩ ∧ Keeps [.ridge, .out] s u ∧
        (port u (portIx x)).crcErr = satInc k.crcErr ∧ (port u (portIx x)).nakSent = true)) ∧
    (portUp s x = true → ∃ u, exec (.portLockLoss x) s = .next u ∧ (port u (portIx x)).st = 6 ∧
      (port u (portIx x)).training = true ∧ u.pw.ready.port.getLsbD (portIx x) = false) ∧
    (trains k = true →
      (∀ (d : BitVec 16) (p : Port) (sp : BitVec 3),
        (portUp s x = true → k.replay = [] → k.waiting = [] → ∃ u, exec (.ridgeTrainingDone x d p sp) s = .next u ∧
          Keeps [.ridge] s u ∧ only u { k with
            training := false, failsInRow := 0, powered := true, flits := 0, pspread := sp, lastAck := s.time.now }) ∧
        (portUp s x = false → bypassedCount s x d ≤ 2 → pairMayOpen s (isNs x) = true → ∃ u, exec (.ridgeTrainingDone x d p sp) s = .next u ∧
          (port u (portIx x)).st = 3 ∧ (port u (portIx x)).partner = d ∧ (pairOf u (isNs x)).isOpen = true ∧
          u.pw.ready.port.getLsbD (portIx x) = true) ∧
        (portUp s x = false → 2 < bypassedCount s x d ∨ pairMayOpen s (isNs x) = false → ∃ u, exec (.ridgeTrainingDone x d p sp) s = .next u ∧
          (port u (portIx x)).st = 6)) ∧
      (portUp s x = false → k.failsInRow < 2 → ∃ u, exec (.ridgeTrainingFail x) s = .next u ∧ Keeps [.ridge] s u ∧
        only u { k with failsInRow := k.failsInRow + 1, training := true }) ∧
      (2 ≤ k.failsInRow → ∃ u, exec (.ridgeTrainingFail x) s = .next u ∧ (port u (portIx x)).st = 5 ∧
        (port u (portIx x)).training = false))

/-- R403 and R410 to R412: a device joins a pair of links and leaves it. It monitors, repeats, asks in both directions, and
comes up once both partners hold; a partner that is asked stops new flits and answers HOLD_DONE once nothing is
unacknowledged; a leaver that has drained repeats again and closes the pair; a new live map is taken, and it ends where it
is known. A fenced device joins no pair.
Where it rests on the model's choices and inferences they are those of log entries 43, 44 and 108. -/
def Obligations.RidgeRing : Prop :=
  (∀ (s : State) (ns : Bool), (ns = true → s.ridge.nsEn = true) →
    let p := pairOf s ns
    let ports := fun (u : State) (st : BitVec 3) => ∀ x ∈ pairPorts ns, (port u (portIx x)).st = st
    let clocks := ∀ x ∈ pairPorts ns, clockStopped s (.ridge x) = false
    (p.step = .monitoring → s.pw.fenced = false → ∃ u, exec (.joinSwitch ns) s = .next u ∧ ports u 2 ∧ Keeps [.ridge] s u ∧
      pairOf u ns = { p with step := .repeating, doneLo := false, doneHi := false }) ∧
    (s.pw.fenced = true → exec (.joinSwitch ns) s = .next s ∧ exec (.joinReqRepeat ns) s = .next s) ∧
    (p.step = .repeating ∨ (p.step = .asking ∧ p.lastAsk.toNat + 1000 ≤ s.time.now.toNat) → s.pw.fenced = false → clocks →
      ∃ u, exec (.joinReqRepeat ns) s = .next u ∧ pairOf u ns = { p with step := .asking, lastAsk := s.time.now } ∧
      Keeps [.ridge, .out] s u ∧ ∀ x ∈ pairPorts ns, ∃ n a c m, Out.flit x n ⟨0, 0, .joinReq (deviceId s)⟩ a c m ∈ u.out) ∧
    (p.step = .asking → s.time.now.toNat < p.lastAsk.toNat + 1000 → exec (.joinReqRepeat ns) s = .next s) ∧
    (p.step = .leaving → pairEmpty s ns = true → clocks → (∀ x ∈ pairPorts ns, (port s (portIx x)).st ≠ 5) →
      ∃ u, exec (.leaveDrained ns) s = .next u ∧ ports u 2 ∧ pairOf u ns = { p with step := .drained } ∧
        Keeps [.ridge, .out, .time] s u ∧ (timeSource s = 2 → alignPort s ∈ pairPorts ns → portUp s (alignPort s) = true →
          u.time.aligned = false) ∧
        ∀ x ∈ pairPorts ns, ∃ n a c m, Out.flit x n ⟨0, 0, .holdDone (deviceId s)⟩ a c m ∈ u.out) ∧
    (p.step = .drained → (∀ x ∈ pairPorts ns, (port s (portIx x)).st ≠ 5) →
      ∃ u, exec (.leaveBypassSwitch ns) s = .next u ∧ ports u 0 ∧ pairOf u ns = { Pair.reset with step := .leftHold } ∧
        ∀ x ∈ pairPorts ns, u.pw.ready.port.getLsbD (portIx x) = false)) ∧
  (∀ (s : State) (f : Flit) (id : BitVec 16), QuietPort s f →
    let k := port s (portIx f.port)
    let ns := isNs f.port
    let p := pairOf s ns
    let low := f.port = .W ∨ f.port = .N
    (k.st = 3 → k.joiner = none → ∃ u, exec (.joinReq f id) s = .next u ∧ (port u (portIx f.port)).st = 4 ∧
      (port u (portIx f.port)).holding = true ∧ (port u (portIx f.port)).joiner = some id ∧ (port u (portIx f.port)).holdSent = true ∧
      (∃ c n, u.out = .flit f.port k.flits ⟨0, 0, .holdDone (deviceId s)⟩ k.rxSeq c n :: s.out) ∧ Keeps [.ridge, .out] s u) ∧
    (p.step = .asking → s.pw.fenced = false → (if low then p.doneHi = false else p.doneLo = false) →
      ∃ u, exec (.holdDone f id) s = .next u ∧ Keeps [.ridge] s u ∧
        (low → pairOf u ns = { p with doneLo := true }) ∧ (¬ low → pairOf u ns = { p with doneHi := true })) ∧
    (p.step = .asking → s.pw.fenced = false → (if low then p.doneHi = true else p.doneLo = true) →
      (∀ x ∈ pairPorts ns, bypassedCount s x (port s (portIx x)).partner ≤ 2) →
      ∃ u, exec (.holdDone f id) s = .next u ∧ (pairOf u ns).isOpen = true ∧ (pairOf u ns).step = .idle ∧
        ∀ x ∈ pairPorts ns, (port u (portIx x)).st = 3 ∧ u.pw.ready.port.getLsbD (portIx x) = true) ∧
    (portUp s f.port = true → f.seq = k.rxSeq →
      (∃ u, exec (.leaveReq f id) s = .next u ∧ (port u (portIx f.port)).st = 4 ∧ (port u (portIx f.port)).holding = true ∧
        (port u (portIx f.port)).joiner = some id ∧ (port u (portIx f.port)).rxSeq = k.rxSeq + 1 ∧
        (ns = false → u.ridge.live.getLsbD (devPos id) = false) ∧ (ns = true → devFrame id < 64 → u.ridge.liveCol.getLsbD (devFrame id) = false) ∧
        Keeps [.ridge, .bw, .ep, .pba, .out, .xing] s u) ∧
      (∀ (n : BitVec 8) (live : BitVec 64) (frame : BitVec 16),
        (lastSeen s false frame.toNat = some n →
          ∃ u, exec (.ringState f n live frame false) s = .next u ∧ u.ridge.live = s.ridge.live ∧
            (port u (portIx f.port)).rxSeq = k.rxSeq + 1 ∧ Keeps [.ridge, .bw, .out] s u) ∧
        (lastSeen s false frame.toNat ≠ some n →
          ∃ u, exec (.ringState f n live frame false) s = .next u ∧ u.ridge.changes = satInc s.ridge.changes ∧
            lastSeen u false frame.toNat = some n ∧
            (frame.toNat = myFrame s → u.ridge.live = live ∧ u.ep.ringPresent = liveRing u) ∧
            (frame.toNat ≠ myFrame s → liveIn u frame.toNat = live ∧ u.ridge.live = s.ridge.live)) ∧
        (lastSeen s true frame.toNat ≠ some n → ns = true →
          ∃ u, exec (.ringState f n live frame true) s = .next u ∧ u.ridge.liveCol = live ∧
          u.ridge.changes = satInc s.ridge.changes))))

/-- A message for this device arrives in order on a quiet port of a pair on which it still originates. -/
def Sys2Proof.Machine.Comes (s : State) (m : RMsg) : Prop :=
  QuietPort s m.flit ∧ m.part = .whole ∧ portUp s m.flit.port = true ∧ m.flit.seq = (port s (portIx m.flit.port)).rxSeq ∧ route s m.dst = .deliver ∧
    mayOriginate s m.flit.port = true

/-- The message has been sent on the port or waits there for credits. -/
def Sys2Proof.Machine.Sends (u : State) (x : Port) (b : FlitBody) : Prop :=
  (∃ w ∈ (port u (portIx x)).waiting, w.1.body = b) ∨ ∃ k f a c n, Out.flit x k f a c n ∈ u.out ∧ f.body = b

/-- R404 to R407 at the target: a window access that RACL permits is made and answered OK with its data and poison, one
that no entry permits is answered NO_ACCESS and counted; a host read of this device's registers is answered with their
value and a host write takes effect as at this device's endpoint; a fenced device answers DOWN.
Where it rests on the model's choices and inferences they are those of log entry 46. -/
def Obligations.RidgeServes : Prop :=
  ∀ (s : State) (m : RMsg) (x : Port), Comes s m → route s m.src = .out x →
    let pa : BitVec 48 := m.addr.extractLsb' 0 48
    let n := m.data.length
    let last : BitVec 48 := pa + BitVec.ofNat 48 (n - 1)
    let answers := fun (u : State) (op : BitVec 6) (st : BitVec 2) (poison : Bool) (data : List Byte) =>
      Sends u x (.msg op m.src (deviceId s) st poison m.tag m.addr data)
    let link := [Piece.ridge, .bw, .out]
    (windowStatus s m n false = 0 → NoneQueued s pa n → ∃ u, exec (.wRd m) s = .next u ∧
      answers u 0x03 0 (isPoisoned s (lineOf pa) || isPoisoned s (lineOf last)) (readBytes s pa.toNat n) ∧
      (∀ a, readByte u a = readByte s a) ∧ Keeps (link ++ [.core, .bay, .slice, .net, .old]) s u) ∧
    (windowStatus s m n true = 0 → NoneQueued s pa n → ∃ u, exec (.wWr m) s = .next u ∧ answers u 0x03 0 false [] ∧
      readBytes u pa.toNat n = m.data ∧ MemKept pa.toNat n s u ∧ ∀ t, (thr u t).calm = (thr s t).calm) ∧
    (∀ write, raclPermits s m.src pa.toNat n write = false →
      ∃ u, exec (if write then .wWr m else .wRd m) s = .next u ∧ answers u 0x03 1 false [] ∧
        u.ridge.aclDeny = satInc s.ridge.aclDeny ∧ Keeps link s u) ∧
    (s.pw.fence ≠ .done →
      (∀ v, windowValue s (m.addr.toNat % 2 ^ 26) n (decide (vcClass m.flit.vc = 0)) = some v →
        ∃ u, exec (.hRd m) s = .next u ∧ answers u 0x0A 0 false v ∧ Keeps link s u) ∧
      (∃ u, exec (.hWr m) s = .next u ∧ answers u 0x0A 0 false [] ∧ (∀ a, readByte u a = readByte s a) ∧
        (∀ (k : Fin 8) (p : Nat), p + n ≤ 4096 → m.addr.toNat % 2 ^ 26 = 0x10000 + 0x1000 * k.val + p →
          vcClass m.flit.vc ≠ 0 → s.ep.cfg.vc1En = false → (box s (.host k)).st ≠ 1 → Keeps (.wr :: link) s u ∧
          ∀ i, look 0 (box u (.host k)).page i =
            if p ≤ i ∧ i < p + n then (m.data[i - p]?).getD 0 else look 0 (box s (.host k)).page i))) ∧
    (s.pw.fence = .done → (∃ u, exec (.hRd m) s = .next u ∧ answers u 0x0A 2 false [] ∧ Keeps link s u) ∧
      ∃ u, exec (.hWr m) s = .next u ∧ answers u 0x0A 2 false [] ∧ Keeps link s u)

/-- R406 to R408 at the head and at the source: a head reads host memory for another position, and issues its result bytes
and records, once each; the answer to the one request this device has open ends it. A store ends, a load receives
its bytes; a host read is completed; the bytes of a read for an item stand in its entry; an acknowledged result leaves one
less to wait for; an acknowledged record frees its entry and is released at the head. Each message's command completes in every state, and
while its port's clock is stopped it waits in the crossing (R57).
Where it rests on the model's choices and inferences they are those of log entry 46. -/
def Obligations.RidgeAnswers : Prop :=
  (∀ (s : State) (m : RMsg), ∀ c ∈ [Instr.wRd m, .wWr m, .wRsp m, .hRd m, .hWr m, .hRsp m, .dRd m, .dDat m, .dWr m, .dAck m,
      .recMsg m, .rAck m, .rRel m],
    (∃ u, exec c s = .next u) ∧
    (clockStopped s (.ridge m.flit.port) = true → ∃ u, exec c s = .next u ∧ Keeps [.xing] s u)) ∧
  (∀ (s : State) (m : RMsg) (x : Port), Comes s m → route s m.src = .out x →
    let answers := fun (u : State) (op : BitVec 6) => Sends u x (.msg op m.src (deviceId s) 0 false m.tag m.addr [])
    let link := [Piece.ridge, .bw, .out]
    (s.ep.up = true → 0 < fieldB m.data 0 2 → fieldB m.data 0 2 ≤ 128 → m.addr.toNat % 4096 + fieldB m.data 0 2 ≤ 4096 →
      ∃ u r, exec (.dRd m) s = .next u ∧ r ∈ u.ep.reads ∧ r.serves = some (m.src, m.tag, (vcClass m.flit.vc).setWidth 4) ∧
        r.addr = m.addr ∧ r.len = fieldB m.data 0 2) ∧
    (mayIssue s = true → s.ridge.atHead = [] →
      (∃ u, exec (.dWr m) s = .next u ∧ answers u 0x13 ∧ u.ridge.atHead = [] ∧
        Out.hostWrite m.addr m.data m.poison (reqAttr s (onVc1 s (vcClass m.flit.vc)) false) ∈ u.out) ∧
      (let w := wordOf (sliceB m.data 8 8)
       let mine := fun (i : BitVec 16 × BitVec 10 × BitVec 32 × BitVec 64) =>
         i.1 = m.src ∧ i.2.1 = w.extractLsb' 32 10 ∧ i.2.2.1 = w.extractLsb' 0 32
       ((∀ i ∈ s.ridge.issued, ¬ mine i) → s.ridge.issued.length < 8192 → ∃ u, exec (.recMsg m) s = .next u ∧
          answers u 0x15 ∧ Out.hostWrite m.addr m.data false (reqAttr s (onVc1 s (vcClass m.flit.vc)) false) ∈ u.out ∧
          u.ridge.issued = s.ridge.issued ++ [(m.src, w.extractLsb' 32 10, w.extractLsb' 0 32, m.addr)]) ∧
       ((∃ i ∈ s.ridge.issued, mine i) → ∃ u, exec (.recMsg m) s = .next u ∧ answers u 0x15 ∧
          u.ridge.issued = s.ridge.issued ∧ Keeps link s u)) ∧
      (∃ u, exec (.rRel m) s = .next u ∧ Keeps link s u ∧ u.ridge.issued =
        removeFirst (fun k => decide (k.1 = m.src) && decide (k.2.2.2 = m.addr)) s.ridge.issued))) ∧
  ∀ (s : State) (m : RMsg) (q : RReq), Comes s m → s.ridge.reqs = [q] → q.dst = m.src →
    (∀ (t : Thr) (id : Nat) (a : Access), q.op = 1 ∨ q.op = 2 → q.tag = m.tag → q.thr = some (t, id) → outAccess s t id = some a →
      a.id = id → m.status = 0 →
      (a.kind = .store → ∃ u, exec (.wRsp m) s = .next u ∧ u.ridge.reqs = [] ∧ Keeps [.ridge, .bw, .out, .thr] s u ∧
        thr u t = { thr s t with outst := removeFirst (fun b => b.id = id) (thr s t).outst } ∧
        ∀ y, y ≠ t → thr u y = thr s y) ∧
      (∀ d : Dest, a.kind = .load → a.split = false → a.dest = some d → d.isF = false → a.poison = false → a.size ≤ 8 →
        (thr s t).outst = [a] → ∃ u, exec (.wRsp m) s = .next u ∧ u.ridge.reqs = [] ∧
          let v := wordOf m.data
          let w := if d.signed then sextN (8 * a.size) v else v &&& BitVec.ofNat 64 (2 ^ (8 * a.size) - 1)
          let th := { thr s t with outst := [], run := .running, pc := (thr s t).pc + 4 }
          (thr u t).calm = (writeG d.reg ⟨w, m.poison⟩ th).calm ∧ OthersCalm t s u)) ∧
    (∀ w : WinRead, q.op = 8 → q.tag = m.tag → s.ep.winReads = [w] → w.tag = m.tag → m.status = 0 → s.pw.clkEp = false →
      ∃ u, exec (.hRsp m) s = .next u ∧ u.ridge.reqs = [] ∧ u.ep = { s.ep with winReads := [] } ∧
        u.out.head? = some (.completion true (padTo w.len m.data) (s.ep.cfg.idoReq && s.ep.cfg.idoCpl)) ∧ Keeps [.ridge, .ep, .bw, .out] s u) ∧
    (∀ (e : Fin 65536) (r : ReadRec), q.op = 0x10 → q.tag = m.tag → q.entry = some e → s.ep.reads = [r] → r.remote = true →
      r.issued = true → r.tag = m.tag → r.entry = e → r.serves = none → r.isDesc = false → r.got = [] → r.len = m.data.length → r.addr = m.addr →
      q.left = m.data.length → m.status = 0 →
      ∃ u, exec (.dDat m) s = .next u ∧ u.ridge.reqs = [] ∧ u.ep.reads = [] ∧ Keeps [.ridge, .ep, .led, .bw, .out] s u ∧
        entry u e.val = { entry s e.val with
          data := overlayB (entry s e.val).data (r.addr - descWord (entry s e.val) 8).toNat m.data }) ∧
    (∀ (e : Fin 65536) (k : Nat), q.op = 0x12 → q.tag = m.tag → q.entry = some e → m.status = 0 → (entry s e.val).dwrWait = k + 2 →
      ∃ u, exec (.dAck m) s = .next u ∧ u.ridge.reqs = [] ∧ Keeps [.ridge, .led, .bw, .out] s u ∧
        entry u e.val = { entry s e.val with dwrWait := k + 1 }) ∧
    (∀ (e : Fin 65536) (x : Port), q.op = 0x14 → q.addr = m.addr → q.entry = some e → m.status = 0 → route s m.src = .out x →
      ∃ u, exec (.rAck m) s = .next u ∧ entry u e.val = { Entry.reset with etag := (entry s e.val).etag } ∧
        Sends u x (.msg 0x16 m.src (deviceId s) 0 false m.tag m.addr []))

/-! ## Mailboxes, commands and the management port -/

/-- A page with an answer in it: header bytes 0x08 to 0x1F and the payload from 0x40, every other byte as it was (R419,
R421). -/
def Sys2Proof.Machine.AnswerPage (status : BitVec 8) (detail : BitVec 16) (payload : List Byte) (seq : BitVec 16)
    (taken done : Word) (b b' : MboxSt) : Prop :=
  pageWord b' 8 = at' status 0 ||| at' (BitVec.ofNat 12 payload.length) 16 ||| at' seq 32 ||| at' detail 48 ∧
    pageWord b' 0x10 = taken ∧ pageWord b' 0x18 = done ∧ pageBytes b' 0x40 payload.length = payload ∧
    ∀ k, k < 8 ∨ (0x20 ≤ k ∧ k < 0x40) ∨ 0x40 + payload.length ≤ k → look 0 b'.page k = look 0 b.page k

/-- A mailbox after a ringing write, in the five cases of R420. `b` holds the doorbell's fields as the write left them;
`old` is the mailbox before it. -/
def Sys2Proof.Machine.Rung (m : Mbox) (ring : BitVec 16) (old b : MboxSt) (s u : State) : Prop :=
  let x := box u m
  let mode := s.pw.mode
  let answers := fun (st : BitVec 8) =>
    x.st = 2 ∧ x.lastSeq = old.lastSeq ∧ x.vec = b.vec ∧ x.vecEn = b.vecEn ∧ x.refused = old.refused ∧
      AnswerPage st 0 [] ring 0 s.time.now old x
  let served := mode ≠ 0 ∧ mode ≠ 1 ∧ (isUrgent m = true ∨ (s.wr.st = .serving ∧ activateTaken s = false ∧ s.wr.update = .none))
  (old.st = 1 → x = { old with refused := satInc old.refused }) ∧
    (old.st ≠ 1 → mode = 0 ∨ mode = 1 → answers 0x0C) ∧
    (old.st ≠ 1 → mode ≠ 0 → mode ≠ 1 → isUrgent m = false →
      (s.wr.st = .restarting ∨ (s.wr.st = .serving ∧ activateTaken s = true) → answers 0x01) ∧ (s.wr.st = .stopped → answers 0x0C)) ∧
    (old.st = 2 → served → boxSeq old = ring → ring = old.lastSeq → x = b) ∧
    (old.st ≠ 1 → served → boxSeq old ≠ ring → answers 0x0B) ∧
    (old.st ≠ 1 → served → boxSeq old = ring → ¬ (ring = old.lastSeq ∧ old.st = 2) →
      (x = { b with
        st := 1, lastSeq := ring, tTaken := s.time.now, effected := false, resp := x.resp
        page := writeList 0x10 (bytesOf 8 s.time.now) b.page }) ∧
      (definedCode (boxCode old) = false → x.resp = some ⟨2, 0, []⟩ ∨ (m = .host 7 ∧ x.resp = some ⟨6, 0, []⟩)) ∧
      (definedCode (boxCode old) = true → acceptsCode old m (boxCode old) = false →
        x.resp = some ⟨5, 0, []⟩ ∨ (m = .host 7 ∧ x.resp = some ⟨6, 0, []⟩)) ∧
      (definedCode (boxCode old) = true → acceptsCode old m (boxCode old) = true → m ≠ .host 7 → x.resp = none) ∧
      (m = .host 7 → s.ep.cfg.vc1En = false → x.resp = some ⟨6, 0, []⟩) ∧
      (isUrgent m = false → u.wr.order = s.wr.order.filter (fun k => k ≠ m) ++ [m]) ∧
      (isUrgent m = true → u.wr.order = s.wr.order))

/-- R418 to R421: a ringing write is refused, answered without being taken, taken, or signals the standing response
again; a write of 4 bytes is counted; a taken command's answer is written into the page and STATE becomes DONE.
Where it rests on the model's choices and inferences they are those of log entries 7, 66 and 75. -/
def Obligations.Mailboxes : Prop :=
  ∀ (s : State) (m : Mbox) (v : Word),
    let b := box s m
    let others := fun (u : State) => ∀ k, k ≠ m → box u k = box s k
    (∀ vc1 : Bool, (∀ d, m ≠ .dev d) → boxServed s m = true → ((∀ k, m ≠ .host k) → clockStopped s .sill = false) →
      (∀ k, m = .host k → (vc1 = true → s.ep.cfg.vc1En = true ∧ k.val = 7) ∧ (k.val = 7 → s.ep.cfg.vc1En = vc1)) →
      (isUrgent m = true ∨ clockStopped s .wright = false → ∃ u, exec (.mboxDoorbell m v true vc1) s = .next u ∧ others u ∧ 
        Keeps [.wr, .bw, .out, .pba, .ridge, .xing] s u ∧
        Rung m (v.extractLsb' 0 16) b { b with vec := v.extractLsb' 16 11, vecEn := v.getLsbD 27 } s u) ∧
      (∃ u, exec (.mboxDoorbell m v false vc1) s = .next u ∧ others u ∧ Keeps [.wr, .bw] s u ∧
        box u m = { b with refused := satInc b.refused })) ∧
    (∀ (k : Fin 16) (t : Thr), m = .dev k → mainOn s = true → (thr s t).run = .running →
      regionOk s t .store (devDoorbell t k) = true →
      (clockStopped s .wright = false → ∃ u, exec (.dmboxDoorbell t k v true) s = .next u ∧ others u ∧
        Rung m (v.extractLsb' 0 16) b
          { b with vec := (v.extractLsb' 16 10).setWidth 11, kind := v.getLsbD 26, vecEn := v.getLsbD 27 } s u) ∧
      (∃ u, exec (.dmboxDoorbell t k v false) s = .next u ∧ others u ∧ Keeps [.wr] s u ∧
        box u m = { b with refused := satInc b.refused })) ∧
    (∀ r, b.resp = some r → isUrgent m = true ∨ s.wr.st ≠ .restarting → ¬ (boxCode b = 0x307 ∧ r.status = 0) →
      ∃ u, exec (.commandComplete m) s = .next u ∧ others u ∧ (box u m).st = 2 ∧ (box u m).resp = none ∧
        (box u m).lastSeq = b.lastSeq ∧ m ∉ u.wr.order ∧
        AnswerPage r.status r.detail r.payload b.lastSeq b.tTaken s.time.now b (box u m)) ∧
    (b.resp = none → exec (.commandComplete m) s = .next s)

/-- The command taken in mailbox `m` has this code, has not run, and may run now: one that changes state runs alone and after
those taken before it (R418, R423, R436). -/
def Sys2Proof.Machine.Runs (m : Mbox) (code : Nat) (changes : Bool) (s : State) : Prop :=
  (box s m).st = 1 ∧ (box s m).resp = none ∧ (box s m).effected = false ∧ boxCode (box s m) = code ∧
    (0x900 ≤ code → urgentWaits s m = false) ∧
    (isUrgent m = true ∨
      (s.pw.clkWright = false ∧ s.wr.st = .serving ∧
        (changes = true → changingRuns s = false ∧ waitsTurn s m = false)))

/-- The command's only further effect on `t` is its answer. -/
def Sys2Proof.Machine.Says (m : Mbox) (status : BitVec 8) (detail : BitVec 16) (payload : List Byte) (t u : State) : Prop :=
  u = updBox m (fun b => { b with resp := some ⟨status, detail, payload⟩, effected := false }) t

/-- A command: with another PLEN than it requires it is answered BAD_LENGTH, and with a reserved bit of its header set
BAD_PARAM, with no effect; else it does `post` (R419, R422, R426). -/
def Sys2Proof.Machine.CmdRow (c : Mbox → Instr) (code : Nat) (changes : Bool) (len : MboxSt → Nat)
    (post : Mbox → MboxSt → State → State → Prop) : Prop :=
  ∀ (s : State) (m : Mbox), Runs m code changes s →
    (boxPlen (box s m) ≠ len (box s m) → ∃ u, exec (c m) s = .next u ∧ Says m 3 0 [] s u) ∧
    (boxPlen (box s m) = len (box s m) → headerFits (box s m) = false → ∃ u, exec (c m) s = .next u ∧ Says m 4 0 [] s u) ∧
    (boxPlen (box s m) = len (box s m) → headerFits (box s m) = true → ∃ u, exec (c m) s = .next u ∧ post m (box s m) s u)

/-- Bits of a request word outside those named are set. -/
def Sys2Proof.Machine.Reserved (b : MboxSt) (off : Nat) (mask : Word) : Prop := ∃ i : Fin 64,
  (pageWord b off).getLsbD i.val = true ∧ mask.getLsbD i.val = false

/-- R427 to R429, R431: GET_IDENTITY, GET_UNITS, GET_SOURCE, PART_GET, PWR_GET, SLOT_INFO and SETTINGS_GET answer the
state as it stands and change nothing but their mailbox; what nothing gives while no slot is active is free.
R433 to R435: LOG_READ answers the entries of the error log from FROM on, at most MAX, SEQ values compared modulo
2^32; HELD_RECORDS the held records of a queue in sequence order, at most 62; MODE_HISTORY the history; REG_READ words of
the hub registers; ATTEST a report with its signature; GET_ID_KEY the identity key.
Where it rests on the model's choices and inferences they are those of log entries 50 and 66. -/
def Obligations.InformationCommands : Prop :=
  (CmdRow .getIdentity 0x101 false (fun _ => 0) (fun m _ s u =>
     ∃ (n : Nat) (w v : Word),
       Says m 0 0 (bytesOf 8 (identWord s) ++ bytesOf 8 Config.serial ++ bytesOf 8 w ++ bytesOf 8 v) { s with fresh := n } u ∧
       w.extractLsb' 0 16 = 0x0104 ∧ w.extractLsb' 18 46 = 0 ∧
       (∀ a, s.wr.store.active = some a → n = s.fresh ∧ v = fwVersion (slotOf s.wr.store a) ∧ w.getLsbD 16 = a ∧
         w.getLsbD 17 = decide (bootDefault s.wr.store = a))) ∧
   CmdRow .getUnits 0x102 false (fun _ => 0) (fun m _ s u =>
     ∃ l, Says m 0 0 l s u ∧ l.length = 152 ∧
       (∀ k : Fin 40, let y := bay s k.val
         fieldB l (2 * k.val) 2 = y.site0.toNat + 8 * y.site1.toNat + 64 * y.site2.toNat + 512 * y.site3.toNat
           + 4096 * y.spare.toNat + 32768 * bnat y.failed) ∧
       (∀ e : Fin 64, fieldB l (0x50 + e.val) 1 = (siteOf s (.engine e)).toNat + 128 * bnat (engine s e.val).outOfService) ∧
       fieldB l 0x90 8 = 15 - s.pw.spareUsed.toNat) ∧
   CmdRow .getSource 0x103 false (fun _ => 8) (fun m b s u =>
     let w := pageWord b 0x40
     let named := srcNamed (w.extractLsb' 0 2).toNat (w.extractLsb' 8 8).toNat
     (named = none ∨ Reserved b 0x40 0xFF03 → Says m 4 0 [] s u) ∧
     (∀ x, named = some x → ¬ Reserved b 0x40 0xFF03 →
       (boxMay s m (partOfSrc s x) = false → Says m 5 0 [] s u) ∧
       (boxMay s m (partOfSrc s x) = true → ∃ r : Word, Says m 0 0 (bytesOf 8 r ++ bytesOf 8 (srcEnt s x).tChange) s u ∧
         r.extractLsb' 0 16 = (srcEnt s x).gen ∧ r.extractLsb' 16 7 = siteOf s x ∧ r.getLsbD 24 = (srcEnt s x).isOpen ∧
         r.getLsbD 23 = false ∧ r.extractLsb' 25 39 = 0))) ∧
   CmdRow .partGet 0x201 false (fun _ => 8) (fun m b s u =>
     let p := ((pageWord b 0x40).extractLsb' 0 3).toNat
     let x := part s p
     (Reserved b 0x40 7 → Says m 4 0 [] s u) ∧
     (¬ Reserved b 0x40 7 → boxMay s m (some p) = false → Says m 5 0 [] s u) ∧
     (¬ Reserved b 0x40 7 → boxMay s m (some p) = true → ∃ (r : Word) (g : List (BitVec 13)),
       Says m 0 0 (bytesOf 8 r ++ bytesOf 8 (x.bays.setWidth 64) ++ bytesOf 8 x.engines
         ++ bytesOf 8 (BitVec.ofNat 64 g.length) ++ g.flatMap (fun k => bytesOf 2 (k.setWidth 64))) s u ∧
       r.extractLsb' 0 3 = BitVec.ofNat 3 p ∧ r.getLsbD 3 = x.hold ∧ r.getLsbD 7 = x.standby.isSome ∧
       (∀ q, x.standby = some q → r.extractLsb' 4 3 = BitVec.ofNat 3 q.val) ∧
       r.extractLsb' 8 3 = (match x.st with | .unused => 0 | .active => 1 | .standby => 2 | .down => 3 | .restarting => 4) ∧
       r.extractLsb' 11 5 = 0 ∧ r.extractLsb' 16 16 = x.dmbox ∧ r.extractLsb' 48 16 = 0 ∧
       g = (if x.st = .unused then [] else x.ranges))) ∧
   CmdRow .pwrGet 0x301 false (fun _ => 0) (fun m _ s u =>
     ∃ l, Says m 0 0 l s u ∧ l.length = 40 ∧ ∀ r : Fin 5,
       fieldB l (8 * r.val) 2 = (rail s r.val).set.toNat ∧ fieldB l (8 * r.val + 2) 2 = (rail s r.val).meas.toNat ∧
       fieldB l (8 * r.val + 4) 2 = (die s r.val).tj.toNat ∧
       fieldB l (8 * r.val + 6) 2 = bnat (rail s r.val).warn + 2 * bnat (die s r.val).hot) ∧
   CmdRow .slotInfo 0x501 false (fun _ => 0) (fun m _ s u =>
     let st := s.wr.store
     ∃ l, Says m 0 0 l s u ∧ l.length = 232 ∧ fieldB l 0xE0 8 = st.fuse.toNat ∧
       ∀ a : Bool, let o := if a then 0x70 else 0
         fieldB l o 1 = (slotOf st a).cond.toNat ∧ fieldB l (o + 1) 1 = rbIndex (slotOf st a) ∧
         fieldB l (o + 2) 6 = bnat (decide (st.active = some a)) + 2 * bnat (decide (bootDefault st = a)) ∧
         sliceB l (o + 8) 8 = slotBytes (slotOf st a) 8 8 ∧ sliceB l (o + 16) 96 = slotBytes (slotOf st a) 0x20 96) ∧
   CmdRow .settingsGet 0x506 false (fun _ => 8) (fun m b s u =>
     let v := settingOf s.wr.store ((pageWord b 0x40).extractLsb' 0 16).toNat
     (Reserved b 0x40 0xFFFF → Says m 4 0 [] s u) ∧
     (¬ Reserved b 0x40 0xFFFF → (v = none → Says m 8 1 [] s u) ∧
       (∀ l, v = some l → l.length ≤ 4032 → Says m 0 0 l s u))) ∧
   (∀ s : State, s.wr.st = .booting → s.pw.clkWright = false → (box s .mgmt).st = 1 → (box s .mgmt).resp = none →
     (box s .mgmt).effected = false →
     (boxCode (box s .mgmt) = 0x102 → ∃ u, exec (.getUnits .mgmt) s = .next u ∧ Says .mgmt 6 0 [] s u) ∧
     (boxCode (box s .mgmt) = 0x307 → changingRuns s = false →
       ∃ u, exec (.warmReset .mgmt) s = .next u ∧ Says .mgmt 6 0 [] s u))) ∧
  (CmdRow .logRead 0x701 false (fun _ => 8) (fun m b s u =>
     let w := pageWord b 0x40
     let frm : BitVec 32 := w.extractLsb' 0 32
     let max := (w.extractLsb' 32 7).toNat
     let oldest := s.wr.logNext - BitVec.ofNat 32 s.wr.log.length
     (Reserved b 0x40 0x7FFFFFFFFF ∨ max = 0 ∨ 125 < max → Says m 4 0 [] s u) ∧
     (¬ Reserved b 0x40 0x7FFFFFFFFF → 1 ≤ max → max ≤ 125 → ∃ (n : Nat) (w0 : Word) (l : List LogE),
       Says m 0 0 (bytesOf 8 w0 ++ bytesOf 8 (s.wr.logNext ++ oldest) ++ l.flatMap (fun e =>
         bytesOf 8 e.time ++ bytesOf 4 (e.seq.setWidth 64) ++ bytesOf 2 (e.type.setWidth 64) ++ bytesOf 2 0
           ++ bytesOf 8 e.a ++ bytesOf 8 e.b)) { s with fresh := n } u ∧
       w0.extractLsb' 32 7 = BitVec.ofNat 7 l.length ∧ w0.extractLsb' 39 25 = 0 ∧ l.length ≤ max ∧
       (∀ e, l.head? = some e → w0.extractLsb' 0 32 = e.seq ∧ n = s.fresh) ∧
       (0 ≤ (frm - s.wr.logNext).toInt → l = []) ∧
       ((frm - s.wr.logNext).toInt < 0 → (frm - oldest).toInt < 0 → l = s.wr.log.take max) ∧
       ((frm - s.wr.logNext).toInt < 0 → 0 ≤ (frm - oldest).toInt → l = (s.wr.log.drop (frm - oldest).toNat).take max))) ∧
   CmdRow .heldRecords 0x702 false (fun _ => 8) (fun m b s u =>
     let w := pageWord b 0x40
     let q := (w.extractLsb' 0 10).toNat
     let frm : BitVec 32 := w.extractLsb' 32 32
     (Reserved b 0x40 0xFFFFFFFF000003FF → Says m 4 0 [] s u) ∧
     (¬ Reserved b 0x40 0xFFFFFFFF000003FF → ∃ (n : Nat) (ids : List Nat) (recs : List (List Byte)),
       Says m 0 0 (bytesOf 8 (BitVec.ofNat 64 ids.length) ++ bytesOf 8 0 ++ recs.flatten) { s with fresh := n } u ∧
       ids = ((closingOf s q).filter (fun e => decide (0 ≤ ((entry s e).seq - frm).toInt))).take 62 ∧
       recs.length = ids.length ∧
       ∀ (k e : Nat) (r : List Byte), ids[k]? = some e → recs[k]? = some r →
         r.length = 64 ∧ ∃ f, r = recordBytes { s with fresh := f } (entry s e))) ∧
   CmdRow .modeHistory 0x703 false (fun _ => 0) (fun m _ s u =>
     Says m 0 0 (s.wr.history.flatMap (fun e => bytesOf 8 e.1 ++ bytesOf 4 (e.2.setWidth 64) ++ bytesOf 4 0)) s u) ∧
   CmdRow .regRead 0x704 false (fun _ => 16) (fun m b s u =>
     let a := (pageWord b 0x40).toNat
     let n := ((pageWord b 0x48).extractLsb' 0 10).toNat
     let fits := 1 ≤ n ∧ n ≤ 504 ∧ a % 8 = 0 ∧ 0xF00018000000 ≤ a ∧ a + 8 * n ≤ 0xF00020000000
     (Reserved b 0x48 0x3FF ∨ ¬ fits → Says m 4 0 [] s u) ∧
     (¬ Reserved b 0x48 0x3FF → fits → ∃ l : List Byte, Says m 0 0 l s u ∧ l.length = 8 * n ∧
       ∀ i, i < n → sliceB l (8 * i) 8 = bytesOf 8 (deviceRead s (BitVec.ofNat 48 (a + 8 * i)) 8))) ∧
   CmdRow .attest 0x801 false (fun _ => 32) (fun m b s u =>
     let st := s.wr.store
     ∃ l sig : List Byte, Says m 0 0 (l ++ sig) s u ∧ l.length = 264 ∧ sig.length = 96 ∧
       fieldB l 0 8 = 0x01680001 + 0x100000000 * (deviceId s).toNat + 0x10000000000000 ∧
       sliceB l 8 8 = bytesOf 8 Config.serial ∧ sliceB l 0x10 32 = pageBytes b 0x40 32 ∧
       sliceB l 0x30 8 = bytesOf 8 s.time.now ∧
       fieldB l 0x38 8 = bnat (decide (st.active = some true)) + 2 * bnat (decide (st.active = some (bootDefault st)))
         + 256 * st.fuse.toNat + 0x01040000 ∧
       (∀ a, st.active = some a → sliceB l 0x40 8 = slotBytes (slotOf st a) 8 8 ∧
         sliceB l 0x48 48 = padTo 48 (Config.sha384
           (slotBytes (slotOf st a) (slotNat (slotOf st a) 0x10 4) (slotNat (slotOf st a) 0x14 4))) ∧
         sliceB l 0x78 48 = padTo 48 (Config.sha384
           (slotBytes (slotOf st a) (slotNat (slotOf st a) 0x18 4) (slotNat (slotOf st a) 0x1C 4)))) ∧
       sliceB l 0xA8 48 = padTo 48 Config.storeKeyHash ∧
       sliceB l 0xD8 48 = padTo 48 (Config.sha384 ((List.range 8).flatMap (layoutBytes s))) ∧
       sig = padTo 96 (Config.identitySign (padTo 48 (Config.sha384 l)))) ∧
   CmdRow .getIdKey 0x802 false (fun _ => 0) (fun m _ s u => Says m 0 0 (padTo 97 Config.identityKey) s u))

/-- R31 to R36, R202, R242 and R428: the commands that change partitions. A layout that R36, R202 and R31 do not permit is
answered STATE and nothing changes; a permitted one gives the partition its resources, takes them from the others, leaves
no dirty line in a range that moves and resets what moves. PART_STOP takes a partition DOWN with cause ORDERED; PART_START
ends its hold; PART_STANDBY names a standby; PART_FREE leaves it UNUSED with nothing.
Where it rests on the model's choices and inferences they are those of log entries 66, 67 and 68. -/
def Obligations.PartitionCommands : Prop :=
  let named := fun (b : MboxSt) => ((pageWord b 0x40).extractLsb' 0 3).toNat
  CmdRow .partSet 0x202 true (fun b => 0x20 + 2 * (pageNat b 0x58 1 % 128)) (fun m b s u =>
    let given := parseLayout (pageBytes b 0x40 (boxPlen b))
    (given = none → Says m 4 0 [] s u) ∧
    (∀ x, given = some x →
      (x.bays = 0 → Says m 4 0 [] s u) ∧
      (x.bays ≠ 0 → s.pw.fenced = true ∨ layoutFits s x = false → Says m 6 0 [] s u) ∧
      (x.bays ≠ 0 → s.pw.fenced = false → layoutFits s x = true → ∃ t, Says m 0 0 [] t u ∧
        (part t x.p).bays = x.bays ∧ (part t x.p).engines = x.engines ∧ (part t x.p).ranges = x.ranges ∧
        (part t x.p).dmbox = x.dmbox ∧ (part t x.p).standby = (if x.standbyV then some x.standby else none) ∧
        ((part s x.p).st = .unused → x.hold = true → (part t x.p).st = .restarting ∧ (part t x.p).hold = true) ∧
        ((part s x.p).st = .active ∨ (part s x.p).st = .standby → (part t x.p).st = (part s x.p).st) ∧
        (∀ q, q < 8 → q ≠ x.p → (part t q).bays &&& x.bays = 0 ∧ (part t q).engines &&& x.engines = 0 ∧
          (part t q).dmbox &&& x.dmbox = 0 ∧ (part t q).bays = (part s q).bays &&& ~~~x.bays ∧
          (part t q).engines = (part s q).engines &&& ~~~x.engines ∧
          (∀ g, g ∈ (part t q).ranges ↔ g ∈ (part s q).ranges ∧ g ∉ x.ranges)) ∧
        (∀ l : BitVec 42, isDramLine l = true →
          let g := (lineAddr l).extractLsb' 30 13
          ((g ∈ x.ranges ∧ g ∉ (part s x.p).ranges) ∨ (g ∉ x.ranges ∧ g ∈ (part s x.p).ranges)) → isDirty t l = false) ∧
        (∀ i : Fin 640, x.bays.getLsbD (i.val / 16) ≠ (part s x.p).bays.getLsbD (i.val / 16) →
          (thr t (.core i)).calm = Thread.reset.calm)))) ∧
  CmdRow .partStop 0x203 true (fun _ => 8) (fun m b s u =>
    let p := named b
    let may := (part s p).st = .active ∨ (part s p).st = .standby
    (Reserved b 0x40 0xF → Says m 4 0 [] s u) ∧
    (¬ Reserved b 0x40 0xF → s.pw.fenced = true ∨ ¬ may → Says m 6 0 [] s u) ∧
    (¬ Reserved b 0x40 0xF → s.pw.fenced = false → may → ∃ t,
      Says m 0 0 (bytesOf 8 (BitVec.ofNat 64 (s.led.ent.filter (fun e => decide (e.2.st = .owned) &&
        (match e.2.owner with | some k => decide (partOf s k = some p) | none => false))).length)) t u ∧
      (part t p).st = .down ∧ (part t p).cause = 9 ∧ (part t p).hold = (pageWord b 0x40).getLsbD 3 ∧
      ∀ x ∈ sourcesOf s p, (srcEnt t x).isOpen = false)) ∧
  CmdRow .partStart 0x204 true (fun _ => 8) (fun m b s u =>
    let p := named b
    let may := s.pw.fenced = false ∧ (part s p).st = .restarting ∧ (part s p).hold = true
    (Reserved b 0x40 7 → Says m 4 0 [] s u) ∧ (¬ Reserved b 0x40 7 → ¬ may → Says m 6 0 [] s u) ∧
    (¬ Reserved b 0x40 7 → may → ∃ t, Says m 0 0 [] t u ∧ Keeps [.part] s t ∧
      part t p = { part s p with hold := false } ∧ ∀ q, q ≠ p → part t q = part s q)) ∧
  CmdRow .partStandby 0x205 true (fun _ => 8) (fun m b s u =>
    let p := named b
    let w := pageWord b 0x40
    let may := s.pw.fenced = false ∧
      (if w.getLsbD 7 then (part s p).st = .active ∧ (part s (w.extractLsb' 4 3).toNat).st = .standby
       else (part s p).st ≠ .unused)
    (Reserved b 0x40 0xF7 → Says m 4 0 [] s u) ∧ (¬ Reserved b 0x40 0xF7 → ¬ may → Says m 6 0 [] s u) ∧
    (¬ Reserved b 0x40 0xF7 → may → ∃ t, Says m 0 0 [] t u ∧ Keeps [.part] s t ∧ (∀ q, q ≠ p → part t q = part s q) ∧
      part t p = { part s p with standby := if w.getLsbD 7 then some (w.extractLsb' 4 3).toFin else none })) ∧
  CmdRow .partFree 0x206 true (fun _ => 8) (fun m b s u =>
    let p := named b
    let may := s.pw.fenced = false ∧ movable s p = true ∧ holdsQueue s p = false
    (Reserved b 0x40 7 → Says m 4 0 [] s u) ∧ (¬ Reserved b 0x40 7 → ¬ may → Says m 6 0 [] s u) ∧
    (¬ Reserved b 0x40 7 → may → ∃ t, Says m 0 0 [] t u ∧ (part t p).st = .unused ∧ (part t p).bays = 0 ∧
      (part t p).engines = 0 ∧ (part t p).ranges = [] ∧ (part t p).dmbox = 0 ∧
      (∀ x ∈ sourcesOf s p, (srcEnt t x).isOpen = false) ∧
      (∀ l : BitVec 42, isDramLine l = true → (lineAddr l).extractLsb' 30 13 ∈ (part s p).ranges → isDirty t l = false) ∧
      (∀ k, partOf s k = some p → (thr t k).calm = Thread.reset.calm) ∧
      ∀ q, q ≠ p → (part t q).bays = (part s q).bays ∧ (part t q).ranges = (part s q).ranges ∧ (part t q).st = (part s q).st))

/-- R429, R430, R346, R348, R349 and R389: the power, sistering and repair commands. A permitted VCORE_SET requests the
setpoint and waits, or on a throttled die records the operating point; VOTE sets the host's vote; QUIESCE
raises the quiesce condition in SERVICE, DEGRADED and BRACED, and RESUME clears it; WARM_RESET is answered before its flush; SISTER parks the unit's threads; SET_SPARE takes an unmapped
site; CH_RETIRE retires a channel; CH_RETRAIN begins resilvering; MEM_REPAIR joins the channel's queue; PORT_RETRAIN
trains a port once.
Where it rests on the model's choices and inferences they are those of log entries 43, 66 and 71. -/
def Obligations.DeviceCommands : Prop :=
  (∀ (s : State) (m : Mbox), Runs m 0x302 true s → boxPlen (box s m) = 8 → headerFits (box s m) = true →
    let b := box s m
    let w := pageWord b 0x40
    let d := (w.extractLsb' 0 2).toNat
    let mv : BitVec 16 := w.extractLsb' 16 16
    let fits := ¬ Reserved b 0x40 0xFFFF0003 ∧ 680 ≤ mv.toNat ∧ mv.toNat ≤ 950 ∧ mv.toNat % 5 = 0
    ((rail s d).req ≠ none → exec (.vcoreSet m) s = .next s) ∧
    ((rail s d).req = none →
      (¬ fits → ∃ u, exec (.vcoreSet m) s = .next u ∧ Says m 4 0 [] s u) ∧
      (fits → (die s d).throttled = true → ∃ u t, exec (.vcoreSet m) s = .next u ∧
        Says m 0 3 (bytesOf 8 ((rail s d).set.setWidth 64)) t u ∧ Keeps [.pw] s t ∧
        die t d = { die s d with opPoint := mv } ∧ rail t d = rail s d) ∧
      (fits → (die s d).throttled = false → s.pw.braced = true → mv.toNat < (rail s d).set.toNat →
        ∃ u, exec (.vcoreSet m) s = .next u ∧ Says m 6 0 [] s u) ∧
      (fits → (die s d).throttled = false → (s.pw.braced = true → (rail s d).set.toNat ≤ mv.toNat) →
        ∃ u, exec (.vcoreSet m) s = .next u ∧ Keeps [.wr, .pw, .out] s u ∧ box u m = { b with effected := true } ∧
          rail u d = { rail s d with req := some (mv, s.time.now) } ∧
          ∀ x : Fin 4, x.val = d → u.out = .regulator (.vcore x) mv :: s.out))) ∧
  CmdRow .vote 0x303 true (fun _ => 8) (fun m b s u =>
    let w := pageWord b 0x40
    let named := voteDom (w.extractLsb' 0 3).toNat (w.extractLsb' 16 10).toNat
    (named = none ∨ Reserved b 0x40 0x103FF0007 → Says m 4 0 [] s u) ∧
    (∀ d, named = some d → ¬ Reserved b 0x40 0x103FF0007 →
      (boxMay s m (domPart s d) = false → Says m 5 0 [] s u) ∧
      (boxMay s m (domPart s d) = true → s.pw.fenced = true → Says m 6 0 [] s u) ∧
      (boxMay s m (domPart s d) = true → s.pw.fenced = false → ∃ t,
        Says m 0 0 (bytesOf 8 (if domPowered s d then 1 else 0)) t u ∧
        (∀ c, d = .core c → core t c.val = { core s c.val with hvote := w.getLsbD 32 } ∧ Keeps [.core] s t) ∧
        (∀ y, d = .bay y → bay t y.val = { bay s y.val with hvote := w.getLsbD 32 } ∧ Keeps [.bay] s t) ∧
        (∀ k, d = .cluster k → cluster t k.val = { cluster s k.val with hvote := w.getLsbD 32 } ∧ Keeps [.cluster] s t) ∧
        (∀ k, d = .die k → die t k.val = { die s k.val with hvote := w.getLsbD 32 } ∧ Keeps [.pw] s t) ∧
        (∀ c, d = .channel c → chan t c.val = { chan s c.val with hvote := w.getLsbD 32 } ∧ Keeps [.chan] s t) ∧
        (∀ x, d = .port x → port t (portIx x) = { port s (portIx x) with hvote := w.getLsbD 32 } ∧ Keeps [.ridge] s t)))) ∧
  CmdRow .braceRate 0x304 true (fun _ => 8) (fun m b s u =>
    (Reserved b 0x40 0xFFFF → Says m 4 0 [] s u) ∧
    (¬ Reserved b 0x40 0xFFFF → ∃ t, Says m 0 0 [] t u ∧ Keeps [.led] s t ∧
      t.led = { s.led with braceRate := (pageWord b 0x40).extractLsb' 0 16 })) ∧
  CmdRow .quiesce 0x305 true (fun _ => 0) (fun m _ s u =>
    let may := s.pw.mode = 3 ∨ s.pw.mode = 4 ∨ s.pw.mode = 5
    (¬ may → Says m 6 0 [] s u) ∧
    (may → ∃ t, Says m 0 0 [] t u ∧ t.pw.quiesce = true ∧ t.pw.mode = modeNow t)) ∧
  CmdRow .resume 0x306 true (fun _ => 0) (fun m _ s u =>
    (s.pw.mode ≠ 6 → Says m 6 0 [] s u) ∧
    (s.pw.mode = 6 → ∃ t, Says m 0 0 [] t u ∧ t.pw.quiesce = false ∧ t.pw.mode = modeNow t)) ∧
  CmdRow .warmReset 0x307 true (fun _ => 0) (fun m _ s u => Says m 0 0 [] s u) ∧
  CmdRow .sister 0x401 true (fun _ => 8) (fun m b s u =>
    let w := pageWord b 0x40
    let kind := (w.extractLsb' 0 2).toNat
    let named := if kind < 2 then srcNamed kind (w.extractLsb' 16 8).toNat else none
    (named = none ∨ Reserved b 0x40 0xFF0003 → Says m 4 0 [] s u) ∧
    (∀ x, named = some x → ¬ Reserved b 0x40 0xFF0003 →
      let may := s.pw.fenced = false ∧ sisterMode s = true ∧ sisterAlive s x = true ∧ unitPresent s x = true
      (boxMay s m (partOfSrc s x) = false → Says m 5 0 [] s u) ∧
      (boxMay s m (partOfSrc s x) = true → ¬ may → Says m 6 0 [] s u) ∧
      (boxMay s m (partOfSrc s x) = true → may → hasSpare s x = false → Says m 7 0 [] s u) ∧
      (boxMay s m (partOfSrc s x) = true → may → hasSpare s x = true →
        box u m = { b with effected := true } ∧ u.wr.sistering = s.wr.sistering ++ [(x, s.time.now.toNat)] ∧
        (∀ t ∈ thrsOfSrc x, (thr s t).run = .running → (thr u t).parked = true) ∧
        (∀ t, t ∉ thrsOfSrc x → (thr u t).calm = (thr s t).calm) ∧ (srcEnt u x).gen = (srcEnt s x).gen))) ∧
  (∀ pass : Bool, CmdRow (fun m => .setSpare m pass) 0x402 true (fun _ => 8) (fun m b s u =>
    let w := pageWord b 0x40
    let y := (w.extractLsb' 0 6).toNat
    let v : BitVec 3 := w.extractLsb' 8 3
    let k := bay s y
    let fits := ¬ Reserved b 0x40 0x73F ∧ y < 40 ∧ v.toNat ≤ 4
    let may := s.pw.fenced = false ∧ k.site0 ≠ v ∧ k.site1 ≠ v ∧ k.site2 ≠ v ∧ k.site3 ≠ v ∧ k.retired.getLsbD v.toNat = false
    (¬ fits → Says m 4 0 [] s u) ∧ (fits → ¬ may → Says m 6 0 [] s u) ∧
    (fits → may → ∃ t, Says m (if pass then 0 else 8) 0 [] t u ∧ Keeps [.bay] s t ∧ (∀ z, z ≠ y → bay t z = bay s z) ∧
      (pass = true → bay t y = { k with spare := v, bad := setBit k.bad v.toNat false }) ∧
      (pass = false → bay t y = { k with bad := setBit k.bad v.toNat true })))) ∧
  CmdRow .chRetire 0x403 true (fun _ => 8) (fun m b s u =>
    let c := ((pageWord b 0x40).extractLsb' 0 4).toNat
    let may := s.pw.fenced = false ∧ (chan s c).st ≠ 0 ∧ (chan s c).st ≠ 4
    (Reserved b 0x40 0xF → Says m 4 0 [] s u) ∧ (¬ Reserved b 0x40 0xF → ¬ may → Says m 6 0 [] s u) ∧
    (¬ Reserved b 0x40 0xF → may → ∃ t, Says m 0 0 [] t u ∧ (chan t c).st = 4 ∧ (chan t c).job = none ∧
      t.pw.ready.ch.getLsbD c = false)) ∧
  (∀ pass : Bool, CmdRow (fun m => .chRetrain m pass) 0x404 true (fun _ => 8) (fun m b s u =>
    let c := ((pageWord b 0x40).extractLsb' 0 4).toNat
    let may := s.pw.fenced = false ∧ (chan s c).st = 4 ∧ inMirror s c = true ∧ serves s (mateOf c) = true
    (Reserved b 0x40 0xF → Says m 4 0 [] s u) ∧ (¬ Reserved b 0x40 0xF → ¬ may → Says m 6 0 [] s u) ∧
    (¬ Reserved b 0x40 0xF → may → (pass = false → Says m 8 0 [] s u) ∧
      (pass = true → ∃ t, Says m 0 0 [] t u ∧ (chan t c).st = 5 ∧ (chan t c).job = some .resilver)))) ∧
  CmdRow .memRepair 0x405 true (fun _ => 16) (fun m b s u =>
    let w := pageWord b 0x40
    let c := (w.extractLsb' 0 4).toNat
    let act := (w.extractLsb' 4 2).toNat
    let r : BitVec 4 := w.extractLsb' 8 4
    let l : BitVec 42 := (pageWord b 0x48).extractLsb' 0 42
    let k := chan s c
    let onIt : Bool := match locOfLine s l with | some x => onChan x c | none => false
    let fits := ¬ Reserved b 0x40 0x3FF3F ∧ ¬ Reserved b 0x48 0x3FFFFFFFFFF ∧ act ≠ 3 ∧ (act = 2 → onIt = true)
    let may := s.pw.fenced = false ∧ chanLive s c = true
    let joined := fun (t : State) (j : ChanJob) => hasJob (chan t c) j = true ∧ Keeps [.chan] s t ∧
      Says m 0 0 (bytesOf 8 ((BitVec.ofNat 8 (chan t c).jobs.length).setWidth 64)) t u
    (¬ fits → Says m 4 0 [] s u) ∧ (fits → ¬ may → Says m 6 0 [] s u) ∧
    (fits → may → act = 1 → k.job = none → k.jobs = [] →
      (k.spareRank = true → k.spareUsed = false → ∃ t, joined t (.rankCopy r)) ∧
      (k.spareRank = false ∨ k.spareUsed = true → Says m 7 0 [] s u)) ∧
    (fits → may → act = 2 → ∀ x, locOfLine s l = some x →
      let key := (BitVec.ofNat 4 x.rank, BitVec.ofNat 2 x.bg)
      (key ∉ k.pprUsed → hasJob k (.softPpr l) = false → ∃ t, joined t (.softPpr l) ∧ key ∈ (chan t c).pprUsed) ∧
      (key ∈ k.pprUsed → Says m 7 0 [] s u)) ∧
    (fits → may → act = 0 → k.eccMode = 1 → k.paired.getLsbD r.toNat = false → k.job = none → k.jobs = [] →
      ∃ t, joined t (.pairing r) ∧ (chan t c).devMarked.getLsbD r.toNat = true)) ∧
  (∀ pass : Bool, CmdRow (fun m => .portRetrain m pass) 0x406 true (fun _ => 8) (fun m b s u =>
    let x := portOf ((pageWord b 0x40).extractLsb' 0 2).toNat
    let k := port s (portIx x)
    (Reserved b 0x40 3 → Says m 4 0 [] s u) ∧
    (¬ Reserved b 0x40 3 → s.pw.fenced = true ∨ k.st = 0 → Says m 6 0 [] s u) ∧
    (¬ Reserved b 0x40 3 → s.pw.fenced = false → k.st ≠ 0 → ∃ t, Says m (if pass then 0 else 8) 0 [] t u ∧
      (pass = true → (port t (portIx x)).training = false ∧ (port t (portIx x)).failsInRow = 0))))

/-- R431, R439, R468 and R470: SLOT_WRITE writes whole 64-byte blocks of a slot that is neither active nor the boot default
and leaves it unverified; SLOT_VERIFY leaves it verified or failed; ACTIVATE of a verified slot waits for its restart;
COMMIT makes the active slot the boot default and raises the fuse counter.
Where it rests on the model's choices and inferences they are those of log entries 43, 66 and 70. -/
def Obligations.StoreCommands : Prop :=
  let named := fun (b : MboxSt) => (pageWord b 0x40).getLsbD 0
  let only := fun (s t : State) (st : Store) => Keeps [.wr] s t ∧ t.wr = { s.wr with store := st }
  CmdRow .slotWrite 0x502 true (fun b => 0x20 + pageNat b 0x50 2 % 4096) (fun m b s u =>
    let x := named b
    let off := (pageWord b 0x48).toNat
    let len := ((pageWord b 0x50).extractLsb' 0 12).toNat
    let st := s.wr.store
    let fits := ¬ Reserved b 0x40 1 ∧ ¬ Reserved b 0x50 0xFFF ∧ off % 64 = 0 ∧ len % 64 = 0 ∧ len ≤ 3968 ∧
      off + len ≤ slotSize st.capacity
    (¬ fits → Says m 4 0 [] s u) ∧
    (fits → st.active = some x ∨ bootDefault st = x → Says m 6 0 [] s u) ∧
    (fits → st.active ≠ some x → bootDefault st ≠ x → ∃ t, Says m 0 0 [] t u ∧ only s t (setSlot x (slotOf t.wr.store x) st) ∧
      (slotOf t.wr.store x).cond = 2 ∧ slotBytes (slotOf t.wr.store x) off len = pageBytes b 0x60 len ∧
      ∀ k, k < off ∨ off + len ≤ k → look 0 (slotOf t.wr.store x).bytes k = look 0 (slotOf st x).bytes k)) ∧
  CmdRow .slotVerify 0x503 true (fun _ => 8) (fun m b s u =>
    let x := named b
    let st := s.wr.store
    let v := verifySlot Config.storeKeyHash st.fuse.toNat (slotSize st.capacity) (slotOf st x)
    (Reserved b 0x40 1 → Says m 4 0 [] s u) ∧
    (¬ Reserved b 0x40 1 → v = none → ∃ t, Says m 0 0 [] t u ∧ only s t (setSlot x { slotOf st x with cond := 1 } st)) ∧
    (¬ Reserved b 0x40 1 → ∀ why, v = some why → (why = 9 ∨ why = 10) ∧
      ∃ t, Says m why 0 [] t u ∧ only s t (setSlot x { slotOf st x with cond := 3 } st))) ∧
  CmdRow .activate 0x504 true (fun _ => 8) (fun m b s u =>
    (Reserved b 0x40 1 → Says m 4 0 [] s u) ∧
    (¬ Reserved b 0x40 1 → (slotOf s.wr.store (named b)).cond ≠ 1 → Says m 6 0 [] s u) ∧
    (¬ Reserved b 0x40 1 → (slotOf s.wr.store (named b)).cond = 1 → Keeps [.wr] s u ∧
      u.wr.update = .taken m (named b) ∧ u.wr.store = s.wr.store ∧ box u m = { b with effected := true })) ∧
  CmdRow .commit 0x505 true (fun _ => 0) (fun m _ s u =>
    let st := s.wr.store
    (st.active = none ∨ st.active = some (bootDefault st) → Says m 6 0 [] s u) ∧
    (∀ x, st.active = some x → bootDefault st ≠ x → st.sel0.gen ≠ BitVec.allOnes _ → st.sel1.gen ≠ BitVec.allOnes _ →
      ∃ t, Keeps [.wr] s t ∧ bootDefault t.wr.store = x ∧
        t.wr.store.fuse.toNat = Nat.max st.fuse.toNat (rbIndex (slotOf st x)) % 128 ∧
        t.wr.store.slotA = st.slotA ∧ t.wr.store.slotB = st.slotB ∧ t.wr.store.active = st.active ∧
        Says m 0 0 (bytesOf 8 (t.wr.store.fuse.setWidth 64)) t u))

/-- R282, R283, R305, R366, R380, R384 and R432: the commands on instances and queues. Each is answered BAD_PARAM, STATE or
LIMIT where the rules say so, with no effect; else the instance takes its vectors and ranges, the queue its images and
slot, EN its value, and HOST_ROUTE its fields; no image changes EN or QUENCHED.
Where it rests on the model's choices and inferences they are those of log entries 66 and 69. -/
def Obligations.InstanceAndQueueCommands : Prop :=
  let instIx := fun (b : MboxSt) => ((pageWord b 0x40).extractLsb' 0 8).toNat
  let base := fun (b : MboxSt) => ((pageWord b 0x40).extractLsb' 16 11).toNat
  let count := fun (b : MboxSt) => ((pageWord b 0x40).extractLsb' 32 12).toNat
  let instOk := fun (b : MboxSt) => ¬ Reserved b 0x40 0xFFF07FF00FF ∧ base b + count b ≤ 2048 ∧
    ∀ k, k < 8 → ¬ Reserved b (0x48 + 16 * k) 0xFFFFFFFFFFFFF001 ∧ ¬ Reserved b (0x50 + 16 * k) 0xFFFFFFFFFFFFF000
  let took := fun (b : MboxSt) (x y : Inst) =>
    y = { x with vecBase := (pageWord b 0x40).extractLsb' 16 11, vecCount := (pageWord b 0x40).extractLsb' 32 12, dma := y.dma } ∧
    ∀ k, k < 8 → look none y.dma k = (if (pageWord b (0x48 + 16 * k)).getLsbD 0 then
      some ((pageWord b (0x48 + 16 * k)).extractLsb' 12 52, (pageWord b (0x50 + 16 * k)).extractLsb' 12 52) else none)
  let onlyInst := fun (i : Nat) (s t : State) => Keeps [.inst] s t ∧ ∀ j, j ≠ i → inst t j = inst s j
  let queueIx := fun (b : MboxSt) => ((pageWord b 0x40).extractLsb' 0 10).toNat
  let qInst := fun (b : MboxSt) => ((pageWord b 0x40).extractLsb' 16 8).toNat
  let qSlot := fun (b : MboxSt) => ((pageWord b 0x40).extractLsb' 24 8).toNat
  let cfg := fun (b : MboxSt) => pageWord b 0x48
  let imaged := fun (b : MboxSt) (x y : Queue) =>
    y.en = x.en ∧ y.quenched = x.quenched ∧ y.ai = x.ai ∧ y.floor = x.floor ∧ y.inlineMode = (cfg b).getLsbD 1 ∧
    y.cls = (cfg b).extractLsb' 2 2 ∧ y.part = (cfg b).extractLsb' 4 3 ∧ y.inst.toNat = qInst b ∧
    y.target = (cfg b).extractLsb' 16 2 ∧ y.rsize = (cfg b).extractLsb' 18 4 ∧ y.quota = (cfg b).extractLsb' 24 16 ∧
    y.weight = (cfg b).extractLsb' 40 8 ∧ y.rlimit = (cfg b).extractLsb' 48 5 ∧ y.qlimit = (cfg b).extractLsb' 53 5 ∧
    y.vector = (pageWord b 0x50).extractLsb' 0 11 ∧ y.vecEn = (pageWord b 0x50).getLsbD 11 ∧
    y.descBase = (pageWord b 0x50).extractLsb' 12 52 ∧ y.cplBase = (pageWord b 0x58).extractLsb' 12 52
  CmdRow .instCreate 0x601 true (fun _ => 0x88) (fun m b s u =>
    let i := instIx b
    (¬ instOk b → Says m 4 0 [] s u) ∧
    (instOk b → s.pw.fenced = true ∨ (inst s i).st ≠ 0 → Says m 6 0 [] s u) ∧
    (instOk b → s.pw.fenced = false → (inst s i).st = 0 →
      (blockTaken s i (base b) (count b) = true → Says m 7 0 [] s u) ∧
      (blockTaken s i (base b) (count b) = false → ∃ t, Says m 0 0 [] t u ∧ onlyInst i s t ∧
        took b { Inst.reset with st := 1 } (inst t i)))) ∧
  CmdRow .instModify 0x602 true (fun _ => 0x88) (fun m b s u =>
    let i := instIx b
    let may := s.pw.fenced = false ∧ (inst s i).st ≠ 0 ∧ vectorUsed s i (base b) (count b) = false
    (¬ instOk b → Says m 4 0 [] s u) ∧ (instOk b → ¬ may → Says m 6 0 [] s u) ∧
    (instOk b → may → (blockTaken s i (base b) (count b) = true → Says m 7 0 [] s u) ∧
      (blockTaken s i (base b) (count b) = false → ∃ t, Says m 0 0 [] t u ∧ onlyInst i s t ∧ took b (inst s i) (inst t i)))) ∧
  CmdRow .instDestroy 0x603 true (fun _ => 8) (fun m b s u =>
    let i := instIx b
    let may := s.pw.fenced = false ∧ i ≠ 0 ∧ (inst s i).st ≠ 0 ∧ (inst s i).qmap = []
    (Reserved b 0x40 0xFF → Says m 4 0 [] s u) ∧ (¬ Reserved b 0x40 0xFF → ¬ may → Says m 6 0 [] s u) ∧
    (¬ Reserved b 0x40 0xFF → may → ∃ t, Says m 0 0 [] t u ∧ onlyInst i s t ∧ inst t i = Inst.reset)) ∧
  CmdRow .instReset 0x604 true (fun _ => 8) (fun m b s u =>
    let i := instIx b
    let may := s.pw.fenced = false ∧ (inst s i).st ≠ 0
    (Reserved b 0x40 0xFF → Says m 4 0 [] s u) ∧ (¬ Reserved b 0x40 0xFF → ¬ may → Says m 6 0 [] s u) ∧
    (¬ Reserved b 0x40 0xFF → may → ∃ t, Says m 0 0 [] t u ∧ (inst t i).st = 3 ∧ (inst t i).unmapped = 0 ∧
      (inst t i).qmap = (inst s i).qmap ∧
      (∀ q, ownedByInst (queue s q) i = true → queue t q = { queue s q with en := false, armed := false }) ∧
      (∀ q, ownedByInst (queue s q) i = false → queue t q = queue s q) ∧
      (∀ e, (entry s e).st = .queued ∨ (entry s e).st = .fetch → ownedByInst (queue s (entry s e).queue.val) i = true →
        (entry t e).st = .closing ∧ (entry t e).fail = true ∧ (entry t e).cause = 0x0B))) ∧
  CmdRow .queueSetup 0x605 true (fun _ => 0x20) (fun m b s u =>
    let q := queueIx b
    let i := qInst b
    let may := s.pw.fenced = false ∧ (inst s i).st ≠ 0 ∧ (queue s q).slot = none ∧ heldOf s q = 0 ∧
      look none (inst s i).qmap (qSlot b) = none
    (imagesFit b = false → Says m 4 0 [] s u) ∧ (imagesFit b = true → ¬ may → Says m 6 0 [] s u) ∧
    (imagesFit b = true → may → ringsFit b (inst s i) = false → Says m 4 0 [] s u) ∧
    (imagesFit b = true → may → ringsFit b (inst s i) = true → ∃ t, Says m 0 0 [] t u ∧
      imaged b { queue s q with en := false } (queue t q) ∧ (queue t q).armed = false ∧
      ((queue t q).slot.map (·.val)) = some (qSlot b) ∧
      (look none (inst t i).qmap (qSlot b)).map (·.val) = some q ∧
      ((part s (queue t q).part.toNat).st = .standby → (part t (queue t q).part.toNat).st = .active) ∧
      (∀ k, k ≠ q → queue t k = queue s k))) ∧
  CmdRow .queueModify 0x606 true (fun _ => 0x20) (fun m b s u =>
    let q := queueIx b
    let i := qInst b
    let x := queue s q
    let named := s.pw.fenced = false ∧ (inst s i).st ≠ 0 ∧ (look none (inst s i).qmap (qSlot b)).map (·.val) = some q
    let counted := x.en = true ∨ heldOf s q ≠ 0
    let may := (counted → x.part = (cfg b).extractLsb' 4 3 ∧ x.inlineMode = (cfg b).getLsbD 1 ∧
        x.rsize = (cfg b).extractLsb' 18 4 ∧ x.descBase = (pageWord b 0x50).extractLsb' 12 52 ∧
        x.cplBase = (pageWord b 0x58).extractLsb' 12 52) ∧
      (x.en = true → (cfg b).extractLsb' 2 2 = (0 : BitVec 2) → s.ep.cfg.vc1En = true)
    let fits := sumsFit s q ((cfg b).extractLsb' 24 16).toNat ((cfg b).getLsbD 1)
    (imagesFit b = false → Says m 4 0 [] s u) ∧ (imagesFit b = true → ¬ named → Says m 6 0 [] s u) ∧
    (imagesFit b = true → named → ringsFit b (inst s i) = false → Says m 4 0 [] s u) ∧
    (imagesFit b = true → named → ringsFit b (inst s i) = true →
      (¬ may → Says m 6 0 [] s u) ∧ (may → counted → fits = false → Says m 7 0 [] s u) ∧
      (may → (counted → fits = true) → ∃ t, Says m 0 0 [] t u ∧ imaged b x (queue t q) ∧ (queue t q).slot = x.slot ∧
        (∀ k, k ≠ q → queue t k = queue s k)))) ∧
  CmdRow .queueEnable 0x607 true (fun _ => 8) (fun m b s u =>
    let q := queueIx b
    let x := queue s q
    let i := x.inst.toNat
    let en := (pageWord b 0x40).getLsbD 16
    let may := s.pw.fenced = false ∧ x.slot ≠ none ∧ (inst s i).st ≠ 2 ∧ (en = true → x.cls = 0 → s.ep.cfg.vc1En = true)
    let fits := sumsFit s q x.quota.toNat x.inlineMode
    (Reserved b 0x40 0x103FF → Says m 4 0 [] s u) ∧ (¬ Reserved b 0x40 0x103FF → ¬ may → Says m 6 0 [] s u) ∧
    (¬ Reserved b 0x40 0x103FF → may → en = true → fits = false → Says m 7 0 [] s u) ∧
    (¬ Reserved b 0x40 0x103FF → may → (en = true → fits = true) → ∃ t, Says m 0 0 (bytesOf 8 (x.floor ++ x.ai)) t u ∧
      (queue t q).en = en ∧ (en = true → (queue t q).armed = true ∧ ((inst s i).st = 3 → (inst t i).st = 1)) ∧
      (en = false → queue t q = { x with en := false } ∧ Keeps [.queue] s t))) ∧
  CmdRow .queueRemove 0x608 true (fun _ => 8) (fun m b s u =>
    let q := queueIx b
    let x := queue s q
    let may := x.slot ≠ none ∧ s.pw.fenced = false ∧ x.en = false ∧ heldOf s q = 0
    (Reserved b 0x40 0x3FF → Says m 4 0 [] s u) ∧ (¬ Reserved b 0x40 0x3FF → ¬ may → Says m 6 0 [] s u) ∧
    (¬ Reserved b 0x40 0x3FF → may → ∃ t, Says m 0 0 [] t u ∧ Keeps [.queue, .inst] s t ∧
      queue t q = { x with slot := none, armed := false } ∧
      ∀ j, x.slot = some j → look none (inst t x.inst.toNat).qmap j.val = none)) ∧
  CmdRow .setHostRoute 0x609 true (fun _ => 8) (fun m b s u =>
    (Reserved b 0x40 0x7F → Says m 4 0 [] s u) ∧
    (¬ Reserved b 0x40 0x7F → ∃ t, Says m 0 0 [] t u ∧ t.ep.headPos = (pageWord b 0x40).extractLsb' 0 6 ∧
      t.ep.routeValid = (pageWord b 0x40).getLsbD 6))

/-- R45, R433, R436 and R437: QUENCH and RELEASE set QUENCHED on every queue in scope and on no other, change no item,
answer the number of queues and T_EFFECT, and are logged; FENCE_SELF fences the device, stops every partition, ends every
open item (with cause 0x0C where no thread owns it); once its records are delivered, or 1 ms of TIME has passed, every open
pair leaves, and when both scarf paths are closed it is logged and answered with the number of items and T_EFFECT.
Where it rests on the model's choices and inferences they are those of log entries 60 and 66. -/
def Obligations.UrgentCommands : Prop :=
  let logged := fun (m : Mbox) (b : MboxSt) (ext : Word) (tEffect : Word) (s t : State) => ∃ a : Word,
    t.wr.log.getLast? = some ⟨s.time.now, s.wr.logNext, 0x0F, a, tEffect⟩ ∧ t.wr.logNext = s.wr.logNext + 1 ∧
    a.extractLsb' 0 16 = BitVec.ofNat 16 (boxCode b) ∧ a.extractLsb' 16 16 = b.lastSeq ∧
    a.extractLsb' 32 1 = BitVec.ofBool (decide (m = .mgmtUrgent)) ∧ a.extractLsb' 33 15 = 0 ∧
    a.extractLsb' 48 2 = ext.extractLsb' 0 2 ∧ a.extractLsb' 50 10 = ext.extractLsb' 16 10
  let answered := fun (m : Mbox) (t0 : Word) (n : Nat) (s u : State) => u.pw.fence = .done ∧
    (box u m).resp = some ⟨0, 0, bytesOf 8 (BitVec.ofNat 64 n) ++ bytesOf 8 t0⟩ ∧
    (∃ (k : BitVec 32) (a : Word), u.wr.log.getLast? = some ⟨s.time.now, k, 0x0F, a, t0⟩ ∧
      a.extractLsb' 0 16 = BitVec.ofNat 16 (boxCode (box s m)))
  let quenches := fun (c : Mbox → Instr) (code : Nat) (v : Bool) => CmdRow c code true (fun _ => 8) (fun m b s u =>
    let w := pageWord b 0x40
    let scope := (w.extractLsb' 0 2).toNat
    let ix := (w.extractLsb' 16 10).toNat
    let fits := ¬ Reserved b 0x40 0x3FF0003 ∧ scope ≠ 3 ∧ (scope = 1 → ix ≤ 255)
    let qs := inScope s scope ix
    (¬ fits → Says m 4 0 [] s u) ∧
    (fits → ∃ t, Says m 0 0 (bytesOf 8 (BitVec.ofNat 64 (qs.filter (fun q => v || (queue s q).quenched)).length)
        ++ bytesOf 8 s.time.now) t u ∧
      Keeps [.queue, .wr, .log] s t ∧ logged m b w s.time.now s t ∧
      (∀ q, queue t q = if q ∈ qs then { queue s q with quenched := v } else queue s q) ∧
      (∀ q, q ∈ qs ↔ (scope = 0 ∧ q = ix) ∨
        (scope = 1 ∧ ∃ x, (q, x) ∈ s.queue ∧ x.slot ≠ none ∧ x.inst.toNat = ix) ∨ (scope = 2 ∧ q < 1024))))
  quenches .quench 0x901 true ∧ quenches .release 0x902 false ∧
  CmdRow .fenceSelf 0x903 true (fun _ => 0) (fun m b s u =>
    (s.pw.fenced = true → ∃ t, Says m 0 0 (bytesOf 8 0 ++ bytesOf 8 s.time.now) t u ∧ Keeps [.wr, .log] s t ∧
      logged m b 0 s.time.now s t) ∧
    (s.pw.fenced = false → mainOn s = true → box u m = { b with effected := true } ∧ u.pw.fenced = true ∧ u.pw.mode = 7 ∧
      u.pw.fence = .delivering s.time.now (openItems s).length m ∧
      (∀ p, p < 8 → ∀ x ∈ sourcesOf s p, (srcEnt u x).isOpen = false) ∧
      (∀ e, (entry s e).st ≠ .free → (entry s e).st ≠ .closing → (entry u e).st = .free ∨
        ((entry u e).st = .closing ∧ ((entry s e).st ≠ .owned → (entry u e).fail = true ∧ (entry u e).cause = 0x0C))))) ∧
  (∀ (s : State) (m : Mbox) (t0 : Word) (n : Nat), s.pw.fence = .delivering t0 n m →
    let left := fun (u : State) =>
      ((∀ ns, (pairOf s ns).isOpen = false) → answered m t0 n s u) ∧
      (∀ ns, (pairOf s ns).isOpen = true → u.pw.fence = .leaving t0 n m ∧ box u m = box s m ∧
        (pairOf u ns).isOpen = true ∧ ((pairOf s ns).step = .idle → (pairOf u ns).step = .leaving)) ∧
      (∀ ns, (pairOf s ns).isOpen = false → (pairOf u ns).isOpen = false)
    (inflight s = 0 → ∃ u, exec .fenceDeliveryDone s = .next u ∧ left u) ∧
    (inflight s ≠ 0 → exec .fenceDeliveryDone s = .next s) ∧
    (t0.toNat + 1000000 ≤ s.time.now.toNat → ∃ u, exec .fenceDeliveryTimeout s = .next u ∧ left u) ∧
    (s.time.now.toNat < t0.toNat + 1000000 → exec .fenceDeliveryTimeout s = .next s)) ∧
  (∀ (s : State) (m : Mbox) (t0 : Word) (n : Nat), s.pw.fence = .leaving t0 n m →
    ∀ ns : Bool, (pairOf s ns).step = .drained → (pairOf s (!ns)).isOpen = false →
      ∃ u, exec (.leaveBypassSwitch ns) s = .next u ∧ answered m t0 n s u)

/-- R424 and R425: a transfer of the bus's own protocol with a good PEC, a multiple of 4 bytes and an offset that is one is
served: it sets the offset, answers bytes from it, or writes from it, and the offset advances; every other is discarded
and counted. A write changes nothing but the two management mailboxes. In STANDBY a BAR0 offset that R425 does not name
reads 0.
Where it rests on the model's choices and inferences they are those of log entry 72. -/
def Obligations.ManagementBus : Prop :=
  ∀ s : State, s.pw.sillOn = true →
    let discarded := fun (u : State) => Keeps [.wr] s u ∧ u.wr = { s.wr with badXfer := satInc s.wr.badXfer }
    let at4 := fun (n : Nat) => n % 4 = 0
    let reads := fun (n : Nat) (u : State) => Keeps [.wr, .out] s u ∧ u.out = .mgmt (mgmtBytes s s.wr.mgmtOff.toNat n) :: s.out ∧
      u.wr = { s.wr with mgmtOff := s.wr.mgmtOff + BitVec.ofNat 32 n }
    let writes := fun (o : Nat) (l : List Byte) (u : State) => Keeps [.wr, .out, .pba] s u ∧
      u.wr.mgmtOff = BitVec.ofNat 32 (o + l.length) ∧ (∀ k, k ≠ .mgmt → k ≠ .mgmtUrgent → box u k = box s k) ∧
      (∀ (m : Mbox) (b0 : Nat), (m = .mgmt ∧ b0 = 0x4000000) ∨ (m = .mgmtUrgent ∧ b0 = 0x4002000) → b0 ≤ o →
        o + l.length ≤ b0 + 0x1000 → (box s m).st ≠ 1 →
        ∀ k, look 0 (box u m).page k =
          if o - b0 ≤ k ∧ k < o - b0 + l.length then (l[k - (o - b0)]?).getD 0 else look 0 (box s m).page k)
    (s.pw.straps.mgmtI3c = false →
      (∀ (l : List Byte) (pec : Bool),
        (pec = true → l.length = 4 → at4 (natOfBytes l) → ∃ u, exec (.smbusSetOffset l pec) s = .next u ∧
          Keeps [.wr] s u ∧ u.wr = { s.wr with mgmtOff := BitVec.ofNat 32 (natOfBytes l) }) ∧
        (¬ (pec = true ∧ l.length = 4 ∧ at4 (natOfBytes l)) → ∃ u, exec (.smbusSetOffset l pec) s = .next u ∧ discarded u) ∧
        (pec = true → at4 l.length → 4 ≤ l.length → l.length ≤ 32 → ∃ u, exec (.smbusBlockWrite l pec) s = .next u ∧
          writes s.wr.mgmtOff.toNat l u) ∧
        (¬ (pec = true ∧ at4 l.length ∧ 4 ≤ l.length ∧ l.length ≤ 32) →
          ∃ u, exec (.smbusBlockWrite l pec) s = .next u ∧ discarded u)) ∧
      (∀ (n : Nat) (pec : Bool),
        (pec = true → at4 n → 4 ≤ n → n ≤ 32 → ∃ u, exec (.smbusBlockRead n pec) s = .next u ∧ reads n u) ∧
        (¬ (pec = true ∧ at4 n ∧ 4 ≤ n ∧ n ≤ 32) → ∃ u, exec (.smbusBlockRead n pec) s = .next u ∧ discarded u))) ∧
    (s.pw.straps.mgmtI3c = true →
      (∀ l : List Byte,
        (4 ≤ l.length → at4 (natOfBytes (l.take 4)) → at4 l.length → l.length ≤ 256 →
          ∃ u, exec (.i3cPrivateWrite l) s = .next u ∧ writes (natOfBytes (l.take 4)) (l.drop 4) u) ∧
        (¬ (4 ≤ l.length ∧ at4 (natOfBytes (l.take 4)) ∧ at4 l.length) →
          ∃ u, exec (.i3cPrivateWrite l) s = .next u ∧ discarded u)) ∧
      (∀ n : Nat, (at4 n → ∃ u, exec (.i3cPrivateRead n) s = .next u ∧ reads n u) ∧
        (¬ at4 n → ∃ u, exec (.i3cPrivateRead n) s = .next u ∧ discarded u)) ∧
      (∀ a : BitVec 7, ∃ u, exec (.i3cDynamicAddress a) s = .next u ∧ Keeps [.wr] s u ∧
        u.wr = { s.wr with i3cAddr := some a })) ∧
    (∀ k : Nat, k < 8 →
      (mgmtBytes s 0x4004000 8)[k]? = some ((mgmtStatWord s).extractLsb' (8 * k) 8) ∧
      (mgmtBytes s 0x4001000 8)[k]? = some ((boxDbWord .mgmt (box s .mgmt)).extractLsb' (8 * k) 8) ∧
      (standbyCond s = true → ∀ o : Nat, o < 0x4000000 → o % 8 = 0 → o ≠ 0 → o ≠ 8 → o ≠ 0x40 → o ≠ 0x80 → o ≠ 0x88 →
        (mgmtBytes s o 8)[k]? = some 0))

/-- The registers of a thread that a drop of its core keeps and a wake restores (R457): the g and f registers, PC, TSTAT
and the translation registers. -/
def Sys2Proof.Machine.SameSaved (x y : Thread) : Prop :=
  x.g = y.g ∧ x.f = y.f ∧ x.pc = y.pc ∧ x.tstat = y.tstat ∧ x.xk = y.xk ∧ x.xm = y.xm ∧ x.asid = y.asid ∧
    x.ptRoot = y.ptRoot ∧ x.trEn = y.trEn ∧ x.pmu.ctl = y.pmu.ctl

/-- A core that holds no vote, is in no solo mode and has no store open drops: it keeps its CACHE_CTL fields and its vote
masks, its threads' retention sets are saved, and every byte of memory reads as before (R456, R457). -/
def Sys2Proof.Machine.CoreDrops (c : Fin 160) (i : Instr) : Prop :=
  ∀ s : State, mayDrop s = true → (core s c.val).powered = true →
    (coreVoted s c.val = true → exec i s = .next s) ∧
    (coreVoted s c.val = false → (core s c.val).soloActive = false → (core s c.val).soloWait = none →
      (core s c.val).ccWait = none → drained s (.core c) = true →
      ∃ u, exec i s = .next u ∧
        core u c.val = { Core.reset with
          ien := (core s c.val).ien, den := (core s c.val).den, pfen := (core s c.val).pfen, pfDepth := (core s c.val).pfDepth
          deep := (core s c.val).deep, hvote := (core s c.val).hvote, drops := satInc (core s c.val).drops } ∧
        (∀ t ∈ thrsOfCore c.val, look none u.pw.retained (thrKey t) = some (thr u t) ∧ SameSaved (thr u t) (thr s t) ∧
          (thr u t).resv = none ∧ (thr u t).stores = []) ∧
        (∀ t, t ∉ thrsOfCore c.val → SameSaved (thr u t) (thr s t)) ∧ ∀ a, readByte u a = readByte s a)

/-- A bay whose cores have dropped drops once no line is left in its L2, a last line leaving through a write-back entry, and
waits while it has lines and no entry; the converted ways whose RET_WAYS bit is 1 keep their contents, the others are lost,
and every other byte of memory reads as before (R233, R458, R212). -/
def Sys2Proof.Machine.BayDrops (b : Fin 40) (i : Instr) : Prop :=
  ∀ s : State, mayDrop s = true → (bay s b.val).powered = true → (bay s b.val).amCur.toNat ≤ 4 →
    let y := bay s b.val
    (bayVoted s b.val = true → exec i s = .next s) ∧
    (bayVoted s b.val = false → y.reqs = [] → y.amBusy = false →
      let lost := fun (a : Nat) => ∃ k, k < 2 * y.amCur.toNat ∧ y.retWays.getLsbD (7 - k) = false ∧
        l2amBase b.val + k * 0x20000 ≤ a ∧ a < l2amBase b.val + (k + 1) * 0x20000
      let drops := fun (u : State) => (bay u b.val).powered = false ∧ (bay u b.val).l2 = [] ∧
        (bay u b.val).drops = satInc y.drops ∧
        (∀ a, (lost a → readByte u a = 0) ∧ (¬ lost a → readByte u a = readByte s a)) ∧
        ((∃ a, lost a) → (bay u b.val).amLost = true)
      ((∀ e ∈ y.l2, e.2.st = .I) → ∃ u, exec i s = .next u ∧ drops u) ∧
      (∀ (k : Nat) (x : CLine), y.l2 = [(k, x)] → x.st ≠ .I → k ∈ wayKeys (l2Set x.line) 16 → wbRoom y = true →
        ∃ u, exec i s = .next u ∧ drops u ∧ ∃ w ∈ (bay u b.val).wb, w.line = x.line ∧ w.dirty = decide (x.st = .M)) ∧
      ((∃ e ∈ y.l2, e.2.st ≠ .I) → wbRoom y = false → exec i s = .next s))

/-- R454 to R459, R325 and R326: a domain with no vote drops, in service only, and one with a vote does not; a core or
bay drop by either command; a dropped engine cluster loses its scratch and all of its threads but their event state; a
wake restores a core's threads as they were saved, each dozing one after its WAIT; a compute die, powered while a domain
inside it holds a vote, wakes before what is inside it.
Where it rests on the model's choices and inferences they are those of log entries 7, 64 and 95. -/
def Obligations.PowerDomains : Prop :=
  (∀ c : Fin 160, CoreDrops c (.coreDrop c) ∧ CoreDrops c (.domainDrop (.core c))) ∧
  (∀ b : Fin 40, BayDrops b (.bayDrop b) ∧ BayDrops b (.domainDrop (.bay b))) ∧
  (∀ s : State, mayDrop s = true →
    (∀ k : Fin 16, (cluster s k.val).powered = true →
      (clusterVoted s k.val = true → exec (.domainDrop (.cluster k)) s = .next s) ∧
      (clusterVoted s k.val = false → ∃ u, exec (.domainDrop (.cluster k)) s = .next u ∧ (cluster u k.val).powered = false ∧
        (∀ a, scratchBase (4 * k.val) ≤ a → a < scratchBase (4 * k.val + 4) → readByte u a = 0) ∧
        (∀ a, a < scratchBase (4 * k.val) ∨ scratchBase (4 * k.val + 4) ≤ a → readByte u a = readByte s a) ∧
        ∀ j : Fin 512, j.val / 32 = k.val → thr u (.adze j) = { Thread.reset with ev := (thr s (.adze j)).ev } ∧
          domainDown u (.adze j) = true)) ∧
    (∀ d : Fin 4, (die s d.val).powered = true →
      (dieVoted s d.val = false → dieUsed s d.val = false → ∃ u, exec (.domainDrop (.die d)) s = .next u ∧
        (die u d.val).powered = false ∧ (die u d.val).tested = false ∧ u.pw.ready.die.getLsbD d.val = false) ∧
      (dieVoted s d.val = true ∨ dieUsed s d.val = true → exec (.domainDrop (.die d)) s = .next s)) ∧
    (∀ c : Fin 16, (chan s c.val).powered = true →
      (chanVoted s c.val = false → chanOwned s c.val = false → ∃ u, exec (.domainDrop (.channel c)) s = .next u ∧
        chan u c.val = { chan s c.val with powered := false, rows := [] } ∧ Keeps [.chan] s u) ∧
      (chanVoted s c.val = true ∨ chanOwned s c.val = true → exec (.domainDrop (.channel c)) s = .next s)) ∧
    (∀ x : Port, (port s (portIx x)).powered = true → portVoted s x = false →
      ∃ u, exec (.domainDrop (.port x)) s = .next u ∧ (port u (portIx x)).powered = false ∧ Keeps [.ridge] s u)) ∧
  (∀ s : State, mainOn s = true →
    (∀ c : Fin 160, coreVoted s c.val = true → siteOfCore s c.val ≠ 7 → (core s c.val).powered = false →
      (die s (c.val / 40)).powered = true → ∃ u, exec (.domainWake (.core c)) s = .next u ∧ (core u c.val).powered = true ∧ (bay u (c.val / 4)).powered = true ∧
        ∀ t ∈ thrsOfCore c.val, ∀ v, look none s.pw.retained (thrKey t) = some v → SameSaved (thr u t) v ∧
          (thr u t).run = (if v.run = .dozing then .running else v.run) ∧ domainDown u t = false) ∧
    (∀ b : Fin 40, bayVoted s b.val = true → (die s (b.val / 10)).powered = true → ∃ u, exec (.domainWake (.bay b)) s = .next u ∧
      bay u b.val = { bay s b.val with powered := true } ∧ Keeps [.bay] s u) ∧
    (∀ k : Fin 16, clusterVoted s k.val = true → (cluster s k.val).powered = false →
      (die s (k.val / 4)).powered = true → ∃ u, exec (.domainWake (.cluster k)) s = .next u ∧ (cluster u k.val).powered = true ∧
        (∀ e : Fin 64, e.val / 4 = k.val → (engine u e.val).lost = true) ∧
        (s.pw.wake = [] → ∀ a, readByte u a = readByte s a)) ∧
    (∀ d : Fin 4, (die s d.val).powered = false →
      (∀ b : Fin 40, b.val / 10 = d.val → exec (.domainWake (.bay b)) s = .next s) ∧
      ∀ k : Fin 16, k.val / 4 = d.val → exec (.domainWake (.cluster k)) s = .next s) ∧
    (∀ d : Fin 4, dieVoted s d.val = true ∨ dieUsed s d.val = true → ∃ u, exec (.domainWake (.die d)) s = .next u ∧
      die u d.val = { die s d.val with
        powered := true, winFrom := if (die s d.val).powered then (die s d.val).winFrom else s.time.now } ∧ Keeps [.pw] s u) ∧
    (∀ c : Fin 16, chanVoted s c.val = true ∨ chanOwned s c.val = true → ∃ u, exec (.domainWake (.channel c)) s = .next u ∧
      chan u c.val = { chan s c.val with powered := true } ∧ Keeps [.chan] s u) ∧
    (∀ x : Port, portVoted s x = true → s.pw.fenced = false → (port s (portIx x)).powered = false → (port s (portIx x)).st = 0 →
      ∃ u, exec (.domainWake (.port x)) s = .next u ∧ Keeps [.ridge] s u ∧
        port u (portIx x) = { port s (portIx x) with powered := true, st := 1 }))

/-- R14 to R16, R417, R453, R477, R478, R485, R487, R282 and R511: an MTS of PMC_CTL_n, PMC_n or PMC_TIME at K or M; a bandwidth window that has passed is latched and the next begins; BW_CTL takes a length in range; and writes of
the registers that have no command of their own: by the host through BAR0, by device software and by the Wright's
firmware. A misaligned write, and one by the management port, change nothing.
Where it rests on the model's choices and inferences they are those of log entries 7, 20 and 113. -/
def Obligations.CountersAndRegisters : Prop :=
  (∀ (s : State) (t : Thr) (gs1 : BitVec 5), MayMts s t gs1 →
    let th := thr s t
    let v := (readG th gs1).val
    (∀ n : Fin 6,
      let c := look PmcCtl.reset th.pmu.ctl n.val
      ∃ u x, exec (.pmcCtlWrite t n gs1) s = .next u ∧
        Retired t (fun th => { th with pmu := { th.pmu with ctl := put PmcCtl.reset th.pmu.ctl n.val x } }) s u ∧
        (th.pmu.ctl = [] → x.en = false → (thr u t).pmu.cnt =
          if x.spec = c.spec ∧ x.ctxPriv = c.ctxPriv ∧ x.ctxAsid = c.ctxAsid then th.pmu.cnt else put 0 th.pmu.cnt n.val 0) ∧
        x.event = v.extractLsb' 0 8 ∧ x.en = v.getLsbD 8 ∧ x.level = v.getLsbD 9 ∧ x.int = v.getLsbD 11 ∧
        x.chain = (v.getLsbD 10 && decide (n.val ≠ 0)) ∧ x.priv = v.extractLsb' 12 3 ∧ x.spec = v.getLsbD 15 ∧
        x.ctxAsid = v.extractLsb' 20 16) ∧
    (∀ n : Fin 7, ∃ u, exec (.pmcWrite t n gs1) s = .next u ∧
      (n.val = 6 → Retired t (fun th => { th with pmu := { th.pmu with time := v } }) s u) ∧
      (n.val ≠ 6 → Retired t id s u ∧
        (th.pmu.ctl = [] → (thr u t).pmu.cnt = put 0 th.pmu.cnt n.val (v.extractLsb' 0 48))))) ∧
  (∀ s : State, mainOn s = true →
    let due := s.bw.start.toNat + s.bw.window.toNat * 1000
    (due ≤ s.time.now.toNat → ∃ u, exec .bwWindowEnd s = .next u ∧ Keeps [.bw] s u ∧
      u.bw = { s.bw with latched := s.bw.running, running := [], seq := s.bw.seq + 1, start := s.time.now }) ∧
    (s.time.now.toNat < due → exec .bwWindowEnd s = .next s)) ∧
  (∀ (s : State) (v : Word), s.wr.st = .serving →
    let n : BitVec 20 := v.extractLsb' 0 20
    ∃ u, exec (.bwCtlWrite v) s = .next u ∧ Keeps [.bw] s u ∧ u.bw = { s.bw with
      window := if 1 ≤ n.toNat ∧ n.toNat ≤ 1000000 then n else s.bw.window, running := [], start := s.time.now }) ∧
  (∀ (s : State) (who : Writer) (a : BitVec 48) (z : Fin 4) (v : Word),
    (a.toNat % 2 ^ z.val ≠ 0 → exec (.registerWrite who a z v) s = .next s) ∧
    exec (.registerWrite .mgmt a z v) s = .next s) ∧
  (∀ (s : State) (v : Word), hostServed s = true → s.pw.fence ≠ .done → s.ep.frozen = false →
    (∀ d : Fin 5, ∃ u, exec (.registerWrite .host (BitVec.ofNat 48 (0x100 + 8 * d.val)) 3 v) s = .next u ∧ Keeps [.pw, .bw] s u ∧
      die u d.val = if v.getLsbD 48 then { die s d.val with slowest := 0xFFFF } else die s d.val) ∧
    (∀ k : Fin 2048,
      (∃ u, exec (.registerWrite .host (BitVec.ofNat 48 (0x20000 + 16 * k.val)) 3 v) s = .next u ∧
        (look Msix.reset u.ep.msix k.val).addr = v) ∧
      (∃ u, exec (.registerWrite .host (BitVec.ofNat 48 (0x20008 + 16 * k.val)) 3 v) s = .next u ∧
        (look Msix.reset u.ep.msix k.val).data = v.extractLsb' 0 32 ∧ (look Msix.reset u.ep.msix k.val).mask = v.getLsbD 32)) ∧
    (∃ u, exec (.registerWrite .host 0x208 3 v) s = .next u ∧ u.led = s.led)) ∧
  (∀ (s : State) (v : Word), s.wr.st = .serving →
    (∃ u, exec (.registerWrite .wright 0xF00018000208 3 v) s = .next u ∧ Keeps [.led] s u ∧
      u.led = { s.led with braceRate := v.extractLsb' 0 16 }) ∧
    (∀ q : Fin 1024, (queue s q.val).en = true ∨ heldOf s q.val ≠ 0 →
      ∃ u, exec (.registerWrite .wright (BitVec.ofNat 48 (0xF00018100000 + 0x40 * q.val)) 3 v) s = .next u ∧ Keeps [.queue] s u ∧
        (queue u q.val).part = (queue s q.val).part ∧ (queue u q.val).inlineMode = (queue s q.val).inlineMode ∧
        (queue u q.val).rsize = (queue s q.val).rsize ∧ ∀ k, k ≠ q.val → queue u k = queue s k) ∧
    (∃ u, exec (.registerWrite .wright 0xF00018007100 3 v) s = .next u ∧ Keeps [.pw] s u ∧ u.pw.ioSpi = v.extractLsb' 0 2 ∧
      u.pw.ioMgmt = v.extractLsb' 2 2 ∧ u.pw.ioAvs = v.extractLsb' 4 2 ∧ u.pw.ioPmbus = v.extractLsb' 6 2 ∧
      u.pw.ioStatus = v.extractLsb' 8 2 ∧ u.pw.ioTest = v.extractLsb' 10 2) ∧
    (∃ u, exec (.registerWrite .wright 0xF00018007080 3 v) s = .next u ∧ Keeps [.pw] s u ∧
      let lim := (v.extractLsb' 0 8).toNat
      let flo := (v.extractLsb' 16 12).toNat
      u.pw.thLimit = (if 85 ≤ lim ∧ lim ≤ 125 then v.extractLsb' 0 8 else s.pw.thLimit) ∧
      u.pw.thFloor = (if 680 ≤ flo ∧ flo ≤ 950 then v.extractLsb' 16 12 else s.pw.thFloor))) ∧
  (∀ (s : State) (t : Thr) (v : Word), mainOn s = true → (srcEnt s (srcOfThr t)).isOpen = true →
    (∀ p : Fin 8, regionOk s t .store (BitVec.ofNat 48 (0xF00018003000 + 16 * p.val)) = true →
      ∃ u, exec (.registerWrite (.thread t) (BitVec.ofNat 48 (0xF00018003000 + 16 * p.val)) 3 v) s = .next u ∧ Keeps [.part] s u ∧
        part u p.val = { part s p.val with
          kthread := v.extractLsb' 0 10, kkind := v.getLsbD 10, ken := v.getLsbD 11, sprio := v.extractLsb' 12 4
          dprio := v.extractLsb' 16 16, mprio := v.extractLsb' 32 4 }) ∧
    (∀ i : Fin 640, regionOk s t .store (BitVec.ofNat 48 (0xF00018110000 + 8 * i.val)) = true →
      ∃ u, exec (.registerWrite (.thread t) (BitVec.ofNat 48 (0xF00018110000 + 8 * i.val)) 3 v) s = .next u ∧ Keeps [.led] s u ∧
        dispCore u i.val = ⟨v.getLsbD 0, v.extractLsb' 1 4, v.extractLsb' 12 36⟩))

/-- The flush of R305 has begun: no partition sends, and no item's end is undecided. -/
def Sys2Proof.Machine.Flushes (cause : BitVec 8) (s u : State) : Prop :=
  u.pw.flush = some s.time.now ∧ (∀ p, p < 8 → ∀ x ∈ sourcesOf s p, (srcEnt u x).isOpen = false) ∧
    (∀ e, (entry s e).st ≠ .free → (entry s e).st ≠ .closing → (entry u e).st = .free ∨
      ((entry u e).st = .closing ∧ ((entry s e).st ≠ .owned → (entry u e).fail = true ∧ (entry u e).cause = cause)))

/-- The main logic has been reset (R17, R68, R460): every unit and table is at its reset value; TIME, which runs on free, QSEQ_q, the straps, the
flash and the queue of commands stay. A COLD reset also loses generations, site maps and the error log; a WARM reset keeps
them. -/
def Sys2Proof.Machine.MainReset (cold : Bool) (s u : State) : Prop :=
  u.pending = s.pending ∧ u.time = { s.time with alignedSince := false, source := 0, aligned := false } ∧ u.thr = [] ∧ u.core = [] ∧ u.slice = [] ∧
    u.cluster = [] ∧ u.part = [] ∧ u.net = [] ∧ u.ereqs = [] ∧ u.mem = [] ∧ u.old = [] ∧ u.poison = [] ∧
    u.led = Ledger.reset ∧ u.chan = [] ∧ u.region = [] ∧ u.inst = [] ∧ u.ridge = Ridge.reset ∧ u.dimms = s.dimms ∧
    (∀ q, queue u q = { Queue.reset with ai := (queue s q).ai, floor := (queue s q).floor }) ∧
    u.wr.st = .off ∧ u.wr.store.slotA = s.wr.store.slotA ∧ u.wr.store.slotB = s.wr.store.slotB ∧ u.wr.store.active = none ∧
    u.pw.inReset = true ∧ u.pw.flush = none ∧ u.pw.fenced = false ∧ u.pw.ready = Ready.reset ∧ u.pw.retained = [] ∧
    u.pw.straps = s.pw.straps ∧ u.pw.mode = (if s.pw.sillOn then 1 else 0) ∧
    (cold = true → u.bay = [] ∧ u.srcs = [] ∧ u.eng = [] ∧ u.wr.log.length ≤ 1 ∧ u.wr.history.length ≤ 1) ∧
    (cold = false → (∀ x, (srcEnt u x).gen = (srcEnt s x).gen ∧ (srcEnt u x).isOpen = false) ∧
      (∀ c : Fin 160, siteOfCore u c.val = siteOfCore s c.val) ∧
      (∀ b : Fin 40, (bay u b.val).spare = (bay s b.val).spare ∧ (bay u b.val).retired = (bay s b.val).retired ∧
        (bay u b.val).l2 = [] ∧ (bay u b.val).powered = Bay.reset.powered) ∧
      (∀ e : Fin 64, engine u e.val = { Engine.reset with onSpare := (engine s e.val).onSpare }) ∧
      (s.wr.log.length < 16384 → ∃ l, l.length ≤ 1 ∧ u.wr.log = s.wr.log ++ l))

/-- R43, R45, R300, R305, R429, R446, R453, R460, R461 and R508: what powers the sill, latches the straps and resets the
device. A warm reset by RESET_N, by an uncorrectable ledger entry or by WARM_RESET begins with its flush and takes effect
once every record has gone or 1 ms of TIME has passed; a COLD reset takes effect at once.
Where it rests on the model's choices and inferences they are those of log entries 7 and 59. -/
def Obligations.ResetsAndPins : Prop :=
  (∀ s : State,
    (s.pw.sillOn = true → ∃ u, exec .sillPowerLoss s = .next u ∧ u.pw.sillOn = false ∧ u.pw.mode = 0 ∧ u.thr = [] ∧
      u.mem = [] ∧ u.wr.log = [] ∧ u.time = TimeBase.reset ∧ u.wr.store.slotA = s.wr.store.slotA ∧
      u.wr.store.slotB = s.wr.store.slotB ∧ u.wr.store.fuse = s.wr.store.fuse ∧ u.pending = s.pending) ∧
    (s.pw.sillOn = false → exec .sillPowerLoss s = .next s ∧ ∃ u, exec .sillPowerUp s = .next u ∧ u.pw.sillOn = true ∧
      u.pw.mode = 1 ∧ u.pw.modeChanges = 0 ∧ u.wr.log = [] ∧ u.time = TimeBase.reset ∧ u.thr = [] ∧
      u.wr.store.slotA = s.wr.store.slotA) ∧
    (s.pw.sillOn = true → s.pw.pwrgood = true → ∃ u, exec .pwrgoodDeassert s = .next u ∧ u.pw.pwrgood = false ∧
      MainReset true s u) ∧
    (∀ pins : Straps, s.pw.sillOn = true → s.pw.pwrgood = false →
      (∃ u, exec (.strapLatch pins) s = .next u ∧
        u.pw = { s.pw with straps := pins, ioMgmt := if pins.mgmtI3c then 1 else 0 } ∧ Keeps [.pw] s u) ∧
      (∃ u, exec (.pwrgoodAssert pins) s = .next u ∧ u.pw.straps = pins ∧ u.pw.pwrgood = true ∧ u.pw.mode = modeNow u)) ∧
    (∀ pins : Straps, s.pw.pwrgood = true → exec (.strapLatch pins) s = .next s ∧ exec (.pwrgoodAssert pins) s = .next s) ∧
    (∀ level : Bool, s.pw.sillOn = true →
      (s.pw.resetN ≠ level → ∃ u, exec (.resetNChange level) s = .next u ∧ Keeps [.pw] s u ∧
        u.pw = { s.pw with resetN := level, resetNAt := s.time.now }) ∧
      (s.pw.resetN = level → exec (.resetNChange level) s = .next s)) ∧
    (∀ mv : BitVec 16, s.pw.sillOn = true →
      (railVolt s 4 mv < 680 → ∃ u, exec (.vhubResetCrossing mv) s = .next u ∧ MainReset true s u ∧ (rail u 4).below = true) ∧
      (railVolt s 11 mv < 1550 → ∃ u, exec (.vio18ResetCrossing mv) s = .next u ∧ MainReset true s u ∧ (rail u 11).below = true) ∧
      (680 ≤ railVolt s 4 mv → exec (.vhubResetCrossing mv) s = .next s) ∧
      (1550 ≤ railVolt s 11 mv → exec (.vio18ResetCrossing mv) s = .next s)) ∧
    (mainOn s = true → s.pw.flush = none →
      (s.pw.resetN = false → s.pw.resetNAt.toNat + 2000000 ≤ s.time.now.toNat →
        ∃ u, exec .resetNDebounce s = .next u ∧ Flushes 0x0D s u) ∧
      (∀ e : Fin 65536, ∃ u, exec (.ledgerUe e .double .double) s = .next u ∧ Flushes 0x0D s u) ∧
      (∀ (m : Mbox) (d : BitVec 16) (l : List Byte), (box s m).resp = some ⟨0, d, l⟩ → boxCode (box s m) = 0x307 →
        isUrgent m = true ∨ s.wr.st ≠ .restarting → ∃ u, exec (.commandComplete m) s = .next u ∧ (box u m).st = 2 ∧
          u.pw.flush = some s.time.now)) ∧
    (∀ (e : Fin 65536) (a b : EccFind), ¬ (a = .double ∧ b = .double) → ∃ u, exec (.ledgerUe e a b) s = .next u ∧
      Keeps [.led] s u ∧ u.led = { s.led with ce := satAdd s.led.ce ([a, b].count .single) }) ∧
    (s.pw.resetN = true ∨ s.time.now.toNat < s.pw.resetNAt.toNat + 2000000 → exec .resetNDebounce s = .next s) ∧
    (∀ t : Word, s.pw.flush = some t →
      (inflight s = 0 ∨ t.toNat + 1000000 ≤ s.time.now.toNat → ∃ u, exec .warmResetEffect s = .next u ∧ MainReset false s u) ∧
      (inflight s ≠ 0 → s.time.now.toNat < t.toNat + 1000000 → exec .warmResetEffect s = .next s)) ∧
    (s.pw.flush = none → exec .warmResetEffect s = .next s))

/-- R40, R41, R336, R415, R462 to R464, R440 and R474: bring-up and the Wright. Bring-up starts with the boot value on every
compute rail; a die's self-test powers its clusters and takes what failed out of use; the boot ROM serves from the first
of the boot default and the other slot that verifies, and from neither it goes on booting; a partition starts its core
threads at M at its monitor's entry or stays RESTARTING; bring-up is done when every function named is settled, or at
BRINGUP_TMO when what is not has failed.
R416, R439, R440 and R441: the watchdog restarts the Wright and stops it on the third restart within 10 s; a live update
begins once the commands taken before it have completed, serves from the new slot, or returns to the old one.
Where it rests on the model's choices and inferences they are those of log entries 7, 43, 62, 63, 65 and 112. -/
def Obligations.BringUp : Prop :=
  ((∀ s : State, mayBringUp s = true → s.pw.fenced = false → ∃ u, exec .bringupStart s = .next u ∧ u.pw.inReset = false ∧
     u.pw.bringing = true ∧ u.pw.mode = 2 ∧ u.pw.bringupAt = s.time.now ∧ u.wr.st = .booting ∧
     u.pw.ready.ledger = true ∧ u.pw.ready.events = true ∧ ∀ d : Fin 4, (rail u d.val).req = some (900, s.time.now)) ∧
   (∀ s : State, mayBringUp s = false → exec .bringupStart s = .next s) ∧
   (∀ (s : State) (d : Fin 4) (sites : List (Fin 10 × Fin 5)) (bays : BitVec 10) (clusters : BitVec 4),
     mainOn s = true → (die s d.val).powered = true → (die s d.val).tested = false → (die s d.val).railDown = false →
     ∃ u, exec (.selfTestDone d sites bays clusters) s = .next u ∧ (die u d.val).tested = true ∧
       (∀ y : Fin 10, (bay u (10 * d.val + y.val)).failed = ((bay s (10 * d.val + y.val)).failed || bays.getLsbD y.val)) ∧
       (∀ k : Fin 4, (cluster u (4 * d.val + k.val)).powered = true ∧ ∀ i : Fin 4,
         let e := 4 * (4 * d.val + k.val) + i.val
         (engine u e).outOfService = ((engine s e).outOfService || clusters.getLsbD k.val)) ∧
       (sites = [] → ∀ c : Fin 160, siteOfCore u c.val = siteOfCore s c.val) ∧
       (∀ (y : Fin 10) (v : Fin 5) (c : Fin 160), sites = [(y, v)] → c.val / 4 = 10 * d.val + y.val →
         siteOfCore s c.val = BitVec.ofNat 3 v.val →
         (∀ k : Fin 160, k ≠ c → k.val / 4 = c.val / 4 → siteOfCore s k.val ≠ BitVec.ofNat 3 v.val) →
         (bay u (c.val / 4)).bad.getLsbD v.val = true ∧
         ((bay s (c.val / 4)).spare ≠ BitVec.ofNat 3 v.val → hasSpare s (.core c) = true →
           siteOfCore u c.val = (bay s (c.val / 4)).spare ∧ (bay u (c.val / 4)).spare = 7 ∧
           (srcEnt u (.core c)).gen = (srcEnt s (.core c)).gen + 1) ∧
         (hasSpare s (.core c) = false → siteOfCore u c.val = 7))) ∧
   (∀ s : State, mainOn s = true → s.pw.clkWright = false → s.wr.st = .booting → s.wr.update = .none →
     let d := bootDefault s.wr.store
     let serves := fun (a : Bool) (u : State) => u.wr.st = .serving ∧ u.wr.store.active = some a ∧
       (slotOf u.wr.store a).cond = 1 ∧ u.pw.ready.wright = true ∧ u.pw.ready.store = true ∧ (inst u 0).st = 1 ∧
       (rail u 4).req = some (850, s.time.now)
     (slotPasses s d = true → ∃ u, exec .wrightServing s = .next u ∧ serves d u) ∧
     (slotPasses s d = false → slotPasses s (!d) = true → ∃ u, exec .wrightServing s = .next u ∧ serves (!d) u ∧
       (slotOf u.wr.store d).cond = 3) ∧
     (slotPasses s d = false → slotPasses s (!d) = false → ∃ u, exec .wrightServing s = .next u ∧ u.wr.st = .booting ∧
       (slotOf u.wr.store d).cond = 3 ∧ (slotOf u.wr.store (!d)).cond = 3)) ∧
   (∀ (s : State) (p : Fin 8) (x : Monitor), s.wr.st = .serving → s.pw.fenced = false → s.pw.bringing = false →
     startPending s p.val = true → lowestReady s p.val = true → (∀ b, (part s p.val).bays.getLsbD b = true → (bay s b).failed = false) →
     (monitorOf s p.val = some x → monitorFits s x = true → ∀ g r, (part s p.val).ranges = g :: r →
       ∃ u, exec (.monitorImageLoaded p true true) s = .next u ∧
         (part u p.val).st = (if holdsQueue s p.val then .active else .standby) ∧ u.pw.ready.part.getLsbD p.val = true ∧
         (∀ k ∈ sourcesOf s p.val, (srcEnt u k).isOpen = true) ∧
         ∀ t ∈ startingThreads s p.val,
           let base := g.toNat * 2 ^ 30 + x.loadOff
           (thr u t).run = .running ∧ (thr u t).tstat = Thread.reset.tstat ∧ (thr u t).pc = BitVec.ofNat 64 (base + x.entryOff) ∧
           (readG (thr u t) 1).val = BitVec.ofNat 64 p.val ∧ (readG (thr u t) 2).val = (part s p.val).reason.setWidth 64 ∧
           (readG (thr u t) 3).val = (part s p.val).cause.setWidth 64 ∧ ∀ r : BitVec 5, 4 ≤ r.toNat → (readG (thr u t) r).val = 0) ∧
     (∀ copied digestOk : Bool, monitorOf s p.val = none ∨ copied = false ∨ digestOk = false →
       ∃ u, exec (.monitorImageLoaded p copied digestOk) s = .next u ∧ (part u p.val).st = .restarting ∧
         (part u p.val).startFailed = true ∧ ∀ t, (thr u t).calm = (thr s t).calm)) ∧
   (∀ s : State, s.pw.bringing = true → s.wr.st = .serving →
     let settled := s.pw.ready.vset = true ∧ (∀ c ∈ expectedChans s, chanSettled s c = true) ∧
       (∀ x ∈ expectedPorts s, portSettled s x = true) ∧ ∀ p, p < 8 → partSettled s p = true
     let late := s.pw.bringupAt.toNat + s.pw.bringupTmo.toNat ≤ s.time.now.toNat
     let done := fun (u : State) => u.pw.bringing = false ∧ u.pw.bringupDone = true ∧ u.pw.mode = modeNow u
     (settled → ∃ u, exec .bringupDone s = .next u ∧ done u) ∧ (¬ settled → exec .bringupDone s = .next s) ∧
     (¬ late → exec .bringupTimeout s = .next s) ∧
     (late → ∃ u, exec .bringupTimeout s = .next u ∧ done u ∧
       (∀ c ∈ expectedChans s, chanSettled s c = false → (chan s c).st ≠ 0 → (chan u c).st = 4) ∧
       (∀ x ∈ expectedPorts s, portSettled s x = false → (port u (portIx x)).st = 5) ∧
       (∀ p, p < 8 → partSettled s p = false → (part u p).st = .restarting ∧ (part u p).startFailed = true)))) ∧
  (∀ s : State,
     let recent := s.wr.restarts.filter (fun t => decide (s.time.now.toNat < t.toNat + 10000000000))
     let due := s.wr.wdServed.toNat + 50000000 ≤ s.time.now.toNat
     (s.wr.st ≠ .serving ∨ ¬ due → exec .watchdogExpire s = .next s) ∧
     (s.wr.st = .serving → due → recent.length < 2 → ∃ u, exec .watchdogExpire s = .next u ∧ u.wr.st = .restarting ∧
       u.wr.restarts = recent ++ [s.time.now] ∧ u.wr.sistering = [] ∧ u.pw.ready.wright = false ∧
       (∀ (m : Mbox) (a : Bool), s.wr.update = .taken m a → (box u m).resp = some ⟨8, 0xFFFF, []⟩ ∧ u.wr.update = .none)) ∧
     (s.wr.st = .serving → due → 2 ≤ recent.length → ∃ u, exec .watchdogExpire s = .next u ∧ u.wr.st = .stopped ∧
       u.pw.ready.wright = false ∧ ∀ m, isUrgent m = false → (box s m).st = 1 → (box u m).st = 2 ∧
         pageWord (box u m) 8 = 0x0C ||| at' (box s m).lastSeq 32) ∧
     (∀ (m : Mbox) (a : Bool), s.wr.update = .taken m a → s.wr.st = .serving →
       ((∀ k ∈ s.wr.order, k = m) → ∃ u, exec .activateRestart s = .next u ∧ u.wr.st = .restarting ∧
         u.wr.update = .starting m a s.time.now ∧ u.pw.ready.wright = false) ∧
       ((∃ k ∈ s.wr.order, k ≠ m) → exec .activateRestart s = .next s)) ∧
     (∀ (m : Mbox) (a : Bool) (t : Word), s.wr.update = .starting m a t →
       (t.toNat + 200000000 ≤ s.time.now.toNat → ∃ u, exec .activateTimeout s = .next u ∧ Keeps [.wr] s u ∧
         u.wr = { s.wr with update := .returning m a }) ∧
       (s.time.now.toNat < t.toNat + 200000000 → exec .activateTimeout s = .next s) ∧
       (s.wr.st = .restarting → mainOn s = true → s.pw.clkWright = false → slotPasses s a = true → s.wr.store.active ≠ none →
         ∃ u, exec .wrightServing s = .next u ∧ u.wr.st = .serving ∧ u.wr.store.active = some a ∧ u.wr.update = .none ∧
           u.pw.ready.wright = true ∧ (box u m).resp = some ⟨0, 0, slotBytes (slotOf s.wr.store a) 8 8⟩)) ∧
     (∀ (m : Mbox) (a b : Bool), s.wr.update = .returning m a → s.wr.store.active = some b → s.wr.st = .restarting →
       mainOn s = true → s.pw.clkWright = false → ∃ u, exec .wrightServing s = .next u ∧ u.wr.st = .serving ∧
         u.wr.store.active = some b ∧ u.wr.update = .none ∧ (box u m).resp = some ⟨8, 1, []⟩) ∧
     (∀ b : Bool, s.wr.update = .none → s.wr.store.active = some b → s.wr.st = .restarting → mainOn s = true →
       s.pw.clkWright = false →
       (slotPasses s b = true → ∃ u, exec .wrightServing s = .next u ∧ u.wr.st = .serving ∧ u.wr.store.active = some b ∧
         u.pw.ready.wright = true ∧ ∃ e ∈ u.wr.log, e.type = 0x0A ∧ e.b = fwVersion (slotOf s.wr.store b)) ∧
       (slotPasses s b = false → exec .wrightServing s = .next s)))

/-- The braced condition and its mode (R40, R448). -/
def Sys2Proof.Machine.Braced (u : State) : Prop := u.pw.braced = true ∧ u.pw.mode = modeNow u

/-- R26, R65, R66, R445 to R453: a condition of a rail goes by the lower of its measured level and its setpoint, a lowered one
from its request on; a rail below its warning level raises the braced condition and counts one crossing; a reset
crossing does what its row of R446 says; the condition clears only when every rail that crossed has been clear for 50 us
and every thermal limit has cleared; a die reads the highest of its four sensors; at LIMIT it is a thermal limit and at
130 °C the device trips; throttling moves a setpoint by STEP_MV, down to FLOOR_MV and back to the operating point; a
setpoint holds once its regulator has acknowledged it.
R54 to R57, R59, R60 and R62 to R64: a sill cycle advances TIME by the period of its clock and the rate correction, and
never backwards; an alignment steps TIME only on the first after a SILL reset, or the first after a reset with no
partition ACTIVE, and otherwise sets the rate; REF_LOST clears ALIGNED; a beat monitor takes its window's count; a block whose
clock is stopped makes no progress, what comes for it enters its crossing in order and up to its depth, and all of it goes
on once the clock runs again.
Where it rests on the model's choices and inferences they are those of log entries 7, 43, 47, 48, 63 and 79. -/
def Obligations.RailsHeatAndTime : Prop :=
  ((∀ (s : State) (r : Nat) (mv : BitVec 16),
     let x := rail s r
     (x.set = 0 → railVolt s r mv = mv.toNat) ∧
     (x.set ≠ 0 → railVolt s r mv ≤ mv.toNat ∧ railVolt s r mv ≤ x.set.toNat ∧
       (∀ w t, x.req = some (w, t) → w.toNat < x.set.toNat → railVolt s r mv ≤ w.toNat) ∧
       (railVolt s r mv = mv.toNat ∨ railVolt s r mv = x.set.toNat ∨
         ∃ w t, x.req = some (w, t) ∧ w.toNat < x.set.toNat ∧ railVolt s r mv = w.toNat))) ∧
   (∀ (s : State) (r : Rail) (mv : BitVec 16), watched s (railNo r) = true →
     let k := railNo r
     let x := rail s k
     (railVolt s k mv < warnLevel k → ∃ u, exec (.railWarning r mv) s = .next u ∧ Braced u ∧
       rail u k = { x with
         meas := mv, warn := true, crossed := true, exitFrom := none, warns := if x.warn then x.warns else satInc x.warns }) ∧
     (warnLevel k ≤ railVolt s k mv → exec (.railWarning r mv) s = .next s) ∧
     (∃ u, exec (.railRecovery r mv) s = .next u ∧ (rail u k).meas = mv ∧
       (rail u k).warn = (x.warn && decide (railVolt s k mv < warnLevel k)) ∧
       (rail u k).below = (x.below && decide (railVolt s k mv < resetLevel k)) ∧
       (rail u k).exitFrom = (if warnLevel k + 20 ≤ mv.toNat ∧ x.crossed = true then some (x.exitFrom.getD s.time.now) else none))) ∧
   (∀ s : State,
     (s.pw.braced = true → thermalClear s = true → railsClear s = true → ∃ u, exec .bracedExit s = .next u ∧
       u.pw.braced = false ∧ u.pw.mode = modeNow u ∧ ∀ r, (rail u r).crossed = false) ∧
     (s.pw.braced = false ∨ thermalClear s = false ∨ railsClear s = false → exec .bracedExit s = .next s)) ∧
   (∀ (s : State) (mv : BitVec 16), mainOn s = true →
     (∀ d : Fin 4,
       (railVolt s d.val mv < 550 → ∃ u, exec (.vcoreResetCrossing d mv) s = .next u ∧ Braced u ∧ (die u d.val).railDown = true ∧
         (die u d.val).stalled = true ∧ u.pw.ready.die.getLsbD d.val = false ∧
         ∀ p, p < 8 → (part s p).st = .active ∨ (part s p).st = .standby →
           ((∃ b, (part s p).bays.getLsbD b = true ∧ b / 10 = d.val) ∨ ∃ e, (part s p).engines.getLsbD e = true ∧ e / 16 = d.val) →
           (part u p).st = .down ∧ (part u p).cause = 8) ∧
       (550 ≤ railVolt s d.val mv → exec (.vcoreResetCrossing d mv) s = .next s) ∧
       (550 ≤ railVolt s d.val mv → railVolt s d.val mv < 580 → ∃ u, exec (.dieStall d mv) s = .next u ∧ Braced u ∧ (die u d.val).stalled = true) ∧
       (580 ≤ railVolt s d.val mv → exec (.dieStall d mv) s = .next s) ∧
       (580 ≤ railVolt s d.val mv → (die s d.val).railDown = false → ∃ u, exec (.dieResume d mv) s = .next u ∧ Keeps [.pw] s u ∧
         die u d.val = { die s d.val with stalled := false } ∧ (rail u d.val).meas = mv)) ∧
     (∀ g : Fin 4,
       (railVolt s (6 + g.val) mv < 1050 → ∃ u, exec (.vddqResetCrossing g mv) s = .next u ∧ Braced u ∧
         ∀ c : Fin 16, c.val / 4 = g.val → (chan s c.val).st ≠ 0 → (chan u c.val).st = 4) ∧
       (1050 ≤ railVolt s (6 + g.val) mv → exec (.vddqResetCrossing g mv) s = .next s)) ∧
     (railVolt s 10 mv < 800 → ∃ u, exec (.vserdesResetCrossing mv) s = .next u ∧ Braced u ∧ u.ep.up = false ∧
       ∀ x : Port, (port s (portIx x)).st ≠ 0 → (port u (portIx x)).st = 5) ∧
     (800 ≤ railVolt s 10 mv → exec (.vserdesResetCrossing mv) s = .next s)) ∧
   (∀ (s : State) (d : Fin 4) (t : Word), mainOn s = true → s.wr.st = .serving → (die s d.val).recoverFrom = some t →
     (die s d.val).railDown = true →
     (s.time.now.toNat < t.toNat + 50000 → ∀ pass, exec (.dieRailRecovered d pass) s = .next s) ∧
     (t.toNat + 50000 ≤ s.time.now.toNat →
       (∃ u, exec (.dieRailRecovered d true) s = .next u ∧ (die u d.val).railDown = false ∧ (die u d.val).tested = true ∧
         (die u d.val).stalled = false ∧ (rail u d.val).req = some ((die s d.val).opPoint, s.time.now)) ∧
       (∃ u, exec (.dieRailRecovered d false) s = .next u ∧ (die u d.val).railDown = true ∧ (die u d.val).tested = false))) ∧
   (∀ (s : State) (d : Fin 5) (a b c e : BitVec 16), s.pw.sillOn = true →
     let top := fun (v : BitVec 16) => (v = a ∨ v = b ∨ v = c ∨ v = e) ∧ a.toInt ≤ v.toInt ∧ b.toInt ≤ v.toInt ∧
       c.toInt ≤ v.toInt ∧ e.toInt ≤ v.toInt
     ∃ u v, exec (.thermalSample d a b c e) s = .next u ∧ top v ∧ (die u d.val).tj = v ∧ (v.toInt < 1040 → (die u d.val).tjReg = v) ∧
       (1040 ≤ v.toInt → u.pw.thermtrip = true ∧ MainReset true s u) ∧
       (v.toInt < 1040 → standbyCond s = false → (s.pw.thLimit.toNat : Int) * 8 ≤ v.toInt →
         (die u d.val).hot = true ∧ Braced u) ∧
       (v.toInt < 1040 → v.toInt < (s.pw.thLimit.toNat : Int) * 8 → (die u d.val).hot = (die s d.val).hot ∧
         u.pw.braced = s.pw.braced)) ∧
   (∀ (s : State) (c : Fin 16) (slot : Fin 2) (v : BitVec 16), mainOn s = true →
     (if slot.val = 0 then (dimms s c.val).slot0 else (dimms s c.val).slot1).isSome = true →
     ∃ u, exec (.dimmTempSample c slot v) s = .next u ∧
       (slot.val = 0 → (chan u c.val).dimmT0 = v) ∧ (slot.val = 1 → (chan u c.val).dimmT1 = v) ∧
       (760 < v.toInt → (chan u c.val).hot = true ∧ Braced u) ∧
       (v.toInt ≤ 760 → (chan u c.val).hot = (chan s c.val).hot ∧ u.pw.braced = s.pw.braced)) ∧
   (∀ s : State,
     let cooled := (∀ d, d < 5 → (die s d).tj.toInt ≤ ((s.pw.thLimit.toNat : Int) - s.pw.thHyst.toNat) * 8 ∧
         ∀ t, (die s d).clearFrom = some t → t.toNat + 10000000 ≤ s.time.now.toNat) ∧
       ∀ c, c < 16 → (chan s c).dimmT0.toInt ≤ 720 ∧ (chan s c).dimmT1.toInt ≤ 720 ∧
         ∀ t, (chan s c).coolFrom = some t → t.toNat + 10000000 ≤ s.time.now.toNat
     (cooled → ∃ u, exec .thermalLimitClear s = .next u ∧ thermalClear u = true ∧
       (railsClear s = true → u.pw.braced = false)) ∧
     (¬ cooled → exec .thermalLimitClear s = .next s)) ∧
   (∀ (s : State) (d : Fin 4), mainOn s = true → s.wr.st = .serving → (rail s d.val).req = none → (rail s d.val).set ≠ 0 →
     (∀ t, (die s d.val).stepAt = some t → t.toNat + 1000000 ≤ s.time.now.toNat) →
     let x := die s d.val
     let set := (rail s d.val).set.toNat
     let hot := (s.pw.thLimit.toNat : Int) * 8 ≤ x.tj.toInt
     let asks := fun (mv : Nat) => ∃ u, exec (.throttleStep d) s = .next u ∧ Keeps [.pw, .out] s u ∧
       (rail u d.val).req = some (BitVec.ofNat 16 mv, s.time.now) ∧ (die u d.val).stepAt = some s.time.now
     (hot → (rail s d.val).warn = false → s.pw.thFloor.toNat < set → s.pw.thStep ≠ 0 →
       asks (Nat.max s.pw.thFloor.toNat (set - s.pw.thStep.toNat))) ∧
     (¬ hot → thermalClear s = true → x.throttled = true → set < x.opPoint.toNat →
       asks (Nat.min x.opPoint.toNat (set + s.pw.thStep.toNat))) ∧
     (hot → set ≤ s.pw.thFloor.toNat → (rail s d.val).warn = false → exec (.throttleStep d) s = .next s) ∧
     (¬ hot → thermalClear s = false → exec (.throttleStep d) s = .next s)) ∧
   (∀ (s : State) (r : Rail) (mv want : BitVec 16) (t : Word), (rail s (railNo r)).req = some (want, t) →
     let k := railNo r
     let fits := if k < 4 then want.toNat ≤ mv.toNat + 10 ∧ mv.toNat ≤ want.toNat + 10
       else 99 * want.toNat ≤ 100 * mv.toNat ∧ 100 * mv.toNat ≤ 101 * want.toNat
     (mainOn s = true → fits → ∃ u, exec (.regulatorAck r mv) s = .next u ∧ (rail u k).set = want ∧ (rail u k).req = none ∧
       (rail u k).meas = mv ∧ (k < 5 → (die u k).vsetMv = want) ∧ (k < 4 → (die u k).powered = true)) ∧
     (¬ fits → exec (.regulatorAck r mv) s = .next s) ∧
     (t.toNat + 1000000 ≤ s.time.now.toNat → ∃ u, exec (.regulatorAckTimeout r) s = .next u ∧ (rail u k).set = (rail s k).set ∧
       (rail u k).req = none ∧ (s.wr.st = .serving → ∃ a, u.wr.log.getLast? = some ⟨s.time.now, s.wr.logNext, 0x0C, a, (rail s k).meas.setWidth 64⟩)) ∧
     (s.time.now.toNat < t.toNat + 1000000 → exec (.regulatorAckTimeout r) s = .next s)) ∧
   (∀ (s : State) (l d : Fin 4), mainOn s = true →
     (∃ u, exec (.neighbourLinkFail l 0) s = .next u ∧ u.pw.linksFailed = setBit s.pw.linksFailed l.val true ∧
       u.pw.mode = modeNow u ∧ degraded u = true) ∧
     (∀ on : BitVec 8, ∃ u, exec (.hubLinkFail d on) s = .next u ∧ (die u d.val).linkFailed = true ∧
       u.pw.ready.die.getLsbD d.val = false ∧ ∀ p, p < 8 → (part s p).st = .active ∨ (part s p).st = .standby →
         ((∃ b, (part s p).bays.getLsbD b = true ∧ b / 10 = d.val) ∨ ∃ e, (part s p).engines.getLsbD e = true ∧ e / 16 = d.val) →
         (part u p).st = .down))) ∧
  ((∀ s : State, s.pw.sillOn = true → s.pw.clkSill = false → s.time.now.toNat + 100 < 2 ^ 64 →
     -21474836 ≤ s.time.corr.toInt → s.time.corr.toInt ≤ 21474836 →
     let p : Int := if s.time.refLost then 40 else 10
     ∃ u, exec .sillClockTick s = .next u ∧ s.time.now.toNat ≤ u.time.now.toNat ∧
       (u.time.now.toNat : Int) * 2 ^ 32 + u.time.frac.toNat
         = s.time.now.toNat * 2 ^ 32 + s.time.frac.toNat + p * 2 ^ 32 + s.time.corr.toInt * (p / 10) ∧
       u.time = { s.time with now := u.time.now, frac := u.time.frac } ∧ ∀ t, (thr u t).g = (thr s t).g ∧ (thr u t).pc = (thr s t).pc) ∧
   (∀ s : State, s.pw.sillOn = false ∨ s.pw.clkSill = true → exec .sillClockTick s = .next s) ∧
   (∀ s : State, s.pw.sillOn = true →
     (∃ u, exec .refLost s = .next u ∧ Keeps [.time] s u ∧ u.time = { s.time with refLost := true, aligned := false }) ∧
     (∃ u, exec .refRestored s = .next u ∧ Keeps [.time] s u ∧ u.time = { s.time with refLost := false })) ∧
   (∀ (s : State) (off : BitVec 64), mainOn s = true → s.pw.straps.frameHead = true → s.ep.up = true → timeSource s = 1 →
     let steps := s.time.alignedOnce = false ∨ (s.time.alignedSince = false ∧ ∀ p, p < 8 → (part s p).st ≠ .active)
     ∃ u, exec (.ptmRefresh off) s = .next u ∧ Keeps [.time] s u ∧ u.time.source = 1 ∧ u.time.alignedOnce = true ∧
       u.time.alignedSince = true ∧ u.time.refLost = s.time.refLost ∧
       (steps → u.time.now = s.time.now - off ∧ u.time.steps = s.time.steps + 1 ∧ u.time.corr = s.time.corr) ∧
       (¬ steps → u.time.now = s.time.now ∧ u.time.steps = s.time.steps ∧ -21474836 ≤ u.time.corr.toInt ∧ u.time.corr.toInt ≤ 21474836) ∧
       (-32767 ≤ off.toInt → off.toInt ≤ 32767 → u.time.offset.toInt = off.toInt) ∧
       (s.time.refLost = false → (steps ∨ off.toInt.natAbs ≤ 40) → u.time.aligned = true) ∧
       (s.time.refLost = true ∨ (¬ steps ∧ 40 < off.toInt.natAbs) → u.time.aligned = false)) ∧
   (∀ (s : State) (m : Fin 5) (n : BitVec 16), mainOn s = true →
     let on := m.val = 4 ∨ (die s m.val).powered = true
     let past := (die s m.val).winFrom.toNat + 4096 ≤ s.time.now.toNat
     (on → past → ∃ u, exec (.beatWindowEnd m n) s = .next u ∧ Keeps [.pw] s u ∧ die u m.val = { die s m.val with
       beats := n, slowest := BitVec.ofNat 16 (Nat.min n.toNat (die s m.val).slowest.toNat), winFrom := s.time.now }) ∧
     (¬ on ∨ ¬ past → exec (.beatWindowEnd m n) s = .next s) ∧
     (∃ u, exec (.beatMonClr m) s = .next u ∧ Keeps [.pw] s u ∧ die u m.val = { die s m.val with slowest := 0xFFFF })) ∧
   (∀ s : State,
     (∃ u, exec (.clockStop .sill) s = .next u ∧ u.pw = { s.pw with clkSill := true } ∧ Keeps [.pw] s u) ∧
     (∃ u, exec (.clockStop .wright) s = .next u ∧ u.pw = { s.pw with clkWright := true } ∧ Keeps [.pw] s u) ∧
     (∃ u, exec (.clockStop .endpoint) s = .next u ∧ u.pw = { s.pw with clkEp := true } ∧ Keeps [.pw] s u) ∧
     (∀ c : Fin 16, ∃ u, exec (.clockStop (.ddr c)) s = .next u ∧ Keeps [.pw] s u ∧
       u.pw = { s.pw with clkDdr := setBit s.pw.clkDdr c.val true } ∧ chanLive u c.val = false) ∧
     (s.xing = [] → ∃ u, exec (.pllRelock .sill) s = .next u ∧ u.pw = { s.pw with clkSill := false } ∧ Keeps [.pw] s u) ∧
     (s.xing = [] → ∃ u, exec (.pllRelock .wright) s = .next u ∧ u.pw = { s.pw with clkWright := false } ∧ Keeps [.pw] s u) ∧
     (s.xing = [] → ∃ u, exec (.pllRelock .endpoint) s = .next u ∧ u.pw.clkEp = false) ∧
     (s.xing = [] → ∀ c : Fin 16, ∃ u, exec (.pllRelock (.ddr c)) s = .next u ∧ Keeps [.pw] s u ∧
       u.pw = { s.pw with clkDdr := setBit s.pw.clkDdr c.val false }) ∧
     (s.xing = [] → ∀ x : Port, ∃ u, exec (.pllRelock (.ridge x)) s = .next u ∧ u.pw.clkRidge.getLsbD (portIx x) = false) ∧
     (∀ (i slot : Fin 256) (v : Word) (whole vc1 : Bool), s.xing = [] → s.pw.clkEp = true →
       ∃ u w t, exec (.doorbell i slot v whole vc1) s = .next u ∧ Keeps [.xing] s u ∧
         crossingOf u .endpoint = { Crossing.reset with toFabric := [⟨1, .doorbell i slot v whole vc1⟩] } ∧
         exec (.doorbell i slot v whole vc1) { s with pw := { s.pw with clkEp := false } } = .next w ∧
         exec (.pllRelock .endpoint) u = .next t ∧ t = pumpEndpoint w)) ∧
   (∀ (s : State) (b : Clk) (e : XEnt),
     let x := crossingOf s b
     let y := crossingOf (enterCrossing b true e s) b
     let z := crossingOf (enterCrossing b false e s) b
     y.toFabric ++ y.heldFabric = x.toFabric ++ x.heldFabric ++ [e] ∧ z.toBlock ++ z.heldBlock = x.toBlock ++ x.heldBlock ++ [e] ∧
       (usedEntries x.toFabric ≤ crossingDepth b → usedEntries y.toFabric ≤ crossingDepth b) ∧
       (usedEntries x.toBlock ≤ crossingDepth b → usedEntries z.toBlock ≤ crossingDepth b)))

/-! ## The block as a whole -/

/-- A step takes the command at the front of the queue and runs it with the queue's rest; with an empty queue the block
idles, which is the model's choice (log entry 2). -/
def Obligations.StepRunsFrontCommand : Prop :=
  (∀ (c : Instr) (s : State), step { s with pending := c :: s.pending } = exec c s) ∧
    ∀ s : State, s.pending = [] → step s = .next s

/-- What reset leaves: the sill powered with PWRGOOD deasserted, so the mode is STANDBY and TIME is 0 (R41, R59); no
command waits; every table and queue is empty and no thread has started; bay b's logical core c is on site c with site 4
its spare, and every source is at generation 0 (R29, R30); memory lists nothing.
Where it rests on the model's choices and inferences they are those of log entries 4, 11 and 12. -/
def Obligations.ResetState : Prop :=
  let s := State.reset
  s.pending = [] ∧ s.pw.mode = 1 ∧ modeNow s = 1 ∧ s.pw.modeChanges = 0 ∧ s.time.now = 0 ∧ s.mem = [] ∧ s.memOk ∧
    s.wr.st = .off ∧ s.pw.ready = Ready.reset ∧ inflight s = 0 ∧ s.net = [] ∧ s.xing = [] ∧
    (∀ t, (thr s t).run = .notStarted ∧ (thr s t).tstat.priv = .M) ∧
    (∀ c : Fin 160, siteOfCore s c.val = BitVec.ofNat 3 (c.val % 4)) ∧ (∀ b : Fin 40, (bay s b.val).spare = 4) ∧
    (∀ x, (srcEnt s x).gen = 0) ∧ (∀ p, (part s p).st = .unused) ∧ (∀ q, (queue s q).en = false)

/-- No step takes memory, the set of poisoned lines or the stale DRAM lines out of their canonical form, from any state
that has them in it; and no command puts a command into the queue or takes one from it.
Where it rests on the model's choices and inferences they are those of log entries 4 and 14. -/
def Obligations.MemoryFormKept : Prop :=
  (∀ s u : State, s.memOk → step s = .next u → u.memOk) ∧
    ∀ (c : Instr) (s u : State), exec c s = .next u → u.pending = s.pending
end

