-- ==== Sys2Proof/Laws/Tables.lean ====
section
/-! SUPPORT. Laws of the sparse tables: what a write reads back, that every write keeps the canonical form, and that a
canonical table is determined by what it reads. -/
namespace Sys2Proof.Machine

variable {α : Type}

@[simp] theorem look_nil (d : α) (k : Nat) : look d [] k = d := rfl

@[simp] theorem look_drop (d : α) (t : Tbl α) (k i : Nat) : look d (drop t k) i = if i = k then d else look d t i := by
  induction t with
  | nil => simp [drop, look]
  | cons e t ih =>
    obtain ⟨j, v⟩ := e
    by_cases hj : j = k <;> by_cases hi : i = k <;> by_cases hji : j = i <;> simp_all [drop, look]

@[simp] theorem look_place (d : α) (t : Tbl α) (k i : Nat) (v : α) :
    look d (place t k v) i = if i = k then v else look d t i := by
  induction t with
  | nil => simp [place, look, eq_comm]
  | cons e t ih =>
    obtain ⟨j, w⟩ := e
    simp only [place]
    split
    · subst_vars; by_cases hi : i = j <;> simp [look, hi, eq_comm]
    · split
      · simp only [look, eq_comm]
      · simp only [look, ih]
        by_cases hji : j = i
        · subst hji; simp_all
        · simp [hji]

/-- Reading a table that has been written. -/
@[simp] theorem look_put [DecidableEq α] (d : α) (t : Tbl α) (k i : Nat) (v : α) :
    look d (put d t k v) i = if i = k then v else look d t i := by
  unfold put
  split
  · subst_vars; simp
  · simp

theorem look_put_self [DecidableEq α] (d : α) (t : Tbl α) (k : Nat) (v : α) : look d (put d t k v) k = v := by simp

theorem look_put_other [DecidableEq α] (d : α) (t : Tbl α) {k i : Nat} (v : α) (h : i ≠ k) :
    look d (put d t k v) i = look d t i := by simp [h]

@[simp] theorem look_edit [DecidableEq α] (d : α) (f : α → α) (t : Tbl α) (k i : Nat) :
    look d (edit d f t k) i = if i = k then f (look d t k) else look d t i := by simp [edit]

/-! ## The canonical form -/

theorem risingFrom_mono {a b : Nat} (h : a ≤ b) (t : Tbl α) : risingFrom b t = true → risingFrom a t = true := by
  cases t with
  | nil => simp [risingFrom]
  | cons e t => simp only [risingFrom, Bool.and_eq_true, decide_eq_true_eq]; exact fun h' => ⟨by omega, h'.2⟩

theorem risingFrom_drop (t : Tbl α) (k a : Nat) (h : risingFrom a t = true) : risingFrom a (drop t k) = true := by
  induction t generalizing a with
  | nil => simp [drop, risingFrom]
  | cons e t ih =>
    obtain ⟨i, v⟩ := e
    simp only [risingFrom, Bool.and_eq_true, decide_eq_true_eq] at h
    simp only [drop]
    split
    · exact ih a (risingFrom_mono (by omega) t h.2)
    · simp [risingFrom, h.1, ih _ h.2]

theorem risingFrom_place (t : Tbl α) (k a : Nat) (v : α) (ha : a ≤ k) (h : risingFrom a t = true) :
    risingFrom a (place t k v) = true := by
  induction t generalizing a with
  | nil => simp [place, risingFrom, ha]
  | cons e t ih =>
    obtain ⟨i, w⟩ := e
    simp only [risingFrom, Bool.and_eq_true, decide_eq_true_eq] at h
    simp only [place]
    split
    · subst_vars; simp [risingFrom, ha, h.2]
    · split
      · simp only [risingFrom, Bool.and_eq_true, decide_eq_true_eq]
        exact ⟨ha, by omega, h.2⟩
      · simp only [risingFrom, Bool.and_eq_true, decide_eq_true_eq]
        exact ⟨h.1, ih (i + 1) (by omega) h.2⟩

theorem mem_drop {t : Tbl α} {k : Nat} {e : Nat × α} (h : e ∈ drop t k) : e ∈ t := by
  induction t with
  | nil => simp [drop] at h
  | cons f t ih =>
    obtain ⟨i, v⟩ := f
    simp only [drop] at h
    split at h
    · exact List.mem_cons_of_mem _ (ih h)
    · rcases List.mem_cons.mp h with h | h
      · subst h; simp
      · exact List.mem_cons_of_mem _ (ih h)

theorem mem_place {t : Tbl α} {k : Nat} {v : α} {e : Nat × α} (h : e ∈ place t k v) : e = (k, v) ∨ e ∈ t := by
  induction t with
  | nil => simpa [place] using h
  | cons f t ih =>
    obtain ⟨i, w⟩ := f
    simp only [place] at h
    split at h
    · rcases List.mem_cons.mp h with h | h <;> simp [h]
    · split at h
      · rcases List.mem_cons.mp h with h | h
        · simp [h]
        · exact .inr h
      · rcases List.mem_cons.mp h with h | h
        · simp [h]
        · rcases ih h with h | h <;> simp [h]

@[simp] theorem canonical_nil [DecidableEq α] (d : α) : canonical d ([] : Tbl α) = true := rfl

/-- Every write keeps the canonical form. -/
theorem canonical_put [DecidableEq α] (d : α) (t : Tbl α) (k : Nat) (v : α) (h : canonical d t = true) :
    canonical d (put d t k v) = true := by
  simp only [canonical, Bool.and_eq_true, List.all_eq_true, decide_eq_true_eq] at h ⊢
  unfold put
  split
  · exact ⟨risingFrom_drop t k 0 h.1, fun e he => h.2 e (mem_drop he)⟩
  · refine ⟨risingFrom_place t k 0 v (by omega) h.1, fun e he => ?_⟩
    rcases mem_place he with rfl | he
    · assumption
    · exact h.2 e he

theorem canonical_edit [DecidableEq α] (d : α) (f : α → α) (t : Tbl α) (k : Nat) (h : canonical d t = true) :
    canonical d (edit d f t k) = true := canonical_put d t k _ h

theorem risingFrom_filter (p : Nat × α → Bool) (t : Tbl α) (a : Nat) (h : risingFrom a t = true) :
    risingFrom a (t.filter p) = true := by
  induction t generalizing a with
  | nil => simp [risingFrom]
  | cons e t ih =>
    obtain ⟨i, v⟩ := e
    simp only [risingFrom, Bool.and_eq_true, decide_eq_true_eq] at h
    simp only [List.filter_cons]
    split
    · simp [risingFrom, h.1, ih _ h.2]
    · exact ih a (risingFrom_mono (by omega) t h.2)

/-- Leaving entries out keeps the canonical form. -/
theorem canonical_filter [DecidableEq α] (d : α) (p : Nat × α → Bool) (t : Tbl α) (h : canonical d t = true) :
    canonical d (t.filter p) = true := by
  simp only [canonical, Bool.and_eq_true, List.all_eq_true, decide_eq_true_eq] at h ⊢
  exact ⟨risingFrom_filter p t 0 h.1, fun e he => h.2 e (List.mem_filter.mp he).1⟩

theorem look_of_risingFrom (d : α) (t : Tbl α) (a k : Nat) (h : risingFrom a t = true) (hk : k < a) : look d t k = d := by
  induction t generalizing a with
  | nil => rfl
  | cons e t ih =>
    obtain ⟨i, v⟩ := e
    simp only [risingFrom, Bool.and_eq_true, decide_eq_true_eq] at h
    have hi : i ≠ k := by omega
    simp [look, hi, ih (i + 1) h.2 (by omega)]

/-- Two tables in the canonical form that read the same at every index are equal. -/
theorem canonical_ext [DecidableEq α] (d : α) (t u : Tbl α) (ht : canonical d t = true) (hu : canonical d u = true)
    (h : ∀ k, look d t k = look d u k) : t = u := by
  simp only [canonical, Bool.and_eq_true, List.all_eq_true, decide_eq_true_eq] at ht hu
  obtain ⟨ht, htd⟩ := ht
  obtain ⟨hu, hud⟩ := hu
  generalize 0 = a at ht hu
  induction t generalizing a u with
  | nil =>
    cases u with
    | nil => rfl
    | cons f u =>
      exfalso
      have := h f.1
      simp [look] at this
      exact hud f (by simp) this.symm
  | cons e t ih =>
    obtain ⟨i, v⟩ := e
    cases u with
    | nil =>
      exfalso
      have := h i
      simp [look] at this
      exact htd (i, v) (by simp) this
    | cons f u =>
      obtain ⟨j, w⟩ := f
      simp only [risingFrom, Bool.and_eq_true, decide_eq_true_eq] at ht hu
      have hv : v ≠ d := htd (i, v) (by simp)
      have hw : w ≠ d := hud (j, w) (by simp)
      have hij : i = j := by
        rcases Nat.lt_trichotomy i j with hlt | heq | hgt
        · exfalso
          have h1 := h i
          have h2 : look d u i = d := look_of_risingFrom d u (j + 1) i hu.2 (by omega)
          have h3 : j ≠ i := by omega
          simp [look, h3, h2] at h1
          exact hv h1
        · exact heq
        · exfalso
          have h1 := h j
          have h2 : look d t j = d := look_of_risingFrom d t (i + 1) j ht.2 (by omega)
          have h3 : i ≠ j := by omega
          simp [look, h3, h2] at h1
          exact hw h1.symm
      subst hij
      have hvw : v = w := by simpa [look] using h i
      subst hvw
      have : t = u := by
        refine ih u (fun k => ?_) (fun e he => htd e (List.mem_cons_of_mem _ he)) (fun e he => hud e (List.mem_cons_of_mem _ he)) (i + 1) ht.2 hu.2
        by_cases hk : i = k
        · subst hk
          rw [look_of_risingFrom d t (i + 1) i ht.2 (by omega), look_of_risingFrom d u (i + 1) i hu.2 (by omega)]
        · have := h k
          simpa [look, hk] using this
      rw [this]

/-! ## Rising lists of line numbers -/

@[simp] theorem mem_insertRising (k i : Nat) (l : List Nat) : i ∈ insertRising k l ↔ i = k ∨ i ∈ l := by
  induction l with
  | nil => simp [insertRising]
  | cons j t ih =>
    simp only [insertRising]
    split
    · subst_vars; simp
    · split
      · simp
      · simp only [List.mem_cons, ih]; tauto

@[simp] theorem mem_removeRising (k i : Nat) (l : List Nat) : i ∈ removeRising k l ↔ i ≠ k ∧ i ∈ l := by
  induction l with
  | nil => simp [removeRising]
  | cons j t ih =>
    simp only [removeRising]
    split
    · subst_vars; rw [ih]; simp only [List.mem_cons]
      constructor
      · rintro ⟨h, hm⟩; exact ⟨h, .inr hm⟩
      · rintro ⟨h, hm | hm⟩
        · exact absurd hm h
        · exact ⟨h, hm⟩
    · simp only [List.mem_cons, ih]
      constructor
      · rintro (rfl | ⟨h, hm⟩)
        · exact ⟨by assumption, .inl rfl⟩
        · exact ⟨h, .inr hm⟩
      · rintro ⟨h, rfl | hm⟩
        · exact .inl rfl
        · exact .inr ⟨h, hm⟩

theorem pairwise_insertRising (k : Nat) (l : List Nat) (h : l.Pairwise (· < ·)) : (insertRising k l).Pairwise (· < ·) := by
  induction l with
  | nil => simp [insertRising]
  | cons i t ih =>
    have h' := h
    rw [List.pairwise_cons] at h
    simp only [insertRising]
    split
    · exact h'
    · split
      · rw [List.pairwise_cons]
        refine ⟨fun j hj => ?_, h'⟩
        rcases List.mem_cons.mp hj with rfl | hj
        · assumption
        · have := h.1 j hj; omega
      · rw [List.pairwise_cons]
        refine ⟨fun j hj => ?_, ih h.2⟩
        rcases (mem_insertRising k j t).mp hj with rfl | hj
        · omega
        · exact h.1 j hj

theorem pairwise_removeRising (k : Nat) (l : List Nat) (h : l.Pairwise (· < ·)) : (removeRising k l).Pairwise (· < ·) := by
  induction l with
  | nil => simp [removeRising]
  | cons i t ih =>
    rw [List.pairwise_cons] at h
    simp only [removeRising]
    split
    · exact ih h.2
    · rw [List.pairwise_cons]
      exact ⟨fun j hj => h.1 j ((mem_removeRising k j t).mp hj).2, ih h.2⟩

/-! ## Loops -/

/-- What every step of a loop keeps, the loop keeps. -/
theorem forEach_keeps {β γ : Type} (P : β → Prop) (f : γ → β → β) (l : List γ) (b : β) (hb : P b)
    (h : ∀ a ∈ l, ∀ x, P x → P (f a x)) : P (forEach l f b) := by
  unfold forEach
  induction l generalizing b with
  | nil => simpa using hb
  | cons a l ih =>
    exact ih (f a b) (h a (by simp) b hb) (fun c hc => h c (List.mem_cons_of_mem _ hc))

@[simp] theorem forEach_nil {β γ : Type} (f : γ → β → β) (b : β) : forEach [] f b = b := rfl

@[simp] theorem forEach_cons {β γ : Type} (f : γ → β → β) (a : γ) (l : List γ) (b : β) :
    forEach (a :: l) f b = forEach l f (f a b) := rfl

end Sys2Proof.Machine
end

