-- ==== Sys2Proof/Laws/State.lean ====
section
/-! SUPPORT. What each update of the state changes: one law per field and update, and what the tables of units read after
an update of one of them. -/
namespace Sys2Proof.Machine

/-! ## Keys -/

theorem thrKey_inj {x y : Thr} (h : thrKey x = thrKey y) : x = y := by
  cases x <;> cases y <;> simp only [thrKey] at h <;> first | (congr 1; ext; omega) | omega

theorem srcKey_inj {x y : Src} (h : srcKey x = srcKey y) : x = y := by
  cases x <;> cases y <;> simp only [srcKey] at h <;> first | (congr 1; ext; omega) | omega

theorem boxKey_inj {x y : Mbox} (h : boxKey x = boxKey y) : x = y := by
  cases x <;> cases y <;> simp only [boxKey] at h <;> first | rfl | (congr 1; ext; omega) | omega

theorem clkIx_inj {x y : Clk} (h : clkIx x = clkIx y) : x = y := by
  rcases x with ⟨c, hc⟩ | _ | x | _ | _ <;> rcases y with ⟨d, hd⟩ | _ | y | _ | _
  all_goals try (cases x)
  all_goals try (cases y)
  all_goals simp only [clkIx] at h
  all_goals first | rfl | omega | (subst h; rfl)

variable (s : State)

/-! ## setThr -/
@[simp] theorem setThr_pending (t : Thr) (v : Thread) : (setThr t v s).pending = s.pending := rfl
@[simp] theorem setThr_time (t : Thr) (v : Thread) : (setThr t v s).time = s.time := rfl
@[simp] theorem setThr_pw (t : Thr) (v : Thread) : (setThr t v s).pw = s.pw := rfl
@[simp] theorem setThr_thr (t : Thr) (v : Thread) : (setThr t v s).thr = put Thread.reset s.thr (thrKey t) v := rfl
@[simp] theorem setThr_core (t : Thr) (v : Thread) : (setThr t v s).core = s.core := rfl
@[simp] theorem setThr_bay (t : Thr) (v : Thread) : (setThr t v s).bay = s.bay := rfl
@[simp] theorem setThr_slice (t : Thr) (v : Thread) : (setThr t v s).slice = s.slice := rfl
@[simp] theorem setThr_srcs (t : Thr) (v : Thread) : (setThr t v s).srcs = s.srcs := rfl
@[simp] theorem setThr_eng (t : Thr) (v : Thread) : (setThr t v s).eng = s.eng := rfl
@[simp] theorem setThr_cluster (t : Thr) (v : Thread) : (setThr t v s).cluster = s.cluster := rfl
@[simp] theorem setThr_part (t : Thr) (v : Thread) : (setThr t v s).part = s.part := rfl
@[simp] theorem setThr_stale (t : Thr) (v : Thread) : (setThr t v s).stale = s.stale := rfl
@[simp] theorem setThr_downDrop (t : Thr) (v : Thread) : (setThr t v s).downDrop = s.downDrop := rfl
@[simp] theorem setThr_stray (t : Thr) (v : Thread) : (setThr t v s).stray = s.stray := rfl
@[simp] theorem setThr_net (t : Thr) (v : Thread) : (setThr t v s).net = s.net := rfl
@[simp] theorem setThr_ereqs (t : Thr) (v : Thread) : (setThr t v s).ereqs = s.ereqs := rfl
@[simp] theorem setThr_mem (t : Thr) (v : Thread) : (setThr t v s).mem = s.mem := rfl
@[simp] theorem setThr_old (t : Thr) (v : Thread) : (setThr t v s).old = s.old := rfl
@[simp] theorem setThr_poison (t : Thr) (v : Thread) : (setThr t v s).poison = s.poison := rfl
@[simp] theorem setThr_queue (t : Thr) (v : Thread) : (setThr t v s).queue = s.queue := rfl
@[simp] theorem setThr_led (t : Thr) (v : Thread) : (setThr t v s).led = s.led := rfl
@[simp] theorem setThr_dimms (t : Thr) (v : Thread) : (setThr t v s).dimms = s.dimms := rfl
@[simp] theorem setThr_chan (t : Thr) (v : Thread) : (setThr t v s).chan = s.chan := rfl
@[simp] theorem setThr_region (t : Thr) (v : Thread) : (setThr t v s).region = s.region := rfl
@[simp] theorem setThr_ep (t : Thr) (v : Thread) : (setThr t v s).ep = s.ep := rfl
@[simp] theorem setThr_inst (t : Thr) (v : Thread) : (setThr t v s).inst = s.inst := rfl
@[simp] theorem setThr_ridge (t : Thr) (v : Thread) : (setThr t v s).ridge = s.ridge := rfl
@[simp] theorem setThr_wr (t : Thr) (v : Thread) : (setThr t v s).wr = s.wr := rfl
@[simp] theorem setThr_bw (t : Thr) (v : Thread) : (setThr t v s).bw = s.bw := rfl
@[simp] theorem setThr_xing (t : Thr) (v : Thread) : (setThr t v s).xing = s.xing := rfl
@[simp] theorem setThr_out (t : Thr) (v : Thread) : (setThr t v s).out = s.out := rfl
@[simp] theorem setThr_fresh (t : Thr) (v : Thread) : (setThr t v s).fresh = s.fresh := rfl
@[simp] theorem core_setThr (t : Thr) (v : Thread) (y : Nat) : core (setThr t v s) y = core s y := rfl
@[simp] theorem bay_setThr (t : Thr) (v : Thread) (y : Nat) : bay (setThr t v s) y = bay s y := rfl
@[simp] theorem slice_setThr (t : Thr) (v : Thread) (y : Nat) : slice (setThr t v s) y = slice s y := rfl
@[simp] theorem srcEnt_setThr (t : Thr) (v : Thread) (y : Src) : srcEnt (setThr t v s) y = srcEnt s y := rfl
@[simp] theorem engine_setThr (t : Thr) (v : Thread) (y : Nat) : engine (setThr t v s) y = engine s y := rfl
@[simp] theorem cluster_setThr (t : Thr) (v : Thread) (y : Nat) : cluster (setThr t v s) y = cluster s y := rfl
@[simp] theorem part_setThr (t : Thr) (v : Thread) (y : Nat) : part (setThr t v s) y = part s y := rfl
@[simp] theorem queue_setThr (t : Thr) (v : Thread) (y : Nat) : queue (setThr t v s) y = queue s y := rfl
@[simp] theorem entry_setThr (t : Thr) (v : Thread) (y : Nat) : entry (setThr t v s) y = entry s y := rfl
@[simp] theorem chan_setThr (t : Thr) (v : Thread) (y : Nat) : chan (setThr t v s) y = chan s y := rfl
@[simp] theorem region_setThr (t : Thr) (v : Thread) (y : Nat) : region (setThr t v s) y = region s y := rfl
@[simp] theorem inst_setThr (t : Thr) (v : Thread) (y : Nat) : inst (setThr t v s) y = inst s y := rfl
@[simp] theorem port_setThr (t : Thr) (v : Thread) (y : Nat) : port (setThr t v s) y = port s y := rfl
@[simp] theorem rail_setThr (t : Thr) (v : Thread) (y : Nat) : rail (setThr t v s) y = rail s y := rfl
@[simp] theorem die_setThr (t : Thr) (v : Thread) (y : Nat) : die (setThr t v s) y = die s y := rfl
@[simp] theorem box_setThr (t : Thr) (v : Thread) (y : Mbox) : box (setThr t v s) y = box s y := rfl
@[simp] theorem crossingOf_setThr (t : Thr) (v : Thread) (y : Clk) : crossingOf (setThr t v s) y = crossingOf s y := rfl
@[simp] theorem readByte_setThr (t : Thr) (v : Thread) (y : Nat) : readByte (setThr t v s) y = readByte s y := rfl
@[simp] theorem isPoisoned_setThr (t : Thr) (v : Thread) (y : BitVec 42) : isPoisoned (setThr t v s) y = isPoisoned s y := rfl
@[simp] theorem isDirty_setThr (t : Thr) (v : Thread) (y : BitVec 42) : isDirty (setThr t v s) y = isDirty s y := rfl
@[simp] theorem lineData_setThr (t : Thr) (v : Thread) (y : BitVec 42) : lineData (setThr t v s) y = lineData s y := rfl
@[simp] theorem partOfBay_setThr (t : Thr) (v : Thread) (y : Nat) : partOfBay (setThr t v s) y = partOfBay s y := rfl
@[simp] theorem partOfEngine_setThr (t : Thr) (v : Thread) (y : Nat) : partOfEngine (setThr t v s) y = partOfEngine s y := rfl
@[simp] theorem partOf_setThr (t : Thr) (v : Thread) (y : Thr) : partOf (setThr t v s) y = partOf s y := rfl
@[simp] theorem partOfSrc_setThr (t : Thr) (v : Thread) (y : Src) : partOfSrc (setThr t v s) y = partOfSrc s y := rfl
@[simp] theorem thr_setThr (t : Thr) (v : Thread) (y : Thr) : thr (setThr t v s) y = if y = t then v else thr s y := by
  by_cases h : y = t
  · subst h; simp [setThr, thr]
  · have h2 : thrKey y ≠ thrKey t := fun e => h (thrKey_inj e)
    simp [setThr, thr, h, h2]

/-! ## updThr -/
@[simp] theorem updThr_pending (t : Thr) (f : Thread → Thread) : (updThr t f s).pending = s.pending := rfl
@[simp] theorem updThr_time (t : Thr) (f : Thread → Thread) : (updThr t f s).time = s.time := rfl
@[simp] theorem updThr_pw (t : Thr) (f : Thread → Thread) : (updThr t f s).pw = s.pw := rfl
@[simp] theorem updThr_thr (t : Thr) (f : Thread → Thread) : (updThr t f s).thr = put Thread.reset s.thr (thrKey t) (f (thr s t)) := rfl
@[simp] theorem updThr_core (t : Thr) (f : Thread → Thread) : (updThr t f s).core = s.core := rfl
@[simp] theorem updThr_bay (t : Thr) (f : Thread → Thread) : (updThr t f s).bay = s.bay := rfl
@[simp] theorem updThr_slice (t : Thr) (f : Thread → Thread) : (updThr t f s).slice = s.slice := rfl
@[simp] theorem updThr_srcs (t : Thr) (f : Thread → Thread) : (updThr t f s).srcs = s.srcs := rfl
@[simp] theorem updThr_eng (t : Thr) (f : Thread → Thread) : (updThr t f s).eng = s.eng := rfl
@[simp] theorem updThr_cluster (t : Thr) (f : Thread → Thread) : (updThr t f s).cluster = s.cluster := rfl
@[simp] theorem updThr_part (t : Thr) (f : Thread → Thread) : (updThr t f s).part = s.part := rfl
@[simp] theorem updThr_stale (t : Thr) (f : Thread → Thread) : (updThr t f s).stale = s.stale := rfl
@[simp] theorem updThr_downDrop (t : Thr) (f : Thread → Thread) : (updThr t f s).downDrop = s.downDrop := rfl
@[simp] theorem updThr_stray (t : Thr) (f : Thread → Thread) : (updThr t f s).stray = s.stray := rfl
@[simp] theorem updThr_net (t : Thr) (f : Thread → Thread) : (updThr t f s).net = s.net := rfl
@[simp] theorem updThr_ereqs (t : Thr) (f : Thread → Thread) : (updThr t f s).ereqs = s.ereqs := rfl
@[simp] theorem updThr_mem (t : Thr) (f : Thread → Thread) : (updThr t f s).mem = s.mem := rfl
@[simp] theorem updThr_old (t : Thr) (f : Thread → Thread) : (updThr t f s).old = s.old := rfl
@[simp] theorem updThr_poison (t : Thr) (f : Thread → Thread) : (updThr t f s).poison = s.poison := rfl
@[simp] theorem updThr_queue (t : Thr) (f : Thread → Thread) : (updThr t f s).queue = s.queue := rfl
@[simp] theorem updThr_led (t : Thr) (f : Thread → Thread) : (updThr t f s).led = s.led := rfl
@[simp] theorem updThr_dimms (t : Thr) (f : Thread → Thread) : (updThr t f s).dimms = s.dimms := rfl
@[simp] theorem updThr_chan (t : Thr) (f : Thread → Thread) : (updThr t f s).chan = s.chan := rfl
@[simp] theorem updThr_region (t : Thr) (f : Thread → Thread) : (updThr t f s).region = s.region := rfl
@[simp] theorem updThr_ep (t : Thr) (f : Thread → Thread) : (updThr t f s).ep = s.ep := rfl
@[simp] theorem updThr_inst (t : Thr) (f : Thread → Thread) : (updThr t f s).inst = s.inst := rfl
@[simp] theorem updThr_ridge (t : Thr) (f : Thread → Thread) : (updThr t f s).ridge = s.ridge := rfl
@[simp] theorem updThr_wr (t : Thr) (f : Thread → Thread) : (updThr t f s).wr = s.wr := rfl
@[simp] theorem updThr_bw (t : Thr) (f : Thread → Thread) : (updThr t f s).bw = s.bw := rfl
@[simp] theorem updThr_xing (t : Thr) (f : Thread → Thread) : (updThr t f s).xing = s.xing := rfl
@[simp] theorem updThr_out (t : Thr) (f : Thread → Thread) : (updThr t f s).out = s.out := rfl
@[simp] theorem updThr_fresh (t : Thr) (f : Thread → Thread) : (updThr t f s).fresh = s.fresh := rfl
@[simp] theorem core_updThr (t : Thr) (f : Thread → Thread) (y : Nat) : core (updThr t f s) y = core s y := rfl
@[simp] theorem bay_updThr (t : Thr) (f : Thread → Thread) (y : Nat) : bay (updThr t f s) y = bay s y := rfl
@[simp] theorem slice_updThr (t : Thr) (f : Thread → Thread) (y : Nat) : slice (updThr t f s) y = slice s y := rfl
@[simp] theorem srcEnt_updThr (t : Thr) (f : Thread → Thread) (y : Src) : srcEnt (updThr t f s) y = srcEnt s y := rfl
@[simp] theorem engine_updThr (t : Thr) (f : Thread → Thread) (y : Nat) : engine (updThr t f s) y = engine s y := rfl
@[simp] theorem cluster_updThr (t : Thr) (f : Thread → Thread) (y : Nat) : cluster (updThr t f s) y = cluster s y := rfl
@[simp] theorem part_updThr (t : Thr) (f : Thread → Thread) (y : Nat) : part (updThr t f s) y = part s y := rfl
@[simp] theorem queue_updThr (t : Thr) (f : Thread → Thread) (y : Nat) : queue (updThr t f s) y = queue s y := rfl
@[simp] theorem entry_updThr (t : Thr) (f : Thread → Thread) (y : Nat) : entry (updThr t f s) y = entry s y := rfl
@[simp] theorem chan_updThr (t : Thr) (f : Thread → Thread) (y : Nat) : chan (updThr t f s) y = chan s y := rfl
@[simp] theorem region_updThr (t : Thr) (f : Thread → Thread) (y : Nat) : region (updThr t f s) y = region s y := rfl
@[simp] theorem inst_updThr (t : Thr) (f : Thread → Thread) (y : Nat) : inst (updThr t f s) y = inst s y := rfl
@[simp] theorem port_updThr (t : Thr) (f : Thread → Thread) (y : Nat) : port (updThr t f s) y = port s y := rfl
@[simp] theorem rail_updThr (t : Thr) (f : Thread → Thread) (y : Nat) : rail (updThr t f s) y = rail s y := rfl
@[simp] theorem die_updThr (t : Thr) (f : Thread → Thread) (y : Nat) : die (updThr t f s) y = die s y := rfl
@[simp] theorem box_updThr (t : Thr) (f : Thread → Thread) (y : Mbox) : box (updThr t f s) y = box s y := rfl
@[simp] theorem crossingOf_updThr (t : Thr) (f : Thread → Thread) (y : Clk) : crossingOf (updThr t f s) y = crossingOf s y := rfl
@[simp] theorem readByte_updThr (t : Thr) (f : Thread → Thread) (y : Nat) : readByte (updThr t f s) y = readByte s y := rfl
@[simp] theorem isPoisoned_updThr (t : Thr) (f : Thread → Thread) (y : BitVec 42) : isPoisoned (updThr t f s) y = isPoisoned s y := rfl
@[simp] theorem isDirty_updThr (t : Thr) (f : Thread → Thread) (y : BitVec 42) : isDirty (updThr t f s) y = isDirty s y := rfl
@[simp] theorem lineData_updThr (t : Thr) (f : Thread → Thread) (y : BitVec 42) : lineData (updThr t f s) y = lineData s y := rfl
@[simp] theorem partOfBay_updThr (t : Thr) (f : Thread → Thread) (y : Nat) : partOfBay (updThr t f s) y = partOfBay s y := rfl
@[simp] theorem partOfEngine_updThr (t : Thr) (f : Thread → Thread) (y : Nat) : partOfEngine (updThr t f s) y = partOfEngine s y := rfl
@[simp] theorem partOf_updThr (t : Thr) (f : Thread → Thread) (y : Thr) : partOf (updThr t f s) y = partOf s y := rfl
@[simp] theorem partOfSrc_updThr (t : Thr) (f : Thread → Thread) (y : Src) : partOfSrc (updThr t f s) y = partOfSrc s y := rfl
@[simp] theorem thr_updThr (t : Thr) (f : Thread → Thread) (y : Thr) : thr (updThr t f s) y = if y = t then f (thr s t) else thr s y := by
  by_cases h : y = t
  · subst h; simp [updThr, thr, setThr]
  · have h2 : thrKey y ≠ thrKey t := fun e => h (thrKey_inj e)
    simp [updThr, thr, h, h2, setThr]

/-! ## mapThrs -/
@[simp] theorem mapThrs_pending (f : Nat → Thread → Thread) : (mapThrs f s).pending = s.pending := rfl
@[simp] theorem mapThrs_time (f : Nat → Thread → Thread) : (mapThrs f s).time = s.time := rfl
@[simp] theorem mapThrs_pw (f : Nat → Thread → Thread) : (mapThrs f s).pw = s.pw := rfl
@[simp] theorem mapThrs_thr (f : Nat → Thread → Thread) : (mapThrs f s).thr = editAll Thread.reset f s.thr := rfl
@[simp] theorem mapThrs_core (f : Nat → Thread → Thread) : (mapThrs f s).core = s.core := rfl
@[simp] theorem mapThrs_bay (f : Nat → Thread → Thread) : (mapThrs f s).bay = s.bay := rfl
@[simp] theorem mapThrs_slice (f : Nat → Thread → Thread) : (mapThrs f s).slice = s.slice := rfl
@[simp] theorem mapThrs_srcs (f : Nat → Thread → Thread) : (mapThrs f s).srcs = s.srcs := rfl
@[simp] theorem mapThrs_eng (f : Nat → Thread → Thread) : (mapThrs f s).eng = s.eng := rfl
@[simp] theorem mapThrs_cluster (f : Nat → Thread → Thread) : (mapThrs f s).cluster = s.cluster := rfl
@[simp] theorem mapThrs_part (f : Nat → Thread → Thread) : (mapThrs f s).part = s.part := rfl
@[simp] theorem mapThrs_stale (f : Nat → Thread → Thread) : (mapThrs f s).stale = s.stale := rfl
@[simp] theorem mapThrs_downDrop (f : Nat → Thread → Thread) : (mapThrs f s).downDrop = s.downDrop := rfl
@[simp] theorem mapThrs_stray (f : Nat → Thread → Thread) : (mapThrs f s).stray = s.stray := rfl
@[simp] theorem mapThrs_net (f : Nat → Thread → Thread) : (mapThrs f s).net = s.net := rfl
@[simp] theorem mapThrs_ereqs (f : Nat → Thread → Thread) : (mapThrs f s).ereqs = s.ereqs := rfl
@[simp] theorem mapThrs_mem (f : Nat → Thread → Thread) : (mapThrs f s).mem = s.mem := rfl
@[simp] theorem mapThrs_old (f : Nat → Thread → Thread) : (mapThrs f s).old = s.old := rfl
@[simp] theorem mapThrs_poison (f : Nat → Thread → Thread) : (mapThrs f s).poison = s.poison := rfl
@[simp] theorem mapThrs_queue (f : Nat → Thread → Thread) : (mapThrs f s).queue = s.queue := rfl
@[simp] theorem mapThrs_led (f : Nat → Thread → Thread) : (mapThrs f s).led = s.led := rfl
@[simp] theorem mapThrs_dimms (f : Nat → Thread → Thread) : (mapThrs f s).dimms = s.dimms := rfl
@[simp] theorem mapThrs_chan (f : Nat → Thread → Thread) : (mapThrs f s).chan = s.chan := rfl
@[simp] theorem mapThrs_region (f : Nat → Thread → Thread) : (mapThrs f s).region = s.region := rfl
@[simp] theorem mapThrs_ep (f : Nat → Thread → Thread) : (mapThrs f s).ep = s.ep := rfl
@[simp] theorem mapThrs_inst (f : Nat → Thread → Thread) : (mapThrs f s).inst = s.inst := rfl
@[simp] theorem mapThrs_ridge (f : Nat → Thread → Thread) : (mapThrs f s).ridge = s.ridge := rfl
@[simp] theorem mapThrs_wr (f : Nat → Thread → Thread) : (mapThrs f s).wr = s.wr := rfl
@[simp] theorem mapThrs_bw (f : Nat → Thread → Thread) : (mapThrs f s).bw = s.bw := rfl
@[simp] theorem mapThrs_xing (f : Nat → Thread → Thread) : (mapThrs f s).xing = s.xing := rfl
@[simp] theorem mapThrs_out (f : Nat → Thread → Thread) : (mapThrs f s).out = s.out := rfl
@[simp] theorem mapThrs_fresh (f : Nat → Thread → Thread) : (mapThrs f s).fresh = s.fresh := rfl
@[simp] theorem core_mapThrs (f : Nat → Thread → Thread) (y : Nat) : core (mapThrs f s) y = core s y := rfl
@[simp] theorem bay_mapThrs (f : Nat → Thread → Thread) (y : Nat) : bay (mapThrs f s) y = bay s y := rfl
@[simp] theorem slice_mapThrs (f : Nat → Thread → Thread) (y : Nat) : slice (mapThrs f s) y = slice s y := rfl
@[simp] theorem srcEnt_mapThrs (f : Nat → Thread → Thread) (y : Src) : srcEnt (mapThrs f s) y = srcEnt s y := rfl
@[simp] theorem engine_mapThrs (f : Nat → Thread → Thread) (y : Nat) : engine (mapThrs f s) y = engine s y := rfl
@[simp] theorem cluster_mapThrs (f : Nat → Thread → Thread) (y : Nat) : cluster (mapThrs f s) y = cluster s y := rfl
@[simp] theorem part_mapThrs (f : Nat → Thread → Thread) (y : Nat) : part (mapThrs f s) y = part s y := rfl
@[simp] theorem queue_mapThrs (f : Nat → Thread → Thread) (y : Nat) : queue (mapThrs f s) y = queue s y := rfl
@[simp] theorem entry_mapThrs (f : Nat → Thread → Thread) (y : Nat) : entry (mapThrs f s) y = entry s y := rfl
@[simp] theorem chan_mapThrs (f : Nat → Thread → Thread) (y : Nat) : chan (mapThrs f s) y = chan s y := rfl
@[simp] theorem region_mapThrs (f : Nat → Thread → Thread) (y : Nat) : region (mapThrs f s) y = region s y := rfl
@[simp] theorem inst_mapThrs (f : Nat → Thread → Thread) (y : Nat) : inst (mapThrs f s) y = inst s y := rfl
@[simp] theorem port_mapThrs (f : Nat → Thread → Thread) (y : Nat) : port (mapThrs f s) y = port s y := rfl
@[simp] theorem rail_mapThrs (f : Nat → Thread → Thread) (y : Nat) : rail (mapThrs f s) y = rail s y := rfl
@[simp] theorem die_mapThrs (f : Nat → Thread → Thread) (y : Nat) : die (mapThrs f s) y = die s y := rfl
@[simp] theorem box_mapThrs (f : Nat → Thread → Thread) (y : Mbox) : box (mapThrs f s) y = box s y := rfl
@[simp] theorem crossingOf_mapThrs (f : Nat → Thread → Thread) (y : Clk) : crossingOf (mapThrs f s) y = crossingOf s y := rfl
@[simp] theorem readByte_mapThrs (f : Nat → Thread → Thread) (y : Nat) : readByte (mapThrs f s) y = readByte s y := rfl
@[simp] theorem isPoisoned_mapThrs (f : Nat → Thread → Thread) (y : BitVec 42) : isPoisoned (mapThrs f s) y = isPoisoned s y := rfl
@[simp] theorem isDirty_mapThrs (f : Nat → Thread → Thread) (y : BitVec 42) : isDirty (mapThrs f s) y = isDirty s y := rfl
@[simp] theorem lineData_mapThrs (f : Nat → Thread → Thread) (y : BitVec 42) : lineData (mapThrs f s) y = lineData s y := rfl
@[simp] theorem partOfBay_mapThrs (f : Nat → Thread → Thread) (y : Nat) : partOfBay (mapThrs f s) y = partOfBay s y := rfl
@[simp] theorem partOfEngine_mapThrs (f : Nat → Thread → Thread) (y : Nat) : partOfEngine (mapThrs f s) y = partOfEngine s y := rfl
@[simp] theorem partOf_mapThrs (f : Nat → Thread → Thread) (y : Thr) : partOf (mapThrs f s) y = partOf s y := rfl
@[simp] theorem partOfSrc_mapThrs (f : Nat → Thread → Thread) (y : Src) : partOfSrc (mapThrs f s) y = partOfSrc s y := rfl

/-! ## updCore -/
@[simp] theorem updCore_pending (c : Nat) (f : Core → Core) : (updCore c f s).pending = s.pending := rfl
@[simp] theorem updCore_time (c : Nat) (f : Core → Core) : (updCore c f s).time = s.time := rfl
@[simp] theorem updCore_pw (c : Nat) (f : Core → Core) : (updCore c f s).pw = s.pw := rfl
@[simp] theorem updCore_thr (c : Nat) (f : Core → Core) : (updCore c f s).thr = s.thr := rfl
@[simp] theorem updCore_core (c : Nat) (f : Core → Core) : (updCore c f s).core = edit Core.reset f s.core c := rfl
@[simp] theorem updCore_bay (c : Nat) (f : Core → Core) : (updCore c f s).bay = s.bay := rfl
@[simp] theorem updCore_slice (c : Nat) (f : Core → Core) : (updCore c f s).slice = s.slice := rfl
@[simp] theorem updCore_srcs (c : Nat) (f : Core → Core) : (updCore c f s).srcs = s.srcs := rfl
@[simp] theorem updCore_eng (c : Nat) (f : Core → Core) : (updCore c f s).eng = s.eng := rfl
@[simp] theorem updCore_cluster (c : Nat) (f : Core → Core) : (updCore c f s).cluster = s.cluster := rfl
@[simp] theorem updCore_part (c : Nat) (f : Core → Core) : (updCore c f s).part = s.part := rfl
@[simp] theorem updCore_stale (c : Nat) (f : Core → Core) : (updCore c f s).stale = s.stale := rfl
@[simp] theorem updCore_downDrop (c : Nat) (f : Core → Core) : (updCore c f s).downDrop = s.downDrop := rfl
@[simp] theorem updCore_stray (c : Nat) (f : Core → Core) : (updCore c f s).stray = s.stray := rfl
@[simp] theorem updCore_net (c : Nat) (f : Core → Core) : (updCore c f s).net = s.net := rfl
@[simp] theorem updCore_ereqs (c : Nat) (f : Core → Core) : (updCore c f s).ereqs = s.ereqs := rfl
@[simp] theorem updCore_mem (c : Nat) (f : Core → Core) : (updCore c f s).mem = s.mem := rfl
@[simp] theorem updCore_old (c : Nat) (f : Core → Core) : (updCore c f s).old = s.old := rfl
@[simp] theorem updCore_poison (c : Nat) (f : Core → Core) : (updCore c f s).poison = s.poison := rfl
@[simp] theorem updCore_queue (c : Nat) (f : Core → Core) : (updCore c f s).queue = s.queue := rfl
@[simp] theorem updCore_led (c : Nat) (f : Core → Core) : (updCore c f s).led = s.led := rfl
@[simp] theorem updCore_dimms (c : Nat) (f : Core → Core) : (updCore c f s).dimms = s.dimms := rfl
@[simp] theorem updCore_chan (c : Nat) (f : Core → Core) : (updCore c f s).chan = s.chan := rfl
@[simp] theorem updCore_region (c : Nat) (f : Core → Core) : (updCore c f s).region = s.region := rfl
@[simp] theorem updCore_ep (c : Nat) (f : Core → Core) : (updCore c f s).ep = s.ep := rfl
@[simp] theorem updCore_inst (c : Nat) (f : Core → Core) : (updCore c f s).inst = s.inst := rfl
@[simp] theorem updCore_ridge (c : Nat) (f : Core → Core) : (updCore c f s).ridge = s.ridge := rfl
@[simp] theorem updCore_wr (c : Nat) (f : Core → Core) : (updCore c f s).wr = s.wr := rfl
@[simp] theorem updCore_bw (c : Nat) (f : Core → Core) : (updCore c f s).bw = s.bw := rfl
@[simp] theorem updCore_xing (c : Nat) (f : Core → Core) : (updCore c f s).xing = s.xing := rfl
@[simp] theorem updCore_out (c : Nat) (f : Core → Core) : (updCore c f s).out = s.out := rfl
@[simp] theorem updCore_fresh (c : Nat) (f : Core → Core) : (updCore c f s).fresh = s.fresh := rfl
@[simp] theorem thr_updCore (c : Nat) (f : Core → Core) (y : Thr) : thr (updCore c f s) y = thr s y := rfl
@[simp] theorem bay_updCore (c : Nat) (f : Core → Core) (y : Nat) : bay (updCore c f s) y = bay s y := rfl
@[simp] theorem slice_updCore (c : Nat) (f : Core → Core) (y : Nat) : slice (updCore c f s) y = slice s y := rfl
@[simp] theorem srcEnt_updCore (c : Nat) (f : Core → Core) (y : Src) : srcEnt (updCore c f s) y = srcEnt s y := rfl
@[simp] theorem engine_updCore (c : Nat) (f : Core → Core) (y : Nat) : engine (updCore c f s) y = engine s y := rfl
@[simp] theorem cluster_updCore (c : Nat) (f : Core → Core) (y : Nat) : cluster (updCore c f s) y = cluster s y := rfl
@[simp] theorem part_updCore (c : Nat) (f : Core → Core) (y : Nat) : part (updCore c f s) y = part s y := rfl
@[simp] theorem queue_updCore (c : Nat) (f : Core → Core) (y : Nat) : queue (updCore c f s) y = queue s y := rfl
@[simp] theorem entry_updCore (c : Nat) (f : Core → Core) (y : Nat) : entry (updCore c f s) y = entry s y := rfl
@[simp] theorem chan_updCore (c : Nat) (f : Core → Core) (y : Nat) : chan (updCore c f s) y = chan s y := rfl
@[simp] theorem region_updCore (c : Nat) (f : Core → Core) (y : Nat) : region (updCore c f s) y = region s y := rfl
@[simp] theorem inst_updCore (c : Nat) (f : Core → Core) (y : Nat) : inst (updCore c f s) y = inst s y := rfl
@[simp] theorem port_updCore (c : Nat) (f : Core → Core) (y : Nat) : port (updCore c f s) y = port s y := rfl
@[simp] theorem rail_updCore (c : Nat) (f : Core → Core) (y : Nat) : rail (updCore c f s) y = rail s y := rfl
@[simp] theorem die_updCore (c : Nat) (f : Core → Core) (y : Nat) : die (updCore c f s) y = die s y := rfl
@[simp] theorem box_updCore (c : Nat) (f : Core → Core) (y : Mbox) : box (updCore c f s) y = box s y := rfl
@[simp] theorem crossingOf_updCore (c : Nat) (f : Core → Core) (y : Clk) : crossingOf (updCore c f s) y = crossingOf s y := rfl
@[simp] theorem readByte_updCore (c : Nat) (f : Core → Core) (y : Nat) : readByte (updCore c f s) y = readByte s y := rfl
@[simp] theorem isPoisoned_updCore (c : Nat) (f : Core → Core) (y : BitVec 42) : isPoisoned (updCore c f s) y = isPoisoned s y := rfl
@[simp] theorem isDirty_updCore (c : Nat) (f : Core → Core) (y : BitVec 42) : isDirty (updCore c f s) y = isDirty s y := rfl
@[simp] theorem lineData_updCore (c : Nat) (f : Core → Core) (y : BitVec 42) : lineData (updCore c f s) y = lineData s y := rfl
@[simp] theorem partOfBay_updCore (c : Nat) (f : Core → Core) (y : Nat) : partOfBay (updCore c f s) y = partOfBay s y := rfl
@[simp] theorem partOfEngine_updCore (c : Nat) (f : Core → Core) (y : Nat) : partOfEngine (updCore c f s) y = partOfEngine s y := rfl
@[simp] theorem partOf_updCore (c : Nat) (f : Core → Core) (y : Thr) : partOf (updCore c f s) y = partOf s y := rfl
@[simp] theorem partOfSrc_updCore (c : Nat) (f : Core → Core) (y : Src) : partOfSrc (updCore c f s) y = partOfSrc s y := rfl
@[simp] theorem core_updCore (c : Nat) (f : Core → Core) (y : Nat) : core (updCore c f s) y = if y = c then f (core s c) else core s y := by
  simp [updCore, core]

/-! ## updBay -/
@[simp] theorem updBay_pending (b : Nat) (f : Bay → Bay) : (updBay b f s).pending = s.pending := rfl
@[simp] theorem updBay_time (b : Nat) (f : Bay → Bay) : (updBay b f s).time = s.time := rfl
@[simp] theorem updBay_pw (b : Nat) (f : Bay → Bay) : (updBay b f s).pw = s.pw := rfl
@[simp] theorem updBay_thr (b : Nat) (f : Bay → Bay) : (updBay b f s).thr = s.thr := rfl
@[simp] theorem updBay_core (b : Nat) (f : Bay → Bay) : (updBay b f s).core = s.core := rfl
@[simp] theorem updBay_bay (b : Nat) (f : Bay → Bay) : (updBay b f s).bay = edit Bay.reset f s.bay b := rfl
@[simp] theorem updBay_slice (b : Nat) (f : Bay → Bay) : (updBay b f s).slice = s.slice := rfl
@[simp] theorem updBay_srcs (b : Nat) (f : Bay → Bay) : (updBay b f s).srcs = s.srcs := rfl
@[simp] theorem updBay_eng (b : Nat) (f : Bay → Bay) : (updBay b f s).eng = s.eng := rfl
@[simp] theorem updBay_cluster (b : Nat) (f : Bay → Bay) : (updBay b f s).cluster = s.cluster := rfl
@[simp] theorem updBay_part (b : Nat) (f : Bay → Bay) : (updBay b f s).part = s.part := rfl
@[simp] theorem updBay_stale (b : Nat) (f : Bay → Bay) : (updBay b f s).stale = s.stale := rfl
@[simp] theorem updBay_downDrop (b : Nat) (f : Bay → Bay) : (updBay b f s).downDrop = s.downDrop := rfl
@[simp] theorem updBay_stray (b : Nat) (f : Bay → Bay) : (updBay b f s).stray = s.stray := rfl
@[simp] theorem updBay_net (b : Nat) (f : Bay → Bay) : (updBay b f s).net = s.net := rfl
@[simp] theorem updBay_ereqs (b : Nat) (f : Bay → Bay) : (updBay b f s).ereqs = s.ereqs := rfl
@[simp] theorem updBay_mem (b : Nat) (f : Bay → Bay) : (updBay b f s).mem = s.mem := rfl
@[simp] theorem updBay_old (b : Nat) (f : Bay → Bay) : (updBay b f s).old = s.old := rfl
@[simp] theorem updBay_poison (b : Nat) (f : Bay → Bay) : (updBay b f s).poison = s.poison := rfl
@[simp] theorem updBay_queue (b : Nat) (f : Bay → Bay) : (updBay b f s).queue = s.queue := rfl
@[simp] theorem updBay_led (b : Nat) (f : Bay → Bay) : (updBay b f s).led = s.led := rfl
@[simp] theorem updBay_dimms (b : Nat) (f : Bay → Bay) : (updBay b f s).dimms = s.dimms := rfl
@[simp] theorem updBay_chan (b : Nat) (f : Bay → Bay) : (updBay b f s).chan = s.chan := rfl
@[simp] theorem updBay_region (b : Nat) (f : Bay → Bay) : (updBay b f s).region = s.region := rfl
@[simp] theorem updBay_ep (b : Nat) (f : Bay → Bay) : (updBay b f s).ep = s.ep := rfl
@[simp] theorem updBay_inst (b : Nat) (f : Bay → Bay) : (updBay b f s).inst = s.inst := rfl
@[simp] theorem updBay_ridge (b : Nat) (f : Bay → Bay) : (updBay b f s).ridge = s.ridge := rfl
@[simp] theorem updBay_wr (b : Nat) (f : Bay → Bay) : (updBay b f s).wr = s.wr := rfl
@[simp] theorem updBay_bw (b : Nat) (f : Bay → Bay) : (updBay b f s).bw = s.bw := rfl
@[simp] theorem updBay_xing (b : Nat) (f : Bay → Bay) : (updBay b f s).xing = s.xing := rfl
@[simp] theorem updBay_out (b : Nat) (f : Bay → Bay) : (updBay b f s).out = s.out := rfl
@[simp] theorem updBay_fresh (b : Nat) (f : Bay → Bay) : (updBay b f s).fresh = s.fresh := rfl
@[simp] theorem thr_updBay (b : Nat) (f : Bay → Bay) (y : Thr) : thr (updBay b f s) y = thr s y := rfl
@[simp] theorem core_updBay (b : Nat) (f : Bay → Bay) (y : Nat) : core (updBay b f s) y = core s y := rfl
@[simp] theorem slice_updBay (b : Nat) (f : Bay → Bay) (y : Nat) : slice (updBay b f s) y = slice s y := rfl
@[simp] theorem srcEnt_updBay (b : Nat) (f : Bay → Bay) (y : Src) : srcEnt (updBay b f s) y = srcEnt s y := rfl
@[simp] theorem engine_updBay (b : Nat) (f : Bay → Bay) (y : Nat) : engine (updBay b f s) y = engine s y := rfl
@[simp] theorem cluster_updBay (b : Nat) (f : Bay → Bay) (y : Nat) : cluster (updBay b f s) y = cluster s y := rfl
@[simp] theorem part_updBay (b : Nat) (f : Bay → Bay) (y : Nat) : part (updBay b f s) y = part s y := rfl
@[simp] theorem queue_updBay (b : Nat) (f : Bay → Bay) (y : Nat) : queue (updBay b f s) y = queue s y := rfl
@[simp] theorem entry_updBay (b : Nat) (f : Bay → Bay) (y : Nat) : entry (updBay b f s) y = entry s y := rfl
@[simp] theorem chan_updBay (b : Nat) (f : Bay → Bay) (y : Nat) : chan (updBay b f s) y = chan s y := rfl
@[simp] theorem region_updBay (b : Nat) (f : Bay → Bay) (y : Nat) : region (updBay b f s) y = region s y := rfl
@[simp] theorem inst_updBay (b : Nat) (f : Bay → Bay) (y : Nat) : inst (updBay b f s) y = inst s y := rfl
@[simp] theorem port_updBay (b : Nat) (f : Bay → Bay) (y : Nat) : port (updBay b f s) y = port s y := rfl
@[simp] theorem rail_updBay (b : Nat) (f : Bay → Bay) (y : Nat) : rail (updBay b f s) y = rail s y := rfl
@[simp] theorem die_updBay (b : Nat) (f : Bay → Bay) (y : Nat) : die (updBay b f s) y = die s y := rfl
@[simp] theorem box_updBay (b : Nat) (f : Bay → Bay) (y : Mbox) : box (updBay b f s) y = box s y := rfl
@[simp] theorem crossingOf_updBay (b : Nat) (f : Bay → Bay) (y : Clk) : crossingOf (updBay b f s) y = crossingOf s y := rfl
@[simp] theorem readByte_updBay (b : Nat) (f : Bay → Bay) (y : Nat) : readByte (updBay b f s) y = readByte s y := rfl
@[simp] theorem isPoisoned_updBay (b : Nat) (f : Bay → Bay) (y : BitVec 42) : isPoisoned (updBay b f s) y = isPoisoned s y := rfl
@[simp] theorem isDirty_updBay (b : Nat) (f : Bay → Bay) (y : BitVec 42) : isDirty (updBay b f s) y = isDirty s y := rfl
@[simp] theorem lineData_updBay (b : Nat) (f : Bay → Bay) (y : BitVec 42) : lineData (updBay b f s) y = lineData s y := rfl
@[simp] theorem partOfBay_updBay (b : Nat) (f : Bay → Bay) (y : Nat) : partOfBay (updBay b f s) y = partOfBay s y := rfl
@[simp] theorem partOfEngine_updBay (b : Nat) (f : Bay → Bay) (y : Nat) : partOfEngine (updBay b f s) y = partOfEngine s y := rfl
@[simp] theorem partOf_updBay (b : Nat) (f : Bay → Bay) (y : Thr) : partOf (updBay b f s) y = partOf s y := rfl
@[simp] theorem partOfSrc_updBay (b : Nat) (f : Bay → Bay) (y : Src) : partOfSrc (updBay b f s) y = partOfSrc s y := rfl
@[simp] theorem bay_updBay (b : Nat) (f : Bay → Bay) (y : Nat) : bay (updBay b f s) y = if y = b then f (bay s b) else bay s y := by
  simp [updBay, bay]

/-! ## updSlice -/
@[simp] theorem updSlice_pending (b : Nat) (f : Slice → Slice) : (updSlice b f s).pending = s.pending := rfl
@[simp] theorem updSlice_time (b : Nat) (f : Slice → Slice) : (updSlice b f s).time = s.time := rfl
@[simp] theorem updSlice_pw (b : Nat) (f : Slice → Slice) : (updSlice b f s).pw = s.pw := rfl
@[simp] theorem updSlice_thr (b : Nat) (f : Slice → Slice) : (updSlice b f s).thr = s.thr := rfl
@[simp] theorem updSlice_core (b : Nat) (f : Slice → Slice) : (updSlice b f s).core = s.core := rfl
@[simp] theorem updSlice_bay (b : Nat) (f : Slice → Slice) : (updSlice b f s).bay = s.bay := rfl
@[simp] theorem updSlice_slice (b : Nat) (f : Slice → Slice) : (updSlice b f s).slice = edit Slice.reset f s.slice b := rfl
@[simp] theorem updSlice_srcs (b : Nat) (f : Slice → Slice) : (updSlice b f s).srcs = s.srcs := rfl
@[simp] theorem updSlice_eng (b : Nat) (f : Slice → Slice) : (updSlice b f s).eng = s.eng := rfl
@[simp] theorem updSlice_cluster (b : Nat) (f : Slice → Slice) : (updSlice b f s).cluster = s.cluster := rfl
@[simp] theorem updSlice_part (b : Nat) (f : Slice → Slice) : (updSlice b f s).part = s.part := rfl
@[simp] theorem updSlice_stale (b : Nat) (f : Slice → Slice) : (updSlice b f s).stale = s.stale := rfl
@[simp] theorem updSlice_downDrop (b : Nat) (f : Slice → Slice) : (updSlice b f s).downDrop = s.downDrop := rfl
@[simp] theorem updSlice_stray (b : Nat) (f : Slice → Slice) : (updSlice b f s).stray = s.stray := rfl
@[simp] theorem updSlice_net (b : Nat) (f : Slice → Slice) : (updSlice b f s).net = s.net := rfl
@[simp] theorem updSlice_ereqs (b : Nat) (f : Slice → Slice) : (updSlice b f s).ereqs = s.ereqs := rfl
@[simp] theorem updSlice_mem (b : Nat) (f : Slice → Slice) : (updSlice b f s).mem = s.mem := rfl
@[simp] theorem updSlice_old (b : Nat) (f : Slice → Slice) : (updSlice b f s).old = s.old := rfl
@[simp] theorem updSlice_poison (b : Nat) (f : Slice → Slice) : (updSlice b f s).poison = s.poison := rfl
@[simp] theorem updSlice_queue (b : Nat) (f : Slice → Slice) : (updSlice b f s).queue = s.queue := rfl
@[simp] theorem updSlice_led (b : Nat) (f : Slice → Slice) : (updSlice b f s).led = s.led := rfl
@[simp] theorem updSlice_dimms (b : Nat) (f : Slice → Slice) : (updSlice b f s).dimms = s.dimms := rfl
@[simp] theorem updSlice_chan (b : Nat) (f : Slice → Slice) : (updSlice b f s).chan = s.chan := rfl
@[simp] theorem updSlice_region (b : Nat) (f : Slice → Slice) : (updSlice b f s).region = s.region := rfl
@[simp] theorem updSlice_ep (b : Nat) (f : Slice → Slice) : (updSlice b f s).ep = s.ep := rfl
@[simp] theorem updSlice_inst (b : Nat) (f : Slice → Slice) : (updSlice b f s).inst = s.inst := rfl
@[simp] theorem updSlice_ridge (b : Nat) (f : Slice → Slice) : (updSlice b f s).ridge = s.ridge := rfl
@[simp] theorem updSlice_wr (b : Nat) (f : Slice → Slice) : (updSlice b f s).wr = s.wr := rfl
@[simp] theorem updSlice_bw (b : Nat) (f : Slice → Slice) : (updSlice b f s).bw = s.bw := rfl
@[simp] theorem updSlice_xing (b : Nat) (f : Slice → Slice) : (updSlice b f s).xing = s.xing := rfl
@[simp] theorem updSlice_out (b : Nat) (f : Slice → Slice) : (updSlice b f s).out = s.out := rfl
@[simp] theorem updSlice_fresh (b : Nat) (f : Slice → Slice) : (updSlice b f s).fresh = s.fresh := rfl
@[simp] theorem thr_updSlice (b : Nat) (f : Slice → Slice) (y : Thr) : thr (updSlice b f s) y = thr s y := rfl
@[simp] theorem core_updSlice (b : Nat) (f : Slice → Slice) (y : Nat) : core (updSlice b f s) y = core s y := rfl
@[simp] theorem bay_updSlice (b : Nat) (f : Slice → Slice) (y : Nat) : bay (updSlice b f s) y = bay s y := rfl
@[simp] theorem srcEnt_updSlice (b : Nat) (f : Slice → Slice) (y : Src) : srcEnt (updSlice b f s) y = srcEnt s y := rfl
@[simp] theorem engine_updSlice (b : Nat) (f : Slice → Slice) (y : Nat) : engine (updSlice b f s) y = engine s y := rfl
@[simp] theorem cluster_updSlice (b : Nat) (f : Slice → Slice) (y : Nat) : cluster (updSlice b f s) y = cluster s y := rfl
@[simp] theorem part_updSlice (b : Nat) (f : Slice → Slice) (y : Nat) : part (updSlice b f s) y = part s y := rfl
@[simp] theorem queue_updSlice (b : Nat) (f : Slice → Slice) (y : Nat) : queue (updSlice b f s) y = queue s y := rfl
@[simp] theorem entry_updSlice (b : Nat) (f : Slice → Slice) (y : Nat) : entry (updSlice b f s) y = entry s y := rfl
@[simp] theorem chan_updSlice (b : Nat) (f : Slice → Slice) (y : Nat) : chan (updSlice b f s) y = chan s y := rfl
@[simp] theorem region_updSlice (b : Nat) (f : Slice → Slice) (y : Nat) : region (updSlice b f s) y = region s y := rfl
@[simp] theorem inst_updSlice (b : Nat) (f : Slice → Slice) (y : Nat) : inst (updSlice b f s) y = inst s y := rfl
@[simp] theorem port_updSlice (b : Nat) (f : Slice → Slice) (y : Nat) : port (updSlice b f s) y = port s y := rfl
@[simp] theorem rail_updSlice (b : Nat) (f : Slice → Slice) (y : Nat) : rail (updSlice b f s) y = rail s y := rfl
@[simp] theorem die_updSlice (b : Nat) (f : Slice → Slice) (y : Nat) : die (updSlice b f s) y = die s y := rfl
@[simp] theorem box_updSlice (b : Nat) (f : Slice → Slice) (y : Mbox) : box (updSlice b f s) y = box s y := rfl
@[simp] theorem crossingOf_updSlice (b : Nat) (f : Slice → Slice) (y : Clk) : crossingOf (updSlice b f s) y = crossingOf s y := rfl
@[simp] theorem readByte_updSlice (b : Nat) (f : Slice → Slice) (y : Nat) : readByte (updSlice b f s) y = readByte s y := rfl
@[simp] theorem isPoisoned_updSlice (b : Nat) (f : Slice → Slice) (y : BitVec 42) : isPoisoned (updSlice b f s) y = isPoisoned s y := rfl
@[simp] theorem isDirty_updSlice (b : Nat) (f : Slice → Slice) (y : BitVec 42) : isDirty (updSlice b f s) y = isDirty s y := rfl
@[simp] theorem lineData_updSlice (b : Nat) (f : Slice → Slice) (y : BitVec 42) : lineData (updSlice b f s) y = lineData s y := rfl
@[simp] theorem partOfBay_updSlice (b : Nat) (f : Slice → Slice) (y : Nat) : partOfBay (updSlice b f s) y = partOfBay s y := rfl
@[simp] theorem partOfEngine_updSlice (b : Nat) (f : Slice → Slice) (y : Nat) : partOfEngine (updSlice b f s) y = partOfEngine s y := rfl
@[simp] theorem partOf_updSlice (b : Nat) (f : Slice → Slice) (y : Thr) : partOf (updSlice b f s) y = partOf s y := rfl
@[simp] theorem partOfSrc_updSlice (b : Nat) (f : Slice → Slice) (y : Src) : partOfSrc (updSlice b f s) y = partOfSrc s y := rfl
@[simp] theorem slice_updSlice (b : Nat) (f : Slice → Slice) (y : Nat) : slice (updSlice b f s) y = if y = b then f (slice s b) else slice s y := by
  simp [updSlice, slice]

/-! ## updSrc -/
@[simp] theorem updSrc_pending (x : Src) (f : SrcEnt → SrcEnt) : (updSrc x f s).pending = s.pending := rfl
@[simp] theorem updSrc_time (x : Src) (f : SrcEnt → SrcEnt) : (updSrc x f s).time = s.time := rfl
@[simp] theorem updSrc_pw (x : Src) (f : SrcEnt → SrcEnt) : (updSrc x f s).pw = s.pw := rfl
@[simp] theorem updSrc_thr (x : Src) (f : SrcEnt → SrcEnt) : (updSrc x f s).thr = s.thr := rfl
@[simp] theorem updSrc_core (x : Src) (f : SrcEnt → SrcEnt) : (updSrc x f s).core = s.core := rfl
@[simp] theorem updSrc_bay (x : Src) (f : SrcEnt → SrcEnt) : (updSrc x f s).bay = s.bay := rfl
@[simp] theorem updSrc_slice (x : Src) (f : SrcEnt → SrcEnt) : (updSrc x f s).slice = s.slice := rfl
@[simp] theorem updSrc_srcs (x : Src) (f : SrcEnt → SrcEnt) : (updSrc x f s).srcs = edit SrcEnt.reset f s.srcs (srcKey x) := rfl
@[simp] theorem updSrc_eng (x : Src) (f : SrcEnt → SrcEnt) : (updSrc x f s).eng = s.eng := rfl
@[simp] theorem updSrc_cluster (x : Src) (f : SrcEnt → SrcEnt) : (updSrc x f s).cluster = s.cluster := rfl
@[simp] theorem updSrc_part (x : Src) (f : SrcEnt → SrcEnt) : (updSrc x f s).part = s.part := rfl
@[simp] theorem updSrc_stale (x : Src) (f : SrcEnt → SrcEnt) : (updSrc x f s).stale = s.stale := rfl
@[simp] theorem updSrc_downDrop (x : Src) (f : SrcEnt → SrcEnt) : (updSrc x f s).downDrop = s.downDrop := rfl
@[simp] theorem updSrc_stray (x : Src) (f : SrcEnt → SrcEnt) : (updSrc x f s).stray = s.stray := rfl
@[simp] theorem updSrc_net (x : Src) (f : SrcEnt → SrcEnt) : (updSrc x f s).net = s.net := rfl
@[simp] theorem updSrc_ereqs (x : Src) (f : SrcEnt → SrcEnt) : (updSrc x f s).ereqs = s.ereqs := rfl
@[simp] theorem updSrc_mem (x : Src) (f : SrcEnt → SrcEnt) : (updSrc x f s).mem = s.mem := rfl
@[simp] theorem updSrc_old (x : Src) (f : SrcEnt → SrcEnt) : (updSrc x f s).old = s.old := rfl
@[simp] theorem updSrc_poison (x : Src) (f : SrcEnt → SrcEnt) : (updSrc x f s).poison = s.poison := rfl
@[simp] theorem updSrc_queue (x : Src) (f : SrcEnt → SrcEnt) : (updSrc x f s).queue = s.queue := rfl
@[simp] theorem updSrc_led (x : Src) (f : SrcEnt → SrcEnt) : (updSrc x f s).led = s.led := rfl
@[simp] theorem updSrc_dimms (x : Src) (f : SrcEnt → SrcEnt) : (updSrc x f s).dimms = s.dimms := rfl
@[simp] theorem updSrc_chan (x : Src) (f : SrcEnt → SrcEnt) : (updSrc x f s).chan = s.chan := rfl
@[simp] theorem updSrc_region (x : Src) (f : SrcEnt → SrcEnt) : (updSrc x f s).region = s.region := rfl
@[simp] theorem updSrc_ep (x : Src) (f : SrcEnt → SrcEnt) : (updSrc x f s).ep = s.ep := rfl
@[simp] theorem updSrc_inst (x : Src) (f : SrcEnt → SrcEnt) : (updSrc x f s).inst = s.inst := rfl
@[simp] theorem updSrc_ridge (x : Src) (f : SrcEnt → SrcEnt) : (updSrc x f s).ridge = s.ridge := rfl
@[simp] theorem updSrc_wr (x : Src) (f : SrcEnt → SrcEnt) : (updSrc x f s).wr = s.wr := rfl
@[simp] theorem updSrc_bw (x : Src) (f : SrcEnt → SrcEnt) : (updSrc x f s).bw = s.bw := rfl
@[simp] theorem updSrc_xing (x : Src) (f : SrcEnt → SrcEnt) : (updSrc x f s).xing = s.xing := rfl
@[simp] theorem updSrc_out (x : Src) (f : SrcEnt → SrcEnt) : (updSrc x f s).out = s.out := rfl
@[simp] theorem updSrc_fresh (x : Src) (f : SrcEnt → SrcEnt) : (updSrc x f s).fresh = s.fresh := rfl
@[simp] theorem thr_updSrc (x : Src) (f : SrcEnt → SrcEnt) (y : Thr) : thr (updSrc x f s) y = thr s y := rfl
@[simp] theorem core_updSrc (x : Src) (f : SrcEnt → SrcEnt) (y : Nat) : core (updSrc x f s) y = core s y := rfl
@[simp] theorem bay_updSrc (x : Src) (f : SrcEnt → SrcEnt) (y : Nat) : bay (updSrc x f s) y = bay s y := rfl
@[simp] theorem slice_updSrc (x : Src) (f : SrcEnt → SrcEnt) (y : Nat) : slice (updSrc x f s) y = slice s y := rfl
@[simp] theorem engine_updSrc (x : Src) (f : SrcEnt → SrcEnt) (y : Nat) : engine (updSrc x f s) y = engine s y := rfl
@[simp] theorem cluster_updSrc (x : Src) (f : SrcEnt → SrcEnt) (y : Nat) : cluster (updSrc x f s) y = cluster s y := rfl
@[simp] theorem part_updSrc (x : Src) (f : SrcEnt → SrcEnt) (y : Nat) : part (updSrc x f s) y = part s y := rfl
@[simp] theorem queue_updSrc (x : Src) (f : SrcEnt → SrcEnt) (y : Nat) : queue (updSrc x f s) y = queue s y := rfl
@[simp] theorem entry_updSrc (x : Src) (f : SrcEnt → SrcEnt) (y : Nat) : entry (updSrc x f s) y = entry s y := rfl
@[simp] theorem chan_updSrc (x : Src) (f : SrcEnt → SrcEnt) (y : Nat) : chan (updSrc x f s) y = chan s y := rfl
@[simp] theorem region_updSrc (x : Src) (f : SrcEnt → SrcEnt) (y : Nat) : region (updSrc x f s) y = region s y := rfl
@[simp] theorem inst_updSrc (x : Src) (f : SrcEnt → SrcEnt) (y : Nat) : inst (updSrc x f s) y = inst s y := rfl
@[simp] theorem port_updSrc (x : Src) (f : SrcEnt → SrcEnt) (y : Nat) : port (updSrc x f s) y = port s y := rfl
@[simp] theorem rail_updSrc (x : Src) (f : SrcEnt → SrcEnt) (y : Nat) : rail (updSrc x f s) y = rail s y := rfl
@[simp] theorem die_updSrc (x : Src) (f : SrcEnt → SrcEnt) (y : Nat) : die (updSrc x f s) y = die s y := rfl
@[simp] theorem box_updSrc (x : Src) (f : SrcEnt → SrcEnt) (y : Mbox) : box (updSrc x f s) y = box s y := rfl
@[simp] theorem crossingOf_updSrc (x : Src) (f : SrcEnt → SrcEnt) (y : Clk) : crossingOf (updSrc x f s) y = crossingOf s y := rfl
@[simp] theorem readByte_updSrc (x : Src) (f : SrcEnt → SrcEnt) (y : Nat) : readByte (updSrc x f s) y = readByte s y := rfl
@[simp] theorem isPoisoned_updSrc (x : Src) (f : SrcEnt → SrcEnt) (y : BitVec 42) : isPoisoned (updSrc x f s) y = isPoisoned s y := rfl
@[simp] theorem isDirty_updSrc (x : Src) (f : SrcEnt → SrcEnt) (y : BitVec 42) : isDirty (updSrc x f s) y = isDirty s y := rfl
@[simp] theorem lineData_updSrc (x : Src) (f : SrcEnt → SrcEnt) (y : BitVec 42) : lineData (updSrc x f s) y = lineData s y := rfl
@[simp] theorem partOfBay_updSrc (x : Src) (f : SrcEnt → SrcEnt) (y : Nat) : partOfBay (updSrc x f s) y = partOfBay s y := rfl
@[simp] theorem partOfEngine_updSrc (x : Src) (f : SrcEnt → SrcEnt) (y : Nat) : partOfEngine (updSrc x f s) y = partOfEngine s y := rfl
@[simp] theorem partOf_updSrc (x : Src) (f : SrcEnt → SrcEnt) (y : Thr) : partOf (updSrc x f s) y = partOf s y := rfl
@[simp] theorem partOfSrc_updSrc (x : Src) (f : SrcEnt → SrcEnt) (y : Src) : partOfSrc (updSrc x f s) y = partOfSrc s y := rfl
@[simp] theorem srcEnt_updSrc (x : Src) (f : SrcEnt → SrcEnt) (y : Src) : srcEnt (updSrc x f s) y = if y = x then f (srcEnt s x) else srcEnt s y := by
  by_cases h : y = x
  · subst h; simp [updSrc, srcEnt]
  · have h2 : srcKey y ≠ srcKey x := fun e => h (srcKey_inj e)
    simp [updSrc, srcEnt, h, h2]

/-! ## updEngine -/
@[simp] theorem updEngine_pending (e : Nat) (f : Engine → Engine) : (updEngine e f s).pending = s.pending := rfl
@[simp] theorem updEngine_time (e : Nat) (f : Engine → Engine) : (updEngine e f s).time = s.time := rfl
@[simp] theorem updEngine_pw (e : Nat) (f : Engine → Engine) : (updEngine e f s).pw = s.pw := rfl
@[simp] theorem updEngine_thr (e : Nat) (f : Engine → Engine) : (updEngine e f s).thr = s.thr := rfl
@[simp] theorem updEngine_core (e : Nat) (f : Engine → Engine) : (updEngine e f s).core = s.core := rfl
@[simp] theorem updEngine_bay (e : Nat) (f : Engine → Engine) : (updEngine e f s).bay = s.bay := rfl
@[simp] theorem updEngine_slice (e : Nat) (f : Engine → Engine) : (updEngine e f s).slice = s.slice := rfl
@[simp] theorem updEngine_srcs (e : Nat) (f : Engine → Engine) : (updEngine e f s).srcs = s.srcs := rfl
@[simp] theorem updEngine_eng (e : Nat) (f : Engine → Engine) : (updEngine e f s).eng = edit Engine.reset f s.eng e := rfl
@[simp] theorem updEngine_cluster (e : Nat) (f : Engine → Engine) : (updEngine e f s).cluster = s.cluster := rfl
@[simp] theorem updEngine_part (e : Nat) (f : Engine → Engine) : (updEngine e f s).part = s.part := rfl
@[simp] theorem updEngine_stale (e : Nat) (f : Engine → Engine) : (updEngine e f s).stale = s.stale := rfl
@[simp] theorem updEngine_downDrop (e : Nat) (f : Engine → Engine) : (updEngine e f s).downDrop = s.downDrop := rfl
@[simp] theorem updEngine_stray (e : Nat) (f : Engine → Engine) : (updEngine e f s).stray = s.stray := rfl
@[simp] theorem updEngine_net (e : Nat) (f : Engine → Engine) : (updEngine e f s).net = s.net := rfl
@[simp] theorem updEngine_ereqs (e : Nat) (f : Engine → Engine) : (updEngine e f s).ereqs = s.ereqs := rfl
@[simp] theorem updEngine_mem (e : Nat) (f : Engine → Engine) : (updEngine e f s).mem = s.mem := rfl
@[simp] theorem updEngine_old (e : Nat) (f : Engine → Engine) : (updEngine e f s).old = s.old := rfl
@[simp] theorem updEngine_poison (e : Nat) (f : Engine → Engine) : (updEngine e f s).poison = s.poison := rfl
@[simp] theorem updEngine_queue (e : Nat) (f : Engine → Engine) : (updEngine e f s).queue = s.queue := rfl
@[simp] theorem updEngine_led (e : Nat) (f : Engine → Engine) : (updEngine e f s).led = s.led := rfl
@[simp] theorem updEngine_dimms (e : Nat) (f : Engine → Engine) : (updEngine e f s).dimms = s.dimms := rfl
@[simp] theorem updEngine_chan (e : Nat) (f : Engine → Engine) : (updEngine e f s).chan = s.chan := rfl
@[simp] theorem updEngine_region (e : Nat) (f : Engine → Engine) : (updEngine e f s).region = s.region := rfl
@[simp] theorem updEngine_ep (e : Nat) (f : Engine → Engine) : (updEngine e f s).ep = s.ep := rfl
@[simp] theorem updEngine_inst (e : Nat) (f : Engine → Engine) : (updEngine e f s).inst = s.inst := rfl
@[simp] theorem updEngine_ridge (e : Nat) (f : Engine → Engine) : (updEngine e f s).ridge = s.ridge := rfl
@[simp] theorem updEngine_wr (e : Nat) (f : Engine → Engine) : (updEngine e f s).wr = s.wr := rfl
@[simp] theorem updEngine_bw (e : Nat) (f : Engine → Engine) : (updEngine e f s).bw = s.bw := rfl
@[simp] theorem updEngine_xing (e : Nat) (f : Engine → Engine) : (updEngine e f s).xing = s.xing := rfl
@[simp] theorem updEngine_out (e : Nat) (f : Engine → Engine) : (updEngine e f s).out = s.out := rfl
@[simp] theorem updEngine_fresh (e : Nat) (f : Engine → Engine) : (updEngine e f s).fresh = s.fresh := rfl
@[simp] theorem thr_updEngine (e : Nat) (f : Engine → Engine) (y : Thr) : thr (updEngine e f s) y = thr s y := rfl
@[simp] theorem core_updEngine (e : Nat) (f : Engine → Engine) (y : Nat) : core (updEngine e f s) y = core s y := rfl
@[simp] theorem bay_updEngine (e : Nat) (f : Engine → Engine) (y : Nat) : bay (updEngine e f s) y = bay s y := rfl
@[simp] theorem slice_updEngine (e : Nat) (f : Engine → Engine) (y : Nat) : slice (updEngine e f s) y = slice s y := rfl
@[simp] theorem srcEnt_updEngine (e : Nat) (f : Engine → Engine) (y : Src) : srcEnt (updEngine e f s) y = srcEnt s y := rfl
@[simp] theorem cluster_updEngine (e : Nat) (f : Engine → Engine) (y : Nat) : cluster (updEngine e f s) y = cluster s y := rfl
@[simp] theorem part_updEngine (e : Nat) (f : Engine → Engine) (y : Nat) : part (updEngine e f s) y = part s y := rfl
@[simp] theorem queue_updEngine (e : Nat) (f : Engine → Engine) (y : Nat) : queue (updEngine e f s) y = queue s y := rfl
@[simp] theorem entry_updEngine (e : Nat) (f : Engine → Engine) (y : Nat) : entry (updEngine e f s) y = entry s y := rfl
@[simp] theorem chan_updEngine (e : Nat) (f : Engine → Engine) (y : Nat) : chan (updEngine e f s) y = chan s y := rfl
@[simp] theorem region_updEngine (e : Nat) (f : Engine → Engine) (y : Nat) : region (updEngine e f s) y = region s y := rfl
@[simp] theorem inst_updEngine (e : Nat) (f : Engine → Engine) (y : Nat) : inst (updEngine e f s) y = inst s y := rfl
@[simp] theorem port_updEngine (e : Nat) (f : Engine → Engine) (y : Nat) : port (updEngine e f s) y = port s y := rfl
@[simp] theorem rail_updEngine (e : Nat) (f : Engine → Engine) (y : Nat) : rail (updEngine e f s) y = rail s y := rfl
@[simp] theorem die_updEngine (e : Nat) (f : Engine → Engine) (y : Nat) : die (updEngine e f s) y = die s y := rfl
@[simp] theorem box_updEngine (e : Nat) (f : Engine → Engine) (y : Mbox) : box (updEngine e f s) y = box s y := rfl
@[simp] theorem crossingOf_updEngine (e : Nat) (f : Engine → Engine) (y : Clk) : crossingOf (updEngine e f s) y = crossingOf s y := rfl
@[simp] theorem readByte_updEngine (e : Nat) (f : Engine → Engine) (y : Nat) : readByte (updEngine e f s) y = readByte s y := rfl
@[simp] theorem isPoisoned_updEngine (e : Nat) (f : Engine → Engine) (y : BitVec 42) : isPoisoned (updEngine e f s) y = isPoisoned s y := rfl
@[simp] theorem isDirty_updEngine (e : Nat) (f : Engine → Engine) (y : BitVec 42) : isDirty (updEngine e f s) y = isDirty s y := rfl
@[simp] theorem lineData_updEngine (e : Nat) (f : Engine → Engine) (y : BitVec 42) : lineData (updEngine e f s) y = lineData s y := rfl
@[simp] theorem partOfBay_updEngine (e : Nat) (f : Engine → Engine) (y : Nat) : partOfBay (updEngine e f s) y = partOfBay s y := rfl
@[simp] theorem partOfEngine_updEngine (e : Nat) (f : Engine → Engine) (y : Nat) : partOfEngine (updEngine e f s) y = partOfEngine s y := rfl
@[simp] theorem partOf_updEngine (e : Nat) (f : Engine → Engine) (y : Thr) : partOf (updEngine e f s) y = partOf s y := rfl
@[simp] theorem partOfSrc_updEngine (e : Nat) (f : Engine → Engine) (y : Src) : partOfSrc (updEngine e f s) y = partOfSrc s y := rfl
@[simp] theorem engine_updEngine (e : Nat) (f : Engine → Engine) (y : Nat) : engine (updEngine e f s) y = if y = e then f (engine s e) else engine s y := by
  simp [updEngine, engine]

/-! ## updCluster -/
@[simp] theorem updCluster_pending (k : Nat) (f : Cluster → Cluster) : (updCluster k f s).pending = s.pending := rfl
@[simp] theorem updCluster_time (k : Nat) (f : Cluster → Cluster) : (updCluster k f s).time = s.time := rfl
@[simp] theorem updCluster_pw (k : Nat) (f : Cluster → Cluster) : (updCluster k f s).pw = s.pw := rfl
@[simp] theorem updCluster_thr (k : Nat) (f : Cluster → Cluster) : (updCluster k f s).thr = s.thr := rfl
@[simp] theorem updCluster_core (k : Nat) (f : Cluster → Cluster) : (updCluster k f s).core = s.core := rfl
@[simp] theorem updCluster_bay (k : Nat) (f : Cluster → Cluster) : (updCluster k f s).bay = s.bay := rfl
@[simp] theorem updCluster_slice (k : Nat) (f : Cluster → Cluster) : (updCluster k f s).slice = s.slice := rfl
@[simp] theorem updCluster_srcs (k : Nat) (f : Cluster → Cluster) : (updCluster k f s).srcs = s.srcs := rfl
@[simp] theorem updCluster_eng (k : Nat) (f : Cluster → Cluster) : (updCluster k f s).eng = s.eng := rfl
@[simp] theorem updCluster_cluster (k : Nat) (f : Cluster → Cluster) : (updCluster k f s).cluster = edit Cluster.reset f s.cluster k := rfl
@[simp] theorem updCluster_part (k : Nat) (f : Cluster → Cluster) : (updCluster k f s).part = s.part := rfl
@[simp] theorem updCluster_stale (k : Nat) (f : Cluster → Cluster) : (updCluster k f s).stale = s.stale := rfl
@[simp] theorem updCluster_downDrop (k : Nat) (f : Cluster → Cluster) : (updCluster k f s).downDrop = s.downDrop := rfl
@[simp] theorem updCluster_stray (k : Nat) (f : Cluster → Cluster) : (updCluster k f s).stray = s.stray := rfl
@[simp] theorem updCluster_net (k : Nat) (f : Cluster → Cluster) : (updCluster k f s).net = s.net := rfl
@[simp] theorem updCluster_ereqs (k : Nat) (f : Cluster → Cluster) : (updCluster k f s).ereqs = s.ereqs := rfl
@[simp] theorem updCluster_mem (k : Nat) (f : Cluster → Cluster) : (updCluster k f s).mem = s.mem := rfl
@[simp] theorem updCluster_old (k : Nat) (f : Cluster → Cluster) : (updCluster k f s).old = s.old := rfl
@[simp] theorem updCluster_poison (k : Nat) (f : Cluster → Cluster) : (updCluster k f s).poison = s.poison := rfl
@[simp] theorem updCluster_queue (k : Nat) (f : Cluster → Cluster) : (updCluster k f s).queue = s.queue := rfl
@[simp] theorem updCluster_led (k : Nat) (f : Cluster → Cluster) : (updCluster k f s).led = s.led := rfl
@[simp] theorem updCluster_dimms (k : Nat) (f : Cluster → Cluster) : (updCluster k f s).dimms = s.dimms := rfl
@[simp] theorem updCluster_chan (k : Nat) (f : Cluster → Cluster) : (updCluster k f s).chan = s.chan := rfl
@[simp] theorem updCluster_region (k : Nat) (f : Cluster → Cluster) : (updCluster k f s).region = s.region := rfl
@[simp] theorem updCluster_ep (k : Nat) (f : Cluster → Cluster) : (updCluster k f s).ep = s.ep := rfl
@[simp] theorem updCluster_inst (k : Nat) (f : Cluster → Cluster) : (updCluster k f s).inst = s.inst := rfl
@[simp] theorem updCluster_ridge (k : Nat) (f : Cluster → Cluster) : (updCluster k f s).ridge = s.ridge := rfl
@[simp] theorem updCluster_wr (k : Nat) (f : Cluster → Cluster) : (updCluster k f s).wr = s.wr := rfl
@[simp] theorem updCluster_bw (k : Nat) (f : Cluster → Cluster) : (updCluster k f s).bw = s.bw := rfl
@[simp] theorem updCluster_xing (k : Nat) (f : Cluster → Cluster) : (updCluster k f s).xing = s.xing := rfl
@[simp] theorem updCluster_out (k : Nat) (f : Cluster → Cluster) : (updCluster k f s).out = s.out := rfl
@[simp] theorem updCluster_fresh (k : Nat) (f : Cluster → Cluster) : (updCluster k f s).fresh = s.fresh := rfl
@[simp] theorem thr_updCluster (k : Nat) (f : Cluster → Cluster) (y : Thr) : thr (updCluster k f s) y = thr s y := rfl
@[simp] theorem core_updCluster (k : Nat) (f : Cluster → Cluster) (y : Nat) : core (updCluster k f s) y = core s y := rfl
@[simp] theorem bay_updCluster (k : Nat) (f : Cluster → Cluster) (y : Nat) : bay (updCluster k f s) y = bay s y := rfl
@[simp] theorem slice_updCluster (k : Nat) (f : Cluster → Cluster) (y : Nat) : slice (updCluster k f s) y = slice s y := rfl
@[simp] theorem srcEnt_updCluster (k : Nat) (f : Cluster → Cluster) (y : Src) : srcEnt (updCluster k f s) y = srcEnt s y := rfl
@[simp] theorem engine_updCluster (k : Nat) (f : Cluster → Cluster) (y : Nat) : engine (updCluster k f s) y = engine s y := rfl
@[simp] theorem part_updCluster (k : Nat) (f : Cluster → Cluster) (y : Nat) : part (updCluster k f s) y = part s y := rfl
@[simp] theorem queue_updCluster (k : Nat) (f : Cluster → Cluster) (y : Nat) : queue (updCluster k f s) y = queue s y := rfl
@[simp] theorem entry_updCluster (k : Nat) (f : Cluster → Cluster) (y : Nat) : entry (updCluster k f s) y = entry s y := rfl
@[simp] theorem chan_updCluster (k : Nat) (f : Cluster → Cluster) (y : Nat) : chan (updCluster k f s) y = chan s y := rfl
@[simp] theorem region_updCluster (k : Nat) (f : Cluster → Cluster) (y : Nat) : region (updCluster k f s) y = region s y := rfl
@[simp] theorem inst_updCluster (k : Nat) (f : Cluster → Cluster) (y : Nat) : inst (updCluster k f s) y = inst s y := rfl
@[simp] theorem port_updCluster (k : Nat) (f : Cluster → Cluster) (y : Nat) : port (updCluster k f s) y = port s y := rfl
@[simp] theorem rail_updCluster (k : Nat) (f : Cluster → Cluster) (y : Nat) : rail (updCluster k f s) y = rail s y := rfl
@[simp] theorem die_updCluster (k : Nat) (f : Cluster → Cluster) (y : Nat) : die (updCluster k f s) y = die s y := rfl
@[simp] theorem box_updCluster (k : Nat) (f : Cluster → Cluster) (y : Mbox) : box (updCluster k f s) y = box s y := rfl
@[simp] theorem crossingOf_updCluster (k : Nat) (f : Cluster → Cluster) (y : Clk) : crossingOf (updCluster k f s) y = crossingOf s y := rfl
@[simp] theorem readByte_updCluster (k : Nat) (f : Cluster → Cluster) (y : Nat) : readByte (updCluster k f s) y = readByte s y := rfl
@[simp] theorem isPoisoned_updCluster (k : Nat) (f : Cluster → Cluster) (y : BitVec 42) : isPoisoned (updCluster k f s) y = isPoisoned s y := rfl
@[simp] theorem isDirty_updCluster (k : Nat) (f : Cluster → Cluster) (y : BitVec 42) : isDirty (updCluster k f s) y = isDirty s y := rfl
@[simp] theorem lineData_updCluster (k : Nat) (f : Cluster → Cluster) (y : BitVec 42) : lineData (updCluster k f s) y = lineData s y := rfl
@[simp] theorem partOfBay_updCluster (k : Nat) (f : Cluster → Cluster) (y : Nat) : partOfBay (updCluster k f s) y = partOfBay s y := rfl
@[simp] theorem partOfEngine_updCluster (k : Nat) (f : Cluster → Cluster) (y : Nat) : partOfEngine (updCluster k f s) y = partOfEngine s y := rfl
@[simp] theorem partOf_updCluster (k : Nat) (f : Cluster → Cluster) (y : Thr) : partOf (updCluster k f s) y = partOf s y := rfl
@[simp] theorem partOfSrc_updCluster (k : Nat) (f : Cluster → Cluster) (y : Src) : partOfSrc (updCluster k f s) y = partOfSrc s y := rfl
@[simp] theorem cluster_updCluster (k : Nat) (f : Cluster → Cluster) (y : Nat) : cluster (updCluster k f s) y = if y = k then f (cluster s k) else cluster s y := by
  simp [updCluster, cluster]

/-! ## updPart -/
@[simp] theorem updPart_pending (p : Nat) (f : Part → Part) : (updPart p f s).pending = s.pending := rfl
@[simp] theorem updPart_time (p : Nat) (f : Part → Part) : (updPart p f s).time = s.time := rfl
@[simp] theorem updPart_pw (p : Nat) (f : Part → Part) : (updPart p f s).pw = s.pw := rfl
@[simp] theorem updPart_thr (p : Nat) (f : Part → Part) : (updPart p f s).thr = s.thr := rfl
@[simp] theorem updPart_core (p : Nat) (f : Part → Part) : (updPart p f s).core = s.core := rfl
@[simp] theorem updPart_bay (p : Nat) (f : Part → Part) : (updPart p f s).bay = s.bay := rfl
@[simp] theorem updPart_slice (p : Nat) (f : Part → Part) : (updPart p f s).slice = s.slice := rfl
@[simp] theorem updPart_srcs (p : Nat) (f : Part → Part) : (updPart p f s).srcs = s.srcs := rfl
@[simp] theorem updPart_eng (p : Nat) (f : Part → Part) : (updPart p f s).eng = s.eng := rfl
@[simp] theorem updPart_cluster (p : Nat) (f : Part → Part) : (updPart p f s).cluster = s.cluster := rfl
@[simp] theorem updPart_part (p : Nat) (f : Part → Part) : (updPart p f s).part = edit Part.reset f s.part p := rfl
@[simp] theorem updPart_stale (p : Nat) (f : Part → Part) : (updPart p f s).stale = s.stale := rfl
@[simp] theorem updPart_downDrop (p : Nat) (f : Part → Part) : (updPart p f s).downDrop = s.downDrop := rfl
@[simp] theorem updPart_stray (p : Nat) (f : Part → Part) : (updPart p f s).stray = s.stray := rfl
@[simp] theorem updPart_net (p : Nat) (f : Part → Part) : (updPart p f s).net = s.net := rfl
@[simp] theorem updPart_ereqs (p : Nat) (f : Part → Part) : (updPart p f s).ereqs = s.ereqs := rfl
@[simp] theorem updPart_mem (p : Nat) (f : Part → Part) : (updPart p f s).mem = s.mem := rfl
@[simp] theorem updPart_old (p : Nat) (f : Part → Part) : (updPart p f s).old = s.old := rfl
@[simp] theorem updPart_poison (p : Nat) (f : Part → Part) : (updPart p f s).poison = s.poison := rfl
@[simp] theorem updPart_queue (p : Nat) (f : Part → Part) : (updPart p f s).queue = s.queue := rfl
@[simp] theorem updPart_led (p : Nat) (f : Part → Part) : (updPart p f s).led = s.led := rfl
@[simp] theorem updPart_dimms (p : Nat) (f : Part → Part) : (updPart p f s).dimms = s.dimms := rfl
@[simp] theorem updPart_chan (p : Nat) (f : Part → Part) : (updPart p f s).chan = s.chan := rfl
@[simp] theorem updPart_region (p : Nat) (f : Part → Part) : (updPart p f s).region = s.region := rfl
@[simp] theorem updPart_ep (p : Nat) (f : Part → Part) : (updPart p f s).ep = s.ep := rfl
@[simp] theorem updPart_inst (p : Nat) (f : Part → Part) : (updPart p f s).inst = s.inst := rfl
@[simp] theorem updPart_ridge (p : Nat) (f : Part → Part) : (updPart p f s).ridge = s.ridge := rfl
@[simp] theorem updPart_wr (p : Nat) (f : Part → Part) : (updPart p f s).wr = s.wr := rfl
@[simp] theorem updPart_bw (p : Nat) (f : Part → Part) : (updPart p f s).bw = s.bw := rfl
@[simp] theorem updPart_xing (p : Nat) (f : Part → Part) : (updPart p f s).xing = s.xing := rfl
@[simp] theorem updPart_out (p : Nat) (f : Part → Part) : (updPart p f s).out = s.out := rfl
@[simp] theorem updPart_fresh (p : Nat) (f : Part → Part) : (updPart p f s).fresh = s.fresh := rfl
@[simp] theorem thr_updPart (p : Nat) (f : Part → Part) (y : Thr) : thr (updPart p f s) y = thr s y := rfl
@[simp] theorem core_updPart (p : Nat) (f : Part → Part) (y : Nat) : core (updPart p f s) y = core s y := rfl
@[simp] theorem bay_updPart (p : Nat) (f : Part → Part) (y : Nat) : bay (updPart p f s) y = bay s y := rfl
@[simp] theorem slice_updPart (p : Nat) (f : Part → Part) (y : Nat) : slice (updPart p f s) y = slice s y := rfl
@[simp] theorem srcEnt_updPart (p : Nat) (f : Part → Part) (y : Src) : srcEnt (updPart p f s) y = srcEnt s y := rfl
@[simp] theorem engine_updPart (p : Nat) (f : Part → Part) (y : Nat) : engine (updPart p f s) y = engine s y := rfl
@[simp] theorem cluster_updPart (p : Nat) (f : Part → Part) (y : Nat) : cluster (updPart p f s) y = cluster s y := rfl
@[simp] theorem queue_updPart (p : Nat) (f : Part → Part) (y : Nat) : queue (updPart p f s) y = queue s y := rfl
@[simp] theorem entry_updPart (p : Nat) (f : Part → Part) (y : Nat) : entry (updPart p f s) y = entry s y := rfl
@[simp] theorem chan_updPart (p : Nat) (f : Part → Part) (y : Nat) : chan (updPart p f s) y = chan s y := rfl
@[simp] theorem region_updPart (p : Nat) (f : Part → Part) (y : Nat) : region (updPart p f s) y = region s y := rfl
@[simp] theorem inst_updPart (p : Nat) (f : Part → Part) (y : Nat) : inst (updPart p f s) y = inst s y := rfl
@[simp] theorem port_updPart (p : Nat) (f : Part → Part) (y : Nat) : port (updPart p f s) y = port s y := rfl
@[simp] theorem rail_updPart (p : Nat) (f : Part → Part) (y : Nat) : rail (updPart p f s) y = rail s y := rfl
@[simp] theorem die_updPart (p : Nat) (f : Part → Part) (y : Nat) : die (updPart p f s) y = die s y := rfl
@[simp] theorem box_updPart (p : Nat) (f : Part → Part) (y : Mbox) : box (updPart p f s) y = box s y := rfl
@[simp] theorem crossingOf_updPart (p : Nat) (f : Part → Part) (y : Clk) : crossingOf (updPart p f s) y = crossingOf s y := rfl
@[simp] theorem readByte_updPart (p : Nat) (f : Part → Part) (y : Nat) : readByte (updPart p f s) y = readByte s y := rfl
@[simp] theorem isPoisoned_updPart (p : Nat) (f : Part → Part) (y : BitVec 42) : isPoisoned (updPart p f s) y = isPoisoned s y := rfl
@[simp] theorem isDirty_updPart (p : Nat) (f : Part → Part) (y : BitVec 42) : isDirty (updPart p f s) y = isDirty s y := rfl
@[simp] theorem lineData_updPart (p : Nat) (f : Part → Part) (y : BitVec 42) : lineData (updPart p f s) y = lineData s y := rfl
@[simp] theorem part_updPart (p : Nat) (f : Part → Part) (y : Nat) : part (updPart p f s) y = if y = p then f (part s p) else part s y := by
  simp [updPart, part]

/-! ## updQueue -/
@[simp] theorem updQueue_pending (q : Nat) (f : Queue → Queue) : (updQueue q f s).pending = s.pending := rfl
@[simp] theorem updQueue_time (q : Nat) (f : Queue → Queue) : (updQueue q f s).time = s.time := rfl
@[simp] theorem updQueue_pw (q : Nat) (f : Queue → Queue) : (updQueue q f s).pw = s.pw := rfl
@[simp] theorem updQueue_thr (q : Nat) (f : Queue → Queue) : (updQueue q f s).thr = s.thr := rfl
@[simp] theorem updQueue_core (q : Nat) (f : Queue → Queue) : (updQueue q f s).core = s.core := rfl
@[simp] theorem updQueue_bay (q : Nat) (f : Queue → Queue) : (updQueue q f s).bay = s.bay := rfl
@[simp] theorem updQueue_slice (q : Nat) (f : Queue → Queue) : (updQueue q f s).slice = s.slice := rfl
@[simp] theorem updQueue_srcs (q : Nat) (f : Queue → Queue) : (updQueue q f s).srcs = s.srcs := rfl
@[simp] theorem updQueue_eng (q : Nat) (f : Queue → Queue) : (updQueue q f s).eng = s.eng := rfl
@[simp] theorem updQueue_cluster (q : Nat) (f : Queue → Queue) : (updQueue q f s).cluster = s.cluster := rfl
@[simp] theorem updQueue_part (q : Nat) (f : Queue → Queue) : (updQueue q f s).part = s.part := rfl
@[simp] theorem updQueue_stale (q : Nat) (f : Queue → Queue) : (updQueue q f s).stale = s.stale := rfl
@[simp] theorem updQueue_downDrop (q : Nat) (f : Queue → Queue) : (updQueue q f s).downDrop = s.downDrop := rfl
@[simp] theorem updQueue_stray (q : Nat) (f : Queue → Queue) : (updQueue q f s).stray = s.stray := rfl
@[simp] theorem updQueue_net (q : Nat) (f : Queue → Queue) : (updQueue q f s).net = s.net := rfl
@[simp] theorem updQueue_ereqs (q : Nat) (f : Queue → Queue) : (updQueue q f s).ereqs = s.ereqs := rfl
@[simp] theorem updQueue_mem (q : Nat) (f : Queue → Queue) : (updQueue q f s).mem = s.mem := rfl
@[simp] theorem updQueue_old (q : Nat) (f : Queue → Queue) : (updQueue q f s).old = s.old := rfl
@[simp] theorem updQueue_poison (q : Nat) (f : Queue → Queue) : (updQueue q f s).poison = s.poison := rfl
@[simp] theorem updQueue_queue (q : Nat) (f : Queue → Queue) : (updQueue q f s).queue = edit Queue.reset f s.queue q := rfl
@[simp] theorem updQueue_led (q : Nat) (f : Queue → Queue) : (updQueue q f s).led = s.led := rfl
@[simp] theorem updQueue_dimms (q : Nat) (f : Queue → Queue) : (updQueue q f s).dimms = s.dimms := rfl
@[simp] theorem updQueue_chan (q : Nat) (f : Queue → Queue) : (updQueue q f s).chan = s.chan := rfl
@[simp] theorem updQueue_region (q : Nat) (f : Queue → Queue) : (updQueue q f s).region = s.region := rfl
@[simp] theorem updQueue_ep (q : Nat) (f : Queue → Queue) : (updQueue q f s).ep = s.ep := rfl
@[simp] theorem updQueue_inst (q : Nat) (f : Queue → Queue) : (updQueue q f s).inst = s.inst := rfl
@[simp] theorem updQueue_ridge (q : Nat) (f : Queue → Queue) : (updQueue q f s).ridge = s.ridge := rfl
@[simp] theorem updQueue_wr (q : Nat) (f : Queue → Queue) : (updQueue q f s).wr = s.wr := rfl
@[simp] theorem updQueue_bw (q : Nat) (f : Queue → Queue) : (updQueue q f s).bw = s.bw := rfl
@[simp] theorem updQueue_xing (q : Nat) (f : Queue → Queue) : (updQueue q f s).xing = s.xing := rfl
@[simp] theorem updQueue_out (q : Nat) (f : Queue → Queue) : (updQueue q f s).out = s.out := rfl
@[simp] theorem updQueue_fresh (q : Nat) (f : Queue → Queue) : (updQueue q f s).fresh = s.fresh := rfl
@[simp] theorem thr_updQueue (q : Nat) (f : Queue → Queue) (y : Thr) : thr (updQueue q f s) y = thr s y := rfl
@[simp] theorem core_updQueue (q : Nat) (f : Queue → Queue) (y : Nat) : core (updQueue q f s) y = core s y := rfl
@[simp] theorem bay_updQueue (q : Nat) (f : Queue → Queue) (y : Nat) : bay (updQueue q f s) y = bay s y := rfl
@[simp] theorem slice_updQueue (q : Nat) (f : Queue → Queue) (y : Nat) : slice (updQueue q f s) y = slice s y := rfl
@[simp] theorem srcEnt_updQueue (q : Nat) (f : Queue → Queue) (y : Src) : srcEnt (updQueue q f s) y = srcEnt s y := rfl
@[simp] theorem engine_updQueue (q : Nat) (f : Queue → Queue) (y : Nat) : engine (updQueue q f s) y = engine s y := rfl
@[simp] theorem cluster_updQueue (q : Nat) (f : Queue → Queue) (y : Nat) : cluster (updQueue q f s) y = cluster s y := rfl
@[simp] theorem part_updQueue (q : Nat) (f : Queue → Queue) (y : Nat) : part (updQueue q f s) y = part s y := rfl
@[simp] theorem entry_updQueue (q : Nat) (f : Queue → Queue) (y : Nat) : entry (updQueue q f s) y = entry s y := rfl
@[simp] theorem chan_updQueue (q : Nat) (f : Queue → Queue) (y : Nat) : chan (updQueue q f s) y = chan s y := rfl
@[simp] theorem region_updQueue (q : Nat) (f : Queue → Queue) (y : Nat) : region (updQueue q f s) y = region s y := rfl
@[simp] theorem inst_updQueue (q : Nat) (f : Queue → Queue) (y : Nat) : inst (updQueue q f s) y = inst s y := rfl
@[simp] theorem port_updQueue (q : Nat) (f : Queue → Queue) (y : Nat) : port (updQueue q f s) y = port s y := rfl
@[simp] theorem rail_updQueue (q : Nat) (f : Queue → Queue) (y : Nat) : rail (updQueue q f s) y = rail s y := rfl
@[simp] theorem die_updQueue (q : Nat) (f : Queue → Queue) (y : Nat) : die (updQueue q f s) y = die s y := rfl
@[simp] theorem box_updQueue (q : Nat) (f : Queue → Queue) (y : Mbox) : box (updQueue q f s) y = box s y := rfl
@[simp] theorem crossingOf_updQueue (q : Nat) (f : Queue → Queue) (y : Clk) : crossingOf (updQueue q f s) y = crossingOf s y := rfl
@[simp] theorem readByte_updQueue (q : Nat) (f : Queue → Queue) (y : Nat) : readByte (updQueue q f s) y = readByte s y := rfl
@[simp] theorem isPoisoned_updQueue (q : Nat) (f : Queue → Queue) (y : BitVec 42) : isPoisoned (updQueue q f s) y = isPoisoned s y := rfl
@[simp] theorem isDirty_updQueue (q : Nat) (f : Queue → Queue) (y : BitVec 42) : isDirty (updQueue q f s) y = isDirty s y := rfl
@[simp] theorem lineData_updQueue (q : Nat) (f : Queue → Queue) (y : BitVec 42) : lineData (updQueue q f s) y = lineData s y := rfl
@[simp] theorem partOfBay_updQueue (q : Nat) (f : Queue → Queue) (y : Nat) : partOfBay (updQueue q f s) y = partOfBay s y := rfl
@[simp] theorem partOfEngine_updQueue (q : Nat) (f : Queue → Queue) (y : Nat) : partOfEngine (updQueue q f s) y = partOfEngine s y := rfl
@[simp] theorem partOf_updQueue (q : Nat) (f : Queue → Queue) (y : Thr) : partOf (updQueue q f s) y = partOf s y := rfl
@[simp] theorem partOfSrc_updQueue (q : Nat) (f : Queue → Queue) (y : Src) : partOfSrc (updQueue q f s) y = partOfSrc s y := rfl
@[simp] theorem queue_updQueue (q : Nat) (f : Queue → Queue) (y : Nat) : queue (updQueue q f s) y = if y = q then f (queue s q) else queue s y := by
  simp [updQueue, queue]

/-! ## updEntry -/
@[simp] theorem updEntry_pending (e : Nat) (f : Entry → Entry) : (updEntry e f s).pending = s.pending := rfl
@[simp] theorem updEntry_time (e : Nat) (f : Entry → Entry) : (updEntry e f s).time = s.time := rfl
@[simp] theorem updEntry_pw (e : Nat) (f : Entry → Entry) : (updEntry e f s).pw = s.pw := rfl
@[simp] theorem updEntry_thr (e : Nat) (f : Entry → Entry) : (updEntry e f s).thr = s.thr := rfl
@[simp] theorem updEntry_core (e : Nat) (f : Entry → Entry) : (updEntry e f s).core = s.core := rfl
@[simp] theorem updEntry_bay (e : Nat) (f : Entry → Entry) : (updEntry e f s).bay = s.bay := rfl
@[simp] theorem updEntry_slice (e : Nat) (f : Entry → Entry) : (updEntry e f s).slice = s.slice := rfl
@[simp] theorem updEntry_srcs (e : Nat) (f : Entry → Entry) : (updEntry e f s).srcs = s.srcs := rfl
@[simp] theorem updEntry_eng (e : Nat) (f : Entry → Entry) : (updEntry e f s).eng = s.eng := rfl
@[simp] theorem updEntry_cluster (e : Nat) (f : Entry → Entry) : (updEntry e f s).cluster = s.cluster := rfl
@[simp] theorem updEntry_part (e : Nat) (f : Entry → Entry) : (updEntry e f s).part = s.part := rfl
@[simp] theorem updEntry_stale (e : Nat) (f : Entry → Entry) : (updEntry e f s).stale = s.stale := rfl
@[simp] theorem updEntry_downDrop (e : Nat) (f : Entry → Entry) : (updEntry e f s).downDrop = s.downDrop := rfl
@[simp] theorem updEntry_stray (e : Nat) (f : Entry → Entry) : (updEntry e f s).stray = s.stray := rfl
@[simp] theorem updEntry_net (e : Nat) (f : Entry → Entry) : (updEntry e f s).net = s.net := rfl
@[simp] theorem updEntry_ereqs (e : Nat) (f : Entry → Entry) : (updEntry e f s).ereqs = s.ereqs := rfl
@[simp] theorem updEntry_mem (e : Nat) (f : Entry → Entry) : (updEntry e f s).mem = s.mem := rfl
@[simp] theorem updEntry_old (e : Nat) (f : Entry → Entry) : (updEntry e f s).old = s.old := rfl
@[simp] theorem updEntry_poison (e : Nat) (f : Entry → Entry) : (updEntry e f s).poison = s.poison := rfl
@[simp] theorem updEntry_queue (e : Nat) (f : Entry → Entry) : (updEntry e f s).queue = s.queue := rfl
@[simp] theorem updEntry_led (e : Nat) (f : Entry → Entry) : (updEntry e f s).led = { s.led with ent := edit Entry.reset f s.led.ent e } := rfl
@[simp] theorem updEntry_dimms (e : Nat) (f : Entry → Entry) : (updEntry e f s).dimms = s.dimms := rfl
@[simp] theorem updEntry_chan (e : Nat) (f : Entry → Entry) : (updEntry e f s).chan = s.chan := rfl
@[simp] theorem updEntry_region (e : Nat) (f : Entry → Entry) : (updEntry e f s).region = s.region := rfl
@[simp] theorem updEntry_ep (e : Nat) (f : Entry → Entry) : (updEntry e f s).ep = s.ep := rfl
@[simp] theorem updEntry_inst (e : Nat) (f : Entry → Entry) : (updEntry e f s).inst = s.inst := rfl
@[simp] theorem updEntry_ridge (e : Nat) (f : Entry → Entry) : (updEntry e f s).ridge = s.ridge := rfl
@[simp] theorem updEntry_wr (e : Nat) (f : Entry → Entry) : (updEntry e f s).wr = s.wr := rfl
@[simp] theorem updEntry_bw (e : Nat) (f : Entry → Entry) : (updEntry e f s).bw = s.bw := rfl
@[simp] theorem updEntry_xing (e : Nat) (f : Entry → Entry) : (updEntry e f s).xing = s.xing := rfl
@[simp] theorem updEntry_out (e : Nat) (f : Entry → Entry) : (updEntry e f s).out = s.out := rfl
@[simp] theorem updEntry_fresh (e : Nat) (f : Entry → Entry) : (updEntry e f s).fresh = s.fresh := rfl
@[simp] theorem thr_updEntry (e : Nat) (f : Entry → Entry) (y : Thr) : thr (updEntry e f s) y = thr s y := rfl
@[simp] theorem core_updEntry (e : Nat) (f : Entry → Entry) (y : Nat) : core (updEntry e f s) y = core s y := rfl
@[simp] theorem bay_updEntry (e : Nat) (f : Entry → Entry) (y : Nat) : bay (updEntry e f s) y = bay s y := rfl
@[simp] theorem slice_updEntry (e : Nat) (f : Entry → Entry) (y : Nat) : slice (updEntry e f s) y = slice s y := rfl
@[simp] theorem srcEnt_updEntry (e : Nat) (f : Entry → Entry) (y : Src) : srcEnt (updEntry e f s) y = srcEnt s y := rfl
@[simp] theorem engine_updEntry (e : Nat) (f : Entry → Entry) (y : Nat) : engine (updEntry e f s) y = engine s y := rfl
@[simp] theorem cluster_updEntry (e : Nat) (f : Entry → Entry) (y : Nat) : cluster (updEntry e f s) y = cluster s y := rfl
@[simp] theorem part_updEntry (e : Nat) (f : Entry → Entry) (y : Nat) : part (updEntry e f s) y = part s y := rfl
@[simp] theorem queue_updEntry (e : Nat) (f : Entry → Entry) (y : Nat) : queue (updEntry e f s) y = queue s y := rfl
@[simp] theorem chan_updEntry (e : Nat) (f : Entry → Entry) (y : Nat) : chan (updEntry e f s) y = chan s y := rfl
@[simp] theorem region_updEntry (e : Nat) (f : Entry → Entry) (y : Nat) : region (updEntry e f s) y = region s y := rfl
@[simp] theorem inst_updEntry (e : Nat) (f : Entry → Entry) (y : Nat) : inst (updEntry e f s) y = inst s y := rfl
@[simp] theorem port_updEntry (e : Nat) (f : Entry → Entry) (y : Nat) : port (updEntry e f s) y = port s y := rfl
@[simp] theorem rail_updEntry (e : Nat) (f : Entry → Entry) (y : Nat) : rail (updEntry e f s) y = rail s y := rfl
@[simp] theorem die_updEntry (e : Nat) (f : Entry → Entry) (y : Nat) : die (updEntry e f s) y = die s y := rfl
@[simp] theorem box_updEntry (e : Nat) (f : Entry → Entry) (y : Mbox) : box (updEntry e f s) y = box s y := rfl
@[simp] theorem crossingOf_updEntry (e : Nat) (f : Entry → Entry) (y : Clk) : crossingOf (updEntry e f s) y = crossingOf s y := rfl
@[simp] theorem readByte_updEntry (e : Nat) (f : Entry → Entry) (y : Nat) : readByte (updEntry e f s) y = readByte s y := rfl
@[simp] theorem isPoisoned_updEntry (e : Nat) (f : Entry → Entry) (y : BitVec 42) : isPoisoned (updEntry e f s) y = isPoisoned s y := rfl
@[simp] theorem isDirty_updEntry (e : Nat) (f : Entry → Entry) (y : BitVec 42) : isDirty (updEntry e f s) y = isDirty s y := rfl
@[simp] theorem lineData_updEntry (e : Nat) (f : Entry → Entry) (y : BitVec 42) : lineData (updEntry e f s) y = lineData s y := rfl
@[simp] theorem partOfBay_updEntry (e : Nat) (f : Entry → Entry) (y : Nat) : partOfBay (updEntry e f s) y = partOfBay s y := rfl
@[simp] theorem partOfEngine_updEntry (e : Nat) (f : Entry → Entry) (y : Nat) : partOfEngine (updEntry e f s) y = partOfEngine s y := rfl
@[simp] theorem partOf_updEntry (e : Nat) (f : Entry → Entry) (y : Thr) : partOf (updEntry e f s) y = partOf s y := rfl
@[simp] theorem partOfSrc_updEntry (e : Nat) (f : Entry → Entry) (y : Src) : partOfSrc (updEntry e f s) y = partOfSrc s y := rfl
@[simp] theorem entry_updEntry (e : Nat) (f : Entry → Entry) (y : Nat) : entry (updEntry e f s) y = if y = e then f (entry s e) else entry s y := by
  simp [updEntry, entry]

/-! ## updChan -/
@[simp] theorem updChan_pending (c : Nat) (f : Chan → Chan) : (updChan c f s).pending = s.pending := rfl
@[simp] theorem updChan_time (c : Nat) (f : Chan → Chan) : (updChan c f s).time = s.time := rfl
@[simp] theorem updChan_pw (c : Nat) (f : Chan → Chan) : (updChan c f s).pw = s.pw := rfl
@[simp] theorem updChan_thr (c : Nat) (f : Chan → Chan) : (updChan c f s).thr = s.thr := rfl
@[simp] theorem updChan_core (c : Nat) (f : Chan → Chan) : (updChan c f s).core = s.core := rfl
@[simp] theorem updChan_bay (c : Nat) (f : Chan → Chan) : (updChan c f s).bay = s.bay := rfl
@[simp] theorem updChan_slice (c : Nat) (f : Chan → Chan) : (updChan c f s).slice = s.slice := rfl
@[simp] theorem updChan_srcs (c : Nat) (f : Chan → Chan) : (updChan c f s).srcs = s.srcs := rfl
@[simp] theorem updChan_eng (c : Nat) (f : Chan → Chan) : (updChan c f s).eng = s.eng := rfl
@[simp] theorem updChan_cluster (c : Nat) (f : Chan → Chan) : (updChan c f s).cluster = s.cluster := rfl
@[simp] theorem updChan_part (c : Nat) (f : Chan → Chan) : (updChan c f s).part = s.part := rfl
@[simp] theorem updChan_stale (c : Nat) (f : Chan → Chan) : (updChan c f s).stale = s.stale := rfl
@[simp] theorem updChan_downDrop (c : Nat) (f : Chan → Chan) : (updChan c f s).downDrop = s.downDrop := rfl
@[simp] theorem updChan_stray (c : Nat) (f : Chan → Chan) : (updChan c f s).stray = s.stray := rfl
@[simp] theorem updChan_net (c : Nat) (f : Chan → Chan) : (updChan c f s).net = s.net := rfl
@[simp] theorem updChan_ereqs (c : Nat) (f : Chan → Chan) : (updChan c f s).ereqs = s.ereqs := rfl
@[simp] theorem updChan_mem (c : Nat) (f : Chan → Chan) : (updChan c f s).mem = s.mem := rfl
@[simp] theorem updChan_old (c : Nat) (f : Chan → Chan) : (updChan c f s).old = s.old := rfl
@[simp] theorem updChan_poison (c : Nat) (f : Chan → Chan) : (updChan c f s).poison = s.poison := rfl
@[simp] theorem updChan_queue (c : Nat) (f : Chan → Chan) : (updChan c f s).queue = s.queue := rfl
@[simp] theorem updChan_led (c : Nat) (f : Chan → Chan) : (updChan c f s).led = s.led := rfl
@[simp] theorem updChan_dimms (c : Nat) (f : Chan → Chan) : (updChan c f s).dimms = s.dimms := rfl
@[simp] theorem updChan_chan (c : Nat) (f : Chan → Chan) : (updChan c f s).chan = edit Chan.reset f s.chan c := rfl
@[simp] theorem updChan_region (c : Nat) (f : Chan → Chan) : (updChan c f s).region = s.region := rfl
@[simp] theorem updChan_ep (c : Nat) (f : Chan → Chan) : (updChan c f s).ep = s.ep := rfl
@[simp] theorem updChan_inst (c : Nat) (f : Chan → Chan) : (updChan c f s).inst = s.inst := rfl
@[simp] theorem updChan_ridge (c : Nat) (f : Chan → Chan) : (updChan c f s).ridge = s.ridge := rfl
@[simp] theorem updChan_wr (c : Nat) (f : Chan → Chan) : (updChan c f s).wr = s.wr := rfl
@[simp] theorem updChan_bw (c : Nat) (f : Chan → Chan) : (updChan c f s).bw = s.bw := rfl
@[simp] theorem updChan_xing (c : Nat) (f : Chan → Chan) : (updChan c f s).xing = s.xing := rfl
@[simp] theorem updChan_out (c : Nat) (f : Chan → Chan) : (updChan c f s).out = s.out := rfl
@[simp] theorem updChan_fresh (c : Nat) (f : Chan → Chan) : (updChan c f s).fresh = s.fresh := rfl
@[simp] theorem thr_updChan (c : Nat) (f : Chan → Chan) (y : Thr) : thr (updChan c f s) y = thr s y := rfl
@[simp] theorem core_updChan (c : Nat) (f : Chan → Chan) (y : Nat) : core (updChan c f s) y = core s y := rfl
@[simp] theorem bay_updChan (c : Nat) (f : Chan → Chan) (y : Nat) : bay (updChan c f s) y = bay s y := rfl
@[simp] theorem slice_updChan (c : Nat) (f : Chan → Chan) (y : Nat) : slice (updChan c f s) y = slice s y := rfl
@[simp] theorem srcEnt_updChan (c : Nat) (f : Chan → Chan) (y : Src) : srcEnt (updChan c f s) y = srcEnt s y := rfl
@[simp] theorem engine_updChan (c : Nat) (f : Chan → Chan) (y : Nat) : engine (updChan c f s) y = engine s y := rfl
@[simp] theorem cluster_updChan (c : Nat) (f : Chan → Chan) (y : Nat) : cluster (updChan c f s) y = cluster s y := rfl
@[simp] theorem part_updChan (c : Nat) (f : Chan → Chan) (y : Nat) : part (updChan c f s) y = part s y := rfl
@[simp] theorem queue_updChan (c : Nat) (f : Chan → Chan) (y : Nat) : queue (updChan c f s) y = queue s y := rfl
@[simp] theorem entry_updChan (c : Nat) (f : Chan → Chan) (y : Nat) : entry (updChan c f s) y = entry s y := rfl
@[simp] theorem region_updChan (c : Nat) (f : Chan → Chan) (y : Nat) : region (updChan c f s) y = region s y := rfl
@[simp] theorem inst_updChan (c : Nat) (f : Chan → Chan) (y : Nat) : inst (updChan c f s) y = inst s y := rfl
@[simp] theorem port_updChan (c : Nat) (f : Chan → Chan) (y : Nat) : port (updChan c f s) y = port s y := rfl
@[simp] theorem rail_updChan (c : Nat) (f : Chan → Chan) (y : Nat) : rail (updChan c f s) y = rail s y := rfl
@[simp] theorem die_updChan (c : Nat) (f : Chan → Chan) (y : Nat) : die (updChan c f s) y = die s y := rfl
@[simp] theorem box_updChan (c : Nat) (f : Chan → Chan) (y : Mbox) : box (updChan c f s) y = box s y := rfl
@[simp] theorem crossingOf_updChan (c : Nat) (f : Chan → Chan) (y : Clk) : crossingOf (updChan c f s) y = crossingOf s y := rfl
@[simp] theorem readByte_updChan (c : Nat) (f : Chan → Chan) (y : Nat) : readByte (updChan c f s) y = readByte s y := rfl
@[simp] theorem isPoisoned_updChan (c : Nat) (f : Chan → Chan) (y : BitVec 42) : isPoisoned (updChan c f s) y = isPoisoned s y := rfl
@[simp] theorem isDirty_updChan (c : Nat) (f : Chan → Chan) (y : BitVec 42) : isDirty (updChan c f s) y = isDirty s y := rfl
@[simp] theorem lineData_updChan (c : Nat) (f : Chan → Chan) (y : BitVec 42) : lineData (updChan c f s) y = lineData s y := rfl
@[simp] theorem partOfBay_updChan (c : Nat) (f : Chan → Chan) (y : Nat) : partOfBay (updChan c f s) y = partOfBay s y := rfl
@[simp] theorem partOfEngine_updChan (c : Nat) (f : Chan → Chan) (y : Nat) : partOfEngine (updChan c f s) y = partOfEngine s y := rfl
@[simp] theorem partOf_updChan (c : Nat) (f : Chan → Chan) (y : Thr) : partOf (updChan c f s) y = partOf s y := rfl
@[simp] theorem partOfSrc_updChan (c : Nat) (f : Chan → Chan) (y : Src) : partOfSrc (updChan c f s) y = partOfSrc s y := rfl
@[simp] theorem chan_updChan (c : Nat) (f : Chan → Chan) (y : Nat) : chan (updChan c f s) y = if y = c then f (chan s c) else chan s y := by
  simp [updChan, chan]

/-! ## updInst -/
@[simp] theorem updInst_pending (i : Nat) (f : Inst → Inst) : (updInst i f s).pending = s.pending := rfl
@[simp] theorem updInst_time (i : Nat) (f : Inst → Inst) : (updInst i f s).time = s.time := rfl
@[simp] theorem updInst_pw (i : Nat) (f : Inst → Inst) : (updInst i f s).pw = s.pw := rfl
@[simp] theorem updInst_thr (i : Nat) (f : Inst → Inst) : (updInst i f s).thr = s.thr := rfl
@[simp] theorem updInst_core (i : Nat) (f : Inst → Inst) : (updInst i f s).core = s.core := rfl
@[simp] theorem updInst_bay (i : Nat) (f : Inst → Inst) : (updInst i f s).bay = s.bay := rfl
@[simp] theorem updInst_slice (i : Nat) (f : Inst → Inst) : (updInst i f s).slice = s.slice := rfl
@[simp] theorem updInst_srcs (i : Nat) (f : Inst → Inst) : (updInst i f s).srcs = s.srcs := rfl
@[simp] theorem updInst_eng (i : Nat) (f : Inst → Inst) : (updInst i f s).eng = s.eng := rfl
@[simp] theorem updInst_cluster (i : Nat) (f : Inst → Inst) : (updInst i f s).cluster = s.cluster := rfl
@[simp] theorem updInst_part (i : Nat) (f : Inst → Inst) : (updInst i f s).part = s.part := rfl
@[simp] theorem updInst_stale (i : Nat) (f : Inst → Inst) : (updInst i f s).stale = s.stale := rfl
@[simp] theorem updInst_downDrop (i : Nat) (f : Inst → Inst) : (updInst i f s).downDrop = s.downDrop := rfl
@[simp] theorem updInst_stray (i : Nat) (f : Inst → Inst) : (updInst i f s).stray = s.stray := rfl
@[simp] theorem updInst_net (i : Nat) (f : Inst → Inst) : (updInst i f s).net = s.net := rfl
@[simp] theorem updInst_ereqs (i : Nat) (f : Inst → Inst) : (updInst i f s).ereqs = s.ereqs := rfl
@[simp] theorem updInst_mem (i : Nat) (f : Inst → Inst) : (updInst i f s).mem = s.mem := rfl
@[simp] theorem updInst_old (i : Nat) (f : Inst → Inst) : (updInst i f s).old = s.old := rfl
@[simp] theorem updInst_poison (i : Nat) (f : Inst → Inst) : (updInst i f s).poison = s.poison := rfl
@[simp] theorem updInst_queue (i : Nat) (f : Inst → Inst) : (updInst i f s).queue = s.queue := rfl
@[simp] theorem updInst_led (i : Nat) (f : Inst → Inst) : (updInst i f s).led = s.led := rfl
@[simp] theorem updInst_dimms (i : Nat) (f : Inst → Inst) : (updInst i f s).dimms = s.dimms := rfl
@[simp] theorem updInst_chan (i : Nat) (f : Inst → Inst) : (updInst i f s).chan = s.chan := rfl
@[simp] theorem updInst_region (i : Nat) (f : Inst → Inst) : (updInst i f s).region = s.region := rfl
@[simp] theorem updInst_ep (i : Nat) (f : Inst → Inst) : (updInst i f s).ep = s.ep := rfl
@[simp] theorem updInst_inst (i : Nat) (f : Inst → Inst) : (updInst i f s).inst = edit Inst.reset f s.inst i := rfl
@[simp] theorem updInst_ridge (i : Nat) (f : Inst → Inst) : (updInst i f s).ridge = s.ridge := rfl
@[simp] theorem updInst_wr (i : Nat) (f : Inst → Inst) : (updInst i f s).wr = s.wr := rfl
@[simp] theorem updInst_bw (i : Nat) (f : Inst → Inst) : (updInst i f s).bw = s.bw := rfl
@[simp] theorem updInst_xing (i : Nat) (f : Inst → Inst) : (updInst i f s).xing = s.xing := rfl
@[simp] theorem updInst_out (i : Nat) (f : Inst → Inst) : (updInst i f s).out = s.out := rfl
@[simp] theorem updInst_fresh (i : Nat) (f : Inst → Inst) : (updInst i f s).fresh = s.fresh := rfl
@[simp] theorem thr_updInst (i : Nat) (f : Inst → Inst) (y : Thr) : thr (updInst i f s) y = thr s y := rfl
@[simp] theorem core_updInst (i : Nat) (f : Inst → Inst) (y : Nat) : core (updInst i f s) y = core s y := rfl
@[simp] theorem bay_updInst (i : Nat) (f : Inst → Inst) (y : Nat) : bay (updInst i f s) y = bay s y := rfl
@[simp] theorem slice_updInst (i : Nat) (f : Inst → Inst) (y : Nat) : slice (updInst i f s) y = slice s y := rfl
@[simp] theorem srcEnt_updInst (i : Nat) (f : Inst → Inst) (y : Src) : srcEnt (updInst i f s) y = srcEnt s y := rfl
@[simp] theorem engine_updInst (i : Nat) (f : Inst → Inst) (y : Nat) : engine (updInst i f s) y = engine s y := rfl
@[simp] theorem cluster_updInst (i : Nat) (f : Inst → Inst) (y : Nat) : cluster (updInst i f s) y = cluster s y := rfl
@[simp] theorem part_updInst (i : Nat) (f : Inst → Inst) (y : Nat) : part (updInst i f s) y = part s y := rfl
@[simp] theorem queue_updInst (i : Nat) (f : Inst → Inst) (y : Nat) : queue (updInst i f s) y = queue s y := rfl
@[simp] theorem entry_updInst (i : Nat) (f : Inst → Inst) (y : Nat) : entry (updInst i f s) y = entry s y := rfl
@[simp] theorem chan_updInst (i : Nat) (f : Inst → Inst) (y : Nat) : chan (updInst i f s) y = chan s y := rfl
@[simp] theorem region_updInst (i : Nat) (f : Inst → Inst) (y : Nat) : region (updInst i f s) y = region s y := rfl
@[simp] theorem port_updInst (i : Nat) (f : Inst → Inst) (y : Nat) : port (updInst i f s) y = port s y := rfl
@[simp] theorem rail_updInst (i : Nat) (f : Inst → Inst) (y : Nat) : rail (updInst i f s) y = rail s y := rfl
@[simp] theorem die_updInst (i : Nat) (f : Inst → Inst) (y : Nat) : die (updInst i f s) y = die s y := rfl
@[simp] theorem box_updInst (i : Nat) (f : Inst → Inst) (y : Mbox) : box (updInst i f s) y = box s y := rfl
@[simp] theorem crossingOf_updInst (i : Nat) (f : Inst → Inst) (y : Clk) : crossingOf (updInst i f s) y = crossingOf s y := rfl
@[simp] theorem readByte_updInst (i : Nat) (f : Inst → Inst) (y : Nat) : readByte (updInst i f s) y = readByte s y := rfl
@[simp] theorem isPoisoned_updInst (i : Nat) (f : Inst → Inst) (y : BitVec 42) : isPoisoned (updInst i f s) y = isPoisoned s y := rfl
@[simp] theorem isDirty_updInst (i : Nat) (f : Inst → Inst) (y : BitVec 42) : isDirty (updInst i f s) y = isDirty s y := rfl
@[simp] theorem lineData_updInst (i : Nat) (f : Inst → Inst) (y : BitVec 42) : lineData (updInst i f s) y = lineData s y := rfl
@[simp] theorem partOfBay_updInst (i : Nat) (f : Inst → Inst) (y : Nat) : partOfBay (updInst i f s) y = partOfBay s y := rfl
@[simp] theorem partOfEngine_updInst (i : Nat) (f : Inst → Inst) (y : Nat) : partOfEngine (updInst i f s) y = partOfEngine s y := rfl
@[simp] theorem partOf_updInst (i : Nat) (f : Inst → Inst) (y : Thr) : partOf (updInst i f s) y = partOf s y := rfl
@[simp] theorem partOfSrc_updInst (i : Nat) (f : Inst → Inst) (y : Src) : partOfSrc (updInst i f s) y = partOfSrc s y := rfl
@[simp] theorem inst_updInst (i : Nat) (f : Inst → Inst) (y : Nat) : inst (updInst i f s) y = if y = i then f (inst s i) else inst s y := by
  simp [updInst, inst]

/-! ## updPort -/
@[simp] theorem updPort_pending (x : Nat) (f : PortSt → PortSt) : (updPort x f s).pending = s.pending := rfl
@[simp] theorem updPort_time (x : Nat) (f : PortSt → PortSt) : (updPort x f s).time = s.time := rfl
@[simp] theorem updPort_pw (x : Nat) (f : PortSt → PortSt) : (updPort x f s).pw = s.pw := rfl
@[simp] theorem updPort_thr (x : Nat) (f : PortSt → PortSt) : (updPort x f s).thr = s.thr := rfl
@[simp] theorem updPort_core (x : Nat) (f : PortSt → PortSt) : (updPort x f s).core = s.core := rfl
@[simp] theorem updPort_bay (x : Nat) (f : PortSt → PortSt) : (updPort x f s).bay = s.bay := rfl
@[simp] theorem updPort_slice (x : Nat) (f : PortSt → PortSt) : (updPort x f s).slice = s.slice := rfl
@[simp] theorem updPort_srcs (x : Nat) (f : PortSt → PortSt) : (updPort x f s).srcs = s.srcs := rfl
@[simp] theorem updPort_eng (x : Nat) (f : PortSt → PortSt) : (updPort x f s).eng = s.eng := rfl
@[simp] theorem updPort_cluster (x : Nat) (f : PortSt → PortSt) : (updPort x f s).cluster = s.cluster := rfl
@[simp] theorem updPort_part (x : Nat) (f : PortSt → PortSt) : (updPort x f s).part = s.part := rfl
@[simp] theorem updPort_stale (x : Nat) (f : PortSt → PortSt) : (updPort x f s).stale = s.stale := rfl
@[simp] theorem updPort_downDrop (x : Nat) (f : PortSt → PortSt) : (updPort x f s).downDrop = s.downDrop := rfl
@[simp] theorem updPort_stray (x : Nat) (f : PortSt → PortSt) : (updPort x f s).stray = s.stray := rfl
@[simp] theorem updPort_net (x : Nat) (f : PortSt → PortSt) : (updPort x f s).net = s.net := rfl
@[simp] theorem updPort_ereqs (x : Nat) (f : PortSt → PortSt) : (updPort x f s).ereqs = s.ereqs := rfl
@[simp] theorem updPort_mem (x : Nat) (f : PortSt → PortSt) : (updPort x f s).mem = s.mem := rfl
@[simp] theorem updPort_old (x : Nat) (f : PortSt → PortSt) : (updPort x f s).old = s.old := rfl
@[simp] theorem updPort_poison (x : Nat) (f : PortSt → PortSt) : (updPort x f s).poison = s.poison := rfl
@[simp] theorem updPort_queue (x : Nat) (f : PortSt → PortSt) : (updPort x f s).queue = s.queue := rfl
@[simp] theorem updPort_led (x : Nat) (f : PortSt → PortSt) : (updPort x f s).led = s.led := rfl
@[simp] theorem updPort_dimms (x : Nat) (f : PortSt → PortSt) : (updPort x f s).dimms = s.dimms := rfl
@[simp] theorem updPort_chan (x : Nat) (f : PortSt → PortSt) : (updPort x f s).chan = s.chan := rfl
@[simp] theorem updPort_region (x : Nat) (f : PortSt → PortSt) : (updPort x f s).region = s.region := rfl
@[simp] theorem updPort_ep (x : Nat) (f : PortSt → PortSt) : (updPort x f s).ep = s.ep := rfl
@[simp] theorem updPort_inst (x : Nat) (f : PortSt → PortSt) : (updPort x f s).inst = s.inst := rfl
@[simp] theorem updPort_ridge (x : Nat) (f : PortSt → PortSt) : (updPort x f s).ridge = { s.ridge with ports := edit PortSt.reset f s.ridge.ports x } := rfl
@[simp] theorem updPort_wr (x : Nat) (f : PortSt → PortSt) : (updPort x f s).wr = s.wr := rfl
@[simp] theorem updPort_bw (x : Nat) (f : PortSt → PortSt) : (updPort x f s).bw = s.bw := rfl
@[simp] theorem updPort_xing (x : Nat) (f : PortSt → PortSt) : (updPort x f s).xing = s.xing := rfl
@[simp] theorem updPort_out (x : Nat) (f : PortSt → PortSt) : (updPort x f s).out = s.out := rfl
@[simp] theorem updPort_fresh (x : Nat) (f : PortSt → PortSt) : (updPort x f s).fresh = s.fresh := rfl
@[simp] theorem thr_updPort (x : Nat) (f : PortSt → PortSt) (y : Thr) : thr (updPort x f s) y = thr s y := rfl
@[simp] theorem core_updPort (x : Nat) (f : PortSt → PortSt) (y : Nat) : core (updPort x f s) y = core s y := rfl
@[simp] theorem bay_updPort (x : Nat) (f : PortSt → PortSt) (y : Nat) : bay (updPort x f s) y = bay s y := rfl
@[simp] theorem slice_updPort (x : Nat) (f : PortSt → PortSt) (y : Nat) : slice (updPort x f s) y = slice s y := rfl
@[simp] theorem srcEnt_updPort (x : Nat) (f : PortSt → PortSt) (y : Src) : srcEnt (updPort x f s) y = srcEnt s y := rfl
@[simp] theorem engine_updPort (x : Nat) (f : PortSt → PortSt) (y : Nat) : engine (updPort x f s) y = engine s y := rfl
@[simp] theorem cluster_updPort (x : Nat) (f : PortSt → PortSt) (y : Nat) : cluster (updPort x f s) y = cluster s y := rfl
@[simp] theorem part_updPort (x : Nat) (f : PortSt → PortSt) (y : Nat) : part (updPort x f s) y = part s y := rfl
@[simp] theorem queue_updPort (x : Nat) (f : PortSt → PortSt) (y : Nat) : queue (updPort x f s) y = queue s y := rfl
@[simp] theorem entry_updPort (x : Nat) (f : PortSt → PortSt) (y : Nat) : entry (updPort x f s) y = entry s y := rfl
@[simp] theorem chan_updPort (x : Nat) (f : PortSt → PortSt) (y : Nat) : chan (updPort x f s) y = chan s y := rfl
@[simp] theorem region_updPort (x : Nat) (f : PortSt → PortSt) (y : Nat) : region (updPort x f s) y = region s y := rfl
@[simp] theorem inst_updPort (x : Nat) (f : PortSt → PortSt) (y : Nat) : inst (updPort x f s) y = inst s y := rfl
@[simp] theorem rail_updPort (x : Nat) (f : PortSt → PortSt) (y : Nat) : rail (updPort x f s) y = rail s y := rfl
@[simp] theorem die_updPort (x : Nat) (f : PortSt → PortSt) (y : Nat) : die (updPort x f s) y = die s y := rfl
@[simp] theorem box_updPort (x : Nat) (f : PortSt → PortSt) (y : Mbox) : box (updPort x f s) y = box s y := rfl
@[simp] theorem crossingOf_updPort (x : Nat) (f : PortSt → PortSt) (y : Clk) : crossingOf (updPort x f s) y = crossingOf s y := rfl
@[simp] theorem readByte_updPort (x : Nat) (f : PortSt → PortSt) (y : Nat) : readByte (updPort x f s) y = readByte s y := rfl
@[simp] theorem isPoisoned_updPort (x : Nat) (f : PortSt → PortSt) (y : BitVec 42) : isPoisoned (updPort x f s) y = isPoisoned s y := rfl
@[simp] theorem isDirty_updPort (x : Nat) (f : PortSt → PortSt) (y : BitVec 42) : isDirty (updPort x f s) y = isDirty s y := rfl
@[simp] theorem lineData_updPort (x : Nat) (f : PortSt → PortSt) (y : BitVec 42) : lineData (updPort x f s) y = lineData s y := rfl
@[simp] theorem partOfBay_updPort (x : Nat) (f : PortSt → PortSt) (y : Nat) : partOfBay (updPort x f s) y = partOfBay s y := rfl
@[simp] theorem partOfEngine_updPort (x : Nat) (f : PortSt → PortSt) (y : Nat) : partOfEngine (updPort x f s) y = partOfEngine s y := rfl
@[simp] theorem partOf_updPort (x : Nat) (f : PortSt → PortSt) (y : Thr) : partOf (updPort x f s) y = partOf s y := rfl
@[simp] theorem partOfSrc_updPort (x : Nat) (f : PortSt → PortSt) (y : Src) : partOfSrc (updPort x f s) y = partOfSrc s y := rfl
@[simp] theorem port_updPort (x : Nat) (f : PortSt → PortSt) (y : Nat) : port (updPort x f s) y = if y = x then f (port s x) else port s y := by
  simp [updPort, port]

/-! ## updRail -/
@[simp] theorem updRail_pending (r : Nat) (f : RailSt → RailSt) : (updRail r f s).pending = s.pending := rfl
@[simp] theorem updRail_time (r : Nat) (f : RailSt → RailSt) : (updRail r f s).time = s.time := rfl
@[simp] theorem updRail_pw (r : Nat) (f : RailSt → RailSt) : (updRail r f s).pw = { s.pw with rails := edit RailSt.reset f s.pw.rails r } := rfl
@[simp] theorem updRail_thr (r : Nat) (f : RailSt → RailSt) : (updRail r f s).thr = s.thr := rfl
@[simp] theorem updRail_core (r : Nat) (f : RailSt → RailSt) : (updRail r f s).core = s.core := rfl
@[simp] theorem updRail_bay (r : Nat) (f : RailSt → RailSt) : (updRail r f s).bay = s.bay := rfl
@[simp] theorem updRail_slice (r : Nat) (f : RailSt → RailSt) : (updRail r f s).slice = s.slice := rfl
@[simp] theorem updRail_srcs (r : Nat) (f : RailSt → RailSt) : (updRail r f s).srcs = s.srcs := rfl
@[simp] theorem updRail_eng (r : Nat) (f : RailSt → RailSt) : (updRail r f s).eng = s.eng := rfl
@[simp] theorem updRail_cluster (r : Nat) (f : RailSt → RailSt) : (updRail r f s).cluster = s.cluster := rfl
@[simp] theorem updRail_part (r : Nat) (f : RailSt → RailSt) : (updRail r f s).part = s.part := rfl
@[simp] theorem updRail_stale (r : Nat) (f : RailSt → RailSt) : (updRail r f s).stale = s.stale := rfl
@[simp] theorem updRail_downDrop (r : Nat) (f : RailSt → RailSt) : (updRail r f s).downDrop = s.downDrop := rfl
@[simp] theorem updRail_stray (r : Nat) (f : RailSt → RailSt) : (updRail r f s).stray = s.stray := rfl
@[simp] theorem updRail_net (r : Nat) (f : RailSt → RailSt) : (updRail r f s).net = s.net := rfl
@[simp] theorem updRail_ereqs (r : Nat) (f : RailSt → RailSt) : (updRail r f s).ereqs = s.ereqs := rfl
@[simp] theorem updRail_mem (r : Nat) (f : RailSt → RailSt) : (updRail r f s).mem = s.mem := rfl
@[simp] theorem updRail_old (r : Nat) (f : RailSt → RailSt) : (updRail r f s).old = s.old := rfl
@[simp] theorem updRail_poison (r : Nat) (f : RailSt → RailSt) : (updRail r f s).poison = s.poison := rfl
@[simp] theorem updRail_queue (r : Nat) (f : RailSt → RailSt) : (updRail r f s).queue = s.queue := rfl
@[simp] theorem updRail_led (r : Nat) (f : RailSt → RailSt) : (updRail r f s).led = s.led := rfl
@[simp] theorem updRail_dimms (r : Nat) (f : RailSt → RailSt) : (updRail r f s).dimms = s.dimms := rfl
@[simp] theorem updRail_chan (r : Nat) (f : RailSt → RailSt) : (updRail r f s).chan = s.chan := rfl
@[simp] theorem updRail_region (r : Nat) (f : RailSt → RailSt) : (updRail r f s).region = s.region := rfl
@[simp] theorem updRail_ep (r : Nat) (f : RailSt → RailSt) : (updRail r f s).ep = s.ep := rfl
@[simp] theorem updRail_inst (r : Nat) (f : RailSt → RailSt) : (updRail r f s).inst = s.inst := rfl
@[simp] theorem updRail_ridge (r : Nat) (f : RailSt → RailSt) : (updRail r f s).ridge = s.ridge := rfl
@[simp] theorem updRail_wr (r : Nat) (f : RailSt → RailSt) : (updRail r f s).wr = s.wr := rfl
@[simp] theorem updRail_bw (r : Nat) (f : RailSt → RailSt) : (updRail r f s).bw = s.bw := rfl
@[simp] theorem updRail_xing (r : Nat) (f : RailSt → RailSt) : (updRail r f s).xing = s.xing := rfl
@[simp] theorem updRail_out (r : Nat) (f : RailSt → RailSt) : (updRail r f s).out = s.out := rfl
@[simp] theorem updRail_fresh (r : Nat) (f : RailSt → RailSt) : (updRail r f s).fresh = s.fresh := rfl
@[simp] theorem thr_updRail (r : Nat) (f : RailSt → RailSt) (y : Thr) : thr (updRail r f s) y = thr s y := rfl
@[simp] theorem core_updRail (r : Nat) (f : RailSt → RailSt) (y : Nat) : core (updRail r f s) y = core s y := rfl
@[simp] theorem bay_updRail (r : Nat) (f : RailSt → RailSt) (y : Nat) : bay (updRail r f s) y = bay s y := rfl
@[simp] theorem slice_updRail (r : Nat) (f : RailSt → RailSt) (y : Nat) : slice (updRail r f s) y = slice s y := rfl
@[simp] theorem srcEnt_updRail (r : Nat) (f : RailSt → RailSt) (y : Src) : srcEnt (updRail r f s) y = srcEnt s y := rfl
@[simp] theorem engine_updRail (r : Nat) (f : RailSt → RailSt) (y : Nat) : engine (updRail r f s) y = engine s y := rfl
@[simp] theorem cluster_updRail (r : Nat) (f : RailSt → RailSt) (y : Nat) : cluster (updRail r f s) y = cluster s y := rfl
@[simp] theorem part_updRail (r : Nat) (f : RailSt → RailSt) (y : Nat) : part (updRail r f s) y = part s y := rfl
@[simp] theorem queue_updRail (r : Nat) (f : RailSt → RailSt) (y : Nat) : queue (updRail r f s) y = queue s y := rfl
@[simp] theorem entry_updRail (r : Nat) (f : RailSt → RailSt) (y : Nat) : entry (updRail r f s) y = entry s y := rfl
@[simp] theorem chan_updRail (r : Nat) (f : RailSt → RailSt) (y : Nat) : chan (updRail r f s) y = chan s y := rfl
@[simp] theorem region_updRail (r : Nat) (f : RailSt → RailSt) (y : Nat) : region (updRail r f s) y = region s y := rfl
@[simp] theorem inst_updRail (r : Nat) (f : RailSt → RailSt) (y : Nat) : inst (updRail r f s) y = inst s y := rfl
@[simp] theorem port_updRail (r : Nat) (f : RailSt → RailSt) (y : Nat) : port (updRail r f s) y = port s y := rfl
@[simp] theorem die_updRail (r : Nat) (f : RailSt → RailSt) (y : Nat) : die (updRail r f s) y = die s y := rfl
@[simp] theorem box_updRail (r : Nat) (f : RailSt → RailSt) (y : Mbox) : box (updRail r f s) y = box s y := rfl
@[simp] theorem crossingOf_updRail (r : Nat) (f : RailSt → RailSt) (y : Clk) : crossingOf (updRail r f s) y = crossingOf s y := rfl
@[simp] theorem readByte_updRail (r : Nat) (f : RailSt → RailSt) (y : Nat) : readByte (updRail r f s) y = readByte s y := rfl
@[simp] theorem isPoisoned_updRail (r : Nat) (f : RailSt → RailSt) (y : BitVec 42) : isPoisoned (updRail r f s) y = isPoisoned s y := rfl
@[simp] theorem isDirty_updRail (r : Nat) (f : RailSt → RailSt) (y : BitVec 42) : isDirty (updRail r f s) y = isDirty s y := rfl
@[simp] theorem lineData_updRail (r : Nat) (f : RailSt → RailSt) (y : BitVec 42) : lineData (updRail r f s) y = lineData s y := rfl
@[simp] theorem partOfBay_updRail (r : Nat) (f : RailSt → RailSt) (y : Nat) : partOfBay (updRail r f s) y = partOfBay s y := rfl
@[simp] theorem partOfEngine_updRail (r : Nat) (f : RailSt → RailSt) (y : Nat) : partOfEngine (updRail r f s) y = partOfEngine s y := rfl
@[simp] theorem partOf_updRail (r : Nat) (f : RailSt → RailSt) (y : Thr) : partOf (updRail r f s) y = partOf s y := rfl
@[simp] theorem partOfSrc_updRail (r : Nat) (f : RailSt → RailSt) (y : Src) : partOfSrc (updRail r f s) y = partOfSrc s y := rfl
@[simp] theorem rail_updRail (r : Nat) (f : RailSt → RailSt) (y : Nat) : rail (updRail r f s) y = if y = r then f (rail s r) else rail s y := by
  simp [updRail, rail]

/-! ## updDie -/
@[simp] theorem updDie_pending (d : Nat) (f : Die → Die) : (updDie d f s).pending = s.pending := rfl
@[simp] theorem updDie_time (d : Nat) (f : Die → Die) : (updDie d f s).time = s.time := rfl
@[simp] theorem updDie_pw (d : Nat) (f : Die → Die) : (updDie d f s).pw = { s.pw with dies := edit Die.reset f s.pw.dies d } := rfl
@[simp] theorem updDie_thr (d : Nat) (f : Die → Die) : (updDie d f s).thr = s.thr := rfl
@[simp] theorem updDie_core (d : Nat) (f : Die → Die) : (updDie d f s).core = s.core := rfl
@[simp] theorem updDie_bay (d : Nat) (f : Die → Die) : (updDie d f s).bay = s.bay := rfl
@[simp] theorem updDie_slice (d : Nat) (f : Die → Die) : (updDie d f s).slice = s.slice := rfl
@[simp] theorem updDie_srcs (d : Nat) (f : Die → Die) : (updDie d f s).srcs = s.srcs := rfl
@[simp] theorem updDie_eng (d : Nat) (f : Die → Die) : (updDie d f s).eng = s.eng := rfl
@[simp] theorem updDie_cluster (d : Nat) (f : Die → Die) : (updDie d f s).cluster = s.cluster := rfl
@[simp] theorem updDie_part (d : Nat) (f : Die → Die) : (updDie d f s).part = s.part := rfl
@[simp] theorem updDie_stale (d : Nat) (f : Die → Die) : (updDie d f s).stale = s.stale := rfl
@[simp] theorem updDie_downDrop (d : Nat) (f : Die → Die) : (updDie d f s).downDrop = s.downDrop := rfl
@[simp] theorem updDie_stray (d : Nat) (f : Die → Die) : (updDie d f s).stray = s.stray := rfl
@[simp] theorem updDie_net (d : Nat) (f : Die → Die) : (updDie d f s).net = s.net := rfl
@[simp] theorem updDie_ereqs (d : Nat) (f : Die → Die) : (updDie d f s).ereqs = s.ereqs := rfl
@[simp] theorem updDie_mem (d : Nat) (f : Die → Die) : (updDie d f s).mem = s.mem := rfl
@[simp] theorem updDie_old (d : Nat) (f : Die → Die) : (updDie d f s).old = s.old := rfl
@[simp] theorem updDie_poison (d : Nat) (f : Die → Die) : (updDie d f s).poison = s.poison := rfl
@[simp] theorem updDie_queue (d : Nat) (f : Die → Die) : (updDie d f s).queue = s.queue := rfl
@[simp] theorem updDie_led (d : Nat) (f : Die → Die) : (updDie d f s).led = s.led := rfl
@[simp] theorem updDie_dimms (d : Nat) (f : Die → Die) : (updDie d f s).dimms = s.dimms := rfl
@[simp] theorem updDie_chan (d : Nat) (f : Die → Die) : (updDie d f s).chan = s.chan := rfl
@[simp] theorem updDie_region (d : Nat) (f : Die → Die) : (updDie d f s).region = s.region := rfl
@[simp] theorem updDie_ep (d : Nat) (f : Die → Die) : (updDie d f s).ep = s.ep := rfl
@[simp] theorem updDie_inst (d : Nat) (f : Die → Die) : (updDie d f s).inst = s.inst := rfl
@[simp] theorem updDie_ridge (d : Nat) (f : Die → Die) : (updDie d f s).ridge = s.ridge := rfl
@[simp] theorem updDie_wr (d : Nat) (f : Die → Die) : (updDie d f s).wr = s.wr := rfl
@[simp] theorem updDie_bw (d : Nat) (f : Die → Die) : (updDie d f s).bw = s.bw := rfl
@[simp] theorem updDie_xing (d : Nat) (f : Die → Die) : (updDie d f s).xing = s.xing := rfl
@[simp] theorem updDie_out (d : Nat) (f : Die → Die) : (updDie d f s).out = s.out := rfl
@[simp] theorem updDie_fresh (d : Nat) (f : Die → Die) : (updDie d f s).fresh = s.fresh := rfl
@[simp] theorem thr_updDie (d : Nat) (f : Die → Die) (y : Thr) : thr (updDie d f s) y = thr s y := rfl
@[simp] theorem core_updDie (d : Nat) (f : Die → Die) (y : Nat) : core (updDie d f s) y = core s y := rfl
@[simp] theorem bay_updDie (d : Nat) (f : Die → Die) (y : Nat) : bay (updDie d f s) y = bay s y := rfl
@[simp] theorem slice_updDie (d : Nat) (f : Die → Die) (y : Nat) : slice (updDie d f s) y = slice s y := rfl
@[simp] theorem srcEnt_updDie (d : Nat) (f : Die → Die) (y : Src) : srcEnt (updDie d f s) y = srcEnt s y := rfl
@[simp] theorem engine_updDie (d : Nat) (f : Die → Die) (y : Nat) : engine (updDie d f s) y = engine s y := rfl
@[simp] theorem cluster_updDie (d : Nat) (f : Die → Die) (y : Nat) : cluster (updDie d f s) y = cluster s y := rfl
@[simp] theorem part_updDie (d : Nat) (f : Die → Die) (y : Nat) : part (updDie d f s) y = part s y := rfl
@[simp] theorem queue_updDie (d : Nat) (f : Die → Die) (y : Nat) : queue (updDie d f s) y = queue s y := rfl
@[simp] theorem entry_updDie (d : Nat) (f : Die → Die) (y : Nat) : entry (updDie d f s) y = entry s y := rfl
@[simp] theorem chan_updDie (d : Nat) (f : Die → Die) (y : Nat) : chan (updDie d f s) y = chan s y := rfl
@[simp] theorem region_updDie (d : Nat) (f : Die → Die) (y : Nat) : region (updDie d f s) y = region s y := rfl
@[simp] theorem inst_updDie (d : Nat) (f : Die → Die) (y : Nat) : inst (updDie d f s) y = inst s y := rfl
@[simp] theorem port_updDie (d : Nat) (f : Die → Die) (y : Nat) : port (updDie d f s) y = port s y := rfl
@[simp] theorem rail_updDie (d : Nat) (f : Die → Die) (y : Nat) : rail (updDie d f s) y = rail s y := rfl
@[simp] theorem box_updDie (d : Nat) (f : Die → Die) (y : Mbox) : box (updDie d f s) y = box s y := rfl
@[simp] theorem crossingOf_updDie (d : Nat) (f : Die → Die) (y : Clk) : crossingOf (updDie d f s) y = crossingOf s y := rfl
@[simp] theorem readByte_updDie (d : Nat) (f : Die → Die) (y : Nat) : readByte (updDie d f s) y = readByte s y := rfl
@[simp] theorem isPoisoned_updDie (d : Nat) (f : Die → Die) (y : BitVec 42) : isPoisoned (updDie d f s) y = isPoisoned s y := rfl
@[simp] theorem isDirty_updDie (d : Nat) (f : Die → Die) (y : BitVec 42) : isDirty (updDie d f s) y = isDirty s y := rfl
@[simp] theorem lineData_updDie (d : Nat) (f : Die → Die) (y : BitVec 42) : lineData (updDie d f s) y = lineData s y := rfl
@[simp] theorem partOfBay_updDie (d : Nat) (f : Die → Die) (y : Nat) : partOfBay (updDie d f s) y = partOfBay s y := rfl
@[simp] theorem partOfEngine_updDie (d : Nat) (f : Die → Die) (y : Nat) : partOfEngine (updDie d f s) y = partOfEngine s y := rfl
@[simp] theorem partOf_updDie (d : Nat) (f : Die → Die) (y : Thr) : partOf (updDie d f s) y = partOf s y := rfl
@[simp] theorem partOfSrc_updDie (d : Nat) (f : Die → Die) (y : Src) : partOfSrc (updDie d f s) y = partOfSrc s y := rfl
@[simp] theorem die_updDie (d : Nat) (f : Die → Die) (y : Nat) : die (updDie d f s) y = if y = d then f (die s d) else die s y := by
  simp [updDie, die]

/-! ## updBox -/
@[simp] theorem updBox_pending (m : Mbox) (f : MboxSt → MboxSt) : (updBox m f s).pending = s.pending := rfl
@[simp] theorem updBox_time (m : Mbox) (f : MboxSt → MboxSt) : (updBox m f s).time = s.time := rfl
@[simp] theorem updBox_pw (m : Mbox) (f : MboxSt → MboxSt) : (updBox m f s).pw = s.pw := rfl
@[simp] theorem updBox_thr (m : Mbox) (f : MboxSt → MboxSt) : (updBox m f s).thr = s.thr := rfl
@[simp] theorem updBox_core (m : Mbox) (f : MboxSt → MboxSt) : (updBox m f s).core = s.core := rfl
@[simp] theorem updBox_bay (m : Mbox) (f : MboxSt → MboxSt) : (updBox m f s).bay = s.bay := rfl
@[simp] theorem updBox_slice (m : Mbox) (f : MboxSt → MboxSt) : (updBox m f s).slice = s.slice := rfl
@[simp] theorem updBox_srcs (m : Mbox) (f : MboxSt → MboxSt) : (updBox m f s).srcs = s.srcs := rfl
@[simp] theorem updBox_eng (m : Mbox) (f : MboxSt → MboxSt) : (updBox m f s).eng = s.eng := rfl
@[simp] theorem updBox_cluster (m : Mbox) (f : MboxSt → MboxSt) : (updBox m f s).cluster = s.cluster := rfl
@[simp] theorem updBox_part (m : Mbox) (f : MboxSt → MboxSt) : (updBox m f s).part = s.part := rfl
@[simp] theorem updBox_stale (m : Mbox) (f : MboxSt → MboxSt) : (updBox m f s).stale = s.stale := rfl
@[simp] theorem updBox_downDrop (m : Mbox) (f : MboxSt → MboxSt) : (updBox m f s).downDrop = s.downDrop := rfl
@[simp] theorem updBox_stray (m : Mbox) (f : MboxSt → MboxSt) : (updBox m f s).stray = s.stray := rfl
@[simp] theorem updBox_net (m : Mbox) (f : MboxSt → MboxSt) : (updBox m f s).net = s.net := rfl
@[simp] theorem updBox_ereqs (m : Mbox) (f : MboxSt → MboxSt) : (updBox m f s).ereqs = s.ereqs := rfl
@[simp] theorem updBox_mem (m : Mbox) (f : MboxSt → MboxSt) : (updBox m f s).mem = s.mem := rfl
@[simp] theorem updBox_old (m : Mbox) (f : MboxSt → MboxSt) : (updBox m f s).old = s.old := rfl
@[simp] theorem updBox_poison (m : Mbox) (f : MboxSt → MboxSt) : (updBox m f s).poison = s.poison := rfl
@[simp] theorem updBox_queue (m : Mbox) (f : MboxSt → MboxSt) : (updBox m f s).queue = s.queue := rfl
@[simp] theorem updBox_led (m : Mbox) (f : MboxSt → MboxSt) : (updBox m f s).led = s.led := rfl
@[simp] theorem updBox_dimms (m : Mbox) (f : MboxSt → MboxSt) : (updBox m f s).dimms = s.dimms := rfl
@[simp] theorem updBox_chan (m : Mbox) (f : MboxSt → MboxSt) : (updBox m f s).chan = s.chan := rfl
@[simp] theorem updBox_region (m : Mbox) (f : MboxSt → MboxSt) : (updBox m f s).region = s.region := rfl
@[simp] theorem updBox_ep (m : Mbox) (f : MboxSt → MboxSt) : (updBox m f s).ep = s.ep := rfl
@[simp] theorem updBox_inst (m : Mbox) (f : MboxSt → MboxSt) : (updBox m f s).inst = s.inst := rfl
@[simp] theorem updBox_ridge (m : Mbox) (f : MboxSt → MboxSt) : (updBox m f s).ridge = s.ridge := rfl
@[simp] theorem updBox_wr (m : Mbox) (f : MboxSt → MboxSt) : (updBox m f s).wr = { s.wr with boxes := edit MboxSt.reset f s.wr.boxes (boxKey m) } := rfl
@[simp] theorem updBox_bw (m : Mbox) (f : MboxSt → MboxSt) : (updBox m f s).bw = s.bw := rfl
@[simp] theorem updBox_xing (m : Mbox) (f : MboxSt → MboxSt) : (updBox m f s).xing = s.xing := rfl
@[simp] theorem updBox_out (m : Mbox) (f : MboxSt → MboxSt) : (updBox m f s).out = s.out := rfl
@[simp] theorem updBox_fresh (m : Mbox) (f : MboxSt → MboxSt) : (updBox m f s).fresh = s.fresh := rfl
@[simp] theorem thr_updBox (m : Mbox) (f : MboxSt → MboxSt) (y : Thr) : thr (updBox m f s) y = thr s y := rfl
@[simp] theorem core_updBox (m : Mbox) (f : MboxSt → MboxSt) (y : Nat) : core (updBox m f s) y = core s y := rfl
@[simp] theorem bay_updBox (m : Mbox) (f : MboxSt → MboxSt) (y : Nat) : bay (updBox m f s) y = bay s y := rfl
@[simp] theorem slice_updBox (m : Mbox) (f : MboxSt → MboxSt) (y : Nat) : slice (updBox m f s) y = slice s y := rfl
@[simp] theorem srcEnt_updBox (m : Mbox) (f : MboxSt → MboxSt) (y : Src) : srcEnt (updBox m f s) y = srcEnt s y := rfl
@[simp] theorem engine_updBox (m : Mbox) (f : MboxSt → MboxSt) (y : Nat) : engine (updBox m f s) y = engine s y := rfl
@[simp] theorem cluster_updBox (m : Mbox) (f : MboxSt → MboxSt) (y : Nat) : cluster (updBox m f s) y = cluster s y := rfl
@[simp] theorem part_updBox (m : Mbox) (f : MboxSt → MboxSt) (y : Nat) : part (updBox m f s) y = part s y := rfl
@[simp] theorem queue_updBox (m : Mbox) (f : MboxSt → MboxSt) (y : Nat) : queue (updBox m f s) y = queue s y := rfl
@[simp] theorem entry_updBox (m : Mbox) (f : MboxSt → MboxSt) (y : Nat) : entry (updBox m f s) y = entry s y := rfl
@[simp] theorem chan_updBox (m : Mbox) (f : MboxSt → MboxSt) (y : Nat) : chan (updBox m f s) y = chan s y := rfl
@[simp] theorem region_updBox (m : Mbox) (f : MboxSt → MboxSt) (y : Nat) : region (updBox m f s) y = region s y := rfl
@[simp] theorem inst_updBox (m : Mbox) (f : MboxSt → MboxSt) (y : Nat) : inst (updBox m f s) y = inst s y := rfl
@[simp] theorem port_updBox (m : Mbox) (f : MboxSt → MboxSt) (y : Nat) : port (updBox m f s) y = port s y := rfl
@[simp] theorem rail_updBox (m : Mbox) (f : MboxSt → MboxSt) (y : Nat) : rail (updBox m f s) y = rail s y := rfl
@[simp] theorem die_updBox (m : Mbox) (f : MboxSt → MboxSt) (y : Nat) : die (updBox m f s) y = die s y := rfl
@[simp] theorem crossingOf_updBox (m : Mbox) (f : MboxSt → MboxSt) (y : Clk) : crossingOf (updBox m f s) y = crossingOf s y := rfl
@[simp] theorem readByte_updBox (m : Mbox) (f : MboxSt → MboxSt) (y : Nat) : readByte (updBox m f s) y = readByte s y := rfl
@[simp] theorem isPoisoned_updBox (m : Mbox) (f : MboxSt → MboxSt) (y : BitVec 42) : isPoisoned (updBox m f s) y = isPoisoned s y := rfl
@[simp] theorem isDirty_updBox (m : Mbox) (f : MboxSt → MboxSt) (y : BitVec 42) : isDirty (updBox m f s) y = isDirty s y := rfl
@[simp] theorem lineData_updBox (m : Mbox) (f : MboxSt → MboxSt) (y : BitVec 42) : lineData (updBox m f s) y = lineData s y := rfl
@[simp] theorem partOfBay_updBox (m : Mbox) (f : MboxSt → MboxSt) (y : Nat) : partOfBay (updBox m f s) y = partOfBay s y := rfl
@[simp] theorem partOfEngine_updBox (m : Mbox) (f : MboxSt → MboxSt) (y : Nat) : partOfEngine (updBox m f s) y = partOfEngine s y := rfl
@[simp] theorem partOf_updBox (m : Mbox) (f : MboxSt → MboxSt) (y : Thr) : partOf (updBox m f s) y = partOf s y := rfl
@[simp] theorem partOfSrc_updBox (m : Mbox) (f : MboxSt → MboxSt) (y : Src) : partOfSrc (updBox m f s) y = partOfSrc s y := rfl
@[simp] theorem box_updBox (m : Mbox) (f : MboxSt → MboxSt) (y : Mbox) : box (updBox m f s) y = if y = m then f (box s m) else box s y := by
  by_cases h : y = m
  · subst h; simp [updBox, box]
  · have h2 : boxKey y ≠ boxKey m := fun e => h (boxKey_inj e)
    simp [updBox, box, h, h2]

/-! ## updCrossing -/
@[simp] theorem updCrossing_pending (b : Clk) (f : Crossing → Crossing) : (updCrossing b f s).pending = s.pending := rfl
@[simp] theorem updCrossing_time (b : Clk) (f : Crossing → Crossing) : (updCrossing b f s).time = s.time := rfl
@[simp] theorem updCrossing_pw (b : Clk) (f : Crossing → Crossing) : (updCrossing b f s).pw = s.pw := rfl
@[simp] theorem updCrossing_thr (b : Clk) (f : Crossing → Crossing) : (updCrossing b f s).thr = s.thr := rfl
@[simp] theorem updCrossing_core (b : Clk) (f : Crossing → Crossing) : (updCrossing b f s).core = s.core := rfl
@[simp] theorem updCrossing_bay (b : Clk) (f : Crossing → Crossing) : (updCrossing b f s).bay = s.bay := rfl
@[simp] theorem updCrossing_slice (b : Clk) (f : Crossing → Crossing) : (updCrossing b f s).slice = s.slice := rfl
@[simp] theorem updCrossing_srcs (b : Clk) (f : Crossing → Crossing) : (updCrossing b f s).srcs = s.srcs := rfl
@[simp] theorem updCrossing_eng (b : Clk) (f : Crossing → Crossing) : (updCrossing b f s).eng = s.eng := rfl
@[simp] theorem updCrossing_cluster (b : Clk) (f : Crossing → Crossing) : (updCrossing b f s).cluster = s.cluster := rfl
@[simp] theorem updCrossing_part (b : Clk) (f : Crossing → Crossing) : (updCrossing b f s).part = s.part := rfl
@[simp] theorem updCrossing_stale (b : Clk) (f : Crossing → Crossing) : (updCrossing b f s).stale = s.stale := rfl
@[simp] theorem updCrossing_downDrop (b : Clk) (f : Crossing → Crossing) : (updCrossing b f s).downDrop = s.downDrop := rfl
@[simp] theorem updCrossing_stray (b : Clk) (f : Crossing → Crossing) : (updCrossing b f s).stray = s.stray := rfl
@[simp] theorem updCrossing_net (b : Clk) (f : Crossing → Crossing) : (updCrossing b f s).net = s.net := rfl
@[simp] theorem updCrossing_ereqs (b : Clk) (f : Crossing → Crossing) : (updCrossing b f s).ereqs = s.ereqs := rfl
@[simp] theorem updCrossing_mem (b : Clk) (f : Crossing → Crossing) : (updCrossing b f s).mem = s.mem := rfl
@[simp] theorem updCrossing_old (b : Clk) (f : Crossing → Crossing) : (updCrossing b f s).old = s.old := rfl
@[simp] theorem updCrossing_poison (b : Clk) (f : Crossing → Crossing) : (updCrossing b f s).poison = s.poison := rfl
@[simp] theorem updCrossing_queue (b : Clk) (f : Crossing → Crossing) : (updCrossing b f s).queue = s.queue := rfl
@[simp] theorem updCrossing_led (b : Clk) (f : Crossing → Crossing) : (updCrossing b f s).led = s.led := rfl
@[simp] theorem updCrossing_dimms (b : Clk) (f : Crossing → Crossing) : (updCrossing b f s).dimms = s.dimms := rfl
@[simp] theorem updCrossing_chan (b : Clk) (f : Crossing → Crossing) : (updCrossing b f s).chan = s.chan := rfl
@[simp] theorem updCrossing_region (b : Clk) (f : Crossing → Crossing) : (updCrossing b f s).region = s.region := rfl
@[simp] theorem updCrossing_ep (b : Clk) (f : Crossing → Crossing) : (updCrossing b f s).ep = s.ep := rfl
@[simp] theorem updCrossing_inst (b : Clk) (f : Crossing → Crossing) : (updCrossing b f s).inst = s.inst := rfl
@[simp] theorem updCrossing_ridge (b : Clk) (f : Crossing → Crossing) : (updCrossing b f s).ridge = s.ridge := rfl
@[simp] theorem updCrossing_wr (b : Clk) (f : Crossing → Crossing) : (updCrossing b f s).wr = s.wr := rfl
@[simp] theorem updCrossing_bw (b : Clk) (f : Crossing → Crossing) : (updCrossing b f s).bw = s.bw := rfl
@[simp] theorem updCrossing_xing (b : Clk) (f : Crossing → Crossing) : (updCrossing b f s).xing = edit Crossing.reset f s.xing (clkIx b) := rfl
@[simp] theorem updCrossing_out (b : Clk) (f : Crossing → Crossing) : (updCrossing b f s).out = s.out := rfl
@[simp] theorem updCrossing_fresh (b : Clk) (f : Crossing → Crossing) : (updCrossing b f s).fresh = s.fresh := rfl
@[simp] theorem thr_updCrossing (b : Clk) (f : Crossing → Crossing) (y : Thr) : thr (updCrossing b f s) y = thr s y := rfl
@[simp] theorem core_updCrossing (b : Clk) (f : Crossing → Crossing) (y : Nat) : core (updCrossing b f s) y = core s y := rfl
@[simp] theorem bay_updCrossing (b : Clk) (f : Crossing → Crossing) (y : Nat) : bay (updCrossing b f s) y = bay s y := rfl
@[simp] theorem slice_updCrossing (b : Clk) (f : Crossing → Crossing) (y : Nat) : slice (updCrossing b f s) y = slice s y := rfl
@[simp] theorem srcEnt_updCrossing (b : Clk) (f : Crossing → Crossing) (y : Src) : srcEnt (updCrossing b f s) y = srcEnt s y := rfl
@[simp] theorem engine_updCrossing (b : Clk) (f : Crossing → Crossing) (y : Nat) : engine (updCrossing b f s) y = engine s y := rfl
@[simp] theorem cluster_updCrossing (b : Clk) (f : Crossing → Crossing) (y : Nat) : cluster (updCrossing b f s) y = cluster s y := rfl
@[simp] theorem part_updCrossing (b : Clk) (f : Crossing → Crossing) (y : Nat) : part (updCrossing b f s) y = part s y := rfl
@[simp] theorem queue_updCrossing (b : Clk) (f : Crossing → Crossing) (y : Nat) : queue (updCrossing b f s) y = queue s y := rfl
@[simp] theorem entry_updCrossing (b : Clk) (f : Crossing → Crossing) (y : Nat) : entry (updCrossing b f s) y = entry s y := rfl
@[simp] theorem chan_updCrossing (b : Clk) (f : Crossing → Crossing) (y : Nat) : chan (updCrossing b f s) y = chan s y := rfl
@[simp] theorem region_updCrossing (b : Clk) (f : Crossing → Crossing) (y : Nat) : region (updCrossing b f s) y = region s y := rfl
@[simp] theorem inst_updCrossing (b : Clk) (f : Crossing → Crossing) (y : Nat) : inst (updCrossing b f s) y = inst s y := rfl
@[simp] theorem port_updCrossing (b : Clk) (f : Crossing → Crossing) (y : Nat) : port (updCrossing b f s) y = port s y := rfl
@[simp] theorem rail_updCrossing (b : Clk) (f : Crossing → Crossing) (y : Nat) : rail (updCrossing b f s) y = rail s y := rfl
@[simp] theorem die_updCrossing (b : Clk) (f : Crossing → Crossing) (y : Nat) : die (updCrossing b f s) y = die s y := rfl
@[simp] theorem box_updCrossing (b : Clk) (f : Crossing → Crossing) (y : Mbox) : box (updCrossing b f s) y = box s y := rfl
@[simp] theorem readByte_updCrossing (b : Clk) (f : Crossing → Crossing) (y : Nat) : readByte (updCrossing b f s) y = readByte s y := rfl
@[simp] theorem isPoisoned_updCrossing (b : Clk) (f : Crossing → Crossing) (y : BitVec 42) : isPoisoned (updCrossing b f s) y = isPoisoned s y := rfl
@[simp] theorem isDirty_updCrossing (b : Clk) (f : Crossing → Crossing) (y : BitVec 42) : isDirty (updCrossing b f s) y = isDirty s y := rfl
@[simp] theorem lineData_updCrossing (b : Clk) (f : Crossing → Crossing) (y : BitVec 42) : lineData (updCrossing b f s) y = lineData s y := rfl
@[simp] theorem partOfBay_updCrossing (b : Clk) (f : Crossing → Crossing) (y : Nat) : partOfBay (updCrossing b f s) y = partOfBay s y := rfl
@[simp] theorem partOfEngine_updCrossing (b : Clk) (f : Crossing → Crossing) (y : Nat) : partOfEngine (updCrossing b f s) y = partOfEngine s y := rfl
@[simp] theorem partOf_updCrossing (b : Clk) (f : Crossing → Crossing) (y : Thr) : partOf (updCrossing b f s) y = partOf s y := rfl
@[simp] theorem partOfSrc_updCrossing (b : Clk) (f : Crossing → Crossing) (y : Src) : partOfSrc (updCrossing b f s) y = partOfSrc s y := rfl
@[simp] theorem crossingOf_updCrossing (b : Clk) (f : Crossing → Crossing) (y : Clk) : crossingOf (updCrossing b f s) y = if y = b then f (crossingOf s b) else crossingOf s y := by
  by_cases h : y = b
  · subst h; simp [updCrossing, crossingOf]
  · have h2 : clkIx y ≠ clkIx b := fun e => h (clkIx_inj e)
    simp [updCrossing, crossingOf, h, h2]

/-! ## updPw -/
@[simp] theorem updPw_pending (f : Power → Power) : (updPw f s).pending = s.pending := rfl
@[simp] theorem updPw_time (f : Power → Power) : (updPw f s).time = s.time := rfl
@[simp] theorem updPw_pw (f : Power → Power) : (updPw f s).pw = f s.pw := rfl
@[simp] theorem updPw_thr (f : Power → Power) : (updPw f s).thr = s.thr := rfl
@[simp] theorem updPw_core (f : Power → Power) : (updPw f s).core = s.core := rfl
@[simp] theorem updPw_bay (f : Power → Power) : (updPw f s).bay = s.bay := rfl
@[simp] theorem updPw_slice (f : Power → Power) : (updPw f s).slice = s.slice := rfl
@[simp] theorem updPw_srcs (f : Power → Power) : (updPw f s).srcs = s.srcs := rfl
@[simp] theorem updPw_eng (f : Power → Power) : (updPw f s).eng = s.eng := rfl
@[simp] theorem updPw_cluster (f : Power → Power) : (updPw f s).cluster = s.cluster := rfl
@[simp] theorem updPw_part (f : Power → Power) : (updPw f s).part = s.part := rfl
@[simp] theorem updPw_stale (f : Power → Power) : (updPw f s).stale = s.stale := rfl
@[simp] theorem updPw_downDrop (f : Power → Power) : (updPw f s).downDrop = s.downDrop := rfl
@[simp] theorem updPw_stray (f : Power → Power) : (updPw f s).stray = s.stray := rfl
@[simp] theorem updPw_net (f : Power → Power) : (updPw f s).net = s.net := rfl
@[simp] theorem updPw_ereqs (f : Power → Power) : (updPw f s).ereqs = s.ereqs := rfl
@[simp] theorem updPw_mem (f : Power → Power) : (updPw f s).mem = s.mem := rfl
@[simp] theorem updPw_old (f : Power → Power) : (updPw f s).old = s.old := rfl
@[simp] theorem updPw_poison (f : Power → Power) : (updPw f s).poison = s.poison := rfl
@[simp] theorem updPw_queue (f : Power → Power) : (updPw f s).queue = s.queue := rfl
@[simp] theorem updPw_led (f : Power → Power) : (updPw f s).led = s.led := rfl
@[simp] theorem updPw_dimms (f : Power → Power) : (updPw f s).dimms = s.dimms := rfl
@[simp] theorem updPw_chan (f : Power → Power) : (updPw f s).chan = s.chan := rfl
@[simp] theorem updPw_region (f : Power → Power) : (updPw f s).region = s.region := rfl
@[simp] theorem updPw_ep (f : Power → Power) : (updPw f s).ep = s.ep := rfl
@[simp] theorem updPw_inst (f : Power → Power) : (updPw f s).inst = s.inst := rfl
@[simp] theorem updPw_ridge (f : Power → Power) : (updPw f s).ridge = s.ridge := rfl
@[simp] theorem updPw_wr (f : Power → Power) : (updPw f s).wr = s.wr := rfl
@[simp] theorem updPw_bw (f : Power → Power) : (updPw f s).bw = s.bw := rfl
@[simp] theorem updPw_xing (f : Power → Power) : (updPw f s).xing = s.xing := rfl
@[simp] theorem updPw_out (f : Power → Power) : (updPw f s).out = s.out := rfl
@[simp] theorem updPw_fresh (f : Power → Power) : (updPw f s).fresh = s.fresh := rfl
@[simp] theorem thr_updPw (f : Power → Power) (y : Thr) : thr (updPw f s) y = thr s y := rfl
@[simp] theorem core_updPw (f : Power → Power) (y : Nat) : core (updPw f s) y = core s y := rfl
@[simp] theorem bay_updPw (f : Power → Power) (y : Nat) : bay (updPw f s) y = bay s y := rfl
@[simp] theorem slice_updPw (f : Power → Power) (y : Nat) : slice (updPw f s) y = slice s y := rfl
@[simp] theorem srcEnt_updPw (f : Power → Power) (y : Src) : srcEnt (updPw f s) y = srcEnt s y := rfl
@[simp] theorem engine_updPw (f : Power → Power) (y : Nat) : engine (updPw f s) y = engine s y := rfl
@[simp] theorem cluster_updPw (f : Power → Power) (y : Nat) : cluster (updPw f s) y = cluster s y := rfl
@[simp] theorem part_updPw (f : Power → Power) (y : Nat) : part (updPw f s) y = part s y := rfl
@[simp] theorem queue_updPw (f : Power → Power) (y : Nat) : queue (updPw f s) y = queue s y := rfl
@[simp] theorem entry_updPw (f : Power → Power) (y : Nat) : entry (updPw f s) y = entry s y := rfl
@[simp] theorem chan_updPw (f : Power → Power) (y : Nat) : chan (updPw f s) y = chan s y := rfl
@[simp] theorem region_updPw (f : Power → Power) (y : Nat) : region (updPw f s) y = region s y := rfl
@[simp] theorem inst_updPw (f : Power → Power) (y : Nat) : inst (updPw f s) y = inst s y := rfl
@[simp] theorem port_updPw (f : Power → Power) (y : Nat) : port (updPw f s) y = port s y := rfl
@[simp] theorem box_updPw (f : Power → Power) (y : Mbox) : box (updPw f s) y = box s y := rfl
@[simp] theorem crossingOf_updPw (f : Power → Power) (y : Clk) : crossingOf (updPw f s) y = crossingOf s y := rfl
@[simp] theorem readByte_updPw (f : Power → Power) (y : Nat) : readByte (updPw f s) y = readByte s y := rfl
@[simp] theorem isPoisoned_updPw (f : Power → Power) (y : BitVec 42) : isPoisoned (updPw f s) y = isPoisoned s y := rfl
@[simp] theorem isDirty_updPw (f : Power → Power) (y : BitVec 42) : isDirty (updPw f s) y = isDirty s y := rfl
@[simp] theorem lineData_updPw (f : Power → Power) (y : BitVec 42) : lineData (updPw f s) y = lineData s y := rfl
@[simp] theorem partOfBay_updPw (f : Power → Power) (y : Nat) : partOfBay (updPw f s) y = partOfBay s y := rfl
@[simp] theorem partOfEngine_updPw (f : Power → Power) (y : Nat) : partOfEngine (updPw f s) y = partOfEngine s y := rfl
@[simp] theorem partOf_updPw (f : Power → Power) (y : Thr) : partOf (updPw f s) y = partOf s y := rfl
@[simp] theorem partOfSrc_updPw (f : Power → Power) (y : Src) : partOfSrc (updPw f s) y = partOfSrc s y := rfl

/-! ## updEp -/
@[simp] theorem updEp_pending (f : Endpoint → Endpoint) : (updEp f s).pending = s.pending := rfl
@[simp] theorem updEp_time (f : Endpoint → Endpoint) : (updEp f s).time = s.time := rfl
@[simp] theorem updEp_pw (f : Endpoint → Endpoint) : (updEp f s).pw = s.pw := rfl
@[simp] theorem updEp_thr (f : Endpoint → Endpoint) : (updEp f s).thr = s.thr := rfl
@[simp] theorem updEp_core (f : Endpoint → Endpoint) : (updEp f s).core = s.core := rfl
@[simp] theorem updEp_bay (f : Endpoint → Endpoint) : (updEp f s).bay = s.bay := rfl
@[simp] theorem updEp_slice (f : Endpoint → Endpoint) : (updEp f s).slice = s.slice := rfl
@[simp] theorem updEp_srcs (f : Endpoint → Endpoint) : (updEp f s).srcs = s.srcs := rfl
@[simp] theorem updEp_eng (f : Endpoint → Endpoint) : (updEp f s).eng = s.eng := rfl
@[simp] theorem updEp_cluster (f : Endpoint → Endpoint) : (updEp f s).cluster = s.cluster := rfl
@[simp] theorem updEp_part (f : Endpoint → Endpoint) : (updEp f s).part = s.part := rfl
@[simp] theorem updEp_stale (f : Endpoint → Endpoint) : (updEp f s).stale = s.stale := rfl
@[simp] theorem updEp_downDrop (f : Endpoint → Endpoint) : (updEp f s).downDrop = s.downDrop := rfl
@[simp] theorem updEp_stray (f : Endpoint → Endpoint) : (updEp f s).stray = s.stray := rfl
@[simp] theorem updEp_net (f : Endpoint → Endpoint) : (updEp f s).net = s.net := rfl
@[simp] theorem updEp_ereqs (f : Endpoint → Endpoint) : (updEp f s).ereqs = s.ereqs := rfl
@[simp] theorem updEp_mem (f : Endpoint → Endpoint) : (updEp f s).mem = s.mem := rfl
@[simp] theorem updEp_old (f : Endpoint → Endpoint) : (updEp f s).old = s.old := rfl
@[simp] theorem updEp_poison (f : Endpoint → Endpoint) : (updEp f s).poison = s.poison := rfl
@[simp] theorem updEp_queue (f : Endpoint → Endpoint) : (updEp f s).queue = s.queue := rfl
@[simp] theorem updEp_led (f : Endpoint → Endpoint) : (updEp f s).led = s.led := rfl
@[simp] theorem updEp_dimms (f : Endpoint → Endpoint) : (updEp f s).dimms = s.dimms := rfl
@[simp] theorem updEp_chan (f : Endpoint → Endpoint) : (updEp f s).chan = s.chan := rfl
@[simp] theorem updEp_region (f : Endpoint → Endpoint) : (updEp f s).region = s.region := rfl
@[simp] theorem updEp_ep (f : Endpoint → Endpoint) : (updEp f s).ep = f s.ep := rfl
@[simp] theorem updEp_inst (f : Endpoint → Endpoint) : (updEp f s).inst = s.inst := rfl
@[simp] theorem updEp_ridge (f : Endpoint → Endpoint) : (updEp f s).ridge = s.ridge := rfl
@[simp] theorem updEp_wr (f : Endpoint → Endpoint) : (updEp f s).wr = s.wr := rfl
@[simp] theorem updEp_bw (f : Endpoint → Endpoint) : (updEp f s).bw = s.bw := rfl
@[simp] theorem updEp_xing (f : Endpoint → Endpoint) : (updEp f s).xing = s.xing := rfl
@[simp] theorem updEp_out (f : Endpoint → Endpoint) : (updEp f s).out = s.out := rfl
@[simp] theorem updEp_fresh (f : Endpoint → Endpoint) : (updEp f s).fresh = s.fresh := rfl
@[simp] theorem thr_updEp (f : Endpoint → Endpoint) (y : Thr) : thr (updEp f s) y = thr s y := rfl
@[simp] theorem core_updEp (f : Endpoint → Endpoint) (y : Nat) : core (updEp f s) y = core s y := rfl
@[simp] theorem bay_updEp (f : Endpoint → Endpoint) (y : Nat) : bay (updEp f s) y = bay s y := rfl
@[simp] theorem slice_updEp (f : Endpoint → Endpoint) (y : Nat) : slice (updEp f s) y = slice s y := rfl
@[simp] theorem srcEnt_updEp (f : Endpoint → Endpoint) (y : Src) : srcEnt (updEp f s) y = srcEnt s y := rfl
@[simp] theorem engine_updEp (f : Endpoint → Endpoint) (y : Nat) : engine (updEp f s) y = engine s y := rfl
@[simp] theorem cluster_updEp (f : Endpoint → Endpoint) (y : Nat) : cluster (updEp f s) y = cluster s y := rfl
@[simp] theorem part_updEp (f : Endpoint → Endpoint) (y : Nat) : part (updEp f s) y = part s y := rfl
@[simp] theorem queue_updEp (f : Endpoint → Endpoint) (y : Nat) : queue (updEp f s) y = queue s y := rfl
@[simp] theorem entry_updEp (f : Endpoint → Endpoint) (y : Nat) : entry (updEp f s) y = entry s y := rfl
@[simp] theorem chan_updEp (f : Endpoint → Endpoint) (y : Nat) : chan (updEp f s) y = chan s y := rfl
@[simp] theorem region_updEp (f : Endpoint → Endpoint) (y : Nat) : region (updEp f s) y = region s y := rfl
@[simp] theorem inst_updEp (f : Endpoint → Endpoint) (y : Nat) : inst (updEp f s) y = inst s y := rfl
@[simp] theorem port_updEp (f : Endpoint → Endpoint) (y : Nat) : port (updEp f s) y = port s y := rfl
@[simp] theorem rail_updEp (f : Endpoint → Endpoint) (y : Nat) : rail (updEp f s) y = rail s y := rfl
@[simp] theorem die_updEp (f : Endpoint → Endpoint) (y : Nat) : die (updEp f s) y = die s y := rfl
@[simp] theorem box_updEp (f : Endpoint → Endpoint) (y : Mbox) : box (updEp f s) y = box s y := rfl
@[simp] theorem crossingOf_updEp (f : Endpoint → Endpoint) (y : Clk) : crossingOf (updEp f s) y = crossingOf s y := rfl
@[simp] theorem readByte_updEp (f : Endpoint → Endpoint) (y : Nat) : readByte (updEp f s) y = readByte s y := rfl
@[simp] theorem isPoisoned_updEp (f : Endpoint → Endpoint) (y : BitVec 42) : isPoisoned (updEp f s) y = isPoisoned s y := rfl
@[simp] theorem isDirty_updEp (f : Endpoint → Endpoint) (y : BitVec 42) : isDirty (updEp f s) y = isDirty s y := rfl
@[simp] theorem lineData_updEp (f : Endpoint → Endpoint) (y : BitVec 42) : lineData (updEp f s) y = lineData s y := rfl
@[simp] theorem partOfBay_updEp (f : Endpoint → Endpoint) (y : Nat) : partOfBay (updEp f s) y = partOfBay s y := rfl
@[simp] theorem partOfEngine_updEp (f : Endpoint → Endpoint) (y : Nat) : partOfEngine (updEp f s) y = partOfEngine s y := rfl
@[simp] theorem partOf_updEp (f : Endpoint → Endpoint) (y : Thr) : partOf (updEp f s) y = partOf s y := rfl
@[simp] theorem partOfSrc_updEp (f : Endpoint → Endpoint) (y : Src) : partOfSrc (updEp f s) y = partOfSrc s y := rfl

/-! ## updWr -/
@[simp] theorem updWr_pending (f : Wright → Wright) : (updWr f s).pending = s.pending := rfl
@[simp] theorem updWr_time (f : Wright → Wright) : (updWr f s).time = s.time := rfl
@[simp] theorem updWr_pw (f : Wright → Wright) : (updWr f s).pw = s.pw := rfl
@[simp] theorem updWr_thr (f : Wright → Wright) : (updWr f s).thr = s.thr := rfl
@[simp] theorem updWr_core (f : Wright → Wright) : (updWr f s).core = s.core := rfl
@[simp] theorem updWr_bay (f : Wright → Wright) : (updWr f s).bay = s.bay := rfl
@[simp] theorem updWr_slice (f : Wright → Wright) : (updWr f s).slice = s.slice := rfl
@[simp] theorem updWr_srcs (f : Wright → Wright) : (updWr f s).srcs = s.srcs := rfl
@[simp] theorem updWr_eng (f : Wright → Wright) : (updWr f s).eng = s.eng := rfl
@[simp] theorem updWr_cluster (f : Wright → Wright) : (updWr f s).cluster = s.cluster := rfl
@[simp] theorem updWr_part (f : Wright → Wright) : (updWr f s).part = s.part := rfl
@[simp] theorem updWr_stale (f : Wright → Wright) : (updWr f s).stale = s.stale := rfl
@[simp] theorem updWr_downDrop (f : Wright → Wright) : (updWr f s).downDrop = s.downDrop := rfl
@[simp] theorem updWr_stray (f : Wright → Wright) : (updWr f s).stray = s.stray := rfl
@[simp] theorem updWr_net (f : Wright → Wright) : (updWr f s).net = s.net := rfl
@[simp] theorem updWr_ereqs (f : Wright → Wright) : (updWr f s).ereqs = s.ereqs := rfl
@[simp] theorem updWr_mem (f : Wright → Wright) : (updWr f s).mem = s.mem := rfl
@[simp] theorem updWr_old (f : Wright → Wright) : (updWr f s).old = s.old := rfl
@[simp] theorem updWr_poison (f : Wright → Wright) : (updWr f s).poison = s.poison := rfl
@[simp] theorem updWr_queue (f : Wright → Wright) : (updWr f s).queue = s.queue := rfl
@[simp] theorem updWr_led (f : Wright → Wright) : (updWr f s).led = s.led := rfl
@[simp] theorem updWr_dimms (f : Wright → Wright) : (updWr f s).dimms = s.dimms := rfl
@[simp] theorem updWr_chan (f : Wright → Wright) : (updWr f s).chan = s.chan := rfl
@[simp] theorem updWr_region (f : Wright → Wright) : (updWr f s).region = s.region := rfl
@[simp] theorem updWr_ep (f : Wright → Wright) : (updWr f s).ep = s.ep := rfl
@[simp] theorem updWr_inst (f : Wright → Wright) : (updWr f s).inst = s.inst := rfl
@[simp] theorem updWr_ridge (f : Wright → Wright) : (updWr f s).ridge = s.ridge := rfl
@[simp] theorem updWr_wr (f : Wright → Wright) : (updWr f s).wr = f s.wr := rfl
@[simp] theorem updWr_bw (f : Wright → Wright) : (updWr f s).bw = s.bw := rfl
@[simp] theorem updWr_xing (f : Wright → Wright) : (updWr f s).xing = s.xing := rfl
@[simp] theorem updWr_out (f : Wright → Wright) : (updWr f s).out = s.out := rfl
@[simp] theorem updWr_fresh (f : Wright → Wright) : (updWr f s).fresh = s.fresh := rfl
@[simp] theorem thr_updWr (f : Wright → Wright) (y : Thr) : thr (updWr f s) y = thr s y := rfl
@[simp] theorem core_updWr (f : Wright → Wright) (y : Nat) : core (updWr f s) y = core s y := rfl
@[simp] theorem bay_updWr (f : Wright → Wright) (y : Nat) : bay (updWr f s) y = bay s y := rfl
@[simp] theorem slice_updWr (f : Wright → Wright) (y : Nat) : slice (updWr f s) y = slice s y := rfl
@[simp] theorem srcEnt_updWr (f : Wright → Wright) (y : Src) : srcEnt (updWr f s) y = srcEnt s y := rfl
@[simp] theorem engine_updWr (f : Wright → Wright) (y : Nat) : engine (updWr f s) y = engine s y := rfl
@[simp] theorem cluster_updWr (f : Wright → Wright) (y : Nat) : cluster (updWr f s) y = cluster s y := rfl
@[simp] theorem part_updWr (f : Wright → Wright) (y : Nat) : part (updWr f s) y = part s y := rfl
@[simp] theorem queue_updWr (f : Wright → Wright) (y : Nat) : queue (updWr f s) y = queue s y := rfl
@[simp] theorem entry_updWr (f : Wright → Wright) (y : Nat) : entry (updWr f s) y = entry s y := rfl
@[simp] theorem chan_updWr (f : Wright → Wright) (y : Nat) : chan (updWr f s) y = chan s y := rfl
@[simp] theorem region_updWr (f : Wright → Wright) (y : Nat) : region (updWr f s) y = region s y := rfl
@[simp] theorem inst_updWr (f : Wright → Wright) (y : Nat) : inst (updWr f s) y = inst s y := rfl
@[simp] theorem port_updWr (f : Wright → Wright) (y : Nat) : port (updWr f s) y = port s y := rfl
@[simp] theorem rail_updWr (f : Wright → Wright) (y : Nat) : rail (updWr f s) y = rail s y := rfl
@[simp] theorem die_updWr (f : Wright → Wright) (y : Nat) : die (updWr f s) y = die s y := rfl
@[simp] theorem crossingOf_updWr (f : Wright → Wright) (y : Clk) : crossingOf (updWr f s) y = crossingOf s y := rfl
@[simp] theorem readByte_updWr (f : Wright → Wright) (y : Nat) : readByte (updWr f s) y = readByte s y := rfl
@[simp] theorem isPoisoned_updWr (f : Wright → Wright) (y : BitVec 42) : isPoisoned (updWr f s) y = isPoisoned s y := rfl
@[simp] theorem isDirty_updWr (f : Wright → Wright) (y : BitVec 42) : isDirty (updWr f s) y = isDirty s y := rfl
@[simp] theorem lineData_updWr (f : Wright → Wright) (y : BitVec 42) : lineData (updWr f s) y = lineData s y := rfl
@[simp] theorem partOfBay_updWr (f : Wright → Wright) (y : Nat) : partOfBay (updWr f s) y = partOfBay s y := rfl
@[simp] theorem partOfEngine_updWr (f : Wright → Wright) (y : Nat) : partOfEngine (updWr f s) y = partOfEngine s y := rfl
@[simp] theorem partOf_updWr (f : Wright → Wright) (y : Thr) : partOf (updWr f s) y = partOf s y := rfl
@[simp] theorem partOfSrc_updWr (f : Wright → Wright) (y : Src) : partOfSrc (updWr f s) y = partOfSrc s y := rfl

/-! ## updRidge -/
@[simp] theorem updRidge_pending (f : Ridge → Ridge) : (updRidge f s).pending = s.pending := rfl
@[simp] theorem updRidge_time (f : Ridge → Ridge) : (updRidge f s).time = s.time := rfl
@[simp] theorem updRidge_pw (f : Ridge → Ridge) : (updRidge f s).pw = s.pw := rfl
@[simp] theorem updRidge_thr (f : Ridge → Ridge) : (updRidge f s).thr = s.thr := rfl
@[simp] theorem updRidge_core (f : Ridge → Ridge) : (updRidge f s).core = s.core := rfl
@[simp] theorem updRidge_bay (f : Ridge → Ridge) : (updRidge f s).bay = s.bay := rfl
@[simp] theorem updRidge_slice (f : Ridge → Ridge) : (updRidge f s).slice = s.slice := rfl
@[simp] theorem updRidge_srcs (f : Ridge → Ridge) : (updRidge f s).srcs = s.srcs := rfl
@[simp] theorem updRidge_eng (f : Ridge → Ridge) : (updRidge f s).eng = s.eng := rfl
@[simp] theorem updRidge_cluster (f : Ridge → Ridge) : (updRidge f s).cluster = s.cluster := rfl
@[simp] theorem updRidge_part (f : Ridge → Ridge) : (updRidge f s).part = s.part := rfl
@[simp] theorem updRidge_stale (f : Ridge → Ridge) : (updRidge f s).stale = s.stale := rfl
@[simp] theorem updRidge_downDrop (f : Ridge → Ridge) : (updRidge f s).downDrop = s.downDrop := rfl
@[simp] theorem updRidge_stray (f : Ridge → Ridge) : (updRidge f s).stray = s.stray := rfl
@[simp] theorem updRidge_net (f : Ridge → Ridge) : (updRidge f s).net = s.net := rfl
@[simp] theorem updRidge_ereqs (f : Ridge → Ridge) : (updRidge f s).ereqs = s.ereqs := rfl
@[simp] theorem updRidge_mem (f : Ridge → Ridge) : (updRidge f s).mem = s.mem := rfl
@[simp] theorem updRidge_old (f : Ridge → Ridge) : (updRidge f s).old = s.old := rfl
@[simp] theorem updRidge_poison (f : Ridge → Ridge) : (updRidge f s).poison = s.poison := rfl
@[simp] theorem updRidge_queue (f : Ridge → Ridge) : (updRidge f s).queue = s.queue := rfl
@[simp] theorem updRidge_led (f : Ridge → Ridge) : (updRidge f s).led = s.led := rfl
@[simp] theorem updRidge_dimms (f : Ridge → Ridge) : (updRidge f s).dimms = s.dimms := rfl
@[simp] theorem updRidge_chan (f : Ridge → Ridge) : (updRidge f s).chan = s.chan := rfl
@[simp] theorem updRidge_region (f : Ridge → Ridge) : (updRidge f s).region = s.region := rfl
@[simp] theorem updRidge_ep (f : Ridge → Ridge) : (updRidge f s).ep = s.ep := rfl
@[simp] theorem updRidge_inst (f : Ridge → Ridge) : (updRidge f s).inst = s.inst := rfl
@[simp] theorem updRidge_ridge (f : Ridge → Ridge) : (updRidge f s).ridge = f s.ridge := rfl
@[simp] theorem updRidge_wr (f : Ridge → Ridge) : (updRidge f s).wr = s.wr := rfl
@[simp] theorem updRidge_bw (f : Ridge → Ridge) : (updRidge f s).bw = s.bw := rfl
@[simp] theorem updRidge_xing (f : Ridge → Ridge) : (updRidge f s).xing = s.xing := rfl
@[simp] theorem updRidge_out (f : Ridge → Ridge) : (updRidge f s).out = s.out := rfl
@[simp] theorem updRidge_fresh (f : Ridge → Ridge) : (updRidge f s).fresh = s.fresh := rfl
@[simp] theorem thr_updRidge (f : Ridge → Ridge) (y : Thr) : thr (updRidge f s) y = thr s y := rfl
@[simp] theorem core_updRidge (f : Ridge → Ridge) (y : Nat) : core (updRidge f s) y = core s y := rfl
@[simp] theorem bay_updRidge (f : Ridge → Ridge) (y : Nat) : bay (updRidge f s) y = bay s y := rfl
@[simp] theorem slice_updRidge (f : Ridge → Ridge) (y : Nat) : slice (updRidge f s) y = slice s y := rfl
@[simp] theorem srcEnt_updRidge (f : Ridge → Ridge) (y : Src) : srcEnt (updRidge f s) y = srcEnt s y := rfl
@[simp] theorem engine_updRidge (f : Ridge → Ridge) (y : Nat) : engine (updRidge f s) y = engine s y := rfl
@[simp] theorem cluster_updRidge (f : Ridge → Ridge) (y : Nat) : cluster (updRidge f s) y = cluster s y := rfl
@[simp] theorem part_updRidge (f : Ridge → Ridge) (y : Nat) : part (updRidge f s) y = part s y := rfl
@[simp] theorem queue_updRidge (f : Ridge → Ridge) (y : Nat) : queue (updRidge f s) y = queue s y := rfl
@[simp] theorem entry_updRidge (f : Ridge → Ridge) (y : Nat) : entry (updRidge f s) y = entry s y := rfl
@[simp] theorem chan_updRidge (f : Ridge → Ridge) (y : Nat) : chan (updRidge f s) y = chan s y := rfl
@[simp] theorem region_updRidge (f : Ridge → Ridge) (y : Nat) : region (updRidge f s) y = region s y := rfl
@[simp] theorem inst_updRidge (f : Ridge → Ridge) (y : Nat) : inst (updRidge f s) y = inst s y := rfl
@[simp] theorem rail_updRidge (f : Ridge → Ridge) (y : Nat) : rail (updRidge f s) y = rail s y := rfl
@[simp] theorem die_updRidge (f : Ridge → Ridge) (y : Nat) : die (updRidge f s) y = die s y := rfl
@[simp] theorem box_updRidge (f : Ridge → Ridge) (y : Mbox) : box (updRidge f s) y = box s y := rfl
@[simp] theorem crossingOf_updRidge (f : Ridge → Ridge) (y : Clk) : crossingOf (updRidge f s) y = crossingOf s y := rfl
@[simp] theorem readByte_updRidge (f : Ridge → Ridge) (y : Nat) : readByte (updRidge f s) y = readByte s y := rfl
@[simp] theorem isPoisoned_updRidge (f : Ridge → Ridge) (y : BitVec 42) : isPoisoned (updRidge f s) y = isPoisoned s y := rfl
@[simp] theorem isDirty_updRidge (f : Ridge → Ridge) (y : BitVec 42) : isDirty (updRidge f s) y = isDirty s y := rfl
@[simp] theorem lineData_updRidge (f : Ridge → Ridge) (y : BitVec 42) : lineData (updRidge f s) y = lineData s y := rfl
@[simp] theorem partOfBay_updRidge (f : Ridge → Ridge) (y : Nat) : partOfBay (updRidge f s) y = partOfBay s y := rfl
@[simp] theorem partOfEngine_updRidge (f : Ridge → Ridge) (y : Nat) : partOfEngine (updRidge f s) y = partOfEngine s y := rfl
@[simp] theorem partOf_updRidge (f : Ridge → Ridge) (y : Thr) : partOf (updRidge f s) y = partOf s y := rfl
@[simp] theorem partOfSrc_updRidge (f : Ridge → Ridge) (y : Src) : partOfSrc (updRidge f s) y = partOfSrc s y := rfl

/-! ## updLed -/
@[simp] theorem updLed_pending (f : Ledger → Ledger) : (updLed f s).pending = s.pending := rfl
@[simp] theorem updLed_time (f : Ledger → Ledger) : (updLed f s).time = s.time := rfl
@[simp] theorem updLed_pw (f : Ledger → Ledger) : (updLed f s).pw = s.pw := rfl
@[simp] theorem updLed_thr (f : Ledger → Ledger) : (updLed f s).thr = s.thr := rfl
@[simp] theorem updLed_core (f : Ledger → Ledger) : (updLed f s).core = s.core := rfl
@[simp] theorem updLed_bay (f : Ledger → Ledger) : (updLed f s).bay = s.bay := rfl
@[simp] theorem updLed_slice (f : Ledger → Ledger) : (updLed f s).slice = s.slice := rfl
@[simp] theorem updLed_srcs (f : Ledger → Ledger) : (updLed f s).srcs = s.srcs := rfl
@[simp] theorem updLed_eng (f : Ledger → Ledger) : (updLed f s).eng = s.eng := rfl
@[simp] theorem updLed_cluster (f : Ledger → Ledger) : (updLed f s).cluster = s.cluster := rfl
@[simp] theorem updLed_part (f : Ledger → Ledger) : (updLed f s).part = s.part := rfl
@[simp] theorem updLed_stale (f : Ledger → Ledger) : (updLed f s).stale = s.stale := rfl
@[simp] theorem updLed_downDrop (f : Ledger → Ledger) : (updLed f s).downDrop = s.downDrop := rfl
@[simp] theorem updLed_stray (f : Ledger → Ledger) : (updLed f s).stray = s.stray := rfl
@[simp] theorem updLed_net (f : Ledger → Ledger) : (updLed f s).net = s.net := rfl
@[simp] theorem updLed_ereqs (f : Ledger → Ledger) : (updLed f s).ereqs = s.ereqs := rfl
@[simp] theorem updLed_mem (f : Ledger → Ledger) : (updLed f s).mem = s.mem := rfl
@[simp] theorem updLed_old (f : Ledger → Ledger) : (updLed f s).old = s.old := rfl
@[simp] theorem updLed_poison (f : Ledger → Ledger) : (updLed f s).poison = s.poison := rfl
@[simp] theorem updLed_queue (f : Ledger → Ledger) : (updLed f s).queue = s.queue := rfl
@[simp] theorem updLed_led (f : Ledger → Ledger) : (updLed f s).led = f s.led := rfl
@[simp] theorem updLed_dimms (f : Ledger → Ledger) : (updLed f s).dimms = s.dimms := rfl
@[simp] theorem updLed_chan (f : Ledger → Ledger) : (updLed f s).chan = s.chan := rfl
@[simp] theorem updLed_region (f : Ledger → Ledger) : (updLed f s).region = s.region := rfl
@[simp] theorem updLed_ep (f : Ledger → Ledger) : (updLed f s).ep = s.ep := rfl
@[simp] theorem updLed_inst (f : Ledger → Ledger) : (updLed f s).inst = s.inst := rfl
@[simp] theorem updLed_ridge (f : Ledger → Ledger) : (updLed f s).ridge = s.ridge := rfl
@[simp] theorem updLed_wr (f : Ledger → Ledger) : (updLed f s).wr = s.wr := rfl
@[simp] theorem updLed_bw (f : Ledger → Ledger) : (updLed f s).bw = s.bw := rfl
@[simp] theorem updLed_xing (f : Ledger → Ledger) : (updLed f s).xing = s.xing := rfl
@[simp] theorem updLed_out (f : Ledger → Ledger) : (updLed f s).out = s.out := rfl
@[simp] theorem updLed_fresh (f : Ledger → Ledger) : (updLed f s).fresh = s.fresh := rfl
@[simp] theorem thr_updLed (f : Ledger → Ledger) (y : Thr) : thr (updLed f s) y = thr s y := rfl
@[simp] theorem core_updLed (f : Ledger → Ledger) (y : Nat) : core (updLed f s) y = core s y := rfl
@[simp] theorem bay_updLed (f : Ledger → Ledger) (y : Nat) : bay (updLed f s) y = bay s y := rfl
@[simp] theorem slice_updLed (f : Ledger → Ledger) (y : Nat) : slice (updLed f s) y = slice s y := rfl
@[simp] theorem srcEnt_updLed (f : Ledger → Ledger) (y : Src) : srcEnt (updLed f s) y = srcEnt s y := rfl
@[simp] theorem engine_updLed (f : Ledger → Ledger) (y : Nat) : engine (updLed f s) y = engine s y := rfl
@[simp] theorem cluster_updLed (f : Ledger → Ledger) (y : Nat) : cluster (updLed f s) y = cluster s y := rfl
@[simp] theorem part_updLed (f : Ledger → Ledger) (y : Nat) : part (updLed f s) y = part s y := rfl
@[simp] theorem queue_updLed (f : Ledger → Ledger) (y : Nat) : queue (updLed f s) y = queue s y := rfl
@[simp] theorem chan_updLed (f : Ledger → Ledger) (y : Nat) : chan (updLed f s) y = chan s y := rfl
@[simp] theorem region_updLed (f : Ledger → Ledger) (y : Nat) : region (updLed f s) y = region s y := rfl
@[simp] theorem inst_updLed (f : Ledger → Ledger) (y : Nat) : inst (updLed f s) y = inst s y := rfl
@[simp] theorem port_updLed (f : Ledger → Ledger) (y : Nat) : port (updLed f s) y = port s y := rfl
@[simp] theorem rail_updLed (f : Ledger → Ledger) (y : Nat) : rail (updLed f s) y = rail s y := rfl
@[simp] theorem die_updLed (f : Ledger → Ledger) (y : Nat) : die (updLed f s) y = die s y := rfl
@[simp] theorem box_updLed (f : Ledger → Ledger) (y : Mbox) : box (updLed f s) y = box s y := rfl
@[simp] theorem crossingOf_updLed (f : Ledger → Ledger) (y : Clk) : crossingOf (updLed f s) y = crossingOf s y := rfl
@[simp] theorem readByte_updLed (f : Ledger → Ledger) (y : Nat) : readByte (updLed f s) y = readByte s y := rfl
@[simp] theorem isPoisoned_updLed (f : Ledger → Ledger) (y : BitVec 42) : isPoisoned (updLed f s) y = isPoisoned s y := rfl
@[simp] theorem isDirty_updLed (f : Ledger → Ledger) (y : BitVec 42) : isDirty (updLed f s) y = isDirty s y := rfl
@[simp] theorem lineData_updLed (f : Ledger → Ledger) (y : BitVec 42) : lineData (updLed f s) y = lineData s y := rfl
@[simp] theorem partOfBay_updLed (f : Ledger → Ledger) (y : Nat) : partOfBay (updLed f s) y = partOfBay s y := rfl
@[simp] theorem partOfEngine_updLed (f : Ledger → Ledger) (y : Nat) : partOfEngine (updLed f s) y = partOfEngine s y := rfl
@[simp] theorem partOf_updLed (f : Ledger → Ledger) (y : Thr) : partOf (updLed f s) y = partOf s y := rfl
@[simp] theorem partOfSrc_updLed (f : Ledger → Ledger) (y : Src) : partOfSrc (updLed f s) y = partOfSrc s y := rfl

/-! ## countBytes -/
@[simp] theorem countBytes_pending (p n : Nat) : (countBytes p n s).pending = s.pending := rfl
@[simp] theorem countBytes_time (p n : Nat) : (countBytes p n s).time = s.time := rfl
@[simp] theorem countBytes_pw (p n : Nat) : (countBytes p n s).pw = s.pw := rfl
@[simp] theorem countBytes_thr (p n : Nat) : (countBytes p n s).thr = s.thr := rfl
@[simp] theorem countBytes_core (p n : Nat) : (countBytes p n s).core = s.core := rfl
@[simp] theorem countBytes_bay (p n : Nat) : (countBytes p n s).bay = s.bay := rfl
@[simp] theorem countBytes_slice (p n : Nat) : (countBytes p n s).slice = s.slice := rfl
@[simp] theorem countBytes_srcs (p n : Nat) : (countBytes p n s).srcs = s.srcs := rfl
@[simp] theorem countBytes_eng (p n : Nat) : (countBytes p n s).eng = s.eng := rfl
@[simp] theorem countBytes_cluster (p n : Nat) : (countBytes p n s).cluster = s.cluster := rfl
@[simp] theorem countBytes_part (p n : Nat) : (countBytes p n s).part = s.part := rfl
@[simp] theorem countBytes_stale (p n : Nat) : (countBytes p n s).stale = s.stale := rfl
@[simp] theorem countBytes_downDrop (p n : Nat) : (countBytes p n s).downDrop = s.downDrop := rfl
@[simp] theorem countBytes_stray (p n : Nat) : (countBytes p n s).stray = s.stray := rfl
@[simp] theorem countBytes_net (p n : Nat) : (countBytes p n s).net = s.net := rfl
@[simp] theorem countBytes_ereqs (p n : Nat) : (countBytes p n s).ereqs = s.ereqs := rfl
@[simp] theorem countBytes_mem (p n : Nat) : (countBytes p n s).mem = s.mem := rfl
@[simp] theorem countBytes_old (p n : Nat) : (countBytes p n s).old = s.old := rfl
@[simp] theorem countBytes_poison (p n : Nat) : (countBytes p n s).poison = s.poison := rfl
@[simp] theorem countBytes_queue (p n : Nat) : (countBytes p n s).queue = s.queue := rfl
@[simp] theorem countBytes_led (p n : Nat) : (countBytes p n s).led = s.led := rfl
@[simp] theorem countBytes_dimms (p n : Nat) : (countBytes p n s).dimms = s.dimms := rfl
@[simp] theorem countBytes_chan (p n : Nat) : (countBytes p n s).chan = s.chan := rfl
@[simp] theorem countBytes_region (p n : Nat) : (countBytes p n s).region = s.region := rfl
@[simp] theorem countBytes_ep (p n : Nat) : (countBytes p n s).ep = s.ep := rfl
@[simp] theorem countBytes_inst (p n : Nat) : (countBytes p n s).inst = s.inst := rfl
@[simp] theorem countBytes_ridge (p n : Nat) : (countBytes p n s).ridge = s.ridge := rfl
@[simp] theorem countBytes_wr (p n : Nat) : (countBytes p n s).wr = s.wr := rfl
@[simp] theorem countBytes_bw (p n : Nat) : (countBytes p n s).bw = { s.bw with running := edit 0 (fun v => v + BitVec.ofNat 40 n) s.bw.running p } := rfl
@[simp] theorem countBytes_xing (p n : Nat) : (countBytes p n s).xing = s.xing := rfl
@[simp] theorem countBytes_out (p n : Nat) : (countBytes p n s).out = s.out := rfl
@[simp] theorem countBytes_fresh (p n : Nat) : (countBytes p n s).fresh = s.fresh := rfl
@[simp] theorem thr_countBytes (p n : Nat) (y : Thr) : thr (countBytes p n s) y = thr s y := rfl
@[simp] theorem core_countBytes (p n : Nat) (y : Nat) : core (countBytes p n s) y = core s y := rfl
@[simp] theorem bay_countBytes (p n : Nat) (y : Nat) : bay (countBytes p n s) y = bay s y := rfl
@[simp] theorem slice_countBytes (p n : Nat) (y : Nat) : slice (countBytes p n s) y = slice s y := rfl
@[simp] theorem srcEnt_countBytes (p n : Nat) (y : Src) : srcEnt (countBytes p n s) y = srcEnt s y := rfl
@[simp] theorem engine_countBytes (p n : Nat) (y : Nat) : engine (countBytes p n s) y = engine s y := rfl
@[simp] theorem cluster_countBytes (p n : Nat) (y : Nat) : cluster (countBytes p n s) y = cluster s y := rfl
@[simp] theorem part_countBytes (p n : Nat) (y : Nat) : part (countBytes p n s) y = part s y := rfl
@[simp] theorem queue_countBytes (p n : Nat) (y : Nat) : queue (countBytes p n s) y = queue s y := rfl
@[simp] theorem entry_countBytes (p n : Nat) (y : Nat) : entry (countBytes p n s) y = entry s y := rfl
@[simp] theorem chan_countBytes (p n : Nat) (y : Nat) : chan (countBytes p n s) y = chan s y := rfl
@[simp] theorem region_countBytes (p n : Nat) (y : Nat) : region (countBytes p n s) y = region s y := rfl
@[simp] theorem inst_countBytes (p n : Nat) (y : Nat) : inst (countBytes p n s) y = inst s y := rfl
@[simp] theorem port_countBytes (p n : Nat) (y : Nat) : port (countBytes p n s) y = port s y := rfl
@[simp] theorem rail_countBytes (p n : Nat) (y : Nat) : rail (countBytes p n s) y = rail s y := rfl
@[simp] theorem die_countBytes (p n : Nat) (y : Nat) : die (countBytes p n s) y = die s y := rfl
@[simp] theorem box_countBytes (p n : Nat) (y : Mbox) : box (countBytes p n s) y = box s y := rfl
@[simp] theorem crossingOf_countBytes (p n : Nat) (y : Clk) : crossingOf (countBytes p n s) y = crossingOf s y := rfl
@[simp] theorem readByte_countBytes (p n : Nat) (y : Nat) : readByte (countBytes p n s) y = readByte s y := rfl
@[simp] theorem isPoisoned_countBytes (p n : Nat) (y : BitVec 42) : isPoisoned (countBytes p n s) y = isPoisoned s y := rfl
@[simp] theorem isDirty_countBytes (p n : Nat) (y : BitVec 42) : isDirty (countBytes p n s) y = isDirty s y := rfl
@[simp] theorem lineData_countBytes (p n : Nat) (y : BitVec 42) : lineData (countBytes p n s) y = lineData s y := rfl
@[simp] theorem partOfBay_countBytes (p n : Nat) (y : Nat) : partOfBay (countBytes p n s) y = partOfBay s y := rfl
@[simp] theorem partOfEngine_countBytes (p n : Nat) (y : Nat) : partOfEngine (countBytes p n s) y = partOfEngine s y := rfl
@[simp] theorem partOf_countBytes (p n : Nat) (y : Thr) : partOf (countBytes p n s) y = partOf s y := rfl
@[simp] theorem partOfSrc_countBytes (p n : Nat) (y : Src) : partOfSrc (countBytes p n s) y = partOfSrc s y := rfl

/-! ## writeBytes -/
@[simp] theorem writeBytes_pending (a : Nat) (l : List Byte) : (writeBytes a l s).pending = s.pending := rfl
@[simp] theorem writeBytes_time (a : Nat) (l : List Byte) : (writeBytes a l s).time = s.time := rfl
@[simp] theorem writeBytes_pw (a : Nat) (l : List Byte) : (writeBytes a l s).pw = s.pw := rfl
@[simp] theorem writeBytes_thr (a : Nat) (l : List Byte) : (writeBytes a l s).thr = s.thr := rfl
@[simp] theorem writeBytes_core (a : Nat) (l : List Byte) : (writeBytes a l s).core = s.core := rfl
@[simp] theorem writeBytes_bay (a : Nat) (l : List Byte) : (writeBytes a l s).bay = s.bay := rfl
@[simp] theorem writeBytes_slice (a : Nat) (l : List Byte) : (writeBytes a l s).slice = s.slice := rfl
@[simp] theorem writeBytes_srcs (a : Nat) (l : List Byte) : (writeBytes a l s).srcs = s.srcs := rfl
@[simp] theorem writeBytes_eng (a : Nat) (l : List Byte) : (writeBytes a l s).eng = s.eng := rfl
@[simp] theorem writeBytes_cluster (a : Nat) (l : List Byte) : (writeBytes a l s).cluster = s.cluster := rfl
@[simp] theorem writeBytes_part (a : Nat) (l : List Byte) : (writeBytes a l s).part = s.part := rfl
@[simp] theorem writeBytes_stale (a : Nat) (l : List Byte) : (writeBytes a l s).stale = s.stale := rfl
@[simp] theorem writeBytes_downDrop (a : Nat) (l : List Byte) : (writeBytes a l s).downDrop = s.downDrop := rfl
@[simp] theorem writeBytes_stray (a : Nat) (l : List Byte) : (writeBytes a l s).stray = s.stray := rfl
@[simp] theorem writeBytes_net (a : Nat) (l : List Byte) : (writeBytes a l s).net = s.net := rfl
@[simp] theorem writeBytes_ereqs (a : Nat) (l : List Byte) : (writeBytes a l s).ereqs = s.ereqs := rfl
@[simp] theorem writeBytes_mem (a : Nat) (l : List Byte) : (writeBytes a l s).mem = writeList a l s.mem := rfl
@[simp] theorem writeBytes_old (a : Nat) (l : List Byte) : (writeBytes a l s).old = s.old := rfl
@[simp] theorem writeBytes_poison (a : Nat) (l : List Byte) : (writeBytes a l s).poison = s.poison := rfl
@[simp] theorem writeBytes_queue (a : Nat) (l : List Byte) : (writeBytes a l s).queue = s.queue := rfl
@[simp] theorem writeBytes_led (a : Nat) (l : List Byte) : (writeBytes a l s).led = s.led := rfl
@[simp] theorem writeBytes_dimms (a : Nat) (l : List Byte) : (writeBytes a l s).dimms = s.dimms := rfl
@[simp] theorem writeBytes_chan (a : Nat) (l : List Byte) : (writeBytes a l s).chan = s.chan := rfl
@[simp] theorem writeBytes_region (a : Nat) (l : List Byte) : (writeBytes a l s).region = s.region := rfl
@[simp] theorem writeBytes_ep (a : Nat) (l : List Byte) : (writeBytes a l s).ep = s.ep := rfl
@[simp] theorem writeBytes_inst (a : Nat) (l : List Byte) : (writeBytes a l s).inst = s.inst := rfl
@[simp] theorem writeBytes_ridge (a : Nat) (l : List Byte) : (writeBytes a l s).ridge = s.ridge := rfl
@[simp] theorem writeBytes_wr (a : Nat) (l : List Byte) : (writeBytes a l s).wr = s.wr := rfl
@[simp] theorem writeBytes_bw (a : Nat) (l : List Byte) : (writeBytes a l s).bw = s.bw := rfl
@[simp] theorem writeBytes_xing (a : Nat) (l : List Byte) : (writeBytes a l s).xing = s.xing := rfl
@[simp] theorem writeBytes_out (a : Nat) (l : List Byte) : (writeBytes a l s).out = s.out := rfl
@[simp] theorem writeBytes_fresh (a : Nat) (l : List Byte) : (writeBytes a l s).fresh = s.fresh := rfl
@[simp] theorem thr_writeBytes (a : Nat) (l : List Byte) (y : Thr) : thr (writeBytes a l s) y = thr s y := rfl
@[simp] theorem core_writeBytes (a : Nat) (l : List Byte) (y : Nat) : core (writeBytes a l s) y = core s y := rfl
@[simp] theorem bay_writeBytes (a : Nat) (l : List Byte) (y : Nat) : bay (writeBytes a l s) y = bay s y := rfl
@[simp] theorem slice_writeBytes (a : Nat) (l : List Byte) (y : Nat) : slice (writeBytes a l s) y = slice s y := rfl
@[simp] theorem srcEnt_writeBytes (a : Nat) (l : List Byte) (y : Src) : srcEnt (writeBytes a l s) y = srcEnt s y := rfl
@[simp] theorem engine_writeBytes (a : Nat) (l : List Byte) (y : Nat) : engine (writeBytes a l s) y = engine s y := rfl
@[simp] theorem cluster_writeBytes (a : Nat) (l : List Byte) (y : Nat) : cluster (writeBytes a l s) y = cluster s y := rfl
@[simp] theorem part_writeBytes (a : Nat) (l : List Byte) (y : Nat) : part (writeBytes a l s) y = part s y := rfl
@[simp] theorem queue_writeBytes (a : Nat) (l : List Byte) (y : Nat) : queue (writeBytes a l s) y = queue s y := rfl
@[simp] theorem entry_writeBytes (a : Nat) (l : List Byte) (y : Nat) : entry (writeBytes a l s) y = entry s y := rfl
@[simp] theorem chan_writeBytes (a : Nat) (l : List Byte) (y : Nat) : chan (writeBytes a l s) y = chan s y := rfl
@[simp] theorem region_writeBytes (a : Nat) (l : List Byte) (y : Nat) : region (writeBytes a l s) y = region s y := rfl
@[simp] theorem inst_writeBytes (a : Nat) (l : List Byte) (y : Nat) : inst (writeBytes a l s) y = inst s y := rfl
@[simp] theorem port_writeBytes (a : Nat) (l : List Byte) (y : Nat) : port (writeBytes a l s) y = port s y := rfl
@[simp] theorem rail_writeBytes (a : Nat) (l : List Byte) (y : Nat) : rail (writeBytes a l s) y = rail s y := rfl
@[simp] theorem die_writeBytes (a : Nat) (l : List Byte) (y : Nat) : die (writeBytes a l s) y = die s y := rfl
@[simp] theorem box_writeBytes (a : Nat) (l : List Byte) (y : Mbox) : box (writeBytes a l s) y = box s y := rfl
@[simp] theorem crossingOf_writeBytes (a : Nat) (l : List Byte) (y : Clk) : crossingOf (writeBytes a l s) y = crossingOf s y := rfl
@[simp] theorem isPoisoned_writeBytes (a : Nat) (l : List Byte) (y : BitVec 42) : isPoisoned (writeBytes a l s) y = isPoisoned s y := rfl
@[simp] theorem isDirty_writeBytes (a : Nat) (l : List Byte) (y : BitVec 42) : isDirty (writeBytes a l s) y = isDirty s y := rfl
@[simp] theorem partOfBay_writeBytes (a : Nat) (l : List Byte) (y : Nat) : partOfBay (writeBytes a l s) y = partOfBay s y := rfl
@[simp] theorem partOfEngine_writeBytes (a : Nat) (l : List Byte) (y : Nat) : partOfEngine (writeBytes a l s) y = partOfEngine s y := rfl
@[simp] theorem partOf_writeBytes (a : Nat) (l : List Byte) (y : Thr) : partOf (writeBytes a l s) y = partOf s y := rfl
@[simp] theorem partOfSrc_writeBytes (a : Nat) (l : List Byte) (y : Src) : partOfSrc (writeBytes a l s) y = partOfSrc s y := rfl

/-! ## setPoison -/
@[simp] theorem setPoison_pending (l : BitVec 42) (b : Bool) : (setPoison l b s).pending = s.pending := rfl
@[simp] theorem setPoison_time (l : BitVec 42) (b : Bool) : (setPoison l b s).time = s.time := rfl
@[simp] theorem setPoison_pw (l : BitVec 42) (b : Bool) : (setPoison l b s).pw = s.pw := rfl
@[simp] theorem setPoison_thr (l : BitVec 42) (b : Bool) : (setPoison l b s).thr = s.thr := rfl
@[simp] theorem setPoison_core (l : BitVec 42) (b : Bool) : (setPoison l b s).core = s.core := rfl
@[simp] theorem setPoison_bay (l : BitVec 42) (b : Bool) : (setPoison l b s).bay = s.bay := rfl
@[simp] theorem setPoison_slice (l : BitVec 42) (b : Bool) : (setPoison l b s).slice = s.slice := rfl
@[simp] theorem setPoison_srcs (l : BitVec 42) (b : Bool) : (setPoison l b s).srcs = s.srcs := rfl
@[simp] theorem setPoison_eng (l : BitVec 42) (b : Bool) : (setPoison l b s).eng = s.eng := rfl
@[simp] theorem setPoison_cluster (l : BitVec 42) (b : Bool) : (setPoison l b s).cluster = s.cluster := rfl
@[simp] theorem setPoison_part (l : BitVec 42) (b : Bool) : (setPoison l b s).part = s.part := rfl
@[simp] theorem setPoison_stale (l : BitVec 42) (b : Bool) : (setPoison l b s).stale = s.stale := rfl
@[simp] theorem setPoison_downDrop (l : BitVec 42) (b : Bool) : (setPoison l b s).downDrop = s.downDrop := rfl
@[simp] theorem setPoison_stray (l : BitVec 42) (b : Bool) : (setPoison l b s).stray = s.stray := rfl
@[simp] theorem setPoison_net (l : BitVec 42) (b : Bool) : (setPoison l b s).net = s.net := rfl
@[simp] theorem setPoison_ereqs (l : BitVec 42) (b : Bool) : (setPoison l b s).ereqs = s.ereqs := rfl
@[simp] theorem setPoison_mem (l : BitVec 42) (b : Bool) : (setPoison l b s).mem = s.mem := rfl
@[simp] theorem setPoison_old (l : BitVec 42) (b : Bool) : (setPoison l b s).old = s.old := rfl
@[simp] theorem setPoison_poison (l : BitVec 42) (b : Bool) : (setPoison l b s).poison = if b then insertRising l.toNat s.poison else removeRising l.toNat s.poison := rfl
@[simp] theorem setPoison_queue (l : BitVec 42) (b : Bool) : (setPoison l b s).queue = s.queue := rfl
@[simp] theorem setPoison_led (l : BitVec 42) (b : Bool) : (setPoison l b s).led = s.led := rfl
@[simp] theorem setPoison_dimms (l : BitVec 42) (b : Bool) : (setPoison l b s).dimms = s.dimms := rfl
@[simp] theorem setPoison_chan (l : BitVec 42) (b : Bool) : (setPoison l b s).chan = s.chan := rfl
@[simp] theorem setPoison_region (l : BitVec 42) (b : Bool) : (setPoison l b s).region = s.region := rfl
@[simp] theorem setPoison_ep (l : BitVec 42) (b : Bool) : (setPoison l b s).ep = s.ep := rfl
@[simp] theorem setPoison_inst (l : BitVec 42) (b : Bool) : (setPoison l b s).inst = s.inst := rfl
@[simp] theorem setPoison_ridge (l : BitVec 42) (b : Bool) : (setPoison l b s).ridge = s.ridge := rfl
@[simp] theorem setPoison_wr (l : BitVec 42) (b : Bool) : (setPoison l b s).wr = s.wr := rfl
@[simp] theorem setPoison_bw (l : BitVec 42) (b : Bool) : (setPoison l b s).bw = s.bw := rfl
@[simp] theorem setPoison_xing (l : BitVec 42) (b : Bool) : (setPoison l b s).xing = s.xing := rfl
@[simp] theorem setPoison_out (l : BitVec 42) (b : Bool) : (setPoison l b s).out = s.out := rfl
@[simp] theorem setPoison_fresh (l : BitVec 42) (b : Bool) : (setPoison l b s).fresh = s.fresh := rfl
@[simp] theorem thr_setPoison (l : BitVec 42) (b : Bool) (y : Thr) : thr (setPoison l b s) y = thr s y := rfl
@[simp] theorem core_setPoison (l : BitVec 42) (b : Bool) (y : Nat) : core (setPoison l b s) y = core s y := rfl
@[simp] theorem bay_setPoison (l : BitVec 42) (b : Bool) (y : Nat) : bay (setPoison l b s) y = bay s y := rfl
@[simp] theorem slice_setPoison (l : BitVec 42) (b : Bool) (y : Nat) : slice (setPoison l b s) y = slice s y := rfl
@[simp] theorem srcEnt_setPoison (l : BitVec 42) (b : Bool) (y : Src) : srcEnt (setPoison l b s) y = srcEnt s y := rfl
@[simp] theorem engine_setPoison (l : BitVec 42) (b : Bool) (y : Nat) : engine (setPoison l b s) y = engine s y := rfl
@[simp] theorem cluster_setPoison (l : BitVec 42) (b : Bool) (y : Nat) : cluster (setPoison l b s) y = cluster s y := rfl
@[simp] theorem part_setPoison (l : BitVec 42) (b : Bool) (y : Nat) : part (setPoison l b s) y = part s y := rfl
@[simp] theorem queue_setPoison (l : BitVec 42) (b : Bool) (y : Nat) : queue (setPoison l b s) y = queue s y := rfl
@[simp] theorem entry_setPoison (l : BitVec 42) (b : Bool) (y : Nat) : entry (setPoison l b s) y = entry s y := rfl
@[simp] theorem chan_setPoison (l : BitVec 42) (b : Bool) (y : Nat) : chan (setPoison l b s) y = chan s y := rfl
@[simp] theorem region_setPoison (l : BitVec 42) (b : Bool) (y : Nat) : region (setPoison l b s) y = region s y := rfl
@[simp] theorem inst_setPoison (l : BitVec 42) (b : Bool) (y : Nat) : inst (setPoison l b s) y = inst s y := rfl
@[simp] theorem port_setPoison (l : BitVec 42) (b : Bool) (y : Nat) : port (setPoison l b s) y = port s y := rfl
@[simp] theorem rail_setPoison (l : BitVec 42) (b : Bool) (y : Nat) : rail (setPoison l b s) y = rail s y := rfl
@[simp] theorem die_setPoison (l : BitVec 42) (b : Bool) (y : Nat) : die (setPoison l b s) y = die s y := rfl
@[simp] theorem box_setPoison (l : BitVec 42) (b : Bool) (y : Mbox) : box (setPoison l b s) y = box s y := rfl
@[simp] theorem crossingOf_setPoison (l : BitVec 42) (b : Bool) (y : Clk) : crossingOf (setPoison l b s) y = crossingOf s y := rfl
@[simp] theorem readByte_setPoison (l : BitVec 42) (b : Bool) (y : Nat) : readByte (setPoison l b s) y = readByte s y := rfl
@[simp] theorem isDirty_setPoison (l : BitVec 42) (b : Bool) (y : BitVec 42) : isDirty (setPoison l b s) y = isDirty s y := rfl
@[simp] theorem lineData_setPoison (l : BitVec 42) (b : Bool) (y : BitVec 42) : lineData (setPoison l b s) y = lineData s y := rfl
@[simp] theorem partOfBay_setPoison (l : BitVec 42) (b : Bool) (y : Nat) : partOfBay (setPoison l b s) y = partOfBay s y := rfl
@[simp] theorem partOfEngine_setPoison (l : BitVec 42) (b : Bool) (y : Nat) : partOfEngine (setPoison l b s) y = partOfEngine s y := rfl
@[simp] theorem partOf_setPoison (l : BitVec 42) (b : Bool) (y : Thr) : partOf (setPoison l b s) y = partOf s y := rfl
@[simp] theorem partOfSrc_setPoison (l : BitVec 42) (b : Bool) (y : Src) : partOfSrc (setPoison l b s) y = partOfSrc s y := rfl

/-! ## cleanLine -/
@[simp] theorem cleanLine_pending (l : BitVec 42) : (cleanLine l s).pending = s.pending := rfl
@[simp] theorem cleanLine_time (l : BitVec 42) : (cleanLine l s).time = s.time := rfl
@[simp] theorem cleanLine_pw (l : BitVec 42) : (cleanLine l s).pw = s.pw := rfl
@[simp] theorem cleanLine_thr (l : BitVec 42) : (cleanLine l s).thr = s.thr := rfl
@[simp] theorem cleanLine_core (l : BitVec 42) : (cleanLine l s).core = s.core := rfl
@[simp] theorem cleanLine_bay (l : BitVec 42) : (cleanLine l s).bay = s.bay := rfl
@[simp] theorem cleanLine_slice (l : BitVec 42) : (cleanLine l s).slice = s.slice := rfl
@[simp] theorem cleanLine_srcs (l : BitVec 42) : (cleanLine l s).srcs = s.srcs := rfl
@[simp] theorem cleanLine_eng (l : BitVec 42) : (cleanLine l s).eng = s.eng := rfl
@[simp] theorem cleanLine_cluster (l : BitVec 42) : (cleanLine l s).cluster = s.cluster := rfl
@[simp] theorem cleanLine_part (l : BitVec 42) : (cleanLine l s).part = s.part := rfl
@[simp] theorem cleanLine_stale (l : BitVec 42) : (cleanLine l s).stale = s.stale := rfl
@[simp] theorem cleanLine_downDrop (l : BitVec 42) : (cleanLine l s).downDrop = s.downDrop := rfl
@[simp] theorem cleanLine_stray (l : BitVec 42) : (cleanLine l s).stray = s.stray := rfl
@[simp] theorem cleanLine_net (l : BitVec 42) : (cleanLine l s).net = s.net := rfl
@[simp] theorem cleanLine_ereqs (l : BitVec 42) : (cleanLine l s).ereqs = s.ereqs := rfl
@[simp] theorem cleanLine_mem (l : BitVec 42) : (cleanLine l s).mem = s.mem := rfl
@[simp] theorem cleanLine_old (l : BitVec 42) : (cleanLine l s).old = put none s.old l.toNat none := rfl
@[simp] theorem cleanLine_poison (l : BitVec 42) : (cleanLine l s).poison = s.poison := rfl
@[simp] theorem cleanLine_queue (l : BitVec 42) : (cleanLine l s).queue = s.queue := rfl
@[simp] theorem cleanLine_led (l : BitVec 42) : (cleanLine l s).led = s.led := rfl
@[simp] theorem cleanLine_dimms (l : BitVec 42) : (cleanLine l s).dimms = s.dimms := rfl
@[simp] theorem cleanLine_chan (l : BitVec 42) : (cleanLine l s).chan = s.chan := rfl
@[simp] theorem cleanLine_region (l : BitVec 42) : (cleanLine l s).region = s.region := rfl
@[simp] theorem cleanLine_ep (l : BitVec 42) : (cleanLine l s).ep = s.ep := rfl
@[simp] theorem cleanLine_inst (l : BitVec 42) : (cleanLine l s).inst = s.inst := rfl
@[simp] theorem cleanLine_ridge (l : BitVec 42) : (cleanLine l s).ridge = s.ridge := rfl
@[simp] theorem cleanLine_wr (l : BitVec 42) : (cleanLine l s).wr = s.wr := rfl
@[simp] theorem cleanLine_bw (l : BitVec 42) : (cleanLine l s).bw = s.bw := rfl
@[simp] theorem cleanLine_xing (l : BitVec 42) : (cleanLine l s).xing = s.xing := rfl
@[simp] theorem cleanLine_out (l : BitVec 42) : (cleanLine l s).out = s.out := rfl
@[simp] theorem cleanLine_fresh (l : BitVec 42) : (cleanLine l s).fresh = s.fresh := rfl
@[simp] theorem thr_cleanLine (l : BitVec 42) (y : Thr) : thr (cleanLine l s) y = thr s y := rfl
@[simp] theorem core_cleanLine (l : BitVec 42) (y : Nat) : core (cleanLine l s) y = core s y := rfl
@[simp] theorem bay_cleanLine (l : BitVec 42) (y : Nat) : bay (cleanLine l s) y = bay s y := rfl
@[simp] theorem slice_cleanLine (l : BitVec 42) (y : Nat) : slice (cleanLine l s) y = slice s y := rfl
@[simp] theorem srcEnt_cleanLine (l : BitVec 42) (y : Src) : srcEnt (cleanLine l s) y = srcEnt s y := rfl
@[simp] theorem engine_cleanLine (l : BitVec 42) (y : Nat) : engine (cleanLine l s) y = engine s y := rfl
@[simp] theorem cluster_cleanLine (l : BitVec 42) (y : Nat) : cluster (cleanLine l s) y = cluster s y := rfl
@[simp] theorem part_cleanLine (l : BitVec 42) (y : Nat) : part (cleanLine l s) y = part s y := rfl
@[simp] theorem queue_cleanLine (l : BitVec 42) (y : Nat) : queue (cleanLine l s) y = queue s y := rfl
@[simp] theorem entry_cleanLine (l : BitVec 42) (y : Nat) : entry (cleanLine l s) y = entry s y := rfl
@[simp] theorem chan_cleanLine (l : BitVec 42) (y : Nat) : chan (cleanLine l s) y = chan s y := rfl
@[simp] theorem region_cleanLine (l : BitVec 42) (y : Nat) : region (cleanLine l s) y = region s y := rfl
@[simp] theorem inst_cleanLine (l : BitVec 42) (y : Nat) : inst (cleanLine l s) y = inst s y := rfl
@[simp] theorem port_cleanLine (l : BitVec 42) (y : Nat) : port (cleanLine l s) y = port s y := rfl
@[simp] theorem rail_cleanLine (l : BitVec 42) (y : Nat) : rail (cleanLine l s) y = rail s y := rfl
@[simp] theorem die_cleanLine (l : BitVec 42) (y : Nat) : die (cleanLine l s) y = die s y := rfl
@[simp] theorem box_cleanLine (l : BitVec 42) (y : Mbox) : box (cleanLine l s) y = box s y := rfl
@[simp] theorem crossingOf_cleanLine (l : BitVec 42) (y : Clk) : crossingOf (cleanLine l s) y = crossingOf s y := rfl
@[simp] theorem readByte_cleanLine (l : BitVec 42) (y : Nat) : readByte (cleanLine l s) y = readByte s y := rfl
@[simp] theorem isPoisoned_cleanLine (l : BitVec 42) (y : BitVec 42) : isPoisoned (cleanLine l s) y = isPoisoned s y := rfl
@[simp] theorem lineData_cleanLine (l : BitVec 42) (y : BitVec 42) : lineData (cleanLine l s) y = lineData s y := rfl
@[simp] theorem partOfBay_cleanLine (l : BitVec 42) (y : Nat) : partOfBay (cleanLine l s) y = partOfBay s y := rfl
@[simp] theorem partOfEngine_cleanLine (l : BitVec 42) (y : Nat) : partOfEngine (cleanLine l s) y = partOfEngine s y := rfl
@[simp] theorem partOf_cleanLine (l : BitVec 42) (y : Thr) : partOf (cleanLine l s) y = partOf s y := rfl
@[simp] theorem partOfSrc_cleanLine (l : BitVec 42) (y : Src) : partOfSrc (cleanLine l s) y = partOfSrc s y := rfl

/-! ## send -/
@[simp] theorem send_pending (k : CKind) (m : CMsg) : (send k m s).pending = s.pending := rfl
@[simp] theorem send_time (k : CKind) (m : CMsg) : (send k m s).time = s.time := rfl
@[simp] theorem send_pw (k : CKind) (m : CMsg) : (send k m s).pw = s.pw := rfl
@[simp] theorem send_thr (k : CKind) (m : CMsg) : (send k m s).thr = s.thr := rfl
@[simp] theorem send_core (k : CKind) (m : CMsg) : (send k m s).core = s.core := rfl
@[simp] theorem send_bay (k : CKind) (m : CMsg) : (send k m s).bay = s.bay := rfl
@[simp] theorem send_slice (k : CKind) (m : CMsg) : (send k m s).slice = s.slice := rfl
@[simp] theorem send_srcs (k : CKind) (m : CMsg) : (send k m s).srcs = s.srcs := rfl
@[simp] theorem send_eng (k : CKind) (m : CMsg) : (send k m s).eng = s.eng := rfl
@[simp] theorem send_cluster (k : CKind) (m : CMsg) : (send k m s).cluster = s.cluster := rfl
@[simp] theorem send_part (k : CKind) (m : CMsg) : (send k m s).part = s.part := rfl
@[simp] theorem send_stale (k : CKind) (m : CMsg) : (send k m s).stale = s.stale := rfl
@[simp] theorem send_downDrop (k : CKind) (m : CMsg) : (send k m s).downDrop = s.downDrop := rfl
@[simp] theorem send_stray (k : CKind) (m : CMsg) : (send k m s).stray = s.stray := rfl
@[simp] theorem send_net (k : CKind) (m : CMsg) : (send k m s).net = s.net ++ [(k, m)] := rfl
@[simp] theorem send_ereqs (k : CKind) (m : CMsg) : (send k m s).ereqs = s.ereqs := rfl
@[simp] theorem send_mem (k : CKind) (m : CMsg) : (send k m s).mem = s.mem := rfl
@[simp] theorem send_old (k : CKind) (m : CMsg) : (send k m s).old = s.old := rfl
@[simp] theorem send_poison (k : CKind) (m : CMsg) : (send k m s).poison = s.poison := rfl
@[simp] theorem send_queue (k : CKind) (m : CMsg) : (send k m s).queue = s.queue := rfl
@[simp] theorem send_led (k : CKind) (m : CMsg) : (send k m s).led = s.led := rfl
@[simp] theorem send_dimms (k : CKind) (m : CMsg) : (send k m s).dimms = s.dimms := rfl
@[simp] theorem send_chan (k : CKind) (m : CMsg) : (send k m s).chan = s.chan := rfl
@[simp] theorem send_region (k : CKind) (m : CMsg) : (send k m s).region = s.region := rfl
@[simp] theorem send_ep (k : CKind) (m : CMsg) : (send k m s).ep = s.ep := rfl
@[simp] theorem send_inst (k : CKind) (m : CMsg) : (send k m s).inst = s.inst := rfl
@[simp] theorem send_ridge (k : CKind) (m : CMsg) : (send k m s).ridge = s.ridge := rfl
@[simp] theorem send_wr (k : CKind) (m : CMsg) : (send k m s).wr = s.wr := rfl
@[simp] theorem send_bw (k : CKind) (m : CMsg) : (send k m s).bw = s.bw := rfl
@[simp] theorem send_xing (k : CKind) (m : CMsg) : (send k m s).xing = s.xing := rfl
@[simp] theorem send_out (k : CKind) (m : CMsg) : (send k m s).out = s.out := rfl
@[simp] theorem send_fresh (k : CKind) (m : CMsg) : (send k m s).fresh = s.fresh := rfl
@[simp] theorem thr_send (k : CKind) (m : CMsg) (y : Thr) : thr (send k m s) y = thr s y := rfl
@[simp] theorem core_send (k : CKind) (m : CMsg) (y : Nat) : core (send k m s) y = core s y := rfl
@[simp] theorem bay_send (k : CKind) (m : CMsg) (y : Nat) : bay (send k m s) y = bay s y := rfl
@[simp] theorem slice_send (k : CKind) (m : CMsg) (y : Nat) : slice (send k m s) y = slice s y := rfl
@[simp] theorem srcEnt_send (k : CKind) (m : CMsg) (y : Src) : srcEnt (send k m s) y = srcEnt s y := rfl
@[simp] theorem engine_send (k : CKind) (m : CMsg) (y : Nat) : engine (send k m s) y = engine s y := rfl
@[simp] theorem cluster_send (k : CKind) (m : CMsg) (y : Nat) : cluster (send k m s) y = cluster s y := rfl
@[simp] theorem part_send (k : CKind) (m : CMsg) (y : Nat) : part (send k m s) y = part s y := rfl
@[simp] theorem queue_send (k : CKind) (m : CMsg) (y : Nat) : queue (send k m s) y = queue s y := rfl
@[simp] theorem entry_send (k : CKind) (m : CMsg) (y : Nat) : entry (send k m s) y = entry s y := rfl
@[simp] theorem chan_send (k : CKind) (m : CMsg) (y : Nat) : chan (send k m s) y = chan s y := rfl
@[simp] theorem region_send (k : CKind) (m : CMsg) (y : Nat) : region (send k m s) y = region s y := rfl
@[simp] theorem inst_send (k : CKind) (m : CMsg) (y : Nat) : inst (send k m s) y = inst s y := rfl
@[simp] theorem port_send (k : CKind) (m : CMsg) (y : Nat) : port (send k m s) y = port s y := rfl
@[simp] theorem rail_send (k : CKind) (m : CMsg) (y : Nat) : rail (send k m s) y = rail s y := rfl
@[simp] theorem die_send (k : CKind) (m : CMsg) (y : Nat) : die (send k m s) y = die s y := rfl
@[simp] theorem box_send (k : CKind) (m : CMsg) (y : Mbox) : box (send k m s) y = box s y := rfl
@[simp] theorem crossingOf_send (k : CKind) (m : CMsg) (y : Clk) : crossingOf (send k m s) y = crossingOf s y := rfl
@[simp] theorem readByte_send (k : CKind) (m : CMsg) (y : Nat) : readByte (send k m s) y = readByte s y := rfl
@[simp] theorem isPoisoned_send (k : CKind) (m : CMsg) (y : BitVec 42) : isPoisoned (send k m s) y = isPoisoned s y := rfl
@[simp] theorem isDirty_send (k : CKind) (m : CMsg) (y : BitVec 42) : isDirty (send k m s) y = isDirty s y := rfl
@[simp] theorem lineData_send (k : CKind) (m : CMsg) (y : BitVec 42) : lineData (send k m s) y = lineData s y := rfl
@[simp] theorem partOfBay_send (k : CKind) (m : CMsg) (y : Nat) : partOfBay (send k m s) y = partOfBay s y := rfl
@[simp] theorem partOfEngine_send (k : CKind) (m : CMsg) (y : Nat) : partOfEngine (send k m s) y = partOfEngine s y := rfl
@[simp] theorem partOf_send (k : CKind) (m : CMsg) (y : Thr) : partOf (send k m s) y = partOf s y := rfl
@[simp] theorem partOfSrc_send (k : CKind) (m : CMsg) (y : Src) : partOfSrc (send k m s) y = partOfSrc s y := rfl

/-! ## A write of a register -/

@[simp] theorem writeG_f (r : BitVec 5) (v : PReg) (th : Thread) : (writeG r v th).f = th.f := by
  unfold writeG; split <;> rfl
@[simp] theorem writeG_pc (r : BitVec 5) (v : PReg) (th : Thread) : (writeG r v th).pc = th.pc := by
  unfold writeG; split <;> rfl
@[simp] theorem writeG_tstat (r : BitVec 5) (v : PReg) (th : Thread) : (writeG r v th).tstat = th.tstat := by
  unfold writeG; split <;> rfl
@[simp] theorem writeG_dov (r : BitVec 5) (v : PReg) (th : Thread) : (writeG r v th).dov = th.dov := by
  unfold writeG; split <;> rfl
@[simp] theorem writeG_dove (r : BitVec 5) (v : PReg) (th : Thread) : (writeG r v th).dove = th.dove := by
  unfold writeG; split <;> rfl
@[simp] theorem writeG_fpFlags (r : BitVec 5) (v : PReg) (th : Thread) : (writeG r v th).fpFlags = th.fpFlags := by
  unfold writeG; split <;> rfl
@[simp] theorem writeG_fpTrap (r : BitVec 5) (v : PReg) (th : Thread) : (writeG r v th).fpTrap = th.fpTrap := by
  unfold writeG; split <;> rfl
@[simp] theorem writeG_fpRm (r : BitVec 5) (v : PReg) (th : Thread) : (writeG r v th).fpRm = th.fpRm := by
  unfold writeG; split <;> rfl
@[simp] theorem writeG_xk (r : BitVec 5) (v : PReg) (th : Thread) : (writeG r v th).xk = th.xk := by
  unfold writeG; split <;> rfl
@[simp] theorem writeG_xm (r : BitVec 5) (v : PReg) (th : Thread) : (writeG r v th).xm = th.xm := by
  unfold writeG; split <;> rfl
@[simp] theorem writeG_route (r : BitVec 5) (v : PReg) (th : Thread) : (writeG r v th).route = th.route := by
  unfold writeG; split <;> rfl
@[simp] theorem writeG_irqM (r : BitVec 5) (v : PReg) (th : Thread) : (writeG r v th).irqM = th.irqM := by
  unfold writeG; split <;> rfl
@[simp] theorem writeG_ptRoot (r : BitVec 5) (v : PReg) (th : Thread) : (writeG r v th).ptRoot = th.ptRoot := by
  unfold writeG; split <;> rfl
@[simp] theorem writeG_asid (r : BitVec 5) (v : PReg) (th : Thread) : (writeG r v th).asid = th.asid := by
  unfold writeG; split <;> rfl
@[simp] theorem writeG_trEn (r : BitVec 5) (v : PReg) (th : Thread) : (writeG r v th).trEn = th.trEn := by
  unfold writeG; split <;> rfl
@[simp] theorem writeG_trKnxU (r : BitVec 5) (v : PReg) (th : Thread) : (writeG r v th).trKnxU = th.trKnxU := by
  unfold writeG; split <;> rfl
@[simp] theorem writeG_trKaccU (r : BitVec 5) (v : PReg) (th : Thread) : (writeG r v th).trKaccU = th.trKaccU := by
  unfold writeG; split <;> rfl
@[simp] theorem writeG_noMds (r : BitVec 5) (v : PReg) (th : Thread) : (writeG r v th).noMds = th.noMds := by
  unfold writeG; split <;> rfl
@[simp] theorem writeG_noRsp (r : BitVec 5) (v : PReg) (th : Thread) : (writeG r v th).noRsp = th.noRsp := by
  unfold writeG; split <;> rfl
@[simp] theorem writeG_noPeek (r : BitVec 5) (v : PReg) (th : Thread) : (writeG r v th).noPeek = th.noPeek := by
  unfold writeG; split <;> rfl
@[simp] theorem writeG_tmo (r : BitVec 5) (v : PReg) (th : Thread) : (writeG r v th).tmo = th.tmo := by
  unfold writeG; split <;> rfl
@[simp] theorem writeG_logEn (r : BitVec 5) (v : PReg) (th : Thread) : (writeG r v th).logEn = th.logEn := by
  unfold writeG; split <;> rfl
@[simp] theorem writeG_logSize (r : BitVec 5) (v : PReg) (th : Thread) : (writeG r v th).logSize = th.logSize := by
  unfold writeG; split <;> rfl
@[simp] theorem writeG_logBase (r : BitVec 5) (v : PReg) (th : Thread) : (writeG r v th).logBase = th.logBase := by
  unfold writeG; split <;> rfl
@[simp] theorem writeG_logHead (r : BitVec 5) (v : PReg) (th : Thread) : (writeG r v th).logHead = th.logHead := by
  unfold writeG; split <;> rfl
@[simp] theorem writeG_logTail (r : BitVec 5) (v : PReg) (th : Thread) : (writeG r v th).logTail = th.logTail := by
  unfold writeG; split <;> rfl
@[simp] theorem writeG_logFirst (r : BitVec 5) (v : PReg) (th : Thread) : (writeG r v th).logFirst = th.logFirst := by
  unfold writeG; split <;> rfl
@[simp] theorem writeG_lostPending (r : BitVec 5) (v : PReg) (th : Thread) : (writeG r v th).lostPending = th.lostPending := by
  unfold writeG; split <;> rfl
@[simp] theorem writeG_dropped (r : BitVec 5) (v : PReg) (th : Thread) : (writeG r v th).dropped = th.dropped := by
  unfold writeG; split <;> rfl
@[simp] theorem writeG_loadLost (r : BitVec 5) (v : PReg) (th : Thread) : (writeG r v th).loadLost = th.loadLost := by
  unfold writeG; split <;> rfl
@[simp] theorem writeG_logFail (r : BitVec 5) (v : PReg) (th : Thread) : (writeG r v th).logFail = th.logFail := by
  unfold writeG; split <;> rfl
@[simp] theorem writeG_ev (r : BitVec 5) (v : PReg) (th : Thread) : (writeG r v th).ev = th.ev := by
  unfold writeG; split <;> rfl
@[simp] theorem writeG_pmu (r : BitVec 5) (v : PReg) (th : Thread) : (writeG r v th).pmu = th.pmu := by
  unfold writeG; split <;> rfl
@[simp] theorem writeG_run (r : BitVec 5) (v : PReg) (th : Thread) : (writeG r v th).run = th.run := by
  unfold writeG; split <;> rfl
@[simp] theorem writeG_parked (r : BitVec 5) (v : PReg) (th : Thread) : (writeG r v th).parked = th.parked := by
  unfold writeG; split <;> rfl
@[simp] theorem writeG_soloParked (r : BitVec 5) (v : PReg) (th : Thread) : (writeG r v th).soloParked = th.soloParked := by
  unfold writeG; split <;> rfl
@[simp] theorem writeG_soloLater (r : BitVec 5) (v : PReg) (th : Thread) : (writeG r v th).soloLater = th.soloLater := by
  unfold writeG; split <;> rfl
@[simp] theorem writeG_fbuf (r : BitVec 5) (v : PReg) (th : Thread) : (writeG r v th).fbuf = th.fbuf := by
  unfold writeG; split <;> rfl
@[simp] theorem writeG_waitFetch (r : BitVec 5) (v : PReg) (th : Thread) : (writeG r v th).waitFetch = th.waitFetch := by
  unfold writeG; split <;> rfl
@[simp] theorem writeG_held (r : BitVec 5) (v : PReg) (th : Thread) : (writeG r v th).held = th.held := by
  unfold writeG; split <;> rfl
@[simp] theorem writeG_waitRoom (r : BitVec 5) (v : PReg) (th : Thread) : (writeG r v th).waitRoom = th.waitRoom := by
  unfold writeG; split <;> rfl
@[simp] theorem writeG_evs (r : BitVec 5) (v : PReg) (th : Thread) : (writeG r v th).evs = th.evs := by
  unfold writeG; split <;> rfl
@[simp] theorem writeG_nextSeq (r : BitVec 5) (v : PReg) (th : Thread) : (writeG r v th).nextSeq = th.nextSeq := by
  unfold writeG; split <;> rfl
@[simp] theorem writeG_unconf (r : BitVec 5) (v : PReg) (th : Thread) : (writeG r v th).unconf = th.unconf := by
  unfold writeG; split <;> rfl
@[simp] theorem writeG_rstack (r : BitVec 5) (v : PReg) (th : Thread) : (writeG r v th).rstack = th.rstack := by
  unfold writeG; split <;> rfl
@[simp] theorem writeG_mdp (r : BitVec 5) (v : PReg) (th : Thread) : (writeG r v th).mdp = th.mdp := by
  unfold writeG; split <;> rfl
@[simp] theorem writeG_redo (r : BitVec 5) (v : PReg) (th : Thread) : (writeG r v th).redo = th.redo := by
  unfold writeG; split <;> rfl
@[simp] theorem writeG_stores (r : BitVec 5) (v : PReg) (th : Thread) : (writeG r v th).stores = th.stores := by
  unfold writeG; split <;> rfl
@[simp] theorem writeG_outst (r : BitVec 5) (v : PReg) (th : Thread) : (writeG r v th).outst = th.outst := by
  unfold writeG; split <;> rfl
@[simp] theorem writeG_resv (r : BitVec 5) (v : PReg) (th : Thread) : (writeG r v th).resv = th.resv := by
  unfold writeG; split <;> rfl
@[simp] theorem writeF_g (r : BitVec 5) (v : FReg) (th : Thread) : (writeF r v th).g = th.g := rfl
@[simp] theorem writeF_pc (r : BitVec 5) (v : FReg) (th : Thread) : (writeF r v th).pc = th.pc := rfl
@[simp] theorem writeF_tstat (r : BitVec 5) (v : FReg) (th : Thread) : (writeF r v th).tstat = th.tstat := rfl
@[simp] theorem writeF_dov (r : BitVec 5) (v : FReg) (th : Thread) : (writeF r v th).dov = th.dov := rfl
@[simp] theorem writeF_dove (r : BitVec 5) (v : FReg) (th : Thread) : (writeF r v th).dove = th.dove := rfl
@[simp] theorem writeF_fpFlags (r : BitVec 5) (v : FReg) (th : Thread) : (writeF r v th).fpFlags = th.fpFlags := rfl
@[simp] theorem writeF_fpTrap (r : BitVec 5) (v : FReg) (th : Thread) : (writeF r v th).fpTrap = th.fpTrap := rfl
@[simp] theorem writeF_fpRm (r : BitVec 5) (v : FReg) (th : Thread) : (writeF r v th).fpRm = th.fpRm := rfl
@[simp] theorem writeF_xk (r : BitVec 5) (v : FReg) (th : Thread) : (writeF r v th).xk = th.xk := rfl
@[simp] theorem writeF_xm (r : BitVec 5) (v : FReg) (th : Thread) : (writeF r v th).xm = th.xm := rfl
@[simp] theorem writeF_route (r : BitVec 5) (v : FReg) (th : Thread) : (writeF r v th).route = th.route := rfl
@[simp] theorem writeF_irqM (r : BitVec 5) (v : FReg) (th : Thread) : (writeF r v th).irqM = th.irqM := rfl
@[simp] theorem writeF_ptRoot (r : BitVec 5) (v : FReg) (th : Thread) : (writeF r v th).ptRoot = th.ptRoot := rfl
@[simp] theorem writeF_asid (r : BitVec 5) (v : FReg) (th : Thread) : (writeF r v th).asid = th.asid := rfl
@[simp] theorem writeF_trEn (r : BitVec 5) (v : FReg) (th : Thread) : (writeF r v th).trEn = th.trEn := rfl
@[simp] theorem writeF_trKnxU (r : BitVec 5) (v : FReg) (th : Thread) : (writeF r v th).trKnxU = th.trKnxU := rfl
@[simp] theorem writeF_trKaccU (r : BitVec 5) (v : FReg) (th : Thread) : (writeF r v th).trKaccU = th.trKaccU := rfl
@[simp] theorem writeF_noMds (r : BitVec 5) (v : FReg) (th : Thread) : (writeF r v th).noMds = th.noMds := rfl
@[simp] theorem writeF_noRsp (r : BitVec 5) (v : FReg) (th : Thread) : (writeF r v th).noRsp = th.noRsp := rfl
@[simp] theorem writeF_noPeek (r : BitVec 5) (v : FReg) (th : Thread) : (writeF r v th).noPeek = th.noPeek := rfl
@[simp] theorem writeF_tmo (r : BitVec 5) (v : FReg) (th : Thread) : (writeF r v th).tmo = th.tmo := rfl
@[simp] theorem writeF_logEn (r : BitVec 5) (v : FReg) (th : Thread) : (writeF r v th).logEn = th.logEn := rfl
@[simp] theorem writeF_logSize (r : BitVec 5) (v : FReg) (th : Thread) : (writeF r v th).logSize = th.logSize := rfl
@[simp] theorem writeF_logBase (r : BitVec 5) (v : FReg) (th : Thread) : (writeF r v th).logBase = th.logBase := rfl
@[simp] theorem writeF_logHead (r : BitVec 5) (v : FReg) (th : Thread) : (writeF r v th).logHead = th.logHead := rfl
@[simp] theorem writeF_logTail (r : BitVec 5) (v : FReg) (th : Thread) : (writeF r v th).logTail = th.logTail := rfl
@[simp] theorem writeF_logFirst (r : BitVec 5) (v : FReg) (th : Thread) : (writeF r v th).logFirst = th.logFirst := rfl
@[simp] theorem writeF_lostPending (r : BitVec 5) (v : FReg) (th : Thread) : (writeF r v th).lostPending = th.lostPending := rfl
@[simp] theorem writeF_dropped (r : BitVec 5) (v : FReg) (th : Thread) : (writeF r v th).dropped = th.dropped := rfl
@[simp] theorem writeF_loadLost (r : BitVec 5) (v : FReg) (th : Thread) : (writeF r v th).loadLost = th.loadLost := rfl
@[simp] theorem writeF_logFail (r : BitVec 5) (v : FReg) (th : Thread) : (writeF r v th).logFail = th.logFail := rfl
@[simp] theorem writeF_ev (r : BitVec 5) (v : FReg) (th : Thread) : (writeF r v th).ev = th.ev := rfl
@[simp] theorem writeF_pmu (r : BitVec 5) (v : FReg) (th : Thread) : (writeF r v th).pmu = th.pmu := rfl
@[simp] theorem writeF_run (r : BitVec 5) (v : FReg) (th : Thread) : (writeF r v th).run = th.run := rfl
@[simp] theorem writeF_parked (r : BitVec 5) (v : FReg) (th : Thread) : (writeF r v th).parked = th.parked := rfl
@[simp] theorem writeF_soloParked (r : BitVec 5) (v : FReg) (th : Thread) : (writeF r v th).soloParked = th.soloParked := rfl
@[simp] theorem writeF_soloLater (r : BitVec 5) (v : FReg) (th : Thread) : (writeF r v th).soloLater = th.soloLater := rfl
@[simp] theorem writeF_fbuf (r : BitVec 5) (v : FReg) (th : Thread) : (writeF r v th).fbuf = th.fbuf := rfl
@[simp] theorem writeF_waitFetch (r : BitVec 5) (v : FReg) (th : Thread) : (writeF r v th).waitFetch = th.waitFetch := rfl
@[simp] theorem writeF_held (r : BitVec 5) (v : FReg) (th : Thread) : (writeF r v th).held = th.held := rfl
@[simp] theorem writeF_waitRoom (r : BitVec 5) (v : FReg) (th : Thread) : (writeF r v th).waitRoom = th.waitRoom := rfl
@[simp] theorem writeF_evs (r : BitVec 5) (v : FReg) (th : Thread) : (writeF r v th).evs = th.evs := rfl
@[simp] theorem writeF_nextSeq (r : BitVec 5) (v : FReg) (th : Thread) : (writeF r v th).nextSeq = th.nextSeq := rfl
@[simp] theorem writeF_unconf (r : BitVec 5) (v : FReg) (th : Thread) : (writeF r v th).unconf = th.unconf := rfl
@[simp] theorem writeF_rstack (r : BitVec 5) (v : FReg) (th : Thread) : (writeF r v th).rstack = th.rstack := rfl
@[simp] theorem writeF_mdp (r : BitVec 5) (v : FReg) (th : Thread) : (writeF r v th).mdp = th.mdp := rfl
@[simp] theorem writeF_redo (r : BitVec 5) (v : FReg) (th : Thread) : (writeF r v th).redo = th.redo := rfl
@[simp] theorem writeF_stores (r : BitVec 5) (v : FReg) (th : Thread) : (writeF r v th).stores = th.stores := rfl
@[simp] theorem writeF_outst (r : BitVec 5) (v : FReg) (th : Thread) : (writeF r v th).outst = th.outst := rfl
@[simp] theorem writeF_resv (r : BitVec 5) (v : FReg) (th : Thread) : (writeF r v th).resv = th.resv := rfl

/-! ## emit -/

@[simp] theorem emit_pending (o : Out) : (emit o s).pending = s.pending := by cases o <;> rfl
@[simp] theorem emit_time (o : Out) : (emit o s).time = s.time := by cases o <;> rfl
@[simp] theorem emit_pw (o : Out) : (emit o s).pw = s.pw := by cases o <;> rfl
@[simp] theorem emit_thr (o : Out) : (emit o s).thr = s.thr := by cases o <;> rfl
@[simp] theorem emit_core (o : Out) : (emit o s).core = s.core := by cases o <;> rfl
@[simp] theorem emit_bay (o : Out) : (emit o s).bay = s.bay := by cases o <;> rfl
@[simp] theorem emit_slice (o : Out) : (emit o s).slice = s.slice := by cases o <;> rfl
@[simp] theorem emit_srcs (o : Out) : (emit o s).srcs = s.srcs := by cases o <;> rfl
@[simp] theorem emit_eng (o : Out) : (emit o s).eng = s.eng := by cases o <;> rfl
@[simp] theorem emit_cluster (o : Out) : (emit o s).cluster = s.cluster := by cases o <;> rfl
@[simp] theorem emit_part (o : Out) : (emit o s).part = s.part := by cases o <;> rfl
@[simp] theorem emit_stale (o : Out) : (emit o s).stale = s.stale := by cases o <;> rfl
@[simp] theorem emit_downDrop (o : Out) : (emit o s).downDrop = s.downDrop := by cases o <;> rfl
@[simp] theorem emit_stray (o : Out) : (emit o s).stray = s.stray := by cases o <;> rfl
@[simp] theorem emit_net (o : Out) : (emit o s).net = s.net := by cases o <;> rfl
@[simp] theorem emit_ereqs (o : Out) : (emit o s).ereqs = s.ereqs := by cases o <;> rfl
@[simp] theorem emit_mem (o : Out) : (emit o s).mem = s.mem := by cases o <;> rfl
@[simp] theorem emit_old (o : Out) : (emit o s).old = s.old := by cases o <;> rfl
@[simp] theorem emit_poison (o : Out) : (emit o s).poison = s.poison := by cases o <;> rfl
@[simp] theorem emit_queue (o : Out) : (emit o s).queue = s.queue := by cases o <;> rfl
@[simp] theorem emit_led (o : Out) : (emit o s).led = s.led := by cases o <;> rfl
@[simp] theorem emit_dimms (o : Out) : (emit o s).dimms = s.dimms := by cases o <;> rfl
@[simp] theorem emit_chan (o : Out) : (emit o s).chan = s.chan := by cases o <;> rfl
@[simp] theorem emit_region (o : Out) : (emit o s).region = s.region := by cases o <;> rfl
@[simp] theorem emit_ep (o : Out) : (emit o s).ep = s.ep := by cases o <;> rfl
@[simp] theorem emit_inst (o : Out) : (emit o s).inst = s.inst := by cases o <;> rfl
@[simp] theorem emit_ridge (o : Out) : (emit o s).ridge = s.ridge := by cases o <;> rfl
@[simp] theorem emit_wr (o : Out) : (emit o s).wr = s.wr := by cases o <;> rfl
@[simp] theorem emit_xing (o : Out) : (emit o s).xing = s.xing := by cases o <;> rfl
@[simp] theorem emit_fresh (o : Out) : (emit o s).fresh = s.fresh := by cases o <;> rfl
@[simp] theorem emit_out (o : Out) : (emit o s).out = o :: s.out := by cases o <;> rfl
@[simp] theorem thr_emit (o : Out) (y : Thr) : thr (emit o s) y = thr s y := by cases o <;> rfl
@[simp] theorem core_emit (o : Out) (y : Nat) : core (emit o s) y = core s y := by cases o <;> rfl
@[simp] theorem bay_emit (o : Out) (y : Nat) : bay (emit o s) y = bay s y := by cases o <;> rfl
@[simp] theorem slice_emit (o : Out) (y : Nat) : slice (emit o s) y = slice s y := by cases o <;> rfl
@[simp] theorem srcEnt_emit (o : Out) (y : Src) : srcEnt (emit o s) y = srcEnt s y := by cases o <;> rfl
@[simp] theorem engine_emit (o : Out) (y : Nat) : engine (emit o s) y = engine s y := by cases o <;> rfl
@[simp] theorem cluster_emit (o : Out) (y : Nat) : cluster (emit o s) y = cluster s y := by cases o <;> rfl
@[simp] theorem part_emit (o : Out) (y : Nat) : part (emit o s) y = part s y := by cases o <;> rfl
@[simp] theorem queue_emit (o : Out) (y : Nat) : queue (emit o s) y = queue s y := by cases o <;> rfl
@[simp] theorem entry_emit (o : Out) (y : Nat) : entry (emit o s) y = entry s y := by cases o <;> rfl
@[simp] theorem chan_emit (o : Out) (y : Nat) : chan (emit o s) y = chan s y := by cases o <;> rfl
@[simp] theorem region_emit (o : Out) (y : Nat) : region (emit o s) y = region s y := by cases o <;> rfl
@[simp] theorem inst_emit (o : Out) (y : Nat) : inst (emit o s) y = inst s y := by cases o <;> rfl
@[simp] theorem port_emit (o : Out) (y : Nat) : port (emit o s) y = port s y := by cases o <;> rfl
@[simp] theorem rail_emit (o : Out) (y : Nat) : rail (emit o s) y = rail s y := by cases o <;> rfl
@[simp] theorem die_emit (o : Out) (y : Nat) : die (emit o s) y = die s y := by cases o <;> rfl
@[simp] theorem box_emit (o : Out) (y : Mbox) : box (emit o s) y = box s y := by cases o <;> rfl
@[simp] theorem crossingOf_emit (o : Out) (y : Clk) : crossingOf (emit o s) y = crossingOf s y := by cases o <;> rfl
@[simp] theorem readByte_emit (o : Out) (y : Nat) : readByte (emit o s) y = readByte s y := by cases o <;> rfl
@[simp] theorem isPoisoned_emit (o : Out) (y : BitVec 42) : isPoisoned (emit o s) y = isPoisoned s y := by cases o <;> rfl
@[simp] theorem isDirty_emit (o : Out) (y : BitVec 42) : isDirty (emit o s) y = isDirty s y := by cases o <;> rfl
@[simp] theorem lineData_emit (o : Out) (y : BitVec 42) : lineData (emit o s) y = lineData s y := by cases o <;> rfl
@[simp] theorem partOfBay_emit (o : Out) (y : Nat) : partOfBay (emit o s) y = partOfBay s y := by cases o <;> rfl
@[simp] theorem partOfEngine_emit (o : Out) (y : Nat) : partOfEngine (emit o s) y = partOfEngine s y := by cases o <;> rfl
@[simp] theorem partOf_emit (o : Out) (y : Thr) : partOf (emit o s) y = partOf s y := by cases o <;> rfl
@[simp] theorem partOfSrc_emit (o : Out) (y : Src) : partOfSrc (emit o s) y = partOfSrc s y := by cases o <;> rfl

/-! ## Registers of a thread (R70) -/

/-- g0 reads 0 with a clear tag, whatever was written. -/
@[simp] theorem readG_zero (th : Thread) : readG th 0 = PReg.zero := rfl

/-- What a general register reads after a write: the value written, but for g0. -/
theorem readG_writeG (th : Thread) (r q : BitVec 5) (v : PReg) :
    readG (writeG r v th) q = if q = r ∧ r ≠ 0 then v else readG th q := by
  by_cases hr : r = 0
  · have hw : writeG r v th = th := if_pos hr
    rw [hw, if_neg (fun h => h.2 hr)]
  · have hg : (writeG r v th).g = put PReg.zero th.g r.toNat v := by unfold writeG; rw [if_neg hr]
    by_cases hqr : q = r
    · subst hqr
      rw [if_pos ⟨rfl, hr⟩]
      unfold readG
      rw [if_neg hr, hg, look_put_self]
    · rw [if_neg (fun h => hqr h.1)]
      have hne : q.toNat ≠ r.toNat := fun e => hqr (BitVec.eq_of_toNat_eq e)
      unfold readG
      rw [hg, look_put_other _ _ _ hne]

/-- What a floating-point register reads after a write. -/
theorem readF_writeF (th : Thread) (r q : BitVec 5) (v : FReg) :
    readF (writeF r v th) q = if q = r then v else readF th q := by
  unfold readF writeF
  by_cases hqr : q = r
  · simp [hqr]
  · have : q.toNat ≠ r.toNat := fun e => hqr (BitVec.eq_of_toNat_eq e)
    simp [hqr, this]

end Sys2Proof.Machine
end

