-- ==== Sys2Proof/Laws/Memory.lean ====
section
/-! SUPPORT. Laws of memory: what a byte reads after a write, that every operation on memory keeps the canonical form of
memory, of the poisoned lines and of the stale DRAM lines, and that the shared operations beside memory leave it alone. -/
namespace Sys2Proof.Machine

variable {s u v : State}

/-! ## Bytes -/

theorem look_writeList (l : List Byte) (a x : Nat) (m : Mem) :
    look 0 (writeList a l m) x = if a ≤ x ∧ x < a + l.length then l.getD (x - a) 0 else look 0 m x := by
  induction l generalizing a m with
  | nil =>
    have : ¬ (a ≤ x ∧ x < a + ([] : List Byte).length) := by simp
    rw [if_neg this]; rfl
  | cons b t ih =>
    simp only [writeList, ih, look_put, List.length_cons]
    by_cases h0 : x = a
    · subst h0
      rw [if_neg (by omega), if_pos rfl, if_pos (by omega)]
      simp
    · by_cases h1 : a + 1 ≤ x ∧ x < a + 1 + t.length
      · obtain ⟨k, rfl⟩ : ∃ k, x = a + 1 + k := ⟨x - (a + 1), by omega⟩
        rw [if_pos h1, if_pos (by omega)]
        have e1 : a + 1 + k - (a + 1) = k := by omega
        have e2 : a + 1 + k - a = k + 1 := by omega
        rw [e1, e2]; simp
      · rw [if_neg h1, if_neg h0, if_neg (by omega)]

/-- What a byte reads after bytes have been written. -/
theorem readByte_writeBytes (a : Nat) (l : List Byte) (x : Nat) :
    readByte (writeBytes a l s) x = if a ≤ x ∧ x < a + l.length then l.getD (x - a) 0 else readByte s x :=
  look_writeList l a x s.mem

/-- A write leaves every byte outside it alone. -/
theorem memKept_writeBytes (a : Nat) (l : List Byte) : MemKept a l.length s (writeBytes a l s) :=
  fun x hx => by rw [readByte_writeBytes, if_neg hx]

theorem memKept_refl (a n : Nat) : MemKept a n s s := fun _ _ => rfl

theorem memKept_trans {a n : Nat} (h : MemKept a n s u) (k : MemKept a n u v) : MemKept a n s v :=
  fun x hx => (k x hx).trans (h x hx)

/-! ## The canonical form -/

theorem wf_writeList (l : List Byte) (a : Nat) (m : Mem) (h : Memory.wf m = true) : Memory.wf (writeList a l m) = true := by
  induction l generalizing a m with
  | nil => exact h
  | cons b t ih => exact ih (a + 1) _ (canonical_put 0 m a b h)

theorem wf_filter (p : Nat × Byte → Bool) (m : Mem) (h : Memory.wf m = true) : Memory.wf (m.filter p) = true :=
  canonical_filter 0 p m h

/-- Memories in the canonical form that read the same at every address are equal data. -/
theorem mem_ext (m n : Mem) (hm : Memory.wf m = true) (hn : Memory.wf n = true) (h : ∀ a, look 0 m a = look 0 n a) : m = n :=
  canonical_ext 0 m n hm hn h

theorem memOk_writeBytes (a : Nat) (l : List Byte) (h : s.memOk) : (writeBytes a l s).memOk :=
  ⟨wf_writeList l a s.mem h.1, h.2⟩

theorem memOk_writeLineData (l : BitVec 42) (d : BitVec 512) (h : s.memOk) : (writeLineData l d s).memOk :=
  memOk_writeBytes _ _ h

theorem memOk_setPoison (l : BitVec 42) (b : Bool) (h : s.memOk) : (setPoison l b s).memOk := by
  refine ⟨h.1, h.2.1, ?_⟩
  cases b
  · exact pairwise_removeRising _ _ h.2.2
  · exact pairwise_insertRising _ _ h.2.2

/-- Recording or forgetting what DRAM holds of a dirty line. -/
theorem memOk_old (k : Nat) (o : Option (BitVec 512 × Bool)) (h : s.memOk) :
    ({ s with old := put none s.old k o } : State).memOk := ⟨h.1, canonical_put none s.old k o h.2.1, h.2.2⟩

theorem memOk_dirtyLine (l : BitVec 42) (h : s.memOk) : (dirtyLine l s).memOk := by
  unfold dirtyLine
  split
  · exact memOk_old _ _ h
  · exact h

theorem memOk_cleanLine (l : BitVec 42) (h : s.memOk) : (cleanLine l s).memOk := memOk_old _ _ h

theorem memOk_discardLine (l : BitVec 42) (h : s.memOk) : (discardLine l s).memOk := by
  unfold discardLine
  split
  · exact h
  · have h1 := memOk_setPoison l (by assumption) (memOk_writeLineData l (by assumption) h)
    exact ⟨h1.1, canonical_put none s.old l.toNat none h.2.1, h1.2.2⟩

theorem memOk_clearArea (lo hi : Nat) (h : s.memOk) : (clearArea lo hi s).memOk :=
  ⟨wf_filter _ _ h.1, h.2.1, h.2.2.filter _⟩

theorem memOk_reset : State.reset.memOk := ⟨rfl, rfl, List.Pairwise.nil⟩

/-! ## What leaves memory and the queue alone -/

/-- Memory, the stale DRAM lines, the poisoned lines and the queue of commands are the same in both states. -/
structure SameMem (s u : State) : Prop where
  mem : u.mem = s.mem
  old : u.old = s.old
  poison : u.poison = s.poison
  pending : u.pending = s.pending

theorem SameMem.refl (s : State) : SameMem s s := ⟨rfl, rfl, rfl, rfl⟩

theorem SameMem.trans (h : SameMem s u) (k : SameMem u v) : SameMem s v :=
  ⟨k.mem.trans h.mem, k.old.trans h.old, k.poison.trans h.poison, k.pending.trans h.pending⟩

theorem SameMem.memOk (h : SameMem s u) (k : s.memOk) : u.memOk := by
  refine ⟨?_, ?_, ?_⟩
  · rw [h.mem]; exact k.1
  · rw [h.old]; exact k.2.1
  · rw [h.poison]; exact k.2.2

theorem SameMem.readByte (h : SameMem s u) (a : Nat) : readByte u a = readByte s a := by
  unfold Sys2Proof.Machine.readByte; rw [h.mem]

theorem SameMem.forEach {α : Type} (l : List α) (f : α → State → State) (h : ∀ a ∈ l, ∀ x, SameMem x (f a x)) :
    SameMem s (Machine.forEach l f s) :=
  forEach_keeps (SameMem s) f l s (SameMem.refl s) (fun a ha x hx => hx.trans (h a ha x))

theorem sameMem_updWr (f : Wright → Wright) : SameMem s (updWr f s) := ⟨rfl, rfl, rfl, rfl⟩

theorem sameMem_logEntry (t : BitVec 16) (a b : Word) : SameMem s (logEntry t a b s) := sameMem_updWr _

theorem sameMem_wrightEvent (t : BitVec 16) (a b : Word) : SameMem s (wrightEvent t a b s) := by
  unfold wrightEvent
  split
  · split
    · exact (sameMem_updWr _).trans (sameMem_logEntry _ _ _)
    · exact sameMem_updWr _
  · exact sameMem_logEntry _ _ _

theorem sameMem_emit (o : Out) : SameMem s (emit o s) := ⟨by simp, by simp, by simp, by simp⟩

theorem sameMem_emitFlit (x : Port) (f : SentFlit) : SameMem s (emitFlit x f s) := by
  unfold emitFlit
  split
  · exact ⟨rfl, rfl, rfl, rfl⟩
  · refine SameMem.trans ?_ (sameMem_emit _)
    exact ⟨rfl, rfl, rfl, rfl⟩

theorem sameMem_sendIdle (x : Port) : SameMem s (sendIdle x s) := by
  unfold sendIdle
  split
  · exact sameMem_emitFlit x _
  · exact SameMem.refl s

theorem sameMem_freeBuffer (w : Option (Port × BitVec 4)) (n : Nat) : SameMem s (freeBuffer w n s) := by
  unfold freeBuffer
  split
  · exact SameMem.refl s
  · refine SameMem.trans ?_ (sameMem_sendIdle _)
    exact ⟨rfl, rfl, rfl, rfl⟩

theorem sameMem_countBytes (n k : Nat) : SameMem s (countBytes n k s) := ⟨rfl, rfl, rfl, rfl⟩

theorem sameMem_sendOne (x : Port) (vc : BitVec 4) (b : FlitBody) : SameMem s (sendOne x vc b s) := by
  unfold sendOne
  refine SameMem.trans ?_ (sameMem_emitFlit x _)
  exact ⟨rfl, rfl, rfl, rfl⟩

theorem sameMem_sendSequenced (x : Port) (vc : BitVec 4) (b : FlitBody) : SameMem s (sendSequenced x vc b s) := by
  unfold sendSequenced
  refine SameMem.trans (u := if isMsg b then countBytes (3 + 2 * portIx x) (72 * flitsOf b) s else s) ?_
    (SameMem.forEach _ _ (fun _ _ _ => sameMem_sendOne x vc _))
  split
  · exact sameMem_countBytes _ _
  · exact SameMem.refl s

theorem sameMem_pumpSlots (x : Port) (n : Nat) (s : State) : SameMem s (pumpSlots x n s) := by
  induction n generalizing s with
  | zero => exact SameMem.refl s
  | succ n ih =>
    unfold pumpSlots
    split
    · exact SameMem.refl s
    · refine SameMem.trans ?_ (ih _)
      refine SameMem.trans ?_ (sameMem_freeBuffer _ _)
      refine SameMem.trans ?_ (sameMem_sendSequenced _ _ _)
      exact ⟨rfl, rfl, rfl, rfl⟩

theorem sameMem_portSend (x : Port) (vc : BitVec 4) (b : FlitBody) (w : Option (Port × BitVec 4)) :
    SameMem s (portSend x vc b w s) := by
  unfold portSend pumpPort
  split
  · exact ⟨rfl, rfl, rfl, rfl⟩
  · refine SameMem.trans ?_ (sameMem_pumpSlots x _ _)
    exact ⟨rfl, rfl, rfl, rfl⟩

/-- A request that goes, or waits for one before it, leaves memory alone. -/
theorem sameMem_sendReq {cls : BitVec 2} {b : FlitBody} {q : RReq} (h : sendReq cls b q s = some u) : SameMem s u := by
  unfold sendReq at h
  split at h
  · split at h
    · cases h
    · cases h
      split
      · exact ⟨rfl, rfl, rfl, rfl⟩
      · refine SameMem.trans ?_ (sameMem_portSend _ _ _ _)
        exact ⟨rfl, rfl, rfl, rfl⟩
  · cases h

/-- Signalling a vector, here or through another head, leaves memory alone. -/
theorem sameMem_sendMsi (n : Nat) (b : Bool) : SameMem s (sendMsi n b s) := by
  have pend : SameMem s (pendMsi n b s) := ⟨rfl, rfl, rfl, rfl⟩
  unfold sendMsi
  split
  · unfold msiHere
    dsimp only
    split
    · exact SameMem.refl s
    · split
      · exact pend
      · exact sameMem_emit _
  · unfold msiThere
    dsimp only
    split
    · exact pend
    · split
      · next h =>
        refine SameMem.trans ?_ (sameMem_sendReq h)
        exact ⟨rfl, rfl, rfl, rfl⟩
      · exact pend
  · exact pend

theorem sameMem_flushMsi : SameMem s (flushMsi s) := by
  unfold flushMsi
  split
  · exact SameMem.refl s
  · refine SameMem.forEach _ _ (fun e _ x => ?_)
    dsimp only
    split
    · exact SameMem.refl x
    · refine SameMem.trans ?_ (sameMem_sendMsi _ _)
      exact ⟨rfl, rfl, rfl, rfl⟩

theorem sameMem_noticeMsg : SameMem s (noticeMsg s) := by
  unfold noticeMsg
  split
  · exact sameMem_sendMsi _ _
  · exact SameMem.refl s

theorem sameMem_notifyReady : SameMem s (notifyReady s) := by
  unfold notifyReady
  split
  · exact SameMem.refl s
  · refine SameMem.trans ?_ sameMem_noticeMsg
    exact ⟨rfl, rfl, rfl, rfl⟩

theorem sameMem_notifyMode : SameMem s (notifyMode s) := by
  unfold notifyMode
  split
  · exact SameMem.refl s
  · refine SameMem.trans ?_ sameMem_noticeMsg
    exact ⟨rfl, rfl, rfl, rfl⟩

theorem sameMem_notifyRing : SameMem s (notifyRing s) := by
  unfold notifyRing
  split
  · exact SameMem.refl s
  · refine SameMem.trans ?_ sameMem_noticeMsg
    exact ⟨rfl, rfl, rfl, rfl⟩

theorem sameMem_setReady (f : Ready → Ready) : SameMem s (setReady f s) := by
  unfold setReady
  dsimp only
  split
  · exact SameMem.refl s
  · refine SameMem.trans ?_ sameMem_notifyReady
    exact ⟨rfl, rfl, rfl, rfl⟩

theorem sameMem_placeEvent (t : Thr) (r : EvRec) : SameMem s (placeEvent t r s) := by
  unfold placeEvent
  repeat' split
  all_goals exact ⟨rfl, rfl, rfl, rfl⟩

theorem sameMem_acceptEvent (t : Thr) (r : EvRec) : SameMem s (acceptEvent t r s) := sameMem_placeEvent t _

theorem sameMem_partEvent (p : Nat) (source : BitVec 8) (index : BitVec 16) (w : Word) :
    SameMem s (partEvent p source index w s) := by
  unfold partEvent
  repeat' split
  all_goals first
    | exact SameMem.refl s
    | exact sameMem_acceptEvent _ _
    | exact ⟨rfl, rfl, rfl, rfl⟩

theorem sameMem_notice (p : Nat) (index : BitVec 16) (w : Word) : SameMem s (notice p index w s) := by
  unfold notice
  split
  · exact sameMem_partEvent p 7 index w
  · exact sameMem_wrightEvent _ _ _

theorem sameMem_noticeActive (index : BitVec 16) (w : Word) : SameMem s (noticeActive index w s) :=
  SameMem.forEach _ _ (fun p _ x => by
    split
    · exact sameMem_notice p index w
    · exact SameMem.refl x)

theorem sameMem_pmcWraps (t : Thr) (ws : List Nat) : SameMem s (pmcWraps t ws s) := by
  refine SameMem.forEach _ _ (fun n _ x => ?_)
  have h1 : ∀ b : Bool, SameMem x (if b then updThr t (fun y => { y with pmu := { y.pmu with freeze := true } }) x else x) := by
    intro b
    cases b
    · exact SameMem.refl x
    · exact ⟨rfl, rfl, rfl, rfl⟩
  dsimp only
  split
  · exact (h1 _).trans (sameMem_acceptEvent _ _)
  · exact h1 _

theorem sameMem_pmcCount (t : Thr) (code k : Nat) (level : Bool) (sel : Option Bool) :
    SameMem s (pmcCount t code k level sel s) :=
  SameMem.trans (u := setThr t _ s) ⟨rfl, rfl, rfl, rfl⟩ (sameMem_pmcWraps t _)

theorem sameMem_countEvent (t : Thr) (code : Nat) : SameMem s (countEvent t code s) := sameMem_pmcCount t code 1 false none

theorem sameMem_countMany (t : Thr) (code k : Nat) : SameMem s (countMany t code k s) := by
  unfold countMany
  split
  · exact SameMem.refl s
  · exact sameMem_pmcCount ..

theorem sameMem_countConfirmed (t : Thr) (code k : Nat) : SameMem s (countConfirmed t code k s) := by
  unfold countConfirmed
  split
  · exact SameMem.refl s
  · exact sameMem_pmcCount ..

theorem sameMem_loseResv (t : Thr) : SameMem s (loseResv t s) := ⟨rfl, rfl, rfl, rfl⟩

theorem sameMem_loseResvAt (t : Thr) (g : BitVec 41) : SameMem s (loseResvAt t g s) := ⟨rfl, rfl, rfl, rfl⟩

theorem sameMem_loseResvOn (who : Option Thr) (g : BitVec 41) : SameMem s (loseResvOn who g s) := by
  refine SameMem.forEach _ _ (fun e _ x => ?_)
  repeat' split
  all_goals first
    | exact SameMem.refl x
    | exact sameMem_loseResvAt _ _

theorem sameMem_dropCopies (l : BitVec 42) : SameMem s (dropCopies l s) := ⟨rfl, rfl, rfl, rfl⟩

/-! ## What keeps the form -/

/-- The form is kept and the queue is untouched: what `Obligations.MemoryFormKept` says of a step, of any operation. -/
structure FormKept (s u : State) : Prop where
  form : s.memOk → u.memOk
  pending : u.pending = s.pending

theorem FormKept.refl (s : State) : FormKept s s := ⟨id, rfl⟩

theorem FormKept.trans (h : FormKept s u) (k : FormKept u v) : FormKept s v :=
  ⟨fun x => k.form (h.form x), k.pending.trans h.pending⟩

theorem SameMem.formKept (h : SameMem s u) : FormKept s u := ⟨h.memOk, h.pending⟩

theorem FormKept.forEach {α : Type} (l : List α) (f : α → State → State) (h : ∀ a ∈ l, ∀ x, FormKept x (f a x)) :
    FormKept s (Machine.forEach l f s) :=
  forEach_keeps (FormKept s) f l s (FormKept.refl s) (fun a ha x hx => hx.trans (h a ha x))

theorem formKept_writeBytes (a : Nat) (l : List Byte) : FormKept s (writeBytes a l s) := ⟨memOk_writeBytes a l, rfl⟩

theorem formKept_writeLineData (l : BitVec 42) (d : BitVec 512) : FormKept s (writeLineData l d s) := formKept_writeBytes _ _

theorem formKept_setPoison (l : BitVec 42) (b : Bool) : FormKept s (setPoison l b s) := ⟨memOk_setPoison l b, rfl⟩

theorem formKept_dirtyLine (l : BitVec 42) : FormKept s (dirtyLine l s) :=
  ⟨memOk_dirtyLine l, by unfold dirtyLine; split <;> rfl⟩

theorem formKept_cleanLine (l : BitVec 42) : FormKept s (cleanLine l s) := ⟨memOk_cleanLine l, rfl⟩

theorem formKept_discardLine (l : BitVec 42) : FormKept s (discardLine l s) :=
  ⟨memOk_discardLine l, by unfold discardLine; split <;> rfl⟩

theorem formKept_clearArea (lo hi : Nat) : FormKept s (clearArea lo hi s) := ⟨memOk_clearArea lo hi, rfl⟩

theorem formKept_poisonLine (l : BitVec 42) (w : Word) : FormKept s (poisonLine l w s) := by
  unfold poisonLine
  split
  · exact FormKept.refl s
  · have h : FormKept s (wrightEvent 5 (at' (lineAddr l) 0) w (setPoison l true s)) :=
      (formKept_setPoison l true).trans (sameMem_wrightEvent _ _ _).formKept
    dsimp only
    split
    · exact h.trans (sameMem_partEvent _ _ _ _).formKept
    · exact h

/-- A store by any agent keeps the form. -/
theorem formKept_storeBytes (who : Option Thr) (pa : BitVec 48) (l : List Byte) (poison : Bool) :
    FormKept s (storeBytes who pa l poison s) := by
  have h : FormKept s (writeBytes pa.toNat l (dirtyLine (lineOf pa) s)) :=
    (formKept_dirtyLine _).trans (formKept_writeBytes _ _)
  unfold storeBytes
  dsimp only
  refine FormKept.trans ?_ (sameMem_loseResvOn _ _).formKept
  split
  · exact h.trans (formKept_poisonLine _ _)
  · split
    · exact h.trans (formKept_setPoison _ _)
    · exact h

/-- A write by a hub agent keeps the form. -/
theorem formKept_hubWrite (pa : BitVec 48) (l : List Byte) (poison : Bool) : FormKept s (hubWrite pa l poison s) := by
  refine FormKept.forEach _ _ (fun pc _ x => ?_)
  dsimp only
  split
  · exact (sameMem_dropCopies _).formKept.trans (formKept_storeBytes _ _ _ _)
  · exact formKept_storeBytes _ _ _ _

/-! ## Frames -/

theorem Piece.same_refl (p : Piece) (s : State) : p.same s s := by
  cases p <;> simp [Piece.same]

theorem Piece.same_trans {p : Piece} (h : p.same s u) (k : p.same u v) : p.same s v := by
  cases p <;> simp_all [Piece.same]

theorem keeps_refl (l : List Piece) (s : State) : Keeps l s s := fun p _ => p.same_refl s

theorem keeps_trans {l : List Piece} (h : Keeps l s u) (k : Keeps l u v) : Keeps l s v :=
  fun p hp => Piece.same_trans (h p hp) (k p hp)

/-- A frame that lets more change is weaker. -/
theorem keeps_mono {l k : List Piece} (hl : ∀ p ∈ l, p ∈ k) (h : Keeps l s u) : Keeps k s u :=
  fun p hp => h p (fun hm => hp (hl p hm))

theorem keeps_updThr (t : Thr) (f : Thread → Thread) : Keeps [.thr] s (updThr t f s) := by
  intro p hp; cases p <;> simp_all [Piece.same]

theorem keeps_updPw (f : Power → Power) : Keeps [.pw, .wake] s (updPw f s) := by
  intro p hp; cases p <;> simp_all [Piece.same]

theorem keeps_updWr (f : Wright → Wright) : Keeps [.wr, .log] s (updWr f s) := by
  intro p hp; cases p <;> simp_all [Piece.same]

theorem keeps_writeBytes (a : Nat) (l : List Byte) : Keeps [.mem] s (writeBytes a l s) := by
  intro p hp; cases p <;> simp_all [Piece.same]

/-- A change of nothing but the error log. -/
theorem keeps_updWr_log (f : Wright → Wright) (h : ∀ w, (f w).noLog = w.noLog) : Keeps [.log] s (updWr f s) := by
  intro p hp; cases p <;> simp_all [Piece.same]

theorem noLog_log (w : Wright) (l : List LogE) (n : BitVec 32) : ({ w with log := l, logNext := n } : Wright).noLog = w.noLog := rfl

theorem keeps_logEntry (t : BitVec 16) (a b : Word) : Keeps [.log] s (logEntry t a b s) :=
  keeps_updWr_log _ (fun w => noLog_log w _ _)

theorem keeps_wrightEvent (t : BitVec 16) (a b : Word) : Keeps [.log] s (wrightEvent t a b s) := by
  unfold wrightEvent
  split
  · split
    · refine keeps_trans ?_ (keeps_logEntry t a b)
      exact keeps_updWr_log _ (fun _ => rfl)
    · exact keeps_updWr_log _ (fun _ => rfl)
  · exact keeps_logEntry t a b

/-! ## The step -/

/-- An idle step changes nothing. -/
theorem step_idle (h : s.pending = []) : step s = .next s := by unfold step; rw [h]

/-- A step runs the command at the front of the queue with the queue's rest. -/
theorem step_front {c : Instr} {rest : List Instr} (h : s.pending = c :: rest) :
    step s = exec c { s with pending := rest } := by unfold step; rw [h]

/-- Every command of a step comes from the front of the queue, so what every command keeps the step keeps. -/
theorem step_cases (h : step s = .next u) :
    u = s ∨ ∃ c rest, s.pending = c :: rest ∧ exec c { s with pending := rest } = .next u := by
  cases hp : s.pending with
  | nil => rw [step_idle hp] at h; cases h; exact .inl rfl
  | cons c rest => exact .inr ⟨c, rest, rfl, by rw [← step_front hp]; exact h⟩

end Sys2Proof.Machine
end

