-- ==== Sys2Proof/Machine/Words.lean ====
section
/-! DEFINITION. An instruction word as a thread executes it (R79 to R81). -/
namespace Sys2Proof.Machine

/-- A word whose opcode or minor code is reserved raises ILLEGAL (R80). -/
def reservedWord (t : Thr) (w : BitVec 32) (s : State) : Result :=
  .next (runInstr t (plainCheck w false) (fun _ s => .done s) s)

/-- A thread executes the word fetched at its PC: the row it spells, or ILLEGAL. -/
def execWord (t : Thr) (w : BitVec 32) (s : State) : Result :=
  match decodeWord t w with
  | some i => exec i s
  | none => reservedWord t w s

end Sys2Proof.Machine
end

