-- ==== Sys2Proof/Tests/Slice0.lean ====
section
/-! SUPPORT. Tests of single operations, with results worked out from the spec's tables and examples, and for each statement
a state and operands that meet its hypotheses. -/
namespace Sys2Proof.Tests
open Sys2Proof.Machine
set_option Elab.async false

/-! ## Small states -/

/-- A core thread at M with its program in the lowest range and its next instructions fetched. -/
def th0 : Thread := { Thread.reset with
  run := .running, pc := 0x1000
  fbuf := [⟨0x1000, none⟩, ⟨0x1004, none⟩, ⟨0x1008, none⟩]
  g := [(3, ⟨3, false⟩), (5, ⟨7, false⟩), (7, ⟨1, true⟩), (10, ⟨0x9999999999990250, false⟩), (11, ⟨0xA00, false⟩),
    (12, ⟨0x3000, false⟩), (13, ⟨0x4999999999999999, false⟩)] }

/-- An engine's thread, with its program in the engine's own scratch. -/
def thE : Thread := { Thread.reset with
  run := .running, pc := 0xFFFFF00004000000
  g := [(3, ⟨3, false⟩), (7, ⟨1, true⟩), (11, ⟨0xA00, false⟩), (12, ⟨0xFFFFF00004003000, false⟩)] }

def open0 : SrcEnt := ⟨0, true, 0⟩

/-- A serving device: partition 0 is ACTIVE with bays 0 and 1, engine 0 and the range from 0; channel 0 serves 32 GiB; core
thread 0 and engine thread 0 run; at their PCs stand ADDI rows. -/
def live : State := { State.reset with
  time := { TimeBase.reset with now := 5000000000 }
  pw := { Power.reset with pwrgood := true, inReset := false, mode := 3 }
  mem := [(0x1003, 0x20), (0x1007, 0x20), (0x100B, 0x20), (0xF00004000003, 0x20)]
  thr := [(0, th0), (1024, thE)]
  srcs := [(0, open0), (256, open0), (512, open0), (513, open0)]
  part := [(0, { Part.reset with st := .active, bays := 3, engines := 1, ranges := [0], started := true })]
  chan := [(0, { Chan.reset with st := 2, powered := true })]
  region := [(0, ⟨true, false, 0, 32, 1, 1⟩)]
  dimms := [(0, ⟨some ⟨.rdimm, true, 4, 8, 2, 1, 4⟩, none⟩)]
  wr := { Wright.reset with st := .serving } }

/-- `live` with threads 0 changed. -/
def onBoth (f : Thread → Thread) (s : State) : State := updThr (.adze 0) f (updThr (.core 0) f s)

def atU : State := onBoth (fun th => { th with tstat := { th.tstat with priv := .U } }) live
def atKpriv : State := onBoth (fun th => { th with tstat := { th.tstat with priv := .K } }) live

/-! ## Well-formedness: an ill-formed command for each check -/

def msg0 : CMsg :=
  { src := .engine 0, gen := 0, site := 0, dst := .home 0, coll := .engine 0, line := 0xC0, excl := false, count := 0
    data := 0, poison := false, mask := 0, dgen := 0, tag := 0, nt := false }

theorem test_wf_hatm_src : Instr.wf (.hatm { msg0 with src := .engine 1 } 0 .faa 0x3000 true 0 0 .clean) = false := by decide +kernel
theorem test_wf_hatm_line : Instr.wf (.hatm msg0 0 .faa 0x4000 true 0 0 .clean) = false := by decide +kernel
theorem test_wf_salvage : Instr.wf (.partitionSalvage 0 [5, 5] []) = false := by decide +kernel
theorem test_wf_completion : Instr.wf (.readCompletion 0 .ok (List.replicate 4097 0)) = false := by decide +kernel
theorem test_wf_window : Instr.wf (.windowWrite 0 0x3FFFFFF [0, 0] false) = false := by decide +kernel
theorem test_wf_window_empty : Instr.wf (.windowWrite 0 0 [] false) = false := by decide +kernel
theorem test_wf_window_read : Instr.wf (.windowRead 0 0x3FFFFFF 2 false) = false := by decide +kernel
theorem test_wf_window_read_empty : Instr.wf (.windowRead 0 0 0 false) = false := by decide +kernel
theorem test_wf_page : Instr.wf (.mailboxPageWrite (.host 0) (.core 0) 0xFFF [0, 0] false) = false := by decide +kernel
theorem test_wf_smbus_offset : Instr.wf (.smbusSetOffset (List.replicate 256 0) true) = false := by decide +kernel
theorem test_wf_smbus_read : Instr.wf (.smbusBlockRead 256 true) = false := by decide +kernel
theorem test_wf_smbus_write : Instr.wf (.smbusBlockWrite (List.replicate 256 0) true) = false := by decide +kernel
theorem test_wf_i3c_write : Instr.wf (.i3cPrivateWrite (List.replicate 257 0)) = false := by decide +kernel
theorem test_wf_i3c_read : Instr.wf (.i3cPrivateRead 65536) = false := by decide +kernel
theorem test_wf_register : Instr.wf (.registerWrite .host 4 3 0) = false := by decide +kernel
theorem test_wf_self_test : Instr.wf (.selfTestDone 0 [(1, 2), (1, 2)] 0 0) = false := by decide +kernel

end Sys2Proof.Tests

namespace Sys2Proof.Tests
open Sys2Proof.Machine
set_option Elab.async false

theorem test_wf_ridge_message :
    Instr.wf (.wWr ⟨⟨.W, 0, 0, 0, 0, 0⟩, 0, 0, 0, false, 0, 0, List.replicate 65 0, .whole⟩) = false := by decide +kernel

/-! ## The spec's worked examples and tables -/

/-- The state after a command; tests name commands that answer one. -/
def after (r : Host.Outcome State Fault Refusal) : State := match r with | .next u => u | _ => State.reset

/-- A thread with three registers and XFLAGS given. -/
def decT (a b : Word) : State :=
  updThr (.core 0) (fun th => writeG 4 ⟨a, false⟩ (writeG 5 ⟨b, false⟩ th)) live

/-- gd = g3 and DOV after a command of core thread 0. -/
def g3 (c : Instr) (s : State) : Word × Bool :=
  let th := thr (after (exec c s)) (.core 0)
  ((readG th 3).val, th.dov)

-- R86 to R89, the table of the worked example after R89
theorem test_dadd : g3 (.dadd (.core 0) ⟨3, 4, 5⟩) (decT 0x0000000123456789 0x0000000076543211)
    = (0x0000000200000000, false) := by decide +kernel
theorem test_dsub_negative : g3 (.dsub (.core 0) ⟨3, 4, 5⟩) (decT 0x250 0x1000) = (0x9999999999999250, false) := by decide +kernel
theorem test_dmulk_negative : g3 (.dmulk (.core 0) ⟨3, 4, 3⟩) (decT 0x9999999999999250 0) = (0x9999999999997750, false) := by
  decide +kernel
theorem test_dcvtBd : g3 (.dcvtBd (.core 0) ⟨3, 4, 0⟩) (decT 0xFFFFFFFFFFFFFFFF 0) = (0x9999999999999999, false) := by decide +kernel
theorem test_dadd_overflow : g3 (.dadd (.core 0) ⟨3, 4, 5⟩) (decT 0x4999999999999999 1) = (0x5000000000000000, true) := by
  decide +kernel
theorem test_dmulk_wraps : g3 (.dmulk (.core 0) ⟨3, 4, 1000⟩) (decT 0x0010000000000000 0) = (0, true) := by decide +kernel
theorem test_dsub_bad_digit : (thr (after (exec (.dsub (.core 0) ⟨3, 4, 5⟩) (decT 0xA5 1))) (.core 0)).xm.code = 9 := by
  decide +kernel
theorem test_dcmp_less : g3 (.dcmp (.core 0) ⟨3, 4, 5⟩) (decT 0x9999999999999999 1) = (0xFFFFFFFFFFFFFFFF, false) := by decide +kernel
theorem test_dcvtDb : g3 (.dcvtDb (.core 0) ⟨3, 4, 0⟩) (decT 0x9999999999999250 0) = (0xFFFFFFFFFFFFFD12, false) := by decide +kernel

-- R82: the worked example of DADD g3, g4, g5
theorem test_word_of_dadd : wordA 3 ⟨3, 4, 5⟩ 0x000 = 0x0C642800 := by decide +kernel

-- R201: partition 3 holds bays 20 to 25; the two lines of the worked example
def part3 : State := { State.reset with part := [(3, { Part.reset with bays := 0x3F00000, ranges := [BitVec.ofNat 13 (0x001234567880 / 2 ^ 30)] })] }
theorem test_home_of_line : homeOf part3 0x001234567880 = some 23 ∧ homeOf part3 0x0012345678C0 = some 22 := by decide +kernel

-- R337: sixteen channels, RANK_BITS 2
def mem16 : State := { State.reset with region := [(0, ⟨true, false, 0, 2048, 0xFFFF, 2⟩)] }
theorem test_dram_location : (locOf mem16 0x001234567880).map (fun x => (x.chan, x.ca, x.rank, x.row, x.bg, x.ba))
    = some (8, 0x123456780, 2, 0x2468, 3, 0) := by decide +kernel

-- R28: thread 437 is of core 109, which is of bay 27 on die 2
theorem test_thread_437 : srcOfThr (.core 437) = .core 109 ∧ bayOfCore 109 = 27 ∧ dieOfThr (.core 437) = 2 := by decide +kernel

-- R60, R61: 10 ns a cycle, 40 ns without the reference
theorem test_tick : (tick live.time).now = 5000000010 ∧ (tick { live.time with refLost := true }).now = 5000000040 := by decide +kernel

/-! ## Integer rows (R83 to R85) -/

/-- g3 after a format-A row on g4 and g5. -/
def gA (c : Thr → FmtA → Instr) (a b : Word) : Word := (g3 (c (.core 0) ⟨3, 4, 5⟩) (decT a b)).1
/-- g3 after a format-B row on g4. -/
def gB (c : Thr → FmtB → Instr) (a : Word) (k : BitVec 16) : Word := (g3 (c (.core 0) ⟨3, 4, k⟩) (decT a 0)).1

theorem test_add_wraps : gA .add 0xFFFFFFFFFFFFFFFF 2 = 1 := by decide +kernel
theorem test_sub_borrows : gA .sub 0 1 = 0xFFFFFFFFFFFFFFFF := by decide +kernel
theorem test_andn : gA .andn 0xFF 0x0F = 0xF0 := by decide +kernel
theorem test_sll_low_six_bits : gA .sll 1 0x43 = 8 := by decide +kernel
theorem test_srl_logical : gA .srl 0x8000000000000000 63 = 1 := by decide +kernel
theorem test_sra_sign : gA .sra 0x8000000000000000 60 = 0xFFFFFFFFFFFFFFF8 := by decide +kernel
theorem test_rotr : gA .rotr 0x1 4 = 0x1000000000000000 := by decide +kernel
theorem test_rotr_zero : gA .rotr 0x9 64 = 0x9 := by decide +kernel
theorem test_slt_signed : gA .slt 0xFFFFFFFFFFFFFFFF 0 = 1 := by decide +kernel
theorem test_sltu_unsigned : gA .sltu 0xFFFFFFFFFFFFFFFF 0 = 0 := by decide +kernel
theorem test_min_signed : gA .min 0xFFFFFFFFFFFFFFFF 5 = 0xFFFFFFFFFFFFFFFF := by decide +kernel
theorem test_maxu : gA .maxu 0xFFFFFFFFFFFFFFFF 5 = 0xFFFFFFFFFFFFFFFF := by decide +kernel
theorem test_addw_sign_extends : gA .addw 0x7FFFFFFF 1 = 0xFFFFFFFF80000000 := by decide +kernel
theorem test_clz_zero : (g3 (.clz (.core 0) ⟨3, 4, 0⟩) (decT 0 0)).1 = 64 := by decide +kernel
theorem test_ctz : (g3 (.ctz (.core 0) ⟨3, 4, 0⟩) (decT 0x10 0)).1 = 4 := by decide +kernel
theorem test_popc : (g3 (.popc (.core 0) ⟨3, 4, 0⟩) (decT 0xF0F 0)).1 = 8 := by decide +kernel
theorem test_bswap : (g3 (.bswap (.core 0) ⟨3, 4, 0⟩) (decT 0x0102030405060708 0)).1 = 0x0807060504030201 := by decide +kernel
theorem test_sextb : (g3 (.sextb (.core 0) ⟨3, 4, 0⟩) (decT 0x80 0)).1 = 0xFFFFFFFFFFFFFF80 := by decide +kernel
theorem test_cmovz_keeps : gA .cmovz 9 1 = 3 := by decide +kernel
theorem test_cmovnz_takes : gA .cmovnz 9 1 = 9 := by decide +kernel
theorem test_addi_sign_extends : gB .addi 5 0xFFFF = 4 := by decide +kernel
theorem test_andi_zero_extends : gB .andi 0xFFFFFFFFFFFFFFFF 0xFF00 = 0xFF00 := by decide +kernel
theorem test_sltui_sign_extends : gB .sltui 5 0xFFFF = 1 := by decide +kernel
theorem test_shi_rotates : gB .shi 1 0x00C1 = 0x8000000000000000 := by decide +kernel
theorem test_ins_second_halfword : (g3 (.ins (.core 0) ⟨3, 1, 0xABCD⟩) live).1 = 0xABCD0003 := by decide +kernel
theorem test_mulhs : gA .mulhs 0xFFFFFFFFFFFFFFFF 1 = 0xFFFFFFFFFFFFFFFF := by decide +kernel
theorem test_mulhu : gA .mulhu 0xFFFFFFFFFFFFFFFF 2 = 1 := by decide +kernel
theorem test_div_by_zero : gA .div 7 0 = 0xFFFFFFFFFFFFFFFF := by decide +kernel
theorem test_div_toward_zero : gA .div 0xFFFFFFFFFFFFFFF9 2 = 0xFFFFFFFFFFFFFFFD := by decide +kernel
theorem test_div_overflow : gA .div 0x8000000000000000 0xFFFFFFFFFFFFFFFF = 0x8000000000000000 := by decide +kernel
theorem test_rem_sign : gA .rem 0xFFFFFFFFFFFFFFF9 2 = 0xFFFFFFFFFFFFFFFF := by decide +kernel
theorem test_remu_by_zero : gA .remu 7 0 = 7 := by decide +kernel
theorem test_write_g0_discarded : (readG (thr (after (exec (.add (.core 0) ⟨0, 3, 3⟩) live)) (.core 0)) 0).val = 0 := by decide +kernel

/-! ## Other instructions -/

-- R97: CRC-32C of "123456789" is 0xE3069283 with the inversions of RFC 3720
theorem test_crc32c_check : crc32c 8 (crc32c 1 0xFFFFFFFF 0x31) 0x3938373635343332 ^^^ 0xFFFFFFFF = 0xE3069283 := by decide +kernel
-- FIPS 197: S-box of 0x53, and the MixColumns column of its text
theorem test_sbox : sbox 0x53 = 0xED ∧ invSbox 0xED = 0x53 := by decide +kernel
theorem test_mix_column : (mixColumns ([0xDB, 0x13, 0x53, 0x45] ++ List.replicate 12 0)).take 4 = [0x8E, 0x4D, 0xA1, 0xBC] := by
  decide +kernel

-- R90, R92: 1/0 is infinity with DZ; 1.0 + 1.0 = 2.0
def fp (a b : Word) : State :=
  updThr (.core 0) (fun th => writeF 1 ⟨a, false, false⟩ (writeF 2 ⟨b, false, false⟩ th)) live
def f3 (c : Thr → FmtFP → Instr) (a b : Word) : Word × BitVec 5 :=
  let th := thr (after (exec (c (.core 0) ⟨3, 1, 2, false, 0, false⟩) (fp a b))) (.core 0)
  ((readF th 3).val, th.fpFlags)
theorem test_fadd : f3 .fadd 0x3FF0000000000000 0x3FF0000000000000 = (0x4000000000000000, 0) := by decide +kernel
theorem test_fdiv_by_zero : (f3 .fdiv 0x3FF0000000000000 0).1 = 0x7FF0000000000000 := by decide +kernel
theorem test_fmul_nan : (f3 .fmul 0x7FF0000000000000 0).1 = 0x7FF8000000000000 := by decide +kernel
theorem test_fmin_negative_zero : (f3 .fmin 0 0x8000000000000000).1 = 0x8000000000000000 := by decide +kernel

-- R98
theorem test_beq_taken : (thr (after (exec (.beq (.core 0) ⟨3, 3, 0xFFFF⟩) live)) (.core 0)).pc = 0xFFC := by decide +kernel
theorem test_bne_not_taken : (thr (after (exec (.bne (.core 0) ⟨3, 3, 4⟩) live)) (.core 0)).pc = 0x1004 := by decide +kernel
theorem test_jl_links : (let th := thr (after (exec (.jl (.core 0) ⟨4⟩) live)) (.core 0); (th.pc, (readG th 31).val)) = (0x1010, 0x1004) := by
  decide +kernel
theorem test_jlr_reads_first : (let th := thr (after (exec (.jlr (.core 0) ⟨12, 12, 0⟩) live)) (.core 0); (th.pc, (readG th 12).val)) = (0x3000, 0x1004) := by
  decide +kernel

-- R93, R94: a store is seen by its thread's next load, and memory does not change before the store is performed
def stored : State := after (exec (.std (.core 0) ⟨5, 12, 8⟩) live)
theorem test_store_forwards : (readG (thr (after (exec (.ldd (.core 0) ⟨9, 12, 8⟩) stored)) (.core 0)) 9).val = 7 := by decide +kernel
theorem test_store_waits : readBytes stored 0x3008 8 = List.replicate 8 0 := by decide +kernel
theorem test_engine_store_at_once :
    readBytes (after (exec (.stb (.adze 0) ⟨3, 12, 1⟩) live)) 0xF00004003000 3 = [0, 3, 0] := by decide +kernel

-- R99, R103, R104: the first entry of SYSCALL 5 at M
theorem test_syscall : (let th := thr (after (exec (.syscall (.core 0) ⟨0, 0, 5⟩) live)) (.core 0)
    (th.xm.code, th.xm.epc, th.xm.einfo, th.tstat.mFrame, th.tstat.ie)) = (12, 0x400, 5, true, false) := by decide +kernel

-- R104, R107, R320: the worked example of EVDONE 4 with 3 on top of the stack
def stack3 (frame : Bool) : State := updThr (.core 0) (fun th => { th with
  tstat := { th.tstat with priv := .K, kFrame := frame }, ev := { th.ev with stack := [3, 4] } }) live
theorem test_evdone_wrong : (thr (after (exec (.evdone (.core 0) ⟨0, 0, 4⟩) (stack3 false))) (.core 0)).xk.einfo = 0x34 := by decide +kernel
theorem test_evdone_double : (let th := thr (after (exec (.evdone (.core 0) ⟨0, 0, 4⟩) (stack3 true))) (.core 0)
    (th.xm.code, th.xm.einfo, th.xm.epc)) = (18, 0x10, 0x400) := by decide +kernel

-- R77: TSTAT reads as its table lays it out; MFS of TIME
theorem test_mfs_time : (readG (thr (after (exec (.mfs (.core 0) ⟨9, 0, 4⟩) live)) (.core 0)) 9).val = 5000000000 := by decide +kernel

-- R75: a read of an M register at U takes PRIVILEGE
theorem test_mfs_privilege : (thr (after (exec (.mfs (.core 0) ⟨9, 0, 0x20⟩) atU)) (.core 0)).xk.code = 3 := by decide +kernel

/-! ## The block -/

theorem test_idle_step : step State.reset = .next State.reset := step_idle rfl
theorem test_other_lengths_spell_none : decodeTableWord 64 0x0C642800 = none := by decide +kernel

-- R79 to R100: words of each format, and reserved words
theorem test_decode_dadd : decodeTableWord 32 0x0C642800 = some (.dadd (.core 0) ⟨3, 4, 5⟩) := by decide +kernel
theorem test_decode_shi : decodeTableWord 32 0x386400C1 = some (.shi (.core 0) ⟨3, 4, 0xC1⟩) := by decide +kernel
theorem test_decode_fadd : decodeTableWord 32 0x4022181F = some (.fadd (.core 0) ⟨1, 2, 3, true, 7, true⟩) := by decide +kernel
theorem test_decode_ldd : decodeTableWord 32 0x81243FF8 = some (.ldd (.core 0) ⟨9, 4, 0xFF8⟩) := by decide +kernel
theorem test_decode_beq : decodeTableWord 32 0xC064FFFF = some (.beq (.core 0) ⟨3, 4, 0xFFFF⟩) := by decide +kernel
theorem test_decode_jl : decodeTableWord 32 0xE7FFFFFF = some (.jl (.core 0) ⟨0x3FFFFFF⟩) := by decide +kernel
theorem test_decode_reserved : (decodeTableWord 32 0, decodeTableWord 32 0xFFFFFFFF, decodeTableWord 32 0x04000006) = (none, none, none) := by
  decide +kernel
theorem test_fence_waits : (thr (after (exec (.fenceC (.core 0) ⟨0, 0, 0⟩) stored)) (.core 0)).run = .fencing := by decide +kernel

end Sys2Proof.Tests

namespace Sys2Proof.Tests
open Sys2Proof.Machine
set_option Elab.async false

/-! ## Witnesses: instructions -/

-- IntegerRows, CrcAndAes, FloatArithmetic, FloatMoves: a thread that goes, of either kind, with operands at the bounds of the
-- rows that bound theirs (SHI 255, INS 3, rm 4 and 7)
theorem witness_goes : Goes live (.core 0) ∧ Goes live (.adze 0) := by unfold Goes; decide +kernel
theorem witness_IntegerRows : Goes live (.adze 0) ∧ (0xFF : BitVec 16).toNat < 256 ∧ (3 : BitVec 5).toNat < 4 := by
  unfold Goes; decide +kernel
theorem witness_FloatArithmetic : Goes live (.core 0) ∧ (4 : BitVec 3) ≠ 5 ∧ (7 : BitVec 3) ≠ 6 ∧
    flagBits (addV binary64 0 (.num false 1 0) (.num false 1 0)).2 &&& (thr live (.core 0)).fpTrap = 0 := by
  unfold Goes; decide +kernel
theorem witness_FloatMoves : Goes live (.core 0) ∧ isNan (.nan true) = true ∧ (-2 ^ 63 : Int) ≤ 0 ∧ (0 : Int) < 2 ^ 63 - 1 := by
  unfold Goes; decide +kernel
theorem witness_CrcAndAes : Goes live (.core 0) ∧ (30 : BitVec 5).getLsbD 0 = false ∧ ([] : List Byte).length ≠ 16 ∧
    (List.replicate 16 (0 : Byte)).length = 16 := by unfold Goes; decide +kernel

-- DecimalRows: good operands, a result out of range with DOVE = 0 and with DOVE = 1, and bad digits in one and both operands
def decK : State := updThr (.core 0) (fun th => { th with dove := true }) (decT 0x4999999999999999 1)
theorem witness_DecimalRows : Goes (decT 0x250 0x1000) (.core 0) ∧ badDigit 0x250 = none ∧ badDigit 0x1000 = none ∧
    (thr live (.core 0)).dove = false := by unfold Goes; decide +kernel
theorem witness_DecimalRows_trap : MayEnter decK (.core 0) ∧ (thr decK (.core 0)).dove = true ∧
    badDigit (readG (thr decK (.core 0)) 4).val = none ∧
    (5 * 10 ^ 15 - 1 : Int) < decVal (readG (thr decK (.core 0)) 4).val + decVal (readG (thr decK (.core 0)) 5).val := by
  unfold MayEnter GoesAlone Goes; decide +kernel
theorem witness_DecimalRows_data : MayEnter (decT 0xA5 0xF000000000000000) (.core 0) ∧ badDigit 0xA5 = some 1 ∧
    badDigit 0xF000000000000000 = some 15 := by unfold MayEnter GoesAlone Goes; decide +kernel

-- Loads: plain and crossing a line, on a core; the engine's own scratch
theorem witness_Loads : GoesAlone live (.core 0) ∧ (thr live (.core 0)).outst = [] ∧ (thr live (.core 0)).stores = [] ∧
    (readG (thr live (.core 0)) 12).poison = false ∧
    Passes live (.core 0) .load false (0x3000 + (0x3C : BitVec 12).signExtend 64) 8 [(0x303C, 4), (0x3040, 4)] ∧
    ∀ p ∈ [((0x303C : BitVec 48), 4), (0x3040, 4)], LoadsNow live (.core 0) p.1 := by
  unfold GoesAlone Goes Passes LoadsNow; decide +kernel
theorem witness_Loads_engine : GoesAlone live (.adze 0) ∧
    Passes live (.adze 0) .load true 0xFFFFF00004003000 8 [(0xF00004003000, 8)] ∧
    LoadsNow live (.adze 0) 0xF00004003000 := by unfold GoesAlone Goes Passes LoadsNow; decide +kernel

-- Stores: to DRAM from a core, to its own scratch from an engine
theorem witness_Stores : GoesAlone live (.core 0) ∧
    Passes live (.core 0) .store false 0x3000 8 [(0x3000, 8)] ∧ isDevice (spaceOf 0x3000) = false ∧
    refusesPoison (spaceOf 0x3000) = false := by unfold GoesAlone Goes Passes; decide +kernel
theorem witness_Stores_engine : GoesAlone live (.adze 0) ∧
    Passes live (.adze 0) .store false 0xFFFFF00004003000 8 [(0xF00004003000, 8)] ∧
    ownScratch 0 0xF00004003000 = true := by unfold GoesAlone Goes Passes; decide +kernel

-- BranchesAndJumps: unpoisoned operands and an aligned target
theorem witness_BranchesAndJumps : Goes live (.core 0) ∧ (readG (thr live (.core 0)) 12).poison = false ∧
    (readG (thr live (.core 0)) 12).val.extractLsb' 0 2 = 0 ∧ (readG (thr live (.core 0)) 31).val.extractLsb' 0 2 = 0 := by
  unfold Goes; decide +kernel

-- ExceptionEntry: each side of each condition of R105 and R107
theorem witness_ExceptionEntry : (1 : Nat) ≤ 18 ∧ (thr atU (.core 0)).tstat.priv = .U ∧ (thr atU (.core 0)).tstat.kFrame = false ∧
    (thr (stack3 true) (.core 0)).tstat.kFrame = true ∧ (thr (stack3 true) (.core 0)).tstat.mFrame = false := by decide +kernel

-- Checks: a thread whose exception may be entered; its registers g7 poisoned; at U; of an engine
theorem witness_Checks : MayEnter live (.core 0) ∧ ownedBy live (.core 0) = none ∧ (readG (thr live (.core 0)) 7).poison = true := by
  unfold MayEnter GoesAlone Goes; decide +kernel
theorem witness_Checks_engine : MayEnter live (.adze 0) ∧ ownedBy live (.adze 0) = none ∧ isAdze (.adze 0) = true := by
  unfold MayEnter GoesAlone Goes; decide +kernel
theorem witness_Checks_user : MayEnter atU (.core 0) ∧ ownedBy atU (.core 0) = none ∧ (thr atU (.core 0)).tstat.priv = .U := by
  unfold MayEnter GoesAlone Goes; decide +kernel

-- SystemCallsAndReturns: at M, at K, with a stack, and with a lane that holds a record and none
def laneOne : State := updThr (.core 0) (fun th => { th with ev := { th.ev with head := [(3, 1)] } }) live
theorem witness_SystemCallsAndReturns : MayEnter live (.core 0) ∧ (thr live (.core 0)).tstat.priv ≠ .U ∧
    (thr live (.core 0)).ev.stack.head? ≠ some 5 := by unfold MayEnter GoesAlone Goes; decide +kernel
theorem witness_EVDONE : GoesAlone (stack3 false) (.core 0) ∧ (thr (stack3 false) (.core 0)).ev.stack = 3 :: [4] ∧
    (15 : BitVec 12).toNat < 16 := by unfold GoesAlone Goes; decide +kernel
theorem witness_WAIT : GoesAlone laneOne (.core 0) ∧ (∃ p < 16, look 0 (thr laneOne (.core 0)).ev.head p ≠ look 0 (thr laneOne (.core 0)).ev.tail p) ∧
    ∀ p < 16, look 0 (thr live (.core 0)).ev.head p = look 0 (thr live (.core 0)).ev.tail p := by
  unfold GoesAlone Goes; decide +kernel

-- ReadSystemRegister, WriteSystemRegister: a register of each level, read and written at that level
theorem witness_ReadSystemRegister : GoesAlone live (.core 0) ∧ numberOf (.core 0) 0x306 = true ∧
    privGe (thr live (.core 0)).tstat.priv (readPriv (thr live (.core 0)) 0x306) = true := by unfold GoesAlone Goes; decide +kernel
theorem witness_ReadSystemRegister_user : GoesAlone atU (.adze 0) ∧ numberOf (.adze 0) 1 = true ∧
    privGe (thr atU (.adze 0)).tstat.priv (readPriv (thr atU (.adze 0)) 1) = true := by unfold GoesAlone Goes; decide +kernel
theorem witness_WriteSystemRegister : GoesAlone live (.core 0) ∧ atM (thr live (.core 0)) ∧ atK (thr live (.core 0)) ∧
    (thr atKpriv (.core 0)).tstat.priv = .K ∧ GoesAlone atKpriv (.core 0) ∧ (readG (thr live (.core 0)) 3).poison = false := by
  unfold GoesAlone Goes atM atK; decide +kernel

-- AtomicUpdates, Reservations: scratch from an engine, and a DRAM line that the core's bay holds exclusively
def l3000 : BitVec 42 := 0xC0
def owned (st : Mesi) : State :=
  let y : CLine := ⟨l3000, st, 1, 3, if st = .M then 3 else 0, false⟩
  updBay 0 (fun b => { b with l2 := put CLine.reset b.l2 (16 * l2Set l3000) y })
    (updCore 0 (fun k => { k with l1d := put CLine.reset k.l1d (16 * l1Set l3000) y }) live)
theorem witness_AtomicUpdates : AtomReady (.adze 0) .atomic ⟨9, 12, 3⟩ true 0xF00004003000 live live ∧
    DataFits (thr live (.adze 0)) 3 0xF00004003000 ∧ AtomHere live (.adze 0) [lineOf 0xF00004003000] 0xF00004003000 := by
  refine ⟨?_, ?_, .inl ⟨0, rfl, by decide +kernel⟩⟩
  · unfold AtomReady GoesAlone Goes Passes AfterXlate; decide +kernel
  · unfold DataFits; decide +kernel
def ready? : Xl → Bool
  | .ready _ => true
  | _ => false
def readyState : Xl → State
  | .ready s => s
  | .wait s | .redo s => s
theorem of_ready (x : Xl) (h : ready? x = true) : x = .ready (readyState x) := by cases x <;> simp_all [ready?, readyState]
def fetched : State := readyState (useXlates 0 .atomic 0x3000 8 (owned .E))
theorem xlated_ready : useXlates 0 .atomic 0x3000 8 (owned .E) = .ready fetched := of_ready _ (by decide +kernel)
theorem witness_AtomicUpdates_core : AtomReady (.core 0) .atomic ⟨9, 12, 3⟩ true 0x3000 (owned .E) fetched ∧
    DataFits (thr (owned .E) (.core 0)) 3 0x3000 ∧ AtomHere fetched (.core 0) [lineOf 0x3000] 0x3000 := by
  refine ⟨⟨?_, ?_, ?_, ?_, ?_, ?_⟩, ?_, .inr (.inr ⟨0, rfl, ?_⟩)⟩
  · unfold GoesAlone Goes; decide +kernel
  · decide +kernel
  · decide +kernel
  · decide +kernel
  · unfold Passes; decide +kernel
  · have h : (readG (thr (owned .E) (.core 0)) 12).val = 0x3000 := by decide +kernel
    show useXlates 0 .atomic (readG (thr (owned .E) (.core 0)) 12).val 8 (owned .E) = _
    rw [h]; exact xlated_ready
  · unfold DataFits; decide +kernel
  · refine ⟨by decide +kernel, by decide +kernel, fun l hl => ?_⟩
    rw [List.mem_singleton.1 hl, show lineOf 0x3000 = 0xC0 from by decide +kernel]
    decide +kernel
def reserved : State := updThr (.adze 0) (fun th => { th with resv := some ⟨granuleOf 0xF00004003000, true, 0xF00004003000⟩ }) live
theorem witness_Reservations : AtomReady (.adze 0) .resv ⟨9, 12, 0⟩ true 0xF00004003000 live live ∧
    AtomReady (.adze 0) .atomic ⟨9, 12, 3⟩ true 0xF00004003000 reserved reserved ∧
    (∃ r, (thr reserved (.adze 0)).resv = some r ∧ r.granule = granuleOf 0xF00004003000) ∧
    ¬ (∃ r, (thr live (.adze 0)).resv = some r ∧ r.granule = granuleOf 0xF00004003000) := by
  refine ⟨?_, ?_, ⟨_, rfl, rfl⟩, ?_⟩
  · unfold AtomReady GoesAlone Goes Passes AfterXlate; decide +kernel
  · unfold AtomReady GoesAlone Goes Passes AfterXlate; decide +kernel
  · rintro ⟨r, hr, -⟩
    have : (thr live (.adze 0)).resv = none := by decide +kernel
    rw [this] at hr; cases hr
theorem witness_Reservations_free : (monitorAt 0xF00004003000).map (fun m => ((monAt live m).filter (fun e => e.shared)).length) = some 0 ∧
    lineState (Machine.core fetched 0).l1d (l1Set l3000) l3000 ≠ .I ∧ (Machine.core fetched 0).hold = [] := by decide +kernel
def sharedS : State := updBay 0 (fun b => { b with mon := [⟨.core 0, 77, 0, true⟩] })
  (updThr (.core 0) (fun th => { th with resv := some ⟨77, true, 0x2680⟩ }) live)
def heldS (owes : List (CKind × CMsg)) : State := updCore 0 (fun k => { k with hold := [⟨0, granuleOf 0x3000, owes, 0⟩] }) live
theorem witness_Reservations_timers : ((thr sharedS (.core 0)).resv.map (·.granule) = some 77 ∧
      ∃ e ∈ (bay sharedS 0).mon, e.thr = .core 0 ∧ e.shared = true ∧ e.granule = 77) ∧
    (Machine.core (heldS []) 0).hold = [⟨0, granuleOf 0x3000, [], 0⟩] ∧ live.pw.fenced = false ∧
    (Machine.core (heldS [(.fInv, msg0)]) 0).hold = [⟨0, granuleOf 0x3000, [(.fInv, msg0)], 0⟩] ∧
    ∀ c < 4, c ≠ 0 → (Machine.core (heldS [(.fInv, msg0)]) (0 + c)).hold = [] := by decide +kernel

-- Fences: with nothing open, with a store waiting, with a lost store, and a fence that was waiting
def lost3 : State := updThr (.core 0) (fun th => { th with lostPending := 3, logFirst := 7 }) live
def fencing : State := updThr (.core 0) (fun th => { th with run := .fencing }) live
theorem witness_Fences : Goes live (.core 0) ∧ GoesAlone live (.core 0) ∧ (15 : BitVec 12).toNat < 16 ∧
    (thr live (.core 0)).lostPending = 0 ∧ Goes stored (.core 0) ∧ (thr stored (.core 0)).stores ≠ [] := by
  unfold GoesAlone Goes; decide +kernel
theorem witness_Fences_lost : GoesAlone lost3 (.core 0) ∧ (thr lost3 (.core 0)).lostPending ≠ 0 ∧ irqTakes (thr lost3 (.core 0)) = false ∧
    entering (thr lost3 (.core 0)) ⟨17, 0, 7, 0, false, 3⟩ 0x1000 = .at .M ⟨17, 0, 7, 0, false, 3⟩ := by
  refine ⟨?_, ?_, ?_, ?_⟩
  · unfold GoesAlone Goes; decide +kernel
  all_goals decide +kernel
theorem witness_FenceCDrained : (thr fencing (.core 0)).run = .fencing ∧ halted (thr fencing (.core 0)) = false ∧
    (thr fencing (.core 0)).unconf = [] ∧ (thr fencing (.core 0)).stores = [] ∧ (thr fencing (.core 0)).lostPending = 0 ∧
    unitRuns fencing (.core 0) = true ∧ (thr fencing (.core 0)).outst = [] := by decide +kernel

-- CacheMaintenance
def maintX : State := readyState (useXlates 0 .maint 0x3000 1 live)
theorem maint_ready : useXlates 0 .maint 0x3000 1 live = .ready maintX := of_ready _ (by decide +kernel)
theorem witness_CacheMaintenance : MaintReady (.core 0) .maint ⟨0, 12, 0⟩ 0x3000 live maintX := by
  refine ⟨?_, rfl, rfl, by decide +kernel, by decide +kernel, by decide +kernel, ?_, ?_⟩
  · unfold GoesAlone Goes; decide +kernel
  · unfold Passes; decide +kernel
  · have h : (readG (thr live (.core 0)) 12).val = 0x3000 := by decide +kernel
    show useXlates 0 .maint (readG (thr live (.core 0)) 12).val 1 live = _
    rw [h]; exact maint_ready
theorem witness_CacheMaintenance_line : lineServed maintX (lineOf 0x3000) = true ∧ lineBusy maintX 0 (lineOf 0x3000) = false ∧
    (homeAgent maintX (lineOf 0x3000)).isSome = true ∧ targetServed maintX (.core 0) (lineAddr (lineOf 0x3000)) = true := by
  decide +kernel
theorem witness_IINV_TLBINV : Goes live (.adze 0) ∧ GoesAlone live (.core 0) ∧ (3 : BitVec 12).toNat < 4 ∧
    (thr live (.core 0)).tstat.priv ≠ .U ∧ (readG (thr live (.core 0)) 3).poison = false := by unfold GoesAlone Goes; decide +kernel

-- InstructionsInFlight: a branch in flight, a load and store in flight, and a younger load that read early
def branching : State := after (exec (.beq (.core 0) ⟨3, 3, 4⟩) live)
def inFlight (pop : Bool) (b : Option BrInfo) : UOp :=
  { seq := 5, pc := 0x1000, snap := snapOf th0, br := b, conf := false, ld := none, st := none, fetch := none, evs := []
    push := none, pop := pop, va := 0, sz := 0 }
def flying (b : Option BrInfo) : State := updThr (.core 0) (fun th => { th with unconf := [inFlight true b] }) live
theorem witness_InstructionsInFlight : ((thr branching (.core 0)).unconf.map (fun u => u.br)) = [some ⟨0x1010, none, false, false⟩] ∧
    ((thr branching (.core 0)).unconf.map (·.seq)).Nodup ∧ openBranches (thr branching (.core 0)) ≠ [] ∧
    (die branching 0).stalled = false ∧ (thr branching (.core 0)).tstat.priv = .M ∧
    (thr (flying (some ⟨0x1010, some 0x40, false, true⟩)) (.core 0)).unconf = [inFlight true (some ⟨0x1010, some 0x40, false, true⟩)] ∧
    (thr (flying none) (.core 0)).unconf.map (fun x => (x.conf, peekLines (flying none) 0 x)) = [(false, [])] := by decide +kernel
def empty : State := updThr (.core 0) (fun th => { th with fbuf := [] }) live
def cached : State := updCore 0 (fun k => { k with
  l1i := put CLine.reset k.l1i (16 * l1Set 0x40) ⟨0x40, .S, 1, 3, 0, false⟩ }) empty
theorem witness_fetch : canExec cached (.core 0) = true ∧ (thr cached (.core 0)).unconf = [] ∧ (thr cached (.core 0)).fbuf = [] ∧
    fetchTurn cached 0 = true ∧ (thr cached (.core 0)).pc.toNat < 2 ^ 47 ∧ ownDram cached (partOf cached (.core 0)) 0x1000 = true ∧
    isPoisoned cached (lineOf 0x1000) = false ∧ sectorWay (Machine.core cached 0).l1i (lineOf 0x1000) (sectorOf 0x1000) ≠ none ∧
    heldBack cached 0 (lineOf 0x1000) = false ∧ (bay cached 0).reqs = [] ∧ lineServed cached (lineOf 0x1000) = true := by decide +kernel
theorem witness_fetch_waits : (match fetchNow (.core 0) empty with | .wait _ => true | _ => false) = true ∧
    (match fetchNow (.core 0) cached with | .got u => canExec u (.core 0) | _ => false) = true := by decide +kernel
def early : State := after (exec (.ldd (.core 0) ⟨9, 12, 0⟩) (after (exec (.stb (.core 0) ⟨3, 12, 0x100⟩) (owned .M))))
theorem witness_order_violation : (thr early (.core 0)).unconf.any (fun y => decide (y.seq = 0) && y.st.isSome) = true ∧
    (die early 0).stalled = false ∧
    ((thr early (.core 0)).unconf.find? (violates [{ plainAccess 4 4 .store 0x3004 0x3004 1 5 with dest := none }] 0)).map (·.seq) = some 2 ∧
    ((thr early (.core 0)).unconf.find? (fun y => decide (2 ≤ y.seq))).map (·.seq) = some 2 := by
  decide +kernel

-- InterruptEntry
def pendingIrq : State := updThr (.core 0) (fun th => { th with
  tstat := { th.tstat with ie := true }, ev := { th.ev with en := true, stack := [5, 9], head := [(3, 1)] } }) live
def irqE : Exc := ⟨0x20, 0, 0, 0, false, 0⟩
theorem witness_InterruptEntry : (thr pendingIrq (.core 0)).unconf = [] ∧ halted (thr pendingIrq (.core 0)) = false ∧
    unitRuns pendingIrq (.core 0) = true ∧ (thr pendingIrq (.core 0)).tstat.ie = true ∧ irqPrio (thr pendingIrq (.core 0)) = some 3 ∧
    entering (thr pendingIrq (.core 0)) irqE (thr pendingIrq (.core 0)).pc = .at .M irqE ∧
    (thr pendingIrq (.core 0)).run = .running ∧ (thr pendingIrq (.core 0)).held = .ready ∧
    ∀ a ∈ (thr pendingIrq (.core 0)).stores, a.conf = true := by decide +kernel
def engineIrq : State := updThr (.adze 0) (fun th => { th with
  held := .entering, tstat := { th.tstat with ie := true }, ev := { th.ev with en := true, stack := [5, 9], head := [(3, 1)] } }) live
theorem witness_InterruptEntry_engine : (thr engineIrq (.adze 0)).run = .running ∧ (thr engineIrq (.adze 0)).held = .entering ∧
    halted (thr engineIrq (.adze 0)) = false ∧ unitRuns engineIrq (.adze 0) = true ∧ irqPrio (thr engineIrq (.adze 0)) = some 3 ∧
    entering (thr engineIrq (.adze 0)) irqE (thr engineIrq (.adze 0)).pc = .at .M irqE := by decide +kernel

-- StoreTravels: the oldest store confirmed, and then released to a line the bay holds
def confirmed : State := after (exec (.instructionConfirmed 0 .clean) (after (exec (.std (.core 0) ⟨5, 12, 8⟩) (owned .M))))
def released : State := after (exec (.storeRelease (.core 0)) confirmed)
theorem witness_StoreTravels : (thr confirmed (.core 0)).stores.map (fun a => (a.conf, a.ordered, spaceOf a.pa)) = [(true, false, .dram)] ∧
    (die confirmed 0).stalled = false ∧ (thr confirmed (.core 0)).outst = [] ∧ homeAhead confirmed (.adze 0) = false ∧
    ((thr released (.core 0)).outst.map (fun a => (a.kind, a.pa, a.size, a.sent))) = [(.store, 0x3008, 8, false)] ∧
    (thr released (.core 0)).outst.all (fun a => decide (checkSrc released (srcOfThr (.core 0)) a.gen a.site none = .good) &&
      !olderOut released (.core 0) a) = true ∧
    bayOwns released 0 (lineOf 0x3008) = true ∧ heldBack released 0 (lineOf 0x3008) = false ∧
    targetServed released (.core 0) 0x3008 = true := by decide +kernel

-- LostAccesses: a load and a store whose timeout has passed, at its bound, and with the log enabled
def waitingAcc (k : AccKind) (d : Option Dest) : Access :=
  { plainAccess 4 4 k 0x3008 0x3008 8 5 with tRel := 5000000000 - 2000000, dest := d }
def lateS (k : AccKind) (d : Option Dest) : State := updThr (.core 0) (fun th => { th with
  outst := [waitingAcc k d], logEn := true, logSize := 6, logBase := 8, logHead := 3, logTail := 3 }) live
theorem witness_LostAccesses : outAccess (lateS .load (some ⟨9, false, false, false⟩)) (.core 0) 4 = some (waitingAcc .load (some ⟨9, false, false, false⟩)) ∧
    (waitingAcc .load none).split = false ∧ (thr (lateS .load (some ⟨9, false, false, false⟩)) (.core 0)).outst.length = 1 ∧
    (waitingAcc .load none).tRel.toNat + (thr live (.core 0)).tmo.toNat * 16000 ≤ live.time.now.toNat := by decide +kernel
theorem witness_LostAccesses_log : outAccess (lateS .store none) (.core 0) 4 = some (waitingAcc .store none) ∧
    isDevice (spaceOf 0x3008) = false ∧ ((3 : BitVec 32) - 3).toNat < 2 ^ 6 ∧ logRingOk (lateS .store none) (.core 0) = true ∧
    logRingShared (lateS .store none) (.core 0) = false ∧ lineServed (lateS .store none) (lineOf 0x80C0) = true := by decide +kernel

-- SoloAndAsid, CacheControl
def solo (w : Option (Fin 4)) (act : Bool) : State := updCore 0 (fun k => { k with soloActive := act, soloWait := w }) live
theorem witness_SoloAndAsid : GoesAlone live (.core 0) ∧ (thr live (.core 0)).tstat.priv ≠ .U ∧
    (readG (thr live (.core 0)) 3).poison = false ∧ (readG (thr live (.core 0)) 3).val.getLsbD 0 = true ∧
    (readG (thr live (.core 0)) 0).val.getLsbD 0 = false ∧
    (Machine.core live 0).soloActive = false ∧ (Machine.core live 0).soloWait = none ∧ GoesAlone (solo none true) (.core 0) ∧
    (Machine.core (solo none true) 0).soloActive = true ∧ (Machine.core (solo none true) 0).soloOwner.val = 0 ∧
    (∀ k : Fin 640, k.val / 4 = 0 → (thr (solo none true) (.core k)).soloLater = false) := by
  unfold GoesAlone Goes; decide +kernel
def four : State := { live with thr := [(0, th0), (1, th0), (2, th0), (3, th0)] }
theorem witness_SoloParked : GoesAlone four (.core 0) ∧
    ∀ k : Fin 640, k.val / 4 = 0 → k ≠ 0 → (thr four (.core k)).unconf = [] ∧ (thr four (.core k)).run = .running := by
  unfold GoesAlone Goes; decide +kernel
def later : State := updThr (.core 2) (fun th => { th with soloLater := true })
  (updCore 0 (fun k => { k with soloActive := true, soloBit := true }) four)
theorem witness_SoloLater : GoesAlone later (.core 0) ∧ (thr later (.core 2)).soloLater = true ∧ (thr later (.core 2)).run ≠ .stopped ∧
    ∀ j : Fin 640, j.val / 4 = 0 → j.val < 2 → (thr later (.core j)).soloLater = false := by unfold GoesAlone Goes; decide +kernel
def draining : State := updCore 0 (fun k => { k with ccWait := some (0, 0x10) }) live
theorem witness_CacheControl : GoesAlone live (.core 0) ∧
    (∀ k : Fin 640, k.val / 4 = 0 → k ≠ 0 → (thr live (.core k)).unconf = [] ∧ ∀ a ∈ (thr live (.core k)).stores, a.conf = true) ∧
    (Machine.core live 0).den = true ∧ (readG (thr live (.core 0)) 0).val.getLsbD 1 = false ∧
    (readG (thr live (.core 0)) 3).val.getLsbD 1 = true ∧ (Machine.core draining 0).ccWait = some (0, 0x10) ∧
    (∀ i : Fin 640, i.val / 4 = 0 → (thr draining (.core i)).outst = [] ∧ (thr draining (.core i)).stores = []) ∧
    (die draining 0).stalled = false ∧ draining.pw.fenced = false ∧ (Machine.core draining 0).hold = [] := by
  unfold GoesAlone Goes; decide +kernel
def converting (cur size : BitVec 3) (busy : Bool) : State := updBay 0 (fun b => { b with amCur := cur, amSize := size, amBusy := busy }) live
def fullBay : State := updBay 0 (fun b => { b with
  l2 := put CLine.reset b.l2 15 ⟨0x40, .E, 0, 3, 0, false⟩, wb := List.replicate 16 ⟨0, true, false, 0⟩ }) (converting 0 4 true)
theorem witness_L2AsMemory : GoesAlone (converting 4 4 false) (.core 0) ∧
    ((readG (thr (converting 4 4 false) (.core 0)) 3).val.extractLsb' 0 3).toNat < (bay (converting 4 4 false) 0).amCur.toNat ∧
    (bay live 0).amCur.toNat < ((readG (thr live (.core 0)) 3).val.extractLsb' 0 3).toNat ∧
    (bay (converting 2 4 true) 0).amBusy = true ∧ (bay (converting 2 4 true) 0).amCur.toNat ≤ (bay (converting 2 4 true) 0).amSize.toNat ∧
    linesInWays (bay (converting 2 4 true) 0) 4 = [] ∧ linesInWays (bay fullBay 0) 4 ≠ [] ∧ wbRoom (bay fullBay 0) = false := by
  unfold GoesAlone Goes; decide +kernel

end Sys2Proof.Tests

namespace Sys2Proof.Tests
open Sys2Proof.Machine
set_option Elab.async false

/-! ## Witnesses: coherence -/

/-- The home of the line at 0x3000 in `live`. -/
def hm : Fin 40 := 1
def dk : Nat := 16 * llcSet l3000
/-- A message from a bay to the home of the line, from an engine to it, from it to a bay. -/
def toHome : CMsg := { msg0 with src := .bay 0, dst := .home hm, coll := .bay 0, line := l3000 }
def fromEng : CMsg := { toHome with src := .engine 0, coll := .engine 0, mask := 0xF0F }
def toBay : CMsg := { toHome with src := .home hm, dst := .bay 0, coll := .bay 1 }
def toEng : CMsg := { toHome with src := .home hm, dst := .engine 0, coll := .engine 0 }
def withDir (d : DirE) (s : State) : State := updSlice hm.val (fun x => { x with dir := put DirE.reset x.dir dk { d with line := l3000 } }) s
def dirS : State := withDir { DirE.reset with st := .S, sharers := 3 } live
def dirX : State := withDir { DirE.reset with st := .X, owner := 1 } live
def busy (st : DirSt) (k : ReqKind) (aw : BitVec 40) : State :=
  withDir { DirE.reset with st := st, sharers := 2, awaits := aw, fwd := aw, req := some (k, toHome) } live

/-- `Arrives` as something that can be computed. -/
def arrivesB (m : CMsg) (s : State) : Bool :=
  !(die s (dieOfAgent m.dst)).stalled && (staleTarget s m).isNone &&
    (match srcOfReceiver m.dst with | some y => (srcEnt s y).isOpen | none => true) &&
    match srcOfAgent m.src with
    | none => true
    | some x => decide (checkSrc s x m.gen m.site (partOfAgent s m.dst) = .good)
theorem arrives_eq (m : CMsg) (s : State) : Arrives m s = (arrivesB m s = true) := by
  unfold Arrives arrivesB; cases srcOfAgent m.src <;> simp [Bool.and_eq_true, and_assoc] <;> (intros; rfl)

-- MessageChecks: another generation, another site, a good one of a source that is DOWN
def downBay : State := { live with srcs := [(512, { open0 with isOpen := false })] }
theorem witness_MessageChecks : srcOfAgent toHome.src = some (.bay 0) ∧ (srcEnt live (.bay 0)).gen ≠ 1 ∧ siteOf live (.bay 0) ≠ 5 ∧
    live.wr.st ≠ .restarting ∧ (srcEnt downBay (.bay 0)).gen = toHome.gen ∧ siteOf downBay (.bay 0) = toHome.site ∧
    (srcEnt downBay (.bay 0)).isOpen = false ∧ (die live (dieOfAgent toHome.dst)).stalled = false := by decide +kernel
def oldDst : CMsg := { toHome with src := .bay 1, dst := .bay 0, coll := .bay 0, dgen := 9 }
def stalledDie : State := updDie 0 (fun d => { d with stalled := true }) live
theorem witness_MessageChecks_receiver : srcOfAgent oldDst.src = some (.bay 1) ∧ (srcEnt live (.bay 1)).gen = oldDst.gen ∧
    siteOf live (.bay 1) = oldDst.site ∧ (srcEnt live (.bay 1)).isOpen = true ∧
    partOfSrc live (.bay 1) = partOfAgent live oldDst.dst ∧ srcOfReceiver oldDst.dst = some (.bay 0) ∧
    (srcEnt live (.bay 0)).isOpen = true ∧ (srcEnt live (.bay 0)).gen ≠ oldDst.dgen ∧
    (die stalledDie (dieOfAgent oldDst.dst)).stalled = true := by decide +kernel

-- HomeServes, HomeWrites: no entry for the line, and a way free; an entry S and one X
theorem witness_AtHome : AtHome live toHome hm ∧ dirFind live hm.val l3000 = none ∧
    (∀ k ∈ wayKeys (llcSet l3000) 16, (dirAt live hm.val k).st ≠ .BE) ∧
    (wayKeys (llcSet l3000) 16).find? (fun k => (dirAt live hm.val k).st = .I) = some dk := by
  simp only [AtHome, arrives_eq]; decide +kernel
theorem witness_HomeServes : AtHome dirS toHome hm ∧ dirFind dirS hm.val l3000 = some dk ∧ (dirAt dirS hm.val dk).st = .S ∧
    (dirAt dirS hm.val dk).sharers.getLsbD 0 = true := by simp only [AtHome, arrives_eq]; decide +kernel
theorem witness_HomeServes_owned : AtHome dirX toHome hm ∧ dirFind dirX hm.val l3000 = some dk ∧ (dirAt dirX hm.val dk).st = .X ∧
    (dirAt dirX hm.val dk).owner = BitVec.ofNat 6 (1 : Fin 40).val := by simp only [AtHome, arrives_eq]; decide +kernel
theorem witness_HomeWrites : AtHome live fromEng hm ∧ dirFind live hm.val fromEng.line = none ∧ fromEng.poison = false ∧
    lineOf 0x3008 = fromEng.line ∧ (0x3008 : BitVec 48).toNat % sizeOfDbl true = 0 ∧ (0x303C : BitVec 48).toNat % sizeOfDbl false = 0 := by
  simp only [AtHome, arrives_eq]; decide +kernel
def reservedHome : State := updThr (.adze 0) (fun th => { th with resv := some ⟨granuleOf 0x3008, false, 0x3008⟩ }) live
theorem witness_HomeWrites_reserved : AtHome reservedHome fromEng hm ∧ (thr reservedHome (.adze 0)).resv = some ⟨granuleOf 0x3008, false, 0x3008⟩ := by
  simp only [AtHome, arrives_eq]; decide +kernel

-- Forwards: a bay that owns the line, unwritten and written
theorem witness_Forwards : AtBay (owned .E) toBay 0 ∧ lineState (bay (owned .E) 0).l2 (l2Set l3000) l3000 = .E ∧
    lineState (bay (owned .M) 0).l2 (l2Set l3000) l3000 = .M := by simp only [AtBay, arrives_eq]; decide +kernel
theorem witness_Forwards_written : AtBay (owned .M) toBay 0 := by simp only [AtBay, arrives_eq]; decide +kernel

-- HomeAnswers: two answers awaited, one, none; a write-back of the owner and of one sharer
theorem witness_HomeAnswers : Arrives toHome (busy .BX .cln 3) ∧ dirFind (busy .BX .cln 3) hm.val l3000 = some dk ∧
    (slice (busy .BX .cln 3) hm.val).wbBuf = [] ∧ (slice (busy .BX .cln 3) hm.val).rsv = [] ∧
    isBusy (dirAt (busy .BX .cln 3) hm.val dk).st = true ∧ (dirAt (busy .BX .cln 3) hm.val dk).awaits.getLsbD 0 = true ∧
    (dirAt (busy .BX .cln 3) hm.val dk).fwd.getLsbD 0 = true ∧
    (dirAt (busy .BX .cln 3) hm.val dk).awaits ≠ BitVec.twoPow 40 0 := by simp only [arrives_eq]; decide +kernel
theorem witness_HomeAnswers_last : Arrives toHome (busy .BX .cln 1) ∧ (dirAt (busy .BX .cln 1) hm.val dk).awaits = BitVec.twoPow 40 0 ∧
    (dirAt (busy .BX .cln 1) hm.val dk).req = some (.cln, toHome) := by simp only [arrives_eq]; decide +kernel
theorem witness_HomeAnswers_done : Arrives toHome (busy .BS .rdS 0) ∧ Arrives toHome (busy .BX .rdX 0) ∧
    (dirAt (busy .BS .rdS 0) hm.val dk).owner = BitVec.ofNat 6 (0 : Fin 40).val ∧ (dirAt (busy .BS .rdS 0) hm.val dk).awaits = 0 ∧
    (dirAt (busy .BS .rdS 0) hm.val dk).req = some (.rdS, toHome) ∧ (dirAt (busy .BX .rdX 0) hm.val dk).req = some (.rdX, toHome) := by
  simp only [arrives_eq]; decide +kernel
theorem witness_HomeAnswers_back : Arrives { toHome with src := .bay 1 } dirX ∧ dirFind dirX hm.val l3000 = some dk ∧
    (dirAt dirX hm.val dk).owner = BitVec.ofNat 6 (1 : Fin 40).val ∧ Arrives toHome dirS ∧
    (dirAt dirS hm.val dk).sharers &&& ~~~(BitVec.twoPow 40 0) ≠ 0 := by simp only [arrives_eq]; decide +kernel

-- RequestersAnswered: a bay's one request, at each count; an engine's load and store
def creq (k : ReqKind) (core : Option (Fin 160)) (need : Option (BitVec 8)) (got : BitVec 8) (bo : Bool) : CReq :=
  ⟨k, l3000, hm, core, false, false, need, got, 0, 0, false, true, false, 2, bo, 5⟩
def asked (r : CReq) : State := updBay 0 (fun y => { y with reqs := [r], wb := [⟨l3000, true, true, 5⟩] }) live
theorem witness_RequestersAnswered : Arrives toBay (asked (creq .rdS none none 0 true)) ∧ (bay (asked (creq .rdS none none 0 true)) 0).reqs = [creq .rdS none none 0 true] ∧
    toBay.count = (creq .rdS none none 0 true).got ∧ (bay (asked (creq .rdS none none 0 true)) 0).wb = [⟨l3000, true, true, 5⟩] := by
  simp only [arrives_eq]; decide +kernel
theorem witness_RequestersAnswered_more : Arrives { toBay with count := 2 } (asked (creq .rdX none none 1 false)) ∧
    (bay (asked (creq .rdX none none 1 false)) 0).reqs = [creq .rdX none none 1 false] ∧ (1 : BitVec 8).toNat < (2 : BitVec 8).toNat ∧
    (bay (asked (creq .cln (some 0) none 0 false)) 0).reqs = [creq .cln (some 0) none 0 false] := by simp only [arrives_eq]; decide +kernel
def eacc (k : AccKind) (d : Option Dest) : Access := { plainAccess 4 4 k 0x3008 0x3008 8 5 with dest := d }
def eask (k : ReqKind) (a : AccKind) (d : Option Dest) : State :=
  { updThr (.adze 0) (fun th => { th with outst := [eacc a d] }) live with ereqs := [⟨k, fromEng, 0, 4, false, 0⟩] }
theorem witness_RequestersAnswered_engine : Arrives toEng (eask .hrd .load (some ⟨9, false, true, false⟩)) ∧
    (eask .hrd .load (some ⟨9, false, true, false⟩)).ereqs = [⟨.hrd, fromEng, 0, 4, false, 0⟩] ∧ fromEng.src = .engine 0 ∧ fromEng.line = toEng.line ∧ fromEng.tag = toEng.tag ∧
    (thr (eask .hrd .load (some ⟨9, false, true, false⟩)) (.adze 0)).outst = [eacc .load (some ⟨9, false, true, false⟩)] ∧
    (eacc .load none).size ≤ 8 ∧ (eacc .load none).poison = false ∧ (eacc .load none).split = false ∧
    (thr (eask .hwr .store none) (.adze 0)).outst = [eacc .store none] := by simp only [arrives_eq]; decide +kernel

-- PartitionDown, PartitionRecovery
theorem bays_owned (s : State) (h0 : (part s 0).bays = 3) (h : ∀ b : Fin 2, partOfBay s b.val = some 0) :
    ∀ b : Fin 40, (part s 0).bays.getLsbD b.val = true → partOfBay s b.val = some 0 := by
  intro b hb
  have hlt : b.val < 2 := by
    by_contra hc
    have : ∀ b : Fin 40, 2 ≤ b.val → (3 : BitVec 40).getLsbD b.val = false := by decide
    rw [h0, this b (by omega)] at hb; cases hb
  exact h ⟨b.val, hlt⟩
theorem engines_owned (s : State) (h0 : (part s 0).engines = 1) (h : partOfEngine s 0 = some 0) :
    ∀ e : Fin 64, (part s 0).engines.getLsbD e.val = true → partOfEngine s e.val = some 0 := by
  intro e he
  have : e.val = 0 := by
    by_contra hc
    have hh : ∀ e : Fin 64, e.val ≠ 0 → (1 : BitVec 64).getLsbD e.val = false := by decide
    rw [h0, hh e hc] at he; cases he
  rw [this]; exact h
theorem witness_PartitionDown : (part live 0).st = .active ∧
    (∀ b : Fin 40, (part live 0).bays.getLsbD b.val = true → partOfBay live b.val = some 0) ∧
    (∀ e : Fin 64, (part live 0).engines.getLsbD e.val = true → partOfEngine live e.val = some 0) :=
  ⟨rfl, bays_owned live (by decide +kernel) (by decide +kernel), engines_owned live (by decide +kernel) (by decide +kernel)⟩
def lateReq : CReq := { creq .rdS none none 0 false with since := 5000000000 - 1600000 }
theorem witness_cohTimeout : (part (asked lateReq) 0).bays.getLsbD 0 = true ∧ (bay (asked lateReq) 0).reqs = [lateReq] ∧ lateReq.backoff = false ∧
    partOfAgent (asked lateReq) (.bay 0) = some 0 ∧ (∃ w ∈ waitsOf (asked lateReq) (.bay 0) l3000, overdue (asked lateReq) 0 w = true) ∧
    (∀ w ∈ waitsOf live (.bay 0) l3000, overdue live 0 w = false) ∧
    lateReq.since.toNat + (part live 0).cohTmo.toNat * 16000 ≤ live.time.now.toNat := by decide +kernel
def fallen (st : PartSt) (salvaged : Bool) : State := updPart 0 (fun p => { p with st := st, salvaged := salvaged }) live
theorem fallen_owned (st : PartSt) (sv : Bool) : (∀ b : Fin 40, (part (fallen st sv) 0).bays.getLsbD b.val = true → partOfBay (fallen st sv) b.val = some 0) ∧
    (∀ e : Fin 64, (part (fallen st sv) 0).engines.getLsbD e.val = true → partOfEngine (fallen st sv) e.val = some 0) := by
  cases st <;> cases sv <;> exact ⟨bays_owned _ (by decide +kernel) (by decide +kernel), engines_owned _ (by decide +kernel) (by decide +kernel)⟩
theorem witness_PartitionRecovery : (fallen .down false).wr.st = .serving ∧ (fallen .down false).pw.fenced = false ∧
    (part (fallen .down false) 0).st = .down ∧ (part (fallen .restarting true) 0).st = .restarting ∧
    (part (fallen .restarting true) 0).salvaged = true ∧ (part (fallen .restarting true) 0).hold = false ∧
    (part (fallen .restarting true) 0).cause = 0 ∧ (part (fallen .restarting true) 0).bays ≠ 0 ∧ (∀ d, (die (fallen .restarting true) d).railDown = false) :=
  ⟨rfl, rfl, by decide +kernel, by decide +kernel, by decide +kernel, by decide +kernel, by decide +kernel, by decide +kernel, fun _ => rfl⟩
def moving (t0 : Nat) (s : State) : State := updWr (fun w => { w with sistering := [(.core 0, t0)] }) s
theorem witness_liveSister : (moving 7 live).wr.sistering = [(.core 0, 7)] ∧ partOfSrc (moving 7 live) (.core 0) = some 0 ∧ (part (moving 7 live) 0).st = .active ∧
    drained (moving 7 live) (.core 0) = true ∧ drained (moving 7 released) (.core 0) = false ∧
    7 + cohTmoNs (moving 7 released) 0 ≤ (moving 7 released).time.now.toNat ∧ 7 + 2 * cohTmoNs (moving 7 live) 0 ≤ (moving 7 live).time.now.toNat ∧
    ¬ 4999999999 + 2 * cohTmoNs (moving 4999999999 live) 0 ≤ (moving 4999999999 live).time.now.toNat := by decide +kernel

/-! ## Witnesses: engines, events and work items -/

def scrubs (p : BitVec 12) : State := { live with
  eng := [(0, { Engine.reset with scrubEn := true, scrubPtr := p })], cluster := [(0, { Cluster.reset with powered := true })] }
theorem witness_EngineRegisters : mainOn (scrubs 0) = true ∧ (srcEnt (scrubs 0) (.engine 0)).isOpen = true ∧ (engine (scrubs 0) 0).outOfService = false ∧
    (cluster (scrubs 0) 0).powered = true ∧ (engine (scrubs 0) 0).scrubEn = true ∧ (engine (scrubs 0) 0).scrubT.toNat + 2000 ≤ (scrubs 0).time.now.toNat ∧
    (0xFC : Nat) * 1024 + 8 * (2 ^ 1 * 256) ≤ 0x40000 ∧ ¬ (0xFD : Nat) * 1024 + 8 * (2 ^ 1 * 256) ≤ 0x40000 := by decide +kernel

-- Events: a queue turned on with room, with a full lane, and turned off; a timer that TIME has just reached; records on their way
def evq (en : Bool) (n : BitVec 16) : State := updThr (.core 0) (fun th => { th with ev := { th.ev with
  en := en, base := 0x100, head := [(3, n)], timer := 5000000000, writing := [⟨2, 3, false, true, 9, 8, 7, none⟩], held := some ⟨6, 3, false, false, 9, 8, 7, none⟩ } }) live
theorem witness_Events : MayMts (evq true 1) (.core 0) 3 ∧ mainOn (evq true 1) = true ∧ sisterHeld (evq true 1) (.core 0) = false ∧
    NoneQueued (evq true 1) (BitVec.ofNat 48 (laneSlot (thr (evq true 1) (.core 0)).ev 3 1)) 16 := by
  refine ⟨?_, by decide +kernel, by decide +kernel, ?_⟩
  · unfold MayMts GoesAlone Goes; decide +kernel
  · intro l _; exact ⟨fun h _ => ⟨rfl, rfl⟩, fun _ h hh => absurd (show h ∈ ([] : List Hold) from hh) List.not_mem_nil⟩
theorem witness_Events_lanes :
    laneFull (thr (evq true 1) (.core 0)).ev 3 = false ∧ laneFull (thr (evq true 64) (.core 0)).ev 3 = true ∧
    (thr (evq true 1) (.core 0)).ev.timer.toNat ≤ (evq true 1).time.now.toNat ∧ evDiscards (evq true 1) (.core 0) = false ∧
    domainDown (evq true 1) (.core 0) = false ∧ laneFull (thr (evq true 1) (.core 0)).ev (thr (evq true 1) (.core 0)).ev.tprio.toNat = false ∧
    (thr (evq true 1) (.core 0)).ev.timer ≠ 0 ∧ (thr (evq true 1) (.core 0)).run ≠ .notStarted := by decide +kernel
theorem witness_EventQueue : (thr (evq false 1) (.core 0)).ev.en = false ∧ queuePlaceOk (evq false 1) (.core 0) (0x100 * 64) (16 * 2 ^ 2 * 16) = true ∧
    queuePlaceOk (evq false 1) (.core 0) (0x100 * 64) (16 * 2 ^ 8 * 16) = true ∧
    ((1 : BitVec 16) - 0).toNat ≤ (look 0 (thr (evq true 1) (.core 0)).ev.head 3 - 0).toNat ∧
    (look 0 (thr (evq true 1) (.core 0)).ev.head 3 - 0).toNat < ((2 : BitVec 16) - 0).toNat := by decide +kernel
def evTo : State := updThr (.adze 0) (fun th => { th with ev := { th.ev with en := true, base := 0x100 } }) live
theorem witness_EvSend : checkSrc evTo (srcOfThr (.core 0)) 0 0 none = .good ∧ evTo.pw.fenced = false ∧
    sisterHeld evTo (.adze 0) = false ∧
    thrOfIndex ((0x3400 : Word).extractLsb' 0 10).toNat ((0x3400 : Word).getLsbD 10) = some (.adze 0) ∧ partOf evTo (.core 0) = some 0 ∧
    partOf evTo (.adze 0) = some 0 ∧ (part evTo 0).st = .active ∧ (thr evTo (.adze 0)).run = .running ∧ domainDown evTo (.adze 0) = false ∧
    (thr evTo (.adze 0)).ev.en = true ∧ laneFull (thr evTo (.adze 0)).ev 3 = false := by decide +kernel

end Sys2Proof.Tests

namespace Sys2Proof.Tests
open Sys2Proof.Machine
set_option Elab.async false

/-! ## Witnesses: work items -/

def q5 (en inl : Bool) : Queue := { Queue.reset with
  en := en, inlineMode := inl, cls := 1, quota := 2, weight := 1, descBase := 0x100, cplBase := 0x200, slot := some 7, armed := true, ai := 4, floor := 4 }
def hosted : Endpoint := { Endpoint.reset with
  up := true, cfg := { Config.reset with memEn := true, master := true } }
/-- `live` with its link up, queue 5 of instance 0 at slot 7, and the entries given. -/
def qs (en inl : Bool) (ent : Tbl Entry) : State := { live with
  ep := hosted
  pw := { live.pw with straps := { live.pw.straps with frameHead := true } }
  queue := [(5, q5 en inl)]
  inst := [(0, { Inst.reset with st := 1, qmap := [(7, some 5)], dma := [(0, some (0, 0x1FF))] })]
  led := { live.led with ent := ent } }
def one : Entry := { Entry.reset with st := .owned, queue := 5, seq := 3 }

-- Ingress: at the queue's quota less one, both modes; off; an unmapped slot
theorem witness_Ingress : Admitted (qs true false [(0, one)]) 0 7 false 5 1 ∧ (queue (qs true false [(0, one)]) 5).inlineMode = false := by
  unfold Admitted; decide +kernel
theorem witness_Ingress_inline : Admitted (qs true true []) 0 7 false 5 0 ∧ (queue (qs true true []) 5).inlineMode = true ∧
    (((4 : BitVec 512) ||| (56 : BitVec 512) <<< 40).extractLsb' 0 32 : BitVec 32) = (queue (qs true true []) 5).ai ∧
    (((4 : BitVec 512) ||| (56 : BitVec 512) <<< 40).extractLsb' 46 18 : BitVec 18) = 0 ∧
    (((4 : BitVec 512) ||| (56 : BitVec 512) <<< 40).extractLsb' 40 6 : BitVec 6).toNat ≤ 56 := by unfold Admitted; decide +kernel
theorem witness_Ingress_refused : pagesServed (qs false false []) = true ∧ look none (inst (qs false false []) 0).qmap 7 = some 5 ∧
    (queue (qs false false []) 5).en = false ∧ look none (inst (qs false false []) 0).qmap 8 = none := by decide +kernel

-- Dispatch: an inline item for core thread 0; a descriptor that fails and one that passes; data that has come; a buffer write
def desc64 (seq : Nat) : List Byte :=
  bytesOf 8 0xABCD ++ bytesOf 8 0x5000 ++ bytesOf 8 (BitVec.ofNat 64 (seq + 16 * 2 ^ 32)) ++ List.replicate 40 0
def fetchE (d : List Byte) : Entry := { one with st := .fetch, desc := d, resv := some (.core 0) }
def dispS (x : Entry) : State := { qs true x.isInline [(0, x)] with
  led := { live.led with ent := [(0, x)], disp := [(0, ⟨true, 0xF, 2⟩)] } }
def inl0 : Entry := { one with st := .queued, isInline := true, cls := 1, desc := List.replicate 64 0, dataLen := some 5 }
theorem witness_Dispatch : mayDispatch (dispS inl0) 0 = true ∧ classOpen (dispS inl0) 0 1 = true ∧
    candidates (dispS inl0) 0 1 = [(5, 0, .core 0)] ∧ candidates (dispS inl0) 0 0 = [] ∧ (entry (dispS inl0) 0).isInline = true ∧
    bufOk (dispS inl0) (.core 0) = true := by decide +kernel
theorem witness_Dispatch_descriptor : (entry (dispS (fetchE (desc64 3))) 0).st = .fetch ∧ readsDone (dispS (fetchE (desc64 3))) 0 = true ∧
    64 ≤ (fetchE (desc64 3)).desc.length ∧ descFault (fetchE (desc64 3)) = none ∧ descFault (fetchE (desc64 4)) = some 1 ∧
    descLen (fetchE (desc64 3)) ≤ dataArea (dispS (fetchE (desc64 3))) (.core 0) ∧
    dmaOk (inst (dispS (fetchE (desc64 3))) 0) (descWord (fetchE (desc64 3)) 8).toNat 16 = true ∧ resMax (fetchE (desc64 3)) = 0 ∧
    headOf (dispS (fetchE (desc64 3))) = .here := by decide +kernel
def dataE (w : Bool) : Entry := { fetchE (desc64 3) with descOk := true, dataLen := some 16, data := List.replicate 16 0x11, writing := w }
theorem witness_Dispatch_data : readsDone (dispS (dataE false)) 0 = true ∧ (dataE false).dataLen.getD 0 ≤ (dataE false).data.length ∧
    bufOk (dispS (dataE false)) (.core 0) = true ∧ (entry (dispS (dataE true)) 0).writing = true ∧ (dataE true).dataLen.getD 0 ≤ 4032 ∧
    lineServed (dispS (dataE true)) (lineOf (BitVec.ofNat 48 (bufAddr (dispS (dataE true)) (.core 0)))) = true := by decide +kernel

-- ItemEnds: owned by thread 0; a limit passed at its bound; a record that may go
def ownE : Entry := { dataE false with st := .owned, owner := some (.core 0), etag := 1, rlimit := 1, qlimit := 1, tOwned := 0, tAccept := 0 }
theorem witness_ItemEnds : (srcEnt (dispS ownE) (srcOfThr (.core 0))).isOpen = true ∧ (thr (dispS ownE) (.core 0)).lostPending = 0 ∧
    carrying (dispS ownE) (.core 0) (itemDonePa (dieOfThr (.core 0))) 0x10000 = none ∧ (entry (dispS ownE) 0).owner = some (.core 0) ∧
    (entry (dispS ownE) 0).etag = (0x10000 : Word).extractLsb' 16 16 ∧ (entry (dispS ownE) 1).st ≠ .owned ∧
    heldEntry (dispS ownE) (.core 0) ≠ some 1 := by decide +kernel
theorem witness_ItemLimits : limitNs 1 = some 1000 ∧ (entry (dispS ownE) 0).tOwned.toNat + 1000 ≤ (dispS ownE).time.now.toNat ∧
    limitNs (entry (dispS { ownE with st := .queued }) 0).qlimit = some 1000 := by decide +kernel
theorem witness_recordDelivery : (entry (dispS { ownE with st := .closing }) 0).st = .closing ∧ (queue (dispS { ownE with st := .closing }) 5).armed = true ∧
    deliveryOver (dispS { ownE with st := .closing }) = false ∧ earlierHeld (dispS { ownE with st := .closing }) 0 = false ∧
    headOf (dispS { ownE with st := .closing }) = .here ∧ mayIssue (dispS { ownE with st := .closing }) = true := by decide +kernel

/-! ## Witnesses: DRAM and the endpoint -/

def chanS (f : Chan → Chan) : State := updChan 0 f live
def line0 : BitVec 42 := 0xC0
def loc0 : Loc := (locOfLine live line0).getD ⟨0, 0, false, 0, 0, 0, 0, 0, 0⟩
theorem witness_Dram : locOfLine live line0 = some loc0 ∧ onChan loc0 0 = true ∧ chanLive live 0 = true ∧ loc0.mirror = false ∧
    look none (chan live 0).rows (bankKey loc0) = none ∧ isPoisoned live line0 = false ∧ isDirty live line0 = false ∧
    isDirty { live with old := [(0xC0, some (1, true))] } line0 = true ∧ bankHeld live 0 loc0 = false ∧ mainOn live = true ∧
    bankHeld (chanS (fun k => { k with job := some (.softPpr line0) })) 0 loc0 = true := by decide +kernel
def patrolS (ptr : BitVec 42) : State := chanS (fun k => { k with scrubEn := true, patrolPtr := ptr })
theorem witness_Dram_patrol : patrolDue (patrolS 0) 0 = true ∧ (paOfChan (patrolS 0) 0 0).isSome = true ∧
    paOfChan { patrolS 0 with region := [] } 0 0 = none ∧ (patrolS 0).old = [] ∧ (patrolS 0).poison = [] ∧
    clockStopped (patrolS 0) (.ddr 0) = false := by decide +kernel
theorem witness_Dram_row : look none (chan (chanS (fun k => { k with rows := [(bankKey loc0, some 77)] })) 0).rows (bankKey loc0) = some 77 ∧
    (77 : BitVec 18) ≠ BitVec.ofNat 18 loc0.row ∧ locOfLine (chanS (fun k => { k with st := 4 })) line0 = some loc0 ∧
    (chan (chanS (fun k => { k with st := 4 })) 0).st = 4 ∧ (chan (chanS (fun k => { k with scrubEn := true })) 0).scrubEn = true := by decide +kernel
theorem witness_Dram_jobs : (chan (chanS (fun k => { k with st := 3, job := some (.pairing 2) })) 0).job = some (.pairing 2) ∧
    (chan (chanS (fun k => { k with st := 5, job := some .resilver })) 0).st = 5 ∧
    (chan (chanS (fun k => { k with job := some (.softPpr 0xC0) })) 0).jobs = [] ∧ live.wr.store.repairs.length < 61440 ∧
    (chan (chanS (fun k => { k with job := some (.rankCopy 1) })) 0).job = some (.rankCopy 1) ∧
    (chan (chanS (fun k => { k with st := 1 })) 0).st = 1 := by decide +kernel

-- EndpointLink: PERST# held; the link down and training; up; frozen; a configuration request before and after CRS ends
def ep (f : Endpoint → Endpoint) : State := updEp f (qs true false [(0, { one with st := .queued })])
theorem witness_EndpointLink : (ep id).pw.straps.frameHead = true ∧ (ep (fun e => { e with perst := true })).ep.perst = true ∧
    canTrain (ep (fun e => { e with perst := false, up := false, training := true })) = true ∧
    (ep (fun e => { e with up := false, training := true })).ep.up = false := by decide +kernel
theorem witness_EndpointLink_up : (ep id).ep.up = true ∧ (ep id).ep.frozen = false ∧ (ep id).pw.clkEp = false ∧
    (ep (fun e => { e with crsUntil := none })).ep.crsUntil = none ∧
    (ep (fun e => { e with crsUntil := some 5000000001 })).time.now.toNat < (5000000001 : Word).toNat ∧
    (ep (fun e => { e with frozen := true, fCount := 9 })).ep.frozen = true ∧ (inst (ep id) 0).st ≠ 0 ∧
    ownedByInst (queue (ep id) 5) 0 = true ∧ ownedByInst (queue (ep id) 6) 0 = false ∧ (1 : BitVec 8).toNat ≤ 8 ∧ (8 : BitVec 8).toNat ≤ 8 := by
  decide +kernel

-- EndpointReads: one read of this device, not complete, complete, and past its timeout; a completion of none
def rd0 : ReadRec := ⟨0, 0, true, 0x100000, 64, [], 0, false, none, false, true⟩
def reading : State := updEp (fun e => { e with reads := [rd0], cfg := { e.cfg with cplTmo := 5 } }) (dispS (fetchE []))
theorem witness_EndpointReads : reading.ep.up = true ∧ reading.pw.clkEp = false ∧ readOf reading 0 = some rd0 ∧ reading.ep.reads = [rd0] ∧
    rd0.serves = none ∧ rd0.got.length + (List.replicate 63 (0 : Byte)).length < rd0.len ∧ rd0.got.length + (desc64 3).length = rd0.len ∧
    (entry reading 0).st = .fetch ∧ reading.ep.cfg.cplTmoDis = false ∧ rd0.since.toNat + cplTmoNs reading.ep.cfg.cplTmo ≤ reading.time.now.toNat := by
  decide +kernel
theorem witness_EndpointReads_none : readOf reading 1 = none ∧ reading.ep.frozen = false ∧
    reading.ep.deadTags.any (fun d => d.1 = (1 : BitVec 10).setWidth 16) = false := by decide +kernel

-- Windows: this device's own, an absent position, another on the ring, and a read not answered in time
def onRing : PortSt := { PortSt.reset with st := 3, credits := (List.range 16).map (fun v => (v, 24)), powered := true, txSeq := 5, rxSeq := 9, t1 := 77 }
/-- `qs` on a ring of four positions, its ports up. -/
def ring (f : PortSt → PortSt) (g : Ridge → Ridge) : State := { qs true false [] with
  ep := { hosted with ringPresent := 0xF, winReads := [⟨5, 3, 0x10, 8, 4999000000⟩] }
  ridge := g { Ridge.reset with
    nsEn := true, frames := 3, frame := 1, pop := BitVec.allOnes 64, live := 0xF, liveCol := 0xF
    we := { Pair.reset with isOpen := true }, ns := { Pair.reset with isOpen := true }
    ports := (List.range 4).map (fun k => (k, f onRing)) } }
theorem witness_Windows : hostServed (ring id id) = true ∧ (ring id id).pw.fence ≠ .done ∧ myPos (ring id id) = 0 ∧
    (windowValue (ring id id) 0 8 false).isSome = true ∧ (ring id id).ep.cfg.vc1En = false ∧ (box (ring id id) (.host 7)).st ≠ 1 ∧
    (ring id id).ep.ringPresent.getLsbD 63 = false ∧ (ring id id).ep.ringPresent.getLsbD 1 = true ∧
    route (ring id id) (devOf (myFrame (ring id id)) 1) = .out .E ∧ mayOriginate (ring id id) .E = true := by decide +kernel
theorem witness_windowReadTimeout : (ring id id).ep.winReads = [⟨5, 3, 0x10, 8, 4999000000⟩] ∧
    (4999000000 : Word).toNat + 1000000 ≤ (ring id id).time.now.toNat ∧ boxServed (ring id id) (.host 0) = true ∧
    (box (updBox (.host 0) (fun b => { b with st := 1 }) (ring id id)) (.host 0)).st = 1 := by decide +kernel

/-! ## Witnesses: the ridge -/

def fl (x : Port) : Flit := ⟨x, 9, 4, 4, 0, 0⟩
def sent1 : SentFlit := ⟨3, 2, .msg 1 0x41 0x40 0 false 7 0x3000 [1, 2, 3]⟩
theorem witness_QuietPort : QuietPort (ring id id) (fl .W) ∧ QuietPort (ring id id) (fl .S) ∧ portUp (ring id id) .W = true ∧
    timeSource (ring id id) ≠ 2 := by unfold QuietPort; decide +kernel
theorem witness_RidgeLinkLayer : portHears (ring (fun k => { k with replay := [sent1] }) id) .W = true ∧
    portUp (ring (fun k => { k with replay := [sent1] }) id) .W = true ∧
    (port (ring (fun k => { k with replay := [sent1], stuck := 7 }) id) 0).stuck = 7 ∧
    (port (ring (fun k => { k with sinceSkip := 256 }) id) 0).sinceSkip = 256 ∧
    onRing.lastAck.toNat + 64000 ≤ (ring id id).time.now.toNat ∧ 64000 * 32 ≤ (stamp (ring id id) - onRing.t1).toNat ∧
    pairMayOpen (ring (fun k => { k with training := true, st := 6 }) id) false = true ∧ onRing.nakSent = false ∧
    (port (ring (fun k => { k with training := true, st := 6, failsInRow := 1 }) id) 0).failsInRow < 2 ∧
    bypassedCount (ring (fun k => { k with training := true, st := 6 }) id) .W (devOf 1 61) = 2 ∧
    2 < bypassedCount (ring (fun k => { k with training := true, st := 6 }) id) .W (devOf 1 60) := by decide +kernel
def stepS (p : PairStep) (lo hi : Bool) (st : BitVec 3) : State :=
  ring (fun k => { k with st := st }) (fun r => { r with we := ⟨false, p, lo, hi, 3⟩, ns := ⟨false, p, lo, hi, 3⟩ })
theorem witness_RidgeRing : (ring id id).ridge.nsEn = true ∧ (ring id id).pw.fenced = false ∧ (pairOf (stepS .monitoring false false 1) true).step = .monitoring ∧
    (pairOf (stepS .repeating false false 2) false).step = .repeating ∧ (pairOf (stepS .leaving false false 3) false).step = .leaving ∧
    pairEmpty (stepS .leaving false false 3) false = true ∧ (∀ x ∈ pairPorts false, (port (stepS .leaving false false 3) (portIx x)).st ≠ 5) ∧
    (pairOf (stepS .drained false false 2) false).step = .drained := by decide +kernel
theorem witness_RidgeRing_flits : QuietPort (stepS .asking false true 2) (fl .W) ∧ QuietPort (stepS .asking true false 2) (fl .W) ∧
    (pairOf (stepS .asking false true 2) false).doneHi = true ∧ (pairOf (stepS .asking true false 2) false).doneHi = false ∧
    (port (ring id id) 0).joiner = none ∧ (fl .W).seq = (port (ring id id) 0).rxSeq ∧ myFrame (ring id id) = 1 ∧
    setBit 0xF (myPos (ring id id)) true = liveRing (ring id id) ∧ setBit 0x1F (myPos (ring id id)) true ≠ liveRing (ring id id) ∧
    (0x1F : BitVec 64) ≠ (ring id id).ridge.liveCol := by unfold QuietPort; decide +kernel

-- RidgeServes, RidgeAnswers: messages of the device to the east
def rm (tag : BitVec 16) (addr : BitVec 64) (data : List Byte) : RMsg := ⟨fl .W, 0x40, 0x41, 0, false, tag, addr, data, .whole⟩
def acl0 : Ridge → Ridge := fun r => { r with acl := [(3, ⟨true, true, true, 0x41, 0xFFFF, 40, 0⟩)] }
theorem witness_Comes : Comes (ring id acl0) (rm 7 0x3000 [1, 2, 3, 4, 5, 6, 7, 8]) ∧
    route (ring id acl0) (rm 7 0x3000 []).src = .out .E ∧ windowStatus (ring id acl0) (rm 7 0x3000 [1, 2, 3, 4, 5, 6, 7, 8]) 8 false = 0 ∧
    windowStatus (ring id acl0) (rm 7 0x3000 [1, 2, 3, 4, 5, 6, 7, 8]) 8 true = 0 ∧ (List.replicate 64 (0 : Byte)).length ≤ 64 ∧
    raclPermits (ring id id) 0x41 0x3000 8 true = false := by unfold Comes QuietPort; decide +kernel
theorem witness_RidgeServes : (windowValue (ring id id) 0 8 false).isSome = true ∧ fieldB [128, 0] 0 2 = 128 ∧
    (0x5F80 : BitVec 64).toNat % 4096 + 128 ≤ 4096 ∧ mayIssue (ring id id) = true ∧ (ring id id).ridge.atHead = [] ∧ NoneQueued (ring id acl0) 0x3000 8 ∧
    (ring id (fun r => { r with issued := [(0x41, 5, 7, 0x9000)] })).ridge.issued.length < 8192 ∧
    (wordOf (sliceB (bytesOf 8 0 ++ bytesOf 8 0x500000007) 8 8)).extractLsb' 32 10 = (5 : BitVec 10) :=
  ⟨by decide +kernel, by decide +kernel, by decide +kernel, by decide +kernel, by decide +kernel, fun _ _ => ⟨fun _ _ => ⟨rfl, rfl⟩, fun _ h hh => absurd (show h ∈ ([] : List Hold) from hh) List.not_mem_nil⟩,
    by decide +kernel, by decide +kernel⟩
theorem witness_RidgeAnswers_held : clockStopped { live with pw := { live.pw with clkRidge := 1 } } (.ridge (fl .W).port) = true := by decide +kernel
def rreq (op : BitVec 6) (t : Option (Thr × Nat)) (e : Option (Fin 65536)) (left : Nat) : Ridge → Ridge :=
  fun r => { r with reqs := [⟨op, 7, 0x41, 0x5000, .E, t, e, left⟩] }
def facc (k : AccKind) (d : Option Dest) : Access := { plainAccess 4 4 k 0x3008 0x3008 8 5 with dest := d }
def remote (k : AccKind) (d : Option Dest) : State := updThr (.core 0) (fun th => { th with outst := [facc k d] }) (ring id (rreq 1 (some (.core 0, 4)) none 0))
theorem witness_RidgeAnswers : Comes (remote .load (some ⟨9, false, true, false⟩)) (rm 7 0x3000 [1, 2, 3, 4, 5, 6, 7, 8]) ∧
    (remote .load (some ⟨9, false, true, false⟩)).ridge.reqs = [⟨1, 7, 0x41, 0x5000, .E, some (.core 0, 4), none, 0⟩] ∧
    outAccess (remote .load (some ⟨9, false, true, false⟩)) (.core 0) 4 = some (facc .load (some ⟨9, false, true, false⟩)) ∧
    outAccess (remote .store none) (.core 0) 4 = some (facc .store none) ∧ (facc .load none).poison = false ∧ (facc .load none).size ≤ 8 := by
  unfold Comes QuietPort; decide +kernel
def rrec : ReadRec := ⟨7, 0, false, 0x5000, 8, [], 3, true, none, false, true⟩
def remoteItem (op : BitVec 6) : State :=
  { updEp (fun e => { e with reads := [rrec], winReads := [⟨7, 1, 0x10, 8, 5⟩] }) (ring id (rreq op none (some 0) 8)) with
    led := { live.led with ent := [(0, { dataE false with dwrWait := 2 })] } }
theorem witness_RidgeAnswers_items : Comes (remoteItem 0x10) (rm 7 0x5000 [1, 2, 3, 4, 5, 6, 7, 8]) ∧ (remoteItem 0x10).ep.reads = [rrec] ∧
    rrec.len = (rm 7 0x5000 [1, 2, 3, 4, 5, 6, 7, 8]).data.length ∧ (entry (remoteItem 0x12) 0).dwrWait = 0 + 2 ∧
    (remoteItem 8).ep.winReads = [⟨7, 1, 0x10, 8, 5⟩] ∧ (remoteItem 0x14).ridge.reqs = [⟨0x14, 7, 0x41, 0x5000, .E, none, some 0, 8⟩] ∧
    route (remoteItem 0x14) 0x41 = .out .E := by unfold Comes QuietPort; decide +kernel

end Sys2Proof.Tests

namespace Sys2Proof.Tests
open Sys2Proof.Machine
set_option Elab.async false

/-! ## Witnesses: mailboxes and commands -/

def pageOf (code seq : Nat) (l : List Byte) : Mem :=
  writeList 0 (bytesOf 8 (BitVec.ofNat 64 (code + seq * 0x10000 + l.length * 0x100000000))) (writeList 0x40 l [])
/-- A mailbox with a command in its page, idle and taken. -/
def idleBox (m : Mbox) (code : Nat) (st : BitVec 2) (last : BitVec 16) (s : State) : State :=
  updBox m (fun b => { b with page := pageOf code 9 [], st := st, lastSeq := last, resp := some ⟨0, 3, [1, 2]⟩ }) s
def askIn (m : Mbox) (code : Nat) (l : List Byte) (s : State) : State :=
  updBox m (fun b => { b with page := pageOf code 9 l, st := 1, lastSeq := 9, tTaken := 77 }) s
def ask (code : Nat) (ws : List Word) (s : State) : State := askIn (.host 0) code (ws.flatMap (bytesOf 8)) s
def hb : Mbox := .host 0

-- Mailboxes: idle, DONE with the same and another SEQ, BUSY; a command with its answer ready
def mb (code : Nat) (st : BitVec 2) (last : BitVec 16) : State := idleBox hb code st last (qs true false [])
theorem witness_Mailboxes : boxServed (mb 0x101 0 0) hb = true ∧ clockStopped (mb 0x101 0 0) .wright = false ∧ clockStopped (mb 0x101 0 0) .sill = false ∧ (mb 0x101 0 0).ep.cfg.vc1En = false ∧ (box (mb 0x101 1 0) hb).st = 1 ∧
    boxSeq (box (mb 0x101 2 9) hb) = 9 ∧ (box (mb 0x101 2 9) hb).lastSeq = 9 ∧ (mb 0x101 0 0).pw.mode = 3 ∧ (mb 0x101 0 0).wr.st = .serving ∧
    (mb 0x101 0 0).wr.update = .none ∧ activateTaken (mb 0x101 0 0) = false ∧ activateTaken (askIn .mgmt 0x504 [] (mb 0x101 0 0)) = true ∧ definedCode (boxCode (box (mb 0x101 0 0) hb)) = true ∧ acceptsCode (box (mb 0x101 0 0) hb) hb 0x101 = true ∧
    definedCode (boxCode (box (mb 0x999 0 0) hb)) = false ∧ acceptsCode (box (mb 0x901 0 0) hb) hb 0x901 = false ∧
    (box (mb 0x101 1 9) hb).resp = some ⟨0, 3, [1, 2]⟩ := by decide +kernel
theorem witness_dmboxDoorbell : mainOn (updPart 0 (fun p => { p with dmbox := 8 }) live) = true ∧
    (thr (updPart 0 (fun p => { p with dmbox := 8 }) live) (.core 0)).run = .running ∧
    regionOk (updPart 0 (fun p => { p with dmbox := 8 }) live) (.core 0) .store (devDoorbell (.core 0) 3) = true := by decide +kernel

-- InformationCommands: each is taken and may run, with the PLEN it requires and with another
def infos : List (Nat × List Word) := [(0x101, []), (0x102, []), (0x103, [0x105]), (0x201, [0]), (0x301, []), (0x501, []), (0x506, [7]),
  (0x701, [0x7D00000000]), (0x702, [5]), (0x703, []), (0x704, [0xF00018000000, 504]), (0x801, [1, 2, 3, 4]), (0x802, [])]
theorem witness_InformationCommands : ∀ e ∈ infos, Runs hb e.1 false (ask e.1 e.2 live) ∧ boxPlen (box (ask e.1 e.2 live) hb) = 8 * e.2.length := by
  simp only [Runs]; decide +kernel
theorem witness_info_parameters : srcNamed 1 0 = some (.engine 0) ∧ ¬ Reserved (box (ask 0x103 [1] live) hb) 0x40 0xFF03 ∧
    Reserved (box (ask 0x103 [4] live) hb) 0x40 0xFF03 ∧ srcNamed 3 0 = none ∧ boxMay live (.dev 3) (some 0) = false ∧
    boxMay live hb (some 0) = true ∧ ¬ Reserved (box (ask 0x701 [0x100000000] live) hb) 0x40 0x7FFFFFFFFF ∧
    ¬ Reserved (box (ask 0x702 [0x500000005] live) hb) 0x40 0xFFFFFFFF000003FF ∧
    0xF00018000000 + 8 * 504 ≤ 0xF00020000000 ∧ 0xF0001FFFFFF8 + 8 * 1 ≤ 0xF00020000000 ∧ settingOf live.wr.store 7 = none := by
  unfold Reserved; decide +kernel
def bootMg (code : Nat) : State := updWr (fun w => { w with st := .booting }) (askIn .mgmt code [] live)
theorem witness_info_booting : (bootMg 0x102).wr.st = .booting ∧ (box (bootMg 0x102) .mgmt).st = 1 ∧ boxCode (box (bootMg 0x102) .mgmt) = 0x102 ∧
    boxCode (box (bootMg 0x307) .mgmt) = 0x307 ∧ changingRuns (bootMg 0x307) = false := by decide +kernel

-- PartitionCommands: partition 1 STANDBY with bay 2, partition 2 UNUSED, partition 3 held
def parts : State := updPart 3 (fun p => { p with st := .restarting, hold := true })
  (updPart 1 (fun p => { p with st := .standby, bays := 4, ranges := [1] }) live)
def layout (w bays engs : Word) (rs : List Word) : List Byte :=
  bytesOf 8 w ++ bytesOf 8 bays ++ bytesOf 8 engs ++ bytesOf 8 (BitVec.ofNat 64 rs.length) ++ rs.flatMap (bytesOf 2)
def partSet (l : List Byte) : State := askIn hb 0x202 l parts
theorem witness_PartitionCommands : Runs hb 0x202 true (partSet (layout 1 0xC 0 [1, 2])) ∧
    boxPlen (box (partSet (layout 1 0xC 0 [1, 2])) hb) = 0x20 + 2 * (pageNat (box (partSet (layout 1 0xC 0 [1, 2])) hb) 0x58 1 % 128) ∧
    (parseLayout (layout 1 0xC 0 [1, 2])).map (fun x => (decide (x.bays = 0), layoutFits parts x)) = some (false, true) ∧
    (parseLayout (layout 0xA 0x10 0 [3])).map (fun x => (x.hold, layoutFits parts x)) = some (true, true) ∧
    (parseLayout (layout 1 1 0 [1])).map (fun x => layoutFits parts x) = some false ∧
    (parseLayout (layout 1 0 0 [1])).map (fun x => decide (x.bays = 0)) = some true ∧ parseLayout (layout 1 4 0 [1, 1]) = none := by
  unfold Runs; decide +kernel
theorem witness_partition_state : (∀ e ∈ [(0x203, [(8 : Word)]), (0x204, [3]), (0x205, [0x90]), (0x206, [1])],
      Runs hb e.1 true (ask e.1 e.2 parts) ∧ boxPlen (box (ask e.1 e.2 parts) hb) = 8) ∧
    parts.pw.fenced = false ∧ (part parts 0).st = .active ∧ (part parts 3).st = .restarting ∧ (part parts 3).hold = true ∧
    (part parts 1).st = .standby ∧ movable parts 1 = true ∧ holdsQueue parts 1 = false ∧ movable parts 0 = false := by
  simp only [Runs]; decide +kernel

-- DeviceCommands
def rail0 (set : BitVec 16) (s : State) : State := updRail 0 (fun r => { r with set := set }) s
theorem witness_vcoreSet : Runs hb 0x302 true (ask 0x302 [0x2A80000] live) ∧ boxPlen (box (ask 0x302 [0x2A80000] live) hb) = 8 ∧
    Runs hb 0x302 true (ask 0x302 [0x3B60000] live) ∧ boxPlen (box (ask 0x302 [0x3B60000] live) hb) = 8 ∧
    ((0x2A80000 : Word).extractLsb' 16 16 : BitVec 16) = 680 ∧ ((0x3B60000 : Word).extractLsb' 16 16 : BitVec 16) = 950 ∧
    (rail live 0).req = none ∧ (die live 0).throttled = false ∧ (die (updDie 0 (fun d => { d with throttled := true }) live) 0).throttled = true ∧
    (updPw (fun p => { p with braced := true }) (rail0 900 live)).pw.braced = true ∧ (680 : Nat) < (rail (rail0 900 live) 0).set.toNat := by
  simp only [Runs]; decide +kernel
def devs : List (Nat × List Word) := [(0x303, [1]), (0x304, [0xFFFF]), (0x306, []), (0x307, []), (0x401, [0]), (0x402, [0x400]), (0x403, [0]),
  (0x404, [0]), (0x405, [0x20, 0xC0]), (0x406, [0])]
theorem witness_DeviceCommands : ∀ e ∈ devs, Runs hb e.1 true (ask e.1 e.2 live) ∧ boxPlen (box (ask e.1 e.2 live) hb) = 8 * e.2.length := by
  simp only [Runs]; decide +kernel
theorem witness_device_parameters : voteDom 1 159 = some (.core 159) ∧ voteDom 2 39 = some (.bay 39) ∧ voteDom 6 15 = some (.cluster 15) ∧
    voteDom 3 3 = some (.die 3) ∧ voteDom 4 15 = some (.channel 15) ∧ (voteDom 5 3).isSome = true ∧ voteDom 0 0 = none ∧
    (updPw (fun p => { p with mode := 6 }) live).pw.mode = 6 ∧ sisterMode live = true ∧ sisterAlive live (.core 0) = true ∧
    unitPresent live (.core 0) = true ∧ hasSpare live (.core 0) = true ∧ hasSpare (updBay 0 (fun b => { b with spare := 7 }) live) (.core 0) = false ∧
    (bay live 0).site3 ≠ 4 ∧ (bay live 0).retired.getLsbD 4 = false ∧ (chan live 0).st = 2 := by decide +kernel
def mirrored : State := { live with region := [(0, ⟨true, true, 0, 32, 3, 1⟩)], chan := [(0, { Chan.reset with st := 4, powered := true })] }
theorem witness_memory_repair : inMirror mirrored 0 = true ∧ (chan mirrored 0).st = 4 ∧ chanLive live 0 = true ∧
    (chan (chanS (fun k => { k with spareRank := true })) 0).spareUsed = false ∧ (chan live 0).job = none ∧ (chan live 0).jobs = [] ∧
    (chan live 0).pprUsed = [] ∧ hasJob (chan live 0) (.softPpr 0xC0) = false ∧ (chan (chanS (fun k => { k with eccMode := 1 })) 0).eccMode = 1 ∧
    (chan live 0).paired.getLsbD 1 = false ∧ (port (ring id id) 0).st ≠ 0 := by decide +kernel

-- StoreCommands: slot A active and the boot default
def stored2 (f : Store → Store) : State := updWr (fun w => { w with store := f { w.store with capacity := 0x4000000, active := some false } }) live
def slotW (off len : Nat) : State := askIn hb 0x502 (bytesOf 8 1 ++ bytesOf 8 (BitVec.ofNat 64 off) ++ bytesOf 8 (BitVec.ofNat 64 len) ++ bytesOf 8 0 ++
  List.replicate len 5) (stored2 id)
theorem witness_StoreCommands : Runs hb 0x502 true (slotW (slotSize 0x4000000 - 64) 64) ∧
    boxPlen (box (slotW (slotSize 0x4000000 - 64) 64) hb) = 0x20 + pageNat (box (slotW (slotSize 0x4000000 - 64) 64) hb) 0x50 2 % 4096 ∧
    slotSize 0x4000000 % 64 = 0 ∧ 64 ≤ slotSize 0x4000000 ∧ bootDefault (stored2 id).wr.store = false ∧ (stored2 id).wr.store.active ≠ some true := by
  unfold Runs; decide +kernel
theorem witness_store_slots : (∀ e ∈ [(0x503, [(1 : Word)]), (0x504, [1]), (0x505, [])], Runs hb e.1 true (ask e.1 e.2 (stored2 id)) ∧
      boxPlen (box (ask e.1 e.2 (stored2 id)) hb) = 8 * e.2.length) ∧
    verifySlot Config.storeKeyHash 0 (slotSize 0x4000000) (slotOf (stored2 id).wr.store true) = some 9 ∧
    (slotOf (stored2 (fun st => { st with slotB := { st.slotB with cond := 1 } })).wr.store true).cond = 1 ∧
    (stored2 (fun st => { st with active := some true })).wr.store.active = some true ∧
    (stored2 id).wr.store.sel0.gen ≠ BitVec.allOnes _ := by simp only [Runs]; decide +kernel
/-- A slot whose header passes; whether it verifies rests on the hash and the signature, which the model leaves open. -/
def okSlot : Slot := ⟨1, writeList 0 (bytesOfNat 4 0x4C4D4C46 ++ bytesOfNat 2 1 ++ [0, 0] ++ bytesOfNat 8 5 ++ bytesOfNat 4 0x1000 ++ bytesOfNat 4 64 ++
  bytesOfNat 4 0x2000 ++ bytesOfNat 4 64) []⟩
theorem witness_slotPasses (hk : Config.sha384 (slotBytes okSlot 0xE0 97) = Config.storeKeyHash)
    (hs : Config.ecdsaVerify 0 (Config.sha384 (slotBytes okSlot 0 0x80)) (slotBytes okSlot 0x80 96 ++ slotBytes okSlot 0xE0 97) = true)
    (hf : Config.sha384 (slotBytes okSlot 0x1000 64) = slotBytes okSlot 0x20 48)
    (ht : Config.sha384 (slotBytes okSlot 0x2000 64) = slotBytes okSlot 0x50 48) :
    verifySlot Config.storeKeyHash 0 (slotSize 0x4000000) okSlot = none := by
  have h1 : slotNat okSlot 0x10 4 = 0x1000 := by decide +kernel
  have h2 : slotNat okSlot 0x14 4 = 64 := by decide +kernel
  have h3 : slotNat okSlot 0x18 4 = 0x2000 := by decide +kernel
  have h4 : slotNat okSlot 0x1C 4 = 64 := by decide +kernel
  have h5 : (slotNat okSlot 0 4 ≠ 0x4C4D4C46 || slotNat okSlot 4 2 ≠ 1 || 64 < rbIndex okSlot || 786432 < 64 || 65536 < 64 ||
    !areaOk (slotSize 0x4000000) 0x1000 64 || !areaOk (slotSize 0x4000000) 0x2000 64) = false := by decide +kernel
  unfold verifySlot
  simp only [h1, h2, h3, h4]
  simp [hk, hs, hf, ht]
  exact by simpa using h5

-- InstanceAndQueueCommands
def hostS : State := qs false false []
def instBody (i base n : Nat) (r0 r1 : Word) : List Word := [BitVec.ofNat 64 (i + base * 65536 + n * 2 ^ 32), r0, r1] ++ List.replicate 14 0
def qBody (q i sl : Nat) : List Word := [BitVec.ofNat 64 (q + i * 65536 + sl * 2 ^ 24), 0x10040030004 + 0, 0x100000, 0x100000]
theorem witness_InstanceAndQueueCommands : ∀ e ∈ [(0x601, instBody 3 2044 4 0x1001 0xF000), (0x602, instBody 0 0 2048 1 0x1FF000), (0x603, [(3 : Word)]),
      (0x604, [0]), (0x605, qBody 6 0 8), (0x606, qBody 5 0 7), (0x607, [0x10005]), (0x608, [5]), (0x609, [0x7F])],
    Runs hb e.1 true (ask e.1 e.2 hostS) ∧ boxPlen (box (ask e.1 e.2 hostS) hb) = 8 * e.2.length := by simp only [Runs]; decide +kernel
def named (code : Nat) (ws : List Word) : MboxSt := box (ask code ws hostS) hb
theorem witness_instances : ¬ Reserved (named 0x601 (instBody 3 2044 4 0x1001 0xF000)) 0x40 0xFFF07FF00FF ∧ 2044 + 4 ≤ 2048 ∧
    (∀ k : Fin 8, ¬ Reserved (named 0x601 (instBody 3 2044 4 0x1001 0xF000)) (0x48 + 16 * k.val) 0xFFFFFFFFFFFFF001 ∧
      ¬ Reserved (named 0x601 (instBody 3 2044 4 0x1001 0xF000)) (0x50 + 16 * k.val) 0xFFFFFFFFFFFFF000) ∧
    (inst hostS 3).st = 0 ∧ blockTaken hostS 3 2044 4 = false ∧ (inst hostS 0).st ≠ 0 ∧ vectorUsed hostS 0 0 2048 = false ∧
    blockTaken hostS 0 0 2048 = false ∧ (inst { hostS with inst := [(3, { Inst.reset with st := 1 })] } 3).qmap = [] ∧
    ownedByInst (queue hostS 5) 0 = true := by unfold Reserved; decide +kernel
theorem witness_queues : imagesFit (named 0x605 (qBody 6 0 8)) = true ∧ (queue hostS 6).slot = none ∧ heldOf hostS 6 = 0 ∧
    look none (inst hostS 0).qmap 8 = none ∧ ringsFit (named 0x605 (qBody 6 0 8)) (inst hostS 0) = true ∧
    (look none (inst hostS 0).qmap 7).map (·.val) = some 5 ∧ imagesFit (named 0x606 (qBody 5 0 7)) = true ∧
    (queue hostS 5).en = false ∧ heldOf hostS 5 = 0 ∧ sumsFit hostS 5 2 false = true ∧ (queue hostS 5).slot ≠ none ∧ (inst hostS 0).st ≠ 2 := by
  decide +kernel

-- UrgentCommands: each scope at the bounds of its index; a fence being delivered
theorem witness_UrgentCommands : (∀ e ∈ [(0x901, [(0x3FF0000 : Word)]), (0x901, [0xFF0001]), (0x901, [2]), (0x902, [0x50000]), (0x903, [])],
      Runs .mgmtUrgent e.1 true (askIn .mgmtUrgent e.1 (e.2.flatMap (bytesOf 8)) hostS) ∧
      boxPlen (box (askIn .mgmtUrgent e.1 (e.2.flatMap (bytesOf 8)) hostS) .mgmtUrgent) = 8 * e.2.length) ∧
    ((0x3FF0000 : Word).extractLsb' 16 10 : BitVec 10).toNat = 1023 ∧ ((0xFF0001 : Word).extractLsb' 16 10 : BitVec 10).toNat ≤ 255 ∧
    hostS.pw.fenced = false ∧ mainOn hostS = true := by simp only [Runs]; decide +kernel
def fencing2 (t0 : Word) (ent : Tbl Entry) : State := updPw (fun p => { p with fence := .delivering t0 3 .mgmtUrgent }) (qs false false ent)
theorem witness_fenceDelivery : (fencing2 5 []).pw.fence = .delivering 5 3 .mgmtUrgent ∧ inflight (fencing2 5 []) = 0 ∧
    inflight (fencing2 5 [(0, one)]) ≠ 0 ∧ (4999000000 : Word).toNat + 1000000 ≤ (fencing2 4999000000 []).time.now.toNat ∧
    (fencing2 4999000001 []).time.now.toNat < (4999000001 : Word).toNat + 1000000 := by decide +kernel

-- ManagementBus: both strap values, the two pages, and STANDBY
def bus (i3c : Bool) : State := updPw (fun p => { p with straps := { p.straps with mgmtI3c := i3c } }) live
theorem witness_ManagementBus : (bus false).pw.sillOn = true ∧ (bus false).pw.straps.mgmtI3c = false ∧ (bus true).pw.straps.mgmtI3c = true ∧
    natOfBytes [0, 0, 0, 4] % 4 = 0 ∧ natOfBytes [1, 0, 0, 4] % 4 ≠ 0 ∧ (List.replicate 32 (0 : Byte)).length ≤ 32 ∧
    0x4002000 + 0x1000 ≤ 0x4002000 + 0x1000 ∧ (box (bus true) .mgmt).st ≠ 1 ∧ standbyCond State.reset = true ∧ State.reset.pw.sillOn = true := by
  decide +kernel

end Sys2Proof.Tests

namespace Sys2Proof.Tests
open Sys2Proof.Machine
set_option Elab.async false

/-! ## Witnesses: power, resets, bring-up and time -/

-- PowerDomains: bay 2 belongs to no partition and its cores hold no vote; one that does
def domS (f : State → State) : State := f { live with
  core := [(8, { Core.reset with powered := true }), (9, { Core.reset with powered := true, hvote := true })]
  cluster := [(1, { Cluster.reset with powered := true })]
  chan := [(0, { Chan.reset with st := 2, powered := true }), (3, { Chan.reset with powered := true })]
  pw := { live.pw with dvotes := 0, dies := [(3, { Die.reset with powered := true })] } }
def cold10 : State := domS (fun s => { updBay 2 (fun b => { b with powered := true, amCur := 4, retWays := 0x40 }) s with core := [] })
theorem witness_PowerDomains : mayDrop (domS id) = true ∧ (Machine.core (domS id) 8).powered = true ∧ coreVoted (domS id) 8 = false ∧
    coreVoted (domS id) 9 = true ∧ (Machine.core (domS id) 8).soloActive = false ∧ (Machine.core (domS id) 8).soloWait = none ∧
    (Machine.core (domS id) 8).ccWait = none ∧ drained (domS id) (.core 8) = true := by decide +kernel
theorem witness_bayDrop : mayDrop cold10 = true ∧ (bay cold10 2).powered = true ∧ (bay cold10 2).amCur.toNat ≤ 4 ∧ bayVoted cold10 2 = false ∧
    (bay cold10 2).reqs = [] ∧ (bay cold10 2).amBusy = false ∧ (0 : Nat) < 2 * (bay cold10 2).amCur.toNat ∧ (bay cold10 2).retWays.getLsbD 7 = false ∧
    (bay cold10 2).retWays.getLsbD 6 = true := by decide +kernel
theorem witness_domainDrop : (cluster (domS id) 1).powered = true ∧ clusterVoted (domS id) 1 = false ∧ clusterVoted (domS id) 0 = true ∧
    (die (domS id) 3).powered = true ∧ dieVoted (domS id) 3 = false ∧ dieUsed (domS id) 3 = false ∧ (chan (domS id) 3).powered = true ∧
    chanVoted (domS id) 3 = false ∧ chanOwned (domS id) 3 = false ∧ chanOwned (domS id) 0 = true ∧
    (port (updPort 2 (fun p => { p with powered := true }) live) 2).powered = true ∧ portVoted (updPort 2 (fun p => { p with powered := true }) live) .N = false := by
  decide +kernel
def asleep : State := domS (fun s => { updBay 2 (fun b => { b with hvote := true }) s with
  core := [(8, { Core.reset with hvote := true, powered := false })]
  cluster := [(1, { Cluster.reset with hvote := true, powered := false })]
  pw := { s.pw with retained := [(32, some { Thread.reset with run := .dozing })], dies := [(0, { Die.reset with powered := true })] } })
theorem witness_domainWake : mainOn asleep = true ∧ coreVoted asleep 8 = true ∧ siteOfCore asleep 8 ≠ 7 ∧ (Machine.core asleep 8).powered = false ∧
    thrKey (.core 32) = 32 ∧ bayVoted asleep 2 = true ∧ clusterVoted asleep 1 = true ∧ (cluster asleep 1).powered = false ∧
    dieVoted (updDie 3 (fun d => { d with hvote := true }) asleep) 3 = true ∧ (die asleep 0).powered = true ∧ (die (updDie 0 (fun d => { d with powered := false }) asleep) 0).powered = false ∧ chanOwned asleep 0 = true ∧
    portVoted (updPort 2 (fun p => { p with hvote := true }) asleep) .N = true ∧ (port asleep 2).powered = false ∧ (port asleep 2).st = 0 := by
  decide +kernel

-- CountersAndRegisters: at K; a window at its end; the host, the Wright and a thread that write registers
theorem witness_CountersAndRegisters : MayMts atKpriv (.core 0) 3 ∧ (queue (qs true false []) 5).en = true ∧
    (4999000000 : Word).toNat + live.bw.window.toNat * 1000 ≤ live.time.now.toNat ∧ mainOn live = true ∧ live.wr.st = .serving ∧
    ((1000000 : Word).extractLsb' 0 20 : BitVec 20).toNat ≤ 1000000 ∧ (0x104 : BitVec 48).toNat % 2 ^ 3 ≠ 0 := by
  unfold MayMts GoesAlone Goes; decide +kernel
theorem witness_registerWrite : hostServed (qs true false []) = true ∧ (qs true false []).pw.fence ≠ .done ∧ (qs true false []).ep.frozen = false ∧
    regionOk live (.core 0) .store (BitVec.ofNat 48 (0xF00018003000 + 16 * 7)) = true ∧
    regionOk live (.core 0) .store (BitVec.ofNat 48 (0xF00018110000 + 8 * 639)) = true := by decide +kernel

-- ResetsAndPins
def off : State := updPw (fun p => { p with sillOn := false }) State.reset
def pins (low : Bool) (t : Word) : State := updPw (fun p => { p with resetN := !low, resetNAt := t }) live
def flushing (t : Word) (ent : Tbl Entry) : State := updPw (fun p => { p with flush := some t }) (qs false false ent)
theorem witness_ResetsAndPins : live.pw.sillOn = true ∧ off.pw.sillOn = false ∧ live.pw.pwrgood = true ∧ State.reset.pw.pwrgood = false ∧
    railVolt live 4 679 < 680 ∧ 680 ≤ railVolt live 4 680 ∧ railVolt live 11 1549 < 1550 ∧ 1550 ≤ railVolt live 11 1550 ∧ mainOn live = true ∧ live.pw.flush = none ∧
    (pins true 4998000000).pw.resetNAt.toNat + 2000000 ≤ (pins true 4998000000).time.now.toNat ∧ (pins true 0).pw.resetN = false ∧
    (pins true 4998000001).time.now.toNat < (pins true 4998000001).pw.resetNAt.toNat + 2000000 ∧
    (entry (qs false false [(0, one)]) 0).st ≠ .free := by decide +kernel
theorem witness_warmReset : (box (updBox hb (fun b => { b with resp := some ⟨0, 3, []⟩ }) (ask 0x307 [] live)) hb).resp = some ⟨0, 3, []⟩ ∧
    boxCode (box (ask 0x307 [] live) hb) = 0x307 ∧ inflight (flushing 5 []) = 0 ∧ inflight (flushing 4999000001 [(0, one)]) ≠ 0 ∧
    (flushing 4999000000 [(0, one)]).time.now.toNat = 4999000000 + 1000000 := by decide +kernel

-- BringUp
def ready0 : State := updPw (fun p => { p with inReset := true, resetN := true, resetNAt := 0 }) live
def tests0 : State := updDie 0 (fun d => { d with powered := true }) live
theorem witness_BringUp : mayBringUp ready0 = true ∧ ready0.pw.fenced = false ∧ mainOn tests0 = true ∧ (die tests0 0).powered = true ∧
    (die tests0 0).tested = false ∧ (die tests0 0).railDown = false ∧ siteOfCore tests0 4 = BitVec.ofNat 3 0 ∧ (4 : Nat) / 4 = 10 * 0 + 1 ∧
    hasSpare tests0 (.core 4) = true ∧ (bay tests0 1).spare ≠ BitVec.ofNat 3 0 ∧ hasSpare (updBay 1 (fun b => { b with spare := 7 }) tests0) (.core 4) = false := by
  decide +kernel
def bootS (st : WrightSt) (u : Update) (f : Store → Store) : State := updWr (fun w => { w with
  st := st, update := u, order := [hb], store := f { w.store with capacity := 0x4000000 } }) live
theorem witness_boot : (bootS .booting .none id).pw.clkWright = false ∧ bootDefault (bootS .booting .none id).wr.store = false ∧
    slotPasses (bootS .booting .none id) false = false ∧ slotPasses (bootS .booting .none id) true = false := by decide +kernel
theorem witness_boot_passes (h : verifySlot Config.storeKeyHash 0 (slotSize 0x4000000) okSlot = none) :
    slotPasses (bootS .booting .none (fun st => { st with slotA := okSlot })) false = true := by
  have e : verifySlot Config.storeKeyHash (bootS .booting .none (fun st => { st with slotA := okSlot })).wr.store.fuse.toNat
    (slotSize (bootS .booting .none (fun st => { st with slotA := okSlot })).wr.store.capacity)
    (slotOf (bootS .booting .none (fun st => { st with slotA := okSlot })).wr.store false) = none := h
  unfold slotPasses; rw [e]; rfl
/-- A settings record with the monitor of partition 0, in slot A. -/
def monBytes : List Byte := bytesOf 8 (BitVec.ofNat 64 (4 + 80 * 2 ^ 32)) ++ bytesOf 8 1 ++ bytesOfNat 4 0x2000 ++ bytesOfNat 4 16 ++ bytesOf 8 0x1000 ++
  bytesOf 8 0 ++ List.replicate 48 0
def monSlot : Slot := ⟨1, writeList 0x18 (bytesOfNat 4 0x1000 ++ bytesOfNat 4 monBytes.length) (writeList 0x1000 monBytes [])⟩
def starting (st : Store → Store) : State := updPart 0 (fun p => { p with st := .restarting, started := false, reason := 2 })
  (updPw (fun p => { p with ready := { p.ready with ch := 1 } }) (updWr (fun w => { w with store := st { w.store with capacity := 0x4000000, active := some false, slotA := monSlot } }) live))
theorem witness_monitorImageLoaded : startPending (starting id) 0 = true ∧ lowestReady (starting id) 0 = true ∧
    (monitorOf (starting id) 0).map (monitorFits (starting id)) = some true ∧ (part (starting id) 0).ranges = [0] ∧
    monitorOf (starting (fun st => { st with slotA := ⟨1, []⟩ })) 0 = none ∧ (starting id).pw.bringing = false ∧ (starting id).pw.fenced = false ∧
    (∀ b : Fin 2, (bay (starting id) b.val).failed = false) := by decide +kernel
def bringing (now vset : Bool) : State := updPw (fun p => { p with
  bringing := true, bringupAt := 0, bringupTmo := if now then 5000000000 else 5000000001
  ready := { p.ready with vset := vset, ch := 1 } }) (updPort 1 (fun k => { k with st := 5 }) (updPort 0 (fun k => { k with st := 5 }) live))
theorem witness_bringupDone : (bringing true true).pw.bringing = true ∧ (bringing true true).pw.ready.vset = true ∧
    (∀ c ∈ expectedChans (bringing true true), chanSettled (bringing true true) c = true) ∧
    (∀ x ∈ expectedPorts (bringing true true), portSettled (bringing true true) x = true) ∧ partSettled (bringing true true) 0 = true ∧
    0 + (bringing true true).pw.bringupTmo.toNat ≤ (bringing true true).time.now.toNat ∧
    ¬ 0 + (bringing false true).pw.bringupTmo.toNat ≤ (bringing false true).time.now.toNat ∧ (bringing false false).pw.ready.vset = false := by decide +kernel
theorem witness_watchdog : live.wr.st = .serving ∧ live.wr.restarts.length < 2 ∧
    2 ≤ ([4999999999, 4999999998] : List Word).length ∧ (bootS .serving (.taken hb true) id).wr.update = .taken hb true ∧
    (∀ k ∈ (bootS .serving (.taken hb true) id).wr.order, k = hb) ∧
    (4800000000 : Word).toNat + 200000000 ≤ (bootS .restarting (.starting hb true 4800000000) id).time.now.toNat ∧
    (bootS .restarting (.returning hb true) (fun st => { st with active := some false })).wr.store.active = some false ∧
    (bootS .restarting .none (fun st => { st with active := some false })).wr.st = .restarting := by decide +kernel

-- RailsHeatAndTime: each side of each level
def hot (tj : BitVec 16) (f : Die → Die) : State := updDie 0 (fun d => f { d with tj := tj }) (rail0 855 live)
theorem witness_RailsHeatAndTime : watched live 0 = true ∧ watched State.reset 4 = true ∧ railVolt live 0 619 < warnLevel 0 ∧ warnLevel 0 ≤ railVolt live 0 620 ∧
    railVolt (updRail 0 (fun r => { r with set := 850, req := some (700, 5) }) live) 0 900 = 700 ∧ thermalClear live = true ∧
    railsClear live = true ∧ (updPw (fun p => { p with braced := true }) live).pw.braced = true ∧ railVolt live 0 549 < 550 ∧ 550 ≤ railVolt live 0 579 ∧ railVolt live 0 579 < 580 ∧
    580 ≤ railVolt live 0 580 ∧ railVolt live 6 1049 < 1050 ∧ 1050 ≤ railVolt live 6 1050 ∧ railVolt live 10 799 < 800 ∧ 800 ≤ railVolt live 10 800 ∧ (part live 0).bays.getLsbD 0 = true ∧
    (die (updDie 0 (fun d => { d with recoverFrom := some 4999950000, railDown := true }) live) 0).recoverFrom = some 4999950000 ∧
    (4999950000 : Word).toNat + 50000 ≤ live.time.now.toNat := by decide +kernel
theorem witness_thermal : 1040 ≤ (1040 : BitVec 16).toInt ∧ (1039 : BitVec 16).toInt < 1040 ∧ ((live.pw.thLimit.toNat : Int) * 8 ≤ 1039) ∧
    standbyCond live = false ∧ (dimms live 0).slot0.isSome = true ∧
    (dimms { live with dimms := [(0, ⟨(dimms live 0).slot0, (dimms live 0).slot0⟩)] } 0).slot1.isSome = true ∧ (760 : BitVec 16).toInt ≤ 760 ∧ 760 < (761 : BitVec 16).toInt ∧
    (die (hot 100 id) 0).tj.toInt ≤ ((live.pw.thLimit.toNat : Int) - live.pw.thHyst.toNat) * 8 := by decide +kernel
theorem witness_throttleStep : (rail (hot 1000 id) 0).req = none ∧ (rail (hot 1000 id) 0).set ≠ 0 ∧ (die (hot 1000 id) 0).stepAt = none ∧
    ((hot 1000 id).pw.thLimit.toNat : Int) * 8 ≤ (die (hot 1000 id) 0).tj.toInt ∧ (rail (hot 1000 id) 0).warn = false ∧
    (hot 1000 id).pw.thFloor.toNat < (rail (hot 1000 id) 0).set.toNat ∧ (hot 1000 id).pw.thStep ≠ 0 ∧
    (die (hot 100 (fun d => { d with throttled := true, opPoint := 900 })) 0).throttled = true ∧ thermalClear (hot 100 id) = true := by decide +kernel
def asked0 (t : Word) : State := updRail 0 (fun r => { r with req := some (800, t) }) live
theorem witness_regulatorAck : (rail (asked0 4999000000) 0).req = some (800, 4999000000) ∧ railNo (.vcore 0) = 0 ∧ (810 : BitVec 16).toNat ≤ (800 : BitVec 16).toNat + 10 ∧
    99 * (800 : BitVec 16).toNat ≤ 100 * (792 : BitVec 16).toNat ∧ 100 * (808 : BitVec 16).toNat ≤ 101 * (800 : BitVec 16).toNat ∧
    (4999000000 : Word).toNat + 1000000 ≤ live.time.now.toNat ∧ live.time.now.toNat < (4999000001 : Word).toNat + 1000000 := by decide +kernel
def clock (corr : BitVec 32) (once since : Bool) : State := { qs true false [] with
  time := { live.time with corr := corr, alignedOnce := once, alignedSince := since } }
theorem witness_time : (clock 21474836 false false).pw.clkSill = false ∧ (clock 21474836 false false).time.now.toNat + 100 < 2 ^ 64 ∧
    (clock 21474836 false false).time.corr.toInt = 21474836 ∧ (clock (-21474836) true true).time.corr.toInt = -21474836 ∧
    (clock 0 false false).pw.straps.frameHead = true ∧ (clock 0 false false).ep.up = true ∧ timeSource (clock 0 false false) = 1 ∧
    (clock 0 true true).time.alignedSince = true ∧ (part (clock 0 true false) 0).st = .active ∧ (41 : BitVec 64).toInt.natAbs = 41 := by decide +kernel

def powered0 (t0 : Word) : State := updDie 0 (fun d => { d with powered := true, winFrom := t0 }) live
theorem witness_beats : (die (powered0 5) 0).powered = true ∧ (die (powered0 5) 0).winFrom.toNat + 4096 ≤ (powered0 5).time.now.toNat ∧
    ¬ (die (powered0 4999999999) 0).winFrom.toNat + 4096 ≤ (powered0 4999999999).time.now.toNat ∧ (die live 1).powered = false := by decide +kernel
theorem witness_crossings : live.xing = [] ∧ (updPw (fun p => { p with clkEp := true }) live).pw.clkEp = true ∧
    usedEntries (crossingOf live .endpoint).toFabric ≤ crossingDepth .endpoint := by decide +kernel

-- StepRunsFrontCommand and ResetState have no other hypothesis than an empty queue
theorem witness_StepRunsFrontCommand : live.pending = [] := by decide +kernel

-- MemoryFormKept: memory in its form, with bytes written at both ends of DRAM's first and of the engine's scratch, and a step that writes
def kept : State := { live with
  mem := writeList 0x3000 [1, 2] (writeList 0xF00004003000 [9] live.mem), old := [(0xC0, some (5, true))], poison := [3, 7], pending := [.std (.adze 0) ⟨3, 12, 0⟩] }
theorem witness_MemoryFormKept : kept.memOk ∧ ∃ u, step kept = .next u ∧ readByte u 0xF00004003000 = 3 ∧ readByte u 0x3000 = 1 := by
  have h : (match step kept with | .next u => readByte u 0xF00004003000 = 3 && readByte u 0x3000 = 1 | _ => false) = true := by decide +kernel
  refine ⟨by unfold State.memOk; decide +kernel, ?_⟩
  revert h
  cases hs : step kept with
  | next u => intro h; exact ⟨u, rfl, by simpa using h⟩
  | _ => intro h; simp at h

end Sys2Proof.Tests

namespace Sys2Proof.Tests
open Sys2Proof.Machine
set_option Elab.async false

/-! ## Witnesses: the further clauses of statements above -/

-- InstructionsInFlight: a store whose address is not known, and a younger load of its bytes that has read memory
def unknown : Access := { plainAccess 4 0 .store 0x3004 0x3004 1 5 with known := false }
def loaded (pa : BitVec 48) : UOp :=
  { inFlight false none with seq := 2, ld := some ⟨pa, none, 8, false, false, false, some 9, none, [], [], false⟩ }
def early2 (pa : BitVec 48) : State := updThr (.core 0) (fun th => { th with stores := [unknown], unconf := [loaded pa] }) live
theorem witness_storeAddressKnown : (die (early2 0x3000) 0).stalled = false ∧ unknown.seq = 0 ∧ unknown.known = false ∧
    (thr (early2 0x3000) (.core 0)).unconf.find? (violates [unknown] 0) = some (loaded 0x3000) ∧
    (thr (early2 0x3000) (.core 0)).unconf.find? (fun y => decide ((loaded 0x3000).seq ≤ y.seq)) = some (loaded 0x3000) ∧
    (thr (early2 0x4000) (.core 0)).unconf.find? (violates [unknown] 0) = none := by decide +kernel

-- Forwards: a bay's discard of a line its core wrote
theorem witness_Forwards_discard : look none ({ owned .M with old := [(l3000.toNat, some (5, true))] }).old l3000.toNat = some (5, true) ∧
    lineState (bay (owned .M) 0).l2 (l2Set l3000) l3000 = .M ∧ lineServed (owned .M) l3000 = true := by decide +kernel

-- Dram: a sweep at a line's place and past it, at its end and short of it; a patrol due on a serving channel
def sweeping (j : ChanJob) (p : BitVec 42) : State := chanS (fun k => { k with st := 3, job := some j, sweep := p })
theorem witness_Dram_sweeps : atPointer (sweeping (.rankCopy (BitVec.ofNat 4 loc0.rank)) (BitVec.ofNat 42 (loc0.ca / 64))) 0 loc0 = true ∧
    atPointer (sweeping (.pairing (BitVec.ofNat 4 loc0.rank)) (BitVec.ofNat 42 (loc0.ca / 64 + 1))) 0 loc0 = false ∧ chanReads live 0 = true ∧
    (0 : BitVec 42).toNat < chanGib live 0 * 2 ^ 24 ∧ chanGib live 0 * 2 ^ 24 ≤ (BitVec.allOnes 42).toNat ∧
    patrolWaits (patrolS 0) 0 = false ∧ chanReads (patrolS 0) 0 = true ∧
    (chan (chanS (fun k => { k with st := 5, job := some .resilver })) 0).job = some .resilver := by decide +kernel

-- EndpointLink: a host write of a register, served and not; EndpointReads: a poisoned piece with more to come
theorem witness_EndpointLink_registers : regServed (ep id) = true ∧ (ep id).pw.clkEp = false ∧
    regServed (updPw (fun p => { p with fence := .done }) (ep id)) = false ∧
    rd0.got.length + (List.replicate 63 (0 : Byte)).length < rd0.len := by decide +kernel

-- Windows: a thread that reaches its die's mailboxes, and one of a die that does not run
theorem witness_Windows_pages : threadReaches live (.core 0) (devBoxAddr (.core 0) 0xFFF) = true ∧
    threadReaches State.reset (.core 0) (devBoxAddr (.core 0) 0) = false ∧ (ring id id).pw.clkSill = false ∧ (ring id id).pw.clkEp = false ∧
    (3 : Nat) ≠ 4 ∧ (3 : Nat) ≠ 8 := by decide +kernel

-- RidgeLinkLayer: a port that waits for INIT; a partner too far; RidgeRing: JOIN_REQ due and not; RING_STATE seen and new
theorem witness_RidgeLinkLayer_init : (port (ring (fun k => { k with awaitInit := true }) id) 0).awaitInit = true ∧
    (port (ring id id) 0).awaitInit = false ∧ portUp (ring id id) .W = true ∧ trains (port (ring (fun k => { k with st := 1 }) id) 0) = true ∧
    2 < bypassedCount (ring id (fun r => { r with pop := BitVec.allOnes 64 })) .W (devOf 1 60) ∧
    clockStopped (ring id id) (.ridge .W) = false := by decide +kernel
theorem witness_RidgeRing_asking : (pairOf (stepS .asking false false 2) false).lastAsk.toNat + 1000 ≤ (stepS .asking false false 2).time.now.toNat ∧
    ({ stepS .asking false false 2 with time := { TimeBase.reset with now := 1002 } }).time.now.toNat < (3 : Word).toNat + 1000 ∧
    (∀ x ∈ pairPorts false, clockStopped (stepS .asking false false 2) (.ridge x) = false) ∧
    lastSeen (ring id (fun r => { r with seen := [(1, some 4)], seenCol := some 4 })) false 1 = some 4 ∧
    lastSeen (ring id id) false 1 ≠ some 4 ∧ lastSeen (ring id id) true 1 ≠ some 4 := by decide +kernel

-- DeviceCommands: a header with a reserved bit; a mailbox whose turn it is not
theorem witness_headerFits : headerFits (box (askIn hb 0x302 (List.replicate 8 0) hostS) hb) = true ∧
    headerFits { MboxSt.reset with page := [(7, 0x80)] } = false ∧
    waitsTurn { askIn .mgmt 0x201 (List.replicate 8 0) hostS with wr := { (askIn .mgmt 0x201 [] hostS).wr with order := [.mgmt, hb] } } hb = false ∧
    waitsTurn (updWr (fun w => { w with order := [.mgmt, hb] }) (askIn .mgmt 0x205 (List.replicate 8 0) hostS)) hb = true := by decide +kernel

-- UrgentCommands: with an open pair and without, and the last pair about to leave
def fencing3 (o : Bool) (st : PairStep) (f : FenceStep) : State :=
  { fencing2 5 [] with ridge := { Ridge.reset with we := { Pair.reset with isOpen := o, step := st } }, pw := { (fencing2 5 []).pw with fence := f } }
theorem witness_fenceLeaves : (∀ ns, (pairOf (fencing2 5 []) ns).isOpen = false) ∧
    (pairOf (fencing3 true .idle (.delivering 5 3 .mgmtUrgent)) false).isOpen = true ∧
    (pairOf (fencing3 true .idle (.delivering 5 3 .mgmtUrgent)) false).step = .idle ∧
    (fencing3 true .drained (.leaving 5 3 .mgmtUrgent)).pw.fence = .leaving 5 3 .mgmtUrgent ∧
    (pairOf (fencing3 true .drained (.leaving 5 3 .mgmtUrgent)) false).step = .drained ∧
    (pairOf (fencing3 true .drained (.leaving 5 3 .mgmtUrgent)) true).isOpen = false := by decide +kernel

-- BringUp: a watchdog that 50 ms have passed on, and one serviced since
theorem witness_watchdogDue : live.wr.st = .serving ∧ live.wr.wdServed.toNat + 50000000 ≤ live.time.now.toNat ∧
    ¬ (updWr (fun w => { w with wdServed := 4950000001 }) live).wr.wdServed.toNat + 50000000 ≤ live.time.now.toNat := by decide +kernel

-- PowerDomains: a bay to drop with one line left, with and without a write-back entry for it
def lastLine (n : Nat) : State := updBay 2 (fun b => { b with
  l2 := [(16 * l2Set l3000, ⟨l3000, .M, 0, 3, 3, false⟩)], wb := List.replicate n ⟨0, true, true, 0⟩ }) cold10
theorem witness_bayDrop_lines : (bay (lastLine 15) 2).l2 = [(16 * l2Set l3000, ⟨l3000, .M, 0, 3, 3, false⟩)] ∧
    16 * l2Set l3000 ∈ wayKeys (l2Set l3000) 16 ∧ wbRoom (bay (lastLine 15) 2) = true ∧ wbRoom (bay (lastLine 16) 2) = false ∧
    (∀ e ∈ (bay cold10 2).l2, e.2.st = .I) := by decide +kernel

end Sys2Proof.Tests
end

section
/-! Exception entry (R105, R107): the level an exception is taken at, what it leads to there, and what an entry writes. -/
namespace Sys2Proof.Machine

/-- R105: an exception is taken at M where its number sends it there, where the thread runs at M, or where EXC_ROUTE
routes it to M. -/
def takenAtM (th : Thread) (code : Nat) : Prop :=
  code = 13 ∨ code = 18 ∨ th.tstat.priv = .M ∨
    (if code = 0x20 then th.irqM = true else th.route.getLsbD (code - 1) = true)

variable {th : Thread} {e : Exc} {pc : Word}

theorem excLevel_of_takenAtM {code : Nat} (hc : 1 ≤ code) (hc' : code ≤ 18 ∨ code = 0x20) (h : takenAtM th code) :
    excLevel th code = .M := by
  unfold excLevel
  rcases h with rfl | rfl | hp | hr
  · rfl
  · rfl
  · simp [hp]
  · by_cases hi : code = 0x20
    · simp_all
    · have hle : code ≤ 18 := hc'.resolve_right hi
      simp_all

theorem excLevel_of_not_takenAtM {code : Nat} (h : ¬ takenAtM th code) : excLevel th code = .K := by
  simp only [takenAtM, not_or] at h
  obtain ⟨h13, h18, hp, hr⟩ := h
  unfold excLevel
  by_cases hi : code = 0x20 <;> simp_all

/-- R107 at M: an open frame stops the thread. -/
theorem entering_of_level_M (h : excLevel th e.code = .M) :
    entering th e pc = if th.tstat.mFrame then .stop (causeWord e) else .at .M e := by
  unfold entering
  rw [h]

/-- R107 at K: an open frame leads to DOUBLE at M, with the first number in M_EINFO. -/
theorem entering_of_level_K (h : excLevel th e.code = .K) :
    entering th e pc =
      if th.tstat.kFrame = false then .at .K e
      else if th.tstat.mFrame then .stop (causeWord (excPlain 18 pc (BitVec.ofNat 64 e.code)))
      else .at .M (excPlain 18 pc (BitVec.ofNat 64 e.code)) := by
  unfold entering
  rw [h]
  cases th.tstat.kFrame <;> rfl

/-- R105: no entry lowers the privilege. -/
theorem excLevel_ge (th : Thread) (code : Nat) : privGe (excLevel th code) th.tstat.priv = true := by
  unfold excLevel
  cases th.tstat.priv with
  | U => exact decide_eq_true (Nat.zero_le _)
  | K =>
    repeat' split
    all_goals rfl
  | M => simp [privGe]

/-- R105: execution goes on at X_EVEC, or 0x80 above it for the interrupt. -/
theorem enterLevel_pc (x : Priv) : (enterLevel x e pc th).pc =
    (((if x = .M then th.xm else th.xk).evec ++ (0 : BitVec 8)).signExtend 64) + (if e.code = 0x20 then 0x80 else 0) := by
  by_cases hi : e.code = 0x20 <;> cases x <;> simp [enterLevel, sext48, hi]

/-- Settles O9: what an entry writes is read off `enterLevel` at K and at M, and the level is taken in the two cases of
`takenAtM`. -/
theorem exceptionEntry : Obligations.ExceptionEntry := by
  refine ⟨fun th x e pc hx => ?_, fun th e pc h1 h2 => ⟨fun h => ?_, fun h => ?_, excLevel_ge th e.code⟩⟩
  · obtain rfl | rfl := hx
    · exact ⟨rfl, rfl, rfl, enterLevel_pc .K, rfl, rfl, rfl, rfl, rfl, rfl, rfl⟩
    · exact ⟨rfl, rfl, rfl, enterLevel_pc .M, rfl, rfl, rfl, rfl, rfl, rfl, rfl⟩
  · exact entering_of_level_M (excLevel_of_takenAtM h1 h2 h)
  · exact entering_of_level_K (excLevel_of_not_takenAtM h)

end Sys2Proof.Machine
end

section
/-! Retirement and the shim buffer (R126): an instruction that retires with none older in flight frees the shim entries of
its thread, and `Retired` lets the core's state not change. -/
namespace Sys2Proof.Machine

/-- A peek of thread 0 of a core that is not answered yet. -/
def peekOfThread0 : ShimE :=
  { thr := 0, seq := 0, instr := false, found := [], line := 0x40, data := 0, poison := false, filled := false
    deferred := false, walk := none }

/-- Core thread 0 runs at M at address 0, where `m` holds its next instruction, which it has fetched; nothing of it is in
flight, and its core's shim buffer holds a peek of it. An access that waits for its peek while the instructions before it
retire leaves such an entry. -/
def withPeek (m : Mem) : State := { State.reset with
  mem := m
  thr := [(0, { Thread.reset with run := .running, fbuf := [⟨0, none⟩] })]
  core := [(0, { Core.reset with shim := [peekOfThread0] })] }

/-- A command answers a state in which core 0 has no shim entry. -/
def freesShim : Result → Bool
  | .next u => (core u 0).shim.isEmpty
  | _ => false

variable {s u : State} {t : Thr} {f : Thread → Thread}

theorem Retired.core_eq (h : Retired t f s u) : u.core = s.core := by
  obtain ⟨-, -, -, hkeeps⟩ := h
  exact hkeeps .core (by decide)

/-- A command that frees the peek changes more than a retirement may. -/
theorem not_retired_of_freesShim {m : Mem} (h : freesShim (.next u) = true) : ¬ Retired t f (withPeek m) u := by
  intro hr
  have hshim : (core u 0).shim = [peekOfThread0] := congrArg (fun c => (look Core.reset c 0).shim) hr.core_eq
  simp [freesShim, hshim] at h

/-- Refutes O2: DCMP g0, g0, g0 of a core thread whose shim buffer holds a peek retires and frees the peek (R126), so that
the state of its core changes, which `Retired` rules out. -/
theorem not_decimalRows : ¬ Obligations.DecimalRows := by
  rintro ⟨-, hrows, -⟩
  -- the bytes of DCMP's word 0x0C000002
  let s := withPeek [(0, 0x02), (3, 0x0C)]
  have hgoes : Goes s (.core 0) := by unfold Goes; decide +kernel
  have hfrees : freesShim (exec (.dcmp (.core 0) ⟨0, 0, 0⟩) s) = true := by decide +kernel
  obtain ⟨hA, -⟩ := hrows s (.core 0) hgoes
  obtain ⟨-, -, u, hu, hr⟩ := hA ⟨0, 0, 0⟩ (by decide) (by decide)
  exact not_retired_of_freesShim (hu ▸ hfrees) hr

/-- Refutes O11: WAIT with no record in any lane, of a core thread whose shim buffer holds a peek, dozes and frees the
peek (R126), so that the state of its core changes, which `Retired` rules out. -/
theorem not_systemCallsAndReturns : ¬ Obligations.SystemCallsAndReturns := by
  rintro ⟨-, hrows⟩
  -- the bytes of WAIT's word 0xF0000007
  let s := withPeek [(0, 0x07), (3, 0xF0)]
  have hgoes : GoesAlone s (.core 0) := by unfold GoesAlone Goes; decide +kernel
  have hfrees : freesShim (exec (.wait (.core 0) ⟨0, 0, 0⟩) s) = true := by decide +kernel
  obtain ⟨-, -, -, hwait⟩ := hrows s (.core 0) ⟨0, 0, 0⟩ hgoes rfl rfl
  obtain ⟨u, hu, hr⟩ := hwait rfl (fun _ _ => rfl)
  exact not_retired_of_freesShim (hu ▸ hfrees) hr

end Sys2Proof.Machine
end

section
/-! Rows that retire and free a peek. An instruction of a core thread that retires with none older in flight frees its
thread's shim entries (R126), which every statement that keeps the core's state rules out: each refutation below runs one
row of its statement in `withPeek`. -/
namespace Sys2Proof.Machine
set_option Elab.async false

variable {s u : State} {l : List Piece} {m : Mem}

theorem Keeps.core_eq (h : Keeps l s u) (hl : Piece.core ∉ l) : u.core = s.core := h .core hl

/-- A command that leaves core 0 without the shim entries it had keeps no list of pieces that leaves the core out. -/
theorem not_keeps_of_freesShim (hs : (core s 0).shim ≠ []) (h : freesShim (.next u) = true) (hl : Piece.core ∉ l) :
    ¬ Keeps l s u := by
  intro hk
  have hshim : (core u 0).shim = (core s 0).shim := congrArg (fun c => (look Core.reset c 0).shim) (hk.core_eq hl)
  simp [freesShim, hshim, hs] at h

theorem shim_withPeek : (core (withPeek m) 0).shim = [peekOfThread0] := rfl

theorem not_retiredTo_of_freesShim {extra : List Piece} {pc : Word} {t : Thr} {f : Thread → Thread}
    (h : freesShim (.next u) = true) (hl : Piece.core ∉ extra) : ¬ RetiredTo extra pc t f (withPeek m) u := by
  rintro ⟨-, -, -, hkeeps⟩
  exact not_keeps_of_freesShim (by simp [shim_withPeek]) h (by simpa [retirePieces] using hl) hkeeps

/-- `withPeek` with a word at address 0, where its thread stands. -/
def peekBefore (w : BitVec 32) : State := withPeek (writeList 0 (bytesOf 4 (w.setWidth 64)) [])

/-- Refutes O1: ADD g0, g0, g0 frees the peek. -/
theorem not_integerRows : ¬ Obligations.IntegerRows := by
  rintro ⟨⟨hadd, -⟩, -⟩
  let s := peekBefore (wordA 1 ⟨0, 0, 0⟩ 0)
  have hgoes : Goes s (.core 0) := by unfold Goes; decide +kernel
  have hfrees : freesShim (exec (.add (.core 0) ⟨0, 0, 0⟩) s) = true := by decide +kernel
  obtain ⟨u, hu, hr⟩ := hadd s (.core 0) ⟨0, 0, 0⟩ hgoes (.inl rfl)
  exact not_retired_of_freesShim (hu ▸ hfrees) hr

/-- Refutes O3: FADD f0, f0, f0 of zeros raises no flag and frees the peek. -/
theorem not_floatArithmetic : ¬ Obligations.FloatArithmetic := by
  rintro ⟨hadd, -⟩
  let f : FmtFP := ⟨0, 0, 0, false, 0, false⟩
  let s := peekBefore (wordFP 0 f)
  have hgoes : Goes s (.core 0) := by unfold Goes; decide +kernel
  have hfrees : freesShim (exec (.fadd (.core 0) f) s) = true := by decide +kernel
  obtain ⟨u, hu, hr⟩ := hadd s 0 f hgoes rfl (by decide) (.inl rfl) (by decide +kernel)
  exact not_retired_of_freesShim (hu ▸ hfrees) hr

/-- Refutes O4: FABS f0, f0 frees the peek. -/
theorem not_floatMoves : ¬ Obligations.FloatMoves := by
  rintro ⟨⟨habs, -⟩, -⟩
  let f : FmtFP := ⟨0, 0, 0, false, 0, false⟩
  let s := peekBefore (wordFP 0x0A f)
  have hgoes : Goes s (.core 0) := by unfold Goes; decide +kernel
  have hfrees : freesShim (exec (.fabs (.core 0) f) s) = true := by decide +kernel
  obtain ⟨u, hu, hr⟩ := habs s 0 f hgoes rfl rfl (.inr rfl)
  exact not_retired_of_freesShim (hu ▸ hfrees) hr

/-- Refutes O7: CRC32C of one byte frees the peek. -/
theorem not_crcAndAes : ¬ Obligations.CrcAndAes := by
  rintro ⟨⟨hcrc, -⟩, -⟩
  -- the word of CRC32C g0, g0, g0 of one byte
  let s := peekBefore 0x14000000
  have hgoes : Goes s (.core 0) := by unfold Goes; decide +kernel
  have hfrees : freesShim (exec (.crc32c (.core 0) ⟨0, 0, 0⟩ 0) s) = true := by decide +kernel
  obtain ⟨u, hu, hr⟩ := hcrc s (.core 0) ⟨0, 0, 0⟩ 0 hgoes
  exact not_retired_of_freesShim (hu ▸ hfrees) hr

/-- Refutes O8: J to its own address frees the peek. -/
theorem not_branchesAndJumps : ¬ Obligations.BranchesAndJumps := by
  rintro ⟨-, hjumps⟩
  -- the word of J 0
  let s := peekBefore 0xE0000000
  have hgoes : Goes s (.core 0) := by unfold Goes; decide +kernel
  have hfrees : freesShim (exec (.j (.core 0) ⟨0⟩) s) = true := by decide +kernel
  obtain ⟨hj, -⟩ := hjumps s (.core 0) hgoes
  obtain ⟨⟨u, hu, hr⟩, -⟩ := hj ⟨0⟩
  exact not_retiredTo_of_freesShim (hu ▸ hfrees) (by decide) hr

/-- Refutes O12: MFS g0, TIME frees the peek. -/
theorem not_readSystemRegister : ¬ Obligations.ReadSystemRegister := by
  rintro ⟨hmfs, -⟩
  -- the word of MFS g0, 0x004
  let s := peekBefore 0xF0000040
  have hgoes : GoesAlone s (.core 0) := by unfold GoesAlone Goes; decide +kernel
  have hfrees : freesShim (exec (.mfs (.core 0) ⟨0, 0, 4⟩) s) = true := by decide +kernel
  obtain ⟨u, hu, hr⟩ := hmfs s (.core 0) ⟨0, 0, 4⟩ hgoes rfl (by decide +kernel) (by decide) (by decide +kernel)
  exact not_retired_of_freesShim (hu ▸ hfrees) hr

/-- Refutes O13: MTS XFLAGS, g0 frees the peek. -/
theorem not_writeSystemRegister : ¬ Obligations.WriteSystemRegister := by
  rintro ⟨-, -, hxflags, -⟩
  -- the word of MTS 0x001, g0
  let s := peekBefore 0xF0000011
  have hgoes : GoesAlone s (.core 0) := by unfold GoesAlone Goes; decide +kernel
  have hfrees : freesShim (exec (.mts (.core 0) ⟨0, 0, 1⟩) s) = true := by decide +kernel
  obtain ⟨u, hu, hr⟩ := hxflags s (.core 0) ⟨0, 0, 1⟩ hgoes rfl rfl trivial (by decide) rfl
  exact not_retired_of_freesShim (hu ▸ hfrees) hr

/-- Refutes O15: FENCE.O 0 with no older store frees the peek. -/
theorem not_fences : ¬ Obligations.Fences := by
  intro hfences
  -- the word of FENCE.O 0
  let s := peekBefore 0x90000000
  have hgoes : Goes s (.core 0) := by unfold Goes; decide +kernel
  have hfrees : freesShim (exec (.fenceO (.core 0) ⟨0, 0, 0⟩) s) = true := by decide +kernel
  obtain ⟨hfenceO, -⟩ := hfences s (.core 0) ⟨0, 0, 0⟩ rfl rfl
  obtain ⟨hends, -⟩ := hfenceO hgoes (by decide)
  obtain ⟨u, hu, hr⟩ := hends (by simp)
  exact not_retired_of_freesShim (hu ▸ hfrees) hr

end Sys2Proof.Machine
end

section
/-! What a peek found. A shim entry that is released records the corrected errors its peek met in its channel (R126, R130):
an instruction that releases one changes that channel, which the statements below leave out of what may change. -/
namespace Sys2Proof.Machine
set_option Elab.async false

/-- A shim entry of thread 0 for line 1, whose peek met a corrected error of channel 0. -/
def peekThatFound : ShimE := { peekOfThread0 with line := 1, found := [(1, 0, 0)], filled := true }

/-- A serving device: partition 0 is ACTIVE with bays 0 and 1, engine 0 and the range from 0; channel 0 serves 32 GiB. -/
def serving : State := { State.reset with
  time := { TimeBase.reset with now := 5000000000 }
  pw := { Power.reset with pwrgood := true, inReset := false, mode := 3 }
  srcs := [(0, ⟨0, true, 0⟩), (256, ⟨0, true, 0⟩), (512, ⟨0, true, 0⟩), (513, ⟨0, true, 0⟩)]
  part := [(0, { Part.reset with st := .active, bays := 3, engines := 1, ranges := [0], started := true })]
  chan := [(0, { Chan.reset with st := 2, powered := true })]
  region := [(0, ⟨true, false, 0, 32, 1, 1⟩)]
  dimms := [(0, ⟨some ⟨.rdimm, true, 4, 8, 2, 1, 4⟩, none⟩)]
  wr := { Wright.reset with st := .serving } }

/-- Core thread 0 of a serving device runs at M at address 0, where it has fetched `w`; g1 holds `a`, and its core's shim
buffer holds `peekThatFound`. -/
def foundBefore (w : BitVec 32) (a : Word) : State := { serving with
  mem := writeList 0 (bytesOf 4 (w.setWidth 64)) []
  thr := [(0, { Thread.reset with run := .running, fbuf := [⟨0, none⟩], g := [(1, ⟨a, false⟩)] })]
  core := [(0, { Core.reset with shim := [peekThatFound] })] }

/-- A command answers a state in which channel 0 has counted a corrected error. -/
def countsError : Result → Bool
  | .next u => decide ((chan u 0).ce ≠ 0)
  | _ => false

variable {s u : State} {l extra : List Piece} {w : BitVec 32} {a : Word} {t : Thr} {f : Thread → Thread}

/-- A command that counts the first corrected error of channel 0 keeps no list of pieces that leaves the channels out. -/
theorem not_keeps_of_countsError (hs : (chan s 0).ce = 0) (h : countsError (.next u) = true) (hl : Piece.chan ∉ l) :
    ¬ Keeps l s u := by
  intro hk
  have hchan : u.chan = s.chan := hk .chan hl
  have hce : (chan u 0).ce = (chan s 0).ce := congrArg (fun c => (look Chan.reset c 0).ce) hchan
  simp [countsError, hce, hs] at h

theorem not_retiredTo_of_countsError {pc : Word} (h : countsError (.next u) = true) (hl : Piece.chan ∉ extra) :
    ¬ RetiredTo extra pc t f (foundBefore w a) u := by
  rintro ⟨-, -, -, hkeeps⟩
  exact not_keeps_of_countsError rfl h (by simpa [retirePieces] using hl) hkeeps

theorem not_performed_of_countsError (h : countsError (.next u) = true) (hl : Piece.chan ∉ extra) :
    ¬ Performed extra t f (foundBefore w a) u := by
  rintro ⟨-, -, hkeeps⟩
  exact not_keeps_of_countsError rfl h (by simpa [xlatePieces] using hl) hkeeps

/-- At M an access uses no translation. -/
theorem useXlates_of_M {i : Fin 640} {k : AK} {va : Word} {n : Nat} (h : (thr s (.core i)).tstat.priv = .M) :
    useXlates i k va n s = .ready s := by
  simp [useXlates, useXlate, h]

/-- Refutes O5: LDD of a line that the thread's shim buffer holds releases the entry, and the error its peek met is counted
in the line's channel. -/
theorem not_loads : ¬ Obligations.Loads := by
  rintro ⟨-, -, -, hldd, -⟩
  let f : FmtC := ⟨0, 0, 0x40⟩
  let s := foundBefore (wordC 0x20 f 3) 0
  have hgoes : GoesAlone s (.core 0) := by unfold GoesAlone Goes; decide +kernel
  have hpasses : Passes s (.core 0) .load false ((readG (thr s (.core 0)) f.gb).val + f.off.signExtend 64) 8 [(0x40, 8)] := by
    unfold Passes; decide +kernel
  have hcounts : countsError (exec (.ldd (.core 0) f) s) = true := by decide +kernel
  obtain ⟨u, hu, hr, -⟩ := hldd s (.core 0) f [(0x40, 8)] hgoes (by decide) rfl rfl rfl (by decide +kernel) hpasses
    (by unfold LoadsNow; decide +kernel)
  exact not_retiredTo_of_countsError (hu ▸ hcounts) (by decide) hr

/-- Refutes O14: FAA of the engine's scratch by a core thread retires with the entry in its core's shim buffer released. -/
theorem not_atomicUpdates : ¬ Obligations.AtomicUpdates := by
  intro hatomics
  let f : FmtA := ⟨0, 1, 0⟩
  -- the word of FAA.D g0, g1, g0, and the address of engine 0's scratch
  let s := foundBefore 0x88010005 0xFFFFF00004000000
  have hgoes : GoesAlone s (.core 0) := by unfold GoesAlone Goes; decide +kernel
  have hpasses : Passes s (.core 0) .atomic true (readG (thr s (.core 0)) f.gs1).val 8 [(0xF00004000000, 8)] := by
    unfold Passes; decide +kernel
  have hready : AtomReady (.core 0) .atomic f true 0xF00004000000 s s :=
    ⟨hgoes, rfl, rfl, by decide, hpasses, useXlates_of_M rfl⟩
  have hcounts : countsError (exec (.faa (.core 0) f true) s) = true := by decide +kernel
  obtain ⟨⟨u, hu, hp, -⟩, -⟩ := hatomics s s (.core 0) f true 0xF00004000000 hready (.inl rfl)
    (.inr (.inl (by decide +kernel)))
  exact not_performed_of_countsError (hu ▸ hcounts) (by decide) hp

/-- Refutes O16: TLBINV of every entry retires with the entry in its core's shim buffer released. -/
theorem not_cacheMaintenance : ¬ Obligations.CacheMaintenance := by
  rintro ⟨-, -, -, -, htlbinv⟩
  let f : FmtF := ⟨0, 0, 0⟩
  -- the word of TLBINV of every entry
  let s := foundBefore 0xF4000008 0
  have hgoes : GoesAlone s (.core 0) := by unfold GoesAlone Goes; decide +kernel
  have hcounts : countsError (exec (.tlbinv (.core 0) f) s) = true := by decide +kernel
  obtain ⟨u, hu, hr, -⟩ := htlbinv s (.core 0) f hgoes rfl (by decide) (fun _ => rfl) (by decide) (by decide)
  exact not_retiredTo_of_countsError (hu ▸ hcounts) (by decide) hr

end Sys2Proof.Machine
end

section
/-! Fetching, released stores and lost loads: a poisoned copy in the instruction cache (R215), what a store's release
records of the L1 (R196), and the shim entries that the end of a lost load frees (R126, R180). -/
namespace Sys2Proof.Machine
set_option Elab.async false

/-- Core thread 0 of a serving device runs at M at address 0 and has fetched nothing; its core's instruction cache holds
line 0, whose copy there is poisoned. -/
def badCopy : State := { serving with
  thr := [(0, { Thread.reset with run := .running })]
  core := [(0, { Core.reset with l1i := [(0, ⟨0, .S, 0, 3, 0, true⟩)] })] }

/-- A fetch delivers. -/
def delivers : Fetched → Bool
  | .got _ => true
  | _ => false

/-- Refutes O17: the fetch of a line whose memory is clean and whose copy in the instruction cache is poisoned raises
POISON and delivers nothing. -/
theorem not_instructionsInFlight : ¬ Obligations.InstructionsInFlight := by
  rintro ⟨hfetch, -⟩
  have hfails : delivers (fetchNow (.core 0) badCopy) = false := by decide +kernel
  obtain ⟨-, -, hgroup⟩ := hfetch badCopy badCopy 0 (plainCheck 0 true) (fun _ s => .done s) (by decide +kernel)
  obtain ⟨w, hw, -⟩ := hgroup 0 rfl rfl (by decide +kernel) (.inl rfl) (by decide) (by decide) (by decide +kernel)
    (by decide +kernel) (by decide +kernel) (by decide +kernel) (by decide +kernel) (by decide +kernel)
  rw [hw] at hfails
  exact Bool.noConfusion hfails

/-- A store of core thread 0 to an L2-as-memory area. -/
def waitingStore : Access := plainAccess 0 0 .store 0xFFFFF00000000000 0xF00000000000 8 5

/-- Core thread 0 with a confirmed store in its store buffer. -/
def storeWaits : State := { State.reset with thr := [(0, { Thread.reset with stores := [waitingStore] })] }

/-- The accesses that core thread 0 has outstanding after a command. -/
def outstAfter : Result → List Access
  | .next u => (thr u (.core 0)).outst
  | _ => []

/-- Refutes O19: the release of a store whose line the core's L1 does not hold records that it missed there. -/
theorem not_storeTravels : ¬ Obligations.StoreTravels := by
  rintro ⟨hrelease, -⟩
  have hmissed : (outstAfter (exec (.storeRelease (.core 0)) storeWaits)).map (·.missed) = [true] := by decide +kernel
  obtain ⟨u, hu, -, hcalm, -⟩ := hrelease storeWaits (.core 0) waitingStore [] rfl (by decide +kernel) (by decide +kernel)
    (by decide)
  have hout := congrArg (fun th => th.outst.map (·.missed)) hcalm
  rw [hu] at hmissed
  exact absurd (hmissed.symm.trans hout) (by decide +kernel)

/-- A load of core thread 0 that has left it. -/
def leftLoad : Access := { plainAccess 5 5 .load 0 0 8 0 with dest := some ⟨1, false, false, false⟩ }

/-- Core thread 0 awaits a load; its timeout is 0, and its core's shim buffer holds a peek of it. -/
def loadLeft : State := { withPeek [] with
  thr := [(0, { Thread.reset with run := .awaiting 5, outst := [leftLoad], tmo := 0 })] }

/-- Refutes O20: a load whose timeout passes retires and frees the peek (R126). -/
theorem not_lostAccesses : ¬ Obligations.LostAccesses := by
  rintro ⟨hload, -⟩
  have hfrees : freesShim (exec (.accessTimeout (.core 0) 5) loadLeft) = true := by decide +kernel
  obtain ⟨htimeout, -⟩ := hload loadLeft (.core 0) 5 leftLoad ⟨1, false, false, false⟩ (by decide +kernel) rfl rfl rfl rfl
    (by decide)
  obtain ⟨u, hu, -, -, hkeeps⟩ := htimeout (by decide)
  exact not_keeps_of_freesShim (by decide +kernel) (hu ▸ hfrees) (by decide) hkeeps

end Sys2Proof.Machine
end

section
/-! Reservations, the writes of CORE_SOLO, ASID and L2AM_CTL, and messages of the protocol. The first three retire with a
shim entry released (R126, R130); a message of a source that is DOWN is logged beside its count (R249); an access that an
engine awaits and that is no load keeps the poison tag of its operand. -/
namespace Sys2Proof.Machine
set_option Elab.async false

/-- Refutes O21: STCND without a reservation retires with the entry in its core's shim buffer released. -/
theorem not_reservations : ¬ Obligations.Reservations := by
  rintro ⟨hrows, -⟩
  let f : FmtA := ⟨0, 1, 0⟩
  -- the word of STCND.D g0, g1, g0, and the address of engine 0's scratch
  let s := foundBefore 0x88010003 0xFFFFF00004000000
  have hgoes : GoesAlone s (.core 0) := by unfold GoesAlone Goes; decide +kernel
  have hpasses : Passes s (.core 0) .atomic true (readG (thr s (.core 0)) f.gs1).val 8 [(0xF00004000000, 8)] := by
    unfold Passes; decide +kernel
  have hready : AtomReady (.core 0) .atomic f true 0xF00004000000 s s :=
    ⟨hgoes, rfl, rfl, by decide, hpasses, useXlates_of_M rfl⟩
  have hcounts : countsError (exec (.stcnd (.core 0) f true) s) = true := by decide +kernel
  have hhold : ∀ i, Thr.core 0 = .core i → ∀ h ∈ (core s (i.val / 4)).hold, h.thr.val = i.val % 4 → h.owed = [] := by
    rintro i ⟨⟩ h (hh : h ∈ [])
    exact absurd hh List.not_mem_nil
  obtain ⟨-, -, hnone⟩ := hrows s s (.core 0) f true 0xF00004000000 hhold
  obtain ⟨u, hu, hp, -⟩ := hnone hready (.inl rfl) (.inr (.inl (by decide +kernel))) (by rintro ⟨r, hr, -⟩; cases hr)
  exact not_performed_of_countsError (hu ▸ hcounts) (by decide) hp

/-- Refutes O22: the write of ASID retires with the entry in its core's shim buffer released. -/
theorem not_soloAndAsid : ¬ Obligations.SoloAndAsid := by
  rintro ⟨-, hasid⟩
  -- the word of MTS ASID, g0
  let s := foundBefore 0xF0001011 0
  have hgoes : GoesAlone s (.core 0) := by unfold GoesAlone Goes; decide +kernel
  have hcounts : countsError (exec (.asidWrite (.core 0) 0) s) = true := by decide +kernel
  obtain ⟨u, hu, hkeeps, -⟩ := hasid s (.core 0) 0 hgoes (by decide) rfl
  exact not_keeps_of_countsError rfl (hu ▸ hcounts) (by decide) hkeeps

/-- Refutes O23: the write of 0 to L2AM_CTL of an area of size 0 retires and frees the peek. -/
theorem not_cacheControl : ¬ Obligations.CacheControl := by
  rintro ⟨-, hwrite, -⟩
  -- a word of MTS, which has been fetched
  let s := peekBefore 0xF0000011
  have hgoes : GoesAlone s (.core 0) := by unfold GoesAlone Goes; decide +kernel
  have hfrees : freesShim (exec (.l2amCtlWrite 0 0) s) = true := by decide +kernel
  obtain ⟨u, hu, hsame, -⟩ := hwrite s 0 0 hgoes (by decide) rfl (by decide)
  exact not_retiredTo_of_freesShim (hu ▸ hfrees) (by decide) (hsame (by decide)).1

/-- An acknowledgement of bay 0, which no source table holds open after reset, to home 0. -/
def ackOfDown : CMsg where
  src := .bay 0
  gen := 0
  site := siteOf State.reset (.bay 0)
  dst := .home 0
  coll := .bay 0
  line := 0
  excl := false
  count := 0
  data := 0
  poison := false
  mask := 0
  dgen := 0
  tag := 0
  nt := false

/-- The length of the error log after a command. -/
def logLength : Result → Nat
  | .next u => u.wr.log.length
  | _ => 0

/-- Refutes O24: a message of a source that is DOWN is entered in the error log too. -/
theorem not_messageChecks : ¬ Obligations.MessageChecks := by
  intro hchecks
  have hlogs : logLength (exec (.ackInv ackOfDown) State.reset) = 1 := by decide +kernel
  obtain ⟨-, hruns⟩ := hchecks State.reset ackOfDown (.bay 0) .ackInv (.ackInv ackOfDown) .clean 0 .faa 0 false 0 0 rfl
    (by simp)
  obtain ⟨-, -, hdown⟩ := hruns (by decide)
  obtain ⟨u, hu, -, -, hkeeps⟩ := hdown (by decide) (by decide) (by decide)
  obtain ⟨hlog, -⟩ : u.wr.log = State.reset.wr.log ∧ _ := hkeeps .log (by decide)
  rw [hu] at hlogs
  simp only [logLength, hlog] at hlogs
  exact absurd hlogs (by decide)

/-- The data of HRD for engine 0. -/
def hrdData : CMsg := { ackOfDown with src := .home 0, dst := .engine 0, coll := .engine 0 }

/-- The access that the data answers, which is an atomic with a poisoned operand. -/
def taggedAccess : Access := { plainAccess 4 4 .faa 0 0 8 0 with dest := some ⟨1, false, false, false⟩, tagged := true }

/-- A serving device whose engine thread 0 awaits `taggedAccess`, for which an HRD is open. -/
def awaitsData : State := { serving with
  thr := [(1024, { Thread.reset with run := .awaiting 4, outst := [taggedAccess] })]
  ereqs := [{ kind := .hrd, msg := { hrdData with src := .engine 0, dst := .home 0 }, thr := 0, id := 4
              backoff := false, since := 0 }] }

/-- The poison tag of g1 of engine thread 0 after a command. -/
def poisonOfG1 : Result → Bool
  | .next u => (readG (thr u (.adze 0)) 1).poison
  | _ => false

/-- Refutes O29: clean data that ends an access with a poisoned operand gives its register a poison tag. -/
theorem not_requestersAnswered : ¬ Obligations.RequestersAnswered := by
  rintro ⟨-, hengine⟩
  have harrives : Arrives hrdData awaitsData := ⟨by decide +kernel, by decide +kernel, by decide +kernel, trivial⟩
  have hpoison : poisonOfG1 (exec (.dH hrdData .clean) awaitsData) = true := by decide +kernel
  obtain ⟨hdata, -⟩ := hengine awaitsData hrdData 0 0 _ taggedAccess harrives rfl rfl rfl rfl rfl rfl rfl rfl rfl
  obtain ⟨u, hu, -, -, hcalm, -⟩ := hdata ⟨1, false, false, false⟩ rfl rfl rfl rfl (by decide) rfl
  have hclean : (readG (thr u (.adze 0)) 1).poison = false :=
    (congrArg (fun th => (readG th 1).poison) hcalm).trans (by decide +kernel)
  rw [hu] at hpoison
  exact absurd (hclean.symm.trans hpoison) (by decide)

end Sys2Proof.Machine
end

section
/-! Events and counters, whose rows include MTS of core threads and so retire with a shim entry released (R126), and the
block as a whole: what a step runs, and the reset state. -/
namespace Sys2Proof.Machine
set_option Elab.async false

/-- Refutes O33: EV_INJECT with a reserved SOURCE makes no event, retires and frees the peek. -/
theorem not_events : ¬ Obligations.Events := by
  rintro ⟨hrows, -⟩
  -- the word of MTS EV_INJECT, g0
  let s := peekBefore 0xF0003051
  have hmay : MayMts s (.core 0) 0 := by unfold MayMts GoesAlone Goes; decide +kernel
  have hfrees : freesShim (exec (.evInjectWrite (.core 0) 0) s) = true := by decide +kernel
  obtain ⟨hinject, -⟩ := hrows s (.core 0)
  obtain ⟨-, -, -, hreserved⟩ := hinject 0 hmay
  obtain ⟨u, hu, hr, -⟩ := hreserved (by decide +kernel)
  exact not_retired_of_freesShim (hu ▸ hfrees) hr

/-- Refutes O54: a write of PMC_TIME retires and frees the peek. -/
theorem not_countersAndRegisters : ¬ Obligations.CountersAndRegisters := by
  rintro ⟨hmts, -⟩
  -- the word of MTS PMC_TIME, g0
  let s := peekBefore 0xF0003881
  have hmay : MayMts s (.core 0) 0 := by unfold MayMts GoesAlone Goes; decide +kernel
  have hfrees : freesShim (exec (.pmcWrite (.core 0) 6 0) s) = true := by decide +kernel
  obtain ⟨-, hpmc⟩ := hmts s (.core 0) 0 hmay
  obtain ⟨u, hu, htime, -⟩ := hpmc 6
  exact not_retired_of_freesShim (hu ▸ hfrees) (htime rfl)

/-- Settles O58: the two equations of `step`. -/
theorem stepRunsFrontCommand : Obligations.StepRunsFrontCommand :=
  ⟨fun _ _ => step_front rfl, fun _ h => step_idle h⟩

/-- After reset every source is at generation 0, whatever its kind. -/
theorem srcEnt_reset_gen (x : Src) : (srcEnt State.reset x).gen = 0 := by
  cases x <;> rfl

/-- Settles O59: the reset state's tables are empty, so each lookup gives its table's reset value. -/
theorem resetState : Obligations.ResetState := by
  refine ⟨rfl, rfl, rfl, rfl, rfl, rfl, memOk_reset, rfl, rfl, ?inflight, rfl, rfl, ?threads, ?sites, fun _ => rfl,
    srcEnt_reset_gen, fun _ => rfl, fun _ => rfl⟩
  case inflight => decide +kernel
  case threads => rintro (t | t) <;> exact ⟨rfl, rfl⟩
  case sites => decide +kernel
end Sys2Proof.Machine
end

section
/-! Partitions, events and work items. Emptying a core's L1 for a live sistering answers the forwards it withheld (R176,
R246), one of which may discard dirty data. -/
namespace Sys2Proof.Machine
set_option Elab.async false

/-- A discard of line 0 that bay 1 has asked home 0 for. -/
def discardOfLine0 : CMsg where
  src := .home 0
  gen := 0
  site := siteOf State.reset (.bay 0)
  dst := .bay 0
  coll := .bay 1
  line := 0
  excl := false
  count := 0
  data := 0
  poison := false
  mask := 0
  dgen := 0
  tag := 0
  nt := false

/-- Core 0 of a serving device is being sistered. It withholds its answer to a discard of line 0, whose first byte its bay
has made 1 while DRAM holds 0. -/
def sisterWithholding : State := { serving with
  wr := { serving.wr with sistering := [(.core 0, 5000000000)] }
  core := [(0, { Core.reset with hold := [⟨0, 0, [(.fDis, discardOfLine0)], 0⟩] })]
  bay := [(0, { Bay.reset with l2 := [(0, { CLine.reset with line := 0, st := .M })] })]
  mem := [(0, 1)]
  old := [(0, some (0, false))] }

/-- A command answers a state whose byte 0 is 0. -/
def clearsByte0 : Result → Bool
  | .next u => decide (readByte u 0 = 0)
  | _ => false

/-- Refutes O31: the live sistering answers the discard that the core withheld, and agents then read the byte that DRAM
holds. -/
theorem not_partitionRecovery : ¬ Obligations.PartitionRecovery := by
  intro h
  let s := sisterWithholding
  obtain ⟨-, -, hsister⟩ := h s 0 rfl rfl (by decide +kernel) (by decide +kernel)
  obtain ⟨hmoves, -⟩ := hsister (.core 0) _ rfl (by decide +kernel) rfl
  obtain ⟨u, hu, -, -, -, -, -, hbytes⟩ := hmoves (by decide +kernel) (by decide +kernel) (by intro b h; cases h)
  have hclears : clearsByte0 (exec (.liveSisterDrained (.core 0) false) s) = true := by decide +kernel
  have hzero : readByte u 0 = 0 := by simpa [hu, clearsByte0] using hclears
  exact absurd ((hbytes rfl 0).symm.trans hzero) (by decide +kernel)

/-- Core thread 0 of a serving device owns entry 0, which records generation 1 of its source; the source is at generation
0. -/
def staleOwner : State := { serving with
  led := { Ledger.reset with ent := [(0, { Entry.reset with st := .owned, owner := some (.core 0), gen := 1 })] } }

/-- A command answers a state in which entry 0 is still OWNED. -/
def keepsEntry0 : Result → Bool
  | .next u => decide ((entry u 0).st = .owned)
  | _ => false

/-- Refutes O36: the ledger also compares the generation that the entry records (R250), and only counts this ITEM_DONE. -/
theorem not_itemEnds : ¬ Obligations.ItemEnds := by
  rintro ⟨hdone, -⟩
  let s := staleOwner
  let x := srcOfThr (.core 0)
  have hkept : keepsEntry0 (exec (.itemDone (.core 0) (srcEnt s x).gen (siteOf s x) 0 true) s) = true := by
    decide +kernel
  obtain ⟨howner, -⟩ := hdone s (.core 0) 0 rfl rfl rfl
  obtain ⟨u, hu, hclosing, -⟩ := howner rfl rfl rfl
  have howned : (entry u 0).st = .owned :=
    of_decide_eq_true ((congrArg keepsEntry0 hu).symm.trans hkept)
  exact absurd (howned.symm.trans hclosing) (by decide)

/-- The endpoint serves instance 0, and TIME has been aligned since the last reset. -/
def alignedServing : State := { State.reset with
  time := { TimeBase.reset with alignedSince := true }
  ep := { Endpoint.reset with up := true, cfg := { Config.reset with memEn := true } }
  inst := [(0, { Inst.reset with st := 1 })] }

/-- A command answers a state in which the next alignment of TIME is the first after a reset. -/
def forgetsAlignment : Result → Bool
  | .next u => !u.time.alignedSince
  | _ => false

/-- Refutes O38: a reset of an instance is a reset for R63, so it changes what the time base keeps. -/
theorem not_endpointLink : ¬ Obligations.EndpointLink := by
  intro h
  let s := alignedServing
  obtain ⟨-, -, -, -, -, hreset⟩ := h s
  obtain ⟨u, hu, -, -, -, -, -, hkeeps⟩ := hreset 0 ⟨by decide +kernel, rfl⟩ rfl (by decide +kernel)
  have hforgets : forgetsAlignment (exec (.instStatResetWrite 0) s) = true := by decide +kernel
  have htime : u.time = s.time := hkeeps .time (by decide)
  have hgone : (!u.time.alignedSince) = true := (congrArg forgetsAlignment hu).symm.trans hforgets
  rw [htime] at hgone
  exact Bool.noConfusion hgone
end Sys2Proof.Machine
end

section
/-! Answers over the ridge. A load that an answer completes is a confirmed load of its core thread, which its
memory-dependence predictor counts (R131). -/
namespace Sys2Proof.Machine
set_option Elab.async false

/-- An answer of device 1 to request 0 of this device, on port W. -/
def answerFrom1 : RMsg := ⟨⟨.W, 0, 0, 0, 0, 0⟩, 0, 1, 0, false, 0, 0, [], .whole⟩

/-- A load of core thread 0 through a ridge window. -/
def ridgeLoad : Access := { plainAccess 0 0 .load 0 0 8 0 with dest := some ⟨1, false, false, false⟩ }

/-- The request of `ridgeLoad`. -/
def ridgeLoadReq : RReq := ⟨1, 0, 1, 0, .W, some (.core 0, 0), none, 0⟩

/-- Core thread 0 awaits `ridgeLoad`, the one request open; a load at address 8 is marked in its memory-dependence
predictor. -/
def loadsOverRidge : State := { State.reset with
  ridge := { Ridge.reset with ports := [(0, { PortSt.reset with st := 3 })], reqs := [ridgeLoadReq] }
  thr := [(0, { Thread.reset with run := .awaiting 0, outst := [ridgeLoad], mdp := [(8, 0)] })] }

/-- What the memory-dependence predictor of core thread 0 holds after a command. -/
def mdpAfter : Result → List (Word × Nat)
  | .next u => (thr u (.core 0)).mdp
  | _ => []

/-- Refutes O44: the load that the answer completes is counted in the memory-dependence predictor of its thread. -/
theorem not_ridgeAnswers : ¬ Obligations.RidgeAnswers := by
  rintro ⟨-, -, hsource⟩
  let s := loadsOverRidge
  let m := answerFrom1
  have hcomes : Comes s m := by unfold Comes QuietPort; decide +kernel
  obtain ⟨haccess, -⟩ := hsource s m ridgeLoadReq hcomes rfl rfl
  obtain ⟨-, hload⟩ := haccess (.core 0) 0 ridgeLoad (.inl rfl) rfl rfl (by decide +kernel) rfl rfl
  obtain ⟨u, hu, -, hcalm, -⟩ := hload ⟨1, false, false, false⟩ rfl rfl rfl rfl rfl (by decide) (by decide +kernel)
  have hcounted : mdpAfter (exec (.wRsp m) s) = [(8, 1)] := by decide +kernel
  have hmdp : (thr u (.core 0)).mdp = [(8, 1)] := (congrArg mdpAfter hu).symm.trans hcounted
  have hkept : (thr u (.core 0)).mdp = [(8, 0)] := (congrArg Thread.mdp hcalm).trans (by decide +kernel)
  exact absurd (hmdp.symm.trans hkept) (by decide)
end Sys2Proof.Machine
end

section
/-! Mailboxes and commands. A command that changes state waits for those taken before it, also while the Wright boots
(R423). -/
namespace Sys2Proof.Machine
set_option Elab.async false

/-- The booting Wright has taken PART_SET in host mailbox 0, and after it WARM_RESET in the management mailbox. -/
def commandWaits : State := { State.reset with
  wr := { Wright.reset with
    st := .booting
    boxes := [(0, { MboxSt.reset with st := 1, page := [(0, 0x02), (1, 0x02)] }),
      (8, { MboxSt.reset with st := 1, page := [(0, 0x07), (1, 0x03)] })]
    order := [.host 0, .mgmt] } }

/-- The response that stands in the management mailbox after a command. -/
def respAfter : Result → Option Resp
  | .next u => (box u .mgmt).resp
  | _ => none

/-- Refutes O46: WARM_RESET waits for the command taken before it, and is not answered yet. -/
theorem not_informationCommands : ¬ Obligations.InformationCommands := by
  rintro ⟨⟨-, -, -, -, -, -, -, hbooting⟩, -⟩
  let s := commandWaits
  obtain ⟨-, hreset⟩ := hbooting s rfl rfl rfl rfl rfl
  obtain ⟨u, hu, hsays⟩ := hreset (by decide +kernel) (by decide +kernel)
  have hwaits : respAfter (exec (.warmReset .mgmt) s) = none := by decide +kernel
  have hnone : (box u .mgmt).resp = none := (congrArg respAfter hu).symm.trans hwaits
  have hsome : (box u .mgmt).resp = some ⟨6, 0, []⟩ :=
    (congrArg (fun u => (box u .mgmt).resp) hsays).trans (by decide +kernel)
  exact absurd (hnone.symm.trans hsome) (by decide)

/-- The Wright of a fenced device, whose channel 0 has two logical ranks, has taken MEM_REPAIR of rank 15 of channel 0 in
host mailbox 0. -/
def repairOfNoRank : State := { serving with
  pw := { serving.pw with fenced := true }
  wr := { Wright.reset with
    st := .serving
    boxes := [(0, { MboxSt.reset with
      st := 1, page := [(0, 0x05), (1, 0x04), (4, 16), (0x40, 0x10), (0x41, 0x0F)] })] } }

/-- The status of the response that stands in host mailbox 0 after a command. -/
def statusAfter : Result → Option (BitVec 8)
  | .next u => (box u (.host 0)).resp.map (·.status)
  | _ => none

/-- Refutes O48: a rank that the channel does not have is answered BAD_PARAM. -/
theorem not_deviceCommands : ¬ Obligations.DeviceCommands := by
  rintro ⟨-, -, -, -, -, -, -, -, -, -, hrepair, -⟩
  let s := repairOfNoRank
  have hruns : Runs (.host 0) 0x405 true s := by unfold Runs; decide +kernel
  obtain ⟨-, -, hpost⟩ := hrepair s (.host 0) hruns
  obtain ⟨u, hu, -, hstate, -⟩ := hpost (by decide +kernel) (by decide +kernel)
  have hsays : Says (.host 0) 6 0 [] s u :=
    hstate (by unfold Reserved; decide +kernel) (fun h => absurd h.1 (by decide))
  have hbad : statusAfter (exec (.memRepair (.host 0)) s) = some 4 := by decide +kernel
  have hfour : (box u (.host 0)).resp.map (·.status) = some 4 := (congrArg statusAfter hu).symm.trans hbad
  have hsix : (box u (.host 0)).resp.map (·.status) = some 6 :=
    (congrArg (fun u => (box u (.host 0)).resp.map (·.status)) hsays).trans (by decide +kernel)
  exact absurd (hfour.symm.trans hsix) (by decide)
end Sys2Proof.Machine
end

section
/-! Power, clocks and the management bus. -/
namespace Sys2Proof.Machine
set_option Elab.async false

/-- The sill is powered and its clock has stopped; the bus speaks SMBus. -/
def sillClockStopped : State := { State.reset with pw := { State.reset.pw with clkSill := true } }

/-- The offset that the management bus has after a command. -/
def offsetAfter : Result → Option (BitVec 32)
  | .next u => some u.wr.mgmtOff
  | _ => none

/-- Refutes O52: with the sill's clock stopped, the offset waits in the crossing. -/
theorem not_managementBus : ¬ Obligations.ManagementBus := by
  intro h
  let s := sillClockStopped
  obtain ⟨hsmbus, -⟩ := h s (by decide +kernel)
  obtain ⟨hwrites, -⟩ := hsmbus (by decide +kernel)
  obtain ⟨hsets, -⟩ := hwrites [4, 0, 0, 0] true
  obtain ⟨u, hu, -, hwr⟩ := hsets rfl rfl (by decide)
  have hwaits : offsetAfter (exec (.smbusSetOffset [4, 0, 0, 0] true) s) = some 0 := by decide +kernel
  have hzero : some u.wr.mgmtOff = some 0 := (congrArg offsetAfter hu).symm.trans hwaits
  have hfour : some u.wr.mgmtOff = some 4 := (congrArg (fun w => some w.mgmtOff) hwr).trans (by decide +kernel)
  exact absurd (hzero.symm.trans hfour) (by decide)

/-- Core 0 of a serving device holds no vote and withholds its answer to a discard of line 0, whose first byte its bay has
made 1 while DRAM holds 0. -/
def dropWithholding : State := { serving with
  core := [(0, { Core.reset with powered := true, hold := [⟨0, 0, [(.fDis, discardOfLine0)], 0⟩] })]
  bay := [(0, { Bay.reset with l2 := [(0, { CLine.reset with line := 0, st := .M })] })]
  mem := [(0, 1)]
  old := [(0, some (0, false))] }

/-- Refutes O53: the dropping core answers the discard that it withheld, and agents then read the byte that DRAM holds. -/
theorem not_powerDomains : ¬ Obligations.PowerDomains := by
  rintro ⟨hcore, -⟩
  let s := dropWithholding
  obtain ⟨-, hdrops⟩ := (hcore 0).1 s (by decide +kernel) (by decide +kernel)
  obtain ⟨u, hu, -, -, -, hbytes⟩ := hdrops (by decide +kernel) (by decide +kernel) (by decide +kernel) (by decide +kernel)
    (by decide +kernel)
  have hclears : clearsByte0 (exec (.coreDrop 0) s) = true := by decide +kernel
  have hzero : readByte u 0 = 0 := by simpa [hu, clearsByte0] using hclears
  exact absurd ((hbytes 0).symm.trans hzero) (by decide +kernel)

/-- A doorbell by a virtual channel. -/
def doorbellOn (vc1 : Bool) : XEnt := ⟨1, .doorbell 0 0 0 true vc1⟩

/-- The endpoint's crossing withholds a doorbell on VC0. -/
def withholdingVc0 : State := { State.reset with xing := [(clkIx .endpoint, { Crossing.reset with heldFabric := [doorbellOn false] })] }

/-- Refutes O57: a doorbell on VC1 enters the crossing before the one on VC0 that its feeding stages withhold. -/
theorem not_railsHeatAndTime : ¬ Obligations.RailsHeatAndTime := by
  rintro ⟨-, -, -, -, -, -, -, hcrossing⟩
  obtain ⟨horder, -⟩ := hcrossing withholdingVc0 .endpoint (doorbellOn true)
  exact absurd horder (by decide +kernel)
end Sys2Proof.Machine
end

section
/-! What each state operation leaves unchanged, as frames. -/
namespace Sys2Proof.Machine
set_option Elab.async false
variable {s u v : State}

theorem keeps_updCore (c : Nat) (f : Core → Core) : Keeps [.core] s (updCore c f s) := by
  intro p hp; cases p <;> simp_all [Piece.same]

theorem keeps_updBay (b : Nat) (f : Bay → Bay) : Keeps [.bay] s (updBay b f s) := by
  intro p hp; cases p <;> simp_all [Piece.same]

theorem keeps_updSlice (b : Nat) (f : Slice → Slice) : Keeps [.slice] s (updSlice b f s) := by
  intro p hp; cases p <;> simp_all [Piece.same]

theorem keeps_updSrc (x : Src) (f : SrcEnt → SrcEnt) : Keeps [.srcs] s (updSrc x f s) := by
  intro p hp; cases p <;> simp_all [Piece.same]

theorem keeps_updEngine (e : Nat) (f : Engine → Engine) : Keeps [.eng] s (updEngine e f s) := by
  intro p hp; cases p <;> simp_all [Piece.same]

theorem keeps_updCluster (k : Nat) (f : Cluster → Cluster) : Keeps [.cluster] s (updCluster k f s) := by
  intro p hp; cases p <;> simp_all [Piece.same]

theorem keeps_updPart (q : Nat) (f : Part → Part) : Keeps [.part] s (updPart q f s) := by
  intro p hp; cases p <;> simp_all [Piece.same]

theorem keeps_updQueue (q : Nat) (f : Queue → Queue) : Keeps [.queue] s (updQueue q f s) := by
  intro p hp; cases p <;> simp_all [Piece.same]

theorem keeps_updLed (f : Ledger → Ledger) : Keeps [.led] s (updLed f s) := by
  intro p hp; cases p <;> simp_all [Piece.same]

theorem keeps_updEntry (e : Nat) (f : Entry → Entry) : Keeps [.led] s (updEntry e f s) := by
  intro p hp; cases p <;> simp_all [Piece.same]

theorem keeps_updChan (c : Nat) (f : Chan → Chan) : Keeps [.chan] s (updChan c f s) := by
  intro p hp; cases p <;> simp_all [Piece.same]

theorem keeps_updInst (i : Nat) (f : Inst → Inst) : Keeps [.inst] s (updInst i f s) := by
  intro p hp; cases p <;> simp_all [Piece.same]

theorem keeps_updRidge (f : Ridge → Ridge) : Keeps [.ridge] s (updRidge f s) := by
  intro p hp; cases p <;> simp_all [Piece.same]

theorem keeps_updPort (x : Nat) (f : PortSt → PortSt) : Keeps [.ridge] s (updPort x f s) := by
  intro p hp; cases p <;> simp_all [Piece.same]

theorem keeps_updRail (r : Nat) (f : RailSt → RailSt) : Keeps [.pw] s (updRail r f s) := by
  intro p hp; cases p <;> simp_all [Piece.same]

theorem keeps_updDie (d : Nat) (f : Die → Die) : Keeps [.pw] s (updDie d f s) := by
  intro p hp; cases p <;> simp_all [Piece.same]

theorem keeps_updBox (m : Mbox) (f : MboxSt → MboxSt) : Keeps [.wr] s (updBox m f s) := by
  intro p hp; cases p <;> simp_all [Piece.same]

theorem keeps_updEp (f : Endpoint → Endpoint) : Keeps [.ep, .pba] s (updEp f s) := by
  intro p hp; cases p <;> simp_all [Piece.same]

theorem keeps_updCrossing (b : Clk) (f : Crossing → Crossing) : Keeps [.xing] s (updCrossing b f s) := by
  intro p hp; cases p <;> simp_all [Piece.same]

theorem keeps_countBytes (p n : Nat) : Keeps [.bw] s (countBytes p n s) := by
  intro p hp; cases p <;> simp_all [Piece.same]

theorem keeps_setPoison (l : BitVec 42) (b : Bool) : Keeps [.poison] s (setPoison l b s) := by
  intro p hp; cases p <;> simp_all [Piece.same]

/-- Frames in a row: the pieces that either may change. -/
theorem keeps_step {l k m : List Piece} (h : Keeps l s u) (g : Keeps k u v) (hl : ∀ p ∈ l, p ∈ m) (hk : ∀ p ∈ k, p ∈ m) :
    Keeps m s v := keeps_trans (keeps_mono hl h) (keeps_mono hk g)
end Sys2Proof.Machine
end

section
/-! The ingress of work items (R284 to R286). -/
namespace Sys2Proof.Machine
set_option Elab.async false
variable {s : State}

/-- With the endpoint's clock running, a command that passes its crossing acts at once. -/
theorem through_endpoint (h : pagesServed s = true) (fabric : Bool) (n : Nat) (c : XWhat) (run : State → Result) :
    through .endpoint fabric n c run s = run s := by
  simp_all [pagesServed, through, clockStopped]

@[simp] theorem heldOf_countBytes (p n q : Nat) : heldOf (countBytes p n s) q = heldOf s q := rfl

@[simp] theorem freeSlot_countBytes (p n : Nat) : freeSlot (countBytes p n s) = freeSlot s := rfl

/-- A write to a mapped slot, on a channel that may make it, acts on the slot's queue. -/
theorem pageWrite_mapped {i : Fin 256} {slot : Nat} {vc1 : Bool} {q : Fin 1024} (act : Fin 1024 → State → State)
    (hq : look none (inst s i.val).qmap slot = some q) (hvc : vc1 = true → (queue s q.val).cls = 0) :
    pageWrite i slot vc1 act s = act q s := by
  cases vc1 <;> simp_all [pageWrite]

/-- The entry that an accepted item takes: its descriptor is `item`. -/
def acceptedEntry (s : State) (q : Fin 1024) (e : Nat) (item : List Byte) : Entry :=
  let x := queue s q.val
  { Entry.reset with
    st := .queued, queue := q, seq := x.ai, cls := x.cls, etag := (entry s e).etag + 1, tAccept := s.time.now
    qlimit := x.qlimit, isInline := x.inlineMode, desc := item
    dataLen := if x.inlineMode then some (fieldB item 5 1 % 64) else none }

/-- An item is accepted into the lowest free entry, and nothing else changes but its queue's AI. -/
theorem acceptItem_spec {e : Nat} (q : Fin 1024) (item : List Byte) (he : freeSlot s = some e) :
    entry (acceptItem q item s) e = acceptedEntry s q e item ∧
      (∀ k, k ≠ e → entry (acceptItem q item s) k = entry s k) ∧
      queue (acceptItem q item s) q.val = { queue s q.val with ai := (queue s q.val).ai + 1 } ∧
      (∀ k, k ≠ q.val → queue (acceptItem q item s) k = queue s k) ∧
      Keeps [.led, .queue] s (acceptItem q item s) := by
  unfold acceptItem
  rw [he]
  refine ⟨by simp [acceptedEntry], fun k hk => by simp [hk], by simp, fun k hk => by simp [hk], ?_⟩
  exact keeps_step (keeps_updEntry _ _) (keeps_updQueue _ _) (by simp) (by simp)

theorem freeSlot_of_admitted {i slot : Fin 256} {vc1 : Bool} {q : Fin 1024} {e : Nat} (h : Admitted s i slot vc1 q e) :
    freeSlot s = some e := by
  obtain ⟨-, -, -, -, -, -, -, -, -, -, -, -, hfree⟩ := h
  exact hfree

/-- The checks of R286 pass for one item of an admitted write. -/
theorem ingressReason_admitted {i slot : Fin 256} {vc1 : Bool} {q : Fin 1024} {e : Nat} (h : Admitted s i slot vc1 q e)
    (p n : Nat) : ingressReason (countBytes p n s) q.val i.val (queue s q.val).inlineMode s.ep.frozen true true true 1 = none := by
  obtain ⟨-, -, -, hen, hinst, hquenched, hfrozen, hquiesce, hfenced, hflush, hbringing, hquota, -⟩ := h
  simp [ingressReason, hen, hinst, hquenched, hfrozen, hquiesce, hfenced, hflush, hbringing]
  omega

theorem extract_low_setWidth (w : BitVec 32) : (w.setWidth 64).extractLsb' 0 32 = w := by
  apply BitVec.eq_of_toNat_eq
  simp
  omega

theorem extract_high_setWidth (w : BitVec 32) : (w.setWidth 64).extractLsb' 32 32 = (0 : BitVec 32) := by
  ext i hi; simp

/-- A doorbell that moves PI by one, where every check passes, makes one item. -/
theorem ringQueue_next {q : Fin 1024} {i : Nat} {frozen : Bool} (h : ingressReason s q.val i false frozen true true true 1 = none) :
    ringQueue q i (((queue s q.val).ai + 1).setWidth 64) true frozen s = acceptItem q [] s := by
  have hn : ((queue s q.val).ai + 1 - (queue s q.val).ai).toNat = 1 := by bv_omega
  have hsize : 1 ≤ ringSize (queue s q.val) := Nat.one_le_two_pow
  unfold ringQueue
  simp only [extract_low_setWidth, extract_high_setWidth, hn, hsize]
  simp only [ne_eq, Nat.one_ne_zero, not_false_eq_true, decide_true, Bool.and_self]
  rw [h]
  rfl

/-- An inline item with the queue's next sequence number, where every check passes, makes one item. -/
theorem inlineQueue_next {q : Fin 1024} {i : Nat} {frozen : Bool} {w : BitVec 512}
    (h : ingressReason s q.val i true frozen true true true 1 = none) (hseq : w.extractLsb' 0 32 = (queue s q.val).ai)
    (hres : w.extractLsb' 46 18 = 0) (hlen : (w.extractLsb' 40 6).toNat ≤ 56) :
    inlineQueue q i w true frozen s = acceptItem q (bytesOfNat 64 w.toNat) s := by
  unfold inlineQueue
  simp only [hseq, hres, hlen, decide_true, Bool.and_self]
  rw [h]

/-- A doorbell that moves PI of an admitted queue by one makes an item. -/
theorem doorbell_admitted {i slot : Fin 256} {vc1 : Bool} {q : Fin 1024} {e : Nat} (h : Admitted s i slot vc1 q e)
    (hd : (queue s q.val).inlineMode = false) :
    exec (.doorbell i slot (((queue s q.val).ai + 1).setWidth 64) true vc1) s = .next (acceptItem q [] (countBytes 0 8 s)) := by
  have hreason := ingressReason_admitted h 0 8
  obtain ⟨hserved, hmap, hvc, -⟩ := h
  have hring := ringQueue_next (s := countBytes 0 8 s) (q := q) (i := i.val) (frozen := s.ep.frozen) (by rwa [hd] at hreason)
  show execDoorbell i slot _ true vc1 s = _
  unfold execDoorbell
  rw [through_endpoint hserved, pageWrite_mapped (q := q) _ (by simpa using hmap) (fun hv => by simpa using (hvc hv).2)]
  rw [queue_countBytes] at hring
  rw [hring, if_neg (by simp [hserved]), if_neg (by simpa using fun hv => (hvc hv).1)]

/-- An inline item with the next sequence number of an admitted queue makes an item. -/
theorem inlineItem_admitted {i slot : Fin 256} {vc1 : Bool} {q : Fin 1024} {e : Nat} {w : BitVec 512}
    (h : Admitted s i slot vc1 q e) (hd : (queue s q.val).inlineMode = true) (hseq : w.extractLsb' 0 32 = (queue s q.val).ai)
    (hres : w.extractLsb' 46 18 = 0) (hlen : (w.extractLsb' 40 6).toNat ≤ 56) :
    exec (.inlineItem i slot w true vc1) s = .next (acceptItem q (bytesOfNat 64 w.toNat) (countBytes 0 64 s)) := by
  have hreason := ingressReason_admitted h 0 64
  obtain ⟨hserved, hmap, hvc, -⟩ := h
  have hinline := inlineQueue_next (s := countBytes 0 64 s) (q := q) (i := i.val) (frozen := s.ep.frozen)
    (by rwa [hd] at hreason) (by simpa using hseq) hres hlen
  show execInlineItem i slot w true vc1 s = _
  unfold execInlineItem
  rw [through_endpoint hserved, pageWrite_mapped (q := q) _ (by simpa using hmap) (fun hv => by simpa using (hvc hv).2)]
  rw [hinline, if_neg (by simp [hserved]), if_neg (by simpa using fun hv => (hvc hv).1)]

theorem getElem?_bytesOfNat (n v i : Nat) (h : i < n) : (bytesOfNat n v)[i]? = some (BitVec.ofNat 8 (v / 256 ^ i)) := by
  induction n generalizing v i with
  | zero => omega
  | succ n ih =>
    cases i with
    | zero => simp [bytesOfNat]
    | succ i => simp [bytesOfNat, ih (v / 256) i (by omega), Nat.div_div_eq_div_mul, Nat.pow_succ, Nat.mul_comm]

/-- Byte 5 of an inline item's 64 bytes holds its data length in the low six bits. -/
theorem fieldB_inline_length (w : BitVec 512) : fieldB (bytesOfNat 64 w.toNat) 5 1 % 64 = (w.extractLsb' 40 6).toNat := by
  simp [fieldB, sliceB, natOfBytes, getElem?_bytesOfNat, Nat.shiftRight_eq_div_pow]

/-- A command refused on the queue's first check of R286 makes no item; the queue keeps the value and counts it. -/
theorem doorbell_refused {i slot : Fin 256} {q : Fin 1024} (v : Word) (hserved : pagesServed s = true)
    (hmap : look none (inst s i.val).qmap slot.val = some q)
    (hr : (queue s q.val).en = false ∨ (queue s q.val).inst.toNat ≠ i.val ∨ (queue s q.val).inlineMode = true) :
    exec (.doorbell i slot v true false) s = .next (refuseIngress q.val 1 (v.extractLsb' 0 32) (countBytes 0 8 s)) := by
  have hreason : ∀ seqOk fmtOk n,
      ingressReason (countBytes 0 8 s) q.val i.val false s.ep.frozen true seqOk fmtOk n = some 1 := by
    intro seqOk fmtOk n
    unfold ingressReason
    refine if_pos ?_
    rcases hr with h | h | h <;> simp [h]
  show execDoorbell i slot v true false s = _
  unfold execDoorbell
  rw [through_endpoint hserved, pageWrite_mapped (q := q) _ (by simpa using hmap) (by simp), if_neg (by simp [hserved]),
    if_neg (by simp)]
  unfold ringQueue
  simp [hreason]

/-- A doorbell to a slot that no queue is mapped to counts in its instance. -/
theorem doorbell_unmapped {i slot : Fin 256} (v : Word) (hserved : pagesServed s = true)
    (hmap : look none (inst s i.val).qmap slot.val = none) :
    exec (.doorbell i slot v true false) s =
      .next (updInst i.val (fun x => { x with unmapped := satInc x.unmapped }) (countBytes 0 8 s)) := by
  show execDoorbell i slot v true false s = _
  unfold execDoorbell
  rw [through_endpoint hserved, if_neg (by simp [hserved]), if_neg (by simp)]
  simp [pageWrite, hmap]

/-- An item made behind a count of bytes of the host's write. -/
theorem acceptItem_counted {e : Nat} (q : Fin 1024) (item : List Byte) (n : Nat) (he : freeSlot s = some e) :
    entry (acceptItem q item (countBytes 0 n s)) e = acceptedEntry s q e item ∧
      (∀ k, k ≠ e → entry (acceptItem q item (countBytes 0 n s)) k = entry s k) ∧
      queue (acceptItem q item (countBytes 0 n s)) q.val = { queue s q.val with ai := (queue s q.val).ai + 1 } ∧
      (∀ k, k ≠ q.val → queue (acceptItem q item (countBytes 0 n s)) k = queue s k) ∧
      Keeps [.bw, .led, .queue] s (acceptItem q item (countBytes 0 n s)) := by
  obtain ⟨hentry, hothers, hqueue, hqueues, hkeeps⟩ := acceptItem_spec (s := countBytes 0 n s) q item (by simpa using he)
  exact ⟨hentry, hothers, hqueue, hqueues, keeps_step (keeps_countBytes 0 n) hkeeps (by simp) (by simp)⟩

/-- Settles O34: an admitted write passes every check of R286 in order, and a refused one stops at the first. -/
theorem ingress : Obligations.Ingress := by
  intro s i slot vc1
  refine ⟨fun q e h => ⟨fun hd => ?_, fun hd w hseq hres hlen => ?_⟩, fun q v hserved hmap hvc hr => ?_, fun v hserved hmap hvc => ?_⟩
  · obtain ⟨hentry, hrest⟩ := acceptItem_counted q [] 8 (freeSlot_of_admitted h)
    exact ⟨_, doorbell_admitted h hd, hentry.trans (by rw [acceptedEntry, hd]; rfl), hrest⟩
  · obtain ⟨hentry, hrest⟩ := acceptItem_counted q (bytesOfNat 64 w.toNat) 64 (freeSlot_of_admitted h)
    exact ⟨_, inlineItem_admitted h hd hseq hres hlen, hentry.trans (by rw [acceptedEntry, hd, fieldB_inline_length]; rfl), hrest⟩
  · subst hvc
    refine ⟨_, doorbell_refused v hserved hmap hr, ?_, by simp [refuseIngress]⟩
    exact keeps_step (keeps_countBytes 0 8) (keeps_updQueue _ _) (by simp) (by simp)
  · subst hvc
    exact ⟨_, doorbell_unmapped v hserved hmap, keeps_step (keeps_countBytes 0 8) (keeps_updInst _ _) (by simp) (by simp), by simp⟩
end Sys2Proof.Machine
end

section
/-! Commands: the checks that each makes before its own effect (R419, R422, R423, R436), and the commands of the Filolmelo
store (R431, R468, R470). -/
namespace Sys2Proof.Machine
set_option Elab.async false
variable {s t : State} {m : Mbox}

/-- No reserved bit of a request word is set, or one is. -/
theorem wordFits_iff (b : MboxSt) (off : Nat) (mask : Word) : wordFits b off mask = true ↔ ¬ Reserved b off mask := by
  unfold wordFits Reserved
  rw [decide_eq_true_iff]
  constructor
  · rintro h ⟨i, hset, hmask⟩
    have hbit : (pageWord b off &&& ~~~mask).getLsbD i.val = true := by
      rw [BitVec.getLsbD_and, BitVec.getLsbD_not, hset, hmask]
      simp
    rw [h] at hbit
    simp at hbit
  · intro h
    apply BitVec.eq_of_getLsbD_eq
    intro i hi
    by_contra hne
    have hbit : (pageWord b off &&& ~~~mask).getLsbD i = true := by
      cases hb : (pageWord b off &&& ~~~mask).getLsbD i
      · exact absurd (hb.trans (by simp)) hne
      · rfl
    rw [BitVec.getLsbD_and, BitVec.getLsbD_not, Bool.and_eq_true, Bool.and_eq_true, Bool.not_eq_true'] at hbit
    exact h ⟨⟨i, hi⟩, hbit.1, hbit.2.2⟩

theorem wordFits_of_reserved {b : MboxSt} {off : Nat} {mask : Word} (h : Reserved b off mask) : wordFits b off mask = false := by
  simpa using mt (wordFits_iff b off mask).1 (not_not.2 h)

theorem wordFits_of_not_reserved {b : MboxSt} {off : Nat} {mask : Word} (h : ¬ Reserved b off mask) : wordFits b off mask = true :=
  (wordFits_iff b off mask).2 h

/-- An answer is all that the command's answering changes. -/
theorem says_bad (status : BitVec 8) : Says m status 0 [] t (respond m (bad status) t) := rfl

theorem says_ok (payload : List Byte) : Says m 0 0 payload t (respond m (ok payload) t) := rfl

/-- A command that may run now makes the checks of its PLEN and its header, then does its own (R422). -/
theorem command_runs {code : Nat} {changes : Bool} {plenOk : MboxSt → Nat → Bool} {body : MboxSt → State → Answer × State}
    (h : Runs m code changes s) :
    command m code changes plenOk body s = .next (
      if plenOk (box s m) (boxPlen (box s m)) = false then respond m (bad stBadLength) s
      else if headerFits (box s m) = false then respond m (bad stBadParam) s
      else respond m (body (box s m) s).1 (body (box s m) s).2) := by
  obtain ⟨hst, hresp, heff, hcode, -, hmay⟩ := h
  unfold command
  rw [if_neg, if_neg]
  · split <;> simp_all
    split <;> simp_all
  · rcases hmay with hu | ⟨-, hserving, -⟩ <;> simp_all
  · rcases hmay with hu | ⟨hclk, hserving, hturn⟩ <;> simp_all

/-- A command whose own effect is as its row says, behind the checks that every command makes. -/
theorem cmdRow_of {c : Mbox → Instr} {code : Nat} {changes : Bool} {plenOk : MboxSt → Nat → Bool} {len : MboxSt → Nat}
    {body : Mbox → MboxSt → State → Answer × State} {post : Mbox → MboxSt → State → State → Prop}
    (hexec : ∀ s m, Runs m code changes s → exec (c m) s = command m code changes plenOk (body m) s)
    (hlen : ∀ b k, plenOk b k = decide (k = len b))
    (hpost : ∀ s m, Runs m code changes s → post m (box s m) s (respond m (body m (box s m) s).1 (body m (box s m) s).2)) :
    CmdRow c code changes len post := by
  intro s m h
  rw [hexec s m h, command_runs h]
  refine ⟨fun hne => ⟨_, rfl, ?_⟩, fun heq hfit => ⟨_, rfl, ?_⟩, fun heq hfit => ⟨_, rfl, ?_⟩⟩
  · rw [if_pos (by simp [hlen, hne])]
    exact says_bad stBadLength
  · rw [if_neg (by simp [hlen, heq]), if_pos hfit]
    exact says_bad stBadParam
  · simpa [hlen, heq, hfit] using hpost s m h
end Sys2Proof.Machine
end

section
/-! The commands of the Filolmelo store (R431, R468, R470). -/
namespace Sys2Proof.Machine
variable {s : State} {m : Mbox}

@[simp] theorem slotOf_setSlot_same (x : Bool) (y : Slot) (st : Store) : slotOf (setSlot x y st) x = y := by
  cases x <;> rfl

/-- A change of the store is a change of the Wright alone. -/
theorem keeps_updWr_store (f : Store → Store) : Keeps [.wr] s (updWr (fun w => { w with store := f w.store }) s) := by
  intro p hp; cases p <;> simp_all [Piece.same]

theorem keeps_updWr_update (f : Update → Update) : Keeps [.wr] s (updWr (fun w => { w with update := f w.update }) s) := by
  intro p hp; cases p <;> simp_all [Piece.same]

theorem slotBytes_written (off : Nat) (l : List Byte) (c : BitVec 2) (bs : Mem) :
    slotBytes { cond := c, bytes := writeList off l bs } off l.length = l := by
  apply List.ext_getElem?
  intro i
  by_cases hi : i < l.length
  · have hlook := look_writeList l off (off + i) bs
    rw [if_pos (by omega), Nat.add_sub_cancel_left, List.getD_eq_getElem _ _ hi] at hlook
    simpa [slotBytes, hi] using hlook
  · simp [slotBytes, hi]

theorem length_pageBytes (b : MboxSt) (off n : Nat) : (pageBytes b off n).length = n := by simp [pageBytes]

theorem toNat_add_one_of_ne_allOnes {g : BitVec 32} (h : g ≠ BitVec.allOnes _) : (g + 1).toNat = g.toNat + 1 := by
  have hne : g.toNat ≠ 2 ^ 32 - 1 := fun he => h (BitVec.eq_of_toNat_eq (by simpa using he))
  bv_omega

/-- COMMIT writes the copy that is then valid with the higher GEN (R468). -/
theorem bootDefault_writeSelector (x : Bool) (st : Store) (h0 : st.sel0.gen ≠ BitVec.allOnes _)
    (h1 : st.sel1.gen ≠ BitVec.allOnes _) : bootDefault (writeSelector x st) = x := by
  have hup0 := toNat_add_one_of_ne_allOnes h0
  have hup1 := toNat_add_one_of_ne_allOnes h1
  unfold writeSelector
  split
  · simp [bootDefault]
    omega
  · split
    · simp [bootDefault]
      omega
    · simp_all [bootDefault]

/-- What SLOT_WRITE asks of its request (R431). -/
def SlotWriteFits (b : MboxSt) (st : Store) : Prop :=
  let off := (pageWord b 0x48).toNat
  let len := ((pageWord b 0x50).extractLsb' 0 12).toNat
  ¬ Reserved b 0x40 1 ∧ ¬ Reserved b 0x50 0xFFF ∧ off % 64 = 0 ∧ len % 64 = 0 ∧ len ≤ 3968 ∧ off + len ≤ slotSize st.capacity

/-- The slot with the bytes of a SLOT_WRITE. -/
def writtenSlot (b : MboxSt) (y : Slot) : Slot :=
  { cond := 2, bytes := writeList (pageWord b 0x48).toNat (pageBytes b 0x60 ((pageWord b 0x50).extractLsb' 0 12).toNat) y.bytes }

theorem slotWrite_unfit {b : MboxSt} (h : ¬ SlotWriteFits b s.wr.store) : slotWrite b s = (bad stBadParam, s) := by
  unfold slotWrite
  refine if_pos ?_
  by_contra hno
  simp only [Bool.or_eq_true, Bool.not_eq_true', decide_eq_true_eq, not_or, Bool.not_eq_false, ne_eq, not_not, not_lt] at hno
  obtain ⟨⟨⟨⟨⟨h40, h50⟩, hoff⟩, hlen⟩, hmax⟩, hsize⟩ := hno
  exact h ⟨(wordFits_iff _ _ _).1 h40, (wordFits_iff _ _ _).1 h50, hoff, hlen, hmax, hsize⟩

theorem slotWrite_fit {b : MboxSt} (h : SlotWriteFits b s.wr.store) :
    slotWrite b s = if slotHeld s.wr.store (slotNamed b) then (bad stState, s) else
      (ok [], updWr (fun w => { w with
        store := setSlot (slotNamed b) (writtenSlot b (slotOf s.wr.store (slotNamed b))) w.store }) s) := by
  obtain ⟨h40, h50, hoff, hlen, hmax, hsize⟩ := h
  unfold slotWrite
  refine if_neg ?_
  have w40 := wordFits_of_not_reserved h40
  have w50 := wordFits_of_not_reserved h50
  have hlen' : (fld (pageWord b 0x50) 0 12).toNat % 64 = 0 := hlen
  have hmax' : ¬ 3968 < (fld (pageWord b 0x50) 0 12).toNat := not_lt.2 hmax
  have hsize' : ¬ slotSize s.wr.store.capacity < (pageWord b 0x48).toNat + (fld (pageWord b 0x50) 0 12).toNat := not_lt.2 hsize
  simp only [w40, w50, hoff, hlen', hmax', hsize']
  decide

/-- The bytes written stand in the slot, and its other bytes are as before. -/
theorem slotBytes_writtenSlot (b : MboxSt) (y : Slot) :
    slotBytes (writtenSlot b y) (pageWord b 0x48).toNat ((pageWord b 0x50).extractLsb' 0 12).toNat
      = pageBytes b 0x60 ((pageWord b 0x50).extractLsb' 0 12).toNat := by
  have h := slotBytes_written (pageWord b 0x48).toNat (pageBytes b 0x60 ((pageWord b 0x50).extractLsb' 0 12).toNat) 2 y.bytes
  rwa [length_pageBytes] at h

theorem look_writtenSlot (b : MboxSt) (y : Slot) (k : Nat)
    (h : k < (pageWord b 0x48).toNat ∨ (pageWord b 0x48).toNat + ((pageWord b 0x50).extractLsb' 0 12).toNat ≤ k) :
    look 0 (writtenSlot b y).bytes k = look 0 y.bytes k := by
  unfold writtenSlot
  rw [look_writeList, if_neg (by rw [length_pageBytes]; omega)]

/-- What SLOT_WRITE leaves: the slot named alone changes, as written. -/
theorem slotWrite_effect (b : MboxSt) :
    let x := slotNamed b
    let off := (pageWord b 0x48).toNat
    let len := ((pageWord b 0x50).extractLsb' 0 12).toNat
    let t := updWr (fun w => { w with store := setSlot x (writtenSlot b (slotOf s.wr.store x)) w.store }) s
    (Keeps [.wr] s t ∧ t.wr = { s.wr with store := setSlot x (slotOf t.wr.store x) s.wr.store }) ∧
      (slotOf t.wr.store x).cond = 2 ∧ slotBytes (slotOf t.wr.store x) off len = pageBytes b 0x60 len ∧
      ∀ k, k < off ∨ off + len ≤ k → look 0 (slotOf t.wr.store x).bytes k = look 0 (slotOf s.wr.store x).bytes k := by
  intro x off len t
  have hwritten : slotOf t.wr.store x = writtenSlot b (slotOf s.wr.store x) := slotOf_setSlot_same x _ _
  rw [hwritten]
  exact ⟨⟨keeps_updWr_store _, rfl⟩, rfl, slotBytes_writtenSlot b _, look_writtenSlot b _⟩

/-- SLOT_VERIFY gives a slot that passes condition 1, one that fails condition 3 (R470). -/
theorem slotVerify_fit {b : MboxSt} (h : ¬ Reserved b 0x40 1) (v : Option (BitVec 8))
    (hv : verifySlot Config.storeKeyHash s.wr.store.fuse.toNat (slotSize s.wr.store.capacity)
      (slotOf s.wr.store (slotNamed b)) = v) :
    slotVerify b s = ((match v with | none => ok [] | some why => bad why),
      updWr (fun w => { w with
        store := setSlot (slotNamed b) { slotOf w.store (slotNamed b) with cond := if v = none then 1 else 3 } w.store }) s) := by
  unfold slotVerify
  rw [wordFits_of_not_reserved h]
  simp only [hv]
  cases v <;> rfl

theorem verifySlot_why {key : List Byte} {fuse size : Nat} {x : Slot} {why : BitVec 8}
    (h : verifySlot key fuse size x = some why) : why = 9 ∨ why = 10 := by
  unfold verifySlot at h
  simp only at h
  split_ifs at h <;> simp_all

theorem activate_unverified {b : MboxSt} (h : ¬ Reserved b 0x40 1) (hc : (slotOf s.wr.store (slotNamed b)).cond ≠ 1) :
    activate m b s = (bad stState, s) := by
  unfold activate
  rw [wordFits_of_not_reserved h]
  exact if_pos hc

theorem activate_verified {b : MboxSt} (h : ¬ Reserved b 0x40 1) (hc : (slotOf s.wr.store (slotNamed b)).cond = 1) :
    activate m b s = (later, updWr (fun w => { w with update := .taken m (slotNamed b) }) s) := by
  unfold activate
  rw [wordFits_of_not_reserved h]
  exact if_neg (not_not.2 hc)

/-- The fuse counter that COMMIT of slot `x` leaves (R468). -/
def raisedFuse (st : Store) (x : Bool) : BitVec 7 := BitVec.ofNat 7 (Nat.max st.fuse.toNat (rbIndex (slotOf st x)))

/-- COMMIT of an active slot that is not the boot default (R468). -/
theorem commit_active {x : Bool} (ha : s.wr.store.active = some x) :
    commit s = if bootDefault s.wr.store = x then (bad stState, s) else
      (ok (bytesOf 8 (at' (raisedFuse s.wr.store x) 0)),
        updWr (fun w => { w with store := { writeSelector x w.store with fuse := raisedFuse s.wr.store x } }) s) := by
  unfold commit
  simp only [ha]
  rfl

theorem commit_none (ha : s.wr.store.active = none) : commit s = (bad stState, s) := by
  unfold commit
  simp only [ha]

theorem at_zero {n : Nat} (v : BitVec n) : at' v 0 = v.setWidth 64 := by simp [at']

/-- COMMIT writes a selector copy and nothing else of the store. -/
theorem slots_writeSelector (x : Bool) (st : Store) : (writeSelector x st).slotA = st.slotA ∧
    (writeSelector x st).slotB = st.slotB ∧ (writeSelector x st).active = st.active := by
  unfold writeSelector
  split_ifs <;> exact ⟨rfl, rfl, rfl⟩

theorem slotVerify_unfit {b : MboxSt} (h : Reserved b 0x40 1) : slotVerify b s = (bad stBadParam, s) := by
  unfold slotVerify
  rw [wordFits_of_reserved h]
  rfl

theorem activate_unfit {b : MboxSt} (h : Reserved b 0x40 1) : activate m b s = (bad stBadParam, s) := by
  unfold activate
  rw [wordFits_of_reserved h]
  rfl

/-- Settles O49: each command's checks in turn, then what it writes to the store. -/
theorem storeCommands : Obligations.StoreCommands := by
  refine ⟨cmdRow_of (body := fun _ => slotWrite) (plenOk := slotWriteLen) (fun _ _ _ => rfl) (fun _ _ => rfl) ?_,
    cmdRow_of (body := fun _ => slotVerify) (plenOk := plenIs 8) (fun _ _ _ => rfl) (fun _ _ => rfl) ?_,
    cmdRow_of (body := activate) (plenOk := plenIs 8) (fun _ _ _ => rfl) (fun _ _ => rfl) ?_,
    cmdRow_of (body := fun _ _ => commit) (plenOk := plenIs 0) (fun _ _ _ => rfl) (fun _ _ => rfl) ?_⟩
  · intro s m _
    generalize box s m = b
    refine ⟨fun h => ?_, fun h hheld => ?_, fun h hactive hdefault => ?_⟩
    · rw [slotWrite_unfit h]
      exact says_bad stBadParam
    · have hslot : slotHeld s.wr.store (slotNamed b) = true := by rw [slotHeld, Bool.or_eq_true, decide_eq_true_iff, decide_eq_true_iff]; exact hheld
      rw [slotWrite_fit h, if_pos hslot]
      exact says_bad stState
    · have hslot : ¬ slotHeld s.wr.store (slotNamed b) = true := by
        rw [slotHeld, Bool.or_eq_true, decide_eq_true_iff, decide_eq_true_iff]
        exact not_or.2 ⟨hactive, hdefault⟩
      rw [slotWrite_fit h, if_neg hslot]
      exact ⟨_, says_ok [], slotWrite_effect b⟩
  · intro s m _
    generalize box s m = b
    refine ⟨fun h => ?_, fun h hv => ?_, fun h why hv => ⟨verifySlot_why hv, ?_⟩⟩
    · rw [slotVerify_unfit h]
      exact says_bad stBadParam
    · rw [slotVerify_fit h _ hv]
      exact ⟨_, says_ok [], keeps_updWr_store _, rfl⟩
    · rw [slotVerify_fit h _ hv]
      exact ⟨_, says_bad why, keeps_updWr_store _, rfl⟩
  · intro s m _
    refine ⟨fun h => ?_, fun h hcond => ?_, fun h hcond => ?_⟩
    · rw [activate_unfit h]
      exact says_bad stBadParam
    · rw [activate_unverified h hcond]
      exact says_bad stState
    · rw [activate_verified h hcond]
      refine ⟨keeps_step (keeps_updWr_update fun _ => _) (keeps_updBox _ _) (by simp) (by simp), rfl, rfl, ?_⟩
      exact (box_updBox _ _ _ _).trans (if_pos rfl)
  · intro s m _
    refine ⟨fun h => ?_, fun x hx hne h0 h1 => ?_⟩
    · rcases h with h | h
      · rw [commit_none h]
        exact says_bad stState
      · rw [commit_active h, if_pos rfl]
        exact says_bad stState
    · rw [commit_active hx, if_neg hne]
      obtain ⟨hA, hB, hactive⟩ := slots_writeSelector x s.wr.store
      refine ⟨_, keeps_updWr_store (fun st => { writeSelector x st with fuse := raisedFuse s.wr.store x }),
        bootDefault_writeSelector x _ h0 h1, BitVec.toNat_ofNat _ _, hA, hB, hactive, ?_⟩
      exact at_zero (raisedFuse s.wr.store x) ▸ says_ok _
end Sys2Proof.Machine
end

section
namespace Sys2Proof.Machine
set_option Elab.async false
variable {s u v : State}

/-! ## O60: every operation of the model keeps memory's form and the queue

One lemma for each operation, in the order of the model's definitions: where the state it starts from has kept the form
since `s`, so has the state it ends in. A carrier of states (`Eff`, `Xl`, `Fetched`, ...) keeps the form where the state
in it does. -/

theorem FormKept.each {α : Type} {l : List α} {f : α → State → State} (h : FormKept s u)
    (hf : ∀ a x, FormKept s x → FormKept s (f a x)) : FormKept s (Machine.forEach l f u) :=
  forEach_keeps (FormKept s) f l u h (fun a _ x hx => hf a x hx)

theorem FormKept.frame (h : FormKept s u)
    (e : v.mem = u.mem ∧ v.old = u.old ∧ v.poison = u.poison ∧ v.pending = u.pending := by exact ⟨rfl, rfl, rfl, rfl⟩) :
    FormKept s v := by
  obtain ⟨hm, ho, hp, hq⟩ := e
  exact h.trans (SameMem.formKept ⟨hm, ho, hp, hq⟩)

theorem FormKept.of_pair {α : Type} {p : α × State} {a : α} (e : p = (a, v)) (h : FormKept s p.2) : FormKept s v := by
  subst e; exact h

def ResKept (s : State) : Result → Prop
  | .next v => FormKept s v
  | _ => True

def EffKept (s : State) : Eff → Prop
  | .done v | .jump _ v | .raise _ v | .wait v => FormKept s v

def XlKept (s : State) : Xl → Prop
  | .ready v | .wait v | .redo v => FormKept s v

def FetchedKept (s : State) : Fetched → Prop
  | .got v | .bad _ v | .wait v => FormKept s v

def SpecLineKept (s : State) : SpecLine → Prop
  | .ready _ _ v | .stall v => FormKept s v

inductive RefModKept (s : State) : RefMod → Prop
  | changed : RefModKept s .changed
  | waits {v : State} (h : FormKept s v) : RefModKept s (.waits v)
  | done {e : TlbE} {v : State} (h : FormKept s v) : RefModKept s (.done e v)

theorem XlKept.of_eq {x y : Xl} (e : x = y) (k : XlKept s x) (hy : XlKept s y → FormKept s v := by exact id) :
    FormKept s v := hy (e ▸ k)

theorem SpecLineKept.of_eq {x y : SpecLine} (e : x = y) (k : SpecLineKept s x)
    (hy : SpecLineKept s y → FormKept s v := by exact id) : FormKept s v := hy (e ▸ k)

theorem FormKept.ite {c : Prop} [Decidable c] {a b : State} (ha : FormKept s a) (hb : FormKept s b) :
    FormKept s (if c then a else b) := by split <;> assumption

theorem FormKept.ite_snd {α : Type} {c : Prop} [Decidable c] {a b : α × State} (ha : FormKept s a.2) (hb : FormKept s b.2) :
    FormKept s (if c then a else b).2 := by split <;> assumption

theorem ResKept.ite {c : Prop} [Decidable c] {a b : Result} (ha : ResKept s a) (hb : ResKept s b) :
    ResKept s (if c then a else b) := by split <;> assumption

theorem FormKept.pair {α : Type} {a : α} (h : FormKept s v) : FormKept s (a, v).2 := h

theorem FormKept.updPw {f : Power → Power} (h : FormKept s u) : FormKept s (Machine.updPw f u) := by
  exact h.frame

theorem FormKept.updWr {f : Wright → Wright} (h : FormKept s u) : FormKept s (Machine.updWr f u) :=
  h.trans (sameMem_updWr _).formKept

theorem FormKept.logEntry {type : BitVec 16} {a : Word} {b : Word} (h : FormKept s u) :
    FormKept s (Machine.logEntry type a b u) :=
  h.trans (sameMem_logEntry _ _ _).formKept

theorem FormKept.wrightEvent {type : BitVec 16} {a : Word} {b : Word} (h : FormKept s u) :
    FormKept s (Machine.wrightEvent type a b u) :=
  h.trans (sameMem_wrightEvent _ _ _).formKept

theorem FormKept.setThr {t : Thr} {v : Thread} (h : FormKept s u) : FormKept s (Machine.setThr t v u) := by
  exact h.frame

theorem FormKept.updThr {t : Thr} {f : Thread → Thread} (h : FormKept s u) : FormKept s (Machine.updThr t f u) := by
  unfold Machine.updThr
  exact h.setThr

theorem FormKept.placeEvent {t : Thr} {r : EvRec} (h : FormKept s u) : FormKept s (Machine.placeEvent t r u) :=
  h.trans (sameMem_placeEvent _ _).formKept

theorem FormKept.acceptEvent {t : Thr} {r : EvRec} (h : FormKept s u) : FormKept s (Machine.acceptEvent t r u) :=
  h.trans (sameMem_acceptEvent _ _).formKept

theorem FormKept.partEvent {p : ℕ} {source : BitVec 8} {index : BitVec 16} {payload : Word} (h : FormKept s u) :
    FormKept s (Machine.partEvent p source index payload u) :=
  h.trans (sameMem_partEvent _ _ _ _).formKept

theorem FormKept.updEp {f : Endpoint → Endpoint} (h : FormKept s u) : FormKept s (Machine.updEp f u) := by
  exact h.frame

theorem FormKept.pendMsi {v : ℕ} {urgent : Bool} (h : FormKept s u) : FormKept s (Machine.pendMsi v urgent u) := by
  unfold Machine.pendMsi
  exact h.updEp

theorem FormKept.countBytes {p : ℕ} {n : ℕ} (h : FormKept s u) : FormKept s (Machine.countBytes p n u) :=
  h.trans (sameMem_countBytes _ _).formKept

theorem FormKept.emit {o : Out} (h : FormKept s u) :
    FormKept s (Machine.emit o u) := h.trans (sameMem_emit o).formKept

theorem FormKept.msiHere {v : ℕ} {urgent : Bool} (h : FormKept s u) : FormKept s (Machine.msiHere v urgent u) := by
  unfold Machine.msiHere
  dsimp only
  split
  · exact h
  · split
    · exact h.pendMsi
    · exact h.emit

theorem FormKept.updRidge {f : Ridge → Ridge} (h : FormKept s u) : FormKept s (Machine.updRidge f u) := by
  exact h.frame

theorem FormKept.takeTag (h : FormKept s u) : FormKept s (Machine.takeTag u).2 := h.frame

theorem FormKept.updCrossing {b : Clk} {f : Crossing → Crossing} (h : FormKept s u) :
    FormKept s (Machine.updCrossing b f u) := by
  exact h.frame

theorem FormKept.enterCrossing {b : Clk} {fabric : Bool} {e : XEnt} (h : FormKept s u) :
    FormKept s (Machine.enterCrossing b fabric e u) := by
  unfold Machine.enterCrossing
  dsimp only
  exact h.updCrossing

theorem FormKept.updPort {x : ℕ} {f : PortSt → PortSt} (h : FormKept s u) : FormKept s (Machine.updPort x f u) := by
  exact h.frame

theorem FormKept.emitFlit {x : Port} {f : SentFlit} (h : FormKept s u) : FormKept s (Machine.emitFlit x f u) :=
  h.trans (sameMem_emitFlit _ _).formKept

theorem FormKept.sendControl {x : Port} {b : FlitBody} (h : FormKept s u) :
    FormKept s (Machine.sendControl x b u) := by
  unfold Machine.sendControl
  exact h.emitFlit

theorem FormKept.sendIdle {x : Port} (h : FormKept s u) : FormKept s (Machine.sendIdle x u) :=
  h.trans (sameMem_sendIdle _).formKept

theorem FormKept.freeBuffer {from' : Option (Port × BitVec 4)} {n : ℕ} (h : FormKept s u) :
    FormKept s (Machine.freeBuffer from' n u) :=
  h.trans (sameMem_freeBuffer _ _).formKept

theorem FormKept.sendOne {x : Port} {vc : BitVec 4} {b : FlitBody} (h : FormKept s u) :
    FormKept s (Machine.sendOne x vc b u) :=
  h.trans (sameMem_sendOne _ _ _).formKept

theorem FormKept.sendSequenced {x : Port} {vc : BitVec 4} {b : FlitBody} (h : FormKept s u) :
    FormKept s (Machine.sendSequenced x vc b u) :=
  h.trans (sameMem_sendSequenced _ _ _).formKept

theorem FormKept.pumpSlots {x : Port} {n : ℕ} (h : FormKept s u) : FormKept s (Machine.pumpSlots x n u) :=
  h.trans (sameMem_pumpSlots x n u).formKept

theorem FormKept.pumpPort {x : Port} (h : FormKept s u) : FormKept s (Machine.pumpPort x u) := by
  unfold Machine.pumpPort
  split
  · exact h
  · exact h.pumpSlots

theorem FormKept.portSend {x : Port} {vc : BitVec 4} {b : FlitBody} {from' : Option (Port × BitVec 4)}
    (h : FormKept s u) :
    FormKept s (Machine.portSend x vc b from' u) :=
  h.trans (sameMem_portSend _ _ _ _).formKept

theorem FormKept.sendReq {cls : BitVec 2} {b : FlitBody} {q : RReq} (h : FormKept s u) :
    ∀ v, Machine.sendReq cls b q u = some v → FormKept s v := by
  unfold Machine.sendReq
  dsimp only
  split
  · split
    · intro _ e
      cases e
    · intro _ e
      cases e
      split
      · exact h.updRidge.updRidge
      · exact h.updRidge.portSend
  · intro _ e
    cases e

theorem FormKept.msiThere {d : BitVec 16} {v : ℕ} {urgent : Bool} (h : FormKept s u) :
    FormKept s (Machine.msiThere d v urgent u) := by
  unfold Machine.msiThere
  dsimp only
  split
  · exact h.pendMsi
  · split
    · exact h.takeTag.sendReq _ ‹_›
    · exact h.pendMsi

theorem FormKept.sendMsi {v : ℕ} {urgent : Bool} (h : FormKept s u) : FormKept s (Machine.sendMsi v urgent u) :=
  h.trans (sameMem_sendMsi _ _).formKept

theorem FormKept.noticeMsg (h : FormKept s u) : FormKept s (Machine.noticeMsg u) :=
  h.trans (sameMem_noticeMsg).formKept

theorem FormKept.notifyMode (h : FormKept s u) : FormKept s (Machine.notifyMode u) :=
  h.trans (sameMem_notifyMode).formKept

theorem FormKept.settleMode (h : FormKept s u) : FormKept s (Machine.settleMode u) := by
  unfold Machine.settleMode
  dsimp only
  split
  · exact h.updPw
  · exact (FormKept.each h.updPw.updWr.wrightEvent fun _ _ hx => hx.partEvent).notifyMode

theorem FormKept.sillReset (h : FormKept s u) : FormKept s (Machine.sillReset u) := ⟨fun _ => memOk_reset, h.pending⟩

theorem FormKept.execSillPowerUp (h : FormKept s u) : ResKept s (Machine.execSillPowerUp u) := by
  unfold Machine.execSillPowerUp
  dsimp only
  split
  · exact h
  · refine FormKept.settleMode ?_
    exact h.sillReset.frame

theorem FormKept.execSillPowerLoss (h : FormKept s u) : ResKept s (Machine.execSillPowerLoss u) := by
  unfold Machine.execSillPowerLoss
  split
  · exact h.sillReset
  · exact h

theorem FormKept.sourceLost {x : Port} (h : FormKept s u) : FormKept s (Machine.sourceLost x u) := by
  unfold Machine.sourceLost
  dsimp only
  split
  · exact h.frame
  · exact h

theorem FormKept.notifyReady (h : FormKept s u) : FormKept s (Machine.notifyReady u) :=
  h.trans (sameMem_notifyReady).formKept

theorem FormKept.setReady {f : Ready → Ready} (h : FormKept s u) : FormKept s (Machine.setReady f u) :=
  h.trans (sameMem_setReady _).formKept

theorem FormKept.setPortReady {x : Port} {b : Bool} (h : FormKept s u) : FormKept s (Machine.setPortReady x b u) := by
  unfold Machine.setPortReady
  exact h.setReady

theorem FormKept.updPair {ns : Bool} {f : Pair → Pair} (h : FormKept s u) : FormKept s (Machine.updPair ns f u) := by
  unfold Machine.updPair
  exact h.updRidge

theorem FormKept.closePair {ns : Bool} {step : PairStep} (h : FormKept s u) :
    FormKept s (Machine.closePair ns step u) := by
  unfold Machine.closePair
  dsimp only
  refine FormKept.updPair ?_
  refine FormKept.each ?_ fun _ _ hx => ?_
  · refine FormKept.each h fun _ _ hx => ?_
    split
    · exact hx.sourceLost
    · exact hx
  · exact hx.updPort.setPortReady

theorem FormKept.resetMain {cold : Bool} (h : FormKept s u) : FormKept s (Machine.resetMain cold u) := by
  unfold Machine.resetMain
  extract_lets w
  have k : FormKept s w := h.closePair.closePair
  clear_value w
  exact FormKept.settleMode ⟨fun _ => ⟨rfl, rfl, List.Pairwise.nil⟩, k.pending⟩

theorem FormKept.coldReset (h : FormKept s u) : FormKept s (Machine.coldReset u) := by
  unfold Machine.coldReset
  split
  · exact h.resetMain
  · exact h

theorem FormKept.execPwrgoodDeassert (h : FormKept s u) : ResKept s (Machine.execPwrgoodDeassert u) := by
  unfold Machine.execPwrgoodDeassert
  dsimp only
  split
  · exact h
  · exact h.updPw.coldReset

theorem FormKept.latchStraps {pins : Straps} (h : FormKept s u) : FormKept s (Machine.latchStraps pins u) := by
  unfold Machine.latchStraps
  exact h.updPw

theorem FormKept.execPwrgoodAssert {pins : Straps} (h : FormKept s u) :
    ResKept s (Machine.execPwrgoodAssert pins u) := by
  unfold Machine.execPwrgoodAssert
  split
  · exact h
  · exact h.latchStraps.updPw.settleMode

theorem FormKept.execStrapLatch {pins : Straps} (h : FormKept s u) : ResKept s (Machine.execStrapLatch pins u) := by
  unfold Machine.execStrapLatch
  split
  · exact h
  · exact h.latchStraps

theorem FormKept.beginLeave {ns : Bool} (h : FormKept s u) : FormKept s (Machine.beginLeave ns u) := by
  unfold Machine.beginLeave
  dsimp only
  split
  · exact h
  · refine FormKept.updPair ?_
    refine FormKept.each h fun _ _ hx => ?_
    split
    · exact hx.portSend
    · exact hx

theorem FormKept.leaveAll (h : FormKept s u) : FormKept s (Machine.leaveAll u) := by
  unfold Machine.leaveAll
  exact h.beginLeave.beginLeave

theorem FormKept.updEntry {e : ℕ} {f : Entry → Entry} (h : FormKept s u) : FormKept s (Machine.updEntry e f u) := by
  exact h.frame

theorem FormKept.freeEntry {e : ℕ} (h : FormKept s u) : FormKept s (Machine.freeEntry e u) := by
  unfold Machine.freeEntry
  dsimp only
  exact h.updEntry

theorem FormKept.updQueue {q : ℕ} {f : Queue → Queue} (h : FormKept s u) : FormKept s (Machine.updQueue q f u) := by
  exact h.frame

theorem FormKept.recordDone {e : ℕ} (h : FormKept s u) : FormKept s (Machine.recordDone e u) := by
  unfold Machine.recordDone
  dsimp only
  exact h.freeEntry.updQueue

theorem FormKept.updInst {i : ℕ} {f : Inst → Inst} (h : FormKept s u) : FormKept s (Machine.updInst i f u) := by
  exact h.frame

theorem FormKept.notePoisonedResult {x : Entry} (h : FormKept s u) : FormKept s (Machine.notePoisonedResult x u) := by
  unfold Machine.notePoisonedResult
  split
  · exact h
  · exact h.updInst

theorem FormKept.deliverHere {e : ℕ} (h : FormKept s u) : FormKept s (Machine.deliverHere e u) := by
  unfold Machine.deliverHere
  extract_lets x q v a rs s1 s2 s3 s4
  have h2 : FormKept s s2 := (FormKept.each h fun _ _ hx => hx.emit).emit
  clear_value s2
  have h3 : FormKept s s3 := FormKept.ite h2.frame h2
  have h4 : FormKept s s4 := FormKept.ite h3.msiHere h3
  exact h4.notePoisonedResult.recordDone

theorem FormKept.sendRec {e : Fin 65536} {d : BitVec 16} (h : FormKept s u) : FormKept s (Machine.sendRec e d u) := by
  unfold Machine.sendRec
  dsimp only
  split
  · exact h
  · exact (h.sendReq _ ‹_›).updEntry

theorem FormKept.deliverThere {e : Fin 65536} {d : BitVec 16} (h : FormKept s u) :
    FormKept s (Machine.deliverThere e d u) := by
  unfold Machine.deliverThere
  refine FormKept.ite h.sendRec (FormKept.each h fun _ _ hx => ?_)
  dsimp only
  split
  · exact hx
  · exact (hx.takeTag.sendReq _ ‹_›).updEntry

theorem FormKept.deliverRecord {e : Fin 65536} (h : FormKept s u) : FormKept s (Machine.deliverRecord e u) := by
  unfold Machine.deliverRecord
  dsimp only
  split
  · exact h
  · split
    · exact h
    · split
      · exact h.deliverHere
      · exact h
    · exact h.deliverThere

theorem FormKept.deliverQueue {q : ℕ} (h : FormKept s u) : FormKept s (Machine.deliverQueue q u) := by
  unfold Machine.deliverQueue
  refine FormKept.each h fun _ _ hx => ?_
  split
  · exact hx.deliverRecord
  · exact hx

theorem FormKept.deliverAll (h : FormKept s u) : FormKept s (Machine.deliverAll u) := by
  unfold Machine.deliverAll
  exact FormKept.each h fun _ _ hx => hx.deliverQueue

theorem FormKept.abandonReads {e : ℕ} (h : FormKept s u) : FormKept s (Machine.abandonReads e u) := by
  unfold Machine.abandonReads
  dsimp only
  exact h.updEp

theorem FormKept.dispVote {t : Thr} {b : Bool} (h : FormKept s u) : FormKept s (Machine.dispVote t b u) := by
  unfold Machine.dispVote
  split
  · exact h.updPw
  · exact h

theorem FormKept.endItem {e : ℕ} {fail : Bool} {cause : BitVec 8} {detail : BitVec 8} (h : FormKept s u) :
    FormKept s (Machine.endItem e fail cause detail u) := by
  unfold Machine.endItem
  dsimp only
  split
  · exact h
  · split
    · exact h.updEntry.abandonReads.dispVote
    · exact h.updEntry.abandonReads

theorem FormKept.failAll {cause : BitVec 8} (h : FormKept s u) : FormKept s (Machine.failAll cause u) := by
  unfold Machine.failAll
  exact (FormKept.each h fun _ _ hx => hx.endItem).deliverAll

theorem FormKept.updSrc {x : Src} {f : SrcEnt → SrcEnt} (h : FormKept s u) : FormKept s (Machine.updSrc x f u) := by
  exact h.frame

theorem FormKept.markSources {l : List Src} {o : Bool} (h : FormKept s u) :
    FormKept s (Machine.markSources l o u) := by
  unfold Machine.markSources
  exact FormKept.each h fun _ _ hx => hx.updSrc

theorem FormKept.updCore {c : ℕ} {f : Core → Core} (h : FormKept s u) : FormKept s (Machine.updCore c f u) := by
  exact h.frame

theorem FormKept.releaseSolo {c : ℕ} (h : FormKept s u) : FormKept s (Machine.releaseSolo c u) := by
  unfold Machine.releaseSolo
  dsimp only
  split
  · exact h
  · exact (FormKept.each h fun _ _ hx => hx.updThr).updCore

theorem FormKept.beginSolo {c : ℕ} {me : Fin 4} (h : FormKept s u) : FormKept s (Machine.beginSolo c me u) := by
  unfold Machine.beginSolo
  exact h.updCore

theorem FormKept.endSolo {c : ℕ} (h : FormKept s u) : FormKept s (Machine.endSolo c u) := by
  unfold Machine.endSolo
  dsimp only
  split
  · exact h.releaseSolo
  · split
    · exact h.releaseSolo
    · split
      · exact h.releaseSolo.updThr.beginSolo
      · exact h.releaseSolo

theorem FormKept.keepMon {p : MonE → Bool} (h : FormKept s u) : FormKept s (Machine.keepMon p u) := by
  exact h.frame

theorem FormKept.loseResv {t : Thr} (h : FormKept s u) : FormKept s (Machine.loseResv t u) :=
  h.trans (sameMem_loseResv _).formKept

theorem FormKept.freeBit (h : FormKept s u) : FormKept s (Machine.freeBit u).2 := by
  exact h.frame

theorem FormKept.writeBytes {a : ℕ} {l : List Byte} (h : FormKept s u) : FormKept s (Machine.writeBytes a l u) :=
  h.trans (formKept_writeBytes a l)

theorem FormKept.dirtyLine {l : BitVec 42} (h : FormKept s u) : FormKept s (Machine.dirtyLine l u) :=
  h.trans (formKept_dirtyLine l)

theorem FormKept.setPoison {l : BitVec 42} {b : Bool} (h : FormKept s u) : FormKept s (Machine.setPoison l b u) :=
  h.trans (formKept_setPoison l b)

theorem FormKept.poisonLine {l : BitVec 42} {whereB : Word} (h : FormKept s u) :
    FormKept s (Machine.poisonLine l whereB u) :=
  h.trans (formKept_poisonLine _ _)

theorem FormKept.loseResvAt {t : Thr} {g : BitVec 41} (h : FormKept s u) : FormKept s (Machine.loseResvAt t g u) :=
  h.trans (sameMem_loseResvAt _ _).formKept

theorem FormKept.loseResvOn {who : Option Thr} {g : BitVec 41} (h : FormKept s u) :
    FormKept s (Machine.loseResvOn who g u) :=
  h.trans (sameMem_loseResvOn _ _).formKept

theorem FormKept.storeBytes {who : Option Thr} {pa : BitVec 48} {l : List Byte} {poison : Bool} (h : FormKept s u) :
    FormKept s (Machine.storeBytes who pa l poison u) :=
  h.trans (formKept_storeBytes _ _ _ _)

theorem FormKept.maybePerform {t : Thr} {a : Access} (h : FormKept s u) :
    FormKept s (Machine.maybePerform t a u) := by
  unfold Machine.maybePerform
  dsimp only
  split
  · exact h
  · split
    · exact h.frame.storeBytes
    · exact h.frame

theorem FormKept.haltThread {t : Thr} (h : FormKept s u) : FormKept s (Machine.haltThread t u) := by
  unfold Machine.haltThread
  dsimp only
  exact FormKept.each h.loseResv.updThr fun _ _ hx => hx.maybePerform

theorem FormKept.stopAll (h : FormKept s u) : FormKept s (Machine.stopAll u) := by
  unfold Machine.stopAll
  dsimp only
  exact FormKept.each h fun _ _ hx => FormKept.each (FormKept.each hx.markSources fun _ _ hx1 => FormKept.each hx1 fun _ _ hx2 => hx2.endSolo) fun _ _ hx1 => hx1.haltThread

theorem FormKept.beginFlush (h : FormKept s u) : FormKept s (Machine.beginFlush u) := by
  unfold Machine.beginFlush
  split
  · exact h
  · exact h.updPw.stopAll.failAll.leaveAll

theorem FormKept.execResetNDebounce (h : FormKept s u) : ResKept s (Machine.execResetNDebounce u) := by
  unfold Machine.execResetNDebounce
  split
  · exact h
  · exact h.beginFlush

theorem FormKept.execWarmResetEffect (h : FormKept s u) : ResKept s (Machine.execWarmResetEffect u) := by
  unfold Machine.execWarmResetEffect
  split
  · exact h
  · split
    · exact h.resetMain
    · exact h

theorem FormKept.updRail {r : ℕ} {f : RailSt → RailSt} (h : FormKept s u) : FormKept s (Machine.updRail r f u) := by
  exact h.frame

theorem FormKept.requestRail {r : Rail} {mv : BitVec 16} (h : FormKept s u) :
    FormKept s (Machine.requestRail r mv u) := by
  unfold Machine.requestRail
  exact h.updRail.emit

theorem FormKept.updDie {d : ℕ} {f : Die → Die} (h : FormKept s u) : FormKept s (Machine.updDie d f u) := by
  exact h.frame

theorem FormKept.retrainEndpoint (h : FormKept s u) : FormKept s (Machine.retrainEndpoint u) := by
  unfold Machine.retrainEndpoint
  split
  · exact h
  · exact h.updEp

theorem FormKept.execBringupStart (h : FormKept s u) : ResKept s (Machine.execBringupStart u) := by
  unfold Machine.execBringupStart
  dsimp only
  split
  · exact h
  · exact ((((FormKept.each h.updPw.updWr.updEp fun _ _ hx => hx.requestRail).retrainEndpoint).updDie).setReady).settleMode

theorem FormKept.declareDone (h : FormKept s u) : FormKept s (Machine.declareDone u) := by
  unfold Machine.declareDone
  exact h.updPw.settleMode

theorem FormKept.execBringupDone (h : FormKept s u) : ResKept s (Machine.execBringupDone u) := by
  unfold Machine.execBringupDone
  split
  · exact h
  · split
    · exact h.declareDone
    · exact h

theorem FormKept.updChan {c : ℕ} {f : Chan → Chan} (h : FormKept s u) : FormKept s (Machine.updChan c f u) := by
  exact h.frame

theorem FormKept.updSlice {b : ℕ} {f : Slice → Slice} (h : FormKept s u) : FormKept s (Machine.updSlice b f u) := by
  exact h.frame

theorem FormKept.send {k' : CKind} {m : CMsg} (h : FormKept s u) : FormKept s (Machine.send k' m u) := by
  exact h.frame

theorem FormKept.updPart {p : ℕ} {f : Part → Part} (h : FormKept s u) : FormKept s (Machine.updPart p f u) := by
  exact h.frame

theorem FormKept.requeue {e : ℕ} (h : FormKept s u) : FormKept s (Machine.requeue e u) := by
  unfold Machine.requeue
  extract_lets x s1 s2 s3
  have h2 : FormKept s s2 := by
    unfold s2
    split
    · exact h.abandonReads.dispVote
    · exact h.abandonReads
  have h3 : FormKept s s3 := h2.updEntry
  split
  · exact h3
  · exact FormKept.ite h3.endItem h3

theorem FormKept.downItems {p : ℕ} {code : BitVec 8} (h : FormKept s u) :
    FormKept s (Machine.downItems p code u) := by
  unfold Machine.downItems
  dsimp only
  refine FormKept.each h fun _ _ hx => ?_
  split
  · exact hx.endItem
  · split
    · exact hx.requeue
    · exact hx

theorem FormKept.notice {p : ℕ} {index : BitVec 16} {payload : Word} (h : FormKept s u) :
    FormKept s (Machine.notice p index payload u) :=
  h.trans (sameMem_notice _ _ _).formKept

theorem FormKept.redirect {p : ℕ} (h : FormKept s u) : FormKept s (Machine.redirect p u) := by
  unfold Machine.redirect
  dsimp only
  split
  · exact h
  · split
    · exact h
    · refine FormKept.notice ?_
      refine FormKept.updPart ?_
      refine FormKept.each h fun _ _ hx => ?_
      split
      · exact hx.updQueue
      · exact hx

theorem FormKept.downSteps {p : ℕ} {code : BitVec 8} {det : BitVec 6} {unit : Option Src} {logB : Word}
    (h : FormKept s u) :
    FormKept s (Machine.downSteps p code det unit logB u) := by
  unfold Machine.downSteps
  dsimp only
  refine FormKept.wrightEvent ?_
  split
  · exact ((((((FormKept.each (FormKept.each h.updPart.markSources fun _ _ hx => FormKept.each hx fun _ _ hx1 => hx1.releaseSolo) fun _ _ hx => hx.haltThread).updPw).updPart).setReady).downItems).settleMode).redirect
  · exact (((((FormKept.each (FormKept.each h.updPart.markSources fun _ _ hx => FormKept.each hx fun _ _ hx1 => hx1.releaseSolo) fun _ _ hx => hx.haltThread).updPw).updPart).setReady).downItems).settleMode

theorem FormKept.reportCoherence {p : ℕ} {code : BitVec 8} {det : BitVec 6} {unit : Option Src} (h : FormKept s u) :
    FormKept s (Machine.reportCoherence p code det unit u) := by
  unfold Machine.reportCoherence
  dsimp only
  split
  · exact h.downSteps
  · exact h.downSteps
  · split
    · exact h.downSteps
    · exact h.wrightEvent
  · exact h.wrightEvent

theorem FormKept.protocol {a : Agent} (h : FormKept s u) : FormKept s (Machine.protocol a u) := by
  unfold Machine.protocol
  dsimp only
  split
  · exact h
  · exact h.reportCoherence

theorem FormKept.updDir {h' : ℕ} {key : ℕ} {f : DirE → DirE} (h : FormKept s u) :
    FormKept s (Machine.updDir h' key f u) := by
  unfold Machine.updDir
  exact h.updSlice

theorem FormKept.cleanLine {l : BitVec 42} (h : FormKept s u) : FormKept s (Machine.cleanLine l u) :=
  h.trans (formKept_cleanLine l)

theorem FormKept.llcFill {h' : ℕ} {l : BitVec 42} {dirty : Bool} {nt : Bool} (h : FormKept s u) :
    FormKept s (Machine.llcFill h' l dirty nt u) := by
  unfold Machine.llcFill
  dsimp only
  split
  · exact h.updSlice
  · refine FormKept.updSlice ?_
    split
    · exact h.cleanLine
    · exact h

theorem FormKept.absorbWb {h' : Fin 40} {k' : CKind} {m : CMsg} (h : FormKept s u) :
    FormKept s (Machine.absorbWb h' k' m u) := by
  unfold Machine.absorbWb
  dsimp only
  split
  · split
    · exact h.protocol
    · exact h.send
  · split
    · split
      · exact h.protocol
      · exact h.llcFill.updDir.send
    · split <;> exact h.updDir.send

theorem FormKept.forwardAll {h' : Fin 40} {k' : CKind} {bays : BitVec 40} {coll : Agent} {m : CMsg}
    (h : FormKept s u) :
    FormKept s (Machine.forwardAll h' k' bays coll m u) := by
  unfold Machine.forwardAll
  dsimp only
  refine FormKept.each h fun _ _ hx => ?_
  split
  · exact hx.send
  · exact hx

theorem FormKept.homeData {h' : Fin 40} {m : CMsg} {excl : Bool} {acks : BitVec 40} (h : FormKept s u) :
    FormKept s (Machine.homeData h' m excl acks u) := by
  unfold Machine.homeData
  dsimp only
  exact h.llcFill.send

theorem FormKept.grant {h' : Fin 40} {m : CMsg} {acks : BitVec 40} (h : FormKept s u) :
    FormKept s (Machine.grant h' m acks u) := by
  unfold Machine.grant
  dsimp only
  exact h.send

theorem FormKept.clearHomeMon {h' : ℕ} {l : BitVec 42} (h : FormKept s u) :
    FormKept s (Machine.clearHomeMon h' l u) := by
  unfold Machine.clearHomeMon
  dsimp only
  exact FormKept.each h fun _ _ hx => hx.loseResvAt

theorem FormKept.llcClean {h' : ℕ} {l : BitVec 42} (h : FormKept s u) : FormKept s (Machine.llcClean h' l u) := by
  unfold Machine.llcClean
  exact h.updSlice

theorem FormKept.llcDrop {h' : ℕ} {l : BitVec 42} (h : FormKept s u) : FormKept s (Machine.llcDrop h' l u) := by
  unfold Machine.llcDrop
  exact h.updSlice

theorem FormKept.writeLineData {l : BitVec 42} {v : BitVec 512} (h : FormKept s u) :
    FormKept s (Machine.writeLineData l v u) :=
  h.trans (formKept_writeLineData _ _)

theorem FormKept.discardLine {l : BitVec 42} (h : FormKept s u) : FormKept s (Machine.discardLine l u) :=
  h.trans (formKept_discardLine l)

theorem FormKept.storeMasked {who : Option Thr} {l : BitVec 42} {data : BitVec 512} {mask : BitVec 64}
    {poison : Bool} (h : FormKept s u) :
    FormKept s (Machine.storeMasked who l data mask poison u) := by
  unfold Machine.storeMasked
  dsimp only
  split
  · exact h.storeBytes
  · refine FormKept.loseResvOn ?_
    split
    · exact (FormKept.each h.dirtyLine fun _ _ hx => hx.writeBytes).poisonLine
    · exact FormKept.each h.dirtyLine fun _ _ hx => hx.writeBytes

theorem FormKept.updBay {b : ℕ} {f : Bay → Bay} (h : FormKept s u) : FormKept s (Machine.updBay b f u) := by
  exact h.frame

theorem FormKept.updEngine {e : ℕ} {f : Engine → Engine} (h : FormKept s u) :
    FormKept s (Machine.updEngine e f u) := by
  exact h.frame

theorem FormKept.setMon {m : MonAt} {l : List MonE} (h : FormKept s u) : FormKept s (Machine.setMon m l u) := by
  unfold Machine.setMon
  split
  · exact h.updBay
  · exact h.updEngine
  · exact h.updSlice

theorem FormKept.monDrop {m : MonAt} {t : Thr} (h : FormKept s u) : FormKept s (Machine.monDrop m t u) := by
  unfold Machine.monDrop
  exact h.setMon

theorem FormKept.monTake {m : MonAt} {t : Thr} {pa : BitVec 48} {dbl : Bool} (h : FormKept s u) :
    FormKept s (Machine.monTake m t pa dbl u) := by
  unfold Machine.monTake
  dsimp only
  split
  · exact h.loseResv.monDrop
  · exact h.loseResv.monDrop.setMon.updThr

theorem FormKept.stcndDo {t : Thr} {m : Option MonAt} {pa : BitVec 48} {dbl : Bool} {v : Word} {poison : Bool}
    (h : FormKept s u) :
    FormKept s (Machine.stcndDo t m pa dbl v poison u).2 := by
  unfold Machine.stcndDo
  dsimp only
  split
  · refine FormKept.storeBytes ?_
    split
    · exact h.loseResv.monDrop
    · exact h.loseResv
  · split
    · exact h.loseResv.monDrop
    · exact h.loseResv

theorem FormKept.atomDo {t : Thr} {op : AtomOp} {pa : BitVec 48} {dbl : Bool} {a : Word} {b : Word} {poison : Bool}
    (h : FormKept s u) :
    FormKept s (Machine.atomDo t op pa dbl a b poison u).2.2 := by
  unfold Machine.atomDo
  dsimp only
  split
  · exact h.storeBytes
  · exact FormKept.ite h.storeBytes h
  · exact h

theorem FormKept.performHub {h' : Fin 40} {k' : ReqKind} {m : CMsg} (h : FormKept s u) :
    FormKept s (Machine.performHub h' k' m u) := by
  unfold Machine.performHub
  dsimp only
  split
  · exact h.storeMasked.llcFill.grant
  · refine FormKept.send ?_
    refine FormKept.llcFill ?_
    split
    · exact h.monTake
    · exact h.stcndDo
    · exact h.atomDo
  · exact h.homeData

theorem FormKept.beginTx {h' : Fin 40} {key : ℕ} {k' : ReqKind} {m : CMsg} (h : FormKept s u) :
    FormKept s (Machine.beginTx h' key k' m u) := by
  unfold Machine.beginTx
  dsimp only
  split
  · split
    · exact h.updDir.updSlice.forwardAll
    · exact h.updDir.homeData
  · split
    · exact h.clearHomeMon.updDir.forwardAll
    · split
      · exact h.clearHomeMon.updDir.forwardAll.homeData
      · exact h.clearHomeMon.updDir.forwardAll.grant
  · split
    · exact h.clearHomeMon.updDir.forwardAll
    · split
      · exact h.clearHomeMon.updDir.forwardAll.homeData
      · exact h.clearHomeMon.updDir.forwardAll.grant
  · split
    · exact h.clearHomeMon.updDir.forwardAll
    · split
      · exact h.clearHomeMon.updDir.forwardAll.homeData
      · exact h.clearHomeMon.updDir.forwardAll.grant
  · split
    · exact h.updDir.forwardAll
    · exact h.cleanLine.llcClean.updDir.grant
  · split
    · exact h.updDir.forwardAll
    · exact h.cleanLine.llcDrop.updDir.forwardAll.grant
  · exact h.discardLine.llcDrop.updDir.forwardAll.grant
  · split
    · exact h.updDir.forwardAll
    · exact h.performHub
  · split
    · exact h.updDir.forwardAll
    · split
      · exact h.updDir.forwardAll
      · split
        · exact h.performHub.updDir
        · exact h.performHub

theorem FormKept.serveBare {h' : Fin 40} {k' : ReqKind} {m : CMsg} (h : FormKept s u) :
    FormKept s (Machine.serveBare h' k' m u) := by
  unfold Machine.serveBare
  dsimp only
  split
  · exact h.cleanLine.llcClean.updSlice.grant
  · exact h.cleanLine.llcDrop.updSlice.grant
  · exact h.discardLine.llcDrop.updSlice.grant
  · exact h.performHub

theorem FormKept.takeWay {h' : ℕ} {key : ℕ} {l : BitVec 42} (h : FormKept s u) :
    FormKept s (Machine.takeWay h' key l u) := by
  unfold Machine.takeWay
  dsimp only
  exact h.updDir

theorem FormKept.serve {h' : Fin 40} {k' : ReqKind} {m : CMsg} (h : FormKept s u) :
    FormKept s (Machine.serve h' k' m u) := by
  unfold Machine.serve
  dsimp only
  split
  · exact h.beginTx
  · split
    · exact h.serveBare
    · split
      · exact h.takeWay.beginTx
      · split
        · exact h
        · exact h.updDir.updSlice.forwardAll

theorem FormKept.settleDir {i : Fin 40} {l : BitVec 42} {n : ℕ} (h : FormKept s u) :
    FormKept s (Machine.settleDir i l n u) := by
  induction n generalizing u with
  | zero => exact h
  | succ n ih =>
    unfold Machine.settleDir
    split
    · exact ih h.updSlice.absorbWb
    · split
      · exact h
      · extract_lets s1 more s2 s3
        have h2 : FormKept s s2 := by
          unfold s2
          split
          · exact h.updSlice.updDir
          · exact h.updSlice
        have h3 : FormKept s s3 := by
          unfold s3
          split
          · exact h2.updPart
          · exact h2
        exact ih h3.serve

theorem FormKept.settleLine {h' : Fin 40} {l : BitVec 42} (h : FormKept s u) :
    FormKept s (Machine.settleLine h' l u) := by
  unfold Machine.settleLine
  exact h.settleDir

theorem FormKept.settleHomes (h : FormKept s u) : FormKept s (Machine.settleHomes u) := by
  unfold Machine.settleHomes
  exact FormKept.each h fun _ _ hx => FormKept.each hx fun _ _ hx1 => hx1.settleLine

theorem FormKept.forgetLines {p : BitVec 42 → Bool} (h : FormKept s u) : FormKept s (Machine.forgetLines p u) := by
  exact h.frame

theorem FormKept.loseResvIf {p : BitVec 42 → Bool} (h : FormKept s u) : FormKept s (Machine.loseResvIf p u) := by
  unfold Machine.loseResvIf
  dsimp only
  refine FormKept.each h fun _ _ hx => ?_
  split
  · split
    · exact hx
    · split
      · exact hx.loseResv
      · exact hx
  · exact hx

theorem FormKept.dropCopiesIf {p : BitVec 42 → Bool} (h : FormKept s u) : FormKept s (Machine.dropCopiesIf p u) := by
  have k : FormKept s (Machine.forgetLines p (Machine.loseResvIf p u)) := h.loseResvIf.forgetLines
  exact k.frame

theorem FormKept.retireChan {c : ℕ} {cause : ℕ} (h : FormKept s u) : FormKept s (Machine.retireChan c cause u) := by
  unfold Machine.retireChan
  dsimp only
  split
  · exact h
  · refine FormKept.settleMode ?_
    refine FormKept.each ?_ fun _ _ hx => ?_
    · refine FormKept.wrightEvent ?_
      refine FormKept.setReady ?_
      refine FormKept.each ?_ fun _ _ hx => ?_
      · refine FormKept.settleHomes ?_
        refine FormKept.dropCopiesIf ?_
        split
        · exact h.updChan.updChan
        · exact h.updChan
      · exact hx.discardLine.updChan.poisonLine
    · exact hx.notice

theorem FormKept.failTraining {c : ℕ} (h : FormKept s u) : FormKept s (Machine.failTraining c u) := by
  unfold Machine.failTraining
  dsimp only
  refine FormKept.retireChan ?_
  split
  · exact h
  · exact h.frame

theorem FormKept.discardPort {x : Port} (h : FormKept s u) : FormKept s (Machine.discardPort x u) := by
  unfold Machine.discardPort
  dsimp only
  exact (FormKept.each h.updPort fun _ _ hx => hx.freeBuffer).updRidge

theorem FormKept.topologyNotice (h : FormKept s u) : FormKept s (Machine.topologyNotice u) := by
  unfold Machine.topologyNotice
  refine FormKept.each h fun _ _ hx => ?_
  split
  · exact hx.notice
  · exact hx

theorem FormKept.passOn {column : Bool} {skip : Option Port} {b : FlitBody} (h : FormKept s u) :
    FormKept s (Machine.passOn column skip b u) := by
  unfold Machine.passOn
  refine FormKept.each h fun _ _ hx => ?_
  split
  · exact hx.portSend
  · exact hx

theorem FormKept.markSeen {column : Bool} {g : ℕ} {n : BitVec 8} (h : FormKept s u) :
    FormKept s (Machine.markSeen column g n u) := by
  unfold Machine.markSeen
  exact h.updRidge

theorem FormKept.flood {column : Bool} (h : FormKept s u) : FormKept s (Machine.flood column u) := by
  unfold Machine.flood
  dsimp only
  exact h.updRidge.topologyNotice.markSeen.passOn

theorem FormKept.pumpHeld {n : ℕ} (h : FormKept s u) : FormKept s (Machine.pumpHeld n u) := by
  induction n generalizing u with
  | zero => exact h
  | succ n ih =>
    unfold Machine.pumpHeld
    split
    · exact h
    · exact ih h.updRidge.portSend

theorem FormKept.closeReq {p : RReq → Bool} (h : FormKept s u) : FormKept s (Machine.closeReq p u) := by
  unfold Machine.closeReq
  dsimp only
  exact h.updRidge.pumpHeld

theorem FormKept.pmcWraps {t : Thr} {ws : List ℕ} (h : FormKept s u) : FormKept s (Machine.pmcWraps t ws u) :=
  h.trans (sameMem_pmcWraps _ _).formKept

theorem FormKept.pmcCount {t : Thr} {code : ℕ} {k' : ℕ} {level : Bool} {sel : Option Bool} (h : FormKept s u) :
    FormKept s (Machine.pmcCount t code k' level sel u) :=
  h.trans (sameMem_pmcCount _ _ _ _ _).formKept

theorem FormKept.countEvent {t : Thr} {code : ℕ} (h : FormKept s u) : FormKept s (Machine.countEvent t code u) :=
  h.trans (sameMem_countEvent _ _).formKept

theorem FormKept.removeOut {t : Thr} {id : ℕ} (h : FormKept s u) : FormKept s (Machine.removeOut t id u) := by
  unfold Machine.removeOut
  exact h.updThr

theorem FormKept.countUnconfirmed {t : Thr} {code : ℕ} (h : FormKept s u) :
    FormKept s (Machine.countUnconfirmed t code u) := by
  unfold Machine.countUnconfirmed
  exact h.pmcCount

theorem FormKept.freeShim {i : Fin 640} {p : ShimE → Bool} (h : FormKept s u) :
    FormKept s (Machine.freeShim i p u) := by
  unfold Machine.freeShim
  exact h.updCore

theorem FormKept.noteError {c : ℕ} {x : Loc} {l : BitVec 42} {dev : BitVec 6} {ue : Bool} {patrol : Bool}
    (h : FormKept s u) :
    FormKept s (Machine.noteError c x l dev ue patrol u) := by
  unfold Machine.noteError
  dsimp only
  exact h.updChan.wrightEvent

theorem FormKept.logFound {l : List (BitVec 42 × Fin 16 × BitVec 6)} (h : FormKept s u) :
    FormKept s (Machine.logFound l u) := by
  unfold Machine.logFound
  refine FormKept.each h fun _ _ hx => ?_
  split
  · exact hx.updChan.noteError
  · exact hx

theorem FormKept.releaseShim {i : Fin 640} {p : ShimE → Bool} (h : FormKept s u) :
    FormKept s (Machine.releaseShim i p u) := by
  unfold Machine.releaseShim
  dsimp only
  exact h.logFound.freeShim

theorem FormKept.countConfirmed {t : Thr} {code : ℕ} {k' : ℕ} (h : FormKept s u) :
    FormKept s (Machine.countConfirmed t code k' u) :=
  h.trans (sameMem_countConfirmed _ _ _).formKept

theorem FormKept.countHeld {t : Thr} {code : ℕ} (h : FormKept s u) : FormKept s (Machine.countHeld t code u) := by
  unfold Machine.countHeld
  split
  · exact h.countConfirmed
  · exact h.pmcCount

theorem FormKept.countMany {t : Thr} {code : ℕ} {k' : ℕ} (h : FormKept s u) :
    FormKept s (Machine.countMany t code k' u) :=
  h.trans (sameMem_countMany _ _ _).formKept

theorem FormKept.retireTo {t : Thr} {pc : Word} {th0 : Thread} (h : FormKept s u) :
    FormKept s (Machine.retireTo t pc th0 u) := by
  unfold Machine.retireTo
  dsimp only
  split
  · refine FormKept.countConfirmed ?_
    refine FormKept.countMany ?_
    refine FormKept.each ?_ fun _ _ hx => ?_
    · refine FormKept.updThr ?_
      split
      · exact h.countUnconfirmed.releaseShim
      · exact h.countUnconfirmed
    · exact hx.countHeld
  · split <;> exact h.countUnconfirmed.updThr

theorem FormKept.valueDone {t : Thr} {id : ℕ} {v : Word} {poison : Bool} (h : FormKept s u) :
    FormKept s (Machine.valueDone t id v poison u) := by
  unfold Machine.valueDone
  dsimp only
  split
  · exact h
  · split
    · exact h.removeOut.updThr
    · split
      · exact h.removeOut
      · exact h.removeOut.updThr.retireTo

theorem FormKept.dropCopies {l : BitVec 42} (h : FormKept s u) : FormKept s (Machine.dropCopies l u) :=
  h.trans (sameMem_dropCopies _).formKept

theorem FormKept.hubWrite {pa : BitVec 48} {l : List Byte} {poison : Bool} (h : FormKept s u) :
    FormKept s (Machine.hubWrite pa l poison u) :=
  h.trans (formKept_hubWrite _ _ _)

theorem FormKept.lostStore {t : Thr} {a : Access} {cause : LostCause} (h : FormKept s u) :
    FormKept s (Machine.lostStore t a cause u) := by
  unfold Machine.lostStore
  dsimp only
  refine FormKept.countEvent ?_
  refine FormKept.updThr ?_
  split
  · split
    · exact (h.frame.hubWrite).cleanLine
    · refine FormKept.cleanLine ?_
      refine FormKept.hubWrite ?_
      split
      · exact h.frame
      · exact h
  · split
    · exact h.updThr
    · exact h

theorem FormKept.accessLost {t : Thr} {a : Access} {cause : LostCause} (h : FormKept s u) :
    FormKept s (Machine.accessLost t a cause u) := by
  unfold Machine.accessLost
  dsimp only
  split
  · exact h.updThr.countEvent.valueDone
  · split
    · exact h.lostStore.valueDone
    · split
      · exact h.lostStore.loseResv.valueDone
      · exact h.lostStore.removeOut

theorem FormKept.ridgeAccessLost {t : Thr} {id : ℕ} {cause : LostCause} (h : FormKept s u) :
    FormKept s (Machine.ridgeAccessLost t id cause u) := by
  unfold Machine.ridgeAccessLost
  split
  · exact h.accessLost
  · exact h

theorem FormKept.countUnreach (h : FormKept s u) : FormKept s (Machine.countUnreach u) := by
  unfold Machine.countUnreach
  exact h.updRidge

theorem FormKept.keepDead {l : List ReadRec} (h : FormKept s u) : FormKept s (Machine.keepDead l u) := by
  unfold Machine.keepDead
  exact h.updEp

theorem FormKept.updRead {r : ReadRec} {f : ReadRec → ReadRec} (h : FormKept s u) :
    FormKept s (Machine.updRead r f u) := by
  unfold Machine.updRead
  exact h.updEp

theorem FormKept.issueRead {r : ReadRec} (h : FormKept s u) : FormKept s (Machine.issueRead r u) := by
  unfold Machine.issueRead
  dsimp only
  split
  · exact h
  · split
    · exact h
    · split
      · exact h
      · exact h.updRead.emit
  · split
    · exact h.countUnreach.endItem
    · exact (h.takeTag.sendReq _ ‹_›).updRead

theorem FormKept.pumpReads (h : FormKept s u) : FormKept s (Machine.pumpReads u) := by
  unfold Machine.pumpReads
  dsimp only
  refine FormKept.each h.updEp fun _ _ hx => ?_
  split
  · exact hx.issueRead
  · exact hx

theorem FormKept.sendRsp {cls : BitVec 2} {b : FlitBody} (h : FormKept s u) :
    FormKept s (Machine.sendRsp cls b u) := by
  unfold Machine.sendRsp
  split
  · exact h.portSend
  · exact h.updRidge

theorem FormKept.readFailed {r : ReadRec} {cause : BitVec 8} {detail : BitVec 8} {status : BitVec 2}
    (h : FormKept s u) :
    FormKept s (Machine.readFailed r cause detail status u) := by
  unfold Machine.readFailed
  dsimp only
  split
  · exact h.keepDead.updEp.sendRsp.pumpReads
  · exact h.updEp.endItem.pumpReads

theorem FormKept.loseReq {q : RReq} (h : FormKept s u) : FormKept s (Machine.loseReq q u) := by
  unfold Machine.loseReq
  dsimp only
  split
  · exact h.closeReq.countUnreach.ridgeAccessLost
  · split
    · split
      · exact h.closeReq
      · split
        · exact h.closeReq.countUnreach.readFailed
        · exact h.closeReq.updRead.pumpReads
    · split
      · exact h.closeReq.updRidge.updEntry
      · exact h.closeReq.updEntry
  · exact h.closeReq

theorem FormKept.loseReqs {p : RReq → Bool} (h : FormKept s u) : FormKept s (Machine.loseReqs p u) := by
  unfold Machine.loseReqs
  dsimp only
  exact (FormKept.each h.updRidge fun _ _ hx => hx.loseReq).deliverAll

theorem FormKept.portDown {x : Port} {st : BitVec 3} (h : FormKept s u) : FormKept s (Machine.portDown x st u) := by
  unfold Machine.portDown
  dsimp only
  exact h.discardPort.sourceLost.updPort.setPortReady.loseReqs.flood

theorem FormKept.failPort {x : Port} (h : FormKept s u) : FormKept s (Machine.failPort x u) := by
  unfold Machine.failPort
  dsimp only
  refine FormKept.settleMode ?_
  split
  · exact h.portDown.updPort.wrightEvent.updPair
  · exact h.portDown.updPort.wrightEvent

theorem FormKept.failStart {p : ℕ} (h : FormKept s u) : FormKept s (Machine.failStart p u) := by
  unfold Machine.failStart
  dsimp only
  exact h.updPart.wrightEvent.settleMode

theorem FormKept.applyCohCtl {p : ℕ} (h : FormKept s u) : FormKept s (Machine.applyCohCtl p u) := by
  unfold Machine.applyCohCtl
  dsimp only
  split
  · exact h
  · exact h.updPart

theorem FormKept.applyLayout {x : Layout} (h : FormKept s u) : FormKept s (Machine.applyLayout x u) := by
  unfold Machine.applyLayout
  exact h.updPart

theorem FormKept.takeLayout {p : ℕ} (h : FormKept s u) : FormKept s (Machine.takeLayout p u) := by
  unfold Machine.takeLayout
  dsimp only
  split
  · exact h
  · split
    · exact h
    · split
      · exact h
      · split
        · exact h.applyLayout.applyCohCtl.updPart.settleMode
        · exact h.applyLayout.applyCohCtl

theorem FormKept.execBringupTimeout (h : FormKept s u) : ResKept s (Machine.execBringupTimeout u) := by
  unfold Machine.execBringupTimeout
  dsimp only
  split
  · exact h
  · exact (FormKept.each (FormKept.each (FormKept.each h fun _ _ hx => hx.failTraining) fun _ _ hx => hx.failPort) fun _ _ hx => hx.takeLayout.failStart).declareDone

theorem FormKept.brace (h : FormKept s u) : FormKept s (Machine.brace u) := by
  unfold Machine.brace
  exact h.updPw.settleMode

theorem FormKept.logRail {r : ℕ} {warn : Bool} {below : Bool} {mv : BitVec 16} (h : FormKept s u) :
    FormKept s (Machine.logRail r warn below mv u) := by
  unfold Machine.logRail
  dsimp only
  exact h.wrightEvent

theorem FormKept.warned {r : ℕ} {mv : BitVec 16} (h : FormKept s u) : FormKept s (Machine.warned r mv u) := by
  unfold Machine.warned
  dsimp only
  refine FormKept.brace ?_
  split
  · exact h.updRail.logRail
  · exact h.updRail

theorem FormKept.execRailWarning {r : Rail} {mv : BitVec 16} (h : FormKept s u) :
    ResKept s (Machine.execRailWarning r mv u) := by
  unfold Machine.execRailWarning
  dsimp only
  split
  · exact h
  · exact h.warned

theorem FormKept.leaveBraced (h : FormKept s u) : FormKept s (Machine.leaveBraced u) := by
  unfold Machine.leaveBraced
  split
  · exact h
  · exact h.updPw.settleMode

theorem FormKept.execBracedExit (h : FormKept s u) : ResKept s (Machine.execBracedExit u) := by
  unfold Machine.execBracedExit
  exact h.leaveBraced

theorem FormKept.crossed {r : ℕ} {mv : BitVec 16} (h : FormKept s u) : FormKept s (Machine.crossed r mv u) := by
  unfold Machine.crossed
  exact h.warned.updRail.logRail

theorem FormKept.dieBits (h : FormKept s u) : FormKept s (Machine.dieBits u) := by
  unfold Machine.dieBits
  dsimp only
  exact h.setReady

theorem FormKept.dieDown {d : ℕ} {code : BitVec 8} (h : FormKept s u) : FormKept s (Machine.dieDown d code u) := by
  unfold Machine.dieDown
  dsimp only
  refine FormKept.each h fun _ _ hx => ?_
  split
  · exact hx.reportCoherence
  · exact hx

theorem FormKept.execVcoreResetCrossing {d : Fin 4} {mv : BitVec 16} (h : FormKept s u) :
    ResKept s (Machine.execVcoreResetCrossing d mv u) := by
  unfold Machine.execVcoreResetCrossing
  dsimp only
  split
  · exact h
  · exact h.crossed.updDie.dieDown.dieBits

theorem FormKept.execVhubResetCrossing {mv : BitVec 16} (h : FormKept s u) :
    ResKept s (Machine.execVhubResetCrossing mv u) := by
  unfold Machine.execVhubResetCrossing
  split
  · exact h
  · exact h.crossed.coldReset

theorem FormKept.execVio18ResetCrossing {mv : BitVec 16} (h : FormKept s u) :
    ResKept s (Machine.execVio18ResetCrossing mv u) := by
  unfold Machine.execVio18ResetCrossing
  split
  · exact h
  · exact h.crossed.coldReset

theorem FormKept.execVddqResetCrossing {g : Fin 4} {mv : BitVec 16} (h : FormKept s u) :
    ResKept s (Machine.execVddqResetCrossing g mv u) := by
  unfold Machine.execVddqResetCrossing
  split
  · exact h
  · exact FormKept.each h.crossed fun _ _ hx => hx.retireChan

theorem FormKept.allInstsRearm (h : FormKept s u) : FormKept s (Machine.allInstsRearm u) := by
  unfold Machine.allInstsRearm
  dsimp only
  split
  · exact h.frame
  · exact h.frame

theorem FormKept.headAnswer {j : HeadJob} {op : BitVec 6} {status : BitVec 2} (h : FormKept s u) :
    FormKept s (Machine.headAnswer j op status u) := by
  unfold Machine.headAnswer
  exact h.sendRsp

theorem FormKept.headJob {j : HeadJob} (h : FormKept s u) : FormKept s (Machine.headJob j u).2 := by
  unfold Machine.headJob
  dsimp only
  split
  · split
    · exact h.headAnswer
    · split
      · exact h
      · exact h.emit.headAnswer
  · split
    · exact h.headAnswer
    · split
      · exact h.headAnswer
      · split
        · exact h
        · refine FormKept.headAnswer ?_
          refine FormKept.updRidge ?_
          split
          · exact h.emit.msiHere
          · exact h.emit

theorem FormKept.pumpHead (h : FormKept s u) : FormKept s (Machine.pumpHead u) := by
  unfold Machine.pumpHead
  dsimp only
  refine FormKept.each h.updRidge fun _ _ hx => ?_
  split
  · exact hx.headJob
  · exact hx.updRidge

theorem FormKept.hostLinkLost (h : FormKept s u) : FormKept s (Machine.hostLinkLost u) := by
  unfold Machine.hostLinkLost
  dsimp only
  refine FormKept.pumpHead ?_
  refine FormKept.updEp ?_
  split
  · refine FormKept.each ?_ fun _ _ hx => ?_
    · refine FormKept.each h fun _ _ hx => ?_
      split
      · exact hx.readFailed
      · exact hx
    · split
      · exact hx.endItem
      · exact hx
  · refine FormKept.each h fun _ _ hx => ?_
    split
    · exact hx.readFailed
    · exact hx

theorem FormKept.afterReset (h : FormKept s u) : FormKept s (Machine.afterReset u) := by
  exact h.frame

theorem FormKept.pcieReset (h : FormKept s u) : FormKept s (Machine.pcieReset u) := by
  unfold Machine.pcieReset
  extract_lets v time w
  have hv : FormKept s v := h.updEp
  have hw : FormKept s w := FormKept.ite hv.frame hv
  exact hw.afterReset.hostLinkLost.allInstsRearm.settleMode

theorem FormKept.linkDown (h : FormKept s u) : FormKept s (Machine.linkDown u) := by
  unfold Machine.linkDown
  split
  · exact h.pcieReset.updEp
  · exact h

theorem FormKept.execVserdesResetCrossing {mv : BitVec 16} (h : FormKept s u) :
    ResKept s (Machine.execVserdesResetCrossing mv u) := by
  unfold Machine.execVserdesResetCrossing
  dsimp only
  split
  · exact h
  · refine FormKept.linkDown ?_
    refine FormKept.each h.crossed fun _ _ hx => ?_
    split
    · exact hx
    · exact hx.failPort

theorem FormKept.execDieStall {d : Fin 4} {mv : BitVec 16} (h : FormKept s u) :
    ResKept s (Machine.execDieStall d mv u) := by
  unfold Machine.execDieStall
  split
  · exact h
  · exact h.warned.updDie

theorem FormKept.measure {r : ℕ} {mv : BitVec 16} (h : FormKept s u) : FormKept s (Machine.measure r mv u) := by
  unfold Machine.measure
  exact h.updRail

theorem FormKept.execDieResume {d : Fin 4} {mv : BitVec 16} (h : FormKept s u) :
    ResKept s (Machine.execDieResume d mv u) := by
  unfold Machine.execDieResume
  split
  · exact h
  · exact h.measure.updDie

theorem FormKept.execDieRailRecovered {d : Fin 4} {pass : Bool} (h : FormKept s u) :
    ResKept s (Machine.execDieRailRecovered d pass u) := by
  unfold Machine.execDieRailRecovered
  dsimp only
  split
  · exact h
  · split
    · exact h
    · split
      · exact h.updDie.dieBits
      · exact h.updDie.requestRail.dieBits

theorem FormKept.execThermalSample {d : Fin 5} {a : BitVec 16} {b : BitVec 16} {c : BitVec 16} {e : BitVec 16}
    (h : FormKept s u) :
    ResKept s (Machine.execThermalSample d a b c e u) := by
  unfold Machine.execThermalSample
  dsimp only
  split
  · exact h
  · split
    · exact h.updDie.updPw.coldReset
    · split
      · exact h.updDie.updPw.brace
      · exact h.updDie.updPw

theorem FormKept.execThermalLimitClear (h : FormKept s u) : ResKept s (Machine.execThermalLimitClear u) := by
  unfold Machine.execThermalLimitClear
  extract_lets dies dimms w
  have k : FormKept s w := h.updPw
  exact ResKept.ite h (FormKept.leaveBraced k.frame)

theorem FormKept.execThrottleStep {d : Fin 4} (h : FormKept s u) : ResKept s (Machine.execThrottleStep d u) := by
  unfold Machine.execThrottleStep
  dsimp only
  split
  · exact h
  · split
    · split
      · exact h
      · exact h.updDie.requestRail
    · split
      · exact h.updDie.requestRail
      · split
        · exact h.updDie
        · exact h

theorem FormKept.execDimmTempSample {c : Fin 16} {slot : Fin 2} {reading : BitVec 16} (h : FormKept s u) :
    ResKept s (Machine.execDimmTempSample c slot reading u) :=
  ResKept.ite h (FormKept.ite h.updChan.brace h.updChan)

theorem FormKept.updBox {m : Mbox} {f : MboxSt → MboxSt} (h : FormKept s u) : FormKept s (Machine.updBox m f u) := by
  exact h.frame

theorem FormKept.respond {m : Mbox} {a : Answer} (h : FormKept s u) : FormKept s (Machine.respond m a u) := by
  unfold Machine.respond
  split <;> exact h.updBox

theorem FormKept.vcoreAcked {d : ℕ} {mv : BitVec 16} (h : FormKept s u) : FormKept s (Machine.vcoreAcked d mv u) := by
  unfold Machine.vcoreAcked
  dsimp only
  refine FormKept.dieBits ?_
  split
  · refine FormKept.each h.updDie fun _ _ hx => ?_
    split
    · exact hx.notice
    · exact hx
  · split
    · refine FormKept.each h.updDie fun _ _ hx => ?_
      split
      · exact hx.notice
      · exact hx
    · refine FormKept.respond ?_
      refine FormKept.updDie ?_
      refine FormKept.each h.updDie fun _ _ hx => ?_
      split
      · exact hx.notice
      · exact hx

theorem FormKept.execRegulatorAck {r : Rail} {mv : BitVec 16} (h : FormKept s u) :
    ResKept s (Machine.execRegulatorAck r mv u) := by
  unfold Machine.execRegulatorAck
  dsimp only
  split
  · exact h
  · split
    · exact h
    · split
      · exact h.updRail.vcoreAcked
      · split
        · exact h.updRail.updDie
        · exact h.updRail

theorem FormKept.execRegulatorAckTimeout {r : Rail} (h : FormKept s u) :
    ResKept s (Machine.execRegulatorAckTimeout r u) := by
  unfold Machine.execRegulatorAckTimeout
  dsimp only
  split
  · exact h
  · split
    · exact h
    · split
      · split
        · exact h.updRail.logRail.respond
        · exact h.updRail.logRail
      · exact h.updRail.logRail

theorem FormKept.linkLost {onLink : BitVec 8} (h : FormKept s u) : FormKept s (Machine.linkLost onLink u) := by
  unfold Machine.linkLost
  exact FormKept.each h fun _ _ hx => hx.reportCoherence

theorem FormKept.execNeighbourLinkFail {l : Fin 4} {onLink : BitVec 8} (h : FormKept s u) :
    ResKept s (Machine.execNeighbourLinkFail l onLink u) := by
  unfold Machine.execNeighbourLinkFail
  split
  · exact h
  · exact h.updPw.linkLost.settleMode

theorem FormKept.execHubLinkFail {d : Fin 4} {onLink : BitVec 8} (h : FormKept s u) :
    ResKept s (Machine.execHubLinkFail d onLink u) := by
  unfold Machine.execHubLinkFail
  split
  · exact h
  · exact h.updDie.dieDown.dieBits.linkLost

theorem FormKept.execBeatWindowEnd {m : Fin 5} {beats : BitVec 16} (h : FormKept s u) :
    ResKept s (Machine.execBeatWindowEnd m beats u) := by
  unfold Machine.execBeatWindowEnd
  split
  · exact h
  · exact h.updDie

theorem FormKept.execBeatMonClr {m : Fin 5} (h : FormKept s u) : ResKept s (Machine.execBeatMonClr m u) := by
  unfold Machine.execBeatMonClr
  split
  · exact h
  · exact h.updDie

theorem FormKept.setClock {b : Clk} {stopped : Bool} (h : FormKept s u) :
    FormKept s (Machine.setClock b stopped u) := by
  unfold Machine.setClock
  split <;> exact h.updPw

theorem FormKept.execClockStop {b : Clk} (h : FormKept s u) : ResKept s (Machine.execClockStop b u) := by
  unfold Machine.execClockStop
  exact h.setClock

theorem FormKept.countLevel {t : Thr} {code : ℕ} {ns : ℕ} (h : FormKept s u) :
    FormKept s (Machine.countLevel t code ns u) := by
  unfold Machine.countLevel
  exact h.pmcCount

theorem FormKept.countThread {t : Thr} {ns : ℕ} (h : FormKept s u) : FormKept s (Machine.countThread t ns u) := by
  unfold Machine.countThread
  dsimp only
  refine FormKept.updThr ?_
  refine FormKept.each h fun _ _ hx => ?_
  split
  · exact hx.countLevel
  · exact hx

theorem FormKept.countThreads {ns : ℕ} (h : FormKept s u) : FormKept s (Machine.countThreads ns u) := by
  unfold Machine.countThreads
  split
  · exact h
  · refine FormKept.each h fun _ _ hx => ?_
    split
    · split
      · exact hx
      · exact hx.countThread
    · exact hx

theorem FormKept.execSillClockTick (h : FormKept s u) : ResKept s (Machine.execSillClockTick u) := by
  unfold Machine.execSillClockTick
  dsimp only
  split
  · exact h
  · exact h.frame.countThreads

theorem FormKept.execRefLost (h : FormKept s u) : ResKept s (Machine.execRefLost u) := by
  unfold Machine.execRefLost
  dsimp only
  split
  · exact h
  · exact h.frame

theorem FormKept.execRefRestored (h : FormKept s u) : ResKept s (Machine.execRefRestored u) := by
  unfold Machine.execRefRestored
  dsimp only
  split
  · exact h
  · exact h.frame

theorem FormKept.align {src : BitVec 2} {off : ℤ} {bound : ℕ} (h : FormKept s u) :
    FormKept s (Machine.align src off bound u) := by
  exact h.frame

theorem FormKept.execPtmRefresh {offset : BitVec 64} (h : FormKept s u) :
    ResKept s (Machine.execPtmRefresh offset u) := by
  unfold Machine.execPtmRefresh
  split
  · exact h
  · exact h.align

theorem FormKept.abandonLoad {t : Thr} (h : FormKept s u) : FormKept s (Machine.abandonLoad t u) := by
  unfold Machine.abandonLoad
  split
  · split
    · split
      · exact h
      · exact h.updThr
    · exact h
  · exact h

theorem FormKept.dropWalks {i : Fin 640} {p : WalkE → Bool} (h : FormKept s u) :
    FormKept s (Machine.dropWalks i p u) := by
  unfold Machine.dropWalks
  exact h.updCore

theorem FormKept.squashFrom {i : Fin 640} {seq : ℕ} (h : FormKept s u) : FormKept s (Machine.squashFrom i seq u) := by
  unfold Machine.squashFrom
  dsimp only
  exact h.updThr.freeShim.dropWalks

theorem FormKept.squashAll {t : Thr} (h : FormKept s u) : FormKept s (Machine.squashAll t u) := by
  unfold Machine.squashAll
  split
  · exact h
  · exact h.squashFrom

theorem FormKept.failOwned {t : Thr} {cause : BitVec 8} {detail : BitVec 8} (h : FormKept s u) :
    FormKept s (Machine.failOwned t cause detail u) := by
  unfold Machine.failOwned
  split
  · exact h.endItem
  · exact h

theorem FormKept.stopThread {t : Thr} {causeWord : Word} (h : FormKept s u) :
    FormKept s (Machine.stopThread t causeWord u) := by
  unfold Machine.stopThread
  dsimp only
  split
  · split
    · exact h.updThr.wrightEvent.failOwned.endSolo
    · exact h.updThr.wrightEvent.failOwned
  · exact h.updThr.wrightEvent.failOwned

theorem FormKept.flushPredictors {t : Thr} (h : FormKept s u) : FormKept s (Machine.flushPredictors t u) := by
  unfold Machine.flushPredictors
  dsimp only
  split
  · exact h
  · exact h.updThr.updCore

theorem FormKept.enterException {t : Thr} {e : Exc} (h : FormKept s u) :
    FormKept s (Machine.enterException t e u) := by
  unfold Machine.enterException
  dsimp only
  split
  · refine FormKept.stopThread ?_
    split
    · exact h.loseResv.failOwned
    · exact h.loseResv
  · refine FormKept.countEvent ?_
    refine FormKept.flushPredictors ?_
    refine FormKept.updThr ?_
    split
    · exact h.loseResv.failOwned
    · exact h.loseResv

theorem FormKept.enterInterrupt {t : Thr} (h : FormKept s u) : FormKept s (Machine.enterInterrupt t u) := by
  unfold Machine.enterInterrupt
  dsimp only
  split
  · exact h.squashAll
  · split
    · split
      · exact h.squashAll.enterException.updThr
      · exact h.squashAll.enterException
    · exact h.squashAll.enterException

theorem FormKept.execInterruptEntry {t : Fin 640} (h : FormKept s u) :
    ResKept s (Machine.execInterruptEntry t u) := by
  unfold Machine.execInterruptEntry
  dsimp only
  split
  · exact h
  · split
    · exact h.abandonLoad.enterInterrupt
    · exact h

theorem FormKept.waitFetch {i : Fin 640} (h : FormKept s u) : FormKept s (Machine.waitFetch i u) := by
  unfold Machine.waitFetch
  exact h.updThr

theorem FormKept.grantFetch {i : Fin 640} (h : FormKept s u) : FormKept s (Machine.grantFetch i u) := by
  unfold Machine.grantFetch
  dsimp only
  exact h.updCore

theorem FormKept.specEvents {i : Fin 640} {l : List ℕ} (h : FormKept s u) :
    FormKept s (Machine.specEvents i l u) := by
  unfold Machine.specEvents
  exact FormKept.each h.updThr fun _ _ hx => hx.countUnconfirmed

theorem FormKept.setWalk {i : Fin 640} {w : WalkE} {w' : WalkE} (h : FormKept s u) :
    FormKept s (Machine.setWalk i w w' u) := by
  unfold Machine.setWalk
  exact h.updCore

theorem FormKept.walkPeek {i : Fin 640} {w : WalkE} {l : BitVec 42} (h : FormKept s u) :
    FormKept s (Machine.walkPeek i w l u) := by
  unfold Machine.walkPeek
  split
  · exact h
  · exact h.setWalk.specEvents.send

theorem FormKept.shimFull {i : Fin 640} (h : FormKept s u) : FormKept s (Machine.shimFull i u) := by
  unfold Machine.shimFull
  split
  · exact h
  · exact h.updThr.countUnconfirmed

theorem FormKept.addShim {i : Fin 640} {e : ShimE} (h : FormKept s u) : FormKept s (Machine.addShim i e u) := by
  unfold Machine.addShim
  exact h.updCore

theorem FormKept.walkEnds {i : Fin 640} {k' : AK} {e : TlbE} {found : List (BitVec 42 × Fin 16 × BitVec 6)}
    (h : FormKept s u) :
    FormKept s (Machine.walkEnds i k' e found u).2 := by
  unfold Machine.walkEnds
  dsimp only
  split
  · exact h.shimFull
  · exact h.addShim.specEvents

theorem FormKept.specWalk {i : Fin 640} {k' : AK} {va : Word} (h : FormKept s u) :
    FormKept s (Machine.specWalk i k' va u).2 := by
  unfold Machine.specWalk
  dsimp only
  split
  · exact h
  · split
    · split
      · exact h
      · split
        · split
          · exact h
          · split
            · exact h.walkPeek
            · split
              · exact h.walkEnds.dropWalks
              · exact h.walkEnds
        · split
          · exact h.walkEnds
          · split
            · exact h
            · exact h.updCore.walkPeek
    · exact h

theorem FormKept.specLine {i : Fin 640} {instr : Bool} {l : BitVec 42} {mask : BitVec 2} (h : FormKept s u) :
    SpecLineKept s (Machine.specLine i instr l mask u) := by
  unfold Machine.specLine
  split
  · exact h
  · split
    · split <;> exact h
    · extract_lets miss e w e'
      have k : FormKept s w := h.specEvents
      split
      · exact h
      · split
        · exact h.shimFull
        · split
          · split
            · exact k.addShim.specEvents
            · exact k.addShim
          · split
            · exact h
            · exact h.addShim.specEvents.send

theorem FormKept.deliverGroup {i : Fin 640} {use : Option FetchUse} (h : FormKept s u) :
    FormKept s (Machine.deliverGroup i use u) := by
  unfold Machine.deliverGroup
  exact h.updThr

theorem FormKept.fetchAhead {i : Fin 640} {pa : BitVec 48} (h : FormKept s u) :
    FetchedKept s (Machine.fetchAhead i pa u) := by
  unfold Machine.fetchAhead
  dsimp only
  split
  · exact h.specWalk.waitFetch
  · split
    · exact (SpecLineKept.of_eq ‹_› h.specWalk.specLine).waitFetch
    · exact (SpecLineKept.of_eq ‹_› h.specWalk.specLine).deliverGroup

theorem FormKept.bayRequest {b : Fin 40} {k' : ReqKind} {l : BitVec 42} {c : Option (Fin 160)} {instr : Bool}
    {nt : Bool} (h : FormKept s u) :
    FormKept s (Machine.bayRequest b k' l c instr nt u) := by
  unfold Machine.bayRequest
  dsimp only
  split
  · exact h
  · split
    · exact h
    · exact h.updBay.send

theorem FormKept.askWalk {i : Fin 640} {va : Word} (h : FormKept s u) : FormKept s (Machine.askWalk i va u) := by
  unfold Machine.askWalk
  exact FormKept.each h fun _ _ hx => hx.bayRequest

theorem FormKept.touchWalk {i : Fin 640} {va : Word} (h : FormKept s u) : FormKept s (Machine.touchWalk i va u) := by
  unfold Machine.touchWalk
  exact h.updBay

theorem FormKept.tlbInstall {c : ℕ} {k' : AK} {e : TlbE} (h : FormKept s u) :
    FormKept s (Machine.tlbInstall c k' e u) := by
  unfold Machine.tlbInstall
  dsimp only
  exact h.updCore

theorem FormKept.releaseWalks {i : Fin 640} {va : Word} (h : FormKept s u) :
    FormKept s (Machine.releaseWalks i va u) := by
  unfold Machine.releaseWalks
  dsimp only
  exact h.releaseShim

theorem FormKept.l1iDrop {c : ℕ} {l : BitVec 42} (h : FormKept s u) : FormKept s (Machine.l1iDrop c l u) := by
  unfold Machine.l1iDrop
  exact h.updCore

theorem FormKept.loseCoreResv {c : ℕ} {l : BitVec 42} (h : FormKept s u) :
    FormKept s (Machine.loseCoreResv c l u) := by
  unfold Machine.loseCoreResv
  refine FormKept.each h fun _ _ hx => ?_
  split
  · split
    · exact hx.loseResv
    · exact hx
  · exact hx

theorem FormKept.l1dDrop {c : ℕ} {l : BitVec 42} (h : FormKept s u) : FormKept s (Machine.l1dDrop c l u) := by
  unfold Machine.l1dDrop
  split
  · exact h
  · exact h.updCore.loseCoreResv

theorem FormKept.bayL1Drop {b : ℕ} {l : BitVec 42} (h : FormKept s u) : FormKept s (Machine.bayL1Drop b l u) := by
  unfold Machine.bayL1Drop
  exact FormKept.each h fun _ _ hx => hx.l1dDrop.l1iDrop

theorem FormKept.ownPoison {b : ℕ} {l : BitVec 42} (h : FormKept s u) : FormKept s (Machine.ownPoison b l u) := by
  unfold Machine.ownPoison
  split
  · exact h.updBay.setPoison
  · exact h

theorem FormKept.ownAtL2 {b : ℕ} {l : BitVec 42} (h : FormKept s u) : FormKept s (Machine.ownAtL2 b l u) := by
  unfold Machine.ownAtL2
  exact h.ownPoison.bayL1Drop.updBay

theorem FormKept.setRefMod {i : Fin 640} {e : TlbE} {write : Bool} (h : FormKept s u) :
    RefModKept s (Machine.setRefMod i e write u) := by
  unfold Machine.setRefMod
  dsimp only
  split
  · exact .changed
  · split
    · exact .waits h.bayRequest
    · split
      · exact .waits h
      · exact .done h.ownAtL2.storeBytes

theorem FormKept.dropXlate {i : Fin 640} {va : Word} (h : FormKept s u) : FormKept s (Machine.dropXlate i va u) := by
  unfold Machine.dropXlate
  dsimp only
  exact h.updCore.freeShim

theorem FormKept.applyLeaf {i : Fin 640} {k' : AK} {va : Word} {e : TlbE} (h : FormKept s u) :
    XlKept s (Machine.applyLeaf i k' va e u) := by
  have k : RefModKept s (Machine.setRefMod i e k'.writes u) := h.setRefMod
  unfold Machine.applyLeaf
  dsimp only
  split
  · exact FormKept.tlbInstall h.releaseWalks
  · generalize Machine.setRefMod i e k'.writes u = r at k
    cases k with
    | changed => exact h.dropXlate
    | waits hw => exact hw
    | done hd => exact FormKept.tlbInstall hd.releaseWalks

theorem FormKept.rewalk {i : Fin 640} {k' : AK} {va : Word} (h : FormKept s u) :
    XlKept s (Machine.rewalk i k' va u) := by
  unfold Machine.rewalk
  dsimp only
  split
  · exact h.askWalk
  · split
    · refine FormKept.applyLeaf ?_
      split
      · exact h.touchWalk.countEvent
      · exact h.touchWalk.countEvent.countEvent
    · exact h
    · exact h.dropXlate

theorem FormKept.useXlate {i : Fin 640} {k' : AK} {va : Word} (h : FormKept s u) :
    XlKept s (Machine.useXlate i k' va u) := by
  unfold Machine.useXlate
  dsimp only
  split
  · exact h
  · split
    · split
      · exact h.dropWalks.rewalk
      · exact h.dropWalks.releaseWalks.tlbInstall
    · split
      · exact h.dropWalks.applyLeaf
      · exact h.dropWalks.rewalk

theorem FormKept.dropOthers {c : ℕ} {l : BitVec 42} (h : FormKept s u) : FormKept s (Machine.dropOthers c l u) := by
  unfold Machine.dropOthers
  dsimp only
  refine FormKept.each h fun _ _ hx => ?_
  split
  · exact hx.l1iDrop
  · exact hx.l1iDrop.l1dDrop

theorem FormKept.l1Fill {c : ℕ} {instr : Bool} {l : BitVec 42} {st : Mesi} {age : BitVec 2} (h : FormKept s u) :
    FormKept s (Machine.l1Fill c instr l st age u) := by
  unfold Machine.l1Fill
  extract_lets k l2Bad w
  have hw : FormKept s w := FormKept.ite h h.dropOthers
  refine FormKept.ite (FormKept.ite h h.updCore) (FormKept.ite h ?_)
  split
  · exact hw.updCore
  · exact FormKept.ite hw.updCore hw.updCore.loseCoreResv

theorem FormKept.shareInBay {c : ℕ} {instr : Bool} {l : BitVec 42} (h : FormKept s u) :
    FormKept s (Machine.shareInBay c instr l u) := by
  unfold Machine.shareInBay
  dsimp only
  refine FormKept.each h fun _ _ hx => ?_
  split
  · exact hx
  · exact hx.updCore

theorem FormKept.readLineBy {count : ℕ → State → State} {i : Fin 640} {instr : Bool} {nt : Bool} {l : BitVec 42}
    {mask : BitVec 2} (h : FormKept s u) (hcount : ∀ a0 x, FormKept s x → FormKept s (count a0 x)) :
    FormKept s (Machine.readLineBy count i instr nt l mask u) := by
  unfold Machine.readLineBy
  extract_lets c b tbl fromL2 w t
  have k : FormKept s w := hcount _ _ h
  refine FormKept.ite h ?_
  split
  · exact h.updCore
  · split
    · exact k.updBay.updCore
    · exact FormKept.ite k.updBay.shareInBay.l1Fill (hcount _ _ k).bayRequest

theorem FormKept.fetchConfirmed {i : Fin 640} {pa : BitVec 48} (h : FormKept s u) :
    FetchedKept s (Machine.fetchConfirmed i pa u) := by
  unfold Machine.fetchConfirmed
  dsimp only
  split
  · exact (h.releaseShim.readLineBy (fun _ _ hx => hx.countEvent)).deliverGroup
  · exact (h.releaseShim.readLineBy (fun _ _ hx => hx.countEvent)).waitFetch

theorem FormKept.fetchGroup {i : Fin 640} (h : FormKept s u) : FetchedKept s (Machine.fetchGroup i u) := by
  unfold Machine.fetchGroup
  dsimp only
  split
  · exact h.waitFetch
  · split
    · exact h.updThr.grantFetch.countUnconfirmed
    · split
      · exact h.updThr.grantFetch.countUnconfirmed
      · split
        · exact h.updThr.grantFetch.countUnconfirmed.fetchAhead
        · split
          · exact (XlKept.of_eq ‹_› h.updThr.grantFetch.countUnconfirmed.useXlate).fetchConfirmed
          · exact (XlKept.of_eq ‹_› h.updThr.grantFetch.countUnconfirmed.useXlate).waitFetch
          · exact (XlKept.of_eq ‹_› h.updThr.grantFetch.countUnconfirmed.useXlate).waitFetch

theorem FormKept.refetch {t : Thr} (h : FormKept s u) : FormKept s (Machine.refetch t u) := by
  unfold Machine.refetch
  exact h.updThr

theorem FormKept.readLine {i : Fin 640} {instr : Bool} {nt : Bool} {l : BitVec 42} {mask : BitVec 2}
    (h : FormKept s u) :
    FormKept s (Machine.readLine i instr nt l mask u) := by
  unfold Machine.readLine
  exact h.readLineBy (fun _ _ hx => hx)

theorem FormKept.validatePeek {i : Fin 640} {l : BitVec 42} (h : FormKept s u) :
    FormKept s (Machine.validatePeek i l u) := by
  unfold Machine.validatePeek
  dsimp only
  split
  · exact h
  · split
    · exact h
    · split
      · exact h.releaseShim.squashFrom.countEvent
      · split
        · exact h.releaseShim.refetch.countEvent
        · exact h.releaseShim

theorem FormKept.validateLines {i : Fin 640} {ls : List Check129} (h : FormKept s u) :
    FormKept s (Machine.validateLines i ls u).2 := by
  unfold Machine.validateLines
  dsimp only
  exact FormKept.each (FormKept.each h fun _ _ hx => hx.readLine) fun _ _ hx => hx.validatePeek

theorem FormKept.confirmLine {i : Fin 640} {instr : Bool} {nt : Bool} {l : BitVec 42} {mask : BitVec 2}
    {way : Option ℕ} (h : FormKept s u) :
    FormKept s (Machine.confirmLine i instr nt l mask way u) := by
  unfold Machine.confirmLine
  dsimp only
  split
  · exact h.readLine
  · split
    · exact h
    · exact h.updCore

theorem FormKept.confirmFetchLine {i : Fin 640} {f : Option FetchUse} (h : FormKept s u) :
    FormKept s (Machine.confirmFetchLine i f u) := by
  unfold Machine.confirmFetchLine
  split
  · split
    · exact h
    · exact h.confirmLine
  · exact h

theorem FormKept.confirmFetch {i : Fin 640} (h : FormKept s u) : FormKept s (Machine.confirmFetch i u).2 := by
  have k : XlKept s (Machine.useXlate i .fetch (thr u (.core i)).pc u) := h.useXlate
  unfold Machine.confirmFetch
  dsimp only
  split
  · exact h
  · split <;> rename_i hr <;> rw [hr] at k
    · exact k
    · exact FormKept.refetch k
    · exact FormKept.ite_snd (FormKept.validateLines k) (FormKept.validateLines k).confirmFetchLine.updThr.pair

theorem FormKept.fetchNow {t : Thr} (h : FormKept s u) : FetchedKept s (Machine.fetchNow t u) := by
  unfold Machine.fetchNow
  dsimp only
  split
  · split <;> exact h
  · split
    · exact h.fetchGroup
    · split
      · exact h
      · split <;> exact h.confirmFetch

theorem FormKept.squashAfter {i : Fin 640} {seq : ℕ} {pc : Word} (h : FormKept s u) :
    FormKept s (Machine.squashAfter i seq pc u) := by
  unfold Machine.squashAfter
  exact h.squashFrom.updThr

theorem FormKept.retireHead {i : Fin 640} (h : FormKept s u) : FormKept s (Machine.retireHead i u) := by
  unfold Machine.retireHead
  split
  · exact h
  · split
    · exact h
    · exact h.updThr.countMany

theorem FormKept.resolveBranch {i : Fin 640} {u' : UOp} (h : FormKept s u) :
    FormKept s (Machine.resolveBranch i u' u) := by
  unfold Machine.resolveBranch
  dsimp only
  split
  · exact h
  · refine FormKept.retireHead ?_
    split
    · split
      · exact h.updThr.squashAfter.countUnconfirmed.countConfirmed
      · exact h.updThr.squashAfter.countUnconfirmed.updThr
    · exact h.updThr

theorem FormKept.useXlates {i : Fin 640} {k' : AK} {va : Word} {n : ℕ} (h : FormKept s u) :
    XlKept s (Machine.useXlates i k' va n u) := by
  have k : XlKept s (Machine.useXlate i k' va u) := h.useXlate
  unfold Machine.useXlates
  split
  · exact (XlKept.of_eq ‹_› k).useXlate
  · exact k

theorem FormKept.confirmXlates {i : Fin 640} {u' : UOp} (h : FormKept s u) :
    XlKept s (Machine.confirmXlates i u' u) := by
  have k : XlKept s (if u'.fetch.isSome then Machine.useXlate i .fetch u'.pc u else .ready u) := by
    split
    · exact h.useXlate
    · exact h
  unfold Machine.confirmXlates
  dsimp only
  split
  · have hr : FormKept s _ := XlKept.of_eq ‹_› k
    split
    · exact hr
    · exact hr.useXlates
  · exact k

theorem FormKept.knowStore {i : Fin 640} {older : ℕ} (h : FormKept s u) :
    FormKept s (Machine.knowStore i older u) := by
  unfold Machine.knowStore
  dsimp only
  split
  · exact h
  · split
    · exact h.updThr
    · exact h.updThr.squashFrom.countUnconfirmed.updThr

theorem FormKept.issuePrefetch {i : Fin 640} {pa : BitVec 48} {stride : ℤ} {stream : Bool} (h : FormKept s u) :
    FormKept s (Machine.issuePrefetch i pa stride stream u) := by
  unfold Machine.issuePrefetch
  dsimp only
  refine FormKept.each h fun _ _ hx => ?_
  split
  · exact hx
  · split
    · exact hx
    · split
      · exact hx.countEvent.readLine
      · split
        · exact hx
        · exact hx.countEvent.updCore.bayRequest

theorem FormKept.trainStream {i : Fin 640} {pc : Word} {pa : BitVec 48} {missed : Bool} (h : FormKept s u) :
    FormKept s (Machine.trainStream i pc pa missed u) := by
  unfold Machine.trainStream
  extract_lets c k t
  refine FormKept.ite h ?_
  split
  · exact FormKept.ite h h.updCore
  · extract_lets d hit y w
    have hw : FormKept s w := h.updCore
    exact FormKept.ite hw.issuePrefetch hw

theorem FormKept.confirmUOp {i : Fin 640} {u' : UOp} (h : FormKept s u) : FormKept s (Machine.confirmUOp i u' u) := by
  unfold Machine.confirmUOp
  dsimp only
  refine FormKept.countConfirmed ?_
  refine FormKept.each ?_ fun _ _ hx => ?_
  · refine FormKept.releaseShim ?_
    split
    · split
      · refine FormKept.countConfirmed ?_
        refine FormKept.updThr ?_
        split
        · split
          · refine FormKept.trainStream ?_
            refine FormKept.updThr ?_
            split
            · split
              · exact h.confirmFetchLine.knowStore
              · exact h.confirmFetchLine
            · refine FormKept.each ?_ fun _ _ hx => ?_
              · split
                · exact h.confirmFetchLine.knowStore
                · exact h.confirmFetchLine
              · exact hx.confirmLine
          · refine FormKept.updThr ?_
            split
            · split
              · exact h.confirmFetchLine.knowStore
              · exact h.confirmFetchLine
            · refine FormKept.each ?_ fun _ _ hx => ?_
              · split
                · exact h.confirmFetchLine.knowStore
                · exact h.confirmFetchLine
              · exact hx.confirmLine
        · split
          · exact h.confirmFetchLine.knowStore
          · exact h.confirmFetchLine
      · refine FormKept.updThr ?_
        split
        · split
          · refine FormKept.trainStream ?_
            refine FormKept.updThr ?_
            split
            · split
              · exact h.confirmFetchLine.knowStore
              · exact h.confirmFetchLine
            · refine FormKept.each ?_ fun _ _ hx => ?_
              · split
                · exact h.confirmFetchLine.knowStore
                · exact h.confirmFetchLine
              · exact hx.confirmLine
          · refine FormKept.updThr ?_
            split
            · split
              · exact h.confirmFetchLine.knowStore
              · exact h.confirmFetchLine
            · refine FormKept.each ?_ fun _ _ hx => ?_
              · split
                · exact h.confirmFetchLine.knowStore
                · exact h.confirmFetchLine
              · exact hx.confirmLine
        · split
          · exact h.confirmFetchLine.knowStore
          · exact h.confirmFetchLine
    · refine FormKept.updThr ?_
      split
      · split
        · refine FormKept.trainStream ?_
          refine FormKept.updThr ?_
          split
          · split
            · exact h.confirmFetchLine.knowStore
            · exact h.confirmFetchLine
          · refine FormKept.each ?_ fun _ _ hx => ?_
            · split
              · exact h.confirmFetchLine.knowStore
              · exact h.confirmFetchLine
            · exact hx.confirmLine
        · refine FormKept.updThr ?_
          split
          · split
            · exact h.confirmFetchLine.knowStore
            · exact h.confirmFetchLine
          · refine FormKept.each ?_ fun _ _ hx => ?_
            · split
              · exact h.confirmFetchLine.knowStore
              · exact h.confirmFetchLine
            · exact hx.confirmLine
      · split
        · exact h.confirmFetchLine.knowStore
        · exact h.confirmFetchLine
  · exact hx.countHeld

theorem FormKept.confirmNext {i : Fin 640} (h : FormKept s u) : FormKept s (Machine.confirmNext i u).2 := by
  unfold Machine.confirmNext
  split
  · exact h
  · next w _ _ =>
    have k : XlKept s (Machine.confirmXlates i w u) := h.confirmXlates
    refine FormKept.ite_snd h.retireHead ?_
    split <;> rename_i hr <;> rw [hr] at k
    · exact k
    · exact FormKept.squashFrom k
    · extract_lets ls r
      have kv : FormKept s r.2 := FormKept.validateLines k
      clear_value r
      refine FormKept.ite_snd k ?_
      split
      · exact FormKept.ite_snd kv.confirmUOp.retireHead.pair kv
      · exact kv

theorem FormKept.drainOlder {i : Fin 640} {n : ℕ} (h : FormKept s u) : FormKept s (Machine.drainOlder i n u).2 := by
  induction n generalizing u with
  | zero => exact h
  | succ n ih =>
    unfold Machine.drainOlder
    split
    · exact h
    · next w _ _ =>
      have k : FormKept s (if w.settled then u else Machine.resolveBranch i w u) := FormKept.ite h h.resolveBranch
      exact FormKept.ite_snd k.confirmNext (ih k.confirmNext)

theorem FormKept.makeOldest {t : Thr} (h : FormKept s u) : FormKept s (Machine.makeOldest t u).2 := by
  unfold Machine.makeOldest
  dsimp only
  split
  · exact h
  · split
    · exact h.drainOlder
    · exact h.drainOlder.confirmFetch

theorem FormKept.faultWaits {t : Thr} {e : Exc} (h : FormKept s u) :
    ∀ v, Machine.faultWaits t e u = some v → FormKept s v := by
  unfold Machine.faultWaits
  split
  · intro _ e
    cases e
  · split
    · intro _ e
      cases e
      exact h.askWalk
    · intro _ e
      cases e

theorem FormKept.dropFetchLine {t : Thr} {e : Exc} (h : FormKept s u) : FormKept s (Machine.dropFetchLine t e u) := by
  unfold Machine.dropFetchLine
  split
  · exact h
  · split
    · exact h.l1iDrop
    · exact h

theorem FormKept.raiseExc {t : Thr} {e : Exc} {s0 : State} (h0 : FormKept s s0) (h : FormKept s u) :
    FormKept s (Machine.raiseExc t e s0 u) := by
  unfold Machine.raiseExc
  extract_lets r w
  have k : FormKept s r.2 := (FormKept.ite h0 h).makeOldest
  refine FormKept.ite h0.makeOldest (FormKept.ite k.enterInterrupt ?_)
  split
  · exact k.faultWaits _ ‹_›
  · exact (FormKept.each k fun _ _ hx => hx.countHeld).dropFetchLine.enterException

theorem FormKept.holdAdze {t : Thr} (h : FormKept s u) : FormKept s (Machine.holdAdze t u) := by
  unfold Machine.holdAdze
  split
  · exact h
  · exact h.updThr

theorem FormKept.finish {t : Thr} {s0 : State} {e : Eff} (h0 : FormKept s s0) (h : EffKept s e) :
    FormKept s (Machine.finish t s0 e) := by
  cases e with
  | done v => exact FormKept.retireTo h
  | jump p v => exact FormKept.retireTo h
  | raise e v => exact FormKept.raiseExc h0 h
  | wait v => exact FormKept.holdAdze h

theorem FormKept.runInstr {t : Thr} {chk : Check} {body : Thread → State → Eff} (h : FormKept s u)
    (hbody : ∀ a x, FormKept s x → EffKept s (body a x)) : FormKept s (Machine.runInstr t chk body u) := by
  have hf : FetchedKept s (Machine.fetchNow t u) := h.fetchNow
  unfold Machine.runInstr
  refine FormKept.ite h ?_
  split <;> rename_i hr <;> rw [hr] at hf
  · exact hf
  · exact FormKept.raiseExc hf hf
  · next v =>
    have k : FormKept s v := hf
    split
    · exact k.raiseExc k
    · extract_lets r
      have hm : FormKept s r.2 := FormKept.ite_snd k.makeOldest k
      exact FormKept.ite hm (hm.finish (hbody _ _ hm))

theorem FormKept.regOp {op : ℕ} {t : Thr} {f : FmtA} {minor : ℕ} {two : Bool} {g : Word → Word → Word}
    (h : FormKept s u) :
    ResKept s (Machine.regOp op t f minor two g u) := by
  unfold Machine.regOp
  dsimp only
  exact h.runInstr (fun _ _ hx => hx.updThr)

theorem FormKept.execAdd {t : Thr} {f : FmtA} (h : FormKept s u) : ResKept s (Machine.execAdd t f u) := by
  unfold Machine.execAdd
  exact h.regOp

theorem FormKept.execSub {t : Thr} {f : FmtA} (h : FormKept s u) : ResKept s (Machine.execSub t f u) := by
  unfold Machine.execSub
  exact h.regOp

theorem FormKept.execAnd {t : Thr} {f : FmtA} (h : FormKept s u) : ResKept s (Machine.execAnd t f u) := by
  unfold Machine.execAnd
  exact h.regOp

theorem FormKept.execOr {t : Thr} {f : FmtA} (h : FormKept s u) : ResKept s (Machine.execOr t f u) := by
  unfold Machine.execOr
  exact h.regOp

theorem FormKept.execXor {t : Thr} {f : FmtA} (h : FormKept s u) : ResKept s (Machine.execXor t f u) := by
  unfold Machine.execXor
  exact h.regOp

theorem FormKept.execAndn {t : Thr} {f : FmtA} (h : FormKept s u) : ResKept s (Machine.execAndn t f u) := by
  unfold Machine.execAndn
  exact h.regOp

theorem FormKept.execSll {t : Thr} {f : FmtA} (h : FormKept s u) : ResKept s (Machine.execSll t f u) := by
  unfold Machine.execSll
  exact h.regOp

theorem FormKept.execSrl {t : Thr} {f : FmtA} (h : FormKept s u) : ResKept s (Machine.execSrl t f u) := by
  unfold Machine.execSrl
  exact h.regOp

theorem FormKept.execSra {t : Thr} {f : FmtA} (h : FormKept s u) : ResKept s (Machine.execSra t f u) := by
  unfold Machine.execSra
  exact h.regOp

theorem FormKept.execRotr {t : Thr} {f : FmtA} (h : FormKept s u) : ResKept s (Machine.execRotr t f u) := by
  unfold Machine.execRotr
  exact h.regOp

theorem FormKept.execSlt {t : Thr} {f : FmtA} (h : FormKept s u) : ResKept s (Machine.execSlt t f u) := by
  unfold Machine.execSlt
  exact h.regOp

theorem FormKept.execSltu {t : Thr} {f : FmtA} (h : FormKept s u) : ResKept s (Machine.execSltu t f u) := by
  unfold Machine.execSltu
  exact h.regOp

theorem FormKept.execMin {t : Thr} {f : FmtA} (h : FormKept s u) : ResKept s (Machine.execMin t f u) := by
  unfold Machine.execMin
  exact h.regOp

theorem FormKept.execMax {t : Thr} {f : FmtA} (h : FormKept s u) : ResKept s (Machine.execMax t f u) := by
  unfold Machine.execMax
  exact h.regOp

theorem FormKept.execMinu {t : Thr} {f : FmtA} (h : FormKept s u) : ResKept s (Machine.execMinu t f u) := by
  unfold Machine.execMinu
  exact h.regOp

theorem FormKept.execMaxu {t : Thr} {f : FmtA} (h : FormKept s u) : ResKept s (Machine.execMaxu t f u) := by
  unfold Machine.execMaxu
  exact h.regOp

theorem FormKept.execAddw {t : Thr} {f : FmtA} (h : FormKept s u) : ResKept s (Machine.execAddw t f u) := by
  unfold Machine.execAddw
  exact h.regOp

theorem FormKept.execSubw {t : Thr} {f : FmtA} (h : FormKept s u) : ResKept s (Machine.execSubw t f u) := by
  unfold Machine.execSubw
  exact h.regOp

theorem FormKept.execClz {t : Thr} {f : FmtA} (h : FormKept s u) : ResKept s (Machine.execClz t f u) := by
  unfold Machine.execClz
  exact h.regOp

theorem FormKept.execCtz {t : Thr} {f : FmtA} (h : FormKept s u) : ResKept s (Machine.execCtz t f u) := by
  unfold Machine.execCtz
  exact h.regOp

theorem FormKept.execPopc {t : Thr} {f : FmtA} (h : FormKept s u) : ResKept s (Machine.execPopc t f u) := by
  unfold Machine.execPopc
  exact h.regOp

theorem FormKept.execBswap {t : Thr} {f : FmtA} (h : FormKept s u) : ResKept s (Machine.execBswap t f u) := by
  unfold Machine.execBswap
  exact h.regOp

theorem FormKept.execSextb {t : Thr} {f : FmtA} (h : FormKept s u) : ResKept s (Machine.execSextb t f u) := by
  unfold Machine.execSextb
  exact h.regOp

theorem FormKept.execSexth {t : Thr} {f : FmtA} (h : FormKept s u) : ResKept s (Machine.execSexth t f u) := by
  unfold Machine.execSexth
  exact h.regOp

theorem FormKept.execSextw {t : Thr} {f : FmtA} (h : FormKept s u) : ResKept s (Machine.execSextw t f u) := by
  unfold Machine.execSextw
  exact h.regOp

theorem FormKept.execZextw {t : Thr} {f : FmtA} (h : FormKept s u) : ResKept s (Machine.execZextw t f u) := by
  unfold Machine.execZextw
  exact h.regOp

theorem FormKept.cmovOp {t : Thr} {f : FmtA} {minor : ℕ} {takes : Word → Bool} (h : FormKept s u) :
    ResKept s (Machine.cmovOp t f minor takes u) := by
  unfold Machine.cmovOp
  dsimp only
  exact h.runInstr (fun _ _ hx => hx.updThr)

theorem FormKept.execCmovz {t : Thr} {f : FmtA} (h : FormKept s u) : ResKept s (Machine.execCmovz t f u) := by
  unfold Machine.execCmovz
  exact h.cmovOp

theorem FormKept.execCmovnz {t : Thr} {f : FmtA} (h : FormKept s u) : ResKept s (Machine.execCmovnz t f u) := by
  unfold Machine.execCmovnz
  exact h.cmovOp

theorem FormKept.immOp {op : ℕ} {t : Thr} {f : FmtB} {legal : Bool} {g : Word → Word} (h : FormKept s u) :
    ResKept s (Machine.immOp op t f legal g u) := by
  unfold Machine.immOp
  dsimp only
  exact h.runInstr (fun _ _ hx => hx.updThr)

theorem FormKept.execAddi {t : Thr} {f : FmtB} (h : FormKept s u) : ResKept s (Machine.execAddi t f u) := by
  unfold Machine.execAddi
  exact h.immOp

theorem FormKept.execAndi {t : Thr} {f : FmtB} (h : FormKept s u) : ResKept s (Machine.execAndi t f u) := by
  unfold Machine.execAndi
  exact h.immOp

theorem FormKept.execOri {t : Thr} {f : FmtB} (h : FormKept s u) : ResKept s (Machine.execOri t f u) := by
  unfold Machine.execOri
  exact h.immOp

theorem FormKept.execXori {t : Thr} {f : FmtB} (h : FormKept s u) : ResKept s (Machine.execXori t f u) := by
  unfold Machine.execXori
  exact h.immOp

theorem FormKept.execSlti {t : Thr} {f : FmtB} (h : FormKept s u) : ResKept s (Machine.execSlti t f u) := by
  unfold Machine.execSlti
  exact h.immOp

theorem FormKept.execSltui {t : Thr} {f : FmtB} (h : FormKept s u) : ResKept s (Machine.execSltui t f u) := by
  unfold Machine.execSltui
  exact h.immOp

theorem FormKept.execShi {t : Thr} {f : FmtB} (h : FormKept s u) : ResKept s (Machine.execShi t f u) := by
  unfold Machine.execShi
  exact h.immOp

theorem FormKept.execIns {t : Thr} {f : FmtB} (h : FormKept s u) : ResKept s (Machine.execIns t f u) := by
  unfold Machine.execIns
  dsimp only
  exact h.runInstr (fun _ _ hx => hx.updThr)

theorem FormKept.execMul {t : Thr} {f : FmtA} (h : FormKept s u) : ResKept s (Machine.execMul t f u) := by
  unfold Machine.execMul
  exact h.regOp

theorem FormKept.execMulhs {t : Thr} {f : FmtA} (h : FormKept s u) : ResKept s (Machine.execMulhs t f u) := by
  unfold Machine.execMulhs
  exact h.regOp

theorem FormKept.execMulhu {t : Thr} {f : FmtA} (h : FormKept s u) : ResKept s (Machine.execMulhu t f u) := by
  unfold Machine.execMulhu
  exact h.regOp

theorem FormKept.execMulw {t : Thr} {f : FmtA} (h : FormKept s u) : ResKept s (Machine.execMulw t f u) := by
  unfold Machine.execMulw
  exact h.regOp

theorem FormKept.execDiv {t : Thr} {f : FmtA} (h : FormKept s u) : ResKept s (Machine.execDiv t f u) := by
  unfold Machine.execDiv
  exact h.regOp

theorem FormKept.execDivu {t : Thr} {f : FmtA} (h : FormKept s u) : ResKept s (Machine.execDivu t f u) := by
  unfold Machine.execDivu
  exact h.regOp

theorem FormKept.execRem {t : Thr} {f : FmtA} (h : FormKept s u) : ResKept s (Machine.execRem t f u) := by
  unfold Machine.execRem
  exact h.regOp

theorem FormKept.execRemu {t : Thr} {f : FmtA} (h : FormKept s u) : ResKept s (Machine.execRemu t f u) := by
  unfold Machine.execRemu
  exact h.regOp

theorem FormKept.decOp {t : Thr} {word : BitVec 32} {legal : Bool} {gs1 : BitVec 5} {gs2 : Option (BitVec 5)}
    {body : ℤ → ℤ → Bool → State → Eff} (h : FormKept s u) (hbody : ∀ a0 a1 a2 x, FormKept s x → EffKept s
    (body a0 a1 a2 x)) :
    ResKept s (Machine.decOp t word legal gs1 gs2 body u) := by
  unfold Machine.decOp
  dsimp only
  refine h.runInstr (fun _ _ hx => ?_)
  split
  · exact hx
  · split
    · exact hx
    · exact hbody _ _ _ _ hx

theorem FormKept.instrEvent {t : Thr} {n : ℕ} (h : FormKept s u) : FormKept s (Machine.instrEvent t n u) := by
  unfold Machine.instrEvent
  split
  · exact h.countEvent
  · exact h.updThr

theorem FormKept.decWrite {t : Thr} {gd : BitVec 5} {r : ℤ} {poison : Bool} (h : FormKept s u) :
    EffKept s (Machine.decWrite t gd r poison u) := by
  unfold Machine.decWrite
  dsimp only
  split
  · split
    · exact h.updThr.instrEvent
    · exact h.updThr.instrEvent.updThr
  · exact h.updThr

theorem FormKept.execDadd {t : Thr} {f : FmtA} (h : FormKept s u) : ResKept s (Machine.execDadd t f u) := by
  unfold Machine.execDadd
  exact h.decOp (fun _ _ _ _ hx => hx.decWrite)

theorem FormKept.execDsub {t : Thr} {f : FmtA} (h : FormKept s u) : ResKept s (Machine.execDsub t f u) := by
  unfold Machine.execDsub
  exact h.decOp (fun _ _ _ _ hx => hx.decWrite)

theorem FormKept.execDcmp {t : Thr} {f : FmtA} (h : FormKept s u) : ResKept s (Machine.execDcmp t f u) := by
  unfold Machine.execDcmp
  exact h.decOp (fun _ _ _ _ hx => hx.updThr)

theorem FormKept.execDcvtBd {t : Thr} {f : FmtA} (h : FormKept s u) : ResKept s (Machine.execDcvtBd t f u) := by
  unfold Machine.execDcvtBd
  dsimp only
  exact h.runInstr (fun _ _ hx => hx.decWrite)

theorem FormKept.execDcvtDb {t : Thr} {f : FmtA} (h : FormKept s u) : ResKept s (Machine.execDcvtDb t f u) := by
  unfold Machine.execDcvtDb
  exact h.decOp (fun _ _ _ _ hx => hx.updThr)

theorem FormKept.execDmulk {t : Thr} {f : FmtB} (h : FormKept s u) : ResKept s (Machine.execDmulk t f u) := by
  unfold Machine.execDmulk
  exact h.decOp (fun _ _ _ _ hx => hx.decWrite)

theorem FormKept.fpFinish {t : Thr} {fl : FFlags} {write : Thread → Thread} (h : FormKept s u) :
    EffKept s (Machine.fpFinish t fl write u) := by
  unfold Machine.fpFinish
  dsimp only
  split
  · exact h.updThr
  · exact h.updThr.updThr

theorem FormKept.fpOp {op : ℕ} {t : Thr} {f : FmtFP} {rounds : Bool} {two : Bool}
    {g : Fmt → BitVec 3 → FVal → FVal → FRes} (h : FormKept s u) :
    ResKept s (Machine.fpOp op t f rounds two g u) := by
  unfold Machine.fpOp
  dsimp only
  exact h.runInstr (fun _ _ hx => hx.fpFinish)

theorem FormKept.execFadd {t : Thr} {f : FmtFP} (h : FormKept s u) : ResKept s (Machine.execFadd t f u) := by
  unfold Machine.execFadd
  exact h.fpOp

theorem FormKept.execFsub {t : Thr} {f : FmtFP} (h : FormKept s u) : ResKept s (Machine.execFsub t f u) := by
  unfold Machine.execFsub
  exact h.fpOp

theorem FormKept.execFmul {t : Thr} {f : FmtFP} (h : FormKept s u) : ResKept s (Machine.execFmul t f u) := by
  unfold Machine.execFmul
  exact h.fpOp

theorem FormKept.execFdiv {t : Thr} {f : FmtFP} (h : FormKept s u) : ResKept s (Machine.execFdiv t f u) := by
  unfold Machine.execFdiv
  exact h.fpOp

theorem FormKept.execFsqrt {t : Thr} {f : FmtFP} (h : FormKept s u) : ResKept s (Machine.execFsqrt t f u) := by
  unfold Machine.execFsqrt
  exact h.fpOp

theorem FormKept.fpFma {op : ℕ} {t : Thr} {f : FmtFP} {sub : Bool} (h : FormKept s u) :
    ResKept s (Machine.fpFma op t f sub u) := by
  unfold Machine.fpFma
  refine h.runInstr (fun th x hx => ?_)
  extract_lets a b d c r q
  have k : FormKept s q.2 := FormKept.ite_snd hx.freeBit hx
  exact k.fpFinish

theorem FormKept.execFmadd {t : Thr} {f : FmtFP} (h : FormKept s u) : ResKept s (Machine.execFmadd t f u) := by
  unfold Machine.execFmadd
  exact h.fpFma

theorem FormKept.execFmsub {t : Thr} {f : FmtFP} (h : FormKept s u) : ResKept s (Machine.execFmsub t f u) := by
  unfold Machine.execFmsub
  exact h.fpFma

theorem FormKept.execFmin {t : Thr} {f : FmtFP} (h : FormKept s u) : ResKept s (Machine.execFmin t f u) := by
  unfold Machine.execFmin
  exact h.fpOp

theorem FormKept.execFmax {t : Thr} {f : FmtFP} (h : FormKept s u) : ResKept s (Machine.execFmax t f u) := by
  unfold Machine.execFmax
  exact h.fpOp

theorem FormKept.fpSign {op : ℕ} {t : Thr} {f : FmtFP} {two : Bool} {neg : Bool → Bool → Bool} (h : FormKept s u) :
    ResKept s (Machine.fpSign op t f two neg u) := by
  unfold Machine.fpSign
  dsimp only
  exact h.runInstr (fun _ _ hx => hx.updThr)

theorem FormKept.execFabs {t : Thr} {f : FmtFP} (h : FormKept s u) : ResKept s (Machine.execFabs t f u) := by
  unfold Machine.execFabs
  exact h.fpSign

theorem FormKept.execFneg {t : Thr} {f : FmtFP} (h : FormKept s u) : ResKept s (Machine.execFneg t f u) := by
  unfold Machine.execFneg
  exact h.fpSign

theorem FormKept.execFcpysgn {t : Thr} {f : FmtFP} (h : FormKept s u) : ResKept s (Machine.execFcpysgn t f u) := by
  unfold Machine.execFcpysgn
  exact h.fpSign

theorem FormKept.fpToG {op : ℕ} {t : Thr} {f : FmtFP} {rounds : Bool} {two : Bool}
    {g : Fmt → BitVec 3 → FVal → FVal → Word × FFlags} (h : FormKept s u) :
    ResKept s (Machine.fpToG op t f rounds two g u) := by
  unfold Machine.fpToG
  dsimp only
  exact h.runInstr (fun _ _ hx => hx.fpFinish)

theorem FormKept.execFceq {t : Thr} {f : FmtFP} (h : FormKept s u) : ResKept s (Machine.execFceq t f u) := by
  unfold Machine.execFceq
  exact h.fpToG

theorem FormKept.execFclt {t : Thr} {f : FmtFP} (h : FormKept s u) : ResKept s (Machine.execFclt t f u) := by
  unfold Machine.execFclt
  exact h.fpToG

theorem FormKept.execFcle {t : Thr} {f : FmtFP} (h : FormKept s u) : ResKept s (Machine.execFcle t f u) := by
  unfold Machine.execFcle
  exact h.fpToG

theorem FormKept.execFclass {t : Thr} {f : FmtFP} (h : FormKept s u) : ResKept s (Machine.execFclass t f u) := by
  unfold Machine.execFclass
  exact h.fpToG

theorem FormKept.execFcvtGF {t : Thr} {f : FmtFP} (h : FormKept s u) : ResKept s (Machine.execFcvtGF t f u) := by
  unfold Machine.execFcvtGF
  dsimp only
  exact h.fpToG

theorem FormKept.execFcvtGuF {t : Thr} {f : FmtFP} (h : FormKept s u) : ResKept s (Machine.execFcvtGuF t f u) := by
  unfold Machine.execFcvtGuF
  dsimp only
  exact h.fpToG

theorem FormKept.fpFromG {op : ℕ} {t : Thr} {f : FmtFP} {isSigned : Bool} (h : FormKept s u) :
    ResKept s (Machine.fpFromG op t f isSigned u) := by
  unfold Machine.fpFromG
  dsimp only
  exact h.runInstr (fun _ _ hx => hx.fpFinish)

theorem FormKept.execFcvtFG {t : Thr} {f : FmtFP} (h : FormKept s u) : ResKept s (Machine.execFcvtFG t f u) := by
  unfold Machine.execFcvtFG
  exact h.fpFromG

theorem FormKept.execFcvtFGu {t : Thr} {f : FmtFP} (h : FormKept s u) : ResKept s (Machine.execFcvtFGu t f u) := by
  unfold Machine.execFcvtFGu
  exact h.fpFromG

theorem FormKept.execFcvtSd {t : Thr} {f : FmtFP} (h : FormKept s u) : ResKept s (Machine.execFcvtSd t f u) := by
  unfold Machine.execFcvtSd
  dsimp only
  exact h.runInstr (fun _ _ hx => hx.fpFinish)

theorem FormKept.execFmvGF {t : Thr} {f : FmtFP} (h : FormKept s u) : ResKept s (Machine.execFmvGF t f u) := by
  unfold Machine.execFmvGF
  dsimp only
  exact h.runInstr (fun _ _ hx => hx.updThr)

theorem FormKept.execFmvFG {t : Thr} {f : FmtFP} (h : FormKept s u) : ResKept s (Machine.execFmvFG t f u) := by
  unfold Machine.execFmvFG
  dsimp only
  exact h.runInstr (fun _ _ hx => hx.updThr)

theorem FormKept.withXlate {t : Thr} {k' : AK} {va : Word} {n : ℕ} {go : State → Eff} (h : FormKept s u)
    (hgo : ∀ x, FormKept s x → EffKept s (go x)) :
    EffKept s (Machine.withXlate t k' va n u go) := by
  unfold Machine.withXlate
  split
  · exact hgo _ h
  · split
    · exact hgo _ (XlKept.of_eq ‹_› h.useXlates)
    · exact XlKept.of_eq ‹_› h.useXlates
    · exact XlKept.of_eq ‹_› h.useXlates

theorem FormKept.asOldest {i : Fin 640} {k' : AK} {va : Word} {n : ℕ} {go : State → Eff} (h : FormKept s u)
    (hgo : ∀ x, FormKept s x → EffKept s (go x)) :
    EffKept s (Machine.asOldest i k' va n u go) := by
  unfold Machine.asOldest
  dsimp only
  split
  · exact h.makeOldest
  · exact h.makeOldest.withXlate (fun _ hx => hgo _ hx)

theorem FormKept.countAwait {t : Thr} (h : FormKept s u) : FormKept s (Machine.countAwait t u) := by
  unfold Machine.countAwait
  split
  · exact h.countEvent
  · exact h

theorem FormKept.countDeny {st : BitVec 2} (h : FormKept s u) : FormKept s (Machine.countDeny st u) := by
  unfold Machine.countDeny
  split
  · exact h.updRidge
  · exact h

theorem FormKept.bayDemote {b : ℕ} {l : BitVec 42} {l1 : Mesi} {st : Mesi} (h : FormKept s u) :
    FormKept s (Machine.bayDemote b l l1 st u) := by
  unfold Machine.bayDemote
  dsimp only
  refine FormKept.updBay ?_
  refine FormKept.each h fun _ _ hx => ?_
  split
  · exact hx.updCore
  · exact hx

theorem FormKept.bayDrop {b : ℕ} {l : BitVec 42} (h : FormKept s u) : FormKept s (Machine.bayDrop b l u) := by
  unfold Machine.bayDrop
  exact h.bayL1Drop.updBay

theorem FormKept.hubTakes {i : Fin 40} {b : ℕ} {l : BitVec 42} {keep : Bool} (h : FormKept s u) :
    FormKept s (Machine.hubTakes i b l keep u) := by
  unfold Machine.hubTakes
  extract_lets w
  have k : FormKept s w := FormKept.ite h.llcFill h
  exact FormKept.ite k (FormKept.ite k.bayDemote k.bayDrop)

theorem FormKept.sendWb {b : Fin 40} {h' : Fin 40} {w : WbE} (h : FormKept s u) :
    FormKept s (Machine.sendWb b h' w u) := by
  unfold Machine.sendWb
  dsimp only
  exact h.send

theorem FormKept.pumpWb {b : Fin 40} (h : FormKept s u) : FormKept s (Machine.pumpWb b u) := by
  unfold Machine.pumpWb
  refine FormKept.each h fun _ _ hx => ?_
  split
  · exact hx
  · split
    · exact hx
    · exact hx.updBay.sendWb

theorem FormKept.absorbCrossing {h' : Fin 40} {b : ℕ} {l : BitVec 42} (h : FormKept s u) :
    FormKept s (Machine.absorbCrossing h' b l u) := by
  unfold Machine.absorbCrossing
  dsimp only
  split
  · exact h
  · split
    · refine FormKept.pumpWb ?_
      split
      · exact ((h.frame.updSlice).updBay).llcFill
      · exact (h.frame.updSlice).updBay
    · split
      · exact ((h.frame.updSlice).updBay).llcFill
      · exact (h.frame.updSlice).updBay

theorem FormKept.doForward {b : Fin 40} {k' : CKind} {m : CMsg} (h : FormKept s u) :
    FormKept s (Machine.doForward b k' m u) := by
  unfold Machine.doForward
  dsimp only
  split
  · refine FormKept.send ?_
    split
    · exact h
    · exact h.bayDrop
  · split
    · exact h.send
    · split
      · refine FormKept.send ?_
        split
        · exact h
        · refine FormKept.bayDrop ?_
          split
          · exact h.discardLine
          · exact h
      · split
        · exact h.protocol
        · split
          · refine FormKept.bayDemote ?_
            split
            · exact h.send.send
            · exact h.send
          · exact h.send.bayDrop
          · refine FormKept.bayDemote ?_
            split <;> exact h.send
          · refine FormKept.bayDrop ?_
            split <;> exact h.send

theorem FormKept.takeForward {b : Fin 40} {k' : CKind} {m : CMsg} (h : FormKept s u) :
    FormKept s (Machine.takeForward b k' m u) := by
  unfold Machine.takeForward
  dsimp only
  split
  · exact h.updCore
  · exact h.doForward

theorem FormKept.releaseHold {i : Fin 640} (h : FormKept s u) : FormKept s (Machine.releaseHold i u) := by
  unfold Machine.releaseHold
  dsimp only
  split
  · exact h
  · exact FormKept.each h.updCore fun _ _ hx => hx.takeForward

theorem FormKept.endHolds {l : BitVec 42} {bays : List ℕ} (h : FormKept s u) :
    FormKept s (Machine.endHolds l bays u) := by
  unfold Machine.endHolds
  dsimp only
  refine FormKept.each h fun _ _ hx => ?_
  refine FormKept.each hx fun _ _ hx1 => ?_
  split
  · split
    · exact hx1.releaseHold
    · exact hx1
  · exact hx1

theorem FormKept.hubLine {l : BitVec 42} {keep : Bool} (h : FormKept s u) :
    FormKept s (Machine.hubLine l keep u) := by
  unfold Machine.hubLine
  dsimp only
  split
  · exact h
  · split
    · exact h
    · split
      · split
        · exact h
        · exact h.dropCopies
      · split
        · split
          · exact h.endHolds.absorbCrossing.hubTakes
          · exact h.endHolds.absorbCrossing.hubTakes.updDir.settleLine
        · split
          · exact h
          · exact ((FormKept.each h.endHolds fun _ _ hx => hx.absorbCrossing.bayDrop).updDir).settleLine

theorem FormKept.homeWrite {pa : BitVec 48} {l : List Byte} {poison : Bool} (h : FormKept s u) :
    FormKept s (Machine.homeWrite pa l poison u) := by
  unfold Machine.homeWrite
  dsimp only
  refine FormKept.each h fun _ _ hx => ?_
  split
  · exact hx.storeBytes
  · split
    · exact hx.hubLine.storeBytes.llcFill
    · exact hx.hubLine.storeBytes

theorem FormKept.homeRead {pa : BitVec 48} {n : ℕ} (h : FormKept s u) : FormKept s (Machine.homeRead pa n u) := by
  unfold Machine.homeRead
  dsimp only
  refine FormKept.each h fun _ _ hx => ?_
  split
  · exact hx.hubLine.llcFill
  · exact hx.hubLine

theorem FormKept.windowDone {m : RMsg} {write : Bool} (h : FormKept s u) :
    FormKept s (Machine.windowDone m write u).2 := by
  unfold Machine.windowDone
  dsimp only
  split
  · exact h.countDeny
  · split
    · exact h.homeWrite
    · exact h.homeRead

theorem FormKept.windowEnds {t : Thr} {id : ℕ} {st : BitVec 2} {poison : Bool} {data : List Byte} (h : FormKept s u) :
    FormKept s (Machine.windowEnds t id st poison data u) := by
  unfold Machine.windowEnds
  split
  · exact h
  · split
    · exact h.accessLost
    · split
      · exact h.valueDone
      · exact h.removeOut

theorem FormKept.ownWindow {t : Thr} {id : ℕ} {addr : BitVec 64} {data : List Byte} {poison : Bool} {write : Bool}
    (h : FormKept s u) :
    FormKept s (Machine.ownWindow t id addr data poison write u) := by
  unfold Machine.ownWindow
  dsimp only
  exact h.windowDone.windowEnds

theorem FormKept.ridgeSend {t : Thr} {a : Access} (h : FormKept s u) : FormKept s (Machine.ridgeSend t a u) := by
  unfold Machine.ridgeSend
  dsimp only
  split
  · exact h.accessLost
  · split
    · exact h.ownWindow
    · split
      · exact h.updRidge.sendReq _ ‹_›
      · exact h.updRidge.countUnreach.accessLost

theorem FormKept.engineRequest {j : Fin 512} {id : ℕ} {k' : ReqKind} {l : BitVec 42} {data : BitVec 512}
    {mask : BitVec 64} {poison : Bool} {nt : Bool} (h : FormKept s u) :
    FormKept s (Machine.engineRequest j id k' l data mask poison nt u) := by
  unfold Machine.engineRequest
  dsimp only
  split
  · exact h
  · exact h.frame.send

theorem FormKept.answerPiece {t : Thr} {a : Access} (h : FormKept s u) : FormKept s (Machine.answerPiece t a u) := by
  unfold Machine.answerPiece
  dsimp only
  split
  · exact h
  · split
    · exact h.readLine.valueDone
    · exact h.valueDone
    · exact h.valueDone
    · exact h

theorem FormKept.awaitLoads {t : Thr} {d : Dest} {m : LdForm} {va : Word} {ps : List (BitVec 48 × ℕ)} {whole : ℕ}
    (h : FormKept s u) :
    FormKept s (Machine.awaitLoads t d m va ps whole u) := by
  unfold Machine.awaitLoads
  dsimp only
  refine FormKept.each h.updThr.countAwait fun _ _ hx => ?_
  split
  · exact hx.ridgeSend
  · split
    · exact hx
    · split <;> exact hx.engineRequest
  · exact hx.answerPiece

theorem FormKept.specWalks {i : Fin 640} {k' : AK} {va : Word} {n : ℕ} (h : FormKept s u) :
    FormKept s (Machine.specWalks i k' va n u).2 := by
  unfold Machine.specWalks
  dsimp only
  split
  · exact h.specWalk
  · exact h.specWalk.specWalk

theorem FormKept.pushLoad {i : Fin 640} {m : LdForm} {d : Dest} {va : Word} {ps : List (BitVec 48 × ℕ)} {h' : LdHow}
    (h : FormKept s u) :
    FormKept s (Machine.pushLoad i m d va ps h' u) := by
  unfold Machine.pushLoad
  dsimp only
  exact h.updThr

theorem FormKept.loadNow {i : Fin 640} {m : LdForm} {d : Dest} {va : Word} {ps : List (BitVec 48 × ℕ)} {h' : LdHow}
    {v : Word} {poison : Bool} (h : FormKept s u) :
    EffKept s (Machine.loadNow i m d va ps h' v poison u) := by
  unfold Machine.loadNow
  exact h.pushLoad.updThr

theorem FormKept.meetLines {i : Fin 640} {ls : List (BitVec 42 × BitVec 2)} (h : FormKept s u) :
    FormKept s (Machine.meetLines i ls u) := by
  unfold Machine.meetLines
  dsimp only
  refine FormKept.each h fun _ _ hx => ?_
  split
  · exact hx.releaseShim
  · exact hx.specEvents

theorem FormKept.specLines {i : Fin 640} {l : List (BitVec 42 × BitVec 2)} (h : FormKept s u) :
    FormKept s (Machine.specLines i l u).2 := by
  induction l generalizing u with
  | nil => exact h
  | cons a l ih =>
    have k : SpecLineKept s (Machine.specLine i false a.1 a.2 u) := h.specLine
    unfold Machine.specLines
    split <;> rename_i hr <;> rw [hr] at k
    · exact k
    · exact ih k

theorem FormKept.coreLoad {i : Fin 640} {m : LdForm} {d : Dest} {va : Word} {ps : List (BitVec 48 × ℕ)}
    (h : FormKept s u) :
    EffKept s (Machine.coreLoad i m d va ps u) := by
  unfold Machine.coreLoad
  dsimp only
  split
  · exact h.asOldest (fun _ hx => hx.awaitLoads)
  · split
    · exact h
    · split
      · exact h
      · split
        · exact h.specWalks.loadNow
        · exact h.specWalks
      · split
        · exact h.asOldest (fun _ hx => hx.awaitLoads)
        · split
          · exact h.meetLines.loadNow
          · split
            · exact h
            · split
              · exact h.specWalks
              · split
                · exact h.specWalks.specLines
                · exact h.specWalks.specLines.loadNow

theorem FormKept.adzeLoad {j : Fin 512} {m : LdForm} {d : Dest} {va : Word} {ps : List (BitVec 48 × ℕ)}
    (h : FormKept s u) :
    EffKept s (Machine.adzeLoad j m d va ps u) := by
  unfold Machine.adzeLoad
  dsimp only
  split
  · exact h.countEvent.awaitLoads
  · split
    · exact h
    · split
      · exact h
      · exact h.countEvent.updThr
      · split
        · exact h.countEvent.awaitLoads
        · refine FormKept.updThr ?_
          refine FormKept.countEvent ?_
          split
          · exact h
          · exact h.countAwait

theorem FormKept.loadOp {t : Thr} {f : FmtC} {minor : ℕ} {m : LdForm} (h : FormKept s u) :
    ResKept s (Machine.loadOp t f minor m u) := by
  unfold Machine.loadOp
  dsimp only
  refine h.runInstr (fun _ _ hx => ?_)
  split
  · exact hx
  · split
    · exact hx.coreLoad
    · exact hx.adzeLoad

theorem FormKept.execLdb {t : Thr} {f : FmtC} (h : FormKept s u) : ResKept s (Machine.execLdb t f u) := by
  unfold Machine.execLdb
  exact h.loadOp

theorem FormKept.execLdh {t : Thr} {f : FmtC} (h : FormKept s u) : ResKept s (Machine.execLdh t f u) := by
  unfold Machine.execLdh
  exact h.loadOp

theorem FormKept.execLdw {t : Thr} {f : FmtC} (h : FormKept s u) : ResKept s (Machine.execLdw t f u) := by
  unfold Machine.execLdw
  exact h.loadOp

theorem FormKept.execLdd {t : Thr} {f : FmtC} (h : FormKept s u) : ResKept s (Machine.execLdd t f u) := by
  unfold Machine.execLdd
  exact h.loadOp

theorem FormKept.execLdbs {t : Thr} {f : FmtC} (h : FormKept s u) : ResKept s (Machine.execLdbs t f u) := by
  unfold Machine.execLdbs
  dsimp only
  exact h.loadOp

theorem FormKept.execLdhs {t : Thr} {f : FmtC} (h : FormKept s u) : ResKept s (Machine.execLdhs t f u) := by
  unfold Machine.execLdhs
  dsimp only
  exact h.loadOp

theorem FormKept.execLdws {t : Thr} {f : FmtC} (h : FormKept s u) : ResKept s (Machine.execLdws t f u) := by
  unfold Machine.execLdws
  dsimp only
  exact h.loadOp

theorem FormKept.execFls {t : Thr} {f : FmtC} (h : FormKept s u) : ResKept s (Machine.execFls t f u) := by
  unfold Machine.execFls
  dsimp only
  exact h.loadOp

theorem FormKept.execFld {t : Thr} {f : FmtC} (h : FormKept s u) : ResKept s (Machine.execFld t f u) := by
  unfold Machine.execFld
  dsimp only
  exact h.loadOp

theorem FormKept.execLda {t : Thr} {f : FmtC} {dbl : Bool} (h : FormKept s u) :
    ResKept s (Machine.execLda t f dbl u) := by
  unfold Machine.execLda
  dsimp only
  exact h.loadOp

theorem FormKept.execLddNt {t : Thr} {f : FmtC} (h : FormKept s u) : ResKept s (Machine.execLddNt t f u) := by
  unfold Machine.execLddNt
  dsimp only
  exact h.loadOp

theorem FormKept.coreStore {i : Fin 640} {m : LdForm} {base : BitVec 5} {va : Word} {ps : List (BitVec 48 × ℕ)}
    {data : Word} {poison : Bool} (h : FormKept s u) :
    EffKept s (Machine.coreStore i m base va ps data poison u) := by
  unfold Machine.coreStore
  dsimp only
  split
  · exact h
  · split
    · exact h.asOldest (fun _ hx => hx.updThr)
    · split
      · exact h.specWalks
      · exact h.specWalks.updThr

theorem FormKept.queueStore {j : Fin 512} {l : Thread → List Access} (h : FormKept s u) :
    EffKept s (Machine.queueStore j l u) := by
  unfold Machine.queueStore
  dsimp only
  split
  · split
    · exact h
    · exact h.updThr.countEvent
  · exact h.updThr.countEvent

theorem FormKept.adzeStore {j : Fin 512} {m : LdForm} {va : Word} {ps : List (BitVec 48 × ℕ)} {data : Word}
    {poison : Bool} (h : FormKept s u) :
    EffKept s (Machine.adzeStore j m va ps data poison u) := by
  unfold Machine.adzeStore
  dsimp only
  split
  · split
    · exact h
    · exact h.storeBytes.countEvent
  · exact h.queueStore

theorem FormKept.storeOp {t : Thr} {f : FmtC} {minor : ℕ} {m : LdForm} (h : FormKept s u) :
    ResKept s (Machine.storeOp t f minor m u) := by
  unfold Machine.storeOp
  dsimp only
  refine h.runInstr (fun _ _ hx => ?_)
  split
  · exact hx
  · split
    · exact hx.coreStore
    · exact hx.adzeStore

theorem FormKept.execStb {t : Thr} {f : FmtC} (h : FormKept s u) : ResKept s (Machine.execStb t f u) := by
  unfold Machine.execStb
  exact h.storeOp

theorem FormKept.execSth {t : Thr} {f : FmtC} (h : FormKept s u) : ResKept s (Machine.execSth t f u) := by
  unfold Machine.execSth
  exact h.storeOp

theorem FormKept.execStw {t : Thr} {f : FmtC} (h : FormKept s u) : ResKept s (Machine.execStw t f u) := by
  unfold Machine.execStw
  exact h.storeOp

theorem FormKept.execStd {t : Thr} {f : FmtC} (h : FormKept s u) : ResKept s (Machine.execStd t f u) := by
  unfold Machine.execStd
  exact h.storeOp

theorem FormKept.execFss {t : Thr} {f : FmtC} (h : FormKept s u) : ResKept s (Machine.execFss t f u) := by
  unfold Machine.execFss
  dsimp only
  exact h.storeOp

theorem FormKept.execFsd {t : Thr} {f : FmtC} (h : FormKept s u) : ResKept s (Machine.execFsd t f u) := by
  unfold Machine.execFsd
  dsimp only
  exact h.storeOp

theorem FormKept.execStl {t : Thr} {f : FmtC} {dbl : Bool} (h : FormKept s u) :
    ResKept s (Machine.execStl t f dbl u) := by
  unfold Machine.execStl
  dsimp only
  exact h.storeOp

theorem FormKept.execStdNt {t : Thr} {f : FmtC} (h : FormKept s u) : ResKept s (Machine.execStdNt t f u) := by
  unfold Machine.execStdNt
  dsimp only
  exact h.storeOp

theorem FormKept.awaitAtom {t : Thr} {x : AtomForm} {d : Dest} {va : Word} {pa : BitVec 48} {missed : Bool}
    (h : FormKept s u) :
    FormKept s (Machine.awaitAtom t x d va pa missed u) := by
  unfold Machine.awaitAtom
  dsimp only
  exact h.updThr.countAwait

theorem FormKept.atomPerform {t : Thr} {x : AtomForm} {pa : BitVec 48} {m : Option MonAt} (h : FormKept s u) :
    FormKept s (Machine.atomPerform t x pa m u).2.2 := by
  unfold Machine.atomPerform
  split
  · cases m with
    | some m => exact h.monTake
    | none => dsimp only; exact h.loseResv.updThr
  · exact h.stcndDo
  · exact h.atomDo

theorem FormKept.ownForStore {c : ℕ} {l : BitVec 42} {nt : Bool} {filled : Bool} {sectors : BitVec 2}
    (h : FormKept s u) :
    FormKept s (Machine.ownForStore c l nt filled sectors u) := by
  unfold Machine.ownForStore
  dsimp only
  split
  · exact h.ownPoison.dropOthers.updBay.l1Fill.updCore
  · exact h.ownPoison.dropOthers.updBay.l1Fill

theorem FormKept.ownLine {c : ℕ} {l : BitVec 42} (h : FormKept s u) : FormKept s (Machine.ownLine c l u) := by
  unfold Machine.ownLine
  extract_lets st v w
  have hv : FormKept s v := FormKept.ite h.updBay h
  have hw : FormKept s w := hv.l1Fill
  exact FormKept.ite hw hw.updCore

theorem FormKept.dramAtomDo {i : Fin 640} {x : AtomForm} {pa : BitVec 48} {missed : Bool} (h : FormKept s u) :
    FormKept s (Machine.dramAtomDo i x pa missed u).2.2 := by
  unfold Machine.dramAtomDo
  extract_lets t c l n stores bad s1 s2 r s3 s4 hold s5
  have h1 : FormKept s s1 := FormKept.ite h.releaseHold h
  have h2 : FormKept s s2 := FormKept.ite (FormKept.ite h1.ownAtL2 h1)
    (FormKept.ite h1.ownForStore (FormKept.each h1 fun _ _ hx => hx.ownLine))
  have hr : FormKept s r.2.2 := h2.atomPerform
  have h5 : FormKept s s5 := hr.updThr.trainStream.releaseHold
  split
  · exact hr
  · split
    · exact hr
    · exact FormKept.ite h5 h5.updCore

theorem FormKept.wantExclusive {i : Fin 640} {noData : Bool} {nt : Bool} {l : BitVec 42} (h : FormKept s u) :
    FormKept s (Machine.wantExclusive i noData nt l u) := by
  unfold Machine.wantExclusive
  dsimp only
  split
  · exact h
  · split
    · exact h.bayRequest
    · split <;> exact h.bayRequest

theorem FormKept.wantLines {i : Fin 640} {noData : Bool} {ls : List (BitVec 42)} (h : FormKept s u) :
    FormKept s (Machine.wantLines i noData ls u) := by
  unfold Machine.wantLines
  exact FormKept.each h fun _ _ hx => hx.wantExclusive

theorem FormKept.atomDone {t : Thr} {gd : BitVec 5} {x : AtomForm} {r : Word × Bool × State} (h : FormKept s r.2.2) :
    EffKept s (Machine.atomDone t gd x r) := h.updThr

theorem FormKept.coreDramAtom {i : Fin 640} {gd : BitVec 5} {x : AtomForm} {d : Dest} {va : Word} {pa : BitVec 48}
    (h : FormKept s u) : EffKept s (Machine.coreDramAtom i gd x d va pa u) := by
  unfold Machine.coreDramAtom
  dsimp only
  split
  · exact FormKept.atomDone h.releaseHold.atomPerform
  · split
    · exact FormKept.atomDone h.dramAtomDo
    · exact FormKept.wantLines h.awaitAtom

theorem FormKept.sendHatm {j : Fin 512} {x : AtomForm} {d : Dest} {va : Word} {pa : BitVec 48} (h : FormKept s u) :
    FormKept s (Machine.sendHatm j x d va pa u) := by
  unfold Machine.sendHatm
  dsimp only
  split
  · exact h.awaitAtom.engineRequest
  · exact h.awaitAtom

theorem FormKept.atomGo {t : Thr} {gd : BitVec 5} {x : AtomForm} {va : Word} {pa : BitVec 48} (h : FormKept s u) :
    EffKept s (Machine.atomGo t gd x va pa u) := by
  unfold Machine.atomGo
  extract_lets n d th own blocked w
  have k : FormKept s w := by
    unfold w
    split
    · exact h.countEvent
    · exact h
  split
  · exact h
  · split
    · exact k.awaitAtom
    · split
      · refine FormKept.atomDone (FormKept.atomPerform ?_)
        split
        · exact k
        · exact k.countAwait
      · exact k.coreDramAtom
      · exact k.sendHatm

theorem FormKept.atomInstr {t : Thr} {f : FmtA} {minor : ℕ} {legal : Bool} {k' : AK} {n : ℕ} {data : Option
    (Bool × BitVec 5)} {form : Thread → AtomForm} (h : FormKept s u) :
    ResKept s (Machine.atomInstr t f minor legal k' n data form u) := by
  unfold Machine.atomInstr
  dsimp only
  refine h.runInstr (fun _ _ hx => ?_)
  split
  · exact hx
  · exact hx.withXlate (fun _ hx1 => hx1.atomGo)

theorem FormKept.execLdres {t : Thr} {f : FmtA} {dbl : Bool} (h : FormKept s u) :
    ResKept s (Machine.execLdres t f dbl u) := by
  unfold Machine.execLdres
  exact h.atomInstr

theorem FormKept.execStcnd {t : Thr} {f : FmtA} {dbl : Bool} (h : FormKept s u) :
    ResKept s (Machine.execStcnd t f dbl u) := by
  unfold Machine.execStcnd
  dsimp only
  exact h.atomInstr

theorem FormKept.execFaa {t : Thr} {f : FmtA} {dbl : Bool} (h : FormKept s u) :
    ResKept s (Machine.execFaa t f dbl u) := by
  unfold Machine.execFaa
  dsimp only
  exact h.atomInstr

theorem FormKept.execCas {t : Thr} {f : FmtA} {dbl : Bool} (h : FormKept s u) :
    ResKept s (Machine.execCas t f dbl u) := by
  unfold Machine.execCas
  dsimp only
  exact h.atomInstr

theorem FormKept.execFenceO {t : Thr} {f : FmtF} (h : FormKept s u) : ResKept s (Machine.execFenceO t f u) := by
  unfold Machine.execFenceO
  dsimp only
  refine h.runInstr (fun _ _ hx => ?_)
  split
  · exact hx.updThr
  · exact hx

theorem FormKept.execFenceC {t : Thr} {f : FmtF} (h : FormKept s u) : ResKept s (Machine.execFenceC t f u) := by
  unfold Machine.execFenceC
  dsimp only
  refine h.runInstr (fun _ _ hx => ?_)
  split
  · exact hx.updThr
  · split <;> exact hx

theorem FormKept.execFenceCDrained {t : Thr} (h : FormKept s u) : ResKept s (Machine.execFenceCDrained t u) := by
  unfold Machine.execFenceCDrained
  dsimp only
  split
  · exact h
  · split
    · exact FormKept.raiseExc h h
    · exact h.updThr.retireTo

theorem FormKept.execIsync {t : Thr} {f : FmtF} (h : FormKept s u) : ResKept s (Machine.execIsync t f u) := by
  unfold Machine.execIsync
  dsimp only
  refine h.runInstr (fun _ _ hx => ?_)
  split
  · exact hx.refetch
  · exact hx

theorem FormKept.execCrc32c {t : Thr} {f : FmtA} {size : BitVec 2} (h : FormKept s u) :
    ResKept s (Machine.execCrc32c t f size u) := by
  unfold Machine.execCrc32c
  dsimp only
  exact h.runInstr (fun _ _ hx => hx.updThr)

theorem FormKept.aesOp {minor : ℕ} {t : Thr} {f : FmtA} {two : Bool} {g : List Byte → List Byte → List Byte}
    (h : FormKept s u) :
    ResKept s (Machine.aesOp minor t f two g u) := by
  unfold Machine.aesOp
  dsimp only
  exact h.runInstr (fun _ _ hx => hx.updThr)

theorem FormKept.execAesenc {t : Thr} {f : FmtA} (h : FormKept s u) : ResKept s (Machine.execAesenc t f u) := by
  unfold Machine.execAesenc
  exact h.aesOp

theorem FormKept.execAesencl {t : Thr} {f : FmtA} (h : FormKept s u) : ResKept s (Machine.execAesencl t f u) := by
  unfold Machine.execAesencl
  exact h.aesOp

theorem FormKept.execAesdec {t : Thr} {f : FmtA} (h : FormKept s u) : ResKept s (Machine.execAesdec t f u) := by
  unfold Machine.execAesdec
  exact h.aesOp

theorem FormKept.execAesdecl {t : Thr} {f : FmtA} (h : FormKept s u) : ResKept s (Machine.execAesdecl t f u) := by
  unfold Machine.execAesdecl
  exact h.aesOp

theorem FormKept.execAesimc {t : Thr} {f : FmtA} (h : FormKept s u) : ResKept s (Machine.execAesimc t f u) := by
  unfold Machine.execAesimc
  exact h.aesOp

theorem FormKept.pushBranch {t : Thr} {br : Option BrInfo} {call : Option Word} {pop : Bool} (h : FormKept s u) :
    FormKept s (Machine.pushBranch t br call pop u) := by
  unfold Machine.pushBranch
  split
  · exact h
  · exact (FormKept.ite h.countUnconfirmed h).updThr

theorem FormKept.branchOp {op : ℕ} {t : Thr} {f : FmtD} {takes : Word → Word → Bool} (h : FormKept s u) :
    ResKept s (Machine.branchOp op t f takes u) := by
  unfold Machine.branchOp
  dsimp only
  exact h.runInstr (fun _ _ hx => hx.pushBranch)

theorem FormKept.execBeq {t : Thr} {f : FmtD} (h : FormKept s u) : ResKept s (Machine.execBeq t f u) := by
  unfold Machine.execBeq
  exact h.branchOp

theorem FormKept.execBne {t : Thr} {f : FmtD} (h : FormKept s u) : ResKept s (Machine.execBne t f u) := by
  unfold Machine.execBne
  exact h.branchOp

theorem FormKept.execBlt {t : Thr} {f : FmtD} (h : FormKept s u) : ResKept s (Machine.execBlt t f u) := by
  unfold Machine.execBlt
  exact h.branchOp

theorem FormKept.execBge {t : Thr} {f : FmtD} (h : FormKept s u) : ResKept s (Machine.execBge t f u) := by
  unfold Machine.execBge
  exact h.branchOp

theorem FormKept.execBltu {t : Thr} {f : FmtD} (h : FormKept s u) : ResKept s (Machine.execBltu t f u) := by
  unfold Machine.execBltu
  exact h.branchOp

theorem FormKept.execBgeu {t : Thr} {f : FmtD} (h : FormKept s u) : ResKept s (Machine.execBgeu t f u) := by
  unfold Machine.execBgeu
  exact h.branchOp

theorem FormKept.endGroup {t : Thr} (h : FormKept s u) : FormKept s (Machine.endGroup t u) := by
  unfold Machine.endGroup
  exact h.updThr

theorem FormKept.execJ {t : Thr} {f : FmtE} (h : FormKept s u) : ResKept s (Machine.execJ t f u) := by
  unfold Machine.execJ
  exact h.runInstr (fun _ _ hx => hx.endGroup)

theorem FormKept.execJl {t : Thr} {f : FmtE} (h : FormKept s u) : ResKept s (Machine.execJl t f u) := by
  unfold Machine.execJl
  exact h.runInstr (fun _ _ hx => hx.pushBranch.updThr.endGroup)

theorem FormKept.jumpOp {t : Thr} {word : BitVec 32} {legal : Bool} {r : BitVec 5} {next : Thread → Word → Word}
    {go : Thread → Word → State → State} (h : FormKept s u) (hgo : ∀ a0 a1 x, FormKept s x → FormKept s
    (go a0 a1 x)) :
    ResKept s (Machine.jumpOp t word legal r next go u) := by
  unfold Machine.jumpOp
  dsimp only
  refine h.runInstr (fun _ _ hx => ?_)
  split
  · exact hx
  · exact hgo _ _ _ hx

theorem FormKept.execJr {t : Thr} {f : FmtA} (h : FormKept s u) : ResKept s (Machine.execJr t f u) := by
  unfold Machine.execJr
  exact h.jumpOp (fun _ _ _ hx => hx.pushBranch)

theorem FormKept.execJlr {t : Thr} {f : FmtA} (h : FormKept s u) : ResKept s (Machine.execJlr t f u) := by
  unfold Machine.execJlr
  exact h.jumpOp (fun _ _ _ hx => hx.pushBranch.updThr)

theorem FormKept.execRet {t : Thr} {f : FmtA} (h : FormKept s u) : ResKept s (Machine.execRet t f u) := by
  unfold Machine.execRet
  exact h.jumpOp (fun _ _ _ hx => hx.pushBranch)

theorem FormKept.execMfs {t : Thr} {f : FmtF} (h : FormKept s u) : ResKept s (Machine.execMfs t f u) := by
  unfold Machine.execMfs
  dsimp only
  split
  · exact h
  · exact h.runInstr (fun _ _ hx => hx.updThr)

theorem FormKept.soloRace {t : Thr} (h : FormKept s u) : FormKept s (Machine.soloRace t u) := by
  unfold Machine.soloRace
  dsimp only
  split
  · exact h
  · split
    · exact h.makeOldest
    · split
      · exact h.makeOldest
      · split
        · exact h.makeOldest
        · split
          · exact h.makeOldest.updThr.retireTo.beginSolo.refetch
          · exact h.makeOldest.updThr

theorem FormKept.writeAsid {t : Thr} {v : Word} (h : FormKept s u) : FormKept s (Machine.writeAsid t v u) := by
  unfold Machine.writeAsid
  exact h.updThr.flushPredictors.loseResv

theorem FormKept.pauseOthers {i : Fin 640} (h : FormKept s u) : FormKept s (Machine.pauseOthers i u) := by
  unfold Machine.pauseOthers
  refine FormKept.each h fun _ _ hx => ?_
  split
  · exact hx
  · exact hx.squashAll

theorem FormKept.writeSolo {i : Fin 640} {v : Word} (h : FormKept s u) : FormKept s (Machine.writeSolo i v u) := by
  unfold Machine.writeSolo
  dsimp only
  split
  · split
    · exact h.pauseOthers
    · exact h.pauseOthers.beginSolo
  · split
    · exact h.pauseOthers.endSolo
    · exact h.pauseOthers

theorem FormKept.applyCacheCtl {c : ℕ} {v : Word} (h : FormKept s u) : FormKept s (Machine.applyCacheCtl c v u) := by
  unfold Machine.applyCacheCtl
  exact h.updCore

theorem FormKept.writeCacheCtl {i : Fin 640} {v : Word} (h : FormKept s u) :
    FormKept s (Machine.writeCacheCtl i v u) := by
  unfold Machine.writeCacheCtl
  dsimp only
  split
  · exact h.pauseOthers.updCore
  · exact h.pauseOthers.applyCacheCtl

theorem FormKept.clearArea {lo : ℕ} {hi : ℕ} (h : FormKept s u) : FormKept s (Machine.clearArea lo hi u) :=
  h.trans (formKept_clearArea lo hi)

theorem FormKept.writeL2am {b : ℕ} {v : Word} (h : FormKept s u) : FormKept s (Machine.writeL2am b v u) :=
  FormKept.ite h.updBay.updBay.clearArea h.updBay

theorem FormKept.writeCacheErr {b : ℕ} {v : Word} (h : FormKept s u) : FormKept s (Machine.writeCacheErr b v u) := by
  unfold Machine.writeCacheErr
  exact h.updBay

theorem FormKept.wakeThread {t : Thr} (h : FormKept s u) : FormKept s (Machine.wakeThread t u) := by
  unfold Machine.wakeThread
  split
  · exact h.updThr
  · exact h

theorem FormKept.ackSender {r : EvRec} (h : FormKept s u) : FormKept s (Machine.ackSender r u) := by
  unfold Machine.ackSender
  split
  · split
    · exact h.removeOut
    · exact h
  · exact h

theorem FormKept.recordWritten {t : Thr} (h : FormKept s u) : FormKept s (Machine.recordWritten t u) := by
  unfold Machine.recordWritten
  dsimp only
  split
  · exact h
  · refine FormKept.wakeThread ?_
    refine FormKept.ackSender ?_
    split
    · exact h.homeWrite.updThr.countEvent
    · exact h.homeWrite.updThr

theorem FormKept.drainRecords {t : Thr} {n : ℕ} (h : FormKept s u) : FormKept s (Machine.drainRecords t n u) := by
  induction n generalizing u with
  | zero => exact h
  | succ n ih => exact ih h.recordWritten

theorem FormKept.writeEvqCtl {t : Thr} {v : Word} (h : FormKept s u) : FormKept s (Machine.writeEvqCtl t v u) :=
  (FormKept.ite h h.drainRecords).updThr

theorem FormKept.writeEvInject {t : Thr} {v : Word} (h : FormKept s u) :
    FormKept s (Machine.writeEvInject t v u) := by
  unfold Machine.writeEvInject
  dsimp only
  split
  · exact h
  · split
    · exact h.updThr
    · split <;> exact h.updThr

theorem FormKept.writeEvqTail {t : Thr} {p : ℕ} {v : Word} (h : FormKept s u) :
    FormKept s (Machine.writeEvqTail t p v u) := by
  unfold Machine.writeEvqTail
  dsimp only
  split
  · exact h
  · exact h.updThr

theorem FormKept.writeScrCtl {e : ℕ} {v : Word} (h : FormKept s u) : FormKept s (Machine.writeScrCtl e v u) :=
  FormKept.ite h h.updEngine

theorem FormKept.updCluster {k' : ℕ} {f : Cluster → Cluster} (h : FormKept s u) :
    FormKept s (Machine.updCluster k' f u) := by
  exact h.frame

theorem FormKept.placeHeld {t : Thr} {r : EvRec} (h : FormKept s u) : FormKept s (Machine.placeHeld t r u) := by
  unfold Machine.placeHeld
  split
  · split
    · exact h
    · split
      · exact h.accessLost
      · exact h
  · exact h.placeEvent

theorem FormKept.restoreThread {t : Thr} (h : FormKept s u) : FormKept s (Machine.restoreThread t u) := by
  unfold Machine.restoreThread
  dsimp only
  split
  · exact h
  · exact FormKept.each h.setThr.updPw fun _ _ hx => hx.placeHeld

theorem FormKept.wakeCluster {k' : ℕ} (h : FormKept s u) : FormKept s (Machine.wakeCluster k' u) := by
  unfold Machine.wakeCluster
  dsimp only
  split
  · exact h
  · exact FormKept.each (FormKept.each h.updCluster fun _ _ hx => hx.updEngine) fun _ _ hx => FormKept.each hx fun _ _ hx1 => hx1.restoreThread

theorem FormKept.startAdze {e : ℕ} {t : ℕ} (h : FormKept s u) : FormKept s (Machine.startAdze e t u) := by
  unfold Machine.startAdze
  dsimp only
  split
  · exact h
  · split
    · exact h
    · exact h.wakeCluster.setThr

theorem FormKept.writeRun {e : ℕ} {v : Word} (h : FormKept s u) : FormKept s (Machine.writeRun e v u) :=
  FormKept.ite h.updEngine (FormKept.each h.updEngine fun _ _ hx => FormKept.ite hx.startAdze hx)

theorem FormKept.adzWrite {e : ℕ} {n : ℕ} {v : Word} (h : FormKept s u) : FormKept s (Machine.adzWrite e n v u) := by
  unfold Machine.adzWrite
  split
  · exact h.updEngine
  · split
    · exact h.writeScrCtl
    · split
      · exact h.updEngine
      · split
        · exact h.writeRun
        · split
          · exact h.updEngine
          · exact h

theorem FormKept.sysWrite {t : Thr} {n : ℕ} {v : Word} (h : FormKept s u) :
    FormKept s (Machine.sysWrite t n v u) := by
  unfold Machine.sysWrite
  extract_lets on onEv b
  have hon (f : Thread → Thread) : FormKept s (on f) := h.updThr
  have hev (f : EvState → EvState) : FormKept s (onEv f) := h.updThr
  iterate 8 refine FormKept.ite (hon _) ?_
  refine FormKept.ite h.writeAsid ?_
  iterate 2 refine FormKept.ite (hon _) ?_
  refine FormKept.ite (by cases t with | core i => exact h.writeSolo | adze j => exact h) ?_
  refine FormKept.ite (by cases t with | core i => exact h.writeCacheCtl | adze j => exact h) ?_
  refine FormKept.ite h.writeL2am ?_
  refine FormKept.ite h.writeCacheErr ?_
  iterate 4 refine FormKept.ite (hon _) ?_
  refine FormKept.ite (hev _) ?_
  refine FormKept.ite h.writeEvqCtl ?_
  refine FormKept.ite (hev _) ?_
  refine FormKept.ite h.writeEvInject ?_
  iterate 2 refine FormKept.ite (hev _) ?_
  refine FormKept.ite h.writeEvqTail ?_
  iterate 5 refine FormKept.ite (hon _) ?_
  exact FormKept.ite h.adzWrite h

theorem FormKept.mtsTo {t : Thr} {word : BitVec 32} {legal : Bool} {n : ℕ} {gs1 : BitVec 5} (h : FormKept s u) :
    FormKept s (Machine.mtsTo t word legal n gs1 u) := by
  unfold Machine.mtsTo
  dsimp only
  split
  · exact h.soloRace
  · refine h.runInstr (fun _ _ hx => ?_)
    split
    · exact hx.sysWrite.refetch
    · exact hx.sysWrite

theorem FormKept.execMts {t : Thr} {f : FmtF} (h : FormKept s u) : ResKept s (Machine.execMts t f u) := by
  unfold Machine.execMts
  exact h.mtsTo

theorem FormKept.execEret {t : Thr} {f : FmtF} (h : FormKept s u) : ResKept s (Machine.execEret t f u) := by
  unfold Machine.execEret
  dsimp only
  exact h.runInstr (fun _ _ hx => hx.updThr.flushPredictors.loseResv.endGroup)

theorem FormKept.callOp {t : Thr} {f : FmtF} {minor : ℕ} {need : Priv} {code : ℕ} (h : FormKept s u) :
    ResKept s (Machine.callOp t f minor need code u) := by
  unfold Machine.callOp
  dsimp only
  exact h.runInstr (fun _ _ hx => hx)

theorem FormKept.execSyscall {t : Thr} {f : FmtF} (h : FormKept s u) : ResKept s (Machine.execSyscall t f u) := by
  unfold Machine.execSyscall
  exact h.callOp

theorem FormKept.execMcall {t : Thr} {f : FmtF} (h : FormKept s u) : ResKept s (Machine.execMcall t f u) := by
  unfold Machine.execMcall
  exact h.callOp

theorem FormKept.execBrk {t : Thr} {f : FmtF} (h : FormKept s u) : ResKept s (Machine.execBrk t f u) := by
  unfold Machine.execBrk
  exact h.callOp

theorem FormKept.execEvdone {t : Thr} {f : FmtF} (h : FormKept s u) : ResKept s (Machine.execEvdone t f u) := by
  unfold Machine.execEvdone
  dsimp only
  refine h.runInstr (fun _ _ hx => ?_)
  split
  · exact hx
  · split
    · exact hx.updThr
    · exact hx

theorem FormKept.execWait {t : Thr} {f : FmtF} (h : FormKept s u) : ResKept s (Machine.execWait t f u) := by
  unfold Machine.execWait
  dsimp only
  refine h.runInstr (fun _ _ hx => ?_)
  split
  · exact hx.updThr.countEvent
  · exact hx

theorem FormKept.maintInstr {t : Thr} {f : FmtF} {minor : ℕ} {need : Priv} {k' : AK}
    {go : Word → BitVec 48 → State → Eff} (h : FormKept s u) (hgo : ∀ a0 a1 x, FormKept s x → EffKept s
    (go a0 a1 x)) :
    ResKept s (Machine.maintInstr t f minor need k' go u) := by
  unfold Machine.maintInstr
  dsimp only
  refine h.runInstr (fun _ _ hx => ?_)
  split
  · exact hx
  · exact hx.withXlate (fun _ hx1 => hgo _ _ _ hx1)

theorem FormKept.releaseMaint {t : Thr} {k' : AccKind} {va : Word} {pa : BitVec 48} (h : FormKept s u) :
    FormKept s (Machine.releaseMaint t k' va pa u).2 := by
  unfold Machine.releaseMaint
  dsimp only
  exact h.updThr

theorem FormKept.maintLine {t : Thr} {kind : AccKind} {req : ReqKind} {va : Word} {pa : BitVec 48}
    (h : FormKept s u) :
    EffKept s (Machine.maintLine t kind req va pa u) := by
  unfold Machine.maintLine
  dsimp only
  split
  · exact h
  · split
    · exact h
    · split
      · exact h
      · split
        · exact h.releaseMaint.bayRequest
        · exact h.releaseMaint

theorem FormKept.execCclean {t : Thr} {f : FmtF} (h : FormKept s u) : ResKept s (Machine.execCclean t f u) := by
  unfold Machine.execCclean
  exact h.maintInstr (fun _ _ _ hx => hx.maintLine)

theorem FormKept.execCflush {t : Thr} {f : FmtF} (h : FormKept s u) : ResKept s (Machine.execCflush t f u) := by
  unfold Machine.execCflush
  exact h.maintInstr (fun _ _ _ hx => hx.maintLine)

theorem FormKept.execCinv {t : Thr} {f : FmtF} (h : FormKept s u) : ResKept s (Machine.execCinv t f u) := by
  unfold Machine.execCinv
  exact h.maintInstr (fun _ _ _ hx => hx.maintLine)

theorem FormKept.zeroLine {t : Thr} {pa : BitVec 48} (h : FormKept s u) : FormKept s (Machine.zeroLine t pa u) := by
  unfold Machine.zeroLine
  exact h.storeBytes

theorem FormKept.coreZero {i : Fin 640} {va : Word} {pa : BitVec 48} (h : FormKept s u) :
    EffKept s (Machine.coreZero i va pa u) := by
  unfold Machine.coreZero
  dsimp only
  split
  · exact h
  · split
    · exact h.releaseMaint
    · split
      · split
        · exact h.releaseMaint.ridgeSend
        · exact h.releaseMaint
      · split
        · exact h.releaseMaint.wantLines
        · refine FormKept.zeroLine ?_
          split
          · exact h.ownAtL2
          · exact h.ownForStore
      · exact h.zeroLine

theorem FormKept.adzeZero {j : Fin 512} {va : Word} {pa : BitVec 48} (h : FormKept s u) :
    EffKept s (Machine.adzeZero j va pa u) := by
  unfold Machine.adzeZero
  dsimp only
  split
  · exact h.zeroLine.countEvent
  · exact h.queueStore

theorem FormKept.execCzero {t : Thr} {f : FmtF} (h : FormKept s u) : ResKept s (Machine.execCzero t f u) := by
  unfold Machine.execCzero
  refine h.maintInstr (fun _ _ _ hx => ?_)
  split
  · exact hx.coreZero
  · exact hx.adzeZero

theorem FormKept.execIinv {t : Thr} {f : FmtF} (h : FormKept s u) : ResKept s (Machine.execIinv t f u) := by
  unfold Machine.execIinv
  split
  · refine h.maintInstr (fun _ _ _ hx => ?_)
    split
    · exact hx.l1iDrop
    · exact hx
  · exact h.runInstr (fun _ _ hx => hx)

theorem FormKept.execTlbinv {t : Thr} {f : FmtF} (h : FormKept s u) : ResKept s (Machine.execTlbinv t f u) := by
  unfold Machine.execTlbinv
  dsimp only
  refine h.runInstr (fun _ _ hx => ?_)
  split
  · exact hx
  · exact hx.refetch.updCore

theorem FormKept.execBranchResolved {t : Fin 640} (h : FormKept s u) :
    ResKept s (Machine.execBranchResolved t u) := by
  unfold Machine.execBranchResolved
  dsimp only
  split
  · exact h
  · split
    · exact h
    · exact h.resolveBranch
    · exact h.frame.resolveBranch

theorem FormKept.loseSector {c : ℕ} {instr : Bool} {l : BitVec 42} {upper : Bool} (h : FormKept s u) :
    FormKept s (Machine.loseSector c instr l upper u) := by
  unfold Machine.loseSector
  dsimp only
  exact h.updCore

theorem FormKept.arrayDown {b : ℕ} {code : BitVec 8} {unit : Option Src} (h : FormKept s u) :
    FormKept s (Machine.arrayDown b code unit u) := by
  unfold Machine.arrayDown
  split
  · exact h.reportCoherence
  · exact h

theorem FormKept.poisonFound {l : BitVec 42} {clean : Bool} {spoil : State → State} (h : FormKept s u)
    (hspoil : ∀ x, FormKept s x → FormKept s (spoil x)) :
    FormKept s (Machine.poisonFound l clean spoil u) := by
  unfold Machine.poisonFound
  dsimp only
  split
  · exact h.wrightEvent
  · split
    · exact h.poisonLine
    · split
      · exact ((hspoil _ h).wrightEvent).partEvent
      · exact (hspoil _ h).wrightEvent

theorem FormKept.cacheFinds {b : ℕ} {reader : Option ℕ} {l : BitVec 42} {found : CacheFind} (h : FormKept s u) :
    FormKept s (Machine.cacheFinds b reader l found u).2 := by
  unfold Machine.cacheFinds
  extract_lets y inL2 inLlc unit par
  split
  · exact h
  · split
    · exact h
    · split
      · exact h.updBay.loseSector
      · exact h.updBay.l1iDrop
  · split
    · exact h
    · refine FormKept.ite_snd h.updBay.arrayDown ?_
      split
      · exact h.updBay.loseSector
      · exact h.updBay.l1dDrop
  · exact h.updBay
  · exact h.updBay
  · exact h.updBay.poisonFound (fun _ hx => hx.updBay)
  · exact h.updBay.arrayDown
  · exact h.updBay
  · exact h.updBay.poisonFound (fun _ hx => hx.updSlice)
  · exact h.updBay.arrayDown

theorem FormKept.confirmSpoiled {t : Fin 640} {u' : UOp} {found : CacheFind} (h : FormKept s u) :
    ∀ v, Machine.confirmSpoiled t u' found u = some v → FormKept s v := by
  unfold Machine.confirmSpoiled
  split
  · split
    · intro _ e
      cases e
      exact h.cacheFinds.squashFrom
    · intro _ e
      cases e
  · intro _ e
    cases e

theorem FormKept.fetchAgain {i : Fin 640} {instr : Bool} {l : BitVec 42} {found : CacheFind} (h : FormKept s u) :
    FormKept s (Machine.fetchAgain i instr l found u) := by
  unfold Machine.fetchAgain
  split
  · exact h.readLine
  · exact h.readLine
  · exact h

theorem FormKept.execInstructionConfirmed {t : Fin 640} {found : CacheFind} (h : FormKept s u) :
    ResKept s (Machine.execInstructionConfirmed t found u) := by
  unfold Machine.execInstructionConfirmed
  dsimp only
  split
  · exact h
  · split
    · exact h
    · split
      · exact h.confirmSpoiled _ ‹_›
      · split
        · exact h.confirmNext
        · split
          · exact h.confirmNext
          · split
            · exact h.confirmNext.cacheFinds
            · exact h.confirmNext.cacheFinds.fetchAgain

theorem FormKept.execStoreAddressKnown {t : Fin 640} {older : ℕ} (h : FormKept s u) :
    ResKept s (Machine.execStoreAddressKnown t older u) := by
  unfold Machine.execStoreAddressKnown
  split
  · exact h
  · exact h.knowStore

theorem FormKept.execMdpEntryExpire {t : Fin 640} {pc : Word} (h : FormKept s u) :
    ResKept s (Machine.execMdpEntryExpire t pc u) := by
  unfold Machine.execMdpEntryExpire
  exact h.updThr

theorem FormKept.sendStore {t : Thr} {a : Access} (h : FormKept s u) : FormKept s (Machine.sendStore t a u) := by
  unfold Machine.sendStore
  split
  · exact h.ridgeSend
  · split
    · exact h.wantExclusive
    · exact h
  · split
    · exact h.engineRequest
    · exact h
  · exact h

theorem FormKept.releaseHead {t : Thr} (h : FormKept s u) : FormKept s (Machine.releaseHead t u) := by
  unfold Machine.releaseHead
  dsimp only
  split
  · exact h
  · exact FormKept.each h.updThr fun _ _ hx => hx.sendStore

theorem FormKept.releaseStore {t : Thr} (h : FormKept s u) : FormKept s (Machine.releaseStore t u) := by
  unfold Machine.releaseStore
  split
  · exact h
  · exact h.releaseHead

theorem FormKept.execStoreRelease {t : Thr} (h : FormKept s u) : ResKept s (Machine.execStoreRelease t u) := by
  unfold Machine.execStoreRelease
  exact h.releaseStore

theorem FormKept.staleDiscard {x : Src} {gen : BitVec 16} {site : BitVec 7} {recv : Word} (h : FormKept s u) :
    FormKept s (Machine.staleDiscard x gen site recv u) := by
  unfold Machine.staleDiscard
  exact h.frame.wrightEvent

theorem FormKept.markGone {t : Thr} {id : ℕ} (h : FormKept s u) : FormKept s (Machine.markGone t id u) := by
  unfold Machine.markGone
  exact h.updThr

theorem FormKept.downDiscard {x : Src} {gen : BitVec 16} {site : BitVec 7} {recv : Word} (h : FormKept s u) :
    FormKept s (Machine.downDiscard x gen site recv u) := by
  unfold Machine.downDiscard
  exact h.frame.wrightEvent

theorem FormKept.withAccessFind {t : Thr} {pa : BitVec 48} {found : CacheFind} {act : State → State}
    (h : FormKept s u) (hact : ∀ x, FormKept s x → FormKept s (act x)) :
    FormKept s (Machine.withAccessFind t pa found act u) := by
  unfold Machine.withAccessFind
  split
  · exact hact _ h
  · exact FormKept.ite h.cacheFinds (hact _ h.cacheFinds)

theorem FormKept.performStore {t : Thr} {a : Access} (h : FormKept s u) :
    FormKept s (Machine.performStore t a u) := by
  unfold Machine.performStore
  exact h.storeBytes.removeOut

theorem FormKept.writeEvrPart {p : ℕ} {w : Word} (h : FormKept s u) : FormKept s (Machine.writeEvrPart p w u) := by
  unfold Machine.writeEvrPart
  exact h.updPart

theorem FormKept.updLed {f : Ledger → Ledger} (h : FormKept s u) : FormKept s (Machine.updLed f u) := by
  exact h.frame

theorem FormKept.writeDispCore {t : ℕ} {w : Word} (h : FormKept s u) : FormKept s (Machine.writeDispCore t w u) := by
  unfold Machine.writeDispCore
  dsimp only
  exact h.updLed

theorem FormKept.writeEpNotify {v : Word} {m : Word} (h : FormKept s u) :
    FormKept s (Machine.writeEpNotify v m u) := by
  unfold Machine.writeEpNotify
  dsimp only
  exact h.updEp

theorem FormKept.emitHost {o : Out} (h : FormKept s u) : FormKept s (Machine.emitHost o u) := by
  unfold Machine.emitHost
  split
  · exact h.enterCrossing
  · exact h.emit

theorem FormKept.recordAer {b : ℕ} (h : FormKept s u) : FormKept s (Machine.recordAer b u) := by
  unfold Machine.recordAer
  extract_lets c masked fatal first hdr w w' dev en
  have k : FormKept s w' := by
    have hw : FormKept s w := h.updEp
    exact hw.frame
  exact FormKept.ite k.emitHost k

theorem FormKept.freeze {code : BitVec 8} (h : FormKept s u) : FormKept s (Machine.freeze code u) := by
  unfold Machine.freeze
  extract_lets v newNotice w
  have hv : FormKept s v := FormKept.ite h h.recordAer
  have hw : FormKept s w := hv.updEp
  exact FormKept.ite hv hw.wrightEvent

theorem FormKept.flushMsi (h : FormKept s u) : FormKept s (Machine.flushMsi u) :=
  h.trans (sameMem_flushMsi).formKept

theorem FormKept.pumpEndpoint (h : FormKept s u) : FormKept s (Machine.pumpEndpoint u) := by
  unfold Machine.pumpEndpoint
  exact h.flushMsi.pumpHead.pumpReads

theorem FormKept.releaseFreeze {count : BitVec 8} (h : FormKept s u) :
    FormKept s (Machine.releaseFreeze count u) := by
  unfold Machine.releaseFreeze
  dsimp only
  split
  · exact h
  · split
    · exact h.updEp.pumpEndpoint.deliverAll.noticeMsg
    · exact h.updEp.pumpEndpoint.deliverAll

theorem FormKept.sharedWrite {o : ℕ} {v : Word} {m : Word} (h : FormKept s u) :
    FormKept s (Machine.sharedWrite o v m u) := by
  unfold Machine.sharedWrite
  dsimp only
  split
  · split
    · exact h.updDie
    · exact h
  · split
    · exact h.writeEpNotify
    · split
      · split
        · refine FormKept.releaseFreeze ?_
          split
          · exact h.freeze
          · exact h
        · split
          · exact h.freeze
          · exact h
      · exact h

theorem FormKept.threadHubWrite {o : ℕ} {v : Word} {m : Word} (h : FormKept s u) :
    FormKept s (Machine.threadHubWrite o v m u) := by
  unfold Machine.threadHubWrite
  split
  · split
    · exact h.writeEvrPart
    · exact h
  · split
    · exact h.writeDispCore
    · exact h.sharedWrite

theorem FormKept.countLate (h : FormKept s u) : FormKept s (Machine.countLate u) := by
  unfold Machine.countLate
  exact h.updLed

theorem FormKept.setHeld {t : Thr} {e : Option (ℕ × BitVec 16)} (h : FormKept s u) :
    FormKept s (Machine.setHeld t e u) := by
  unfold Machine.setHeld
  exact h.updLed

theorem FormKept.releaseThread {t : Thr} (h : FormKept s u) : FormKept s (Machine.releaseThread t u) := by
  unfold Machine.releaseThread
  exact h.setHeld.dispVote

theorem FormKept.ledgerDone {t : Thr} {v : Word} {lost : BitVec 16} (h : FormKept s u) :
    FormKept s (Machine.ledgerDone t v lost u) := by
  unfold Machine.ledgerDone
  dsimp only
  split
  · split
    · exact h.countLate.releaseThread
    · exact h.countLate
  · exact h.homeRead.endItem.updEntry.releaseThread

theorem FormKept.sendEvent {t : Thr} {id : Option ℕ} {v : Word} {whole : Bool} (h : FormKept s u) :
    FormKept s (Machine.sendEvent t id v whole u).2 := by
  unfold Machine.sendEvent
  dsimp only
  split
  · exact h
  · split
    · exact h
    · split
      · exact h
      · split
        · exact h
        · exact h.acceptEvent

theorem FormKept.engineRegWrite {e : ℕ} {n : ℕ} {v : Word} {m : Word} (h : FormKept s u) :
    FormKept s (Machine.engineRegWrite e n v m u) := by
  unfold Machine.engineRegWrite
  dsimp only
  exact h.adzWrite

theorem FormKept.writeBoxPage {m : Mbox} {off : ℕ} {data : List Byte} (h : FormKept s u) :
    FormKept s (Machine.writeBoxPage m off data u) := by
  unfold Machine.writeBoxPage
  split <;> exact h.updBox

theorem FormKept.signalBox {m : Mbox} {status : BitVec 8} {seq : BitVec 16} {rlen : ℕ} (h : FormKept s u) :
    FormKept s (Machine.signalBox m status seq rlen u) := by
  unfold Machine.signalBox
  dsimp only
  split
  · split
    · exact h.sendMsi
    · exact h
  · split
    · exact h.emit
    · exact h
  · split
    · exact h.emit
    · exact h
  · split
    · exact h
    · split
      · exact h
      · split
        · exact h
        · split
          · exact h.acceptEvent
          · exact h.updThr

theorem FormKept.finishBox {m : Mbox} {status : BitVec 8} {detail : BitVec 16} {payload : List Byte}
    {seq : BitVec 16} {taken : Word} (h : FormKept s u) :
    FormKept s (Machine.finishBox m status detail payload seq taken u) := by
  unfold Machine.finishBox
  dsimp only
  exact h.updBox.signalBox

theorem FormKept.ringNow {m : Mbox} {v : Word} (h : FormKept s u) : FormKept s (Machine.ringNow m v u) := by
  unfold Machine.ringNow
  extract_lets b ring w refuseAs pw w'
  have k : FormKept s w := h.updBox
  have refused (x : BitVec 8) : FormKept s (refuseAs x) := k.finishBox
  have k' : FormKept s w' := k.updBox
  exact FormKept.ite k.updBox (FormKept.ite (refused _) (FormKept.ite (refused _) (FormKept.ite (refused _)
    (FormKept.ite k.signalBox (FormKept.ite (refused _) (FormKept.ite k' k'.updWr))))))

theorem FormKept.ringTaken {m : Mbox} {v : Word} {refuse : Bool} (h : FormKept s u) :
    FormKept s (Machine.ringTaken m v refuse u) := by
  unfold Machine.ringTaken
  dsimp only
  split
  · exact h.ringNow.updBox
  · exact h.ringNow

theorem FormKept.ringBox {m : Mbox} {v : Word} {refuse : Bool} (h : FormKept s u) :
    FormKept s (Machine.ringBox m v refuse u) := by
  unfold Machine.ringBox
  split
  · exact h.enterCrossing
  · exact h.ringTaken

theorem FormKept.powerRegWrite {u' : DieUnit} {w : Word} (h : FormKept s u) :
    FormKept s (Machine.powerRegWrite u' w u) := by
  unfold Machine.powerRegWrite
  split
  · exact h.updCore
  · exact h.updBay
  · exact h

theorem FormKept.deviceWrite {t : Thr} {id : Option ℕ} {pa : BitVec 48} {n : ℕ} {v : Word} {lost : BitVec 16}
    (h : FormKept s u) :
    FormKept s (Machine.deviceWrite t id pa n v lost u).2 := by
  unfold Machine.deviceWrite
  extract_lets o m v' whole
  split
  · exact FormKept.ite_snd h h.threadHubWrite
  · split
    · exact FormKept.ite_snd (FormKept.ite h.ledgerDone h.countLate).pair (FormKept.ite_snd h.sendEvent h)
    · exact FormKept.ite h h.engineRegWrite
    · exact FormKept.ite h h.engineRegWrite
    · exact FormKept.ite_snd h.writeBoxPage.pair (FormKept.ite_snd h.ringBox.pair h.updBox.pair)
    · exact FormKept.ite h h.powerRegWrite
    · exact FormKept.ite h h.powerRegWrite
    · exact h
  · exact h

theorem FormKept.markSent {t : Thr} {id : ℕ} (h : FormKept s u) : FormKept s (Machine.markSent t id u) := by
  unfold Machine.markSent
  exact h.updThr

theorem FormKept.ackStore {t : Thr} {a : Access} (h : FormKept s u) : FormKept s (Machine.ackStore t a u) := by
  unfold Machine.ackStore
  dsimp only
  split
  · split
    · exact h
    · split
      · exact h.wantExclusive
      · refine FormKept.performStore ?_
        split
        · exact h.ownAtL2
        · exact h.ownForStore
  · exact h
  · exact h
  · split
    · exact h
    · split
      · exact h.accessLost
      · exact h.performStore
  · split
    · exact h.performStore
    · exact h
  · split
    · exact (FormKept.of_pair ‹_› h.deviceWrite).accessLost
    · split
      · exact (FormKept.of_pair ‹_› h.deviceWrite).markSent
      · exact (FormKept.of_pair ‹_› h.deviceWrite).removeOut

theorem FormKept.ackAtom {t : Thr} {a : Access} (h : FormKept s u) : FormKept s (Machine.ackAtom t a u) := by
  unfold Machine.ackAtom
  dsimp only
  split
  · split
    · exact h.removeOut
    · split
      · exact h
      · split
        · exact h.releaseHold.atomPerform.valueDone
        · split
          · exact h.wantLines
          · exact h.dramAtomDo.valueDone
  · exact h

theorem FormKept.deviceLoad {pa : BitVec 48} {n : ℕ} (h : FormKept s u) :
    FormKept s (Machine.deviceLoad u pa n).2 := by
  unfold Machine.deviceLoad
  split
  · split
    · exact h.countLate
    · exact h
  · exact h

theorem FormKept.ackLoad {t : Thr} {a : Access} (h : FormKept s u) : FormKept s (Machine.ackLoad t a u) := by
  unfold Machine.ackLoad
  dsimp only
  split
  · exact h.ackAtom
  · split
    · exact h.deviceLoad.valueDone
    · exact h.answerPiece

theorem FormKept.ackAccess {t : Thr} {a : Access} (h : FormKept s u) : FormKept s (Machine.ackAccess t a u) := by
  unfold Machine.ackAccess
  split
  · exact h.ackStore
  · exact h.ackStore
  · exact h.ackLoad
  · exact h.ackAtom
  · exact h.ackAtom
  · exact h.ackAtom
  · exact h

theorem FormKept.execCompletionAck {t : Thr} {id : ℕ} {found : CacheFind} (h : FormKept s u) :
    ResKept s (Machine.execCompletionAck t id found u) := by
  unfold Machine.execCompletionAck
  split
  · exact h
  · split
    · exact h
    · split
      · exact h.markGone.staleDiscard
      · exact h.markGone.downDiscard
      · exact h.withAccessFind (fun _ hx => hx.ackAccess)

theorem FormKept.maybeMade {t : Thr} {a : Access} (h : FormKept s u) : FormKept s (Machine.maybeMade t a u) := by
  unfold Machine.maybeMade
  extract_lets sent
  refine FormKept.ite h ?_
  have k : FormKept s (Machine.freeBit u).2 := h.freeBit
  generalize Machine.freeBit u = r at k
  obtain ⟨b, v⟩ := r
  refine FormKept.ite k ?_
  extract_lets dbl
  split
  · exact FormKept.ite k (FormKept.ite k.deviceWrite k.storeBytes)
  · exact k.storeBytes
  · exact k.atomDo
  · exact k.atomDo
  · exact k.stcndDo
  · exact k

theorem FormKept.endLost {t : Thr} {a : Access} {c : LostCause} (h : FormKept s u) :
    FormKept s (Machine.endLost t a c u) := by
  unfold Machine.endLost
  exact h.maybeMade.accessLost

theorem FormKept.execAccessTimeout {t : Thr} {id : ℕ} (h : FormKept s u) :
    ResKept s (Machine.execAccessTimeout t id u) := by
  unfold Machine.execAccessTimeout
  split
  · exact h
  · split
    · exact h.endLost
    · exact h

theorem FormKept.execTargetAbsentReport {t : Thr} {id : ℕ} {cause : LostCause} (h : FormKept s u) :
    ResKept s (Machine.execTargetAbsentReport t id cause u) := by
  unfold Machine.execTargetAbsentReport
  dsimp only
  split
  · exact h
  · split
    · exact h
    · refine FormKept.endLost ?_
      split
      · exact h.closeReq
      · exact h

theorem FormKept.execReservationMonitorExpire {t : Thr} {g : BitVec 41} (h : FormKept s u) :
    ResKept s (Machine.execReservationMonitorExpire t g u) := by
  unfold Machine.execReservationMonitorExpire
  dsimp only
  split
  · exact h.keepMon.loseResv
  · exact h.keepMon

theorem FormKept.execReservationHoldExpire {t : Fin 640} (h : FormKept s u) :
    ResKept s (Machine.execReservationHoldExpire t u) := by
  unfold Machine.execReservationHoldExpire
  split
  · exact h
  · exact h.releaseHold

theorem FormKept.mtsRow {t : Thr} {n : ℕ} {gs1 : BitVec 5} (h : FormKept s u) :
    FormKept s (Machine.mtsRow t n gs1 u) := by
  unfold Machine.mtsRow
  exact h.mtsTo

theorem FormKept.execCoreSoloWrite {t : Fin 640} {gs1 : BitVec 5} (h : FormKept s u) :
    ResKept s (Machine.execCoreSoloWrite t gs1 u) := by
  unfold Machine.execCoreSoloWrite
  exact h.mtsRow

theorem FormKept.parkAt {f : Thread → Thread} {t : Thr} (h : FormKept s u) : FormKept s (Machine.parkAt f t u) := by
  unfold Machine.parkAt
  dsimp only
  split
  · exact h.squashAll
  · exact h.squashAll.updThr.countEvent

theorem FormKept.soloPark {t : Thr} (h : FormKept s u) : FormKept s (Machine.soloPark t u) := by
  unfold Machine.soloPark
  exact h.parkAt

theorem FormKept.execSoloParked {c : Fin 160} (h : FormKept s u) : ResKept s (Machine.execSoloParked c u) := by
  unfold Machine.execSoloParked
  dsimp only
  split
  · exact h
  · split
    · exact h
    · exact (FormKept.each h fun _ _ hx => hx.soloPark).updCore

theorem FormKept.execAsidWrite {t : Thr} {gs1 : BitVec 5} (h : FormKept s u) :
    ResKept s (Machine.execAsidWrite t gs1 u) := by
  unfold Machine.execAsidWrite
  exact h.mtsRow

theorem FormKept.execCacheCtlWrite {t : Fin 640} {gs1 : BitVec 5} (h : FormKept s u) :
    ResKept s (Machine.execCacheCtlWrite t gs1 u) := by
  unfold Machine.execCacheCtlWrite
  exact h.mtsRow

theorem FormKept.emptyL1d {c : ℕ} (h : FormKept s u) : FormKept s (Machine.emptyL1d c u) := by
  unfold Machine.emptyL1d
  dsimp only
  refine FormKept.updCore ?_
  refine FormKept.each ?_ fun _ _ hx => ?_
  · refine FormKept.each h fun _ _ hx => ?_
    split
    · exact hx.releaseHold
    · exact hx
  · exact hx.l1dDrop

theorem FormKept.execCacheCtlDrainDone {c : Fin 160} {l : BitVec 42} {found : CacheFind} (h : FormKept s u) :
    ResKept s (Machine.execCacheCtlDrainDone c l found u) := by
  unfold Machine.execCacheCtlDrainDone
  dsimp only
  split
  · exact h
  · split
    · exact h
    · split
      · exact h.cacheFinds
      · exact h.cacheFinds.emptyL1d.applyCacheCtl.updCore

theorem FormKept.execL2amCtlWrite {t : Fin 640} {gs1 : BitVec 5} (h : FormKept s u) :
    ResKept s (Machine.execL2amCtlWrite t gs1 u) := by
  unfold Machine.execL2amCtlWrite
  exact h.mtsRow

theorem FormKept.l2Evict {b : Fin 40} {l : BitVec 42} (h : FormKept s u) : FormKept s (Machine.l2Evict b l u) := by
  unfold Machine.l2Evict
  dsimp only
  split
  · exact h
  · exact h.bayL1Drop.updBay.pumpWb

theorem FormKept.execL2amStepDone {b : Fin 40} {l : BitVec 42} {found : CacheFind} (h : FormKept s u) :
    ResKept s (Machine.execL2amStepDone b l found u) := by
  unfold Machine.execL2amStepDone
  dsimp only
  split
  · exact h
  · split
    · exact h.cacheFinds
    · split
      · refine FormKept.each h.cacheFinds fun _ _ hx => ?_
        split
        · exact hx.l2Evict
        · exact hx
      · refine FormKept.updBay ?_
        refine FormKept.clearArea ?_
        refine FormKept.each h.cacheFinds fun _ _ hx => ?_
        split
        · exact hx.l2Evict
        · exact hx

theorem FormKept.strayDiscard {x : Src} {site : BitVec 7} {recv : Word} (h : FormKept s u) :
    FormKept s (Machine.strayDiscard x site recv u) := by
  unfold Machine.strayDiscard
  exact h.frame.wrightEvent

theorem FormKept.deliver {c : CKind} {m : CMsg} {act : State → State} (h : FormKept s u)
    (hact : ∀ x, FormKept s x → FormKept s (act x)) :
    ResKept s (Machine.deliver c m act u) := by
  unfold Machine.deliver
  extract_lets w toDown good
  have k : FormKept s w := h.frame
  have hg : FormKept s good := by
    refine FormKept.ite k.frame ?_
    split
    · exact k.staleDiscard
    · exact hact _ k
  refine ResKept.ite h ?_
  split
  · exact hg
  · split
    · exact k.staleDiscard
    · exact k.strayDiscard
    · exact k.downDiscard
    · exact hg

theorem FormKept.withFind {m : CMsg} {found : CacheFind} {act : State → State} (h : FormKept s u)
    (hact : ∀ x, FormKept s x → FormKept s (act x)) :
    FormKept s (Machine.withFind m found act u) := by
  unfold Machine.withFind
  dsimp only
  split
  · exact hact _ h
  · split
    · exact h.cacheFinds
    · exact hact _ h.cacheFinds

theorem FormKept.requestAbsent {m : CMsg} (h : FormKept s u) : FormKept s (Machine.requestAbsent m u) := by
  unfold Machine.requestAbsent
  dsimp only
  split
  · exact h.frame.updBay
  · exact h.frame

theorem FormKept.nackOrQueue {h' : Fin 40} {k' : ReqKind} {m : CMsg} (h : FormKept s u) :
    FormKept s (Machine.nackOrQueue h' k' m u) := by
  unfold Machine.nackOrQueue
  dsimp only
  split
  · refine FormKept.each ?_ fun _ _ hx => ?_
    · split
      · exact h.updSlice.updDir
      · exact h.updSlice
    · exact hx.countEvent
  · exact h.send

theorem FormKept.accept {h' : Fin 40} {k' : ReqKind} {m : CMsg} (h : FormKept s u) :
    FormKept s (Machine.accept h' k' m u) := by
  unfold Machine.accept
  dsimp only
  split
  · exact h.nackOrQueue
  · exact h.serve

theorem FormKept.requestAt {k' : ReqKind} {m : CMsg} (h : FormKept s u) : FormKept s (Machine.requestAt k' m u) := by
  unfold Machine.requestAt
  split
  · split
    · exact h.requestAbsent
    · split
      · exact h.accept.settleLine
      · exact h.protocol
  · exact h.protocol

theorem FormKept.execRdS {m : CMsg} {found : CacheFind} (h : FormKept s u) :
    ResKept s (Machine.execRdS m found u) := by
  unfold Machine.execRdS
  exact h.deliver (fun _ hx => hx.withFind (fun _ hx1 => hx1.requestAt))

theorem FormKept.execRdX {m : CMsg} {found : CacheFind} (h : FormKept s u) :
    ResKept s (Machine.execRdX m found u) := by
  unfold Machine.execRdX
  exact h.deliver (fun _ hx => hx.withFind (fun _ hx1 => hx1.requestAt))

theorem FormKept.execUpg {m : CMsg} {found : CacheFind} (h : FormKept s u) :
    ResKept s (Machine.execUpg m found u) := by
  unfold Machine.execUpg
  exact h.deliver (fun _ hx => hx.withFind (fun _ hx1 => hx1.requestAt))

theorem FormKept.execRdZ {m : CMsg} {found : CacheFind} (h : FormKept s u) :
    ResKept s (Machine.execRdZ m found u) := by
  unfold Machine.execRdZ
  exact h.deliver (fun _ hx => hx.withFind (fun _ hx1 => hx1.requestAt))

theorem FormKept.peekAt {m : CMsg} {found : CacheFind} (h : FormKept s u) :
    FormKept s (Machine.peekAt m found u) := by
  unfold Machine.peekAt
  extract_lets bad
  split
  · exact FormKept.ite h.send h.send
  · exact h.protocol

theorem FormKept.execPeek {m : CMsg} {found : CacheFind} (h : FormKept s u) :
    ResKept s (Machine.execPeek m found u) := by
  unfold Machine.execPeek
  exact h.deliver (fun _ hx => hx.peekAt)

theorem FormKept.execCln {m : CMsg} {found : CacheFind} (h : FormKept s u) :
    ResKept s (Machine.execCln m found u) := by
  unfold Machine.execCln
  exact h.deliver (fun _ hx => hx.withFind (fun _ hx1 => hx1.requestAt))

theorem FormKept.execFlsRequest {m : CMsg} {found : CacheFind} (h : FormKept s u) :
    ResKept s (Machine.execFlsRequest m found u) := by
  unfold Machine.execFlsRequest
  exact h.deliver (fun _ hx => hx.withFind (fun _ hx1 => hx1.requestAt))

theorem FormKept.execInv {m : CMsg} {found : CacheFind} (h : FormKept s u) :
    ResKept s (Machine.execInv m found u) := by
  unfold Machine.execInv
  exact h.deliver (fun _ hx => hx.withFind (fun _ hx1 => hx1.requestAt))

theorem FormKept.execHrd {m : CMsg} {found : CacheFind} (h : FormKept s u) :
    ResKept s (Machine.execHrd m found u) := by
  unfold Machine.execHrd
  exact h.deliver (fun _ hx => hx.withFind (fun _ hx1 => hx1.requestAt))

theorem FormKept.execHwr {m : CMsg} {found : CacheFind} (h : FormKept s u) :
    ResKept s (Machine.execHwr m found u) := by
  unfold Machine.execHwr
  exact h.deliver (fun _ hx => hx.withFind (fun _ hx1 => hx1.requestAt))

theorem FormKept.execHatm {m : CMsg} {t : Fin 512} {op : AtomOp} {pa : BitVec 48} {dbl : Bool} {a : Word} {b : Word}
    {found : CacheFind} (h : FormKept s u) :
    ResKept s (Machine.execHatm m t op pa dbl a b found u) := by
  unfold Machine.execHatm
  dsimp only
  exact h.deliver (fun _ hx => hx.withFind (fun _ hx1 => hx1.requestAt))

theorem FormKept.forwardAt {k' : CKind} {m : CMsg} (h : FormKept s u) : FormKept s (Machine.forwardAt k' m u) := by
  unfold Machine.forwardAt
  split
  · exact h.takeForward
  · exact h.protocol

theorem FormKept.execFS {m : CMsg} {found : CacheFind} (h : FormKept s u) : ResKept s (Machine.execFS m found u) := by
  unfold Machine.execFS
  exact h.deliver (fun _ hx => hx.withFind (fun _ hx1 => hx1.forwardAt))

theorem FormKept.execFX {m : CMsg} {found : CacheFind} (h : FormKept s u) : ResKept s (Machine.execFX m found u) := by
  unfold Machine.execFX
  exact h.deliver (fun _ hx => hx.withFind (fun _ hx1 => hx1.forwardAt))

theorem FormKept.execFInv {m : CMsg} {found : CacheFind} (h : FormKept s u) :
    ResKept s (Machine.execFInv m found u) := by
  unfold Machine.execFInv
  exact h.deliver (fun _ hx => hx.withFind (fun _ hx1 => hx1.forwardAt))

theorem FormKept.execFCln {m : CMsg} {found : CacheFind} (h : FormKept s u) :
    ResKept s (Machine.execFCln m found u) := by
  unfold Machine.execFCln
  exact h.deliver (fun _ hx => hx.withFind (fun _ hx1 => hx1.forwardAt))

theorem FormKept.execFFls {m : CMsg} {found : CacheFind} (h : FormKept s u) :
    ResKept s (Machine.execFFls m found u) := by
  unfold Machine.execFFls
  exact h.deliver (fun _ hx => hx.withFind (fun _ hx1 => hx1.forwardAt))

theorem FormKept.execFDis {m : CMsg} {found : CacheFind} (h : FormKept s u) :
    ResKept s (Machine.execFDis m found u) := by
  unfold Machine.execFDis
  exact h.deliver (fun _ hx => hx.withFind (fun _ hx1 => hx1.forwardAt))

theorem FormKept.l2Fill {b : Fin 40} {l : BitVec 42} {st : Mesi} {nt : Bool} {bad : Bool} (h : FormKept s u) :
    FormKept s (Machine.l2Fill b l st nt bad u) := by
  unfold Machine.l2Fill
  dsimp only
  split
  · exact h.updBay
  · refine FormKept.updBay ?_
    split
    · exact h.updBay
    · exact h.updBay.l2Evict

theorem FormKept.finishReq {b : Fin 40} {r : CReq} (h : FormKept s u) : FormKept s (Machine.finishReq b r u) := by
  unfold Machine.finishReq
  dsimp only
  split
  · exact FormKept.each h.updBay.send fun _ _ hx => hx.updThr
  · exact h.updBay.send
  · split
    · split
      · exact h.updBay.send.updBay
      · exact h.updBay.send.l2Fill
    · refine FormKept.each ?_ fun _ _ hx => ?_
      · refine FormKept.updCore ?_
        refine FormKept.l1Fill ?_
        split
        · exact h.updBay.send.updBay
        · exact h.updBay.send.l2Fill
      · split
        · exact hx.validatePeek
        · exact hx

theorem FormKept.reqAnswer {b : Fin 40} {l : BitVec 42} {f : CReq → CReq} (h : FormKept s u) :
    FormKept s (Machine.reqAnswer b l f u) := by
  unfold Machine.reqAnswer
  dsimp only
  split
  · exact h.protocol
  · split
    · split
      · exact h.protocol
      · split
        · exact h.finishReq
        · exact h.updBay
    · exact h.updBay

theorem FormKept.answered {h' : Fin 40} {key : ℕ} (h : FormKept s u) : FormKept s (Machine.answered h' key u) := by
  unfold Machine.answered
  dsimp only
  split
  · refine FormKept.settleLine ?_
    split
    · exact h.updSlice.updDir.takeWay.beginTx
    · exact h.updSlice.updDir
  · split
    · exact h.updDir.grant
    · exact h.updDir.cleanLine.llcClean.grant
    · exact h.updDir.cleanLine.llcDrop.grant
    · refine FormKept.settleLine ?_
      split <;> exact h.performHub.updDir
    · exact h.performHub.updDir.settleLine

theorem FormKept.answerFrom {h' : Fin 40} {key : ℕ} {b : ℕ} (h : FormKept s u) :
    FormKept s (Machine.answerFrom h' key b u) := by
  unfold Machine.answerFrom
  dsimp only
  split
  · exact h.updDir.answered
  · exact h.updDir

theorem FormKept.homeAnswer {i : Fin 40} {m : CMsg} {dirty : Bool} (h : FormKept s u) :
    FormKept s (Machine.homeAnswer i m dirty u) := by
  unfold Machine.homeAnswer
  extract_lets b owed w
  have k : FormKept s w := FormKept.ite h.updSlice h
  split
  · exact FormKept.ite k.llcFill k.protocol
  · have k' : FormKept s (if dirty then Machine.llcFill i.val m.line true false w else w) := FormKept.ite k.llcFill k
    exact FormKept.ite k'.answerFrom (FormKept.ite k' k'.protocol)

theorem FormKept.ackInvAt {m : CMsg} (h : FormKept s u) : FormKept s (Machine.ackInvAt m u) := by
  unfold Machine.ackInvAt
  dsimp only
  split
  · exact h.reqAnswer
  · exact h.homeAnswer
  · exact h.protocol

theorem FormKept.execAckInv {m : CMsg} (h : FormKept s u) : ResKept s (Machine.execAckInv m u) := by
  unfold Machine.execAckInv
  exact h.deliver (fun _ hx => hx.ackInvAt)

theorem FormKept.homeOnly {m : CMsg} {f : Fin 40 → State → State} (h : FormKept s u)
    (hf : ∀ a0 x, FormKept s x → FormKept s (f a0 x)) :
    FormKept s (Machine.homeOnly m f u) := by
  unfold Machine.homeOnly
  split
  · exact hf _ _ h
  · exact h.protocol

theorem FormKept.execAckF {m : CMsg} (h : FormKept s u) : ResKept s (Machine.execAckF m u) := by
  unfold Machine.execAckF
  exact h.deliver (fun _ hx => hx.homeOnly (fun _ _ hx1 => hx1.homeAnswer))

theorem FormKept.matchWb {h' : Fin 40} {key : ℕ} {k' : CKind} {w : CMsg} (h : FormKept s u) :
    FormKept s (Machine.matchWb h' key k' w u) := by
  unfold Machine.matchWb
  dsimp only
  refine FormKept.send ?_
  split
  · refine FormKept.homeData ?_
    refine FormKept.updDir ?_
    split
    · exact h
    · split
      · exact h.discardLine
      · exact h.llcFill
  · refine FormKept.homeData ?_
    refine FormKept.updDir ?_
    split
    · exact h
    · split
      · exact h.discardLine
      · exact h.llcFill
  · refine FormKept.homeData ?_
    refine FormKept.updDir ?_
    split
    · exact h
    · split
      · exact h.discardLine
      · exact h.llcFill
  · refine FormKept.send ?_
    refine FormKept.updDir ?_
    split
    · exact h
    · split
      · exact h.discardLine
      · exact h.llcFill
  · refine FormKept.answerFrom ?_
    refine FormKept.updDir ?_
    split
    · exact h
    · split
      · exact h.discardLine
      · exact h.llcFill

theorem FormKept.missWbAt {h' : Fin 40} {m : CMsg} (h : FormKept s u) : FormKept s (Machine.missWbAt h' m u) := by
  unfold Machine.missWbAt
  dsimp only
  split
  · exact h.protocol
  · split
    · exact h.protocol
    · split
      · exact h.updDir
      · exact h.updDir.updSlice.matchWb

theorem FormKept.execMissWb {m : CMsg} (h : FormKept s u) : ResKept s (Machine.execMissWb m u) := by
  unfold Machine.execMissWb
  exact h.deliver (fun _ hx => hx.homeOnly (fun _ _ hx1 => hx1.missWbAt))

theorem FormKept.nackAt {m : CMsg} (h : FormKept s u) : FormKept s (Machine.nackAt m u) := by
  unfold Machine.nackAt
  dsimp only
  split
  · split
    · exact (FormKept.each h fun _ _ hx => hx.countEvent).updBay
    · exact h.protocol
  · split
    · exact h.protocol
    · exact (FormKept.each h fun _ _ hx => hx.countEvent).frame
  · exact h
  · exact h.protocol

theorem FormKept.execNack {m : CMsg} (h : FormKept s u) : ResKept s (Machine.execNack m u) := by
  unfold Machine.execNack
  exact h.deliver (fun _ hx => hx.nackAt)

theorem FormKept.execNackRetryGapExpire {a : Agent} {l : BitVec 42} (h : FormKept s u) :
    ResKept s (Machine.execNackRetryGapExpire a l u) := by
  unfold Machine.execNackRetryGapExpire
  dsimp only
  split
  · exact h
  · split
    · split
      · exact h
      · exact h.updBay.send
    · split
      · exact h
      · exact h.frame.send
    · exact h

theorem FormKept.forWalks {b : ℕ} {l : BitVec 42} {f : WalkE → WalkE} (h : FormKept s u) :
    FormKept s (Machine.forWalks b l f u) := by
  unfold Machine.forWalks
  exact FormKept.each h fun _ _ hx => hx.updCore

theorem FormKept.forShims {b : ℕ} {l : BitVec 42} {f : ShimE → ShimE} (h : FormKept s u) :
    FormKept s (Machine.forShims b l f u) := by
  unfold Machine.forShims
  exact FormKept.each h fun _ _ hx => hx.updCore

theorem FormKept.deferAt {m : CMsg} (h : FormKept s u) : FormKept s (Machine.deferAt m u) := by
  unfold Machine.deferAt
  dsimp only
  split
  · exact ((FormKept.each h fun _ _ hx => hx.updThr.countUnconfirmed).forShims).forWalks
  · exact h.protocol

theorem FormKept.execDefer {m : CMsg} (h : FormKept s u) : ResKept s (Machine.execDefer m u) := by
  unfold Machine.execDefer
  exact h.deliver (fun _ hx => hx.deferAt)

theorem FormKept.engineAnswer {a : Agent} {kinds : List ReqKind} {m : CMsg} (h : FormKept s u) :
    FormKept s (Machine.engineAnswer a kinds m u) := by
  unfold Machine.engineAnswer
  dsimp only
  split
  · exact h.protocol
  · split
    · exact h.frame
    · split
      · exact h.frame.removeOut
      · exact h.frame.valueDone
      · exact h.frame.valueDone

theorem FormKept.grantAt {m : CMsg} (h : FormKept s u) : FormKept s (Machine.grantAt m u) := by
  unfold Machine.grantAt
  split
  · exact h.reqAnswer
  · exact h.engineAnswer
  · exact h
  · exact h.protocol

theorem FormKept.execGrant {m : CMsg} (h : FormKept s u) : ResKept s (Machine.execGrant m u) := by
  unfold Machine.execGrant
  exact h.deliver (fun _ hx => hx.grantAt)

theorem FormKept.closeTx {i : Fin 40} {key : ℕ} (h : FormKept s u) : FormKept s (Machine.closeTx i key u) := by
  unfold Machine.closeTx
  dsimp only
  refine FormKept.settleLine ?_
  repeat' split
  all_goals first | exact h | exact h.updDir

theorem FormKept.doneAt {h' : Fin 40} {m : CMsg} (h : FormKept s u) : FormKept s (Machine.doneAt h' m u) := by
  unfold Machine.doneAt
  dsimp only
  split
  · split
    · exact h.updSlice
    · exact h.protocol
  · split
    · exact h.closeTx
    · split
      · exact h.updSlice
      · exact h.protocol

theorem FormKept.execDoneMsg {m : CMsg} (h : FormKept s u) : ResKept s (Machine.execDoneMsg m u) := by
  unfold Machine.execDoneMsg
  exact h.deliver (fun _ hx => hx.homeOnly (fun _ _ hx1 => hx1.doneAt))

theorem FormKept.wbAckAt {m : CMsg} (h : FormKept s u) : FormKept s (Machine.wbAckAt m u) := by
  unfold Machine.wbAckAt
  split
  · split
    · exact h.updBay.pumpWb
    · exact h.protocol
  · exact h.protocol

theorem FormKept.execWbAck {m : CMsg} (h : FormKept s u) : ResKept s (Machine.execWbAck m u) := by
  unfold Machine.execWbAck
  exact h.deliver (fun _ hx => hx.wbAckAt)

theorem FormKept.homeDataAt {m : CMsg} (h : FormKept s u) : FormKept s (Machine.homeDataAt m u) := by
  unfold Machine.homeDataAt
  split
  · exact h.reqAnswer
  · exact h.engineAnswer
  · exact h
  · exact h.protocol

theorem FormKept.execDH {m : CMsg} {found : CacheFind} (h : FormKept s u) : ResKept s (Machine.execDH m found u) := by
  unfold Machine.execDH
  exact h.deliver (fun _ hx => hx.withFind (fun _ hx1 => hx1.homeDataAt))

theorem FormKept.fwdDataAt {m : CMsg} (h : FormKept s u) : FormKept s (Machine.fwdDataAt m u) := by
  unfold Machine.fwdDataAt
  split
  · exact h.reqAnswer
  · exact h.protocol

theorem FormKept.execDF {m : CMsg} {found : CacheFind} (h : FormKept s u) : ResKept s (Machine.execDF m found u) := by
  unfold Machine.execDF
  exact h.deliver (fun _ hx => hx.withFind (fun _ hx1 => hx1.fwdDataAt))

theorem FormKept.execDO {m : CMsg} {found : CacheFind} (h : FormKept s u) : ResKept s (Machine.execDO m found u) := by
  unfold Machine.execDO
  exact h.deliver (fun _ hx => hx.withFind (fun _ hx1 => hx1.homeOnly (fun _ _ hx2 => hx2.homeAnswer)))

theorem FormKept.peekData {m : CMsg} (h : FormKept s u) : FormKept s (Machine.peekData m u) := by
  unfold Machine.peekData
  split
  · exact h.forShims.forWalks
  · exact h.protocol

theorem FormKept.execDP {m : CMsg} (h : FormKept s u) : ResKept s (Machine.execDP m u) := by
  unfold Machine.execDP
  exact h.deliver (fun _ hx => hx.peekData)

theorem FormKept.wbAt {k' : CKind} {h' : Fin 40} {m : CMsg} (h : FormKept s u) :
    FormKept s (Machine.wbAt k' h' m u) := by
  unfold Machine.wbAt
  dsimp only
  split
  · exact h.absorbWb
  · split
    · exact h.absorbWb.settleLine
    · split
      · exact h.matchWb
      · split
        · exact h.updSlice
        · exact h.updDir.send

theorem FormKept.execWbD {m : CMsg} {found : CacheFind} (h : FormKept s u) :
    ResKept s (Machine.execWbD m found u) := by
  unfold Machine.execWbD
  exact h.deliver (fun _ hx => hx.withFind (fun _ hx1 => hx1.homeOnly (fun _ _ hx2 => hx2.wbAt)))

theorem FormKept.execWbC {m : CMsg} {found : CacheFind} (h : FormKept s u) :
    ResKept s (Machine.execWbC m found u) := by
  unfold Machine.execWbC
  exact h.deliver (fun _ hx => hx.withFind (fun _ hx1 => hx1.homeOnly (fun _ _ hx2 => hx2.wbAt)))

theorem FormKept.execCohTimeout {a : Agent} {l : BitVec 42} (h : FormKept s u) :
    ResKept s (Machine.execCohTimeout a l u) := by
  unfold Machine.execCohTimeout
  dsimp only
  split
  · exact h
  · split
    · exact h
    · exact h.reportCoherence

theorem FormKept.execCoherenceErrorReport {p : Fin 8} {code : BitVec 8} {det : BitVec 6} {unit : Option Src}
    (h : FormKept s u) :
    ResKept s (Machine.execCoherenceErrorReport p code det unit u) := by
  unfold Machine.execCoherenceErrorReport
  exact h.reportCoherence

theorem FormKept.salvage {p : ℕ} {unreadable : List (Fin 40)} {sectors : List (BitVec 42)} (h : FormKept s u) :
    FormKept s (Machine.salvage p unreadable sectors u) := by
  unfold Machine.salvage
  dsimp only
  refine FormKept.each ?_ fun _ _ hx => ?_
  · refine FormKept.each h fun _ _ hx => ?_
    split
    · exact hx.cleanLine
    · exact hx
  · split
    · exact hx.setPoison
    · exact hx

theorem FormKept.execPartitionSalvage {p : Fin 8} {unreadable : List (Fin 40)} {sectors : List (BitVec 42)}
    (h : FormKept s u) :
    ResKept s (Machine.execPartitionSalvage p unreadable sectors u) := by
  unfold Machine.execPartitionSalvage
  split
  · exact h
  · exact h.salvage.updPart

theorem FormKept.dropMessages {p : ℕ} (h : FormKept s u) : FormKept s (Machine.dropMessages p u) := by
  exact h.frame

theorem FormKept.newSite {x : Src} {move : State → State} (h : FormKept s u) (hmove : ∀ x, FormKept s x → FormKept s
    (move x)) :
    FormKept s (Machine.newSite x move u) := by
  unfold Machine.newSite
  dsimp only
  split
  · exact (((hmove _ h).updSrc).wrightEvent).notice
  · exact ((hmove _ h).updSrc).wrightEvent

theorem FormKept.coreToSpare {c : ℕ} (h : FormKept s u) : FormKept s (Machine.coreToSpare c u) := by
  unfold Machine.coreToSpare
  dsimp only
  exact h.updBay

theorem FormKept.engineToSpare {e : ℕ} (h : FormKept s u) : FormKept s (Machine.engineToSpare e u) := by
  unfold Machine.engineToSpare
  exact h.updEngine.updEngine.updPw

theorem FormKept.toSpare {x : Src} (h : FormKept s u) : FormKept s (Machine.toSpare x u) := by
  unfold Machine.toSpare
  split
  · exact h.newSite (fun _ hx => hx.coreToSpare)
  · exact h.newSite (fun _ hx => hx.engineToSpare)
  · exact h

theorem FormKept.repairUnit {p : ℕ} {bayPasses : Bool} (h : FormKept s u) :
    FormKept s (Machine.repairUnit p bayPasses u) := by
  unfold Machine.repairUnit
  split
  · exact h
  · split
    · exact h.toSpare
    · exact h.updBay
  · split
    · exact h.toSpare.clearArea
    · exact h.updEngine
  · split
    · exact h
    · exact h.updBay.updPart

theorem FormKept.resetThreads {mine : ℕ → Bool} (h : FormKept s u) : FormKept s (Machine.resetThreads mine u) := by
  exact h.frame

theorem FormKept.resetBay {b : ℕ} (h : FormKept s u) : FormKept s (Machine.resetBay b u) := by
  unfold Machine.resetBay
  dsimp only
  exact ((FormKept.each h.updBay fun _ _ hx => hx.updCore.updPw).updSlice).clearArea

theorem FormKept.resetEngine {e : ℕ} (h : FormKept s u) : FormKept s (Machine.resetEngine e u) := by
  unfold Machine.resetEngine
  dsimp only
  exact h.updEngine

theorem FormKept.resetUnits {bays : BitVec 40} {engines : BitVec 64} {dmbox : BitVec 16} (h : FormKept s u) :
    FormKept s (Machine.resetUnits bays engines dmbox u) := by
  unfold Machine.resetUnits
  dsimp only
  refine FormKept.each (FormKept.each (FormKept.each h.resetThreads.updPw fun _ _ hx => hx.resetBay) fun _ _ hx => hx.resetEngine) fun _ _ hx => ?_
  split
  · exact hx.updBox
  · exact hx

theorem FormKept.execPartitionRestart {p : Fin 8} {bayPasses : Bool} (h : FormKept s u) :
    ResKept s (Machine.execPartitionRestart p bayPasses u) := by
  unfold Machine.execPartitionRestart
  dsimp only
  split
  · exact h
  · refine FormKept.settleMode ?_
    split
    · exact h.dropMessages.repairUnit.resetUnits.afterReset.updPart
    · exact h.dropMessages.repairUnit.resetUnits.afterReset.updPart.markSources

theorem FormKept.releaseRouter {x : Src} (h : FormKept s u) : FormKept s (Machine.releaseRouter x u) := by
  unfold Machine.releaseRouter
  dsimp only
  refine FormKept.each h.updPw fun _ _ hx => ?_
  split
  · exact hx.placeHeld
  · exact hx

theorem FormKept.answerRunning {code : ℕ} {a : Answer} (h : FormKept s u) :
    FormKept s (Machine.answerRunning code a u) := by
  unfold Machine.answerRunning
  split
  · exact h.respond
  · exact h

theorem FormKept.endSister {x : Src} {a : Answer} (h : FormKept s u) : FormKept s (Machine.endSister x a u) := by
  unfold Machine.endSister
  dsimp only
  exact h.updWr.answerRunning.releaseRouter

theorem FormKept.execSisterStepTimeout {u' : Src} (h : FormKept s u) :
    ResKept s (Machine.execSisterStepTimeout u' u) := by
  unfold Machine.execSisterStepTimeout
  split
  · split
    · exact h.endSister
    · split
      · exact h.reportCoherence.endSister
      · exact h
  · exact h

theorem FormKept.emptyL1 {c : ℕ} (h : FormKept s u) : FormKept s (Machine.emptyL1 c u) := by
  unfold Machine.emptyL1
  dsimp only
  exact (FormKept.each h.emptyL1d fun _ _ hx => hx.flushPredictors).updCore

theorem FormKept.loseMonitor {x : Src} (h : FormKept s u) : FormKept s (Machine.loseMonitor x u) := by
  unfold Machine.loseMonitor
  split
  · refine FormKept.each h fun _ _ hx => ?_
    refine FormKept.monDrop ?_
    split
    · split
      · exact hx.loseResv
      · exact hx
    · exact hx
  · exact h

theorem FormKept.execLiveSisterDrained {u' : Src} {failed : Bool} (h : FormKept s u) :
    ResKept s (Machine.execLiveSisterDrained u' failed u) := by
  unfold Machine.execLiveSisterDrained
  dsimp only
  split
  · exact h
  · split
    · exact h.endSister
    · split
      · split
        · exact h.reportCoherence.endSister
        · exact h
      · refine FormKept.settleMode ?_
        refine FormKept.endSister ?_
        refine FormKept.each ?_ fun _ _ hx => ?_
        · refine FormKept.updLed ?_
          refine FormKept.toSpare ?_
          refine FormKept.loseMonitor ?_
          refine FormKept.each ?_ fun _ _ hx => ?_
          · split
            · exact h.emptyL1
            · exact h
          · exact hx.loseResv
        · exact hx.updThr

theorem FormKept.execAdzeInterruptEntry {t : Fin 512} (h : FormKept s u) :
    ResKept s (Machine.execAdzeInterruptEntry t u) := by
  unfold Machine.execAdzeInterruptEntry
  dsimp only
  split
  · split
    · exact h.enterInterrupt
    · exact h
  · split
    · exact h.updThr
    · exact h

theorem FormKept.execStoreQueueSend {j : Fin 512} (h : FormKept s u) :
    ResKept s (Machine.execStoreQueueSend j u) := by
  unfold Machine.execStoreQueueSend
  exact h.releaseStore

theorem FormKept.scratchFinds {e : ℕ} {off : ℕ} {found : EccFind} (h : FormKept s u) :
    FormKept s (Machine.scratchFinds e off found u) := by
  unfold Machine.scratchFinds
  dsimp only
  split
  · exact h
  · exact h.updEngine
  · exact h.updEngine.poisonLine

theorem FormKept.execScratchScrub {e : Fin 64} {line : Option (BitVec 12)} {found : EccFind} (h : FormKept s u) :
    ResKept s (Machine.execScratchScrub e line found u) := by
  unfold Machine.execScratchScrub
  dsimp only
  split
  · exact h
  · split
    · exact h.scratchFinds
    · split
      · exact h
      · exact h.scratchFinds.updEngine

theorem FormKept.execAdzRunWrite {e : Fin 64} {v : Word} (h : FormKept s u) :
    ResKept s (Machine.execAdzRunWrite e v u) := by
  unfold Machine.execAdzRunWrite
  split
  · exact h.adzWrite
  · exact h

theorem FormKept.execAdzScrCtlWrite {e : Fin 64} {v : Word} (h : FormKept s u) :
    ResKept s (Machine.execAdzScrCtlWrite e v u) := by
  unfold Machine.execAdzScrCtlWrite
  split
  · exact h.adzWrite
  · exact h

theorem FormKept.through {b : Clk} {fabric : Bool} {bytes : ℕ} {c : XWhat} {run : State → Result} (h : FormKept s u)
    (hrun : ∀ x, FormKept s x → ResKept s (run x)) :
    ResKept s (Machine.through b fabric bytes c run u) := by
  unfold Machine.through
  split
  · exact h.enterCrossing
  · exact hrun _ h

theorem FormKept.pageWrite {i : Fin 256} {slot : ℕ} {vc1 : Bool} {act : Fin 1024 → State → State} (h : FormKept s u)
    (hact : ∀ a0 x, FormKept s x → FormKept s (act a0 x)) :
    FormKept s (Machine.pageWrite i slot vc1 act u) := by
  unfold Machine.pageWrite
  refine FormKept.ite h.updInst ?_
  split
  · exact h.updInst
  · exact hact _ _ h

theorem FormKept.refuseIngress {q : ℕ} {reason : BitVec 4} {value : BitVec 32} (h : FormKept s u) :
    FormKept s (Machine.refuseIngress q reason value u) := by
  unfold Machine.refuseIngress
  dsimp only
  split
  · exact h.updQueue.updEp
  · exact h.updQueue

theorem FormKept.acceptItem {q : Fin 1024} {item : List Byte} (h : FormKept s u) :
    FormKept s (Machine.acceptItem q item u) := by
  unfold Machine.acceptItem
  dsimp only
  split
  · exact h
  · exact h.updEntry.updQueue

theorem FormKept.acceptItems {q : Fin 1024} {n : ℕ} (h : FormKept s u) : FormKept s (Machine.acceptItems q n u) := by
  induction n generalizing u with
  | zero => exact h
  | succ n ih => exact ih h.acceptItem

theorem FormKept.ringQueue {q : Fin 1024} {i : ℕ} {v : Word} {whole : Bool} {frozen : Bool} (h : FormKept s u) :
    FormKept s (Machine.ringQueue q i v whole frozen u) := by
  unfold Machine.ringQueue
  dsimp only
  split
  · exact h.refuseIngress
  · exact h.acceptItems

theorem FormKept.execDoorbell {i : Fin 256} {slot : Fin 256} {v : Word} {whole : Bool} {vc1 : Bool}
    (h : FormKept s u) :
    ResKept s (Machine.execDoorbell i slot v whole vc1 u) := by
  unfold Machine.execDoorbell
  refine h.through (fun _ hx => ?_)
  split
  · exact hx
  · split
    · exact hx.freeze
    · exact hx.countBytes.pageWrite (fun _ _ hx1 => hx1.ringQueue)

theorem FormKept.inlineQueue {q : Fin 1024} {i : ℕ} {v : BitVec 512} {whole : Bool} {frozen : Bool}
    (h : FormKept s u) :
    FormKept s (Machine.inlineQueue q i v whole frozen u) := by
  unfold Machine.inlineQueue
  dsimp only
  split
  · exact h.refuseIngress
  · exact h.acceptItem

theorem FormKept.execInlineItem {i : Fin 256} {slot : Fin 256} {v : BitVec 512} {whole : Bool} {vc1 : Bool}
    (h : FormKept s u) :
    ResKept s (Machine.execInlineItem i slot v whole vc1 u) := by
  unfold Machine.execInlineItem
  refine h.through (fun _ hx => ?_)
  split
  · exact hx
  · split
    · exact hx.freeze
    · exact hx.countBytes.pageWrite (fun _ _ hx1 => hx1.inlineQueue)

theorem FormKept.startBuffer {e : ℕ} (h : FormKept s u) : FormKept s (Machine.startBuffer e u) := by
  unfold Machine.startBuffer
  dsimp only
  split
  · exact h
  · split
    · exact h.updEntry
    · exact h.endItem

theorem FormKept.queueReads {e : Fin 65536} {isDesc : Bool} {a : ℕ} {len : ℕ} (h : FormKept s u) :
    FormKept s (Machine.queueReads e isDesc a len u) := by
  unfold Machine.queueReads
  dsimp only
  exact h.updEp.pumpReads

theorem FormKept.beginItem {e : Fin 65536} {t : Thr} {c : BitVec 2} (h : FormKept s u) :
    FormKept s (Machine.beginItem e t c u) := by
  unfold Machine.beginItem
  dsimp only
  split
  · exact h.updEntry.dispVote.startBuffer
  · exact h.updEntry.dispVote.queueReads

theorem FormKept.execDispatchSelect {p : Fin 8} (h : FormKept s u) : ResKept s (Machine.execDispatchSelect p u) := by
  unfold Machine.execDispatchSelect
  dsimp only
  split
  · exact h
  · split
    · exact h
    · split
      · exact h.updPart.beginItem
      · exact h.updPart

theorem FormKept.execDescriptorReadDone {e : Fin 65536} (h : FormKept s u) :
    ResKept s (Machine.execDescriptorReadDone e u) := by
  unfold Machine.execDescriptorReadDone
  dsimp only
  split
  · exact h
  · split
    · exact h.endItem
    · exact h
    · split
      · split
        · exact h.updEntry.requeue
        · exact h.updEntry.endItem
      · split
        · exact h.updEntry.endItem
        · exact h.updEntry.updEntry.queueReads

theorem FormKept.execItemDataReadDone {e : Fin 65536} (h : FormKept s u) :
    ResKept s (Machine.execItemDataReadDone e u) := by
  unfold Machine.execItemDataReadDone
  dsimp only
  split
  · exact h
  · exact h.startBuffer

theorem FormKept.execItemBufferWritten {e : Fin 65536} {err : Option LostCause} (h : FormKept s u) :
    ResKept s (Machine.execItemBufferWritten e err u) := by
  unfold Machine.execItemBufferWritten
  dsimp only
  split
  · exact h
  · split
    · exact h
    · split
      · refine FormKept.endItem ?_
        split
        · exact h.freeBit.homeWrite
        · exact h.freeBit
      · exact h.homeWrite.updEntry.setHeld.updLed.acceptEvent

theorem FormKept.execItemDone {t : Thr} {gen : BitVec 16} {site : BitVec 7} {v : Word} {whole : Bool}
    (h : FormKept s u) :
    ResKept s (Machine.execItemDone t gen site v whole u) := by
  unfold Machine.execItemDone
  dsimp only
  split
  · exact h.staleDiscard
  · exact h.downDiscard
  · exact h.strayDiscard
  · split
    · refine FormKept.ledgerDone ?_
      split
      · exact h.removeOut
      · exact h
    · refine FormKept.countLate ?_
      split
      · exact h.removeOut
      · exact h

theorem FormKept.execRunLimitExpire {e : Fin 65536} (h : FormKept s u) :
    ResKept s (Machine.execRunLimitExpire e u) := by
  unfold Machine.execRunLimitExpire
  dsimp only
  split
  · exact h
  · split
    · exact h.endItem
    · exact h

theorem FormKept.execQueueWaitExpire {e : Fin 65536} (h : FormKept s u) :
    ResKept s (Machine.execQueueWaitExpire e u) := by
  unfold Machine.execQueueWaitExpire
  dsimp only
  split
  · exact h
  · split
    · exact h.endItem
    · exact h

theorem FormKept.execRecordDelivery {e : Fin 65536} (h : FormKept s u) :
    ResKept s (Machine.execRecordDelivery e u) := by
  unfold Machine.execRecordDelivery
  exact h.deliverRecord

theorem FormKept.execLedgerUe {_e : Fin 65536} {a : EccFind} {b : EccFind} (h : FormKept s u) :
    ResKept s (Machine.execLedgerUe _e a b u) := by
  unfold Machine.execLedgerUe
  dsimp only
  split
  · exact h.beginFlush
  · exact h.updLed

theorem FormKept.execEvSendWrite {t : Thr} {gen : BitVec 16} {site : BitVec 7} {v : Word} {whole : Bool}
    (h : FormKept s u) :
    ResKept s (Machine.execEvSendWrite t gen site v whole u) := by
  unfold Machine.execEvSendWrite
  dsimp only
  split
  · exact h.staleDiscard
  · exact h.downDiscard
  · split
    · exact h.sendEvent.markSent
    · exact h.sendEvent
    · exact h.sendEvent.accessLost
    · exact h.sendEvent.lostStore

theorem FormKept.execEvInjectWrite {t : Thr} {gs1 : BitVec 5} (h : FormKept s u) :
    ResKept s (Machine.execEvInjectWrite t gs1 u) := by
  unfold Machine.execEvInjectWrite
  exact h.mtsRow

theorem FormKept.execTimerFire {t : Thr} (h : FormKept s u) : ResKept s (Machine.execTimerFire t u) := by
  unfold Machine.execTimerFire
  dsimp only
  split
  · exact h
  · exact h.updThr.acceptEvent

theorem FormKept.execEventRecordWritten {t : Thr} (h : FormKept s u) :
    ResKept s (Machine.execEventRecordWritten t u) := by
  unfold Machine.execEventRecordWritten
  split
  · exact h
  · exact h.recordWritten

theorem FormKept.execHeldDispatchRelease {t : Thr} (h : FormKept s u) :
    ResKept s (Machine.execHeldDispatchRelease t u) := by
  unfold Machine.execHeldDispatchRelease
  dsimp only
  split
  · exact h
  · split
    · exact h
    · exact h.updThr

theorem FormKept.execEvqCtlWrite {t : Thr} {gs1 : BitVec 5} (h : FormKept s u) :
    ResKept s (Machine.execEvqCtlWrite t gs1 u) := by
  unfold Machine.execEvqCtlWrite
  exact h.mtsRow

theorem FormKept.execEvqTailWrite {t : Thr} {p : Fin 16} {gs1 : BitVec 5} (h : FormKept s u) :
    ResKept s (Machine.execEvqTailWrite t p gs1 u) := by
  unfold Machine.execEvqTailWrite
  exact h.mtsRow

theorem FormKept.openRow {c : ℕ} {x : Loc} (h : FormKept s u) : FormKept s (Machine.openRow c x u) := by
  unfold Machine.openRow
  exact h.updChan

theorem FormKept.peekFinds {c : ℕ} {x : Loc} {l : BitVec 42} {found : DramFind} (h : FormKept s u) :
    FormKept s (Machine.peekFinds c x l found u) := by
  unfold Machine.peekFinds
  dsimp only
  split
  · exact h
  · split
    · exact h.frame
    · exact h
  · split
    · exact h
    · exact h.frame

theorem FormKept.poisonPattern {c : ℕ} {x : Loc} {l : BitVec 42} {patrol : Bool} (h : FormKept s u) :
    FormKept s (Machine.poisonPattern c x l patrol u) := by
  unfold Machine.poisonPattern
  exact h.frame.noteError

theorem FormKept.startJob {c : ℕ} (h : FormKept s u) : FormKept s (Machine.startJob c u) := by
  unfold Machine.startJob
  exact h.updChan

theorem FormKept.queueJob {c : ℕ} {j : ChanJob} (h : FormKept s u) : FormKept s (Machine.queueJob c j u) := by
  unfold Machine.queueJob
  exact h.updChan.startJob

theorem FormKept.spareRankOf {c : ℕ} {r : BitVec 4} (h : FormKept s u) : FormKept s (Machine.spareRankOf c r u) := by
  unfold Machine.spareRankOf
  dsimp only
  split
  · exact h
  · exact h.queueJob

theorem FormKept.markDevice {c : ℕ} {r : BitVec 4} {dev : BitVec 6} (h : FormKept s u) :
    FormKept s (Machine.markDevice c r dev u) := by
  unfold Machine.markDevice
  dsimp only
  split
  · exact h.updChan.queueJob
  · exact h.updChan.spareRankOf

theorem FormKept.softRepair {c : ℕ} {l : BitVec 42} (h : FormKept s u) : FormKept s (Machine.softRepair c l u) := by
  unfold Machine.softRepair
  dsimp only
  split
  · exact h
  · split
    · exact h
    · exact h.updChan.queueJob

theorem FormKept.correctedAt {c : ℕ} {x : Loc} {l : BitVec 42} {dev : BitVec 6} {patrol : Bool} (h : FormKept s u) :
    FormKept s (Machine.correctedAt c x l dev patrol u) := by
  unfold Machine.correctedAt
  dsimp only
  split
  · refine FormKept.softRepair ?_
    split
    · refine FormKept.spareRankOf ?_
      split
      · exact h.updChan.noteError.markDevice
      · exact h.updChan.noteError
    · split
      · exact h.updChan.noteError.markDevice
      · exact h.updChan.noteError
  · split
    · refine FormKept.spareRankOf ?_
      split
      · exact h.updChan.noteError.markDevice
      · exact h.updChan.noteError
    · split
      · exact h.updChan.noteError.markDevice
      · exact h.updChan.noteError

theorem FormKept.uncorrectableAt {c : ℕ} {x : Loc} {l : BitVec 42} {dev : BitVec 6} {patrol : Bool}
    (h : FormKept s u) :
    FormKept s (Machine.uncorrectableAt c x l dev patrol u) := by
  unfold Machine.uncorrectableAt
  extract_lets s1 s2 s3 s4 i recent s5
  have h2 : FormKept s s2 := h.updChan.noteError
  have h4 : FormKept s s4 := by
    refine FormKept.ite h2 ?_
    split
    · exact h2.setPoison.partEvent
    · exact h2.setPoison
  have h5 : FormKept s s5 := FormKept.ite h4.softRepair h4
  exact FormKept.ite h5.retireChan h5

theorem FormKept.readFinds {c : ℕ} {x : Loc} {l : BitVec 42} {found : DramFind} {patrol : Bool} (h : FormKept s u) :
    FormKept s (Machine.readFinds c x l found patrol u) := by
  unfold Machine.readFinds
  dsimp only
  split
  · split
    · exact h.updChan
    · exact h
  · split
    · exact h.correctedAt.updChan
    · exact h.correctedAt
  · split
    · split
      · exact h.softRepair
      · exact h
    · exact h.uncorrectableAt

theorem FormKept.execDramRead {c : Fin 16} {line : BitVec 42} {found : DramFind} {peek : Bool} (h : FormKept s u) :
    ResKept s (Machine.execDramRead c line found peek u) := by
  refine h.through (fun _ hx => ?_)
  split
  · exact hx
  · extract_lets row other w inDram
    have k : FormKept s w := (FormKept.ite hx hx.openRow).countBytes
    exact ResKept.ite hx (ResKept.ite hx (ResKept.ite k.peekFinds (ResKept.ite k.poisonPattern k.readFinds)))

theorem FormKept.oldLine {n : ℕ} {o : Option (BitVec 512 × Bool)} (h : FormKept s u) :
    FormKept s { u with old := put none u.old n o } := h.trans ⟨memOk_old n o, rfl⟩

theorem FormKept.execDramWrite {c : Fin 16} {line : BitVec 42} {data : BitVec 512} {poison : Bool} (h : FormKept s u) :
    ResKept s (Machine.execDramWrite c line data poison u) := by
  unfold Machine.execDramWrite
  refine h.through (fun _ hx => ?_)
  split
  · exact hx
  · dsimp only
    split
    · exact hx
    · split
      · exact hx.updChan
      · split
        · exact hx
        · split
          · split
            · exact hx.openRow.countBytes.cleanLine
            · exact hx.openRow.countBytes.oldLine
          · exact hx.openRow.countBytes.writeLineData.setPoison

theorem FormKept.execRowIdleClose {c : Fin 16} {rank : BitVec 4} {bg : BitVec 2} {ba : BitVec 2} (h : FormKept s u) :
    ResKept s (Machine.execRowIdleClose c rank bg ba u) := by
  unfold Machine.execRowIdleClose
  dsimp only
  exact h.updChan

theorem FormKept.execRefresh {c : Fin 16} (h : FormKept s u) : ResKept s (Machine.execRefresh c u) := by
  unfold Machine.execRefresh
  dsimp only
  split
  · exact h.updChan
  · exact h

theorem FormKept.patrolBad {c : ℕ} {x : Loc} {l : BitVec 42} {dev : BitVec 6} (h : FormKept s u) :
    FormKept s (Machine.patrolBad c x l dev u) := by
  unfold Machine.patrolBad
  split
  · exact h.updChan.noteError
  · exact h.uncorrectableAt

theorem FormKept.patrolMate {c : ℕ} {x : Loc} {l : BitVec 42} {mate : DramFind} (h : FormKept s u) :
    FormKept s (Machine.patrolMate c x l mate u) := by
  unfold Machine.patrolMate
  dsimp only
  split
  · refine FormKept.updChan ?_
    split
    · exact h.softRepair
    · exact h
  · refine FormKept.updChan ?_
    refine FormKept.correctedAt ?_
    split
    · exact h.softRepair
    · exact h
  · refine FormKept.patrolBad ?_
    split
    · exact h.softRepair
    · exact h

theorem FormKept.execPatrolScrub {c : Fin 16} {found : DramFind} {mate : DramFind} (h : FormKept s u) :
    ResKept s (Machine.execPatrolScrub c found mate u) := by
  unfold Machine.execPatrolScrub
  extract_lets i ca w
  have k : FormKept s w := h.updChan.countBytes
  refine ResKept.ite h ?_
  split
  · exact k
  · extract_lets l
    split
    · exact k
    · extract_lets w'
      have k' : FormKept s w' := k.openRow
      split
      · exact ResKept.ite k'.patrolMate k'.patrolBad
      · exact k'.correctedAt
      · exact FormKept.ite k'.poisonPattern k'

theorem FormKept.execCaParityAlert {c : Fin 16} {line : BitVec 42} {retries : Fin 6} (h : FormKept s u) :
    ResKept s (Machine.execCaParityAlert c line retries u) := by
  unfold Machine.execCaParityAlert
  extract_lets v w
  have hv : FormKept s v := h.updChan
  have hw : FormKept s w := by
    unfold w
    split
    · exact hv.frame.noteError
    · exact hv
  exact ResKept.ite h (FormKept.ite hw.retireChan hw)

theorem FormKept.sweepTo {c : ℕ} {upTo : BitVec 42} {found : List (BitVec 42 × DramFind)} (h : FormKept s u) :
    FormKept s (Machine.sweepTo c upTo found u).2 := by
  unfold Machine.sweepTo
  dsimp only
  refine FormKept.each h.updChan fun _ _ hx => ?_
  split
  · split
    · exact hx.readFinds
    · exact hx
  · exact hx

theorem FormKept.endJob {c : ℕ} (h : FormKept s u) : FormKept s (Machine.endJob c u) := by
  unfold Machine.endJob
  exact h.updChan.startJob

theorem FormKept.execPairingSweepDone {c : Fin 16} {upTo : BitVec 42} {found : List (BitVec 42 × DramFind)}
    (h : FormKept s u) :
    ResKept s (Machine.execPairingSweepDone c upTo found u) := by
  unfold Machine.execPairingSweepDone
  dsimp only
  split
  · split
    · exact h.sweepTo.updChan.endJob
    · exact h.sweepTo
  · exact h

theorem FormKept.execSoftPprDone {c : Fin 16} (h : FormKept s u) : ResKept s (Machine.execSoftPprDone c u) := by
  unfold Machine.execSoftPprDone
  dsimp only
  split
  · refine FormKept.endJob ?_
    split
    · exact h.updChan.updWr
    · exact h.updChan.wrightEvent
  · exact h

theorem FormKept.execRankSpareCopyDone {c : Fin 16} {upTo : BitVec 42} {found : List (BitVec 42 × DramFind)}
    (h : FormKept s u) :
    ResKept s (Machine.execRankSpareCopyDone c upTo found u) := by
  unfold Machine.execRankSpareCopyDone
  dsimp only
  split
  · split
    · exact h.sweepTo.updChan.endJob
    · exact h.sweepTo
  · exact h

theorem FormKept.execChannelTrained {c : Fin 16} (h : FormKept s u) : ResKept s (Machine.execChannelTrained c u) := by
  unfold Machine.execChannelTrained
  dsimp only
  split
  · exact h
  · exact h.updChan.updWr.setReady

theorem FormKept.execChannelTrainingFail {c : Fin 16} (h : FormKept s u) :
    ResKept s (Machine.execChannelTrainingFail c u) := by
  unfold Machine.execChannelTrainingFail
  split
  · exact h
  · exact h.failTraining.settleMode

theorem FormKept.execPhyRelockTimeout {c : Fin 16} (h : FormKept s u) :
    ResKept s (Machine.execPhyRelockTimeout c u) := by
  unfold Machine.execPhyRelockTimeout
  split
  · exact h
  · exact h.retireChan

theorem FormKept.execResilverDone {c : Fin 16} {upTo : BitVec 42} {found : List (BitVec 42 × DramFind)}
    (h : FormKept s u) :
    ResKept s (Machine.execResilverDone c upTo found u) := by
  unfold Machine.execResilverDone
  dsimp only
  split
  · exact h
  · split
    · exact h.sweepTo
    · exact (FormKept.each h.sweepTo.endJob.updChan.setReady fun _ _ hx => hx.notice).settleMode

theorem FormKept.execPerstAssert (h : FormKept s u) : ResKept s (Machine.execPerstAssert u) := by
  unfold Machine.execPerstAssert
  split
  · exact h
  · exact h.pcieReset.updEp

theorem FormKept.execPerstDeassert (h : FormKept s u) : ResKept s (Machine.execPerstDeassert u) := by
  unfold Machine.execPerstDeassert
  dsimp only
  split
  · exact h
  · exact h.updEp

theorem FormKept.advertise {vc1 : Bool} (h : FormKept s u) : FormKept s (Machine.advertise vc1 u) := by
  unfold Machine.advertise
  exact h.emit

theorem FormKept.execLinkTrained {lanes : Fin 3} {rate : Fin 5} (h : FormKept s u) :
    ResKept s (Machine.execLinkTrained lanes rate u) := by
  unfold Machine.execLinkTrained
  dsimp only
  split
  · exact h
  · exact h.updEp.advertise.settleMode

theorem FormKept.execLinkDown (h : FormKept s u) : ResKept s (Machine.execLinkDown u) := by
  unfold Machine.execLinkDown
  split
  · exact h
  · exact h.linkDown.recordAer

theorem FormKept.execHotReset (h : FormKept s u) : ResKept s (Machine.execHotReset u) := by
  unfold Machine.execHotReset
  exact h.linkDown

theorem FormKept.cfgWrite {off : ℕ} {v : BitVec 32} {m : BitVec 32} (h : FormKept s u) :
    FormKept s (Machine.cfgWrite off v m u) := by
  have k {f g : Endpoint → Endpoint} : FormKept s (Machine.updEp g (Machine.updEp f u)) := h.updEp.updEp
  exact (FormKept.ite k.advertise k).pumpEndpoint

theorem FormKept.execConfigRequest {wr : Bool} {off : BitVec 10} {be : BitVec 4} {v : BitVec 32} (h : FormKept s u) :
    ResKept s (Machine.execConfigRequest wr off be v u) := by
  refine h.through (fun _ hx => ?_)
  refine ResKept.ite hx (ResKept.ite hx.emit ?_)
  exact ResKept.ite hx.updEp.countBytes.cfgWrite.emitHost hx.updEp.countBytes.emitHost

theorem FormKept.execTlpErrorFreeze {code : BitVec 8} (h : FormKept s u) :
    ResKept s (Machine.execTlpErrorFreeze code u) := by
  unfold Machine.execTlpErrorFreeze
  split
  · exact h.freeze
  · exact h

theorem FormKept.execFreezeForce (h : FormKept s u) : ResKept s (Machine.execFreezeForce u) := by
  unfold Machine.execFreezeForce
  refine h.through (fun _ hx => ?_)
  split
  · exact hx.freeze
  · exact hx

theorem FormKept.execFreezeRelease {count : BitVec 8} (h : FormKept s u) :
    ResKept s (Machine.execFreezeRelease count u) := by
  unfold Machine.execFreezeRelease
  refine h.through (fun _ hx => ?_)
  split
  · exact hx.releaseFreeze
  · exact hx

theorem FormKept.execEpNotifyWrite {v : Word} (h : FormKept s u) : ResKept s (Machine.execEpNotifyWrite v u) := by
  unfold Machine.execEpNotifyWrite
  refine h.through (fun _ hx => ?_)
  split
  · exact hx.writeEpNotify
  · exact hx

theorem FormKept.resetInst {i : ℕ} (h : FormKept s u) : FormKept s (Machine.resetInst i u) := by
  unfold Machine.resetInst
  dsimp only
  split
  · exact h
  · refine FormKept.afterReset ?_
    refine FormKept.updInst ?_
    refine FormKept.each h.frame fun _ _ hx => ?_
    split
    · exact hx.endItem
    · exact hx

theorem FormKept.execInstStatResetWrite {i : Fin 256} (h : FormKept s u) :
    ResKept s (Machine.execInstStatResetWrite i u) := by
  unfold Machine.execInstStatResetWrite
  refine h.through (fun _ hx => ?_)
  split
  · exact hx
  · exact hx.resetInst

theorem FormKept.readWhole {r : ReadRec} {bytes : List Byte} (h : FormKept s u) :
    FormKept s (Machine.readWhole r bytes u) := by
  unfold Machine.readWhole
  dsimp only
  split
  · exact FormKept.each h.updEp fun _ _ hx => hx.sendRsp
  · refine FormKept.pumpReads ?_
    split <;> exact h.updEp.updEntry

theorem FormKept.readCompletes {r : ReadRec} {st : CplStatus} {data : List Byte} (h : FormKept s u) :
    FormKept s (Machine.readCompletes r st data u) := by
  unfold Machine.readCompletes
  dsimp only
  split
  · exact h.recordAer.readFailed
  · exact h.recordAer.readFailed
  · exact h.recordAer.keepDead.readFailed
  · split
    · exact h.readWhole
    · exact h.updRead

theorem FormKept.freeDead {tag : BitVec 10} (h : FormKept s u) : FormKept s (Machine.freeDead tag u) := by
  unfold Machine.freeDead
  exact h.updEp

theorem FormKept.deadCompletion {d : BitVec 16 × Word × ℕ} {tag : BitVec 10} {last : Bool} {n : ℕ}
    (h : FormKept s u) :
    FormKept s (Machine.deadCompletion d tag last n u) := by
  unfold Machine.deadCompletion
  split
  · exact h.freeDead.pumpReads
  · exact h.updEp

theorem FormKept.execReadCompletion {tag : BitVec 10} {st : CplStatus} {data : List Byte} (h : FormKept s u) :
    ResKept s (Machine.execReadCompletion tag st data u) := by
  unfold Machine.execReadCompletion
  dsimp only
  refine h.through (fun _ hx => ?_)
  split
  · exact hx
  · split
    · exact hx.countBytes.readCompletes
    · exact hx.countBytes.deadCompletion
    · exact hx.countBytes.freeze

theorem FormKept.execCompletionTimeout {tag : BitVec 10} (h : FormKept s u) :
    ResKept s (Machine.execCompletionTimeout tag u) := by
  unfold Machine.execCompletionTimeout
  dsimp only
  split
  · exact h
  · split
    · split
      · exact h.recordAer.readFailed
      · exact h
    · split
      · split
        · exact h.freeDead.pumpReads
        · exact h
      · exact h

theorem FormKept.complete {success : Bool} {data : List Byte} (h : FormKept s u) :
    FormKept s (Machine.complete success data u) := by
  unfold Machine.complete
  exact h.emitHost

theorem FormKept.readRefused (h : FormKept s u) : FormKept s (Machine.readRefused u) := by
  unfold Machine.readRefused
  exact h.recordAer.complete

theorem FormKept.readHere {o : ℕ} {n : ℕ} {vc1 : Bool} (h : FormKept s u) :
    FormKept s (Machine.readHere o n vc1 u) := by
  unfold Machine.readHere
  split
  · exact h.readRefused
  · exact h.countBytes.complete

theorem FormKept.readOnes {n : ℕ} (h : FormKept s u) : FormKept s (Machine.readOnes n u) := by
  unfold Machine.readOnes
  exact h.countBytes.updEp.complete

theorem FormKept.sendHRd {n : Fin 64} {o : BitVec 26} {len : ℕ} {vc1 : Bool} (h : FormKept s u) :
    FormKept s (Machine.sendHRd n o len vc1 u) := by
  unfold Machine.sendHRd
  dsimp only
  split
  · exact h.countUnreach.readOnes
  · exact (h.takeTag.sendReq _ ‹_›).updEp

theorem FormKept.windowReadHere {n : Fin 64} {off : BitVec 26} {len : ℕ} {vc1 : Bool} (h : FormKept s u) :
    ResKept s (Machine.windowReadHere n off len vc1 u) := by
  unfold Machine.windowReadHere
  split
  · exact h
  · split
    · exact h.freeze
    · split
      · exact h.readRefused
      · split
        · exact h.readHere
        · split
          · exact h.readRefused
          · split
            · exact h.readOnes
            · exact h.sendHRd

theorem FormKept.execWindowRead {n : Fin 64} {off : BitVec 26} {len : ℕ} {vc1 : Bool} (h : FormKept s u) :
    ResKept s (Machine.execWindowRead n off len vc1 u) := by
  unfold Machine.execWindowRead
  dsimp only
  refine h.through (fun _ hx => ?_)
  split
  · exact hx.through (fun _ hx1 => hx1.windowReadHere)
  · exact hx.windowReadHere

theorem FormKept.countMisuse {o : ℕ} (h : FormKept s u) : FormKept s (Machine.countMisuse o u) := by
  unfold Machine.countMisuse
  split
  · exact h.updEp
  · exact h.updInst

theorem FormKept.ringHost {m : Mbox} {v : Word} {vc1 : Bool} (h : FormKept s u) :
    FormKept s (Machine.ringHost m v vc1 u) := by
  unfold Machine.ringHost
  exact h.ringBox

theorem FormKept.doorbellWrite {m : Mbox} {v : Word} {eight : Bool} {vc1 : Bool} (h : FormKept s u) :
    FormKept s (Machine.doorbellWrite m v eight vc1 u) := by
  unfold Machine.doorbellWrite
  split
  · exact h.ringHost
  · exact h.updBox

theorem FormKept.writeMsix {i : ℕ} {v : Word} {m : Word} (h : FormKept s u) :
    FormKept s (Machine.writeMsix i v m u) := by
  unfold Machine.writeMsix
  dsimp only
  exact h.updEp.flushMsi

theorem FormKept.hostRegWrite {o : ℕ} {v : Word} {m : Word} (h : FormKept s u) :
    FormKept s (Machine.hostRegWrite o v m u) := by
  unfold Machine.hostRegWrite
  split
  · exact h.writeMsix
  · exact h.sharedWrite

theorem FormKept.pieceWrite {o : ℕ} {l : List Byte} {whole : ℕ} {vc1 : Bool} {frozen : Bool} (h : FormKept s u) :
    FormKept s (Machine.pieceWrite o l whole vc1 frozen u) := by
  unfold Machine.pieceWrite
  dsimp only
  split
  · exact h.countMisuse
  · split
    · split
      · exact h.writeBoxPage
      · split
        · exact h.doorbellWrite
        · split
          · exact h
          · split
            · exact h
            · exact h.hostRegWrite
    · split
      · exact h
      · split
        · split
          · exact FormKept.each h fun _ _ hx => hx.pageWrite (fun _ _ hx1 => hx1.ringQueue)
          · split
            · exact h.pageWrite (fun _ _ hx => hx.inlineQueue)
            · split
              · exact h.resetInst
              · exact h
        · exact h

theorem FormKept.windowStore {o : ℕ} {l : List Byte} {vc1 : Bool} {frozen : Bool} (h : FormKept s u) :
    FormKept s (Machine.windowStore o l vc1 frozen u) := by
  unfold Machine.windowStore
  exact FormKept.each h fun _ _ hx => hx.pieceWrite

theorem FormKept.dropWrite (h : FormKept s u) : FormKept s (Machine.dropWrite u) := by
  unfold Machine.dropWrite
  exact h.updEp

theorem FormKept.sendHWr {n : Fin 64} {o : ℕ} {l : List Byte} {vc1 : Bool} {frozen : Bool} (h : FormKept s u) :
    FormKept s (Machine.sendHWr n o l vc1 frozen u) := by
  unfold Machine.sendHWr
  dsimp only
  split
  · exact h.countUnreach.dropWrite
  · exact h.takeTag.sendReq _ ‹_›

theorem FormKept.execWindowWrite {n : Fin 64} {off : BitVec 26} {data : List Byte} {vc1 : Bool} (h : FormKept s u) :
    ResKept s (Machine.execWindowWrite n off data vc1 u) := by
  unfold Machine.execWindowWrite
  dsimp only
  refine h.through (fun _ hx => ?_)
  split
  · exact hx
  · split
    · exact hx.freeze
    · split
      · exact hx.countBytes
      · split
        · exact hx.countBytes.updEp
        · split
          · exact hx.countBytes.windowStore
          · split
            · exact hx.countBytes.dropWrite
            · split
              · exact hx.countBytes
              · exact FormKept.each hx.countBytes fun _ _ hx1 => hx1.sendHWr

theorem FormKept.execWindowReadTimeout {tag : BitVec 16} (h : FormKept s u) :
    ResKept s (Machine.execWindowReadTimeout tag u) := by
  unfold Machine.execWindowReadTimeout
  split
  · exact h
  · split
    · exact h
    · exact h.updEp.closeReq.readOnes

theorem FormKept.throughBox {m : Mbox} {fabric : Bool} {bytes : ℕ} {c : XWhat} {run : State → Result}
    (h : FormKept s u) (hrun : ∀ x, FormKept s x → ResKept s (run x)) :
    ResKept s (Machine.throughBox m fabric bytes c run u) := by
  unfold Machine.throughBox
  split
  · exact h.through (fun _ hx => hrun _ hx)
  · exact hrun _ h
  · exact h.through (fun _ hx => hrun _ hx)

theorem FormKept.execMailboxPageWrite {m : Mbox} {t : Thr} {off : BitVec 12} {data : List Byte} {vc1 : Bool}
    (h : FormKept s u) :
    ResKept s (Machine.execMailboxPageWrite m t off data vc1 u) := by
  unfold Machine.execMailboxPageWrite
  dsimp only
  refine h.throughBox (fun _ hx => ?_)
  split
  · exact hx
  · split
    · split
      · exact hx.freeze
      · split
        · exact hx.countMisuse
        · exact hx.countBytes.writeBoxPage
    · split
      · exact hx.writeBoxPage
      · exact hx
    · exact hx.writeBoxPage

theorem FormKept.tryHoldDone {x : Port} (h : FormKept s u) : FormKept s (Machine.tryHoldDone x u) := by
  unfold Machine.tryHoldDone
  dsimp only
  split
  · exact h.updPort.sendControl
  · exact h

theorem FormKept.takeCredit {x : Port} {vc : BitVec 4} {cred : BitVec 4} (h : FormKept s u) :
    FormKept s (Machine.takeCredit x vc cred u) := by
  unfold Machine.takeCredit
  split
  · exact h
  · exact h.updPort

theorem FormKept.takeAck {x : Port} {ack : BitVec 9} (h : FormKept s u) : FormKept s (Machine.takeAck x ack u) := by
  unfold Machine.takeAck
  dsimp only
  split
  · exact h
  · exact h.updPort

theorem FormKept.takeHeader {f : Flit} (h : FormKept s u) : FormKept s (Machine.takeHeader f u) := by
  unfold Machine.takeHeader
  split
  · exact h
  · exact h.takeAck.takeCredit.tryHoldDone.pumpPort

theorem FormKept.unsequenced {f : Flit} {act : State → State} (h : FormKept s u)
    (hact : ∀ x, FormKept s x → FormKept s (act x)) :
    FormKept s (Machine.unsequenced f act u) := by
  unfold Machine.unsequenced
  split
  · exact h
  · exact hact _ h.takeHeader

theorem FormKept.execIdleFlit {f : Flit} (h : FormKept s u) : ResKept s (Machine.execIdleFlit f u) := by
  unfold Machine.execIdleFlit
  exact h.through (fun _ hx => hx.unsequenced (fun _ hx1 => hx1))

theorem FormKept.setPartner {x : Port} {id : BitVec 16} (h : FormKept s u) :
    FormKept s (Machine.setPartner x id u) := by
  unfold Machine.setPartner
  exact h.updPort

theorem FormKept.execSkipFlit {f : Flit} {id : BitVec 16} {prt : Port} (h : FormKept s u) :
    ResKept s (Machine.execSkipFlit f id prt u) := by
  unfold Machine.execSkipFlit
  dsimp only
  refine h.through (fun _ hx => ?_)
  refine hx.unsequenced (fun _ hx1 => ?_)
  split
  · exact hx1.setPartner.updPort.portDown.settleMode
  · exact hx1.setPartner.updPort

theorem FormKept.execSkipInsert {x : Port} (h : FormKept s u) : ResKept s (Machine.execSkipInsert x u) := by
  unfold Machine.execSkipInsert
  split
  · exact h
  · exact h.sendControl.updPort

theorem FormKept.resend {x : Port} (h : FormKept s u) : FormKept s (Machine.resend x u) := by
  unfold Machine.resend
  exact (FormKept.each h fun _ _ hx => hx.emitFlit).pumpPort

theorem FormKept.retrain {x : Port} (h : FormKept s u) : FormKept s (Machine.retrain x u) := by
  unfold Machine.retrain
  exact h.updPort

theorem FormKept.execNakFlit {f : Flit} {expected : BitVec 9} (h : FormKept s u) :
    ResKept s (Machine.execNakFlit f expected u) := by
  unfold Machine.execNakFlit
  dsimp only
  refine h.through (fun _ hx => ?_)
  refine hx.unsequenced (fun _ hx1 => ?_)
  split
  · exact hx1
  · split
    · exact hx1.takeAck.updPort.resend.retrain
    · exact hx1.takeAck.updPort.resend

theorem FormKept.execFlitError {x : Port} (h : FormKept s u) : ResKept s (Machine.execFlitError x u) := by
  unfold Machine.execFlitError
  dsimp only
  split
  · exact h
  · split
    · exact h.updPort
    · exact h.updPort.updPort.sendControl

theorem FormKept.execRidgeAckTimeout {x : Port} (h : FormKept s u) : ResKept s (Machine.execRidgeAckTimeout x u) := by
  unfold Machine.execRidgeAckTimeout
  dsimp only
  split
  · exact h.retrain
  · exact h

theorem FormKept.startLink {x : Port} (h : FormKept s u) : FormKept s (Machine.startLink x u) := by
  unfold Machine.startLink
  dsimp only
  exact FormKept.each h.updPort.sendControl fun _ _ hx => hx.emitFlit

theorem FormKept.notifyRing (h : FormKept s u) : FormKept s (Machine.notifyRing u) :=
  h.trans (sameMem_notifyRing).formKept

theorem FormKept.setLive {v : BitVec 64} (h : FormKept s u) : FormKept s (Machine.setLive v u) := by
  unfold Machine.setLive
  dsimp only
  split
  · exact h.updRidge
  · exact h.updRidge.updEp.notifyRing

theorem FormKept.linkLive {x : Port} {partner : BitVec 16} (h : FormKept s u) :
    FormKept s (Machine.linkLive x partner u) := by
  unfold Machine.linkLive
  dsimp only
  split
  · exact h.updRidge
  · exact h.setLive

theorem FormKept.holdEnds {x : Port} {id : BitVec 16} (h : FormKept s u) : FormKept s (Machine.holdEnds x id u) := by
  unfold Machine.holdEnds
  extract_lets leaves partner w w'
  have hw : FormKept s w := h.setPartner
  have hw' : FormKept s w' := hw.startLink
  exact FormKept.ite hw.portDown.settleMode (FormKept.ite hw' hw'.linkLive)

theorem FormKept.execInitFlit {f : Flit} {credits : BitVec 80} (h : FormKept s u) :
    ResKept s (Machine.execInitFlit f credits u) := by
  refine h.through (fun x hx => ResKept.ite hx ?_)
  extract_lets p k joined w all w'
  have hw : FormKept s w := by
    unfold w
    split
    · exact hx.holdEnds
    · exact FormKept.ite hx hx.startLink
  have hw' : FormKept s w' := hw.updPort
  exact ResKept.ite hw (FormKept.ite hw'.flood.deliverAll hw').pumpPort

theorem FormKept.execTimeSyncTimer {x : Port} (h : FormKept s u) : ResKept s (Machine.execTimeSyncTimer x u) := by
  unfold Machine.execTimeSyncTimer
  dsimp only
  split
  · exact h
  · exact h.updPort.sendControl

theorem FormKept.execTimeSync {f : Flit} {t1 : Word} (h : FormKept s u) :
    ResKept s (Machine.execTimeSync f t1 u) := by
  unfold Machine.execTimeSync
  refine h.through (fun _ hx => ?_)
  refine hx.unsequenced (fun _ hx1 => ?_)
  split
  · exact hx1.sendControl
  · exact hx1

theorem FormKept.execTimeResp {f : Flit} {t1 : Word} {t2 : Word} {t3 : Word} (h : FormKept s u) :
    ResKept s (Machine.execTimeResp f t1 t2 t3 u) := by
  unfold Machine.execTimeResp
  dsimp only
  refine h.through (fun _ hx => ?_)
  refine hx.unsequenced (fun _ hx1 => ?_)
  split
  · exact hx1
  · split
    · exact hx1.updPort.align
    · exact hx1.updPort

theorem FormKept.execJoinReq {f : Flit} {id : BitVec 16} (h : FormKept s u) :
    ResKept s (Machine.execJoinReq f id u) := by
  unfold Machine.execJoinReq
  dsimp only
  refine h.through (fun _ hx => ?_)
  refine hx.unsequenced (fun _ hx1 => ?_)
  split
  · exact hx1
  · exact hx1.updPort.tryHoldDone

theorem FormKept.execJoinReqRepeat {ns : Bool} (h : FormKept s u) : ResKept s (Machine.execJoinReqRepeat ns u) := by
  unfold Machine.execJoinReqRepeat
  dsimp only
  split
  · exact h
  · exact (FormKept.each h fun _ _ hx => hx.sendControl).updPair

theorem FormKept.execJoinSwitch {ns : Bool} (h : FormKept s u) : ResKept s (Machine.execJoinSwitch ns u) := by
  unfold Machine.execJoinSwitch
  dsimp only
  split
  · exact h
  · exact (FormKept.each h fun _ _ hx => hx.updPort).updPair

theorem FormKept.leaveUnused {x : Port} (h : FormKept s u) : FormKept s (Machine.leaveUnused x u) := by
  unfold Machine.leaveUnused
  exact h.updPort.setPortReady.settleMode

theorem FormKept.openPair {ns : Bool} (h : FormKept s u) : FormKept s (Machine.openPair ns u) := by
  unfold Machine.openPair
  dsimp only
  refine FormKept.settleMode ?_
  refine FormKept.deliverAll ?_
  refine FormKept.updPair ?_
  refine FormKept.each h fun _ _ hx => ?_
  split
  · exact hx.setPartner.leaveUnused
  · exact hx.setPartner.startLink.linkLive.setPortReady

theorem FormKept.execHoldDone {f : Flit} {id : BitVec 16} (h : FormKept s u) :
    ResKept s (Machine.execHoldDone f id u) := by
  refine h.through (fun _ hx => hx.unsequenced (fun y hy => ?_))
  extract_lets ns k low w
  have hw : FormKept s w := hy.updPair
  exact FormKept.ite (FormKept.ite hw.openPair hw) (FormKept.ite hy.sendControl hy)

theorem FormKept.sequenced {f : Flit} {n : ℕ} {act : State → State} (h : FormKept s u)
    (hact : ∀ x, FormKept s x → FormKept s (act x)) :
    FormKept s (Machine.sequenced f n act u) := by
  unfold Machine.sequenced
  dsimp only
  split
  · exact h
  · split
    · exact hact _ h.takeHeader.updPort.sendIdle
    · split
      · exact h.takeHeader
      · exact h.takeHeader.updPort.sendControl

theorem FormKept.execLeaveReq {f : Flit} {id : BitVec 16} (h : FormKept s u) :
    ResKept s (Machine.execLeaveReq f id u) := by
  unfold Machine.execLeaveReq
  dsimp only
  refine h.through (fun _ hx => ?_)
  refine hx.sequenced (fun _ hx1 => ?_)
  split
  · exact hx1.updPort.updRidge
  · exact hx1.updPort.setLive

theorem FormKept.execLeaveDrained {ns : Bool} (h : FormKept s u) : ResKept s (Machine.execLeaveDrained ns u) := by
  unfold Machine.execLeaveDrained
  dsimp only
  split
  · exact h
  · refine FormKept.updPair ?_
    refine FormKept.each h fun _ _ hx => ?_
    split
    · exact hx
    · refine FormKept.sendControl ?_
      refine FormKept.updPort ?_
      split
      · exact hx.sourceLost
      · exact hx

theorem FormKept.heldEvent (h : FormKept s u) : FormKept s (Machine.heldEvent u) := by
  unfold Machine.heldEvent
  split
  · exact h
  · split <;> exact h.updWr

theorem FormKept.logUrgent {m : Mbox} {status : BitVec 8} {scope : BitVec 2} {index : BitVec 10} {tEffect : Word}
    (h : FormKept s u) :
    FormKept s (Machine.logUrgent m status scope index tEffect u) := by
  unfold Machine.logUrgent
  dsimp only
  exact h.logEntry.heldEvent

theorem FormKept.fenceStep6 (h : FormKept s u) : FormKept s (Machine.fenceStep6 u) := by
  unfold Machine.fenceStep6
  dsimp only
  split
  · split
    · exact h
    · exact h.updPw.logUrgent.respond
  · exact h

theorem FormKept.execLeaveBypassSwitch {ns : Bool} (h : FormKept s u) :
    ResKept s (Machine.execLeaveBypassSwitch ns u) := by
  unfold Machine.execLeaveBypassSwitch
  split
  · exact h
  · exact h.closePair.settleMode.fenceStep6

theorem FormKept.takeRing {live : BitVec 64} (h : FormKept s u) : FormKept s (Machine.takeRing live u) := by
  unfold Machine.takeRing
  dsimp only
  refine FormKept.loseReqs ?_
  refine FormKept.updRidge ?_
  exact h.setLive.frame

theorem FormKept.discardStranded (h : FormKept s u) : FormKept s (Machine.discardStranded u) := by
  unfold Machine.discardStranded
  dsimp only
  exact FormKept.each h fun _ _ hx => ((FormKept.each hx fun _ _ hx1 => hx1.freeBuffer).updPort).updRidge

theorem FormKept.execRingState {f : Flit} {changes : BitVec 8} {live : BitVec 64} {frame : BitVec 16}
    {column : Bool} (h : FormKept s u) :
    ResKept s (Machine.execRingState f changes live frame column u) := by
  unfold Machine.execRingState
  dsimp only
  refine h.through (fun _ hx => ?_)
  refine hx.sequenced (fun _ hx1 => ?_)
  split
  · exact hx1
  · refine FormKept.deliverAll ?_
    refine FormKept.passOn ?_
    refine FormKept.pumpHeld ?_
    refine FormKept.discardStranded ?_
    split
    · exact hx1.markSeen.updRidge.topologyNotice.updRidge.loseReqs
    · split
      · exact hx1.markSeen.updRidge.topologyNotice.takeRing
      · exact hx1.markSeen.updRidge.topologyNotice.updRidge.loseReqs

theorem FormKept.partnerGone {x : Port} (h : FormKept s u) : FormKept s (Machine.partnerGone x u) := by
  unfold Machine.partnerGone
  dsimp only
  split
  · split
    · exact h.updRidge
    · exact h
  · exact h.setLive

theorem FormKept.execPortLockLoss {x : Port} (h : FormKept s u) : ResKept s (Machine.execPortLockLoss x u) := by
  unfold Machine.execPortLockLoss
  dsimp only
  split
  · exact h
  · refine FormKept.updPort ?_
    split
    · exact h.partnerGone.portDown
    · exact h.partnerGone.portDown.loseReqs

theorem FormKept.trainingEnds {x : Port} {spread : BitVec 3} (h : FormKept s u) :
    FormKept s (Machine.trainingEnds x spread u) := by
  unfold Machine.trainingEnds
  exact h.updPort

theorem FormKept.linkTrained {x : Port} {partner : BitVec 16} {pport : BitVec 2} (h : FormKept s u) :
    FormKept s (Machine.linkTrained x partner pport u) := by
  unfold Machine.linkTrained
  dsimp only
  split
  · exact h.setPartner.updPort.leaveUnused
  · exact h.setPartner.updPort.startLink.updPair.linkLive.setPortReady.flood.deliverAll.settleMode

theorem FormKept.execRidgeTrainingDone {x : Port} {partner : BitVec 16} {pport : Port} {spread : BitVec 3}
    (h : FormKept s u) :
    ResKept s (Machine.execRidgeTrainingDone x partner pport spread u) := by
  unfold Machine.execRidgeTrainingDone
  dsimp only
  split
  · exact h
  · split
    · exact h.trainingEnds.resend
    · exact h.trainingEnds.linkTrained

theorem FormKept.trainingFailed {x : Port} (h : FormKept s u) : FormKept s (Machine.trainingFailed x u) := by
  unfold Machine.trainingFailed
  dsimp only
  split
  · refine FormKept.failPort ?_
    refine FormKept.updPort ?_
    split
    · exact h.portDown
    · exact h
  · refine FormKept.updPort ?_
    split
    · exact h.portDown
    · exact h

theorem FormKept.execRidgeTrainingFail {x : Port} (h : FormKept s u) :
    ResKept s (Machine.execRidgeTrainingFail x u) := by
  unfold Machine.execRidgeTrainingFail
  split
  · exact h.trainingFailed
  · exact h

theorem FormKept.unreachableTo {op : BitVec 6} {src : BitVec 16} {cls : BitVec 2} {tag : BitVec 16}
    {addr : BitVec 64} (h : FormKept s u) :
    FormKept s (Machine.unreachableTo op src cls tag addr u) := by
  unfold Machine.unreachableTo
  dsimp only
  split
  · exact h.updRidge
  · exact h.countUnreach.sendRsp

theorem FormKept.arrive {op : BitVec 6} {m : RMsg} {act : RMsg → State → State} (h : FormKept s u)
    (hact : ∀ a0 x, FormKept s x → FormKept s (act a0 x)) :
    FormKept s (Machine.arrive op m act u) := by
  unfold Machine.arrive
  dsimp only
  split
  · split
    · exact hact _ _ h.freeBuffer
    · exact h.freeBuffer.unreachableTo
  · split
    · exact h.freeBuffer.unreachableTo
    · exact h.portSend
  · exact h.freeBuffer.unreachableTo

theorem FormKept.message {op : BitVec 6} {m : RMsg} {act : RMsg → State → State} (h : FormKept s u)
    (hact : ∀ a0 x, FormKept s x → FormKept s (act a0 x)) :
    FormKept s (Machine.message op m act u) := by
  unfold Machine.message
  dsimp only
  split
  · exact h.sequenced (fun _ hx => hx.countBytes.arrive (fun _ _ hx1 => hact _ _ hx1))
  · exact h.sequenced (fun _ hx => hx.countBytes.updPort)
  · refine h.sequenced (fun _ hx => ?_)
    split
    · exact hx.countBytes
    · split
      · exact hx.countBytes.updPort.arrive (fun _ _ hx1 => hact _ _ hx1)
      · exact hx.countBytes.updPort

theorem FormKept.answerMsg {m : RMsg} {op : BitVec 6} {st : BitVec 2} {poison : Bool} {data : List Byte}
    (h : FormKept s u) :
    FormKept s (Machine.answerMsg m op st poison data u) := by
  unfold Machine.answerMsg
  exact h.sendRsp

theorem FormKept.windowRead {m : RMsg} (h : FormKept s u) : FormKept s (Machine.windowRead m u) := by
  unfold Machine.windowRead
  dsimp only
  exact h.windowDone.answerMsg

theorem FormKept.execWRd {m : RMsg} (h : FormKept s u) : ResKept s (Machine.execWRd m u) := by
  unfold Machine.execWRd
  exact h.through (fun _ hx => hx.message (fun _ _ hx1 => hx1.windowRead))

theorem FormKept.windowWrite {m : RMsg} (h : FormKept s u) : FormKept s (Machine.windowWrite m u) := by
  unfold Machine.windowWrite
  dsimp only
  exact h.windowDone.answerMsg

theorem FormKept.execWWr {m : RMsg} (h : FormKept s u) : ResKept s (Machine.execWWr m u) := by
  unfold Machine.execWWr
  exact h.through (fun _ hx => hx.message (fun _ _ hx1 => hx1.windowWrite))

theorem FormKept.windowAnswer {m : RMsg} (h : FormKept s u) : FormKept s (Machine.windowAnswer m u) := by
  unfold Machine.windowAnswer
  dsimp only
  split
  · exact h
  · split
    · split
      · exact h.closeReq.countUnreach
      · exact h.closeReq
    · refine FormKept.windowEnds ?_
      split
      · exact h.closeReq.countUnreach
      · exact h.closeReq

theorem FormKept.execWRsp {m : RMsg} (h : FormKept s u) : ResKept s (Machine.execWRsp m u) := by
  unfold Machine.execWRsp
  exact h.through (fun _ hx => hx.message (fun _ _ hx1 => hx1.windowAnswer))

theorem FormKept.hostReadHere {m : RMsg} (h : FormKept s u) : FormKept s (Machine.hostReadHere m u) := by
  unfold Machine.hostReadHere
  dsimp only
  split
  · exact h.answerMsg
  · split <;> exact h.answerMsg

theorem FormKept.execHRd {m : RMsg} (h : FormKept s u) : ResKept s (Machine.execHRd m u) := by
  unfold Machine.execHRd
  exact h.through (fun _ hx => hx.message (fun _ _ hx1 => hx1.hostReadHere))

theorem FormKept.hostWriteHere {m : RMsg} (h : FormKept s u) : FormKept s (Machine.hostWriteHere m u) := by
  unfold Machine.hostWriteHere
  dsimp only
  split
  · exact h.answerMsg
  · exact h.windowStore.answerMsg

theorem FormKept.execHWr {m : RMsg} (h : FormKept s u) : ResKept s (Machine.execHWr m u) := by
  unfold Machine.execHWr
  exact h.through (fun _ hx => hx.message (fun _ _ hx1 => hx1.hostWriteHere))

theorem FormKept.hostAnswer {m : RMsg} (h : FormKept s u) : FormKept s (Machine.hostAnswer m u) := by
  unfold Machine.hostAnswer
  dsimp only
  split
  · exact h
  · split
    · split
      · split
        · exact h.closeReq.countUnreach
        · exact h.closeReq
      · refine FormKept.dropWrite ?_
        split
        · exact h.closeReq.countUnreach
        · exact h.closeReq
    · split
      · split
        · exact h.closeReq.countUnreach
        · exact h.closeReq
      · split
        · refine FormKept.complete ?_
          refine FormKept.countBytes ?_
          refine FormKept.updEp ?_
          split
          · exact h.closeReq.countUnreach
          · exact h.closeReq
        · split
          · refine FormKept.readRefused ?_
            refine FormKept.updEp ?_
            split
            · exact h.closeReq.countUnreach
            · exact h.closeReq
          · refine FormKept.readOnes ?_
            refine FormKept.updEp ?_
            split
            · exact h.closeReq.countUnreach
            · exact h.closeReq

theorem FormKept.execHRsp {m : RMsg} (h : FormKept s u) : ResKept s (Machine.execHRsp m u) := by
  unfold Machine.execHRsp
  exact h.through (fun _ hx => hx.message (fun _ _ hx1 => hx1.hostAnswer))

theorem FormKept.headRead {m : RMsg} (h : FormKept s u) : FormKept s (Machine.headRead m u) := by
  unfold Machine.headRead
  dsimp only
  split
  · exact h.answerMsg
  · exact h.updEp.pumpReads

theorem FormKept.execDRd {m : RMsg} (h : FormKept s u) : ResKept s (Machine.execDRd m u) := by
  unfold Machine.execDRd
  exact h.through (fun _ hx => hx.message (fun _ _ hx1 => hx1.headRead))

theorem FormKept.remoteData {m : RMsg} (h : FormKept s u) : FormKept s (Machine.remoteData m u) := by
  unfold Machine.remoteData
  extract_lets isIt w detail
  have hw : FormKept s w := h.closeReq
  split
  · exact h
  · extract_lets r? left w'
    have hw' : FormKept s w' := FormKept.ite hw h.updRidge
    split
    · cases r? with
      | none => exact hw
      | some r =>
        exact FormKept.ite hw.readFailed (FormKept.ite hw.countUnreach.readFailed (FormKept.ite hw.readFailed hw.readFailed))
    · cases r? with
      | none => exact hw'
      | some r => exact FormKept.ite hw'.readWhole hw'.updRead

theorem FormKept.execDDat {m : RMsg} (h : FormKept s u) : ResKept s (Machine.execDDat m u) := by
  unfold Machine.execDDat
  exact h.through (fun _ hx => hx.message (fun _ _ hx1 => hx1.remoteData))

theorem FormKept.headQueue {op : BitVec 6} {m : RMsg} (h : FormKept s u) : FormKept s (Machine.headQueue op m u) := by
  unfold Machine.headQueue
  dsimp only
  exact h.updRidge.pumpHead

theorem FormKept.execDWr {m : RMsg} (h : FormKept s u) : ResKept s (Machine.execDWr m u) := by
  unfold Machine.execDWr
  exact h.through (fun _ hx => hx.message (fun _ _ hx1 => hx1.headQueue))

theorem FormKept.disarm {e : ℕ} (h : FormKept s u) : FormKept s (Machine.disarm e u) := by
  unfold Machine.disarm
  exact h.updQueue

theorem FormKept.remoteAck {m : RMsg} (h : FormKept s u) : FormKept s (Machine.remoteAck m u) := by
  unfold Machine.remoteAck
  extract_lets isIt w1 w2
  have h2 : FormKept s w2 := FormKept.ite h.closeReq.countUnreach h.closeReq
  split
  · exact h
  · split
    · exact h2
    · extract_lets w3 w4 x
      have h3 : FormKept s w3 := h2.updRidge.updEntry
      have h4 : FormKept s w4 := h2.updEntry
      exact FormKept.ite (FormKept.ite h3.disarm h3) (FormKept.ite h4.notePoisonedResult.updEntry.sendRec h4)

theorem FormKept.execDAck {m : RMsg} (h : FormKept s u) : ResKept s (Machine.execDAck m u) := by
  unfold Machine.execDAck
  exact h.through (fun _ hx => hx.message (fun _ _ hx1 => hx1.remoteAck))

theorem FormKept.execRecMsg {m : RMsg} (h : FormKept s u) : ResKept s (Machine.execRecMsg m u) := by
  unfold Machine.execRecMsg
  exact h.through (fun _ hx => hx.message (fun _ _ hx1 => hx1.headQueue))

theorem FormKept.remoteDone {m : RMsg} (h : FormKept s u) : FormKept s (Machine.remoteDone m u) := by
  unfold Machine.remoteDone
  dsimp only
  split
  · exact h
  · split
    · split
      · exact h.closeReq.countUnreach
      · exact h.closeReq
    · split
      · refine FormKept.deliverQueue ?_
        refine FormKept.recordDone ?_
        refine FormKept.answerMsg ?_
        split
        · exact h.closeReq.countUnreach
        · exact h.closeReq
      · split
        · refine FormKept.disarm ?_
          refine FormKept.updEntry ?_
          split
          · exact h.closeReq.countUnreach
          · exact h.closeReq
        · refine FormKept.updEntry ?_
          split
          · exact h.closeReq.countUnreach
          · exact h.closeReq

theorem FormKept.execRAck {m : RMsg} (h : FormKept s u) : ResKept s (Machine.execRAck m u) := by
  unfold Machine.execRAck
  exact h.through (fun _ hx => hx.message (fun _ _ hx1 => hx1.remoteDone))

theorem FormKept.headRelease {m : RMsg} (h : FormKept s u) : FormKept s (Machine.headRelease m u) := by
  unfold Machine.headRelease
  exact h.updRidge.pumpHead

theorem FormKept.execRRel {m : RMsg} (h : FormKept s u) : ResKept s (Machine.execRRel m u) := by
  unfold Machine.execRRel
  exact h.through (fun _ hx => hx.message (fun _ _ hx1 => hx1.headRelease))

theorem FormKept.closeUnopened {ns : Bool} (h : FormKept s u) : FormKept s (Machine.closeUnopened ns u) := by
  unfold Machine.closeUnopened
  split
  · exact h
  · exact h.closePair

theorem FormKept.endFence {tEffect : Word} {n : ℕ} {m : Mbox} (h : FormKept s u) :
    FormKept s (Machine.endFence tEffect n m u) := by
  unfold Machine.endFence
  dsimp only
  exact h.updPw.leaveAll.closeUnopened.closeUnopened.fenceStep6

theorem FormKept.execFenceDeliveryDone (h : FormKept s u) : ResKept s (Machine.execFenceDeliveryDone u) := by
  unfold Machine.execFenceDeliveryDone
  split
  · split
    · exact h.endFence
    · exact h
  · exact h

theorem FormKept.execFenceDeliveryTimeout (h : FormKept s u) : ResKept s (Machine.execFenceDeliveryTimeout u) := by
  unfold Machine.execFenceDeliveryTimeout
  split
  · split
    · exact h.endFence
    · exact h
  · exact h

theorem FormKept.stopWright (h : FormKept s u) : FormKept s (Machine.stopWright u) := by
  unfold Machine.stopWright
  dsimp only
  refine FormKept.each h.updWr.setReady fun _ _ hx => ?_
  split
  · exact hx.finishBox
  · exact hx

theorem FormKept.noticeActive {index : BitVec 16} {payload : Word} (h : FormKept s u) :
    FormKept s (Machine.noticeActive index payload u) :=
  h.trans (sameMem_noticeActive _ _).formKept

theorem FormKept.restartWright {update : Bool} (h : FormKept s u) : FormKept s (Machine.restartWright update u) := by
  unfold Machine.restartWright
  dsimp only
  exact h.updWr.setReady.noticeActive

theorem FormKept.undoSister (h : FormKept s u) : FormKept s (Machine.undoSister u) := by
  unfold Machine.undoSister
  dsimp only
  exact (FormKept.each ((FormKept.each h fun _ _ hx => FormKept.each hx fun _ _ hx1 => hx1.updThr).updWr) fun _ _ hx => hx.releaseRouter).answerRunning

theorem FormKept.execWatchdogExpire (h : FormKept s u) : ResKept s (Machine.execWatchdogExpire u) := by
  unfold Machine.execWatchdogExpire
  dsimp only
  split
  · exact h
  · split
    · exact h.updWr.stopWright
    · refine FormKept.restartWright ?_
      refine FormKept.undoSister ?_
      split
      · exact h.updWr.updWr.respond
      · exact h.updWr

theorem FormKept.judgeSlot {b : Bool} (h : FormKept s u) : FormKept s (Machine.judgeSlot b u) := by
  unfold Machine.judgeSlot
  dsimp only
  exact h.updWr

theorem FormKept.applyBringup (h : FormKept s u) : FormKept s (Machine.applyBringup u) := by
  unfold Machine.applyBringup
  split
  · exact h
  · exact h.updPw

theorem FormKept.applyMailbox (h : FormKept s u) : FormKept s (Machine.applyMailbox u) := by
  unfold Machine.applyMailbox
  dsimp only
  split
  · exact h
  · exact FormKept.each h fun _ _ hx => hx.updBox

theorem FormKept.writeRidgeCfg {w : Word} (h : FormKept s u) : FormKept s (Machine.writeRidgeCfg w u) := by
  unfold Machine.writeRidgeCfg
  exact h.updRidge

theorem FormKept.writeRwin {k' : ℕ} {hi : Bool} {w : Word} (h : FormKept s u) :
    FormKept s (Machine.writeRwin k' hi w u) := by
  unfold Machine.writeRwin
  dsimp only
  exact h.updRidge

theorem FormKept.writeRacl {k' : ℕ} {hi : Bool} {w : Word} (h : FormKept s u) :
    FormKept s (Machine.writeRacl k' hi w u) := by
  unfold Machine.writeRacl
  dsimp only
  exact h.updRidge

theorem FormKept.applyRidge (h : FormKept s u) : FormKept s (Machine.applyRidge u) := by
  unfold Machine.applyRidge
  dsimp only
  split
  · exact h
  · exact FormKept.each (FormKept.each h.writeRidgeCfg.updRidge fun _ _ hx => hx.writeRwin.writeRwin) fun _ _ hx => hx.writeRacl.writeRacl

theorem FormKept.writeTherm {w : Word} (h : FormKept s u) : FormKept s (Machine.writeTherm w u) := by
  unfold Machine.writeTherm
  dsimp only
  exact h.updPw

theorem FormKept.applyVoltage (h : FormKept s u) : FormKept s (Machine.applyVoltage u) := by
  unfold Machine.applyVoltage
  dsimp only
  split
  · exact h
  · exact (FormKept.each h fun _ _ hx => hx.updDie).writeTherm

theorem FormKept.applyEndpoint (h : FormKept s u) : FormKept s (Machine.applyEndpoint u) := by
  unfold Machine.applyEndpoint
  dsimp only
  split
  · exact h
  · exact h.updPw

theorem FormKept.logUnused (h : FormKept s u) : FormKept s (Machine.logUnused u) := by
  unfold Machine.logUnused
  dsimp only
  exact FormKept.each h fun _ _ hx => hx.wrightEvent

theorem FormKept.makeInstance0 (h : FormKept s u) : FormKept s (Machine.makeInstance0 u) := by
  unfold Machine.makeInstance0
  dsimp only
  split <;> exact h.updInst

theorem FormKept.startRidge (h : FormKept s u) : FormKept s (Machine.startRidge u) := by
  unfold Machine.startRidge
  dsimp only
  split
  · exact (FormKept.each ((FormKept.each h fun _ _ hx => hx.updPort).updPair) fun _ _ hx => hx.updPort).updPair
  · exact (FormKept.each h fun _ _ hx => hx.updPort).updPair

theorem FormKept.writeMcCtl {c : ℕ} {w : Word} (h : FormKept s u) : FormKept s (Machine.writeMcCtl c w u) := by
  unfold Machine.writeMcCtl
  exact h.updChan

theorem FormKept.buildMap (h : FormKept s u) : FormKept s (Machine.buildMap u) := by
  unfold Machine.buildMap
  extract_lets named w given w' sets
  have hw : FormKept s w := by
    unfold w
    cases named with
    | some l => exact FormKept.each h fun _ _ hx => hx.writeMcCtl
    | none => exact h
  have hw' : FormKept s w' := FormKept.each hw fun _ _ hx => (FormKept.ite hx.wrightEvent hx).updChan
  clear_value w'
  exact hw'.frame

theorem FormKept.unitBits (h : FormKept s u) : FormKept s (Machine.unitBits u) := by
  unfold Machine.unitBits
  dsimp only
  exact h.setReady

theorem FormKept.firmwareSteps (h : FormKept s u) : FormKept s (Machine.firmwareSteps u) := by
  unfold Machine.firmwareSteps
  dsimp only
  refine FormKept.settleMode ?_
  refine FormKept.unitBits ?_
  refine FormKept.each ((FormKept.each h.logUnused.applyEndpoint.applyVoltage.applyRidge.applyMailbox.applyBringup.makeInstance0.updEp.buildMap.startRidge.requestRail fun _ _ hx => hx.requestRail).requestRail) fun _ _ hx => ?_
  split
  · exact hx.requestRail
  · exact hx

theorem FormKept.serveFrom {b : Bool} (h : FormKept s u) : FormKept s (Machine.serveFrom b u) := by
  unfold Machine.serveFrom
  dsimp only
  exact h.updWr.setReady

theorem FormKept.servingAgain {update : Bool} (h : FormKept s u) : FormKept s (Machine.servingAgain update u) := by
  unfold Machine.servingAgain
  dsimp only
  refine FormKept.noticeActive ?_
  refine FormKept.updWr ?_
  split
  · exact h.logEntry
  · exact h.logEntry.logEntry

theorem FormKept.execWrightServing (h : FormKept s u) : ResKept s (Machine.execWrightServing u) := by
  unfold Machine.execWrightServing
  dsimp only
  split
  · exact h
  · split
    · split
      · refine FormKept.firmwareSteps ?_
        refine FormKept.serveFrom ?_
        split
        · exact h.updPw.judgeSlot
        · exact h.updPw.judgeSlot.judgeSlot
      · split
        · exact h.updPw.judgeSlot
        · exact h.updPw.judgeSlot.judgeSlot
    · split
      · exact h
      · split
        · exact h.serveFrom.updWr.servingAgain.respond.firmwareSteps
        · exact h.serveFrom.updWr.servingAgain.respond
    · split
      · exact h.updWr.serveFrom.servingAgain.respond
      · exact h.updWr.updWr.respond
    · split
      · split
        · exact h.serveFrom.servingAgain
        · exact h
      · exact h
    · exact h

theorem FormKept.execMboxDoorbell {m : Mbox} {v : Word} {eight : Bool} {vc1 : Bool} (h : FormKept s u) :
    ResKept s (Machine.execMboxDoorbell m v eight vc1 u) := by
  unfold Machine.execMboxDoorbell
  dsimp only
  refine h.throughBox (fun _ hx => ?_)
  split
  · exact hx
  · split
    · split
      · exact hx.freeze
      · split
        · exact hx.countMisuse
        · exact hx.countBytes.doorbellWrite
    · exact hx
    · exact hx.doorbellWrite

theorem FormKept.execDmboxDoorbell {t : Thr} {m : Fin 16} {v : Word} {eight : Bool} (h : FormKept s u) :
    ResKept s (Machine.execDmboxDoorbell t m v eight u) := by
  unfold Machine.execDmboxDoorbell
  split
  · exact h
  · exact h.deviceWrite

theorem FormKept.execCommandComplete {m : Mbox} (h : FormKept s u) : ResKept s (Machine.execCommandComplete m u) := by
  unfold Machine.execCommandComplete
  dsimp only
  split
  · exact h
  · split
    · exact h
    · split
      · exact h.updWr.finishBox.beginFlush
      · exact h.updWr.finishBox

theorem FormKept.command {m : Mbox} {code : ℕ} {changes : Bool} {plenOk : MboxSt → ℕ → Bool}
    {body : MboxSt → State → Answer × State} (h : FormKept s u) (hbody : ∀ a0 x, FormKept s x → FormKept s
    (body a0 x).2) :
    ResKept s (Machine.command m code changes plenOk body u) := by
  unfold Machine.command
  dsimp only
  split
  · exact h
  · split
    · exact h.respond
    · split
      · exact h.respond
      · split
        · exact h.respond
        · exact (hbody _ _ h).respond

theorem FormKept.freeWord (h : FormKept s u) : FormKept s (Machine.freeWord u).2 := by
  exact h.frame

theorem FormKept.getIdentity (h : FormKept s u) : FormKept s (Machine.getIdentity u).2 := by
  unfold Machine.getIdentity
  split
  · exact h
  · exact h.frame

theorem FormKept.execGetIdentity {m : Mbox} (h : FormKept s u) : ResKept s (Machine.execGetIdentity m u) := by
  unfold Machine.execGetIdentity
  exact h.command (fun _ _ hx => hx.getIdentity)

theorem FormKept.execGetUnits {m : Mbox} (h : FormKept s u) : ResKept s (Machine.execGetUnits m u) := by
  unfold Machine.execGetUnits
  exact h.command (fun _ _ hx => hx)

theorem FormKept.getSource {m : Mbox} {b : MboxSt} (h : FormKept s u) : FormKept s (Machine.getSource m b u).2 := by
  unfold Machine.getSource
  dsimp only
  split
  · exact h
  · split
    · exact h
    · split <;> exact h

theorem FormKept.execGetSource {m : Mbox} (h : FormKept s u) : ResKept s (Machine.execGetSource m u) := by
  unfold Machine.execGetSource
  exact h.command (fun _ _ hx => hx.getSource)

theorem FormKept.partGet {m : Mbox} {b : MboxSt} (h : FormKept s u) : FormKept s (Machine.partGet m b u).2 := by
  unfold Machine.partGet
  dsimp only
  split
  · exact h
  · split <;> exact h

theorem FormKept.execPartGet {m : Mbox} (h : FormKept s u) : ResKept s (Machine.execPartGet m u) := by
  unfold Machine.execPartGet
  exact h.command (fun _ _ hx => hx.partGet)

theorem FormKept.cleanRanges {gs : List (BitVec 13)} (h : FormKept s u) : FormKept s (Machine.cleanRanges gs u) := by
  unfold Machine.cleanRanges
  dsimp only
  refine FormKept.dropCopiesIf ?_
  refine FormKept.each h fun _ _ hx => ?_
  split
  · exact hx.cleanLine
  · exact hx

theorem FormKept.giveUp {x : Layout} (h : FormKept s u) : FormKept s (Machine.giveUp x u) := by
  unfold Machine.giveUp
  dsimp only
  refine FormKept.each h fun _ _ hx => ?_
  split
  · exact hx
  · refine FormKept.notice ?_
    split
    · exact hx.updPart.updPart
    · exact hx.updPart

theorem FormKept.setLayout {x : Layout} (h : FormKept s u) : FormKept s (Machine.setLayout x u) := by
  unfold Machine.setLayout
  dsimp only
  refine FormKept.settleMode ?_
  refine FormKept.notice ?_
  split
  · exact h.cleanRanges.giveUp.applyLayout.updPart.resetUnits.markSources.markSources
  · exact h.cleanRanges.giveUp.applyLayout.updPart.resetUnits.markSources

theorem FormKept.partSet {b : MboxSt} (h : FormKept s u) : FormKept s (Machine.partSet b u).2 := by
  unfold Machine.partSet
  split
  · exact h
  · split
    · exact h
    · split
      · exact h
      · exact h.setLayout

theorem FormKept.execPartSet {m : Mbox} (h : FormKept s u) : ResKept s (Machine.execPartSet m u) := by
  unfold Machine.execPartSet
  exact h.command (fun _ _ hx => hx.partSet)

theorem FormKept.partStop {b : MboxSt} (h : FormKept s u) : FormKept s (Machine.partStop b u).2 := by
  unfold Machine.partStop
  dsimp only
  split
  · exact h
  · split
    · exact h
    · exact h.updPart.reportCoherence

theorem FormKept.execPartStop {m : Mbox} (h : FormKept s u) : ResKept s (Machine.execPartStop m u) := by
  unfold Machine.execPartStop
  exact h.command (fun _ _ hx => hx.partStop)

theorem FormKept.partStart {b : MboxSt} (h : FormKept s u) : FormKept s (Machine.partStart b u).2 := by
  unfold Machine.partStart
  dsimp only
  split
  · exact h
  · split
    · exact h
    · exact h.updPart

theorem FormKept.execPartStart {m : Mbox} (h : FormKept s u) : ResKept s (Machine.execPartStart m u) := by
  unfold Machine.execPartStart
  exact h.command (fun _ _ hx => hx.partStart)

theorem FormKept.partStandby {b : MboxSt} (h : FormKept s u) : FormKept s (Machine.partStandby b u).2 := by
  unfold Machine.partStandby
  dsimp only
  split
  · exact h
  · split
    · exact h
    · split
      · split
        · exact h
        · exact h.updPart
      · split
        · exact h
        · exact h.updPart

theorem FormKept.execPartStandby {m : Mbox} (h : FormKept s u) : ResKept s (Machine.execPartStandby m u) := by
  unfold Machine.execPartStandby
  exact h.command (fun _ _ hx => hx.partStandby)

theorem FormKept.freePart {p : ℕ} (h : FormKept s u) : FormKept s (Machine.freePart p u) := by
  unfold Machine.freePart
  dsimp only
  exact h.cleanRanges.dropMessages.markSources.resetUnits.setReady.updPart.settleMode

theorem FormKept.partFree {b : MboxSt} (h : FormKept s u) : FormKept s (Machine.partFree b u).2 := by
  unfold Machine.partFree
  dsimp only
  split
  · exact h
  · split
    · exact h
    · exact h.freePart

theorem FormKept.execPartFree {m : Mbox} (h : FormKept s u) : ResKept s (Machine.execPartFree m u) := by
  unfold Machine.execPartFree
  exact h.command (fun _ _ hx => hx.partFree)

theorem FormKept.execPwrGet {m : Mbox} (h : FormKept s u) : ResKept s (Machine.execPwrGet m u) := by
  unfold Machine.execPwrGet
  exact h.command (fun _ _ hx => hx)

theorem FormKept.vcoreSet {b : MboxSt} (h : FormKept s u) : FormKept s (Machine.vcoreSet b u).2 := by
  unfold Machine.vcoreSet
  dsimp only
  split
  · exact h
  · split
    · exact h.updDie
    · split
      · exact h
      · exact h.requestRail

theorem FormKept.execVcoreSet {m : Mbox} (h : FormKept s u) : ResKept s (Machine.execVcoreSet m u) := by
  unfold Machine.execVcoreSet
  split
  · exact h
  · exact h.command (fun _ _ hx => hx.vcoreSet)

theorem FormKept.hostVote {d : Dom} {v : Bool} (h : FormKept s u) : FormKept s (Machine.hostVote d v u) := by
  unfold Machine.hostVote
  split
  · exact h.updCore
  · exact h.updBay
  · exact h.updDie
  · exact h.updChan
  · exact h.updPort
  · exact h.updCluster

theorem FormKept.voteOn {m : Mbox} {b : MboxSt} (h : FormKept s u) : FormKept s (Machine.voteOn m b u).2 := by
  unfold Machine.voteOn
  dsimp only
  split
  · exact h
  · split
    · exact h
    · split
      · exact h
      · split
        · exact h
        · exact h.hostVote

theorem FormKept.execVote {m : Mbox} (h : FormKept s u) : ResKept s (Machine.execVote m u) := by
  unfold Machine.execVote
  exact h.command (fun _ _ hx => hx.voteOn)

theorem FormKept.braceRateSet {b : MboxSt} (h : FormKept s u) : FormKept s (Machine.braceRateSet b u).2 :=
  FormKept.ite_snd h h.updLed.pair

theorem FormKept.execBraceRate {m : Mbox} (h : FormKept s u) : ResKept s (Machine.execBraceRate m u) := by
  unfold Machine.execBraceRate
  exact h.command (fun _ _ hx => hx.braceRateSet)

theorem FormKept.quiesceOn (h : FormKept s u) : FormKept s (Machine.quiesceOn u).2 := by
  unfold Machine.quiesceOn
  split
  · exact h.updPw.settleMode
  · exact h

theorem FormKept.execQuiesce {m : Mbox} (h : FormKept s u) : ResKept s (Machine.execQuiesce m u) := by
  unfold Machine.execQuiesce
  exact h.command (fun _ _ hx => hx.quiesceOn)

theorem FormKept.quiesceOff (h : FormKept s u) : FormKept s (Machine.quiesceOff u).2 := by
  unfold Machine.quiesceOff
  split
  · exact h.updPw.settleMode
  · exact h

theorem FormKept.execResume {m : Mbox} (h : FormKept s u) : ResKept s (Machine.execResume m u) := by
  unfold Machine.execResume
  exact h.command (fun _ _ hx => hx.quiesceOff)

theorem FormKept.execWarmReset {m : Mbox} (h : FormKept s u) : ResKept s (Machine.execWarmReset m u) := by
  unfold Machine.execWarmReset
  exact h.command (fun _ _ hx => hx)

theorem FormKept.parkThread {t : Thr} (h : FormKept s u) : FormKept s (Machine.parkThread t u) := by
  unfold Machine.parkThread
  exact h.parkAt

theorem FormKept.sisterUnit {m : Mbox} {b : MboxSt} (h : FormKept s u) : FormKept s (Machine.sisterUnit m b u).2 := by
  unfold Machine.sisterUnit
  extract_lets w kind
  split
  · exact h
  · extract_lets w'
    have hw : FormKept s w' := FormKept.each h fun _ _ hx => hx.parkThread
    exact FormKept.ite_snd h (FormKept.ite_snd h (FormKept.ite_snd h (FormKept.ite_snd h hw.updWr.pair)))

theorem FormKept.execSister {m : Mbox} (h : FormKept s u) : ResKept s (Machine.execSister m u) := by
  unfold Machine.execSister
  exact h.command (fun _ _ hx => hx.sisterUnit)

theorem FormKept.setSpareSite {pass : Bool} {b : MboxSt} (h : FormKept s u) :
    FormKept s (Machine.setSpareSite pass b u).2 := by
  unfold Machine.setSpareSite
  dsimp only
  split
  · exact h
  · split
    · exact h
    · split <;> exact h.updBay

theorem FormKept.execSetSpare {m : Mbox} {pass : Bool} (h : FormKept s u) :
    ResKept s (Machine.execSetSpare m pass u) := by
  unfold Machine.execSetSpare
  exact h.command (fun _ _ hx => hx.setSpareSite)

theorem FormKept.chanRetire {b : MboxSt} (h : FormKept s u) : FormKept s (Machine.chanRetire b u).2 := by
  unfold Machine.chanRetire
  dsimp only
  split
  · exact h
  · split
    · exact h
    · exact h.retireChan

theorem FormKept.execChRetire {m : Mbox} (h : FormKept s u) : ResKept s (Machine.execChRetire m u) := by
  unfold Machine.execChRetire
  exact h.command (fun _ _ hx => hx.chanRetire)

theorem FormKept.beginResilver {c : ℕ} (h : FormKept s u) : FormKept s (Machine.beginResilver c u) := by
  unfold Machine.beginResilver
  exact h.updChan

theorem FormKept.chanRetrain {pass : Bool} {b : MboxSt} (h : FormKept s u) :
    FormKept s (Machine.chanRetrain pass b u).2 := by
  unfold Machine.chanRetrain
  dsimp only
  split
  · exact h
  · split
    · exact h
    · split
      · exact h
      · exact h.beginResilver.settleMode

theorem FormKept.execChRetrain {m : Mbox} {pass : Bool} (h : FormKept s u) :
    ResKept s (Machine.execChRetrain m pass u) := by
  unfold Machine.execChRetrain
  exact h.command (fun _ _ hx => hx.chanRetrain)

theorem FormKept.memRepairJob {b : MboxSt} (h : FormKept s u) : FormKept s (Machine.memRepairJob b u).2 := by
  unfold Machine.memRepairJob
  extract_lets w c act r l onIt t
  have ht : FormKept s t := FormKept.ite h.markDevice (FormKept.ite h.spareRankOf h.softRepair)
  exact FormKept.ite_snd h (FormKept.ite_snd h (FormKept.ite_snd h ht))

theorem FormKept.execMemRepair {m : Mbox} (h : FormKept s u) : ResKept s (Machine.execMemRepair m u) := by
  unfold Machine.execMemRepair
  exact h.command (fun _ _ hx => hx.memRepairJob)

theorem FormKept.portRetrainNow {pass : Bool} {b : MboxSt} (h : FormKept s u) :
    FormKept s (Machine.portRetrainNow pass b u).2 := by
  unfold Machine.portRetrainNow
  extract_lets x k w
  have hw : FormKept s w := FormKept.ite h.portDown h
  clear_value w
  refine FormKept.ite_snd h (FormKept.ite_snd h (FormKept.ite_snd ?_ (FormKept.ite_snd hw ?_)))
  · exact hw.trainingEnds.linkTrained.pair
  · exact hw.trainingFailed.pair

theorem FormKept.execPortRetrain {m : Mbox} {pass : Bool} (h : FormKept s u) :
    ResKept s (Machine.execPortRetrain m pass u) := by
  unfold Machine.execPortRetrain
  exact h.command (fun _ _ hx => hx.portRetrainNow)

theorem FormKept.execSlotInfo {m : Mbox} (h : FormKept s u) : ResKept s (Machine.execSlotInfo m u) := by
  unfold Machine.execSlotInfo
  dsimp only
  exact h.command (fun _ _ hx => hx)

theorem FormKept.slotWrite {b : MboxSt} (h : FormKept s u) : FormKept s (Machine.slotWrite b u).2 :=
  FormKept.ite_snd h (FormKept.ite_snd h h.updWr.pair)

theorem FormKept.execSlotWrite {m : Mbox} (h : FormKept s u) : ResKept s (Machine.execSlotWrite m u) := by
  unfold Machine.execSlotWrite
  exact h.command (fun _ _ hx => hx.slotWrite)

theorem FormKept.slotVerify {b : MboxSt} (h : FormKept s u) : FormKept s (Machine.slotVerify b u).2 := by
  refine FormKept.ite_snd h ?_
  dsimp only
  split
  · exact h.updWr.pair
  · exact h.updWr.pair

theorem FormKept.execSlotVerify {m : Mbox} (h : FormKept s u) : ResKept s (Machine.execSlotVerify m u) := by
  unfold Machine.execSlotVerify
  exact h.command (fun _ _ hx => hx.slotVerify)

theorem FormKept.activate {m : Mbox} {b : MboxSt} (h : FormKept s u) : FormKept s (Machine.activate m b u).2 :=
  FormKept.ite_snd h (FormKept.ite_snd h h.updWr.pair)

theorem FormKept.execActivate {m : Mbox} (h : FormKept s u) : ResKept s (Machine.execActivate m u) := by
  unfold Machine.execActivate
  exact h.command (fun _ _ hx => hx.activate)

theorem FormKept.execActivateRestart (h : FormKept s u) : ResKept s (Machine.execActivateRestart u) := by
  unfold Machine.execActivateRestart
  split
  · split
    · exact h
    · exact h.undoSister.updWr.restartWright
  · exact h

theorem FormKept.execActivateTimeout (h : FormKept s u) : ResKept s (Machine.execActivateTimeout u) := by
  unfold Machine.execActivateTimeout
  split
  · split
    · exact h
    · exact h.updWr
  · exact h

theorem FormKept.commit (h : FormKept s u) : FormKept s (Machine.commit u).2 := by
  unfold Machine.commit
  extract_lets st
  split
  · exact h
  · exact FormKept.ite_snd h h.updWr.pair

theorem FormKept.execCommit {m : Mbox} (h : FormKept s u) : ResKept s (Machine.execCommit m u) := by
  unfold Machine.execCommit
  exact h.command (fun _ _ hx => hx.commit)

theorem FormKept.settingsGet {b : MboxSt} (h : FormKept s u) : FormKept s (Machine.settingsGet b u).2 := by
  unfold Machine.settingsGet
  split
  · exact h
  · split <;> exact h

theorem FormKept.execSettingsGet {m : Mbox} (h : FormKept s u) : ResKept s (Machine.execSettingsGet m u) := by
  unfold Machine.execSettingsGet
  exact h.command (fun _ _ hx => hx.settingsGet)

theorem FormKept.instCreate {b : MboxSt} (h : FormKept s u) : FormKept s (Machine.instCreate b u).2 := by
  unfold Machine.instCreate
  dsimp only
  split
  · exact h
  · split
    · exact h
    · split
      · exact h
      · exact FormKept.updInst h

theorem FormKept.execInstCreate {m : Mbox} (h : FormKept s u) : ResKept s (Machine.execInstCreate m u) := by
  unfold Machine.execInstCreate
  exact h.command (fun _ _ hx => hx.instCreate)

theorem FormKept.instModify {b : MboxSt} (h : FormKept s u) : FormKept s (Machine.instModify b u).2 := by
  unfold Machine.instModify
  dsimp only
  split
  · exact h
  · split
    · exact h
    · split
      · exact h
      · exact FormKept.updInst h

theorem FormKept.execInstModify {m : Mbox} (h : FormKept s u) : ResKept s (Machine.execInstModify m u) := by
  unfold Machine.execInstModify
  exact h.command (fun _ _ hx => hx.instModify)

theorem FormKept.instDestroy {b : MboxSt} (h : FormKept s u) : FormKept s (Machine.instDestroy b u).2 := by
  unfold Machine.instDestroy
  dsimp only
  split
  · exact h
  · split
    · exact h
    · exact FormKept.updInst h

theorem FormKept.execInstDestroy {m : Mbox} (h : FormKept s u) : ResKept s (Machine.execInstDestroy m u) := by
  unfold Machine.execInstDestroy
  exact h.command (fun _ _ hx => hx.instDestroy)

theorem FormKept.instResetBy {b : MboxSt} (h : FormKept s u) : FormKept s (Machine.instResetBy b u).2 := by
  unfold Machine.instResetBy
  dsimp only
  split
  · exact h
  · split
    · exact h
    · exact FormKept.resetInst h

theorem FormKept.execInstReset {m : Mbox} (h : FormKept s u) : ResKept s (Machine.execInstReset m u) := by
  unfold Machine.execInstReset
  exact h.command (fun _ _ hx => hx.instResetBy)

theorem FormKept.servesQueue {p : ℕ} (h : FormKept s u) : FormKept s (Machine.servesQueue p u) := by
  unfold Machine.servesQueue
  exact h.updPart.settleMode

theorem FormKept.queueSetup {b : MboxSt} (h : FormKept s u) : FormKept s (Machine.queueSetup b u).2 := by
  unfold Machine.queueSetup
  dsimp only
  split
  · exact h
  · split
    · exact h
    · split
      · exact h
      · exact h.updQueue.updInst.servesQueue

theorem FormKept.execQueueSetup {m : Mbox} (h : FormKept s u) : ResKept s (Machine.execQueueSetup m u) := by
  unfold Machine.execQueueSetup
  exact h.command (fun _ _ hx => hx.queueSetup)

theorem FormKept.queueModify {b : MboxSt} (h : FormKept s u) : FormKept s (Machine.queueModify b u).2 := by
  unfold Machine.queueModify
  dsimp only
  split
  · exact h
  · split
    · exact h
    · split
      · exact h
      · split
        · exact h
        · split
          · exact h
          · exact h.updQueue.servesQueue

theorem FormKept.execQueueModify {m : Mbox} (h : FormKept s u) : ResKept s (Machine.execQueueModify m u) := by
  unfold Machine.execQueueModify
  exact h.command (fun _ _ hx => hx.queueModify)

theorem FormKept.rearm {q : ℕ} {i : ℕ} (h : FormKept s u) : FormKept s (Machine.rearm q i u) := by
  unfold Machine.rearm
  dsimp only
  exact h.updQueue.updInst.deliverQueue

theorem FormKept.queueEnable {b : MboxSt} (h : FormKept s u) : FormKept s (Machine.queueEnable b u).2 := by
  unfold Machine.queueEnable
  dsimp only
  split
  · exact h
  · split
    · exact h
    · split
      · exact h
      · split
        · exact h.rearm
        · exact h.updQueue

theorem FormKept.execQueueEnable {m : Mbox} (h : FormKept s u) : ResKept s (Machine.execQueueEnable m u) := by
  unfold Machine.execQueueEnable
  exact h.command (fun _ _ hx => hx.queueEnable)

theorem FormKept.queueRemove {b : MboxSt} (h : FormKept s u) : FormKept s (Machine.queueRemove b u).2 := by
  unfold Machine.queueRemove
  dsimp only
  split
  · exact h
  · split
    · exact h
    · split
      · exact h
      · exact h.updInst.updQueue

theorem FormKept.execQueueRemove {m : Mbox} (h : FormKept s u) : ResKept s (Machine.execQueueRemove m u) := by
  unfold Machine.execQueueRemove
  exact h.command (fun _ _ hx => hx.queueRemove)

theorem FormKept.setHostRoute {b : MboxSt} (h : FormKept s u) : FormKept s (Machine.setHostRoute b u).2 := by
  unfold Machine.setHostRoute
  dsimp only
  split
  · exact h
  · exact h.updEp.deliverAll.pumpEndpoint

theorem FormKept.execSetHostRoute {m : Mbox} (h : FormKept s u) : ResKept s (Machine.execSetHostRoute m u) := by
  unfold Machine.execSetHostRoute
  exact h.command (fun _ _ hx => hx.setHostRoute)

theorem FormKept.logRead {b : MboxSt} (h : FormKept s u) : FormKept s (Machine.logRead b u).2 := by
  unfold Machine.logRead
  dsimp only
  split
  · exact h
  · split
    · exact h
    · exact h.freeWord

theorem FormKept.execLogRead {m : Mbox} (h : FormKept s u) : ResKept s (Machine.execLogRead m u) := by
  unfold Machine.execLogRead
  exact h.command (fun _ _ hx => hx.logRead)

theorem FormKept.recordWords {l : List Nat} {a : List Byte} (h : FormKept s u) :
    FormKept s (l.foldl (fun (acc : List Byte × State) e =>
      (acc.1 ++ recordBytes acc.2 (entry acc.2 e), { acc.2 with fresh := acc.2.fresh + 8 })) (a, u)).2 := by
  induction l generalizing a u with
  | nil => exact h
  | cons e l ih => exact ih h.frame

theorem FormKept.heldRecordsGet {b : MboxSt} (h : FormKept s u) : FormKept s (Machine.heldRecordsGet b u).2 := by
  unfold Machine.heldRecordsGet
  dsimp only
  split
  · exact h
  · exact h.recordWords

theorem FormKept.execHeldRecords {m : Mbox} (h : FormKept s u) : ResKept s (Machine.execHeldRecords m u) := by
  unfold Machine.execHeldRecords
  exact h.command (fun _ _ hx => hx.heldRecordsGet)

theorem FormKept.execModeHistory {m : Mbox} (h : FormKept s u) : ResKept s (Machine.execModeHistory m u) := by
  unfold Machine.execModeHistory
  exact h.command (fun _ _ hx => hx)

theorem FormKept.regRead {b : MboxSt} (h : FormKept s u) : FormKept s (Machine.regRead b u).2 := by
  unfold Machine.regRead
  dsimp only
  split <;> exact h

theorem FormKept.execRegRead {m : Mbox} (h : FormKept s u) : ResKept s (Machine.execRegRead m u) := by
  unfold Machine.execRegRead
  exact h.command (fun _ _ hx => hx.regRead)

theorem FormKept.attest {b : MboxSt} (h : FormKept s u) : FormKept s (Machine.attest b u).2 := by
  unfold Machine.attest
  dsimp only
  exact h

theorem FormKept.execAttest {m : Mbox} (h : FormKept s u) : ResKept s (Machine.execAttest m u) := by
  unfold Machine.execAttest
  exact h.command (fun _ _ hx => hx.attest)

theorem FormKept.execGetIdKey {m : Mbox} (h : FormKept s u) : ResKept s (Machine.execGetIdKey m u) := by
  unfold Machine.execGetIdKey
  exact h.command (fun _ _ hx => hx)

theorem FormKept.quenchScope {v : Bool} {m : Mbox} {b : MboxSt} (h : FormKept s u) :
    FormKept s (Machine.quenchScope v m b u).2 := by
  unfold Machine.quenchScope
  extract_lets w scope ix qs n w'
  have hw : FormKept s w' := FormKept.each h fun _ _ hx => hx.updQueue
  clear_value w'
  exact FormKept.ite_snd h hw.logUrgent.pair

theorem FormKept.execQuench {m : Mbox} (h : FormKept s u) : ResKept s (Machine.execQuench m u) := by
  unfold Machine.execQuench
  split
  · exact h
  · exact h.command (fun _ _ hx => hx.quenchScope)

theorem FormKept.execRelease {m : Mbox} (h : FormKept s u) : ResKept s (Machine.execRelease m u) := by
  unfold Machine.execRelease
  split
  · exact h
  · exact h.command (fun _ _ hx => hx.quenchScope)

theorem FormKept.beginFence {m : Mbox} (h : FormKept s u) : FormKept s (Machine.beginFence m u) := by
  unfold Machine.beginFence
  dsimp only
  exact h.updPw.settleMode.stopAll.failAll.updPw

theorem FormKept.fenceNow {m : Mbox} (h : FormKept s u) : FormKept s (Machine.fenceNow m u).2 := by
  unfold Machine.fenceNow
  split
  · exact h.logUrgent
  · exact h.beginFence

theorem FormKept.execFenceSelf {m : Mbox} (h : FormKept s u) : ResKept s (Machine.execFenceSelf m u) := by
  unfold Machine.execFenceSelf
  split
  · exact h
  · exact h.command (fun _ _ hx => hx.fenceNow)

theorem FormKept.badTransfer (h : FormKept s u) : FormKept s (Machine.badTransfer u) := by
  unfold Machine.badTransfer
  exact h.updWr

theorem FormKept.setOffset {o : ℕ} (h : FormKept s u) : FormKept s (Machine.setOffset o u) := by
  unfold Machine.setOffset
  exact h.updWr

theorem FormKept.execSmbusSetOffset {data : List Byte} {pecOk : Bool} (h : FormKept s u) :
    ResKept s (Machine.execSmbusSetOffset data pecOk u) := by
  unfold Machine.execSmbusSetOffset
  refine h.through (fun _ hx => ?_)
  split
  · exact hx
  · split
    · exact hx.badTransfer
    · exact hx.setOffset

theorem FormKept.execSmbusBlockRead {n : ℕ} {pecOk : Bool} (h : FormKept s u) :
    ResKept s (Machine.execSmbusBlockRead n pecOk u) := by
  unfold Machine.execSmbusBlockRead
  dsimp only
  refine h.through (fun _ hx => ?_)
  split
  · exact hx
  · split
    · exact hx.badTransfer
    · exact hx.emit.setOffset

theorem FormKept.mgmtPiece {o : ℕ} {l : List Byte} (h : FormKept s u) : FormKept s (Machine.mgmtPiece o l u) := by
  unfold Machine.mgmtPiece
  split
  · exact h.writeBoxPage
  · split
    · exact h.writeBoxPage
    · split
      · exact h.doorbellWrite
      · split
        · exact h.doorbellWrite
        · exact h

theorem FormKept.mgmtWrite {o : ℕ} {l : List Byte} (h : FormKept s u) : FormKept s (Machine.mgmtWrite o l u) := by
  unfold Machine.mgmtWrite
  exact FormKept.each h fun _ _ hx => hx.mgmtPiece

theorem FormKept.execSmbusBlockWrite {data : List Byte} {pecOk : Bool} (h : FormKept s u) :
    ResKept s (Machine.execSmbusBlockWrite data pecOk u) := by
  unfold Machine.execSmbusBlockWrite
  dsimp only
  refine h.through (fun _ hx => ?_)
  split
  · exact hx
  · split
    · exact hx.badTransfer
    · exact hx.mgmtWrite.setOffset

theorem FormKept.execI3cPrivateWrite {data : List Byte} (h : FormKept s u) :
    ResKept s (Machine.execI3cPrivateWrite data u) := by
  unfold Machine.execI3cPrivateWrite
  dsimp only
  refine h.through (fun _ hx => ?_)
  split
  · exact hx
  · split
    · exact hx.badTransfer
    · exact hx.mgmtWrite.setOffset

theorem FormKept.execI3cPrivateRead {n : ℕ} (h : FormKept s u) : ResKept s (Machine.execI3cPrivateRead n u) := by
  unfold Machine.execI3cPrivateRead
  dsimp only
  refine h.through (fun _ hx => ?_)
  split
  · exact hx
  · split
    · exact hx.badTransfer
    · exact hx.emit.setOffset

theorem FormKept.execI3cDynamicAddress {a : BitVec 7} (h : FormKept s u) :
    ResKept s (Machine.execI3cDynamicAddress a u) := by
  unfold Machine.execI3cDynamicAddress
  split
  · exact h.updWr
  · exact h

theorem FormKept.retain {t : Thr} {keep : Thread} (h : FormKept s u) : FormKept s (Machine.retain t keep u) := by
  unfold Machine.retain
  exact h.setThr.updPw

theorem FormKept.execCoreDrop {c : Fin 160} (h : FormKept s u) : ResKept s (Machine.execCoreDrop c u) := by
  unfold Machine.execCoreDrop
  dsimp only
  split
  · exact h
  · exact (FormKept.each (FormKept.each h.emptyL1 fun _ _ hx => hx.loseResv) fun _ _ hx => hx.retain).updCore

theorem FormKept.loseWays {b : ℕ} (h : FormKept s u) : FormKept s (Machine.loseWays b u) := by
  unfold Machine.loseWays
  dsimp only
  refine FormKept.each h fun _ _ hx => ?_
  split
  · exact hx
  · exact hx.clearArea.updBay

theorem FormKept.execBayDrop {b : Fin 40} (h : FormKept s u) : ResKept s (Machine.execBayDrop b u) := by
  unfold Machine.execBayDrop
  dsimp only
  split
  · exact h
  · split
    · refine FormKept.each h fun _ _ hx => ?_
      split
      · exact hx.l2Evict
      · exact hx
    · refine FormKept.updBay ?_
      refine FormKept.loseWays ?_
      refine FormKept.each ?_ fun _ _ hx => ?_
      · refine FormKept.each h fun _ _ hx => ?_
        split
        · exact hx.l2Evict
        · exact hx
      · exact hx.loseResv

theorem FormKept.dropCluster {k' : ℕ} (h : FormKept s u) : FormKept s (Machine.dropCluster k' u) := by
  unfold Machine.dropCluster
  dsimp only
  exact ((FormKept.each h fun _ _ hx => hx.loseResv.retain).clearArea).updCluster

theorem FormKept.dropDie {d : ℕ} (h : FormKept s u) : FormKept s (Machine.dropDie d u) := by
  unfold Machine.dropDie
  exact h.updDie.dieBits

theorem FormKept.execDomainDrop {d : Dom} (h : FormKept s u) : ResKept s (Machine.execDomainDrop d u) := by
  unfold Machine.execDomainDrop
  split
  · exact h
  · split
    · exact h.execCoreDrop
    · exact h.execBayDrop
    · split
      · exact h.dropCluster
      · exact h
    · split
      · exact h.dropDie
      · exact h
    · split
      · exact h.updChan
      · exact h
    · split
      · exact h.updPort
      · exact h

theorem FormKept.wakeCore {c : ℕ} (h : FormKept s u) : FormKept s (Machine.wakeCore c u) := by
  unfold Machine.wakeCore
  dsimp only
  split
  · exact h
  · exact FormKept.each h.updBay.updCore fun _ _ hx => hx.restoreThread

theorem FormKept.execDomainWake {d : Dom} (h : FormKept s u) : ResKept s (Machine.execDomainWake d u) := by
  unfold Machine.execDomainWake
  split
  · exact h
  · split
    · split
      · exact h.wakeCore
      · exact h
    · split
      · exact h.updBay
      · exact h
    · split
      · exact h.wakeCluster
      · exact h
    · split
      · exact h.updDie
      · exact h
    · split
      · exact h.updChan
      · exact h
    · split
      · exact h.updPort
      · exact h

theorem FormKept.execPmcCtlWrite {t : Thr} {n : Fin 6} {gs1 : BitVec 5} (h : FormKept s u) :
    ResKept s (Machine.execPmcCtlWrite t n gs1 u) := by
  unfold Machine.execPmcCtlWrite
  exact h.mtsRow

theorem FormKept.execPmcWrite {t : Thr} {n : Fin 7} {gs1 : BitVec 5} (h : FormKept s u) :
    ResKept s (Machine.execPmcWrite t n gs1 u) := by
  unfold Machine.execPmcWrite
  exact h.mtsRow

theorem FormKept.execBwWindowEnd (h : FormKept s u) : ResKept s (Machine.execBwWindowEnd u) := by
  unfold Machine.execBwWindowEnd
  dsimp only
  split
  · exact h
  · exact h.frame

theorem FormKept.writeBwCtl {v : Word} (h : FormKept s u) : FormKept s (Machine.writeBwCtl v u) := by
  exact h.frame

theorem FormKept.execBwCtlWrite {v : Word} (h : FormKept s u) : ResKept s (Machine.execBwCtlWrite v u) := by
  unfold Machine.execBwCtlWrite
  split
  · exact h.writeBwCtl
  · exact h

theorem FormKept.writeCohCtl {p : ℕ} {w : Word} (h : FormKept s u) : FormKept s (Machine.writeCohCtl p w u) := by
  unfold Machine.writeCohCtl
  dsimp only
  exact h.updPart

theorem FormKept.writeRegion {k' : ℕ} {w : Word} (h : FormKept s u) : FormKept s (Machine.writeRegion k' w u) := by
  exact h.frame

theorem FormKept.writeIoSlew {w : Word} (h : FormKept s u) : FormKept s (Machine.writeIoSlew w u) := by
  unfold Machine.writeIoSlew
  exact h.updPw

theorem FormKept.writeQueueReg {q : ℕ} {i : ℕ} {w : Word} (h : FormKept s u) :
    FormKept s (Machine.writeQueueReg q i w u) := by
  unfold Machine.writeQueueReg
  dsimp only
  exact h.updQueue

theorem FormKept.wrightWrite {o : ℕ} {v : Word} {m : Word} (h : FormKept s u) :
    FormKept s (Machine.wrightWrite o v m u) :=
  FormKept.ite (FormKept.ite h.writeCohCtl h) <| FormKept.ite h.updLed <| FormKept.ite (FormKept.ite h.writeMcCtl h) <|
  FormKept.ite (FormKept.ite h.writeRegion h) <| FormKept.ite h.writeRidgeCfg <| FormKept.ite h.updRidge <|
  FormKept.ite h.writeRwin <| FormKept.ite h.writeRacl <| FormKept.ite h.writeTherm <| FormKept.ite h.writeIoSlew <|
  FormKept.ite h.writeBwCtl <| FormKept.ite h.writeQueueReg h

theorem FormKept.execRegisterWrite {who : Writer} {addr : BitVec 48} {size : Fin 4} {v : Word} (h : FormKept s u) :
    ResKept s (Machine.execRegisterWrite who addr size v u) := by
  unfold Machine.execRegisterWrite
  dsimp only
  split
  · exact h
  · split
    · refine h.through (fun _ hx => ?_)
      split
      · exact hx
      · exact hx.countBytes.hostRegWrite
    · split
      · exact h
      · exact h.deviceWrite
    · split
      · split
        · exact h.wrightWrite
        · exact h
      · exact h
    · exact h

theorem FormKept.stateAfter {r : Result} (h : FormKept s u) (hr : ResKept s r) :
    FormKept s (Machine.stateAfter r u) := by
  cases r with
  | next v => exact hr
  | fault _ => exact h
  | refused _ => exact h

theorem FormKept.messageActs {op : BitVec 6} {m : RMsg} (h : FormKept s u) : ResKept s (Machine.messageActs op m u) :=
  ResKept.ite h.execWRd <| ResKept.ite h.execWWr <| ResKept.ite h.execWRsp <| ResKept.ite h.execHRd <|
  ResKept.ite h.execHWr <| ResKept.ite h.execHRsp <| ResKept.ite h.execDRd <| ResKept.ite h.execDDat <|
  ResKept.ite h.execDWr <| ResKept.ite h.execDAck <| ResKept.ite h.execRecMsg <| ResKept.ite h.execRAck <|
  ResKept.ite h.execRRel h

theorem FormKept.leaveCrossing {e : XEnt} (h : FormKept s u) : FormKept s (Machine.leaveCrossing e u) := by
  unfold Machine.leaveCrossing
  split
  · exact h.ringTaken
  · exact h.stateAfter h.execDramRead
  · exact h.stateAfter h.execDramWrite
  · exact h.stateAfter h.execConfigRequest
  · exact h.stateAfter h.execReadCompletion
  · exact h.stateAfter h.execDoorbell
  · exact h.stateAfter h.execInlineItem
  · exact h.stateAfter h.execEpNotifyWrite
  · exact h.stateAfter h.execInstStatResetWrite
  · exact h.stateAfter h.execWindowRead
  · exact h.stateAfter h.execWindowWrite
  · exact h.stateAfter h.execMailboxPageWrite
  · exact h.stateAfter h.execMboxDoorbell
  · exact h.stateAfter h.execRegisterWrite
  · exact h.stateAfter h.execIdleFlit
  · exact h.stateAfter h.execSkipFlit
  · exact h.stateAfter h.execNakFlit
  · exact h.stateAfter h.execInitFlit
  · exact h.stateAfter h.execTimeSync
  · exact h.stateAfter h.execTimeResp
  · exact h.stateAfter h.execJoinReq
  · exact h.stateAfter h.execHoldDone
  · exact h.stateAfter h.execLeaveReq
  · exact h.stateAfter h.execRingState
  · exact h.stateAfter h.messageActs
  · exact h.stateAfter h.execFreezeForce
  · exact h.stateAfter h.execFreezeRelease
  · exact h.emitHost
  · exact h.emitFlit
  · exact h.stateAfter h.execSmbusSetOffset
  · exact h.stateAfter h.execSmbusBlockRead
  · exact h.stateAfter h.execSmbusBlockWrite
  · exact h.stateAfter h.execI3cPrivateWrite
  · exact h.stateAfter h.execI3cPrivateRead

theorem FormKept.emptyCrossing {b : Clk} (h : FormKept s u) : FormKept s (Machine.emptyCrossing b u) := by
  unfold Machine.emptyCrossing
  dsimp only
  exact FormKept.each h.updCrossing fun _ _ hx => hx.leaveCrossing

theorem FormKept.execPllRelock {b : Clk} (h : FormKept s u) : ResKept s (Machine.execPllRelock b u) := by
  unfold Machine.execPllRelock
  dsimp only
  split
  · exact h.setClock.emptyCrossing.pumpEndpoint
  · exact h.setClock.emptyCrossing.pumpPort
  · exact h.setClock.emptyCrossing

theorem FormKept.execRailRecovery {r : Rail} {mv : BitVec 16} (h : FormKept s u) :
    ResKept s (Machine.execRailRecovery r mv u) := by
  unfold Machine.execRailRecovery
  extract_lets k w1 x above w2 w3
  have h1 : FormKept s w1 := h.measure
  have h3 : FormKept s w3 := FormKept.ite h1.updRail.updDie h1.updRail
  exact ResKept.ite h (ResKept.ite (FormKept.ite h1.updRail h1) (FormKept.ite h3.retrainEndpoint h3).settleMode)

theorem FormKept.execResetNChange {level : Bool} (h : FormKept s u) :
    ResKept s (Machine.execResetNChange level u) := by
  unfold Machine.execResetNChange
  split
  · exact h
  · exact h.updPw

theorem FormKept.failSite {b : ℕ} {site : ℕ} (h : FormKept s u) : FormKept s (Machine.failSite b site u) := by
  unfold Machine.failSite
  dsimp only
  refine FormKept.each h.updBay fun _ _ hx => ?_
  split
  · exact hx
  · split
    · split
      · exact hx.toSpare
      · exact hx.updBay
    · exact hx

theorem FormKept.execSelfTestDone {d : Fin 4} {badSites : List (Fin 10 × Fin 5)} {badBays : BitVec 10}
    {badClusters : BitVec 4} (h : FormKept s u) :
    ResKept s (Machine.execSelfTestDone d badSites badBays badClusters u) := by
  unfold Machine.execSelfTestDone
  dsimp only
  split
  · exact h
  · exact ((((FormKept.each (FormKept.each (FormKept.each (FormKept.each h fun _ _ hx => hx.failSite) fun _ _ hx => hx.updBay) fun _ _ hx => FormKept.each hx fun _ _ hx1 => hx1.updEngine) fun _ _ hx => hx.updCluster).updDie).dieBits).unitBits).settleMode

theorem FormKept.startThread {t : Thr} {pc : Word} {p : ℕ} {reason : BitVec 2} {cause : BitVec 8} (h : FormKept s u) :
    FormKept s (Machine.startThread t pc p reason cause u) := by
  unfold Machine.startThread
  dsimp only
  exact h.setThr

theorem FormKept.readyParts {p : ℕ} (h : FormKept s u) : FormKept s (Machine.readyParts p u) := by
  unfold Machine.readyParts
  dsimp only
  exact h.setReady

theorem FormKept.startPartition {p : ℕ} {x : Monitor} (h : FormKept s u) :
    FormKept s (Machine.startPartition p x u) := by
  unfold Machine.startPartition
  dsimp only
  exact (((FormKept.each (FormKept.each h.hubWrite.markSources fun _ _ hx => hx.startThread) fun _ _ hx => (FormKept.each hx fun _ _ hx1 => hx1.updCore).updBay).updPart).readyParts).settleMode

theorem FormKept.execMonitorImageLoaded {p : Fin 8} {copied : Bool} {digestOk : Bool} (h : FormKept s u) :
    ResKept s (Machine.execMonitorImageLoaded p copied digestOk u) := by
  unfold Machine.execMonitorImageLoaded
  dsimp only
  split
  · exact h
  · split
    · exact h.takeLayout
    · split
      · exact h.takeLayout
      · split
        · exact h.takeLayout.failStart
        · split
          · exact h.takeLayout.failStart
          · exact h.takeLayout.startPartition

theorem FormKept.exec (c : Instr) (h : FormKept s u) : ResKept s (Machine.exec c u) := by
  cases c with
  | sillPowerUp => exact FormKept.execSillPowerUp h
  | sillPowerLoss => exact FormKept.execSillPowerLoss h
  | pwrgoodDeassert => exact FormKept.execPwrgoodDeassert h
  | pwrgoodAssert _ => exact FormKept.execPwrgoodAssert h
  | strapLatch _ => exact FormKept.execStrapLatch h
  | resetNDebounce => exact FormKept.execResetNDebounce h
  | warmResetEffect => exact FormKept.execWarmResetEffect h
  | bringupStart => exact FormKept.execBringupStart h
  | bringupDone => exact FormKept.execBringupDone h
  | bringupTimeout => exact FormKept.execBringupTimeout h
  | railWarning _ _ => exact FormKept.execRailWarning h
  | bracedExit => exact FormKept.execBracedExit h
  | vcoreResetCrossing _ _ => exact FormKept.execVcoreResetCrossing h
  | vhubResetCrossing _ => exact FormKept.execVhubResetCrossing h
  | vio18ResetCrossing _ => exact FormKept.execVio18ResetCrossing h
  | vddqResetCrossing _ _ => exact FormKept.execVddqResetCrossing h
  | vserdesResetCrossing _ => exact FormKept.execVserdesResetCrossing h
  | dieStall _ _ => exact FormKept.execDieStall h
  | dieResume _ _ => exact FormKept.execDieResume h
  | dieRailRecovered _ _ => exact FormKept.execDieRailRecovered h
  | thermalSample _ _ _ _ _ => exact FormKept.execThermalSample h
  | thermalLimitClear => exact FormKept.execThermalLimitClear h
  | throttleStep _ => exact FormKept.execThrottleStep h
  | dimmTempSample _ _ _ => exact FormKept.execDimmTempSample h
  | regulatorAck _ _ => exact FormKept.execRegulatorAck h
  | regulatorAckTimeout _ => exact FormKept.execRegulatorAckTimeout h
  | neighbourLinkFail _ _ => exact FormKept.execNeighbourLinkFail h
  | hubLinkFail _ _ => exact FormKept.execHubLinkFail h
  | beatWindowEnd _ _ => exact FormKept.execBeatWindowEnd h
  | beatMonClr _ => exact FormKept.execBeatMonClr h
  | clockStop _ => exact FormKept.execClockStop h
  | sillClockTick => exact FormKept.execSillClockTick h
  | refLost => exact FormKept.execRefLost h
  | refRestored => exact FormKept.execRefRestored h
  | ptmRefresh _ => exact FormKept.execPtmRefresh h
  | interruptEntry _ => exact FormKept.execInterruptEntry h
  | add _ _ => exact FormKept.execAdd h
  | sub _ _ => exact FormKept.execSub h
  | and _ _ => exact FormKept.execAnd h
  | or _ _ => exact FormKept.execOr h
  | xor _ _ => exact FormKept.execXor h
  | andn _ _ => exact FormKept.execAndn h
  | sll _ _ => exact FormKept.execSll h
  | srl _ _ => exact FormKept.execSrl h
  | sra _ _ => exact FormKept.execSra h
  | rotr _ _ => exact FormKept.execRotr h
  | slt _ _ => exact FormKept.execSlt h
  | sltu _ _ => exact FormKept.execSltu h
  | min _ _ => exact FormKept.execMin h
  | max _ _ => exact FormKept.execMax h
  | minu _ _ => exact FormKept.execMinu h
  | maxu _ _ => exact FormKept.execMaxu h
  | addw _ _ => exact FormKept.execAddw h
  | subw _ _ => exact FormKept.execSubw h
  | clz _ _ => exact FormKept.execClz h
  | ctz _ _ => exact FormKept.execCtz h
  | popc _ _ => exact FormKept.execPopc h
  | bswap _ _ => exact FormKept.execBswap h
  | sextb _ _ => exact FormKept.execSextb h
  | sexth _ _ => exact FormKept.execSexth h
  | sextw _ _ => exact FormKept.execSextw h
  | zextw _ _ => exact FormKept.execZextw h
  | cmovz _ _ => exact FormKept.execCmovz h
  | cmovnz _ _ => exact FormKept.execCmovnz h
  | addi _ _ => exact FormKept.execAddi h
  | andi _ _ => exact FormKept.execAndi h
  | ori _ _ => exact FormKept.execOri h
  | xori _ _ => exact FormKept.execXori h
  | slti _ _ => exact FormKept.execSlti h
  | sltui _ _ => exact FormKept.execSltui h
  | shi _ _ => exact FormKept.execShi h
  | ins _ _ => exact FormKept.execIns h
  | mul _ _ => exact FormKept.execMul h
  | mulhs _ _ => exact FormKept.execMulhs h
  | mulhu _ _ => exact FormKept.execMulhu h
  | mulw _ _ => exact FormKept.execMulw h
  | div _ _ => exact FormKept.execDiv h
  | divu _ _ => exact FormKept.execDivu h
  | rem _ _ => exact FormKept.execRem h
  | remu _ _ => exact FormKept.execRemu h
  | dadd _ _ => exact FormKept.execDadd h
  | dsub _ _ => exact FormKept.execDsub h
  | dcmp _ _ => exact FormKept.execDcmp h
  | dcvtBd _ _ => exact FormKept.execDcvtBd h
  | dcvtDb _ _ => exact FormKept.execDcvtDb h
  | dmulk _ _ => exact FormKept.execDmulk h
  | fadd _ _ => exact FormKept.execFadd h
  | fsub _ _ => exact FormKept.execFsub h
  | fmul _ _ => exact FormKept.execFmul h
  | fdiv _ _ => exact FormKept.execFdiv h
  | fsqrt _ _ => exact FormKept.execFsqrt h
  | fmadd _ _ => exact FormKept.execFmadd h
  | fmsub _ _ => exact FormKept.execFmsub h
  | fmin _ _ => exact FormKept.execFmin h
  | fmax _ _ => exact FormKept.execFmax h
  | fabs _ _ => exact FormKept.execFabs h
  | fneg _ _ => exact FormKept.execFneg h
  | fcpysgn _ _ => exact FormKept.execFcpysgn h
  | fceq _ _ => exact FormKept.execFceq h
  | fclt _ _ => exact FormKept.execFclt h
  | fcle _ _ => exact FormKept.execFcle h
  | fclass _ _ => exact FormKept.execFclass h
  | fcvtGF _ _ => exact FormKept.execFcvtGF h
  | fcvtGuF _ _ => exact FormKept.execFcvtGuF h
  | fcvtFG _ _ => exact FormKept.execFcvtFG h
  | fcvtFGu _ _ => exact FormKept.execFcvtFGu h
  | fcvtSd _ _ => exact FormKept.execFcvtSd h
  | fmvGF _ _ => exact FormKept.execFmvGF h
  | fmvFG _ _ => exact FormKept.execFmvFG h
  | ldb _ _ => exact FormKept.execLdb h
  | ldh _ _ => exact FormKept.execLdh h
  | ldw _ _ => exact FormKept.execLdw h
  | ldd _ _ => exact FormKept.execLdd h
  | ldbs _ _ => exact FormKept.execLdbs h
  | ldhs _ _ => exact FormKept.execLdhs h
  | ldws _ _ => exact FormKept.execLdws h
  | fls _ _ => exact FormKept.execFls h
  | fld _ _ => exact FormKept.execFld h
  | lda _ _ _ => exact FormKept.execLda h
  | lddNt _ _ => exact FormKept.execLddNt h
  | stb _ _ => exact FormKept.execStb h
  | sth _ _ => exact FormKept.execSth h
  | stw _ _ => exact FormKept.execStw h
  | std _ _ => exact FormKept.execStd h
  | fss _ _ => exact FormKept.execFss h
  | fsd _ _ => exact FormKept.execFsd h
  | stl _ _ _ => exact FormKept.execStl h
  | stdNt _ _ => exact FormKept.execStdNt h
  | ldres _ _ _ => exact FormKept.execLdres h
  | stcnd _ _ _ => exact FormKept.execStcnd h
  | faa _ _ _ => exact FormKept.execFaa h
  | cas _ _ _ => exact FormKept.execCas h
  | fenceO _ _ => exact FormKept.execFenceO h
  | fenceC _ _ => exact FormKept.execFenceC h
  | fenceCDrained _ => exact FormKept.execFenceCDrained h
  | isync _ _ => exact FormKept.execIsync h
  | crc32c _ _ _ => exact FormKept.execCrc32c h
  | aesenc _ _ => exact FormKept.execAesenc h
  | aesencl _ _ => exact FormKept.execAesencl h
  | aesdec _ _ => exact FormKept.execAesdec h
  | aesdecl _ _ => exact FormKept.execAesdecl h
  | aesimc _ _ => exact FormKept.execAesimc h
  | beq _ _ => exact FormKept.execBeq h
  | bne _ _ => exact FormKept.execBne h
  | blt _ _ => exact FormKept.execBlt h
  | bge _ _ => exact FormKept.execBge h
  | bltu _ _ => exact FormKept.execBltu h
  | bgeu _ _ => exact FormKept.execBgeu h
  | j _ _ => exact FormKept.execJ h
  | jl _ _ => exact FormKept.execJl h
  | jr _ _ => exact FormKept.execJr h
  | jlr _ _ => exact FormKept.execJlr h
  | ret _ _ => exact FormKept.execRet h
  | mfs _ _ => exact FormKept.execMfs h
  | mts _ _ => exact FormKept.execMts h
  | eret _ _ => exact FormKept.execEret h
  | syscall _ _ => exact FormKept.execSyscall h
  | mcall _ _ => exact FormKept.execMcall h
  | brk _ _ => exact FormKept.execBrk h
  | evdone _ _ => exact FormKept.execEvdone h
  | wait _ _ => exact FormKept.execWait h
  | cclean _ _ => exact FormKept.execCclean h
  | cflush _ _ => exact FormKept.execCflush h
  | cinv _ _ => exact FormKept.execCinv h
  | czero _ _ => exact FormKept.execCzero h
  | iinv _ _ => exact FormKept.execIinv h
  | tlbinv _ _ => exact FormKept.execTlbinv h
  | branchResolved _ => exact FormKept.execBranchResolved h
  | instructionConfirmed _ _ => exact FormKept.execInstructionConfirmed h
  | storeAddressKnown _ _ => exact FormKept.execStoreAddressKnown h
  | mdpEntryExpire _ _ => exact FormKept.execMdpEntryExpire h
  | storeRelease _ => exact FormKept.execStoreRelease h
  | completionAck _ _ _ => exact FormKept.execCompletionAck h
  | accessTimeout _ _ => exact FormKept.execAccessTimeout h
  | targetAbsentReport _ _ _ => exact FormKept.execTargetAbsentReport h
  | reservationMonitorExpire _ _ => exact FormKept.execReservationMonitorExpire h
  | reservationHoldExpire _ => exact FormKept.execReservationHoldExpire h
  | coreSoloWrite _ _ => exact FormKept.execCoreSoloWrite h
  | soloParked _ => exact FormKept.execSoloParked h
  | asidWrite _ _ => exact FormKept.execAsidWrite h
  | cacheCtlWrite _ _ => exact FormKept.execCacheCtlWrite h
  | cacheCtlDrainDone _ _ _ => exact FormKept.execCacheCtlDrainDone h
  | l2amCtlWrite _ _ => exact FormKept.execL2amCtlWrite h
  | l2amStepDone _ _ _ => exact FormKept.execL2amStepDone h
  | rdS _ _ => exact FormKept.execRdS h
  | rdX _ _ => exact FormKept.execRdX h
  | upg _ _ => exact FormKept.execUpg h
  | rdZ _ _ => exact FormKept.execRdZ h
  | peek _ _ => exact FormKept.execPeek h
  | cln _ _ => exact FormKept.execCln h
  | flsRequest _ _ => exact FormKept.execFlsRequest h
  | inv _ _ => exact FormKept.execInv h
  | hrd _ _ => exact FormKept.execHrd h
  | hwr _ _ => exact FormKept.execHwr h
  | hatm _ _ _ _ _ _ _ _ => exact FormKept.execHatm h
  | fS _ _ => exact FormKept.execFS h
  | fX _ _ => exact FormKept.execFX h
  | fInv _ _ => exact FormKept.execFInv h
  | fCln _ _ => exact FormKept.execFCln h
  | fFls _ _ => exact FormKept.execFFls h
  | fDis _ _ => exact FormKept.execFDis h
  | ackInv _ => exact FormKept.execAckInv h
  | ackF _ => exact FormKept.execAckF h
  | missWb _ => exact FormKept.execMissWb h
  | nack _ => exact FormKept.execNack h
  | nackRetryGapExpire _ _ => exact FormKept.execNackRetryGapExpire h
  | defer _ => exact FormKept.execDefer h
  | grant _ => exact FormKept.execGrant h
  | doneMsg _ => exact FormKept.execDoneMsg h
  | wbAck _ => exact FormKept.execWbAck h
  | dH _ _ => exact FormKept.execDH h
  | dF _ _ => exact FormKept.execDF h
  | dO _ _ => exact FormKept.execDO h
  | dP _ => exact FormKept.execDP h
  | wbD _ _ => exact FormKept.execWbD h
  | wbC _ _ => exact FormKept.execWbC h
  | cohTimeout _ _ => exact FormKept.execCohTimeout h
  | coherenceErrorReport _ _ _ _ => exact FormKept.execCoherenceErrorReport h
  | partitionSalvage _ _ _ => exact FormKept.execPartitionSalvage h
  | partitionRestart _ _ => exact FormKept.execPartitionRestart h
  | sisterStepTimeout _ => exact FormKept.execSisterStepTimeout h
  | liveSisterDrained _ _ => exact FormKept.execLiveSisterDrained h
  | adzeInterruptEntry _ => exact FormKept.execAdzeInterruptEntry h
  | storeQueueSend _ => exact FormKept.execStoreQueueSend h
  | scratchScrub _ _ _ => exact FormKept.execScratchScrub h
  | adzRunWrite _ _ => exact FormKept.execAdzRunWrite h
  | adzScrCtlWrite _ _ => exact FormKept.execAdzScrCtlWrite h
  | doorbell _ _ _ _ _ => exact FormKept.execDoorbell h
  | inlineItem _ _ _ _ _ => exact FormKept.execInlineItem h
  | dispatchSelect _ => exact FormKept.execDispatchSelect h
  | descriptorReadDone e => dsimp only [Machine.exec]; exact h.execDescriptorReadDone
  | itemDataReadDone _ => exact FormKept.execItemDataReadDone h
  | itemBufferWritten _ _ => exact FormKept.execItemBufferWritten h
  | itemDone _ _ _ _ _ => exact FormKept.execItemDone h
  | runLimitExpire _ => exact FormKept.execRunLimitExpire h
  | queueWaitExpire _ => exact FormKept.execQueueWaitExpire h
  | recordDelivery _ => exact FormKept.execRecordDelivery h
  | ledgerUe e _ _ => exact FormKept.execLedgerUe (_e := e) h
  | evSendWrite _ _ _ _ _ => exact FormKept.execEvSendWrite h
  | evInjectWrite _ _ => exact FormKept.execEvInjectWrite h
  | timerFire _ => exact FormKept.execTimerFire h
  | eventRecordWritten _ => exact FormKept.execEventRecordWritten h
  | heldDispatchRelease _ => exact FormKept.execHeldDispatchRelease h
  | evqCtlWrite _ _ => exact FormKept.execEvqCtlWrite h
  | evqTailWrite _ _ _ => exact FormKept.execEvqTailWrite h
  | dramRead _ _ _ _ => exact FormKept.execDramRead h
  | dramWrite _ _ _ _ => exact FormKept.execDramWrite h
  | rowIdleClose _ _ _ _ => exact FormKept.execRowIdleClose h
  | refresh _ => exact FormKept.execRefresh h
  | patrolScrub _ _ _ => exact FormKept.execPatrolScrub h
  | caParityAlert _ _ _ => exact FormKept.execCaParityAlert h
  | pairingSweepDone _ _ _ => exact FormKept.execPairingSweepDone h
  | softPprDone _ => exact FormKept.execSoftPprDone h
  | rankSpareCopyDone _ _ _ => exact FormKept.execRankSpareCopyDone h
  | channelTrained _ => exact FormKept.execChannelTrained h
  | channelTrainingFail _ => exact FormKept.execChannelTrainingFail h
  | phyRelockTimeout _ => exact FormKept.execPhyRelockTimeout h
  | resilverDone _ _ _ => exact FormKept.execResilverDone h
  | perstAssert => exact FormKept.execPerstAssert h
  | perstDeassert => exact FormKept.execPerstDeassert h
  | linkTrained _ _ => exact FormKept.execLinkTrained h
  | linkDown => exact FormKept.execLinkDown h
  | hotReset => exact FormKept.execHotReset h
  | configRequest _ _ _ _ => exact FormKept.execConfigRequest h
  | tlpErrorFreeze _ => exact FormKept.execTlpErrorFreeze h
  | freezeForce => exact FormKept.execFreezeForce h
  | freezeRelease _ => exact FormKept.execFreezeRelease h
  | epNotifyWrite _ => exact FormKept.execEpNotifyWrite h
  | instStatResetWrite _ => exact FormKept.execInstStatResetWrite h
  | readCompletion _ _ _ => exact FormKept.execReadCompletion h
  | completionTimeout _ => exact FormKept.execCompletionTimeout h
  | windowRead _ _ _ _ => exact FormKept.execWindowRead h
  | windowWrite _ _ _ _ => exact FormKept.execWindowWrite h
  | windowReadTimeout _ => exact FormKept.execWindowReadTimeout h
  | mailboxPageWrite _ _ _ _ _ => exact FormKept.execMailboxPageWrite h
  | idleFlit _ => exact FormKept.execIdleFlit h
  | skipFlit _ _ _ => exact FormKept.execSkipFlit h
  | skipInsert _ => exact FormKept.execSkipInsert h
  | nakFlit _ _ => exact FormKept.execNakFlit h
  | flitError _ => exact FormKept.execFlitError h
  | ridgeAckTimeout _ => exact FormKept.execRidgeAckTimeout h
  | initFlit _ _ => exact FormKept.execInitFlit h
  | timeSyncTimer _ => exact FormKept.execTimeSyncTimer h
  | timeSync _ _ => exact FormKept.execTimeSync h
  | timeResp _ _ _ _ => exact FormKept.execTimeResp h
  | joinReq _ _ => exact FormKept.execJoinReq h
  | joinReqRepeat _ => exact FormKept.execJoinReqRepeat h
  | joinSwitch _ => exact FormKept.execJoinSwitch h
  | holdDone _ _ => exact FormKept.execHoldDone h
  | leaveReq _ _ => exact FormKept.execLeaveReq h
  | leaveDrained _ => exact FormKept.execLeaveDrained h
  | leaveBypassSwitch _ => exact FormKept.execLeaveBypassSwitch h
  | ringState _ _ _ _ _ => exact FormKept.execRingState h
  | portLockLoss _ => exact FormKept.execPortLockLoss h
  | ridgeTrainingDone _ _ _ _ => exact FormKept.execRidgeTrainingDone h
  | ridgeTrainingFail _ => exact FormKept.execRidgeTrainingFail h
  | wRd _ => exact FormKept.execWRd h
  | wWr _ => exact FormKept.execWWr h
  | wRsp _ => exact FormKept.execWRsp h
  | hRd _ => exact FormKept.execHRd h
  | hWr _ => exact FormKept.execHWr h
  | hRsp _ => exact FormKept.execHRsp h
  | dRd _ => exact FormKept.execDRd h
  | dDat _ => exact FormKept.execDDat h
  | dWr _ => exact FormKept.execDWr h
  | dAck _ => exact FormKept.execDAck h
  | recMsg _ => exact FormKept.execRecMsg h
  | rAck _ => exact FormKept.execRAck h
  | rRel _ => exact FormKept.execRRel h
  | fenceDeliveryDone => exact FormKept.execFenceDeliveryDone h
  | fenceDeliveryTimeout => exact FormKept.execFenceDeliveryTimeout h
  | watchdogExpire => exact FormKept.execWatchdogExpire h
  | wrightServing => exact FormKept.execWrightServing h
  | mboxDoorbell _ _ _ _ => exact FormKept.execMboxDoorbell h
  | dmboxDoorbell _ _ _ _ => exact FormKept.execDmboxDoorbell h
  | commandComplete _ => exact FormKept.execCommandComplete h
  | getIdentity _ => exact FormKept.execGetIdentity h
  | getUnits _ => exact FormKept.execGetUnits h
  | getSource _ => exact FormKept.execGetSource h
  | partGet _ => exact FormKept.execPartGet h
  | partSet _ => exact FormKept.execPartSet h
  | partStop _ => exact FormKept.execPartStop h
  | partStart _ => exact FormKept.execPartStart h
  | partStandby _ => exact FormKept.execPartStandby h
  | partFree _ => exact FormKept.execPartFree h
  | pwrGet _ => exact FormKept.execPwrGet h
  | vcoreSet _ => exact FormKept.execVcoreSet h
  | vote _ => exact FormKept.execVote h
  | braceRate _ => exact FormKept.execBraceRate h
  | quiesce _ => exact FormKept.execQuiesce h
  | resume _ => exact FormKept.execResume h
  | warmReset _ => exact FormKept.execWarmReset h
  | sister _ => exact FormKept.execSister h
  | setSpare _ _ => exact FormKept.execSetSpare h
  | chRetire _ => exact FormKept.execChRetire h
  | chRetrain _ _ => exact FormKept.execChRetrain h
  | memRepair _ => exact FormKept.execMemRepair h
  | portRetrain _ _ => exact FormKept.execPortRetrain h
  | slotInfo _ => exact FormKept.execSlotInfo h
  | slotWrite _ => exact FormKept.execSlotWrite h
  | slotVerify _ => exact FormKept.execSlotVerify h
  | activate _ => exact FormKept.execActivate h
  | activateRestart => exact FormKept.execActivateRestart h
  | activateTimeout => exact FormKept.execActivateTimeout h
  | commit _ => exact FormKept.execCommit h
  | settingsGet _ => exact FormKept.execSettingsGet h
  | instCreate _ => exact FormKept.execInstCreate h
  | instModify _ => exact FormKept.execInstModify h
  | instDestroy _ => exact FormKept.execInstDestroy h
  | instReset _ => exact FormKept.execInstReset h
  | queueSetup _ => exact FormKept.execQueueSetup h
  | queueModify _ => exact FormKept.execQueueModify h
  | queueEnable _ => exact FormKept.execQueueEnable h
  | queueRemove _ => exact FormKept.execQueueRemove h
  | setHostRoute _ => exact FormKept.execSetHostRoute h
  | logRead _ => exact FormKept.execLogRead h
  | heldRecords _ => exact FormKept.execHeldRecords h
  | modeHistory _ => exact FormKept.execModeHistory h
  | regRead _ => exact FormKept.execRegRead h
  | attest _ => exact FormKept.execAttest h
  | getIdKey _ => exact FormKept.execGetIdKey h
  | quench _ => exact FormKept.execQuench h
  | release _ => exact FormKept.execRelease h
  | fenceSelf _ => exact FormKept.execFenceSelf h
  | smbusSetOffset _ _ => exact FormKept.execSmbusSetOffset h
  | smbusBlockRead _ _ => exact FormKept.execSmbusBlockRead h
  | smbusBlockWrite _ _ => exact FormKept.execSmbusBlockWrite h
  | i3cPrivateWrite _ => exact FormKept.execI3cPrivateWrite h
  | i3cPrivateRead _ => exact FormKept.execI3cPrivateRead h
  | i3cDynamicAddress _ => exact FormKept.execI3cDynamicAddress h
  | coreDrop _ => exact FormKept.execCoreDrop h
  | bayDrop _ => exact FormKept.execBayDrop h
  | domainDrop _ => exact FormKept.execDomainDrop h
  | domainWake _ => exact FormKept.execDomainWake h
  | pmcCtlWrite _ _ _ => exact FormKept.execPmcCtlWrite h
  | pmcWrite _ _ _ => exact FormKept.execPmcWrite h
  | bwWindowEnd => exact FormKept.execBwWindowEnd h
  | bwCtlWrite _ => exact FormKept.execBwCtlWrite h
  | registerWrite _ _ _ _ => exact FormKept.execRegisterWrite h
  | pllRelock _ => exact FormKept.execPllRelock h
  | railRecovery _ _ => exact FormKept.execRailRecovery h
  | resetNChange _ => exact FormKept.execResetNChange h
  | selfTestDone _ _ _ _ => exact FormKept.execSelfTestDone h
  | monitorImageLoaded _ _ _ => exact FormKept.execMonitorImageLoaded h

theorem formKept_exec {c : Instr} (h : Machine.exec c s = .next u) : FormKept s u := by
  have k : ResKept s (Machine.exec c s) := FormKept.exec c (FormKept.refl s)
  rw [h] at k
  exact k

/-- Settles O60: the front command leaves the queue it is run with, and memory's form with it (`FormKept.exec`). -/
theorem memoryFormKept : Obligations.MemoryFormKept := by
  unfold Obligations.MemoryFormKept
  refine ⟨fun s u hok hstep => ?_, fun c s u h => (formKept_exec h).pending⟩
  obtain rfl | ⟨c, rest, _, h⟩ := step_cases hstep
  · exact hok
  · exact (formKept_exec h).form hok

end Sys2Proof.Machine
end

section
/-! Frames of the operations that obligations' commands share: each names the pieces that it may change (`Keeps`), and is
used behind any frame that lets those pieces change. -/
namespace Sys2Proof.Machine
set_option Elab.async false
variable {s u v : State} {P : List Piece}

/-- A frame goes on through an operation whose own frame is within it. -/
theorem Keeps.via {l : List Piece} (h : Keeps P s u) (k : Keeps l u v) (hP : ∀ p ∈ l, p ∈ P) : Keeps P s v :=
  keeps_trans h (keeps_mono hP k)

theorem Keeps.frame (h : Keeps P s u) (e : Keeps P u v := by intro p hp; cases p <;> simp_all [Piece.same]) : Keeps P s v :=
  keeps_trans h e

theorem Keeps.each {α : Type} {l : List α} {f : α → State → State} (h : Keeps P s u)
    (hf : ∀ a x, Keeps P s x → Keeps P s (f a x)) : Keeps P s (Machine.forEach l f u) :=
  forEach_keeps (Keeps P s) f l u h (fun a _ x hx => hf a x hx)

theorem Keeps.of_pair {α : Type} {p : α × State} {a : α} (e : p = (a, v)) (h : Keeps P s p.2) : Keeps P s v := by
  subst e; exact h

theorem Keeps.ite {c : Prop} [Decidable c] {a b : State} (ha : Keeps P s a) (hb : Keeps P s b) :
    Keeps P s (if c then a else b) := by split <;> assumption

theorem Keeps.ite_snd {α : Type} {c : Prop} [Decidable c] {a b : α × State} (ha : Keeps P s a.2) (hb : Keeps P s b.2) :
    Keeps P s (if c then a else b).2 := by split <;> assumption

theorem Keeps.pair {α : Type} {a : α} (h : Keeps P s v) : Keeps P s (a, v).2 := h

theorem Keeps.updThr {t : Thr} {f : Thread → Thread} (h : Keeps P s u) (hP : ∀ p ∈ ([.thr] : List Piece), p ∈ P
    := by decide) : Keeps P s (Machine.updThr t f u) :=
  h.via (keeps_updThr t f) hP

/-- A change of the power state that leaves the events held by the router. -/
theorem Keeps.updPw {f : Power → Power} (h : Keeps P s u) (hP : ∀ p ∈ ([.pw] : List Piece), p ∈ P := by decide)
    (hf : ∀ p, (f p).wake = p.wake ∧ (f p).routerHeld = p.routerHeld := by exact fun _ => ⟨rfl, rfl⟩) :
    Keeps P s (Machine.updPw f u) :=
  h.via (fun p hp => by have := hf u.pw; cases p <;> simp_all [Piece.same]) hP

/-- A change of the Wright that leaves its error log. -/
theorem Keeps.updWr {f : Wright → Wright} (h : Keeps P s u) (hP : ∀ p ∈ ([.wr] : List Piece), p ∈ P := by decide)
    (hf : ∀ w, (f w).log = w.log ∧ (f w).logNext = w.logNext ∧ (f w).heldEvents = w.heldEvents ∧
      (f w).lostEvents = w.lostEvents := by exact fun _ => ⟨rfl, rfl, rfl, rfl⟩) :
    Keeps P s (Machine.updWr f u) :=
  h.via (fun p hp => by have := hf u.wr; cases p <;> simp_all [Piece.same]) hP

/-- A change of the endpoint that leaves its pending bits. -/
theorem Keeps.updEp {f : Endpoint → Endpoint} (h : Keeps P s u) (hP : ∀ p ∈ ([.ep] : List Piece), p ∈ P := by decide)
    (hf : ∀ e, (f e).pba = e.pba ∧ (f e).pbaVc1 = e.pbaVc1 := by exact fun _ => ⟨rfl, rfl⟩) :
    Keeps P s (Machine.updEp f u) :=
  h.via (fun p hp => by have := hf u.ep; cases p <;> simp_all [Piece.same]) hP

theorem Keeps.updCore {c : ℕ} {f : Core → Core} (h : Keeps P s u) (hP : ∀ p ∈ ([.core] : List Piece), p ∈ P
    := by decide) : Keeps P s (Machine.updCore c f u) :=
  h.via (keeps_updCore c f) hP

theorem Keeps.updBay {b : ℕ} {f : Bay → Bay} (h : Keeps P s u) (hP : ∀ p ∈ ([.bay] : List Piece), p ∈ P := by decide)
    : Keeps P s (Machine.updBay b f u) :=
  h.via (keeps_updBay b f) hP

theorem Keeps.updSlice {b : ℕ} {f : Slice → Slice} (h : Keeps P s u) (hP : ∀ p ∈ ([.slice] : List Piece), p ∈ P
    := by decide) : Keeps P s (Machine.updSlice b f u) :=
  h.via (keeps_updSlice b f) hP

theorem Keeps.updSrc {x : Src} {f : SrcEnt → SrcEnt} (h : Keeps P s u) (hP : ∀ p ∈ ([.srcs] : List Piece), p ∈ P
    := by decide) : Keeps P s (Machine.updSrc x f u) :=
  h.via (keeps_updSrc x f) hP

theorem Keeps.updEngine {e : ℕ} {f : Engine → Engine} (h : Keeps P s u) (hP : ∀ p ∈ ([.eng] : List Piece), p ∈ P
    := by decide) : Keeps P s (Machine.updEngine e f u) :=
  h.via (keeps_updEngine e f) hP

theorem Keeps.updCluster {k' : ℕ} {f : Cluster → Cluster} (h : Keeps P s u) (hP : ∀ p ∈ ([.cluster] : List Piece), p ∈ P
    := by decide) : Keeps P s (Machine.updCluster k' f u) :=
  h.via (keeps_updCluster k' f) hP

theorem Keeps.updPart {p : ℕ} {f : Part → Part} (h : Keeps P s u) (hP : ∀ p ∈ ([.part] : List Piece), p ∈ P
    := by decide) : Keeps P s (Machine.updPart p f u) :=
  h.via (keeps_updPart p f) hP

theorem Keeps.updQueue {q : ℕ} {f : Queue → Queue} (h : Keeps P s u) (hP : ∀ p ∈ ([.queue] : List Piece), p ∈ P
    := by decide) : Keeps P s (Machine.updQueue q f u) :=
  h.via (keeps_updQueue q f) hP

theorem Keeps.updLed {f : Ledger → Ledger} (h : Keeps P s u) (hP : ∀ p ∈ ([.led] : List Piece), p ∈ P := by decide)
    : Keeps P s (Machine.updLed f u) :=
  h.via (keeps_updLed f) hP

theorem Keeps.updEntry {e : ℕ} {f : Entry → Entry} (h : Keeps P s u) (hP : ∀ p ∈ ([.led] : List Piece), p ∈ P
    := by decide) : Keeps P s (Machine.updEntry e f u) :=
  h.via (keeps_updEntry e f) hP

theorem Keeps.updChan {c : ℕ} {f : Chan → Chan} (h : Keeps P s u) (hP : ∀ p ∈ ([.chan] : List Piece), p ∈ P
    := by decide) : Keeps P s (Machine.updChan c f u) :=
  h.via (keeps_updChan c f) hP

theorem Keeps.updInst {i : ℕ} {f : Inst → Inst} (h : Keeps P s u) (hP : ∀ p ∈ ([.inst] : List Piece), p ∈ P
    := by decide) : Keeps P s (Machine.updInst i f u) :=
  h.via (keeps_updInst i f) hP

theorem Keeps.updRidge {f : Ridge → Ridge} (h : Keeps P s u) (hP : ∀ p ∈ ([.ridge] : List Piece), p ∈ P := by decide)
    : Keeps P s (Machine.updRidge f u) :=
  h.via (keeps_updRidge f) hP

theorem Keeps.updPort {x : ℕ} {f : PortSt → PortSt} (h : Keeps P s u) (hP : ∀ p ∈ ([.ridge] : List Piece), p ∈ P
    := by decide) : Keeps P s (Machine.updPort x f u) :=
  h.via (keeps_updPort x f) hP

theorem Keeps.updRail {r : ℕ} {f : RailSt → RailSt} (h : Keeps P s u) (hP : ∀ p ∈ ([.pw] : List Piece), p ∈ P
    := by decide) : Keeps P s (Machine.updRail r f u) :=
  h.via (keeps_updRail r f) hP

theorem Keeps.updDie {d : ℕ} {f : Die → Die} (h : Keeps P s u) (hP : ∀ p ∈ ([.pw] : List Piece), p ∈ P := by decide)
    : Keeps P s (Machine.updDie d f u) :=
  h.via (keeps_updDie d f) hP

theorem Keeps.updBox {m : Mbox} {f : MboxSt → MboxSt} (h : Keeps P s u) (hP : ∀ p ∈ ([.wr] : List Piece), p ∈ P
    := by decide) : Keeps P s (Machine.updBox m f u) :=
  h.via (keeps_updBox m f) hP

theorem Keeps.updCrossing {b : Clk} {f : Crossing → Crossing} (h : Keeps P s u) (hP : ∀ p ∈ ([.xing]
    : List Piece), p ∈ P := by decide) : Keeps P s (Machine.updCrossing b f u) :=
  h.via (keeps_updCrossing b f) hP

theorem Keeps.countBytes {p : ℕ} {n : ℕ} (h : Keeps P s u) (hP : ∀ p ∈ ([.bw] : List Piece), p ∈ P := by decide)
    : Keeps P s (Machine.countBytes p n u) :=
  h.via (keeps_countBytes p n) hP

theorem Keeps.setPoison {l : BitVec 42} {b : Bool} (h : Keeps P s u) (hP : ∀ p ∈ ([.poison] : List Piece), p ∈ P
    := by decide) : Keeps P s (Machine.setPoison l b u) :=
  h.via (keeps_setPoison l b) hP

theorem Keeps.writeBytes {a : ℕ} {l : List Byte} (h : Keeps P s u) (hP : ∀ p ∈ ([.mem] : List Piece), p ∈ P
    := by decide) : Keeps P s (Machine.writeBytes a l u) :=
  h.via (keeps_writeBytes a l) hP

theorem Keeps.logEntry {type : BitVec 16} {a : Word} {b : Word} (h : Keeps P s u) (hP : ∀ p ∈ ([.log]
    : List Piece), p ∈ P := by decide) : Keeps P s (Machine.logEntry type a b u) :=
  h.via (keeps_logEntry type a b) hP

theorem Keeps.wrightEvent {type : BitVec 16} {a : Word} {b : Word} (h : Keeps P s u) (hP : ∀ p ∈ ([.log]
    : List Piece), p ∈ P := by decide) : Keeps P s (Machine.wrightEvent type a b u) :=
  h.via (keeps_wrightEvent type a b) hP

theorem Keeps.setThr {t : Thr} {v : Thread} (h : Keeps P s u) (hP : ∀ p ∈ ([.thr] : List Piece), p ∈ P := by decide) :
    Keeps P s (Machine.setThr t v u) :=
  h.via (fun p hp => by cases p <;> simp_all [Piece.same]) hP

theorem Keeps.fresh {n : ℕ} (h : Keeps P s u) (hP : ∀ p ∈ ([.fresh] : List Piece), p ∈ P := by decide) :
    Keeps P s { u with fresh := n } :=
  h.via (fun p hp => by cases p <;> simp_all [Piece.same]) hP

/-- A change of nothing but the events that the router holds. -/
theorem keeps_updPw_wake (f : Power → Power)
    (h : ∀ p, { f p with wake := [], routerHeld := [] } = { p with wake := [], routerHeld := [] }) :
    Keeps [.wake] s (updPw f s) := by
  intro p hp
  cases p <;> simp_all [Piece.same]

theorem Keeps.placeEvent {t : Thr} {r : EvRec} (h : Keeps P s u) (hP : ∀ p ∈ ([.thr, .wake] : List Piece), p ∈ P := by decide) :
    Keeps P s (Machine.placeEvent t r u) := by
  refine h.via ?_ hP
  have k := keeps_refl [.thr, .wake] u
  have hev (f : EvState → EvState) : Keeps [.thr, .wake] u (Machine.updThr t (updEv f) u) := k.updThr
  have hheld : Keeps [.thr, .wake] u (Machine.updPw (fun p => { p with routerHeld := p.routerHeld ++ [(thrKey t, r)] }) u) :=
    k.via (keeps_updPw_wake _ (fun _ => rfl)) (by decide)
  have hwake : Keeps [.thr, .wake] u (Machine.updPw (fun p => { p with wake := p.wake ++ [(thrKey t, r)] }) u) :=
    k.via (keeps_updPw_wake _ (fun _ => rfl)) (by decide)
  unfold Machine.placeEvent
  refine Keeps.ite k <| Keeps.ite hheld <| Keeps.ite ?_ <| Keeps.ite ?_ <| Keeps.ite ?_ (hev _)
  · split
    · exact hwake
    · exact hev _
  · exact Keeps.ite (hev _) (Keeps.ite k (hev _))
  · exact Keeps.ite (hev _) (Keeps.ite k (hev _))

theorem Keeps.acceptEvent {t : Thr} {r : EvRec} (h : Keeps P s u) (hP : ∀ p ∈ ([.thr, .wake] : List Piece), p ∈ P
    := by decide) : Keeps P s (Machine.acceptEvent t r u) := by
  refine h.via ?_ hP
  have h := keeps_refl [.thr, .wake] u
  unfold Machine.acceptEvent
  exact h.placeEvent

theorem Keeps.emit {o : Out} (h : Keeps P s u) (hP : ∀ p ∈ ([.bw, .out] : List Piece), p ∈ P := by decide) :
    Keeps P s (Machine.emit o u) := by
  refine h.via (fun p hp => ?_) hP
  cases o <;> cases p <;> simp_all [Piece.same, Machine.emit, Machine.countBytes]

theorem Keeps.pendMsi {n : ℕ} {urgent : Bool} (h : Keeps P s u) (hP : ∀ p ∈ ([.pba] : List Piece), p ∈ P := by decide) :
    Keeps P s (Machine.pendMsi n urgent u) :=
  h.via (fun p hp => by cases p <;> simp_all [Piece.same, Machine.pendMsi]) hP

theorem Keeps.msiHere {v : ℕ} {urgent : Bool} (h : Keeps P s u) (hP : ∀ p ∈ ([.bw, .out, .pba] : List Piece), p ∈ P
    := by decide) : Keeps P s (Machine.msiHere v urgent u) := by
  refine h.via ?_ hP
  have h := keeps_refl [.bw, .out, .pba] u
  unfold Machine.msiHere
  dsimp only
  split
  · exact h
  · split
    · exact h.pendMsi
    · exact h.emit

theorem Keeps.enterCrossing {b : Clk} {fabric : Bool} {e : XEnt} (h : Keeps P s u) (hP : ∀ p ∈ ([.xing]
    : List Piece), p ∈ P := by decide) : Keeps P s (Machine.enterCrossing b fabric e u) := by
  refine h.via ?_ hP
  have h := keeps_refl [.xing] u
  unfold Machine.enterCrossing
  dsimp only
  exact h.updCrossing

theorem Keeps.emitFlit {x : Port} {f : SentFlit} (h : Keeps P s u) (hP : ∀ p ∈ ([.ridge, .bw, .xing, .out]
    : List Piece), p ∈ P := by decide) : Keeps P s (Machine.emitFlit x f u) := by
  refine h.via ?_ hP
  have h := keeps_refl [.ridge, .bw, .xing, .out] u
  unfold Machine.emitFlit
  dsimp only
  split
  · exact h.enterCrossing
  · exact h.updPort.emit

theorem Keeps.sendControl {x : Port} {b : FlitBody} (h : Keeps P s u) (hP : ∀ p ∈ ([.ridge, .bw, .xing, .out]
    : List Piece), p ∈ P := by decide) : Keeps P s (Machine.sendControl x b u) := by
  refine h.via ?_ hP
  have h := keeps_refl [.ridge, .bw, .xing, .out] u
  unfold Machine.sendControl
  exact h.emitFlit

theorem Keeps.sendIdle {x : Port} (h : Keeps P s u) (hP : ∀ p ∈ ([.ridge, .bw, .xing, .out] : List Piece), p ∈ P
    := by decide) : Keeps P s (Machine.sendIdle x u) := by
  refine h.via ?_ hP
  have h := keeps_refl [.ridge, .bw, .xing, .out] u
  unfold Machine.sendIdle
  split
  · exact h.sendControl
  · exact h

theorem Keeps.freeBuffer {from' : Option (Port × BitVec 4)} {n : ℕ} (h : Keeps P s u) (hP : ∀ p ∈
    ([.ridge, .bw, .xing, .out] : List Piece), p ∈ P := by decide) : Keeps P s (Machine.freeBuffer from' n u) := by
  refine h.via ?_ hP
  have h := keeps_refl [.ridge, .bw, .xing, .out] u
  unfold Machine.freeBuffer
  split
  · exact h
  · exact h.updPort.sendIdle

theorem Keeps.sendOne {x : Port} {vc : BitVec 4} {b : FlitBody} (h : Keeps P s u) (hP : ∀ p ∈
    ([.ridge, .bw, .xing, .out] : List Piece), p ∈ P := by decide) : Keeps P s (Machine.sendOne x vc b u) := by
  refine h.via ?_ hP
  have h := keeps_refl [.ridge, .bw, .xing, .out] u
  unfold Machine.sendOne
  dsimp only
  exact h.updPort.emitFlit

theorem Keeps.sendSequenced {x : Port} {vc : BitVec 4} {b : FlitBody} (h : Keeps P s u) (hP : ∀ p ∈
    ([.ridge, .bw, .xing, .out] : List Piece), p ∈ P := by decide) : Keeps P s (Machine.sendSequenced x vc b u) := by
  refine h.via ?_ hP
  have h := keeps_refl [.ridge, .bw, .xing, .out] u
  unfold Machine.sendSequenced
  refine Keeps.each ?_ fun _ _ hx => ?_
  · split
    · exact h.countBytes
    · exact h
  · exact hx.sendOne

theorem Keeps.pumpSlots {x : Port} {n : ℕ} (h : Keeps P s u)
    (hP : ∀ p ∈ ([.ridge, .bw, .xing, .out] : List Piece), p ∈ P := by decide) : Keeps P s (Machine.pumpSlots x n u) := by
  refine h.via ?_ hP
  clear h
  induction n generalizing u with
  | zero => exact keeps_refl _ u
  | succ n ih =>
    unfold Machine.pumpSlots
    split
    · exact keeps_refl _ u
    · refine keeps_trans ?_ ih
      exact (keeps_refl _ u).updPort.sendSequenced.freeBuffer

theorem Keeps.pumpPort {x : Port} (h : Keeps P s u) (hP : ∀ p ∈ ([.ridge, .bw, .xing, .out] : List Piece), p ∈ P
    := by decide) : Keeps P s (Machine.pumpPort x u) := by
  refine h.via ?_ hP
  have h := keeps_refl [.ridge, .bw, .xing, .out] u
  unfold Machine.pumpPort
  split
  · exact h
  · exact h.pumpSlots

theorem Keeps.portSend {x : Port} {vc : BitVec 4} {b : FlitBody} {from' : Option (Port × BitVec 4)} (h : Keeps P s u)
    (hP : ∀ p ∈ ([.ridge, .bw, .xing, .out] : List Piece), p ∈ P := by decide) : Keeps P s
    (Machine.portSend x vc b from' u) := by
  refine h.via ?_ hP
  have h := keeps_refl [.ridge, .bw, .xing, .out] u
  unfold Machine.portSend
  exact h.updPort.pumpPort

theorem Keeps.sendReq {cls : BitVec 2} {b : FlitBody} {q : RReq} (h : Keeps P s u) (e
    : Machine.sendReq cls b q u = some v) (hP : ∀ p ∈ ([.ridge, .bw, .xing, .out] : List Piece), p ∈ P := by decide)
    : Keeps P s v := by
  have k : ∀ v, Machine.sendReq cls b q u = some v → Keeps [.ridge, .bw, .xing, .out] u v := by
    have h := keeps_refl [.ridge, .bw, .xing, .out] u
    unfold Machine.sendReq
    dsimp only
    split
    · split
      · intro _ e
        cases e
      · intro _ e
        cases e
        split
        · exact h.updRidge.updRidge
        · exact h.updRidge.portSend
    · intro _ e
      cases e
  exact h.via (k v e) hP

theorem Keeps.takeTag (h : Keeps P s u) (hP : ∀ p ∈ ([.ridge] : List Piece), p ∈ P := by decide) :
    Keeps P s (Machine.takeTag u).2 := h.updRidge hP

theorem Keeps.msiThere {d : BitVec 16} {v : ℕ} {urgent : Bool} (h : Keeps P s u) (hP : ∀ p ∈
    ([.ridge, .bw, .xing, .out, .pba] : List Piece), p ∈ P := by decide) : Keeps P s (Machine.msiThere d v urgent u) := by
  refine h.via ?_ hP
  have h := keeps_refl [.ridge, .bw, .xing, .out, .pba] u
  unfold Machine.msiThere
  dsimp only
  split
  · exact h.pendMsi
  · split
    · exact h.takeTag.sendReq ‹_›
    · exact h.pendMsi

theorem Keeps.sendMsi {v : ℕ} {urgent : Bool} (h : Keeps P s u) (hP : ∀ p ∈ ([.ridge, .bw, .xing, .out, .pba]
    : List Piece), p ∈ P := by decide) : Keeps P s (Machine.sendMsi v urgent u) := by
  refine h.via ?_ hP
  have h := keeps_refl [.ridge, .bw, .xing, .out, .pba] u
  unfold Machine.sendMsi
  split
  · exact h.msiHere
  · exact h.msiThere
  · exact h.pendMsi

theorem Keeps.signalBox {m : Mbox} {status : BitVec 8} {seq : BitVec 16} {rlen : ℕ} (h : Keeps P s u) (hP : ∀ p ∈
    ([.thr, .ridge, .bw, .xing, .out, .wake, .pba] : List Piece), p ∈ P := by decide) : Keeps P s
    (Machine.signalBox m status seq rlen u) := by
  refine h.via ?_ hP
  have h := keeps_refl [.thr, .ridge, .bw, .xing, .out, .wake, .pba] u
  unfold Machine.signalBox
  dsimp only
  split
  · split
    · exact h.sendMsi
    · exact h
  · split
    · exact h.emit
    · exact h
  · split
    · exact h.emit
    · exact h
  · split
    · exact h
    · split
      · exact h
      · split
        · exact h
        · split
          · exact h.acceptEvent
          · exact h.updThr

theorem Keeps.finishBox {m : Mbox} {status : BitVec 8} {detail : BitVec 16} {payload : List Byte} {seq : BitVec 16}
    {taken : Word} (h : Keeps P s u) (hP : ∀ p ∈ ([.thr, .ridge, .bw, .xing, .out, .wake, .pba, .wr]
    : List Piece), p ∈ P := by decide) : Keeps P s (Machine.finishBox m status detail payload seq taken u) := by
  refine h.via ?_ hP
  have h := keeps_refl [.thr, .ridge, .bw, .xing, .out, .wake, .pba, .wr] u
  unfold Machine.finishBox
  dsimp only
  exact h.updBox.signalBox

theorem Keeps.partEvent {p : ℕ} {source : BitVec 8} {index : BitVec 16} {payload : Word} (h : Keeps P s u) (hP : ∀ p ∈
    ([.thr, .wake] : List Piece), p ∈ P := by decide) : Keeps P s (Machine.partEvent p source index payload u) := by
  refine h.via ?_ hP
  have h := keeps_refl [.thr, .wake] u
  unfold Machine.partEvent
  split
  · exact h
  · split
    · exact h.acceptEvent
    · split
      · exact h.updThr
      · exact h

theorem Keeps.poisonLine {l : BitVec 42} {whereB : Word} (h : Keeps P s u) (hP : ∀ p ∈ ([.thr, .poison, .wake, .log]
    : List Piece), p ∈ P := by decide) : Keeps P s (Machine.poisonLine l whereB u) := by
  refine h.via ?_ hP
  have h := keeps_refl [.thr, .poison, .wake, .log] u
  unfold Machine.poisonLine
  dsimp only
  split
  · exact h
  · split
    · exact h.setPoison.wrightEvent.partEvent
    · exact h.setPoison.wrightEvent

theorem Keeps.pmcWraps {t : Thr} {ws : List ℕ} (h : Keeps P s u) (hP : ∀ p ∈ ([.thr, .wake] : List Piece), p ∈ P
    := by decide) : Keeps P s (Machine.pmcWraps t ws u) := by
  refine h.via ?_ hP
  have h := keeps_refl [.thr, .wake] u
  unfold Machine.pmcWraps
  dsimp only
  refine Keeps.each h fun _ _ hx => ?_
  split
  · refine Keeps.acceptEvent ?_
    split
    · exact hx.updThr
    · exact hx
  · split
    · exact hx.updThr
    · exact hx

theorem Keeps.pmcCount {t : Thr} {code : ℕ} {k' : ℕ} {level : Bool} {sel : Option Bool} (h : Keeps P s u) (hP : ∀ p ∈
    ([.thr, .wake] : List Piece), p ∈ P := by decide) : Keeps P s (Machine.pmcCount t code k' level sel u) := by
  refine h.via ?_ hP
  have h := keeps_refl [.thr, .wake] u
  unfold Machine.pmcCount
  dsimp only
  exact h.setThr.pmcWraps

theorem Keeps.countEvent {t : Thr} {code : ℕ} (h : Keeps P s u) (hP : ∀ p ∈ ([.thr, .wake] : List Piece), p ∈ P
    := by decide) : Keeps P s (Machine.countEvent t code u) := by
  refine h.via ?_ hP
  have h := keeps_refl [.thr, .wake] u
  unfold Machine.countEvent
  exact h.pmcCount

theorem Keeps.emitHost {o : Out} (h : Keeps P s u) (hP : ∀ p ∈ ([.bw, .xing, .out] : List Piece), p ∈ P := by decide)
    : Keeps P s (Machine.emitHost o u) := by
  refine h.via ?_ hP
  have h := keeps_refl [.bw, .xing, .out] u
  unfold Machine.emitHost
  split
  · exact h.enterCrossing
  · exact h.emit

theorem Keeps.recordAer {b : ℕ} (h : Keeps P s u) (hP : ∀ p ∈ ([.bw, .xing, .out, .fresh, .ep] : List Piece), p ∈ P := by decide) :
    Keeps P s (Machine.recordAer b u) := by
  refine h.via ?_ hP
  unfold Machine.recordAer
  extract_lets c masked fatal first hdr w w' dev en
  have k : Keeps [.bw, .xing, .out, .fresh, .ep] u w' := by
    have hw : Keeps [.bw, .xing, .out, .fresh, .ep] u w := (keeps_refl _ u).updEp
    exact hw.fresh
  exact Keeps.ite k.emitHost k

theorem Keeps.freeze {code : BitVec 8} (h : Keeps P s u) (hP : ∀ p ∈ ([.bw, .xing, .out, .fresh, .ep, .log]
    : List Piece), p ∈ P := by decide) : Keeps P s (Machine.freeze code u) := by
  refine h.via ?_ hP
  have h := keeps_refl [.bw, .xing, .out, .fresh, .ep, .log] u
  unfold Machine.freeze
  extract_lets v newNotice w
  have hv : Keeps [.bw, .xing, .out, .fresh, .ep, .log] u v := Keeps.ite h h.recordAer
  have hw : Keeps [.bw, .xing, .out, .fresh, .ep, .log] u w := hv.updEp
  exact Keeps.ite hv hw.wrightEvent

theorem Keeps.abandonReads {e : ℕ} (h : Keeps P s u) (hP : ∀ p ∈ ([.ep] : List Piece), p ∈ P := by decide) : Keeps P s
    (Machine.abandonReads e u) := by
  refine h.via ?_ hP
  have h := keeps_refl [.ep] u
  unfold Machine.abandonReads
  dsimp only
  exact h.updEp

theorem Keeps.dispVote {t : Thr} {b : Bool} (h : Keeps P s u) (hP : ∀ p ∈ ([.pw] : List Piece), p ∈ P := by decide)
    : Keeps P s (Machine.dispVote t b u) := by
  refine h.via ?_ hP
  have h := keeps_refl [.pw] u
  unfold Machine.dispVote
  split
  · exact h.updPw
  · exact h

theorem Keeps.endItem {e : ℕ} {fail : Bool} {cause : BitVec 8} {detail : BitVec 8} (h : Keeps P s u) (hP : ∀ p ∈
    ([.led, .pw, .ep] : List Piece), p ∈ P := by decide) : Keeps P s (Machine.endItem e fail cause detail u) := by
  refine h.via ?_ hP
  have h := keeps_refl [.led, .pw, .ep] u
  unfold Machine.endItem
  dsimp only
  split
  · exact h
  · split
    · exact h.updEntry.abandonReads.dispVote
    · exact h.updEntry.abandonReads

theorem Keeps.keepDead {l : List ReadRec} (h : Keeps P s u) (hP : ∀ p ∈ ([.ep] : List Piece), p ∈ P := by decide)
    : Keeps P s (Machine.keepDead l u) := by
  refine h.via ?_ hP
  have h := keeps_refl [.ep] u
  unfold Machine.keepDead
  exact h.updEp

theorem Keeps.countUnreach (h : Keeps P s u) (hP : ∀ p ∈ ([.ridge] : List Piece), p ∈ P := by decide) : Keeps P s
    (Machine.countUnreach u) := by
  refine h.via ?_ hP
  have h := keeps_refl [.ridge] u
  unfold Machine.countUnreach
  exact h.updRidge

theorem Keeps.updRead {r : ReadRec} {f : ReadRec → ReadRec} (h : Keeps P s u) (hP : ∀ p ∈ ([.ep] : List Piece), p ∈ P
    := by decide) : Keeps P s (Machine.updRead r f u) := by
  refine h.via ?_ hP
  have h := keeps_refl [.ep] u
  unfold Machine.updRead
  exact h.updEp

theorem Keeps.issueRead {r : ReadRec} (h : Keeps P s u) (hP : ∀ p ∈ ([.led, .ridge, .bw, .xing, .out, .pw, .ep]
    : List Piece), p ∈ P := by decide) : Keeps P s (Machine.issueRead r u) := by
  refine h.via ?_ hP
  have h := keeps_refl [.led, .ridge, .bw, .xing, .out, .pw, .ep] u
  unfold Machine.issueRead
  dsimp only
  split
  · exact h
  · split
    · exact h
    · split
      · exact h
      · exact h.updRead.emit
  · split
    · exact h.countUnreach.endItem
    · exact (h.takeTag.sendReq ‹_›).updRead

theorem Keeps.pumpReads (h : Keeps P s u) (hP : ∀ p ∈ ([.led, .ridge, .bw, .xing, .out, .pw, .ep] : List Piece), p ∈ P
    := by decide) : Keeps P s (Machine.pumpReads u) := by
  refine h.via ?_ hP
  have h := keeps_refl [.led, .ridge, .bw, .xing, .out, .pw, .ep] u
  unfold Machine.pumpReads
  dsimp only
  refine Keeps.each h.updEp fun _ _ hx => ?_
  split
  · exact hx.issueRead
  · exact hx

theorem Keeps.sendRsp {cls : BitVec 2} {b : FlitBody} (h : Keeps P s u) (hP : ∀ p ∈ ([.ridge, .bw, .xing, .out]
    : List Piece), p ∈ P := by decide) : Keeps P s (Machine.sendRsp cls b u) := by
  refine h.via ?_ hP
  have h := keeps_refl [.ridge, .bw, .xing, .out] u
  unfold Machine.sendRsp
  split
  · exact h.portSend
  · exact h.updRidge

theorem Keeps.readFailed {r : ReadRec} {cause : BitVec 8} {detail : BitVec 8} {status : BitVec 2} (h : Keeps P s u) (hP
    : ∀ p ∈ ([.led, .ridge, .bw, .xing, .out, .pw, .ep] : List Piece), p ∈ P := by decide) : Keeps P s
    (Machine.readFailed r cause detail status u) := by
  refine h.via ?_ hP
  have h := keeps_refl [.led, .ridge, .bw, .xing, .out, .pw, .ep] u
  unfold Machine.readFailed
  dsimp only
  split
  · exact h.keepDead.updEp.sendRsp.pumpReads
  · exact h.updEp.endItem.pumpReads

theorem Keeps.readWhole {r : ReadRec} {bytes : List Byte} (h : Keeps P s u) (hP : ∀ p ∈
    ([.led, .ridge, .bw, .xing, .out, .pw, .ep] : List Piece), p ∈ P := by decide) : Keeps P s
    (Machine.readWhole r bytes u) := by
  refine h.via ?_ hP
  have h := keeps_refl [.led, .ridge, .bw, .xing, .out, .pw, .ep] u
  unfold Machine.readWhole
  dsimp only
  split
  · exact Keeps.each h.updEp fun _ _ hx => hx.sendRsp
  · refine Keeps.pumpReads ?_
    split <;> exact h.updEp.updEntry

end Sys2Proof.Machine
end

section
/-! Mailboxes: ringing writes and the completion of a command (R418 to R421). -/
namespace Sys2Proof.Machine
set_option Elab.async false
variable {s u : State} {m : Mbox} {P : List Piece}

/-! ## Pages -/

theorem natOfBytes_bytesOf (w : Word) : natOfBytes (bytesOf 8 w) = w.toNat := by
  have h : w.toNat < 2 ^ 64 := w.isLt
  simp only [bytesOf, List.range_succ, List.range_zero, List.map_nil, List.map_cons, List.nil_append,
    List.cons_append, natOfBytes, BitVec.extractLsb'_toNat, Nat.shiftRight_eq_div_pow]
  omega

theorem wordOf_bytesOf (w : Word) : wordOf (bytesOf 8 w) = w := by
  rw [wordOf, natOfBytes_bytesOf, BitVec.ofNat_toNat, BitVec.setWidth_eq]

/-- Bytes read out of the middle of a list that was written to a page. -/
theorem pageBytes_writeList (b : MboxSt) (l : List Byte) (a k n : Nat) (hn : k + n ≤ l.length) :
    pageBytes { b with page := writeList a l b.page } (a + k) n = (l.drop k).take n := by
  apply List.ext_getElem
  · simp [pageBytes]; omega
  · intro i h1 h2
    have hi : i < n := by simpa [pageBytes] using h1
    simp only [pageBytes, List.getElem_map, List.getElem_range, List.getElem_take, List.getElem_drop]
    rw [look_writeList, if_pos (by omega), Nat.add_assoc, Nat.add_sub_cancel_left, List.getD_eq_getElem _ _ (by omega)]

theorem pageBytes_writeList_other (b : MboxSt) (l : List Byte) (a off n : Nat) (h : off + n ≤ a ∨ a + l.length ≤ off) :
    pageBytes { b with page := writeList a l b.page } off n = pageBytes b off n := by
  simp only [pageBytes, look_writeList, List.map_inj_left, List.mem_range]
  intro i hi
  rw [if_neg (by omega)]

/-- A mailbox with an answer in it (R419, R421). -/
def finishedBox (status : BitVec 8) (detail : BitVec 16) (payload : List Byte) (seq : BitVec 16) (taken done : Word)
    (b : MboxSt) : MboxSt :=
  { b with
    page := writeList 8 (answerBytes status detail payload.length seq taken done) (writeList 0x40 payload b.page)
    st := 2, resp := none, effected := false }

theorem length_bytesOf (n : Nat) (w : Word) : (bytesOf n w).length = n := by simp [bytesOf]

theorem length_answerBytes (status : BitVec 8) (detail : BitVec 16) (n : Nat) (seq : BitVec 16) (taken done : Word) :
    (answerBytes status detail n seq taken done).length = 24 := by simp [answerBytes, length_bytesOf]

/-- The answer's three words stand at 0x08, 0x10 and 0x18, its payload at 0x40, and no other byte of the page changes. -/
theorem answerPage_finishedBox (status : BitVec 8) (detail : BitVec 16) (payload : List Byte) (seq : BitVec 16)
    (taken done : Word) (b b' : MboxSt) (h : b'.page = (finishedBox status detail payload seq taken done b).page) :
    AnswerPage status detail payload seq taken done b b' := by
  have hpage (off n : Nat) : pageBytes b' off n = pageBytes (finishedBox status detail payload seq taken done b) off n := by
    unfold pageBytes
    rw [h]
  have hword (k : Nat) (hk : k + 8 ≤ 24) : pageBytes b' (8 + k) 8
      = ((answerBytes status detail payload.length seq taken done).drop k).take 8 := by
    rw [hpage]
    exact pageBytes_writeList { b with page := writeList 0x40 payload b.page } _ 8 k 8 (by rw [length_answerBytes]; exact hk)
  have hlook (k : Nat) (hk : k < 8 ∨ 0x20 ≤ k) : look 0 b'.page k = look 0 (writeList 0x40 payload b.page) k := by
    rw [h, finishedBox, look_writeList, length_answerBytes, if_neg (by omega)]
  refine ⟨?_, ?_, ?_, ?_, ?_⟩
  · rw [pageWord, hword 0 (by omega)]
    rw [answerBytes, List.drop_zero, List.append_assoc, List.take_left' (by simp [length_bytesOf]), wordOf_bytesOf]
  · rw [pageWord, hword 8 (by omega)]
    rw [answerBytes, List.append_assoc, List.drop_left' (by simp [length_bytesOf]),
      List.take_left' (by simp [length_bytesOf]), wordOf_bytesOf]
  · rw [pageWord, hword 16 (by omega)]
    rw [answerBytes, List.drop_left' (by simp [length_bytesOf]), List.take_of_length_le (by simp [length_bytesOf]), wordOf_bytesOf]
  · rw [hpage]
    refine (pageBytes_writeList_other { b with page := writeList 0x40 payload b.page } _ 8 0x40 _
      (by rw [length_answerBytes]; omega)).trans ?_
    refine (pageBytes_writeList b payload 0x40 0 payload.length (by omega)).trans ?_
    simp
  · intro k hk
    rw [hlook k (by omega), look_writeList, if_neg (by omega)]

/-! ## Completing a command -/

/-- An operation that leaves the Wright alone leaves its mailboxes. -/
theorem Keeps.box_eq (h : Keeps P s u) (hw : Piece.wr ∉ P := by decide) (k : Mbox) : box u k = box s k :=
  by
  have e : u.wr.noLog = s.wr.noLog := h .wr hw
  change look MboxSt.reset u.wr.noLog.boxes (boxKey k) = look MboxSt.reset s.wr.noLog.boxes (boxKey k)
  rw [e]

theorem Keeps.order_eq (h : Keeps P s u) (hw : Piece.wr ∉ P := by decide) : u.wr.order = s.wr.order :=
  by
  have e : u.wr.noLog = s.wr.noLog := h .wr hw
  change u.wr.noLog.order = s.wr.noLog.order
  rw [e]

theorem keeps_signalBox (m : Mbox) (status : BitVec 8) (seq : BitVec 16) (n : Nat) :
    Keeps [.thr, .ridge, .bw, .xing, .out, .wake, .pba] s (signalBox m status seq n s) :=
  (keeps_refl _ s).signalBox

/-- A mailbox that is not a device's signals by a message or an in-band interrupt: no thread takes an event. -/
theorem keeps_signalBox_external (hm : ∀ d, m ≠ .dev d) (status : BitVec 8) (seq : BitVec 16) (n : Nat) :
    Keeps [.bw, .out, .pba, .ridge, .xing] s (signalBox m status seq n s) := by
  have h := keeps_refl [.bw, .out, .pba, .ridge, .xing] s
  unfold signalBox
  cases m with
  | host k => exact h.sendMsi.ite h
  | mgmt => exact h.emit.ite h
  | mgmtUrgent => exact h.emit.ite h
  | dev d => exact absurd rfl (hm d)

theorem box_finishBox (status : BitVec 8) (detail : BitVec 16) (payload : List Byte) (seq : BitVec 16) (taken : Word) (k : Mbox) :
    box (finishBox m status detail payload seq taken s) k =
      if k = m then finishedBox status detail payload seq taken s.time.now (box s m) else box s k := by
  rw [finishBox, (keeps_signalBox m status seq payload.length).box_eq, box_updBox]
  rfl

theorem order_finishBox (status : BitVec 8) (detail : BitVec 16) (payload : List Byte) (seq : BitVec 16) (taken : Word) :
    (finishBox m status detail payload seq taken s).wr.order = s.wr.order :=
  (keeps_signalBox m status seq payload.length).order_eq

theorem keeps_finishBox_external (hm : ∀ d, m ≠ .dev d) (status : BitVec 8) (detail : BitVec 16) (payload : List Byte)
    (seq : BitVec 16) (taken : Word) :
    Keeps [.wr, .bw, .out, .pba, .ridge, .xing] s (finishBox m status detail payload seq taken s) :=
  (keeps_refl [.wr, .bw, .out, .pba, .ridge, .xing] s).updBox.via (keeps_signalBox_external hm status seq payload.length)
    (by decide)

/-! ## A ringing write -/

/-- The doorbell's fields, as a write of `v` leaves them. -/
def rungBox (m : Mbox) (v : Word) (b : MboxSt) : MboxSt :=
  { b with
    vec := match m with | .dev _ => (v.extractLsb' 16 10).setWidth 11 | _ => v.extractLsb' 16 11
    kind := match m with | .dev _ => v.getLsbD 26 | _ => b.kind
    vecEn := v.getLsbD 27 }

/-- The state once a write of `v` has left the doorbell's fields. -/
def rungState (m : Mbox) (v : Word) (s : State) : State := updBox m (rungBox m v) s

theorem activateTaken_rungState (v : Word) : activateTaken (rungState m v s) = activateTaken s := by
  unfold activateTaken
  congr 1
  funext k
  have h : look MboxSt.reset (rungState m v s).wr.boxes k =
      if k = boxKey m then rungBox m v (look MboxSt.reset s.wr.boxes k) else look MboxSt.reset s.wr.boxes k := by
    by_cases hk : k = boxKey m
    · subst hk; simp [rungState, updBox, look_edit]
    · simp [rungState, updBox, look_edit, hk]
  rw [h]
  split <;> rfl

theorem boxBusy_rungState (v : Word) : boxBusy (rungState m v s) m = boxBusy s m := by
  unfold boxBusy
  rw [activateTaken_rungState]
  rfl

/-- The answer of a mailbox that does not take the command it is rung for. -/
def refusal (m : Mbox) (v : Word) (status : BitVec 8) (s : State) : State :=
  finishBox m status 0 [] (v.extractLsb' 0 16) 0 (rungState m v s)

/-- What taking a command does to its mailbox (R420). -/
def takeBox (m : Mbox) (v : Word) (now : Word) (b : MboxSt) : MboxSt :=
  { b with
    page := writeList 0x10 (bytesOf 8 now) b.page
    st := 1, lastSeq := v.extractLsb' 0 16, tTaken := now, resp := refuseCode b m, effected := false }

/-- A command is taken: it stands in its mailbox, and behind those taken before it unless it is urgent. -/
def takenState (m : Mbox) (v : Word) (s : State) : State :=
  let u := updBox m (takeBox m v s.time.now) (rungState m v s)
  if isUrgent m then u else updWr (fun w => { w with order := w.order.filter (fun x => x ≠ m) ++ [m] }) u

/-- A ringing write, case by case (R420). -/
theorem ringNow_eq (v : Word) : ringNow m v s =
    if (box s m).st = 1 then updBox m (fun _ => { box s m with refused := satInc (box s m).refused }) (rungState m v s)
    else if s.pw.mode = 1 || s.pw.mode = 0 then refusal m v 0x0C s
    else if !isUrgent m && boxBusy (rungState m v s) m then refusal m v 0x01 s
    else if !isUrgent m && (s.wr.st = .stopped || s.wr.st = .off) then refusal m v 0x0C s
    else if boxSeq (box s m) = v.extractLsb' 0 16 && v.extractLsb' 0 16 = (box s m).lastSeq && (box s m).st = 2 then
      signalBox m ((pageWord (box s m) 8).extractLsb' 0 8) ((pageWord (box s m) 8).extractLsb' 32 16)
        ((pageWord (box s m) 8).extractLsb' 16 12).toNat (rungState m v s)
    else if boxSeq (box s m) ≠ v.extractLsb' 0 16 then refusal m v 0x0B s
    else takenState m v s := by
  unfold ringNow refusal takenState rungState
  rfl

theorem box_refusal (v : Word) (status : BitVec 8) (k : Mbox) :
    box (refusal m v status s) k =
      if k = m then finishedBox status 0 [] (v.extractLsb' 0 16) 0 s.time.now (rungBox m v (box s m)) else box s k := by
  rw [refusal, box_finishBox]
  split
  · simp [rungState]
  · simp [rungState, *]

theorem box_takenState (v : Word) (k : Mbox) :
    box (takenState m v s) k = if k = m then takeBox m v s.time.now (rungBox m v (box s m)) else box s k := by
  have h : box (takenState m v s) k = box (updBox m (takeBox m v s.time.now) (rungState m v s)) k := by
    unfold takenState
    dsimp only
    split
    · rfl
    · rfl
  rw [h]
  by_cases hk : k = m
  · simp [rungState, hk]
  · simp [rungState, hk]

theorem order_takenState (v : Word) : (takenState m v s).wr.order =
    if isUrgent m then s.wr.order else s.wr.order.filter (fun k => k ≠ m) ++ [m] := by
  unfold takenState
  dsimp only
  split
  · rfl
  · rfl

theorem box_signal (v : Word) (status : BitVec 8) (seq : BitVec 16) (n : Nat) (k : Mbox) :
    box (signalBox m status seq n (rungState m v s)) k = if k = m then rungBox m v (box s m) else box s k := by
  rw [(keeps_signalBox m status seq n).box_eq, rungState, box_updBox]

/-- A ringing write changes no other mailbox. -/
theorem box_ringNow_other (v : Word) {k : Mbox} (hk : k ≠ m) : box (ringNow m v s) k = box s k := by
  rw [ringNow_eq]
  split_ifs
  · simp [rungState, hk]
  · rw [box_refusal, if_neg hk]
  · rw [box_refusal, if_neg hk]
  · rw [box_refusal, if_neg hk]
  · rw [box_signal, if_neg hk]
  · rw [box_refusal, if_neg hk]
  · rw [box_takenState, if_neg hk]

theorem keeps_updWr_order (f : List Mbox → List Mbox) : Keeps [.wr] s (updWr (fun w => { w with order := f w.order }) s) := by
  intro p hp
  cases p <;> simp_all [Piece.same]

theorem keeps_ringNow_external (hm : ∀ d, m ≠ .dev d) (v : Word) :
    Keeps [.wr, .bw, .out, .pba, .ridge, .xing] s (ringNow m v s) := by
  have h : Keeps [.wr, .bw, .out, .pba, .ridge, .xing] s (rungState m v s) := (keeps_refl _ s).updBox
  have hrefused (x : BitVec 8) : Keeps [.wr, .bw, .out, .pba, .ridge, .xing] s (refusal m v x s) :=
    keeps_trans h (keeps_finishBox_external hm x 0 [] (v.extractLsb' 0 16) 0)
  have htaken : Keeps [.wr, .bw, .out, .pba, .ridge, .xing] s (takenState m v s) := by
    have ht : Keeps [.wr, .bw, .out, .pba, .ridge, .xing] s (updBox m (takeBox m v s.time.now) (rungState m v s)) := h.updBox
    exact Keeps.ite ht (ht.via (keeps_updWr_order (fun o => o.filter (fun k => k ≠ m) ++ [m])) (by decide))
  rw [ringNow_eq]
  refine Keeps.ite h.updBox <| Keeps.ite (hrefused _) <| Keeps.ite (hrefused _) <| Keeps.ite (hrefused _) <|
    Keeps.ite ?_ <| Keeps.ite (hrefused _) htaken
  exact h.via (keeps_signalBox_external hm _ _ _) (by decide)

/-- A command that host mailbox 7 was rung for outside its own channel is answered STATE (R361). -/
theorem ringTaken_eq (v : Word) (refuse : Bool) : ringTaken m v refuse s =
    if refuse = true ∧ (box s m).st ≠ 1 ∧ (box (ringNow m v s) m).st = 1 then
      updBox m (fun b => { b with resp := some ⟨6, 0, []⟩ }) (ringNow m v s)
    else ringNow m v s := by
  unfold ringTaken
  simp only [Bool.and_eq_true, decide_eq_true_eq, and_assoc]
  rfl

theorem box_ringTaken_other (v : Word) (refuse : Bool) {k : Mbox} (hk : k ≠ m) : box (ringTaken m v refuse s) k = box s k := by
  rw [ringTaken_eq]
  split
  · rw [box_updBox, if_neg hk, box_ringNow_other v hk]
  · exact box_ringNow_other v hk

theorem keeps_ringTaken_external (hm : ∀ d, m ≠ .dev d) (v : Word) (refuse : Bool) :
    Keeps [.wr, .bw, .out, .pba, .ridge, .xing] s (ringTaken m v refuse s) := by
  rw [ringTaken_eq]
  exact Keeps.ite (keeps_ringNow_external hm v).updBox (keeps_ringNow_external hm v)

/-- A ringing write that takes no command is answered, or counted, as it stands. -/
theorem ringTaken_untaken (v : Word) (refuse : Bool) (h : (box s m).st = 1 ∨ (box (ringNow m v s) m).st ≠ 1) :
    ringTaken m v refuse s = ringNow m v s := by
  rw [ringTaken_eq, if_neg]
  rintro ⟨_, h1, h2⟩
  rcases h with h | h
  · exact h1 h
  · exact h h2

theorem mode_of_served (h0 : s.pw.mode ≠ 0) (h1 : s.pw.mode ≠ 1) : ¬ (s.pw.mode = 1 || s.pw.mode = 0) = true := by
  simpa using ⟨h1, h0⟩

/-- A mailbox whose commands may be taken is not busy, and its commands are served (R420). -/
theorem ringNow_served (v : Word) (h : (box s m).st ≠ 1) (h0 : s.pw.mode ≠ 0) (h1 : s.pw.mode ≠ 1)
    (hserve : isUrgent m = true ∨ (s.wr.st = .serving ∧ activateTaken s = false ∧ s.wr.update = .none)) :
    ringNow m v s =
      if boxSeq (box s m) = v.extractLsb' 0 16 && v.extractLsb' 0 16 = (box s m).lastSeq && (box s m).st = 2 then
        signalBox m ((pageWord (box s m) 8).extractLsb' 0 8) ((pageWord (box s m) 8).extractLsb' 32 16)
          ((pageWord (box s m) 8).extractLsb' 16 12).toNat (rungState m v s)
      else if boxSeq (box s m) ≠ v.extractLsb' 0 16 then refusal m v 0x0B s
      else takenState m v s := by
  have hbusy : ¬ (!isUrgent m && boxBusy (rungState m v s) m) = true := by
    rw [boxBusy_rungState]
    rcases hserve with hu | ⟨hst, ha, hup⟩
    · simp [hu]
    · simp [boxBusy, hst, ha, hup]
  have hoff : ¬ (!isUrgent m && (s.wr.st = .stopped || s.wr.st = .off)) = true := by
    rcases hserve with hu | ⟨hst, _, _⟩
    · simp [hu]
    · simp [hst]
  rw [ringNow_eq, if_neg h, if_neg (mode_of_served h0 h1), if_neg hbusy, if_neg hoff]

theorem refuseCode_rungBox (v : Word) (b : MboxSt) : refuseCode (rungBox m v b) m = refuseCode b m := rfl

/-- What host mailbox 7 rung outside its own channel changes in an answer decided when the command is taken. -/
theorem resp_ringTaken (v : Word) (refuse : Bool) (hst : (box s m).st ≠ 1) (hr : ringNow m v s = takenState m v s) :
    box (ringTaken m v refuse s) m = { takeBox m v s.time.now (rungBox m v (box s m)) with
      resp := if refuse then some ⟨6, 0, []⟩ else refuseCode (box s m) m } := by
  have hbox : box (takenState m v s) m = takeBox m v s.time.now (rungBox m v (box s m)) := by rw [box_takenState, if_pos rfl]
  cases refuse with
  | false => rw [ringTaken_eq, if_neg (by simp), hr, hbox]; rfl
  | true =>
    rw [ringTaken_eq, hr, if_pos ⟨rfl, hst, by rw [hbox]; rfl⟩, box_updBox, if_pos rfl, hbox]
    rfl

theorem order_ringTaken (v : Word) (refuse : Bool) (hr : ringNow m v s = takenState m v s) :
    (ringTaken m v refuse s).wr.order = if isUrgent m then s.wr.order else s.wr.order.filter (fun k => k ≠ m) ++ [m] := by
  rw [ringTaken_eq, hr]
  split
  · exact order_takenState v
  · exact order_takenState v

/-- A ringing write ends in one of the cases of R420. -/
theorem rung_ringTaken (v : Word) (refuse : Bool) (hrefuse : refuse = true → m = .host 7)
    (hvc : m = .host 7 → s.ep.cfg.vc1En = false → refuse = true) :
    Rung m (v.extractLsb' 0 16) (box s m) (rungBox m v (box s m)) s (ringTaken m v refuse s) := by
  have hanswers (status : BitVec 8) (hst : (box s m).st ≠ 1) (hr : ringNow m v s = refusal m v status s) :
      let x := box (ringTaken m v refuse s) m
      x.st = 2 ∧ x.lastSeq = (box s m).lastSeq ∧ x.vec = (rungBox m v (box s m)).vec ∧
        x.vecEn = (rungBox m v (box s m)).vecEn ∧ x.refused = (box s m).refused ∧
        AnswerPage status 0 [] (v.extractLsb' 0 16) 0 s.time.now (box s m) x := by
    have hx : box (ringTaken m v refuse s) m
        = finishedBox status 0 [] (v.extractLsb' 0 16) 0 s.time.now (rungBox m v (box s m)) := by
      have hbox : box (ringNow m v s) m
          = finishedBox status 0 [] (v.extractLsb' 0 16) 0 s.time.now (rungBox m v (box s m)) := by
        rw [hr, box_refusal, if_pos rfl]
      rw [ringTaken_untaken v refuse (.inr (by rw [hbox]; exact (by decide : (2 : BitVec 2) ≠ 1))), hbox]
    intro x
    refine ⟨?_, ?_, ?_, ?_, ?_, answerPage_finishedBox _ _ _ _ _ _ _ _ ?_⟩
    all_goals simp only [x, hx]; rfl
  unfold Rung
  intro x mode answers served
  refine ⟨fun h => ?_, fun h hmode => ?_, fun h h0 h1 hu => ⟨fun hw => ?_, fun hw => ?_⟩, fun h hs hseq hlast => ?_,
    fun h hs hseq => ?_, fun h hs hseq hnew => ?_⟩
  · change box _ m = _
    rw [ringTaken_untaken v refuse (.inl h), ringNow_eq, if_pos h, box_updBox, if_pos rfl]
  · refine hanswers _ h ?_
    rw [ringNow_eq, if_neg h, if_pos (by simpa using hmode.symm)]
  · refine hanswers _ h ?_
    rw [ringNow_eq, if_neg h, if_neg (mode_of_served h0 h1), if_pos]
    rw [boxBusy_rungState, hu]
    rcases hw with hw | ⟨hw, ha⟩
    · simp [boxBusy, hw]
    · simp [boxBusy, hw, ha]
  · refine hanswers _ h ?_
    rw [ringNow_eq, if_neg h, if_neg (mode_of_served h0 h1), if_neg, if_pos (by simp [hu, hw])]
    rw [boxBusy_rungState]
    simp [boxBusy, hw]
  · obtain ⟨h0, h1, hserve⟩ := hs
    have hst : (box s m).st ≠ 1 := by rw [h]; decide
    have hr := ringNow_served v hst h0 h1 hserve
    rw [if_pos (by simp [hseq, hlast.symm, h])] at hr
    have hbox := congrArg (fun w => box w m) hr
    simp only [box_signal, if_pos] at hbox
    change box _ m = _
    rw [ringTaken_untaken v refuse (.inr (by rw [hbox]; simp [rungBox, h])), hbox]
  · obtain ⟨h0, h1, hserve⟩ := hs
    refine hanswers _ h ?_
    rw [ringNow_served v h h0 h1 hserve, if_neg (by simp [hseq]), if_pos hseq]
  · obtain ⟨h0, h1, hserve⟩ := hs
    have hr : ringNow m v s = takenState m v s := by
      rw [ringNow_served v h h0 h1 hserve, if_neg, if_neg (by simpa using hseq)]
      simp only [Bool.and_eq_true, decide_eq_true_eq, not_and]
      rintro ⟨_, hlast⟩ h2
      exact hnew ⟨hlast, h2⟩
    have hx := resp_ringTaken v refuse h hr
    have ho := order_ringTaken v refuse hr
    have hresp : x.resp = if refuse then some ⟨6, 0, []⟩ else refuseCode (box s m) m := congrArg MboxSt.resp hx
    have hanswer (r : Resp) (hc : refuseCode (box s m) m = some r) :
        x.resp = some r ∨ (m = .host 7 ∧ x.resp = some ⟨6, 0, []⟩) := by
      cases refuse with
      | false => exact .inl (hresp.trans hc)
      | true => exact .inr ⟨hrefuse rfl, hresp⟩
    refine ⟨?_, fun hc => hanswer _ ?_, fun hd hc => hanswer _ ?_, fun hd hc hm => ?_, fun hm hv => ?_, fun hu => ?_, fun hu => ?_⟩
    · rw [hresp]; exact hx
    · simp [refuseCode, hc, stBadCode]
    · simp [refuseCode, hc, hd, stDenied]
    · have hrf : refuse = false := by
        cases refuse with
        | false => rfl
        | true => exact absurd (hrefuse rfl) hm
      rw [hresp, hrf]
      simp [refuseCode, hc, hd]
    · rw [hresp, hvc hm hv]
      rfl
    · rw [ho, if_neg (by simp [hu])]
    · rw [ho, if_pos hu]

/-! ## The obligation -/

theorem dieOfThr_lt (t : Thr) : dieOfThr t < 4 := by
  cases t with
  | core i => unfold dieOfThr; dsimp only; omega
  | adze j => unfold dieOfThr; dsimp only; omega

/-- A device mailbox's doorbell lies in its die's register space, behind the mailbox pages. -/
theorem spaceOf_devDoorbell (t : Thr) (k : Fin 16) :
    spaceOf (devDoorbell t k) = .dieReg (dieOfThr t) (0x1910000 + 8 * k.val) := by
  have hd := dieOfThr_lt t
  have hk := k.isLt
  have ha : (devDoorbell t k).toNat = 0xF00010000000 + dieOfThr t * 0x2000000 + 0x1900000 + (0x10000 + 8 * k.val) := by
    simp only [devDoorbell, devBoxAddr, BitVec.toNat_ofNat]
    omega
  have hdie : ((devDoorbell t k).toNat - 0xF00010000000) / 0x2000000 = dieOfThr t := by omega
  have hoff : ((devDoorbell t k).toNat - 0xF00010000000) % 0x2000000 = 0x1910000 + 8 * k.val := by omega
  unfold spaceOf
  dsimp only
  rw [if_neg (by omega), if_neg (by simp; omega), if_neg (by omega), if_neg (by omega), if_neg (by simp; omega),
    if_pos (by simp; omega), hdie, hoff]

theorem dieUnit_doorbell (d : Nat) (k : Fin 16) : dieUnit d (0x1910000 + 8 * k.val) = .devBox k.val := by
  have hk := k.isLt
  unfold dieUnit
  rw [if_neg (by simp; omega), if_neg (by simp; omega), if_neg (by simp; omega), if_neg (by simp; omega),
    if_neg (by simp), if_pos (by simp; omega), Nat.add_sub_cancel_left,
    Nat.mul_div_cancel_left _ (by decide)]

theorem devBox_val (k : Fin 16) : devBox k.val = .dev k := by simp [devBox]

theorem deviceWrite_devBox {t : Thr} {id : Option Nat} {pa : BitVec 48} {n d off k : Nat} {v : Word} {lost : BitVec 16}
    (hspace : spaceOf pa = .dieReg d off) (hunit : dieUnit d off = .devBox k) (hoff : ¬ off < 0x1910000) :
    (deviceWrite t id pa n v lost s).2 =
      if n = 8 then ringBox (devBox k) v false s
      else updBox (devBox k) (fun b => { b with refused := satInc b.refused }) s := by
  unfold deviceWrite
  rw [hspace]
  dsimp only
  rw [hunit]
  dsimp only
  rw [if_neg hoff]
  by_cases hn : n = 8
  · rw [if_pos hn, if_pos (by simp [hn])]
  · rw [if_neg hn, if_neg (by simp [hn])]

/-- A write of a device mailbox's doorbell rings it, or is counted where it is one of 4 bytes. -/
theorem deviceWrite_doorbell (t : Thr) (k : Fin 16) (id : Option Nat) (v : Word) (lost : BitVec 16) (eight : Bool) :
    (deviceWrite t id (devDoorbell t k) (if eight then 8 else 4) v lost s).2 =
      if eight then ringBox (.dev k) v false s
      else updBox (.dev k) (fun b => { b with refused := satInc b.refused }) s := by
  rw [deviceWrite_devBox (spaceOf_devDoorbell t k) (dieUnit_doorbell _ k) (Nat.not_lt.2 (Nat.le_add_right _ _)), devBox_val]
  cases eight with
  | true => rfl
  | false => rfl

theorem ringBox_running (v : Word) (refuse : Bool) (h : isUrgent m = true ∨ s.pw.clkWright = false) :
    ringBox m v refuse s = ringTaken m v refuse s := by
  unfold ringBox
  rw [if_neg]
  rcases h with h | h
  · simp [h]
  · simp [h]

/-- A served doorbell of the host or of the management port reaches its mailbox; a host's write is counted as host
traffic. -/
theorem mboxDoorbell_reaches (v : Word) (eight vc1 : Bool) (hm : ∀ d, m ≠ .dev d) (hserved : boxServed s m = true)
    (hclk : (∀ k, m ≠ .host k) → clockStopped s .sill = false)
    (hvc : ∀ k, m = .host k → (vc1 = true → s.ep.cfg.vc1En = true ∧ k.val = 7) ∧ (k.val = 7 → s.ep.cfg.vc1En = vc1)) :
    ∃ w, (w = s ∨ w = countBytes 0 (if eight then 8 else 4) s) ∧
      exec (.mboxDoorbell m v eight vc1) s = .next (doorbellWrite m v eight vc1 w) := by
  cases m with
  | host k =>
    obtain ⟨hvc1, hk7⟩ := hvc k rfl
    have hep : clockStopped s .endpoint = false := by
      simp only [boxServed, hostServed, Bool.and_eq_true] at hserved
      simpa [clockStopped] using hserved.2
    have hright : vcWrong s (0x18000 + 8 * k.val) vc1 = false := by
      have hlt := k.isLt
      cases vc1 with
      | true =>
        have h7 := (hvc1 rfl).2
        simp [vcWrong, vc1Writes, inMailbox7, h7]
      | false =>
        by_cases h7 : k.val = 7
        · simp [vcWrong, hk7 h7]
        · have : ¬ (0x38 ≤ 8 * k.val) := by omega
          simp [vcWrong, inMailbox7]
          omega
    refine ⟨_, .inr rfl, ?_⟩
    change execMboxDoorbell _ v eight vc1 s = _
    unfold execMboxDoorbell throughBox
    dsimp only
    unfold through
    rw [if_neg (by rw [hep]; simp)]
    dsimp only
    rw [if_neg (by rw [hserved]; simp), if_neg, if_neg (by rw [hright]; simp)]
    cases vc1 with
    | true => simp [(hvc1 rfl).1]
    | false => simp
  | dev d => exact absurd rfl (hm d)
  | mgmt =>
    refine ⟨s, .inl rfl, ?_⟩
    have hsill := hclk (by simp)
    change execMboxDoorbell _ v eight vc1 s = _
    unfold execMboxDoorbell throughBox
    dsimp only
    unfold through
    rw [if_neg (by rw [hsill]; simp)]
    dsimp only
    rw [if_neg (by rw [hserved]; simp)]
  | mgmtUrgent =>
    refine ⟨s, .inl rfl, ?_⟩
    have hsill := hclk (by simp)
    change execMboxDoorbell _ v eight vc1 s = _
    unfold execMboxDoorbell throughBox
    dsimp only
    unfold through
    rw [if_neg (by rw [hsill]; simp)]
    dsimp only
    rw [if_neg (by rw [hserved]; simp)]

theorem rungBox_external (hm : ∀ d, m ≠ .dev d) (v : Word) (b : MboxSt) :
    rungBox m v b = { b with vec := v.extractLsb' 16 11, vecEn := v.getLsbD 27 } := by
  cases m with
  | dev d => exact absurd rfl (hm d)
  | host k => rfl
  | mgmt => rfl
  | mgmtUrgent => rfl

/-- A command is complete: its answer stands in its page, and it waits in no order (R421). -/
theorem commandComplete_next {r : Resp} (hr : (box s m).resp = some r) (hw : isUrgent m = true ∨ s.wr.st ≠ .restarting)
    (hreset : ¬ (boxCode (box s m) = 0x307 ∧ r.status = 0)) :
    exec (.commandComplete m) s = .next (finishBox m r.status r.detail r.payload (box s m).lastSeq (box s m).tTaken
      (updWr (fun w => { w with order := w.order.filter (fun k => k ≠ m) }) s)) := by
  have hkept : ¬ (decide (boxCode (box s m) = 0x307) && decide (r.status = stOk)) = true :=
    fun hb => hreset (((Bool.and_eq_true _ _).mp hb).imp of_decide_eq_true of_decide_eq_true)
  change execCommandComplete m s = _
  unfold execCommandComplete
  dsimp only
  rw [hr]
  dsimp only
  rw [if_neg (by rcases hw with h | h <;> simp [h]), if_neg hkept]

/-- Settles O45: a ringing write by the cases of R420 (`rung_ringTaken`), a completion by what it writes into the page
(`answerPage_finishedBox`). -/
theorem mailboxes : Obligations.Mailboxes := by
  unfold Obligations.Mailboxes
  intro s m v b others
  refine ⟨fun vc1 hm hserved hclk hvc => ⟨fun hrun => ?_, ?_⟩, ?_, fun r hr hw hreset => ?_, fun hr => ?_⟩
  · obtain ⟨w, hw, hexec⟩ := mboxDoorbell_reaches v true vc1 hm hserved hclk hvc
    have hrung : ∀ x, x = s ∨ x = countBytes 0 8 s → Rung m (v.extractLsb' 0 16) b
        { b with vec := v.extractLsb' 16 11, vecEn := v.getLsbD 27 } s (ringTaken m v (m = .host 7 && !vc1) x) := by
      intro x hx
      have hrefuse : (decide (m = .host 7) && !vc1) = true → m = .host 7 := by simp; tauto
      have hoff : m = .host 7 → s.ep.cfg.vc1En = false → (decide (m = .host 7) && !vc1) = true := by
        intro hm7 hv
        have := (hvc 7 hm7).2 rfl
        simp [hm7, ← this, hv]
      rw [← rungBox_external hm]
      rcases hx with rfl | rfl
      · exact rung_ringTaken v _ hrefuse hoff
      · exact rung_ringTaken (s := countBytes 0 8 s) v _ hrefuse hoff
    have hkeeps : Keeps [.wr, .bw, .out, .pba, .ridge, .xing] s w := by
      rcases hw with rfl | rfl
      · exact keeps_refl _ _
      · exact (keeps_refl _ s).countBytes
    have hring : doorbellWrite m v true vc1 w = ringTaken m v (m = .host 7 && !vc1) w := by
      refine ringBox_running v _ ?_
      rcases hw with rfl | rfl
      · exact hrun
      · exact hrun
    refine ⟨_, hexec, ?_⟩
    rw [hring]
    refine ⟨fun k hk => ?_, hkeeps.via (keeps_ringTaken_external hm v _) (by decide), hrung w hw⟩
    rw [box_ringTaken_other v _ hk]
    rcases hw with rfl | rfl <;> rfl
  · obtain ⟨w, hw, hexec⟩ := mboxDoorbell_reaches v false vc1 hm hserved hclk hvc
    have hkeeps : Keeps [.wr, .bw] s w := by
      rcases hw with rfl | rfl
      · exact keeps_refl _ _
      · exact (keeps_refl _ s).countBytes
    have hbox (k : Mbox) : box w k = box s k := by rcases hw with rfl | rfl <;> rfl
    refine ⟨_, hexec, fun k hk => ?_, hkeeps.updBox, ?_⟩
    · simp [doorbellWrite, hk, hbox]
    · simp [doorbellWrite, hbox, b]
  · rintro k t rfl hon hrun hok
    have hreach : threadReaches s t (devDoorbell t k) = true := by simp [threadReaches, hon, hrun, hok]
    have hexec (eight : Bool) : exec (.dmboxDoorbell t k v eight) s = .next
        (if eight then ringBox (.dev k) v false s
          else updBox (.dev k) (fun b => { b with refused := satInc b.refused }) s) := by
      change execDmboxDoorbell t k v eight s = _
      unfold execDmboxDoorbell
      rw [if_neg (by rw [hreach]; simp), deviceWrite_doorbell]
    refine ⟨fun hclk => ⟨_, hexec true, ?_, ?_⟩, ⟨_, hexec false, fun k' hk => ?_, (keeps_refl _ s).updBox, ?_⟩⟩
    · intro k' hk
      rw [if_pos rfl, ringBox_running v false (.inr hclk), box_ringTaken_other v false hk]
    · rw [if_pos rfl, ringBox_running v false (.inr hclk)]
      exact rung_ringTaken v false (by simp) (by simp)
    · simp [hk]
    · simp [b]
  · have hbox := box_finishBox (m := m) (s := updWr (fun w => { w with order := w.order.filter (fun k => k ≠ m) }) s)
      r.status r.detail r.payload b.lastSeq b.tTaken
    have hm := (hbox m).trans (if_pos rfl)
    refine ⟨_, commandComplete_next hr hw hreset, fun k hk => (hbox k).trans (if_neg hk), ?_, ?_, ?_, ?_, ?_⟩
    · rw [hm]; rfl
    · rw [hm]; rfl
    · rw [hm]; rfl
    · rw [order_finishBox]
      simp
    · rw [hm]
      exact answerPage_finishedBox _ _ _ _ _ _ _ _ rfl
  · change execCommandComplete m s = _
    unfold execCommandComplete
    dsimp only
    rw [show (box s m).resp = none from hr]

end Sys2Proof.Machine
end

section
/-! The registers of an engine and its scratch scrubber (R265, R266, R279). -/
namespace Sys2Proof.Machine
set_option Elab.async false
variable {s u : State}

/-! ## ADZ_RUN -/

/-- A thread of an engine that ADZ_RUN has started (R265). -/
def startedAdze (e : Nat) (start : BitVec 16) : Thread :=
  { Thread.reset with pc := (BitVec.ofNat 48 (scratchBase e + start.toNat * 4)).signExtend 64, run := .running }

/-- A thread of a powered engine starts at M from its reset values, unless it has started. -/
theorem startAdze_eq (e : Fin 64) (k : Fin 8) (hp : (cluster s (e.val / 4)).powered = true) :
    startAdze e.val k.val s =
      if (thr s (.adze ⟨8 * e.val + k.val, by omega⟩)).run = .notStarted then
        setThr (.adze ⟨8 * e.val + k.val, by omega⟩) (startedAdze e.val (engine s e.val).start) s
      else s := by
  have hlt : 8 * e.val + k.val < 512 := by omega
  have hwake : wakeCluster (e.val / 4) s = s := by
    unfold wakeCluster
    rw [if_pos hp]
  unfold startAdze thrOfIndex
  rw [if_pos rfl, dif_pos hlt]
  dsimp only
  rw [hwake]
  by_cases h : (thr s (.adze ⟨8 * e.val + k.val, hlt⟩)).run = .notStarted
  · rw [if_neg (by simp [startedThr, h]), if_pos h]
    rfl
  · rw [if_pos (by simp [startedThr, h]), if_neg h]

/-- The threads that a write of ADZ_RUN names are started one after the other. -/
def startNamed (e : Fin 64) (v : Word) (k : Nat) (s : State) : State := if v.getLsbD k then startAdze e.val k s else s

theorem keeps_startNamed (e : Fin 64) (v : Word) (k : Fin 8) (hp : (cluster s (e.val / 4)).powered = true) :
    Keeps [.thr] s (startNamed e v k.val s) := by
  unfold startNamed
  rw [startAdze_eq e k hp]
  have h := keeps_refl [.thr] s
  exact Keeps.ite (Keeps.ite h.setThr h) h

theorem thr_startNamed (e : Fin 64) (v : Word) (k : Fin 8) (hp : (cluster s (e.val / 4)).powered = true) (x : Thr) :
    thr (startNamed e v k.val s) x =
      if x = .adze ⟨8 * e.val + k.val, by omega⟩ ∧ v.getLsbD k.val = true ∧ (thr s x).run = .notStarted then
        startedAdze e.val (engine s e.val).start
      else thr s x := by
  unfold startNamed
  rw [startAdze_eq e k hp]
  by_cases hx : x = .adze ⟨8 * e.val + k.val, by omega⟩
  · subst hx
    cases hv : v.getLsbD k.val
    · simp
    · by_cases hr : (thr s (.adze ⟨8 * e.val + k.val, by omega⟩)).run = .notStarted
      · simp [hr]
      · simp [hr]
  · have hrest : ¬ (x = .adze ⟨8 * e.val + k.val, by omega⟩ ∧ v.getLsbD k.val = true ∧ (thr s x).run = .notStarted) :=
      fun h => hx h.1
    rw [if_neg hrest]
    split_ifs
    · rw [thr_setThr, if_neg hx]
    · rfl
    · rfl

/-- Of a list of an engine's threads, those that a write names and that have not started are started. -/
theorem thr_startEach (e : Fin 64) (v : Word) (l : List (Fin 8)) (hl : l.Nodup)
    (hp : (cluster s (e.val / 4)).powered = true) :
    Keeps [.thr] s (forEach (l.map Fin.val) (startNamed e v) s) ∧ ∀ x : Thr,
      thr (forEach (l.map Fin.val) (startNamed e v) s) x =
        if (∃ k ∈ l, x = .adze ⟨8 * e.val + k.val, by omega⟩ ∧ v.getLsbD k.val = true) ∧ (thr s x).run = .notStarted then
          startedAdze e.val (engine s e.val).start
        else thr s x := by
  induction l generalizing s with
  | nil => exact ⟨keeps_refl _ s, fun x => by simp⟩
  | cons k l ih =>
    have hk := keeps_startNamed (s := s) e v k hp
    have hthr := thr_startNamed (s := s) e v k hp
    obtain ⟨hnew, hl⟩ := List.nodup_cons.1 hl
    have hcluster : cluster (startNamed e v k.val s) (e.val / 4) = cluster s (e.val / 4) :=
      congrArg (fun t => look Cluster.reset t (e.val / 4)) (hk .cluster (by decide))
    have hengine : engine (startNamed e v k.val s) e.val = engine s e.val :=
      congrArg (fun t => look Engine.reset t e.val) (hk .eng (by decide))
    obtain ⟨hkeeps, hrest⟩ := ih (s := startNamed e v k.val s) hl (by rw [hcluster]; exact hp)
    refine ⟨keeps_trans hk hkeeps, fun x => ?_⟩
    rw [List.map_cons, forEach_cons, hrest x, hthr x, hengine]
    by_cases hx : x = .adze ⟨8 * e.val + k.val, by omega⟩ ∧ v.getLsbD k.val = true ∧ (thr s x).run = .notStarted
    · have hnow : ¬ (startedAdze e.val (engine s e.val).start).run = .notStarted := by simp [startedAdze]
      rw [if_pos hx, if_neg (fun h => hnow h.2), if_pos ⟨⟨k, List.mem_cons_self, hx.1, hx.2.1⟩, hx.2.2⟩]
    · rw [if_neg hx]
      refine if_congr (and_congr_left fun hr => ⟨?_, ?_⟩) rfl rfl
      · rintro ⟨j, hj, hxj⟩
        exact ⟨j, List.mem_cons_of_mem _ hj, hxj⟩
      · rintro ⟨j, hj, hxj⟩
        rcases List.mem_cons.1 hj with rfl | hj
        · exact absurd ⟨hxj.1, hxj.2, hr⟩ hx
        · exact ⟨j, hj, hxj⟩

/-- ADZ_RUN starts the threads that it names, from the address in its START field (R265). -/
theorem writeRun_eq (e : Fin 64) (v : Word) (hopen : (srcEnt s (.engine e)).isOpen = true)
    (hserve : (engine s e.val).outOfService = false) :
    writeRun e.val v s = forEach ((List.finRange 8).map Fin.val) (startNamed e v)
      (updEngine e.val (fun x => { x with start := v.extractLsb' 16 16 }) s) := by
  unfold writeRun
  dsimp only
  rw [dif_pos e.isLt, if_neg (by simp [hopen, hserve])]
  rfl

theorem cluster_of_engine (e : Fin 64) (f : Engine → Engine) : cluster (updEngine e.val f s) (e.val / 4) = cluster s (e.val / 4) := rfl

theorem adze_of_engine (e : Fin 64) (j : Fin 512) (v : Word) :
    (∃ k ∈ List.finRange 8, Thr.adze j = .adze ⟨8 * e.val + k.val, by omega⟩ ∧ v.getLsbD k.val = true) ↔
      j.val / 8 = e.val ∧ v.getLsbD (j.val % 8) = true := by
  constructor
  · rintro ⟨k, _, hj, hv⟩
    have hval : j.val = 8 * e.val + k.val := congrArg Fin.val (Thr.adze.inj hj)
    have hmod : j.val % 8 = k.val := by omega
    exact ⟨by omega, by rw [hmod]; exact hv⟩
  · rintro ⟨hj, hv⟩
    refine ⟨⟨j.val % 8, by omega⟩, List.mem_finRange _, ?_, hv⟩
    congr 1
    ext
    simp only
    omega

theorem core_not_adze (e : Fin 64) (i : Fin 640) (v : Word) :
    ¬ ∃ k ∈ List.finRange 8, Thr.core i = .adze ⟨8 * e.val + k.val, by omega⟩ ∧ v.getLsbD k.val = true := by
  rintro ⟨k, _, h, _⟩
  exact Thr.noConfusion h

/-! ## ADZ_SCR_CTL and the scrubber -/

theorem writeScrCtl_eq (e : Nat) (v : Word) (hsize : (v.extractLsb' 8 3).toNat ≤ 4) :
    writeScrCtl e v s =
      if (v.extractLsb' 0 8).toNat * 1024 + 8 * (2 ^ (v.extractLsb' 8 3).toNat * 256) ≤ 0x40000 then
        updEngine e (fun x => { x with
          ibufBase := v.extractLsb' 0 8, ibufSize := v.extractLsb' 8 3, scrubEn := v.getLsbD 12, lost := x.lost && !v.getLsbD 13 }) s
      else s := by
  unfold writeScrCtl
  dsimp only
  rw [if_neg (show ¬ 5 ≤ (v.extractLsb' 8 3 : BitVec 3).toNat by omega)]
  split_ifs
  · omega
  · rfl
  · rfl
  · omega

/-- The operations that leave the poisoned lines alone leave each line's poison. -/
theorem Keeps.isPoisoned_eq {P : List Piece} (h : Keeps P s u) (l : BitVec 42) (hp : Piece.poison ∉ P := by decide) :
    isPoisoned u l = isPoisoned s l := congrArg (fun x : List Nat => x.contains l.toNat) (h .poison hp)

theorem Keeps.engine_eq {P : List Piece} (h : Keeps P s u) (e : Nat) (hp : Piece.eng ∉ P := by decide) :
    engine u e = engine s e := congrArg (fun t => look Engine.reset t e) (h .eng hp)

theorem Keeps.cluster_eq {P : List Piece} (h : Keeps P s u) (k : Nat) (hp : Piece.cluster ∉ P := by decide) :
    cluster u k = cluster s k := congrArg (fun t => look Cluster.reset t k) (h .cluster hp)

theorem isPoisoned_poisonLine (l : BitVec 42) (w : Word) : isPoisoned (poisonLine l w s) l = true := by
  unfold poisonLine
  by_cases h : isPoisoned s l = true
  · rw [if_pos h]; exact h
  · rw [if_neg h]
    have hset : isPoisoned (setPoison l true s) l = true := by simp [isPoisoned]
    have h := (keeps_refl [.thr, .wake, .log] (setPoison l true s)).wrightEvent
      (type := 5) (a := at' (lineAddr l) 0) (b := w)
    dsimp only
    split
    · exact (h.partEvent.isPoisoned_eq l).trans hset
    · exact (h.isPoisoned_eq l).trans hset

/-- What an error found in an engine's scratch changes (R279). -/
theorem keeps_scratchFinds (e off : Nat) :
    scratchFinds e off .clean s = s ∧ scratchFinds e off .single s = updEngine e (fun x => { x with ce := satInc x.ce }) s ∧
      Keeps [.eng, .poison, .log, .thr, .wake] s (scratchFinds e off .double s) ∧
      engine (scratchFinds e off .double s) e
        = { engine s e with ue := satInc (engine s e).ue, lastUe := BitVec.ofNat 18 (off / 64 * 64) } ∧
      isPoisoned (scratchFinds e off .double s) (lineOf (BitVec.ofNat 48 (scratchBase e + off))) = true := by
  refine ⟨rfl, rfl, ?_, ?_, isPoisoned_poisonLine _ _⟩
  · exact (keeps_refl [.eng, .poison, .log, .thr, .wake] s).updEngine.poisonLine
  · refine ((keeps_refl [.poison, .log, .thr, .wake] _).poisonLine.engine_eq e).trans ?_
    simp

/-- An access of a running engine's scratch finds what its line holds (R279). -/
theorem scratchScrub_access {e : Fin 64} (l : BitVec 12) (found : EccFind) (hon : mainOn s = true)
    (hrun : (die s (dieOfEngine e.val)).stalled = false) (hp : (cluster s (e.val / 4)).powered = true) :
    exec (.scratchScrub e (some l) found) s = .next (scratchFinds e.val (l.toNat * 64) found s) := by
  change execScratchScrub e (some l) found s = _
  unfold execScratchScrub
  dsimp only
  rw [if_neg (by simp [hon, hrun, hp])]

/-- The scrubber reads the line at its pointer and moves on (R279). -/
theorem scratchScrub_scrubber {e : Fin 64} (found : EccFind) (hon : mainOn s = true)
    (hrun : (die s (dieOfEngine e.val)).stalled = false) (hp : (cluster s (e.val / 4)).powered = true)
    (hen : (engine s e.val).scrubEn = true) (hdue : (engine s e.val).scrubT.toNat + 2000 ≤ s.time.now.toNat) :
    exec (.scratchScrub e none found) s = .next (updEngine e.val (fun x => { x with scrubPtr := x.scrubPtr + 1, scrubT := s.time.now })
      (scratchFinds e.val ((engine s e.val).scrubPtr.toNat * 64) found s)) := by
  change execScratchScrub e none found s = _
  unfold execScratchScrub
  dsimp only
  rw [if_neg (by simp [hon, hrun, hp]), if_neg (by simp [scrubDue, hen, hdue])]

/-- Settles O32: each register by what its write does to the engine, and the scrubber by what a line's read finds. -/
theorem engineRegisters : Obligations.EngineRegisters := by
  unfold Obligations.EngineRegisters
  intro s e hon hrun x
  refine ⟨fun v hopen hserve hp => ?_, ?_, ?_⟩
  · have hexec : exec (.adzRunWrite e v) s = .next (writeRun e.val v s) := by
      change execAdzRunWrite e v s = _
      unfold execAdzRunWrite
      rw [if_pos (by simp [hon, hrun])]
      rfl
    rw [writeRun_eq e v hopen hserve] at hexec
    obtain ⟨hkeeps, hthr⟩ := thr_startEach (s := updEngine e.val (fun x => { x with start := v.extractLsb' 16 16 }) s) e v
      (List.finRange 8) (List.nodup_finRange 8) hp
    have hengine := hkeeps.engine_eq e.val
    refine ⟨_, hexec, ?_, fun j => ?_, fun i => ?_, ?_⟩
    · rw [hengine]
      simp [x]
    · rw [hthr, if_congr (and_congr_left fun _ => adze_of_engine e j v) rfl rfl]
      simp [startedAdze, and_assoc]
    · rw [hthr, if_neg (fun h => core_not_adze e i v h.1)]
      rfl
    · exact (keeps_refl [.thr, .eng] s).updEngine.via hkeeps (by decide)
  · intro v hsize fits
    have hexec : exec (.adzScrCtlWrite e v) s = .next (writeScrCtl e.val v s) := by
      change execAdzScrCtlWrite e v s = _
      unfold execAdzScrCtlWrite
      rw [if_pos hon]
      rfl
    rw [writeScrCtl_eq e.val v hsize] at hexec
    have h := keeps_refl [.eng] s
    refine ⟨_, hexec, Keeps.ite h.updEngine h, fun k hk => ?_, fun hf => ?_, fun hf => ?_⟩
    · split
      · simp [hk]
      · rfl
    · rw [if_pos hf]
      simp [x]
    · rw [if_neg hf]
  · intro hp line hline l y
    have hmoved (t : State) (ht : t.time = s.time) : engine (updEngine e.val (fun x => { x with
        scrubPtr := x.scrubPtr + 1, scrubT := s.time.now }) t) e.val
        = { engine t e.val with scrubPtr := (engine t e.val).scrubPtr + 1, scrubT := s.time.now } := by simp
    have hdiv (l : BitVec 12) : l.toNat * 64 / 64 * 64 = l.toNat * 64 := by omega
    obtain ⟨hclean, hsingle, hkeep, hcount, hpois⟩ := keeps_scratchFinds (s := s) e.val (l.toNat * 64)
    rw [hdiv] at hcount
    cases line with
    | some k =>
      have hexec (found : EccFind) := scratchScrub_access k found hon hrun hp
      refine ⟨⟨_, hexec .clean, ?_, ?_⟩, ⟨_, hexec .single, ?_, ?_⟩, ⟨_, hexec .double, hkeep, hcount, hpois⟩⟩
      · rfl
      · exact keeps_refl _ s
      · exact (keeps_refl [.eng] s).updEngine
      · simp [scratchFinds, y, x]
    | none =>
      obtain ⟨hen, hdue⟩ := hline rfl
      have hexec (found : EccFind) := scratchScrub_scrubber found hon hrun hp hen hdue
      refine ⟨⟨_, hexec .clean, ?_, ?_⟩, ⟨_, hexec .single, ?_, ?_⟩, ⟨_, hexec .double, hkeep.updEngine, ?_, ?_⟩⟩
      · simp [scratchFinds, y, x]
      · exact (keeps_refl [.eng] s).updEngine
      · exact (keeps_refl [.eng] s).updEngine.updEngine
      · simp [scratchFinds, y, x]
      · refine (hmoved _ (hkeep .time (by decide))).trans ?_
        rw [hcount]
        rfl
      · exact hpois

end Sys2Proof.Machine
end

section
/-! The end of a host read that the device issued for an item (R367 to R369, R375, R378). -/
namespace Sys2Proof.Machine
set_option Elab.async false
variable {s u : State} {P : List Piece} {r : ReadRec}

theorem Keeps.entry_eq (h : Keeps P s u) (e : Nat) (hp : Piece.led ∉ P := by decide) : entry u e = entry s e :=
  congrArg (fun l : Ledger => look Entry.reset l.ent e) (h .led hp)

/-- An operation that leaves the endpoint but for its pending bits leaves its reads and the tags it holds. -/
theorem Keeps.reads_eq (h : Keeps P s u) (hp : Piece.ep ∉ P := by decide) :
    u.ep.reads = s.ep.reads ∧ u.ep.deadTags = s.ep.deadTags ∧ u.ep.frozen = s.ep.frozen ∧ u.ep.fCause = s.ep.fCause := by
  have e := congrArg (fun p : Endpoint => (p.reads, p.deadTags, p.frozen, p.fCause)) (h .ep hp)
  simpa using e

/-- An error of the link is recorded without an effect on the reads. -/
theorem reads_recordAer (b : Nat) : (recordAer b s).ep.reads = s.ep.reads ∧ (recordAer b s).ep.deadTags = s.ep.deadTags ∧
    (recordAer b s).ep.frozen = s.ep.frozen := by
  unfold recordAer
  extract_lets c masked fatal first hdr w w' dev en
  have hw : w'.ep.reads = s.ep.reads ∧ w'.ep.deadTags = s.ep.deadTags ∧ w'.ep.frozen = s.ep.frozen := ⟨rfl, rfl, rfl⟩
  clear_value w'
  split
  · obtain ⟨hr, hd, hf, _⟩ := (keeps_refl [.bw, .xing, .out] w').emitHost (o := .errMsg fatal) |>.reads_eq
    rw [hr, hd, hf]
    exact hw
  · exact hw

/-- With no read waiting, none is issued. -/
theorem pumpReads_none (h : s.ep.reads = []) : pumpReads s = updEp (fun p => { p with reads := [] }) s := by
  unfold pumpReads updEp
  simp [h, urgentFirst]

theorem reads_pumpReads_none (h : s.ep.reads = []) : (pumpReads s).ep.reads = [] ∧ (pumpReads s).ep.deadTags = s.ep.deadTags ∧
    Keeps [.ep] s (pumpReads s) := by
  rw [pumpReads_none h]
  exact ⟨rfl, rfl, (keeps_refl [.ep] s).updEp⟩

/-- An item that is being fetched ends: its entry closes with the cause, and no read is left for it. -/
theorem endItem_fetch {e : Nat} (cause detail : BitVec 8) (hx : (entry s e).st = .fetch) (hr : s.ep.reads = []) :
    let u := endItem e true cause detail s
    (entry u e).st = .closing ∧ (entry u e).fail = true ∧ (entry u e).cause = cause ∧ (entry u e).detail = detail ∧
      u.ep.reads = [] ∧ u.ep.deadTags = s.ep.deadTags := by
  unfold endItem
  extract_lets x w w' u
  have hw : (entry w e).st = .closing ∧ (entry w e).fail = true ∧ (entry w e).cause = cause ∧ (entry w e).detail = detail := by
    simp [w]
  have hew : entry w' e = entry w e := (keeps_refl [.ep] w).abandonReads.entry_eq e
  have hreads : w'.ep.reads = [] ∧ w'.ep.deadTags = s.ep.deadTags := by
    simp [w', abandonReads, updEp, w, updEntry, hr]
  have hdone (v : State) (hv : Keeps [.pw] w' v) :
      (entry v e).st = .closing ∧ (entry v e).fail = true ∧ (entry v e).cause = cause ∧ (entry v e).detail = detail ∧
        v.ep.reads = [] ∧ v.ep.deadTags = s.ep.deadTags := by
    obtain ⟨hst, hfail, hcause, hdetail⟩ := hw
    rw [hv.entry_eq e, hew, (hv.reads_eq).1, (hv.reads_eq).2.1]
    exact ⟨hst, hfail, hcause, hdetail, hreads⟩
  have hu : u = _ := if_neg (by simp [x, hx])
  rw [hu]
  split
  · exact hdone _ (keeps_refl [.pw] w').dispVote
  · exact hdone _ (keeps_refl [.pw] w')

/-- The read leaves the endpoint's list. -/
def readGone (r : ReadRec) (s : State) : State :=
  updEp (fun p => { p with reads := removeFirst (fun y => y = r) p.reads }) s

theorem readGone_only (hr : s.ep.reads = [r]) : (readGone r s).ep.reads = [] := by
  simp [readGone, updEp, hr, removeFirst]

theorem readFailed_ofItem (cause detail : BitVec 8) (status : BitVec 2) (hs : r.serves = none) :
    readFailed r cause detail status s = pumpReads (endItem r.entry.val true cause detail (readGone r s)) := by
  unfold readFailed readGone
  rw [hs]

/-- The one read fails: its item ends with the cause. -/
theorem readFailed_only (cause detail : BitVec 8) (status : BitVec 2) (hr : s.ep.reads = [r]) (hs : r.serves = none)
    (hx : (entry s r.entry.val).st = .fetch) :
    let u := readFailed r cause detail status s
    (entry u r.entry.val).st = .closing ∧ (entry u r.entry.val).fail = true ∧ (entry u r.entry.val).cause = cause ∧
      (entry u r.entry.val).detail = detail ∧ u.ep.reads = [] ∧ u.ep.deadTags = s.ep.deadTags ∧ Keeps [.ep, .led, .pw] s u := by
  intro u
  have hu : u = _ := readFailed_ofItem cause detail status hs
  obtain ⟨hst, hfail, hcause, hdetail, hnone, hdead⟩ :=
    endItem_fetch (s := readGone r s) (e := r.entry.val) cause detail hx (readGone_only hr)
  obtain ⟨hreads, htags, hkeep⟩ := reads_pumpReads_none hnone
  rw [hu, hkeep.entry_eq]
  exact ⟨hst, hfail, hcause, hdetail, hreads, htags.trans hdead,
    ((keeps_refl [.ep, .led, .pw] s).updEp.endItem).via hkeep (by decide)⟩

/-- With an error of the link recorded before it. -/
theorem readFailed_recordAer (b : Nat) (cause detail : BitVec 8) (status : BitVec 2) (hr : s.ep.reads = [r])
    (hs : r.serves = none) (hx : (entry s r.entry.val).st = .fetch) :
    let u := readFailed r cause detail status (recordAer b s)
    (entry u r.entry.val).st = .closing ∧ (entry u r.entry.val).fail = true ∧ (entry u r.entry.val).cause = cause ∧
      (entry u r.entry.val).detail = detail ∧ u.ep.reads = [] ∧
      Keeps [.ep, .led, .bw, .pw, .out, .xing, .fresh] s u := by
  have hk : Keeps [.ep, .bw, .out, .xing, .fresh] s (recordAer b s) := (keeps_refl _ s).recordAer
  obtain ⟨hst, hfail, hcause, hdetail, hreads, -, hkeep⟩ := readFailed_only (s := recordAer b s) cause detail status
    ((reads_recordAer b).1.trans hr) hs ((congrArg Entry.st (hk.entry_eq _)).trans hx)
  exact ⟨hst, hfail, hcause, hdetail, hreads, ((keeps_refl _ s).recordAer).via hkeep (by decide)⟩

/-- The one read's completion is taken by it. -/
theorem readCompletion_taken {tag : BitVec 10} (st : CplStatus) (data : List Byte) (hup : s.ep.up = true)
    (hclk : s.pw.clkEp = false) (hread : readOf s tag = some r) :
    exec (.readCompletion tag st data) s = .next (readCompletes r st data (countBytes 0 data.length s)) := by
  change execReadCompletion tag st data s = _
  unfold execReadCompletion through
  rw [if_neg (by simp [clockStopped, hclk])]
  dsimp only
  rw [if_neg (by simp [hup, hclk]), show readOf (countBytes 0 data.length s) tag = some r from hread]

/-- A part of the bytes: the read keeps them and waits for the rest. -/
theorem readCompletes_part (data : List Byte) (hr : s.ep.reads = [r]) (hlen : r.got.length + data.length < r.len) :
    (readCompletes r .ok data s).ep.reads = [{ r with got := r.got ++ data }] ∧ Keeps [.ep] s (readCompletes r .ok data s) := by
  have hu : readCompletes r .ok data s = updRead r (fun y => { y with got := r.got ++ data }) s :=
    if_neg (by rw [List.length_append]; omega)
  rw [hu]
  exact ⟨by simp [updRead, updEp, hr, editFirst], (keeps_refl [.ep] s).updRead⟩

/-- The last of the bytes: the entry has them all. -/
theorem readCompletes_last (data : List Byte) (hr : s.ep.reads = [r]) (hs : r.serves = none)
    (hlen : r.got.length + data.length = r.len) :
    let u := readCompletes r .ok data s
    let x := entry s r.entry.val
    u.ep.reads = [] ∧ Keeps [.ep, .led] s u ∧ entry u r.entry.val =
      (if r.isDesc then { x with
          desc := overlayB x.desc (r.addr.toNat - descAddr (queue s x.queue.val) x.seq) (r.got ++ data) }
        else { x with data := overlayB x.data (r.addr - descWord x 8).toNat (r.got ++ data) }) := by
  intro u x
  have hfull : r.len = (r.got ++ data).length := by rw [List.length_append]; omega
  have hu : u = readWhole r (r.got ++ data) s := by
    refine (if_pos (le_of_eq hfull)).trans ?_
    rw [hfull, List.take_length]
  have hput (f : Entry → Entry) : (pumpReads (updEntry r.entry.val f (readGone r s))).ep.reads = [] ∧
      Keeps [.ep, .led] s (pumpReads (updEntry r.entry.val f (readGone r s))) ∧
      entry (pumpReads (updEntry r.entry.val f (readGone r s))) r.entry.val = f x := by
    obtain ⟨hreads, -, hkeep⟩ := reads_pumpReads_none (s := updEntry r.entry.val f (readGone r s)) (readGone_only hr)
    refine ⟨hreads, ((keeps_refl [.ep, .led] s).updEp.updEntry).via hkeep (by decide), ?_⟩
    rw [hkeep.entry_eq, entry_updEntry, if_pos rfl]
    rfl
  rw [hu]
  unfold readWhole
  rw [hs]
  dsimp only
  split
  · exact hput _
  · exact hput _

theorem frozen_freeze (code : BitVec 8) (h : s.ep.frozen = false) :
    (freeze code s).ep.frozen = true ∧ (freeze code s).ep.fCause = code := by
  unfold freeze
  extract_lets w newNotice v
  have hw : w.ep.frozen = false := by
    simp only [w]
    split
    · exact h
    · exact (reads_recordAer _).2.2.trans h
  clear_value w
  rw [if_neg (by simp [hw])]
  obtain ⟨-, -, hf, hc⟩ := (keeps_refl [.log] v).wrightEvent (type := 9) (a := at' code 0) (b := at' v.ep.fCount 0) |>.reads_eq
  exact ⟨hf, hc⟩

section
variable {tag : BitVec 10} (hup : s.ep.up = true) (hclk : s.pw.clkEp = false)
include hup hclk

/-- The one read's completion with an error: the item's end stands in its entry. -/
theorem readCompletion_failed (st : CplStatus) (data : List Byte) (hread : readOf s tag = some r) (hr : s.ep.reads = [r])
    (hs : r.serves = none) (hx : (entry s r.entry.val).st = .fetch) {b : Nat} {cause detail : BitVec 8} {status : BitVec 2}
    (hst : readCompletes r st data (countBytes 0 data.length s)
      = readFailed r cause detail status (recordAer b (countBytes 0 data.length s))) :
    ∃ u, exec (.readCompletion tag st data) s = .next u ∧ (entry u r.entry.val).st = .closing ∧
      (entry u r.entry.val).fail = true ∧ (entry u r.entry.val).cause = cause ∧ (entry u r.entry.val).detail = detail ∧
      u.ep.reads = [] ∧ Keeps [.ep, .led, .bw, .pw, .out, .xing, .fresh] s u := by
  refine ⟨_, readCompletion_taken st data hup hclk hread, ?_⟩
  rw [hst]
  obtain ⟨h1, h2, h3, h4, h5, h6⟩ := readFailed_recordAer (s := countBytes 0 data.length s) b cause detail status hr hs hx
  exact ⟨h1, h2, h3, h4, h5, ((keeps_refl _ s).countBytes).via h6 (by decide)⟩

/-- A completion of no read freezes the endpoint (R375). -/
theorem readCompletion_unexpected (st : CplStatus) (data : List Byte) (hread : readOf s tag = none)
    (hdead : s.ep.deadTags.any (fun d => d.1 = tag.setWidth 16) = false) :
    exec (.readCompletion tag st data) s = .next (freeze 4 (countBytes 0 data.length s)) := by
  change execReadCompletion tag st data s = _
  unfold execReadCompletion through
  rw [if_neg (by simp [clockStopped, hclk])]
  dsimp only
  have hd : deadTag (countBytes 0 data.length s) tag = none := by
    unfold deadTag
    rw [List.find?_eq_none]
    intro d hd
    have := List.any_eq_false.mp hdead d hd
    simpa using this
  rw [if_neg (by simp [hup, hclk]), show readOf (countBytes 0 data.length s) tag = none from hread, hd]

end

theorem completionTimeout_past {tag : BitVec 10} (hdis : s.ep.cfg.cplTmoDis = false)
    (hpast : r.since.toNat + cplTmoNs s.ep.cfg.cplTmo ≤ s.time.now.toNat) (hread : readOf s tag = some r) :
    exec (.completionTimeout tag) s = .next (readFailed r 9 3 1 (recordAer 14 s)) := by
  change execCompletionTimeout tag s = _
  unfold execCompletionTimeout
  rw [if_neg (by simp [hdis]), hread]
  exact if_pos (decide_eq_true hpast)

/-- Settles O39: each end of the one read has its effect through `readCompletes`, and a completion of none freezes. -/
theorem endpointReads : Obligations.EndpointReads := by
  unfold Obligations.EndpointReads
  refine ⟨?_, ?_⟩
  · intro s tag r hup hclk hread hr hs x failed
    have hcount (data : List Byte) : Keeps [.bw] s (countBytes 0 data.length s) := (keeps_refl _ s).countBytes
    refine ⟨?_, ?_, ?_⟩
    · intro data hlen
      obtain ⟨hgot, hkeep⟩ := readCompletes_part (s := countBytes 0 data.length s) data hr hlen
      exact ⟨_, readCompletion_taken .ok data hup hclk hread, hgot, ((keeps_refl _ s).countBytes).via hkeep (by decide)⟩
    · intro data hlen
      obtain ⟨hreads, hkeep, hent⟩ := readCompletes_last (s := countBytes 0 data.length s) data hr hs hlen
      exact ⟨_, readCompletion_taken .ok data hup hclk hread, hreads, ((keeps_refl _ s).countBytes).via hkeep (by decide), hent⟩
    · intro hx data
      refine ⟨readCompletion_failed hup hclk .unsupported data hread hr hs hx rfl,
        readCompletion_failed hup hclk .abort data hread hr hs hx rfl, ?_, ?_⟩
      · obtain ⟨haer, haerTags, -⟩ := reads_recordAer (s := countBytes 0 data.length s) 12
        have hk : Keeps [.ep, .bw, .out, .xing, .fresh] s
            (keepDead [{ r with got := r.got ++ data }] (recordAer 12 (countBytes 0 data.length s))) :=
          ((keeps_refl _ s).countBytes.recordAer).keepDead
        obtain ⟨h1, h2, h3, h4, h5, htags, h6⟩ := readFailed_only (r := r)
          (s := keepDead [{ r with got := r.got ++ data }] (recordAer 12 (countBytes 0 data.length s))) 2
          (if r.isDesc then 1 else 2) 0 (haer.trans hr) hs ((congrArg Entry.st (hk.entry_eq _)).trans hx)
        refine ⟨_, readCompletion_taken .poisoned data hup hclk hread,
          ⟨h1, h2, h3, h4, h5, (((keeps_refl _ s).countBytes.recordAer).keepDead).via h6 (by decide)⟩, ?_⟩
        intro hlen
        change _ ∈ (readFailed r 2 _ 0 _).ep.deadTags
        rw [htags]
        refine List.mem_append_right _ (List.mem_filter.mpr ⟨?_, ?_⟩)
        · simp [deadOf]
        · exact decide_eq_true (Nat.sub_pos_of_lt hlen)
      · intro hdis hpast
        obtain ⟨h1, h2, h3, h4, h5, h6⟩ := readFailed_recordAer (s := s) 14 9 3 1 hr hs hx
        exact ⟨_, completionTimeout_past hdis hpast hread, h1, h2, h3, h4, h5, h6⟩
  · intro s tag st data hup hclk hfro hread hdead
    obtain ⟨hf, hc⟩ := frozen_freeze (s := countBytes 0 data.length s) 4 hfro
    exact ⟨_, readCompletion_unexpected hup hclk st data hread hdead, hf, hc, ((keeps_refl _ s).countBytes).freeze⟩

end Sys2Proof.Machine
end

section
/-! Frames of the protocol's shared operations, and what filling a slice, finding an entry and delivering a message are. -/
namespace Sys2Proof.Machine
set_option Elab.async false
variable {s u v : State} {P : List Piece}

theorem Keeps.cleanLine {l : BitVec 42} (h : Keeps P s u) (hP : ∀ p ∈ ([.old] : List Piece), p ∈ P := by decide) :
    Keeps P s (Machine.cleanLine l u) :=
  h.via (fun p hp => by cases p <;> simp_all [Piece.same, Machine.cleanLine]) hP

theorem Keeps.llcFill {h' : ℕ} {l : BitVec 42} {dirty : Bool} {nt : Bool} (h : Keeps P s u) (hP : ∀ p ∈ ([.slice, .old]
    : List Piece), p ∈ P := by decide) : Keeps P s (Machine.llcFill h' l dirty nt u) := by
  refine h.via ?_ hP
  have h := keeps_refl [.slice, .old] u
  unfold Machine.llcFill
  dsimp only
  split
  · exact h.updSlice
  · refine Keeps.updSlice ?_
    split
    · exact h.cleanLine
    · exact h

theorem Keeps.send {k' : CKind} {m : CMsg} (h : Keeps P s u) (hP : ∀ p ∈ ([.net] : List Piece), p ∈ P := by decide)
    : Keeps P s (Machine.send k' m u) := by
  refine h.via ?_ hP
  have h := keeps_refl [.net] u
  exact h.frame

theorem Keeps.grant {h' : Fin 40} {m : CMsg} {acks : BitVec 40} (h : Keeps P s u) (hP : ∀ p ∈ ([.net]
    : List Piece), p ∈ P := by decide) : Keeps P s (Machine.grant h' m acks u) := by
  refine h.via ?_ hP
  have h := keeps_refl [.net] u
  unfold Machine.grant
  dsimp only
  exact h.send

theorem Keeps.forwardAll {h' : Fin 40} {k' : CKind} {bays : BitVec 40} {coll : Agent} {m : CMsg} (h : Keeps P s u) (hP
    : ∀ p ∈ ([.net] : List Piece), p ∈ P := by decide) : Keeps P s (Machine.forwardAll h' k' bays coll m u) := by
  refine h.via ?_ hP
  have h := keeps_refl [.net] u
  unfold Machine.forwardAll
  dsimp only
  refine Keeps.each h fun _ _ hx => ?_
  split
  · exact hx.send
  · exact hx

theorem Keeps.updDir {h' : ℕ} {key : ℕ} {f : DirE → DirE} (h : Keeps P s u) (hP : ∀ p ∈ ([.slice] : List Piece), p ∈ P
    := by decide) : Keeps P s (Machine.updDir h' key f u) := by
  refine h.via ?_ hP
  have h := keeps_refl [.slice] u
  unfold Machine.updDir
  exact h.updSlice

theorem Keeps.homeData {h' : Fin 40} {m : CMsg} {excl : Bool} {acks : BitVec 40} (h : Keeps P s u) (hP : ∀ p ∈
    ([.slice, .net, .old] : List Piece), p ∈ P := by decide) : Keeps P s (Machine.homeData h' m excl acks u) := by
  refine h.via ?_ hP
  have h := keeps_refl [.slice, .net, .old] u
  unfold Machine.homeData
  dsimp only
  exact h.llcFill.send

theorem Keeps.dirtyLine {l : BitVec 42} (h : Keeps P s u) (hP : ∀ p ∈ ([.old] : List Piece), p ∈ P := by decide) :
    Keeps P s (Machine.dirtyLine l u) := by
  refine h.via ?_ hP
  unfold Machine.dirtyLine
  split
  · exact fun p hp => by cases p <;> simp_all [Piece.same]
  · exact keeps_refl _ u

theorem Keeps.keepMon {p : MonE → Bool} (h : Keeps P s u) (hP : ∀ p ∈ ([.bay, .slice, .eng] : List Piece), p ∈ P
    := by decide) : Keeps P s (Machine.keepMon p u) :=
  h.via (fun q hq => by cases q <;> simp_all [Piece.same, Machine.keepMon]) hP

theorem Keeps.loseResv {t : Thr} (h : Keeps P s u) (hP : ∀ p ∈ ([.thr, .bay, .slice, .eng] : List Piece), p ∈ P
    := by decide) : Keeps P s (Machine.loseResv t u) := by
  refine h.via ?_ hP
  have h := keeps_refl [.thr, .bay, .slice, .eng] u
  unfold Machine.loseResv
  exact h.updThr.keepMon

theorem Keeps.loseResvAt {t : Thr} {g : BitVec 41} (h : Keeps P s u) (hP : ∀ p ∈ ([.thr, .bay, .slice, .eng]
    : List Piece), p ∈ P := by decide) : Keeps P s (Machine.loseResvAt t g u) := by
  refine h.via ?_ hP
  have h := keeps_refl [.thr, .bay, .slice, .eng] u
  unfold Machine.loseResvAt
  exact h.loseResv.keepMon

theorem Keeps.loseResvOn {who : Option Thr} {g : BitVec 41} (h : Keeps P s u) (hP : ∀ p ∈ ([.thr, .bay, .slice, .eng]
    : List Piece), p ∈ P := by decide) : Keeps P s (Machine.loseResvOn who g u) := by
  refine h.via ?_ hP
  have h := keeps_refl [.thr, .bay, .slice, .eng] u
  unfold Machine.loseResvOn
  refine Keeps.each h fun _ _ hx => ?_
  split
  · exact hx
  · split
    · exact hx
    · split
      · split
        · exact hx.loseResvAt
        · exact hx
      · exact hx

theorem Keeps.storeBytes {who : Option Thr} {pa : BitVec 48} {l : List Byte} {poison : Bool} (h : Keeps P s u) (hP
    : ∀ p ∈ ([.thr, .bay, .slice, .eng, .mem, .old, .poison, .wake, .log] : List Piece), p ∈ P := by decide) : Keeps P s
    (Machine.storeBytes who pa l poison u) := by
  refine h.via ?_ hP
  have h := keeps_refl [.thr, .bay, .slice, .eng, .mem, .old, .poison, .wake, .log] u
  unfold Machine.storeBytes
  dsimp only
  refine Keeps.loseResvOn ?_
  split
  · exact h.dirtyLine.writeBytes.poisonLine
  · split
    · exact h.dirtyLine.writeBytes.setPoison
    · exact h.dirtyLine.writeBytes

theorem Keeps.storeMasked {who : Option Thr} {l : BitVec 42} {data : BitVec 512} {mask : BitVec 64} {poison : Bool} (h
    : Keeps P s u) (hP : ∀ p ∈ ([.thr, .bay, .slice, .eng, .mem, .old, .poison, .wake, .log] : List Piece), p ∈ P
    := by decide) : Keeps P s (Machine.storeMasked who l data mask poison u) := by
  refine h.via ?_ hP
  have h := keeps_refl [.thr, .bay, .slice, .eng, .mem, .old, .poison, .wake, .log] u
  unfold Machine.storeMasked
  dsimp only
  split
  · exact h.storeBytes
  · refine Keeps.loseResvOn ?_
    split
    · exact (Keeps.each h.dirtyLine fun _ _ hx => hx.writeBytes).poisonLine
    · exact Keeps.each h.dirtyLine fun _ _ hx => hx.writeBytes

theorem Keeps.setMon {m : MonAt} {l : List MonE} (h : Keeps P s u) (hP : ∀ p ∈ ([.bay, .slice, .eng]
    : List Piece), p ∈ P := by decide) : Keeps P s (Machine.setMon m l u) := by
  refine h.via ?_ hP
  have h := keeps_refl [.bay, .slice, .eng] u
  unfold Machine.setMon
  split
  · exact h.updBay
  · exact h.updEngine
  · exact h.updSlice

theorem Keeps.monDrop {m : MonAt} {t : Thr} (h : Keeps P s u) (hP : ∀ p ∈ ([.bay, .slice, .eng] : List Piece), p ∈ P
    := by decide) : Keeps P s (Machine.monDrop m t u) := by
  refine h.via ?_ hP
  have h := keeps_refl [.bay, .slice, .eng] u
  unfold Machine.monDrop
  exact h.setMon

theorem Keeps.stcndDo {t : Thr} {m : Option MonAt} {pa : BitVec 48} {dbl : Bool} {v : Word} {poison : Bool} (h
    : Keeps P s u) (hP : ∀ p ∈ ([.thr, .bay, .slice, .eng, .mem, .old, .poison, .wake, .log] : List Piece), p ∈ P
    := by decide) : Keeps P s (Machine.stcndDo t m pa dbl v poison u).2 := by
  refine h.via ?_ hP
  have h := keeps_refl [.thr, .bay, .slice, .eng, .mem, .old, .poison, .wake, .log] u
  unfold Machine.stcndDo
  dsimp only
  split
  · refine Keeps.storeBytes ?_
    split
    · exact h.loseResv.monDrop
    · exact h.loseResv
  · split
    · exact h.loseResv.monDrop
    · exact h.loseResv

theorem Keeps.atomDo {t : Thr} {op : AtomOp} {pa : BitVec 48} {dbl : Bool} {a : Word} {b : Word} {poison : Bool} (h
    : Keeps P s u) (hP : ∀ p ∈ ([.thr, .bay, .slice, .eng, .mem, .old, .poison, .wake, .log] : List Piece), p ∈ P
    := by decide) : Keeps P s (Machine.atomDo t op pa dbl a b poison u).2.2 := by
  refine h.via ?_ hP
  have h := keeps_refl [.thr, .bay, .slice, .eng, .mem, .old, .poison, .wake, .log] u
  unfold Machine.atomDo
  dsimp only
  split
  · exact h.storeBytes
  · exact Keeps.ite h.storeBytes h
  · exact h

theorem Keeps.monTake {m : MonAt} {t : Thr} {pa : BitVec 48} {dbl : Bool} (h : Keeps P s u) (hP : ∀ p ∈
    ([.thr, .bay, .slice, .eng] : List Piece), p ∈ P := by decide) : Keeps P s (Machine.monTake m t pa dbl u) := by
  refine h.via ?_ hP
  have h := keeps_refl [.thr, .bay, .slice, .eng] u
  unfold Machine.monTake
  dsimp only
  split
  · exact h.loseResv.monDrop
  · exact h.loseResv.monDrop.setMon.updThr

theorem Keeps.clearHomeMon {h' : ℕ} {l : BitVec 42} (h : Keeps P s u) (hP : ∀ p ∈ ([.thr, .bay, .slice, .eng]
    : List Piece), p ∈ P := by decide) : Keeps P s (Machine.clearHomeMon h' l u) := by
  refine h.via ?_ hP
  have h := keeps_refl [.thr, .bay, .slice, .eng] u
  unfold Machine.clearHomeMon
  dsimp only
  exact Keeps.each h fun _ _ hx => hx.loseResvAt

theorem Keeps.loseCoreResv {c : ℕ} {l : BitVec 42} (h : Keeps P s u) (hP : ∀ p ∈ ([.thr, .bay, .slice, .eng]
    : List Piece), p ∈ P := by decide) : Keeps P s (Machine.loseCoreResv c l u) := by
  refine h.via ?_ hP
  have h := keeps_refl [.thr, .bay, .slice, .eng] u
  unfold Machine.loseCoreResv
  refine Keeps.each h fun _ _ hx => ?_
  split
  · split
    · exact hx.loseResv
    · exact hx
  · exact hx

theorem Keeps.l1dDrop {c : ℕ} {l : BitVec 42} (h : Keeps P s u) (hP : ∀ p ∈ ([.thr, .core, .bay, .slice, .eng]
    : List Piece), p ∈ P := by decide) : Keeps P s (Machine.l1dDrop c l u) := by
  refine h.via ?_ hP
  have h := keeps_refl [.thr, .core, .bay, .slice, .eng] u
  unfold Machine.l1dDrop
  split
  · exact h
  · exact h.updCore.loseCoreResv

theorem Keeps.l1iDrop {c : ℕ} {l : BitVec 42} (h : Keeps P s u) (hP : ∀ p ∈ ([.core] : List Piece), p ∈ P := by decide)
    : Keeps P s (Machine.l1iDrop c l u) := by
  refine h.via ?_ hP
  have h := keeps_refl [.core] u
  unfold Machine.l1iDrop
  exact h.updCore

theorem Keeps.bayL1Drop {b : ℕ} {l : BitVec 42} (h : Keeps P s u) (hP : ∀ p ∈ ([.thr, .core, .bay, .slice, .eng]
    : List Piece), p ∈ P := by decide) : Keeps P s (Machine.bayL1Drop b l u) := by
  refine h.via ?_ hP
  have h := keeps_refl [.thr, .core, .bay, .slice, .eng] u
  unfold Machine.bayL1Drop
  exact Keeps.each h fun _ _ hx => hx.l1dDrop.l1iDrop

theorem Keeps.bayDrop {b : ℕ} {l : BitVec 42} (h : Keeps P s u) (hP : ∀ p ∈ ([.thr, .core, .bay, .slice, .eng]
    : List Piece), p ∈ P := by decide) : Keeps P s (Machine.bayDrop b l u) := by
  refine h.via ?_ hP
  have h := keeps_refl [.thr, .core, .bay, .slice, .eng] u
  unfold Machine.bayDrop
  exact h.bayL1Drop.updBay

theorem Keeps.bayDemote {b : ℕ} {l : BitVec 42} {l1 : Mesi} {st : Mesi} (h : Keeps P s u) (hP : ∀ p ∈ ([.core, .bay]
    : List Piece), p ∈ P := by decide) : Keeps P s (Machine.bayDemote b l l1 st u) := by
  refine h.via ?_ hP
  have h := keeps_refl [.core, .bay] u
  unfold Machine.bayDemote
  dsimp only
  refine Keeps.updBay ?_
  refine Keeps.each h fun _ _ hx => ?_
  split
  · exact hx.updCore
  · exact hx

theorem Keeps.llcClean {h' : ℕ} {l : BitVec 42} (h : Keeps P s u) (hP : ∀ p ∈ ([.slice] : List Piece), p ∈ P
    := by decide) : Keeps P s (Machine.llcClean h' l u) := by
  refine h.via ?_ hP
  have h := keeps_refl [.slice] u
  unfold Machine.llcClean
  exact h.updSlice

theorem Keeps.llcDrop {h' : ℕ} {l : BitVec 42} (h : Keeps P s u) (hP : ∀ p ∈ ([.slice] : List Piece), p ∈ P
    := by decide) : Keeps P s (Machine.llcDrop h' l u) := by
  refine h.via ?_ hP
  have h := keeps_refl [.slice] u
  unfold Machine.llcDrop
  exact h.updSlice

theorem Keeps.discardLine {l : BitVec 42} (h : Keeps P s u) (hP : ∀ p ∈ ([.old, .mem, .poison] : List Piece), p ∈ P
    := by decide) : Keeps P s (Machine.discardLine l u) := by
  refine h.via ?_ hP
  unfold Machine.discardLine
  split
  · exact keeps_refl _ u
  · exact fun p hp => by cases p <;> simp_all [Piece.same, Machine.setPoison, writeLineData, Machine.writeBytes]

/-- Stores that are not poisoned log nothing. -/
theorem Keeps.storeBytes_clean {who : Option Thr} {pa : BitVec 48} {l : List Byte} (h : Keeps P s u)
    (hP : ∀ p ∈ ([.thr, .bay, .slice, .eng, .mem, .old, .poison] : List Piece), p ∈ P := by decide) :
    Keeps P s (Machine.storeBytes who pa l false u) := by
  refine h.via ?_ hP
  have h := keeps_refl [.thr, .bay, .slice, .eng, .mem, .old, .poison] u
  unfold Machine.storeBytes
  dsimp only
  rw [if_neg Bool.false_ne_true]
  exact (h.dirtyLine.writeBytes.setPoison.ite h.dirtyLine.writeBytes).loseResvOn

/-! ## The ways of a set -/

theorem mem_wayKeys {k set n : Nat} : k ∈ wayKeys set n ↔ 16 * set ≤ k ∧ k < 16 * set + n := by
  simp only [wayKeys, List.mem_map, List.mem_range]
  constructor
  · rintro ⟨w, hw, rfl⟩
    omega
  · intro h
    exact ⟨k - 16 * set, by omega, by omega⟩

/-- Two tables with the same lines in the same states: the ages may differ. -/
def SameWays (t t' : Tbl CLine) : Prop :=
  ∀ k, (look CLine.reset t' k).line = (look CLine.reset t k).line ∧ (look CLine.reset t' k).st = (look CLine.reset t k).st ∧
    (look CLine.reset t' k).bad = (look CLine.reset t k).bad

theorem sameWays_edit (t : Tbl CLine) (f : CLine → CLine) (k : Nat)
    (hf : ∀ w, (f w).line = w.line ∧ (f w).st = w.st ∧ (f w).bad = w.bad) : SameWays t (edit CLine.reset f t k) := by
  intro i
  rw [look_edit]
  split
  · subst i
    exact hf _
  · exact ⟨rfl, rfl, rfl⟩

theorem SameWays.trans {t t' t'' : Tbl CLine} (h : SameWays t t') (h' : SameWays t' t'') : SameWays t t'' :=
  fun k => ⟨(h' k).1.trans (h k).1, (h' k).2.1.trans (h k).2.1, (h' k).2.2.trans (h k).2.2⟩

theorem sameWays_raiseAges (t : Tbl CLine) (set n : Nat) : SameWays t (raiseAges t set n) := by
  refine forEach_keeps (SameWays t) _ _ t (fun _ => ⟨rfl, rfl, rfl⟩) fun k _ acc h => h.trans (sameWays_edit acc _ k fun w => ?_)
  split
  · exact ⟨rfl, rfl, rfl⟩
  · exact ⟨rfl, rfl, rfl⟩

theorem victimWay_spec (n fuel : Nat) (hn : 0 < n) (t : Tbl CLine) (set : Nat) :
    (victimWay n fuel t set).1 ∈ wayKeys set n ∧ SameWays t (victimWay n fuel t set).2 := by
  induction fuel generalizing t with
  | zero => exact ⟨mem_wayKeys.mpr ⟨le_refl _, Nat.lt_add_of_pos_right hn⟩, fun _ => ⟨rfl, rfl, rfl⟩⟩
  | succ fuel ih =>
    unfold victimWay
    split
    case h_1 k hk => exact ⟨List.mem_of_find?_eq_some hk, fun _ => ⟨rfl, rfl, rfl⟩⟩
    case h_2 =>
      split
      case h_1 k hk => exact ⟨List.mem_of_find?_eq_some hk, fun _ => ⟨rfl, rfl, rfl⟩⟩
      case h_2 => exact ⟨(ih _).1, (sameWays_raiseAges t set n).trans (ih _).2⟩

theorem SameWays.findWay {t t' : Tbl CLine} (h : SameWays t t') (set : Nat) (l : BitVec 42) :
    findWay t' set l = findWay t set l := by
  unfold Machine.findWay
  congr 1
  funext k
  rw [(h k).1, (h k).2.1]

/-- The first element of a list that meets a test or is `k`, where `k` is the first to meet it or none does. -/
theorem find?_or_eq {l : List Nat} {p q : Nat → Bool} {k : Nat} (hq : ∀ x ∈ l, q x = (decide (x = k) || p x))
    (h : l.find? p = some k ∨ l.find? p = none ∧ k ∈ l) : l.find? q = some k := by
  induction l with
  | nil => simp at h
  | cons a l ih =>
    by_cases ha : a = k
    · rw [List.find?_cons_of_pos (by rw [hq a List.mem_cons_self]; simp [ha]), ha]
    · have hpa : p a = false := by
        rcases h with h | ⟨h, -⟩
        · by_contra hp
          rw [List.find?_cons_of_pos (by simpa using hp)] at h
          exact ha (Option.some.inj h)
        · exact by simpa using (List.find?_eq_none.mp h) a List.mem_cons_self
      rw [List.find?_cons_of_neg (by rw [hq a List.mem_cons_self]; simp [ha, hpa])]
      refine ih (fun x hx => hq x (List.mem_cons_of_mem _ hx)) ?_
      rw [List.find?_cons_of_neg (by simp [hpa])] at h
      exact h.imp id fun ⟨hn, hm⟩ => ⟨hn, (List.mem_cons.mp hm).resolve_left (Ne.symm ha)⟩

/-- A line put into a way of its set, where it stood or where nothing of it stood, is found there. -/
theorem findWay_put {t : Tbl CLine} {set k : Nat} {l : BitVec 42} {w : CLine} (hl : w.line = l) (hst : w.st ≠ .I)
    (h : findWay t set l = some k ∨ findWay t set l = none ∧ k ∈ wayKeys set 16) :
    findWay (put CLine.reset t k w) set l = some k := by
  refine find?_or_eq (fun x _ => ?_) h
  rw [look_put]
  by_cases hx : x = k
  · simp [hx, hl, hst]
  · simp [hx]

theorem findWay_mem {t : Tbl CLine} {set k : Nat} {l : BitVec 42} (h : findWay t set l = some k) :
    k ∈ wayKeys set 16 ∧ (look CLine.reset t k).line = l ∧ (look CLine.reset t k).st ≠ .I := by
  have hk := List.find?_some h
  simp only [ne_eq, decide_not, Bool.and_eq_true, decide_eq_true_eq, Bool.not_eq_true', decide_eq_false_iff_not] at hk
  exact ⟨List.mem_of_find?_eq_some h, hk.1, hk.2⟩

/-- What filling a line leaves in its slice: a table in which the line stands, dirty where the fill is, and otherwise as good
or bad as it was. -/
theorem slice_llcFill (h : Nat) (l : BitVec 42) (dirty nt : Bool) :
    ∃ t, (∀ y, slice (llcFill h l dirty nt s) y = if y = h then { slice s h with llc := t } else slice s y) ∧
      (dirty = true → lineState t (llcSet l) l = .M) ∧
      copyBad t (llcSet l) l = (copyBad (slice s h).llc (llcSet l) l && !dirty) := by
  unfold llcFill
  dsimp only
  cases hw : findWay (slice s h).llc (llcSet l) l with
  | some k =>
    obtain ⟨-, hline, hst⟩ := findWay_mem hw
    have hfind (c : CLine) (hc : c.line = l ∧ c.st ≠ .I) :
        findWay (put CLine.reset (slice s h).llc k c) (llcSet l) l = some k := findWay_put hc.1 hc.2 (.inl hw)
    refine ⟨_, fun y => slice_updSlice _ h _ y, ?_, ?_⟩
    · rintro rfl
      rw [lineState, edit, hfind]
      · simp
      · exact ⟨hline, by simp⟩
    · rw [copyBad, edit, hfind, copyBad, hw]
      · simp
      · exact ⟨hline, by cases dirty <;> simp [hst]⟩
  | none =>
    obtain ⟨hmem, hways⟩ := victimWay_spec 16 4 (by decide) (slice s h).llc (llcSet l)
    generalize hv : victimWay 16 4 (slice s h).llc (llcSet l) = v at hmem hways
    obtain ⟨w, t⟩ := v
    dsimp only at hmem hways ⊢
    have hfind (c : CLine) (hc : c.line = l ∧ c.st ≠ .I) : findWay (put CLine.reset t w c) (llcSet l) l = some w :=
      findWay_put hc.1 hc.2 (.inr ⟨(hways.findWay _ _).trans hw, hmem⟩)
    refine ⟨put CLine.reset t w ⟨l, if dirty then .M else .S, if nt then 3 else 1, 3, 0, false⟩, fun y => ?_, ?_, ?_⟩
    · rw [slice_updSlice]
      have hold (y : Nat) : slice (if (look CLine.reset t w).st = Mesi.M then cleanLine (look CLine.reset t w).line s else s) y
          = slice s y := by split <;> rfl
      rw [hold, hold]
    · rintro rfl
      rw [lineState, hfind _ ⟨rfl, by simp⟩]
      simp
    · rw [copyBad, hfind _ ⟨rfl, by cases dirty <;> simp⟩, copyBad, hw]
      simp

/-! ## The directory -/

theorem slice_updDir (h key : Nat) (f : DirE → DirE) (y : Nat) :
    slice (updDir h key f s) y = if y = h then { slice s h with dir := edit DirE.reset f (slice s h).dir key } else slice s y :=
  slice_updSlice _ h _ y

theorem dirAt_updDir (h key : Nat) (f : DirE → DirE) (k : Nat) :
    dirAt (updDir h key f s) h k = if k = key then f (dirAt s h key) else dirAt s h k := by
  rw [dirAt, slice_updDir, if_pos rfl, look_edit]
  rfl

theorem dirAt_llcFill (h : Nat) (l : BitVec 42) (dirty nt : Bool) (k : Nat) :
    dirAt (llcFill h l dirty nt s) h k = dirAt s h k := by
  obtain ⟨t, hs, -, -⟩ := slice_llcFill (s := s) h l dirty nt
  rw [dirAt, hs, if_pos rfl]
  rfl

/-- With no write-back held and no place taken, nothing follows when an entry becomes stable. -/
theorem settleLine_idle (h : Fin 40) (l : BitVec 42) (hwb : (slice s h.val).wbBuf = []) (hrsv : (slice s h.val).rsv = []) :
    settleLine h l s = s := by
  have hnext : nextPlace s h.val l = none := by simp [nextPlace, hrsv]
  simp [settleLine, settleFuel, settleDir, hwb, hrsv, hnext]

theorem bayBit_eq (b : Nat) : bayBit b = BitVec.twoPow 40 b := by simp [bayBit, setBit]

/-! ## Delivery -/

/-- The mesh without the message that is being delivered. -/
def taken (k : CKind) (m : CMsg) (s : State) : State := { s with net := netWithout k m s }

theorem keeps_taken (k : CKind) (m : CMsg) : Keeps [.net] s (taken k m s) := by
  unfold taken
  exact (keeps_refl [.net] s).frame

/-- A message that passes its receiver's checks does no more than its own action. -/
theorem deliver_arrives {k : CKind} {m : CMsg} (act : State → State) (h : Arrives m s) :
    deliver k m act s = .next (act (taken k m s)) := by
  obtain ⟨hdie, htarget, hopen, hsrc⟩ := h
  unfold deliver
  rw [if_neg (by simp [hdie])]
  extract_lets u toDown good
  have hdown : toDown = false := by
    simp only [toDown]
    cases hr : srcOfReceiver m.dst with
    | none => rfl
    | some y =>
      rw [hr] at hopen
      rw [Bool.not_eq_false']
      exact hopen
  have hgood : good = act (taken k m s) := by
    have ht : staleTarget u m = none := htarget
    simp only [good]
    rw [hdown, ht, if_neg Bool.false_ne_true]
    rfl
  clear_value good
  subst hgood
  cases hx : srcOfAgent m.src with
  | none => rfl
  | some x =>
    rw [hx] at hsrc
    have hc : checkSrc u x m.gen m.site (partOfAgent u m.dst) = .good := hsrc
    dsimp only
    rw [hc]

/-- Where no cache array errs, a message acts at once. -/
theorem withFind_clean (m : CMsg) (act : State → State) : withFind m .clean act s = act s := by
  unfold withFind
  cases m.dst <;> rfl

end Sys2Proof.Machine
end

section
/-! Answers, DONE and write-backs at a home (R224, R233 to R236). -/
namespace Sys2Proof.Machine
set_option Elab.async false
variable {s : State} {m : CMsg} {h b : Fin 40} {key : Nat}

theorem and_not_twoPow_self (b : Nat) : (BitVec.twoPow 40 b) &&& ~~~(BitVec.twoPow 40 b) = 0 := by
  simp

/-- A map with the bay's bit and another has a bit left without the bay's. -/
theorem and_not_twoPow_ne_zero {v : BitVec 40} {b : Nat} (hb : v.getLsbD b = true) (hv : v ≠ BitVec.twoPow 40 b) :
    v &&& ~~~(BitVec.twoPow 40 b) ≠ 0 := by
  intro h0
  refine hv (BitVec.eq_of_getLsbD_eq fun i hi => ?_)
  have hi0 : (v &&& ~~~(BitVec.twoPow 40 b)).getLsbD i = false := by rw [h0]; simp
  rw [BitVec.getLsbD_and, BitVec.getLsbD_not, BitVec.getLsbD_twoPow] at hi0
  rw [BitVec.getLsbD_twoPow]
  by_cases hbi : b = i
  · subst hbi
    simp [hb, hi]
  · simpa [hbi, hi] using hi0

/-- An entry once the bay has answered. -/
def answeredBy (b : Nat) (d : DirE) : DirE :=
  { d with awaits := d.awaits &&& ~~~(BitVec.twoPow 40 b), fwd := d.fwd &&& ~~~(BitVec.twoPow 40 b) }

/-- An answer while others are awaited: the entry awaits them. -/
theorem answerFrom_waiting (hleft : (dirAt s h.val key).awaits &&& ~~~(BitVec.twoPow 40 b.val) ≠ 0) :
    dirAt (answerFrom h key b.val s) h.val key = answeredBy b.val (dirAt s h.val key) ∧
      slice (answerFrom h key b.val s) h.val = { slice s h.val with dir := (slice (answerFrom h key b.val s) h.val).dir } ∧
      (answerFrom h key b.val s).net = s.net ∧ Keeps [.slice] s (answerFrom h key b.val s) := by
  unfold answerFrom
  dsimp only
  rw [bayBit_eq, if_neg hleft]
  refine ⟨?_, ?_, rfl, (keeps_refl _ s).updDir⟩
  · rw [dirAt_updDir, if_pos rfl]
    rfl
  · rw [slice_updDir, if_pos rfl]

/-- The state in which a home meets an answer: an answer with dirty data is owed no more, and fills the slice. -/
def withAnswer (h : Fin 40) (b : Nat) (l : BitVec 42) (dirty : Bool) (s : State) : State :=
  let owed := (slice s h.val).late.contains (b, l)
  let u := if dirty && owed then updSlice h.val (fun y => { y with late := y.late.filter (fun e => e ≠ (b, l)) }) s else s
  if dirty then llcFill h.val l true false u else u

theorem dirAt_withAnswer (dirty : Bool) (l : BitVec 42) (k : Nat) :
    dirAt (withAnswer h b.val l dirty s) h.val k = dirAt s h.val k := by
  have hlate (f : Slice → Slice) (hf : (f (slice s h.val)).dir = (slice s h.val).dir) :
      dirAt (updSlice h.val f s) h.val k = dirAt s h.val k := by
    simp [dirAt, hf]
  cases dirty with
  | false => simp [withAnswer]
  | true =>
    simp only [withAnswer, Bool.true_and, if_true]
    rw [dirAt_llcFill]
    split
    · exact hlate _ rfl
    · rfl

theorem dirFind_congr {u : State} {x : Nat} {l : BitVec 42} (hd : ∀ k, dirAt u x k = dirAt s x k) : dirFind u x l = dirFind s x l := by
  unfold dirFind
  congr 1
  funext k
  rw [hd]

/-- An awaited bay's answer at its busy entry. -/
theorem homeAnswer_awaited (dirty : Bool) (hsrc : m.src = .bay b) (hkey : dirFind s h.val m.line = some key)
    (hbusy : isBusy (dirAt s h.val key).st = true) (haw : (dirAt s h.val key).awaits.getLsbD b.val = true) :
    homeAnswer h m dirty s = answerFrom h key b.val (withAnswer h b.val m.line dirty s) := by
  have hnum : bayNum m.src = b.val := by rw [hsrc]; rfl
  have hlate : dirFind (if dirty && (slice s h.val).late.contains (b.val, m.line) then
      updSlice h.val (fun y => { y with late := y.late.filter (fun e => e ≠ (b.val, m.line)) }) s else s) h.val m.line = some key := by
    rw [← hkey]
    refine dirFind_congr fun k => ?_
    split
    · simp [dirAt]
    · rfl
  have hat : dirAt (if dirty && (slice s h.val).late.contains (b.val, m.line) then
      updSlice h.val (fun y => { y with late := y.late.filter (fun e => e ≠ (b.val, m.line)) }) s else s) h.val key
      = dirAt s h.val key := by
    split
    · simp [dirAt]
    · rfl
  unfold homeAnswer
  dsimp only
  rw [hnum, hlate]
  dsimp only
  rw [hat, if_pos (by simp [hbusy, haw])]
  rfl

theorem keeps_withAnswer (b : Nat) (l : BitVec 42) (dirty : Bool) :
    Keeps (if dirty then [.slice, .old] else []) s (withAnswer h b l dirty s) := by
  cases dirty with
  | false => simp only [withAnswer, Bool.false_and, Bool.false_eq_true, if_false]; exact keeps_refl _ s
  | true =>
    simp only [withAnswer, Bool.true_and, if_true]
    exact ((keeps_refl [.slice, .old] s).updSlice.ite (keeps_refl _ s)).llcFill

/-- The answer of a bay while others are awaited. -/
theorem homeAnswer_waiting (dirty : Bool) (hsrc : m.src = .bay b) (hkey : dirFind s h.val m.line = some key)
    (hbusy : isBusy (dirAt s h.val key).st = true) (haw : (dirAt s h.val key).awaits.getLsbD b.val = true)
    (hmore : (dirAt s h.val key).awaits ≠ BitVec.twoPow 40 b.val) :
    let u := homeAnswer h m dirty s
    dirAt u h.val key = answeredBy b.val (dirAt s h.val key) ∧ u.net = s.net ∧
      Keeps (if dirty then [.slice, .old] else [.slice]) s u ∧
      (dirty = true → lineState (slice u h.val).llc (llcSet m.line) m.line = .M) := by
  intro u
  have hd := dirAt_withAnswer (s := s) (h := h) (b := b) dirty m.line key
  have hleft := and_not_twoPow_ne_zero haw hmore
  rw [← hd] at hleft
  obtain ⟨hat, hslice, hnet, hkeep⟩ := answerFrom_waiting hleft
  have hfill := keeps_withAnswer (s := s) (h := h) b.val m.line dirty
  have hu : u = _ := homeAnswer_awaited dirty hsrc hkey hbusy haw
  rw [hu, hat, hnet, hd]
  refine ⟨rfl, (hfill .net (by cases dirty <;> decide)), ?_, ?_⟩
  · refine (keeps_mono ?_ hfill).via hkeep ?_
    · cases dirty <;> decide
    · cases dirty <;> decide
  · rintro rfl
    rw [hslice]
    obtain ⟨t, ht, hdirty, -⟩ := slice_llcFill (s := if (slice s h.val).late.contains (b.val, m.line) then
      updSlice h.val (fun y => { y with late := y.late.filter (fun e => e ≠ (b.val, m.line)) }) s else s) h.val m.line true false
    have hw : (slice (withAnswer h b.val m.line true s) h.val).llc = t := by
      simp only [withAnswer, Bool.true_and, if_true]
      rw [ht, if_pos rfl]
    rw [hw]
    exact hdirty rfl

/-- The grant of a home that announces no acknowledgement. -/
theorem grant_none (r : CMsg) : ∃ g, (grant h r 0 s).net = s.net ++ [(.grant, g)] ∧ g.dst = r.src ∧ g.count = 0 :=
  ⟨_, rfl, rfl, by rw [popcount]; simp⟩

/-- The last answer to a clean grants it. -/
theorem homeAnswer_lastClean {r : CMsg} (hsrc : m.src = .bay b) (hkey : dirFind s h.val m.line = some key)
    (hbusy : isBusy (dirAt s h.val key).st = true) (haw : (dirAt s h.val key).awaits = BitVec.twoPow 40 b.val)
    (hreq : (dirAt s h.val key).req = some (.cln, r)) :
    let u := homeAnswer h m false s
    ∃ g, u.net = s.net ++ [(.grant, g)] ∧ g.dst = r.src ∧ g.count = 0 ∧ isDirty u (dirAt s h.val key).line = false ∧
      Keeps [.net, .slice, .old] s u := by
  intro u
  have hu : u = _ := homeAnswer_awaited false hsrc hkey hbusy (by rw [haw]; simp)
  have hw : withAnswer h b.val m.line false s = s := rfl
  rw [hu, hw]
  unfold answerFrom
  dsimp only
  rw [bayBit_eq, haw, and_not_twoPow_self, if_pos rfl]
  unfold answered
  dsimp only
  rw [dirAt_updDir, if_pos rfl]
  dsimp only
  rw [hreq]
  dsimp only
  generalize hv : updDir h.val key _ (updDir h.val key _ s) = v
  have hkeep : Keeps [.slice] s v := by
    subst hv
    exact (keeps_refl [.slice] s).updDir.updDir
  obtain ⟨g, hnet, hdst, hcount⟩ := grant_none (h := h) (s := llcClean h.val (dirAt s h.val key).line
    (cleanLine (dirAt s h.val key).line v)) r
  have hclean : Keeps [.slice, .old] v (llcClean h.val (dirAt s h.val key).line (cleanLine (dirAt s h.val key).line v)) :=
    (keeps_refl _ v).cleanLine.llcClean
  refine ⟨g, hnet.trans ?_, hdst, hcount, ?_, ?_⟩
  · rw [hclean .net (by decide), hkeep .net (by decide)]
  · have hd : isDirty (cleanLine (dirAt s h.val key).line v) (dirAt s h.val key).line = false := by simp [isDirty, cleanLine]
    exact hd
  · exact (((keeps_refl [.net, .slice, .old] s).via hkeep (by decide)).cleanLine.llcClean).grant

/-- MISS_WB of a bay with a forward to answer, with no write-back held: the entry waits for it. -/
theorem missWbAt_forwarded (hsrc : m.src = .bay b) (hkey : dirFind s h.val m.line = some key)
    (hbusy : isBusy (dirAt s h.val key).st = true) (hfwd : (dirAt s h.val key).fwd.getLsbD b.val = true)
    (hwb : (slice s h.val).wbBuf = []) :
    missWbAt h m s = updDir h.val key (fun e => { e with
      st := .BW, wbOf := e.wbOf ||| BitVec.twoPow 40 b.val, fwd := e.fwd &&& ~~~(BitVec.twoPow 40 b.val), since := s.time.now }) s := by
  have hnum : bayNum m.src = b.val := by rw [hsrc]; rfl
  unfold missWbAt
  rw [hkey]
  dsimp only
  rw [hnum, if_neg (by simp [hbusy, hfwd]), slice_updDir, if_pos rfl, hwb, bayBit_eq]
  rfl

/-- DONE of the transaction's own bay closes it. -/
theorem doneAt_mine (hsrc : m.src = .bay b) (hkey : dirFind s h.val m.line = some key)
    (hst : (dirAt s h.val key).st = .BS ∨ (dirAt s h.val key).st = .BX)
    (hown : (dirAt s h.val key).owner = BitVec.ofNat 6 b.val) (haw : (dirAt s h.val key).awaits = 0) :
    doneAt h m s = closeTx h key s := by
  have hnum : bayNum m.src = b.val := by rw [hsrc]; rfl
  have hb : (BitVec.ofNat 6 b.val).toNat = b.val := by simp; omega
  unfold doneAt
  rw [hkey]
  dsimp only
  rw [hnum, hown, hb, haw, if_pos (by simpa using hst)]

/-- An idle home's entry changed, and settled. -/
theorem settleLine_updDir (l : BitVec 42) (f : DirE → DirE) (hwb : (slice s h.val).wbBuf = []) (hrsv : (slice s h.val).rsv = []) :
    settleLine h l (updDir h.val key f s) = updDir h.val key f s :=
  settleLine_idle h l (by rw [slice_updDir, if_pos rfl]; exact hwb) (by rw [slice_updDir, if_pos rfl]; exact hrsv)

section
variable (hwb : (slice s h.val).wbBuf = []) (hrsv : (slice s h.val).rsv = [])
include hwb hrsv

/-- A read's transaction closes: the entry is shared by the requester too, but for the bays that have gone. -/
theorem closeTx_rdS {r : CMsg} (hown : (dirAt s h.val key).owner = BitVec.ofNat 6 b.val)
    (hreq : (dirAt s h.val key).req = some (.rdS, r)) :
    closeTx h key s = updDir h.val key (fun e =>
      let left := ((dirAt s h.val key).sharers ||| BitVec.twoPow 40 b.val) &&& ~~~(dirAt s h.val key).gone
      if left = 0 then DirE.reset else
        { e with st := .S, owner := 0, sharers := left, req := none, fromX := false, awaits := 0, fwd := 0, gone := 0 }) s := by
  have hb : (BitVec.ofNat 6 b.val).toNat = b.val := by simp; omega
  unfold closeTx
  dsimp only
  rw [hreq, hown, hb, bayBit_eq]
  dsimp only
  split
  case isTrue hl =>
    rw [settleLine_updDir _ _ hwb hrsv]
    congr 1
    funext e
    rw [if_pos (by simpa using hl)]
  case isFalse hl =>
    rw [settleLine_updDir _ _ hwb hrsv]
    congr 1
    funext e
    rw [if_neg (by simpa using hl)]

/-- A read for writing closes: the requester owns the line, unless it has given it back. -/
theorem closeTx_rdX {r : CMsg} (hown : (dirAt s h.val key).owner = BitVec.ofNat 6 b.val)
    (hreq : (dirAt s h.val key).req = some (.rdX, r)) :
    closeTx h key s = updDir h.val key (fun e =>
      if (dirAt s h.val key).gone.getLsbD b.val then DirE.reset else
        { e with st := .X, owner := BitVec.ofNat 6 b.val, sharers := 0, req := none, fromX := false, awaits := 0, fwd := 0,
                 gone := 0 }) s := by
  have hb : (BitVec.ofNat 6 b.val).toNat = b.val := by simp; omega
  unfold closeTx
  dsimp only
  rw [hreq, hown, hb]
  dsimp only
  split
  case isTrue hl =>
    rw [settleLine_updDir _ _ hwb hrsv]
    congr 1
    funext e
    rw [if_pos (by simpa using hl)]
  case isFalse hl =>
    rw [settleLine_updDir _ _ hwb hrsv]
    congr 1
    funext e
    rw [if_neg (by simpa using hl)]
    simp

/-- The owner's write-back frees the entry and is acknowledged. -/
theorem wbAt_owner (hsrc : m.src = .bay b) (hkey : dirFind s h.val m.line = some key) (hst : (dirAt s h.val key).st = .X)
    (hown : (dirAt s h.val key).owner = BitVec.ofNat 6 b.val) :
    let v := updDir h.val key (fun _ => DirE.reset) (llcFill h.val m.line true false s)
    wbAt .wbD h m s = send .wbAck (homeMsg v h m.src m) v := by
  have hb : (BitVec.ofNat 6 b.val).toNat = b.val := by simp; omega
  have hnum : bayNum m.src = b.val := by rw [hsrc]; rfl
  intro v
  have hslice : (slice (send .wbAck (homeMsg v h m.src m) v) h.val).wbBuf = [] ∧
      (slice (send .wbAck (homeMsg v h m.src m) v) h.val).rsv = [] := by
    obtain ⟨t, ht, -, -⟩ := slice_llcFill (s := s) h.val m.line true false
    have hv : slice (send .wbAck (homeMsg v h m.src m) v) h.val = slice v h.val := rfl
    rw [hv, slice_updDir, if_pos rfl, ht, if_pos rfl]
    exact ⟨hwb, hrsv⟩
  unfold wbAt
  rw [hkey]
  dsimp only
  rw [if_pos (by simp [hst, isBusy])]
  unfold absorbWb
  rw [hkey]
  dsimp only
  rw [hnum, hown, hb, if_pos rfl, if_neg (by simp [hst])]
  exact settleLine_idle h _ hslice.1 hslice.2

/-- The notice of one of several sharers leaves the others, and is acknowledged. -/
theorem wbAt_sharer (hsrc : m.src = .bay b) (hkey : dirFind s h.val m.line = some key) (hst : (dirAt s h.val key).st = .S)
    (hleft : (dirAt s h.val key).sharers &&& ~~~(BitVec.twoPow 40 b.val) ≠ 0) :
    let v := updDir h.val key (fun e => { e with
      sharers := (dirAt s h.val key).sharers &&& ~~~(BitVec.twoPow 40 b.val) }) s
    wbAt .wbC h m s = send .wbAck (homeMsg v h m.src m) v := by
  have hnum : bayNum m.src = b.val := by rw [hsrc]; rfl
  intro v
  have hslice : (slice (send .wbAck (homeMsg v h m.src m) v) h.val).wbBuf = [] ∧
      (slice (send .wbAck (homeMsg v h m.src m) v) h.val).rsv = [] := by
    have hv : slice (send .wbAck (homeMsg v h m.src m) v) h.val = slice v h.val := rfl
    rw [hv, slice_updDir, if_pos rfl]
    exact ⟨hwb, hrsv⟩
  unfold wbAt
  rw [hkey]
  dsimp only
  rw [if_pos (by simp [hst, isBusy])]
  unfold absorbWb
  rw [hkey]
  dsimp only
  rw [hnum, bayBit_eq, if_neg (by decide), if_neg (by simpa [hst] using hleft)]
  exact settleLine_idle h _ hslice.1 hslice.2

end

/-- Settles O28: each row is the home's action at the entry it finds. -/
theorem homeAnswers : Obligations.HomeAnswers := by
  unfold Obligations.HomeAnswers
  intro s m h b key harr hdst hsrc hkey hwb hrsv d bit
  have honly (f : Fin 40 → State → State) (u : State) : homeOnly m f u = f h u := by
    unfold homeOnly
    rw [hdst]
  refine ⟨?_, ?_, ?_, ?_, ?_, ?_⟩
  · intro hbusy haw hmore
    refine ⟨?_, ?_, ?_⟩
    · obtain ⟨hat, hnet, hkeep, -⟩ := homeAnswer_waiting (s := taken .ackF m s) false hsrc hkey hbusy haw hmore
      refine ⟨_, deliver_arrives _ harr, ?_⟩
      rw [honly]
      exact ⟨hnet, keeps_trans (keeps_mono (by decide) (keeps_taken .ackF m)) (keeps_mono (by decide) hkeep), hat⟩
    · obtain ⟨hat, hnet, hkeep, -⟩ := homeAnswer_waiting (s := taken .ackInv m s) false hsrc hkey hbusy haw hmore
      refine ⟨_, deliver_arrives _ harr, ?_⟩
      rw [show ackInvAt m (taken .ackInv m s) = homeAnswer h m false (taken .ackInv m s) by unfold ackInvAt; rw [hdst]]
      exact ⟨hnet, keeps_trans (keeps_mono (by decide) (keeps_taken .ackInv m)) (keeps_mono (by decide) hkeep), hat⟩
    · obtain ⟨hat, hnet, hkeep, hfill⟩ := homeAnswer_waiting (s := taken .dO m s) true hsrc hkey hbusy haw hmore
      refine ⟨_, deliver_arrives _ harr, ?_⟩
      rw [withFind_clean, honly]
      exact ⟨hnet, keeps_trans (keeps_mono (by decide) (keeps_taken .dO m)) (keeps_mono (by decide) hkeep), hat, hfill rfl⟩
  · intro r hbusy haw hreq
    obtain ⟨g, hnet, hg, hcount, hclean, hkeep⟩ := homeAnswer_lastClean (s := taken .ackF m s) hsrc hkey hbusy haw hreq
    refine ⟨_, g, deliver_arrives _ harr, ?_⟩
    rw [honly]
    exact ⟨hnet, hg, hcount, hclean, keeps_trans (keeps_mono (by decide) (keeps_taken .ackF m)) hkeep⟩
  · intro hbusy hfwd
    refine ⟨_, deliver_arrives _ harr, ?_⟩
    rw [honly, missWbAt_forwarded (s := taken .missWb m s) hsrc hkey hbusy hfwd hwb]
    refine ⟨rfl, ?_, ?_⟩
    · rw [dirAt_updDir, if_pos rfl]
      rfl
    · exact ((keeps_mono (by decide) (keeps_taken .missWb m)).updDir)
  · intro r hown haw
    refine ⟨?_, ?_⟩
    · intro hst hreq
      refine ⟨_, deliver_arrives _ harr, ?_⟩
      rw [honly, doneAt_mine (s := taken .done m s) hsrc hkey (.inl hst) hown haw,
        closeTx_rdS (s := taken .done m s) hwb hrsv hown hreq]
      refine ⟨rfl, ?_, (keeps_mono (by decide) (keeps_taken .done m)).updDir⟩
      rw [dirAt_updDir, if_pos rfl]
      rfl
    · intro hst hreq
      refine ⟨_, deliver_arrives _ harr, ?_⟩
      rw [honly, doneAt_mine (s := taken .done m s) hsrc hkey (.inr hst) hown haw,
        closeTx_rdX (s := taken .done m s) hwb hrsv hown hreq]
      refine ⟨rfl, ?_, (keeps_mono (by decide) (keeps_taken .done m)).updDir⟩
      rw [dirAt_updDir, if_pos rfl, ← hown]
      rfl
  · intro hst hown
    have hat := wbAt_owner (s := taken .wbD m s) hwb hrsv hsrc hkey hst hown
    obtain ⟨t, ht, hdirty, -⟩ := slice_llcFill (s := taken .wbD m s) h.val m.line true false
    have hfill : Keeps [.slice, .old] (taken .wbD m s) (updDir h.val key (fun _ => DirE.reset) (llcFill h.val m.line true false
        (taken .wbD m s))) := ((keeps_refl _ _).llcFill).updDir
    have hexec : exec (.wbD m .clean) s = .next _ := deliver_arrives _ harr
    rw [withFind_clean, honly, hat] at hexec
    refine ⟨_, _, hexec, congrArg (· ++ _) (hfill .net (by decide)), hsrc, rfl, ?_, ?_, ?_⟩
    · exact (dirAt_updDir (s := llcFill h.val m.line true false (taken .wbD m s)) h.val key _ key).trans (if_pos rfl)
    · have hs := slice_updDir (s := llcFill h.val m.line true false (taken .wbD m s)) h.val key (fun _ => DirE.reset) h.val
      rw [if_pos rfl, ht, if_pos rfl] at hs
      exact (congrArg (fun x : Slice => lineState x.llc (llcSet m.line) m.line) hs).trans (hdirty rfl)
    · exact ((keeps_mono (by decide) (keeps_taken .wbD m)).via hfill (by decide)).send
  · intro hst hleft
    have hat := wbAt_sharer (s := taken .wbC m s) hwb hrsv hsrc hkey hst hleft
    have hexec : exec (.wbC m .clean) s = .next _ := deliver_arrives _ harr
    rw [withFind_clean, honly, hat] at hexec
    refine ⟨_, _, hexec, rfl, hsrc, rfl, ?_, ((keeps_mono (by decide) (keeps_taken .wbC m)).updDir).send⟩
    exact (dirAt_updDir (s := taken .wbC m s) h.val key _ key).trans (if_pos rfl)

end Sys2Proof.Machine
end

section
/-! Forwards at a bay (R225 to R227), and what an operation that ends reservations leaves. -/
namespace Sys2Proof.Machine
set_option Elab.async false
variable {s u v : State} {m : CMsg} {b : Fin 40} {P : List Piece}

/-! ## Ending reservations -/

theorem look_editAll {α : Type} [DecidableEq α] (d : α) (f : Nat → α → α) (hd : ∀ k, f k d = d) (t : Tbl α) (i : Nat) :
    look d (editAll d f t) i = f i (look d t i) := by
  induction t with
  | nil => exact (hd i).symm
  | cons e t ih =>
    obtain ⟨k, x⟩ := e
    rw [editAll, look_put, look]
    by_cases h : i = k
    · subst h
      simp
    · rw [if_neg h, if_neg (Ne.symm h), ih]

/-- The states differ at most in reservations and the monitors' entries for them. -/
structure Unreserved (s u : State) : Prop where
  thr : ∀ t, (thr u t).calm = (thr s t).calm
  bay : ∀ b, { bay u b with mon := [] } = { bay s b with mon := [] }
  slice : ∀ b, { slice u b with mon := [] } = { slice s b with mon := [] }
  keeps : Keeps [.thr, .bay, .slice, .eng] s u

theorem unreserved_refl : Unreserved s s := ⟨fun _ => rfl, fun _ => rfl, fun _ => rfl, keeps_refl _ s⟩

theorem Unreserved.trans (h : Unreserved s u) (h' : Unreserved u v) : Unreserved s v :=
  ⟨fun t => (h'.thr t).trans (h.thr t), fun b => (h'.bay b).trans (h.bay b), fun b => (h'.slice b).trans (h.slice b),
    keeps_trans h.keeps h'.keeps⟩

theorem Unreserved.l2_eq (h : Unreserved s u) (b : Nat) : (Machine.bay u b).l2 = (Machine.bay s b).l2 := by
  have e := congrArg Bay.l2 (h.bay b)
  exact e

theorem Unreserved.slice_eq (h : Unreserved s u) (b : Nat) : (Machine.slice u b).dir = (Machine.slice s b).dir ∧
    (Machine.slice u b).llc = (Machine.slice s b).llc ∧ (Machine.slice u b).rsv = (Machine.slice s b).rsv ∧
    (Machine.slice u b).wbBuf = (Machine.slice s b).wbBuf := by
  have e := congrArg (fun x : Slice => (x.dir, x.llc, x.rsv, x.wbBuf)) (h.slice b)
  simpa using e

theorem unreserved_keepMon (p : MonE → Bool) : Unreserved s (keepMon p s) where
  thr _ := rfl
  bay b := by
    change ({ look Bay.reset (editAll Bay.reset (fun _ b => { b with mon := b.mon.filter p }) s.bay) b with mon := [] } : Bay) = _
    rw [look_editAll _ _ (fun _ => rfl)]
    rfl
  slice b := by
    change ({ look Slice.reset (editAll Slice.reset (fun _ x => { x with mon := x.mon.filter p }) s.slice) b with mon := [] } : Slice) = _
    rw [look_editAll _ _ (fun _ => rfl)]
    rfl
  keeps := ((keeps_refl [.bay, .slice, .eng] s).keepMon).via (keeps_refl [] _) (by decide) |> keeps_mono (by decide)

theorem unreserved_loseResv (t : Thr) : Unreserved s (loseResv t s) := by
  refine Unreserved.trans (u := updThr t (fun th => { th with resv := none }) s) ⟨fun y => ?_, fun _ => rfl, fun _ => rfl,
    (keeps_refl _ s).updThr⟩ (unreserved_keepMon _)
  rw [thr_updThr]
  split
  · subst y
    rfl
  · rfl

theorem unreserved_loseResvAt (t : Thr) (g : BitVec 41) : Unreserved s (loseResvAt t g s) :=
  (unreserved_loseResv t).trans (unreserved_keepMon _)

theorem unreserved_forEach {α : Type} {l : List α} {f : α → State → State} (hf : ∀ a x, Unreserved x (f a x)) :
    Unreserved s (forEach l f s) :=
  forEach_keeps (Unreserved s) f l s unreserved_refl fun a _ x hx => hx.trans (hf a x)

theorem unreserved_loseCoreResv (c : Nat) (l : BitVec 42) : Unreserved s (loseCoreResv c l s) := by
  refine unreserved_forEach fun t x => ?_
  split
  · split
    · exact unreserved_loseResv t
    · exact unreserved_refl
  · exact unreserved_refl

theorem unreserved_loseResvOn (who : Option Thr) (g : BitVec 41) : Unreserved s (loseResvOn who g s) := by
  refine unreserved_forEach fun e x => ?_
  split
  · exact unreserved_refl
  case h_2 t _ =>
    split
    · exact unreserved_refl
    · split
      · split
        · exact unreserved_loseResvAt _ _
        · exact unreserved_refl
      · exact unreserved_refl

theorem unreserved_clearHomeMon (h : Nat) (l : BitVec 42) : Unreserved s (clearHomeMon h l s) :=
  unreserved_forEach fun _ _ => unreserved_loseResvAt _ _

/-! ## Lines leaving a bay -/

/-- A table without the line does not hold it. -/
theorem lineState_setLineState_I (t : Tbl CLine) (set : Nat) (l : BitVec 42) : lineState (setLineState t set l .I) set l = .I := by
  have hset : setLineState t set l .I =
      forEach (wayKeys set 16) (fun k acc => edit CLine.reset (fun w => if w.line = l then CLine.reset else w) acc k) t := if_pos rfl
  have hgone (keys : List Nat) (t : Tbl CLine) (k : Nat) (hk : k ∈ keys ∨
        ((look CLine.reset t k).line = l → (look CLine.reset t k).st = .I)) :
      let u := forEach keys (fun k acc => edit CLine.reset (fun w => if w.line = l then CLine.reset else w) acc k) t
      (look CLine.reset u k).line = l → (look CLine.reset u k).st = .I := by
    induction keys generalizing t with
    | nil => simpa using hk
    | cons a keys ih =>
      rw [forEach_cons]
      refine ih _ ?_
      by_cases ha : k = a
      · subst ha
        refine .inr ?_
        rw [look_edit, if_pos rfl]
        split
        · exact fun _ => rfl
        · exact fun h => absurd h ‹_›
      · rw [look_edit, if_neg ha]
        exact hk.imp_left fun h => (List.mem_cons.mp h).resolve_left ha
  unfold lineState
  cases hf : findWay (setLineState t set l .I) set l with
  | none => rfl
  | some k =>
    obtain ⟨hmem, hline, hst⟩ := findWay_mem hf
    rw [hset] at hline hst
    exact absurd (hgone _ t k (.inl hmem) hline) hst

/-- A line that a table holds takes another state there. -/
theorem lineState_setLineState {t : Tbl CLine} {set : Nat} {l : BitVec 42} {x : Mesi} (hx : x ≠ .I) (h : lineState t set l ≠ .I) :
    lineState (setLineState t set l x) set l = x := by
  unfold setLineState
  rw [if_neg hx]
  cases hf : findWay t set l with
  | none => exact absurd (by rw [lineState, hf]) h
  | some k =>
    obtain ⟨-, hline, -⟩ := findWay_mem hf
    have hput (c : CLine) (hc : c.line = l ∧ c.st = x) : lineState (put CLine.reset t k c) set l = x := by
      rw [lineState, findWay_put hc.1 (by rw [hc.2]; exact hx) (.inl hf)]
      simpa using hc.2
    exact hput _ ⟨hline, rfl⟩

/-- A line leaving the L1 caches of a bay ends reservations; its L2 keeps what it has. -/
theorem calm_bayL1Drop (b' : Nat) (l : BitVec 42) :
    (∀ t, (thr (bayL1Drop b' l s) t).calm = (thr s t).calm) ∧ ∀ y, (bay (bayL1Drop b' l s) y).l2 = (bay s y).l2 := by
  refine forEach_keeps (fun x => (∀ t, (thr x t).calm = (thr s t).calm) ∧ ∀ y, (bay x y).l2 = (bay s y).l2) _ _ s
    ⟨fun _ => rfl, fun _ => rfl⟩ fun c _ x hx => ?_
  have hd : (∀ t, (thr (l1dDrop (4 * b' + c) l x) t).calm = (thr x t).calm) ∧
      ∀ y, (bay (l1dDrop (4 * b' + c) l x) y).l2 = (bay x y).l2 := by
    unfold l1dDrop
    split
    · exact ⟨fun _ => rfl, fun _ => rfl⟩
    · have h := unreserved_loseCoreResv (4 * b' + c) l
        (s := updCore (4 * b' + c) (fun k => { k with l1d := setLineState k.l1d (l1Set l) l .I }) x)
      exact ⟨fun t => h.thr t, fun y => h.l2_eq y⟩
  exact ⟨fun t => (hd.1 t).trans (hx.1 t), fun y => (hd.2 y).trans (hx.2 y)⟩

theorem bayDrop_spec (b' : Nat) (l : BitVec 42) :
    lineState (bay (bayDrop b' l s) b').l2 (l2Set l) l = .I ∧ ∀ t, (thr (bayDrop b' l s) t).calm = (thr s t).calm := by
  have hcalm := (calm_bayL1Drop (s := s) b' l).1
  unfold bayDrop
  generalize bayL1Drop b' l s = w at hcalm
  refine ⟨?_, fun t => ?_⟩
  · rw [bay_updBay, if_pos rfl]
    dsimp only
    exact lineState_setLineState_I (bay w b').l2 (l2Set l) l
  · rw [thr_updBay]
    exact hcalm t

theorem bayDemote_spec (b' : Nat) (l : BitVec 42) (l1 : Mesi) {x : Mesi} (hx : x ≠ .I)
    (h : lineState (bay s b').l2 (l2Set l) l ≠ .I) :
    lineState (bay (bayDemote b' l l1 x s) b').l2 (l2Set l) l = x ∧ ∀ t, thr (bayDemote b' l l1 x s) t = thr s t := by
  have hcores : Keeps [.core] s (forEach (List.range 4) (fun c acc =>
      let held := lineState (core acc (4 * b' + c)).l1d (l1Set l) l
      if held = .E || held = .M then updCore (4 * b' + c) (fun k => { k with l1d := setLineState k.l1d (l1Set l) l l1 }) acc
      else acc) s) := (keeps_refl _ s).each fun _ _ hx => hx.updCore.ite hx
  have hbay (v : State) (hv : Keeps [.core] s v) : bay v b' = bay s b' :=
    congrArg (fun t => look Bay.reset t b') (hv .bay (by decide))
  have hthr (v : State) (hv : Keeps [.core] s v) (t : Thr) : thr v t = thr s t :=
    congrArg (fun x => look Thread.reset x (thrKey t)) (hv .thr (by decide))
  unfold bayDemote
  refine ⟨?_, fun t => ?_⟩
  · rw [bay_updBay, if_pos rfl, hbay _ hcores]
    exact lineState_setLineState hx h
  · rw [thr_updBay]
    exact hthr _ hcores t

theorem natOfBytes_bytesOfNat (n v : Nat) : natOfBytes (bytesOfNat n v) = v % 256 ^ n := by
  induction n generalizing v with
  | zero => simp [bytesOfNat, natOfBytes, Nat.mod_one]
  | succ n ih =>
    rw [bytesOfNat, natOfBytes, ih, BitVec.toNat_ofNat, show 256 ^ (n + 1) = 256 * 256 ^ n from Nat.pow_succ', Nat.mod_mul]

theorem length_bytesOfNat (n v : Nat) : (bytesOfNat n v).length = n := by
  induction n generalizing v with
  | zero => rfl
  | succ n ih => rw [bytesOfNat, List.length_cons, ih]

/-- Bytes written are read. -/
theorem readBytes_written {a : Nat} {l : List Byte} (h : u.mem = writeList a l s.mem) : readBytes u a l.length = l := by
  refine List.ext_getElem (by simp [readBytes]) fun i h1 h2 => ?_
  simp only [readBytes, readByte, List.getElem_map, List.getElem_range]
  rw [h, look_writeList, if_pos (by omega), Nat.add_sub_cancel_left, List.getD_eq_getElem _ _ h2]

theorem lineData_writeLineData (l : BitVec 42) (x : BitVec 512) (hu : u.mem = (writeLineData l x s).mem) : lineData u l = x := by
  have hread : readBytes u (l.toNat * 64) 64 = bytesOfNat 64 x.toNat := by
    have h := readBytes_written (s := s) (l := bytesOfNat 64 x.toNat) hu
    rwa [length_bytesOfNat] at h
  rw [lineData, hread, natOfBytes_bytesOfNat, Nat.mod_eq_of_lt (lt_of_lt_of_eq x.isLt (Nat.pow_mul 2 8 64)), BitVec.ofNat_toNat,
    BitVec.setWidth_eq]

/-- A discarded line holds what DRAM had. -/
theorem discardLine_spec (l : BitVec 42) :
    isDirty (discardLine l s) l = false ∧
      ∀ v p, look none s.old l.toNat = some (v, p) → lineData (discardLine l s) l = v ∧ isPoisoned (discardLine l s) l = p := by
  unfold discardLine
  cases ho : look none s.old l.toNat with
  | none => exact ⟨by rw [isDirty, ho]; rfl, fun v p h => absurd h (by simp)⟩
  | some e =>
    obtain ⟨v, p⟩ := e
    refine ⟨by simp [isDirty], fun v' p' h => ?_⟩
    obtain ⟨rfl, rfl⟩ : v = v' ∧ p = p' := by simpa using h
    refine ⟨lineData_writeLineData (s := s) l v rfl, ?_⟩
    cases p <;> simp [isPoisoned, setPoison]

/-! ## Forwards -/

/-- A forward at a bay where no reservation holds its line and no write-back has crossed it is acted on at once. -/
theorem forward_acts {k : CKind} {c : Instr} (hexec : exec c s = deliver k m (withFind m .clean (forwardAt k m)) s)
    (hbay : AtBay s m b) : exec c s = .next (doForward b k m (taken k m s)) := by
  obtain ⟨harr, hdst, -, hhold⟩ := hbay
  rw [hexec, deliver_arrives _ harr, withFind_clean]
  unfold forwardAt
  rw [hdst]
  unfold takeForward
  have hnone : (List.range 4).find? (fun c => (core (taken k m s) (4 * b.val + c)).hold.any
      (fun hd => decide (hd.granule = granuleOfLine m.line))) = none := by
    refine List.find?_eq_none.mpr fun c hc => ?_
    rw [Bool.not_eq_true, List.any_eq_false]
    intro hd hmem
    simpa using hhold c (List.mem_range.mp hc) hd hmem
  dsimp only
  rw [hnone]

/-- The state of the line that a forward leaves at its bay, with what else it may change. -/
def LeavesLine (b : Fin 40) (l : BitVec 42) (x : Mesi) (s u : State) : Prop :=
  lineState (bay u b.val).l2 (l2Set l) l = x ∧ (∀ t, (thr u t).calm = (thr s t).calm) ∧
    Keeps [.thr, .core, .bay, .slice, .eng, .net] s u

/-- A state before which only messages were taken or sent. -/
def NetOnly (s u : State) : Prop := ∃ n, u = { s with net := n }

theorem netOnly_trans (h : NetOnly s u) (h' : NetOnly u v) : NetOnly s v := by
  obtain ⟨n, rfl⟩ := h
  obtain ⟨n', rfl⟩ := h'
  exact ⟨n', rfl⟩

theorem leavesLine_bayDrop (l : BitVec 42) (h : NetOnly s u) : LeavesLine b l .I s (bayDrop b.val l u) := by
  obtain ⟨n, rfl⟩ := h
  obtain ⟨hline, hthr⟩ := bayDrop_spec (s := { s with net := n }) b.val l
  refine ⟨hline, hthr, Keeps.bayDrop (keeps_mono (l := [.net]) (by decide) ?_)⟩
  exact (keeps_refl [.net] s).frame

theorem leavesLine_bayDemote (l : BitVec 42) (l1 : Mesi) {x : Mesi} (hx : x ≠ .I)
    (hst : lineState (bay s b.val).l2 (l2Set l) l ≠ .I) (h : NetOnly s u) : LeavesLine b l x s (bayDemote b.val l l1 x u) := by
  obtain ⟨n, rfl⟩ := h
  obtain ⟨hline, hthr⟩ := bayDemote_spec (s := { s with net := n }) b.val l l1 hx hst
  refine ⟨hline, fun t => congrArg Thread.calm (hthr t), Keeps.bayDemote (keeps_mono (l := [.net]) (by decide) ?_)⟩
  exact (keeps_refl [.net] s).frame

theorem net_bayDrop (l : BitVec 42) : (bayDrop b.val l s).net = s.net :=
  ((keeps_refl [.thr, .core, .bay, .slice, .eng] s).bayDrop) .net (by decide)

theorem net_bayDemote (l : BitVec 42) (l1 x : Mesi) : (bayDemote b.val l l1 x s).net = s.net :=
  ((keeps_refl [.core, .bay] s).bayDemote) .net (by decide)

/-- A bay gives up a line whose stores are undone. -/
def discarded (b : Fin 40) (l : BitVec 42) (s : State) : State :=
  let st := lineState (bay s b.val).l2 (l2Set l) l
  if st = .I then s else bayDrop b.val l (if st = .M then discardLine l s else s)

theorem discarded_spec (l : BitVec 42) :
    let u := discarded b l s
    lineState (bay u b.val).l2 (l2Set l) l = .I ∧ (∀ t, (thr u t).calm = (thr s t).calm) ∧
      Keeps [.thr, .core, .bay, .slice, .eng, .mem, .old, .poison] s u ∧
      (lineState (bay s b.val).l2 (l2Set l) l = .M → isDirty u l = false ∧
        ∀ v p, look none s.old l.toNat = some (v, p) → lineData u l = v ∧ isPoisoned u l = p) ∧ u.net = s.net := by
  intro u
  have hdrop (d : State) (hd : Keeps [.mem, .old, .poison] s d) : lineState (bay (bayDrop b.val l d) b.val).l2 (l2Set l) l = .I ∧
      (∀ t, (thr (bayDrop b.val l d) t).calm = (thr s t).calm) ∧
      Keeps [.thr, .core, .bay, .slice, .eng, .mem, .old, .poison] s (bayDrop b.val l d) ∧ (bayDrop b.val l d).net = s.net := by
    obtain ⟨hline, hthr⟩ := bayDrop_spec (s := d) b.val l
    refine ⟨hline, fun t => (hthr t).trans ?_, ((keeps_mono (by decide) hd).bayDrop), (net_bayDrop l).trans (hd .net (by decide))⟩
    exact congrArg (fun x => (look Thread.reset x (thrKey t)).calm) (hd .thr (by decide))
  have hmem (d : State) : isDirty (bayDrop b.val l d) l = isDirty d l ∧ lineData (bayDrop b.val l d) l = lineData d l ∧
      isPoisoned (bayDrop b.val l d) l = isPoisoned d l := by
    have hk : Keeps [.thr, .core, .bay, .slice, .eng] d (bayDrop b.val l d) := (keeps_refl _ d).bayDrop
    have hm : (bayDrop b.val l d).mem = d.mem := hk .mem (by decide)
    have ho : (bayDrop b.val l d).old = d.old := hk .old (by decide)
    have hp : (bayDrop b.val l d).poison = d.poison := hk .poison (by decide)
    refine ⟨?_, ?_, ?_⟩
    · rw [isDirty, ho, isDirty]
    · simp only [lineData, readBytes, readByte, hm]
    · rw [isPoisoned, hp, isPoisoned]
  by_cases hI : lineState (bay s b.val).l2 (l2Set l) l = .I
  · have hu : u = s := if_pos hI
    rw [hu]
    exact ⟨hI, fun _ => rfl, keeps_refl _ s, fun hM => absurd (hI.symm.trans hM) (by decide), rfl⟩
  · by_cases hM : lineState (bay s b.val).l2 (l2Set l) l = .M
    · have hu : u = bayDrop b.val l (discardLine l s) := (if_neg hI).trans (by rw [if_pos hM])
      obtain ⟨hline, hthr, hkeep, hnet⟩ := hdrop _ ((keeps_refl _ s).discardLine)
      obtain ⟨hd, hl, hp⟩ := hmem (discardLine l s)
      rw [hu, hd, hl, hp]
      exact ⟨hline, hthr, hkeep, fun _ => discardLine_spec l, hnet⟩
    · have hu : u = bayDrop b.val l s := (if_neg hI).trans (by rw [if_neg hM])
      obtain ⟨hline, hthr, hkeep, hnet⟩ := hdrop s (keeps_refl _ s)
      rw [hu]
      exact ⟨hline, hthr, hkeep, fun h => absurd h hM, hnet⟩

section
variable (hwb : ∀ w ∈ (bay s b.val).wb, w.line ≠ m.line)
include hwb

theorem notInWb : (bay s b.val).wb.any (fun w => decide (w.line = m.line)) = false := by
  rw [List.any_eq_false]
  exact fun w hw => by simpa using hwb w hw

/-- The data that a forward sends its requester. -/
def forwardGiven (b : Fin 40) (m : CMsg) (excl : Bool) (s : State) : State :=
  send .dF { bayData s b m.coll m.line with excl := excl } s

/-- What a forward answers its home. -/
def forwardHome (b : Fin 40) (m : CMsg) (s : State) : State :=
  if lineState (bay s b.val).l2 (l2Set m.line) m.line = .M then send .dO (bayData s b m.src m.line) s
  else send .ackF { mkMsg s (.bay b) m.src m.line with coll := m.coll } s

section
variable (hown : (!(decide (lineState (bay s b.val).l2 (l2Set m.line) m.line = .E) ||
  decide (lineState (bay s b.val).l2 (l2Set m.line) m.line = .M))) = false)
include hown

theorem doForward_fS : doForward b .fS m s = bayDemote b.val m.line .S .S
    (if lineState (bay s b.val).l2 (l2Set m.line) m.line = .M then
      send .dO (bayData (forwardGiven b m false s) b m.src m.line) (forwardGiven b m false s)
    else forwardGiven b m false s) := by
  unfold doForward
  dsimp only
  rw [if_neg (by decide), notInWb hwb, if_neg Bool.false_ne_true, if_neg (by decide), hown, if_neg Bool.false_ne_true]
  rfl

theorem doForward_fX : doForward b .fX m s = bayDrop b.val m.line (forwardGiven b m true s) := by
  unfold doForward
  dsimp only
  rw [if_neg (by decide), notInWb hwb, if_neg Bool.false_ne_true, if_neg (by decide), hown, if_neg Bool.false_ne_true]
  rfl

theorem doForward_fCln : doForward b .fCln m s = bayDemote b.val m.line .E .E (forwardHome b m s) := by
  unfold doForward
  dsimp only
  rw [if_neg (by decide), notInWb hwb, if_neg Bool.false_ne_true, if_neg (by decide), hown, if_neg Bool.false_ne_true]
  rfl

theorem doForward_fFls : doForward b .fFls m s = bayDrop b.val m.line (forwardHome b m s) := by
  unfold doForward
  dsimp only
  rw [if_neg (by decide), notInWb hwb, if_neg Bool.false_ne_true, if_neg (by decide), hown, if_neg Bool.false_ne_true]
  rfl

end

theorem doForward_fDis : doForward b .fDis m s =
    send .ackInv (mkMsg (discarded b m.line s) (.bay b) m.coll m.line) (discarded b m.line s) := by
  unfold doForward
  extract_lets l' st inWb toHome ack owned
  have hin : inWb = false := notInWb hwb
  rw [if_neg (by decide), hin, if_neg Bool.false_ne_true, if_pos rfl]
  rfl

end

theorem doForward_fInv : doForward b .fInv m s =
    let v := if lineState (bay s b.val).l2 (l2Set m.line) m.line = .I then s else bayDrop b.val m.line s
    send .ackInv (mkMsg v (.bay b) m.coll m.line) v := by
  unfold doForward
  rw [if_pos rfl]

/-- Settles O27: what each forward makes of the line, and the messages it sends, at a bay that acts at once. -/
theorem forwards : Obligations.Forwards := by
  unfold Obligations.Forwards
  intro s m b hbay l st after bad
  obtain ⟨-, -, hwb, -⟩ := id hbay
  refine ⟨?_, ?_, ?_⟩
  · intro hst
    have hI : lineState (bay s b.val).l2 (l2Set l) l ≠ .I := by
      rcases hst with h | h
      · exact fun e => absurd (h.symm.trans e) (by decide)
      · exact fun e => absurd (h.symm.trans e) (by decide)
    have hown : (!(decide (lineState (bay s b.val).l2 (l2Set m.line) m.line = .E) ||
        decide (lineState (bay s b.val).l2 (l2Set m.line) m.line = .M))) = false := by
      rcases hst with h | h
      · rw [decide_eq_true h]; rfl
      · rw [decide_eq_true h, Bool.or_true]; rfl
    have hhome (v : State) : NetOnly v (forwardHome b m v) := by
      unfold forwardHome
      split
      · exact ⟨_, rfl⟩
      · exact ⟨_, rfl⟩
    have hanswer (v : State) (hv : NetOnly s v) : ∃ k f, (forwardHome b m v).net = v.net ++ [(k, f)] ∧ f.dst = m.src ∧
        (st = .M → k = .dO ∧ f.data = lineData s l) ∧ (st = .E → k = .ackF) := by
      obtain ⟨n, rfl⟩ := hv
      unfold forwardHome
      split
      case isTrue hM => exact ⟨.dO, _, rfl, rfl, fun _ => ⟨rfl, rfl⟩, fun hE => absurd (hE.symm.trans hM) (by decide)⟩
      case isFalse hM => exact ⟨.ackF, _, rfl, rfl, fun h => absurd h hM, fun _ => rfl⟩
    refine ⟨?_, ?_, ?_, ?_⟩
    · have hact := forward_acts (k := .fS) (c := .fS m .clean) rfl hbay
      rw [doForward_fS (s := taken .fS m s) hwb hown] at hact
      refine ⟨_, { bayData (taken .fS m s) b m.coll l with excl := false }, hact,
        leavesLine_bayDemote _ _ (by decide) hI ?_, rfl, rfl, rfl, rfl, ?_, ?_⟩
      · split
        · exact ⟨_, rfl⟩
        · exact ⟨_, rfl⟩
      · intro hE
        have hno : ¬ lineState (bay (taken .fS m s) b.val).l2 (l2Set m.line) m.line = .M :=
          fun hM => absurd (hE.symm.trans hM) (by decide)
        rw [net_bayDemote, if_neg hno]
        rfl
      · intro hM
        have hyes : lineState (bay (taken .fS m s) b.val).l2 (l2Set m.line) m.line = .M := hM
        rw [net_bayDemote, if_pos hyes]
        exact ⟨_, List.append_assoc _ _ _, rfl, rfl⟩
    · have hact := forward_acts (k := .fX) (c := .fX m .clean) rfl hbay
      rw [doForward_fX (s := taken .fX m s) hwb hown] at hact
      refine ⟨_, hact, leavesLine_bayDrop _ ⟨_, rfl⟩, _, net_bayDrop _, rfl, rfl, rfl, rfl⟩
    · have hact := forward_acts (k := .fCln) (c := .fCln m .clean) rfl hbay
      rw [doForward_fCln (s := taken .fCln m s) hwb hown] at hact
      obtain ⟨k, f, hnet, hf⟩ := hanswer (taken .fCln m s) ⟨_, rfl⟩
      exact ⟨_, hact, leavesLine_bayDemote _ _ (by decide) hI (netOnly_trans ⟨_, rfl⟩ (hhome _)), k, f, (net_bayDemote _ _ _).trans hnet, hf⟩
    · have hact := forward_acts (k := .fFls) (c := .fFls m .clean) rfl hbay
      rw [doForward_fFls (s := taken .fFls m s) hwb hown] at hact
      obtain ⟨k, f, hnet, hf⟩ := hanswer (taken .fFls m s) ⟨_, rfl⟩
      exact ⟨_, hact, leavesLine_bayDrop _ (netOnly_trans ⟨_, rfl⟩ (hhome _)), k, f, (net_bayDrop _).trans hnet, hf⟩
  · have hact := forward_acts (k := .fInv) (c := .fInv m .clean) rfl hbay
    rw [doForward_fInv (s := taken .fInv m s)] at hact
    have hleave : LeavesLine b l .I s (if lineState (bay (taken .fInv m s) b.val).l2 (l2Set m.line) m.line = .I then taken .fInv m s
        else bayDrop b.val m.line (taken .fInv m s)) := by
      split
      case isTrue hI => exact ⟨hI, fun _ => rfl, keeps_mono (by decide) (keeps_taken .fInv m)⟩
      case isFalse => exact leavesLine_bayDrop _ ⟨_, rfl⟩
    have hnet : (if lineState (bay (taken .fInv m s) b.val).l2 (l2Set m.line) m.line = .I then taken .fInv m s
        else bayDrop b.val m.line (taken .fInv m s)).net = netWithout .fInv m s := by
      split
      · rfl
      · exact net_bayDrop _
    generalize (if lineState (bay (taken .fInv m s) b.val).l2 (l2Set m.line) m.line = .I then taken .fInv m s
        else bayDrop b.val m.line (taken .fInv m s)) = v at hact hleave hnet
    obtain ⟨hline, hthr, hkeep⟩ := hleave
    exact ⟨_, hact, ⟨hline, hthr, hkeep.send⟩, _, congrArg (· ++ _) hnet, rfl, rfl, rfl⟩
  · have hact := forward_acts (k := .fDis) (c := .fDis m .clean) rfl hbay
    rw [doForward_fDis (s := taken .fDis m s) hwb] at hact
    obtain ⟨hline, hthr, hkeep, hdis, hnet⟩ := discarded_spec (s := taken .fDis m s) (b := b) m.line
    generalize discarded b m.line (taken .fDis m s) = v at hact hline hthr hkeep hdis hnet
    exact ⟨_, hact, hline, hthr, ((keeps_mono (by decide) (keeps_taken .fDis m)).via hkeep (by decide)).send, hdis, _,
      congrArg (· ++ _) hnet, rfl, rfl, rfl⟩

end Sys2Proof.Machine
end

section
/-! Requests at the home of their line (R191, R192, R204, R215, R222 to R227, R232, R237). -/
namespace Sys2Proof.Machine
set_option Elab.async false
variable {s u : State} {m m' : CMsg} {h : Fin 40} {key : Nat}

/-! ## What a home finds -/

theorem homeAgent_congr (hp : u.part = s.part) (l : BitVec 42) : homeAgent u l = homeAgent s l := by
  have hpart (a : BitVec 48) : partOfAddr u a = partOfAddr s a := by
    unfold partOfAddr part
    rw [hp]
  unfold homeAgent homeOf part
  rw [hpart, hp]

/-- What a read at a home meets goes by memory, poison and the slices' own copies. -/
theorem homePoison_congr {l : BitVec 42} (hpart : u.part = s.part) (hpoison : u.poison = s.poison)
    (hslice : ∀ x, copyBad (slice u x).llc (llcSet l) l = copyBad (slice s x).llc (llcSet l) l) : homePoison u l = homePoison s l := by
  unfold homePoison isPoisoned
  rw [homeAgent_congr hpart, hpoison]
  cases homeAgent s l with
  | none => rfl
  | some x =>
    dsimp only
    rw [hslice]

theorem homePoison_llcFill (x : Nat) (l : BitVec 42) (nt : Bool) : homePoison (llcFill x l false nt s) l = homePoison s l := by
  have hkeep : Keeps [.slice, .old] s (llcFill x l false nt s) := (keeps_refl _ s).llcFill
  refine homePoison_congr (hkeep .part (by decide)) (hkeep .poison (by decide)) fun y => ?_
  obtain ⟨t, ht, -, hbad⟩ := slice_llcFill (s := s) x l false nt
  rw [ht]
  split
  case isTrue hy =>
    rw [hbad, hy]
    simp
  case isFalse => rfl

theorem lineData_congr (hm : u.mem = s.mem) (l : BitVec 42) : lineData u l = lineData s l := by
  unfold lineData readBytes readByte
  rw [hm]

theorem fromHome_congr (hs : u.srcs = s.srcs) (excl : Bool) (acks : BitVec 40) (data : BitVec 512) (poison : Bool) :
    fromHome u h m excl acks data poison = fromHome s h m excl acks data poison := by
  unfold fromHome srcEnt
  rw [hs]

theorem grant_eq (acks : BitVec 40) : grant h m acks s = send .grant (fromHome s h m false acks 0 false) s := rfl

/-- The home's answer with a line's data. -/
theorem homeData_eq (excl : Bool) (acks : BitVec 40) :
    homeData h m excl acks s = send .dH (fromHome s h m excl acks (lineData s m.line) (homePoison s m.line))
      (llcFill h.val m.line false m.nt s) := by
  have hkeep : Keeps [.slice, .old] s (llcFill h.val m.line false m.nt s) := (keeps_refl _ s).llcFill
  have heq : homeData h m excl acks s = send .dH (fromHome (llcFill h.val m.line false m.nt s) h m excl acks
      (lineData (llcFill h.val m.line false m.nt s) m.line) (homePoison (llcFill h.val m.line false m.nt s) m.line))
      (llcFill h.val m.line false m.nt s) := rfl
  rw [heq, homePoison_llcFill, lineData_congr (hkeep .mem (by decide)), fromHome_congr (hkeep .srcs (by decide))]

/-- The slice has no write-back and no reservation waiting. -/
def IdleHome (s : State) (h : Fin 40) : Prop := (slice s h.val).wbBuf = [] ∧ (slice s h.val).rsv = []

theorem idleHome_llcFill (l : BitVec 42) (dirty nt : Bool) (hi : IdleHome s h) : IdleHome (llcFill h.val l dirty nt s) h := by
  obtain ⟨t, ht, -, -⟩ := slice_llcFill (s := s) h.val l dirty nt
  unfold IdleHome
  rw [ht, if_pos rfl]
  exact hi

theorem idleHome_updDir (k : Nat) (f : DirE → DirE) (hi : IdleHome s h) : IdleHome (updDir h.val k f s) h := by
  unfold IdleHome
  rw [slice_updDir, if_pos rfl]
  exact hi

theorem idleHome_of_keeps {P : List Piece} (hk : Keeps P s u) (hi : IdleHome s h) (hP : Piece.slice ∉ P := by decide) :
    IdleHome u h := by
  unfold IdleHome slice
  rw [show u.slice = s.slice from hk .slice hP]
  exact hi

theorem Unreserved.idleHome (hu : Unreserved s u) (hi : IdleHome s h) : IdleHome u h := by
  obtain ⟨-, -, hrsv, hwb⟩ := hu.slice_eq h.val
  exact ⟨hwb.trans hi.1, hrsv.trans hi.2⟩

/-- The home can take a request of the line now. -/
def CanTake (s : State) (h : Fin 40) (k : ReqKind) (l : BitVec 42) : Prop := canServe s h.val k l = true

/-- A request that its home can take is served, and nothing follows at an idle home. -/
theorem request_served {k : ReqKind} {kind : CKind} {c : Instr} (hat : AtHome s m h)
    (hexec : exec c s = deliver kind m (withFind m .clean (requestAt k m')) s) (hm : m'.dst = m.dst ∧ m'.line = m.line)
    (hcan : CanTake s h k m.line) (hidle : IdleHome (serve h k m' (taken kind m s)) h) :
    exec c s = .next (serve h k m' (taken kind m s)) := by
  obtain ⟨harr, hdst, hhome, -, hrsv, -, hserved⟩ := hat
  obtain ⟨hdst', hline⟩ := hm
  rw [hexec, deliver_arrives _ harr, withFind_clean]
  have haccept : accept h k m' (taken kind m s) = serve h k m' (taken kind m s) := by
    unfold accept queuedAhead
    have hr : (slice (taken kind m s) h.val).rsv = [] := hrsv
    have hc : canServe (taken kind m s) h.val k m'.line = true := by rw [hline]; exact hcan
    rw [hr, hc]
    rfl
  unfold requestAt
  rw [hdst', hdst]
  dsimp only
  have hh : homeOf (taken kind m s) (lineAddr m'.line) = some h.val := by rw [hline]; exact hhome
  have hl : lineServed (taken kind m s) m'.line = true := by rw [hline]; exact hserved
  rw [hh, hl, if_neg (by simp), if_pos rfl, haccept, settleLine_idle h _ hidle.1 hidle.2]

theorem AtHome.idle (hat : AtHome s m h) : IdleHome s h := by
  obtain ⟨-, -, -, -, hrsv, hwb, -⟩ := hat
  exact ⟨hwb, hrsv⟩

/-- A request that needs no entry, for a line without one. -/
theorem AtHome.canTake_bare (hat : AtHome s m h) (hnone : dirFind s h.val m.line = none) {k : ReqKind} (hk : needsEntry k = false) :
    CanTake s h k m.line := by
  obtain ⟨-, -, -, hroom, -, -, -⟩ := hat
  unfold CanTake canServe
  rw [hnone, hk]
  simpa using hroom

/-- A request for a line whose entry is stable. -/
theorem AtHome.canTake_entry (hat : AtHome s m h) (hkey : dirFind s h.val m.line = some key)
    (hst : isBusy (dirAt s h.val key).st = false) (k : ReqKind) : CanTake s h k m.line := by
  obtain ⟨-, -, -, hroom, -, -, -⟩ := hat
  unfold CanTake canServe
  rw [hkey]
  dsimp only
  rw [hst]
  simpa using hroom

theorem serve_bare {k : ReqKind} (hnone : dirFind s h.val m.line = none) (hk : needsEntry k = false) :
    serve h k m s = serveBare h k m s := by
  unfold serve
  rw [hnone]
  dsimp only
  rw [hk, if_pos (by decide)]

theorem serve_entry {k : ReqKind} (hkey : dirFind s h.val m.line = some key) : serve h k m s = beginTx h key k m s := by
  unfold serve
  rw [hkey]

end Sys2Proof.Machine
end

section
/-! Writes and atomics of engines at the home of a line that no bay holds (R192, R215, R227, R237). -/
namespace Sys2Proof.Machine
set_option Elab.async false
variable {s u : State} {m : CMsg} {h : Fin 40} {l : BitVec 42} {data : BitVec 512} {mask : BitVec 64}

/-! ## Memory -/

theorem readByte_of_keeps {P : List Piece} (hk : Keeps P s u) (x : Nat) (hP : Piece.mem ∉ P := by decide) :
    readByte u x = readByte s x := by
  unfold readByte
  rw [show u.mem = s.mem from hk .mem hP]

theorem mem_dirtyLine (l : BitVec 42) : (dirtyLine l s).mem = s.mem := ((keeps_refl [.old] s).dirtyLine) .mem (by decide)

theorem isDirty_dirtyLine (hl : isDramLine l = true) : isDirty (dirtyLine l s) l = true := by
  unfold dirtyLine
  split
  · simp [isDirty]
  case isFalse hn => simpa [hl] using hn

theorem isDirty_of_keeps {P : List Piece} (hk : Keeps P s u) (l : BitVec 42) (hP : Piece.old ∉ P := by decide) :
    isDirty u l = isDirty s l := by
  unfold isDirty
  rw [show u.old = s.old from hk .old hP]

/-- The victim of a fill is another line. -/
theorem isDirty_llcFill (x : Nat) (l : BitVec 42) (dirty nt : Bool) : isDirty (llcFill x l dirty nt s) l = isDirty s l := by
  unfold llcFill
  dsimp only
  cases hw : findWay (slice s x).llc (llcSet l) l with
  | some k => rfl
  | none =>
    obtain ⟨hmem, hways⟩ := victimWay_spec 16 4 (by decide) (slice s x).llc (llcSet l)
    generalize victimWay 16 4 (slice s x).llc (llcSet l) = v at hmem hways
    obtain ⟨w, t⟩ := v
    dsimp only at hmem hways ⊢
    rw [isDirty_updSlice]
    split
    case isFalse => rfl
    case isTrue hM =>
      have hne : (look CLine.reset t w).line ≠ l := by
        intro hl
        have hno := List.find?_eq_none.mp ((hways.findWay (llcSet l) l).trans hw) w hmem
        exact hno (by simp [hl, hM])
      have hnat : l.toNat ≠ (look CLine.reset t w).line.toNat := fun e => hne (BitVec.eq_of_toNat_eq e.symm)
      simp [isDirty, cleanLine, hnat]

theorem toNat_lineAddr (l : BitVec 42) : (lineAddr l).toNat = l.toNat * 64 := by
  have := l.isLt
  simp only [lineAddr, BitVec.toNat_shiftLeft, BitVec.toNat_setWidth, Nat.shiftLeft_eq]
  omega

theorem lineOf_lineAddr (l : BitVec 42) : lineOf (lineAddr l) = l := by
  apply BitVec.eq_of_toNat_eq
  have := l.isLt
  rw [lineOf, BitVec.extractLsb'_toNat, toNat_lineAddr, Nat.shiftRight_eq_div_pow]
  omega

/-- The bytes that a store that is not poisoned writes, and no others. -/
theorem readByte_storeBytes (who : Option Thr) (pa : BitVec 48) (b : List Byte) (x : Nat) :
    readByte (storeBytes who pa b false s) x =
      if pa.toNat ≤ x ∧ x < pa.toNat + b.length then b.getD (x - pa.toNat) 0 else readByte s x := by
  have hmem : (storeBytes who pa b false s).mem = (writeBytes pa.toNat b s).mem := by
    unfold storeBytes
    dsimp only
    rw [if_neg Bool.false_ne_true]
    have hk (v : State) : (loseResvOn who (granuleOf pa) v).mem = v.mem :=
      ((keeps_refl [.thr, .bay, .slice, .eng] v).loseResvOn) .mem (by decide)
    rw [hk, writeBytes_mem]
    split
    · rw [← mem_dirtyLine (s := s) (lineOf pa)]
      rfl
    · rw [writeBytes_mem, mem_dirtyLine]
  rw [readByte, hmem]
  exact readByte_writeBytes pa.toNat b x

theorem isDirty_storeBytes (who : Option Thr) (pa : BitVec 48) (b : List Byte) (hl : isDramLine (lineOf pa) = true) :
    isDirty (storeBytes who pa b false s) (lineOf pa) = true := by
  rw [← isDirty_dirtyLine (s := s) hl]
  have hk : Keeps [.thr, .bay, .slice, .eng, .mem, .poison] (dirtyLine (lineOf pa) s) (storeBytes who pa b false s) := by
    unfold storeBytes
    dsimp only
    rw [if_neg Bool.false_ne_true]
    have h := keeps_refl [.thr, .bay, .slice, .eng, .mem, .poison] (dirtyLine (lineOf pa) s)
    exact (h.writeBytes.setPoison.ite h.writeBytes).loseResvOn
  exact isDirty_of_keeps hk _

/-- Writing the bytes of a line at some places writes those, whatever their order. -/
theorem readByte_writeEach (base : Nat) (data : BitVec 512) (is : List Nat) (x : Nat) :
    readByte (forEach is (fun i acc => writeBytes (base + i) [data.extractLsb' (8 * i) 8] acc) s) x =
      if base ≤ x ∧ x - base ∈ is then data.extractLsb' (8 * (x - base)) 8 else readByte s x := by
  induction is generalizing s with
  | nil => simp
  | cons i is ih =>
    rw [forEach_cons, ih, readByte_writeBytes]
    by_cases hx : base ≤ x ∧ x - base ∈ is
    · rw [if_pos hx, if_pos ⟨hx.1, List.mem_cons_of_mem _ hx.2⟩]
    · rw [if_neg hx]
      by_cases he : x = base + i
      · subst he
        simp
      · have hno : ¬ (base ≤ x ∧ x - base ∈ i :: is) := by
          rintro ⟨hb, hm⟩
          rcases List.mem_cons.mp hm with rfl | hm
          · omega
          · exact hx ⟨hb, hm⟩
        rw [if_neg hno, if_neg (by simp; omega)]

/-- A masked write of a line that is not poisoned. -/
theorem storeMasked_spec (who : Option Thr) (l : BitVec 42) (data : BitVec 512) (mask : BitVec 64) :
    let u := storeMasked who l data mask false s
    (∀ x, readByte u x = if l.toNat * 64 ≤ x ∧ x < l.toNat * 64 + 64 ∧ mask.getLsbD (x - l.toNat * 64) = true then
      data.extractLsb' (8 * (x - l.toNat * 64)) 8 else readByte s x) ∧
    (isDramLine l = true → isDirty u l = true) ∧ Keeps [.thr, .bay, .slice, .eng, .mem, .old, .poison] s u := by
  intro u
  by_cases hmask : mask = BitVec.allOnes 64
  · have hu : u = storeBytes who (lineAddr l) (bytesOfNat 64 data.toNat) false s := if_pos hmask
    rw [hu]
    refine ⟨fun x => ?_, fun hl => ?_, (keeps_refl _ s).storeBytes_clean⟩
    · rw [readByte_storeBytes, length_bytesOfNat, toNat_lineAddr]
      by_cases hx : l.toNat * 64 ≤ x ∧ x < l.toNat * 64 + 64
      · have hi : x - l.toNat * 64 < 64 := by omega
        rw [if_pos hx, if_pos ⟨hx.1, hx.2, by rw [hmask, BitVec.getLsbD_allOnes]; exact decide_eq_true hi⟩, List.getD_eq_getElem?_getD, getElem?_bytesOfNat _ _ _ hi]
        apply BitVec.eq_of_toNat_eq
        rw [Option.getD_some, BitVec.toNat_ofNat, BitVec.extractLsb'_toNat, Nat.shiftRight_eq_div_pow, Nat.pow_mul]
      · rw [if_neg hx, if_neg (fun hm => hx ⟨hm.1, hm.2.1⟩)]
    · have hd := isDirty_storeBytes (s := s) who (lineAddr l) (bytesOfNat 64 data.toNat) (by rw [lineOf_lineAddr]; exact hl)
      rwa [lineOf_lineAddr] at hd
  · have hu : u = loseResvOn who (granuleOfLine l)
        (forEach (bitsOf mask) (fun i acc => writeBytes (l.toNat * 64 + i) [data.extractLsb' (8 * i) 8] acc) (dirtyLine l s)) := by
      refine (if_neg hmask).trans ?_
      dsimp only
      rw [if_neg Bool.false_ne_true]
    rw [hu]
    refine ⟨fun x => ?_, fun hl => ?_, ?_⟩
    · rw [readByte_of_keeps ((keeps_refl [.thr, .bay, .slice, .eng] _).loseResvOn), readByte_writeEach]
      have hold : readByte (dirtyLine l s) x = readByte s x := readByte_of_keeps ((keeps_refl [.old] s).dirtyLine) x
      rw [hold]
      congr 1
      simp only [bitsOf, List.mem_filter, List.mem_range, eq_iff_iff]
      constructor
      · rintro ⟨hb, hi, hm⟩
        exact ⟨hb, by omega, hm⟩
      · rintro ⟨hb, hi, hm⟩
        exact ⟨hb, by omega, hm⟩
    · rw [isDirty_of_keeps ((keeps_refl [.thr, .bay, .slice, .eng] _).loseResvOn), ← isDirty_dirtyLine (s := s) hl]
      exact isDirty_of_keeps ((keeps_refl [.mem] _).each fun _ _ hx => hx.writeBytes) l
    · exact ((keeps_refl _ s).dirtyLine.each fun _ _ hx => hx.writeBytes).loseResvOn

/-! ## HWR and HATM -/

/-- What carries a request that needs no entry through its home. -/
theorem bare_served {k : ReqKind} {kind : CKind} {c : Instr} {m' : CMsg} (hat : AtHome s m h)
    (hnone : dirFind s h.val m.line = none) (hk : needsEntry k = false)
    (hexec : exec c s = deliver kind m (withFind m .clean (requestAt k m')) s) (hm : m'.dst = m.dst ∧ m'.line = m.line)
    (hidle : IdleHome (serveBare h k m' (taken kind m s)) h) : exec c s = .next (serveBare h k m' (taken kind m s)) := by
  have hs : serve h k m' (taken kind m s) = serveBare h k m' (taken kind m s) :=
    serve_bare (by rw [hm.2]; exact hnone) hk
  rw [← hs] at hidle ⊢
  exact request_served hat hexec hm (hat.canTake_bare hnone hk) hidle

theorem idleHome_storeMasked (who : Option Thr) (hi : IdleHome s h) : IdleHome (storeMasked who l data mask false s) h := by
  unfold storeMasked storeBytes
  dsimp only
  split
  · rw [if_neg Bool.false_ne_true]
    refine (unreserved_loseResvOn _ _).idleHome (idleHome_of_keeps (s := s) (P := [.old, .mem, .poison]) ?_ hi)
    have hk := keeps_refl [.old, .mem, .poison] s
    exact hk.dirtyLine.writeBytes.setPoison.ite hk.dirtyLine.writeBytes
  · rw [if_neg Bool.false_ne_true]
    refine (unreserved_loseResvOn _ _).idleHome (idleHome_of_keeps (s := s) (P := [.old, .mem]) ?_ hi)
    exact (keeps_refl [.old, .mem] s).dirtyLine.each fun _ _ hx => hx.writeBytes

theorem idleHome_storeBytes (who : Option Thr) (pa : BitVec 48) (b : List Byte) (hi : IdleHome s h) :
    IdleHome (storeBytes who pa b false s) h := by
  unfold storeBytes
  dsimp only
  rw [if_neg Bool.false_ne_true]
  refine (unreserved_loseResvOn _ _).idleHome (idleHome_of_keeps (s := s) (P := [.old, .mem, .poison]) ?_ hi)
  have hk := keeps_refl [.old, .mem, .poison] s
  exact hk.dirtyLine.writeBytes.setPoison.ite hk.dirtyLine.writeBytes

/-- HWR at its home: the bytes its mask names, and a grant. -/
theorem hwr_served (hat : AtHome s m h) (hnone : dirFind s h.val m.line = none) (hp : m.poison = false) :
    ∃ u, exec (.hwr m .clean) s = .next u ∧ u.net = netWithout .hwr m s ++ [(.grant, fromHome s h m false 0 0 false)] ∧
      (∀ i < 64, readByte u (m.line.toNat * 64 + i) =
        if m.mask.getLsbD i then m.data.extractLsb' (8 * i) 8 else readByte s (m.line.toNat * 64 + i)) ∧
      MemKept (m.line.toNat * 64) 64 s u ∧ (isDramLine m.line = true → isDirty u m.line = true) ∧
      Keeps [.thr, .net, .slice, .bay, .eng, .mem, .old, .poison] s u := by
  have hidle : IdleHome (taken .hwr m s) h := hat.idle
  have hperf : ∃ who, serveBare h .hwr m (taken .hwr m s) = grant h m 0 (llcFill h.val m.line true m.nt
      (storeMasked who m.line m.data m.mask false (taken .hwr m s))) :=
    ⟨(ereqOf (taken .hwr m s) m.src m.tag m.line).map (fun e => Thr.adze e.thr), by rw [← hp]; rfl⟩
  obtain ⟨who, hperf⟩ := hperf
  obtain ⟨hread, hdirty, hkeep⟩ := storeMasked_spec (s := taken .hwr m s) who m.line m.data m.mask
  have hidle' := idleHome_llcFill m.line true m.nt (idleHome_storeMasked (l := m.line) (data := m.data) (mask := m.mask) who hidle)
  generalize storeMasked who m.line m.data m.mask false (taken .hwr m s) = v at hperf hread hdirty hkeep hidle'
  have hfill : Keeps [.slice, .old] v (llcFill h.val m.line true m.nt v) := (keeps_refl _ v).llcFill
  have hnet : (llcFill h.val m.line true m.nt v).net = netWithout .hwr m s := (hfill .net (by decide)).trans (hkeep .net (by decide))
  have hsrcs : (llcFill h.val m.line true m.nt v).srcs = s.srcs := (hfill .srcs (by decide)).trans (hkeep .srcs (by decide))
  have hdirty' : isDirty (llcFill h.val m.line true m.nt v) m.line = isDirty v m.line := isDirty_llcFill _ _ _ _
  have hexec := bare_served (k := .hwr) (c := .hwr m .clean) (m' := m) hat hnone rfl rfl ⟨rfl, rfl⟩ (by rw [hperf]; exact hidle')
  rw [hperf, grant_eq, fromHome_congr hsrcs] at hexec
  have hread' (x : Nat) : readByte (llcFill h.val m.line true m.nt v) x = readByte v x := readByte_of_keeps hfill x
  have hall : Keeps [.thr, .net, .slice, .bay, .eng, .mem, .old, .poison] s (llcFill h.val m.line true m.nt v) :=
    keeps_trans (keeps_mono (by decide) (keeps_taken .hwr m)) (keeps_trans (keeps_mono (by decide) hkeep) (keeps_mono (by decide) hfill))
  generalize llcFill h.val m.line true m.nt v = w at *
  refine ⟨_, hexec, congrArg (· ++ _) hnet, fun i hi => ?_, fun x hx => ?_, fun hl => hdirty'.trans (hdirty hl), hall.send⟩
  · refine (hread' _).trans ((hread _).trans ?_)
    rw [Nat.add_sub_cancel_left]
    by_cases hb : m.mask.getLsbD i = true
    · rw [if_pos ⟨by omega, by omega, hb⟩, if_pos hb]
    · rw [if_neg (fun hm => hb hm.2.2), if_neg hb]
      rfl
  · refine (hread' _).trans ((hread _).trans ?_)
    rw [if_neg (fun hm => hx ⟨hm.1, hm.2.1⟩)]
    rfl

/-- The code of an atomic in a message. -/
def atomCode : AtomOp → Nat
  | .ldres => 0
  | .stcnd => 1
  | .faa => 2
  | .cas => 3
  | .lda => 4

theorem toNat_packAtom (t : Fin 512) (op : AtomOp) (pa : BitVec 48) (dbl : Bool) (a b : Word) :
    (packAtom t op pa dbl a b).toNat =
      a.toNat + b.toNat * 2 ^ 64 + pa.toNat * 2 ^ 128 + t.val * 2 ^ 176 + atomCode op * 2 ^ 186 + bnat dbl * 2 ^ 189 := by
  have ha := a.isLt
  have hb := b.isLt
  have hpa := pa.isLt
  have ht := t.isLt
  have ho : atomCode op < 8 := by cases op <;> decide
  have hd : bnat dbl ≤ 1 := by cases dbl <;> decide
  have hp : packAtom t op pa dbl a b = BitVec.ofNat 512
      (a.toNat + b.toNat * 2 ^ 64 + pa.toNat * 2 ^ 128 + t.val * 2 ^ 176 + atomCode op * 2 ^ 186 + bnat dbl * 2 ^ 189) := by
    cases op <;> rfl
  rw [hp, BitVec.toNat_ofNat]
  refine Nat.mod_eq_of_lt (lt_of_lt_of_le (b := 2 ^ 192) ?_ (Nat.pow_le_pow_right Nat.two_pos (Nat.le_add_left 192 320)))
  omega

theorem packAtom_fields (t : Fin 512) (op : AtomOp) (pa : BitVec 48) (dbl : Bool) (a b : Word) :
    let v := packAtom t op pa dbl a b
    v.extractLsb' 0 64 = a ∧ v.extractLsb' 64 64 = b ∧ v.extractLsb' 128 48 = pa ∧ (v.extractLsb' 176 9).toNat = t.val ∧
      atomOpOf (v.extractLsb' 186 3) = op ∧ v.getLsbD 189 = dbl := by
  intro v
  have hv : v.toNat = _ := toNat_packAtom t op pa dbl a b
  have ha := a.isLt
  have hb := b.isLt
  have hpa := pa.isLt
  have ht := t.isLt
  have ho : atomCode op < 8 := by cases op <;> decide
  have hd : bnat dbl ≤ 1 := by cases dbl <;> decide
  have hfield (lo n : Nat) : (v.extractLsb' lo n).toNat = v.toNat / 2 ^ lo % 2 ^ n := by
    rw [BitVec.extractLsb'_toNat, Nat.shiftRight_eq_div_pow]
  have hop : (v.extractLsb' 186 3).toNat = atomCode op := by rw [hfield, hv]; omega
  refine ⟨BitVec.eq_of_toNat_eq ?_, BitVec.eq_of_toNat_eq ?_, BitVec.eq_of_toNat_eq ?_, ?_, ?_, ?_⟩
  · rw [hfield, hv]
    omega
  · rw [hfield, hv]
    omega
  · rw [hfield, hv]
    omega
  · rw [hfield, hv]
    omega
  · have hcode : v.extractLsb' 186 3 = BitVec.ofNat 3 (atomCode op) := BitVec.eq_of_toNat_eq (by
      rw [hop, BitVec.toNat_ofNat, Nat.mod_eq_of_lt ho])
    rw [hcode]
    cases op <;> rfl
  · have hbit : v.getLsbD 189 = decide (v.toNat / 2 ^ 189 % 2 = 1) := by
      rw [BitVec.getLsbD, Nat.testBit_eq_decide_div_mod_eq]
    have hq : v.toNat / 2 ^ 189 % 2 = bnat dbl := by rw [hv]; omega
    rw [hbit, hq]
    cases dbl <;> rfl

theorem setWidth_line (w : Word) : (w.setWidth 512).setWidth 64 = w := by
  rw [BitVec.setWidth_setWidth_of_le _ (by decide), BitVec.setWidth_eq]

theorem atomVal_eq (pa : BitVec 48) (dbl : Bool) : atomVal s pa dbl = atomOld s pa dbl := rfl

/-- What an atomic does at a slice: the value and the poison it answers, and the state. -/
def sliceAtom (h : Nat) (t : Thr) (op : AtomOp) (pa : BitVec 48) (dbl : Bool) (a b : Word) (l : BitVec 42) (poison : Bool)
    (s : State) : Word × Bool × State :=
  match op with
  | .ldres => (atomVal s pa dbl, isPoisoned s l, monTake (.slice h) t pa dbl s)
  | .stcnd => let q := stcndDo t (some (.slice h)) pa dbl a poison s; (q.1, false, q.2)
  | op => atomDo t op pa dbl a b poison s

/-- The answer to an atomic, and its line in the slice. -/
def answerAtom (h : Fin 40) (m : CMsg) (r : Word × Bool × State) : State :=
  let w := llcFill h.val m.line (isDirty r.2.2 m.line) false r.2.2
  send .dH { homeMsg w h m.src m with data := r.1.setWidth 512, poison := r.2.1 } w

theorem performHub_hatm_eq (v : BitVec 512) (t : Fin 512) (ht : (v.extractLsb' 176 9).toNat = t.val) :
    performHub h .hatm { m with data := v } s = answerAtom h { m with data := v }
      (sliceAtom h.val (.adze t) (atomOpOf (v.extractLsb' 186 3)) (v.extractLsb' 128 48) (v.getLsbD 189) (v.extractLsb' 0 64)
        (v.extractLsb' 64 64) m.line m.poison s) := by
  have hthr : (if hj : (v.extractLsb' 176 9).toNat < 512 then Thr.adze ⟨(v.extractLsb' 176 9).toNat, hj⟩ else .adze 0) = Thr.adze t := by
    rw [dif_pos (by rw [ht]; exact t.isLt)]
    congr 1
    exact Fin.ext ht
  unfold performHub
  dsimp only
  rw [hthr]
  rfl

theorem readByte_answerAtom (r : Word × Bool × State) (x : Nat) : readByte (answerAtom h m r) x = readByte r.2.2 x :=
  readByte_of_keeps (((keeps_refl [.slice, .old, .net] r.2.2).llcFill).send) x

theorem thr_answerAtom (r : Word × Bool × State) (t : Thr) : thr (answerAtom h m r) t = thr r.2.2 t := by
  have hk : Keeps [.slice, .old, .net] r.2.2 (answerAtom h m r) := ((keeps_refl _ r.2.2).llcFill).send
  unfold thr
  rw [show (answerAtom h m r).thr = r.2.2.thr from hk .thr (by decide)]

theorem answer_answerAtom (r : Word × Bool × State) :
    ((answerAtom h m r).net.getLast?).map (fun e => (e.1, e.2.dst, e.2.data.setWidth 64)) = some (CKind.dH, m.src, r.1) := by
  unfold answerAtom send
  dsimp only
  rw [List.getLast?_concat, Option.map_some, setWidth_line]
  rfl

/-- HATM at its home. -/
theorem hatm_served (hat : AtHome s m h) (hnone : dirFind s h.val m.line = none) (hp : m.poison = false) (t : Fin 512)
    (op : AtomOp) (pa : BitVec 48) (dbl : Bool) (a b : Word)
    (hidle : IdleHome (sliceAtom h.val (.adze t) op pa dbl a b m.line false (taken .hatm m s)).2.2 h) :
    exec (.hatm m t op pa dbl a b .clean) s = .next (answerAtom h { m with data := packAtom t op pa dbl a b }
      (sliceAtom h.val (.adze t) op pa dbl a b m.line false (taken .hatm m s))) := by
  obtain ⟨ha, hb, hpa, ht, hop, hd⟩ := packAtom_fields t op pa dbl a b
  have hserve : serveBare h .hatm { m with data := packAtom t op pa dbl a b } (taken .hatm m s) =
      answerAtom h { m with data := packAtom t op pa dbl a b }
      (sliceAtom h.val (.adze t) op pa dbl a b m.line false (taken .hatm m s)) := by
    have hperf := performHub_hatm_eq (s := taken .hatm m s) (m := m) (h := h) (packAtom t op pa dbl a b) t ht
    rw [ha, hb, hpa, hop, hd] at hperf
    exact hperf.trans (by rw [hp])
  rw [← hserve]
  refine bare_served (k := .hatm) hat hnone rfl rfl ⟨rfl, rfl⟩ ?_
  rw [hserve]
  exact idleHome_llcFill m.line _ false hidle

theorem readBytes_eq {a : Nat} {b : List Byte} (hu : ∀ i < b.length, readByte u (a + i) = b.getD i 0) :
    readBytes u a b.length = b := by
  refine List.ext_getElem (by simp [readBytes]) fun i h1 h2 => ?_
  simp only [readBytes, List.getElem_map, List.getElem_range]
  rw [hu i h2, List.getD_eq_getElem _ _ h2]

/-- The value stored at an address, once it is performed there. -/
theorem stored_at {pa : BitVec 48} {n : Nat} {v : Word}
    (hu : ∀ x, readByte u x = if pa.toNat ≤ x ∧ x < pa.toNat + (bytesOf n v).length then (bytesOf n v).getD (x - pa.toNat) 0
      else readByte s x) : readBytes u pa.toNat n = bytesOf n v ∧ MemKept pa.toNat n s u := by
  refine ⟨?_, fun x hx => ?_⟩
  · have h := readBytes_eq (u := u) (a := pa.toNat) (b := bytesOf n v) fun i hi => by
      rw [hu, if_pos (by omega), Nat.add_sub_cancel_left]
    rwa [length_bytesOf] at h
  · rw [hu, length_bytesOf, if_neg hx]

theorem resv_loseResv {t : Thr} (y : Thr) (hn : (thr s t).resv = none) : (thr (loseResv y s) t).resv = none := by
  have hthr (p : MonE → Bool) (v : State) : thr (keepMon p v) t = thr v t := rfl
  unfold loseResv
  rw [hthr, thr_updThr]
  split
  · rfl
  · exact hn

theorem resv_loseResvAt {t : Thr} (y : Thr) (g : BitVec 41) (hn : (thr s t).resv = none) :
    (thr (loseResvAt y g s) t).resv = none := resv_loseResv y hn

theorem resv_loseResvOn {t : Thr} (who : Option Thr) (g : BitVec 41) (hn : (thr s t).resv = none) :
    (thr (loseResvOn who g s) t).resv = none := by
  refine forEach_keeps (fun x => (thr x t).resv = none) _ _ s hn fun e _ x hx => ?_
  split
  · exact hx
  · split
    · exact hx
    · split
      · split
        · exact resv_loseResvAt _ _ hx
        · exact hx
      · exact hx

theorem resv_storeBytes {t : Thr} (who : Option Thr) (pa : BitVec 48) (b : List Byte) (hn : (thr s t).resv = none) :
    (thr (storeBytes who pa b false s) t).resv = none := by
  unfold storeBytes
  dsimp only
  rw [if_neg Bool.false_ne_true]
  have hk : Keeps [.old, .mem, .poison] s (if b.length = 64 then setPoison (lineOf pa) false (writeBytes pa.toNat b (dirtyLine (lineOf pa) s))
      else writeBytes pa.toNat b (dirtyLine (lineOf pa) s)) :=
    ((keeps_refl _ s).dirtyLine.writeBytes.setPoison).ite ((keeps_refl _ s).dirtyLine.writeBytes)
  refine resv_loseResvOn _ _ ?_
  unfold thr at hn ⊢
  rw [show _ = s.thr from hk .thr (by decide)]
  exact hn

theorem resv_loseResv_self (t : Thr) : (thr (loseResv t s) t).resv = none := by
  have hthr (p : MonE → Bool) (v : State) : thr (keepMon p v) t = thr v t := rfl
  unfold loseResv
  rw [hthr, thr_updThr, if_pos rfl]

theorem idleHome_setMon (k : Nat) (e : List MonE) (hi : IdleHome s h) : IdleHome (setMon (.slice k) e s) h := by
  unfold IdleHome setMon
  dsimp only
  rw [slice_updSlice]
  split
  case isTrue hk => rw [← hk]; exact hi
  case isFalse => exact hi

theorem idleHome_updThr (t : Thr) (f : Thread → Thread) (hi : IdleHome s h) : IdleHome (updThr t f s) h := hi

/-- LDRES at the slice takes an entry of its own in the slice's monitor. -/
theorem monTake_slice (t : Fin 512) (pa : BitVec 48) (dbl : Bool) (hi : IdleHome s h) :
    let u := monTake (.slice h.val) (.adze t) pa dbl s
    (∀ x, readByte u x = readByte s x) ∧ (∃ r, (thr u (.adze t)).resv = some r ∧ r.granule = granuleOf pa) ∧ IdleHome u h := by
  have hu : ∃ e, monTake (.slice h.val) (.adze t) pa dbl s = updThr (.adze t) (fun th => { th with resv := some ⟨granuleOf pa, dbl, pa⟩ })
      (setMon (.slice h.val) e (monDrop (.slice h.val) (.adze t) (loseResv (.adze t) s))) := ⟨_, rfl⟩
  obtain ⟨e, hu⟩ := hu
  intro u
  have hu : u = _ := hu
  rw [hu]
  refine ⟨fun x => ?_, ⟨⟨granuleOf pa, dbl, pa⟩, ?_, rfl⟩, ?_⟩
  · exact readByte_of_keeps ((((keeps_refl [.thr, .bay, .slice, .eng] s).loseResv).monDrop.setMon).updThr) x
  · rw [thr_updThr, if_pos rfl]
  · exact idleHome_updThr _ _ (idleHome_setMon _ _ (idleHome_setMon _ _ ((unreserved_loseResv _).idleHome hi)))

/-- STCND at the slice. -/
theorem stcndDo_slice (t : Fin 512) (pa : BitVec 48) (dbl : Bool) (v : Word) (hi : IdleHome s h) :
    let q := stcndDo (.adze t) (some (.slice h.val)) pa dbl v false s
    (thr q.2 (.adze t)).resv = none ∧ IdleHome q.2 h ∧
      (resvHolds s (.adze t) pa = true → q.1 = 0 ∧ ∀ x, readByte q.2 x =
        if pa.toNat ≤ x ∧ x < pa.toNat + (bytesOf (sizeOfDbl dbl) v).length then (bytesOf (sizeOfDbl dbl) v).getD (x - pa.toNat) 0
        else readByte s x) ∧
      (resvHolds s (.adze t) pa = false → q.1 = 1 ∧ ∀ x, readByte q.2 x = readByte s x) := by
  have hk : Keeps [.thr, .bay, .slice, .eng] s (monDrop (.slice h.val) (.adze t) (loseResv (.adze t) s)) :=
    ((keeps_refl _ s).loseResv).monDrop
  have hidle : IdleHome (monDrop (.slice h.val) (.adze t) (loseResv (.adze t) s)) h :=
    idleHome_setMon _ _ ((unreserved_loseResv _).idleHome hi)
  have hnone : (thr (monDrop (.slice h.val) (.adze t) (loseResv (.adze t) s)) (.adze t)).resv = none := resv_loseResv_self _
  intro q
  have hq : q = if resvHolds s (.adze t) pa then (0, storeBytes (some (.adze t)) pa (bytesOf (sizeOfDbl dbl) v) false
      (monDrop (.slice h.val) (.adze t) (loseResv (.adze t) s)))
    else (1, monDrop (.slice h.val) (.adze t) (loseResv (.adze t) s)) := rfl
  clear_value q
  have hmem (x : Nat) : readByte (monDrop (.slice h.val) (.adze t) (loseResv (.adze t) s)) x = readByte s x := readByte_of_keeps hk x
  cases hr : resvHolds s (.adze t) pa with
  | true =>
    rw [hr, if_pos rfl] at hq
    subst hq
    refine ⟨resv_storeBytes _ _ _ hnone, idleHome_storeBytes _ _ _ hidle, fun _ => ⟨rfl, fun x => ?_⟩, fun h => absurd h (by decide)⟩
    rw [readByte_storeBytes, hmem]
  | false =>
    rw [hr, if_neg Bool.false_ne_true] at hq
    subst hq
    exact ⟨hnone, hidle, fun h => absurd h (by decide), fun _ => ⟨rfl, hmem⟩⟩

theorem resvHolds_iff (t : Thr) (pa : BitVec 48) :
    resvHolds s t pa = true ↔ ∃ r, (thr s t).resv = some r ∧ r.granule = granuleOf pa := by
  unfold resvHolds
  cases (thr s t).resv with
  | none => simp
  | some r => simp

theorem natOfBytes_div (l : List Byte) (i : Nat) (hi : i < l.length) : natOfBytes l / 256 ^ i % 256 = l[i].toNat := by
  induction l generalizing i with
  | nil => simp at hi
  | cons b l ih =>
    have hb := b.isLt
    cases i with
    | zero =>
      rw [natOfBytes, Nat.pow_zero, Nat.div_one, List.getElem_cons_zero]
      omega
    | succ i =>
      have hd : (b.toNat + 256 * natOfBytes l) / 256 = natOfBytes l := by omega
      rw [natOfBytes, Nat.pow_succ', ← Nat.div_div_eq_div_mul, hd, List.getElem_cons_succ]
      exact ih i (by simpa using hi)

/-- The bytes of the word that bytes spell. -/
theorem extractLsb'_wordOf (l : List Byte) (i : Nat) (hi : i < l.length) (h8 : i < 8) :
    (wordOf l).extractLsb' (8 * i) 8 = l[i] := by
  apply BitVec.eq_of_toNat_eq
  rw [BitVec.extractLsb'_toNat, wordOf, BitVec.toNat_ofNat, Nat.shiftRight_eq_div_pow, ← natOfBytes_div l i hi]
  have hpow : (2 : Nat) ^ 64 = 2 ^ (8 * i) * 2 ^ (64 - 8 * i) := by rw [← Nat.pow_add]; congr 1; omega
  have hdvd : 256 ∣ 2 ^ (64 - 8 * i) := ⟨2 ^ (56 - 8 * i), by rw [show (256 : Nat) = 2 ^ 8 from rfl, ← Nat.pow_add]; congr 1; omega⟩
  rw [hpow, Nat.mod_mul_right_div_self, Nat.mod_mod_of_dvd _ hdvd, Nat.pow_mul]

/-- The old value of an atomic has the bytes that stand at its address. -/
theorem bytesOf_atomOld (pa : BitVec 48) (dbl : Bool) :
    bytesOf (sizeOfDbl dbl) (atomOld s pa dbl) = readBytes s pa.toNat (sizeOfDbl dbl) := by
  have hlen (k : Nat) : (readBytes s pa.toNat k).length = k := by simp [readBytes]
  refine List.ext_getElem (by simp [bytesOf, hlen]) fun i h1 h2 => ?_
  have hi : i < sizeOfDbl dbl := by rwa [hlen] at h2
  simp only [bytesOf, List.getElem_map, List.getElem_range]
  cases dbl with
  | true =>
    have h8 : i < 8 := hi
    rw [show atomOld s pa true = wordOf (readBytes s pa.toNat 8) from rfl, extractLsb'_wordOf _ i (by rw [hlen]; exact h8) h8]
    rfl
  | false =>
    have h4 : i < 4 := hi
    have hlow : (atomOld s pa false).extractLsb' (8 * i) 8 = (wordOf (readBytes s pa.toNat 4)).extractLsb' (8 * i) 8 := by
      refine BitVec.eq_of_getLsbD_eq fun j hj => ?_
      rw [show atomOld s pa false = ((wordOf (readBytes s pa.toNat 4)).setWidth 32).signExtend 64 from rfl,
        BitVec.getLsbD_extractLsb', BitVec.getLsbD_extractLsb', BitVec.getLsbD_signExtend, BitVec.getLsbD_setWidth]
      have hj32 : 8 * i + j < 32 := by omega
      have hj64 : 8 * i + j < 64 := by omega
      simp [hj32, hj64]
    rw [hlow, extractLsb'_wordOf _ i (by rw [hlen]; exact h4) (by omega)]
    rfl

/-- Settles O26: each write or atomic is performed at the slice (`performHub`), and answered. -/
theorem homeWrites : Obligations.HomeWrites := by
  unfold Obligations.HomeWrites
  intro s m h hat hnone hp
  refine ⟨hwr_served hat hnone hp, ?_⟩
  intro t pa dbl a b _ _ old n answer
  have hidle : IdleHome (taken .hatm m s) h := hat.idle
  have hmem (x : Nat) : readByte (taken .hatm m s) x = readByte s x := rfl
  refine ⟨?_, ?_, ?_, ?_⟩
  · have hexec := hatm_served hat hnone hp t .faa pa dbl a b (idleHome_storeBytes _ _ _ hidle)
    obtain ⟨hbytes, hkept⟩ := stored_at (s := s) (pa := pa) (n := n) (v := old + a) fun x =>
      (readByte_answerAtom (h := h) (m := { m with data := packAtom t .faa pa dbl a b })
          (sliceAtom h.val (.adze t) .faa pa dbl a b m.line false (taken .hatm m s)) x).trans
        (readByte_storeBytes (s := taken .hatm m s) (some (.adze t)) pa (bytesOf n (old + a)) x)
    exact ⟨_, hexec, hbytes, hkept, answer_answerAtom _⟩
  · by_cases heq : (if dbl then old = a else old.setWidth 32 = a.setWidth 32)
    · have hr : sliceAtom h.val (.adze t) .cas pa dbl a b m.line false (taken .hatm m s) =
          (old, isPoisoned (taken .hatm m s) (lineOf pa), storeBytes (some (.adze t)) pa (bytesOf n b) false (taken .hatm m s)) :=
        congrArg (fun x => (_, _, x)) (if_pos heq)
      have hexec := hatm_served hat hnone hp t .cas pa dbl a b (by rw [hr]; exact idleHome_storeBytes _ _ _ hidle)
      rw [hr] at hexec
      obtain ⟨hbytes, hkept⟩ := stored_at (s := s) (pa := pa) (n := n) (v := b) fun x =>
        (readByte_answerAtom (h := h) (m := { m with data := packAtom t .cas pa dbl a b })
          (old, isPoisoned (taken .hatm m s) (lineOf pa), storeBytes (some (.adze t)) pa (bytesOf n b) false (taken .hatm m s)) x).trans
          (readByte_storeBytes (s := taken .hatm m s) (some (.adze t)) pa (bytesOf n b) x)
      rw [if_pos heq]
      exact ⟨_, hexec, hbytes, hkept, answer_answerAtom _⟩
    · have hr : sliceAtom h.val (.adze t) .cas pa dbl a b m.line false (taken .hatm m s) =
          (old, isPoisoned (taken .hatm m s) (lineOf pa), taken .hatm m s) := congrArg (fun x => (_, _, x)) (if_neg heq)
      have hexec := hatm_served hat hnone hp t .cas pa dbl a b (by rw [hr]; exact hidle)
      rw [hr] at hexec
      have hsame (x : Nat) := (readByte_answerAtom (h := h) (m := { m with data := packAtom t .cas pa dbl a b })
        (old, isPoisoned (taken .hatm m s) (lineOf pa), taken .hatm m s) x).trans (hmem x)
      rw [if_neg heq]
      refine ⟨_, hexec, ?_, fun x _ => hsame x, answer_answerAtom _⟩
      rw [show bytesOf n old = readBytes s pa.toNat n from bytesOf_atomOld pa dbl]
      simp only [readBytes, hsame]
  · obtain ⟨hsame, hres, hidle'⟩ := monTake_slice (s := taken .hatm m s) t pa dbl hidle
    have hexec := hatm_served hat hnone hp t .ldres pa dbl a b hidle'
    refine ⟨_, hexec, fun x => (readByte_answerAtom _ x).trans (hsame x), ?_, answer_answerAtom _⟩
    rw [thr_answerAtom]
    exact hres
  · obtain ⟨hres, hidle', hyes, hno⟩ := stcndDo_slice (s := taken .hatm m s) t pa dbl a hidle
    have hexec := hatm_served hat hnone hp t .stcnd pa dbl a b hidle'
    refine ⟨_, hexec, ?_, fun hr => ?_, fun hr => ?_⟩
    · rw [thr_answerAtom]
      exact hres
    · obtain ⟨hval, hread⟩ := hyes ((resvHolds_iff _ _).mpr hr)
      obtain ⟨hbytes, hkept⟩ := stored_at (s := s) (pa := pa) (n := n) (v := a) fun x =>
        (readByte_answerAtom (h := h) (m := { m with data := packAtom t .stcnd pa dbl a b })
          (sliceAtom h.val (.adze t) .stcnd pa dbl a b m.line false (taken .hatm m s)) x).trans (hread x)
      exact ⟨hbytes, hkept, (answer_answerAtom _).trans (congrArg (fun x => some (_, _, x)) hval)⟩
    · obtain ⟨hval, hread⟩ := hno (by rw [← Bool.not_eq_true, resvHolds_iff]; exact hr)
      exact ⟨fun x => (readByte_answerAtom _ x).trans (hread x), (answer_answerAtom _).trans (congrArg (fun x => some (_, _, x)) hval)⟩

end Sys2Proof.Machine
end

section
/-! Requests at the home of a line that no bay holds, that bays share, or that a bay owns (R191, R204, R222 to R227). -/
namespace Sys2Proof.Machine
set_option Elab.async false
variable {s u : State} {m : CMsg} {h b : Fin 40} {key : Nat}

/-! ## A line that no bay holds -/

/-- The home's data, as it leaves the home. -/
theorem homeData_spec (excl : Bool) (acks : BitVec 40) :
    let u := homeData h m excl acks s
    u.net = s.net ++ [(.dH, fromHome s h m excl acks (lineData s m.line) (homePoison s m.line))] ∧
      (∀ k, dirAt u h.val k = dirAt s h.val k) ∧ (slice u h.val).dir = (slice s h.val).dir ∧ (IdleHome s h → IdleHome u h) ∧
      Keeps [.net, .slice, .old] s u := by
  intro u
  have hu : u = send .dH (fromHome s h m excl acks (lineData s m.line) (homePoison s m.line)) (llcFill h.val m.line false m.nt s) :=
    homeData_eq excl acks
  have hk : Keeps [.slice, .old] s (llcFill h.val m.line false m.nt s) := (keeps_refl _ s).llcFill
  obtain ⟨t, ht, -, -⟩ := slice_llcFill (s := s) h.val m.line false m.nt
  have hslice : slice u h.val = { slice s h.val with llc := t } := by
    rw [hu]
    exact (ht h.val).trans (if_pos rfl)
  refine ⟨?_, fun k => ?_, ?_, fun hi => ?_, ?_⟩
  · rw [hu]
    exact congrArg (· ++ _) (hk .net (by decide))
  · rw [dirAt, hslice]
    rfl
  · rw [hslice]
  · unfold IdleHome
    rw [hslice]
    exact hi
  · rw [hu]
    exact ((keeps_refl _ s).llcFill).send

theorem dirFind_none_iff {x : Nat} {l : BitVec 42} : dirFind s x l = none ↔
    ∀ k ∈ wayKeys (llcSet l) 16, ¬ ((dirAt s x k).st ≠ .I ∧ (dirAt s x k).line = l) := by
  unfold dirFind
  rw [List.find?_eq_none]
  simp

section
variable (hat : AtHome s m h) (hnone : dirFind s h.val m.line = none)
include hat hnone

/-- RD_S takes a free way and sends the data shared. -/
theorem rdS_bare {w : Nat} (hw : (wayKeys (llcSet m.line) 16).find? (fun k => (dirAt s h.val k).st = .I) = some w)
    (hev : ∀ k ∈ wayKeys (llcSet m.line) 16, evicting (dirAt s h.val k) = false) :
    ∃ u, exec (.rdS m .clean) s = .next u ∧
      u.net = netWithout .rdS m s ++ [(.dH, fromHome s h m false 0 (lineData s m.line) (homePoison s m.line))] ∧
      dirAt u h.val w = { DirE.reset with line := m.line, st := .BS, owner := BitVec.ofNat 6 (bayNum m.src)
                                          req := some (.rdS, m), since := s.time.now } ∧
      Keeps [.net, .slice, .old] s u := by
  have hidle : IdleHome s h := hat.idle
  let v := updDir h.val w (fun e => { e with
    st := .BS, owner := BitVec.ofNat 6 (bayNum m.src), req := some (.rdS, m), fromX := false, sharers := 0, awaits := 0, fwd := 0
    gone := 0, since := s.time.now }) (takeWay h.val w m.line (taken .rdS m s))
  have hway : dirAt (takeWay h.val w m.line (taken .rdS m s)) h.val w = { DirE.reset with line := m.line, since := s.time.now } := by
    unfold takeWay
    rw [dirAt_updDir, if_pos rfl, show (slice (taken .rdS m s) h.val).rsv = [] from hidle.2]
    rfl
  have hserve : serve h .rdS m (taken .rdS m s) = homeData h m false 0 v := by
    have hfind : (wayKeys (llcSet m.line) 16).find? (fun k => (dirAt (taken .rdS m s) h.val k).st = .I) = some w := hw
    have hno : dirFind (taken .rdS m s) h.val m.line = none := hnone
    unfold serve
    rw [hno]
    dsimp only
    rw [if_neg (by decide), hfind]
    dsimp only
    unfold beginTx
    dsimp only
    rw [hway]
    rfl
  have hcan : CanTake s h .rdS m.line := by
    obtain ⟨-, -, -, hroom, -, -, -⟩ := hat
    have hne : (wayKeys (llcSet m.line) 16).any (fun k => evicting (dirAt s h.val k)) = false := by
      rw [List.any_eq_false]
      exact fun k hk => by rw [hev k hk]; decide
    have hfree : (wayKeys (llcSet m.line) 16).any (fun k => decide ((dirAt s h.val k).st = .I)) = true := by
      rw [List.any_eq_true]
      exact ⟨w, List.mem_of_find?_eq_some hw, by simpa using List.find?_some hw⟩
    unfold CanTake canServe
    rw [hnone]
    dsimp only
    rw [hne, hfree]
    simpa [needsEntry] using hroom
  have hv : Keeps [.net, .slice] s v := ((keeps_mono (by decide) (keeps_taken .rdS m)).updDir).updDir
  have hvat : dirAt v h.val w = { DirE.reset with line := m.line, st := .BS, owner := BitVec.ofNat 6 (bayNum m.src)
                                                  req := some (.rdS, m), since := s.time.now } := by
    rw [dirAt_updDir, if_pos rfl, hway]
    rfl
  have hvidle : IdleHome v h := idleHome_updDir _ _ (idleHome_updDir _ _ hidle)
  have hvdata : fromHome v h m false 0 (lineData v m.line) (homePoison v m.line) =
      fromHome s h m false 0 (lineData s m.line) (homePoison s m.line) := by
    have hp : homePoison v m.line = homePoison s m.line := by
      refine homePoison_congr (hv .part (by decide)) (hv .poison (by decide)) fun y => ?_
      have hy : (slice v y).llc = (slice s y).llc := by
        simp only [v, takeWay, slice_updDir]
        split
        · subst y
          rfl
        · rfl
      rw [hy]
    rw [hp, lineData_congr (hv .mem (by decide)), fromHome_congr (hv .srcs (by decide))]
  obtain ⟨hnet, hdir, -, hidle', hkeep⟩ := homeData_spec (s := v) (h := h) (m := m) false 0
  have hexec := request_served (k := .rdS) (c := .rdS m .clean) hat rfl ⟨rfl, rfl⟩ hcan (by rw [hserve]; exact hidle' hvidle)
  rw [hserve] at hexec
  refine ⟨_, hexec, ?_, ?_, ?_⟩
  · rw [hnet, hvdata]
    rfl
  · rw [hdir, hvat]
  · exact keeps_trans (keeps_mono (by decide) hv) hkeep

/-- PEEK sends the data and changes no entry. -/
theorem peek_bare : ∃ u, exec (.peek m .clean) s = .next u ∧
    u.net = netWithout .peek m s ++ [(.dP, fromHome s h m false 0 (lineData s m.line) (homePoison s m.line))] ∧ Keeps [.net] s u := by
  obtain ⟨harr, hdst, -, -, -, -, hserved⟩ := hat
  have hpeek : peekAt m .clean (taken .peek m s) =
      send .dP (fromHome s h m false 0 (lineData s m.line) (homePoison s m.line)) (taken .peek m s) := by
    have hno : dirFind (taken .peek m s) h.val m.line = none := hnone
    have hl : lineServed (taken .peek m s) m.line = true := hserved
    unfold peekAt
    rw [hdst]
    dsimp only
    rw [hno, hl, if_neg (by simp)]
    rfl
  refine ⟨_, (deliver_arrives _ harr).trans (congrArg _ hpeek), rfl, ?_⟩
  exact (keeps_taken .peek m).send

/-- HRD sends the data and changes no entry. -/
theorem hrd_bare : ∃ u, exec (.hrd m .clean) s = .next u ∧
    u.net = netWithout .hrd m s ++ [(.dH, fromHome s h m false 0 (lineData s m.line) (homePoison s m.line))] ∧
    (slice u h.val).dir = (slice s h.val).dir ∧ Keeps [.net, .slice, .old] s u := by
  obtain ⟨hnet, -, hdir, hidle, hkeep⟩ := homeData_spec (s := taken .hrd m s) (h := h) (m := m) false 0
  have hexec := bare_served (k := .hrd) (c := .hrd m .clean) (m' := m) hat hnone rfl rfl ⟨rfl, rfl⟩ (hidle hat.idle)
  exact ⟨_, hexec, hnet, hdir, keeps_trans (keeps_mono (by decide) (keeps_taken .hrd m)) hkeep⟩

omit hat hnone in
/-- A grant for a line without an entry, whose DONE is owed. -/
theorem grant_owed {v : State} (hv : Keeps [.net, .slice, .old, .mem, .poison] s v) :
    let u := grant h m 0 (updSlice h.val (fun y => { y with dones := y.dones ++ [(m.src, m.line)] }) v)
    u.net = v.net ++ [(.grant, fromHome s h m false 0 0 false)] ∧ isDirty u m.line = isDirty v m.line ∧
      (IdleHome v h → IdleHome u h) ∧ Keeps [.net, .slice] v u := by
  intro u
  have hu : u = send .grant (fromHome s h m false 0 0 false)
      (updSlice h.val (fun y => { y with dones := y.dones ++ [(m.src, m.line)] }) v) :=
    (grant_eq 0).trans (congrArg (send .grant · _) (fromHome_congr (hv .srcs (by decide)) _ _ _ _))
  rw [hu]
  refine ⟨rfl, rfl, fun hi => ?_, ((keeps_refl _ v).updSlice).send⟩
  have hs := slice_updSlice v h.val (fun y => { y with dones := y.dones ++ [(m.src, m.line)] }) h.val
  rw [if_pos rfl] at hs
  exact ⟨(congrArg Slice.wbBuf hs).trans hi.1, (congrArg Slice.rsv hs).trans hi.2⟩

omit hat hnone in
theorem idleHome_llc {f : Slice → Tbl CLine} (hi : IdleHome s h) :
    IdleHome (updSlice h.val (fun x => { x with llc := f x }) s) h := by
  have hs := slice_updSlice s h.val (fun x => { x with llc := f x }) h.val
  rw [if_pos rfl] at hs
  exact ⟨(congrArg Slice.wbBuf hs).trans hi.1, (congrArg Slice.rsv hs).trans hi.2⟩

/-- A maintenance request of a line without an entry: granted at once. -/
theorem maintenance_bare {k : ReqKind} {kind : CKind} {c : Instr} {v : State} (hk : needsEntry k = false)
    (hexec : exec c s = deliver kind m (withFind m .clean (requestAt k m)) s)
    (hserve : serveBare h k m (taken kind m s) =
      grant h m 0 (updSlice h.val (fun y => { y with dones := y.dones ++ [(m.src, m.line)] }) v))
    (hv : Keeps [.slice, .old, .mem, .poison] (taken kind m s) v) (hidle : IdleHome v h) :
    let u := serveBare h k m (taken kind m s)
    exec c s = .next u ∧ u.net = netWithout kind m s ++ [(.grant, fromHome s h m false 0 0 false)] ∧
      isDirty u m.line = isDirty v m.line ∧ Keeps [.net, .slice] v u := by
  obtain ⟨hnet, hd, hi, hkeep⟩ := grant_owed (s := s) (h := h) (m := m) (v := v)
    (keeps_trans (keeps_mono (by decide) (keeps_taken kind m)) (keeps_mono (by decide) hv))
  have hrun := bare_served (k := k) (c := c) (m' := m) hat hnone hk hexec ⟨rfl, rfl⟩ (by rw [hserve]; exact hi hidle)
  intro u
  have hu : u = grant h m 0 (updSlice h.val (fun y => { y with dones := y.dones ++ [(m.src, m.line)] }) v) := hserve
  refine ⟨hrun, ?_, ?_, ?_⟩
  · rw [hu, hnet, hv .net (by decide)]
    rfl
  · rw [hu, hd]
  · rw [hu]
    exact hkeep

omit hat hnone in
theorem isDirty_cleanLine (l : BitVec 42) : isDirty (cleanLine l s) l = false := by simp [isDirty, cleanLine]

theorem cln_bare : ∃ u, exec (.cln m .clean) s = .next u ∧
    u.net = netWithout .cln m s ++ [(.grant, fromHome s h m false 0 0 false)] ∧ isDirty u m.line = false ∧
    Keeps [.net, .slice, .old] s u := by
  have hv : Keeps [.slice, .old] (taken .cln m s) (llcClean h.val m.line (cleanLine m.line (taken .cln m s))) :=
    ((keeps_refl _ _).cleanLine).llcClean
  obtain ⟨hexec, hnet, hd, hkeep⟩ := maintenance_bare (k := .cln) (kind := .cln) (c := .cln m .clean)
    (v := llcClean h.val m.line (cleanLine m.line (taken .cln m s))) hat hnone rfl rfl rfl (keeps_mono (by decide) hv)
    (idleHome_llc (s := cleanLine m.line (taken .cln m s)) hat.idle)
  exact ⟨_, hexec, hnet, hd.trans (isDirty_cleanLine _),
    keeps_trans (keeps_trans (keeps_mono (by decide) (keeps_taken .cln m)) (keeps_mono (by decide) hv)) (keeps_mono (by decide) hkeep)⟩

theorem fls_bare : ∃ u, exec (.flsRequest m .clean) s = .next u ∧
    u.net = netWithout .fls m s ++ [(.grant, fromHome s h m false 0 0 false)] ∧ isDirty u m.line = false ∧
    Keeps [.net, .slice, .old] s u := by
  have hv : Keeps [.slice, .old] (taken .fls m s) (llcDrop h.val m.line (cleanLine m.line (taken .fls m s))) :=
    ((keeps_refl _ _).cleanLine).llcDrop
  obtain ⟨hexec, hnet, hd, hkeep⟩ := maintenance_bare (k := .fls) (kind := .fls) (c := .flsRequest m .clean)
    (v := llcDrop h.val m.line (cleanLine m.line (taken .fls m s))) hat hnone rfl rfl rfl (keeps_mono (by decide) hv)
    (idleHome_llc (s := cleanLine m.line (taken .fls m s)) hat.idle)
  exact ⟨_, hexec, hnet, hd.trans (isDirty_cleanLine _),
    keeps_trans (keeps_trans (keeps_mono (by decide) (keeps_taken .fls m)) (keeps_mono (by decide) hv)) (keeps_mono (by decide) hkeep)⟩

omit hat hnone in
/-- Discarding a line changes no byte of another. -/
theorem memKept_discardLine (l : BitVec 42) : MemKept (l.toNat * 64) 64 s (discardLine l s) := by
  intro x hx
  unfold discardLine
  split
  · rfl
  case h_2 v p _ =>
    have hw : readByte (writeLineData l v s) x = readByte s x := by
      rw [writeLineData, readByte_writeBytes, length_bytesOfNat, if_neg hx]
    exact hw

/-- INV: the line is what DRAM held. -/
theorem inv_bare : ∃ u, exec (.inv m .clean) s = .next u ∧
    u.net = netWithout .inv m s ++ [(.grant, fromHome s h m false 0 0 false)] ∧ isDirty u m.line = false ∧
    (∀ v p, look none s.old m.line.toNat = some (v, p) → lineData u m.line = v ∧ isPoisoned u m.line = p) ∧
    MemKept (m.line.toNat * 64) 64 s u ∧ Keeps [.net, .slice, .old, .mem, .poison] s u := by
  have hd : Keeps [.old, .mem, .poison] (taken .inv m s) (discardLine m.line (taken .inv m s)) := (keeps_refl _ _).discardLine
  have hdrop : Keeps [.slice] (discardLine m.line (taken .inv m s)) (llcDrop h.val m.line (discardLine m.line (taken .inv m s))) :=
    (keeps_refl _ _).llcDrop
  have hv : Keeps [.slice, .old, .mem, .poison] (taken .inv m s) (llcDrop h.val m.line (discardLine m.line (taken .inv m s))) :=
    keeps_trans (keeps_mono (by decide) hd) (keeps_mono (by decide) hdrop)
  obtain ⟨hexec, hnet, hdirty, hkeep⟩ := maintenance_bare (k := .inv) (kind := .inv) (c := .inv m .clean)
    (v := llcDrop h.val m.line (discardLine m.line (taken .inv m s))) hat hnone rfl rfl rfl hv
    (idleHome_llc (s := discardLine m.line (taken .inv m s)) (idleHome_of_keeps hd hat.idle))
  obtain ⟨hclean, hback⟩ := discardLine_spec (s := taken .inv m s) m.line
  have hall : Keeps [.net, .slice] (discardLine m.line (taken .inv m s)) _ := keeps_trans (keeps_mono (by decide) hdrop) hkeep
  refine ⟨_, hexec, hnet, hdirty.trans hclean, fun v p ho => ?_, fun x hx => ?_, ?_⟩
  · obtain ⟨hl, hp⟩ := hback v p ho
    refine ⟨(lineData_congr (hall .mem (by decide)) _).trans hl, ?_⟩
    unfold isPoisoned at hp ⊢
    rw [show _ = (discardLine m.line (taken .inv m s)).poison from hall .poison (by decide)]
    exact hp
  · exact (readByte_of_keeps hall x).trans (memKept_discardLine (s := taken .inv m s) m.line x hx)
  · exact keeps_trans (keeps_trans (keeps_mono (by decide) (keeps_taken .inv m)) (keeps_mono (by decide) hv)) (keeps_mono (by decide) hkeep)

end

/-! ## A line with an entry -/

/-- The forwards of a home to the bays of a map. -/
def forwardsTo (s : State) (h : Fin 40) (k : CKind) (coll : Agent) (m : CMsg) (l : List (Fin 40)) : List (CKind × CMsg) :=
  l.map (fun b => (k, { homeMsg s h (.bay b) m with coll := coll }))

def forwardsOf (s : State) (h : Fin 40) (k : CKind) (bays : BitVec 40) (coll : Agent) (m : CMsg) : List (CKind × CMsg) :=
  forwardsTo s h k coll m ((List.finRange 40).filter (fun b => bays.getLsbD b.val))

theorem forwardAll_eq (k : CKind) (bays : BitVec 40) (coll : Agent) :
    forwardAll h k bays coll m s = { s with net := s.net ++ forwardsOf s h k bays coll m } := by
  have hall (l : List (Fin 40)) (n : List (CKind × CMsg)) :
      forEach l (fun b acc => if bays.getLsbD b.val then send k { homeMsg acc h (.bay b) m with coll := coll } acc else acc)
        { s with net := n } = { s with net := n ++ forwardsTo s h k coll m (l.filter (fun b => bays.getLsbD b.val)) } := by
    induction l generalizing n with
    | nil => simp [forwardsTo]
    | cons b l ih =>
      rw [forEach_cons]
      by_cases hb : bays.getLsbD b.val = true
      · rw [if_pos hb, List.filter_cons_of_pos (p := fun b : Fin 40 => bays.getLsbD b.val) hb]
        refine (ih _).trans ?_
        rw [List.append_assoc]
        rfl
      · rw [if_neg hb, List.filter_cons_of_neg (p := fun b : Fin 40 => bays.getLsbD b.val) hb]
        exact ih n
  exact hall _ s.net

/-- The one forward to a bay. -/
theorem forwardsOf_one (k : CKind) (o : Fin 40) (coll : Agent) :
    forwardsOf s h k (BitVec.twoPow 40 o.val) coll m = [(k, { homeMsg s h (.bay o) m with coll := coll })] := by
  have hone : (List.finRange 40).filter (fun b => (BitVec.twoPow 40 o.val).getLsbD b.val) = [o] := by
    have hp : (fun b : Fin 40 => (BitVec.twoPow 40 o.val).getLsbD b.val) = fun b => decide (b = o) := by
      funext b
      rw [BitVec.getLsbD_twoPow]
      by_cases hb : b = o
      · subst hb
        simp
      · have : o.val ≠ b.val := fun e => hb (Fin.ext e.symm)
        simp [hb, this]
    rw [hp]
    simp [List.filter_eq, List.count_eq_one_of_mem (List.nodup_finRange 40) (List.mem_finRange o)]
  rw [forwardsOf, hone]
  rfl

theorem mem_forwardsOf {k : CKind} {bays : BitVec 40} {coll : Agent} {x : Fin 40} (hx : bays.getLsbD x.val = true) :
    (k, { homeMsg s h (.bay x) m with coll := coll }) ∈ forwardsOf s h k bays coll m :=
  List.mem_map_of_mem (List.mem_filter.mpr ⟨List.mem_finRange x, hx⟩)

/-- A granule's reservations cleared at its homes, and the entry changed. -/
theorem cleared_spec (l : BitVec 42) (f : DirE → DirE) :
    let v := updDir h.val key f (clearHomeMon h.val l s)
    dirAt v h.val key = f (dirAt s h.val key) ∧ (∀ t, (thr v t).calm = (thr s t).calm) ∧ (IdleHome s h → IdleHome v h) ∧
      Keeps [.thr, .bay, .slice, .eng] s v ∧ homePoison v l = homePoison s l := by
  intro v
  have hu : Unreserved s (clearHomeMon h.val l s) := unreserved_clearHomeMon h.val l
  have hk : Keeps [.thr, .bay, .slice, .eng] s v := (hu.keeps).updDir
  refine ⟨?_, hu.thr, fun hi => idleHome_updDir _ _ (hu.idleHome hi), hk, ?_⟩
  · rw [dirAt_updDir, if_pos rfl, dirAt, (hu.slice_eq h.val).1]
    rfl
  · refine homePoison_congr (hk .part (by decide)) (hk .poison (by decide)) fun y => ?_
    have hy : (slice v y).llc = (slice s y).llc := by
      rw [slice_updDir]
      split
      · subst y
        exact (hu.slice_eq h.val).2.1
      · exact (hu.slice_eq y).2.1
    rw [hy]

/-- An entry that a request makes busy. -/
def busyWith (k : ReqKind) (m : CMsg) (b : Nat) (st : DirSt) (fromX : Bool) (sharers awaits fwd : BitVec 40) (now : Word) (e : DirE) :
    DirE :=
  { e with st := st, owner := BitVec.ofNat 6 b, req := some (k, m), fromX := fromX, sharers := sharers, awaits := awaits
           fwd := fwd, gone := 0, since := now }

/-- A request for exclusive use of a shared line: its entry busy, and the other sharers told. -/
def excludes (h : Fin 40) (key : Nat) (k : ReqKind) (m : CMsg) (b : Nat) (others : BitVec 40) (s : State) : State :=
  forwardAll h .fInv others m.src m (updDir h.val key (busyWith k m b .BX false 0 0 0 s.time.now) (clearHomeMon h.val m.line s))

section
variable (hsrc : m.src = .bay b) (hst : (dirAt s h.val key).st = .S)
include hsrc hst

theorem beginTx_shared {k : ReqKind} (hk : k = .rdX ∨ k = .rdZ ∨ k = .upg ∧ (dirAt s h.val key).sharers.getLsbD b.val = true) :
    let others := (dirAt s h.val key).sharers &&& ~~~(BitVec.twoPow 40 b.val)
    beginTx h key k m s = if k = .rdX then homeData h m true others (excludes h key k m b.val others s)
      else grant h m others (excludes h key k m b.val others s) := by
  have hnum : bayNum m.src = b.val := by rw [hsrc]; rfl
  have hX : ¬ (dirAt s h.val key).st = .X := by rw [hst]; decide
  have hnow : (clearHomeMon h.val m.line s).time = s.time := (unreserved_clearHomeMon h.val m.line).keeps .time (by decide)
  rw [← bayBit_eq]
  intro others
  unfold beginTx excludes busyWith
  dsimp only
  rw [hnum, hnow]
  rcases hk with rfl | rfl | ⟨rfl, hb⟩
  · dsimp only
    rw [if_neg hX, if_pos rfl, decide_eq_false hX, if_pos rfl]
  · dsimp only
    rw [if_neg hX, decide_eq_false hX, if_neg Bool.false_ne_true, if_neg (by decide)]
  · dsimp only
    rw [if_neg hX, decide_eq_false hX, hb, if_neg (by decide), if_neg (by decide)]

end

/-- What a request for exclusive use leaves at its entry. -/
def Busy (s u : State) (m : CMsg) (h : Fin 40) (key b : Nat) (k : ReqKind) : Prop :=
  (dirAt u h.val key).st = .BX ∧ (dirAt u h.val key).req = some (k, m) ∧ (dirAt u h.val key).owner = BitVec.ofNat 6 b ∧
    (∀ t, (thr u t).calm = (thr s t).calm) ∧ Keeps [.thr, .net, .slice, .old, .bay, .eng] s u

/-- The sharers are told, and the request's answer leaves with it. -/
theorem excludes_spec (k : ReqKind) (others : BitVec 40) :
    let v := excludes h key k m b.val others s
    v.net = s.net ++ forwardsOf s h .fInv others m.src m ∧ (IdleHome s h → IdleHome v h) ∧ Busy s v m h key b.val k ∧
      homePoison v m.line = homePoison s m.line ∧ lineData v m.line = lineData s m.line ∧ v.srcs = s.srcs := by
  intro v
  obtain ⟨hat, hthr, hidle, hkeep, hpoison⟩ := cleared_spec (s := s) (h := h) (key := key) m.line
    (busyWith k m b.val .BX false 0 0 0 s.time.now)
  have hv : v = _ := forwardAll_eq (h := h) (m := m) (s := updDir h.val key (busyWith k m b.val .BX false 0 0 0 s.time.now)
    (clearHomeMon h.val m.line s)) .fInv others m.src
  generalize updDir h.val key (busyWith k m b.val .BX false 0 0 0 s.time.now) (clearHomeMon h.val m.line s) = w at *
  have hfwd : forwardsOf w h .fInv others m.src m = forwardsOf s h .fInv others m.src m := by
    unfold forwardsOf forwardsTo homeMsg mkMsg srcEnt
    rw [show w.srcs = s.srcs from hkeep .srcs (by decide)]
    rfl
  rw [hfwd, show w.net = s.net from hkeep .net (by decide)] at hv
  rw [hv]
  have hnet : Keeps [.net] w { w with net := s.net ++ forwardsOf s h .fInv others m.src m } := (keeps_refl _ w).frame
  refine ⟨rfl, hidle, ⟨?_, ?_, ?_, hthr, keeps_trans (keeps_mono (by decide) hkeep) (keeps_mono (by decide) hnet)⟩, hpoison,
    lineData_congr (hkeep .mem (by decide)) _, hkeep .srcs (by decide)⟩
  · exact congrArg DirE.st hat
  · exact congrArg DirE.req hat
  · exact congrArg DirE.owner hat

/-- Every bay of the map is sent F_INV with the requester as its collector. -/
def Invited (u : State) (others : BitVec 40) (b : Fin 40) (l : BitVec 42) : Prop :=
  ∀ x : Fin 40, others.getLsbD x.val = true → ∃ f, (CKind.fInv, f) ∈ u.net ∧ f.dst = .bay x ∧ f.coll = .bay b ∧ f.line = l

theorem invited_of_net {others : BitVec 40} {tail : List (CKind × CMsg)} {n : List (CKind × CMsg)} (hsrc : m.src = .bay b)
    (hnet : u.net = n ++ forwardsOf s h .fInv others m.src m ++ tail) : Invited u others b m.line := by
  intro x hx
  refine ⟨{ homeMsg s h (.bay x) m with coll := m.src }, ?_, rfl, hsrc, rfl⟩
  rw [hnet]
  exact List.mem_append_left _ (List.mem_append_right _ (mem_forwardsOf hx))

section
variable (hat : AtHome s m h) (hsrc : m.src = .bay b) (hkey : dirFind s h.val m.line = some key)
  (hst : (dirAt s h.val key).st = .S)
include hat hsrc hkey hst

/-- RD_X of a shared line: the data goes with the number of acknowledgements to come. -/
theorem rdX_shared :
    let others := (dirAt s h.val key).sharers &&& ~~~(BitVec.twoPow 40 b.val)
    ∃ u, exec (.rdX m .clean) s = .next u ∧ Invited u others b m.line ∧ Busy s u m h key b.val .rdX ∧
      (CKind.dH, fromHome s h m true others (lineData s m.line) (homePoison s m.line)) ∈ u.net := by
  intro others
  obtain ⟨hvnet, hvidle, ⟨hbst, hbreq, hbown, hbthr, hbkeep⟩, hvpoison, hvdata, hvsrcs⟩ :=
    excludes_spec (s := taken .rdX m s) (m := m) (h := h) (b := b) (key := key) .rdX others
  have hserve : serve h .rdX m (taken .rdX m s) = homeData h m true others (excludes h key .rdX m b.val others (taken .rdX m s)) := by
    rw [serve_entry (s := taken .rdX m s) hkey]
    exact (beginTx_shared (s := taken .rdX m s) hsrc hst (.inl rfl)).trans (if_pos rfl)
  generalize excludes h key .rdX m b.val others (taken .rdX m s) = v at *
  obtain ⟨hnet, hdir, -, hidle, hkeep⟩ := homeData_spec (s := v) (h := h) (m := m) true others
  have hexec := request_served (k := .rdX) (c := .rdX m .clean) (m' := m) hat rfl ⟨rfl, rfl⟩
    (hat.canTake_entry hkey (by rw [hst]; rfl) _) (by rw [hserve]; exact hidle (hvidle hat.idle))
  rw [hserve] at hexec
  rw [fromHome_congr hvsrcs, hvdata, hvpoison] at hnet
  refine ⟨_, hexec, invited_of_net hsrc (hnet.trans (congrArg (· ++ _) hvnet)), ⟨?_, ?_, ?_, fun t => ?_, ?_⟩, ?_⟩
  · rw [hdir, hbst]
  · rw [hdir, hbreq]
  · rw [hdir, hbown]
  · refine Eq.trans ?_ (hbthr t)
    exact congrArg (fun x => (look Thread.reset x (thrKey t)).calm) (hkeep .thr (by decide))
  · exact keeps_trans (keeps_trans (keeps_mono (by decide) (keeps_taken .rdX m)) hbkeep) (keeps_mono (by decide) hkeep)
  · rw [hnet]
    exact List.mem_append_right _ (List.mem_singleton.mpr rfl)

/-- UPG of a sharer, and RD_Z, of a shared line: granted with the number of acknowledgements to come. -/
theorem granted_shared {k : ReqKind} {kind : CKind} {c : Instr}
    (hk : k = .rdZ ∨ k = .upg ∧ (dirAt s h.val key).sharers.getLsbD b.val = true)
    (hexec : exec c s = deliver kind m (withFind m .clean (requestAt k m)) s) :
    let others := (dirAt s h.val key).sharers &&& ~~~(BitVec.twoPow 40 b.val)
    ∃ u, exec c s = .next u ∧ Invited u others b m.line ∧ Busy s u m h key b.val k ∧
      (CKind.grant, fromHome s h m false others 0 false) ∈ u.net := by
  intro others
  obtain ⟨hvnet, hvidle, ⟨hbst, hbreq, hbown, hbthr, hbkeep⟩, -, -, hvsrcs⟩ :=
    excludes_spec (s := taken kind m s) (m := m) (h := h) (b := b) (key := key) k others
  have hserve : serve h k m (taken kind m s) = grant h m others (excludes h key k m b.val others (taken kind m s)) := by
    rw [serve_entry (s := taken kind m s) hkey]
    refine (beginTx_shared (s := taken kind m s) hsrc hst (.inr hk)).trans (if_neg ?_)
    rcases hk with rfl | ⟨rfl, -⟩
    · decide
    · decide
  generalize excludes h key k m b.val others (taken kind m s) = v at *
  rw [grant_eq, fromHome_congr hvsrcs] at hserve
  have hrun := request_served (k := k) (c := c) (m' := m) hat hexec ⟨rfl, rfl⟩
    (hat.canTake_entry hkey (by rw [hst]; rfl) _) (by rw [hserve]; exact hvidle hat.idle)
  rw [hserve] at hrun
  have hnet : (send .grant (fromHome (taken kind m s) h m false others 0 false) v).net =
      (taken kind m s).net ++ forwardsOf (taken kind m s) h .fInv others m.src m ++ [(.grant, fromHome s h m false others 0 false)] :=
    congrArg (· ++ _) hvnet
  refine ⟨_, hrun, invited_of_net hsrc hnet, ⟨hbst, hbreq, hbown, hbthr, ?_⟩, ?_⟩
  · exact (keeps_trans (keeps_mono (by decide) (keeps_taken kind m)) hbkeep).send
  · rw [hnet]
    exact List.mem_append_right _ (List.mem_singleton.mpr rfl)

end

section
variable {o : Fin 40} (hat : AtHome s m h) (hsrc : m.src = .bay b) (hkey : dirFind s h.val m.line = some key)
  (hst : (dirAt s h.val key).st = .X) (hown : (dirAt s h.val key).owner = BitVec.ofNat 6 o.val)
include hat hsrc hkey hst hown

/-- RD_S of a line that a bay owns goes to its owner. -/
theorem rdS_owned : ∃ u, exec (.rdS m .clean) s = .next u ∧ (dirAt u h.val key).st = .BS ∧ Keeps [.net, .slice] s u ∧
    ∃ f, u.net = netWithout .rdS m s ++ [(.fS, f)] ∧ f.dst = .bay o ∧ f.coll = .bay b ∧ f.line = m.line := by
  have ho : (BitVec.ofNat 6 o.val).toNat = o.val := by simp; omega
  let own := BitVec.twoPow 40 o.val
  let v := updDir h.val key (busyWith .rdS m b.val .BS true own 0 own s.time.now) (taken .rdS m s)
  let w := updSlice h.val (fun y => { y with late := (o.val, m.line) :: y.late.filter (fun e => e ≠ (o.val, m.line)) }) v
  have hserve : serve h .rdS m (taken .rdS m s) =
      { w with net := netWithout .rdS m s ++ [(.fS, { homeMsg w h (.bay o) m with coll := m.src })] } := by
    rw [serve_entry (s := taken .rdS m s) hkey]
    have hd : dirAt (taken .rdS m s) h.val key = dirAt s h.val key := rfl
    have hbegin : beginTx h key .rdS m (taken .rdS m s) = forwardAll h .fS own m.src m w := by
      have hnum : bayNum m.src = b.val := by rw [hsrc]; rfl
      unfold beginTx
      dsimp only
      rw [hd, hst, hown, ho, bayBit_eq, hnum, if_pos rfl, decide_eq_true rfl]
      rfl
    rw [hbegin, forwardAll_eq, forwardsOf_one]
    rfl
  have hidle : IdleHome (serve h .rdS m (taken .rdS m s)) h := by
    have hv : IdleHome v h := idleHome_updDir _ _ hat.idle
    have hs := slice_updSlice v h.val (fun y => { y with late := (o.val, m.line) :: y.late.filter (fun e => e ≠ (o.val, m.line)) }) h.val
    rw [if_pos rfl] at hs
    rw [hserve]
    exact ⟨(congrArg Slice.wbBuf hs).trans hv.1, (congrArg Slice.rsv hs).trans hv.2⟩
  have hexec := request_served (k := .rdS) (c := .rdS m .clean) (m' := m) hat rfl ⟨rfl, rfl⟩
    (hat.canTake_entry hkey (by rw [hst]; rfl) _) hidle
  rw [hserve] at hexec
  have hw : Keeps [.net, .slice] s w := ((keeps_mono (by decide) (keeps_taken .rdS m)).updDir).updSlice
  refine ⟨_, hexec, ?_, keeps_trans hw ?_, _, rfl, rfl, hsrc, rfl⟩
  · have hdir : dirAt w h.val key = dirAt v h.val key := by simp [w, dirAt]
    have hat : dirAt v h.val key = busyWith .rdS m b.val .BS true own 0 own s.time.now (dirAt s h.val key) :=
      (dirAt_updDir (s := taken .rdS m s) h.val key _ key).trans (if_pos rfl)
    exact congrArg DirE.st (hdir.trans hat)
  · exact (keeps_refl [.net, .slice] w).frame

/-- RD_X of a line that a bay owns goes to its owner. -/
theorem rdX_owned : ∃ u, exec (.rdX m .clean) s = .next u ∧ Busy s u m h key b.val .rdX ∧
    ∃ f, u.net = netWithout .rdX m s ++ [(.fX, f)] ∧ f.dst = .bay o ∧ f.coll = .bay b ∧ f.line = m.line := by
  have ho : (BitVec.ofNat 6 o.val).toNat = o.val := by simp; omega
  let own := BitVec.twoPow 40 o.val
  obtain ⟨hbat, hthr, hvidle, hkeep, -⟩ := cleared_spec (s := taken .rdX m s) (h := h) (key := key) m.line
    (busyWith .rdX m b.val .BX true 0 0 own s.time.now)
  have hserve : serve h .rdX m (taken .rdX m s) = forwardAll h .fX own m.src m
      (updDir h.val key (busyWith .rdX m b.val .BX true 0 0 own s.time.now) (clearHomeMon h.val m.line (taken .rdX m s))) := by
    rw [serve_entry (s := taken .rdX m s) hkey]
    have hd : dirAt (taken .rdX m s) h.val key = dirAt s h.val key := rfl
    have hnum : bayNum m.src = b.val := by rw [hsrc]; rfl
    have hnow : (clearHomeMon h.val m.line (taken .rdX m s)).time = s.time :=
      (unreserved_clearHomeMon h.val m.line).keeps .time (by decide)
    unfold beginTx
    dsimp only
    rw [hd, hst, hown, ho, bayBit_eq, hnum, if_pos rfl, decide_eq_true rfl, hnow]
    rfl
  generalize updDir h.val key (busyWith .rdX m b.val .BX true 0 0 own s.time.now) (clearHomeMon h.val m.line (taken .rdX m s)) = w at *
  rw [forwardAll_eq, forwardsOf_one, show w.net = netWithout .rdX m s from hkeep .net (by decide)] at hserve
  have hexec := request_served (k := .rdX) (c := .rdX m .clean) (m' := m) hat rfl ⟨rfl, rfl⟩
    (hat.canTake_entry hkey (by rw [hst]; rfl) _) (by rw [hserve]; exact hvidle hat.idle)
  rw [hserve] at hexec
  refine ⟨_, hexec, ⟨congrArg DirE.st hbat, congrArg DirE.req hbat, congrArg DirE.owner hbat, hthr, ?_⟩, _, rfl, rfl, hsrc, rfl⟩
  refine keeps_trans (keeps_trans (keeps_mono (by decide) (keeps_taken .rdX m)) (keeps_mono (by decide) hkeep)) ?_
  exact (keeps_refl [.thr, .net, .slice, .old, .bay, .eng] w).frame

end

/-- Settles O25: a home serves each request as its line's entry tells. -/
theorem homeServes : Obligations.HomeServes := by
  unfold Obligations.HomeServes
  refine ⟨?_, ?_⟩
  · intro s m h hat hnone data
    exact ⟨fun w hw hev => rdS_bare hat hnone hw hev, peek_bare hat hnone, hrd_bare hat hnone, cln_bare hat hnone,
      fls_bare hat hnone, inv_bare hat hnone⟩
  · intro s m h b key hat hsrc hkey d others invited busy
    refine ⟨fun hst => ⟨rdX_shared hat hsrc hkey hst, fun hb => ?_, ?_⟩, fun hst o hown => ⟨?_, ?_⟩⟩
    · exact granted_shared (c := .upg m .clean) hat hsrc hkey hst (.inr ⟨rfl, hb⟩) rfl
    · exact granted_shared (c := .rdZ m .clean) hat hsrc hkey hst (.inl rfl) rfl
    · exact rdS_owned hat hsrc hkey hst hown
    · exact rdX_owned hat hsrc hkey hst hown

end Sys2Proof.Machine
end

section
/-! Commands on instances (R366, R380, R384, R432). -/
namespace Sys2Proof.Machine
set_option Elab.async false
variable {s t u v : State} {m : Mbox} {b : MboxSt} {P : List Piece}

theorem Keeps.noticeMsg (h : Keeps P s u) (hP : ∀ p ∈ ([.ridge, .bw, .xing, .out, .pba] : List Piece), p ∈ P
    := by decide) : Keeps P s (Machine.noticeMsg u) := by
  refine h.via ?_ hP
  have h := keeps_refl [.ridge, .bw, .xing, .out, .pba] u
  unfold Machine.noticeMsg
  split
  · exact h.sendMsi
  · exact h

theorem Keeps.notifyMode (h : Keeps P s u) (hP : ∀ p ∈ ([.ridge, .bw, .xing, .out, .ep, .pba] : List Piece), p ∈ P
    := by decide) : Keeps P s (Machine.notifyMode u) := by
  refine h.via ?_ hP
  have h := keeps_refl [.ridge, .bw, .xing, .out, .ep, .pba] u
  unfold Machine.notifyMode
  split
  · exact h
  · exact h.updEp.noticeMsg

theorem Keeps.settleMode (h : Keeps P s u) (hP : ∀ p ∈
    ([.thr, .ridge, .bw, .xing, .out, .pw, .wake, .ep, .pba, .wr, .log] : List Piece), p ∈ P := by decide) : Keeps P s
    (Machine.settleMode u) := by
  refine h.via ?_ hP
  have h := keeps_refl [.thr, .ridge, .bw, .xing, .out, .pw, .wake, .ep, .pba, .wr, .log] u
  unfold Machine.settleMode
  dsimp only
  split
  · exact h.updPw
  · exact (Keeps.each h.updPw.updWr.wrightEvent fun _ _ hx => hx.partEvent).notifyMode

theorem Keeps.afterReset (h : Keeps P s u) (hP : ∀ p ∈ ([.time] : List Piece), p ∈ P := by decide) : Keeps P s
    (Machine.afterReset u) :=
  h.via (fun p hp => by cases p <;> simp_all [Piece.same, Machine.afterReset]) hP

theorem Keeps.notePoisonedResult {x : Entry} (h : Keeps P s u) (hP : ∀ p ∈ ([.inst] : List Piece), p ∈ P := by decide)
    : Keeps P s (Machine.notePoisonedResult x u) := by
  refine h.via ?_ hP
  have h := keeps_refl [.inst] u
  unfold Machine.notePoisonedResult
  split
  · exact h
  · exact h.updInst

theorem Keeps.freeEntry {e : ℕ} (h : Keeps P s u) (hP : ∀ p ∈ ([.led] : List Piece), p ∈ P := by decide) : Keeps P s
    (Machine.freeEntry e u) := by
  refine h.via ?_ hP
  have h := keeps_refl [.led] u
  unfold Machine.freeEntry
  dsimp only
  exact h.updEntry

theorem Keeps.recordDone {e : ℕ} (h : Keeps P s u) (hP : ∀ p ∈ ([.queue, .led] : List Piece), p ∈ P := by decide)
    : Keeps P s (Machine.recordDone e u) := by
  refine h.via ?_ hP
  have h := keeps_refl [.queue, .led] u
  unfold Machine.recordDone
  dsimp only
  exact h.freeEntry.updQueue

theorem Keeps.deliverHere {e : ℕ} (h : Keeps P s u) (hP : ∀ p ∈ ([.queue, .led, .inst, .bw, .out, .fresh, .pba]
    : List Piece), p ∈ P := by decide) : Keeps P s (Machine.deliverHere e u) := by
  refine h.via ?_ hP
  have h := keeps_refl [.queue, .led, .inst, .bw, .out, .fresh, .pba] u
  unfold Machine.deliverHere
  extract_lets x q v a rs s1 s2 s3 s4
  have h2 : Keeps [.queue, .led, .inst, .bw, .out, .fresh, .pba] u s2 := (Keeps.each h fun _ _ hx => hx.emit).emit
  clear_value s2
  have h3 : Keeps [.queue, .led, .inst, .bw, .out, .fresh, .pba] u s3 := Keeps.ite h2.frame h2
  have h4 : Keeps [.queue, .led, .inst, .bw, .out, .fresh, .pba] u s4 := Keeps.ite h3.msiHere h3
  exact h4.notePoisonedResult.recordDone

theorem Keeps.sendRec {e : Fin 65536} {d : BitVec 16} (h : Keeps P s u) (hP : ∀ p ∈ ([.led, .ridge, .bw, .xing, .out]
    : List Piece), p ∈ P := by decide) : Keeps P s (Machine.sendRec e d u) := by
  refine h.via ?_ hP
  have h := keeps_refl [.led, .ridge, .bw, .xing, .out] u
  unfold Machine.sendRec
  dsimp only
  split
  · exact h
  · exact (h.sendReq ‹_›).updEntry

theorem Keeps.deliverThere {e : Fin 65536} {d : BitVec 16} (h : Keeps P s u) (hP : ∀ p ∈
    ([.led, .ridge, .bw, .xing, .out] : List Piece), p ∈ P := by decide) : Keeps P s (Machine.deliverThere e d u) := by
  refine h.via ?_ hP
  have h := keeps_refl [.led, .ridge, .bw, .xing, .out] u
  unfold Machine.deliverThere
  refine Keeps.ite h.sendRec (Keeps.each h fun _ _ hx => ?_)
  dsimp only
  split
  · exact hx
  · exact (hx.takeTag.sendReq ‹_›).updEntry

theorem Keeps.deliverRecord {e : Fin 65536} (h : Keeps P s u) (hP : ∀ p ∈
    ([.queue, .led, .inst, .ridge, .bw, .xing, .out, .fresh, .pba] : List Piece), p ∈ P := by decide) : Keeps P s
    (Machine.deliverRecord e u) := by
  refine h.via ?_ hP
  have h := keeps_refl [.queue, .led, .inst, .ridge, .bw, .xing, .out, .fresh, .pba] u
  unfold Machine.deliverRecord
  dsimp only
  split
  · exact h
  · split
    · exact h
    · split
      · exact h.deliverHere
      · exact h
    · exact h.deliverThere

theorem Keeps.deliverQueue {q : ℕ} (h : Keeps P s u) (hP : ∀ p ∈
    ([.queue, .led, .inst, .ridge, .bw, .xing, .out, .fresh, .pba] : List Piece), p ∈ P := by decide) : Keeps P s
    (Machine.deliverQueue q u) := by
  refine h.via ?_ hP
  have h := keeps_refl [.queue, .led, .inst, .ridge, .bw, .xing, .out, .fresh, .pba] u
  unfold Machine.deliverQueue
  refine Keeps.each h fun _ _ hx => ?_
  split
  · exact hx.deliverRecord
  · exact hx

theorem Keeps.deliverAll (h : Keeps P s u) (hP : ∀ p ∈ ([.queue, .led, .inst, .ridge, .bw, .xing, .out, .fresh, .pba]
    : List Piece), p ∈ P := by decide) : Keeps P s (Machine.deliverAll u) := by
  refine h.via ?_ hP
  have h := keeps_refl [.queue, .led, .inst, .ridge, .bw, .xing, .out, .fresh, .pba] u
  unfold Machine.deliverAll
  exact Keeps.each h fun _ _ hx => hx.deliverQueue

/-- A change of the endpoint's pending bits alone. -/
theorem Keeps.updPba {f : Endpoint → Endpoint} (h : Keeps P s u) (hP : ∀ p ∈ ([.pba] : List Piece), p ∈ P := by decide)
    (hf : ∀ e, { f e with pba := [], pbaVc1 := [] } = ({ e with pba := [], pbaVc1 := [] } : Endpoint) := by exact fun _ => rfl) :
    Keeps P s (Machine.updEp f u) :=
  h.via (fun p hp => by have := hf u.ep; cases p <;> simp_all [Piece.same]) hP

theorem Keeps.flushMsi (h : Keeps P s u) (hP : ∀ p ∈ ([.ridge, .bw, .xing, .out, .pba] : List Piece), p ∈ P
    := by decide) : Keeps P s (Machine.flushMsi u) := by
  refine h.via ?_ hP
  have h := keeps_refl [.ridge, .bw, .xing, .out, .pba] u
  unfold Machine.flushMsi
  dsimp only
  split
  · exact h
  · refine Keeps.each h fun _ _ hx => ?_
    split
    · exact hx
    · exact hx.updPba.sendMsi

theorem Keeps.headAnswer {j : HeadJob} {op : BitVec 6} {status : BitVec 2} (h : Keeps P s u) (hP : ∀ p ∈
    ([.ridge, .bw, .xing, .out] : List Piece), p ∈ P := by decide) : Keeps P s (Machine.headAnswer j op status u) := by
  refine h.via ?_ hP
  have h := keeps_refl [.ridge, .bw, .xing, .out] u
  unfold Machine.headAnswer
  exact h.sendRsp

theorem Keeps.headJob {j : HeadJob} (h : Keeps P s u) (hP : ∀ p ∈ ([.ridge, .bw, .xing, .out, .pba] : List Piece), p ∈ P
    := by decide) : Keeps P s (Machine.headJob j u).2 := by
  refine h.via ?_ hP
  have h := keeps_refl [.ridge, .bw, .xing, .out, .pba] u
  unfold Machine.headJob
  dsimp only
  split
  · split
    · exact h.headAnswer
    · split
      · exact h
      · exact h.emit.headAnswer
  · split
    · exact h.headAnswer
    · split
      · exact h.headAnswer
      · split
        · exact h
        · refine Keeps.headAnswer ?_
          refine Keeps.updRidge ?_
          split
          · exact h.emit.msiHere
          · exact h.emit

theorem Keeps.pumpHead (h : Keeps P s u) (hP : ∀ p ∈ ([.ridge, .bw, .xing, .out, .pba] : List Piece), p ∈ P
    := by decide) : Keeps P s (Machine.pumpHead u) := by
  refine h.via ?_ hP
  have h := keeps_refl [.ridge, .bw, .xing, .out, .pba] u
  unfold Machine.pumpHead
  dsimp only
  refine Keeps.each h.updRidge fun _ _ hx => ?_
  split
  · exact hx.headJob
  · exact hx.updRidge

theorem Keeps.pumpEndpoint (h : Keeps P s u) (hP : ∀ p ∈ ([.led, .ridge, .bw, .xing, .out, .pw, .ep, .pba]
    : List Piece), p ∈ P := by decide) : Keeps P s (Machine.pumpEndpoint u) := by
  refine h.via ?_ hP
  have h := keeps_refl [.led, .ridge, .bw, .xing, .out, .pw, .ep, .pba] u
  unfold Machine.pumpEndpoint
  exact h.flushMsi.pumpHead.pumpReads

theorem wordOf_sliceB_pageBytes {off n i : Nat} (h : i + 8 ≤ n) :
    wordOf (sliceB (pageBytes b off n) i 8) = pageWord b (off + i) := by
  unfold pageWord
  congr 1
  refine List.map_congr_left fun k hk => ?_
  have hk8 := List.mem_range.mp hk
  have hlt : i + k < n := by omega
  simp [pageBytes, hlt, Nat.add_assoc]

/-- The ranges that Layout I names (R380). -/
theorem look_rangesOf (l : List Byte) (k : Nat) : look none (rangesOf l) k =
    if k < 8 then (if (wordOf (sliceB l (8 + 16 * k) 8)).getLsbD 0 then
      some ((wordOf (sliceB l (8 + 16 * k) 8)).extractLsb' 12 52, (wordOf (sliceB l (16 + 16 * k) 8)).extractLsb' 12 52) else none)
    else none := by
  have hfold (n : Nat) : look none ((List.range n).foldl (fun t k =>
      let lo := wordOf (sliceB l (8 + 16 * k) 8)
      let hi := wordOf (sliceB l (16 + 16 * k) 8)
      put none t k (if lo.getLsbD 0 then some (lo.extractLsb' 12 52, hi.extractLsb' 12 52) else none)) []) k =
      if k < n then (if (wordOf (sliceB l (8 + 16 * k) 8)).getLsbD 0 then
        some ((wordOf (sliceB l (8 + 16 * k) 8)).extractLsb' 12 52, (wordOf (sliceB l (16 + 16 * k) 8)).extractLsb' 12 52) else none)
      else none := by
    induction n with
    | zero => rfl
    | succ n ih =>
      rw [List.range_succ, List.foldl_append, List.foldl_cons, List.foldl_nil]
      dsimp only at ih ⊢
      rw [look_put, ih]
      by_cases hk : k = n
      · subst hk
        simp
      · have hlt : k < n + 1 ↔ k < n := by omega
        simp only [hlt, if_neg hk]
  exact hfold 8

/-- Vectors and ranges of an instance's image, within bounds and with no reserved bit. -/
def InstOk (b : MboxSt) : Prop :=
  ¬ Reserved b 0x40 0xFFF07FF00FF ∧
    ((pageWord b 0x40).extractLsb' 16 11).toNat + ((pageWord b 0x40).extractLsb' 32 12).toNat ≤ 2048 ∧
    ∀ k, k < 8 → ¬ Reserved b (0x48 + 16 * k) 0xFFFFFFFFFFFFF001 ∧ ¬ Reserved b (0x50 + 16 * k) 0xFFFFFFFFFFFFF000

theorem instFits_iff (b : MboxSt) : instFits b = true ↔ InstOk b := by
  unfold instFits InstOk fld
  simp only [Bool.and_eq_true, decide_eq_true_eq, List.all_eq_true, List.mem_range, wordFits_iff]
  constructor
  · rintro ⟨⟨⟨hw, -⟩, hsum⟩, hall⟩
    exact ⟨hw, hsum, hall⟩
  · rintro ⟨hw, hsum, hall⟩
    exact ⟨⟨⟨hw, by omega⟩, hsum⟩, hall⟩

theorem instFits_of_not {b : MboxSt} (h : ¬ InstOk b) : instFits b = false := by
  rw [← Bool.not_eq_true, instFits_iff]
  exact h

/-- An instance has taken its vectors and ranges from its image. -/
def TookInst (b : MboxSt) (x y : Inst) : Prop :=
  y = { x with vecBase := (pageWord b 0x40).extractLsb' 16 11, vecCount := (pageWord b 0x40).extractLsb' 32 12, dma := y.dma } ∧
    ∀ k, k < 8 → look none y.dma k = (if (pageWord b (0x48 + 16 * k)).getLsbD 0 then
      some ((pageWord b (0x48 + 16 * k)).extractLsb' 12 52, (pageWord b (0x50 + 16 * k)).extractLsb' 12 52) else none)

theorem tookInst_takeInst (b : MboxSt) (x : Inst) : TookInst b x (takeInst b x) := by
  refine ⟨rfl, fun k hk => ?_⟩
  have hlo : wordOf (sliceB (pageBytes b 0x40 0x88) (8 + 16 * k) 8) = pageWord b (0x48 + 16 * k) := by
    rw [wordOf_sliceB_pageBytes (by omega)]
    congr 1
    omega
  have hhi : wordOf (sliceB (pageBytes b 0x40 0x88) (16 + 16 * k) 8) = pageWord b (0x50 + 16 * k) := by
    rw [wordOf_sliceB_pageBytes (by omega)]
    congr 1
    omega
  change look none (rangesOf (pageBytes b 0x40 0x88)) k = _
  rw [look_rangesOf, if_pos hk, hlo, hhi]

/-- Only one instance changes. -/
def OnlyInst (i : Nat) (s t : State) : Prop := Keeps [.inst] s t ∧ ∀ j, j ≠ i → inst t j = inst s j

theorem onlyInst_updInst (i : Nat) (f : Inst → Inst) : OnlyInst i s (updInst i f s) :=
  ⟨(keeps_refl _ s).updInst, fun j hj => by rw [inst_updInst, if_neg hj]⟩

/-! ## INST_CREATE, INST_MODIFY and INST_DESTROY -/

/-- The answer of a command's own effect. -/
def replied (m : Mbox) (r : Answer × State) : State := respond m r.1 r.2

theorem replied_bad {r : Answer × State} {status : BitVec 8} (h : r = (bad status, s)) : Says m status 0 [] s (replied m r) := by
  rw [h]
  exact says_bad status

theorem replied_ok {r : Answer × State} {l : List Byte} (h : r = (ok l, t)) : Says m 0 0 l t (replied m r) := by
  rw [h]
  exact says_ok l

theorem instCreate_spec (b : MboxSt) :
    let i := instNamed b
    let u := replied m (instCreate b s)
    let base := (fld (pageWord b 0x40) 16 11).toNat
    let count := (fld (pageWord b 0x40) 32 12).toNat
    (¬ InstOk b → Says m stBadParam 0 [] s u) ∧ (InstOk b → s.pw.fenced = true ∨ (inst s i).st ≠ 0 → Says m stState 0 [] s u) ∧
    (InstOk b → s.pw.fenced = false → (inst s i).st = 0 →
      (blockTaken s i base count = true → Says m stLimit 0 [] s u) ∧
      (blockTaken s i base count = false → ∃ t, Says m 0 0 [] t u ∧ OnlyInst i s t ∧
        TookInst b { Inst.reset with st := 1 } (inst t i))) := by
  intro i u base count
  refine ⟨fun h => ?_, fun h hs => ?_, fun h hf hs => ⟨fun ht => ?_, fun ht => ?_⟩⟩
  · exact replied_bad (by simp [instCreate, instFits_of_not h])
  · refine replied_bad ?_
    unfold instCreate
    dsimp only
    rw [if_neg (by simp [(instFits_iff b).mpr h]), if_pos (by simpa using hs)]
  · exact replied_bad (by simp_all [instCreate, (instFits_iff b).mpr h, i, base, count])
  · refine ⟨_, replied_ok (by simp_all [instCreate, (instFits_iff b).mpr h, i, base, count]; rfl), onlyInst_updInst i _, ?_⟩
    rw [inst_updInst, if_pos rfl]
    exact tookInst_takeInst b _

theorem instModify_spec (b : MboxSt) :
    let i := instNamed b
    let u := replied m (instModify b s)
    let base := (fld (pageWord b 0x40) 16 11).toNat
    let count := (fld (pageWord b 0x40) 32 12).toNat
    let may := s.pw.fenced = false ∧ (inst s i).st ≠ 0 ∧ vectorUsed s i base count = false
    (¬ InstOk b → Says m stBadParam 0 [] s u) ∧ (InstOk b → ¬ may → Says m stState 0 [] s u) ∧
    (InstOk b → may → (blockTaken s i base count = true → Says m stLimit 0 [] s u) ∧
      (blockTaken s i base count = false → ∃ t, Says m 0 0 [] t u ∧ OnlyInst i s t ∧ TookInst b (inst s i) (inst t i))) := by
  intro i u base count may
  have hstate (h : InstOk b) (hm : ¬ may) : instModify b s = (bad stState, s) := by
    have hs : (s.pw.fenced || decide ((inst s i).st = 0) || vectorUsed s i base count) = true := by
      by_contra hn
      refine hm ?_
      simpa [and_assoc, may] using hn
    unfold instModify
    dsimp only
    rw [if_neg (by simp [(instFits_iff b).mpr h]), if_pos hs]
  have hmay (h : InstOk b) (hm : may) : instModify b s = if blockTaken s i base count then (bad stLimit, s)
      else (ok [], updInst i (takeInst b) s) := by
    obtain ⟨hf, hs, hv⟩ := hm
    unfold instModify
    dsimp only
    rw [if_neg (by simp [(instFits_iff b).mpr h]), 
      if_neg (by rw [hf, decide_eq_false hs, hv]; decide)]
  refine ⟨fun h => ?_, fun h hm => ?_, fun h hm => ⟨fun ht => ?_, fun ht => ?_⟩⟩
  · exact replied_bad (by simp [instModify, instFits_of_not h])
  · exact replied_bad (hstate h hm)
  · exact replied_bad ((hmay h hm).trans (if_pos ht))
  · refine ⟨_, replied_ok ((hmay h hm).trans (if_neg (by simp [ht]))), onlyInst_updInst i _, ?_⟩
    rw [inst_updInst, if_pos rfl]
    exact tookInst_takeInst b _

theorem instDestroy_spec (b : MboxSt) :
    let i := instNamed b
    let u := replied m (instDestroy b s)
    let may := s.pw.fenced = false ∧ i ≠ 0 ∧ (inst s i).st ≠ 0 ∧ (inst s i).qmap = []
    (Reserved b 0x40 0xFF → Says m stBadParam 0 [] s u) ∧ (¬ Reserved b 0x40 0xFF → ¬ may → Says m stState 0 [] s u) ∧
    (¬ Reserved b 0x40 0xFF → may → ∃ t, Says m 0 0 [] t u ∧ OnlyInst i s t ∧ inst t i = Inst.reset) := by
  intro i u may
  refine ⟨fun h => ?_, fun h hm => ?_, fun h hm => ?_⟩
  · exact replied_bad (by simp only [instDestroy, wordFits_of_reserved h]; rfl)
  · have hs : (s.pw.fenced || decide (i = 0) || decide ((inst s i).st = 0) || decide ((inst s i).qmap ≠ [])) = true := by
      by_contra hn
      refine hm ?_
      simpa [and_assoc, may] using hn
    refine replied_bad ?_
    unfold instDestroy
    dsimp only
    rw [if_neg (by rw [wordFits_of_not_reserved h]; decide), if_pos hs]
  · obtain ⟨hf, hi, hs, hq⟩ := hm
    have hbody : instDestroy b s = (ok [], updInst i (fun _ => Inst.reset) s) := by
      unfold instDestroy
      dsimp only
      rw [if_neg (by rw [wordFits_of_not_reserved h]; decide), 
        if_neg (by rw [hf, decide_eq_false hi, decide_eq_false hs, decide_eq_false (not_not_intro hq)]; decide)]
    exact ⟨_, replied_ok hbody, onlyInst_updInst i _, by rw [inst_updInst, if_pos rfl]⟩

/-! ## INST_RESET -/

theorem mem_of_look_ne {α : Type} {d : α} {t : Tbl α} {k : Nat} (h : look d t k ≠ d) : ∃ v, (k, v) ∈ t := by
  induction t with
  | nil => exact absurd rfl h
  | cons e t ih =>
    obtain ⟨i, v⟩ := e
    rw [look] at h
    by_cases hi : i = k
    · subst hi
      exact ⟨v, List.mem_cons_self⟩
    · rw [if_neg hi] at h
      obtain ⟨v', hv⟩ := ih h
      exact ⟨v', List.mem_cons_of_mem _ hv⟩

/-- An item ends in its own entry. -/
theorem endItem_entries (e : Nat) (fail : Bool) (cause detail : BitVec 8) :
    let u := endItem e fail cause detail s
    (∀ y, y ≠ e → entry u y = entry s y) ∧ ((entry s e).st ≠ .free → (entry s e).st ≠ .closing →
      (entry u e).st = .closing ∧ (entry u e).fail = fail ∧ (entry u e).cause = cause) := by
  unfold endItem
  extract_lets x w w' u
  have hew (y : Nat) : entry w' y = entry w y := (keeps_refl [.ep] w).abandonReads.entry_eq y
  have hstate (v : State) (hv : Keeps [.pw] w' v) : (∀ y, y ≠ e → entry v y = entry s y) ∧
      (entry v e).st = .closing ∧ (entry v e).fail = fail ∧ (entry v e).cause = cause := by
    refine ⟨fun y hy => ?_, ?_⟩
    · rw [hv.entry_eq y, hew, entry_updEntry, if_neg hy]
    · rw [hv.entry_eq e, hew, entry_updEntry, if_pos rfl]
      exact ⟨rfl, rfl, rfl⟩
  by_cases hx : (decide (x.st = .free) || decide (x.st = .closing)) = true
  · have hu : u = s := if_pos hx
    rw [hu]
    refine ⟨fun _ _ => rfl, fun hf hc => ?_⟩
    simp only [Bool.or_eq_true, decide_eq_true_eq] at hx
    exact absurd hx (not_or.mpr ⟨hf, hc⟩)
  · have hu : u = _ := if_neg hx
    rw [hu]
    split
    · exact ⟨(hstate _ (keeps_refl [.pw] w').dispVote).1, fun _ _ => (hstate _ (keeps_refl [.pw] w').dispVote).2⟩
    · exact ⟨(hstate _ (keeps_refl [.pw] w')).1, fun _ _ => (hstate _ (keeps_refl [.pw] w')).2⟩

/-- The items that an instance's reset ends (R384). -/
def endWaiting (i : Nat) (l : Tbl Entry) (s : State) : State :=
  forEach l (fun e acc =>
    let x := entry acc e.1
    if ownedByInst (queue acc x.queue.val) i && (x.st = .queued || x.st = .fetch) then endItem e.1 true 0x0B 0 acc else acc) s

theorem keeps_endWaiting (i : Nat) (l : Tbl Entry) : Keeps [.led, .ep, .pw] s (endWaiting i l s) :=
  (keeps_refl _ s).each fun _ _ hx => hx.endItem.ite hx

/-- The item has ended for its instance's reset. -/
def EndedByReset (s : State) (e : Nat) : Prop :=
  (entry s e).st = .closing ∧ (entry s e).fail = true ∧ (entry s e).cause = 0x0B

theorem endWaiting_ended (i : Nat) (l : Tbl Entry) {e : Nat} (h : EndedByReset s e) : EndedByReset (endWaiting i l s) e := by
  refine forEach_keeps (fun x => EndedByReset x e) _ _ s h fun a _ x hx => ?_
  obtain ⟨hst, hfail, hcause⟩ := id hx
  dsimp only
  split
  case isFalse => exact hx
  case isTrue hc =>
    have hne : e ≠ a.1 := by
      rintro rfl
      simp [hst] at hc
    unfold EndedByReset
    rw [(endItem_entries a.1 true 0x0B 0).1 e hne]
    exact hx

theorem endWaiting_waiting (i : Nat) (l : Tbl Entry) {e : Nat} (hmem : ∃ v, (e, v) ∈ l)
    (hst : (entry s e).st = .queued ∨ (entry s e).st = .fetch) (hown : ownedByInst (queue s (entry s e).queue.val) i = true) :
    EndedByReset (endWaiting i l s) e := by
  induction l generalizing s with
  | nil => simp at hmem
  | cons a l ih =>
    unfold endWaiting
    rw [forEach_cons]
    by_cases ha : a.1 = e
    · refine endWaiting_ended i l ?_
      rw [ha]
      dsimp only
      rw [hown, if_pos (by simpa using hst)]
      refine (endItem_entries e true 0x0B 0).2 ?_ ?_
      · rcases hst with h | h <;> rw [h] <;> decide
      · rcases hst with h | h <;> rw [h] <;> decide
    · have hmem' : ∃ v, (e, v) ∈ l := by
        obtain ⟨v, hv⟩ := hmem
        rcases List.mem_cons.mp hv with h | h
        · exact absurd (congrArg Prod.fst h).symm ha
        · exact ⟨v, h⟩
      have hent : entry (if ownedByInst (queue s (entry s a.1).queue.val) i && ((entry s a.1).st = .queued || (entry s a.1).st = .fetch)
          then endItem a.1 true 0x0B 0 s else s) e = entry s e := by
        split
        · exact (endItem_entries a.1 true 0x0B 0).1 e (Ne.symm ha)
        · rfl
      have hq (q : Nat) : queue (if ownedByInst (queue s (entry s a.1).queue.val) i &&
          ((entry s a.1).st = .queued || (entry s a.1).st = .fetch) then endItem a.1 true 0x0B 0 s else s) q = queue s q := by
        split
        · have hk : Keeps [.led, .ep, .pw] s (endItem a.1 true 0x0B 0 s) := (keeps_refl _ s).endItem
          exact congrArg (fun t => look Queue.reset t q) (hk .queue (by decide))
        · rfl
      exact ih hmem' (by rw [hent]; exact hst) (by rw [hent, hq]; exact hown)

/-- What an instance's reset leaves. -/
theorem resetInst_spec (i : Nat) (hst : (inst s i).st ≠ 0) :
    let t := resetInst i s
    (inst t i).st = 3 ∧ (inst t i).unmapped = 0 ∧ (inst t i).qmap = (inst s i).qmap ∧
      (∀ q, ownedByInst (queue s q) i = true → queue t q = { queue s q with en := false, armed := false }) ∧
      (∀ q, ownedByInst (queue s q) i = false → queue t q = queue s q) ∧
      (∀ e, (entry s e).st = .queued ∨ (entry s e).st = .fetch → ownedByInst (queue s (entry s e).queue.val) i = true →
        EndedByReset t e) := by
  let off := fun (_ : Nat) (q : Queue) => if ownedByInst q i then { q with en := false, armed := false } else q
  let w : State := { s with queue := editAll Queue.reset off s.queue }
  have hqueue (q : Nat) : queue w q = off q (queue s q) := look_editAll _ _ (fun _ => rfl) _ _
  have hk : Keeps [.led, .ep, .pw] w (endWaiting i w.led.ent w) := keeps_endWaiting i w.led.ent
  intro t
  have ht : t = afterReset (updInst i (fun x => { instDomainReset x with st := 3 }) (endWaiting i w.led.ent w)) := if_neg hst
  have hinst : inst t i = { instDomainReset (inst s i) with st := 3 } := by
    have hafter (v : State) : inst (afterReset v) i = inst v i := rfl
    rw [ht, hafter, inst_updInst, if_pos rfl]
    exact congrArg (fun x => { instDomainReset (look Inst.reset x i) with st := 3 }) (hk .inst (by decide))
  have htq (q : Nat) : queue t q = off q (queue s q) := by
    rw [ht, ← hqueue]
    exact congrArg (fun x => look Queue.reset x q) (hk .queue (by decide))
  refine ⟨by rw [hinst], by rw [hinst]; rfl, by rw [hinst]; rfl, fun q hq => ?_, fun q hq => ?_, fun e he hown => ?_⟩
  · exact (htq q).trans (if_pos hq)
  · exact (htq q).trans (if_neg (by simp [hq]))
  · have hentry : entry w e = entry s e := rfl
    have hmem : ∃ v, (e, v) ∈ w.led.ent := by
      refine mem_of_look_ne (d := Entry.reset) fun hr => ?_
      have hr' : entry s e = Entry.reset := hr
      rw [hr'] at he
      exact absurd he (by decide)
    have hown' : ownedByInst (queue w (entry w e).queue.val) i = true := by
      rw [hqueue, hentry]
      simp only [off, hown, if_true]
      exact hown
    have hend := endWaiting_waiting (s := w) i w.led.ent hmem he hown'
    rw [ht]
    exact hend

end Sys2Proof.Machine
end

section
/-! Commands on queues and the host route (R282, R283, R305, R374, R432). -/
namespace Sys2Proof.Machine
set_option Elab.async false
variable {s t u : State} {m : Mbox} {b : MboxSt} {P : List Piece}

theorem Keeps.queue_eq (h : Keeps P s u) (q : Nat) (hP : Piece.queue ∉ P := by decide) : queue u q = queue s q :=
  congrArg (fun x => look Queue.reset x q) (h .queue hP)

theorem Keeps.inst_eq (h : Keeps P s u) (i : Nat) (hP : Piece.inst ∉ P := by decide) : inst u i = inst s i :=
  congrArg (fun x => look Inst.reset x i) (h .inst hP)

theorem Keeps.part_eq (h : Keeps P s u) (p : Nat) (hP : Piece.part ∉ P := by decide) : part u p = part s p :=
  congrArg (fun x => look Part.reset x p) (h .part hP)

/-! ## Images -/

/-- A queue's registers as their images say, but for EN and QUENCHED. -/
def Imaged (b : MboxSt) (x y : Queue) : Prop :=
  y.en = x.en ∧ y.quenched = x.quenched ∧ y.ai = x.ai ∧ y.floor = x.floor ∧ y.inlineMode = (pageWord b 0x48).getLsbD 1 ∧
    y.cls = (pageWord b 0x48).extractLsb' 2 2 ∧ y.part = (pageWord b 0x48).extractLsb' 4 3 ∧ y.inst.toNat = instOfQueue b ∧
    y.target = (pageWord b 0x48).extractLsb' 16 2 ∧ y.rsize = (pageWord b 0x48).extractLsb' 18 4 ∧
    y.quota = (pageWord b 0x48).extractLsb' 24 16 ∧ y.weight = (pageWord b 0x48).extractLsb' 40 8 ∧
    y.rlimit = (pageWord b 0x48).extractLsb' 48 5 ∧ y.qlimit = (pageWord b 0x48).extractLsb' 53 5 ∧
    y.vector = (pageWord b 0x50).extractLsb' 0 11 ∧ y.vecEn = (pageWord b 0x50).getLsbD 11 ∧
    y.descBase = (pageWord b 0x50).extractLsb' 12 52 ∧ y.cplBase = (pageWord b 0x58).extractLsb' 12 52

/-- Images that fit are taken whole. -/
theorem imaged_takeImages (h : imagesFit b = true) (x : Queue) : Imaged b x (takeImages b x) := by
  unfold imagesFit at h
  simp only [Bool.and_eq_true, decide_eq_true_eq] at h
  obtain ⟨⟨⟨⟨⟨⟨⟨⟨⟨-, -⟩, -⟩, hrs⟩, htarget⟩, hweight⟩, hrl⟩, hql⟩, -⟩, hinst⟩ := h
  refine ⟨rfl, rfl, rfl, rfl, rfl, rfl, rfl, hinst, ?_, ?_, rfl, ?_, ?_, ?_, rfl, rfl, rfl, rfl⟩
  · exact if_neg htarget
  · exact if_neg (not_lt.mpr hrs)
  · exact if_neg hweight
  · exact if_neg (not_le.mpr (Nat.lt_succ_of_le hrl))
  · exact if_neg (not_le.mpr (Nat.lt_succ_of_le hql))

theorem keeps_servesQueue (p : Nat) :
    Keeps [.part, .thr, .ridge, .bw, .xing, .out, .ep, .pba, .pw, .wr, .wake, .log] s (servesQueue p s) :=
  (keeps_refl [.part, .thr, .ridge, .bw, .xing, .out, .ep, .pba, .pw, .wr, .wake, .log] s).updPart.settleMode

/-- A STANDBY partition that holds a queue is ACTIVE. -/
theorem part_servesQueue {p : Nat} (h : (part s p).st = .standby) : (part (servesQueue p s) p).st = .active := by
  have hk : Keeps [.thr, .ridge, .bw, .xing, .out, .ep, .pba, .pw, .wr, .wake, .log]
      (updPart p (fun x => { x with st := if x.st = .standby then .active else x.st }) s) (servesQueue p s) :=
    (keeps_refl _ _).settleMode
  rw [hk.part_eq, part_updPart, if_pos rfl]
  exact if_pos h

/-! ## QUEUE_SETUP and QUEUE_MODIFY -/

theorem queueSetup_spec (b : MboxSt) :
    let q := (queueNamed b).val
    let i := instOfQueue b
    let u := replied m (queueSetup b s)
    let may := s.pw.fenced = false ∧ (inst s i).st ≠ 0 ∧ (queue s q).slot = none ∧ heldOf s q = 0 ∧
      look none (inst s i).qmap (slotOfQueue b).val = none
    (imagesFit b = false → Says m stBadParam 0 [] s u) ∧ (imagesFit b = true → ¬ may → Says m stState 0 [] s u) ∧
    (imagesFit b = true → may → ringsFit b (inst s i) = false → Says m stBadParam 0 [] s u) ∧
    (imagesFit b = true → may → ringsFit b (inst s i) = true → ∃ t, Says m 0 0 [] t u ∧
      Imaged b { queue s q with en := false } (queue t q) ∧ (queue t q).armed = false ∧
      ((queue t q).slot.map (·.val)) = some (slotOfQueue b).val ∧
      (look none (inst t i).qmap (slotOfQueue b).val).map (·.val) = some q ∧
      ((part s (queue t q).part.toNat).st = .standby → (part t (queue t q).part.toNat).st = .active) ∧
      (∀ k, k ≠ q → queue t k = queue s k)) := by
  intro q i u may
  have hmay (hm : may) : ¬ ((s.pw.fenced || decide ((inst s i).st = 0) || (queue s q).slot.isSome || decide (heldOf s q ≠ 0)
      || (look none (inst s i).qmap (slotOfQueue b).val).isSome) = true) := by
    obtain ⟨hf, hs, hslot, hheld, hmap⟩ := hm
    rw [hf, decide_eq_false hs, hslot, decide_eq_false (not_not_intro hheld), hmap]
    decide
  refine ⟨fun h => ?_, fun h hm => ?_, fun h hm hr => ?_, fun h hm hr => ?_⟩
  · refine replied_bad ?_
    unfold queueSetup
    dsimp only
    rw [h, if_pos (by decide)]
  · have hs : (s.pw.fenced || decide ((inst s i).st = 0) || (queue s q).slot.isSome || decide (heldOf s q ≠ 0)
        || (look none (inst s i).qmap (slotOfQueue b).val).isSome) = true := by
      by_contra hn
      refine hm ?_
      simpa [and_assoc, may] using hn
    refine replied_bad ?_
    unfold queueSetup
    dsimp only
    rw [h, if_neg (by decide), if_pos hs]
  · refine replied_bad ?_
    unfold queueSetup
    dsimp only
    rw [h, if_neg (by decide), if_neg (hmay hm), hr, if_pos (by decide)]
  · let w := updInst i (fun x => { x with qmap := put none x.qmap (slotOfQueue b).val (some (queueNamed b)) })
      (updQueue q (fun x => { takeImages b x with en := false, armed := false, slot := some (slotOfQueue b) }) s)
    have hbody : queueSetup b s = (ok [], servesQueue (queue w q).part.toNat w) := by
      unfold queueSetup
      dsimp only
      rw [h, if_neg (by decide), if_neg (hmay hm), hr, if_neg (by decide)]
    have hk := keeps_servesQueue (s := w) (queue w q).part.toNat
    have hwq (k : Nat) : queue w k = if k = q then
        { takeImages b (queue s q) with en := false, armed := false, slot := some (slotOfQueue b) } else queue s k := by
      have h0 : queue w k = queue (updQueue q (fun x =>
        { takeImages b x with en := false, armed := false, slot := some (slotOfQueue b) }) s) k := rfl
      rw [h0, queue_updQueue]
    have hq : queue (servesQueue (queue w q).part.toNat w) q =
        { takeImages b (queue s q) with en := false, armed := false, slot := some (slotOfQueue b) } := by
      rw [hk.queue_eq, hwq, if_pos rfl]
    have hi : inst (servesQueue (queue w q).part.toNat w) i = { inst s i with
        qmap := put none (inst s i).qmap (slotOfQueue b).val (some (queueNamed b)) } := by
      rw [hk.inst_eq]
      exact (inst_updInst _ i _ i).trans (if_pos rfl)
    have hpart : (queue (servesQueue (queue w q).part.toNat w) q).part = (queue w q).part := by rw [hk.queue_eq]
    refine ⟨_, replied_ok hbody, ?_, by rw [hq], by rw [hq]; rfl, ?_, fun hp => ?_, fun k hk' => ?_⟩
    · rw [hq]
      obtain ⟨-, h2, h3, h4, hrest⟩ := imaged_takeImages h (queue s q)
      exact ⟨rfl, h2, h3, h4, hrest⟩
    · rw [hi]
      simp [q]
    · rw [hpart] at hp ⊢
      exact part_servesQueue hp
    · rw [hk.queue_eq, hwq, if_neg hk']

/-- A queue that counts towards the sums of R283, or whose fields are fixed (R282). -/
def Counted (s : State) (q : Nat) : Prop := (queue s q).en = true ∨ heldOf s q ≠ 0

/-- QUEUE_MODIFY may change the queue so. -/
def MayModify (s : State) (b : MboxSt) (q : Nat) : Prop :=
  (Counted s q → (queue s q).part = (pageWord b 0x48).extractLsb' 4 3 ∧ (queue s q).inlineMode = (pageWord b 0x48).getLsbD 1 ∧
    (queue s q).rsize = (pageWord b 0x48).extractLsb' 18 4 ∧ (queue s q).descBase = (pageWord b 0x50).extractLsb' 12 52 ∧
    (queue s q).cplBase = (pageWord b 0x58).extractLsb' 12 52) ∧
  ((queue s q).en = true → (pageWord b 0x48).extractLsb' 2 2 = (0 : BitVec 2) → s.ep.cfg.vc1En = true)

theorem counted_iff (q : Nat) : ((queue s q).en || decide (heldOf s q ≠ 0)) = true ↔ Counted s q := by
  simp [Counted]

/-- The checks that QUEUE_MODIFY makes are those of R282. -/
theorem mayModify_iff (h : imagesFit b = true) (q : Nat) :
    (((queue s q).en || decide (heldOf s q ≠ 0)) && frozenDiffer (queue s q) (takeImages b (queue s q)) ||
      ((queue s q).en && decide ((takeImages b (queue s q)).cls = 0) && !s.ep.cfg.vc1En)) = false ↔ MayModify s b q := by
  obtain ⟨-, -, -, -, hinl, hcls, hpart, -, -, hrs, -, -, -, -, -, -, hdesc, hcpl⟩ := imaged_takeImages h (queue s q)
  rw [Bool.or_eq_false_iff]
  refine and_congr ?_ ?_
  · rw [Bool.and_eq_false_iff, ← Bool.not_eq_true, counted_iff]
    unfold frozenDiffer
    rw [hinl, hpart, hrs, hdesc, hcpl]
    simp only [ne_eq, decide_not, Bool.or_eq_false_iff, Bool.not_eq_false', decide_eq_true_eq, imp_iff_not_or, and_assoc]
  · rw [hcls]
    simp only [Bool.and_eq_false_iff, decide_eq_false_iff_not, Bool.not_eq_false']
    cases (queue s q).en with
    | false => simp
    | true =>
      simp only [Bool.true_eq_false, false_or, forall_const]
      exact (imp_iff_not_or).symm

theorem queueModify_spec (b : MboxSt) :
    let q := (queueNamed b).val
    let i := instOfQueue b
    let x := queue s q
    let u := replied m (queueModify b s)
    let named := s.pw.fenced = false ∧ (inst s i).st ≠ 0 ∧ (look none (inst s i).qmap (slotOfQueue b).val).map (·.val) = some q
    let fits := sumsFit s q ((pageWord b 0x48).extractLsb' 24 16).toNat ((pageWord b 0x48).getLsbD 1)
    (imagesFit b = false → Says m stBadParam 0 [] s u) ∧ (imagesFit b = true → ¬ named → Says m stState 0 [] s u) ∧
    (imagesFit b = true → named → ringsFit b (inst s i) = false → Says m stBadParam 0 [] s u) ∧
    (imagesFit b = true → named → ringsFit b (inst s i) = true →
      (¬ MayModify s b q → Says m stState 0 [] s u) ∧ (MayModify s b q → Counted s q → fits = false → Says m stLimit 0 [] s u) ∧
      (MayModify s b q → (Counted s q → fits = true) → ∃ t, Says m 0 0 [] t u ∧ Imaged b x (queue t q) ∧
        (queue t q).slot = x.slot ∧ (∀ k, k ≠ q → queue t k = queue s k))) := by
  intro q i x u named fits
  have hmap : (look none (inst s i).qmap (slotOfQueue b).val).map (·.val) = some q ↔
      look none (inst s i).qmap (slotOfQueue b).val = some (queueNamed b) := by
    cases look none (inst s i).qmap (slotOfQueue b).val with
    | none => simp
    | some k => simp [q, Fin.ext_iff]
  have hnamed : named ↔ ¬ ((s.pw.fenced || decide ((inst s i).st = 0) ||
      decide (look none (inst s i).qmap (slotOfQueue b).val ≠ some (queueNamed b))) = true) := by
    simp only [named, hmap]
    simp [and_assoc]
  refine ⟨fun h => ?_, fun h hn => ?_, fun h hn hr => ?_, fun h hn hr => ?_⟩
  · refine replied_bad ?_
    unfold queueModify
    dsimp only
    rw [h, if_pos (by decide)]
  · refine replied_bad ?_
    unfold queueModify
    dsimp only
    rw [h, if_neg (by decide), if_pos (not_not.mp fun hc => hn (hnamed.mpr hc))]
  · refine replied_bad ?_
    unfold queueModify
    dsimp only
    rw [h, if_neg (by decide), if_neg (hnamed.mp hn), hr, if_pos (by decide)]
  · obtain ⟨hen, hquen, hai, hfloor, hinl, hcls, hpart, hinst, htarget, hrs, hquota, hrest⟩ := imaged_takeImages h x
    have hbody : queueModify b s = if ((x.en || decide (heldOf s q ≠ 0)) && frozenDiffer x (takeImages b x) ||
          (x.en && decide ((takeImages b x).cls = 0) && !s.ep.cfg.vc1En)) = true then (bad stState, s)
        else if ((x.en || decide (heldOf s q ≠ 0)) && !fits) = true then (bad stLimit, s)
        else (ok [], servesQueue (takeImages b x).part.toNat (updQueue q (fun _ => takeImages b x) s)) := by
      unfold queueModify
      dsimp only
      rw [h, if_neg (by decide), if_neg (hnamed.mp hn), hr, if_neg (by decide)]
      rfl
    refine ⟨fun hm => ?_, fun hm hc hf => ?_, fun hm hf => ?_⟩
    · refine replied_bad (hbody.trans (if_pos ?_))
      rw [← Bool.not_eq_false, mayModify_iff h]
      exact hm
    · refine replied_bad (hbody.trans ?_)
      rw [(mayModify_iff h q).mpr hm, if_neg (by decide), if_pos]
      rw [(counted_iff q).mpr hc, hf]
      rfl
    · have hlim : ((x.en || decide (heldOf s q ≠ 0)) && !fits) = false := by
        rw [Bool.and_eq_false_iff, Bool.not_eq_false', ← Bool.not_eq_true, counted_iff]
        exact (imp_iff_not_or).mp hf
      rw [(mayModify_iff h q).mpr hm, hlim, if_neg (by decide), if_neg (by decide)] at hbody
      have hk := keeps_servesQueue (s := updQueue q (fun _ => takeImages b x) s) (takeImages b x).part.toNat
      have hq : queue (servesQueue (takeImages b x).part.toNat (updQueue q (fun _ => takeImages b x) s)) q = takeImages b x := by
        rw [hk.queue_eq, queue_updQueue, if_pos rfl]
      refine ⟨_, replied_ok hbody, ?_, by rw [hq]; rfl, fun k hk' => ?_⟩
      · rw [hq]
        exact imaged_takeImages h x
      · rw [hk.queue_eq, queue_updQueue, if_neg hk']

/-! ## QUEUE_ENABLE and QUEUE_REMOVE -/

/-- EN and re-arming of every queue, and the state of every instance, are as they were. -/
def Steady (s u : State) : Prop :=
  (∀ q, (queue u q).en = (queue s q).en ∧ (queue u q).armed = (queue s q).armed) ∧ ∀ i, (inst u i).st = (inst s i).st

theorem Steady.trans {v : State} (h : Steady s u) (h' : Steady u v) : Steady s v :=
  ⟨fun q => ⟨(h'.1 q).1.trans (h.1 q).1, (h'.1 q).2.trans (h.1 q).2⟩, fun i => (h'.2 i).trans (h.2 i)⟩

theorem steady_refl (s : State) : Steady s s := ⟨fun _ => ⟨rfl, rfl⟩, fun _ => rfl⟩

theorem steady_of_keeps (h : Keeps P s u) (hq : Piece.queue ∉ P := by decide) (hi : Piece.inst ∉ P := by decide) : Steady s u :=
  ⟨fun q => by rw [h.queue_eq q hq]; exact ⟨rfl, rfl⟩, fun i => by rw [h.inst_eq i hi]⟩

theorem steady_recordDone (e : Nat) : Steady s (recordDone e s) := by
  unfold recordDone
  have hfree : Keeps [.led] s (freeEntry e s) := (keeps_refl _ s).freeEntry
  refine (steady_of_keeps hfree).trans ⟨fun q => ?_, fun i => rfl⟩
  rw [queue_updQueue]
  split
  case isTrue h =>
    rw [h]
    exact ⟨rfl, rfl⟩
  case isFalse => exact ⟨rfl, rfl⟩

theorem steady_notePoisonedResult (x : Entry) : Steady s (notePoisonedResult x s) := by
  unfold notePoisonedResult
  split
  · exact steady_refl s
  · refine ⟨fun _ => ⟨rfl, rfl⟩, fun i => ?_⟩
    rw [inst_updInst]
    split
    case isTrue h => rw [h]
    case isFalse => rfl

theorem steady_deliverHere (e : Nat) : Steady s (deliverHere e s) := by
  unfold deliverHere
  extract_lets x q v a rs w w1 w2 w3
  have hw : Keeps [.bw, .out, .fresh, .pba] s w3 := by
    have h1 : Keeps [.bw, .out, .fresh, .pba] s w1 := ((keeps_refl _ s).each fun _ _ hx => hx.emit).emit
    have h2 : Keeps [.bw, .out, .fresh, .pba] s w2 := by
      simp only [w2]
      split
      · exact h1.frame
      · exact h1
    exact h2.msiHere.ite h2
  exact ((steady_of_keeps hw).trans (steady_notePoisonedResult x)).trans (steady_recordDone e)

theorem steady_deliverRecord (e : Fin 65536) : Steady s (deliverRecord e s) := by
  unfold deliverRecord
  dsimp only
  split
  · exact steady_refl s
  · split
    · exact steady_refl s
    · split
      · exact steady_deliverHere _
      · exact steady_refl s
    · exact steady_of_keeps (((keeps_refl [.led, .ridge, .bw, .xing, .out] s)).deliverThere)

theorem steady_deliverQueue (q : Nat) : Steady s (deliverQueue q s) := by
  refine forEach_keeps (Steady s) _ _ s (steady_refl s) fun e _ x hx => ?_
  split
  · exact hx.trans (steady_deliverRecord _)
  · exact hx

theorem rearm_spec (q i : Nat) :
    let t := rearm q i s
    (queue t q).en = true ∧ (queue t q).armed = true ∧ ((inst s i).st = 3 → (inst t i).st = 1) := by
  intro t
  let w := updInst i (fun x => { x with st := if x.st = 3 then 1 else x.st })
    (updQueue q (fun x => { x with en := true, armed := true, floor := floorOf s q }) s)
  have ht : t = deliverQueue q w := rfl
  obtain ⟨hq, hi⟩ := steady_deliverQueue (s := w) q
  have hwq : queue w q = { queue s q with en := true, armed := true, floor := floorOf s q } := by
    have h0 : queue w q = queue (updQueue q (fun x => { x with en := true, armed := true, floor := floorOf s q }) s) q := rfl
    rw [h0, queue_updQueue, if_pos rfl]
  rw [ht, (hq q).1, (hq q).2, hi, hwq]
  refine ⟨rfl, rfl, fun h => ?_⟩
  rw [inst_updInst, if_pos rfl]
  exact if_pos h

theorem at_append_halves (hi lo : BitVec 32) : at' lo 0 ||| at' hi 32 = hi ++ lo := by
  refine BitVec.eq_of_getLsbD_eq fun i hw => ?_
  rw [BitVec.getLsbD_or, BitVec.getLsbD_append]
  simp only [at', BitVec.getLsbD_shiftLeft, BitVec.getLsbD_setWidth]
  by_cases hl : i < 32
  · simp [hl, hw]
  · have h0 : lo.getLsbD i = false := BitVec.getLsbD_of_ge _ _ (by omega)
    have h32 : i - 32 < 64 := by omega
    simp [hl, hw, h0, h32]

theorem queueEnable_spec (b : MboxSt) :
    let q := (queueNamed b).val
    let x := queue s q
    let i := x.inst.toNat
    let u := replied m (queueEnable b s)
    let en := bit (pageWord b 0x40) 16
    let may := s.pw.fenced = false ∧ x.slot ≠ none ∧ (inst s i).st ≠ 2 ∧ (en = true → x.cls = 0 → s.ep.cfg.vc1En = true)
    let fits := sumsFit s q x.quota.toNat x.inlineMode
    (Reserved b 0x40 0x103FF → Says m stBadParam 0 [] s u) ∧ (¬ Reserved b 0x40 0x103FF → ¬ may → Says m stState 0 [] s u) ∧
    (¬ Reserved b 0x40 0x103FF → may → en = true → fits = false → Says m stLimit 0 [] s u) ∧
    (¬ Reserved b 0x40 0x103FF → may → (en = true → fits = true) → ∃ t, Says m 0 0 (bytesOf 8 (x.floor ++ x.ai)) t u ∧
      (queue t q).en = en ∧ (en = true → (queue t q).armed = true ∧ ((inst s i).st = 3 → (inst t i).st = 1)) ∧
      (en = false → queue t q = { x with en := false } ∧ Keeps [.queue] s t)) := by
  intro q x i u en may fits
  have hmay : may ↔ ¬ ((s.pw.fenced || x.slot.isNone || decide ((inst s i).st = 2) || en && decide (x.cls = 0) && !s.ep.cfg.vc1En) = true) := by
    simp only [may, Bool.or_eq_true, Bool.and_eq_true, not_or, Bool.not_eq_true, Option.isNone_iff_eq_none, decide_eq_true_eq,
      not_and, ne_eq, and_assoc, Bool.not_eq_eq_eq_not, Bool.not_true, Bool.not_eq_false]
  have hbody (h : ¬ Reserved b 0x40 0x103FF) (hm : may) : queueEnable b s =
      if (en && !fits) = true then (bad stLimit, s) else if en = true then (ok (bytesOf 8 (at' x.ai 0 ||| at' x.floor 32)), rearm q i s)
      else (ok (bytesOf 8 (at' x.ai 0 ||| at' x.floor 32)), updQueue q (fun x => { x with en := false }) s) := by
    unfold queueEnable
    dsimp only
    rw [wordFits_of_not_reserved h, if_neg (by decide), if_neg (hmay.mp hm)]
  refine ⟨fun h => ?_, fun h hn => ?_, fun h hm he hf => ?_, fun h hm hf => ?_⟩
  · refine replied_bad ?_
    unfold queueEnable
    dsimp only
    rw [wordFits_of_reserved h, if_pos (by decide)]
  · refine replied_bad ?_
    unfold queueEnable
    dsimp only
    rw [wordFits_of_not_reserved h, if_neg (by decide), if_pos (not_not.mp fun hc => hn (hmay.mpr hc))]
  · exact replied_bad ((hbody h hm).trans (if_pos (by rw [he, hf]; rfl)))
  · have hb := hbody h hm
    rw [at_append_halves] at hb
    by_cases he : en = true
    · rw [if_neg (by rw [hf he]; simp), if_pos he] at hb
      obtain ⟨hen, harm, hst⟩ := rearm_spec (s := s) q i
      exact ⟨_, replied_ok hb, hen.trans he.symm, fun _ => ⟨harm, hst⟩, fun hn => absurd (he.symm.trans hn) (by decide)⟩
    · have he' : en = false := by simpa using he
      rw [if_neg (by rw [he']; simp), if_neg he] at hb
      have hq : queue (updQueue q (fun x => { x with en := false }) s) q = { x with en := false } := by
        rw [queue_updQueue, if_pos rfl]
      exact ⟨_, replied_ok hb, by rw [hq, he'], fun hy => absurd hy he, fun _ => ⟨hq, (keeps_refl _ s).updQueue⟩⟩

theorem queueRemove_spec (b : MboxSt) :
    let q := (queueNamed b).val
    let x := queue s q
    let u := replied m (queueRemove b s)
    let may := x.slot ≠ none ∧ s.pw.fenced = false ∧ x.en = false ∧ heldOf s q = 0
    (Reserved b 0x40 0x3FF → Says m stBadParam 0 [] s u) ∧ (¬ Reserved b 0x40 0x3FF → ¬ may → Says m stState 0 [] s u) ∧
    (¬ Reserved b 0x40 0x3FF → may → ∃ t, Says m 0 0 [] t u ∧ Keeps [.queue, .inst] s t ∧
      queue t q = { x with slot := none, armed := false } ∧
      ∀ j, x.slot = some j → look none (inst t x.inst.toNat).qmap j.val = none) := by
  intro q x u may
  have hstart (h : ¬ Reserved b 0x40 0x3FF) : queueRemove b s = match x.slot with
      | none => (bad stState, s)
      | some j => if (s.pw.fenced || x.en || decide (heldOf s q ≠ 0)) = true then (bad stState, s)
        else (ok [], updQueue q (fun y => { y with slot := none, armed := false })
          (updInst x.inst.toNat (fun y => { y with qmap := put none y.qmap j.val none }) s)) := by
    unfold queueRemove
    dsimp only
    rw [wordFits_of_not_reserved h, if_neg (by decide)] <;> rfl
  refine ⟨fun h => ?_, fun h hn => ?_, fun h hm => ?_⟩
  · refine replied_bad ?_
    unfold queueRemove
    dsimp only
    rw [wordFits_of_reserved h, if_pos (by decide)]
  · refine replied_bad ((hstart h).trans ?_)
    cases hs : x.slot with
    | none => rfl
    | some j =>
      refine if_pos ?_
      by_contra hc
      refine hn ⟨by rw [hs]; simp, ?_⟩
      simpa [and_assoc] using hc
  · obtain ⟨hslot, hf, hen, hheld⟩ := hm
    cases hs : x.slot with
    | none => exact absurd hs hslot
    | some j =>
      have hb := hstart h
      rw [hs] at hb
      dsimp only at hb
      rw [if_neg (by rw [hf, hen, decide_eq_false (not_not_intro hheld)]; decide)] at hb
      refine ⟨_, replied_ok hb, ((keeps_refl _ s).updInst).updQueue, ?_, fun k hk => ?_⟩
      · rw [queue_updQueue, if_pos rfl]
        rfl
      · obtain rfl : j = k := Option.some.inj hk
        rw [inst_updQueue, inst_updInst, if_pos rfl]
        simp

/-! ## SET_HOST_ROUTE -/

/-- The endpoint's host route. -/
def hostRoute (s : State) : BitVec 6 × Bool := (s.ep.headPos, s.ep.routeValid)

theorem Keeps.hostRoute_eq (h : Keeps P s u) (hP : Piece.ep ∉ P := by decide) : hostRoute u = hostRoute s := by
  have e := congrArg (fun p : Endpoint => (p.headPos, p.routeValid)) (h .ep hP)
  simpa [hostRoute] using e

theorem hostRoute_endItem (e : Nat) (fail : Bool) (cause detail : BitVec 8) : hostRoute (endItem e fail cause detail s) = hostRoute s := by
  unfold endItem
  extract_lets x w w'
  have hw : hostRoute w' = hostRoute s := rfl
  split
  · rfl
  · split
    · exact ((keeps_refl [.pw] w').dispVote.hostRoute_eq).trans hw
    · exact hw

theorem hostRoute_issueRead (r : ReadRec) : hostRoute (issueRead r s) = hostRoute s := by
  unfold issueRead
  split
  · rfl
  · split
    · rfl
    · split
      · rfl
      case h_2 tag _ => exact ((keeps_refl [.bw, .out] (updRead r (fun y => { y with
          tag := BitVec.ofNat 16 tag, issued := true, remote := false, since := s.time.now }) s)).emit).hostRoute_eq
  case h_3 d _ =>
    dsimp only
    split
    · exact hostRoute_endItem _ _ _ _
    case h_2 v hv =>
      have hk : Keeps [.ridge, .bw, .xing, .out] s v := ((keeps_refl _ s).takeTag).sendReq hv
      exact hk.hostRoute_eq

theorem hostRoute_pumpReads : hostRoute (pumpReads s) = hostRoute s := by
  unfold pumpReads
  dsimp only
  refine forEach_keeps (fun x => hostRoute x = hostRoute s) _ _ _ rfl fun r _ x hx => ?_
  split
  · exact (hostRoute_issueRead r).trans hx
  · exact hx

theorem hostRoute_pumpEndpoint : hostRoute (pumpEndpoint s) = hostRoute s := by
  have hk : Keeps [.ridge, .bw, .xing, .out, .pba] s (pumpHead (flushMsi s)) := ((keeps_refl _ s).flushMsi).pumpHead
  exact hostRoute_pumpReads.trans hk.hostRoute_eq

theorem instResetBy_reserved {b : MboxSt} (h : Reserved b 0x40 0xFF) : instResetBy b s = (bad stBadParam, s) :=
  if_pos (by simpa using wordFits_of_reserved h)

theorem instResetBy_fits {b : MboxSt} (h : ¬ Reserved b 0x40 0xFF) : instResetBy b s =
    if s.pw.fenced || (inst s (instNamed b)).st = 0 then (bad stState, s) else (ok [], resetInst (instNamed b) s) :=
  if_neg (by simpa using wordFits_of_not_reserved h)

/-- Settles O50: each command's checks in turn, then what it writes. -/
theorem instanceAndQueueCommands : Obligations.InstanceAndQueueCommands := by
  unfold Obligations.InstanceAndQueueCommands
  intro instIx base count instOk took onlyInst queueIx qInst qSlot cfg imaged
  refine ⟨cmdRow_of (body := fun _ => instCreate) (plenOk := plenIs 0x88) (fun _ _ _ => rfl) (fun _ _ => rfl) ?_,
    cmdRow_of (body := fun _ => instModify) (plenOk := plenIs 0x88) (fun _ _ _ => rfl) (fun _ _ => rfl) ?_,
    cmdRow_of (body := fun _ => instDestroy) (plenOk := plenIs 8) (fun _ _ _ => rfl) (fun _ _ => rfl) ?_,
    cmdRow_of (body := fun _ => instResetBy) (plenOk := plenIs 8) (fun _ _ _ => rfl) (fun _ _ => rfl) ?_,
    cmdRow_of (body := fun _ => queueSetup) (plenOk := plenIs 0x20) (fun _ _ _ => rfl) (fun _ _ => rfl) ?_,
    cmdRow_of (body := fun _ => queueModify) (plenOk := plenIs 0x20) (fun _ _ _ => rfl) (fun _ _ => rfl) ?_,
    cmdRow_of (body := fun _ => queueEnable) (plenOk := plenIs 8) (fun _ _ _ => rfl) (fun _ _ => rfl) ?_,
    cmdRow_of (body := fun _ => queueRemove) (plenOk := plenIs 8) (fun _ _ _ => rfl) (fun _ _ => rfl) ?_,
    cmdRow_of (body := fun _ => setHostRoute) (plenOk := plenIs 8) (fun _ _ _ => rfl) (fun _ _ => rfl) ?_⟩
  · exact fun s m _ => instCreate_spec (box s m)
  · exact fun s m _ => instModify_spec (box s m)
  · exact fun s m _ => instDestroy_spec (box s m)
  · intro s m _ i may
    refine ⟨fun h => replied_bad (instResetBy_reserved h), fun h hn => replied_bad ((instResetBy_fits h).trans (if_pos ?_)),
      fun h hm => ⟨_, replied_ok ((instResetBy_fits h).trans (if_neg ?_)), resetInst_spec i hm.2⟩⟩
    · by_contra hc
      refine hn ⟨?_, fun h0 => ?_⟩
      · simp_all
      · exact hc ((congrArg _ (decide_eq_true h0)).trans (Bool.or_true _))
    · rw [hm.1, Bool.false_or, decide_eq_true_eq]
      exact hm.2
  · exact fun s m _ => queueSetup_spec (box s m)
  · exact fun s m _ => queueModify_spec (box s m)
  · exact fun s m _ => queueEnable_spec (box s m)
  · exact fun s m _ => queueRemove_spec (box s m)
  · intro s m _
    generalize box s m = b
    refine ⟨fun h => replied_bad ?_, fun h => ?_⟩
    · exact if_pos (by simpa using wordFits_of_reserved h)
    · let w := updEp (fun e => { e with headPos := fld (pageWord b 0x40) 0 6, routeValid := bit (pageWord b 0x40) 6 }) s
      have hbody : setHostRoute b s = (ok [], pumpEndpoint (deliverAll w)) := by
        unfold setHostRoute
        dsimp only
        rw [wordFits_of_not_reserved h, if_neg (by decide)]
      have hroute : hostRoute (pumpEndpoint (deliverAll w)) = hostRoute w :=
        hostRoute_pumpEndpoint.trans ((keeps_refl [.queue, .led, .inst, .ridge, .bw, .xing, .out, .fresh, .pba] w).deliverAll).hostRoute_eq
      exact ⟨_, replied_ok hbody, congrArg Prod.fst hroute, congrArg Prod.snd hroute⟩

end Sys2Proof.Machine
end

section
namespace Sys2Proof.Machine
set_option Elab.async false
variable {s u v : State} {P : List Piece}

theorem Keeps.countMisuse {o : ℕ} (h : Keeps P s u) (hP : ∀ p ∈ ([.inst, .ep] : List Piece), p ∈ P := by decide)
    : Keeps P s (Machine.countMisuse o u) := by
  refine h.via ?_ hP
  have h := keeps_refl [.inst, .ep] u
  unfold Machine.countMisuse
  split
  · exact h.updEp
  · exact h.updInst

theorem Keeps.ringNow {m : Mbox} {v : Word} (h : Keeps P s u) (hP : ∀ p ∈
    ([.thr, .ridge, .bw, .xing, .out, .wake, .pba, .wr] : List Piece), p ∈ P := by decide) : Keeps P s
    (Machine.ringNow m v u) := by
  refine h.via ?_ hP
  have h := keeps_refl [.thr, .ridge, .bw, .xing, .out, .wake, .pba, .wr] u
  unfold Machine.ringNow
  extract_lets b ring w refuseAs pw w'
  have k : Keeps [.thr, .ridge, .bw, .xing, .out, .wake, .pba, .wr] u w := h.updBox
  have refused (x : BitVec 8) : Keeps [.thr, .ridge, .bw, .xing, .out, .wake, .pba, .wr] u (refuseAs x) := k.finishBox
  have k' : Keeps [.thr, .ridge, .bw, .xing, .out, .wake, .pba, .wr] u w' := k.updBox
  exact Keeps.ite k.updBox (Keeps.ite (refused _) (Keeps.ite (refused _) (Keeps.ite (refused _)
    (Keeps.ite k.signalBox (Keeps.ite (refused _) (Keeps.ite k' k'.updWr))))))

theorem Keeps.ringTaken {m : Mbox} {v : Word} {refuse : Bool} (h : Keeps P s u) (hP : ∀ p ∈
    ([.thr, .ridge, .bw, .xing, .out, .wake, .pba, .wr] : List Piece), p ∈ P := by decide) : Keeps P s
    (Machine.ringTaken m v refuse u) := by
  refine h.via ?_ hP
  have h := keeps_refl [.thr, .ridge, .bw, .xing, .out, .wake, .pba, .wr] u
  unfold Machine.ringTaken
  dsimp only
  split
  · exact h.ringNow.updBox
  · exact h.ringNow

theorem Keeps.ringBox {m : Mbox} {v : Word} {refuse : Bool} (h : Keeps P s u) (hP : ∀ p ∈
    ([.thr, .ridge, .bw, .xing, .out, .wake, .pba, .wr] : List Piece), p ∈ P := by decide) : Keeps P s
    (Machine.ringBox m v refuse u) := by
  refine h.via ?_ hP
  have h := keeps_refl [.thr, .ridge, .bw, .xing, .out, .wake, .pba, .wr] u
  unfold Machine.ringBox
  split
  · exact h.enterCrossing
  · exact h.ringTaken

theorem Keeps.ringHost {m : Mbox} {v : Word} {vc1 : Bool} (h : Keeps P s u) (hP : ∀ p ∈
    ([.thr, .ridge, .bw, .xing, .out, .wake, .pba, .wr] : List Piece), p ∈ P := by decide) : Keeps P s
    (Machine.ringHost m v vc1 u) := by
  refine h.via ?_ hP
  have h := keeps_refl [.thr, .ridge, .bw, .xing, .out, .wake, .pba, .wr] u
  unfold Machine.ringHost
  exact h.ringBox

theorem Keeps.doorbellWrite {m : Mbox} {v : Word} {eight : Bool} {vc1 : Bool} (h : Keeps P s u) (hP : ∀ p ∈
    ([.thr, .ridge, .bw, .xing, .out, .wake, .pba, .wr] : List Piece), p ∈ P := by decide) : Keeps P s
    (Machine.doorbellWrite m v eight vc1 u) := by
  refine h.via ?_ hP
  have h := keeps_refl [.thr, .ridge, .bw, .xing, .out, .wake, .pba, .wr] u
  unfold Machine.doorbellWrite
  split
  · exact h.ringHost
  · exact h.updBox

theorem Keeps.releaseFreeze {count : BitVec 8} (h : Keeps P s u) (hP : ∀ p ∈
    ([.queue, .led, .inst, .ridge, .bw, .xing, .out, .fresh, .pw, .ep, .pba] : List Piece), p ∈ P := by decide)
    : Keeps P s (Machine.releaseFreeze count u) := by
  refine h.via ?_ hP
  have h := keeps_refl [.queue, .led, .inst, .ridge, .bw, .xing, .out, .fresh, .pw, .ep, .pba] u
  unfold Machine.releaseFreeze
  dsimp only
  split
  · exact h
  · split
    · exact h.updEp.pumpEndpoint.deliverAll.noticeMsg
    · exact h.updEp.pumpEndpoint.deliverAll

theorem Keeps.writeEpNotify {v : Word} {m : Word} (h : Keeps P s u) (hP : ∀ p ∈ ([.ep] : List Piece), p ∈ P
    := by decide) : Keeps P s (Machine.writeEpNotify v m u) := by
  refine h.via ?_ hP
  have h := keeps_refl [.ep] u
  unfold Machine.writeEpNotify
  dsimp only
  exact h.updEp

theorem Keeps.sharedWrite {o : ℕ} {v : Word} {m : Word} (h : Keeps P s u) (hP : ∀ p ∈
    ([.queue, .led, .inst, .ridge, .bw, .xing, .out, .fresh, .pw, .ep, .pba, .log] : List Piece), p ∈ P := by decide)
    : Keeps P s (Machine.sharedWrite o v m u) := by
  refine h.via ?_ hP
  have h := keeps_refl [.queue, .led, .inst, .ridge, .bw, .xing, .out, .fresh, .pw, .ep, .pba, .log] u
  unfold Machine.sharedWrite
  dsimp only
  split
  · split
    · exact h.updDie
    · exact h
  · split
    · exact h.writeEpNotify
    · split
      · split
        · refine Keeps.releaseFreeze ?_
          split
          · exact h.freeze
          · exact h
        · split
          · exact h.freeze
          · exact h
      · exact h

theorem Keeps.writeMsix {i : ℕ} {v : Word} {m : Word} (h : Keeps P s u) (hP : ∀ p ∈
    ([.ridge, .bw, .xing, .out, .ep, .pba] : List Piece), p ∈ P := by decide) : Keeps P s (Machine.writeMsix i v m u)
    := by
  refine h.via ?_ hP
  have h := keeps_refl [.ridge, .bw, .xing, .out, .ep, .pba] u
  unfold Machine.writeMsix
  dsimp only
  exact h.updEp.flushMsi

theorem Keeps.hostRegWrite {o : ℕ} {v : Word} {m : Word} (h : Keeps P s u) (hP : ∀ p ∈
    ([.queue, .led, .inst, .ridge, .bw, .xing, .out, .fresh, .pw, .ep, .pba, .log] : List Piece), p ∈ P := by decide)
    : Keeps P s (Machine.hostRegWrite o v m u) := by
  refine h.via ?_ hP
  have h := keeps_refl [.queue, .led, .inst, .ridge, .bw, .xing, .out, .fresh, .pw, .ep, .pba, .log] u
  unfold Machine.hostRegWrite
  split
  · exact h.writeMsix
  · exact h.sharedWrite

theorem Keeps.acceptItem {q : Fin 1024} {item : List Byte} (h : Keeps P s u) (hP : ∀ p ∈ ([.queue, .led]
    : List Piece), p ∈ P := by decide) : Keeps P s (Machine.acceptItem q item u) := by
  refine h.via ?_ hP
  have h := keeps_refl [.queue, .led] u
  unfold Machine.acceptItem
  dsimp only
  split
  · exact h
  · exact h.updEntry.updQueue

theorem Keeps.refuseIngress {q : ℕ} {reason : BitVec 4} {value : BitVec 32} (h : Keeps P s u) (hP : ∀ p ∈ ([.queue, .ep]
    : List Piece), p ∈ P := by decide) : Keeps P s (Machine.refuseIngress q reason value u) := by
  refine h.via ?_ hP
  have h := keeps_refl [.queue, .ep] u
  unfold Machine.refuseIngress
  dsimp only
  split
  · exact h.updQueue.updEp
  · exact h.updQueue

theorem Keeps.inlineQueue {q : Fin 1024} {i : ℕ} {v : BitVec 512} {whole : Bool} {frozen : Bool} (h : Keeps P s u) (hP
    : ∀ p ∈ ([.queue, .led, .ep] : List Piece), p ∈ P := by decide) : Keeps P s
    (Machine.inlineQueue q i v whole frozen u) := by
  refine h.via ?_ hP
  have h := keeps_refl [.queue, .led, .ep] u
  unfold Machine.inlineQueue
  dsimp only
  split
  · exact h.refuseIngress
  · exact h.acceptItem

theorem Keeps.pageWrite {i : Fin 256} {slot : ℕ} {vc1 : Bool} {act : Fin 1024 → State → State} (h : Keeps P s u) (hact
    : ∀ a0 x, Keeps P s x → Keeps P s (act a0 x)) (hP : ∀ p ∈ ([.inst] : List Piece), p ∈ P := by decide) : Keeps P s
    (Machine.pageWrite i slot vc1 act u) := by
  unfold Machine.pageWrite
  extract_lets q class0
  refine Keeps.ite (h.updInst hP) ?_
  clear_value q
  cases q with
  | none => exact h.updInst hP
  | some k => exact hact _ _ h

theorem Keeps.resetInst {i : ℕ} (h : Keeps P s u) (hP : ∀ p ∈ ([.time, .queue, .led, .inst, .pw, .ep]
    : List Piece), p ∈ P := by decide) : Keeps P s (Machine.resetInst i u) := by
  refine h.via ?_ hP
  have h := keeps_refl [.time, .queue, .led, .inst, .pw, .ep] u
  unfold Machine.resetInst
  dsimp only
  split
  · exact h
  · refine Keeps.afterReset ?_
    refine Keeps.updInst ?_
    refine Keeps.each h.frame fun _ _ hx => ?_
    split
    · exact hx.endItem
    · exact hx

theorem Keeps.acceptItems {q : Fin 1024} {n : ℕ} (h : Keeps P s u) (hP : ∀ p ∈ ([.queue, .led] : List Piece), p ∈ P
    := by decide) : Keeps P s (Machine.acceptItems q n u) := by
  refine h.via ?_ hP
  clear h
  induction n generalizing u with
  | zero => exact keeps_refl _ u
  | succ n ih => exact keeps_trans (keeps_refl _ u).acceptItem ih

theorem Keeps.ringQueue {q : Fin 1024} {i : ℕ} {v : Word} {whole : Bool} {frozen : Bool} (h : Keeps P s u) (hP : ∀ p ∈
    ([.queue, .led, .ep] : List Piece), p ∈ P := by decide) : Keeps P s (Machine.ringQueue q i v whole frozen u) := by
  refine h.via ?_ hP
  have h := keeps_refl [.queue, .led, .ep] u
  unfold Machine.ringQueue
  dsimp only
  split
  · exact h.refuseIngress
  · exact h.acceptItems

theorem Keeps.writeBoxPage {m : Mbox} {off : ℕ} {data : List Byte} (h : Keeps P s u) (hP : ∀ p ∈ ([.wr]
    : List Piece), p ∈ P := by decide) : Keeps P s (Machine.writeBoxPage m off data u) := by
  refine h.via ?_ hP
  have h := keeps_refl [.wr] u
  unfold Machine.writeBoxPage
  split <;> exact h.updBox

theorem Keeps.pieceWrite {o : ℕ} {l : List Byte} {whole : ℕ} {vc1 : Bool} {frozen : Bool} (h : Keeps P s u) (hP : ∀ p ∈
    ([.time, .thr, .queue, .led, .inst, .ridge, .bw, .xing, .out, .fresh, .pw, .wake, .ep, .pba, .wr, .log]
    : List Piece), p ∈ P := by decide) : Keeps P s (Machine.pieceWrite o l whole vc1 frozen u) := by
  refine h.via ?_ hP
  have h := keeps_refl [.time, .thr, .queue, .led, .inst, .ridge, .bw, .xing, .out, .fresh, .pw, .wake, .ep, .pba, .wr, .log] u
  unfold Machine.pieceWrite
  dsimp only
  split
  · exact h.countMisuse
  · split
    · split
      · exact h.writeBoxPage
      · split
        · exact h.doorbellWrite
        · split
          · exact h
          · split
            · exact h
            · exact h.hostRegWrite
    · split
      · exact h
      · split
        · split
          · exact Keeps.each h fun _ _ hx => hx.pageWrite (fun _ _ hx1 => hx1.ringQueue)
          · split
            · exact h.pageWrite (fun _ _ hx => hx.inlineQueue)
            · split
              · exact h.resetInst
              · exact h
        · exact h

theorem Keeps.windowStore {o : ℕ} {l : List Byte} {vc1 : Bool} {frozen : Bool} (h : Keeps P s u) (hP : ∀ p ∈
    ([.time, .thr, .queue, .led, .inst, .ridge, .bw, .xing, .out, .fresh, .pw, .wake, .ep, .pba, .wr, .log]
    : List Piece), p ∈ P := by decide) : Keeps P s (Machine.windowStore o l vc1 frozen u) := by
  refine h.via ?_ hP
  have h := keeps_refl [.time, .thr, .queue, .led, .inst, .ridge, .bw, .xing, .out, .fresh, .pw, .wake, .ep, .pba, .wr, .log] u
  unfold Machine.windowStore
  exact Keeps.each h fun _ _ hx => hx.pieceWrite

theorem Keeps.takeAck {x : Port} {ack : BitVec 9} (h : Keeps P s u) (hP : ∀ p ∈ ([.ridge] : List Piece), p ∈ P
    := by decide) : Keeps P s (Machine.takeAck x ack u) := by
  refine h.via ?_ hP
  have h := keeps_refl [.ridge] u
  unfold Machine.takeAck
  dsimp only
  split
  · exact h
  · exact h.updPort

theorem Keeps.takeCredit {x : Port} {vc : BitVec 4} {cred : BitVec 4} (h : Keeps P s u) (hP : ∀ p ∈ ([.ridge]
    : List Piece), p ∈ P := by decide) : Keeps P s (Machine.takeCredit x vc cred u) := by
  refine h.via ?_ hP
  have h := keeps_refl [.ridge] u
  unfold Machine.takeCredit
  split
  · exact h
  · exact h.updPort

theorem Keeps.tryHoldDone {x : Port} (h : Keeps P s u) (hP : ∀ p ∈ ([.ridge, .bw, .xing, .out] : List Piece), p ∈ P
    := by decide) : Keeps P s (Machine.tryHoldDone x u) := by
  refine h.via ?_ hP
  have h := keeps_refl [.ridge, .bw, .xing, .out] u
  unfold Machine.tryHoldDone
  dsimp only
  split
  · exact h.updPort.sendControl
  · exact h

theorem Keeps.takeHeader {f : Flit} (h : Keeps P s u) (hP : ∀ p ∈ ([.ridge, .bw, .xing, .out] : List Piece), p ∈ P
    := by decide) : Keeps P s (Machine.takeHeader f u) := by
  refine h.via ?_ hP
  have h := keeps_refl [.ridge, .bw, .xing, .out] u
  unfold Machine.takeHeader
  split
  · exact h
  · exact h.takeAck.takeCredit.tryHoldDone.pumpPort

theorem Keeps.unreachableTo {op : BitVec 6} {src : BitVec 16} {cls : BitVec 2} {tag : BitVec 16} {addr : BitVec 64} (h
    : Keeps P s u) (hP : ∀ p ∈ ([.ridge, .bw, .xing, .out] : List Piece), p ∈ P := by decide) : Keeps P s
    (Machine.unreachableTo op src cls tag addr u) := by
  refine h.via ?_ hP
  have h := keeps_refl [.ridge, .bw, .xing, .out] u
  unfold Machine.unreachableTo
  dsimp only
  split
  · exact h.updRidge
  · exact h.countUnreach.sendRsp

theorem Keeps.sendWb {b : Fin 40} {h' : Fin 40} {w : WbE} (h : Keeps P s u) (hP : ∀ p ∈ ([.net] : List Piece), p ∈ P
    := by decide) : Keeps P s (Machine.sendWb b h' w u) := by
  refine h.via ?_ hP
  have h := keeps_refl [.net] u
  unfold Machine.sendWb
  dsimp only
  exact h.send

theorem Keeps.pumpWb {b : Fin 40} (h : Keeps P s u) (hP : ∀ p ∈ ([.bay, .net] : List Piece), p ∈ P := by decide)
    : Keeps P s (Machine.pumpWb b u) := by
  refine h.via ?_ hP
  have h := keeps_refl [.bay, .net] u
  unfold Machine.pumpWb
  refine Keeps.each h fun _ _ hx => ?_
  split
  · exact hx
  · split
    · exact hx
    · exact hx.updBay.sendWb

theorem Keeps.absorbCrossing {h' : Fin 40} {b : ℕ} {l : BitVec 42} (h : Keeps P s u) (hP : ∀ p ∈
    ([.bay, .slice, .net, .old] : List Piece), p ∈ P := by decide) : Keeps P s (Machine.absorbCrossing h' b l u) := by
  refine h.via ?_ hP
  have h := keeps_refl [.bay, .slice, .net, .old] u
  unfold Machine.absorbCrossing
  dsimp only
  split
  · exact h
  · split
    · refine Keeps.pumpWb ?_
      split
      · exact ((h.frame.updSlice).updBay).llcFill
      · exact (h.frame.updSlice).updBay
    · split
      · exact ((h.frame.updSlice).updBay).llcFill
      · exact (h.frame.updSlice).updBay

theorem Keeps.dropCopies {l : BitVec 42} (h : Keeps P s u) (hP : ∀ p ∈ ([.core, .bay, .slice] : List Piece), p ∈ P
    := by decide) : Keeps P s (Machine.dropCopies l u) := by
  refine h.via ?_ hP
  intro p hp
  cases p <;> simp_all [Piece.same, Machine.dropCopies]

end Sys2Proof.Machine
end

section
/-! The links of the ridge: what no transmission changes (R392 to R397, R401). -/
namespace Sys2Proof.Machine
set_option Elab.async false
variable {s u v : State} {P : List Piece}

/-- A port without what sending, acknowledging and crediting change. -/
def linkOf (p : PortSt) : PortSt :=
  { p with txSeq := 0, replay := [], stuck := 0, lastAck := 0, sinceSkip := 0, credits := [], waiting := [], owe := []
           slots := [], served := [], flits := 0 }

/-- The ridge without its ports, its requests and the counts of what is lost. -/
def wiringOf (r : Ridge) : Ridge :=
  { r with ports := [], reqs := [], held := [], nextTag := 0, unreach := 0, discarded := 0, issued := [], atHead := [] }

/-- The power state without the device mode as displayed, the dispatcher's votes, the dies and the events held. -/
def standingOf (p : Power) : Power :=
  { p with mode := 0, modeChanges := 0, dvotes := 0, dies := [], wake := [], routerHeld := [] }

/-- The links stand as before: only transmission, requests and counts went on. -/
structure Wired (s u : State) : Prop where
  port : ∀ i, linkOf (Machine.port u i) = linkOf (Machine.port s i)
  ridge : wiringOf u.ridge = wiringOf s.ridge
  pw : standingOf u.pw = standingOf s.pw

theorem wired_refl (s : State) : Wired s s := ⟨fun _ => rfl, rfl, rfl⟩

theorem Wired.trans (h : Wired s u) (k : Wired u v) : Wired s v :=
  ⟨fun i => (k.port i).trans (h.port i), k.ridge.trans h.ridge, k.pw.trans h.pw⟩

theorem Wired.keeps (h : Wired s u) (k : Keeps P u v) (hr : Piece.ridge ∉ P := by decide) (hp : Piece.pw ∉ P := by decide) :
    Wired s v := by
  have er : v.ridge = u.ridge := k .ridge hr
  refine h.trans ⟨fun i => ?_, by rw [er], ?_⟩
  · unfold Machine.port
    rw [er]
  · have e : { v.pw with wake := [], routerHeld := [] } = { u.pw with wake := [], routerHeld := [] } := k .pw hp
    have e' := congrArg standingOf e
    exact e'

theorem Wired.each {α : Type} {l : List α} {f : α → State → State} (h : Wired s u) (hf : ∀ a x, Wired s x → Wired s (f a x)) :
    Wired s (Machine.forEach l f u) :=
  forEach_keeps (Wired s) f l u h (fun a _ x hx => hf a x hx)

theorem Wired.ite {c : Prop} [Decidable c] {a b : State} (ha : Wired s a) (hb : Wired s b) : Wired s (if c then a else b) := by
  split <;> assumption

/-- The changes of this device's own ledger of requests keep the wiring. -/
theorem Wired.updRidge {f : Ridge → Ridge} (h : Wired s u)
    (hf : ∀ r, wiringOf (f r) = wiringOf r ∧ (f r).ports = r.ports := by exact fun _ => ⟨rfl, rfl⟩) :
    Wired s (Machine.updRidge f u) := by
  obtain ⟨hw, hports⟩ := hf u.ridge
  refine h.trans ⟨fun i => ?_, hw, rfl⟩
  show linkOf (look PortSt.reset (f u.ridge).ports i) = _
  rw [hports]
  rfl

theorem Wired.updPort {x : Nat} {f : PortSt → PortSt} (h : Wired s u) (hf : ∀ p, linkOf (f p) = linkOf p := by exact fun _ => rfl) :
    Wired s (Machine.updPort x f u) := by
  refine h.trans ⟨fun i => ?_, rfl, rfl⟩
  rw [port_updPort]
  split
  · next hi => rw [hf, hi]
  · rfl

theorem Wired.updPw {f : Power → Power} (h : Wired s u) (hf : ∀ p, standingOf (f p) = standingOf p := by exact fun _ => rfl) :
    Wired s (Machine.updPw f u) := h.trans ⟨fun _ => rfl, rfl, hf u.pw⟩

theorem Wired.emitFlit {x : Port} {f : SentFlit} (h : Wired s u) : Wired s (Machine.emitFlit x f u) := by
  unfold Machine.emitFlit
  dsimp only
  split
  · exact h.keeps (keeps_refl [.xing] u).enterCrossing
  · exact h.updPort.keeps (keeps_refl [.bw, .out] _).emit

theorem Wired.sendControl {x : Port} {b : FlitBody} (h : Wired s u) : Wired s (Machine.sendControl x b u) := h.emitFlit

theorem Wired.sendIdle {x : Port} (h : Wired s u) : Wired s (Machine.sendIdle x u) := by
  unfold Machine.sendIdle
  exact Wired.ite h.sendControl h

theorem Wired.freeBuffer {from' : Option (Port × BitVec 4)} {n : ℕ} (h : Wired s u) : Wired s (Machine.freeBuffer from' n u) := by
  unfold Machine.freeBuffer
  split
  · exact h
  · exact h.updPort.sendIdle

theorem Wired.sendOne {x : Port} {vc : BitVec 4} {b : FlitBody} (h : Wired s u) : Wired s (Machine.sendOne x vc b u) := by
  unfold Machine.sendOne
  exact h.updPort.emitFlit

theorem Wired.countBytes {p n : ℕ} (h : Wired s u) : Wired s (Machine.countBytes p n u) :=
  h.keeps (keeps_refl [.bw] u).countBytes

theorem Wired.sendSequenced {x : Port} {vc : BitVec 4} {b : FlitBody} (h : Wired s u) :
    Wired s (Machine.sendSequenced x vc b u) := by
  unfold Machine.sendSequenced
  exact Wired.each (Wired.ite h.countBytes h) fun _ _ hx => hx.sendOne

theorem linkOf_takeSlot (w : SentFlit × Option (Port × BitVec 4)) (p : PortSt) : linkOf (takeSlot w p) = linkOf p := by
  unfold takeSlot
  dsimp only
  split <;> rfl

theorem Wired.pumpSlots {x : Port} {n : ℕ} (h : Wired s u) : Wired s (Machine.pumpSlots x n u) := by
  induction n generalizing u with
  | zero => exact h
  | succ n ih =>
    unfold Machine.pumpSlots
    split
    · exact h
    · exact ih (h.updPort (linkOf_takeSlot _)).sendSequenced.freeBuffer

theorem Wired.pumpPort {x : Port} (h : Wired s u) : Wired s (Machine.pumpPort x u) := by
  unfold Machine.pumpPort
  exact Wired.ite h h.pumpSlots

theorem Wired.portSend {x : Port} {vc : BitVec 4} {b : FlitBody} {from' : Option (Port × BitVec 4)} (h : Wired s u) :
    Wired s (Machine.portSend x vc b from' u) := by
  unfold Machine.portSend
  exact h.updPort.pumpPort

theorem Wired.sendRsp {cls : BitVec 2} {b : FlitBody} (h : Wired s u) : Wired s (Machine.sendRsp cls b u) := by
  unfold Machine.sendRsp
  split
  · exact h.portSend
  · exact h.updRidge

theorem Wired.sendReq {cls : BitVec 2} {b : FlitBody} {q : RReq} (h : Wired s u) (e : Machine.sendReq cls b q u = some v) :
    Wired s v := by
  unfold Machine.sendReq at e
  dsimp only at e
  split at e
  · split at e
    · cases e
    · cases e
      exact Wired.ite h.updRidge.updRidge h.updRidge.portSend
  · cases e

theorem Wired.takeTag (h : Wired s u) : Wired s (Machine.takeTag u).2 :=
  h.updRidge (f := fun r => { r with nextTag := r.nextTag + 1 })

theorem Wired.countUnreach (h : Wired s u) : Wired s (Machine.countUnreach u) := h.updRidge

theorem Wired.pumpHeld {n : ℕ} (h : Wired s u) : Wired s (Machine.pumpHeld n u) := by
  induction n generalizing u with
  | zero => exact h
  | succ n ih =>
    unfold Machine.pumpHeld
    split
    · exact h
    · exact ih h.updRidge.portSend

theorem Wired.closeReq {p : RReq → Bool} (h : Wired s u) : Wired s (Machine.closeReq p u) := by
  unfold Machine.closeReq
  exact h.updRidge.pumpHeld

/-! ## Messages signalled and records -/

theorem Wired.pendMsi {n : ℕ} {urgent : Bool} (h : Wired s u) : Wired s (Machine.pendMsi n urgent u) :=
  h.keeps (keeps_refl [.pba] u).pendMsi

theorem Wired.emit {o : Out} (h : Wired s u) : Wired s (Machine.emit o u) := h.keeps (keeps_refl [.bw, .out] u).emit

theorem Wired.msiHere {n : ℕ} {urgent : Bool} (h : Wired s u) : Wired s (Machine.msiHere n urgent u) :=
  h.keeps (keeps_refl [.bw, .out, .pba] u).msiHere

theorem Wired.msiThere {d : BitVec 16} {n : ℕ} {urgent : Bool} (h : Wired s u) : Wired s (Machine.msiThere d n urgent u) := by
  unfold Machine.msiThere
  dsimp only
  split
  · exact h.pendMsi
  · split
    · exact h.takeTag.sendReq ‹_›
    · exact h.pendMsi

theorem Wired.sendMsi {n : ℕ} {urgent : Bool} (h : Wired s u) : Wired s (Machine.sendMsi n urgent u) := by
  unfold Machine.sendMsi
  split
  · exact h.msiHere
  · exact h.msiThere
  · exact h.pendMsi

theorem Wired.noticeMsg (h : Wired s u) : Wired s (Machine.noticeMsg u) := by
  unfold Machine.noticeMsg
  exact Wired.ite h.sendMsi h

theorem Wired.flushMsi (h : Wired s u) : Wired s (Machine.flushMsi u) := by
  unfold Machine.flushMsi
  dsimp only
  split
  · exact h
  · refine Wired.each h fun _ y hx => Wired.ite hx ?_
    exact (hx.keeps (keeps_refl [.pba] y).updPba).sendMsi

theorem Wired.signalBox {m : Mbox} {status : BitVec 8} {seq : BitVec 16} {rlen : ℕ} (h : Wired s u) :
    Wired s (Machine.signalBox m status seq rlen u) := by
  unfold Machine.signalBox
  dsimp only
  split
  · exact Wired.ite h.sendMsi h
  · exact Wired.ite h.emit h
  · exact Wired.ite h.emit h
  · split
    · exact h
    · split
      · exact h
      · split
        · exact h
        · exact Wired.ite (h.keeps (keeps_refl [.thr, .wake] u).acceptEvent) (h.keeps (keeps_refl [.thr] u).updThr)

theorem Wired.finishBox {m : Mbox} {status : BitVec 8} {detail : BitVec 16} {payload : List Byte} {seq : BitVec 16}
    {taken : Word} (h : Wired s u) : Wired s (Machine.finishBox m status detail payload seq taken u) := by
  unfold Machine.finishBox
  exact (h.keeps (keeps_refl [.wr] u).updBox).signalBox

theorem Wired.sendRec {e : Fin 65536} {d : BitVec 16} (h : Wired s u) : Wired s (Machine.sendRec e d u) := by
  unfold Machine.sendRec
  dsimp only
  split
  · exact h
  · exact (h.sendReq ‹_›).keeps (keeps_refl [.led] _).updEntry

theorem Wired.deliverThere {e : Fin 65536} {d : BitVec 16} (h : Wired s u) : Wired s (Machine.deliverThere e d u) := by
  unfold Machine.deliverThere
  refine Wired.ite h.sendRec (Wired.each h fun _ _ hx => ?_)
  dsimp only
  split
  · exact hx
  · exact (hx.takeTag.sendReq ‹_›).keeps (keeps_refl [.led] _).updEntry

theorem Wired.deliverRecord {e : Fin 65536} (h : Wired s u) : Wired s (Machine.deliverRecord e u) := by
  unfold Machine.deliverRecord
  dsimp only
  split
  · exact h
  · split
    · exact h
    · refine Wired.ite ?_ h
      exact h.keeps (keeps_refl [.queue, .led, .inst, .bw, .out, .fresh, .pba] u).deliverHere
    · exact h.deliverThere

theorem Wired.deliverQueue {q : ℕ} (h : Wired s u) : Wired s (Machine.deliverQueue q u) := by
  unfold Machine.deliverQueue
  refine Wired.each h fun _ _ hx => ?_
  split
  · exact hx.deliverRecord
  · exact hx

theorem Wired.deliverAll (h : Wired s u) : Wired s (Machine.deliverAll u) := by
  unfold Machine.deliverAll
  exact Wired.each h fun _ _ hx => hx.deliverQueue

theorem Wired.headAnswer {j : HeadJob} {op : BitVec 6} {status : BitVec 2} (h : Wired s u) :
    Wired s (Machine.headAnswer j op status u) := h.sendRsp

theorem Wired.headJob {j : HeadJob} (h : Wired s u) : Wired s (Machine.headJob j u).2 := by
  unfold Machine.headJob
  dsimp only
  split
  · split
    · exact h.headAnswer
    · split
      · exact h
      · exact h.emit.headAnswer
  · split
    · exact h.headAnswer
    · split
      · exact h.headAnswer
      · split
        · exact h
        · refine Wired.headAnswer (Wired.updRidge ?_)
          split
          · exact h.emit.msiHere
          · exact h.emit

theorem Wired.pumpHead (h : Wired s u) : Wired s (Machine.pumpHead u) := by
  unfold Machine.pumpHead
  dsimp only
  refine Wired.each h.updRidge fun _ _ hx => ?_
  split
  · exact hx.headJob
  · exact hx.updRidge

theorem Wired.dispVote {t : Thr} {b : Bool} (h : Wired s u) : Wired s (Machine.dispVote t b u) := by
  unfold Machine.dispVote
  split
  · exact h.updPw
  · exact h

theorem Wired.endItem {e : ℕ} {fail : Bool} {cause : BitVec 8} {detail : BitVec 8} (h : Wired s u) :
    Wired s (Machine.endItem e fail cause detail u) := by
  have ended (f : Entry → Entry) : Wired s (Machine.abandonReads e (Machine.updEntry e f u)) :=
    h.keeps (keeps_refl [.led, .ep] u).updEntry.abandonReads
  unfold Machine.endItem
  dsimp only
  split
  · exact h
  · split
    · exact (ended _).dispVote
    · exact ended _

theorem Wired.issueRead {r : ReadRec} (h : Wired s u) : Wired s (Machine.issueRead r u) := by
  unfold Machine.issueRead
  dsimp only
  split
  · exact h
  · split
    · exact h
    · split
      · exact h
      · exact h.keeps (keeps_refl [.ep, .bw, .out] u).updRead.emit
  · split
    · exact h.countUnreach.endItem
    · exact (h.takeTag.sendReq ‹_›).keeps (keeps_refl [.ep] _).updRead

theorem Wired.pumpReads (h : Wired s u) : Wired s (Machine.pumpReads u) := by
  unfold Machine.pumpReads
  dsimp only
  exact Wired.each (h.keeps (keeps_refl [.ep] u).updEp) fun _ _ hx => Wired.ite hx.issueRead hx

theorem Wired.pumpEndpoint (h : Wired s u) : Wired s (Machine.pumpEndpoint u) := by
  unfold Machine.pumpEndpoint
  exact h.flushMsi.pumpHead.pumpReads

theorem Wired.notifyMode (h : Wired s u) : Wired s (Machine.notifyMode u) := by
  unfold Machine.notifyMode
  exact Wired.ite h (h.keeps (keeps_refl [.ep] u).updEp).noticeMsg

theorem Wired.settleMode (h : Wired s u) : Wired s (Machine.settleMode u) := by
  unfold Machine.settleMode
  dsimp only
  split
  · exact h.updPw
  · refine Wired.notifyMode (Wired.each ?_ fun _ x hx => hx.keeps (keeps_refl [.thr, .wake] x).partEvent)
    exact h.updPw.keeps (keeps_refl [.wr, .log] _).updWr.wrightEvent

/-! ## Writes at this device's endpoint -/

theorem Wired.ringNow {m : Mbox} {v : Word} (h : Wired s u) : Wired s (Machine.ringNow m v u) := by
  unfold Machine.ringNow
  extract_lets b ring w refuseAs pw w'
  have k : Wired s w := h.keeps (keeps_refl [.wr] u).updBox
  have refused (x : BitVec 8) : Wired s (refuseAs x) := k.finishBox
  have k' : Wired s w' := k.keeps (keeps_refl [.wr] w).updBox
  exact Wired.ite (k.keeps (keeps_refl [.wr] w).updBox) (Wired.ite (refused _) (Wired.ite (refused _) (Wired.ite (refused _)
    (Wired.ite k.signalBox (Wired.ite (refused _) (Wired.ite k' (k'.keeps (keeps_refl [.wr] w').updWr)))))))

theorem Wired.ringTaken {m : Mbox} {v : Word} {refuse : Bool} (h : Wired s u) : Wired s (Machine.ringTaken m v refuse u) := by
  unfold Machine.ringTaken
  dsimp only
  exact Wired.ite (h.ringNow.keeps (keeps_refl [.wr] _).updBox) h.ringNow

theorem Wired.ringBox {m : Mbox} {v : Word} {refuse : Bool} (h : Wired s u) : Wired s (Machine.ringBox m v refuse u) := by
  unfold Machine.ringBox
  exact Wired.ite (h.keeps (keeps_refl [.xing] u).enterCrossing) h.ringTaken

theorem Wired.doorbellWrite {m : Mbox} {v : Word} {eight : Bool} {vc1 : Bool} (h : Wired s u) :
    Wired s (Machine.doorbellWrite m v eight vc1 u) := by
  unfold Machine.doorbellWrite
  exact Wired.ite h.ringBox (h.keeps (keeps_refl [.wr] u).updBox)

theorem Wired.releaseFreeze {count : BitVec 8} (h : Wired s u) : Wired s (Machine.releaseFreeze count u) := by
  unfold Machine.releaseFreeze
  dsimp only
  split
  · exact h
  · split
    · exact (h.keeps (keeps_refl [.ep] u).updEp).pumpEndpoint.deliverAll.noticeMsg
    · exact (h.keeps (keeps_refl [.ep] u).updEp).pumpEndpoint.deliverAll

theorem wired_updDie (d : Nat) (f : Die → Die) : Wired s (Machine.updDie d f s) := ⟨fun _ => rfl, rfl, rfl⟩

theorem Wired.sharedWrite {o : ℕ} {w m : Word} (h : Wired s u) : Wired s (Machine.sharedWrite o w m u) := by
  have frozen (c : BitVec 8) : Wired s (Machine.freeze c u) := h.keeps (keeps_refl [.bw, .xing, .out, .fresh, .ep, .log] u).freeze
  unfold Machine.sharedWrite
  dsimp only
  refine Wired.ite (Wired.ite (h.trans (wired_updDie _ _)) h) (Wired.ite ?_ (Wired.ite ?_ h))
  · exact h.keeps (keeps_refl [.ep] u).writeEpNotify
  · exact Wired.ite (Wired.ite (frozen _) h).releaseFreeze (Wired.ite (frozen _) h)

theorem Wired.hostRegWrite {o : ℕ} {w m : Word} (h : Wired s u) : Wired s (Machine.hostRegWrite o w m u) := by
  unfold Machine.hostRegWrite
  refine Wired.ite ?_ h.sharedWrite
  exact (h.keeps (keeps_refl [.ep] u).updEp).flushMsi

theorem Wired.resetInst {i : ℕ} (h : Wired s u) : Wired s (Machine.resetInst i u) := by
  unfold Machine.resetInst
  dsimp only
  refine Wired.ite h ?_
  refine Wired.keeps ?_ (keeps_refl [.time, .inst] _).updInst.afterReset
  refine Wired.each (h.keeps (keeps_refl [.queue] u).frame) fun _ _ hx => ?_
  exact Wired.ite hx.endItem hx

theorem Wired.pageWrite {i : Fin 256} {slot : ℕ} {vc1 : Bool} {act : Fin 1024 → State → State} (h : Wired s u)
    (hact : ∀ k x, Wired s x → Wired s (act k x)) : Wired s (Machine.pageWrite i slot vc1 act u) := by
  unfold Machine.pageWrite
  extract_lets q class0
  refine Wired.ite (h.keeps (keeps_refl [.inst] u).updInst) ?_
  clear_value q
  cases q with
  | none => exact h.keeps (keeps_refl [.inst] u).updInst
  | some k => exact hact _ _ h

theorem Wired.pieceWrite {o : ℕ} {l : List Byte} {whole : ℕ} {vc1 : Bool} {frozen : Bool} (h : Wired s u) :
    Wired s (Machine.pieceWrite o l whole vc1 frozen u) := by
  unfold Machine.pieceWrite
  dsimp only
  split
  · exact h.keeps (keeps_refl [.inst, .ep] u).countMisuse
  · split
    · split
      · exact h.keeps (keeps_refl [.wr] u).writeBoxPage
      · exact Wired.ite h.doorbellWrite (Wired.ite h (Wired.ite h h.hostRegWrite))
    · split
      · exact h
      · split
        · split
          · exact Wired.each h fun _ _ hx => hx.pageWrite fun _ y hy => hy.keeps (keeps_refl [.queue, .led, .ep] y).ringQueue
          · split
            · exact h.pageWrite fun _ y hy => hy.keeps (keeps_refl [.queue, .led, .ep] y).inlineQueue
            · exact Wired.ite h.resetInst h
        · exact h

theorem Wired.windowStore {o : ℕ} {l : List Byte} {vc1 : Bool} {frozen : Bool} (h : Wired s u) :
    Wired s (Machine.windowStore o l vc1 frozen u) := by
  unfold Machine.windowStore
  exact Wired.each h fun _ _ hx => hx.pieceWrite

/-! ## What the wiring settles -/

theorem Wired.linked (h : Wired s u) {α : Type} (i : Nat) (f : PortSt → α) (hf : ∀ p, f (linkOf p) = f p := by exact fun _ => rfl) :
    f (Machine.port u i) = f (Machine.port s i) := by
  rw [← hf, h.port, hf]

theorem Wired.wiring (h : Wired s u) {α : Type} (f : Ridge → α) (hf : ∀ r, f (wiringOf r) = f r := by exact fun _ => rfl) :
    f u.ridge = f s.ridge := by
  rw [← hf, h.ridge, hf]

theorem Wired.standing (h : Wired s u) {α : Type} (f : Power → α) (hf : ∀ p, f (standingOf p) = f p := by exact fun _ => rfl) :
    f u.pw = f s.pw := by
  rw [← hf, h.pw, hf]

theorem Wired.pairOf_eq (h : Wired s u) (ns : Bool) : Machine.pairOf u ns = Machine.pairOf s ns := by
  unfold Machine.pairOf
  rw [h.wiring Ridge.ns, h.wiring Ridge.we]

theorem Wired.portUp_eq (h : Wired s u) (x : Port) : portUp u x = portUp s x := by
  unfold portUp
  rw [h.linked (portIx x) PortSt.st]

theorem Wired.myPos_eq (h : Wired s u) : myPos u = myPos s := h.standing (fun p => p.straps.ringPos.toNat)

theorem Wired.myFrame_eq (h : Wired s u) : myFrame u = myFrame s := h.wiring (fun r => r.frame.toNat)

theorem Wired.liveRing_eq (h : Wired s u) : liveRing u = liveRing s := by
  unfold liveRing
  rw [h.myPos_eq, h.wiring Ridge.live]

theorem Wired.deviceId_eq (h : Wired s u) : deviceId u = deviceId s := by
  unfold deviceId
  rw [h.wiring Ridge.frame, h.standing (fun p => p.straps.ringPos)]

theorem Wired.route_eq (h : Wired s u) (d : BitVec 16) : route u d = route s d := by
  have hring (tp : Nat) : ringWay u tp = ringWay s tp := by
    unfold ringWay eastWhole
    rw [h.myPos_eq, h.liveRing_eq, h.portUp_eq, h.portUp_eq, h.wiring Ridge.breaks]
  unfold route northDist
  simp only [h.myPos_eq, h.myFrame_eq, h.liveRing_eq, hring, h.portUp_eq, h.wiring Ridge.frames, h.wiring Ridge.nsEn,
    h.wiring Ridge.liveCol]

theorem Wired.clkRidge_eq (h : Wired s u) : u.pw.clkRidge = s.pw.clkRidge := h.standing Power.clkRidge

end Sys2Proof.Machine
end

section
/-! A message of this device's goes out on a port on which another waits; that one's receive buffer may be behind a stopped
clock, whose crossing then takes the credits that go back (R57, R396). -/
namespace Sys2Proof.Machine
set_option Elab.async false

/-- Ports W, E and N are up, N's clock is stopped, and a flit that came by N waits at E. -/
def waitsBehindStoppedClock : State :=
  let up := { PortSt.reset with st := 3 }
  { State.reset with
    ridge := { Ridge.reset with
      ports := [(0, up), (1, { up with waiting := [(⟨0, 0, .leaveReq 0⟩, some (.N, 0))] }), (2, up)], live := 3 }
    pw := { Power.reset with clkRidge := 4 } }

/-- A window read of device 1, on port W. -/
def readFrom1 : RMsg := ⟨⟨.W, 0, 0, 0, 0, 0⟩, 0, 1, 0, false, 0, 0, [], .whole⟩

/-- What the crossings hold after a command. -/
def crossingsAfter : Result → Bool
  | .next u => u.xing = []
  | _ => true

/-- Refutes O43: the denial of a window read lets a flit at the same output go that came by a port whose clock is stopped,
and the credit for it enters that port's crossing. -/
theorem not_ridgeServes : ¬ Obligations.RidgeServes := by
  intro h
  let s := waitsBehindStoppedClock
  have hcomes : Comes s readFrom1 := by unfold Comes QuietPort; decide +kernel
  obtain ⟨-, -, hdenied, -⟩ := h s readFrom1 .E hcomes (by decide +kernel)
  obtain ⟨u, hu, -, -, hkeeps⟩ := hdenied false (by decide +kernel)
  have hfull : crossingsAfter (exec (.wRd readFrom1) s) = false := by decide +kernel
  have hempty : u.xing = [] := hkeeps .xing (by decide)
  have hcross : decide (u.xing = []) = false := (congrArg crossingsAfter hu).symm.trans hfull
  exact absurd hempty (by simpa using hcross)

end Sys2Proof.Machine
end

section
/-! Counting an event, a retirement and an exception: what each leaves of its thread (R105, R112, R478 to R484). -/
namespace Sys2Proof.Machine
set_option Elab.async false
variable {s u v : State} {t : Thr} {P : List Piece}

/-! ## Counts -/

/-- The event state without what an event sent to the thread changes. -/
def quietEv (e : EvState) : EvState := { e with writing := [], ovf := 0, noq := 0, lostLanes := 0 }

/-- A thread without what the counting of an event changes: the counts themselves and the COUNTER event sent. -/
def tallyOf (th : Thread) : Thread :=
  { th with ev := quietEv th.ev, pmu := { th.pmu with freeze := false, ovf := 0, cnt := [] } }

/-- Nothing but counts and COUNTER events changed. -/
def Tallied (s u : State) : Prop := (∀ x, tallyOf (thr u x) = tallyOf (thr s x)) ∧ Keeps [.thr, .wake] s u

theorem tallied_refl (s : State) : Tallied s s := ⟨fun _ => rfl, keeps_refl _ s⟩

theorem Tallied.trans (h : Tallied s u) (k : Tallied u v) : Tallied s v := by
  obtain ⟨ht, hk⟩ := h
  obtain ⟨ht', hk'⟩ := k
  exact ⟨fun x => (ht' x).trans (ht x), keeps_trans hk hk'⟩

theorem Tallied.field (h : Tallied s u) {α : Type} (f : Thread → α) (x : Thr) (hf : ∀ th, f (tallyOf th) = f th := by exact fun _ => rfl) :
    f (thr u x) = f (thr s x) := by
  rw [← hf, h.1 x, hf]

theorem Tallied.keeps (h : Tallied s u) : Keeps [.thr, .wake] s u := h.2

theorem Tallied.each {α : Type} {l : List α} {f : α → State → State} (h : Tallied s u) (hf : ∀ a x, Tallied x (f a x)) :
    Tallied s (Machine.forEach l f u) :=
  forEach_keeps (Tallied s) f l u h (fun a _ x hx => hx.trans (hf a x))

theorem tallied_updThr (f : Thread → Thread) (hf : tallyOf (f (thr s t)) = tallyOf (thr s t)) : Tallied s (updThr t f s) := by
  refine ⟨fun x => ?_, (keeps_refl _ s).updThr⟩
  rw [thr_updThr]
  split
  · next hx => rw [hf, hx]
  · rfl

theorem tallied_placeEvent {r : EvRec} (hr : r.source ≠ 1) : Tallied s (placeEvent t r s) := by
  refine ⟨?_, (keeps_refl _ s).placeEvent⟩
  have counted (f : EvState → EvState) (hf : ∀ e, quietEv (f e) = quietEv e) :
      ∀ x, tallyOf (thr (updThr t (updEv f) s) x) = tallyOf (thr s x) := by
    refine (tallied_updThr (updEv f) ?_).1
    unfold tallyOf updEv
    dsimp only
    rw [hf]
  unfold placeEvent
  split
  · exact fun _ => rfl
  · split
    · exact fun _ => rfl
    · split
      · split
        · exact fun _ => rfl
        · exact counted _ fun _ => rfl
      · split
        · split
          · exact fun _ => rfl
          · exact counted _ fun _ => rfl
        · split
          · split
            · exact fun _ => rfl
            · exact counted _ fun _ => rfl
          · exact counted _ fun _ => rfl

theorem tallyOf_pmcAdd (n k : Nat) (th : Thread) : tallyOf (pmcAdd n k th).1 = tallyOf th := rfl

theorem tallyOf_pmcChain (fuel n : Nat) (th : Thread) (w : List Nat) : tallyOf (pmcChain fuel n th w).1 = tallyOf th := by
  induction fuel generalizing n th w with
  | zero => rfl
  | succ fuel ih =>
    unfold pmcChain
    dsimp only
    split
    · split
      · exact (ih _ _ _).trans (tallyOf_pmcAdd _ _ _)
      · exact tallyOf_pmcAdd _ _ _
    · rfl

theorem tallied_pmcWraps (ws : List Nat) : Tallied s (pmcWraps t ws s) := by
  refine (tallied_refl s).each fun n x => ?_
  have hfrozen (c : Prop) [Decidable c] :
      Tallied x (if c then updThr t (fun y => { y with pmu := { y.pmu with freeze := true } }) x else x) := by
    split
    · exact tallied_updThr _ rfl
    · exact tallied_refl x
  dsimp only
  split
  · exact (hfrozen _).trans (tallied_placeEvent (show (4 : BitVec 8) ≠ 1 by decide))
  · exact hfrozen _

theorem tallied_pmcCount (code k : Nat) (level : Bool) (sel : Option Bool) : Tallied s (pmcCount t code k level sel s) := by
  unfold pmcCount
  extract_lets th hits r
  refine Tallied.trans ?_ (tallied_pmcWraps _)
  have hr : tallyOf r.1 = tallyOf th := by
    have hfold (l : List Nat) (a : Thread × List Nat) (ha : tallyOf a.1 = tallyOf th) :
        tallyOf (l.foldl (fun (acc : Thread × List Nat) n =>
          let (th', wr) := pmcAdd n k acc.1
          if wr then (let (th2, w2) := pmcChain 5 n th' [n]; (th2, acc.2 ++ w2)) else (th', acc.2)) a).1 = tallyOf th := by
      induction l generalizing a with
      | nil => exact ha
      | cons n l ih =>
        refine ih _ ?_
        dsimp only
        split
        · exact (tallyOf_pmcChain _ _ _ _).trans ha
        · exact ha
    exact hfold hits (th, []) rfl
  clear_value r
  exact tallied_updThr (fun _ => r.1) hr

theorem tallied_countEvent (code : Nat) : Tallied s (countEvent t code s) := tallied_pmcCount _ _ _ _

theorem tallied_countUnconfirmed (code : Nat) : Tallied s (countUnconfirmed t code s) := tallied_pmcCount _ _ _ _

theorem tallied_countMany (code k : Nat) : Tallied s (countMany t code k s) := by
  unfold countMany
  split
  · exact tallied_refl s
  · exact tallied_pmcCount _ _ _ _

theorem tallied_countConfirmed (code k : Nat) : Tallied s (countConfirmed t code k s) := by
  unfold countConfirmed
  split
  · exact tallied_refl s
  · exact tallied_pmcCount _ _ _ _

theorem tallied_countHeld (code : Nat) : Tallied s (countHeld t code s) := by
  unfold countHeld
  split
  · exact tallied_countConfirmed _ _
  · exact tallied_pmcCount _ _ _ _

theorem Tallied.calm (h : Tallied s u) (x : Thr) : (thr u x).calm = (thr s x).calm := h.field Thread.calm x

/-! ## An instruction that stands alone -/

theorem makeOldest_alone (hun : (thr s t).unconf = []) (hf : isAdze t = false → fetchOf (thr s t) = none) : makeOldest t s = (true, s) := by
  cases t with
  | adze j => rfl
  | core i =>
    have hnone : fetchOf (thr s (.core i)) = none := hf rfl
    simp [makeOldest, confirmFetch, hun, hnone, drainOlder]

theorem fetchOf_of_goesAlone (h : GoesAlone s t) (ht : isAdze t = false) : fetchOf (thr s t) = none := by
  obtain ⟨⟨-, hfetch⟩, hun⟩ := h
  cases t with
  | adze j => cases ht
  | core i => simp_all [hasFetched]

theorem fetchNow_alone (h : GoesAlone s t) : fetchNow t s = .got s := by
  have hof := fetchOf_of_goesAlone h
  obtain ⟨⟨-, hfetch⟩, hun⟩ := h
  cases t with
  | adze j =>
    have hexc : fetchExc s (.adze j) = none := by simpa [hasFetched] using (Bool.and_eq_true_iff.mp hfetch).2
    unfold fetchNow
    rw [hexc]
  | core i =>
    have hpc : (thr s (.core i)).fbuf.head?.map (·.pc) = some (thr s (.core i)).pc := by
      have h2 := (Bool.and_eq_true_iff.mp hfetch).2
      simp only [Bool.and_eq_true, decide_eq_true_eq] at h2
      exact h2.1
    unfold fetchNow
    dsimp only
    rw [if_neg (by simp [hpc]), if_neg (by simp [hun])]
    unfold confirmFetch
    rw [hof rfl]
    rfl

theorem fetchedReserved_alone (h : GoesAlone s t) : fetchedReserved s t = none := by
  obtain ⟨⟨-, hfetch⟩, -⟩ := h
  simpa using (Bool.and_eq_true_iff.mp hfetch).1

theorem runInstr_passes {k : Check} {body : Thread → State → Eff} (h : GoesAlone s t) (hk : checkExc (thr s t) t k = none) :
    runInstr t k body s = finish t s (body (thr s t) s) := by
  have hold := makeOldest_alone h.2 (fetchOf_of_goesAlone h)
  unfold runInstr
  rw [if_neg (by simp [h.1.1]), fetchNow_alone h]
  dsimp only
  rw [fetchedReserved_alone h]
  dsimp only
  rw [hk]
  dsimp only
  rw [hold]
  simp

theorem runInstr_fails {k : Check} {body : Thread → State → Eff} {e : Exc} (h : GoesAlone s t)
    (hk : checkExc (thr s t) t k = some e) : runInstr t k body s = raiseExc t e s s := by
  unfold runInstr
  rw [if_neg (by simp [h.1.1]), fetchNow_alone h]
  dsimp only
  rw [fetchedReserved_alone h]
  dsimp only
  rw [hk]

/-! ## Retirement -/

/-- The thread goes on at `pc`, and but for that only what `Thread.calm` leaves out changed. -/
structure Moved (t : Thr) (pc : Word) (s u : State) : Prop where
  own : (thr u t).calm = ({ thr s t with pc := pc } : Thread).calm
  resv : (thr u t).resv = (thr s t).resv
  others : OthersCalm t s u
  keeps : Keeps [.thr, .wake] s u

theorem Tallied.moved {pc : Word} (h : Tallied s u) (k : Moved t pc u v) : Moved t pc s v where
  own := k.own.trans (congrArg (fun th : Thread => ({ th with pc := pc } : Thread)) (h.calm t))
  resv := k.resv.trans (h.field Thread.resv t)
  others := fun x hx => (k.others x hx).trans (h.calm x)
  keeps := keeps_trans h.keeps k.keeps

theorem Moved.tallied {pc : Word} (h : Moved t pc s u) (k : Tallied u v) : Moved t pc s v where
  own := (k.calm t).trans h.own
  resv := (k.field Thread.resv t).trans h.resv
  others := fun x hx => (k.calm x).trans (h.others x hx)
  keeps := keeps_trans h.keeps k.keeps

theorem moved_updThr {pc : Word} (f : Thread → Thread) (hc : ∀ th, (f th).calm = ({ th with pc := pc } : Thread).calm)
    (hr : ∀ th, (f th).resv = th.resv) : Moved t pc s (updThr t f s) where
  own := by rw [thr_updThr, if_pos rfl, hc]
  resv := by rw [thr_updThr, if_pos rfl, hr]
  others := fun x hx => by rw [thr_updThr, if_neg hx]
  keeps := (keeps_refl _ s).updThr

/-- An engine's instruction, with none in flight, moves its thread on. -/
theorem retireTo_engine {j : Fin 512} {pc : Word} {th0 : Thread} (hun : (thr s (.adze j)).unconf = []) :
    Moved (.adze j) pc s (retireTo (.adze j) pc th0 s) := by
  have hcount := tallied_countUnconfirmed (s := s) (t := .adze j) 2
  have hnone : (thr (countUnconfirmed (.adze j) 2 s) (.adze j)).unconf.getLast? = none := by
    rw [hcount.field Thread.unconf, hun]
    rfl
  refine hcount.moved ?_
  unfold retireTo
  dsimp only
  rw [hnone]
  dsimp only
  have hstep := moved_updThr (s := countUnconfirmed (.adze j) 2 s) (t := .adze j) (pc := pc)
    (fun th => stepPc pc { th with evs := [], waitRoom := false }) (fun _ => rfl) (fun _ => rfl)
  exact hstep.tallied ((((tallied_refl _).each fun _ _ => tallied_countHeld _).trans (tallied_countMany _ _)).trans
    (tallied_countConfirmed _ _))

/-- A core's instruction that stands in flight itself moves its thread on. -/
theorem retireTo_inFlight {pc : Word} {th0 : Thread} {x : UOp} (hlast : (thr s t).unconf.getLast? = some x)
    (hx : th0.nextSeq ≤ x.seq) : Moved t pc s (retireTo t pc th0 s) := by
  have hcount := tallied_countUnconfirmed (s := s) (t := t) 2
  refine hcount.moved ?_
  unfold retireTo
  dsimp only
  rw [hcount.field Thread.unconf, hlast]
  dsimp only
  rw [if_pos hx]
  exact moved_updThr (stepPc pc) (fun _ => rfl) (fun _ => rfl)

end Sys2Proof.Machine
end

section
/-! Stores outside device regions: the checks, the pieces and their bytes (R94, R102, R155, R270). -/
namespace Sys2Proof.Machine
set_option Elab.async false
variable {s u v : State} {t : Thr} {k : AK} {ordered : Bool} {va : Word} {n : Nat} {ps : List (BitVec 48 × Nat)}

/-! ## Bytes of a word -/

theorem bytesOf_getElem (i : Nat) (w : Word) (h : i < (bytesOf n w).length) : (bytesOf n w)[i] = w.extractLsb' (8 * i) 8 := by
  simp [bytesOf]

theorem bytesOf_masked (w : Word) (h : n ≤ 8) : bytesOf n (w &&& BitVec.ofNat 64 (2 ^ (8 * n) - 1)) = bytesOf n w := by
  refine List.ext_getElem (by simp [length_bytesOf]) fun i h1 _ => ?_
  rw [length_bytesOf] at h1
  rw [bytesOf_getElem, bytesOf_getElem]
  refine BitVec.eq_of_getLsbD_eq fun b hb => ?_
  simp only [BitVec.getLsbD_extractLsb', BitVec.getLsbD_and, BitVec.getLsbD_ofNat, Nat.testBit_two_pow_sub_one]
  simp [show 8 * i + b < 64 by omega, show 8 * i + b < 8 * n by omega]

theorem bytesOf_append (k m : Nat) (w : Word) : bytesOf k w ++ bytesOf m (w >>> (8 * k)) = bytesOf (k + m) w := by
  refine List.ext_getElem (by simp [length_bytesOf]) fun i h1 h2 => ?_
  rw [List.length_append, length_bytesOf, length_bytesOf] at h1
  rw [bytesOf_getElem, List.getElem_append]
  split
  · rw [bytesOf_getElem]
  · next hi =>
    rw [length_bytesOf] at hi
    rw [bytesOf_getElem, length_bytesOf]
    refine BitVec.eq_of_getLsbD_eq fun b hb => ?_
    simp only [BitVec.getLsbD_extractLsb', BitVec.getLsbD_ushiftRight]
    rw [show 8 * k + (8 * (i - k) + b) = 8 * i + b by omega]

/-! ## The checks of an access -/

theorem checkPieces_sizes {half : Bool} {l : List (Word × Nat)} (h : checkPieces s t k half l = .ok ps) :
    ps.map (·.2) = l.map (·.2) := by
  induction l generalizing half ps with
  | nil => cases h; rfl
  | cons p l ih =>
    unfold checkPieces at h
    split at h
    · cases h
    · split at h
      · cases h
      · split at h
        · next hrest => cases h; simp [ih hrest]
        · simp_all

theorem anyPiece_of_checkPieces {half : Bool} {l : List (Word × Nat)} {f : BitVec 48 → Bool}
    (h : checkPieces s t k half l = .ok ps) (hf : ∀ x ∈ ps, f x.1 = false) : anyPiece s t k l f = false := by
  induction l generalizing half ps with
  | nil => rfl
  | cons p l ih =>
    unfold checkPieces at h
    split at h
    · cases h
    · next pa _ _ htr =>
      split at h
      · cases h
      · split at h
        · next rest hrest =>
          cases h
          have hnone := ih hrest fun x hx => hf x (List.mem_cons_of_mem _ hx)
          unfold anyPiece at hnone ⊢
          rw [List.any_cons, htr, hnone]
          exact (Bool.or_false _).trans (hf _ (List.mem_cons_self ..))
        · simp_all

/-- An access that passes its checks, with a source that may stand where it goes, is checked to its pieces. -/
theorem checkAccess_passes (word : BitVec 32) (d : Bool × BitVec 5) (h : Passes s t k ordered va n ps)
    (hp : (if d.1 then (readF (thr s t) d.2).poison else (readG (thr s t) d.2).poison) = false ∨
      ∀ x ∈ ps, refusesPoison (spaceOf x.1) = false) : checkAccess s t k ordered word va n (some d) = .ok ps := by
  obtain ⟨hok, halign⟩ := h
  have haligned : (va.toNat % n ≠ 0 && (needsAlign k ordered 0 || anyPiece s t k (piecesOf va n) (needsAlign k ordered))) = false := by
    rcases halign with h0 | ⟨h0, hall⟩
    · simp [h0]
    · rw [h0, anyPiece_of_checkPieces hok hall]
      simp
  unfold checkAccess
  extract_lets pieces th tagged
  rcases hp with hp | hp
  · have htag : tagged = none := by simp only [tagged, Option.filter_some]; exact if_neg (by simpa using hp)
    rw [htag]
    dsimp only
    exact (if_neg (Bool.eq_false_iff.mp haligned)).trans hok
  · have hrefuse : anyPiece s t k pieces (fun pa => refusesPoison (spaceOf pa)) = false := anyPiece_of_checkPieces hok hp
    clear_value tagged
    cases tagged with
    | none => exact (if_neg (Bool.eq_false_iff.mp haligned)).trans hok
    | some e => exact (if_neg (Bool.eq_false_iff.mp hrefuse)).trans ((if_neg (Bool.eq_false_iff.mp haligned)).trans hok)

/-- The pieces of a checked access: one, or two that share its bytes. -/
theorem pieces_of_passes (h : Passes s t k ordered va n ps) :
    (∃ pa, ps = [(pa, n)]) ∨ ∃ pa pb a b, ps = [(pa, a), (pb, b)] ∧ a + b = n := by
  obtain ⟨hok, -⟩ := h
  have hsizes := checkPieces_sizes hok
  unfold piecesOf at hsizes
  dsimp only at hsizes
  split at hsizes
  · left
    match ps, hsizes with
    | [(pa, a)], hsizes =>
      obtain rfl : a = n := by simpa using hsizes
      exact ⟨pa, rfl⟩
  · next hn =>
    right
    match ps, hsizes with
    | [(pa, a), (pb, b)], hsizes =>
      obtain ⟨rfl, rfl⟩ : a = 64 - va.toNat % 64 ∧ b = n - (64 - va.toNat % 64) := by simpa using hsizes
      exact ⟨pa, pb, _, _, rfl, by omega⟩

/-! ## The records of a store -/

variable {m : LdForm} {th : Thread} {data : Word} {poison conf known : Bool}

theorem storeAccesses_places (h : Passes s t k ordered va n ps) :
    (storeAccesses th m va ps data poison conf known).map (fun a => (a.pa, a.size)) = ps := by
  rcases pieces_of_passes h with ⟨pa, rfl⟩ | ⟨pa, pb, a, b, rfl, -⟩ <;> rfl

theorem storeAccesses_bytes (h : Passes s t k ordered va n ps) (hn : n ≤ 8) :
    (storeAccesses th m va ps data poison conf known).flatMap (fun a => bytesOf a.size a.data) = bytesOf n data := by
  rcases pieces_of_passes h with ⟨pa, rfl⟩ | ⟨pa, pb, a, b, rfl, hab⟩
  · simp [storeAccesses, pieceAccesses, plainAccess, bytesOf_masked _ hn]
  · simp [storeAccesses, pieceAccesses, plainAccess, bytesOf_masked _ (show a ≤ 8 by omega),
      bytesOf_masked _ (show b ≤ 8 by omega), bytesOf_append, hab]

theorem storeAccesses_marks (h : Passes s t k ordered va n ps) :
    ∀ a ∈ storeAccesses th m va ps data poison conf known, a.kind = .store ∧ a.poison = poison ∧ a.ordered = m.ordered ∧ a.nt = m.nt := by
  rcases pieces_of_passes h with ⟨pa, rfl⟩ | ⟨pa, pb, a, b, rfl, -⟩ <;> simp [storeAccesses, pieceAccesses, plainAccess]

/-! ## The store itself -/

/-- The thread of a core with a store put in flight and in its buffer (R131, R155). -/
def storedBy (m : LdForm) (base : BitVec 5) (va : Word) (ps : List (BitVec 48 × Nat)) (data : Word) (poison : Bool) (th : Thread) :
    Thread :=
  { th with
    unconf := th.unconf ++ [{ seq := th.nextSeq, pc := th.pc, conf := false, fetch := fetchOf th, va := va, sz := m.size
                              br := none, push := none, pop := false, ld := none, st := some th.nextSeq, evs := th.evs
                              snap := snapOf th }]
    evs := [], waitRoom := false
    stores := th.stores ++ storeAccesses th m va ps data poison false (!addrPending th base)
    nextSeq := th.nextSeq + 2 }

theorem coreStore_enters {i : Fin 640} {base : BitVec 5} (hroom : storeRoom s i = true)
    (hdev : ∀ x ∈ ps, isDevice (spaceOf x.1) = false) (hun : (thr s (.core i)).unconf = []) :
    coreStore i m base va ps data poison s = .done (updThr (.core i) (storedBy m base va ps data poison) s) := by
  have hwalk (x : Word) : specWalk i .store x s = (true, s) := if_pos (by simp [hun])
  have hwalks : specWalks i .store va m.size s = (true, s) := by
    unfold specWalks
    rw [hwalk]
    exact hwalk _
  unfold coreStore
  dsimp only
  rw [if_neg (by simp [hroom]), if_neg (by simpa using hdev), hwalks]
  exact if_neg (by simp)

theorem adzeStore_queues {j : Fin 512} (hdev : ∀ x ∈ ps, isDevice (spaceOf x.1) = false) (hst : (thr s (.adze j)).stores = [])
    (hout : ∃ x ∈ ps, ownScratch j x.1 = false) :
    adzeStore j m va ps data poison s = .done (countEvent (.adze j) 0x25 (updThr (.adze j) (fun th => { th with
      stores := th.stores ++ storeAccesses th m va ps data poison true true, waitRoom := false, nextSeq := th.nextSeq + 2 }) s)) := by
  obtain ⟨x, hx, hown⟩ := hout
  unfold adzeStore
  rw [if_neg (by simp only [List.all_eq_true, not_forall]; exact ⟨x, hx, by simp [hown]⟩), if_neg (by simpa using hdev)]
  exact if_neg (by simp [hst, storeEntries])

/-- The store of a thread of either kind. -/
def storeEff (t : Thr) (m : LdForm) (base : BitVec 5) (va : Word) (ps : List (BitVec 48 × Nat)) (data : Word) (poison : Bool)
    (s : State) : Eff :=
  match t with
  | .core i => coreStore i m base va ps data poison s
  | .adze j => adzeStore j m va ps data poison s

theorem adzeStore_scratch {j : Fin 512} (hout : (thr s (.adze j)).outst = []) (hst : (thr s (.adze j)).stores = [])
    (hown : ∀ x ∈ ps, ownScratch j x.1 = true) :
    adzeStore j m va ps data poison s = .done (countEvent (.adze j) 0x24
      (storeBytes (some (.adze j)) ((ps.head?.map (·.1)).getD 0) (bytesOf m.size data) poison s)) := by
  unfold adzeStore
  rw [if_pos (by simpa using hown), if_neg (by simp [allPerformed, hout, hst])]

/-! ## A store in the engine's own scratch -/

theorem thr_loseResvOn_self (g : BitVec 41) : thr (loseResvOn (some t) g s) t = thr s t := by
  refine forEach_keeps (fun v => thr v t = thr s t) _ _ s rfl fun e _ x hx => ?_
  split
  · exact hx
  case h_2 y _ =>
    split
    · exact hx
    · next hy =>
      split
      · split
        · refine Eq.trans ?_ hx
          show thr (updThr y (fun th => { th with resv := none }) x) t = thr x t
          rw [thr_updThr, if_neg fun he => hy (congrArg some he.symm)]
        · exact hx
      · exact hx

/-- The store changes its bytes and the reservations of the other threads. -/
theorem storeBytes_own {a : BitVec 48} {b : List Byte} (hline : isDramLine (lineOf a) = false) (hb : b.length ≠ 64) :
    thr (storeBytes (some t) a b false s) t = thr s t ∧ OthersCalm t s (storeBytes (some t) a b false s) ∧
      Keeps [.thr, .bay, .slice, .eng, .mem] s (storeBytes (some t) a b false s) := by
  have heq : storeBytes (some t) a b false s = loseResvOn (some t) (granuleOf a) (writeBytes a.toNat b s) := by
    unfold storeBytes dirtyLine
    dsimp only
    rw [if_neg Bool.false_ne_true, if_neg hb, if_neg (by simp [hline])]
  have hun := unreserved_loseResvOn (s := writeBytes a.toNat b s) (some t) (granuleOf a)
  rw [heq]
  refine ⟨thr_loseResvOn_self _, fun x _ => hun.thr x, ?_⟩
  exact keeps_trans (keeps_mono (by decide) (keeps_writeBytes (s := s) a.toNat b)) (keeps_mono (by decide) hun.keeps)

theorem not_dramLine_of_scratch {a : BitVec 48} {e : Nat} (h : spaceOf a = .scratch e) : isDramLine (lineOf a) = false := by
  unfold spaceOf at h
  dsimp only at h
  split at h
  · cases h
  · next hlow =>
    unfold isDramLine lineOf
    rw [BitVec.extractLsb'_toNat, Nat.shiftRight_eq_div_pow]
    have := a.isLt
    simp only [decide_eq_false_iff_not]
    omega

theorem refusesPoison_of_ownScratch {j : Fin 512} {a : BitVec 48} (h : ownScratch j a = true) : refusesPoison (spaceOf a) = true := by
  have hspace : spaceOf a = .scratch (j.val / 8) := of_decide_eq_true h
  rw [hspace]
  rfl

/-! ## The rows -/

/-- An instruction that puts itself in flight retires with what it did to its thread. -/
theorem retired_inFlight {f g : Thread → Thread} (hx : ∃ x, (f (thr s t)).unconf.getLast? = some x ∧ (thr s t).nextSeq ≤ x.seq)
    (hr : (f (thr s t)).resv = (thr s t).resv)
    (hc : ∀ pc, ({ f (thr s t) with pc := pc } : Thread).calm = (g { thr s t with pc := pc }).calm) :
    Retired t g s (finish t s (.done (updThr t f s))) := by
  obtain ⟨x, hlast, hseq⟩ := hx
  have hself : thr (updThr t f s) t = f (thr s t) := by rw [thr_updThr, if_pos rfl]
  have hmoved := retireTo_inFlight (s := updThr t f s) (pc := (thr s t).pc + 4) (by rw [hself]; exact hlast) hseq
  refine ⟨?_, ?_, fun y hy => ?_, keeps_trans (keeps_refl _ s).updThr hmoved.keeps⟩
  · rw [← hc, ← hself]
    exact hmoved.own
  · rw [← hr, ← hself]
    exact hmoved.resv
  · refine (hmoved.others y hy).trans ?_
    rw [thr_updThr, if_neg hy]

theorem moved_retired_engine {j : Fin 512} (code : Nat) (hun : (thr u (.adze j)).unconf = []) :
    Moved (.adze j) ((thr s (.adze j)).pc + 4) u (finish (.adze j) s (.done (countEvent (.adze j) code u))) := by
  have hcount := tallied_countEvent (s := u) (t := .adze j) code
  exact hcount.moved (retireTo_engine (by rw [hcount.field Thread.unconf, hun]))

/-- An engine's instruction retires with what it did, and what it counted. -/
theorem retired_engine {j : Fin 512} {g : Thread → Thread} {extra : List Piece} (code : Nat) (hun : (thr s (.adze j)).unconf = [])
    (hunu : (thr u (.adze j)).unconf = (thr s (.adze j)).unconf) (hr : (thr u (.adze j)).resv = (thr s (.adze j)).resv)
    (hc : ∀ pc, ({ thr u (.adze j) with pc := pc } : Thread).calm = (g { thr s (.adze j) with pc := pc }).calm)
    (ho : OthersCalm (.adze j) s u) (hk : Keeps (extra ++ retirePieces) s u) :
    RetiredTo extra ((thr s (.adze j)).pc + 4) (.adze j) g s (finish (.adze j) s (.done (countEvent (.adze j) code u))) := by
  have hmoved := moved_retired_engine (s := s) code (hunu.trans hun)
  refine ⟨hmoved.own.trans (hc _), hmoved.resv.trans hr, fun y hy => (hmoved.others y hy).trans (ho y hy),
    keeps_trans hk (keeps_mono ?_ hmoved.keeps)⟩
  simp [retirePieces]

/-- The store of an engine in its own scratch writes its bytes there. -/
theorem retiredTo_scratch {j : Fin 512} {p : Bool} {v : Word} (hn : n ≤ 8) (hpass : Passes s (.adze j) k ordered va n ps)
    (hun : (thr s (.adze j)).unconf = []) (hown : ∀ x ∈ ps, ownScratch j x.1 = true)
    (hp : p = false ∨ ∀ x ∈ ps, refusesPoison (spaceOf x.1) = false) :
    let u := finish (.adze j) s (.done (countEvent (.adze j) 0x24
      (storeBytes (some (.adze j)) ((ps.head?.map (·.1)).getD 0) (bytesOf n v) p s)))
    RetiredTo [.bay, .slice, .eng, .mem] ((thr s (.adze j)).pc + 4) (.adze j) id s u ∧
      ∀ a l, ps = [(a, l)] → readBytes u a.toNat n = bytesOf n v ∧ MemKept a.toNat n s u := by
  obtain ⟨x, rest, rfl⟩ : ∃ x rest, ps = x :: rest := by
    rcases pieces_of_passes hpass with ⟨pa, rfl⟩ | ⟨pa, pb, a, b, rfl, -⟩ <;> exact ⟨_, _, rfl⟩
  have hx : ownScratch j x.1 = true := hown x (List.mem_cons_self ..)
  obtain rfl : p = false := by
    rcases hp with hp | hp
    · exact hp
    · have hyes := refusesPoison_of_ownScratch hx
      rw [hp x (List.mem_cons_self ..)] at hyes
      cases hyes
  have hline : isDramLine (lineOf x.1) = false := not_dramLine_of_scratch (of_decide_eq_true hx)
  obtain ⟨hself, hothers, hkeeps⟩ := storeBytes_own (s := s) (t := .adze j) (a := x.1) (b := bytesOf n v) hline
    (by rw [length_bytesOf]; omega)
  intro u
  have hret : RetiredTo [.bay, .slice, .eng, .mem] ((thr s (.adze j)).pc + 4) (.adze j) id s u :=
    retired_engine 0x24 hun (by rw [List.head?_cons, Option.map_some, Option.getD_some, hself]) (by
      rw [List.head?_cons, Option.map_some, Option.getD_some, hself]) (fun pc => by
      rw [List.head?_cons, Option.map_some, Option.getD_some, hself]; rfl) hothers (keeps_mono (by decide) hkeeps)
  refine ⟨hret, fun a l hps => ?_⟩
  obtain ⟨rfl, rfl⟩ : x = (a, l) ∧ rest = [] := by simpa using hps
  refine stored_at fun y => ?_
  have hkept := (moved_retired_engine (s := s) (u := storeBytes (some (.adze j)) a (bytesOf n v) false s) 0x24
    ((congrArg Thread.unconf hself).trans hun)).keeps
  exact (readByte_of_keeps hkept y).trans (readByte_storeBytes (some (.adze j)) a (bytesOf n v) y)

/-- What the store of a row does, once its instruction runs. -/
theorem storeRow_of {c : Thr → FmtC → Instr} {isF ordered nt : Bool} {n minor : Nat} (hn : n ≤ 8)
    (hexec : ∀ s t f, exec (c t f) s = storeOp t f minor ⟨n, false, isF, ordered, nt⟩ s) : StoreRow c isF n ordered nt := by
  intro s t f ps hgo hcore hout hst hbase th va v p hroom hpass hdev hpoison
  let m : LdForm := ⟨n, false, isF, ordered, nt⟩
  have hun := hgo.2
  have hcheck : checkExc th t { plainCheck (wordC 0x21 f minor) true with coreOnly := isF, uses := [(false, f.gb, 0, 2)] } = none := by
    have hcoreOnly : (isF && isAdze t) = false := by
      cases isF with
      | false => rfl
      | true => exact hcore rfl
    have hb : (readG th f.gb).poison = false := hbase
    have hpriv : privGe th.tstat.priv .U = true := decide_eq_true (Nat.zero_le _)
    simp [checkExc, plainCheck, hcoreOnly, hb, hpriv]
  have haccess := checkAccess_passes (k := .store) (wordC 0x21 f minor) (isF, f.gt) hpass (by
    refine hpoison.imp (fun hp => ?_) id
    exact hp)
  have hrun : exec (c t f) s = .next (finish t s (storeEff t m f.gb va ps v p s)) := by
    rw [hexec]
    unfold storeOp
    dsimp only
    rw [runInstr_passes hgo hcheck]
    show (Host.Outcome.next (finish t s (match checkAccess s t .store ordered (wordC 0x21 f minor) va n (some (isF, f.gt)) with
      | .bad e => .raise e s
      | .ok ps => _)) : Result) = _
    rw [haccess]
    cases t <;> rfl
  cases t with
  | core i =>
    refine ⟨_, hrun, .inr ⟨fun j hj => (by cases hj), storeAccesses th m va ps v p false (!addrPending th f.gb), ?_,
      storeAccesses_places hpass, storeAccesses_bytes hpass hn, storeAccesses_marks hpass⟩⟩
    have hroom' : storeRoom s i = true := (Bool.and_eq_true_iff.mp hroom).2
    rw [show storeEff (.core i) m f.gb va ps v p s = _ from coreStore_enters hroom' hdev hun]
    refine retired_inFlight ⟨_, List.getLast?_concat .., Nat.le_refl _⟩ rfl fun pc => ?_
    have hnil : th.stores = [] := hst
    show ({ storedBy m f.gb va ps v p th with pc := pc } : Thread).calm = _
    simp [storedBy, Thread.calm, hnil, th]
  | adze j =>
    by_cases hown : ∀ x ∈ ps, ownScratch j x.1 = true
    · refine ⟨_, hrun, .inl ⟨j, rfl, hown, ?_⟩⟩
      rw [show storeEff (.adze j) m f.gb va ps v p s = _ from adzeStore_scratch hout hst hown]
      exact retiredTo_scratch hn hpass hun hown hpoison
    · have hsome : ∃ x ∈ ps, ownScratch j x.1 = false := by simpa using hown
      refine ⟨_, hrun, .inr ⟨fun j' hj => (by cases hj; exact hsome), storeAccesses th m va ps v p true true, ?_,
        storeAccesses_places hpass, storeAccesses_bytes hpass hn, storeAccesses_marks hpass⟩⟩
      rw [show storeEff (.adze j) m f.gb va ps v p s = _ from adzeStore_queues hdev hst hsome]
      have hnil : th.stores = [] := hst
      refine retired_engine 0x25 hun (by simp) (by simp) (fun pc => ?_) (fun y hy => ?_) (keeps_refl _ s).updThr
      · simp [Thread.calm, hnil, th]
      · rw [thr_updThr, if_neg hy]

/-- Settles O6: on a core the store stands in flight and in its buffer; an engine's goes to its own scratch or its queue. -/
theorem stores : Obligations.Stores := by
  unfold Obligations.Stores
  refine ⟨storeRow_of (minor := 0x0) (by decide) fun _ _ _ => rfl, storeRow_of (minor := 0x1) (by decide) fun _ _ _ => rfl,
    storeRow_of (minor := 0x2) (by decide) fun _ _ _ => rfl, storeRow_of (minor := 0x3) (by decide) fun _ _ _ => rfl,
    storeRow_of (minor := 0x8) (by decide) fun _ _ _ => rfl, storeRow_of (minor := 0x9) (by decide) fun _ _ _ => rfl,
    storeRow_of (minor := 0xA) (by decide) fun _ _ _ => rfl, storeRow_of (minor := 0xB) (by decide) fun _ _ _ => rfl,
    storeRow_of (minor := 0xC) (by decide) fun _ _ _ => rfl⟩

end Sys2Proof.Machine
end

section
/-! Exception and interrupt entries (R105, R107, R110, R122, R273), and the checks before an instruction (R80, R102, R108). -/
namespace Sys2Proof.Machine
set_option Elab.async false
variable {s u v : State} {t : Thr} {e e' : Exc} {x : Priv}

/-! ## The entry -/

theorem calm_enterLevel {th th' : Thread} (pc : Word) (h : th'.calm = th.calm) :
    (enterLevel x e pc th').calm = (enterLevel x e pc th).calm := by
  have hcalm (y : Thread) : (enterLevel x e pc y).calm = (enterLevel x e pc y.calm).calm := by cases x <;> rfl
  rw [hcalm th', h, ← hcalm]

theorem entering_of_calm {th th' : Thread} (pc : Word) (h : th'.calm = th.calm) : entering th' e pc = entering th e pc := by
  have hcalm (y : Thread) : entering y e pc = entering y.calm e pc := rfl
  rw [hcalm th', h, ← hcalm]

theorem ownedBy_congr (h : u.led = s.led) : ownedBy u t = ownedBy s t := by
  unfold ownedBy
  rw [h]

/-- The thread as an entry leaves it, before its counts. -/
def enteredThread (t : Thr) (x : Priv) (e : Exc) (th : Thread) : Thread := flushed t (enterLevel x e th.pc th)

theorem thr_flushPredictors (y : Thr) : thr (flushPredictors t s) y = if y = t then flushed t (thr s t) else thr s y := by
  cases t with
  | adze j =>
    split
    · next h => rw [h]; rfl
    · rfl
  | core i =>
    show thr (updThr (.core i) (fun th => { th with rstack := [], mdp := [], redo := none }) s) y = _
    rw [thr_updThr]
    rfl

theorem keeps_flushPredictors : Keeps [.thr, .core] s (flushPredictors t s) := by
  cases t with
  | adze j => exact keeps_refl _ s
  | core i => exact (keeps_refl _ s).updThr.updCore

/-- The saved state and the level of R105, the reservation lost, the predictors emptied; nothing else but counts. -/
theorem enterException_at {pc : Word} (hat : entering (thr s t) e pc = .at x e') (hpc : pc = (thr s t).pc)
    (hown : e.code = 15 → ownedBy s t = none) (hlost : e'.code ≠ 17) :
    (thr (enterException t e s) t).calm = (enteredThread t x e' (thr s t)).calm ∧ (thr (enterException t e s) t).resv = none ∧
      OthersCalm t s (enterException t e s) ∧ Keeps entryPieces s (enterException t e s) := by
  subst hpc
  have hun := unreserved_loseResv (s := s) t
  have hfail : (if e.code = 15 then failOwned t 2 0 (loseResv t s) else loseResv t s) = loseResv t s := by
    split
    · next h15 =>
      unfold failOwned
      rw [ownedBy_congr (s := s) (hun.keeps .led (by decide)), hown h15]
    · rfl
  let w := updThr t (enterLevel x e' (thr s t).pc) (loseResv t s)
  have heq : enterException t e s = countEvent t (if e'.code = 0x20 then 0x15 else 0x16) (flushPredictors t w) := by
    unfold enterException
    dsimp only
    rw [hfail, hat]
    dsimp only
    simp only [hlost, if_false, w]
  have hw (y : Thr) : thr w y = if y = t then enterLevel x e' (thr s t).pc (thr (loseResv t s) t) else thr (loseResv t s) y :=
    thr_updThr _ _ _ _
  have htally := tallied_countEvent (s := flushPredictors t w) (t := t) (if e'.code = 0x20 then 0x15 else 0x16)
  have hself : thr (flushPredictors t w) t = flushed t (enterLevel x e' (thr s t).pc (thr (loseResv t s) t)) := by
    rw [thr_flushPredictors, if_pos rfl, hw, if_pos rfl]
  have hnone : (thr (loseResv t s) t).resv = none := resv_loseResv_self t
  have hflush {a b : Thread} (h : a.calm = b.calm) : (flushed t a).calm = (flushed t b).calm := by
    cases t with
    | adze j => exact h
    | core i =>
      have hcalm (y : Thread) : (flushed (.core i) y).calm = { y.calm with rstack := [], mdp := [], redo := none } := rfl
      rw [hcalm, h, hcalm]
  rw [heq]
  refine ⟨?_, ?_, fun y hy => ?_, ?_⟩
  · rw [htally.calm, hself]
    exact hflush (calm_enterLevel _ (hun.thr t))
  · rw [htally.field Thread.resv, hself]
    have hkeep : (flushed t (enterLevel x e' (thr s t).pc (thr (loseResv t s) t))).resv = (thr (loseResv t s) t).resv := by
      cases t <;> cases x <;> rfl
    rw [hkeep, hnone]
  · rw [htally.calm, thr_flushPredictors, if_neg hy, hw, if_neg hy]
    exact hun.thr y
  · have hk1 : Keeps [.thr, .bay, .slice, .eng] s w := keeps_trans hun.keeps (keeps_refl _ _).updThr
    exact keeps_trans (keeps_trans (keeps_mono (by decide) hk1) (keeps_mono (by decide) (keeps_flushPredictors (s := w) (t := t))))
      (keeps_mono (by decide) htally.keeps)

/-! ## A check that fails -/

theorem entering_free (hm : (thr s t).tstat.mFrame = false) (pc : Word) :
    ∃ x e', entering (thr s t) e pc = .at x e' ∧ (e' = e ∨ e'.code = 18) := by
  unfold entering
  split
  · rw [if_neg (by simp [hm])]
    exact ⟨_, _, rfl, .inl rfl⟩
  · split
    · exact ⟨_, _, rfl, .inl rfl⟩
    · dsimp only
      rw [if_neg (by simp [hm])]
      exact ⟨_, _, rfl, .inr rfl⟩

/-- The exceptions that the checks raise: no page fault, no poisoned fetch. -/
def CheckCode (e : Exc) : Prop := e.code < 4 ∨ e.code = 15 ∧ e.einfo ≠ 0x500

/-- An instruction alone in flight that fails a check takes the exception. -/
theorem entered_of_checkExc {k : Check} {body : Thread → State → Eff} (hm : MayEnter s t) (hown : ownedBy s t = none)
    (hk : checkExc (thr s t) t k = some e) (hcode : CheckCode e) : Entered t e s (runInstr t k body s) := by
  obtain ⟨hgo, hirq, hframe⟩ := hm
  let w := forEach (thr s t).evs (countHeld t) s
  have htally : Tallied s w := (tallied_refl s).each fun _ _ => tallied_countHeld _
  have hraise : runInstr t k body s = enterException t e w := by
    rw [runInstr_fails hgo hk]
    have hwait : faultWaits t e s = none := by
      cases t with
      | adze j => rfl
      | core i =>
        have hno : ¬ (4 ≤ e.code ∧ e.code ≤ 6) := by rcases hcode with h | ⟨h, -⟩ <;> omega
        exact if_neg fun h => hno (by simp only [Bool.and_eq_true, decide_eq_true_eq] at h; exact h.1)
    have hdrop (y : State) : dropFetchLine t e y = y := by
      cases t with
      | adze j => rfl
      | core i =>
        refine if_neg fun h => ?_
        simp only [Bool.and_eq_true, decide_eq_true_eq] at h
        rcases hcode with h4 | ⟨-, h5⟩
        · omega
        · exact h5 h.2
    unfold raiseExc
    rw [ite_self, makeOldest_alone hgo.2 (fetchOf_of_goesAlone hgo)]
    dsimp only
    rw [if_neg (by simp), hirq, if_neg Bool.false_ne_true, hwait]
    dsimp only
    rw [hdrop]
  have hcalm : (thr w t).calm = (thr s t).calm := htally.calm t
  have hpc : (thr w t).pc = (thr s t).pc := htally.field Thread.pc t
  obtain ⟨x, e', hat, he'⟩ := entering_free (e := e) (s := w) (t := t) ((congrArg (fun y : Tstat => y.mFrame)
    (htally.field Thread.tstat t)).trans hframe) (thr w t).pc
  have hlost : e'.code ≠ 17 := by
    rcases he' with rfl | h
    · rcases hcode with h | ⟨h, -⟩ <;> omega
    · omega
  obtain ⟨hself, hresv, hothers, hkeeps⟩ := enterException_at hat rfl
    (fun _ => (ownedBy_congr (htally.keeps .led (by decide))).trans hown) hlost
  rw [hraise]
  refine ⟨fun x2 e2 hat2 => ?_, hresv, fun y hy => (hothers y hy).trans (htally.calm y), keeps_trans (keeps_mono (by decide) htally.keeps) hkeeps⟩
  rw [entering_of_calm _ hcalm, hpc, hat2] at hat
  cases hat
  refine hself.trans ?_
  unfold enteredThread
  rw [hpc]
  cases t with
  | adze j => exact calm_enterLevel _ hcalm
  | core i =>
    have h := calm_enterLevel (x := x) (e := e') (thr s (.core i)).pc hcalm
    exact congrArg (fun y : Thread => ({ y with rstack := [], mdp := [], redo := none } : Thread)) h

theorem privGe_U (p : Priv) : privGe p .U = true := decide_eq_true (Nat.zero_le _)

theorem checkExc_illegal {k : Check} {th : Thread} (h : k.legal = false) :
    checkExc th t k = some (excPlain 1 0 (k.word.setWidth 64)) := if_pos (by simp [h])

theorem checkExc_absent {k : Check} {th : Thread} (h : k.legal = true) (hc : k.coreOnly = true) (ht : isAdze t = true) :
    checkExc th t k = some (excPlain 2 0 (k.word.setWidth 64)) := by
  unfold checkExc
  rw [if_neg (by simp [h]), if_pos (by simp [hc, ht])]

theorem checkExc_privilege {k : Check} {th : Thread} (h : k.legal = true) (hc : (k.coreOnly && isAdze t) = false)
    (hp : privGe th.tstat.priv k.need = false) : checkExc th t k = some (excPlain 3 0 (k.word.setWidth 64)) := by
  unfold checkExc
  rw [if_neg (by simp [h]), if_neg (by simp [hc]), if_pos (by simp [hp])]

/-- The first register of the uses is poisoned. -/
theorem checkExc_poison {k : Check} {th : Thread} {r : BitVec 5} {use : Nat} {acc : BitVec 2} {rest : List (Bool × BitVec 5 × Nat × BitVec 2)}
    (h : k.legal = true) (hc : (k.coreOnly && isAdze t) = false) (hp : k.need = .U) (hu : k.uses = (false, r, use, acc) :: rest)
    (hr : (readG th r).poison = true) : checkExc th t k = some (poisonExc false r use acc) := by
  unfold checkExc
  rw [if_neg (by simp [h]), if_neg (by simp [hc]), hp, if_neg (by simp [privGe_U]), hu, List.find?_cons_of_pos (by simpa using hr)]

/-- What X_EINFO says of a poisoned g register in a use (R104). -/
theorem poisonInfo : ∀ r : BitVec 5, at' r 0 ||| atB false 5 ||| at' (BitVec.ofNat 3 0) 8 = r.setWidth 64 ∧
    at' r 0 ||| atB false 5 ||| at' (BitVec.ofNat 3 1) 8 = r.setWidth 64 ||| 0x100 ∧
    at' r 0 ||| atB false 5 ||| at' (BitVec.ofNat 3 2) 8 = r.setWidth 64 ||| 0x200 ∧
    at' r 0 ||| atB false 5 ||| at' (BitVec.ofNat 3 3) 8 = r.setWidth 64 ||| 0x300 := by decide

theorem poisonInfo_data : ∀ r : BitVec 5, r.setWidth 64 ≠ (0x500 : Word) ∧ r.setWidth 64 ||| 0x100 ≠ (0x500 : Word) ∧
    r.setWidth 64 ||| 0x200 ≠ (0x500 : Word) ∧ r.setWidth 64 ||| 0x300 ≠ (0x500 : Word) := by decide

theorem entered_of_poison {k : Check} {body : Thread → State → Eff} {r : BitVec 5} {use : Nat} {acc : BitVec 2}
    {rest : List (Bool × BitVec 5 × Nat × BitVec 2)} {info : Word} (hm : MayEnter s t) (hown : ownedBy s t = none)
    (h : k.legal = true) (hc : (k.coreOnly && isAdze t) = false) (hp : k.need = .U) (hu : k.uses = (false, r, use, acc) :: rest)
    (hr : (readG (thr s t) r).poison = true) (hinfo : at' r 0 ||| atB false 5 ||| at' (BitVec.ofNat 3 use) 8 = info)
    (hne : info ≠ 0x500) : Entered t ⟨15, 0, info, acc, false, 0⟩ s (runInstr t k body s) := by
  have hk := checkExc_poison h hc hp hu hr
  have heq : poisonExc false r use acc = ⟨15, 0, info, acc, false, 0⟩ := by rw [← hinfo]; rfl
  rw [heq] at hk
  exact entered_of_checkExc hm hown hk (.inr ⟨rfl, hne⟩)

/-- An MTS of a register that software may write at U. -/
theorem mtsTo_runs (word : BitVec 32) (legal : Bool) {n : Nat} (gs1 : BitVec 5) (hn : n ≠ 0x110) :
    ∃ body, mtsTo t word legal n gs1 s = runInstr t { plainCheck word (legal && numberOf t n && !neverWritten n) with
      coreOnly := n = 0x002 || n = 0x005, need := writePriv n, oldest := true, uses := [(false, gs1, 3, 0)] } body s := by
  refine ⟨_, if_neg ?_⟩
  cases t with
  | adze j => exact Bool.false_ne_true
  | core i => simp [soloLoses, hn]

theorem numberOf_one (t : Thr) : numberOf t 1 = true := by cases t <;> rfl

/-- Settles O10: each row's first failing check, and the entry it makes. -/
theorem checks : Obligations.Checks := by
  unfold Obligations.Checks
  intro s t hm hown
  have low {n : Nat} {w : Word} (h : n < 4) : CheckCode ⟨n, 0, w, 0, false, 0⟩ := .inl h
  refine ⟨fun f hf => ?_, fun f hf => ?_, fun f ht hrm hfs hm3 => ?_, fun f hp hgd hgs himm => ?_, fun f hp => ?_, fun f hp => ?_,
    fun f hp hgs => ?_, fun f hp hgd himm => ?_⟩
  · exact ⟨_, rfl, entered_of_checkExc hm hown (checkExc_illegal (decide_eq_false hf)) (low (by decide))⟩
  · exact ⟨_, rfl, entered_of_checkExc hm hown (checkExc_illegal (by simp [checkFP, plainCheck, hf])) (low (by decide))⟩
  · exact ⟨_, rfl, entered_of_checkExc hm hown (checkExc_absent (by simp [checkFP, plainCheck, hrm, hfs, hm3]) rfl ht) (low (by decide))⟩
  · exact ⟨_, rfl, entered_of_checkExc hm hown (checkExc_privilege (by simp [plainCheck, hgd, hgs, himm]) rfl (by rw [hp]; rfl))
      (low (by decide))⟩
  · exact ⟨_, rfl, entered_of_poison hm hown rfl rfl rfl rfl hp (poisonInfo f.gb).1 (poisonInfo_data f.gb).1⟩
  · exact ⟨_, rfl, entered_of_poison hm hown rfl rfl rfl rfl hp (poisonInfo f.gs1).2.1 (poisonInfo_data f.gs1).2.1⟩
  · exact ⟨_, rfl, entered_of_poison hm hown (decide_eq_true hgs) rfl rfl rfl hp (poisonInfo f.gs1).2.2.1 (poisonInfo_data f.gs1).2.2.1⟩
  · have hn : f.imm.toNat = 1 := by rw [himm]; rfl
    obtain ⟨body, hbody⟩ := mtsTo_runs (s := s) (t := t) (wordF 0x3C f 0x1) (f.gd = 0) (n := f.imm.toNat) f.gs1 (by omega)
    refine ⟨_, (congrArg Host.Outcome.next hbody : _), entered_of_poison hm hown ?_ ?_ ?_ rfl hp (poisonInfo f.gs1).2.2.2
      (poisonInfo_data f.gs1).2.2.2⟩
    · simp [plainCheck, hgd, hn, numberOf_one, neverWritten]
    · simp [hn]
    · rw [hn]; rfl

/-! ## The external interrupt -/

theorem irqPrio_of_calm {th th' : Thread} (h : th'.calm = th.calm) : irqPrio th' = irqPrio th := by
  have hcalm (y : Thread) : irqPrio y = irqPrio y.calm := rfl
  rw [hcalm th', h, ← hcalm]

/-- With nothing in flight, a squash takes only what was fetched ahead and the core's walks and shim entries. -/
theorem squashAll_alone (hun : (thr s t).unconf = []) (hst : isAdze t = false → ∀ a ∈ (thr s t).stores, a.conf = true) :
    (∀ y, (thr (squashAll t s) y).calm = (thr s y).calm) ∧ Keeps [.thr, .core] s (squashAll t s) := by
  cases t with
  | adze j => exact ⟨fun _ => rfl, keeps_refl _ s⟩
  | core i =>
    let th := thr s (.core i)
    let f := fun y : Thread => dropFetched { restore (snapOf th) y with
      unconf := y.unconf.filter (fun v => decide (v.seq < 0)), stores := y.stores.filter (fun a => a.conf || decide (a.seq < 0))
      redo := th.redo, waitRoom := false, evs := [] }
    have heq : squashAll (.core i) s = dropWalks i (fun w => decide (0 ≤ w.seq)) (freeShim i (fun e => decide (0 ≤ e.seq))
        (updThr (.core i) f s)) := by
      show squashFrom i 0 s = _
      unfold squashFrom
      dsimp only
      rw [hun]
      rfl
    have hstores : th.stores.filter (fun a => a.conf || decide (a.seq < 0)) = th.stores :=
      List.filter_eq_self.mpr fun a ha => by rw [hst rfl a ha]; rfl
    rw [heq]
    refine ⟨fun y => ?_, keeps_trans (keeps_mono (by decide) (keeps_updThr (s := s) (.core i) f)) ?_⟩
    · show (thr (updThr (.core i) f s) y).calm = _
      rw [thr_updThr]
      split
      · next hy =>
        subst hy
        show ({ th.calm with stores := th.stores.filter (fun a => a.conf || decide (a.seq < 0)) } : Thread) = _
        rw [hstores]
        rfl
      · rfl
    · exact (keeps_refl [.thr, .core] _).updCore.updCore

/-- The interrupt's entry, from a state whose squash leaves the thread as it was: the priority is pushed (R105, R110). -/
theorem enterInterrupt_spec {p : Nat} (hun : (thr s t).unconf = []) (hst : isAdze t = false → ∀ a ∈ (thr s t).stores, a.conf = true)
    (hp : irqPrio (thr s t) = some p) (hat : entering (thr s t) irqExc (thr s t).pc = .at x irqExc) :
    let u := enterInterrupt t s
    (thr u t).calm = (flushed t { enterLevel x irqExc (thr s t).pc (thr s t) with
        ev := { (thr s t).ev with stack := BitVec.ofNat 4 p :: (thr s t).ev.stack } }).calm ∧
      (thr u t).resv = none ∧ OthersCalm t s u ∧ Keeps entryPieces s u := by
  obtain ⟨hcalm, hkeeps⟩ := squashAll_alone hun hst
  have hpc : (thr (squashAll t s) t).pc = (thr s t).pc := by
    have h := congrArg Thread.pc (hcalm t)
    exact h
  have hat' : entering (thr (squashAll t s) t) irqExc (thr (squashAll t s) t).pc = .at x irqExc := by
    rw [hpc, entering_of_calm _ (hcalm t)]
    exact hat
  obtain ⟨hself, hresv, hothers, hk⟩ := enterException_at hat' rfl (fun h => absurd h (by decide)) (by decide)
  let push := updEv (fun v => { v with stack := BitVec.ofNat 4 p :: v.stack })
  have heq : enterInterrupt t s = updThr t push (enterException t irqExc (squashAll t s)) := by
    unfold enterInterrupt
    dsimp only
    rw [irqPrio_of_calm (hcalm t), hp]
    dsimp only
    rw [hat']
    rfl
  have hpush {a b : Thread} (h : a.calm = b.calm) : (push a).calm = (push b).calm := by
    have hc (y : Thread) : (push y).calm = push y.calm := rfl
    rw [hc, h, ← hc]
  intro u
  simp only [u, heq]
  refine ⟨?_, ?_, fun y hy => ?_, keeps_trans (keeps_trans (keeps_mono (by decide) hkeeps) hk) (keeps_refl entryPieces _).updThr⟩
  · rw [thr_updThr, if_pos rfl]
    refine (hpush hself).trans ?_
    have hlevel := calm_enterLevel (x := x) (e := irqExc) (thr s t).pc (hcalm t)
    unfold enteredThread
    rw [hpc]
    cases t with
    | adze j =>
      refine (hpush hlevel).trans ?_
      cases x <;> rfl
    | core i =>
      have hboth := hpush hlevel
      have hflush := congrArg (fun y : Thread => ({ y with rstack := [], mdp := [], redo := none } : Thread)) hboth
      refine Eq.trans ?_ (hflush.trans ?_)
      · rfl
      · cases x <;> rfl
  · rw [thr_updThr, if_pos rfl]
    exact hresv
  · rw [thr_updThr, if_neg hy]
    exact (hothers y hy).trans (hcalm y)

/-- Settles O18: at a boundary with nothing in flight the squash takes nothing of the thread, and the entry pushes the
priority; an engine begins its entry first. -/
theorem interruptEntry : Obligations.InterruptEntry := by
  unfold Obligations.InterruptEntry
  intro s t p x th irq enters hun hhalt hruns hie hp hat
  have htakes : irqTakes th = true := by
    show (th.tstat.ie && (irqPrio th).isSome) = true
    rw [hie, hp]
    rfl
  have hbound (hrun : th.run = .dozing ∨ th.run = .fencing ∨ (th.run = .running ∧ th.held ≠ .other ∧ th.held ≠ .entering)) :
      atBoundary s t = true := by
    unfold atBoundary
    dsimp only
    rw [show halted (thr s t) = false from hhalt, hruns]
    rcases hrun with h | h | ⟨h, h1, h2⟩
    · rw [show (thr s t).run = .dozing from h]; rfl
    · rw [show (thr s t).run = .fencing from h]; rfl
    · rw [show (thr s t).run = .running from h]
      have hheld : (thr s t).held = .ready ∨ (thr s t).held = .abandonable := by
        have h1' : (thr s t).held ≠ .other := h1
        have h2' : (thr s t).held ≠ .entering := h2
        cases hh : (thr s t).held <;> simp_all
      rcases hheld with hh | hh <;> rw [hh] <;> rfl
  refine ⟨fun hrun => ⟨fun i ht hst => ?_, fun j ht => ?_⟩, fun j ht hrun hheld => ?_⟩
  · subst ht
    have habandon : abandonLoad (.core i) s = s := by
      unfold abandonLoad
      rcases hrun with h | h | ⟨h, -⟩ <;> rw [show (thr s (.core i)).run = _ from h]
    have hexec : exec (.interruptEntry i) s = .next (enterInterrupt (.core i) s) := by
      show execInterruptEntry i s = _
      unfold execInterruptEntry
      rw [show irqTakes (thr s (.core i)) = true from htakes, habandon]
      exact if_pos (hbound hrun)
    exact ⟨_, hexec, enterInterrupt_spec hun (fun _ => hst) hp hat⟩
  · subst ht
    have hexec : exec (.adzeInterruptEntry j) s = .next (updThr (.adze j) beginEntry s) := by
      show execAdzeInterruptEntry j s = _
      unfold execAdzeInterruptEntry
      dsimp only
      rw [if_neg ?_, show irqTakes (thr s (.adze j)) = true from htakes, hbound hrun]
      · rfl
      · intro h
        simp only [Bool.and_eq_true, decide_eq_true_eq] at h
        obtain ⟨hh, hr⟩ := h
        rcases hrun with h | h | ⟨-, -, h2⟩
        · exact absurd (hr.symm.trans h) (by decide)
        · exact absurd (hr.symm.trans h) (by decide)
        · exact h2 hh
    refine ⟨_, hexec, ?_, fun y hy => ?_, (keeps_refl _ s).updThr⟩
    · rw [thr_updThr, if_pos rfl]
      rfl
    · rw [thr_updThr, if_neg hy]
  · subst ht
    have hexec : exec (.adzeInterruptEntry j) s = .next (enterInterrupt (.adze j) s) := by
      show execAdzeInterruptEntry j s = _
      unfold execAdzeInterruptEntry
      dsimp only
      rw [if_pos (by simp [show (thr s (.adze j)).held = .entering from hheld, show (thr s (.adze j)).run = .running from hrun]),
        hruns, show halted (thr s (.adze j)) = false from hhalt]
      rfl
    exact ⟨_, hexec, enterInterrupt_spec hun (fun h => by cases h) hp hat⟩

end Sys2Proof.Machine
end

section
/-! The resets of the main logic and what ends a device's work: stopped partitions, ended items, links that close (R45, R305,
R460). -/
namespace Sys2Proof.Machine
set_option Elab.async false
variable {s u v : State} {P : List Piece}

/-! ## Frames -/

theorem keeps_freeBit (s : State) : Keeps [.fresh] s (freeBit s).2 := by
  intro p hp
  cases p <;> simp_all [Piece.same, freeBit]

theorem Keeps.beginSolo {c : ℕ} {me : Fin 4} (h : Keeps P s u) (hP : ∀ p ∈ ([.core] : List Piece), p ∈ P := by decide)
    : Keeps P s (Machine.beginSolo c me u) := by
  refine h.via ?_ hP
  have h := keeps_refl [.core] u
  unfold Machine.beginSolo
  exact h.updCore

theorem Keeps.releaseSolo {c : ℕ} (h : Keeps P s u) (hP : ∀ p ∈ ([.thr, .core] : List Piece), p ∈ P := by decide)
    : Keeps P s (Machine.releaseSolo c u) := by
  refine h.via ?_ hP
  have h := keeps_refl [.thr, .core] u
  unfold Machine.releaseSolo
  dsimp only
  split
  · exact h
  · exact (Keeps.each h fun _ _ hx => hx.updThr).updCore

theorem Keeps.endSolo {c : ℕ} (h : Keeps P s u) (hP : ∀ p ∈ ([.thr, .core] : List Piece), p ∈ P := by decide)
    : Keeps P s (Machine.endSolo c u) := by
  refine h.via ?_ hP
  have h := keeps_refl [.thr, .core] u
  unfold Machine.endSolo
  dsimp only
  split
  · exact h.releaseSolo
  · split
    · exact h.releaseSolo
    · split
      · exact h.releaseSolo.updThr.beginSolo
      · exact h.releaseSolo

theorem Keeps.maybePerform {t : Thr} {a : Access} (h : Keeps P s u) (hP : ∀ p ∈
    ([.thr, .bay, .slice, .eng, .mem, .old, .poison, .fresh, .wake, .log] : List Piece), p ∈ P := by decide) : Keeps P s
    (Machine.maybePerform t a u) := by
  refine h.via ?_ hP
  have h := keeps_refl [.thr, .bay, .slice, .eng, .mem, .old, .poison, .fresh, .wake, .log] u
  unfold Machine.maybePerform
  dsimp only
  split
  · exact h
  · have hb := h.frame (keeps_mono (by decide) (keeps_freeBit u))
    split
    · exact hb.storeBytes
    · exact hb

theorem Keeps.haltThread {t : Thr} (h : Keeps P s u) (hP : ∀ p ∈
    ([.thr, .bay, .slice, .eng, .mem, .old, .poison, .fresh, .wake, .log] : List Piece), p ∈ P := by decide) : Keeps P s
    (Machine.haltThread t u) := by
  refine h.via ?_ hP
  have h := keeps_refl [.thr, .bay, .slice, .eng, .mem, .old, .poison, .fresh, .wake, .log] u
  unfold Machine.haltThread
  dsimp only
  exact Keeps.each h.loseResv.updThr fun _ _ hx => hx.maybePerform

theorem Keeps.markSources {l : List Src} {o : Bool} (h : Keeps P s u) (hP : ∀ p ∈ ([.srcs] : List Piece), p ∈ P
    := by decide) : Keeps P s (Machine.markSources l o u) := by
  refine h.via ?_ hP
  have h := keeps_refl [.srcs] u
  unfold Machine.markSources
  exact Keeps.each h fun _ _ hx => hx.updSrc

theorem Keeps.updPair {ns : Bool} {f : Pair → Pair} (h : Keeps P s u) (hP : ∀ p ∈ ([.ridge] : List Piece), p ∈ P
    := by decide) : Keeps P s (Machine.updPair ns f u) := by
  refine h.via ?_ hP
  have h := keeps_refl [.ridge] u
  unfold Machine.updPair
  exact h.updRidge

theorem Keeps.beginLeave {ns : Bool} (h : Keeps P s u) (hP : ∀ p ∈ ([.ridge, .bw, .xing, .out] : List Piece), p ∈ P
    := by decide) : Keeps P s (Machine.beginLeave ns u) := by
  refine h.via ?_ hP
  have h := keeps_refl [.ridge, .bw, .xing, .out] u
  unfold Machine.beginLeave
  dsimp only
  split
  · exact h
  · refine Keeps.updPair ?_
    refine Keeps.each h fun _ _ hx => ?_
    split
    · exact hx.portSend
    · exact hx

theorem Keeps.brace (h : Keeps P s u) (hP : ∀ p ∈ ([.thr, .ridge, .bw, .xing, .out, .pw, .wake, .ep, .pba, .wr, .log]
    : List Piece), p ∈ P := by decide) : Keeps P s (Machine.brace u) := by
  refine h.via ?_ hP
  have h := keeps_refl [.thr, .ridge, .bw, .xing, .out, .pw, .wake, .ep, .pba, .wr, .log] u
  unfold Machine.brace
  exact h.updPw.settleMode

theorem Keeps.logRail {r : ℕ} {warn : Bool} {below : Bool} {mv : BitVec 16} (h : Keeps P s u) (hP : ∀ p ∈ ([.log]
    : List Piece), p ∈ P := by decide) : Keeps P s (Machine.logRail r warn below mv u) := by
  refine h.via ?_ hP
  have h := keeps_refl [.log] u
  unfold Machine.logRail
  dsimp only
  exact h.wrightEvent

theorem Keeps.warned {r : ℕ} {mv : BitVec 16} (h : Keeps P s u) (hP : ∀ p ∈
    ([.thr, .ridge, .bw, .xing, .out, .pw, .wake, .ep, .pba, .wr, .log] : List Piece), p ∈ P := by decide) : Keeps P s
    (Machine.warned r mv u) := by
  refine h.via ?_ hP
  have h := keeps_refl [.thr, .ridge, .bw, .xing, .out, .pw, .wake, .ep, .pba, .wr, .log] u
  unfold Machine.warned
  dsimp only
  refine Keeps.brace ?_
  split
  · exact h.updRail.logRail
  · exact h.updRail

theorem Keeps.crossed {r : ℕ} {mv : BitVec 16} (h : Keeps P s u) (hP : ∀ p ∈
    ([.thr, .ridge, .bw, .xing, .out, .pw, .wake, .ep, .pba, .wr, .log] : List Piece), p ∈ P := by decide) : Keeps P s
    (Machine.crossed r mv u) := by
  refine h.via ?_ hP
  have h := keeps_refl [.thr, .ridge, .bw, .xing, .out, .pw, .wake, .ep, .pba, .wr, .log] u
  unfold Machine.crossed
  exact h.warned.updRail.logRail

theorem Keeps.notifyReady (h : Keeps P s u) (hP : ∀ p ∈ ([.ridge, .bw, .xing, .out, .ep, .pba] : List Piece), p ∈ P
    := by decide) : Keeps P s (Machine.notifyReady u) := by
  refine h.via ?_ hP
  have h := keeps_refl [.ridge, .bw, .xing, .out, .ep, .pba] u
  unfold Machine.notifyReady
  split
  · exact h
  · exact h.updEp.noticeMsg

theorem Keeps.setReady {f : Ready → Ready} (h : Keeps P s u) (hP : ∀ p ∈ ([.ridge, .bw, .xing, .out, .pw, .ep, .pba]
    : List Piece), p ∈ P := by decide) : Keeps P s (Machine.setReady f u) := by
  refine h.via ?_ hP
  have h := keeps_refl [.ridge, .bw, .xing, .out, .pw, .ep, .pba] u
  unfold Machine.setReady
  dsimp only
  split
  · exact h
  · exact h.updPw.notifyReady

theorem Keeps.setPortReady {x : Port} {b : Bool} (h : Keeps P s u) (hP : ∀ p ∈
    ([.ridge, .bw, .xing, .out, .pw, .ep, .pba] : List Piece), p ∈ P := by decide) : Keeps P s
    (Machine.setPortReady x b u) := by
  refine h.via ?_ hP
  have h := keeps_refl [.ridge, .bw, .xing, .out, .pw, .ep, .pba] u
  unfold Machine.setPortReady
  exact h.setReady

theorem Keeps.sourceLost {x : Port} (h : Keeps P s u) (hP : ∀ p ∈ ([.time] : List Piece), p ∈ P := by decide)
    : Keeps P s (Machine.sourceLost x u) := by
  refine h.via ?_ hP
  have h := keeps_refl [.time] u
  unfold Machine.sourceLost
  dsimp only
  split
  · exact h.frame
  · exact h

theorem Keeps.closePair {ns : Bool} {step : PairStep} (h : Keeps P s u) (hP : ∀ p ∈
    ([.time, .ridge, .bw, .xing, .out, .pw, .ep, .pba] : List Piece), p ∈ P := by decide) : Keeps P s
    (Machine.closePair ns step u) := by
  refine h.via ?_ hP
  have h := keeps_refl [.time, .ridge, .bw, .xing, .out, .pw, .ep, .pba] u
  unfold Machine.closePair
  dsimp only
  refine Keeps.updPair ?_
  refine Keeps.each ?_ fun _ _ hx => ?_
  · refine Keeps.each h fun _ _ hx => ?_
    split
    · exact hx.sourceLost
    · exact hx
  · exact hx.updPort.setPortReady

/-! ## The power state -/

/-- The power state without the readiness map too. -/
def firmOf (p : Power) : Power := { standingOf p with ready := Ready.reset }

/-- The power state stands but for what work that ends changes in it. -/
def Firm (s u : State) : Prop := firmOf u.pw = firmOf s.pw

theorem firm_refl (s : State) : Firm s s := rfl

theorem Firm.trans (h : Firm s u) (k : Firm u v) : Firm s v := Eq.trans k h

theorem Firm.wired (h : Firm s u) (k : Wired u v) : Firm s v :=
  have e : firmOf v.pw = firmOf u.pw := congrArg (fun p : Power => { p with ready := Ready.reset }) k.pw
  h.trans e

theorem Firm.keeps (h : Firm s u) (k : Keeps P u v) (hp : Piece.pw ∉ P := by decide) : Firm s v := by
  have e : { v.pw with wake := [], routerHeld := [] } = { u.pw with wake := [], routerHeld := [] } := k .pw hp
  have e' := congrArg firmOf e
  exact h.trans e'

theorem Firm.each {α : Type} {l : List α} {f : α → State → State} (h : Firm s u) (hf : ∀ a x, Firm s x → Firm s (f a x)) :
    Firm s (Machine.forEach l f u) :=
  forEach_keeps (Firm s) f l u h fun a _ x hx => hf a x hx

theorem Firm.field (h : Firm s u) {α : Type} (f : Power → α) (hf : ∀ p, f (firmOf p) = f p := by exact fun _ => rfl) :
    f u.pw = f s.pw := by
  rw [← hf, h, hf]

theorem Firm.setReady {f : Ready → Ready} (h : Firm s u) : Firm s (Machine.setReady f u) := by
  unfold Machine.setReady
  extract_lets r
  split
  · exact h
  · have h' : Firm s (Machine.updPw (fun p => { p with ready := r }) u) := h.trans rfl
    exact h'.keeps (keeps_refl [.ridge, .bw, .xing, .out, .ep, .pba] _).notifyReady

theorem Firm.closePair {ns : Bool} {step : PairStep} (h : Firm s u) : Firm s (Machine.closePair ns step u) := by
  unfold Machine.closePair
  extract_lets a k b
  have ha : Firm s a := h.each fun x y hy => by
    split
    · exact hy.keeps (keeps_refl [.time] y).sourceLost
    · exact hy
  have hb : Firm s b := ha.each fun x y hy => (hy.keeps (keeps_refl [.ridge] y).updPort).setReady
  exact hb.keeps (keeps_refl [.ridge] b).updPair

/-! ## Settling the mode of a device just reset -/

/-- The error log takes at most one entry for an event of the Wright, and keeps what it held while it has room. -/
theorem wrightEvent_log (a : Word) (y : State) : ∃ w, wrightEvent 1 a 0 y = { y with wr := w } ∧ w.st = y.wr.st ∧
    w.store = y.wr.store ∧ w.history = y.wr.history ∧ w.log.length ≤ y.wr.log.length + 1 ∧
    (y.wr.log.length < 16384 → ∃ l, l.length ≤ 1 ∧ w.log = y.wr.log ++ l) := by
  have hentry (z : State) (hz : z.wr.log = y.wr.log) : ∃ w, logEntry 1 a 0 z = { z with wr := w } ∧ w.st = z.wr.st ∧
      w.store = z.wr.store ∧ w.history = z.wr.history ∧ w.log.length ≤ y.wr.log.length + 1 ∧
      (y.wr.log.length < 16384 → ∃ l, l.length ≤ 1 ∧ w.log = y.wr.log ++ l) := by
    rw [← hz]
    obtain ⟨l, hl⟩ : ∃ l, l = (z.wr.log ++ [LogE.mk z.time.now z.wr.logNext 1 a 0]).drop (z.wr.log.length + 1 - 16384) := ⟨_, rfl⟩
    have he : logEntry 1 a 0 z = { z with wr := { z.wr with log := l, logNext := z.wr.logNext + 1 } } := by
      simp only [logEntry, updWr, hl]
    refine ⟨_, he, rfl, rfl, rfl, ?_, fun hroom => ⟨[LogE.mk z.time.now z.wr.logNext 1 a 0], Nat.le_refl 1, ?_⟩⟩
    · change l.length ≤ _
      rw [hl, List.length_drop, List.length_append]
      exact Nat.sub_le _ _
    · change l = _
      rw [hl, Nat.sub_eq_zero_of_le hroom, List.drop_zero]
  have hlogless (w : Wright) (hl : w.log = y.wr.log) (hs : w.st = y.wr.st ∧ w.store = y.wr.store ∧ w.history = y.wr.history) :
      w.st = y.wr.st ∧ w.store = y.wr.store ∧ w.history = y.wr.history ∧ w.log.length ≤ y.wr.log.length + 1 ∧
      (y.wr.log.length < 16384 → ∃ l, l.length ≤ 1 ∧ w.log = y.wr.log ++ l) :=
    ⟨hs.1, hs.2.1, hs.2.2, by rw [hl]; exact Nat.le_succ _, fun _ => ⟨[], Nat.zero_le _, by rw [hl, List.append_nil]⟩⟩
  unfold wrightEvent
  split
  · split
    · exact hentry (updWr _ y) rfl
    · exact ⟨_, rfl, hlogless _ rfl ⟨rfl, rfl, rfl⟩⟩
  · exact hentry y rfl

/-- A partition with no control thread takes no event. -/
theorem partEvents_none {l : List Nat} {source : BitVec 8} {index : BitVec 16} {w : Word} (hpart : s.part = []) :
    forEach l (fun p acc => partEvent p source index w acc) s = s := by
  refine forEach_keeps (fun x => x = s) _ _ s rfl fun p _ x hx => ?_
  subst hx
  have hken : (part x p).ken = false := by
    unfold part
    rw [hpart]
    rfl
  unfold partEvent
  rw [hken]
  rfl

theorem notifyMode_unset (hn : s.ep.nEn = false) : ∃ e, notifyMode s = { s with ep := e } := by
  unfold notifyMode noticeMsg
  split
  · exact ⟨s.ep, rfl⟩
  · refine ⟨_, if_neg ?_⟩
    change ¬ (s.ep.nEn = true)
    rw [hn]
    decide

theorem settleMode_changed (h : ¬ (decide (modeNow s = s.pw.mode) || decide (modeNow s = 0) || decide (s.pw.mode = 0)) = true) :
    settleMode s =
      let y := updPw (fun p => { p with mode := modeNow s, modeChanges := p.modeChanges + 1 }) s
      let w := deviceMode y
      let y' := updWr (fun x => { x with history := (x.history ++ [(y.time.now, w)]).drop (x.history.length + 1 - 64) }) y
      let y'' := wrightEvent 1 (w.setWidth 64) 0 y'
      notifyMode (forEach (List.range 8) (fun p acc => partEvent p 6 0 (w.setWidth 64) acc) y'') :=
  if_neg h

/-- With no partition configured and no notice vector a change of mode reaches the log and the counts alone. -/
theorem settleMode_quiet (hpart : s.part = []) (hn : s.ep.nEn = false) : ∃ (c : BitVec 8) (w : Wright) (e : Endpoint),
    settleMode s = { s with pw := { s.pw with mode := modeNow s, modeChanges := c }, wr := w, ep := e } ∧
    w.st = s.wr.st ∧ w.store = s.wr.store ∧ w.history.length ≤ s.wr.history.length + 1 ∧ w.log.length ≤ s.wr.log.length + 1 ∧
    (s.wr.log.length < 16384 → ∃ l, l.length ≤ 1 ∧ w.log = s.wr.log ++ l) := by
  by_cases h : (decide (modeNow s = s.pw.mode) || decide (modeNow s = 0) || decide (s.pw.mode = 0)) = true
  · refine ⟨s.pw.modeChanges, s.wr, s.ep, (if_pos h).trans rfl, rfl, rfl, Nat.le_succ _, Nat.le_succ _, fun _ => ⟨[], ?_⟩⟩
    exact ⟨Nat.zero_le _, (List.append_nil _).symm⟩
  · have hs := settleMode_changed h
    extract_lets y w y' y'' at hs
    obtain ⟨w', hw, hst, hstore, hhist, hlen, hlog⟩ := wrightEvent_log (w.setWidth 64) y'
    obtain ⟨e, he⟩ := notifyMode_unset (s := y'') (by rw [show y'' = _ from hw]; exact hn)
    rw [partEvents_none (by rw [show y'' = _ from hw]; exact hpart), he, show y'' = _ from hw] at hs
    refine ⟨s.pw.modeChanges + 1, w', e, hs, hst, hstore, ?_, hlen, hlog⟩
    rw [hhist]
    change ((s.wr.history ++ [(s.time.now, w)]).drop _).length ≤ _
    rw [List.length_drop, List.length_append]
    exact Nat.sub_le _ _

/-! ## The reset of the main logic -/

/-- What a reset of the main logic carries over stands in `u` as in `s`. -/
structure Carried (cold : Bool) (s u : State) : Prop where
  keeps : Keeps [.time, .thr, .ridge, .bw, .xing, .out, .pw, .wake, .ep, .pba, .wr, .log] s u
  time : { u.time with alignedSince := false, source := 0, aligned := false } =
    { s.time with alignedSince := false, source := 0, aligned := false }
  on : u.pw.sillOn = s.pw.sillOn
  straps : u.pw.straps = s.pw.straps
  store : u.wr.store = s.wr.store
  log : cold = false → u.wr.log = s.wr.log

/-- Closing a pair may lose the source of TIME, and changes nothing else of it. -/
theorem aligned_closePair (s : State) (ns : Bool) (step : PairStep) :
    { (closePair ns step s).time with alignedSince := false, source := 0, aligned := false } =
      { s.time with alignedSince := false, source := 0, aligned := false } := by
  unfold closePair
  extract_lets a k b
  have ha : { a.time with alignedSince := false, source := 0, aligned := false } =
      { s.time with alignedSince := false, source := 0, aligned := false } := by
    refine forEach_keeps (fun x : State => { x.time with alignedSince := false, source := 0, aligned := false } =
      { s.time with alignedSince := false, source := 0, aligned := false }) _ _ s rfl fun x _ y hy => ?_
    unfold sourceLost
    split
    · split
      · exact hy
      · exact hy
    · exact hy
  have hb : b.time = a.time := ((keeps_refl [.ridge, .bw, .xing, .out, .pw, .ep, .pba] a).each fun x y hy =>
    hy.updPort.setPortReady) .time (by decide)
  change { b.time with alignedSince := false, source := 0, aligned := false } = _
  rw [hb, ha]

theorem Carried.closePair {cold ns : Bool} {step : PairStep} (h : Carried cold s u) :
    Carried cold s (Machine.closePair ns step u) := by
  have hk := (keeps_refl [.time, .ridge, .bw, .xing, .out, .pw, .ep, .pba] u).closePair (ns := ns) (step := step)
  have hf := (firm_refl u).closePair (ns := ns) (step := step)
  have hwr : { (Machine.closePair ns step u).wr with log := [], logNext := 0, heldEvents := 0, lostEvents := 0 } =
      { u.wr with log := [], logNext := 0, heldEvents := 0, lostEvents := 0 } := hk .wr (by decide)
  have hlog := hk .log (by decide)
  refine ⟨h.keeps.via hk (by decide), ?_, (hf.field Power.sillOn).trans h.on, (hf.field Power.straps).trans h.straps, ?_,
    fun hc => hlog.1.trans (h.log hc)⟩
  · exact (aligned_closePair u ns step).trans h.time
  · have hstore := congrArg Wright.store hwr
    exact hstore.trans h.store

/-- The main logic as reset, before its mode settles. -/
def mainState (cold : Bool) (s : State) : State :=
  { State.reset with
    pending := s.pending
    time := { s.time with alignedSince := false, source := 0, aligned := false }
    pw := resetPower cold s.pw
    bay := if cold then [] else editAll Bay.reset (fun _ y => keepBay y) s.bay
    srcs := if cold then [] else editAll SrcEnt.reset (fun _ e => { e with isOpen := false }) s.srcs
    eng := if cold then [] else editAll Engine.reset (fun _ e => { Engine.reset with onSpare := e.onSpare }) s.eng
    stale := if cold then 0 else s.stale
    downDrop := if cold then 0 else s.downDrop
    stray := if cold then 0 else s.stray
    queue := editAll Queue.reset (fun _ q => { Queue.reset with ai := q.ai, floor := q.floor }) s.queue
    dimms := s.dimms
    ep := resetEndpoint cold s.ep
    wr := resetWright cold s.wr
    out := s.out
    fresh := s.fresh }

theorem resetMain_eq (cold : Bool) :
    resetMain cold s = settleMode (mainState cold (closePair true .idle (closePair false .idle s))) := rfl

theorem modeNow_mainState (cold : Bool) : modeNow (mainState cold s) = if s.pw.sillOn then 1 else 0 := by
  have hon : (mainState cold s).pw.sillOn = s.pw.sillOn := rfl
  have hsb : standbyCond (mainState cold s) = true := by
    have hr : (mainState cold s).pw.inReset = true := rfl
    unfold standbyCond
    rw [hr, Bool.or_true]
  unfold modeNow
  rw [hon, hsb]
  cases s.pw.sillOn <;> rfl

theorem mainReset_of_carried {cold : Bool} (h : Carried cold s u) : MainReset cold s (resetMain cold u) := by
  have hc := (h.closePair (ns := false) (step := .idle)).closePair (ns := true) (step := .idle)
  rw [resetMain_eq]
  generalize closePair true .idle (closePair false .idle u) = y at hc
  obtain ⟨c, w, e, hs, hst, hstore, hhist, hlen, hlog⟩ := settleMode_quiet (s := mainState cold y) rfl rfl
  rw [hs, modeNow_mainState, hc.on]
  have hkeep (p : Piece) (hp : p ∉ [Piece.time, .thr, .ridge, .bw, .xing, .out, .pw, .wake, .ep, .pba, .wr, .log]) :
      p.same s y := hc.keeps p hp
  refine ⟨hkeep .pending (by decide), hc.time, rfl, rfl, rfl, rfl, rfl, rfl, rfl, rfl, rfl, rfl, rfl, rfl, rfl, rfl, rfl,
    hkeep .dimms (by decide), fun q => ?_, hst, ?_, ?_, ?_, rfl, rfl, rfl, rfl, rfl, hc.straps, rfl, fun hcold => ?_, fun hwarm => ?_⟩
  case refine_1 =>
    have hq : (mainState cold y).queue = editAll Queue.reset (fun _ q => { Queue.reset with ai := q.ai, floor := q.floor }) s.queue := by
      rw [← show y.queue = s.queue from hkeep .queue (by decide)]
      rfl
    change look Queue.reset (mainState cold y).queue q = _
    rw [hq, look_editAll _ _ fun _ => rfl]
    rfl
  case refine_2 =>
    change w.store.slotA = _
    rw [hstore, ← hc.store]
    rfl
  case refine_3 =>
    change w.store.slotB = _
    rw [hstore, ← hc.store]
    rfl
  case refine_4 =>
    change w.store.active = _
    rw [hstore]
    rfl
  case refine_5 =>
    subst hcold
    exact ⟨rfl, rfl, rfl, hlen, hhist⟩
  case refine_6 =>
    subst hwarm
    have hbay (b : Nat) : look Bay.reset (mainState false y).bay b = keepBay (bay s b) := by
      rw [show (mainState false y).bay = editAll Bay.reset (fun _ y => keepBay y) y.bay from rfl, look_editAll _ _ fun _ => rfl,
        show y.bay = s.bay from hkeep .bay (by decide)]
      rfl
    refine ⟨fun x => ?_, fun k => ?_, fun b => ?_, fun k => ?_, fun hroom => ?_⟩
    · have hx : look SrcEnt.reset (mainState false y).srcs (srcKey x) = { srcEnt s x with isOpen := false } := by
        rw [show (mainState false y).srcs = editAll SrcEnt.reset (fun _ e => { e with isOpen := false }) y.srcs from rfl,
          look_editAll _ _ fun _ => rfl, show y.srcs = s.srcs from hkeep .srcs (by decide)]
        rfl
      have hgen := congrArg SrcEnt.gen hx
      have hopen := congrArg SrcEnt.isOpen hx
      exact ⟨hgen, hopen⟩
    · change (if k.val % 4 = 0 then (look Bay.reset (mainState false y).bay (k.val / 4)).site0 else
        if k.val % 4 = 1 then (look Bay.reset (mainState false y).bay (k.val / 4)).site1 else
        if k.val % 4 = 2 then (look Bay.reset (mainState false y).bay (k.val / 4)).site2 else
          (look Bay.reset (mainState false y).bay (k.val / 4)).site3) = _
      rw [hbay]
      rfl
    · change (look Bay.reset (mainState false y).bay b).spare = _ ∧ (look Bay.reset (mainState false y).bay b).retired = _ ∧
        (look Bay.reset (mainState false y).bay b).l2 = [] ∧ (look Bay.reset (mainState false y).bay b).powered = _
      rw [hbay]
      exact ⟨rfl, rfl, rfl, rfl⟩
    · change look Engine.reset (mainState false y).eng k = _
      rw [show (mainState false y).eng = editAll Engine.reset (fun _ e => { Engine.reset with onSpare := e.onSpare }) y.eng from rfl,
        look_editAll _ _ fun _ => rfl, show y.eng = s.eng from hkeep .eng (by decide)]
      rfl
    · have hl : (mainState false y).wr.log = s.wr.log := hc.log rfl
      rw [hl] at hlog
      exact hlog hroom

/-! ## Stopping the partitions -/

theorem isOpen_closeEach (l : List Src) (now : Word) (x : Src) :
    (srcEnt (forEach l (fun x acc => updSrc x (fun e => { e with isOpen := false, tChange := now }) acc) s) x).isOpen = true →
      x ∉ l ∧ (srcEnt s x).isOpen = true := by
  induction l generalizing s with
  | nil => exact fun h => ⟨List.not_mem_nil, h⟩
  | cons y l ih =>
    intro h
    rw [forEach_cons] at h
    obtain ⟨hx, hopen⟩ := ih h
    rw [srcEnt_updSrc] at hopen
    by_cases hy : x = y
    · rw [if_pos hy] at hopen
      exact absurd hopen Bool.false_ne_true
    · rw [if_neg hy] at hopen
      exact ⟨fun hm => (List.mem_cons.mp hm).elim hy hx, hopen⟩

theorem isOpen_markSources (l : List Src) {x : Src} (h : (srcEnt (markSources l false s) x).isOpen = true) :
    x ∉ l ∧ (srcEnt s x).isOpen = true :=
  isOpen_closeEach l s.time.now x h

/-- One partition stops: its sources are closed, and its threads halt. -/
def stopOne (p : Nat) (s : State) : State :=
  let ts := threadsOf s p
  let a := markSources ((sourcesOf s p).filter (fun x => (srcEnt s x).isOpen)) false s
  let a := forEach (bitsOf (part a p).bays) (fun b x => forEach (List.range 4) (fun c y => endSolo (4 * b + c) y) x) a
  forEach ts haltThread a

theorem stopAll_eq : stopAll s = forEach (List.range 8) stopOne s := rfl

theorem Keeps.stopOne {p : Nat} (h : Keeps P s u)
    (hP : ∀ p ∈ ([.thr, .core, .bay, .slice, .srcs, .eng, .mem, .old, .poison, .fresh, .wake, .log] : List Piece), p ∈ P := by decide) :
    Keeps P s (Machine.stopOne p u) := by
  refine h.via ?_ hP
  have h := keeps_refl [.thr, .core, .bay, .slice, .srcs, .eng, .mem, .old, .poison, .fresh, .wake, .log] u
  unfold Machine.stopOne
  exact Keeps.each (Keeps.each h.markSources fun _ _ hx => Keeps.each hx fun _ _ hy => hy.endSolo) fun _ _ hx => hx.haltThread

theorem Keeps.stopAll (h : Keeps P s u)
    (hP : ∀ p ∈ ([.thr, .core, .bay, .slice, .srcs, .eng, .mem, .old, .poison, .fresh, .wake, .log] : List Piece), p ∈ P := by decide) :
    Keeps P s (Machine.stopAll u) :=
  h.via (Keeps.each (keeps_refl _ u) fun _ _ hx => hx.stopOne) hP

theorem sourcesOf_of_keeps (h : Keeps P s u) (p : Nat) (hp : Piece.part ∉ P := by decide) : sourcesOf u p = sourcesOf s p := by
  have e : u.part = s.part := h .part hp
  unfold sourcesOf part
  rw [e]

theorem isOpen_stopOne (p : Nat) {x : Src} (h : (srcEnt (stopOne p s) x).isOpen = true) :
    x ∉ sourcesOf s p ∧ (srcEnt s x).isOpen = true := by
  unfold stopOne at h
  extract_lets ts a b at h
  have hk : Keeps [.thr, .core, .bay, .slice, .eng, .mem, .old, .poison, .fresh, .wake, .log] a (forEach ts haltThread b) :=
    Keeps.each (Keeps.each (keeps_refl _ a) fun _ _ hx => Keeps.each hx fun _ _ hy => hy.endSolo) fun _ _ hx => hx.haltThread
  have hs : srcEnt (forEach ts haltThread b) x = srcEnt a x := by
    unfold srcEnt
    rw [show (forEach ts haltThread b).srcs = a.srcs from hk .srcs (by decide)]
  rw [hs] at h
  obtain ⟨hx, hopen⟩ := isOpen_markSources _ h
  exact ⟨fun hm => hx (List.mem_filter.mpr ⟨hm, hopen⟩), hopen⟩

theorem isOpen_stopEach (l : List Nat) {x : Src} (h : (srcEnt (forEach l stopOne s) x).isOpen = true) :
    (∀ p ∈ l, x ∉ sourcesOf s p) ∧ (srcEnt s x).isOpen = true := by
  induction l generalizing s with
  | nil => exact ⟨fun _ hp => absurd hp List.not_mem_nil, h⟩
  | cons q l ih =>
    rw [forEach_cons] at h
    obtain ⟨hrest, hq⟩ := ih h
    obtain ⟨hnot, hopen⟩ := isOpen_stopOne q hq
    refine ⟨fun p hp => ?_, hopen⟩
    rcases List.mem_cons.mp hp with rfl | hl
    · exact hnot
    · have hk : Keeps [.thr, .core, .bay, .slice, .srcs, .eng, .mem, .old, .poison, .fresh, .wake, .log] s (stopOne q s) :=
        (keeps_refl _ s).stopOne
      rw [← sourcesOf_of_keeps hk p]
      exact hrest p hl

/-- Every source of a partition is closed once all have stopped. -/
theorem closed_stopAll {p : Nat} (hp : p < 8) {x : Src} (hx : x ∈ sourcesOf s p) : (srcEnt (stopAll s) x).isOpen = false := by
  rw [stopAll_eq]
  exact Bool.eq_false_iff.mpr fun h => (isOpen_stopEach _ h).1 p (List.mem_range.mpr hp) hx

/-! ## Ending every open item -/

/-- How an item stands: its state, whether it failed and why. -/
def endOf (x : Entry) : EntSt × Bool × BitVec 8 := (x.st, x.fail, x.cause)

theorem endOf_iff {x : Entry} {a : EntSt} {b : Bool} {c : BitVec 8} : endOf x = (a, b, c) ↔ x.st = a ∧ x.fail = b ∧ x.cause = c := by
  simp [endOf]

/-- Items end no other way than by their delivery. -/
def Parting (s u : State) : Prop := ∀ e, (entry u e).st = .free ∨ endOf (entry u e) = endOf (entry s e)

theorem parting_refl (s : State) : Parting s s := fun _ => .inr rfl

theorem Parting.trans (h : Parting s u) (k : Parting u v) : Parting s v := fun e => by
  rcases k e with hfree | heq
  · exact .inl hfree
  · rcases h e with hfree | heq'
    · exact .inl ((congrArg Prod.fst heq).trans hfree)
    · exact .inr (heq.trans heq')

theorem Parting.keeps (h : Parting s u) (k : Keeps P u v) (hp : Piece.led ∉ P := by decide) : Parting s v :=
  h.trans fun e => .inr (by rw [k.entry_eq e hp])

theorem Parting.updEntry {e : Nat} {f : Entry → Entry} (h : Parting s u)
    (hf : ∀ x, (f x).st = .free ∨ endOf (f x) = endOf x) : Parting s (Machine.updEntry e f u) :=
  h.trans fun y => by
    rw [entry_updEntry]
    split
    case isTrue hy =>
      rw [hy]
      exact hf _
    case isFalse => exact .inr rfl

theorem parting_deliverHere (e : Nat) : Parting s (deliverHere e s) := by
  unfold deliverHere
  extract_lets x q v a rs w w1 w2 w3
  have h1 : Keeps [.bw, .out, .fresh, .pba] s w1 := ((keeps_refl _ s).each fun _ _ hx => hx.emit).emit
  have h2 : Keeps [.bw, .out, .fresh, .pba] s w2 := Keeps.ite h1.frame h1
  have h3 : Keeps [.bw, .out, .fresh, .pba] s w3 := h2.msiHere.ite h2
  have h4 := ((parting_refl s).keeps h3).keeps ((keeps_refl [.inst] w3).notePoisonedResult (x := x))
  unfold recordDone freeEntry
  exact (h4.updEntry (e := e) (f := fun x => { Entry.reset with etag := x.etag }) fun _ => .inl rfl).keeps
    ((keeps_refl [.queue] _).updQueue)

theorem parting_deliverThere (e : Fin 65536) (d : BitVec 16) : Parting s (deliverThere e d s) := by
  unfold deliverThere
  extract_lets x rs
  split
  · unfold sendRec
    extract_lets
    split
    · exact parting_refl s
    · exact ((parting_refl s).keeps ((keeps_refl [.ridge, .bw, .xing, .out] s).sendReq ‹_›)).updEntry fun _ => .inr rfl
  · refine forEach_keeps (Parting s) _ _ s (parting_refl s) fun w _ y hy => ?_
    extract_lets tg rq
    split
    · exact hy
    · exact (hy.keeps ((keeps_refl [.ridge, .bw, .xing, .out] y).takeTag.sendReq ‹_›)).updEntry fun _ => .inr rfl

theorem parting_deliverRecord (e : Fin 65536) : Parting s (deliverRecord e s) := by
  unfold deliverRecord
  dsimp only
  split
  · exact parting_refl s
  · split
    · exact parting_refl s
    · split
      · exact parting_deliverHere _
      · exact parting_refl s
    · exact parting_deliverThere _ _

theorem parting_deliverAll : Parting s (deliverAll s) := by
  refine forEach_keeps (Parting s) _ _ s (parting_refl s) fun q _ x hx => hx.trans ?_
  refine forEach_keeps (Parting x) _ _ x (parting_refl x) fun e _ y hy => ?_
  split
  · exact hy.trans (parting_deliverRecord _)
  · exact hy

/-- Every item of the list has ended with the cause. -/
theorem endItems_ended (cause : BitVec 8) (l : List Nat) {e : Nat} (hm : e ∈ l ∨ endOf (entry s e) = (.closing, true, cause))
    (hfree : (entry s e).st ≠ .free) (hcl : (entry s e).st ≠ .closing ∨ endOf (entry s e) = (.closing, true, cause)) :
    endOf (entry (forEach l (fun e acc => endItem e true cause 0 acc) s) e) = (.closing, true, cause) := by
  induction l generalizing s with
  | nil => exact hm.resolve_left List.not_mem_nil
  | cons a l ih =>
    rw [forEach_cons]
    obtain ⟨hother, hself⟩ := endItem_entries (s := s) a true cause 0
    by_cases ha : e = a
    · subst ha
      have hend : endOf (entry (endItem e true cause 0 s) e) = (.closing, true, cause) := by
        rcases hcl with hc | hc
        · obtain ⟨h1, h2, h3⟩ := hself hfree hc
          unfold endOf
          rw [h1, h2, h3]
        · have hst : (entry s e).st = .closing := congrArg Prod.fst hc
          have hsame : endItem e true cause 0 s = s := if_pos (by rw [hst]; rfl)
          rw [hsame, hc]
      have hst : (entry (endItem e true cause 0 s) e).st = .closing := congrArg Prod.fst hend
      exact ih (.inr hend) (by rw [hst]; decide) (.inr hend)
    · have he := hother e ha
      exact ih (by rw [he]; exact hm.imp_left fun h => (List.mem_cons.mp h).resolve_left ha) (by rw [he]; exact hfree)
        (by rw [he]; exact hcl)

theorem look_mem {α : Type} {d : α} {t : Tbl α} {k : Nat} (h : look d t k ≠ d) : (k, look d t k) ∈ t := by
  induction t with
  | nil => exact absurd rfl h
  | cons e t ih =>
    obtain ⟨i, v⟩ := e
    rw [look] at h ⊢
    by_cases hi : i = k
    · rw [if_pos hi, hi]
      exact List.mem_cons_self
    · rw [if_neg hi] at h ⊢
      exact List.mem_cons_of_mem _ (ih h)

theorem mem_openItems {e : Nat} (hfree : (entry s e).st ≠ .free) (hcl : (entry s e).st ≠ .closing) : e ∈ openItems s := by
  have hmem : (e, entry s e) ∈ s.led.ent := by
    refine look_mem (d := Entry.reset) fun hr => hfree ?_
    rw [show entry s e = Entry.reset from hr]
    rfl
  refine List.mem_map.mpr ⟨(e, entry s e), List.mem_filter.mpr ⟨hmem, ?_⟩, rfl⟩
  simp [hfree, hcl]

/-- An open item has ended with the cause, or its record has gone. -/
theorem failAll_ended (cause : BitVec 8) {e : Nat} (hfree : (entry s e).st ≠ .free) (hcl : (entry s e).st ≠ .closing) :
    (entry (failAll cause s) e).st = .free ∨ endOf (entry (failAll cause s) e) = (.closing, true, cause) := by
  have hend := endItems_ended cause (openItems s) (.inl (mem_openItems hfree hcl)) hfree (.inl hcl)
  unfold failAll
  rcases parting_deliverAll (s := forEach (openItems s) (fun e acc => endItem e true cause 0 acc) s) e with h | h
  · exact .inl h
  · exact .inr (h.trans hend)

/-! ## Beginning the flush (R305) -/

theorem Keeps.failAll {cause : BitVec 8} (h : Keeps P s u)
    (hP : ∀ p ∈ ([.queue, .led, .inst, .ridge, .bw, .xing, .out, .fresh, .pw, .ep, .pba] : List Piece), p ∈ P := by decide) :
    Keeps P s (Machine.failAll cause u) := by
  refine h.via ?_ hP
  have h := keeps_refl [.queue, .led, .inst, .ridge, .bw, .xing, .out, .fresh, .pw, .ep, .pba] u
  unfold Machine.failAll
  exact (Keeps.each h fun _ _ hx => hx.endItem).deliverAll

theorem Keeps.leaveAll (h : Keeps P s u) (hP : ∀ p ∈ ([.ridge, .bw, .xing, .out] : List Piece), p ∈ P := by decide) :
    Keeps P s (Machine.leaveAll u) :=
  h.via (keeps_refl _ u).beginLeave.beginLeave hP

theorem wired_failAll (cause : BitVec 8) : Wired s (failAll cause s) := by
  unfold failAll
  exact (Wired.each (wired_refl s) fun _ _ hx => hx.endItem).deliverAll

/-- A flush that begins has stopped every partition and ended every open item. -/
theorem flushes_beginFlush (hon : mainOn s = true) (hflush : s.pw.flush = none) : Flushes 0x0D s (beginFlush s) := by
  have hu : beginFlush s = leaveAll (failAll 0x0D (stopAll (updPw (fun p => { p with flush := some s.time.now }) s))) :=
    if_neg (by rw [hon, hflush]; decide)
  rw [hu]
  obtain ⟨w, hw⟩ : ∃ w, w = updPw (fun p => { p with flush := some s.time.now }) s := ⟨_, rfl⟩
  rw [← hw]
  have hstop : Keeps [.thr, .core, .bay, .slice, .srcs, .eng, .mem, .old, .poison, .fresh, .wake, .log] w (stopAll w) :=
    (keeps_refl _ w).stopAll
  have hfail : Keeps [.queue, .led, .inst, .ridge, .bw, .xing, .out, .fresh, .pw, .ep, .pba] (stopAll w) (failAll 0x0D (stopAll w)) :=
    (keeps_refl _ _).failAll
  have hleave : Keeps [.ridge, .bw, .xing, .out] (failAll 0x0D (stopAll w)) (leaveAll (failAll 0x0D (stopAll w))) :=
    (keeps_refl _ _).leaveAll
  refine ⟨?_, fun p hp x hx => ?_, fun e hfree hcl => ?_⟩
  · have hf : Firm w (leaveAll (failAll 0x0D (stopAll w))) :=
      (((firm_refl w).keeps hstop).wired (wired_failAll 0x0D)).keeps hleave
    rw [hf.field Power.flush, hw]
    rfl
  · have hsrc : srcEnt (leaveAll (failAll 0x0D (stopAll w))) x = srcEnt (stopAll w) x := by
      unfold srcEnt
      rw [show (leaveAll (failAll 0x0D (stopAll w))).srcs = (failAll 0x0D (stopAll w)).srcs from hleave .srcs (by decide),
        show (failAll 0x0D (stopAll w)).srcs = (stopAll w).srcs from hfail .srcs (by decide)]
    rw [hsrc]
    refine closed_stopAll hp ?_
    rw [hw]
    exact hx
  · have hent (y : Nat) : entry (stopAll w) y = entry s y := by
      rw [hstop.entry_eq y, hw]
      rfl
    rw [hleave.entry_eq e]
    rcases failAll_ended 0x0D (s := stopAll w) (by rw [hent]; exact hfree) (by rw [hent]; exact hcl) with h | h
    · exact .inl h
    · obtain ⟨hst, hcause⟩ := endOf_iff.mp h
      exact .inr ⟨hst, fun _ => hcause⟩

end Sys2Proof.Machine
end

section
/-! What powers the sill, latches the straps and resets the device (R43, R446, R460, R461, R508). -/
namespace Sys2Proof.Machine
set_option Elab.async false
variable {s u v : State} {P : List Piece}

theorem carried_refl (cold : Bool) (s : State) : Carried cold s s :=
  ⟨keeps_refl _ s, rfl, rfl, rfl, rfl, fun _ => rfl⟩

/-! ## The mode as displayed is the mode as settled -/

section
variable {α : Type} {d : α} {p : α → Bool}

theorem any_of_look (hd : p d = false) (t : Tbl α) (k : Nat) (h : p (look d t k) = true) : t.any (fun e => p e.2) = true :=
  List.any_eq_true.mpr ⟨_, look_mem fun he => (by rw [he, hd] at h; cases h), h⟩

/-- Writing a value that fares as the one listed fares leaves whether any listed value passes. -/
theorem any_place (hd : p d = false) (t : Tbl α) (k : Nat) {v : α} (hv : p v = p (look d t k)) :
    (place t k v).any (fun e => p e.2) = t.any (fun e => p e.2) := by
  induction t with
  | nil =>
    rw [place, List.any_cons, hv]
    exact congrArg (fun b => b || false) hd
  | cons e t ih =>
    obtain ⟨i, w⟩ := e
    rw [look] at hv
    rw [place]
    split
    case isTrue hi =>
      rw [if_pos hi] at hv
      rw [List.any_cons, List.any_cons, hv]
    case isFalse hi =>
      rw [if_neg hi] at hv
      split
      · rw [List.any_cons (l := (i, w) :: t), hv]
        cases hl : p (look d t k)
        · rfl
        · rw [Bool.true_or, List.any_cons, any_of_look hd t k hl, Bool.or_true]
      · rw [List.any_cons, List.any_cons, ih hv]

end

/-- Whether any port of the ridge has failed. -/
def portFailed (s : State) : Bool := s.ridge.ports.any (fun e => decide (e.2.st = 5))

/-- As many links have failed as before. -/
def Sound (s u : State) : Prop := portFailed u = portFailed s

theorem sound_refl (s : State) : Sound s s := rfl

theorem Sound.trans (h : Sound s u) (k : Sound u v) : Sound s v := Eq.trans k h

theorem Sound.keeps (h : Sound s u) (k : Keeps P u v) (hr : Piece.ridge ∉ P := by decide) : Sound s v := by
  have e : v.ridge = u.ridge := k .ridge hr
  exact h.trans (congrArg (fun r : Ridge => r.ports.any (fun e => decide (e.2.st = 5))) e)

theorem Sound.updRidge {f : Ridge → Ridge} (h : Sound s u) (hf : ∀ r, (f r).ports = r.ports := by exact fun _ => rfl) :
    Sound s (Machine.updRidge f u) :=
  h.trans (congrArg (fun l : Tbl PortSt => l.any (fun e => decide (e.2.st = 5))) (hf u.ridge))

theorem Sound.updPort {x : Nat} {f : PortSt → PortSt} (h : Sound s u) (hst : (f (port u x)).st = (port u x).st)
    (hne : f (port u x) ≠ PortSt.reset) : Sound s (Machine.updPort x f u) := by
  refine h.trans ?_
  unfold Sound portFailed
  have hp : (Machine.updPort x f u).ridge.ports = place u.ridge.ports x (f (port u x)) := if_neg hne
  rw [hp]
  refine any_place (d := PortSt.reset) (p := fun k => decide (k.st = 5)) rfl _ x ?_
  change decide ((f (port u x)).st = 5) = decide ((port u x).st = 5)
  rw [hst]

theorem Sound.each {α : Type} {l : List α} {f : α → State → State} (h : Sound s u) (hf : ∀ a x, Sound s x → Sound s (f a x)) :
    Sound s (Machine.forEach l f u) :=
  forEach_keeps (Sound s) f l u h fun a _ x hx => hf a x hx

theorem Sound.emitFlit {x : Port} {f : SentFlit} (h : Sound s u) : Sound s (Machine.emitFlit x f u) := by
  unfold Machine.emitFlit
  dsimp only
  split
  · exact h.keeps (keeps_refl [.xing] u).enterCrossing
  · refine Sound.keeps (h.updPort ?_ fun he => ?_) (keeps_refl [.bw, .out] _).emit
    · rfl
    · exact Nat.succ_ne_zero _ (congrArg PortSt.sinceSkip he)

theorem Sound.sendIdle {x : Port} (h : Sound s u) : Sound s (Machine.sendIdle x u) := by
  unfold Machine.sendIdle
  split
  · exact h.emitFlit
  · exact h

theorem Sound.freeBuffer {from' : Option (Port × BitVec 4)} {n : Nat} (h : Sound s u) (hn : n ≠ 0) :
    Sound s (Machine.freeBuffer from' n u) := by
  unfold Machine.freeBuffer
  split
  · exact h
  · next x v =>
    refine Sound.sendIdle (h.updPort rfl fun he => ?_)
    have howe : put 0 (port u (portIx x)).owe v.toNat (look 0 (port u (portIx x)).owe v.toNat + n) = [] := congrArg PortSt.owe he
    have hlook : look 0 (put 0 (port u (portIx x)).owe v.toNat (look 0 (port u (portIx x)).owe v.toNat + n)) v.toNat = 0 := by
      rw [howe]
      rfl
    rw [look_put, if_pos rfl] at hlook
    exact hn (Nat.eq_zero_of_add_eq_zero_left hlook)

theorem Sound.sendOne {x : Port} {vc : BitVec 4} {b : FlitBody} (h : Sound s u) : Sound s (Machine.sendOne x vc b u) := by
  unfold Machine.sendOne
  exact Sound.emitFlit (h.updPort rfl fun he => List.append_ne_nil_of_right_ne_nil _ (List.cons_ne_nil _ _) (congrArg PortSt.replay he))

theorem Sound.sendSequenced {x : Port} {vc : BitVec 4} {b : FlitBody} (h : Sound s u) : Sound s (Machine.sendSequenced x vc b u) := by
  unfold Machine.sendSequenced
  refine Sound.each ?_ fun _ _ hy => hy.sendOne
  split
  · exact h.keeps (keeps_refl [.bw] u).countBytes
  · exact h

theorem flitsOf_ne_zero (b : FlitBody) : flitsOf b ≠ 0 := by
  unfold flitsOf flitsFor
  split
  · split <;> exact Nat.succ_ne_zero _
  · exact Nat.succ_ne_zero _

/-- A port that is in use keeps its state as it sends. -/
theorem Sound.pumpSlots {x : Port} {n : Nat} (h : Sound s u) (hx : (port u (portIx x)).st ≠ 0) : Sound s (Machine.pumpSlots x n u) := by
  induction n generalizing u with
  | zero => exact h
  | succ n ih =>
    unfold Machine.pumpSlots
    split
    · exact h
    · next w _ =>
      have hst (k : PortSt) : (takeSlot w k).st = k.st := by
        have e := congrArg PortSt.st (linkOf_takeSlot w k)
        exact e
      refine ih (Sound.freeBuffer (Sound.sendSequenced (h.updPort (hst _) fun he => hx ?_)) (flitsOf_ne_zero _)) ?_
      · rw [← hst, he]
        rfl
      · have hw := ((wired_refl u).updPort (x := portIx x) (linkOf_takeSlot w)).sendSequenced (x := x) (vc := w.1.vc) (b := w.1.body)
        rw [(hw.freeBuffer (from' := w.2) (n := flitsOf w.1.body)).linked (portIx x) PortSt.st]
        exact hx

theorem Sound.portSend {x : Port} {vc : BitVec 4} {b : FlitBody} {from' : Option (Port × BitVec 4)} (h : Sound s u)
    (hx : (port u (portIx x)).st ≠ 0) : Sound s (Machine.portSend x vc b from' u) := by
  unfold Machine.portSend Machine.pumpPort
  have hw : Sound s (Machine.updPort (portIx x) (fun p => { p with waiting := p.waiting ++ [(⟨0, vc, b⟩, from')] }) u) :=
    h.updPort rfl fun he => List.append_ne_nil_of_right_ne_nil _ (List.cons_ne_nil _ _) (congrArg PortSt.waiting he)
  split
  · exact hw
  · refine hw.pumpSlots ?_
    rw [port_updPort, if_pos rfl]
    exact hx

theorem st_of_portUp {x : Port} (h : portUp s x = true) : (port s (portIx x)).st ≠ 0 := fun h0 => by
  unfold portUp at h
  rw [h0] at h
  exact absurd h (by decide)

theorem pick_out {a b x : Port} {ra rb : Bool} {da db : Nat} (h : pick a b ra rb da db = .out x) :
    (ra = true ∧ x = a) ∨ (rb = true ∧ x = b) := by
  unfold pick at h
  split at h
  · split at h <;> cases h
    · exact .inl ⟨rfl, rfl⟩
    · exact .inr ⟨rfl, rfl⟩
  · cases h
    exact .inl ⟨rfl, rfl⟩
  · cases h
    exact .inr ⟨rfl, rfl⟩
  · cases h

/-- A message goes out by a port that is up. -/
theorem portUp_of_route {dst : BitVec 16} {x : Port} (h : route s dst = .out x) : portUp s x = true := by
  unfold route ringWay at h
  dsimp only at h
  split at h
  · cases h
  · split at h
    · split at h
      · rcases pick_out h with ⟨hu, rfl⟩ | ⟨hu, rfl⟩
        · exact (Bool.and_eq_true_iff.mp hu).1
        · exact (Bool.and_eq_true_iff.mp hu).1
      · cases h
    · split at h
      · cases h
      · rcases pick_out h with ⟨hu, rfl⟩ | ⟨hu, rfl⟩ <;> exact hu

theorem Sound.sendReq {cls : BitVec 2} {b : FlitBody} {q : RReq} (h : Sound s u) (e : Machine.sendReq cls b q u = some v) : Sound s v := by
  unfold Machine.sendReq at e
  dsimp only at e
  split at e
  · next x hx =>
    split at e
    · cases e
    · cases e
      split
      · exact h.updRidge.updRidge
      · exact h.updRidge.portSend (st_of_portUp (portUp_of_route hx))
  · cases e

theorem Sound.takeTag (h : Sound s u) : Sound s (Machine.takeTag u).2 := h.updRidge

theorem Sound.sendMsi {n : Nat} {urgent : Bool} (h : Sound s u) : Sound s (Machine.sendMsi n urgent u) := by
  unfold Machine.sendMsi
  split
  · exact h.keeps (keeps_refl [.bw, .out, .pba] u).msiHere
  · unfold Machine.msiThere
    dsimp only
    split
    · exact h.keeps (keeps_refl [.pba] u).pendMsi
    · split
      · exact h.takeTag.sendReq ‹_›
      · exact h.keeps (keeps_refl [.pba] u).pendMsi
  · exact h.keeps (keeps_refl [.pba] u).pendMsi

theorem Sound.notifyMode (h : Sound s u) : Sound s (Machine.notifyMode u) := by
  unfold Machine.notifyMode Machine.noticeMsg
  split
  · exact h
  · have h' : Sound s (Machine.updEp (fun e => { e with nMode := true }) u) := h
    split
    · exact h'.sendMsi
    · exact h'

theorem modeNow_congr (hpw : standingOf u.pw = standingOf s.pw) (hk : Keeps P s u) (hport : Sound s u)
    (hlink : u.ep.up = s.ep.up ∧ u.ep.lanes = s.ep.lanes ∧ u.ep.rate = s.ep.rate) (hpart : Piece.part ∉ P := by decide)
    (hchan : Piece.chan ∉ P := by decide) (hbay : Piece.bay ∉ P := by decide) (heng : Piece.eng ∉ P := by decide) :
    modeNow u = modeNow s := by
  have hf {α : Type} (f : Power → α) (h : ∀ p, f (standingOf p) = f p) : f u.pw = f s.pw := by rw [← h, hpw, h]
  have hrail (r : Nat) : rail u r = rail s r := hf (fun p => look RailSt.reset p.rails r) fun _ => rfl
  have hstandby : standbyCond u = standbyCond s := by
    unfold standbyCond
    rw [hrail, hrail, hf Power.pwrgood fun _ => rfl, hf Power.thermtrip fun _ => rfl, hf Power.inReset fun _ => rfl]
  have hdown : partDownBits u = partDownBits s := by
    unfold partDownBits partBad part
    rw [show u.part = s.part from hk .part hpart]
  have hlow : linkLow u = linkLow s := by
    unfold linkLow
    rw [hlink.1, hlink.2.1, hlink.2.2, hf Power.cfgLanes fun _ => rfl, hf Power.cfgRate fun _ => rfl]
  have hfail : u.ridge.ports.any (fun e => e.2.st = 5) = s.ridge.ports.any (fun e => e.2.st = 5) := hport
  have hdeg : degraded u = degraded s := by
    unfold degraded someFailed
    rw [hdown, hlow, hfail, show u.chan = s.chan from hk .chan hchan, show u.bay = s.bay from hk .bay hbay,
      show u.eng = s.eng from hk .eng heng, show u.part = s.part from hk .part hpart, hf Power.linksFailed fun _ => rfl,
      hf Power.bringupDone fun _ => rfl]
  unfold modeNow
  rw [hstandby, hdeg, hf Power.sillOn fun _ => rfl, hf Power.fenced fun _ => rfl, hf Power.bringing fun _ => rfl,
    hf Power.quiesce fun _ => rfl, hf Power.braced fun _ => rfl]

/-- The announcement of a mode leaves the link as it is. -/
theorem link_notifyMode : (notifyMode s).ep.up = s.ep.up ∧ (notifyMode s).ep.lanes = s.ep.lanes ∧ (notifyMode s).ep.rate = s.ep.rate := by
  unfold notifyMode
  split
  · exact ⟨rfl, rfl, rfl⟩
  · have h : { (noticeMsg (updEp (fun e => { e with nMode := true }) s)).ep with pba := [], pbaVc1 := [] } =
        ({ s.ep with nMode := true, pba := [], pbaVc1 := [] } : Endpoint) :=
      ((keeps_refl [.ridge, .bw, .xing, .out, .pba] (updEp (fun e => { e with nMode := true }) s)).noticeMsg) .ep (by decide)
    have hup := congrArg Endpoint.up h
    have hlanes := congrArg Endpoint.lanes h
    have hrate := congrArg Endpoint.rate h
    exact ⟨hup, hlanes, hrate⟩

/-- The mode as displayed is the mode as settled. -/
theorem mode_settleMode : (settleMode s).pw.mode = modeNow (settleMode s) := by
  by_cases h : (decide (modeNow s = s.pw.mode) || decide (modeNow s = 0) || decide (s.pw.mode = 0)) = true
  · rw [show settleMode s = updPw (fun p => { p with mode := modeNow s }) s from if_pos h]
    rfl
  · rw [settleMode_changed h]
    extract_lets y w y' y''
    have h1 : Keeps [.thr, .wake, .wr, .log] y (forEach (List.range 8) (fun p acc => partEvent p 6 0 (w.setWidth 64) acc) y'') :=
      Keeps.each ((keeps_refl _ y).updWr.wrightEvent) fun _ _ hx => hx.partEvent
    generalize forEach (List.range 8) (fun p acc => partEvent p 6 0 (w.setWidth 64) acc) y'' = z at h1
    have h2 := (keeps_refl [.ridge, .bw, .xing, .out, .ep, .pba] z).notifyMode
    have hpw : { (notifyMode z).pw with wake := [], routerHeld := [] } = { y.pw with wake := [], routerHeld := [] } :=
      (h2 .pw (by decide)).trans (h1 .pw (by decide))
    have hep : { z.ep with pba := [], pbaVc1 := [] } = { y.ep with pba := [], pbaVc1 := [] } := h1 .ep (by decide)
    have hlink : (notifyMode z).ep.up = y.ep.up ∧ (notifyMode z).ep.lanes = y.ep.lanes ∧ (notifyMode z).ep.rate = y.ep.rate := by
      have hup := congrArg Endpoint.up hep
      have hlanes := congrArg Endpoint.lanes hep
      have hrate := congrArg Endpoint.rate hep
      exact ⟨link_notifyMode.1.trans hup, link_notifyMode.2.1.trans hlanes, link_notifyMode.2.2.trans hrate⟩
    have hmode := congrArg Power.mode hpw
    have hstand := congrArg standingOf hpw
    have hk : Keeps [.thr, .ridge, .bw, .xing, .out, .wake, .ep, .pba, .wr, .log] y (notifyMode z) :=
      (keeps_mono (by decide) h1).notifyMode
    rw [modeNow_congr hstand hk (((sound_refl y).keeps h1).notifyMode) hlink]
    exact hmode

/-! ## A reset crossing of a rail -/

/-- The firmware store stands as before. -/
def Stored (s u : State) : Prop := u.wr.store = s.wr.store

theorem Stored.trans (h : Stored s u) (k : Stored u v) : Stored s v := Eq.trans k h

theorem stored_of_keeps (k : Keeps P s u) (hp : Piece.wr ∉ P := by decide) : Stored s u := by
  have e : { u.wr with log := [], logNext := 0, heldEvents := 0, lostEvents := 0 } =
      { s.wr with log := [], logNext := 0, heldEvents := 0, lostEvents := 0 } := k .wr hp
  have h := congrArg Wright.store e
  exact h

theorem stored_settleMode : Stored s (settleMode s) := by
  by_cases h : (decide (modeNow s = s.pw.mode) || decide (modeNow s = 0) || decide (s.pw.mode = 0)) = true
  · rw [show settleMode s = updPw (fun p => { p with mode := modeNow s }) s from if_pos h]
    rfl
  · rw [settleMode_changed h]
    extract_lets y w y' y''
    have h1 : Keeps [.thr, .wake, .log, .ridge, .bw, .xing, .out, .ep, .pba] y'
        (notifyMode (forEach (List.range 8) (fun p acc => partEvent p 6 0 (w.setWidth 64) acc) y'')) :=
      (Keeps.each ((keeps_refl _ y').wrightEvent) fun _ _ hx => hx.partEvent).notifyMode
    exact Stored.trans (u := y') rfl (stored_of_keeps h1)

theorem pinned_warned (r : Nat) (mv : BitVec 16) : (warned r mv s).pw.sillOn = s.pw.sillOn ∧
    (warned r mv s).pw.straps = s.pw.straps ∧ Stored s (warned r mv s) := by
  unfold warned brace
  extract_lets new w
  have hfw : Firm w (if new then logRail r true false mv w else w) := by
    split
    · exact (firm_refl w).keeps (keeps_refl [.log] w).logRail
    · exact firm_refl w
  have hsw : Stored w (if new then logRail r true false mv w else w) := by
    split
    · exact stored_of_keeps (keeps_refl [.log] w).logRail
    · exact rfl
  generalize (if new then logRail r true false mv w else w) = z at hfw hsw
  obtain ⟨y, hy⟩ : ∃ y, y = updPw (fun p => { p with braced := true }) z := ⟨_, rfl⟩
  have hy' : y.pw.sillOn = z.pw.sillOn ∧ y.pw.straps = z.pw.straps ∧ Stored z y := by
    rw [hy]
    exact ⟨rfl, rfl, rfl⟩
  rw [← hy]
  have hset := (wired_refl y).settleMode
  refine ⟨?_, ?_, ?_⟩
  · rw [hset.standing Power.sillOn, hy'.1, hfw.field Power.sillOn]
    rfl
  · rw [hset.standing Power.straps, hy'.2.1, hfw.field Power.straps]
    rfl
  · exact ((Stored.trans (u := w) rfl hsw).trans hy'.2.2).trans stored_settleMode

theorem carried_crossed (r : Nat) (mv : BitVec 16) : Carried true s (crossed r mv s) := by
  have hk := (keeps_refl [.thr, .ridge, .bw, .xing, .out, .pw, .wake, .ep, .pba, .wr, .log] s).crossed (r := r) (mv := mv)
  obtain ⟨hon, hstraps, hstore⟩ := pinned_warned (s := s) r mv
  unfold crossed at hk ⊢
  obtain ⟨w, hw⟩ : ∃ w, w = updRail r (fun x => { x with below := true }) (warned r mv s) := ⟨_, rfl⟩
  rw [← hw] at hk ⊢
  have hlog := (keeps_refl [.log] w).logRail (r := r) (warn := true) (below := true) (mv := mv)
  have hf := (firm_refl w).keeps hlog
  refine ⟨keeps_mono (by decide) hk, ?_, ?_, ?_, ?_, fun h => absurd h (by decide)⟩
  · rw [show _ = s.time from hk .time (by decide)]
  · rw [hf.field Power.sillOn, hw]
    exact hon
  · rw [hf.field Power.straps, hw]
    exact hstraps
  · refine (Stored.trans (u := w) ?_ (stored_of_keeps hlog))
    rw [hw]
    exact hstore

theorem below_crossed (r : Nat) (mv : BitVec 16) : (rail (crossed r mv s) r).below = true := by
  unfold crossed
  generalize warned r mv s = w
  have hf := (firm_refl (updRail r (fun x => { x with below := true }) w)).keeps
    ((keeps_refl [.log] _).logRail (r := r) (warn := true) (below := true) (mv := mv))
  have hr : rail (logRail r true true mv (updRail r (fun x => { x with below := true }) w)) r =
      rail (updRail r (fun x => { x with below := true }) w) r := hf.field (fun p => look RailSt.reset p.rails r)
  rw [hr, rail_updRail, if_pos rfl]

theorem rail_resetMain (cold : Bool) (r : Nat) : (rail (resetMain cold s) r).below = (rail s r).below := by
  have hf := ((firm_refl s).closePair (ns := false) (step := .idle)).closePair (ns := true) (step := .idle)
  rw [resetMain_eq]
  generalize closePair true .idle (closePair false .idle s) = y at hf
  have hset : rail (settleMode (mainState cold y)) r = rail (mainState cold y) r :=
    (wired_refl (mainState cold y)).settleMode.standing (fun p => look RailSt.reset p.rails r)
  have hmain : rail (mainState cold y) r = resetRail (rail y r) := look_editAll _ _ (fun _ => rfl) _ _
  have hy : rail y r = rail s r := hf.field (fun p => look RailSt.reset p.rails r)
  rw [hset, hmain, hy]
  rfl

theorem coldReset_crossed (r : Nat) (mv : BitVec 16) (hon : s.pw.sillOn = true) :
    MainReset true s (coldReset (crossed r mv s)) ∧ (rail (coldReset (crossed r mv s)) r).below = true := by
  have hc := carried_crossed (s := s) r mv
  have hu : coldReset (crossed r mv s) = resetMain true (crossed r mv s) := if_pos (hc.on.trans hon)
  rw [hu]
  exact ⟨mainReset_of_carried hc, (rail_resetMain true r).trans (below_crossed r mv)⟩

/-! ## The sill -/

theorem settleMode_first (h : s.pw.mode = 0) : settleMode s = updPw (fun p => { p with mode := modeNow s }) s :=
  if_pos (by rw [h]; simp)

/-! ## The completion of WARM_RESET -/

theorem keeps_beginFlush : Keeps [.queue, .led, .inst, .ridge, .bw, .xing, .out, .fresh, .pw, .ep, .pba, .thr, .core, .bay,
    .slice, .srcs, .eng, .mem, .old, .poison, .wake, .log] s (beginFlush s) := by
  unfold beginFlush
  exact Keeps.ite (keeps_refl _ s) (((keeps_refl _ s).updPw).stopAll.failAll.leaveAll)

theorem commandComplete_flushes {m : Mbox} {d : BitVec 16} {l : List Byte} (hon : mainOn s = true) (hflush : s.pw.flush = none)
    (hresp : (box s m).resp = some ⟨0, d, l⟩) (hcode : boxCode (box s m) = 0x307)
    (hst : isUrgent m = true ∨ s.wr.st ≠ .restarting) :
    ∃ u, exec (.commandComplete m) s = .next u ∧ (box u m).st = 2 ∧ u.pw.flush = some s.time.now := by
  obtain ⟨w, hw⟩ : ∃ w, w = updWr (fun w => { w with order := w.order.filter (fun x => x ≠ m) }) s := ⟨_, rfl⟩
  obtain ⟨y, hy⟩ : ∃ y, y = finishBox m 0 d l (box s m).lastSeq (box s m).tTaken w := ⟨_, rfl⟩
  have hx : exec (.commandComplete m) s = .next (beginFlush y) := by
    change execCommandComplete m s = _
    unfold execCommandComplete
    extract_lets b
    rw [show b.resp = some ⟨0, d, l⟩ from hresp]
    dsimp only
    rw [if_neg (by rcases hst with h | h <;> simp [h])]
    refine congrArg Host.Outcome.next ((if_pos ?_).trans ?_)
    · rw [show boxCode b = 0x307 from hcode]
      rfl
    · rw [hy, hw]
  have hfin := (wired_refl w).finishBox (m := m) (status := 0) (detail := d) (payload := l) (seq := (box s m).lastSeq)
    (taken := (box s m).tTaken)
  have htime : y.time = s.time := by
    rw [hy, show (finishBox m 0 d l (box s m).lastSeq (box s m).tTaken w).time = w.time from
      ((keeps_refl [.thr, .ridge, .bw, .xing, .out, .wake, .pba, .wr] w).finishBox) .time (by decide), hw]
    rfl
  rw [← hy] at hfin
  have hyon : mainOn y = true := by
    rw [← hon]
    have hrail (r : Nat) : rail y r = rail w r := hfin.standing (fun p => look RailSt.reset p.rails r)
    unfold mainOn standbyCond
    rw [hrail, hrail, hfin.standing Power.sillOn, hfin.standing Power.pwrgood, hfin.standing Power.thermtrip,
      hfin.standing Power.inReset, hw]
    rfl
  have hyflush : y.pw.flush = none := by
    rw [hfin.standing Power.flush, hw]
    exact hflush
  refine ⟨_, hx, ?_, ?_⟩
  · have hbox : box (beginFlush y) m = box y m := (keeps_beginFlush (s := y)).box_eq (by decide) m
    rw [hbox, hy, box_finishBox, if_pos rfl]
    rfl
  · rw [(flushes_beginFlush hyon hyflush).1, htime]

/-- A change of the power state that leaves the events held by the router. -/
theorem keeps_frame_pw {f : Power → Power} (hf : ∀ p, (f p).wake = p.wake ∧ (f p).routerHeld = p.routerHeld) :
    Keeps [.pw] s (updPw f s) :=
  (keeps_refl [.pw] s).updPw (by decide) hf

/-- A loss of PWRGOOD resets the main logic cold. -/
theorem pwrgood_coldReset (hon : s.pw.sillOn = true) (b : Bool) :
    let u := coldReset (updPw (fun p => { p with pwrgood := false, thermtrip := b }) s)
    u.pw.pwrgood = false ∧ MainReset true s u := by
  intro u
  obtain ⟨w, hw⟩ : ∃ w, w = updPw (fun p => { p with pwrgood := false, thermtrip := b }) s := ⟨_, rfl⟩
  have hc : Carried true s w := by
    rw [hw]
    exact ⟨keeps_mono (by decide) (keeps_updPw _), rfl, rfl, rfl, rfl, fun _ => rfl⟩
  have hu : u = resetMain true w := by
    rw [hw]
    exact if_pos hon
  rw [hu]
  refine ⟨?_, mainReset_of_carried hc⟩
  have hf := ((firm_refl w).closePair (ns := false) (step := .idle)).closePair (ns := true) (step := .idle)
  rw [resetMain_eq]
  generalize closePair true .idle (closePair false .idle w) = y at hf
  rw [(wired_refl (mainState true y)).settleMode.standing Power.pwrgood]
  have hy : y.pw.pwrgood = w.pw.pwrgood := hf.field Power.pwrgood
  change y.pw.pwrgood = false
  rw [hy, hw]
  rfl

theorem execWarmResetEffect_of_flush {t : Word} (h : s.pw.flush = some t) : exec .warmResetEffect s =
    if inflight s = 0 || decide (t.toNat + 1000000 ≤ s.time.now.toNat) then .next (resetMain false s) else .next s := by
  change execWarmResetEffect s = _
  unfold execWarmResetEffect
  rw [h]

/-- Settles O55: every reset leaves the tables at their reset values, and a warm one begins with its flush. -/
theorem resetsAndPins : Obligations.ResetsAndPins := by
  unfold Obligations.ResetsAndPins
  refine fun s => ⟨fun hon => ?_, fun hoff => ?_, fun hon hgood => ?_, fun pins hon hgood => ?_, fun pins hgood => ?_,
    fun level hon => ⟨fun hne => ?_, fun he => ?_⟩, fun mv hon => ⟨fun hlow => ?_, fun hlow => ?_, fun hok => ?_, fun hok => ?_⟩,
    fun hon hflush => ⟨fun hreset hdeb => ?_, fun e => ?_, fun m d l hresp hcode hst => commandComplete_flushes hon hflush hresp hcode hst⟩,
    fun e a b hab => ?_, fun h => ?_, fun t ht => ⟨fun h => ?_, fun h hlate => ?_⟩, fun h => ?_⟩
  · refine ⟨sillReset s, if_pos hon, rfl, rfl, rfl, rfl, rfl, rfl, rfl, rfl, rfl, rfl⟩
  · refine ⟨if_neg (by rw [hoff]; decide), _, (if_neg (by rw [hoff]; decide)).trans rfl, ?_⟩
    rw [settleMode_first rfl]
    refine ⟨rfl, ?_, rfl, rfl, rfl, rfl, rfl⟩
    change modeNow { sillReset s with pw := { (sillReset s).pw with sillOn := true } } = 1
    have hsb : standbyCond { sillReset s with pw := { (sillReset s).pw with sillOn := true } } = true := by
      unfold standbyCond
      exact Bool.or_true _
    unfold modeNow
    rw [hsb]
    rfl
  · refine ⟨_, if_neg (by rw [hon, hgood]; decide), ?_⟩
    exact pwrgood_coldReset hon _
  · refine ⟨⟨latchStraps pins s, if_neg (by rw [hon, hgood]; decide), rfl, keeps_frame_pw fun _ => ⟨rfl, rfl⟩⟩, _,
      if_neg (by rw [hon, hgood]; decide), ?_⟩
    have hw := (wired_refl (updPw (fun p => { p with pwrgood := true }) (latchStraps pins s))).settleMode
    exact ⟨hw.standing Power.straps, hw.standing Power.pwrgood, mode_settleMode⟩
  · exact ⟨if_pos (by rw [hgood, Bool.or_true]), if_pos (by rw [hgood, Bool.or_true])⟩
  · exact ⟨_, if_neg (by simp [hon, hne]), keeps_frame_pw fun _ => ⟨rfl, rfl⟩, rfl⟩
  · exact if_pos (by simp [he])
  · obtain ⟨h1, h2⟩ := coldReset_crossed (s := s) 4 mv hon
    exact ⟨_, if_neg (by simp [hon, Nat.not_le.mpr hlow]), h1, h2⟩
  · obtain ⟨h1, h2⟩ := coldReset_crossed (s := s) 11 mv hon
    exact ⟨_, if_neg (by simp [hon, Nat.not_le.mpr hlow]), h1, h2⟩
  · exact if_pos (by simp [hok])
  · exact if_pos (by simp [hok])
  · exact ⟨_, if_neg (by simp [hreset, debounced, hdeb]), flushes_beginFlush hon hflush⟩
  · exact ⟨beginFlush s, rfl, flushes_beginFlush hon hflush⟩
  · refine ⟨_, if_neg (by simpa using hab), keeps_updLed _, ?_⟩
    change { s.led with ce := satAdd s.led.ce ((if a = EccFind.single then 1 else 0) + if b = EccFind.single then 1 else 0) } = _
    cases a <;> cases b <;> rfl
  · refine if_pos ?_
    rcases h with h | h
    · rw [h, Bool.true_or]
    · rw [show debounced s = false from decide_eq_false (Nat.not_le.mpr h), Bool.not_false, Bool.or_true]
  · refine ⟨resetMain false s, ?_, mainReset_of_carried (carried_refl false s)⟩
    exact (execWarmResetEffect_of_flush ht).trans (if_pos (by rcases h with h | h <;> simp [h]))
  · exact (execWarmResetEffect_of_flush ht).trans (if_neg (by simp [h, Nat.not_le.mpr hlate]))
  · change execWarmResetEffect s = _
    unfold execWarmResetEffect
    rw [h]

end Sys2Proof.Machine
end

section
/-! The urgent sequencer's commands (R45, R433, R436, R437). -/
namespace Sys2Proof.Machine
set_option Elab.async false
variable {s t u v : State} {m : Mbox} {P : List Piece}

/-! ## The log entry of an urgent command -/

/-- An urgent command's log entry: the mailbox, its command and sequence, and the queues it named. -/
def UrgentWord (m : Mbox) (b : MboxSt) (scope : BitVec 2) (ix : BitVec 10) (a : Word) : Prop :=
  a.extractLsb' 0 16 = BitVec.ofNat 16 (boxCode b) ∧ a.extractLsb' 16 16 = b.lastSeq ∧
    a.extractLsb' 32 1 = BitVec.ofBool (decide (m = .mgmtUrgent)) ∧ a.extractLsb' 33 15 = 0#15 ∧
    a.extractLsb' 48 2 = scope ∧ a.extractLsb' 50 10 = ix

theorem extractLsb'_at'_same {n : Nat} (v : BitVec n) {lo : Nat} (h : lo + n ≤ 64) : (at' v lo).extractLsb' lo n = v := by
  apply BitVec.eq_of_getLsbD_eq
  intro i hi
  have hlo : lo + i < 64 := by omega
  simp [at', hi, hlo]

theorem extractLsb'_at'_apart {n : Nat} (v : BitVec n) {lo a k : Nat} (h : lo + n ≤ a ∨ a + k ≤ lo) :
    (at' v lo).extractLsb' a k = 0#k := by
  apply BitVec.eq_of_getLsbD_eq
  intro i hi
  rcases h with h | h
  · have hn : n ≤ a + i - lo := by omega
    simp [at', BitVec.getLsbD_of_ge v _ hn]
  · have hlo : a + i < lo := by omega
    simp [at', hlo]

theorem atB_eq (b : Bool) (i : Nat) : atB b i = at' (BitVec.ofBool b) i := by
  cases b <;> simp [atB, at']

theorem urgentWord_fields (code seq : BitVec 16) (mg : Bool) (scope : BitVec 2) (ix : BitVec 10) :
    let a : Word := at' code 0 ||| at' seq 16 ||| atB mg 32 ||| at' stOk 40 ||| at' scope 48 ||| at' ix 50
    a.extractLsb' 0 16 = code ∧ a.extractLsb' 16 16 = seq ∧ a.extractLsb' 32 1 = BitVec.ofBool mg ∧ a.extractLsb' 33 15 = 0#15 ∧
      a.extractLsb' 48 2 = scope ∧ a.extractLsb' 50 10 = ix := by
  intro a
  have hst : at' stOk 40 = 0#64 := by decide
  simp only [a, atB_eq, hst, BitVec.extractLsb'_or]
  refine ⟨?_, ?_, ?_, ?_, ?_, ?_⟩ <;>
  simp (disch := decide) only [extractLsb'_at'_same, extractLsb'_at'_apart, BitVec.or_zero, BitVec.zero_or,
    BitVec.extractLsb'_zero]

/-- The entry stands last in the log. -/
theorem logUrgent_spec (scope : BitVec 2) (ix : BitVec 10) (tEffect : Word) :
    let t := logUrgent m stOk scope ix tEffect s
    Keeps [.log] s t ∧ t.wr.logNext = s.wr.logNext + 1 ∧
      ∃ a, t.wr.log.getLast? = some ⟨s.time.now, s.wr.logNext, 0x0F, a, tEffect⟩ ∧ UrgentWord m (box s m) scope ix a := by
  intro t
  obtain ⟨a, ha⟩ : ∃ a, a = at' (BitVec.ofNat 16 (boxCode (box s m))) 0 ||| at' (box s m).lastSeq 16 |||
    atB (decide (m = .mgmtUrgent)) 32 ||| at' stOk 40 ||| at' scope 48 ||| at' ix 50 := ⟨_, rfl⟩
  obtain ⟨w, hw⟩ : ∃ w, w = logEntry 0x000F a tEffect s := ⟨_, rfl⟩
  have ht : t = heldEvent w := by
    rw [hw, ha]
    rfl
  have hlast : w.wr.log.getLast? = some ⟨s.time.now, s.wr.logNext, 0x0F, a, tEffect⟩ := by
    rw [hw]
    simp only [logEntry, updWr]
    rw [List.drop_append_of_le_length (by omega), List.getLast?_concat]
  have hheld : Keeps [.log] w (heldEvent w) ∧ (heldEvent w).wr.logNext = w.wr.logNext ∧ (heldEvent w).wr.log = w.wr.log := by
    unfold heldEvent
    split
    · exact ⟨keeps_refl _ w, rfl, rfl⟩
    · split <;> exact ⟨keeps_updWr_log _ fun _ => rfl, rfl, rfl⟩
  have hkeep : Keeps [.log] s w := by
    rw [hw]
    exact keeps_logEntry _ _ _
  rw [ht, hheld.2.1, hheld.2.2, hlast]
  refine ⟨keeps_trans hkeep hheld.1, ?_, a, rfl, ?_⟩
  · rw [hw]
    simp only [logEntry, updWr]
  · rw [ha]
    exact urgentWord_fields _ _ _ _ _

/-! ## QUENCH and RELEASE -/

/-- QUENCHED takes the value on each of the queues. -/
def quenchEach (v : Bool) (l : List Nat) (s : State) : State :=
  forEach l (fun q acc => updQueue q (fun x => { x with quenched := v }) acc) s

theorem keeps_quenchEach (v : Bool) (l : List Nat) : Keeps [.queue] s (quenchEach v l s) :=
  (keeps_refl _ s).each fun _ _ hx => hx.updQueue

theorem queue_quenchEach (v : Bool) (l : List Nat) (q : Nat) :
    queue (quenchEach v l s) q = if q ∈ l then { queue s q with quenched := v } else queue s q := by
  induction l generalizing s with
  | nil => rfl
  | cons k l ih =>
    rw [show quenchEach v (k :: l) s = quenchEach v l (updQueue k (fun x => { x with quenched := v }) s) from rfl, ih,
      queue_updQueue]
    by_cases hk : q = k
    · rw [if_pos hk, if_pos (List.mem_cons.mpr (.inl hk)), hk, ite_self]
    · rw [if_neg hk]
      simp only [List.mem_cons, hk, false_or]

theorem mem_inScope {scope ix q : Nat} (hs : scope < 3) : q ∈ inScope s scope ix ↔ (scope = 0 ∧ q = ix) ∨
    (scope = 1 ∧ ∃ x, (q, x) ∈ s.queue ∧ x.slot ≠ none ∧ x.inst.toNat = ix) ∨ (scope = 2 ∧ q < 1024) := by
  unfold inScope
  have hcase : scope = 0 ∨ scope = 1 ∨ scope = 2 := by omega
  rcases hcase with rfl | rfl | rfl
  · simp
  · simp [ownedByInst, Option.isSome_iff_ne_none]
  · simp

/-- What a QUENCH or RELEASE of these queues leaves before its answer. -/
theorem quenched_spec (v : Bool) (l : List Nat) (scope : BitVec 2) (ix : BitVec 10) :
    let t := logUrgent m stOk scope ix s.time.now (quenchEach v l s)
    Keeps [.queue, .wr, .log] s t ∧ t.wr.logNext = s.wr.logNext + 1 ∧
      (∃ a, t.wr.log.getLast? = some ⟨s.time.now, s.wr.logNext, 0x0F, a, s.time.now⟩ ∧ UrgentWord m (box s m) scope ix a) ∧
      ∀ q, queue t q = if q ∈ l then { queue s q with quenched := v } else queue s q := by
  intro t
  have hw := keeps_quenchEach (s := s) v l
  have htime : (quenchEach v l s).time = s.time := hw .time (by decide)
  have hlog : (quenchEach v l s).wr.log = s.wr.log ∧ (quenchEach v l s).wr.logNext = s.wr.logNext :=
    ⟨(hw .log (by decide)).1, (hw .log (by decide)).2.1⟩
  obtain ⟨hk, hnext, a, hlast, hword⟩ := logUrgent_spec (s := quenchEach v l s) (m := m) scope ix s.time.now
  rw [hlog.2] at hnext hlast
  rw [htime] at hlast
  rw [hw.box_eq (by decide) m] at hword
  refine ⟨(keeps_mono (by decide) hw).via hk (by decide), hnext, ⟨a, hlast, hword⟩, fun q => ?_⟩
  rw [hk.queue_eq q]
  exact queue_quenchEach v l q

/-- QUENCH and RELEASE refuse a scope that they do not name. -/
def quenchRefused (b : MboxSt) : Bool :=
  !wordFits b 0x40 0x3FF0003 || decide (fld (pageWord b 0x40) 0 2 = 3) ||
    (decide (fld (pageWord b 0x40) 0 2 = 1) && decide (255 < (fld (pageWord b 0x40) 16 10).toNat))

theorem quenchScope_refused {v : Bool} {b : MboxSt} (h : quenchRefused b = true) : quenchScope v m b s = (bad stBadParam, s) :=
  if_pos h

theorem quenchScope_done (v : Bool) {b : MboxSt} (h : quenchRefused b = false) :
    quenchScope v m b s =
      (ok (bytesOf 8 (BitVec.ofNat 64 ((inScope s (fld (pageWord b 0x40) 0 2).toNat (fld (pageWord b 0x40) 16 10).toNat).filter
          (fun q => v || (queue s q).quenched)).length) ++
          bytesOf 8 (quenchEach v (inScope s (fld (pageWord b 0x40) 0 2).toNat (fld (pageWord b 0x40) 16 10).toNat) s).time.now),
        logUrgent m stOk (fld (pageWord b 0x40) 0 2) (fld (pageWord b 0x40) 16 10)
          (quenchEach v (inScope s (fld (pageWord b 0x40) 0 2).toNat (fld (pageWord b 0x40) 16 10).toNat) s).time.now
          (quenchEach v (inScope s (fld (pageWord b 0x40) 0 2).toNat (fld (pageWord b 0x40) 16 10).toNat) s)) := by
  unfold quenchRefused at h
  unfold quenchScope quenchEach
  dsimp only
  rw [h]
  rfl

/-- QUENCH and RELEASE set QUENCHED on the queues in scope, and are logged. -/
theorem quench_spec (v : Bool) (b : MboxSt) :
    let w := pageWord b 0x40
    let scope := (w.extractLsb' 0 2).toNat
    let ix := (w.extractLsb' 16 10).toNat
    let r := quenchScope v m b s
    let qs := inScope s scope ix
    (¬ (¬ Reserved b 0x40 0x3FF0003 ∧ scope ≠ 3 ∧ (scope = 1 → ix ≤ 255)) → r = (bad stBadParam, s)) ∧
    (¬ Reserved b 0x40 0x3FF0003 ∧ scope ≠ 3 ∧ (scope = 1 → ix ≤ 255) → r =
      (ok (bytesOf 8 (BitVec.ofNat 64 (qs.filter (fun q => v || (queue s q).quenched)).length) ++ bytesOf 8 s.time.now),
        logUrgent m stOk (w.extractLsb' 0 2) (w.extractLsb' 16 10) s.time.now
          (quenchEach v qs s))) := by
  intro w scope ix r qs
  have hscope : (fld w 0 2 = 3) ↔ scope = 3 := ⟨fun h => congrArg BitVec.toNat h, fun h => BitVec.eq_of_toNat_eq h⟩
  have hone : (fld w 0 2 = 1) ↔ scope = 1 := ⟨fun h => congrArg BitVec.toNat h, fun h => BitVec.eq_of_toNat_eq h⟩
  have hcond : ((!wordFits b 0x40 0x3FF0003 || decide (fld w 0 2 = 3) || (decide (fld w 0 2 = 1) && decide (255 < (fld w 16 10).toNat))) = true) ↔
      ¬ (¬ Reserved b 0x40 0x3FF0003 ∧ scope ≠ 3 ∧ (scope = 1 → ix ≤ 255)) := by
    rw [← wordFits_iff]
    simp only [Bool.or_eq_true, Bool.not_eq_true', decide_eq_true_eq, Bool.and_eq_true, hscope, hone, not_and_or,
      Classical.not_imp, Bool.not_eq_true, not_not, or_assoc, Nat.not_le]
    exact Iff.rfl
  constructor
  · intro h
    exact quenchScope_refused (hcond.mpr h)
  · intro h
    have htime : (quenchEach v qs s).time = s.time := keeps_quenchEach v qs .time (by decide)
    have hr := quenchScope_done (s := s) (m := m) v (Bool.eq_false_iff.mpr fun hc => hcond.mp hc h)
    simp only [show inScope s (fld (pageWord b 0x40) 0 2).toNat (fld (pageWord b 0x40) 16 10).toNat = qs from rfl, htime] at hr
    exact hr

/-! ## The pairs as links leave and close -/

theorem pairOf_updPair (k : Bool) (f : Pair → Pair) (ns : Bool) :
    pairOf (updPair k f s) ns = if ns = k then f (pairOf s k) else pairOf s ns := by
  cases k <;> cases ns <;> rfl

theorem pairOf_beginLeave (k ns : Bool) : pairOf (beginLeave k s) ns =
    if ns = k ∧ (pairOf s k).isOpen = true ∧ (pairOf s k).step = .idle then { pairOf s k with step := .leaving } else pairOf s ns := by
  by_cases h : (!(pairOf s k).isOpen || decide ((pairOf s k).step ≠ .idle)) = true
  · rw [show beginLeave k s = s from if_pos h, if_neg]
    rintro ⟨-, hopen, hidle⟩
    rw [hopen, hidle] at h
    exact absurd h (by decide)
  · have hu : beginLeave k s = _ := if_neg h
    rw [hu, pairOf_updPair]
    have hw : Wired s (forEach (pairPorts k) (fun x acc =>
        if portUp acc x then portSend x 0 (.leaveReq (deviceId s)) none acc else acc) s) :=
      Wired.each (wired_refl s) fun _ _ hx => Wired.ite hx.portSend hx
    rw [hw.pairOf_eq, hw.pairOf_eq]
    simp only [Bool.or_eq_true, Bool.not_eq_true', decide_eq_true_eq, not_or, Bool.not_eq_false, not_not] at h
    obtain ⟨hopen, hidle⟩ := h
    by_cases hns : ns = k
    · rw [if_pos hns, if_pos ⟨hns, hopen, hidle⟩]
    · rw [if_neg hns, if_neg fun hc => hns hc.1]

theorem pairOf_of_wiring (h : wiringOf u.ridge = wiringOf s.ridge) (ns : Bool) : pairOf u ns = pairOf s ns := by
  have hns := congrArg Ridge.ns h
  have hwe := congrArg Ridge.we h
  cases ns
  · exact hwe
  · exact hns

theorem wiring_setPortReady (x : Port) (b : Bool) : wiringOf (setPortReady x b s).ridge = wiringOf s.ridge := by
  unfold setPortReady setReady
  extract_lets r
  split
  · rfl
  · unfold notifyReady
    split
    · rfl
    · exact (wired_refl (updEp (fun e => { e with nReady := true }) (updPw (fun p => { p with ready := r }) s))).noticeMsg.ridge

theorem pairOf_closePair (k : Bool) (step : PairStep) (ns : Bool) :
    pairOf (closePair k step s) ns = if ns = k then { Pair.reset with step := step } else pairOf s ns := by
  unfold closePair
  extract_lets a q b
  rw [pairOf_updPair]
  have ha : pairOf a ns = pairOf s ns := by
    have hk : Keeps [.time] s a := Keeps.each (keeps_refl _ s) fun _ _ hx => Keeps.ite hx.sourceLost hx
    unfold pairOf
    rw [show a.ridge = s.ridge from hk .ridge (by decide)]
  have hb : pairOf b ns = pairOf a ns := by
    refine forEach_keeps (fun x : State => pairOf x ns = pairOf a ns) _ _ a rfl fun x _ y hy => ?_
    have hw := wiring_setPortReady (s := updPort (portIx x) (fun p => if p.st = 5 then p else { PortSt.reset with
      partner := p.partner, pport := p.pport, bypassed := p.bypassed, replays := p.replays, retrains := p.retrains
      crcErr := p.crcErr, hvote := p.hvote }) y) x false
    exact (pairOf_of_wiring hw ns).trans hy
  rw [hb, ha]

theorem pairOf_leaveAll (ns : Bool) : pairOf (leaveAll s) ns =
    if (pairOf s ns).isOpen = true ∧ (pairOf s ns).step = .idle then { pairOf s ns with step := .leaving } else pairOf s ns := by
  unfold leaveAll
  rw [pairOf_beginLeave, pairOf_beginLeave, pairOf_beginLeave]
  cases ns <;> simp

theorem pairOf_closeUnopened (k ns : Bool) : pairOf (closeUnopened k s) ns =
    if ns = k ∧ (pairOf s k).isOpen = false then { Pair.reset with step := .leftHold } else pairOf s ns := by
  unfold closeUnopened
  split
  case isTrue h => rw [if_neg fun hc => by rw [h] at hc; exact absurd hc.2 (by decide)]
  case isFalse h =>
    rw [pairOf_closePair]
    have hcl : (pairOf s k).isOpen = false := Bool.eq_false_iff.mpr h
    by_cases hns : ns = k
    · rw [if_pos hns, if_pos ⟨hns, hcl⟩]
    · rw [if_neg hns, if_neg fun hc => hns hc.1]

theorem pairOf_closeBoth (ns : Bool) : pairOf (closeUnopened true (closeUnopened false s)) ns =
    if (pairOf s ns).isOpen = false then { Pair.reset with step := .leftHold } else pairOf s ns := by
  cases ns <;> simp [pairOf_closeUnopened]

theorem keeps_closeUnopened (k : Bool) : Keeps [.time, .ridge, .bw, .xing, .out, .pw, .ep, .pba] s (closeUnopened k s) := by
  unfold closeUnopened
  exact Keeps.ite (keeps_refl _ s) (keeps_refl _ s).closePair

theorem firm_closeUnopened (k : Bool) : Firm s (closeUnopened k s) := by
  unfold closeUnopened
  split
  · exact firm_refl s
  · exact (firm_refl s).closePair

theorem now_closePair (k : Bool) (step : PairStep) : (closePair k step s).time.now = s.time.now := by
  have h := congrArg TimeBase.now (aligned_closePair s k step)
  exact h

theorem now_closeUnopened (k : Bool) : (closeUnopened k s).time.now = s.time.now := by
  unfold closeUnopened
  split
  · rfl
  · exact now_closePair k _

/-! ## The end of FENCE_SELF -/

/-- FENCE_SELF has been answered: T_EFFECT and the number of items, with its log entry. -/
def Answered (m : Mbox) (t0 : Word) (n : Nat) (s u : State) : Prop :=
  u.pw.fence = .done ∧ (box u m).resp = some ⟨0, 0, bytesOf 8 (BitVec.ofNat 64 n) ++ bytesOf 8 t0⟩ ∧
    ∃ (k : BitVec 32) (a : Word), u.wr.log.getLast? = some ⟨s.time.now, k, 0x0F, a, t0⟩ ∧
      a.extractLsb' 0 16 = BitVec.ofNat 16 (boxCode (box s m))

/-- Step 6 follows once both pairs are closed, and changes no pair. -/
theorem fenceStep6_closed {t0 : Word} {n : Nat} (hf : s.pw.fence = .leaving t0 n m) (hc : ∀ ns, (pairOf s ns).isOpen = false) :
    Answered m t0 n s (fenceStep6 s) ∧ ∀ ns, pairOf (fenceStep6 s) ns = pairOf s ns := by
  have hu : fenceStep6 s = respond m (ok (bytesOf 8 (BitVec.ofNat 64 n) ++ bytesOf 8 t0))
      (logUrgent m stOk 0 0 t0 (updPw (fun p => { p with fence := .done }) s)) := by
    unfold fenceStep6
    rw [hf]
    dsimp only
    rw [if_neg (by rw [hc, hc]; decide)]
  obtain ⟨w, hw⟩ : ∃ w, w = updPw (fun p => { p with fence := .done }) s := ⟨_, rfl⟩
  rw [← hw] at hu
  obtain ⟨hk, hnext, a, hlast, hcode, -⟩ := logUrgent_spec (s := w) (m := m) 0 0 t0
  rw [hu]
  have hfirm : (logUrgent m stOk 0 0 t0 w).pw.fence = w.pw.fence := ((firm_refl w).keeps hk).field Power.fence
  refine ⟨⟨hfirm.trans (by rw [hw]; rfl), ?_, w.wr.logNext, a, ?_, ?_⟩, fun ns => ?_⟩
  · exact congrArg MboxSt.resp ((box_updBox _ _ _ _).trans (if_pos rfl))
  · refine Eq.trans hlast ?_
    rw [hw]
    rfl
  · rw [hcode, hw]
    rfl
  · have hr : (logUrgent m stOk 0 0 t0 w).ridge = w.ridge := hk .ridge (by decide)
    change pairOf (logUrgent m stOk 0 0 t0 w) ns = _
    unfold pairOf
    rw [hr, hw]
    rfl

theorem fenceStep6_open {t0 : Word} {n : Nat} (hf : s.pw.fence = .leaving t0 n m) {ns : Bool} (ho : (pairOf s ns).isOpen = true) :
    fenceStep6 s = s := by
  unfold fenceStep6
  rw [hf]
  refine if_pos ?_
  cases ns
  · rw [ho, Bool.true_or]
  · rw [ho, Bool.or_true]

/-- Step 5: the open pairs leave, the others close, and with none open step 6 follows at once. -/
theorem endFence_spec (t0 : Word) (n : Nat) :
    let u := endFence t0 n m s
    ((∀ ns, (pairOf s ns).isOpen = false) → Answered m t0 n s u) ∧
    (∀ ns, (pairOf s ns).isOpen = true → u.pw.fence = .leaving t0 n m ∧ box u m = box s m ∧ (pairOf u ns).isOpen = true ∧
      ((pairOf s ns).step = .idle → (pairOf u ns).step = .leaving)) ∧
    ∀ ns, (pairOf s ns).isOpen = false → (pairOf u ns).isOpen = false := by
  intro u
  obtain ⟨w, hw⟩ : ∃ w, w = updPw (fun p => { p with fence := .leaving t0 n m }) s := ⟨_, rfl⟩
  obtain ⟨y, hy⟩ : ∃ y, y = closeUnopened true (closeUnopened false (leaveAll w)) := ⟨_, rfl⟩
  have hu : u = fenceStep6 y := by
    rw [hy, hw]
    rfl
  have hleave : Keeps [.ridge, .bw, .xing, .out] w (leaveAll w) := (keeps_refl _ w).leaveAll
  have hk : Keeps [.time, .ridge, .bw, .xing, .out, .pw, .ep, .pba] w y := by
    rw [hy]
    exact keeps_trans (keeps_trans (keeps_mono (by decide) hleave) (keeps_closeUnopened false)) (keeps_closeUnopened true)
  have hfence : y.pw.fence = .leaving t0 n m := by
    have hf : Firm w y := by
      rw [hy]
      exact (((firm_refl w).keeps hleave).trans (firm_closeUnopened false)).trans (firm_closeUnopened true)
    rw [hf.field Power.fence, hw]
    rfl
  have hnow : y.time.now = s.time.now := by
    rw [hy, now_closeUnopened, now_closeUnopened, show (leaveAll w).time = w.time from hleave .time (by decide), hw]
    rfl
  have hbox : box y m = box s m := by
    rw [hk.box_eq (by decide) m, hw]
    rfl
  have hpair (ns : Bool) : pairOf y ns = if (pairOf s ns).isOpen = false then { Pair.reset with step := .leftHold } else
      if (pairOf s ns).step = .idle then { pairOf s ns with step := .leaving } else pairOf s ns := by
    have hws : pairOf w ns = pairOf s ns := by
      rw [hw]
      rfl
    rw [hy, pairOf_closeBoth, pairOf_leaveAll, hws]
    generalize pairOf s ns = p
    cases ho : p.isOpen
    · simp [ho]
    · by_cases hi : p.step = .idle <;> simp [ho, hi]
  have hopen (ns : Bool) : (pairOf y ns).isOpen = (pairOf s ns).isOpen := by
    rw [hpair]
    cases ho : (pairOf s ns).isOpen
    · rw [if_pos rfl]
      rfl
    · rw [if_neg (by decide)]
      split <;> exact ho
  rw [hu]
  by_cases hc : ∀ ns, (pairOf s ns).isOpen = false
  · obtain ⟨⟨hdone, hresp, k, a, hlast, hcode⟩, hpairs⟩ := fenceStep6_closed hfence fun ns => (hopen ns).trans (hc ns)
    refine ⟨fun _ => ⟨hdone, hresp, k, a, ?_, ?_⟩, fun ns ho => ?_, fun ns ho => ?_⟩
    · rw [← hnow]
      exact hlast
    · rw [← hbox]
      exact hcode
    · rw [hc ns] at ho
      cases ho
    · rw [hpairs, hopen]
      exact ho
  · obtain ⟨k, hk⟩ := not_forall.mp hc
    have ho : (pairOf y k).isOpen = true := (hopen k).trans ((Bool.not_eq_false _).mp hk)
    rw [fenceStep6_open hfence ho]
    refine ⟨fun h => absurd h hc, fun ns hns => ⟨hfence, hbox, (hopen ns).trans hns, fun hi => ?_⟩, fun ns hns => (hopen ns).trans hns⟩
    rw [hpair, if_neg (by rw [hns]; decide), if_pos hi]

/-! ## FENCE_SELF -/

/-- A mode that settles leaves every mailbox. -/
theorem box_settleMode (k : Mbox) : box (settleMode s) k = box s k := by
  by_cases h : (decide (modeNow s = s.pw.mode) || decide (modeNow s = 0) || decide (s.pw.mode = 0)) = true
  · rw [show settleMode s = updPw (fun p => { p with mode := modeNow s }) s from if_pos h]
    rfl
  · rw [settleMode_changed h]
    extract_lets y w y' y''
    have h1 : Keeps [.thr, .wake, .log, .ridge, .bw, .xing, .out, .ep, .pba] y'
        (notifyMode (forEach (List.range 8) (fun p acc => partEvent p 6 0 (w.setWidth 64) acc) y'')) :=
      (Keeps.each ((keeps_refl _ y').wrightEvent) fun _ _ hx => hx.partEvent).notifyMode
    exact h1.box_eq (by decide) k

theorem mode_of_keeps (h : Keeps P s u) (hp : Piece.pw ∉ P := by decide) : u.pw.mode = s.pw.mode := by
  have e : { u.pw with wake := [], routerHeld := [] } = { s.pw with wake := [], routerHeld := [] } := h .pw hp
  have e' := congrArg Power.mode e
  exact e'

theorem mode_dispVote (x : Thr) (b : Bool) : (dispVote x b s).pw.mode = s.pw.mode := by
  cases x <;> rfl

theorem mode_endItem (e : Nat) (fail : Bool) (cause detail : BitVec 8) : (endItem e fail cause detail s).pw.mode = s.pw.mode := by
  unfold endItem
  extract_lets x w w'
  have hw : w'.pw.mode = s.pw.mode := mode_of_keeps (P := [.ep, .led]) ((keeps_refl _ s).updEntry.abandonReads)
  split
  · rfl
  · split
    · exact (mode_dispVote _ _).trans hw
    · exact hw

/-- Items that end leave the mode as displayed. -/
theorem mode_failAll (cause : BitVec 8) : (failAll cause s).pw.mode = s.pw.mode := by
  unfold failAll
  refine (mode_of_keeps (keeps_refl [.queue, .led, .inst, .ridge, .bw, .xing, .out, .fresh, .pba] _).deliverAll).trans ?_
  exact forEach_keeps (fun x : State => x.pw.mode = s.pw.mode) _ _ s rfl fun e _ x hx => (mode_endItem e _ _ _).trans hx

theorem modeNow_fenced (hon : mainOn s = true) : modeNow (updPw (fun p => { p with fenced := true }) s) = 7 := by
  obtain ⟨hsill, hstandby⟩ := Bool.and_eq_true_iff.mp hon
  unfold modeNow
  rw [show (updPw (fun p => { p with fenced := true }) s).pw.sillOn = true from hsill,
    show standbyCond (updPw (fun p => { p with fenced := true }) s) = false from (Bool.not_eq_true' _).mp hstandby]
  rfl

theorem mode_settled : (settleMode s).pw.mode = modeNow s := by
  by_cases h : (decide (modeNow s = s.pw.mode) || decide (modeNow s = 0) || decide (s.pw.mode = 0)) = true
  · rw [show settleMode s = updPw (fun p => { p with mode := modeNow s }) s from if_pos h]
    rfl
  · rw [settleMode_changed h]
    extract_lets y w y' y''
    have h1 : Keeps [.thr, .wake, .wr, .log, .ridge, .bw, .xing, .out, .ep, .pba] y
        (notifyMode (forEach (List.range 8) (fun p acc => partEvent p 6 0 (w.setWidth 64) acc) y'')) :=
      (Keeps.each ((keeps_refl _ y).updWr.wrightEvent) fun _ _ hx => hx.partEvent).notifyMode
    exact mode_of_keeps h1

/-- Steps 1 to 4 of R45: the device is fenced, its partitions stop and its items end. -/
theorem beginFence_spec (hon : mainOn s = true) :
    let u := beginFence m s
    box u m = box s m ∧ u.pw.fenced = true ∧ u.pw.mode = 7 ∧ u.pw.fence = .delivering s.time.now (openItems s).length m ∧
      (∀ p, p < 8 → ∀ x ∈ sourcesOf s p, (srcEnt u x).isOpen = false) ∧
      (∀ e, (entry s e).st ≠ .free → (entry s e).st ≠ .closing → (entry u e).st = .free ∨
        ((entry u e).st = .closing ∧ ((entry s e).st ≠ .owned → (entry u e).fail = true ∧ (entry u e).cause = 0x0C))) := by
  intro u
  obtain ⟨w, hw⟩ : ∃ w, w = settleMode (updPw (fun p => { p with fenced := true }) s) := ⟨_, rfl⟩
  obtain ⟨y, hy⟩ : ∃ y, y = failAll 0x0C (stopAll w) := ⟨_, rfl⟩
  have hu : u = updPw (fun p => { p with fence := .delivering s.time.now (openItems w).length m }) y := by
    rw [hy, hw]
    rfl
  have hset : Keeps [.thr, .ridge, .bw, .xing, .out, .pw, .wake, .ep, .pba, .wr, .log] s w := by
    rw [hw]
    exact ((keeps_refl _ s).updPw).settleMode
  have hsetw : Wired (updPw (fun p => { p with fenced := true }) s) w := by
    rw [hw]
    exact (wired_refl _).settleMode
  have hstop : Keeps [.thr, .core, .bay, .slice, .srcs, .eng, .mem, .old, .poison, .fresh, .wake, .log] w (stopAll w) :=
    (keeps_refl _ w).stopAll
  have hfail : Keeps [.queue, .led, .inst, .ridge, .bw, .xing, .out, .fresh, .pw, .ep, .pba] (stopAll w) y := by
    rw [hy]
    exact (keeps_refl _ _).failAll
  have hfirm : Firm w y := by
    rw [hy]
    exact ((firm_refl w).keeps hstop).wired (wired_failAll 0x0C)
  have hopen : openItems w = openItems s := by
    unfold openItems
    rw [show w.led = s.led from hset .led (by decide)]
  have hent (e : Nat) : entry (stopAll w) e = entry s e := by rw [hstop.entry_eq e, hset.entry_eq e]
  rw [hu, hopen]
  refine ⟨?_, ?_, ?_, rfl, fun p hp x hx => ?_, fun e hfree hcl => ?_⟩
  · change box y m = _
    rw [hfail.box_eq (by decide) m, hstop.box_eq (by decide) m, hw, box_settleMode]
    rfl
  · change y.pw.fenced = true
    rw [hfirm.field Power.fenced, hsetw.standing Power.fenced]
    rfl
  · change y.pw.mode = 7
    rw [hy, mode_failAll, mode_of_keeps hstop, hw, mode_settled, modeNow_fenced hon]
  · have hsrc : srcEnt y x = srcEnt (stopAll w) x := by
      unfold srcEnt
      rw [show y.srcs = (stopAll w).srcs from hfail .srcs (by decide)]
    change (srcEnt y x).isOpen = false
    rw [hsrc]
    exact closed_stopAll hp (by rw [sourcesOf_of_keeps hset p]; exact hx)
  · change (entry y e).st = .free ∨ ((entry y e).st = .closing ∧ (_ → (entry y e).fail = true ∧ (entry y e).cause = 0x0C))
    rw [hy]
    rcases failAll_ended 0x0C (s := stopAll w) (by rw [hent]; exact hfree) (by rw [hent]; exact hcl) with h | h
    · exact .inl h
    · obtain ⟨hst, hcause⟩ := endOf_iff.mp h
      exact .inr ⟨hst, fun _ => hcause⟩

theorem leaveBypassSwitch_answers {t0 : Word} {n : Nat} (hf : s.pw.fence = .leaving t0 n m) {ns : Bool}
    (hd : (pairOf s ns).step = .drained) (hc : (pairOf s (!ns)).isOpen = false) :
    ∃ u, exec (.leaveBypassSwitch ns) s = .next u ∧ Answered m t0 n s u := by
  obtain ⟨y, hy⟩ : ∃ y, y = closePair ns .leftHold s := ⟨_, rfl⟩
  have hx : exec (.leaveBypassSwitch ns) s = .next (fenceStep6 (settleMode y)) := by
    rw [hy]
    exact if_neg fun h => h hd
  have hset := (wired_refl y).settleMode
  have hfence : (settleMode y).pw.fence = .leaving t0 n m := by
    rw [hset.standing Power.fence, hy, ((firm_refl s).closePair (ns := ns) (step := .leftHold)).field Power.fence]
    exact hf
  have hpair (k : Bool) : (pairOf (settleMode y) k).isOpen = false := by
    rw [hset.pairOf_eq, hy, pairOf_closePair]
    split
    · rfl
    · next hk => rw [show k = !ns by cases k <;> cases ns <;> simp_all, hc]
  have hnow : (settleMode y).time.now = s.time.now := by
    rw [show (settleMode y).time = y.time from
      ((keeps_refl [.thr, .ridge, .bw, .xing, .out, .pw, .wake, .ep, .pba, .wr, .log] y).settleMode) .time (by decide), hy, now_closePair]
  have hbox : box (settleMode y) m = box s m := by
    rw [box_settleMode, hy]
    exact ((keeps_refl [.time, .ridge, .bw, .xing, .out, .pw, .ep, .pba] s).closePair).box_eq (by decide) m
  obtain ⟨⟨hdone, hresp, k, a, hlast, hcode⟩, -⟩ := fenceStep6_closed hfence hpair
  refine ⟨_, hx, hdone, hresp, k, a, ?_, ?_⟩
  · rw [← hnow]
    exact hlast
  · rw [← hbox]
    exact hcode

/-- Settles O51: the scope of QUENCH and RELEASE queue by queue, and the steps of FENCE_SELF. -/
theorem urgentCommands : Obligations.UrgentCommands := by
  unfold Obligations.UrgentCommands
  intro logged answered quenches
  have hquench (c : Mbox → Instr) (code : Nat) (v : Bool) (hcode : 0x900 ≤ code)
      (hexec : ∀ s m, exec (c m) s = if urgentWaits s m then .next s else command m code true (plenIs 8) (quenchScope v m) s) :
      quenches c code v := by
    refine cmdRow_of (plenOk := plenIs 8) (body := fun m => quenchScope v m) (fun s m h => ?_) (fun _ _ => rfl) fun s m h => ?_
    · rw [hexec, if_neg (Bool.eq_false_iff.mp (h.2.2.2.2.1 hcode))]
    · intro w scope ix fits qs
      obtain ⟨hbad, hdone⟩ := quench_spec (s := s) (m := m) v (box s m)
      refine ⟨fun hf => ?_, fun hf => ?_⟩
      · exact replied_bad (hbad hf)
      · obtain ⟨hk, hnext, ⟨a, hlast, hcode, hseq, hmg, hzero, hscope, hix⟩, hq⟩ :=
          quenched_spec (s := s) (m := m) v qs (w.extractLsb' 0 2) (w.extractLsb' 16 10)
        refine ⟨logUrgent m stOk (w.extractLsb' 0 2) (w.extractLsb' 16 10) s.time.now (quenchEach v qs s), replied_ok (hdone hf), hk, ⟨a, hlast, hnext, hcode, hseq, hmg, hzero, hscope, hix⟩, hq, fun q => ?_⟩
        have hlt := (w.extractLsb' 0 2).isLt
        exact mem_inScope (by have := hf.2.1; omega)
  refine ⟨hquench .quench 0x901 true (by decide) fun _ _ => rfl, hquench .release 0x902 false (by decide) fun _ _ => rfl, ?_, ?_, ?_⟩
  · refine cmdRow_of (plenOk := plenIs 0) (body := fun m _ s => fenceNow m s) (fun s m h => ?_) (fun _ _ => rfl) fun s m h => ?_
    · exact if_neg (Bool.eq_false_iff.mp (h.2.2.2.2.1 (by decide)))
    · refine ⟨fun hfenced => ?_, fun hfenced hon => ?_⟩
      · obtain ⟨hk, hnext, a, hlast, hcode, hseq, hmg, hzero, hscope, hix⟩ := logUrgent_spec (s := s) (m := m) 0 0 s.time.now
        have hr : fenceNow m s = (ok (bytesOf 8 0 ++ bytesOf 8 s.time.now), logUrgent m stOk 0 0 s.time.now s) := if_pos hfenced
        exact ⟨logUrgent m stOk 0 0 s.time.now s, replied_ok hr, keeps_mono (by decide) hk, a, hlast, hnext, hcode, hseq, hmg, hzero, hscope, hix⟩
      · have hr : fenceNow m s = (later, beginFence m s) := if_neg (by rw [hfenced]; decide)
        obtain ⟨hbox, hrest⟩ := beginFence_spec (m := m) hon
        have hu : respond m (fenceNow m s).1 (fenceNow m s).2 = updBox m (fun b => { b with effected := true }) (beginFence m s) := by
          rw [hr]
          rfl
        rw [hu]
        generalize beginFence m s = y at hbox hrest
        refine ⟨?_, hrest⟩
        rw [box_updBox, if_pos rfl, hbox]
  · intro s m t0 n hf left
    have hx : exec .fenceDeliveryDone s = if inflight s = 0 then .next (endFence t0 n m s) else .next s := by
      change execFenceDeliveryDone s = _
      unfold execFenceDeliveryDone
      rw [hf]
    have hy : exec .fenceDeliveryTimeout s = if t0.toNat + 1000000 ≤ s.time.now.toNat then .next (endFence t0 n m s) else .next s := by
      change execFenceDeliveryTimeout s = _
      unfold execFenceDeliveryTimeout
      rw [hf]
    exact ⟨fun h => ⟨_, hx.trans (if_pos h), endFence_spec t0 n⟩, fun h => hx.trans (if_neg h),
      fun h => ⟨_, hy.trans (if_pos h), endFence_spec t0 n⟩, fun h => hy.trans (if_neg (Nat.not_le.mpr h))⟩
  · exact fun s m t0 n hf ns hd hc => leaveBypassSwitch_answers hf hd hc

end Sys2Proof.Machine
end

section
/-! The links of the ridge as a port goes down or comes up: what stands through it (R393, R400 to R403). -/
namespace Sys2Proof.Machine
set_option Elab.async false
variable {s u v : State} {P : List Piece}

/-! ## Frames -/

theorem Keeps.hubWrite {pa : BitVec 48} {l : List Byte} {poison : Bool} (h : Keeps P s u) (hP : ∀ p ∈
    ([.thr, .core, .bay, .slice, .eng, .mem, .old, .poison, .wake, .log] : List Piece), p ∈ P := by decide) : Keeps P s
    (Machine.hubWrite pa l poison u) := by
  refine h.via ?_ hP
  have h := keeps_refl [.thr, .core, .bay, .slice, .eng, .mem, .old, .poison, .wake, .log] u
  unfold Machine.hubWrite
  dsimp only
  refine Keeps.each h fun _ _ hx => ?_
  refine Keeps.storeBytes ?_
  split
  · exact hx.dropCopies
  · exact hx

theorem Keeps.lostStore {t : Thr} {a : Access} {cause : LostCause} (h : Keeps P s u) (hP : ∀ p ∈
    ([.thr, .core, .bay, .slice, .eng, .mem, .old, .poison, .fresh, .wake, .log] : List Piece), p ∈ P := by decide) : Keeps P s
    (Machine.lostStore t a cause u) := by
  refine h.via ?_ hP
  have h := keeps_refl [.thr, .core, .bay, .slice, .eng, .mem, .old, .poison, .fresh, .wake, .log] u
  unfold Machine.lostStore
  dsimp only
  refine Keeps.countEvent ?_
  refine Keeps.updThr ?_
  split
  · split
    · exact (h.frame.hubWrite).cleanLine
    · refine Keeps.cleanLine ?_
      refine Keeps.hubWrite ?_
      split
      · exact h.frame
      · exact h
  · split
    · exact h.updThr
    · exact h

theorem Keeps.removeOut {t : Thr} {id : ℕ} (h : Keeps P s u) (hP : ∀ p ∈ ([.thr] : List Piece), p ∈ P := by decide)
    : Keeps P s (Machine.removeOut t id u) := by
  refine h.via ?_ hP
  have h := keeps_refl [.thr] u
  unfold Machine.removeOut
  exact h.updThr

theorem Keeps.countConfirmed {t : Thr} {code : ℕ} {k' : ℕ} (h : Keeps P s u) (hP : ∀ p ∈ ([.thr, .wake]
    : List Piece), p ∈ P := by decide) : Keeps P s (Machine.countConfirmed t code k' u) := by
  refine h.via ?_ hP
  have h := keeps_refl [.thr, .wake] u
  unfold Machine.countConfirmed
  split
  · exact h
  · exact h.pmcCount

theorem Keeps.countHeld {t : Thr} {code : ℕ} (h : Keeps P s u) (hP : ∀ p ∈ ([.thr, .wake] : List Piece), p ∈ P
    := by decide) : Keeps P s (Machine.countHeld t code u) := by
  refine h.via ?_ hP
  have h := keeps_refl [.thr, .wake] u
  unfold Machine.countHeld
  split
  · exact h.countConfirmed
  · exact h.pmcCount

theorem Keeps.countMany {t : Thr} {code : ℕ} {k' : ℕ} (h : Keeps P s u) (hP : ∀ p ∈ ([.thr, .wake] : List Piece), p ∈ P
    := by decide) : Keeps P s (Machine.countMany t code k' u) := by
  refine h.via ?_ hP
  have h := keeps_refl [.thr, .wake] u
  unfold Machine.countMany
  split
  · exact h
  · exact h.pmcCount

theorem Keeps.countUnconfirmed {t : Thr} {code : ℕ} (h : Keeps P s u) (hP : ∀ p ∈ ([.thr, .wake] : List Piece), p ∈ P
    := by decide) : Keeps P s (Machine.countUnconfirmed t code u) := by
  refine h.via ?_ hP
  have h := keeps_refl [.thr, .wake] u
  unfold Machine.countUnconfirmed
  exact h.pmcCount

theorem Keeps.freeShim {i : Fin 640} {p : ShimE → Bool} (h : Keeps P s u) (hP : ∀ p ∈ ([.core] : List Piece), p ∈ P
    := by decide) : Keeps P s (Machine.freeShim i p u) := by
  refine h.via ?_ hP
  have h := keeps_refl [.core] u
  unfold Machine.freeShim
  exact h.updCore

theorem Keeps.noteError {c : ℕ} {x : Loc} {l : BitVec 42} {dev : BitVec 6} {ue : Bool} {patrol : Bool} (h : Keeps P s u)
    (hP : ∀ p ∈ ([.chan, .log] : List Piece), p ∈ P := by decide) : Keeps P s (Machine.noteError c x l dev ue patrol u)
    := by
  refine h.via ?_ hP
  have h := keeps_refl [.chan, .log] u
  unfold Machine.noteError
  dsimp only
  exact h.updChan.wrightEvent

theorem Keeps.logFound {l : List (BitVec 42 × Fin 16 × BitVec 6)} (h : Keeps P s u) (hP : ∀ p ∈ ([.chan, .log]
    : List Piece), p ∈ P := by decide) : Keeps P s (Machine.logFound l u) := by
  refine h.via ?_ hP
  have h := keeps_refl [.chan, .log] u
  unfold Machine.logFound
  refine Keeps.each h fun _ _ hx => ?_
  split
  · exact hx.updChan.noteError
  · exact hx

theorem Keeps.releaseShim {i : Fin 640} {p : ShimE → Bool} (h : Keeps P s u) (hP : ∀ p ∈ ([.core, .chan, .log]
    : List Piece), p ∈ P := by decide) : Keeps P s (Machine.releaseShim i p u) := by
  refine h.via ?_ hP
  have h := keeps_refl [.core, .chan, .log] u
  unfold Machine.releaseShim
  dsimp only
  exact h.logFound.freeShim

theorem Keeps.retireTo {t : Thr} {pc : Word} {th0 : Thread} (h : Keeps P s u) (hP : ∀ p ∈
    ([.thr, .core, .chan, .wake, .log] : List Piece), p ∈ P := by decide) : Keeps P s (Machine.retireTo t pc th0 u) := by
  refine h.via ?_ hP
  have h := keeps_refl [.thr, .core, .chan, .wake, .log] u
  unfold Machine.retireTo
  dsimp only
  split
  · refine Keeps.countConfirmed ?_
    refine Keeps.countMany ?_
    refine Keeps.each ?_ fun _ _ hx => ?_
    · refine Keeps.updThr ?_
      split
      · exact h.countUnconfirmed.releaseShim
      · exact h.countUnconfirmed
    · exact hx.countHeld
  · split <;> exact h.countUnconfirmed.updThr

theorem Keeps.valueDone {t : Thr} {id : ℕ} {v : Word} {poison : Bool} (h : Keeps P s u) (hP : ∀ p ∈
    ([.thr, .core, .chan, .wake, .log] : List Piece), p ∈ P := by decide) : Keeps P s
    (Machine.valueDone t id v poison u) := by
  refine h.via ?_ hP
  have h := keeps_refl [.thr, .core, .chan, .wake, .log] u
  unfold Machine.valueDone
  dsimp only
  split
  · exact h
  · split
    · exact h.removeOut.updThr
    · split
      · exact h.removeOut
      · exact h.removeOut.updThr.retireTo

theorem Keeps.accessLost {t : Thr} {a : Access} {cause : LostCause} (h : Keeps P s u) (hP : ∀ p ∈
    ([.thr, .core, .bay, .slice, .eng, .mem, .old, .poison, .fresh, .chan, .wake, .log] : List Piece), p ∈ P := by decide)
    : Keeps P s (Machine.accessLost t a cause u) := by
  refine h.via ?_ hP
  have h := keeps_refl [.thr, .core, .bay, .slice, .eng, .mem, .old, .poison, .fresh, .chan, .wake, .log] u
  unfold Machine.accessLost
  dsimp only
  split
  · exact h.updThr.countEvent.valueDone
  · split
    · exact h.lostStore.valueDone
    · split
      · exact h.lostStore.loseResv.valueDone
      · exact h.lostStore.removeOut

theorem Keeps.ridgeAccessLost {t : Thr} {id : ℕ} {cause : LostCause} (h : Keeps P s u) (hP : ∀ p ∈
    ([.thr, .core, .bay, .slice, .eng, .mem, .old, .poison, .fresh, .chan, .wake, .log] : List Piece), p ∈ P := by decide)
    : Keeps P s (Machine.ridgeAccessLost t id cause u) := by
  refine h.via ?_ hP
  have h := keeps_refl [.thr, .core, .bay, .slice, .eng, .mem, .old, .poison, .fresh, .chan, .wake, .log] u
  unfold Machine.ridgeAccessLost
  split
  · exact h.accessLost
  · exact h

theorem Keeps.notice {p : ℕ} {index : BitVec 16} {payload : Word} (h : Keeps P s u) (hP : ∀ p ∈ ([.thr, .wake, .log]
    : List Piece), p ∈ P := by decide) : Keeps P s (Machine.notice p index payload u) := by
  refine h.via ?_ hP
  have h := keeps_refl [.thr, .wake, .log] u
  unfold Machine.notice
  split
  · exact h.partEvent
  · exact h.wrightEvent

/-! ## What a request that is lost leaves of the links -/

theorem Wired.updEp {f : Endpoint → Endpoint} (h : Wired s u) : Wired s (Machine.updEp f u) :=
  h.trans ⟨fun _ => rfl, rfl, rfl⟩

theorem Wired.updEntry {e : Nat} {f : Entry → Entry} (h : Wired s u) : Wired s (Machine.updEntry e f u) :=
  h.trans ⟨fun _ => rfl, rfl, rfl⟩

theorem Wired.readFailed {r : ReadRec} {cause detail : BitVec 8} {status : BitVec 2} (h : Wired s u) :
    Wired s (Machine.readFailed r cause detail status u) := by
  unfold Machine.readFailed
  split
  · exact (h.updEp.updEp).sendRsp.pumpReads
  · exact h.updEp.endItem.pumpReads

theorem Wired.loseReq {q : RReq} (h : Wired s u) : Wired s (Machine.loseReq q u) := by
  unfold Machine.loseReq
  extract_lets w
  have hw : Wired s w := h.closeReq
  split
  · exact hw.countUnreach.keeps (keeps_refl [.thr, .core, .bay, .slice, .eng, .mem, .old, .poison, .fresh, .chan, .wake, .log] _).ridgeAccessLost
  · split
    · split
      · exact hw
      · split
        · exact hw.countUnreach.readFailed
        · exact hw.updEp.pumpReads
    · split
      · exact hw.updRidge.updEntry
      · exact hw.updEntry
  · exact hw

theorem Wired.loseReqs {p : RReq → Bool} (h : Wired s u) : Wired s (Machine.loseReqs p u) := by
  unfold Machine.loseReqs
  exact (Wired.each h.updRidge fun _ _ hx => hx.loseReq).deliverAll

theorem Wired.topologyNotice (h : Wired s u) : Wired s (Machine.topologyNotice u) := by
  unfold Machine.topologyNotice
  exact Wired.each h fun _ x hx => Wired.ite (hx.keeps (keeps_refl [.thr, .wake, .log] x).notice) hx

theorem Wired.passOn {column : Bool} {skip : Option Port} {b : FlitBody} (h : Wired s u) : Wired s (Machine.passOn column skip b u) := by
  unfold Machine.passOn
  exact Wired.each h fun _ _ hx => Wired.ite hx.portSend hx

theorem Wired.discardStranded (h : Wired s u) : Wired s (Machine.discardStranded u) := by
  unfold Machine.discardStranded
  refine Wired.each h fun x y hy => ?_
  extract_lets bad gone a b
  have ha : Wired s a := Wired.each hy fun _ _ hx => hx.freeBuffer
  have hb : Wired s b := ha.updPort
  exact hb.updRidge

/-! ## What stands of the links as one goes down or comes up -/

/-- The ports' own state and the pairs stand; the live map, the readiness map and the counts may change. -/
structure Linked (s u : State) : Prop where
  port : ∀ i, linkOf (Machine.port u i) = linkOf (Machine.port s i)
  pairs : u.ridge.we = s.ridge.we ∧ u.ridge.ns = s.ridge.ns

theorem linked_refl (s : State) : Linked s s := ⟨fun _ => rfl, rfl, rfl⟩

theorem Linked.trans (h : Linked s u) (k : Linked u v) : Linked s v :=
  ⟨fun i => (k.port i).trans (h.port i), k.pairs.1.trans h.pairs.1, k.pairs.2.trans h.pairs.2⟩

theorem Linked.wired (h : Linked s u) (k : Wired u v) : Linked s v :=
  h.trans ⟨k.port, k.wiring Ridge.we, k.wiring Ridge.ns⟩

theorem Linked.updRidge {f : Ridge → Ridge} (h : Linked s u)
    (hf : ∀ r, (f r).ports = r.ports ∧ (f r).we = r.we ∧ (f r).ns = r.ns := by exact fun _ => ⟨rfl, rfl, rfl⟩) :
    Linked s (Machine.updRidge f u) := by
  obtain ⟨hp, hw, hn⟩ := hf u.ridge
  refine h.trans ⟨fun i => ?_, hw, hn⟩
  change linkOf (look PortSt.reset (f u.ridge).ports i) = _
  rw [hp]
  rfl

theorem Linked.field (h : Linked s u) {α : Type} (i : Nat) (f : PortSt → α) (hf : ∀ p, f (linkOf p) = f p := by exact fun _ => rfl) :
    f (Machine.port u i) = f (Machine.port s i) := by
  rw [← hf, h.port, hf]

theorem Linked.pairOf_eq (h : Linked s u) (ns : Bool) : pairOf u ns = pairOf s ns := by
  cases ns
  · exact h.pairs.1
  · exact h.pairs.2

theorem Linked.notifyRing (h : Linked s u) : Linked s (Machine.notifyRing u) := by
  unfold Machine.notifyRing
  split
  · exact h
  · exact h.wired ((wired_refl u).updEp).noticeMsg

theorem Linked.setLive {w : BitVec 64} (h : Linked s u) : Linked s (Machine.setLive w u) := by
  unfold Machine.setLive
  extract_lets x y
  have hx : Linked s x := h.updRidge
  split
  · exact hx
  · exact (hx.wired (wired_refl x).updEp).notifyRing

theorem Linked.setPortReady {x : Port} {b : Bool} (h : Linked s u) : Linked s (Machine.setPortReady x b u) := by
  unfold Machine.setPortReady Machine.setReady
  extract_lets r
  split
  · exact h
  · unfold Machine.notifyReady
    have hr : Linked u (Machine.updPw (fun p => { p with ready := r }) u) := ⟨fun _ => rfl, rfl, rfl⟩
    split
    · exact h.trans hr
    · exact (h.trans hr).wired ((wired_refl _).updEp).noticeMsg

theorem Linked.linkLive {x : Port} {d : BitVec 16} (h : Linked s u) : Linked s (Machine.linkLive x d u) := by
  unfold Machine.linkLive
  split
  · exact h.updRidge
  · exact h.setLive

theorem Linked.flood {column : Bool} (h : Linked s u) : Linked s (Machine.flood column u) := by
  unfold Machine.flood Machine.markSeen
  extract_lets x n
  have hx : Linked s x := Linked.wired (h.updRidge (f := fun r => { r with changes := satInc r.changes })) (wired_refl _).topologyNotice
  refine Linked.wired (hx.updRidge fun r => ?_) (wired_refl _).passOn
  split <;> exact ⟨rfl, rfl, rfl⟩

/-- The readiness map stands. -/
def ReadyKept (s u : State) : Prop := u.pw.ready = s.pw.ready

theorem readyKept_of_wired (h : Wired s u) : ReadyKept s u := h.standing Power.ready

end Sys2Proof.Machine
end

section
/-! Control flits, link-level retry, training and link time of a ridge port (R388 to R396, R409, R413). -/
namespace Sys2Proof.Machine
set_option Elab.async false
variable {s u v : State} {P : List Piece} {x : Port} {f : Flit}

/-! ## A flit goes out -/

theorem port_updPort_same (f : PortSt → PortSt) : port (updPort (portIx x) f s) (portIx x) = f (port s (portIx x)) := by
  rw [port_updPort, if_pos rfl]

theorem port_updPort_other (f : PortSt → PortSt) {j : Nat} (h : j ≠ portIx x) : port (updPort (portIx x) f s) j = port s j := by
  rw [port_updPort, if_neg h]

/-- What a port has sent: one flit more, with the credits owed at its head. -/
def SentBy (x : Port) (g : SentFlit) (s u : State) : Prop :=
  Keeps [.ridge, .out] s u ∧ (∃ c n, u.out = .flit x (port s (portIx x)).flits g (port s (portIx x)).rxSeq c n :: s.out) ∧
    (∃ o, port u (portIx x) = { port s (portIx x) with
      owe := o, sinceSkip := (port s (portIx x)).sinceSkip + 1, flits := (port s (portIx x)).flits + 1 }) ∧
    ∀ j, j ≠ portIx x → port u j = port s j

theorem clk_of_hears (h : portHears s x = true) : clockStopped s (.ridge x) = false := by
  have hc : s.pw.clkRidge.getLsbD (portIx x) = false := (Bool.not_eq_true' _).mp (Bool.and_eq_true_iff.mp h).2
  cases x <;> exact hc

/-- A flit that goes out carries at most 15 of the credits owed to the first channel that is owed any. -/
def oweOf (k : PortSt) : Nat × Nat :=
  match k.owe with
  | [] => (0, 0)
  | (v, n) :: _ => (v, Nat.min n 15)

theorem emitFlit_runs (g : SentFlit) (hclk : clockStopped s (.ridge x) = false) :
    let k := port s (portIx x)
    let c := oweOf k
    emitFlit x g s = { updPort (portIx x) (fun p => { p with
        owe := if c.2 = 0 then p.owe else put 0 p.owe c.1 (look 0 p.owe c.1 - c.2)
        sinceSkip := p.sinceSkip + 1, flits := p.flits + 1 }) s with
      out := .flit x k.flits g k.rxSeq (BitVec.ofNat 4 c.1) (BitVec.ofNat 4 c.2) :: s.out } :=
  if_neg (Bool.eq_false_iff.mp hclk)

theorem sentBy_emitFlit (g : SentFlit) (hclk : clockStopped s (.ridge x) = false) : SentBy x g s (emitFlit x g s) := by
  rw [emitFlit_runs g hclk]
  dsimp only
  generalize oweOf (port s (portIx x)) = c
  refine ⟨fun p hp => ?_, ⟨_, _, rfl⟩, ⟨if c.2 = 0 then (port s (portIx x)).owe else
    put 0 (port s (portIx x)).owe c.1 (look 0 (port s (portIx x)).owe c.1 - c.2), ?_⟩, fun j hj => ?_⟩
  · cases p <;> simp_all [Piece.same, updPort]
  · exact port_updPort_same _
  · exact port_updPort_other _ hj

/-- A port that owes no credit sends none. -/
theorem out_emitFlit_none (g : SentFlit) (hclk : clockStopped s (.ridge x) = false) (how : (port s (portIx x)).owe = []) :
    (emitFlit x g s).out = .flit x (port s (portIx x)).flits g (port s (portIx x)).rxSeq 0 0 :: s.out := by
  rw [emitFlit_runs g hclk]
  have hc : oweOf (port s (portIx x)) = (0, 0) := by
    unfold oweOf
    rw [how]
  dsimp only
  rw [hc]
  rfl

/-! ## A quiet port -/

theorem takeHeader_quiet (hq : QuietPort s f) : takeHeader f s = s := by
  obtain ⟨-, hreplay, hwait, hhold, hcred⟩ := hq
  have hack : takeAck f.port f.ack s = s := by
    unfold takeAck
    dsimp only
    rw [hreplay]
    rfl
  have hcredit : takeCredit f.port f.crvc f.cred s = s := if_pos hcred
  have hdone : tryHoldDone f.port s = s := by
    unfold tryHoldDone
    dsimp only
    rw [hhold]
    rfl
  have hpump : pumpPort f.port s = s := by
    unfold pumpPort
    rw [hwait]
    exact ite_self s
  unfold takeHeader
  rw [hack, hcredit, hdone, hpump, ite_self]

theorem unsequenced_quiet (hq : QuietPort s f) (act : State → State) : unsequenced f act s = act s := by
  unfold unsequenced
  rw [if_neg (by rw [hq.1]; decide), takeHeader_quiet hq]

theorem through_runs (hclk : clockStopped s (.ridge x) = false) {bytes : Nat} {c : XWhat} (run : State → Result) :
    through (.ridge x) true bytes c run s = run s := if_neg (Bool.eq_false_iff.mp hclk)

/-! ## Acknowledgements, credits and retry -/

/-- The port stands as given, and every other as before. -/
def Only (x : Port) (k : PortSt) (s u : State) : Prop := port u (portIx x) = k ∧ ∀ j, j ≠ portIx x → port u j = port s j

theorem only_updPort (f : PortSt → PortSt) : Only x (f (port s (portIx x))) s (updPort (portIx x) f s) :=
  ⟨port_updPort_same f, fun _ hj => port_updPort_other f hj⟩

theorem tryHoldDone_loose (h : (port s (portIx x)).holding = false) : tryHoldDone x s = s := by
  unfold tryHoldDone
  dsimp only
  rw [h]
  rfl

theorem pumpPort_idle (h : (port s (portIx x)).waiting = []) : pumpPort x s = s := by
  unfold pumpPort
  rw [h]
  exact ite_self s

/-- The header of a flit that acknowledges and returns credits, on a port that has nothing to send. -/
theorem takeHeader_waitless (hup : portUp s f.port = true) (hw : (port s (portIx f.port)).waiting = [])
    (hh : (port s (portIx f.port)).holding = false) : takeHeader f s = takeCredit f.port f.crvc f.cred (takeAck f.port f.ack s) := by
  have hack (y : State) (hy : (port y (portIx f.port)).waiting = [] ∧ (port y (portIx f.port)).holding = false) :
      (port (takeAck f.port f.ack y) (portIx f.port)).waiting = [] ∧ (port (takeAck f.port f.ack y) (portIx f.port)).holding = false := by
    unfold takeAck
    extract_lets k acked
    split
    · exact hy
    · rw [port_updPort_same]
      exact hy
  have hcred (y : State) (hy : (port y (portIx f.port)).waiting = [] ∧ (port y (portIx f.port)).holding = false) :
      (port (takeCredit f.port f.crvc f.cred y) (portIx f.port)).waiting = [] ∧
        (port (takeCredit f.port f.crvc f.cred y) (portIx f.port)).holding = false := by
    unfold takeCredit
    split
    · exact hy
    · rw [port_updPort_same]
      exact hy
  obtain ⟨hw', hh'⟩ := hcred _ (hack s ⟨hw, hh⟩)
  unfold takeHeader
  rw [if_neg (by rw [hup]; decide), tryHoldDone_loose hh', pumpPort_idle hw']

theorem takeAck_one {g : SentFlit} {ack : BitVec 9} (hr : (port s (portIx x)).replay = [g]) (ha : ack = g.seq + 1) :
    takeAck x ack s = updPort (portIx x) (fun p => { p with
      replay := p.replay.dropWhile (fun f => decide ((ack - (f.seq + 1)).toNat < 256)), lastAck := s.time.now, stuck := 0 }) s := by
  unfold takeAck
  dsimp only
  rw [hr, ha]
  refine if_neg ?_
  rw [List.takeWhile_cons_of_pos (by simp)]
  simp

theorem takeAck_unacked {g : SentFlit} (hr : (port s (portIx x)).replay = [g]) : takeAck x g.seq s = s := by
  unfold takeAck
  dsimp only
  rw [hr]
  refine if_pos ?_
  rw [List.takeWhile_cons_of_neg (by simp)]
  rfl

theorem takeAck_none {ack : BitVec 9} (hr : (port s (portIx x)).replay = []) : takeAck x ack s = s := by
  unfold takeAck
  dsimp only
  rw [hr]
  rfl

theorem idleFlit_runs (hhears : portHears s f.port = true) : exec (.idleFlit f) s = .next (takeHeader f s) := by
  change execIdleFlit f s = _
  unfold execIdleFlit
  rw [through_runs (clk_of_hears hhears)]
  unfold unsequenced
  rw [if_neg (by rw [hhears]; decide)]

/-- A NAK has its flit sent again; the eighth in a row retrains the port. -/
theorem nakFlit_runs {g : SentFlit} (hhears : portHears s f.port = true) (hup : portUp s f.port = true)
    (hw : (port s (portIx f.port)).waiting = []) (hh : (port s (portIx f.port)).holding = false)
    (hr : (port s (portIx f.port)).replay = [g]) (hc : f.cred = 0) (ha : f.ack = g.seq) :
    let n := (port s (portIx f.port)).stuck + 1
    let y := emitFlit f.port g (updPort (portIx f.port) (fun p => { p with replays := satInc p.replays, stuck := n }) s)
    exec (.nakFlit f g.seq) s = .next (if 8 ≤ n then retrain f.port y else y) := by
  intro n y
  have hhead : takeHeader f s = s := by
    rw [takeHeader_waitless hup hw hh, ha, takeAck_unacked hr]
    exact if_pos hc
  have hclk : clockStopped s (.ridge f.port) = false := clk_of_hears hhears
  have hsent := sentBy_emitFlit (s := updPort (portIx f.port) (fun p => { p with replays := satInc p.replays, stuck := n }) s)
    (x := f.port) g hclk
  obtain ⟨-, -, ⟨o, hport⟩, -⟩ := hsent
  have hresend : resend f.port (updPort (portIx f.port) (fun p => { p with replays := satInc p.replays, stuck := n }) s) = y := by
    unfold resend
    rw [port_updPort_same, hr]
    refine pumpPort_idle ?_
    change (port y (portIx f.port)).waiting = []
    rw [hport, port_updPort_same]
    exact hw
  change execNakFlit f g.seq s = _
  unfold execNakFlit
  rw [through_runs (clk_of_hears hhears)]
  unfold unsequenced
  rw [if_neg (by rw [hhears]; decide), hhead]
  dsimp only
  rw [if_neg (by rw [hup]; decide), takeAck_unacked hr, hresend]

/-! ## A port that goes down -/

/-- A change of a port's own state goes through what stands of the links. -/
theorem Linked.map {f : PortSt → PortSt} (h : Linked s u) (hf : ∀ p q, linkOf p = linkOf q → linkOf (f p) = linkOf (f q)) (i : Nat) :
    Linked (Machine.updPort i f s) (Machine.updPort i f u) := by
  refine ⟨fun j => ?_, h.pairs⟩
  rw [port_updPort, port_updPort]
  split
  · exact hf _ _ (h.port i)
  · exact h.port j

theorem linked_sourceLost (x : Port) : Linked s (sourceLost x s) := by
  unfold sourceLost
  split
  · exact ⟨fun _ => rfl, rfl, rfl⟩
  · exact linked_refl s

theorem linked_discardPort (x : Port) : Linked (updPort (portIx x) (fun p => { p with heads := [] }) s) (discardPort x s) := by
  unfold discardPort
  extract_lets k n a b
  have ha : Linked (updPort (portIx x) (fun p => { p with heads := [] }) s) a := by
    refine ⟨fun j => ?_, rfl, rfl⟩
    rw [port_updPort, port_updPort]
    split <;> rfl
  have hb : Linked (updPort (portIx x) (fun p => { p with heads := [] }) s) b :=
    ha.wired (Wired.each (wired_refl a) fun _ _ hx => hx.freeBuffer)
  exact hb.updRidge

/-- The port's own state as the port goes down: the rest of the links stands. -/
theorem linked_portDown (x : Port) (st : BitVec 3) (s : State) :
    Linked (updPort (portIx x) (fun p => { p with
      st := st, holding := false, holdSent := false, joiner := none, nakSent := false, stuck := 0 })
      (updPort (portIx x) (fun p => { p with heads := [] }) s)) (portDown x st s) := by
  unfold portDown
  extract_lets a b
  have ha : Linked (updPort (portIx x) (fun p => { p with heads := [] }) s) a := (linked_discardPort x).trans (linked_sourceLost x)
  have hb := ha.map (f := fun p => { p with
    st := st, holding := false, holdSent := false, joiner := none, nakSent := false, stuck := 0 }) (fun p q h => by
      have h' := congrArg (fun p : PortSt => { p with
        st := st, holding := false, holdSent := false, joiner := none, nakSent := false, stuck := 0 }) h
      exact h') (portIx x)
  exact (hb.setPortReady.wired (wired_refl _).loseReqs).flood

theorem bit_setBit {n : Nat} (v : BitVec n) {i : Nat} (b : Bool) (hi : i < n) : (setBit v i b).getLsbD i = b := by
  unfold setBit
  cases b <;> simp [hi]

theorem ready_setReady (f : Ready → Ready) : (setReady f s).pw.ready = f s.pw.ready := by
  unfold setReady
  extract_lets r
  split
  case isTrue h => exact h.symm
  case isFalse =>
    unfold notifyReady
    split
    · rfl
    · exact (wired_refl (updEp (fun e => { e with nReady := true }) (updPw (fun p => { p with ready := r }) s))).noticeMsg.standing Power.ready

theorem portIx_lt (x : Port) : portIx x < 4 := by cases x <;> decide

theorem ready_setPortReady (x : Port) (b : Bool) : (setPortReady x b s).pw.ready.port.getLsbD (portIx x) = b := by
  unfold setPortReady
  rw [ready_setReady]
  exact bit_setBit _ b (portIx_lt x)

theorem ready_flood (column : Bool) : (flood column s).pw.ready = s.pw.ready := by
  have hnotice (y : State) : (topologyNotice y).pw.ready = y.pw.ready := (wired_refl y).topologyNotice.standing Power.ready
  have hpass (skip : Option Port) (b : FlitBody) (y : State) : (passOn column skip b y).pw.ready = y.pw.ready :=
    (wired_refl y).passOn.standing Power.ready
  have hmark (g : Nat) (n : BitVec 8) (y : State) : (markSeen column g n y).pw = y.pw := rfl
  unfold flood
  dsimp only
  rw [hpass, hmark, hnotice]
  rfl

theorem ready_portDown (x : Port) (st : BitVec 3) (s : State) : (portDown x st s).pw.ready.port.getLsbD (portIx x) = false := by
  unfold portDown
  extract_lets a b
  rw [ready_flood, (wired_refl (setPortReady x false b)).loseReqs.standing Power.ready]
  exact ready_setPortReady x false

/-- The port with its partner as SKIP names it. -/
def named (x : Port) (id : BitVec 16) (p : Port) (s : State) : State :=
  updPort (portIx x) (fun k => { k with pport := BitVec.ofNat 2 (portIx p) }) (setPartner x id s)

theorem only_named (id : BitVec 16) (p : Port) : Only x { port s (portIx x) with
    partner := id, pport := BitVec.ofNat 2 (portIx p), bypassed := BitVec.ofNat 2 (Nat.min (bypassedCount s x id) 3) } s (named x id p s) := by
  refine ⟨?_, fun j hj => ?_⟩
  · unfold named setPartner
    rw [port_updPort_same, port_updPort_same]
  · unfold named setPartner
    rw [port_updPort_other _ hj, port_updPort_other _ hj]

theorem portUp_named (id : BitVec 16) (p : Port) : portUp (named x id p s) x = portUp s x := by
  unfold portUp
  rw [(only_named id p).1]

theorem bypassedCount_named (id d : BitVec 16) (p : Port) : bypassedCount (named x id p s) x d = bypassedCount s x d := rfl

theorem tooLong_named (id : BitVec 16) (p : Port) : tooLong (named x id p s) x = decide (2 < bypassedCount s x id) := by
  unfold tooLong
  rw [bypassedCount_named, (only_named id p).1]

theorem skipFlit_runs (hq : QuietPort s f) (id : BitVec 16) (p : Port) : exec (.skipFlit f id p) s = .next (
    if portUp (named f.port id p s) f.port && tooLong (named f.port id p s) f.port then
      settleMode (portDown f.port 6 (named f.port id p s)) else named f.port id p s) := by
  change execSkipFlit f id p s = _
  unfold execSkipFlit
  rw [through_runs (clk_of_hears hq.1), unsequenced_quiet hq]
  rfl

/-- SKIP names the partner, on a link that passes over at most two devices or is not in use. -/
theorem skipFlit_names (hq : QuietPort s f) (id : BitVec 16) (p : Port)
    (h : portUp s f.port = false ∨ bypassedCount s f.port id ≤ 2) :
    ∃ u, exec (.skipFlit f id p) s = .next u ∧ Keeps [.ridge] s u ∧ Only f.port { port s (portIx f.port) with
      partner := id, pport := BitVec.ofNat 2 (portIx p), bypassed := BitVec.ofNat 2 (Nat.min (bypassedCount s f.port id) 3) } s u := by
  rw [skipFlit_runs hq id p]
  refine ⟨named f.port id p s, congrArg Host.Outcome.next (if_neg fun hc => ?_), (keeps_refl _ s).updPort.updPort, only_named id p⟩
  obtain ⟨hup, hlong⟩ := Bool.and_eq_true_iff.mp hc
  rw [portUp_named] at hup
  rw [tooLong_named] at hlong
  have hgt := of_decide_eq_true hlong
  rcases h with h | h
  · rw [h] at hup
    cases hup
  · omega

theorem skipFlit_tooLong (hq : QuietPort s f) (id : BitVec 16) (p : Port) (hup : portUp s f.port = true)
    (h : 2 < bypassedCount s f.port id) : ∃ u, exec (.skipFlit f id p) s = .next u ∧ (port u (portIx f.port)).st = 6 ∧
      (port u (portIx f.port)).bypassed = 3 := by
  rw [skipFlit_runs hq id p]
  refine ⟨_, congrArg Host.Outcome.next (if_pos ?_), ?_, ?_⟩
  · rw [portUp_named, hup, tooLong_named]
    exact decide_eq_true h
  · rw [((linked_refl _).wired (wired_refl _).settleMode).field (portIx f.port) PortSt.st,
      (linked_portDown f.port 6 _).field (portIx f.port) PortSt.st, port_updPort_same]
  · rw [((linked_refl _).wired (wired_refl _).settleMode).field (portIx f.port) PortSt.bypassed,
      (linked_portDown f.port 6 _).field (portIx f.port) PortSt.bypassed, port_updPort_same]
    change (port (updPort (portIx f.port) (fun p => { p with heads := [] }) (named f.port id p s)) (portIx f.port)).bypassed = 3
    rw [port_updPort_same, (only_named id p).1]
    dsimp only
    rw [show (bypassedCount s f.port id).min 3 = 3 from Nat.min_eq_right h]
    rfl

theorem look_credits (n : BitVec 80) (l : List Nat) (t : Tbl Nat) (v : Nat) :
    look 0 (l.foldl (fun t v => put 0 t v (n.extractLsb' (5 * v) 5).toNat) t) v =
      if v ∈ l then (n.extractLsb' (5 * v) 5).toNat else look 0 t v := by
  induction l generalizing t with
  | nil => rfl
  | cons k l ih =>
    rw [List.foldl_cons, ih, look_put]
    by_cases hk : v = k
    · rw [if_pos hk, if_pos (List.mem_cons.mpr (.inl hk)), hk, ite_self]
    · rw [if_neg hk]
      simp only [List.mem_cons, hk, false_or]

/-- The port takes its partner's credits, and awaits no INIT. -/
def inited (x : Port) (n : BitVec 80) (s : State) : State :=
  updPort (portIx x) (fun p => { p with
    rxSeq := 0, nakSent := false, awaitInit := false
    credits := (List.range 16).foldl (fun t v => put 0 t v (n.extractLsb' (5 * v) 5).toNat) ([] : Tbl Nat) }) s

/-- What `startLink` does on a port with nothing to send again. -/
theorem startLink_fresh (hclk : clockStopped s (.ridge x) = false) (hr : (port s (portIx x)).replay = []) :
    Keeps [.ridge, .out] s (startLink x s) ∧ (port (startLink x s) (portIx x)).txSeq = 0 ∧ (port (startLink x s) (portIx x)).st = 3 ∧
      (port (startLink x s) (portIx x)).waiting = (port s (portIx x)).waiting ∧
      (startLink x s).out = .flit x (port s (portIx x)).flits ⟨0, 0, .init (initCredits s x)⟩ 0 0 0 :: s.out := by
  obtain ⟨w, hw⟩ : ∃ w, w = updPort (portIx x) (fun p => { renumber p with
    rxSeq := 0, nakSent := false, stuck := 0, holding := false, holdSent := false, credits := [], owe := []
    joiner := none, training := false, st := 3, powered := true, failsInRow := 0, awaitInit := true
    lastAck := s.time.now }) s := ⟨_, rfl⟩
  have hport : port w (portIx x) = { renumber (port s (portIx x)) with
      rxSeq := 0, nakSent := false, stuck := 0, holding := false, holdSent := false, credits := [], owe := []
      joiner := none, training := false, st := 3, powered := true, failsInRow := 0, awaitInit := true
      lastAck := s.time.now } := by
    rw [hw, port_updPort_same]
  have hwclk : clockStopped w (.ridge x) = false := by
    rw [hw]
    exact hclk
  obtain ⟨y, hy⟩ : ∃ y, y = emitFlit x ⟨0, 0, .init (initCredits s x)⟩ w := ⟨_, rfl⟩
  obtain ⟨hk, -, ⟨o, hyport⟩, -⟩ := sentBy_emitFlit (s := w) (x := x) ⟨0, 0, .init (initCredits s x)⟩ hwclk
  have hout := out_emitFlit_none (s := w) (x := x) ⟨0, 0, .init (initCredits s x)⟩ hwclk (by rw [hport])
  rw [← hy] at hk hyport hout
  have hu : startLink x s = y := by
    have he : startLink x s = forEach (port y (portIx x)).replay (emitFlit x) y := by
      rw [hy, hw]
      rfl
    have hnone : (port y (portIx x)).replay = [] := by
      rw [hyport, hport]
      change ((port s (portIx x)).replay.zip _).map _ = []
      rw [hr]
      rfl
    rw [he, hnone]
    rfl
  have hkw : Keeps [.ridge, .out] s w := by
    rw [hw]
    exact (keeps_refl _ s).updPort
  rw [hu]
  refine ⟨keeps_trans hkw hk, ?_, ?_, ?_, ?_⟩
  · rw [hyport, hport]
    change BitVec.ofNat 9 (port s (portIx x)).replay.length = 0
    rw [hr]
    rfl
  · rw [hyport, hport]
  · rw [hyport, hport]
    rfl
  · rw [hout, hport, hw]
    rfl

theorem initFlit_runs (hq : QuietPort s f) (n : BitVec 80) (hup : portUp s f.port = true) : exec (.initFlit f n) s =
    .next (inited f.port n (if (port s (portIx f.port)).awaitInit then s else startLink f.port s)) := by
  obtain ⟨hhears, hreplay, hwait, hhold, -⟩ := id hq
  have hclk := clk_of_hears hhears
  have hstart := startLink_fresh hclk hreplay
  obtain ⟨y, hy⟩ : ∃ y, y = if (port s (portIx f.port)).awaitInit then s else startLink f.port s := ⟨_, rfl⟩
  have hyup : portUp y f.port = true := by
    rw [hy]
    split
    · exact hup
    · unfold portUp
      rw [hstart.2.2.1]
      rfl
  have hywait : (port y (portIx f.port)).waiting = [] := by
    rw [hy]
    split
    · exact hwait
    · exact hstart.2.2.2.1.trans hwait
  have hpump : pumpPort f.port (inited f.port n y) = inited f.port n y := by
    refine pumpPort_idle ?_
    unfold inited
    rw [port_updPort_same]
    exact hywait
  rw [← hy]
  change execInitFlit f n s = _
  unfold execInitFlit
  rw [through_runs hclk, if_neg (by rw [hhears]; decide)]
  dsimp only
  rw [hhold]
  dsimp only
  rw [hup, Bool.not_true, Bool.or_false, ← hy, hyup]
  exact congrArg Host.Outcome.next hpump

/-- INIT starts this side at SEQ 0 with the partner's credits, and one not sent for is answered. -/
theorem initFlit_starts (hq : QuietPort s f) (n : BitVec 80) (hup : portUp s f.port = true) :
    ∃ u, exec (.initFlit f n) s = .next u ∧ Keeps [.ridge, .out] s u ∧
      (∀ v < 16, look 0 (port u (portIx f.port)).credits v = (n.extractLsb' (5 * v) 5).toNat) ∧
      (port u (portIx f.port)).rxSeq = 0 ∧ (port u (portIx f.port)).nakSent = false ∧ (port u (portIx f.port)).awaitInit = false ∧
      ((port s (portIx f.port)).awaitInit = true → u.out = s.out ∧ (port u (portIx f.port)).txSeq = (port s (portIx f.port)).txSeq) ∧
      ((port s (portIx f.port)).awaitInit = false → (port u (portIx f.port)).txSeq = 0 ∧
        u.out = .flit f.port (port s (portIx f.port)).flits ⟨0, 0, .init (initCredits s f.port)⟩ 0 0 0 :: s.out) := by
  obtain ⟨hhears, hreplay, -⟩ := id hq
  obtain ⟨hk, htx, -, -, hout⟩ := startLink_fresh (clk_of_hears hhears) hreplay
  obtain ⟨y, hy⟩ : ∃ y, y = if (port s (portIx f.port)).awaitInit then s else startLink f.port s := ⟨_, rfl⟩
  have hport := (only_updPort (s := y) (x := f.port) (fun p => { p with
    rxSeq := 0, nakSent := false, awaitInit := false
    credits := (List.range 16).foldl (fun t v => put 0 t v (n.extractLsb' (5 * v) 5).toNat) ([] : Tbl Nat) })).1
  refine ⟨_, initFlit_runs hq n hup, ?_⟩
  rw [← hy]
  unfold inited
  rw [hport]
  refine ⟨?_, fun v hv => ?_, rfl, rfl, rfl, fun ha => ?_, fun ha => ?_⟩
  · have hky : Keeps [.ridge, .out] s y := by
      rw [hy]
      exact Keeps.ite (keeps_refl _ s) hk
    exact hky.updPort
  · exact (look_credits n _ [] v).trans (if_pos (List.mem_range.mpr hv))
  · rw [hy, if_pos ha]
    exact ⟨rfl, rfl⟩
  · rw [hy, if_neg (by rw [ha]; decide)]
    exact ⟨htx, hout⟩

/-! ## Link time -/

theorem timeSync_answers (hq : QuietPort s f) (t1 : Word) (hup : portUp s f.port = true) :
    exec (.timeSync f t1) s = .next (emitFlit f.port ⟨0, 0, .timeResp t1 (stamp s) (stamp s)⟩ s) := by
  change execTimeSync f t1 s = _
  unfold execTimeSync
  rw [through_runs (clk_of_hears hq.1), unsequenced_quiet hq, if_pos hup]
  rfl

theorem timeResp_measures (hq : QuietPort s f) (t2 t3 : Word) (hup : portUp s f.port = true) (hsrc : timeSource s ≠ 2) :
    exec (.timeResp f (port s (portIx f.port)).t1 t2 t3) s = .next (updPort (portIx f.port) (fun p => { p with
      delay := BitVec.ofInt 64 (((stamp s - (port s (portIx f.port)).t1).toInt - (t3 - t2).toInt) / 2) }) s) := by
  change execTimeResp f _ t2 t3 s = _
  unfold execTimeResp
  rw [through_runs (clk_of_hears hq.1), unsequenced_quiet hq, if_neg (by rw [hup]; simp)]
  dsimp only
  refine congrArg Host.Outcome.next (if_neg fun hc => hsrc ?_)
  exact of_decide_eq_true (Bool.and_eq_true_iff.mp hc).1

/-! ## Training -/

theorem resend_idle (hr : (port s (portIx x)).replay = []) (hw : (port s (portIx x)).waiting = []) : resend x s = s := by
  unfold resend
  rw [hr]
  exact pumpPort_idle hw

/-- A port as its link starts. -/
def started (now : Word) (k : PortSt) : PortSt :=
  { renumber k with
    rxSeq := 0, nakSent := false, stuck := 0, holding := false, holdSent := false, credits := [], owe := []
    joiner := none, training := false, st := 3, powered := true, failsInRow := 0, awaitInit := true, lastAck := now }

theorem wired_startLink (x : Port) : Wired (updPort (portIx x) (started s.time.now) s) (startLink x s) := by
  unfold startLink
  exact Wired.each (wired_refl _).sendControl fun _ _ hx => hx.emitFlit

theorem port_startLink (x : Port) {α : Type} (g : PortSt → α) (hg : ∀ p, g (linkOf p) = g p := by exact fun _ => rfl) :
    g (port (startLink x s) (portIx x)) = g (started s.time.now (port s (portIx x))) := by
  rw [(wired_startLink x).linked (portIx x) g hg, port_updPort_same]

theorem port_updPair (ns : Bool) (g : Pair → Pair) (i : Nat) : port (updPair ns g s) i = port s i := by cases ns <;> rfl

/-- A pair that a link joins is open. -/
theorem pairOf_opened (ns : Bool) : pairOf (updPair ns (fun p => { p with isOpen := true, step := .idle }) s) ns =
    { pairOf s ns with isOpen := true, step := .idle } := by
  rw [pairOf_updPair, if_pos rfl]

theorem ready_deliverAll : (deliverAll s).pw.ready = s.pw.ready := (wired_refl s).deliverAll.standing Power.ready

theorem ready_settleMode : (settleMode s).pw.ready = s.pw.ready := (wired_refl s).settleMode.standing Power.ready

/-- What `linkTrained` leaves of a link in use: its port up with its partner, its pair open and ready. -/
theorem linkTrained_opens (d : BitVec 16) (pp : BitVec 2) (hc : bypassedCount s x d ≤ 2) (hp : pairMayOpen s (isNs x) = true) :
    let u := linkTrained x d pp s
    (port u (portIx x)).st = 3 ∧ (port u (portIx x)).partner = d ∧ (pairOf u (isNs x)).isOpen = true ∧
      u.pw.ready.port.getLsbD (portIx x) = true := by
  intro u
  obtain ⟨y, hy⟩ : ∃ y, y = updPort (portIx x) (fun p => { p with pport := pp }) (setPartner x d s) := ⟨_, rfl⟩
  have hpartner : (port y (portIx x)).partner = d := by
    rw [hy, port_updPort_same]
    unfold setPartner
    rw [port_updPort_same]
  have hlong : tooLong y x = false := by
    unfold tooLong
    rw [hpartner, hy]
    exact decide_eq_false (Nat.not_lt.mpr hc)
  have hmay : pairMayOpen y (isNs x) = true := by
    rw [hy]
    exact hp
  obtain ⟨w, hw⟩ : ∃ w, w = updPair (isNs x) (fun p => { p with isOpen := true, step := .idle }) (startLink x y) := ⟨_, rfl⟩
  obtain ⟨z, hz⟩ : ∃ z, z = setPortReady x true (linkLive x d w) := ⟨_, rfl⟩
  have hu : u = settleMode (deliverAll (flood (isNs x) z)) := by
    rw [hz, hw]
    change linkTrained x d pp s = _
    unfold linkTrained
    rw [← hy, if_neg (by rw [hlong, hmay]; decide)]
  have hlz : Linked w z := by
    rw [hz]
    exact (linked_refl w).linkLive.setPortReady
  have hlu : Linked w u := by
    rw [hu]
    exact (hlz.flood.wired (wired_refl _).deliverAll).wired (wired_refl _).settleMode
  refine ⟨?_, ?_, ?_, ?_⟩
  · rw [hlu.field (portIx x) PortSt.st, hw, port_updPair]
    exact port_startLink x PortSt.st
  · rw [hlu.field (portIx x) PortSt.partner, hw, port_updPair]
    exact (port_startLink x PortSt.partner).trans hpartner
  · rw [hlu.pairOf_eq, hw, pairOf_opened]
  · rw [hu, ready_settleMode, ready_deliverAll, ready_flood, hz]
    exact ready_setPortReady x true

theorem st_leaveUnused : (port (leaveUnused x s) (portIx x)).st = 6 := by
  unfold leaveUnused
  rw [(((linked_refl _).setPortReady).wired (wired_refl _).settleMode).field (portIx x) PortSt.st, port_updPort_same]

theorem linkTrained_unused (d : BitVec 16) (pp : BitVec 2) (h : 2 < bypassedCount s x d ∨ pairMayOpen s (isNs x) = false) :
    (port (linkTrained x d pp s) (portIx x)).st = 6 := by
  obtain ⟨y, hy⟩ : ∃ y, y = updPort (portIx x) (fun p => { p with pport := pp }) (setPartner x d s) := ⟨_, rfl⟩
  have hlong : tooLong y x = decide (2 < bypassedCount s x d) := by
    unfold tooLong
    rw [hy, port_updPort_same]
    unfold setPartner
    rw [port_updPort_same]
    rfl
  have hmay : pairMayOpen y (isNs x) = pairMayOpen s (isNs x) := by
    rw [hy]
    rfl
  have hu : linkTrained x d pp s = leaveUnused x y := by
    unfold linkTrained
    rw [← hy, if_pos]
    rw [hlong, hmay]
    rcases h with h | h
    · rw [decide_eq_true h, Bool.true_or]
    · rw [h, Bool.not_false, Bool.or_true]
  rw [hu]
  exact st_leaveUnused

/-- The state of a port that has failed. -/
theorem failPort_spec : (port (failPort x s) (portIx x)).st = 5 ∧ (port (failPort x s) (portIx x)).training = false := by
  obtain ⟨w, hw⟩ : ∃ w, w = updPort (portIx x) (fun p => { p with training := false, powered := false }) (portDown x 5 s) := ⟨_, rfl⟩
  have hst : (port w (portIx x)).st = 5 ∧ (port w (portIx x)).training = false := by
    rw [hw, port_updPort_same]
    refine ⟨?_, rfl⟩
    exact ((linked_portDown x 5 s).field (portIx x) PortSt.st).trans (by rw [port_updPort_same])
  have hlog (e : BitVec 16) (a b : Word) : ∀ i, linkOf (port (wrightEvent e a b w) i) = linkOf (port w i) :=
    ((wired_refl w).keeps (keeps_wrightEvent e a b)).port
  have hpair (c : Prop) [Decidable c] (y : State) (i : Nat) :
      linkOf (port (settleMode (if c then updPair (isNs x) (fun p => { p with isOpen := false }) y else y)) i) = linkOf (port y i) := by
    rw [(wired_refl _).settleMode.port i]
    split
    · rw [port_updPair]
    · rfl
  obtain ⟨y, hy⟩ : ∃ y, y = wrightEvent 8 (BitVec.ofNat 64 (portIx x)) ((port s (portIx x)).partner.setWidth 64) w := ⟨_, rfl⟩
  have hu : failPort x s = settleMode (if (port y (portIx (portMate x))).st = 5 then
      updPair (isNs x) (fun p => { p with isOpen := false }) y else y) := by
    rw [hy, hw]
    rfl
  have h : linkOf (port (failPort x s) (portIx x)) = linkOf (port w (portIx x)) := by
    rw [hu, hpair, hy, hlog]
  generalize port (failPort x s) (portIx x) = k at h
  generalize port w (portIx x) = k' at h hst
  have h1 := congrArg PortSt.st h
  have h2 := congrArg PortSt.training h
  exact ⟨h1.trans hst.1, h2.trans hst.2⟩

theorem trainingFailed_fails (h : 2 ≤ (port s (portIx x)).failsInRow) :
    (port (trainingFailed x s) (portIx x)).st = 5 ∧ (port (trainingFailed x s) (portIx x)).training = false := by
  unfold trainingFailed
  extract_lets n a b
  rw [if_pos (show 3 ≤ n from Nat.succ_le_succ h)]
  exact failPort_spec

theorem portLockLoss_spec (hup : portUp s x = true) : ∃ u, exec (.portLockLoss x) s = .next u ∧ (port u (portIx x)).st = 6 ∧
    (port u (portIx x)).training = true ∧ u.pw.ready.port.getLsbD (portIx x) = false := by
  obtain ⟨w, hw⟩ : ∃ w, w = portDown x 6 (partnerGone x s) := ⟨_, rfl⟩
  obtain ⟨p, y, hy, hx⟩ : ∃ p, ∃ y, y = (if isNs x then w else loseReqs p w) ∧
      exec (.portLockLoss x) s = .next (updPort (portIx x) (fun p => { p with training := true }) y) := by
    rw [hw]
    exact ⟨_, _, rfl, if_neg (by rw [hup]; decide)⟩
  have hwy : Wired w y := by
    rw [hy]
    exact Wired.ite (wired_refl w) (wired_refl w).loseReqs
  refine ⟨_, hx, ?_, ?_, ?_⟩
  · rw [port_updPort_same]
    change (port y (portIx x)).st = 6
    rw [hwy.linked (portIx x) PortSt.st, hw, (linked_portDown x 6 _).field (portIx x) PortSt.st, port_updPort_same]
  · rw [port_updPort_same]
  · change y.pw.ready.port.getLsbD (portIx x) = false
    rw [hwy.standing Power.ready, hw]
    exact ready_portDown x 6 _

/-- The flit that a NAK names has gone out again. -/
theorem nak_sent {g : SentFlit} (hhears : portHears s x = true) (hr : (port s (portIx x)).replay = [g]) :
    let k := port s (portIx x)
    let u := emitFlit x g (updPort (portIx x) (fun p => { p with replays := satInc p.replays, stuck := (port s (portIx x)).stuck + 1 }) s)
    (∃ c n, u.out = .flit x k.flits g k.rxSeq c n :: s.out) ∧ Keeps [.ridge, .out] s u ∧
      (port u (portIx x)).replays = satInc k.replays ∧ (port u (portIx x)).stuck = k.stuck + 1 ∧ (port u (portIx x)).replay = [g] ∧
      (port u (portIx x)).retrains = k.retrains := by
  intro k u
  obtain ⟨w, hw⟩ : ∃ w, w = updPort (portIx x) (fun p => { p with
    replays := satInc p.replays, stuck := (port s (portIx x)).stuck + 1 }) s := ⟨_, rfl⟩
  have hwk : Keeps [.ridge, .out] s w := by
    rw [hw]
    exact (keeps_refl _ s).updPort
  have hclk : clockStopped w (.ridge x) = false := by
    have hclk := clk_of_hears hhears
    rw [hw]
    exact hclk
  have hport : port w (portIx x) = { k with replays := satInc k.replays, stuck := k.stuck + 1 } := by
    rw [hw, port_updPort_same]
  have hout : w.out = s.out := by
    rw [hw]
    rfl
  have hu : u = emitFlit x g w := by rw [hw]
  obtain ⟨hk, hflit, ⟨o, hp⟩, -⟩ := sentBy_emitFlit (s := w) (x := x) g hclk
  rw [hport] at hp hflit
  rw [hout] at hflit
  rw [hu, hp]
  exact ⟨hflit, keeps_trans hwk hk, rfl, rfl, hr, rfl⟩

/-- Settles O41: each flit's effect on its port, and a port that goes down or comes up. -/
theorem ridgeLinkLayer : Obligations.RidgeLinkLayer := by
  unfold Obligations.RidgeLinkLayer
  intro s x k only sent clock
  refine ⟨?_, ?_, ?_, ?_, ?_, ?_⟩
  · rintro f rfl hhears hup hwait hhold
    refine ⟨fun hr => ?_, fun g hr hc ha => ?_, fun g hr hc ha => ⟨fun hstuck => ?_, fun hstuck => ?_⟩⟩
    · intro more
      refine ⟨_, idleFlit_runs hhears, ?_⟩
      rw [takeHeader_waitless hup hwait hhold, takeAck_none hr]
      unfold takeCredit
      split
      · exact ⟨keeps_refl _ s, rfl, fun _ _ => rfl⟩
      · exact ⟨(keeps_refl _ s).updPort, only_updPort _⟩
    · refine ⟨_, idleFlit_runs hhears, ?_⟩
      rw [takeHeader_waitless hup hwait hhold, takeAck_one hr ha, show takeCredit f.port f.crvc f.cred _ = _ from if_pos hc]
      refine ⟨(keeps_refl _ s).updPort, ?_⟩
      have hdrop : [g].dropWhile (fun h => decide ((f.ack - (h.seq + 1)).toNat < 256)) = [] := by
        rw [ha, List.dropWhile_cons_of_pos (by simp), List.dropWhile_nil]
      refine ⟨?_, fun j hj => port_updPort_other _ hj⟩
      rw [port_updPort_same, hr, hdrop]
    · have hx := nakFlit_runs hhears hup hwait hhold hr hc ha
      dsimp only at hx
      rw [if_neg (by change ¬ 8 ≤ k.stuck + 1; omega)] at hx
      obtain ⟨hout, hk, hreplays, hst, hreplay, -⟩ := nak_sent hhears hr
      exact ⟨_, hx, hout, hk, hreplays, hst, hreplay⟩
    · have hx := nakFlit_runs hhears hup hwait hhold hr hc ha
      dsimp only at hx
      rw [if_pos (by change 8 ≤ k.stuck + 1; omega)] at hx
      obtain ⟨hout, hk, hreplays, -, hreplay, hre⟩ := nak_sent hhears hr
      refine ⟨_, hx, hout, hk.updPort, ?_⟩
      unfold retrain
      rw [port_updPort_same]
      exact ⟨hreplays, rfl, congrArg satInc hre, hreplay⟩
  · rintro f rfl hq
    refine ⟨fun id p => ⟨fun h => skipFlit_names hq id p h, fun hup hlong => skipFlit_tooLong hq id p hup hlong⟩,
      fun n hup => initFlit_starts hq n hup, fun t1 hup => ⟨_, timeSync_answers hq t1 hup, ?_⟩,
      fun t2 t3 hup hsrc => ⟨_, timeResp_measures hq t2 t3 hup hsrc, (keeps_refl _ s).updPort, only_updPort _⟩⟩
    have h := sentBy_emitFlit (s := s) (x := f.port) ⟨0, 0, .timeResp t1 (stamp s) (stamp s)⟩ (clk_of_hears hq.1)
    exact ⟨h.2.1, h.1⟩
  · intro hup htr hclk
    refine ⟨fun hskip => ⟨_, if_neg ?_, ?_⟩, fun hr hlate => ⟨_, if_pos ?_, (keeps_refl _ s).updPort, only_updPort _⟩,
      fun ht1 => ⟨_, if_neg ?_, ?_⟩⟩
    · rw [hup, htr, decide_eq_false (Nat.not_lt.mpr hskip)]
      decide
    · obtain ⟨hk, hout, -, -⟩ := sentBy_emitFlit (s := s) (x := x) ⟨0, 0, .skip (deviceId s) x⟩ hclk
      refine ⟨hout, ?_, hk.updPort⟩
      rw [port_updPort_same]
    · rw [hup, htr, decide_eq_true hlate]
      simpa using hr
    · rw [hup, htr]
      rcases ht1 with h0 | hlate
      · simp [k, h0]
      · simpa using fun _ => hlate
    · obtain ⟨w, hw⟩ : ∃ w, w = updPort (portIx x) (fun p => { p with t1 := stamp s }) s := ⟨_, rfl⟩
      have hport : port w (portIx x) = { k with t1 := stamp s } := by
        rw [hw, port_updPort_same]
      have hwclk : clockStopped w (.ridge x) = false := by
        rw [hw]
        exact hclk
      obtain ⟨hk, hout, ⟨o, hp⟩, -⟩ := sentBy_emitFlit (s := w) (x := x) ⟨0, 0, .timeSync (stamp s)⟩ hwclk
      have hwk : Keeps [.ridge, .out] s w ∧ w.out = s.out := by
        rw [hw]
        exact ⟨(keeps_refl _ s).updPort, rfl⟩
      rw [hport, hwk.2] at hout
      rw [hport] at hp
      change sent (emitFlit x ⟨0, 0, .timeSync (stamp s)⟩ (updPort (portIx x) (fun p => { p with t1 := stamp s }) s)) _ ∧ _
      rw [← hw]
      refine ⟨hout, ?_, keeps_trans hwk.1 hk⟩
      change (port (emitFlit x ⟨0, 0, .timeSync (stamp s)⟩ w) (portIx x)).t1 = _
      rw [hp]
  · intro hhears hup
    obtain ⟨w, hw⟩ : ∃ w, w = updPort (portIx x) (fun p => { p with crcErr := satInc p.crcErr }) s := ⟨_, rfl⟩
    have hport : port w (portIx x) = { k with crcErr := satInc k.crcErr } := by
      rw [hw, port_updPort_same]
    have hx : exec (.flitError x) s = if (port w (portIx x)).nakSent then .next w else
        .next (emitFlit x ⟨0, 0, .nak (port w (portIx x)).rxSeq⟩ (updPort (portIx x) (fun p => { p with nakSent := true }) w)) := by
      rw [hw]
      exact if_neg (by rw [hhears, hup]; decide)
    rw [hport] at hx
    refine ⟨fun hn => ⟨w, hx.trans (if_pos hn), ?_⟩, fun hn => ⟨_, hx.trans (if_neg (Bool.eq_false_iff.mp hn)), ?_⟩⟩
    · rw [hw]
      exact ⟨(keeps_refl _ s).updPort, only_updPort _⟩
    · obtain ⟨y, hy⟩ : ∃ y, y = updPort (portIx x) (fun p => { p with nakSent := true }) w := ⟨_, rfl⟩
      have hyport : port y (portIx x) = { k with crcErr := satInc k.crcErr, nakSent := true } := by
        rw [hy, port_updPort_same, hport]
      have hyk : Keeps [.ridge, .out] s y ∧ y.out = s.out ∧ clockStopped y (.ridge x) = false := by
        have hclk := clk_of_hears hhears
        rw [hy, hw]
        exact ⟨(keeps_refl _ s).updPort.updPort, rfl, hclk⟩
      obtain ⟨hk, hout, ⟨o, hp⟩, -⟩ := sentBy_emitFlit (s := y) (x := x) ⟨0, 0, .nak k.rxSeq⟩ hyk.2.2
      rw [hyport, hyk.2.1] at hout
      rw [hyport] at hp
      rw [← hy, hp]
      exact ⟨hout, keeps_trans hyk.1 hk, rfl, rfl⟩
  · exact portLockLoss_spec
  · intro htr
    have hfail : exec (.ridgeTrainingFail x) s = .next (trainingFailed x s) := if_pos htr
    refine ⟨fun d p sp => ?_, fun hdown hfew => ⟨_, hfail, ?_⟩, fun hmany => ⟨_, hfail, trainingFailed_fails hmany⟩⟩
    · have hx : exec (.ridgeTrainingDone x d p sp) s = if portUp s x then .next (resend x (trainingEnds x sp s)) else
          .next (linkTrained x d (BitVec.ofNat 2 (portIx p)) (trainingEnds x sp s)) := if_neg (by rw [htr]; decide)
      have hends := only_updPort (s := s) (x := x) (fun p => { p with
        training := false, failsInRow := 0, powered := true, flits := 0, pspread := sp, lastAck := s.time.now })
      refine ⟨fun hup hr hw => ⟨_, hx.trans (if_pos hup), ?_⟩, fun hup hc hmay => ⟨_, hx.trans (if_neg ?_), ?_⟩,
        fun hup h => ⟨_, hx.trans (if_neg ?_), ?_⟩⟩
      · have hidle : resend x (trainingEnds x sp s) = trainingEnds x sp s := by
          unfold trainingEnds
          exact resend_idle (by rw [hends.1]; exact hr) (by rw [hends.1]; exact hw)
        rw [hidle]
        exact ⟨(keeps_refl _ s).updPort, hends⟩
      · rw [hup]
        decide
      · exact linkTrained_opens d _ hc hmay
      · rw [hup]
        decide
      · exact linkTrained_unused d _ h
    · have hu : trainingFailed x s = updPort (portIx x) (fun p => { p with
          failsInRow := (port s (portIx x)).failsInRow + 1, training := true }) s := by
        unfold trainingFailed
        rw [hdown]
        exact if_neg (by change ¬ 3 ≤ k.failsInRow + 1; omega)
      rw [hu]
      exact ⟨(keeps_refl _ s).updPort, only_updPort _⟩

end Sys2Proof.Machine
end

section
/-! A device joins a pair of links and leaves it, and the live maps go round (R403, R410 to R412). -/
namespace Sys2Proof.Machine
set_option Elab.async false
variable {s u v : State} {P : List Piece} {x : Port} {f : Flit} {ns : Bool}

/-! ## Both ports of a pair -/

theorem portIx_inj {x y : Port} (h : portIx x = portIx y) : x = y := by
  cases x <;> cases y <;> simp [portIx] at h ⊢

/-- The ports of a pair, the first and the second. -/
def firstOf : Bool → Port
  | true => .N
  | false => .W

def secondOf : Bool → Port
  | true => .S
  | false => .E

theorem pairPorts_eq (ns : Bool) : pairPorts ns = [firstOf ns, secondOf ns] := by cases ns <;> rfl

theorem firstOf_ne (ns : Bool) : portIx (firstOf ns) ≠ portIx (secondOf ns) := by cases ns <;> decide

theorem forEach_pairPorts (g : Port → State → State) : forEach (pairPorts ns) g s = g (secondOf ns) (g (firstOf ns) s) := by
  rw [pairPorts_eq]
  rfl

theorem forall_pairPorts {p : Port → Prop} : (∀ x ∈ pairPorts ns, p x) ↔ p (firstOf ns) ∧ p (secondOf ns) := by
  rw [pairPorts_eq]
  simp

/-! ## Joining -/

theorem joinSwitch_repeats (hns : ns = true → s.ridge.nsEn = true) (hst : (pairOf s ns).step = .monitoring) (hf : s.pw.fenced = false) :
    ∃ u, exec (.joinSwitch ns) s = .next u ∧ (∀ x ∈ pairPorts ns, (port u (portIx x)).st = 2) ∧ Keeps [.ridge] s u ∧
      pairOf u ns = { pairOf s ns with step := .repeating, doneLo := false, doneHi := false } := by
  refine ⟨_, if_neg ?_, ?_, ?_, ?_⟩
  · rw [hst, hf]
    cases ns
    · simp
    · rw [hns rfl]
      decide
  · rw [forEach_pairPorts, forall_pairPorts, port_updPair, port_updPair, port_updPort_same, port_updPort_other _ (firstOf_ne ns),
      port_updPort_same]
    exact ⟨rfl, rfl⟩
  · exact (Keeps.each (keeps_refl _ s) fun _ _ hx => hx.updPort).updPair
  · rw [pairOf_updPair, if_pos rfl, forEach_pairPorts]
    cases ns <;> rfl

/-- The flit of a control message has gone out by the port. -/
def Went (x : Port) (b : FlitBody) (u : State) : Prop := ∃ n a c m, Out.flit x n ⟨0, 0, b⟩ a c m ∈ u.out

theorem went_sendControl (b : FlitBody) (hclk : clockStopped s (.ridge x) = false) : Went x b (sendControl x b s) := by
  obtain ⟨-, ⟨c, n, hout⟩, -⟩ := sentBy_emitFlit (s := s) (x := x) ⟨0, 0, b⟩ hclk
  refine ⟨(port s (portIx x)).flits, (port s (portIx x)).rxSeq, c, n, ?_⟩
  unfold sendControl
  rw [hout]
  exact List.mem_cons_self

theorem Went.sendControl {y : Port} {b c : FlitBody} (h : Went x b s) (hclk : clockStopped s (.ridge y) = false) :
    Went x b (Machine.sendControl y c s) := by
  obtain ⟨n, a, d, m, hm⟩ := h
  obtain ⟨-, ⟨d', n', hout⟩, -⟩ := sentBy_emitFlit (s := s) (x := y) ⟨0, 0, c⟩ hclk
  refine ⟨n, a, d, m, ?_⟩
  unfold Machine.sendControl
  rw [hout]
  exact List.mem_cons_of_mem _ hm

theorem clk_of_firm (h : Firm s u) (y : Port) : clockStopped u (.ridge y) = clockStopped s (.ridge y) := by
  have hc : u.pw.clkRidge = s.pw.clkRidge := h.field Power.clkRidge
  cases y <;> unfold clockStopped <;> rw [hc]

theorem keeps_sendControl (b : FlitBody) (hclk : clockStopped s (.ridge x) = false) : Keeps [.ridge, .out] s (sendControl x b s) :=
  (sentBy_emitFlit ⟨0, 0, b⟩ hclk).1

theorem joinReqRepeat_asks (h : (pairOf s ns).step = .repeating ∨
      ((pairOf s ns).step = .asking ∧ (pairOf s ns).lastAsk.toNat + 1000 ≤ s.time.now.toNat)) (hf : s.pw.fenced = false)
    (hclk : ∀ x ∈ pairPorts ns, clockStopped s (.ridge x) = false) :
    ∃ u, exec (.joinReqRepeat ns) s = .next u ∧ pairOf u ns = { pairOf s ns with step := .asking, lastAsk := s.time.now } ∧
      Keeps [.ridge, .out] s u ∧ ∀ x ∈ pairPorts ns, Went x (.joinReq (deviceId s)) u := by
  obtain ⟨hc1, hc2⟩ := forall_pairPorts.mp hclk
  obtain ⟨y, hy⟩ : ∃ y, y = sendControl (firstOf ns) (.joinReq (deviceId s)) s := ⟨_, rfl⟩
  obtain ⟨z, hz⟩ : ∃ z, z = sendControl (secondOf ns) (.joinReq (deviceId s)) y := ⟨_, rfl⟩
  have hky : Keeps [.ridge, .out] s y := by
    rw [hy]
    exact keeps_sendControl _ hc1
  have hyclk : clockStopped y (.ridge (secondOf ns)) = false := (clk_of_firm ((firm_refl s).keeps hky) _).trans hc2
  have hkz : Keeps [.ridge, .out] y z := by
    rw [hz]
    exact keeps_sendControl _ hyclk
  have hw : Wired s z := by
    rw [hz, hy]
    exact (wired_refl s).sendControl.sendControl
  have hx : exec (.joinReqRepeat ns) s = .next (updPair ns (fun p => { p with step := .asking, lastAsk := z.time.now }) z) := by
    have hz' : forEach (pairPorts ns) (fun x acc => sendControl x (.joinReq (deviceId s)) acc) s = z := by
      rw [forEach_pairPorts, hz, hy]
    change execJoinReqRepeat ns s = _
    unfold execJoinReqRepeat
    dsimp only
    rw [if_neg ?_, hz']
    rcases h with h | ⟨h, hlate⟩
    · simp [h, hf]
    · simp [h, hf, hlate]
  have htime : z.time = s.time := (hkz .time (by decide)).trans (hky .time (by decide))
  refine ⟨_, hx, ?_, ?_, forall_pairPorts.mpr ⟨?_, ?_⟩⟩
  · rw [pairOf_updPair, if_pos rfl, hw.pairOf_eq, htime]
  · exact (keeps_trans hky hkz).updPair
  · change Went _ _ z
    rw [hz]
    refine Went.sendControl ?_ hyclk
    rw [hy]
    exact went_sendControl _ hc1
  · change Went _ _ z
    rw [hz]
    exact went_sendControl _ hyclk

/-! ## Leaving -/

/-- One port of a pair that has drained: it repeats, and HOLD_DONE goes out by it. -/
def drainOne (id : BitVec 16) (x : Port) (s : State) : State :=
  sendControl x (.holdDone id) (updPort (portIx x) (fun p => { p with st := 2 }) (if portUp s x then sourceLost x s else s))

theorem keeps_lost (x : Port) : Keeps [.time] s (if portUp s x then sourceLost x s else s) :=
  Keeps.ite ((keeps_refl _ s).sourceLost) (keeps_refl _ s)

theorem keeps_drainOne (id : BitVec 16) (hclk : clockStopped s (.ridge x) = false) : Keeps [.ridge, .out, .time] s (drainOne id x s) := by
  obtain ⟨w, hw⟩ : ∃ w, w = updPort (portIx x) (fun p => { p with st := 2 }) (if portUp s x then sourceLost x s else s) := ⟨_, rfl⟩
  have hk : Keeps [.ridge, .time] s w := by
    rw [hw]
    exact (keeps_mono (by decide) (keeps_lost x)).updPort
  have hwclk : clockStopped w (.ridge x) = false := (clk_of_firm ((firm_refl s).keeps hk) x).trans hclk
  unfold drainOne
  rw [← hw]
  exact keeps_trans (keeps_mono (by decide) hk) (keeps_mono (by decide) (keeps_sendControl _ hwclk))

theorem went_drainOne (id : BitVec 16) (hclk : clockStopped s (.ridge x) = false) : Went x (.holdDone id) (drainOne id x s) := by
  have hk : Keeps [.ridge, .time] s (updPort (portIx x) (fun p => { p with st := 2 }) (if portUp s x then sourceLost x s else s)) :=
    (keeps_mono (by decide) (keeps_lost x)).updPort
  exact went_sendControl _ ((clk_of_firm ((firm_refl s).keeps hk) x).trans hclk)

theorem Went.drainOne {y : Port} {b : FlitBody} {id : BitVec 16} (h : Went x b s) (hclk : clockStopped s (.ridge y) = false) :
    Went x b (Machine.drainOne id y s) := by
  have hk : Keeps [.ridge, .time] s (Machine.updPort (portIx y) (fun p => { p with st := 2 }) (if portUp s y then sourceLost y s else s)) :=
    (keeps_mono (by decide) (keeps_lost y)).updPort
  have hout : (Machine.updPort (portIx y) (fun p => { p with st := 2 }) (if portUp s y then sourceLost y s else s)).out = s.out :=
    hk .out (by decide)
  refine Went.sendControl ?_ ((clk_of_firm ((firm_refl s).keeps hk) y).trans hclk)
  obtain ⟨n, a, c, m, hm⟩ := h
  exact ⟨n, a, c, m, by rw [hout]; exact hm⟩

/-- The port repeats; the wiring is as before. -/
theorem drainOne_links (id : BitVec 16) (x : Port) (s : State) : (port (drainOne id x s) (portIx x)).st = 2 ∧
    (∀ j, j ≠ portIx x → (port (drainOne id x s) j).st = (port s j).st) ∧ wiringOf (drainOne id x s).ridge = wiringOf s.ridge := by
  obtain ⟨y, hy⟩ : ∃ y, y = if portUp s x then sourceLost x s else s := ⟨_, rfl⟩
  have hridge : y.ridge = s.ridge := by
    rw [hy]
    exact keeps_lost x .ridge (by decide)
  have hport (j : Nat) : port y j = port s j := by
    unfold port
    rw [hridge]
  have hw : Wired (updPort (portIx x) (fun p => { p with st := 2 }) y) (drainOne id x s) := by
    unfold drainOne
    rw [← hy]
    exact (wired_refl _).sendControl
  refine ⟨?_, fun j hj => ?_, ?_⟩
  · rw [hw.linked (portIx x) PortSt.st, port_updPort_same]
  · rw [hw.linked j PortSt.st, port_updPort_other _ hj, hport]
  · rw [hw.ridge]
    change wiringOf y.ridge = _
    rw [hridge]

theorem aligned_drainOne (id : BitVec 16) (x : Port) (s : State) :
    (s.time.aligned = false → (drainOne id x s).time.aligned = false) ∧
    (timeSource s = 2 → alignPort s = x → portUp s x = true → (drainOne id x s).time.aligned = false) := by
  have htime : (drainOne id x s).time = (if portUp s x then sourceLost x s else s).time := by
    obtain ⟨w, hw⟩ : ∃ w, w = updPort (portIx x) (fun p => { p with st := 2 }) (if portUp s x then sourceLost x s else s) := ⟨_, rfl⟩
    unfold drainOne
    rw [← hw, show (sendControl x (.holdDone id) w).time = w.time from
      ((keeps_refl [.ridge, .bw, .xing, .out] w).sendControl) .time (by decide), hw]
    rfl
  have hlost (y : State) (hy : y.time.aligned = false) : (sourceLost x y).time.aligned = false := by
    unfold sourceLost
    split
    · rfl
    · exact hy
  rw [htime]
  refine ⟨fun h => ?_, fun hsrc ha hup => ?_⟩
  · split
    · exact hlost s h
    · exact h
  · rw [if_pos hup]
    unfold sourceLost
    rw [if_pos (by rw [hsrc, ha]; simp)]

/-- The port of a way, W where there is none. -/
def byWay : Way → Port
  | .out x => x
  | _ => .W

theorem alignPort_unheaded (hf : ¬ s.pw.straps.frameHead = true) : alignPort s =
    byWay (pick .W .E (portUp s .W && eastWhole s s.ep.headPos.toNat (myPos s)) (portUp s .E && eastWhole s (myPos s) s.ep.headPos.toNat)
      (eastDist (liveRing s) s.ep.headPos.toNat (myPos s)) (eastDist (liveRing s) (myPos s) s.ep.headPos.toNat)) := by
  unfold alignPort
  rw [if_neg hf]
  rfl

theorem byWay_pick (ra rb : Bool) (da db : Nat) : byWay (pick .W .E ra rb da db) = if rb ∧ (ra → db < da) then .E else .W := by
  cases ra <;> cases rb
  · rfl
  · rfl
  · rfl
  · unfold pick
    by_cases h : da ≤ db <;> simp [h, byWay]

/-- What the settings and the host's route say of TIME's source. -/
theorem timeInputs_of_keeps (h : Keeps P s u) (hwr : Piece.wr ∉ P := by decide) (hep : Piece.ep ∉ P := by decide)
    (hpw : Piece.pw ∉ P := by decide) : settingOf u.wr.store 7 = settingOf s.wr.store 7 ∧ u.ep.headPos = s.ep.headPos ∧
      u.ep.up = s.ep.up ∧ u.pw.straps = s.pw.straps := by
  have e : { u.ep with pba := [], pbaVc1 := [] } = { s.ep with pba := [], pbaVc1 := [] } := h .ep hep
  have hhead := congrArg Endpoint.headPos e
  have hup := congrArg Endpoint.up e
  have hstore : u.wr.store = s.wr.store := stored_of_keeps h hwr
  exact ⟨by rw [hstore], hhead, hup, ((firm_refl s).keeps h hpw).field Power.straps⟩

theorem timeSource_of_keeps (h : Keeps P s u) (hwr : Piece.wr ∉ P := by decide) (hep : Piece.ep ∉ P := by decide)
    (hpw : Piece.pw ∉ P := by decide) : timeSource u = timeSource s := by
  obtain ⟨hset, -, hup, hstraps⟩ := timeInputs_of_keeps h hwr hep hpw
  unfold timeSource
  rw [hset, hup, hstraps]

/-- The source of TIME that the second port brings is still that port's as the first goes. -/
theorem alignPort_second (id : BitVec 16) (hclk : clockStopped s (.ridge (firstOf ns)) = false) (ha : alignPort s = secondOf ns) :
    alignPort (drainOne id (firstOf ns) s) = secondOf ns := by
  obtain ⟨hset, hhead, -, hstraps⟩ := timeInputs_of_keeps (keeps_drainOne (s := s) id hclk)
  obtain ⟨hfirst, hother, hwiring⟩ := drainOne_links id (firstOf ns) s
  generalize drainOne id (firstOf ns) s = y at *
  by_cases hf : s.pw.straps.frameHead = true
  · unfold alignPort at ha ⊢
    rw [if_pos hf] at ha
    rw [hset, hstraps, if_pos hf]
    exact ha
  · rw [alignPort_unheaded hf, byWay_pick] at ha
    have hpos : myPos y = myPos s := by
      unfold myPos
      rw [hstraps]
    have hbreaks : y.ridge.breaks = s.ridge.breaks := by
      have e := congrArg Ridge.breaks hwiring
      exact e
    have hlive : liveRing y = liveRing s := by
      have e : y.ridge.live = s.ridge.live := by
        have e := congrArg Ridge.live hwiring
        exact e
      unfold liveRing
      rw [e, hpos]
    have hwhole (a b : Nat) : eastWhole y a b = eastWhole s a b := by
      unfold eastWhole
      rw [hlive, hbreaks]
    cases ns with
    | true => split at ha <;> cases ha
    | false =>
      have hE : portUp y .E = portUp s .E := by
        unfold portUp
        rw [hother (portIx .E) (by decide)]
      have hW : portUp y .W = false := by
        unfold portUp
        rw [show (port y (portIx .W)).st = 2 from hfirst]
        rfl
      split at ha
      case isTrue h =>
        rw [alignPort_unheaded (by rw [hstraps]; exact hf), byWay_pick, hE, hW, hpos, hhead, hwhole, if_pos ⟨h.1, by simp⟩]
        rfl
      case isFalse h => cases ha

theorem leaveDrained_drains (hst : (pairOf s ns).step = .leaving) (he : pairEmpty s ns = true)
    (hclk : ∀ x ∈ pairPorts ns, clockStopped s (.ridge x) = false) (h5 : ∀ x ∈ pairPorts ns, (port s (portIx x)).st ≠ 5) :
    ∃ u, exec (.leaveDrained ns) s = .next u ∧ (∀ x ∈ pairPorts ns, (port u (portIx x)).st = 2) ∧
      pairOf u ns = { pairOf s ns with step := .drained } ∧ Keeps [.ridge, .out, .time] s u ∧
      (timeSource s = 2 → alignPort s ∈ pairPorts ns → portUp s (alignPort s) = true → u.time.aligned = false) ∧
      ∀ x ∈ pairPorts ns, Went x (.holdDone (deviceId s)) u := by
  obtain ⟨hc1, hc2⟩ := forall_pairPorts.mp hclk
  obtain ⟨h51, h52⟩ := forall_pairPorts.mp h5
  have hky := keeps_drainOne (deviceId s) hc1
  obtain ⟨hst1, hother1, hwiring1⟩ := drainOne_links (deviceId s) (firstOf ns) s
  obtain ⟨hal1, hsrc1⟩ := aligned_drainOne (deviceId s) (firstOf ns) s
  have hw1 := went_drainOne (deviceId s) hc1
  have hap := alignPort_second (ns := ns) (deviceId s) hc1
  obtain ⟨y, hy⟩ : ∃ y, y = drainOne (deviceId s) (firstOf ns) s := ⟨_, rfl⟩
  rw [← hy] at hky hst1 hother1 hwiring1 hal1 hsrc1 hw1 hap
  have hc2' : clockStopped y (.ridge (secondOf ns)) = false := (clk_of_firm ((firm_refl s).keeps hky) _).trans hc2
  have hkz := keeps_drainOne (deviceId s) hc2'
  obtain ⟨hst2, hother2, hwiring2⟩ := drainOne_links (deviceId s) (secondOf ns) y
  obtain ⟨hal2, hsrc2⟩ := aligned_drainOne (deviceId s) (secondOf ns) y
  have hw2 := went_drainOne (deviceId s) hc2'
  have hw1' := hw1.drainOne (id := deviceId s) hc2'
  have hne : (port y (portIx (secondOf ns))).st ≠ 5 := by
    rw [hother1 _ (firstOf_ne ns).symm]
    exact h52
  obtain ⟨z, hz⟩ : ∃ z, z = drainOne (deviceId s) (secondOf ns) y := ⟨_, rfl⟩
  rw [← hz] at hkz hst2 hother2 hwiring2 hal2 hsrc2 hw2 hw1'
  have hx : exec (.leaveDrained ns) s = .next (updPair ns (fun p => { p with step := .drained }) z) := by
    have hloop : forEach (pairPorts ns) (fun x acc => if (port acc (portIx x)).st = 5 then acc else drainOne (deviceId s) x acc) s = z := by
      rw [forEach_pairPorts, if_neg h51, ← hy, if_neg hne, hz]
    change execLeaveDrained ns s = _
    unfold execLeaveDrained
    rw [if_neg (by rw [hst, he]; decide)]
    exact congrArg (fun w => Host.Outcome.next (updPair ns (fun p => { p with step := .drained }) w)) hloop
  refine ⟨_, hx, ?_, ?_, (keeps_trans hky hkz).updPair, fun hsrc hmem hup => ?_, forall_pairPorts.mpr ⟨hw1', hw2⟩⟩
  · rw [forall_pairPorts, port_updPair, port_updPair, hother2 _ (firstOf_ne ns)]
    exact ⟨hst1, hst2⟩
  · rw [pairOf_updPair, if_pos rfl, pairOf_of_wiring (hwiring2.trans hwiring1)]
  · change z.time.aligned = false
    rw [pairPorts_eq, List.mem_cons, List.mem_singleton] at hmem
    rcases hmem with ha | ha
    · exact hal2 (hsrc1 hsrc ha (ha ▸ hup))
    · refine hsrc2 ((timeSource_of_keeps hky).trans hsrc) (hap ha) ?_
      rw [ha] at hup
      unfold portUp at hup ⊢
      rw [hother1 _ (firstOf_ne ns).symm]
      exact hup

theorem bit_setBit_other {n : Nat} (v : BitVec n) {i j : Nat} (b : Bool) (hj : j ≠ i) : (setBit v i b).getLsbD j = v.getLsbD j := by
  unfold setBit
  have hne : ¬ i = j := fun h => hj h.symm
  cases b <;> simp [hne]
  exact fun h => BitVec.lt_of_getLsbD h

theorem ready_setPortReady_other (x : Port) (b : Bool) {j : Nat} (hj : j ≠ portIx x) :
    (setPortReady x b s).pw.ready.port.getLsbD j = s.pw.ready.port.getLsbD j := by
  unfold setPortReady
  rw [ready_setReady]
  exact bit_setBit_other _ _ hj

/-- One port of a pair that closes is off. -/
def closeOne (x : Port) (s : State) : State :=
  setPortReady x false (updPort (portIx x) (fun p => if p.st = 5 then p else { PortSt.reset with
    partner := p.partner, pport := p.pport, bypassed := p.bypassed, replays := p.replays, retrains := p.retrains
    crcErr := p.crcErr, hvote := p.hvote }) s)

theorem st_closeOne (h : (port s (portIx x)).st ≠ 5) : (port (closeOne x s) (portIx x)).st = 0 := by
  unfold closeOne
  rw [((linked_refl _).setPortReady (x := x) (b := false)).field (portIx x) PortSt.st]
  rw [port_updPort_same, if_neg h]
  rfl

theorem st_closeOne_other {j : Nat} (hj : j ≠ portIx x) : (port (closeOne x s) j).st = (port s j).st := by
  unfold closeOne
  rw [((linked_refl _).setPortReady (x := x) (b := false)).field j PortSt.st]
  rw [port_updPort_other _ hj]

theorem closePair_closes (step : PairStep) (h5 : ∀ x ∈ pairPorts ns, (port s (portIx x)).st ≠ 5) :
    ∀ x ∈ pairPorts ns, (port (closePair ns step s) (portIx x)).st = 0 ∧
      (closePair ns step s).pw.ready.port.getLsbD (portIx x) = false := by
  obtain ⟨a, ha⟩ : ∃ a, a = forEach (pairPorts ns) (fun x acc => if portUp acc x then sourceLost x acc else acc) s := ⟨_, rfl⟩
  have hk : Keeps [.time] s a := by
    rw [ha]
    exact Keeps.each (keeps_refl _ s) fun _ _ hx => Keeps.ite hx.sourceLost hx
  have hport (j : Nat) : port a j = port s j := by
    unfold port
    rw [show a.ridge = s.ridge from hk .ridge (by decide)]
  have hu : closePair ns step s =
      updPair ns (fun _ => { Pair.reset with step := step }) (closeOne (secondOf ns) (closeOne (firstOf ns) a)) := by
    rw [ha, ← forEach_pairPorts (fun x acc => closeOne x acc)]
    rfl
  obtain ⟨h1, h2⟩ := forall_pairPorts.mp h5
  rw [hu, forall_pairPorts, port_updPair, port_updPair]
  refine ⟨⟨?_, ?_⟩, ?_, ?_⟩
  · rw [st_closeOne_other (firstOf_ne ns), st_closeOne (by rw [hport]; exact h1)]
  · exact (ready_setPortReady_other _ _ (firstOf_ne ns)).trans (ready_setPortReady _ _)
  · exact st_closeOne (by rw [st_closeOne_other (firstOf_ne ns).symm, hport]; exact h2)
  · exact ready_setPortReady _ _

theorem fenceStep6_keeps_links (s : State) : (fenceStep6 s).ridge = s.ridge ∧ (fenceStep6 s).pw.ready = s.pw.ready := by
  unfold fenceStep6
  split
  · next t0 n m _ =>
    split
    · exact ⟨rfl, rfl⟩
    · obtain ⟨hk, -⟩ := logUrgent_spec (s := updPw (fun p => { p with fence := .done }) s) (m := m) 0 0 t0
      obtain ⟨w, hw⟩ : ∃ w, w = logUrgent m stOk 0 0 t0 (updPw (fun p => { p with fence := .done }) s) := ⟨_, rfl⟩
      rw [← hw] at hk
      have hpw : { w.pw with wake := [], routerHeld := [] } = { s.pw with fence := .done, wake := [], routerHeld := [] } := hk .pw (by decide)
      have hready := congrArg Power.ready hpw
      exact ⟨(congrArg State.ridge (congrArg (fun y => respond m _ y) hw.symm)).trans (hk .ridge (by decide)),
        (congrArg (fun y => (respond m (ok (bytesOf 8 (BitVec.ofNat 64 n) ++ bytesOf 8 t0)) y).pw.ready) hw.symm).trans hready⟩
  · exact ⟨rfl, rfl⟩

theorem leaveBypassSwitch_closes (hst : (pairOf s ns).step = .drained) (h5 : ∀ x ∈ pairPorts ns, (port s (portIx x)).st ≠ 5) :
    ∃ u, exec (.leaveBypassSwitch ns) s = .next u ∧ (∀ x ∈ pairPorts ns, (port u (portIx x)).st = 0) ∧
      pairOf u ns = { Pair.reset with step := .leftHold } ∧ ∀ x ∈ pairPorts ns, u.pw.ready.port.getLsbD (portIx x) = false := by
  have hcl := closePair_closes .leftHold h5
  have hpair := pairOf_closePair (s := s) ns .leftHold ns
  obtain ⟨y, hy⟩ : ∃ y, y = closePair ns .leftHold s := ⟨_, rfl⟩
  rw [← hy] at hcl hpair
  have hw : Wired y (settleMode y) := (wired_refl y).settleMode
  obtain ⟨hridge, hready⟩ := fenceStep6_keeps_links (settleMode y)
  refine ⟨fenceStep6 (settleMode y), by rw [hy]; exact if_neg (not_not_intro hst), fun x hx => ?_, ?_, fun x hx => ?_⟩
  · unfold port
    rw [hridge]
    exact (hw.linked (portIx x) PortSt.st).trans (hcl x hx).1
  · unfold pairOf
    rw [hridge]
    refine (hw.pairOf_eq ns).trans (hpair.trans (if_pos rfl))
  · rw [hready, ready_settleMode]
    exact (hcl x hx).2

/-! ## A partner joins -/

theorem joinReq_holds (hq : QuietPort s f) (d : BitVec 16) (hst : (port s (portIx f.port)).st = 3)
    (hj : (port s (portIx f.port)).joiner = none) : ∃ u, exec (.joinReq f d) s = .next u ∧ (port u (portIx f.port)).st = 4 ∧
      (port u (portIx f.port)).holding = true ∧ (port u (portIx f.port)).joiner = some d ∧ (port u (portIx f.port)).holdSent = true ∧
      (∃ c n, u.out = .flit f.port (port s (portIx f.port)).flits ⟨0, 0, .holdDone (deviceId s)⟩ (port s (portIx f.port)).rxSeq c n :: s.out) ∧
      Keeps [.ridge, .out] s u := by
  have hclk := clk_of_hears hq.1
  have hr := hq.2.1
  obtain ⟨y, hy⟩ : ∃ y, y = updPort (portIx f.port) (fun p => { p with holdSent := true }) (updPort (portIx f.port) (fun p => { p with
        st := 4, holding := true, holdSent := false, joiner := some d }) s) := ⟨_, rfl⟩
  have hport : port y (portIx f.port) = { port s (portIx f.port) with st := 4, holding := true, holdSent := true, joiner := some d } := by
    rw [hy, port_updPort_same, port_updPort_same]
  have hky : Keeps [.ridge] s y := by
    rw [hy]
    exact ((keeps_refl _ s).updPort).updPort
  have hyclk : clockStopped y (.ridge f.port) = false := (clk_of_firm ((firm_refl s).keeps hky) _).trans hclk
  obtain ⟨hk, ⟨c, n, hout⟩, hport'⟩ := sentBy_emitFlit (s := y) (x := f.port) ⟨0, 0, .holdDone (deviceId s)⟩ hyclk
  have hw : Wired y (sendControl f.port (.holdDone (deviceId s)) y) := (wired_refl y).sendControl
  have hx : exec (.joinReq f d) s = .next (sendControl f.port (.holdDone (deviceId s)) y) := by
    change execJoinReq f d s = _
    unfold execJoinReq
    rw [through_runs hclk, unsequenced_quiet hq]
    dsimp only
    rw [if_neg (by rw [hst, hj]; decide)]
    unfold tryHoldDone
    rw [if_pos (by rw [port_updPort_same]; simp [hr]), ← hy]
    rfl
  refine ⟨_, hx, ?_, ?_, ?_, ?_, ⟨c, n, ?_⟩, keeps_trans (keeps_mono (by decide) hky) hk⟩
  · rw [hw.linked (portIx f.port) PortSt.st, hport]
  · rw [hw.linked (portIx f.port) PortSt.holding, hport]
  · rw [hw.linked (portIx f.port) PortSt.joiner, hport]
  · rw [hw.linked (portIx f.port) PortSt.holdSent, hport]
  · refine hout.trans ?_
    rw [hport, show y.out = s.out from hky .out (by decide)]

/-! ## Both partners hold: the pair comes up -/

/-- What the links pass over and the readiness map stand. -/
structure Placed (s u : State) : Prop where
  frame : u.ridge.frame = s.ridge.frame
  frames : u.ridge.frames = s.ridge.frames
  pop : u.ridge.pop = s.ridge.pop
  straps : u.pw.straps = s.pw.straps

theorem Placed.trans (h : Placed s u) (k : Placed u v) : Placed s v :=
  ⟨k.frame.trans h.frame, k.frames.trans h.frames, k.pop.trans h.pop, k.straps.trans h.straps⟩

theorem Placed.wired (h : Placed s u) (k : Wired u v) : Placed s v :=
  h.trans ⟨k.wiring Ridge.frame, k.wiring Ridge.frames, k.wiring Ridge.pop, k.standing Power.straps⟩

theorem Placed.updRidge {g : Ridge → Ridge} (h : Placed s u)
    (hg : ∀ r, (g r).frame = r.frame ∧ (g r).frames = r.frames ∧ (g r).pop = r.pop := by
      exact fun _ => ⟨rfl, rfl, rfl⟩) : Placed s (Machine.updRidge g u) :=
  by
  obtain ⟨hframe, hframes, hpop⟩ := hg u.ridge
  exact h.trans ⟨hframe, hframes, hpop, rfl⟩

theorem Placed.notifyRing (h : Placed s u) : Placed s (Machine.notifyRing u) := by
  unfold Machine.notifyRing
  split
  · exact h
  · exact h.wired ((wired_refl u).updEp).noticeMsg

theorem Placed.setLive {w : BitVec 64} (h : Placed s u) : Placed s (Machine.setLive w u) := by
  unfold Machine.setLive
  extract_lets y z
  have hy : Placed s y := h.updRidge
  split
  · exact hy
  · exact (hy.wired (wired_refl y).updEp).notifyRing

theorem Placed.linkLive {d : BitVec 16} (h : Placed s u) : Placed s (Machine.linkLive x d u) := by
  unfold Machine.linkLive
  split
  · exact h.updRidge
  · exact h.setLive

theorem Placed.setPortReady {b : Bool} (h : Placed s u) : Placed s (Machine.setPortReady x b u) := by
  unfold Machine.setPortReady Machine.setReady
  extract_lets r
  split
  · exact h
  · unfold Machine.notifyReady
    have hr : Placed u (Machine.updPw (fun p => { p with ready := r }) u) := ⟨rfl, rfl, rfl, rfl⟩
    split
    · exact h.trans hr
    · exact (h.trans hr).wired ((wired_refl _).updEp).noticeMsg

theorem Placed.bypassedCount_eq (h : Placed s u) (y : Port) (d : BitVec 16) : bypassedCount u y d = bypassedCount s y d := by
  unfold bypassedCount myFrame myPos
  rw [h.frame, h.frames, h.pop, h.straps]

theorem ready_notifyRing : (notifyRing s).pw.ready = s.pw.ready := by
  unfold notifyRing
  split
  · rfl
  · exact (wired_refl (updEp (fun e => { e with nRing := true }) s)).noticeMsg.standing Power.ready

theorem ready_setLive (w : BitVec 64) : (setLive w s).pw.ready = s.pw.ready := by
  unfold setLive
  extract_lets y z
  split
  · rfl
  · rw [ready_notifyRing]
    rfl

theorem ready_linkLive (d : BitVec 16) : (linkLive x d s).pw.ready = s.pw.ready := by
  unfold linkLive
  split
  · rfl
  · exact ready_setLive _

/-- One port of a pair as its link comes up. -/
def openOne (x : Port) (s : State) : State :=
  let partner := (port s (portIx x)).partner
  let s := setPartner x partner s
  if tooLong s x then leaveUnused x s else setPortReady x true (linkLive x partner (startLink x s))

theorem openOne_opens (hc : bypassedCount s x (port s (portIx x)).partner ≤ 2) :
    let u := openOne x s
    (port u (portIx x)).st = 3 ∧ u.pw.ready.port.getLsbD (portIx x) = true ∧ Placed s u ∧ (∀ ns, pairOf u ns = pairOf s ns) ∧
      ∀ j, j ≠ portIx x → linkOf (port u j) = linkOf (port s j) ∧ u.pw.ready.port.getLsbD j = s.pw.ready.port.getLsbD j := by
  intro u
  obtain ⟨y, hy⟩ : ∃ y, y = setPartner x (port s (portIx x)).partner s := ⟨_, rfl⟩
  have hpartner : (port y (portIx x)).partner = (port s (portIx x)).partner := by
    rw [hy]
    unfold setPartner
    rw [port_updPort_same]
  have hplaced : Placed s y := by
    rw [hy]
    exact ⟨rfl, rfl, rfl, rfl⟩
  have hlong : tooLong y x = false := by
    unfold tooLong
    rw [hpartner, hplaced.bypassedCount_eq]
    exact decide_eq_false (Nat.not_lt.mpr hc)
  obtain ⟨w, hw⟩ : ∃ w, w = updPort (portIx x) (started y.time.now) y := ⟨_, rfl⟩
  have hstart : Wired w (startLink x y) := by
    rw [hw]
    exact wired_startLink x
  have hu : u = setPortReady x true (linkLive x (port s (portIx x)).partner (startLink x y)) := by
    change openOne x s = _
    unfold openOne
    dsimp only
    rw [← hy, if_neg (by rw [hlong]; decide)]
  have hlinked : Linked w u := by
    rw [hu]
    exact ((linked_refl w).wired hstart).linkLive.setPortReady
  have hready (j : Nat) : (linkLive x (port s (portIx x)).partner (startLink x y)).pw.ready.port.getLsbD j = s.pw.ready.port.getLsbD j := by
    rw [ready_linkLive, hstart.standing Power.ready, hw, hy]
    rfl
  refine ⟨?_, ?_, ?_, fun ns => ?_, fun j hj => ⟨?_, ?_⟩⟩
  · rw [hlinked.field (portIx x) PortSt.st, hw, port_updPort_same]
    rfl
  · rw [hu]
    exact ready_setPortReady x true
  · have hwplaced : Placed y w := by
      rw [hw]
      exact ⟨rfl, rfl, rfl, rfl⟩
    rw [hu]
    exact ((hplaced.trans hwplaced).wired hstart).linkLive.setPortReady
  · rw [hlinked.pairOf_eq, hw, hy]
    cases ns <;> rfl
  · rw [hlinked.port, hw, port_updPort_other _ hj, hy]
    unfold setPartner
    rw [port_updPort_other _ hj]
  · rw [hu, ready_setPortReady_other _ _ hj, hready]

theorem openPair_opens (hc : ∀ x ∈ pairPorts ns, bypassedCount s x (port s (portIx x)).partner ≤ 2) :
    let u := openPair ns s
    (pairOf u ns).isOpen = true ∧ (pairOf u ns).step = .idle ∧
      ∀ x ∈ pairPorts ns, (port u (portIx x)).st = 3 ∧ u.pw.ready.port.getLsbD (portIx x) = true := by
  intro u
  obtain ⟨hc1, hc2⟩ := forall_pairPorts.mp hc
  obtain ⟨hst1, hready1, hplaced1, hpair1, hother1⟩ := openOne_opens hc1
  obtain ⟨y, hy⟩ : ∃ y, y = openOne (firstOf ns) s := ⟨_, rfl⟩
  rw [← hy] at hst1 hready1 hplaced1 hpair1 hother1
  have hpartner : (port y (portIx (secondOf ns))).partner = (port s (portIx (secondOf ns))).partner := by
    have e := congrArg PortSt.partner (hother1 _ (firstOf_ne ns).symm).1
    exact e
  obtain ⟨hst2, hready2, -, hpair2, hother2⟩ := openOne_opens (s := y) (x := secondOf ns)
    (by rw [hplaced1.bypassedCount_eq, hpartner]; exact hc2)
  obtain ⟨z, hz⟩ : ∃ z, z = openOne (secondOf ns) y := ⟨_, rfl⟩
  rw [← hz] at hst2 hready2 hpair2 hother2
  obtain ⟨hlink, hbit⟩ := hother2 _ (firstOf_ne ns)
  obtain ⟨w, hw⟩ : ∃ w, w = updPair ns (fun p => { p with isOpen := true, step := .idle, doneLo := false, doneHi := false }) z := ⟨_, rfl⟩
  have hu : u = settleMode (deliverAll w) := by
    rw [hw, hz, hy, ← forEach_pairPorts (fun x acc => openOne x acc)]
    rfl
  have hwired : Wired w u := by
    rw [hu]
    exact (wired_refl w).deliverAll.settleMode
  have hready : u.pw.ready = z.pw.ready := by
    rw [hu, ready_settleMode, ready_deliverAll, hw]
    cases ns <;> rfl
  have hport (j : Nat) : (port u j).st = (port z j).st := by
    rw [hwired.linked j PortSt.st, hw, port_updPair]
  rw [hwired.pairOf_eq, hw, pairOf_updPair, if_pos rfl, forall_pairPorts, hport, hport, hready]
  refine ⟨rfl, rfl, ⟨?_, ?_⟩, hst2, hready2⟩
  · have e := congrArg PortSt.st hlink
    exact Eq.trans e hst1
  · rw [hbit]
    exact hready1

/-- The ports whose partner lies on the lower side: W and N. -/
def lowSide : Port → Bool
  | .W => true
  | .N => true
  | _ => false

theorem lowSide_iff : lowSide x = true ↔ x = .W ∨ x = .N := by cases x <;> decide

/-- The pair once a partner has answered HOLD_DONE. -/
def heldBy (low : Bool) (p : Pair) : Pair := if low then { p with doneLo := true } else { p with doneHi := true }

theorem holdDone_runs (hq : QuietPort s f) (d : BitVec 16) (hst : (pairOf s (isNs f.port)).step = .asking) (hf : s.pw.fenced = false) :
    exec (.holdDone f d) s = .next (
      if (pairOf (updPair (isNs f.port) (heldBy (lowSide f.port)) s) (isNs f.port)).doneLo &&
        (pairOf (updPair (isNs f.port) (heldBy (lowSide f.port)) s) (isNs f.port)).doneHi then
        openPair (isNs f.port) (updPair (isNs f.port) (heldBy (lowSide f.port)) s)
      else updPair (isNs f.port) (heldBy (lowSide f.port)) s) := by
  change execHoldDone f d s = _
  unfold execHoldDone
  rw [through_runs (clk_of_hears hq.1), unsequenced_quiet hq]
  dsimp only
  rw [if_pos (by rw [hst, hf]; decide)]
  cases f.port <;> rfl

/-- The first partner to answer is noted. -/
theorem holdDone_notes (hq : QuietPort s f) (d : BitVec 16) (hst : (pairOf s (isNs f.port)).step = .asking) (hf : s.pw.fenced = false)
    (h : if f.port = .W ∨ f.port = .N then (pairOf s (isNs f.port)).doneHi = false else (pairOf s (isNs f.port)).doneLo = false) :
    ∃ u, exec (.holdDone f d) s = .next u ∧ Keeps [.ridge] s u ∧
      (f.port = .W ∨ f.port = .N → pairOf u (isNs f.port) = { pairOf s (isNs f.port) with doneLo := true }) ∧
      (¬ (f.port = .W ∨ f.port = .N) → pairOf u (isNs f.port) = { pairOf s (isNs f.port) with doneHi := true }) := by
  rw [holdDone_runs hq d hst hf]
  simp only [← lowSide_iff] at h ⊢
  generalize lowSide f.port = low at h ⊢
  have hpair : pairOf (updPair (isNs f.port) (heldBy low) s) (isNs f.port) = heldBy low (pairOf s (isNs f.port)) := by
    rw [pairOf_updPair, if_pos rfl]
  refine ⟨_, congrArg Host.Outcome.next (if_neg ?_), (keeps_refl _ s).updPair, fun hl => ?_, fun hl => ?_⟩
  · rw [hpair]
    unfold heldBy
    cases low with
    | true => simp [show (pairOf s (isNs f.port)).doneHi = false from h]
    | false => simp [show (pairOf s (isNs f.port)).doneLo = false from h]
  · rw [hpair, hl]
    rfl
  · rw [hpair, Bool.eq_false_iff.mpr hl]
    rfl

/-- With the second partner's answer the pair opens. -/
theorem holdDone_opens (hq : QuietPort s f) (d : BitVec 16) (hst : (pairOf s (isNs f.port)).step = .asking) (hf : s.pw.fenced = false)
    (h : if f.port = .W ∨ f.port = .N then (pairOf s (isNs f.port)).doneHi = true else (pairOf s (isNs f.port)).doneLo = true)
    (hc : ∀ x ∈ pairPorts (isNs f.port), bypassedCount s x (port s (portIx x)).partner ≤ 2) :
    ∃ u, exec (.holdDone f d) s = .next u ∧ (pairOf u (isNs f.port)).isOpen = true ∧ (pairOf u (isNs f.port)).step = .idle ∧
      ∀ x ∈ pairPorts (isNs f.port), (port u (portIx x)).st = 3 ∧ u.pw.ready.port.getLsbD (portIx x) = true := by
  rw [holdDone_runs hq d hst hf]
  simp only [← lowSide_iff] at h ⊢
  generalize lowSide f.port = low at h ⊢
  have hpair : pairOf (updPair (isNs f.port) (heldBy low) s) (isNs f.port) = heldBy low (pairOf s (isNs f.port)) := by
    rw [pairOf_updPair, if_pos rfl]
  refine ⟨_, congrArg Host.Outcome.next (if_pos ?_), openPair_opens fun x hx => ?_⟩
  · rw [hpair]
    unfold heldBy
    cases low with
    | true => simp [show (pairOf s (isNs f.port)).doneHi = true from h]
    | false => simp [show (pairOf s (isNs f.port)).doneLo = true from h]
  · rw [port_updPair, Placed.bypassedCount_eq (s := s)]
    · exact hc x hx
    · cases isNs f.port <;> exact ⟨rfl, rfl, rfl, rfl⟩

end Sys2Proof.Machine
end

section
/-! The live maps go round the ring, and what each RING_STATE does (R403, R412). -/
namespace Sys2Proof.Machine
set_option Elab.async false
variable {s u v : State} {P : List Piece} {x : Port} {f : Flit}

/-! ## The sites that the endpoint shows as present -/

/-- The endpoint shows the same sites as present. -/
def RingKept (s u : State) : Prop := u.ep.ringPresent = s.ep.ringPresent

theorem ringKept_refl (s : State) : RingKept s s := rfl

theorem RingKept.trans (h : RingKept s u) (k : RingKept u v) : RingKept s v := Eq.trans k h

theorem RingKept.keeps (h : RingKept s u) (k : Keeps P u v) (hep : Piece.ep ∉ P := by decide) : RingKept s v := by
  have e : { v.ep with pba := [], pbaVc1 := [] } = { u.ep with pba := [], pbaVc1 := [] } := k .ep hep
  have e' := congrArg Endpoint.ringPresent e
  exact h.trans e'

theorem RingKept.each {α : Type} {l : List α} {g : α → State → State} (h : RingKept s u)
    (hg : ∀ a x, RingKept s x → RingKept s (g a x)) : RingKept s (Machine.forEach l g u) :=
  forEach_keeps (RingKept s) g l u h fun a _ x hx => hg a x hx

theorem RingKept.updEp {g : Endpoint → Endpoint} (h : RingKept s u) (hg : ∀ e, (g e).ringPresent = e.ringPresent := by exact fun _ => rfl) :
    RingKept s (Machine.updEp g u) := h.trans (hg u.ep)

theorem RingKept.endItem {e : Nat} {fail : Bool} {cause detail : BitVec 8} (h : RingKept s u) :
    RingKept s (Machine.endItem e fail cause detail u) := by
  unfold Machine.endItem
  extract_lets x y z
  have hy : RingKept s y := h.keeps (keeps_refl [.led] u).updEntry
  have hz : RingKept s z := hy.updEp
  split
  · exact h
  · split
    · exact hz.keeps (keeps_refl [.pw] z).dispVote
    · exact hz

theorem RingKept.issueRead {r : ReadRec} (h : RingKept s u) : RingKept s (Machine.issueRead r u) := by
  unfold Machine.issueRead
  split
  · exact h
  · split
    · exact h
    · split
      · exact h
      · exact h.updEp
  · extract_lets tg q body
    split
    · exact (h.keeps (keeps_refl [.ridge] u).countUnreach).endItem
    · next hsend => exact (h.keeps ((keeps_refl [.ridge, .bw, .xing, .out] u).takeTag.sendReq hsend)).updEp

theorem RingKept.pumpReads (h : RingKept s u) : RingKept s (Machine.pumpReads u) := by
  unfold Machine.pumpReads
  refine RingKept.each h.updEp fun _ _ hx => ?_
  split
  · exact hx.issueRead
  · exact hx

theorem RingKept.readFailed {r : ReadRec} {cause detail : BitVec 8} {status : BitVec 2} (h : RingKept s u) :
    RingKept s (Machine.readFailed r cause detail status u) := by
  unfold Machine.readFailed
  split
  · refine RingKept.pumpReads (RingKept.keeps ?_ (keeps_refl [.ridge, .bw, .xing, .out] _).sendRsp)
    exact (h.updEp).updEp
  · exact (h.updEp).endItem.pumpReads

theorem RingKept.pumpHeld {n : Nat} (h : RingKept s u) : RingKept s (Machine.pumpHeld n u) := by
  induction n generalizing u with
  | zero => exact h
  | succ n ih =>
    unfold Machine.pumpHeld
    split
    · exact h
    · exact ih (h.keeps ((keeps_refl [.ridge, .bw, .xing, .out] u).updRidge).portSend)

theorem RingKept.loseReq {q : RReq} (h : RingKept s u) : RingKept s (Machine.loseReq q u) := by
  unfold Machine.loseReq
  extract_lets w
  have hw : RingKept s w := RingKept.pumpHeld (h.keeps (keeps_refl [.ridge] u).updRidge)
  have hcount : RingKept s (Machine.countUnreach w) := hw.keeps (keeps_refl [.ridge] w).countUnreach
  split
  · exact hcount.keeps (keeps_refl [.thr, .core, .bay, .slice, .eng, .mem, .old, .poison, .fresh, .chan, .wake, .log] _).ridgeAccessLost
  · split
    · split
      · exact hw
      · split
        · exact hcount.readFailed
        · exact (hw.updEp).pumpReads
    · split
      · exact hw.keeps ((keeps_refl [.ridge, .led] w).updRidge).updEntry
      · exact hw.keeps (keeps_refl [.led] w).updEntry
  · exact hw

theorem RingKept.deliverAll (h : RingKept s u) : RingKept s (Machine.deliverAll u) :=
  h.keeps (keeps_refl [.queue, .led, .inst, .ridge, .bw, .xing, .out, .fresh, .pba] u).deliverAll

theorem RingKept.loseReqs {p : RReq → Bool} (h : RingKept s u) : RingKept s (Machine.loseReqs p u) := by
  unfold Machine.loseReqs
  exact (RingKept.each (h.keeps (keeps_refl [.ridge] u).updRidge) fun _ _ hx => hx.loseReq).deliverAll

theorem RingKept.passOn {column : Bool} {skip : Option Port} {b : FlitBody} (h : RingKept s u) :
    RingKept s (Machine.passOn column skip b u) := by
  unfold Machine.passOn
  refine RingKept.each h fun _ y hy => ?_
  split
  · exact hy.keeps (keeps_refl [.ridge, .bw, .xing, .out] y).portSend
  · exact hy

theorem RingKept.discardStranded (h : RingKept s u) : RingKept s (Machine.discardStranded u) := by
  unfold Machine.discardStranded
  refine RingKept.each h fun x y hy => ?_
  extract_lets bad gone a b
  have ha : RingKept s a := RingKept.each hy fun _ z hz => hz.keeps (keeps_refl [.ridge, .bw, .xing, .out] z).freeBuffer
  exact ha.keeps ((keeps_refl [.ridge] a).updPort).updRidge

/-! ## The live map of this device's own ring -/

theorem wiring_notifyRing : wiringOf (notifyRing s).ridge = wiringOf s.ridge := by
  unfold notifyRing
  split
  · rfl
  · exact (wired_refl (updEp (fun e => { e with nRing := true }) s)).noticeMsg.ridge

theorem wiring_setLive (w : BitVec 64) : wiringOf (setLive w s).ridge = wiringOf { s.ridge with live := w } := by
  unfold setLive
  extract_lets y z
  split
  · rfl
  · exact wiring_notifyRing

theorem live_setLive (w : BitVec 64) : (setLive w s).ridge.live = w := by
  have e := congrArg Ridge.live (wiring_setLive (s := s) w)
  exact e

theorem placed_setLive (w : BitVec 64) : Placed s (setLive w s) :=
  Placed.setLive ⟨rfl, rfl, rfl, rfl⟩

theorem liveRing_congr (hlive : u.ridge.live = s.ridge.live) (hstraps : u.pw.straps = s.pw.straps) : liveRing u = liveRing s := by
  unfold liveRing myPos
  rw [hlive, hstraps]

theorem ringPresent_setLive (w : BitVec 64) : (setLive w s).ep.ringPresent = liveRing (setLive w s) := by
  have hring : liveRing (setLive w s) = liveRing (updRidge (fun r => { r with live := w }) s) :=
    liveRing_congr (live_setLive w) (placed_setLive w).straps
  rw [hring]
  unfold setLive
  extract_lets y z
  split
  next h => exact h.symm
  next h =>
    unfold notifyRing
    split
    · rfl
    · exact RingKept.keeps (ringKept_refl _) (keeps_refl [.ridge, .bw, .xing, .out, .pba] _).noticeMsg

theorem keeps_setLive (w : BitVec 64) : Keeps [.ridge, .bw, .ep, .pba, .out, .xing] s (setLive w s) := by
  unfold setLive
  extract_lets y z
  have hy : Keeps [.ridge, .bw, .ep, .pba, .out, .xing] s y := (keeps_refl _ s).updRidge
  refine Keeps.ite hy ?_
  unfold notifyRing
  refine Keeps.ite hy.updEp ?_
  exact hy.updEp.updEp.noticeMsg

/-! ## A flit of the sequence -/

/-- The port after the next flit of the sequence has come, with the flit that acknowledges it. -/
def nextIn (x : Port) (s : State) : State :=
  sendIdle x (updPort (portIx x) (fun p => { p with rxSeq := p.rxSeq + BitVec.ofNat 9 1, nakSent := false }) s)

theorem sequenced_next (hq : QuietPort s f) (hup : portUp s f.port = true) (hseq : f.seq = (port s (portIx f.port)).rxSeq)
    (act : State → State) : sequenced f 1 act s = act (nextIn f.port s) := by
  unfold sequenced
  rw [if_neg (by rw [hq.1, hup]; decide), takeHeader_quiet hq]
  dsimp only
  rw [if_pos (by rw [hseq, BitVec.sub_self]; rfl)]
  rfl

theorem wired_nextIn (x : Port) (s : State) :
    Wired (updPort (portIx x) (fun p => { p with rxSeq := p.rxSeq + BitVec.ofNat 9 1, nakSent := false }) s) (nextIn x s) :=
  (wired_refl _).sendIdle

theorem keeps_nextIn (hclk : clockStopped s (.ridge x) = false) : Keeps [.ridge, .bw, .out] s (nextIn x s) := by
  obtain ⟨w, hw⟩ : ∃ w, w = updPort (portIx x) (fun p => { p with rxSeq := p.rxSeq + BitVec.ofNat 9 1, nakSent := false }) s := ⟨_, rfl⟩
  have hk : Keeps [.ridge] s w := by
    rw [hw]
    exact (keeps_refl _ s).updPort
  have hwclk : clockStopped w (.ridge x) = false := (clk_of_firm ((firm_refl s).keeps hk) x).trans hclk
  unfold nextIn
  rw [← hw]
  unfold sendIdle
  exact Keeps.ite (keeps_trans (keeps_mono (by decide) hk) (keeps_mono (by decide) (keeps_sendControl _ hwclk))) (keeps_mono (by decide) hk)

theorem wiring_nextIn (x : Port) (s : State) : wiringOf (nextIn x s).ridge = wiringOf s.ridge := (wired_nextIn x s).ridge

theorem rxSeq_nextIn (x : Port) (s : State) : (port (nextIn x s) (portIx x)).rxSeq = (port s (portIx x)).rxSeq + 1 := by
  rw [(wired_nextIn x s).linked (portIx x) PortSt.rxSeq, port_updPort_same]
  rfl

/-! ## A partner leaves -/

theorem bit_cleared {n : Nat} (v : BitVec n) (i : Nat) : (setBit v i false).getLsbD i = false := by
  unfold setBit
  simp

theorem leaveReq_leaves (hq : QuietPort s f) (d : BitVec 16) (hup : portUp s f.port = true)
    (hseq : f.seq = (port s (portIx f.port)).rxSeq) : ∃ u, exec (.leaveReq f d) s = .next u ∧ (port u (portIx f.port)).st = 4 ∧
      (port u (portIx f.port)).holding = true ∧ (port u (portIx f.port)).joiner = some d ∧
      (port u (portIx f.port)).rxSeq = (port s (portIx f.port)).rxSeq + 1 ∧
      (isNs f.port = false → u.ridge.live.getLsbD (devPos d) = false) ∧
      (isNs f.port = true → devFrame d < 64 → u.ridge.liveCol.getLsbD (devFrame d) = false) ∧
      Keeps [.ridge, .bw, .ep, .pba, .out, .xing] s u := by
  obtain ⟨y, hy⟩ : ∃ y, y = updPort (portIx f.port) (fun p => { p with st := 4, holding := true, holdSent := true, joiner := some d })
      (nextIn f.port s) := ⟨_, rfl⟩
  have hport : port y (portIx f.port) = { port (nextIn f.port s) (portIx f.port) with
      st := 4, holding := true, holdSent := true, joiner := some d } := by
    rw [hy, port_updPort_same]
  have hky : Keeps [.ridge, .bw, .ep, .pba, .out, .xing] s y := by
    rw [hy]
    exact (keeps_mono (by decide) (keeps_nextIn (clk_of_hears hq.1))).updPort
  have hx : exec (.leaveReq f d) s = .next (
      if isNs f.port then updRidge (fun r => { r with
        liveCol := if devFrame d < 64 then setBit y.ridge.liveCol (devFrame d) false else y.ridge.liveCol }) y
      else setLive (setBit y.ridge.live (devPos d) false) y) := by
    rw [hy]
    change execLeaveReq f d s = _
    unfold execLeaveReq
    rw [through_runs (clk_of_hears hq.1), sequenced_next hq hup hseq]
  rw [hx]
  refine ⟨_, rfl, ?_⟩
  split
  case isTrue hns =>
    have hw : Linked y (updRidge (fun r => { r with
        liveCol := if devFrame d < 64 then setBit y.ridge.liveCol (devFrame d) false else y.ridge.liveCol }) y) :=
      (linked_refl y).updRidge
    refine ⟨?_, ?_, ?_, ?_, fun h => ?_, fun _ hfr => ?_, hky.updRidge⟩
    · rw [hw.field (portIx f.port) PortSt.st, hport]
    · rw [hw.field (portIx f.port) PortSt.holding, hport]
    · rw [hw.field (portIx f.port) PortSt.joiner, hport]
    · rw [hw.field (portIx f.port) PortSt.rxSeq, hport]
      exact rxSeq_nextIn f.port s
    · rw [hns] at h
      cases h
    · change (if devFrame d < 64 then setBit y.ridge.liveCol (devFrame d) false else y.ridge.liveCol).getLsbD (devFrame d) = false
      rw [if_pos hfr]
      exact bit_cleared _ _
  case isFalse hns =>
    have hw : Linked y (setLive (setBit y.ridge.live (devPos d) false) y) := (linked_refl y).setLive
    refine ⟨?_, ?_, ?_, ?_, fun _ => ?_, fun h => absurd h hns, keeps_trans hky (keeps_setLive _)⟩
    · rw [hw.field (portIx f.port) PortSt.st, hport]
    · rw [hw.field (portIx f.port) PortSt.holding, hport]
    · rw [hw.field (portIx f.port) PortSt.joiner, hport]
    · rw [hw.field (portIx f.port) PortSt.rxSeq, hport]
      exact rxSeq_nextIn f.port s
    · rw [live_setLive]
      exact bit_cleared _ _

/-! ## RING_STATE -/

/-- The map once it is taken: what no longer has a way is discarded, what waited for one goes, and the map goes on. -/
def mapTaken (f : Flit) (n : BitVec 8) (live : BitVec 64) (frame : BitVec 16) (column : Bool) (s : State) : State :=
  deliverAll (passOn column (some f.port) (.ringState n live frame column) (pumpHeld s.ridge.held.length (discardStranded s)))

theorem wired_mapTaken (n : BitVec 8) (live : BitVec 64) (frame : BitVec 16) (column : Bool) : Wired s (mapTaken f n live frame column s) :=
  (wired_refl s).discardStranded.pumpHeld.passOn.deliverAll

theorem ringKept_mapTaken (n : BitVec 8) (live : BitVec 64) (frame : BitVec 16) (column : Bool) :
    RingKept s (mapTaken f n live frame column s) := (ringKept_refl s).discardStranded.pumpHeld.passOn.deliverAll

/-- A change of a map is counted and noticed. -/
def mapSeen (column : Bool) (g : Nat) (n : BitVec 8) (s : State) : State :=
  topologyNotice (updRidge (fun r => { r with changes := satInc r.changes }) (markSeen column g n s))

theorem wired_mapSeen (column : Bool) (g : Nat) (n : BitVec 8) :
    Wired (updRidge (fun r => { r with changes := satInc r.changes }) (markSeen column g n s)) (mapSeen column g n s) :=
  (wired_refl _).topologyNotice

/-- The map of another ring is kept. -/
def takeOther (live : BitVec 64) (g : Nat) (s : State) : State :=
  let y := updRidge (fun r => { r with liveOf := put none r.liveOf g (some live) }) s
  loseReqs (crossedAt y g (liveIn s g) (liveIn s g &&& ~~~live)) y

/-- The map of the column is kept. -/
def takeColumn (live : BitVec 64) (s : State) : State :=
  let y := updRidge (fun r => { r with liveCol := live }) s
  loseReqs (fun q => (columnPath y (myFrame y) (devFrame q.dst) ++ columnPath y (devFrame q.dst) (myFrame y)).any
    (fun i => (s.ridge.liveCol &&& ~~~live).getLsbD i && i ≠ myFrame y) && devFrame q.dst ≠ myFrame y) y

theorem ringState_runs (hq : QuietPort s f) (hup : portUp s f.port = true) (hseq : f.seq = (port s (portIx f.port)).rxSeq)
    (n : BitVec 8) (live : BitVec 64) (frame : BitVec 16) (column : Bool) (hcol : column = true → isNs f.port = true) :
    exec (.ringState f n live frame column) s = .next (
      if lastSeen (nextIn f.port s) column frame.toNat = some n then nextIn f.port s
      else mapTaken f n live frame column (
        if column then takeColumn live (mapSeen column frame.toNat n (nextIn f.port s))
        else if frame.toNat = myFrame (mapSeen column frame.toNat n (nextIn f.port s)) then
          takeRing live (mapSeen column frame.toNat n (nextIn f.port s))
        else takeOther live frame.toNat (mapSeen column frame.toNat n (nextIn f.port s)))) := by
  change execRingState f n live frame column s = _
  unfold execRingState
  rw [through_runs (clk_of_hears hq.1), sequenced_next hq hup hseq]
  generalize nextIn f.port s = y
  refine congrArg Host.Outcome.next ?_
  by_cases hs : lastSeen y column frame.toNat = some n
  · rw [if_pos hs]
    exact if_pos (by rw [decide_eq_true hs, Bool.true_or])
  · have hoff : ¬ (decide (lastSeen y column frame.toNat = some n) || (column && !isNs f.port)) = true := by
      rw [decide_eq_false hs, Bool.false_or]
      cases column with
      | false => exact Bool.false_ne_true
      | true =>
        rw [hcol rfl]
        decide
    rw [if_neg hs]
    refine (if_neg hoff).trans ?_
    unfold mapTaken takeColumn takeOther mapSeen
    dsimp only

theorem lastSeen_of_wiring (h : wiringOf u.ridge = wiringOf s.ridge) (column : Bool) (g : Nat) : lastSeen u column g = lastSeen s column g := by
  have hcol : u.ridge.seenCol = s.ridge.seenCol := by
    have e := congrArg Ridge.seenCol h
    exact e
  have hseen : u.ridge.seen = s.ridge.seen := by
    have e := congrArg Ridge.seen h
    exact e
  unfold lastSeen
  rw [hcol, hseen]

/-- A map that was seen already only takes the flit. -/
theorem ringState_known (hq : QuietPort s f) (hup : portUp s f.port = true) (hseq : f.seq = (port s (portIx f.port)).rxSeq)
    (n : BitVec 8) (live : BitVec 64) (frame : BitVec 16) (h : lastSeen s false frame.toNat = some n) :
    ∃ u, exec (.ringState f n live frame false) s = .next u ∧ u.ridge.live = s.ridge.live ∧
      (port u (portIx f.port)).rxSeq = (port s (portIx f.port)).rxSeq + 1 ∧ Keeps [.ridge, .bw, .out] s u := by
  have hw := wiring_nextIn f.port s
  refine ⟨nextIn f.port s, ?_, ?_, rxSeq_nextIn _ _, keeps_nextIn (clk_of_hears hq.1)⟩
  · rw [ringState_runs hq hup hseq n live frame false fun h => absurd h (by decide),
      if_pos ((lastSeen_of_wiring hw _ _).trans h)]
  · have e := congrArg Ridge.live hw
    exact e

/-- What stands of the ridge as a changed map is counted, noted as seen and noticed. -/
theorem mapSeen_spec (column : Bool) (g : Nat) (n : BitVec 8) : (mapSeen column g n s).ridge.changes = satInc s.ridge.changes ∧
    lastSeen (mapSeen column g n s) column g = some n ∧ (mapSeen column g n s).ridge.live = s.ridge.live ∧
    myFrame (mapSeen column g n s) = myFrame s := by
  have hw := wired_mapSeen (s := s) column g n
  obtain ⟨w, hw'⟩ : ∃ w, w = updRidge (fun r => { r with changes := satInc r.changes }) (markSeen column g n s) := ⟨_, rfl⟩
  rw [← hw'] at hw
  refine ⟨?_, ?_, ?_, ?_⟩
  · rw [hw.wiring Ridge.changes, hw']
    unfold markSeen
    cases column <;> rfl
  · rw [lastSeen_of_wiring hw.ridge, hw']
    unfold markSeen
    cases column with
    | true => rfl
    | false =>
      change look none (put none s.ridge.seen g (some n)) g = some n
      rw [look_put, if_pos rfl]
  · rw [hw.wiring Ridge.live, hw']
    unfold markSeen
    cases column <;> rfl
  · rw [hw.myFrame_eq, hw']
    unfold markSeen
    cases column <;> rfl

/-- Taking the map of this device's ring changes only the map and the breaks of the wiring. -/
theorem takeRing_spec (live : BitVec 64) : (takeRing live s).ridge.changes = s.ridge.changes ∧
    (∀ column g, lastSeen (takeRing live s) column g = lastSeen s column g) ∧ (takeRing live s).ridge.live = live ∧
    (takeRing live s).ep.ringPresent = liveRing (takeRing live s) := by
  obtain ⟨b, w, p, hw, hu⟩ : ∃ b w p, w = updRidge (fun r => { r with breaks := b }) { setLive live s with fresh := s.fresh + 1 } ∧
      takeRing live s = loseReqs p w := ⟨_, _, _, rfl, rfl⟩
  have hset : wiringOf (setLive live s).ridge = wiringOf { s.ridge with live := live } := wiring_setLive live
  have hpresent := ringPresent_setLive (s := s) live
  generalize setLive live s = y at hw hset hpresent
  have hwiring : wiringOf w.ridge = wiringOf { s.ridge with live := live, breaks := b } := by
    rw [hw]
    have e := congrArg (fun r : Ridge => { r with breaks := b }) hset
    exact e
  have hlost : Wired w (takeRing live s) := by
    rw [hu]
    exact (wired_refl w).loseReqs
  have hkept : RingKept w (takeRing live s) := by
    rw [hu]
    exact (ringKept_refl w).loseReqs
  have hall : wiringOf (takeRing live s).ridge = wiringOf { s.ridge with live := live, breaks := b } := hlost.ridge.trans hwiring
  refine ⟨?_, fun column g => ?_, ?_, ?_⟩
  · have e := congrArg Ridge.changes hall
    exact e
  · refine (lastSeen_of_wiring (s := updRidge (fun r => { r with live := live, breaks := b }) s) hall column g).trans ?_
    cases column <;> rfl
  · have e := congrArg Ridge.live hall
    exact e
  · rw [hlost.liveRing_eq]
    refine Eq.trans hkept ?_
    rw [hw]
    exact hpresent

/-- Taking the map of another ring changes only that map of the wiring. -/
theorem takeOther_spec (live : BitVec 64) (g : Nat) : (takeOther live g s).ridge.changes = s.ridge.changes ∧
    (∀ column k, lastSeen (takeOther live g s) column k = lastSeen s column k) ∧ (takeOther live g s).ridge.live = s.ridge.live ∧
    (g ≠ myFrame s → liveIn (takeOther live g s) g = live) := by
  obtain ⟨w, p, hw, hu⟩ : ∃ w p, w = updRidge (fun r => { r with liveOf := put none r.liveOf g (some live) }) s ∧
      takeOther live g s = loseReqs p w := ⟨_, _, rfl, rfl⟩
  have hlost : Wired w (takeOther live g s) := by
    rw [hu]
    exact (wired_refl w).loseReqs
  refine ⟨?_, fun column k => ?_, ?_, fun hg => ?_⟩
  · rw [hlost.wiring Ridge.changes, hw]
    rfl
  · rw [lastSeen_of_wiring hlost.ridge, hw]
    cases column <;> rfl
  · rw [hlost.wiring Ridge.live, hw]
    rfl
  · have hframe : myFrame (takeOther live g s) = myFrame s := by
      rw [hlost.myFrame_eq, hw]
      rfl
    unfold liveIn
    rw [hframe, if_neg hg, hlost.wiring Ridge.liveOf, hw]
    change (look none (put none s.ridge.liveOf g (some live)) g).getD _ = live
    rw [look_put, if_pos rfl]
    rfl

theorem takeColumn_spec (live : BitVec 64) : (takeColumn live s).ridge.changes = s.ridge.changes ∧
    (takeColumn live s).ridge.liveCol = live := by
  obtain ⟨w, p, hw, hu⟩ : ∃ w p, w = updRidge (fun r => { r with liveCol := live }) s ∧ takeColumn live s = loseReqs p w := ⟨_, _, rfl, rfl⟩
  have hlost : Wired w (takeColumn live s) := by
    rw [hu]
    exact (wired_refl w).loseReqs
  refine ⟨?_, ?_⟩
  · rw [hlost.wiring Ridge.changes, hw]
    rfl
  · rw [hlost.wiring Ridge.liveCol, hw]
    rfl

/-- A new map of a ring is taken. -/
theorem ringState_taken (hq : QuietPort s f) (hup : portUp s f.port = true) (hseq : f.seq = (port s (portIx f.port)).rxSeq)
    (n : BitVec 8) (live : BitVec 64) (frame : BitVec 16) (h : lastSeen s false frame.toNat ≠ some n) :
    ∃ u, exec (.ringState f n live frame false) s = .next u ∧ u.ridge.changes = satInc s.ridge.changes ∧
      lastSeen u false frame.toNat = some n ∧
      (frame.toNat = myFrame s → u.ridge.live = live ∧ u.ep.ringPresent = liveRing u) ∧
      (frame.toNat ≠ myFrame s → liveIn u frame.toNat = live ∧ u.ridge.live = s.ridge.live) := by
  have hwire := wiring_nextIn f.port s
  have hrun := ringState_runs hq hup hseq n live frame false fun h => absurd h (by decide)
  rw [if_neg (by rw [lastSeen_of_wiring hwire]; exact h)] at hrun
  have hc0 : (nextIn f.port s).ridge.changes = s.ridge.changes := by
    have e := congrArg Ridge.changes hwire
    exact e
  have hl0 : (nextIn f.port s).ridge.live = s.ridge.live := by
    have e := congrArg Ridge.live hwire
    exact e
  have hf0 : myFrame (nextIn f.port s) = myFrame s := by
    have e := congrArg (fun r : Ridge => r.frame.toNat) hwire
    exact e
  obtain ⟨hc1, hs1, hl1, hf1⟩ := mapSeen_spec (s := nextIn f.port s) false frame.toNat n
  generalize mapSeen false frame.toNat n (nextIn f.port s) = a at hrun hc1 hs1 hl1 hf1
  rw [hc0] at hc1
  rw [hl0] at hl1
  rw [hf0] at hf1
  refine ⟨_, hrun, ?_⟩
  rw [if_neg Bool.false_ne_true, hf1]
  split
  case isTrue hmine =>
    obtain ⟨hc2, hs2, hl2, hp2⟩ := takeRing_spec (s := a) live
    generalize takeRing live a = b at hc2 hs2 hl2 hp2
    have hw := wired_mapTaken (s := b) (f := f) n live frame false
    have hk := ringKept_mapTaken (s := b) (f := f) n live frame false
    refine ⟨?_, ?_, fun _ => ⟨?_, ?_⟩, fun hc => absurd hmine hc⟩
    · rw [hw.wiring Ridge.changes, hc2, hc1]
    · rw [lastSeen_of_wiring hw.ridge, hs2, hs1]
    · rw [hw.wiring Ridge.live, hl2]
    · rw [hw.liveRing_eq]
      exact Eq.trans hk hp2
  case isFalse hother =>
    obtain ⟨hc2, hs2, hl2, hi2⟩ := takeOther_spec (s := a) live frame.toNat
    have hi := hi2 (by rw [hf1]; exact hother)
    generalize takeOther live frame.toNat a = b at hc2 hs2 hl2 hi
    have hw := wired_mapTaken (s := b) (f := f) n live frame false
    refine ⟨?_, ?_, fun hc => absurd hc hother, fun _ => ⟨?_, ?_⟩⟩
    · rw [hw.wiring Ridge.changes, hc2, hc1]
    · rw [lastSeen_of_wiring hw.ridge, hs2, hs1]
    · unfold liveIn at hi ⊢
      rw [hw.myFrame_eq, hw.liveRing_eq, hw.wiring Ridge.liveOf, hw.wiring Ridge.pop]
      exact hi
    · rw [hw.wiring Ridge.live, hl2, hl1]

/-- A new map of the column is taken at the ports of the column. -/
theorem ringState_column (hq : QuietPort s f) (hup : portUp s f.port = true) (hseq : f.seq = (port s (portIx f.port)).rxSeq)
    (n : BitVec 8) (live : BitVec 64) (frame : BitVec 16) (h : lastSeen s true frame.toNat ≠ some n) (hns : isNs f.port = true) :
    ∃ u, exec (.ringState f n live frame true) s = .next u ∧ u.ridge.liveCol = live ∧ u.ridge.changes = satInc s.ridge.changes := by
  have hwire := wiring_nextIn f.port s
  have hrun := ringState_runs hq hup hseq n live frame true fun _ => hns
  rw [if_neg (by rw [lastSeen_of_wiring hwire]; exact h), if_pos rfl] at hrun
  have hc0 : (nextIn f.port s).ridge.changes = s.ridge.changes := by
    have e := congrArg Ridge.changes hwire
    exact e
  obtain ⟨hc1, -⟩ := mapSeen_spec (s := nextIn f.port s) true frame.toNat n
  generalize mapSeen true frame.toNat n (nextIn f.port s) = a at hrun hc1
  obtain ⟨hc2, hl2⟩ := takeColumn_spec (s := a) live
  generalize takeColumn live a = b at hrun hc2 hl2
  have hw := wired_mapTaken (s := b) (f := f) n live frame true
  refine ⟨_, hrun, ?_, ?_⟩
  · rw [hw.wiring Ridge.liveCol, hl2]
  · rw [hw.wiring Ridge.changes, hc2, hc1, hc0]

/-- Settles O42. -/
theorem ridgeRing : Obligations.RidgeRing := by
  refine ⟨?_, ?_⟩
  · intro s ns hns p ports clocks
    refine ⟨fun hst hf => joinSwitch_repeats hns hst hf, fun hf => ⟨if_pos (by rw [hf]; simp), if_pos (by rw [hf]; simp)⟩,
      fun h hf hclk => joinReqRepeat_asks h hf hclk, fun hst hearly => if_pos ?_,
      fun hst he hclk h5 => leaveDrained_drains hst he hclk h5, fun hst h5 => leaveBypassSwitch_closes hst h5⟩
    have hst' : (pairOf s ns).step = .asking := hst
    have hearly' : s.time.now.toNat < (pairOf s ns).lastAsk.toNat + 1000 := hearly
    simp [hst', hearly']
  · intro s f d hq k ns p low
    refine ⟨joinReq_holds hq d, holdDone_notes hq d, holdDone_opens hq d, fun hup hseq =>
      ⟨leaveReq_leaves hq d hup hseq, fun n live frame => ⟨ringState_known hq hup hseq n live frame,
        ringState_taken hq hup hseq n live frame, ringState_column hq hup hseq n live frame⟩⟩⟩

end Sys2Proof.Machine
end

section
/-! A hub agent's write at the homes of its lines, with nothing waiting there (R176, R191, R233, R237). -/
namespace Sys2Proof.Machine
set_option Elab.async false
variable {s u v : State} {P Q : List Piece} {l : BitVec 42} {h : Fin 40}

/-! ## What no such write disturbs -/

/-- Beside the named pieces nothing changed, and neither a reservation's hold, nor an idle home, nor what a thread holds
apart from its reservation and event state. -/
structure Hushed (P : List Piece) (s u : State) : Prop where
  keeps : Keeps P s u
  hold : ∀ c, (core u c).hold = (core s c).hold
  idle : ∀ h, IdleHome s h → IdleHome u h
  calm : ∀ t, (thr u t).calm = (thr s t).calm

theorem hushed_refl (P : List Piece) (s : State) : Hushed P s s := ⟨keeps_refl P s, fun _ => rfl, fun _ hi => hi, fun _ => rfl⟩

theorem Hushed.trans (a : Hushed P s u) (b : Hushed P u v) : Hushed P s v :=
  ⟨keeps_trans a.keeps b.keeps, fun c => (b.hold c).trans (a.hold c), fun h hi => b.idle h (a.idle h hi),
    fun t => (b.calm t).trans (a.calm t)⟩

theorem Hushed.mono (a : Hushed P s u) (hPQ : ∀ p ∈ P, p ∈ Q := by decide) : Hushed Q s u :=
  ⟨keeps_mono hPQ a.keeps, a.hold, a.idle, a.calm⟩

theorem Hushed.ite {c : Prop} [Decidable c] {a b : State} (ha : Hushed P s a) (hb : Hushed P s b) : Hushed P s (if c then a else b) := by
  split <;> assumption

theorem Hushed.each {α : Type} {l : List α} {g : α → State → State} (a : Hushed P s u) (hg : ∀ y x, Hushed P x (g y x)) :
    Hushed P s (forEach l g u) := forEach_keeps (Hushed P s) g l u a fun y _ x hx => hx.trans (hg y x)

theorem hushed_of_keeps (k : Keeps P s u) (hc : Piece.core ∉ P := by decide) (hs : Piece.slice ∉ P := by decide)
    (ht : Piece.thr ∉ P := by decide) : Hushed P s u where
  keeps := k
  hold c := congrArg (fun t => (look Core.reset t c).hold) (k .core hc)
  idle _ hi := idleHome_of_keeps k hi hs
  calm t := congrArg (fun x => (look Thread.reset x (thrKey t)).calm) (k .thr ht)

theorem hushed_of_unreserved (k : Unreserved s u) : Hushed [.thr, .bay, .slice, .eng] s u where
  keeps := k.keeps
  hold c := congrArg (fun t => (look Core.reset t c).hold) (k.keeps .core (by decide))
  idle _ hi := k.idleHome hi
  calm := k.thr

theorem hushed_updSlice {h : Nat} {f : Slice → Slice} (hf : ∀ x, (x.wbBuf = [] → (f x).wbBuf = []) ∧ (f x).rsv = x.rsv) :
    Hushed [.slice] s (updSlice h f s) where
  keeps := (keeps_refl _ s).updSlice
  hold _ := rfl
  calm _ := rfl
  idle y hi := by
    unfold IdleHome at hi ⊢
    rw [slice_updSlice]
    split
    · next he =>
      rw [he] at hi
      exact ⟨(hf _).1 hi.1, (hf _).2.trans hi.2⟩
    · exact hi

theorem hushed_updDir {h key : Nat} {f : DirE → DirE} : Hushed [.slice] s (updDir h key f s) := hushed_updSlice fun _ => ⟨fun hw => hw, rfl⟩

theorem hushed_llcFill {h : Nat} {dirty nt : Bool} : Hushed [.slice, .old] s (llcFill h l dirty nt s) where
  keeps := (keeps_refl _ s).llcFill
  hold c := congrArg (fun t => (look Core.reset t c).hold) (((keeps_refl [.slice, .old] s).llcFill) .core (by decide))
  calm t := congrArg (fun x => (look Thread.reset x (thrKey t)).calm) (((keeps_refl [.slice, .old] s).llcFill) .thr (by decide))
  idle y hi := by
    obtain ⟨t, ht, -, -⟩ := slice_llcFill (s := s) h l dirty nt
    unfold IdleHome at hi ⊢
    rw [ht]
    split
    · next he =>
      rw [he] at hi
      exact hi
    · exact hi

theorem hushed_updCore {c : Nat} {f : Core → Core} (hf : ∀ x, (f x).hold = x.hold) : Hushed [.core] s (updCore c f s) where
  keeps := (keeps_refl _ s).updCore
  idle _ hi := hi
  calm _ := rfl
  hold y := by
    rw [core_updCore]
    split
    · next he => rw [hf, he]
    · rfl

theorem hushed_bayDrop (b : Nat) (l : BitVec 42) : Hushed [.thr, .core, .bay, .slice, .eng] s (bayDrop b l s) := by
  unfold bayDrop bayL1Drop
  refine Hushed.trans (Hushed.each (hushed_refl _ s) fun c x => ?_) (hushed_of_keeps (P := [.bay]) (keeps_refl [.bay] _).updBay).mono
  have hd : Hushed [.thr, .core, .bay, .slice, .eng] x (l1dDrop (4 * b + c) l x) := by
    unfold l1dDrop
    split
    · exact hushed_refl _ x
    · exact (hushed_updCore (c := 4 * b + c) (f := fun k => { k with l1d := setLineState k.l1d (l1Set l) l .I }) fun _ => rfl).mono.trans
        (hushed_of_unreserved (unreserved_loseCoreResv _ _)).mono
  generalize l1dDrop (4 * b + c) l x = y at hd
  have hi : Hushed [.core] y (l1iDrop (4 * b + c) l y) := hushed_updCore fun _ => rfl
  exact hd.trans hi.mono

/-- The pieces that clearing the copies of a line may change. -/
def copyPieces : List Piece := [.thr, .core, .bay, .slice, .eng, .net, .old]

theorem hushed_dropCopies (l : BitVec 42) : Hushed [.core, .bay, .slice] s (dropCopies l s) where
  keeps := (keeps_refl _ s).dropCopies
  calm _ := rfl
  hold c := by
    unfold core dropCopies
    dsimp only
    rw [look_editAll Core.reset _ (fun _ => rfl)]
  idle h hi := by
    unfold IdleHome slice dropCopies
    dsimp only
    rw [look_editAll Slice.reset _ (fun _ => rfl)]
    exact hi

theorem hushed_absorbCrossing (h : Fin 40) (b : Nat) (l : BitVec 42) : Hushed copyPieces s (absorbCrossing h b l s) := by
  unfold absorbCrossing
  extract_lets isWb dirty a c d e
  split
  · exact hushed_refl _ s
  · have hnet (n : List (CKind × CMsg)) : Keeps [.net] s { s with net := n } := (keeps_refl _ s).frame
    have ha : Hushed copyPieces s a := (hushed_of_keeps (hnet _)).mono
    have hc : Hushed [.slice] a c := hushed_updSlice fun x => ⟨fun hw => congrArg (List.filter fun e => !isWb e) hw, rfl⟩
    have hc : Hushed copyPieces a c := hc.mono
    have hd : Hushed copyPieces c d := (hushed_of_keeps (P := [.bay]) (keeps_refl [.bay] c).updBay).mono
    have he : Hushed copyPieces s e := Hushed.ite ((ha.trans (hc.trans hd)).trans hushed_llcFill.mono) (ha.trans (hc.trans hd))
    split
    · exact he.trans (hushed_of_keeps (P := [.bay, .net]) (keeps_refl [.bay, .net] e).pumpWb).mono
    · exact he

theorem hushed_hubTakes (h : Fin 40) (b : Nat) (l : BitVec 42) : Hushed copyPieces s (hubTakes h b l false s) := by
  unfold hubTakes
  extract_lets a
  have ha : Hushed copyPieces s a := Hushed.ite hushed_llcFill.mono (hushed_refl _ s)
  exact Hushed.ite ha (ha.trans (hushed_bayDrop b l).mono)

/-! ## A line at whose home nothing waits -/

/-- Nothing waits at the line's home, and no core holds back a forward for it. -/
def Quiet (s : State) (l : BitVec 42) : Prop :=
  (∀ h, homeAgent s l = some h → IdleHome s h) ∧ ∀ c, ∀ hd ∈ (core s c).hold, hd.granule ≠ granuleOfLine l

theorem Hushed.quiet (a : Hushed P s u) (hq : Quiet s l) (hp : Piece.part ∉ P := by decide) : Quiet u l := by
  refine ⟨fun h hh => a.idle h (hq.1 h ?_), fun c hd hm => hq.2 c hd ?_⟩
  · rw [← hh]
    exact (homeAgent_congr (a.keeps .part hp) l).symm
  · rw [← a.hold]
    exact hm

theorem endHolds_quiet (hq : Quiet s l) (bays : List Nat) : endHolds l bays s = s := by
  have hnone (c : Nat) (p : Hold → Bool) : ((core s c).hold.any fun hd => p hd && decide (hd.granule = granuleOfLine l)) = false := by
    rw [List.any_eq_false]
    intro hd hm
    rw [decide_eq_false (hq.2 c hd hm), Bool.and_false]
    exact Bool.false_ne_true
  unfold endHolds
  refine forEach_keeps (fun x => x = s) _ bays s rfl fun b _ x hx => ?_
  subst hx
  refine forEach_keeps (fun y => y = x) _ _ x rfl fun k _ y hy => ?_
  subst hy
  dsimp only
  split
  · exact if_neg (by rw [hnone]; decide)
  · rfl

theorem settleLine_quiet (hi : IdleHome s h) (l : BitVec 42) : settleLine h l s = s := settleLine_idle h l hi.1 hi.2

/-- The copies of a line are cleared before a hub agent writes it. -/
theorem hushed_hubLine (hq : Quiet s l) : Hushed copyPieces s (hubLine l false s) := by
  unfold hubLine
  split
  · exact hushed_refl _ s
  next h hh =>
    have hidle := hq.1 h hh
    split
    · exact hushed_refl _ s
    next key hkey =>
      extract_lets d crossing a b
      split
      · exact (hushed_dropCopies l).mono
      · split
        · rw [if_neg (by simp)]
          have ha : Hushed copyPieces s a := by
            change Hushed copyPieces s (hubTakes h d.owner.toNat l false (absorbCrossing h d.owner.toNat l (endHolds l _ s)))
            rw [endHolds_quiet hq]
            exact (hushed_absorbCrossing h _ l).trans (hushed_hubTakes h _ l)
          have hb := ha.trans (hushed_updDir (h := h.val) (key := key) (f := fun _ => DirE.reset)).mono
          rw [settleLine_quiet (hb.idle h hidle)]
          exact hb
        · rw [if_neg Bool.false_ne_true]
          have hb' : Hushed copyPieces s b := by
            change Hushed copyPieces s (forEach (bitsOf d.sharers) _ (endHolds l _ s))
            rw [endHolds_quiet hq]
            exact Hushed.each (hushed_refl _ s) fun b x => (hushed_absorbCrossing h b l).trans (hushed_bayDrop b l).mono
          have hb := hb'.trans (hushed_updDir (h := h.val) (key := key) (f := fun _ => DirE.reset)).mono
          rw [settleLine_quiet (hb.idle h hidle)]
          exact hb

/-! ## The write -/

/-- The pieces that a hub agent's write may change. -/
def writePieces : List Piece := [.thr, .core, .bay, .slice, .eng, .net, .mem, .old, .poison]

theorem hushed_storeBytes (who : Option Thr) (pa : BitVec 48) (b : List Byte) : Hushed writePieces s (storeBytes who pa b false s) where
  keeps := (keeps_refl _ s).storeBytes_clean
  hold c := by
    have hk : Keeps [.thr, .bay, .slice, .eng, .mem, .old, .poison] s (storeBytes who pa b false s) := (keeps_refl _ s).storeBytes_clean
    exact congrArg (fun t => (look Core.reset t c).hold) (hk .core (by decide))
  idle _ hi := idleHome_storeBytes who pa b hi
  calm t := by
    unfold storeBytes
    dsimp only
    rw [if_neg Bool.false_ne_true, (unreserved_loseResvOn _ _).thr]
    have hk : Keeps [.old, .mem, .poison] s (if b.length = 64 then setPoison (lineOf pa) false (writeBytes pa.toNat b (dirtyLine (lineOf pa) s))
        else writeBytes pa.toNat b (dirtyLine (lineOf pa) s)) := by
      have hk := keeps_refl [.old, .mem, .poison] s
      exact hk.dirtyLine.writeBytes.setPoison.ite hk.dirtyLine.writeBytes
    exact congrArg (fun x => (look Thread.reset x (thrKey t)).calm) (hk .thr (by decide))

/-- One piece of a hub agent's write, within a line. -/
def writePiece (pc : Nat × List Byte) (s : State) : State :=
  let a : BitVec 48 := BitVec.ofNat 48 pc.1
  let ln := lineOf a
  if !isDramLine ln then storeBytes none a pc.2 false s else
  let s := storeBytes none a pc.2 false (hubLine ln false s)
  match homeAgent s ln with
  | some h => llcFill h.val ln true false s
  | none => s

theorem homeWrite_eq (pa : BitVec 48) (b : List Byte) :
    homeWrite pa b false s = forEach (linePieces (b.length + 1) pa.toNat b) writePiece s := rfl

theorem readByte_of_hushed (a : Hushed P s u) (x : Nat) (hm : Piece.mem ∉ P := by decide) : readByte u x = readByte s x :=
  readByte_of_keeps a.keeps x hm

theorem writePiece_spec (pc : Nat × List Byte) (hpc : pc.1 < 2 ^ 48)
    (hq : isDramLine (lineOf (BitVec.ofNat 48 pc.1)) = true → Quiet s (lineOf (BitVec.ofNat 48 pc.1))) :
    Hushed writePieces s (writePiece pc s) ∧
      ∀ x, readByte (writePiece pc s) x =
        if pc.1 ≤ x ∧ x < pc.1 + pc.2.length then pc.2.getD (x - pc.1) 0 else readByte s x := by
  have hnat : (BitVec.ofNat 48 pc.1).toNat = pc.1 := by
    rw [BitVec.toNat_ofNat, Nat.mod_eq_of_lt hpc]
  have hstore (y : State) (x : Nat) : readByte (storeBytes none (BitVec.ofNat 48 pc.1) pc.2 false y) x =
      if pc.1 ≤ x ∧ x < pc.1 + pc.2.length then pc.2.getD (x - pc.1) 0 else readByte y x := by
    rw [readByte_storeBytes, hnat]
  unfold writePiece
  extract_lets a ln w
  split
  case isTrue => exact ⟨hushed_storeBytes _ _ _, hstore s⟩
  case isFalse hd =>
    have hline : isDramLine ln = true := by simpa using hd
    have hhub := hushed_hubLine (hq hline)
    have hw : Hushed writePieces s w := hhub.mono.trans (hushed_storeBytes _ _ _)
    have hread (x : Nat) : readByte w x = if pc.1 ≤ x ∧ x < pc.1 + pc.2.length then pc.2.getD (x - pc.1) 0 else readByte s x := by
      rw [hstore, readByte_of_hushed hhub x (by decide)]
    split
    · exact ⟨hw.trans hushed_llcFill.mono, fun x => (readByte_of_hushed (P := [.slice, .old]) hushed_llcFill x).trans (hread x)⟩
    · exact ⟨hw, hread⟩

/-- Where the pieces of a write lie says its length alone. -/
theorem linePieces_places (n a : Nat) {b c : List Byte} (h : b.length = c.length) :
    (linePieces n a b).map Prod.fst = (linePieces n a c).map Prod.fst := by
  induction n generalizing a b c with
  | zero => rfl
  | succ n ih =>
    have he : b.isEmpty = c.isEmpty := by
      rw [Bool.eq_iff_iff, List.isEmpty_iff_length_eq_zero, List.isEmpty_iff_length_eq_zero, h]
    unfold linePieces
    rw [he]
    split
    · rfl
    · dsimp only
      rw [List.map_cons, List.map_cons, ih _ (b := b.drop (64 - a % 64)) (c := c.drop (64 - a % 64))
        (by rw [List.length_drop, List.length_drop, h])]

theorem writePieces_spec (n a : Nat) (b : List Byte) (hn : b.length ≤ n) (hend : a + b.length ≤ 2 ^ 48)
    (hq : ∀ pc ∈ linePieces n a b, isDramLine (lineOf (BitVec.ofNat 48 pc.1)) = true → Quiet s (lineOf (BitVec.ofNat 48 pc.1))) :
    Hushed writePieces s (forEach (linePieces n a b) writePiece s) ∧
      ∀ x, readByte (forEach (linePieces n a b) writePiece s) x =
        if a ≤ x ∧ x < a + b.length then b.getD (x - a) 0 else readByte s x := by
  induction n generalizing a b s with
  | zero =>
    have hb : b = [] := List.eq_nil_of_length_eq_zero (Nat.le_zero.mp hn)
    subst hb
    exact ⟨hushed_refl _ s, fun x => (if_neg (by simp)).symm⟩
  | succ n ih =>
    unfold linePieces at hq ⊢
    split at hq
    case isTrue hb =>
      rw [if_pos hb]
      have hb := List.isEmpty_iff.mp hb
      subst hb
      exact ⟨hushed_refl _ s, fun x => (if_neg (by simp)).symm⟩
    case isFalse hb =>
      rw [if_neg hb]
      have hlen : 0 < b.length := List.length_pos_iff.mpr fun he => hb (by rw [he]; rfl)
      obtain ⟨k, hk⟩ : ∃ k, k = 64 - a % 64 := ⟨_, rfl⟩
      have hkpos : 0 < k := by omega
      rw [← hk] at hq ⊢
      rw [forEach_cons]
      obtain ⟨hhush, hread⟩ := writePiece_spec (s := s) (a, b.take k) (by dsimp only; omega) (hq _ List.mem_cons_self)
      obtain ⟨w, hw⟩ : ∃ w, w = writePiece (a, b.take k) s := ⟨_, rfl⟩
      rw [← hw] at hhush hread ⊢
      have hdrop : (b.drop k).length = b.length - k := List.length_drop
      by_cases hfit : b.length ≤ k
      · have hnil : b.drop k = [] := List.drop_eq_nil_of_le hfit
        have hnone : linePieces n (a + k) (b.drop k) = [] := by
          rw [hnil]
          cases n <;> rfl
        rw [hnone]
        refine ⟨hhush, fun x => (hread x).trans ?_⟩
        rw [List.take_of_length_le hfit]
      · obtain ⟨hhush', hread'⟩ := ih (a + k) (b.drop k) (s := w) (by omega) (by omega)
          fun pc hm hd => hhush.quiet (hq pc (List.mem_cons_of_mem _ hm) hd) (by decide)
        refine ⟨hhush.trans hhush', fun x => ?_⟩
        rw [hread', hread]
        dsimp only
        have htake : (b.take k).length = k := by
          rw [List.length_take]
          omega
        rw [hdrop, htake]
        by_cases h1 : a + k ≤ x ∧ x < a + k + (b.length - k)
        · rw [if_pos h1, if_pos (by omega), List.getD_eq_getElem?_getD, List.getD_eq_getElem?_getD, List.getElem?_drop]
          congr 2
          omega
        · rw [if_neg h1]
          by_cases h2 : a ≤ x ∧ x < a + k
          · rw [if_pos h2, if_pos (by omega), List.getD_eq_getElem?_getD, List.getD_eq_getElem?_getD, List.getElem?_take, if_pos (by omega)]
          · rw [if_neg h2, if_neg (by omega)]

/-- A hub agent's write: its bytes at its address, nothing else in memory, and no disturbance. -/
theorem homeWrite_spec (pa : BitVec 48) (b : List Byte) (hend : pa.toNat + b.length ≤ 2 ^ 48) (hq : NoneQueued s pa b.length) :
    Hushed writePieces s (homeWrite pa b false s) ∧
      ∀ x, readByte (homeWrite pa b false s) x =
        if pa.toNat ≤ x ∧ x < pa.toNat + b.length then b.getD (x - pa.toNat) 0 else readByte s x := by
  rw [homeWrite_eq]
  refine writePieces_spec _ _ b (Nat.le_succ _) hend fun pc hm hd => ?_
  have hmem : lineOf (BitVec.ofNat 48 pc.1) ∈ dramLines pa b.length := by
    refine List.mem_filter.mpr ⟨?_, hd⟩
    have hplace : pc.1 ∈ (linePieces (b.length + 1) pa.toNat (List.replicate b.length 0)).map Prod.fst := by
      rw [linePieces_places _ _ (b := List.replicate b.length 0) (c := b) List.length_replicate]
      exact List.mem_map_of_mem hm
    obtain ⟨q, hq', he⟩ := List.mem_map.mp hplace
    exact List.mem_map.mpr ⟨q, hq', by rw [he]⟩
  obtain ⟨hidle, hold⟩ := hq _ hmem
  exact ⟨fun h hh => (hidle h hh).symm, hold⟩

theorem homeWrite_reads {pa : BitVec 48} {b : List Byte} (hend : pa.toNat + b.length ≤ 2 ^ 48) (hq : NoneQueued s pa b.length) :
    readBytes (homeWrite pa b false s) pa.toNat b.length = b ∧ MemKept pa.toNat b.length s (homeWrite pa b false s) := by
  obtain ⟨-, hread⟩ := homeWrite_spec pa b hend hq
  refine ⟨?_, fun x hx => ?_⟩
  · change (List.range b.length).map (fun i => readByte (homeWrite pa b false s) (pa.toNat + i)) = b
    refine List.ext_getElem (by simp) fun i h1 h2 => ?_
    rw [List.getElem_map, List.getElem_range, hread, if_pos (by omega), Nat.add_sub_cancel_left]
    exact (List.getElem_eq_getD 0).symm
  · rw [hread, if_neg hx]

end Sys2Proof.Machine
end

section
/-! An item goes from its queue to the thread that owns it (R289, R292 to R294, R369). -/
namespace Sys2Proof.Machine
set_option Elab.async false
variable {s u v : State} {P : List Piece} {t : Thr} {e : Fin 65536}

/-! ## Selection -/

theorem drrPick_none (p c : Nat) : drrPick s p c [] = none := by
  unfold drrPick
  dsimp only
  split
  · next he =>
    split at he
    · cases he
    · cases he
  · rfl

theorem drrPick_single (p c : Nat) (x : Nat × Nat × Thr) : ∃ left, drrPick s p c [x] = some (x, left) := by
  unfold drrPick
  extract_lets last left weight
  split
  · next w he =>
    split at he
    · cases he
    · rw [List.find?_singleton] at he
      split at he
      · exact ⟨_, by rw [Option.some.inj he]⟩
      · cases he
  · rw [List.find?_singleton]
    split
    · next w he =>
      split at he
      · exact ⟨_, by rw [Option.some.inj he]⟩
      · cases he
    · next he => exact ⟨_, by rw [(List.cons.inj he).1]⟩
    · next he => cases he

/-- The first class with a waiting item, where that item is the only one. -/
theorem pick_first {p c : Nat} {x : Nat × Nat × Thr} (hc : c < 4) (hopen : classOpen s p c = true)
    (hx : candidates s p c = [x]) (hnone : ∀ k < c, candidates s p k = []) :
    ∃ left, (List.range 4).findSome? (fun c =>
      if classOpen s p c then (drrPick s p c (candidates s p c)).map (fun r => (c, r)) else none) = some (c, x, left) := by
  obtain ⟨left, hleft⟩ := drrPick_single (s := s) p c x
  refine ⟨left, List.findSome?_eq_some_iff.mpr ⟨List.range c, c, List.range' (c + 1) (3 - c), ?_, ?_, fun k hk => ?_⟩⟩
  · have hsplit : List.range 4 = List.range c ++ List.range' c (4 - c) := by
      rw [List.range_eq_range', List.range_eq_range']
      have happ := List.range'_append_1 (s := 0) (m := c) (n := 4 - c)
      rw [Nat.zero_add, Nat.add_sub_cancel' (Nat.le_of_lt hc)] at happ
      exact happ.symm
    rw [hsplit, show 4 - c = (3 - c) + 1 by omega, List.range'_succ]
  · rw [if_pos hopen, hx, hleft]
    rfl
  · rw [hnone k (List.mem_range.mp hk), drrPick_none]
    exact ite_self none

/-- Whether an item buffer lies in DRAM of the thread's own partition depends on the partitions' memory and bays alone. -/
theorem bufOk_congr (hpart : ∀ p, (part u p).ranges = (part s p).ranges ∧ (part u p).bays = (part s p).bays)
    (hdisp : u.led.disp = s.led.disp) (hregion : u.region = s.region) : bufOk u t = bufOk s t := by
  cases t with
  | core i =>
    have haddr : bufAddr u (.core i) = bufAddr s (.core i) := by
      unfold bufAddr dispCore
      rw [hdisp]
    have hbay : partOfBay u = partOfBay s := by
      funext b
      unfold partOfBay
      exact congrArg (firstBelow 8) (funext fun p => by rw [(hpart p).2])
    have hrange : partOfAddr u = partOfAddr s := by
      funext a
      unfold partOfAddr
      exact congrArg (firstBelow 8) (funext fun p => by rw [(hpart p).1])
    have hinst : installed u = installed s := by
      funext a
      unfold installed
      rw [hregion]
    change ownDram u (partOfBay u (i.val / 16)) (BitVec.ofNat 48 (bufAddr u (.core i))) =
      ownDram s (partOfBay s (i.val / 16)) (BitVec.ofNat 48 (bufAddr s (.core i)))
    unfold ownDram
    rw [haddr, hbay, hrange, hinst]
  | adze j => rfl

theorem startBuffer_starts {k : Nat} (hr : (entry s k).resv = some t) (hb : bufOk s t = true) :
    startBuffer k s = updEntry k (fun y => { y with writing := true }) s := by
  unfold startBuffer
  dsimp only
  rw [hr]
  exact if_pos hb

theorem dispatchSelect_selects {p : Fin 8} {c q : Nat} (hm : mayDispatch s p.val = true) (hc : c < 4)
    (hopen : classOpen s p.val c = true) (hx : candidates s p.val c = [(q, e.val, t)]) (hnone : ∀ k < c, candidates s p.val k = [])
    (hin : (entry s e.val).isInline = true) (hb : bufOk s t = true) :
    ∃ u, exec (.dispatchSelect p) s = .next u ∧ entry u e.val = { entry s e.val with
        st := .fetch, resv := some t, cls := BitVec.ofNat 2 c, descOk := true, writing := true } ∧
      (∀ k, k ≠ e.val → entry u k = entry s k) ∧ Keeps [.part, .led, .pw] s u := by
  obtain ⟨left, hpick⟩ := pick_first hc hopen hx hnone
  obtain ⟨w, hw⟩ : ∃ w, w = updPart p.val (fun x => { x with
      lastq := put 0 x.lastq c q
      credits := put 0 (x.credits.filter (fun e => e.1 / 4096 ≠ c)) (4096 * c + q) left
      braceTimes := if c = 0 then x.braceTimes else recentBraced s p.val ++ [s.time.now] }) s := ⟨_, rfl⟩
  have hkw : Keeps [.part] s w := by
    rw [hw]
    exact (keeps_refl _ s).updPart
  have hpart (k : Nat) : (part w k).ranges = (part s k).ranges ∧ (part w k).bays = (part s k).bays := by
    rw [hw, part_updPart]
    split
    · next hk =>
      rw [hk]
      exact ⟨rfl, rfl⟩
    · exact ⟨rfl, rfl⟩
  obtain ⟨y, hy⟩ : ∃ y, y = dispVote t true (updEntry e.val (fun x => { x with
      st := .fetch, resv := some t, cls := BitVec.ofNat 2 c, descOk := x.isInline }) w) := ⟨_, rfl⟩
  have hky : Keeps [.led, .pw] w y := by
    rw [hy]
    exact ((keeps_refl _ w).updEntry).dispVote
  have hentry (k : Nat) : entry y k = if k = e.val then { entry s e.val with
      st := .fetch, resv := some t, cls := BitVec.ofNat 2 c, descOk := (entry s e.val).isInline } else entry s k := by
    rw [hy, ((keeps_refl [.pw] _).dispVote).entry_eq, entry_updEntry, hkw.entry_eq, hkw.entry_eq]
  have hdisp : y.led.disp = s.led.disp := by
    have hvote (x : State) : (dispVote t true x).led = x.led := ((keeps_refl [.pw] x).dispVote) .led (by decide)
    rw [hy, hvote, show s.led = w.led from (hkw .led (by decide)).symm]
    rfl
  have hbuf : bufOk y t = true := by
    rw [← hb]
    refine bufOk_congr (fun k => ?_) hdisp ?_
    · rw [← (hpart k).1, ← (hpart k).2]
      unfold part
      rw [show y.part = w.part from hky .part (by decide)]
      exact ⟨rfl, rfl⟩
    · exact (hky .region (by decide)).trans (hkw .region (by decide))
  have hin' : (entry y e.val).isInline = true := by
    rw [hentry, if_pos rfl]
    exact hin
  have hrun : exec (.dispatchSelect p) s = .next (updEntry e.val (fun x => { x with writing := true }) y) := by
    change execDispatchSelect p s = _
    unfold execDispatchSelect
    rw [if_neg (by rw [hm]; decide), hpick]
    dsimp only
    rw [dif_pos e.isLt, ← hw]
    refine congrArg Host.Outcome.next ?_
    unfold beginItem
    extract_lets a b x
    have hb' : b = y := hy.symm
    have hx' : x.isInline = true := by
      change (entry b e.val).isInline = true
      rw [hb']
      exact hin'
    rw [if_pos hx', hb']
    refine startBuffer_starts ?_ hbuf
    rw [hentry, if_pos rfl]
  refine ⟨_, hrun, ?_, fun k hk => ?_, ?_⟩
  · rw [entry_updEntry, if_pos rfl, hentry, if_pos rfl]
    generalize entry s e.val = x at hin
    cases x
    dsimp only at hin
    subst hin
    rfl
  · rw [entry_updEntry, if_neg hk, hentry, if_neg hk]
  · exact keeps_trans (keeps_mono (by decide) hkw) (keeps_mono (by decide) (hky.updEntry))

/-! ## The descriptor and the data -/

/-- The item's end by its descriptor, as its fields stand. -/
theorem endItem_ends (k : Nat) (fail : Bool) (cause detail : BitVec 8) (hf : (entry s k).st ≠ .free) (hc : (entry s k).st ≠ .closing) :
    (entry (endItem k fail cause detail s) k).detail = detail := by
  unfold endItem
  extract_lets x w w'
  have hx : ¬ (decide (x.st = .free) || decide (x.st = .closing)) = true := by
    rw [Bool.or_eq_true, decide_eq_true_eq, decide_eq_true_eq, not_or]
    exact ⟨hf, hc⟩
  rw [if_neg hx]
  have hew : (entry w' k).detail = detail := by
    rw [((keeps_refl [.ep] w).abandonReads).entry_eq, entry_updEntry, if_pos rfl]
  split
  · rw [((keeps_refl [.pw] w').dispVote).entry_eq]
    exact hew
  · exact hew

/-- The state with other host reads and other output. -/
def reading (rs : List ReadRec) (o : List Out) (s : State) : State := { s with ep := { s.ep with reads := rs }, out := o }

theorem issueRead_here (r : ReadRec) (hh : headOf s = .here) : ∃ rs o, issueRead r s = reading rs o s := by
  have hhead : (if r.serves.isSome then Head.here else headOf s) = .here := by rw [hh, ite_self]
  unfold issueRead
  rw [hhead]
  dsimp only
  split
  · exact ⟨s.ep.reads, s.out, rfl⟩
  · split
    · exact ⟨s.ep.reads, s.out, rfl⟩
    · exact ⟨_, _, rfl⟩

theorem pumpReads_here (hh : headOf s = .here) : ∃ rs o, pumpReads s = reading rs o s := by
  unfold pumpReads
  refine forEach_keeps (fun x => ∃ rs o, x = reading rs o s) _ _ _ ⟨_, s.out, rfl⟩ fun r _ x hx => ?_
  obtain ⟨rs, o, rfl⟩ := hx
  split
  · obtain ⟨rs', o', he⟩ := issueRead_here (s := reading rs o s) r hh
    exact ⟨rs', o', he⟩
  · exact ⟨rs, o, rfl⟩

theorem queueReads_here (isDesc : Bool) (a len : Nat) (hh : headOf s = .here) :
    ∃ rs o, queueReads e isDesc a len s = reading rs o s := by
  obtain ⟨rs, o, he⟩ := pumpReads_here (s := reading (s.ep.reads ++
    splitRead 4096 (ReadRec.mk 0 e isDesc (BitVec.ofNat 64 a) len [] 0 false none false false)) s.out s) hh
  exact ⟨rs, o, he⟩

theorem keeps_reading (rs : List ReadRec) (o : List Out) : Keeps [.ep, .out] s (reading rs o s) := by
  intro p hp
  cases p <;> simp_all [Piece.same, reading]

/-- The descriptor has been read. -/
theorem descriptorReadDone_fault {d : BitVec 8} (hst : (entry s e.val).st = .fetch) (hin : (entry s e.val).isInline = false)
    (hok : (entry s e.val).descOk = false) (hdone : readsDone s e.val = true) (hlen : 64 ≤ (entry s e.val).desc.length)
    (hd : descFault (entry s e.val) = some d) : ∃ u, exec (.descriptorReadDone e) s = .next u ∧ (entry u e.val).st = .closing ∧
      (entry u e.val).fail = true ∧ (entry u e.val).cause = 8 ∧ (entry u e.val).detail = d ∧ Keeps [.led, .ep, .pw] s u := by
  have hrun : exec (.descriptorReadDone e) s = .next (endItem e.val true 8 d s) := by
    change execDescriptorReadDone e s = _
    unfold execDescriptorReadDone
    dsimp only
    rw [if_neg (by simp [hst, hin, hok, hdone, hlen]), hd]
  have hf : (entry s e.val).st ≠ .free := by
    rw [hst]
    decide
  have hc : (entry s e.val).st ≠ .closing := by
    rw [hst]
    decide
  obtain ⟨-, hends⟩ := endItem_entries (s := s) e.val true 8 d
  obtain ⟨hclosing, hfail, hcause⟩ := hends hf hc
  exact ⟨_, hrun, hclosing, hfail, hcause, endItem_ends _ _ _ _ hf hc, (keeps_refl _ s).endItem⟩

theorem descriptorReadDone_keeps (hst : (entry s e.val).st = .fetch) (hin : (entry s e.val).isInline = false)
    (hr : (entry s e.val).resv = some t) (hok : (entry s e.val).descOk = false) (hdone : readsDone s e.val = true)
    (hlen : 64 ≤ (entry s e.val).desc.length) (hd : descFault (entry s e.val) = none)
    (harea : descLen (entry s e.val) ≤ dataArea s t)
    (hdata : descLen (entry s e.val) = 0 ∨ dmaOk (inst s (queue s (entry s e.val).queue.val).inst.toNat)
      (descWord (entry s e.val) 8).toNat (descLen (entry s e.val)) = true)
    (hres : descResEn (entry s e.val) = false ∨ resMax (entry s e.val) = 0 ∨
      dmaOk (inst s (queue s (entry s e.val).queue.val).inst.toNat) (descWord (entry s e.val) 0x18).toNat (resMax (entry s e.val)) = true)
    (hh : headOf s = .here) : ∃ u, exec (.descriptorReadDone e) s = .next u ∧
      entry u e.val = { entry s e.val with descOk := true, dataLen := some (descLen (entry s e.val)), data := [] } ∧
      Keeps [.led, .ep, .out] s u := by
  obtain ⟨w, hw⟩ : ∃ w, w = updEntry e.val (fun y => { y with descOk := true, data := [] })
      (updEntry e.val (fun y => { y with dataLen := some (descLen (entry s e.val)) }) s) := ⟨_, rfl⟩
  have hhw : headOf w = .here := by
    rw [hw]
    exact hh
  obtain ⟨rs, o, hq⟩ := queueReads_here (s := w) (e := e) false (descWord (entry s e.val) 8).toNat (descLen (entry s e.val)) hhw
  have hareaW : dataArea (updEntry e.val (fun y => { y with dataLen := some (descLen (entry s e.val)) }) s) t = dataArea s t := by
    cases t <;> rfl
  have hdma : ¬ ((descLen (entry s e.val) ≠ 0 && !dmaOk (inst s (queue s (entry s e.val).queue.val).inst.toNat)
        (descWord (entry s e.val) 8).toNat (descLen (entry s e.val)))
      || (descResEn (entry s e.val) && resMax (entry s e.val) ≠ 0 && !dmaOk (inst s (queue s (entry s e.val).queue.val).inst.toNat)
        (descWord (entry s e.val) 0x18).toNat (resMax (entry s e.val)))) = true := by
    rw [Bool.or_eq_true, not_or]
    constructor
    · rcases hdata with h | h
      · simp [h]
      · simp [h]
    · rcases hres with h | h | h
      · simp [h]
      · simp [h]
      · simp [h]
  have hrun : exec (.descriptorReadDone e) s = .next (reading rs o w) := by
    change execDescriptorReadDone e s = _
    unfold execDescriptorReadDone
    dsimp only
    rw [if_neg (by simp [hst, hin, hok, hdone, hlen]), hd, hr]
    dsimp only
    rw [hareaW, if_neg (Nat.not_lt.mpr harea)]
    refine (if_neg hdma).trans ?_
    rw [← hq, hw]
  refine ⟨_, hrun, ?_, keeps_trans ?_ (keeps_mono (by decide) (keeps_reading rs o))⟩
  · rw [(keeps_reading rs o).entry_eq, hw, entry_updEntry, if_pos rfl, entry_updEntry, if_pos rfl]
  · rw [hw]
    exact ((keeps_refl _ s).updEntry).updEntry

theorem itemDataReadDone_writes (hst : (entry s e.val).st = .fetch) (hin : (entry s e.val).isInline = false)
    (hr : (entry s e.val).resv = some t) (hok : (entry s e.val).descOk = true) (hw : (entry s e.val).writing = false)
    (hdone : readsDone s e.val = true) (hlen : (entry s e.val).dataLen.getD 0 ≤ (entry s e.val).data.length) (hb : bufOk s t = true) :
    ∃ u, exec (.itemDataReadDone e) s = .next u ∧ entry u e.val = { entry s e.val with writing := true } ∧ Keeps [.led] s u := by
  refine ⟨updEntry e.val (fun y => { y with writing := true }) s, ?_, ?_, (keeps_refl _ s).updEntry⟩
  · change execItemDataReadDone e s = _
    unfold execItemDataReadDone
    dsimp only
    rw [if_neg (by simp [hst, hin, hok, hw, hdone, hlen]), startBuffer_starts hr hb]
  · rw [entry_updEntry, if_pos rfl]

/-! ## The item buffer -/

theorem length_bufferBytes (k : Nat) (x : Entry) : (bufferBytes k x).length = 64 + x.dataLen.getD 0 := by
  unfold bufferBytes
  cases x.isInline <;> simp [length_bytesOf, sliceB, padTo] <;> omega

theorem bufAddr_fits (s : State) (t : Thr) : bufAddr s t + 4096 ≤ 2 ^ 48 := by
  cases t with
  | core i =>
    have := (dispCore s i.val).ibuf.isLt
    change (dispCore s i.val).ibuf.toNat * 4096 + 4096 ≤ 2 ^ 48
    omega
  | adze j =>
    have hbase := (engine s (j.val / 8)).ibufBase.isLt
    have hsize : 2 ^ (engine s (j.val / 8)).ibufSize.toNat ≤ 2 ^ 7 :=
      Nat.pow_le_pow_right (by decide) (by have := (engine s (j.val / 8)).ibufSize.isLt; omega)
    have hj := j.isLt
    have hmul : j.val % 8 * (2 ^ (engine s (j.val / 8)).ibufSize.toNat * 256) ≤ 7 * (2 ^ 7 * 256) :=
      Nat.mul_le_mul (by omega) (Nat.mul_le_mul_right 256 hsize)
    change 0xF00004000000 + j.val / 8 * 0x40000 + (engine s (j.val / 8)).ibufBase.toNat * 1024 +
      j.val % 8 * (2 ^ (engine s (j.val / 8)).ibufSize.toNat * 256) + 4096 ≤ 2 ^ 48
    omega

/-- An event reaches a thread in its event state alone. -/
theorem placeEvent_ev (r : EvRec) (y : Thr) : ∃ ev, thr (placeEvent t r s) y = { thr s y with ev := ev } := by
  have hupd (f : EvState → EvState) : ∃ ev, thr (updThr t (updEv f) s) y = { thr s y with ev := ev } := by
    rw [thr_updThr]
    split
    · next hy =>
      rw [hy]
      exact ⟨_, rfl⟩
    · exact ⟨(thr s y).ev, rfl⟩
  have hsame : ∃ ev, thr s y = { thr s y with ev := ev } := ⟨(thr s y).ev, rfl⟩
  unfold placeEvent
  split
  · exact hsame
  · split
    · exact hsame
    · split
      · split
        · exact hsame
        · exact hupd _
      · split
        · split
          · exact hupd _
          · split
            · exact hsame
            · exact hupd _
        · split
          · split
            · exact hupd _
            · split
              · exact hsame
              · exact hupd _
          · exact hupd _

/-- An entry as the thread takes its item. -/
def owning (t : Thr) (x : Entry) (s : State) (y : Entry) : Entry :=
  { y with
    st := .owned, owner := some t, gen := (srcEnt s (srcOfThr t)).gen, resv := none, writing := false, tOwned := s.time.now
    evSent := true, rlimit := if !x.isInline && descRlimit x ≠ 0 then descRlimit x else (queue s x.queue.val).rlimit }

/-- The item's entry and the ledger as the thread takes the item. -/
def handOver (k : Nat) (t : Thr) (x : Entry) (s : State) : State :=
  updLed (fun l => { l with given := l.given.filter (fun i => i ≠ thrKey t) ++ [thrKey t] })
    (setHeld t (some (k, x.etag)) (updEntry k (owning t x s) s))

theorem entry_handOver (k : Nat) (t : Thr) (x : Entry) : entry (handOver k t x s) k = owning t x s (entry s k) :=
  have he : entry (updEntry k (owning t x s) s) k = owning t x s (entry s k) := (entry_updEntry s k _ k).trans (if_pos rfl)
  he

theorem heldEntry_handOver (k : Nat) (t : Thr) (x : Entry) : look none (handOver k t x s).led.holds (thrKey t) = some (k, x.etag) :=
  look_put_self none s.led.holds (thrKey t) (some (k, x.etag))

/-- The DISPATCH record of an item. -/
def handedOver (e : Fin 65536) (x : Entry) (prio : BitVec 4) : EvRec :=
  ⟨1, prio, false, false, BitVec.ofNat 16 x.queue.val, 0, BitVec.ofNat 64 e ||| at' x.etag 16, none⟩

/-- What the write of an item's buffer leaves: the head and the data in the buffer, the thread as the item's owner. -/
theorem itemBufferWritten_given (hst : (entry s e.val).st = .fetch) (hr : (entry s e.val).resv = some t)
    (hw : (entry s e.val).writing = true) (hlen : (entry s e.val).dataLen.getD 0 ≤ 4032)
    (hq : NoneQueued s (BitVec.ofNat 48 (bufAddr s t)) (64 + (entry s e.val).dataLen.getD 0))
    (hserved : isDramLine (lineOf (BitVec.ofNat 48 (bufAddr s t))) = false ∨
      lineServed s (lineOf (BitVec.ofNat 48 (bufAddr s t))) = true) :
    ∃ u, exec (.itemBufferWritten e none) s = .next u ∧
      readBytes u (bufAddr s t) (64 + (entry s e.val).dataLen.getD 0) = bufferBytes e.val (entry s e.val) ∧
      MemKept (bufAddr s t) (64 + (entry s e.val).dataLen.getD 0) s u ∧
      (entry u e.val).st = .owned ∧ (entry u e.val).owner = some t ∧ (entry u e.val).gen = (srcEnt s (srcOfThr t)).gen ∧
      (entry u e.val).tOwned = s.time.now ∧ (entry u e.val).resv = none ∧ heldEntry u t = some (e.val, (entry s e.val).etag) ∧
      (∀ y, (thr u y).g = (thr s y).g ∧ (thr u y).pc = (thr s y).pc) := by
  have hfits := bufAddr_fits s t
  have hlength := length_bufferBytes e.val (entry s e.val)
  have hnat : (BitVec.ofNat 48 (bufAddr s t)).toNat = bufAddr s t := by
    rw [BitVec.toNat_ofNat, Nat.mod_eq_of_lt (by omega)]
  rw [← hlength] at hq
  have hend : (BitVec.ofNat 48 (bufAddr s t)).toNat + (bufferBytes e.val (entry s e.val)).length ≤ 2 ^ 48 := by
    rw [hnat, hlength]
    omega
  obtain ⟨hhush, -⟩ := homeWrite_spec _ _ hend hq
  obtain ⟨hreads, hkept⟩ := homeWrite_reads hend hq
  rw [hnat, hlength] at hreads hkept
  obtain ⟨w, hw'⟩ : ∃ w, w = homeWrite (BitVec.ofNat 48 (bufAddr s t)) (bufferBytes e.val (entry s e.val)) false s := ⟨_, rfl⟩
  rw [← hw'] at hhush hreads hkept
  obtain ⟨x, hx⟩ : ∃ x, x = handOver e.val t (entry s e.val) w := ⟨_, rfl⟩
  obtain ⟨r, hr', hrun⟩ : ∃ r, r = handedOver e (entry s e.val) (dispPrio x ((partOf x t).getD 0) (entry s e.val).cls) ∧
      exec (.itemBufferWritten e none) s = .next (acceptEvent t r x) := by
    refine ⟨_, rfl, ?_⟩
    change execItemBufferWritten e none s = _
    unfold execItemBufferWritten
    dsimp only
    rw [hr]
    dsimp only
    rw [if_neg (by simp [hst, hw])]
    have hs : (if (!isDramLine (lineOf (BitVec.ofNat 48 (bufAddr s t))) || lineServed s (lineOf (BitVec.ofNat 48 (bufAddr s t)))) = true then
        none else some LostCause.targetDown) = none := by
      refine if_pos ?_
      rcases hserved with h | h <;> simp [h]
    rw [hs]
    dsimp only
    rw [hx, hw']
    rfl
  have hkx : Keeps [.led] w x := by
    rw [hx]
    exact ((keeps_refl _ w).updEntry).updLed.updLed
  have hku : Keeps [.thr, .wake] x (acceptEvent t r x) := (keeps_refl _ x).acceptEvent
  have hread (a : Nat) : readByte (acceptEvent t r x) a = readByte w a := (readByte_of_keeps hku a).trans (readByte_of_keeps hkx a)
  have hentry : entry (acceptEvent t r x) e.val = owning t (entry s e.val) w (entry w e.val) := by
    rw [hku.entry_eq, hx, entry_handOver]
  have hsrcs : srcEnt w (srcOfThr t) = srcEnt s (srcOfThr t) := by
    unfold srcEnt
    rw [show w.srcs = s.srcs from hhush.keeps .srcs (by decide)]
  refine ⟨_, hrun, ?_, fun a ha => (hread a).trans (hkept a ha), ?_, ?_, ?_, ?_, ?_, ?_, fun y => ?_⟩
  · rw [← hreads]
    unfold readBytes
    exact List.map_congr_left fun i _ => hread _
  · rw [hentry]
    rfl
  · rw [hentry]
    rfl
  · rw [hentry, ← hsrcs]
    rfl
  · rw [hentry, ← show w.time = s.time from hhush.keeps .time (by decide)]
    rfl
  · rw [hentry]
    rfl
  · have hled : (acceptEvent t r x).led = x.led := hku .led (by decide)
    unfold heldEntry
    rw [hled, hx, heldEntry_handOver]
  · obtain ⟨ev, hev⟩ := placeEvent_ev (t := t) (s := x) { r with tstamp := x.time.now.setWidth 32 } y
    have hxy : thr x y = thr w y := by
      unfold thr
      rw [show x.thr = w.thr from hkx .thr (by decide)]
    have hg : (acceptEvent t r x) = placeEvent t { r with tstamp := x.time.now.setWidth 32 } x := rfl
    have hcalm := hhush.calm y
    have hcg := congrArg Thread.g hcalm
    have hcpc := congrArg Thread.pc hcalm
    rw [hg, hev, hxy]
    exact ⟨hcg, hcpc⟩

theorem itemBufferWritten_lost (c : LostCause) (hst : (entry s e.val).st = .fetch) (hr : (entry s e.val).resv = some t)
    (hw : (entry s e.val).writing = true) (hlen : (entry s e.val).dataLen.getD 0 ≤ 4032)
    (hq : NoneQueued s (BitVec.ofNat 48 (bufAddr s t)) (64 + (entry s e.val).dataLen.getD 0))
    (hserved : isDramLine (lineOf (BitVec.ofNat 48 (bufAddr s t))) = false ∨
      lineServed s (lineOf (BitVec.ofNat 48 (bufAddr s t))) = true) :
    ∃ u, exec (.itemBufferWritten e (some c)) s = .next u ∧ (entry u e.val).st = .closing ∧
      (entry u e.val).cause = 0x0A ∧ (entry u e.val).detail = (causeCode c).setWidth 8 ∧ (entry u e.val).fail = true := by
  have hfits := bufAddr_fits s t
  have hlength := length_bufferBytes e.val (entry s e.val)
  have hnat : (BitVec.ofNat 48 (bufAddr s t)).toNat = bufAddr s t := by
    rw [BitVec.toNat_ofNat, Nat.mod_eq_of_lt (by omega)]
  rw [← hlength] at hq
  have hend : (BitVec.ofNat 48 (bufAddr s t)).toNat + (bufferBytes e.val (entry s e.val)).length ≤ 2 ^ 48 := by
    rw [hnat, hlength]
    omega
  have hserved' : (!isDramLine (lineOf (BitVec.ofNat 48 (bufAddr s t))) || lineServed s (lineOf (BitVec.ofNat 48 (bufAddr s t)))) = true := by
    rcases hserved with h | h <;> simp [h]
  have hqf : NoneQueued (freeBit s).2 (BitVec.ofNat 48 (bufAddr s t)) (bufferBytes e.val (entry s e.val)).length := hq
  obtain ⟨hhush, -⟩ := homeWrite_spec (s := (freeBit s).2) _ _ hend hqf
  obtain ⟨w, hw', hrun⟩ : ∃ w, w = (if (freeBit s).1 then
      homeWrite (BitVec.ofNat 48 (bufAddr s t)) (bufferBytes e.val (entry s e.val)) false (freeBit s).2 else (freeBit s).2) ∧
      exec (.itemBufferWritten e (some c)) s = .next (endItem e.val true 0x0A ((causeCode c).setWidth 8) w) := by
    refine ⟨_, rfl, ?_⟩
    change execItemBufferWritten e (some c) s = _
    unfold execItemBufferWritten
    dsimp only
    rw [hr]
    dsimp only
    rw [if_neg (by simp [hst, hw]), hserved', if_pos rfl]
    dsimp only
    rw [Bool.and_true]
  have hentry : entry w e.val = entry s e.val := by
    rw [hw']
    split
    · exact hhush.keeps.entry_eq e.val (by decide)
    · rfl
  have hf : (entry w e.val).st ≠ .free := by
    rw [hentry, hst]
    decide
  have hc : (entry w e.val).st ≠ .closing := by
    rw [hentry, hst]
    decide
  obtain ⟨-, hends⟩ := endItem_entries (s := w) e.val true 0x0A ((causeCode c).setWidth 8)
  obtain ⟨hclosing, hfail, hcause⟩ := hends hf hc
  exact ⟨_, hrun, hclosing, hcause, endItem_ends _ _ _ _ hf hc, hfail⟩

/-- Settles O35. -/
theorem dispatch : Obligations.Dispatch := by
  refine ⟨?_, ?_, ?_⟩
  · intro s p c q e t hm hc hopen hx hnone hin hb
    exact dispatchSelect_selects hm hc hopen hx hnone hin hb
  · intro s e t x len i hst hin hr
    refine ⟨fun hok hdone hlen => ⟨fun d hd => descriptorReadDone_fault hst hin hok hdone hlen hd,
      fun hd harea hdata hres hh => descriptorReadDone_keeps hst hin hr hok hdone hlen hd harea hdata hres hh⟩, ?_⟩
    exact fun hok hw hdone hlen hb => itemDataReadDone_writes hst hin hr hok hw hdone hlen hb
  · intro s e t x a own hst hr hw hlen hq hserved
    exact ⟨itemBufferWritten_given hst hr hw hlen hq hserved, fun c => itemBufferWritten_lost c hst hr hw hlen hq hserved⟩

end Sys2Proof.Machine
end

section
/-! A coherence error takes its partition DOWN (R187, R239 to R242, R298). -/
namespace Sys2Proof.Machine
set_option Elab.async false
variable {s u v : State} {P : List Piece} {t : Thr} {p : Fin 8}

/-! ## Threads that keep their registers -/

/-- Every thread keeps what it holds, its reservation and event state apart, and no thread gains a reservation. -/
def Composed (s u : State) : Prop :=
  ∀ x, (thr u x).calm = (thr s x).calm ∧ ((thr s x).resv = none → (thr u x).resv = none)

theorem composed_refl (s : State) : Composed s s := fun _ => ⟨rfl, fun h => h⟩

theorem Composed.trans (h : Composed s u) (k : Composed u v) : Composed s v := fun x => by
  obtain ⟨hc, hr⟩ := h x
  obtain ⟨hc', hr'⟩ := k x
  exact ⟨hc'.trans hc, fun hn => hr' (hr hn)⟩

theorem Composed.keeps (h : Composed s u) (k : Keeps P u v) (ht : Piece.thr ∉ P := by decide) : Composed s v := by
  refine h.trans fun x => ?_
  have e : thr v x = thr u x := congrArg (fun l => look Thread.reset l (thrKey x)) (k .thr ht)
  rw [e]
  exact ⟨rfl, fun hn => hn⟩

theorem Composed.each {α : Type} {l : List α} {f : α → State → State} (h : Composed s u) (hf : ∀ a x, Composed x (f a x)) :
    Composed s (forEach l f u) := forEach_keeps (Composed s) f l u h fun a _ x hx => hx.trans (hf a x)

theorem Composed.tallied (h : Composed s u) (k : Tallied u v) : Composed s v :=
  h.trans fun x => ⟨k.field Thread.calm x, fun hn => by rw [k.field Thread.resv x]; exact hn⟩

theorem composed_partEvent (p : Nat) (source : BitVec 8) (index : BitVec 16) (payload : Word) (hsource : source ≠ 1) :
    Composed s (partEvent p source index payload s) := by
  unfold partEvent
  split
  · exact composed_refl s
  · split
    · exact (composed_refl s).tallied (tallied_placeEvent hsource)
    · split
      · exact (composed_refl s).tallied (tallied_updThr _ rfl)
      · exact composed_refl s

theorem composed_notice (p : Nat) (index : BitVec 16) (payload : Word) : Composed s (notice p index payload s) := by
  unfold notice
  split
  · exact composed_partEvent _ _ _ _ (by decide)
  · exact (composed_refl s).keeps (keeps_refl [.log] s).wrightEvent

theorem composed_poisonLine (l : BitVec 42) (w : Word) : Composed s (poisonLine l w s) := by
  unfold poisonLine
  split
  · exact composed_refl s
  · extract_lets a b
    have hb : Composed s b := (composed_refl s).keeps ((keeps_refl [.poison, .log] s).setPoison.wrightEvent)
    split
    · exact hb.trans (composed_partEvent _ _ _ _ (by decide))
    · exact hb

theorem composed_loseResvOn (who : Option Thr) (g : BitVec 41) : Composed s (loseResvOn who g s) :=
  fun x => ⟨(unreserved_loseResvOn who g).thr x, resv_loseResvOn who g⟩

theorem composed_storeBytes (who : Option Thr) (pa : BitVec 48) (b : List Byte) (poison : Bool) :
    Composed s (storeBytes who pa b poison s) := by
  unfold storeBytes
  extract_lets ln w y
  have hw : Composed s w := (composed_refl s).keeps ((keeps_refl [.old, .mem] s).dirtyLine.writeBytes)
  have hy : Composed s y := by
    change Composed s (if poison then _ else _)
    split
    · exact hw.trans (composed_poisonLine _ _)
    · split
      · exact hw.keeps (keeps_refl [.poison] w).setPoison
      · exact hw
  exact hy.trans (composed_loseResvOn _ _)

theorem composed_maybePerform (t : Thr) (a : Access) : Composed s (maybePerform t a s) := by
  unfold maybePerform
  extract_lets plain
  split
  · exact composed_refl s
  · have hfree : Composed s (freeBit s).2 := (composed_refl s).keeps (keeps_freeBit s)
    split
    next b w hb =>
    have hw : w = (freeBit s).2 := (congrArg Prod.snd hb).symm
    rw [hw]
    split
    · exact hfree.trans (composed_storeBytes _ _ _ _)
    · exact hfree

theorem composed_settleMode : Composed s (settleMode s) := by
  unfold settleMode
  extract_lets m a w b c d
  have ha : Composed s a := (composed_refl s).keeps (keeps_refl [.pw] s).updPw
  have hc : Composed s c := ha.keeps ((keeps_refl [.wr, .log] a).updWr.wrightEvent)
  have hd : Composed s d := hc.each fun _ x => composed_partEvent _ _ _ _ (by decide)
  split
  · exact (composed_refl s).keeps (keeps_refl [.pw] s).updPw
  · exact hd.keeps (keeps_refl [.ridge, .bw, .xing, .out, .ep, .pba] d).notifyMode

/-! ## A thread halts -/

/-- A thread that halts: nothing more retires and its buffers are discarded. -/
def emptied (th : Thread) : Thread :=
  { th with
    run := if th.run = .notStarted then .notStarted else .stopped
    parked := false, soloParked := false, soloLater := false, fbuf := [], waitFetch := false
    stores := [], unconf := [], outst := []
    ev := { th.ev with writing := [], held := none } }

theorem haltThread_spec (t : Thr) : (thr (haltThread t s) t).calm = (emptied (thr s t)).calm ∧ (thr (haltThread t s) t).resv = none ∧
    ∀ x, x ≠ t → (thr (haltThread t s) x).calm = (thr s x).calm ∧ ((thr s x).resv = none → (thr (haltThread t s) x).resv = none) := by
  obtain ⟨a, ha⟩ : ∃ a, a = loseResv t s := ⟨_, rfl⟩
  have hthr (x : Thr) : thr a x = if x = t then { thr s t with resv := none } else thr s x := by
    rw [ha]
    have hk : thr (loseResv t s) x = thr (updThr t (fun th => { th with resv := none }) s) x := rfl
    rw [hk, thr_updThr]
  obtain ⟨b, hb⟩ : ∃ b, b = updThr t emptied a := ⟨_, rfl⟩
  have hthr' (x : Thr) : thr b x = if x = t then emptied { thr s t with resv := none } else thr s x := by
    rw [hb, thr_updThr]
    split
    · next hx => rw [hthr, if_pos rfl]
    · next hx => rw [hthr, if_neg hx]
  have hu : haltThread t s = forEach (thr s t).outst (maybePerform t) b := by
    rw [hb, ha]
    rfl
  have hcomp : Composed b (haltThread t s) := by
    rw [hu]
    exact (composed_refl b).each fun _ _ => composed_maybePerform _ _
  refine ⟨?_, (hcomp t).2 ?_, fun x hx => ⟨?_, fun hn => (hcomp x).2 ?_⟩⟩
  · rw [(hcomp t).1, hthr', if_pos rfl]
    rfl
  · rw [hthr', if_pos rfl]
    rfl
  · rw [(hcomp x).1, hthr', if_neg hx]
  · rw [hthr', if_neg hx]
    exact hn

/-- A thread of a partition that is DOWN: its registers as before, nothing in its buffers, no reservation. -/
structure Halted (th0 th : Thread) : Prop where
  g : th.g = th0.g
  stores : th.stores = []
  outst : th.outst = []
  resv : th.resv = none
  run : th0.run ≠ .notStarted → th.run = .stopped
  still : th0.run = .notStarted → th.run = .notStarted

theorem Halted.of_calm {th0 th th' : Thread} (h : Halted th0 th) (hc : th'.calm = th.calm) (hr : th'.resv = none) : Halted th0 th' := by
  have hg := congrArg Thread.g hc
  have hs := congrArg Thread.stores hc
  have ho := congrArg Thread.outst hc
  have hrun := congrArg Thread.run hc
  exact ⟨Eq.trans hg h.g, Eq.trans hs h.stores, Eq.trans ho h.outst, hr, fun hn => Eq.trans hrun (h.run hn), fun hn => Eq.trans hrun (h.still hn)⟩

theorem Halted.trans {a b c : Thread} (h : Halted a b) (k : Halted b c) : Halted a c :=
  ⟨k.g.trans h.g, k.stores, k.outst, k.resv, fun hn => k.run (by rw [h.run hn]; decide), fun hn => k.still (h.still hn)⟩

theorem halted_haltThread (t : Thr) : Halted (thr s t) (thr (haltThread t s) t) := by
  obtain ⟨hself, hresv, -⟩ := haltThread_spec (s := s) t
  have hempty : Halted (thr s t) { emptied (thr s t) with resv := none } :=
    ⟨rfl, rfl, rfl, rfl, fun hn => if_neg hn, fun hn => if_pos hn⟩
  exact hempty.of_calm hself hresv

/-- The threads named halt; every other keeps what it holds. -/
theorem haltAll_spec (ts : List Thr) : (∀ x ∈ ts, Halted (thr s x) (thr (forEach ts haltThread s) x)) ∧
    ∀ x, x ∉ ts → (thr (forEach ts haltThread s) x).calm = (thr s x).calm ∧
      ((thr s x).resv = none → (thr (forEach ts haltThread s) x).resv = none) := by
  induction ts generalizing s with
  | nil => exact ⟨fun x hx => absurd hx List.not_mem_nil, fun x _ => ⟨rfl, fun h => h⟩⟩
  | cons t ts ih =>
    rw [forEach_cons]
    obtain ⟨-, -, hother⟩ := haltThread_spec (s := s) t
    have hhalted := halted_haltThread (s := s) t
    obtain ⟨hin, hout⟩ := ih (s := haltThread t s)
    refine ⟨fun x hx => ?_, fun x hx => ?_⟩
    · by_cases he : x = t
      · subst he
        by_cases hxt : x ∈ ts
        · exact hhalted.trans (hin x hxt)
        · obtain ⟨hc, hr⟩ := hout x hxt
          exact hhalted.of_calm hc (hr hhalted.resv)
      · obtain ⟨hc, -⟩ := hother x he
        have h := hin x ((List.mem_cons.mp hx).resolve_left he)
        have hg := congrArg Thread.g hc
        have hrun := congrArg Thread.run hc
        exact ⟨h.g.trans hg, h.stores, h.outst, h.resv, fun hn => h.run fun hn' => hn (Eq.trans hrun.symm hn'),
          fun hn => h.still (Eq.trans hrun hn)⟩
    · obtain ⟨hne, hxt⟩ := not_or.mp fun h => hx (List.mem_cons.mpr h)
      obtain ⟨hc, hr⟩ := hother x hne
      obtain ⟨hc', hr'⟩ := hout x hxt
      exact ⟨hc'.trans hc, fun hn => hr' (hr hn)⟩

/-! ## The threads of a partition -/

theorem thrOfKey_thrKey (t : Thr) : thrOfKey (thrKey t) = some t := by
  cases t with
  | core i =>
    unfold thrOfKey thrKey
    rw [dif_pos i.isLt]
  | adze j =>
    have hj := j.isLt
    change thrOfKey (1024 + j.val) = _
    unfold thrOfKey
    rw [dif_neg (by omega), dif_pos (by omega)]
    simp

theorem mem_threadsOf {q : Nat} (hx : thr s t ≠ Thread.reset) (hp : partOf s t = some q) : t ∈ threadsOf s q := by
  refine List.mem_filter.mpr ⟨List.mem_filterMap.mpr ⟨_, look_mem hx, thrOfKey_thrKey t⟩, ?_⟩
  exact decide_eq_true hp

theorem partOf_of_mem {q : Nat} (h : t ∈ threadsOf s q) : partOf s t = some q := of_decide_eq_true (List.mem_filter.mp h).2

theorem partOf_congr (hp : ∀ q, (part u q).bays = (part s q).bays ∧ (part u q).engines = (part s q).engines) (t : Thr) :
    partOf u t = partOf s t := by
  have hbay : partOfBay u = partOfBay s := by
    funext b
    unfold partOfBay
    exact congrArg (firstBelow 8) (funext fun q => by rw [(hp q).1])
  have heng : partOfEngine u = partOfEngine s := by
    funext b
    unfold partOfEngine
    exact congrArg (firstBelow 8) (funext fun q => by rw [(hp q).2])
  cases t with
  | core i => exact congrFun hbay _
  | adze j => exact congrFun heng _

theorem partOfSrc_congr (hp : ∀ q, (part u q).bays = (part s q).bays ∧ (part u q).engines = (part s q).engines) (x : Src) :
    partOfSrc u x = partOfSrc s x := by
  have hbay : partOfBay u = partOfBay s := by
    funext b
    unfold partOfBay
    exact congrArg (firstBelow 8) (funext fun q => by rw [(hp q).1])
  have heng : partOfEngine u = partOfEngine s := by
    funext b
    unfold partOfEngine
    exact congrArg (firstBelow 8) (funext fun q => by rw [(hp q).2])
  cases x with
  | core i => exact congrFun hbay _
  | engine i => exact congrFun heng _
  | bay i => exact congrFun hbay _

/-! ## Solo mode ends in the cores of the partition -/

theorem thrsOfCore_core {c : Nat} (h : t ∈ thrsOfCore c) : ∃ i : Fin 640, t = .core i ∧ i.val / 4 = c := by
  obtain ⟨k, hk, he⟩ := List.mem_filterMap.mp h
  have hk := List.mem_range.mp hk
  unfold thrOfIndex at he
  rw [if_neg Bool.false_ne_true] at he
  split at he
  · next hlt =>
    refine ⟨⟨4 * c + k, hlt⟩, (Option.some.inj he).symm, ?_⟩
    change (4 * c + k) / 4 = c
    omega
  · cases he

/-- What the end of solo mode leaves of a thread. -/
def unparked (b : Bool) (th : Thread) : Thread := if b then { th with soloParked := false } else th

theorem releaseSolo_thr (c : Nat) (x : Thr) : ∃ b, thr (releaseSolo c s) x = unparked b (thr s x) ∧ (b = true → x ∈ thrsOfCore c) := by
  unfold releaseSolo
  extract_lets k a
  split
  · exact ⟨false, rfl, fun h => absurd h Bool.false_ne_true⟩
  · have ha : ∃ b, thr a x = unparked b (thr s x) ∧ (b = true → x ∈ thrsOfCore c) := by
      refine forEach_keeps (fun y => ∃ b, thr y x = unparked b (thr s x) ∧ (b = true → x ∈ thrsOfCore c)) _ _ s
        ⟨false, rfl, fun h => absurd h Bool.false_ne_true⟩ fun t ht y hy => ?_
      obtain ⟨b, hb, hin⟩ := hy
      rw [thr_updThr]
      split
      · next hx =>
        subst hx
        refine ⟨true, ?_, fun _ => ht⟩
        rw [hb]
        cases b <;> rfl
      · exact ⟨b, hb, hin⟩
    obtain ⟨b, hb, hin⟩ := ha
    exact ⟨b, hb, hin⟩

/-- Solo mode ends in every core of the partition's bays. -/
def releaseAll (bays : BitVec 40) (s : State) : State :=
  forEach (bitsOf bays) (fun b acc => forEach (List.range 4) (fun c a => releaseSolo (4 * b + c) a) acc) s

theorem releaseAll_thr (bays : BitVec 40) (x : Thr) : ∃ b, thr (releaseAll bays s) x = unparked b (thr s x) ∧
    (b = true → ∃ i : Fin 640, x = .core i ∧ bays.getLsbD (i.val / 16) = true) := by
  have hstart : ∃ b, thr s x = unparked b (thr s x) ∧ (b = true → ∃ i : Fin 640, x = .core i ∧ bays.getLsbD (i.val / 16) = true) :=
    ⟨false, rfl, fun h => absurd h Bool.false_ne_true⟩
  refine forEach_keeps (fun y => ∃ b, thr y x = unparked b (thr s x) ∧
    (b = true → ∃ i : Fin 640, x = .core i ∧ bays.getLsbD (i.val / 16) = true)) _ _ s hstart fun k hk y hy => ?_
  refine forEach_keeps (fun y => ∃ b, thr y x = unparked b (thr s x) ∧
    (b = true → ∃ i : Fin 640, x = .core i ∧ bays.getLsbD (i.val / 16) = true)) _ _ y hy fun c hc z hz => ?_
  obtain ⟨b, hb, hin⟩ := hz
  obtain ⟨b', hb', hin'⟩ := releaseSolo_thr (s := z) (4 * k + c) x
  refine ⟨b || b', ?_, fun h => ?_⟩
  · rw [hb', hb]
    cases b <;> cases b' <;> rfl
  · rcases Bool.or_eq_true_iff.mp h with h | h
    · exact hin h
    · obtain ⟨i, hi, hdiv⟩ := thrsOfCore_core (hin' h)
      have hbit := (List.mem_filter.mp hk).2
      have hc := List.mem_range.mp hc
      refine ⟨i, hi, ?_⟩
      rw [show i.val / 16 = k by omega]
      exact hbit

/-! ## Sources close -/

theorem srcEnt_markSources_other (l : List Src) (o : Bool) {x : Src} (hx : x ∉ l) : srcEnt (markSources l o s) x = srcEnt s x := by
  refine forEach_keeps (fun y => srcEnt y x = srcEnt s x) _ _ s rfl fun a ha y hy => ?_
  have hne : ¬ x = a := by
    rintro rfl
    exact hx ha
  exact (srcEnt_updSrc y a _ x).trans ((if_neg hne).trans hy)

theorem mem_sourcesOf_bay {q : Nat} {b : Fin 40} (h : (part s q).bays.getLsbD b.val = true) : Src.bay b ∈ sourcesOf s q :=
  List.mem_append_left _ (List.mem_append_left _ (List.mem_map_of_mem (List.mem_filter.mpr ⟨List.mem_finRange b, h⟩)))

theorem mem_sourcesOf_core {q : Nat} {c : Fin 160} (h : (part s q).bays.getLsbD (c.val / 4) = true) : Src.core c ∈ sourcesOf s q :=
  List.mem_append_left _ (List.mem_append_right _ (List.mem_map_of_mem (List.mem_filter.mpr ⟨List.mem_finRange c, h⟩)))

theorem mem_sourcesOf_engine {q : Nat} {e : Fin 64} (h : (part s q).engines.getLsbD e.val = true) : Src.engine e ∈ sourcesOf s q :=
  List.mem_append_right _ (List.mem_map_of_mem (List.mem_filter.mpr ⟨List.mem_finRange e, h⟩))

/-- The partition holds the bays and engines that its map names. -/
structure Holds (s : State) (p : Fin 8) : Prop where
  bay : ∀ b : Fin 40, (part s p.val).bays.getLsbD b.val = true → partOfBay s b.val = some p.val
  engine : ∀ e : Fin 64, (part s p.val).engines.getLsbD e.val = true → partOfEngine s e.val = some p.val

theorem Holds.partOfSrc_mem (h : Holds s p) {x : Src} (hx : x ∈ sourcesOf s p.val) : partOfSrc s x = some p.val := by
  unfold sourcesOf at hx
  extract_lets bs cs es at hx
  rw [List.mem_append, List.mem_append] at hx
  rcases hx with (hx | hx) | hx
  · obtain ⟨b, hb, rfl⟩ := List.mem_map.mp hx
    exact h.bay b (by simpa using (List.mem_filter.mp hb).2)
  · obtain ⟨c, hc, rfl⟩ := List.mem_map.mp hx
    exact h.bay ⟨c.val / 4, by omega⟩ (by simpa using (List.mem_filter.mp hc).2)
  · obtain ⟨e, he, rfl⟩ := List.mem_map.mp hx
    exact h.engine e (by simpa using (List.mem_filter.mp he).2)

/-! ## Items and queues -/

theorem Keeps.requeue {e : Nat} (h : Keeps P s u) (hP : ∀ p ∈ ([.led, .ep, .pw] : List Piece), p ∈ P := by decide) :
    Keeps P s (Machine.requeue e u) := by
  refine h.via ?_ hP
  have h := keeps_refl [.led, .ep, .pw] u
  unfold Machine.requeue
  extract_lets x a b c
  have ha : Keeps [.led, .ep, .pw] u a := h.abandonReads
  have hb : Keeps [.led, .ep, .pw] u b := by
    change Keeps _ u (match x.resv with
      | some t => Machine.dispVote t false a
      | none => a)
    split
    · exact ha.dispVote
    · exact ha
  have hc : Keeps [.led, .ep, .pw] u c := hb.updEntry
  split
  · exact hc
  · exact Keeps.ite hc.endItem hc

theorem Wired.requeue {e : Nat} (h : Wired s u) : Wired s (Machine.requeue e u) := by
  unfold Machine.requeue
  extract_lets x a b c
  have ha : Wired s a := by
    change Wired s (Machine.abandonReads e u)
    unfold Machine.abandonReads
    exact h.updEp
  have hb : Wired s b := by
    change Wired s (match x.resv with
      | some t => Machine.dispVote t false a
      | none => a)
    split
    · exact ha.dispVote
    · exact ha
  have hc : Wired s c := hb.updEntry
  split
  · exact hc
  · exact Wired.ite hc.endItem hc

theorem keeps_downItems (q : Nat) (code : BitVec 8) : Keeps [.led, .ep, .pw] s (downItems q code s) := by
  refine Keeps.each (keeps_refl _ s) fun e x hx => ?_
  exact Keeps.ite hx.endItem (Keeps.ite hx.requeue hx)

theorem wired_downItems (q : Nat) (code : BitVec 8) : Wired s (downItems q code s) :=
  Wired.each (wired_refl s) fun _ _ hx => Wired.ite hx.endItem (Wired.ite hx.requeue hx)

theorem redirect_spec (q : Nat) (hq : (part s q).st ≠ .standby) : Composed s (redirect q s) ∧ part (redirect q s) q = part s q ∧
    Keeps [.queue, .part, .thr, .wake, .log] s (redirect q s) := by
  unfold redirect
  split
  · exact ⟨composed_refl s, rfl, keeps_refl _ s⟩
  · next r hr =>
    split
    · exact ⟨composed_refl s, rfl, keeps_refl _ s⟩
    · next hst =>
      have hne : q ≠ r.val := fun he => hst (he ▸ hq)
      extract_lets a b
      have ha : Keeps [.queue] s a := Keeps.each (keeps_refl _ s) fun _ _ hx => Keeps.ite hx.updQueue hx
      have hb : Keeps [.queue, .part] s b := (keeps_mono (by decide) ha).updPart
      have hn : Keeps [.thr, .wake, .log] b (notice r.val 8 (BitVec.ofNat 64 q) b) := (keeps_refl _ b).notice
      refine ⟨((composed_refl s).keeps hb).trans (composed_notice _ _ _), ?_, keeps_trans (keeps_mono (by decide) hb) (keeps_mono (by decide) hn)⟩
      have hpart : part (notice r.val 8 (BitVec.ofNat 64 q) b) q = part b q := by
        unfold part
        rw [show (notice r.val 8 (BitVec.ofNat 64 q) b).part = b.part from hn .part (by decide)]
      rw [hpart, part_updPart, if_neg hne]
      unfold part
      rw [show a.part = s.part from ha .part (by decide)]

theorem ready_of_keeps (h : Keeps P s u) (hp : Piece.pw ∉ P := by decide) : u.pw.ready = s.pw.ready := by
  have e : { u.pw with wake := [], routerHeld := [] } = { s.pw with wake := [], routerHeld := [] } := h .pw hp
  have e' := congrArg Power.ready e
  exact e'

/-! ## Steps 1 to 5 of R242 -/

/-- What a partition that goes DOWN leaves. -/
structure WentDown (s : State) (p : Fin 8) (code : BitVec 8) (u : State) : Prop where
  st : (part u p.val).st = .down
  cause : (part u p.val).cause = code
  downs : (part u p.val).downs = satInc (part s p.val).downs
  started : (part u p.val).started = false
  hold : (part u p.val).hold = (part s p.val).hold
  ready : u.pw.ready.part.getLsbD p.val = false
  closed : ∀ x ∈ sourcesOf s p.val, (srcEnt u x).isOpen = false
  others : ∀ x, x ∉ sourcesOf s p.val → srcEnt u x = srcEnt s x
  threads : Holds s p → ∀ t, partOf s t = some p.val → (thr u t).g = (thr s t).g ∧ (thr u t).stores = [] ∧ (thr u t).outst = [] ∧
    (thr u t).resv = none ∧ ((thr s t).run ≠ .notStarted → (thr u t).run = .stopped)
  kept : Holds s p → ∀ t, partOf s t ≠ some p.val → (thr u t).calm = (thr s t).calm

/-- The cause of a partition's going DOWN as its entry keeps it. -/
def downCause (code : BitVec 8) (det : BitVec 6) (unit : Option Src) (x : Part) : Part :=
  { x with cause := code, detBay := det, downs := satInc x.downs, downUnit := unit, salvaged := false, reason := 1, startFailed := false }

/-- Its sources close and its threads halt. -/
def haltPart (q : Nat) (s : State) : State :=
  let ts := threadsOf s q
  let s := markSources (sourcesOf s q) false s
  forEach ts haltThread (releaseAll (part s q).bays s)

/-- What events and retained state its threads have waiting goes. -/
def forgetPart (q : Nat) (s : State) : State :=
  updPw (fun w => { w with
    wake := w.wake.filter (fun e => match thrOfKey e.1 with | some t => partOf s t ≠ some q | none => true)
    routerHeld := w.routerHeld.filter (fun e => match thrOfKey e.1 with | some t => partOf s t ≠ some q | none => true)
    retained := w.retained.filter (fun e => match thrOfKey e.1 with | some t => partOf s t ≠ some q | none => true) }) s

theorem keeps_forgetPart (q : Nat) : Keeps [.pw, .wake] s (forgetPart q s) := by
  intro p hp
  cases p <;> simp_all [Piece.same, forgetPart, updPw]

/-- It is DOWN and no longer ready, its items end, and the mode follows. -/
def markDown (q : Nat) (code : BitVec 8) (s : State) : State :=
  let s := updPart q (fun x => { x with st := .down, started := false }) s
  let bs := (part s q).bays
  settleMode (downItems q code (setReady (fun r => { r with part := setBit r.part q false, bay := r.bay &&& ~~~bs }) s))

theorem downSteps_eq (q : Nat) (code : BitVec 8) (det : BitVec 6) (unit : Option Src) (w : Word) : downSteps q code det unit w s =
    wrightEvent 2 (at' (BitVec.ofNat 3 q) 0 ||| at' code 8 ||| at' det 16) w
      (if (part s q).st = .active then redirect q (markDown q code (forgetPart q (haltPart q (updPart q (downCause code det unit) s))))
      else markDown q code (forgetPart q (haltPart q (updPart q (downCause code det unit) s)))) := rfl

theorem haltPart_spec (p : Fin 8) :
    (∀ x ∈ sourcesOf s p.val, (srcEnt (haltPart p.val s) x).isOpen = false) ∧
    (∀ x, x ∉ sourcesOf s p.val → srcEnt (haltPart p.val s) x = srcEnt s x) ∧
    (Holds s p → (∀ t, partOf s t = some p.val → (thr (haltPart p.val s) t).g = (thr s t).g ∧ (thr (haltPart p.val s) t).stores = [] ∧
      (thr (haltPart p.val s) t).outst = [] ∧ (thr (haltPart p.val s) t).resv = none ∧
      ((thr s t).run ≠ .notStarted → (thr (haltPart p.val s) t).run = .stopped)) ∧
    ∀ t, partOf s t ≠ some p.val → (thr (haltPart p.val s) t).calm = (thr s t).calm) ∧ (haltPart p.val s).part = s.part := by
  obtain ⟨a, ha⟩ : ∃ a, a = markSources (sourcesOf s p.val) false s := ⟨_, rfl⟩
  have hka : Keeps [.srcs] s a := by
    rw [ha]
    exact (keeps_refl _ s).markSources
  have hparta : a.part = s.part := hka .part (by decide)
  have hthra (x : Thr) : thr a x = thr s x := congrArg (fun l => look Thread.reset l (thrKey x)) (hka .thr (by decide))
  obtain ⟨b, hb⟩ : ∃ b, b = releaseAll (part a p.val).bays a := ⟨_, rfl⟩
  have hkb : Keeps [.thr, .core] a b := by
    rw [hb]
    exact Keeps.each (keeps_refl _ a) fun _ _ hx => Keeps.each hx fun _ _ hy => hy.releaseSolo
  have hbays : (part a p.val).bays = (part s p.val).bays := by
    unfold part
    rw [hparta]
  have hthrb (h : Holds s p) (x : Thr) : ∃ c, thr b x = unparked c (thr s x) ∧ (c = true → partOf s x = some p.val) := by
    obtain ⟨c, hc, hin⟩ := releaseAll_thr (s := a) (part a p.val).bays x
    refine ⟨c, by rw [hb, hc, hthra], fun htrue => ?_⟩
    obtain ⟨i, rfl, hbit⟩ := hin htrue
    rw [hbays] at hbit
    exact h.bay ⟨i.val / 16, by omega⟩ hbit
  obtain ⟨u, hu⟩ : ∃ u, u = forEach (threadsOf s p.val) haltThread b := ⟨_, rfl⟩
  have hku : Keeps [.thr, .bay, .slice, .eng, .mem, .old, .poison, .fresh, .wake, .log] b u := by
    rw [hu]
    exact Keeps.each (keeps_refl _ b) fun _ _ hx => hx.haltThread
  have hhalt : haltPart p.val s = u := by
    rw [hu, hb, ha]
    rfl
  obtain ⟨hin, hout⟩ := haltAll_spec (s := b) (threadsOf s p.val)
  rw [← hu] at hin hout
  have hsrc (x : Src) : srcEnt u x = srcEnt a x := by
    unfold srcEnt
    rw [show u.srcs = b.srcs from hku .srcs (by decide), show b.srcs = a.srcs from hkb .srcs (by decide)]
  rw [hhalt]
  refine ⟨fun x hx => ?_, fun x hx => ?_, fun h => ⟨fun t ht => ?_, fun t ht => ?_⟩, ?_⟩
  · rw [hsrc, ha]
    exact Bool.eq_false_iff.mpr fun ho => (isOpen_markSources _ ho).1 hx
  · rw [hsrc, ha, srcEnt_markSources_other _ _ hx]
  · obtain ⟨c, hc, -⟩ := hthrb h t
    have hrun : (thr b t).run = (thr s t).run := by
      rw [hc]
      cases c <;> rfl
    have hg : (thr b t).g = (thr s t).g := by
      rw [hc]
      cases c <;> rfl
    by_cases hmem : t ∈ threadsOf s p.val
    · have hh := hin t hmem
      exact ⟨hh.g.trans hg, hh.stores, hh.outst, hh.resv, fun hn => hh.run (by rw [hrun]; exact hn)⟩
    · have hreset : thr s t = Thread.reset := by
        by_contra hne
        exact hmem (mem_threadsOf hne ht)
      have hbt : thr b t = Thread.reset := by
        rw [hc, hreset]
        cases c <;> rfl
      obtain ⟨hcalm, hresv⟩ := hout t hmem
      rw [hbt] at hcalm hresv
      have hs := congrArg Thread.stores hcalm
      have ho := congrArg Thread.outst hcalm
      have hg' := congrArg Thread.g hcalm
      refine ⟨?_, hs, ho, hresv rfl, fun hn => absurd (by rw [hreset]; rfl) hn⟩
      rw [hreset]
      exact hg'
  · have hmem : t ∉ threadsOf s p.val := fun hm => ht (partOf_of_mem hm)
    obtain ⟨c, hc, hpart⟩ := hthrb h t
    have hfalse : c = false := Bool.eq_false_iff.mpr fun htrue => ht (hpart htrue)
    rw [(hout t hmem).1, hc, hfalse]
    rfl
  · rw [show u.part = b.part from hku .part (by decide), show b.part = a.part from hkb .part (by decide), hparta]

theorem markDown_spec (q : Nat) (code : BitVec 8) (hq : q < 8) : Composed s (markDown q code s) ∧ (markDown q code s).srcs = s.srcs ∧
    part (markDown q code s) q = { part s q with st := .down, started := false } ∧ (markDown q code s).pw.ready.part.getLsbD q = false := by
  obtain ⟨a, ha⟩ : ∃ a, a = updPart q (fun x => { x with st := .down, started := false }) s := ⟨_, rfl⟩
  obtain ⟨b, hb⟩ : ∃ b, b = setReady (fun r => { r with part := setBit r.part q false, bay := r.bay &&& ~~~(part a q).bays }) a := ⟨_, rfl⟩
  obtain ⟨c, hc⟩ : ∃ c, c = downItems q code b := ⟨_, rfl⟩
  have hu : markDown q code s = settleMode c := by
    rw [hc, hb, ha]
    rfl
  have hka : Keeps [.part] s a := by
    rw [ha]
    exact (keeps_refl _ s).updPart
  have hkb : Keeps [.ridge, .bw, .xing, .out, .pw, .ep, .pba] a b := by
    rw [hb]
    exact (keeps_refl _ a).setReady
  have hkc : Keeps [.led, .ep, .pw] b c := by
    rw [hc]
    exact keeps_downItems q code
  have hwc : Wired b c := by
    rw [hc]
    exact wired_downItems q code
  have hku : Keeps [.thr, .ridge, .bw, .xing, .out, .pw, .wake, .ep, .pba, .wr, .log] c (settleMode c) := (keeps_refl _ c).settleMode
  rw [hu]
  refine ⟨((((composed_refl s).keeps hka).keeps hkb).keeps hkc).trans composed_settleMode, ?_, ?_, ?_⟩
  · rw [show (settleMode c).srcs = c.srcs from hku .srcs (by decide), show c.srcs = b.srcs from hkc .srcs (by decide),
      show b.srcs = a.srcs from hkb .srcs (by decide), show a.srcs = s.srcs from hka .srcs (by decide)]
  · have hpart : part (settleMode c) q = part a q := by
      unfold part
      rw [show (settleMode c).part = c.part from hku .part (by decide), show c.part = b.part from hkc .part (by decide),
        show b.part = a.part from hkb .part (by decide)]
    rw [hpart, ha, part_updPart, if_pos rfl]
  · rw [ready_settleMode, hwc.standing Power.ready, hb, ready_setReady]
    exact bit_setBit _ _ hq

theorem downSteps_down (p : Fin 8) (code : BitVec 8) (det : BitVec 6) (unit : Option Src) (w : Word) :
    WentDown s p code (downSteps p.val code det unit w s) := by
  obtain ⟨a, ha⟩ : ∃ a, a = updPart p.val (downCause code det unit) s := ⟨_, rfl⟩
  have hparta (q : Nat) : part a q = if q = p.val then downCause code det unit (part s p.val) else part s q := by
    rw [ha, part_updPart]
  have hsame (q : Nat) : (part a q).bays = (part s q).bays ∧ (part a q).engines = (part s q).engines := by
    rw [hparta]
    split
    · next hq =>
      rw [hq]
      exact ⟨rfl, rfl⟩
    · exact ⟨rfl, rfl⟩
  have hsources : sourcesOf a p.val = sourcesOf s p.val := by
    unfold sourcesOf
    rw [(hsame _).1, (hsame _).2]
  have hholds (h : Holds s p) : Holds a p := by
    refine ⟨fun b hb => ?_, fun e he => ?_⟩
    · rw [(hsame _).1] at hb
      exact (partOfSrc_congr hsame (.bay b)).trans (h.bay b hb)
    · rw [(hsame _).2] at he
      exact (partOfSrc_congr hsame (.engine e)).trans (h.engine e he)
  have hka : Keeps [.part] s a := by
    rw [ha]
    exact (keeps_refl _ s).updPart
  have hsrca (x : Src) : srcEnt a x = srcEnt s x := by
    unfold srcEnt
    rw [show a.srcs = s.srcs from hka .srcs (by decide)]
  have hthra (x : Thr) : thr a x = thr s x := congrArg (fun l => look Thread.reset l (thrKey x)) (hka .thr (by decide))
  obtain ⟨hclosed, hothers, hthreads, hpartb⟩ := haltPart_spec (s := a) p
  obtain ⟨b, hb⟩ : ∃ b, b = forgetPart p.val (haltPart p.val a) := ⟨_, rfl⟩
  have hkb : Keeps [.pw, .wake] (haltPart p.val a) b := by
    rw [hb]
    exact keeps_forgetPart _
  obtain ⟨hcomp, hsrcs, hpartc, hready⟩ := markDown_spec (s := b) p.val code p.isLt
  obtain ⟨c, hc⟩ : ∃ c, c = markDown p.val code b := ⟨_, rfl⟩
  rw [← hc] at hcomp hsrcs hpartc hready
  obtain ⟨hcompd, hpartd, hkd⟩ := redirect_spec (s := c) p.val (by rw [hpartc]; exact fun he => by cases he)
  obtain ⟨d, hd⟩ : ∃ d, d = if (part s p.val).st = .active then redirect p.val c else c := ⟨_, rfl⟩
  have hd' : Composed c d ∧ part d p.val = part c p.val ∧ Keeps [.queue, .part, .thr, .wake, .log] c d := by
    rw [hd]
    split
    · exact ⟨hcompd, hpartd, hkd⟩
    · exact ⟨composed_refl c, rfl, keeps_refl _ c⟩
  obtain ⟨hcompd, hpartd, hkd⟩ := hd'
  obtain ⟨u, hu⟩ : ∃ u, u = downSteps p.val code det unit w s := ⟨_, rfl⟩
  have hku : Keeps [.log] d u := by
    rw [hu, downSteps_eq, ← ha, ← hb, ← hc, ← hd]
    exact (keeps_refl _ d).wrightEvent
  have hpartu : part u p.val = { downCause code det unit (part s p.val) with st := .down, started := false } := by
    have e : part u p.val = part d p.val := by
      unfold part
      rw [show u.part = d.part from hku .part (by decide)]
    have eb : part b p.val = part a p.val := by
      unfold part
      rw [show b.part = (haltPart p.val a).part from hkb .part (by decide), hpartb]
    rw [e, hpartd, hpartc, eb, hparta, if_pos rfl]
  have hsrcu (x : Src) : srcEnt u x = srcEnt (haltPart p.val a) x := by
    unfold srcEnt
    rw [show u.srcs = d.srcs from hku .srcs (by decide), show d.srcs = c.srcs from hkd .srcs (by decide), hsrcs,
      show b.srcs = (haltPart p.val a).srcs from hkb .srcs (by decide)]
  have hcompu : Composed (haltPart p.val a) u := ((((composed_refl _).keeps hkb).trans hcomp).trans hcompd).keeps hku
  rw [← hu]
  refine ⟨?_, ?_, ?_, ?_, ?_, ?_, fun x hx => ?_, fun x hx => ?_, fun h t ht => ?_, fun h t ht => ?_⟩
  · rw [hpartu]
  · rw [hpartu]
    rfl
  · rw [hpartu]
    rfl
  · rw [hpartu]
  · rw [hpartu]
    rfl
  · rw [ready_of_keeps hku, ready_of_keeps hkd]
    exact hready
  · rw [hsrcu]
    exact hclosed x (by rw [hsources]; exact hx)
  · rw [hsrcu, hothers x (by rw [hsources]; exact hx), hsrca]
  · obtain ⟨hg, hs, ho, hr, hrun⟩ := (hthreads (hholds h)).1 t ((partOf_congr hsame t).trans ht)
    obtain ⟨hcalm, hresv⟩ := hcompu t
    have hg' := congrArg Thread.g hcalm
    have hs' := congrArg Thread.stores hcalm
    have ho' := congrArg Thread.outst hcalm
    have hrun' := congrArg Thread.run hcalm
    rw [hthra] at hg hrun
    exact ⟨Eq.trans hg' hg, Eq.trans hs' hs, Eq.trans ho' ho, hresv hr, fun hn => Eq.trans hrun' (hrun hn)⟩
  · rw [(hcompu t).1, (hthreads (hholds h)).2 t (by rw [partOf_congr hsame]; exact ht), hthra]

theorem reportCoherence_down (code : BitVec 8) (det : BitVec 6) (unit : Option Src)
    (hst : (part s p.val).st = .active ∨ (part s p.val).st = .standby) : WentDown s p code (reportCoherence p.val code det unit s) := by
  unfold reportCoherence
  extract_lets w openAgain
  rcases hst with hst | hst
  · rw [hst]
    exact downSteps_down p code det unit w
  · rw [hst]
    exact downSteps_down p code det unit w

/-- An agent of the partition has waited too long. -/
theorem cohTimeout_down {a : Agent} {l : BitVec 42} (hst : (part s p.val).st = .active ∨ (part s p.val).st = .standby)
    (ha : partOfAgent s a = some p.val) (hw : ∃ w ∈ waitsOf s a l, overdue s p.val w = true) :
    ∃ u, exec (.cohTimeout a l) s = .next u ∧ WentDown s p 2 u := by
  obtain ⟨w, hfind⟩ : ∃ w, (waitsOf s a l).find? (overdue s p.val) = some w :=
    Option.isSome_iff_exists.mp (List.find?_isSome.mpr hw)
  obtain ⟨det, hdet⟩ : ∃ det, exec (.cohTimeout a l) s = .next (reportCoherence p.val 2 det w.2 s) := by
    change ∃ det, execCohTimeout a l s = _
    unfold execCohTimeout
    rw [ha]
    dsimp only
    rw [hfind]
    exact ⟨_, rfl⟩
  exact ⟨_, hdet, reportCoherence_down 2 det w.2 hst⟩

theorem cohTimeout_waits {a : Agent} {l : BitVec 42} (ha : partOfAgent s a = some p.val)
    (hw : ∀ w ∈ waitsOf s a l, overdue s p.val w = false) : exec (.cohTimeout a l) s = .next s := by
  have hfind : (waitsOf s a l).find? (overdue s p.val) = none :=
    List.find?_eq_none.mpr fun w hm => by rw [hw w hm]; exact Bool.false_ne_true
  change execCohTimeout a l s = _
  unfold execCohTimeout
  rw [ha]
  dsimp only
  rw [hfind]

theorem cohTimeout_completes (a : Agent) (l : BitVec 42) : ∃ u, exec (.cohTimeout a l) s = .next u := by
  change ∃ u, execCohTimeout a l s = _
  unfold execCohTimeout
  split
  · exact ⟨_, rfl⟩
  · split
    · exact ⟨_, rfl⟩
    · exact ⟨_, rfl⟩

/-- A bay's own request is among what the bay waits for. -/
theorem mem_waitsOf_req {b : Fin 40} {r : CReq} (hr : (bay s b.val).reqs = [r]) (hb : r.backoff = false) :
    ∃ w ∈ waitsOf s (.bay b) r.line, w.1 = r.since := by
  refine ⟨(r.since, match bitsOf (r.awaited &&& ~~~r.acked) with
        | x :: _ => if r.haveData then baySrc x else baySrc r.home.val
        | [] => baySrc r.home.val), List.mem_append_left _ (List.mem_append_right _ ?_), rfl⟩
  rw [hr]
  refine List.mem_map.mpr ⟨r, List.mem_filter.mpr ⟨List.mem_singleton.mpr rfl, ?_⟩, rfl⟩
  simp [hb]

/-- Settles O30. -/
theorem partitionDown : Obligations.PartitionDown := by
  refine ⟨fun s p code det unit a l => ⟨⟨_, rfl⟩, cohTimeout_completes a l⟩, ?_⟩
  intro s p code det unit hst hbays hengines down
  have h : Holds s p := ⟨hbays, hengines⟩
  have hdown (u : State) (code : BitVec 8) (hu : WentDown s p code u) : down u code := by
    refine ⟨hu.st, hu.cause, hu.downs, hu.started, hu.ready, fun b hb => hu.closed _ (mem_sourcesOf_bay hb),
      fun c hc => hu.closed _ (mem_sourcesOf_core hc), fun e he => hu.closed _ (mem_sourcesOf_engine he),
      fun x hx => hu.others x fun hm => hx (h.partOfSrc_mem hm), hu.threads h, hu.kept h⟩
  have htimeout {a : Agent} {l : BitVec 42} (ha : partOfAgent s a = some p.val)
      (hw : ∃ w ∈ waitsOf s a l, overdue s p.val w = true) : ∃ u, exec (.cohTimeout a l) s = .next u ∧ down u 2 := by
    obtain ⟨u, hrun, hu⟩ := cohTimeout_down hst ha hw
    exact ⟨u, hrun, hdown u 2 hu⟩
  refine ⟨⟨_, rfl, hdown _ _ (reportCoherence_down code det unit hst)⟩, fun b r hb hr hback hlate => ?_,
    fun a l ha => ⟨htimeout ha, cohTimeout_waits ha⟩⟩
  obtain ⟨w, hw, hsince⟩ := mem_waitsOf_req hr hback
  refine htimeout (h.bay b hb) ⟨w, hw, decide_eq_true ?_⟩
  rw [hsince]
  exact hlate

end Sys2Proof.Machine
end

section
/-! Commands that change partitions (R31 to R36, R202, R242, R428). -/
namespace Sys2Proof.Machine
set_option Elab.async false
variable {s t u : State} {m : Mbox} {P : List Piece}

/-! ## What the moves leave unchanged -/

theorem Keeps.loseResvIf {f : BitVec 42 → Bool} (h : Keeps P s u)
    (hP : ∀ p ∈ ([.thr, .bay, .slice, .eng] : List Piece), p ∈ P := by decide) : Keeps P s (Machine.loseResvIf f u) := by
  refine h.via ?_ hP
  have h := keeps_refl [.thr, .bay, .slice, .eng] u
  unfold Machine.loseResvIf
  dsimp only
  refine Keeps.each h fun _ _ hx => ?_
  split
  · split
    · exact hx
    · split
      · exact hx.loseResv
      · exact hx
  · exact hx

theorem Keeps.dropCopiesIf {f : BitVec 42 → Bool} (h : Keeps P s u)
    (hP : ∀ p ∈ ([.thr, .core, .bay, .slice, .eng, .net, .ereqs] : List Piece), p ∈ P := by decide) :
    Keeps P s (Machine.dropCopiesIf f u) := by
  refine h.via ?_ hP
  have k : Keeps [.thr, .core, .bay, .slice, .eng, .net, .ereqs] u (Machine.loseResvIf f u) := (keeps_refl _ u).loseResvIf
  obtain ⟨v, hv⟩ : ∃ v, v = Machine.loseResvIf f u := ⟨_, rfl⟩
  rw [← hv] at k
  refine keeps_trans k ?_
  unfold Machine.dropCopiesIf
  rw [← hv]
  intro p hp
  cases p <;> simp_all [Piece.same, Machine.forgetLines]

theorem Keeps.cleanRanges {gs : List (BitVec 13)} (h : Keeps P s u)
    (hP : ∀ p ∈ ([.old, .thr, .core, .bay, .slice, .eng, .net, .ereqs] : List Piece), p ∈ P := by decide) :
    Keeps P s (Machine.cleanRanges gs u) := by
  refine h.via ?_ hP
  have h := keeps_refl [.old, .thr, .core, .bay, .slice, .eng, .net, .ereqs] u
  unfold Machine.cleanRanges
  dsimp only
  refine Keeps.dropCopiesIf ?_
  refine Keeps.each h fun _ _ hx => ?_
  split
  · exact hx.cleanLine
  · exact hx

theorem Keeps.clearArea {lo hi : Nat} (h : Keeps P s u) (hP : ∀ p ∈ ([.mem, .poison] : List Piece), p ∈ P := by decide) :
    Keeps P s (Machine.clearArea lo hi u) :=
  h.via (l := [.mem, .poison]) (fun p hp => by cases p <;> simp_all [Piece.same, Machine.clearArea]) hP

theorem Keeps.dropMessages {q : Nat} (h : Keeps P s u) (hP : ∀ p ∈ ([.net, .ereqs, .downDrop] : List Piece), p ∈ P := by decide) :
    Keeps P s (Machine.dropMessages q u) :=
  h.via (l := [.net, .ereqs, .downDrop]) (fun p hp => by cases p <;> simp_all [Piece.same, Machine.dropMessages]) hP

theorem Keeps.resetBay {b : Nat} (h : Keeps P s u)
    (hP : ∀ p ∈ ([.bay, .core, .pw, .slice, .mem, .poison] : List Piece), p ∈ P := by decide) : Keeps P s (Machine.resetBay b u) := by
  refine h.via ?_ hP
  have h := keeps_refl [.bay, .core, .pw, .slice, .mem, .poison] u
  unfold Machine.resetBay
  dsimp only
  exact ((Keeps.each h.updBay fun _ _ hx => hx.updCore.updPw).updSlice).clearArea

/-- A thread of the bays and engines named. -/
def among (bays : BitVec 40) (engines : BitVec 64) (k : Nat) : Bool :=
  match thrOfKey k with
  | some (.core i) => bays.getLsbD (i.val / 16)
  | some (.adze j) => engines.getLsbD (j.val / 8)
  | none => false

/-- What the router and the power controller hold for some threads goes. -/
def forgetWakes (mine : Nat → Bool) (s : State) : State :=
  updPw (fun w => { w with
    retained := w.retained.filter (fun e => !mine e.1), wake := w.wake.filter (fun e => !mine e.1)
    routerHeld := w.routerHeld.filter (fun e => !mine e.1) }) s

theorem keeps_forgetWakes (mine : Nat → Bool) : Keeps [.pw, .wake] s (forgetWakes mine s) := by
  intro p hp
  cases p <;> simp_all [Piece.same, forgetWakes, updPw]

theorem keeps_resetThreads (mine : Nat → Bool) : Keeps [.thr, .led] s (resetThreads mine s) := by
  intro p hp
  cases p <;> simp_all [Piece.same, resetThreads]

/-- One device mailbox is reset. -/
def resetBox (m : Nat) (s : State) : State :=
  if h : m < 16 then updBox (.dev ⟨m, h⟩) (fun b => { MboxSt.reset with page := b.page, groupsOff := b.groupsOff }) s else s

theorem resetUnits_eq (bays : BitVec 40) (engines : BitVec 64) (dmbox : BitVec 16) : resetUnits bays engines dmbox s =
    forEach (bitsOf dmbox) resetBox (forEach (bitsOf engines) resetEngine (forEach (bitsOf bays) resetBay
      (forgetWakes (among bays engines) (resetThreads (among bays engines) s)))) := rfl

/-- The units are reset one by one once their threads are. -/
theorem keeps_resetUnits_threads (bays : BitVec 40) (engines : BitVec 64) (dmbox : BitVec 16) :
    Keeps [.pw, .wake, .bay, .core, .slice, .mem, .poison, .eng, .wr] (resetThreads (among bays engines) s)
      (resetUnits bays engines dmbox s) := by
  rw [resetUnits_eq]
  have h : Keeps [.pw, .wake, .bay, .core, .slice, .mem, .poison, .eng, .wr] (resetThreads (among bays engines) s)
      (forgetWakes (among bays engines) (resetThreads (among bays engines) s)) := keeps_mono (by decide) (keeps_forgetWakes _)
  refine Keeps.each (Keeps.each (Keeps.each h fun _ _ hx => hx.resetBay) fun _ _ hx => hx.updEngine) fun _ _ hx => ?_
  unfold resetBox
  split
  · exact hx.updBox
  · exact hx

theorem Keeps.resetUnits {bays : BitVec 40} {engines : BitVec 64} {dmbox : BitVec 16} (h : Keeps P s u)
    (hP : ∀ p ∈ ([.thr, .led, .pw, .wake, .bay, .core, .slice, .mem, .poison, .eng, .wr] : List Piece), p ∈ P := by decide) :
    Keeps P s (Machine.resetUnits bays engines dmbox u) :=
  h.via (keeps_trans (keeps_mono (by decide) (keeps_resetThreads _)) (keeps_mono (by decide) (keeps_resetUnits_threads bays engines dmbox))) hP

theorem look_filter_key {α : Type} {d : α} (mine : Nat → Bool) (t : Tbl α) {k : Nat} (hk : mine k = true) :
    look d (t.filter (fun e => !mine e.1)) k = d := by
  induction t with
  | nil => rfl
  | cons e t ih =>
    by_cases he : mine e.1 = true
    · rw [List.filter_cons_of_neg (by simp [he])]
      exact ih
    · rw [List.filter_cons_of_pos (by simp [he])]
      obtain ⟨i, v⟩ := e
      exact (if_neg (by rintro rfl; exact he hk)).trans ih

/-- A thread of the units reset is as at reset. -/
theorem thr_resetUnits {bays : BitVec 40} {engines : BitVec 64} {dmbox : BitVec 16} {x : Thr}
    (hx : among bays engines (thrKey x) = true) : thr (resetUnits bays engines dmbox s) x = Thread.reset := by
  have e : thr (resetUnits bays engines dmbox s) x = thr (resetThreads (among bays engines) s) x :=
    congrArg (fun l => look Thread.reset l (thrKey x)) (keeps_resetUnits_threads bays engines dmbox .thr (by decide))
  rw [e]
  exact look_filter_key (among bays engines) s.thr hx

theorem among_core {bays : BitVec 40} {engines : BitVec 64} {i : Fin 640} (h : bays.getLsbD (i.val / 16) = true) :
    among bays engines (thrKey (.core i)) = true := by
  unfold among
  rw [thrOfKey_thrKey]
  exact h

theorem among_adze {bays : BitVec 40} {engines : BitVec 64} {j : Fin 512} (h : engines.getLsbD (j.val / 8) = true) :
    among bays engines (thrKey (.adze j)) = true := by
  unfold among
  rw [thrOfKey_thrKey]
  exact h

/-! ## Lines of some ranges are written back -/

/-- A DRAM line of one of the ranges. -/
def ranged (gs : List (BitVec 13)) (l : BitVec 42) : Bool := isDramLine l && gs.contains ((lineAddr l).extractLsb' 30 13)

/-- The dirty lines of the ranges are written back. -/
def cleanEntry (gs : List (BitVec 13)) (e : Nat × Option (BitVec 512 × Bool)) (s : State) : State :=
  if ranged gs (BitVec.ofNat 42 e.1) then cleanLine (BitVec.ofNat 42 e.1) s else s

theorem cleanRanges_eq (gs : List (BitVec 13)) :
    cleanRanges gs s = dropCopiesIf (ranged gs) (forEach s.old (cleanEntry gs) s) := rfl

theorem isDirty_cleanLine_other {l k : BitVec 42} (h : isDirty (cleanLine k s) l = true) : l ≠ k ∧ isDirty s l = true := by
  by_cases hl : l = k
  · subst hl
    rw [isDirty_cleanLine] at h
    cases h
  · refine ⟨hl, ?_⟩
    have hn : l.toNat ≠ k.toNat := fun e => hl (BitVec.eq_of_toNat_eq e)
    have e : isDirty (cleanLine k s) l = isDirty s l := congrArg Option.isSome (look_put_other none s.old none hn)
    rw [← e]
    exact h

/-- What is still dirty was dirty before and is no line of the ranges that the list names. -/
theorem isDirty_cleanEntries {gs : List (BitVec 13)} {l : BitVec 42} (es : Tbl (Option (BitVec 512 × Bool)))
    (h : isDirty (forEach es (cleanEntry gs) s) l = true) :
    isDirty s l = true ∧ ∀ e ∈ es, ranged gs (BitVec.ofNat 42 e.1) = true → l ≠ BitVec.ofNat 42 e.1 := by
  induction es generalizing s with
  | nil => exact ⟨h, fun e he => absurd he List.not_mem_nil⟩
  | cons a es ih =>
    rw [forEach_cons] at h
    obtain ⟨hdirty, hrest⟩ := ih h
    unfold cleanEntry at hdirty
    split at hdirty
    · obtain ⟨hne, hs⟩ := isDirty_cleanLine_other hdirty
      refine ⟨hs, fun e he hr => ?_⟩
      rcases List.mem_cons.mp he with rfl | he
      · exact hne
      · exact hrest e he hr
    · next hnot =>
      refine ⟨hdirty, fun e he hr => ?_⟩
      rcases List.mem_cons.mp he with rfl | he
      · exact absurd hr hnot
      · exact hrest e he hr

/-- No line of the ranges is dirty. -/
theorem isDirty_cleanRanges {gs : List (BitVec 13)} {l : BitVec 42} (hl : ranged gs l = true) : isDirty (cleanRanges gs s) l = false := by
  refine Bool.eq_false_iff.mpr fun hd => ?_
  rw [cleanRanges_eq] at hd
  have hk := (keeps_refl [.thr, .core, .bay, .slice, .eng, .net, .ereqs] (forEach s.old (cleanEntry gs) s)).dropCopiesIf (f := ranged gs)
  rw [isDirty_of_keeps hk l] at hd
  obtain ⟨hs, hnot⟩ := isDirty_cleanEntries s.old hd
  have hmem : (l.toNat, look none s.old l.toNat) ∈ s.old := look_mem fun e => by
    unfold isDirty at hs
    rw [e] at hs
    cases hs
  have hnat : BitVec.ofNat 42 l.toNat = l := BitVec.eq_of_toNat_eq (by simp)
  refine hnot _ hmem ?_ ?_
  · change ranged gs (BitVec.ofNat 42 l.toNat) = true
    rw [hnat]
    exact hl
  · change l = BitVec.ofNat 42 l.toNat
    rw [hnat]

theorem ranged_of_mem {gs : List (BitVec 13)} {l : BitVec 42} (hd : isDramLine l = true)
    (hg : (lineAddr l).extractLsb' 30 13 ∈ gs) : ranged gs l = true := by
  unfold ranged
  rw [hd, List.contains_iff_mem.mpr hg]
  rfl

end Sys2Proof.Machine
end

section
/-! The partition commands settled (R428). -/
namespace Sys2Proof.Machine
set_option Elab.async false
variable {s t u : State} {m : Mbox} {P : List Piece}

/-! ## What the other partitions give up -/

theorem and_not_of_disjoint {n : Nat} {a k : BitVec n} (h : a &&& k = 0) : a &&& ~~~k = a := by
  refine BitVec.eq_of_getLsbD_eq fun i hi => ?_
  have hb := congrArg (fun v => BitVec.getLsbD v i) h
  simp only [BitVec.getLsbD_and, BitVec.ofNat_eq_ofNat, BitVec.getLsbD_zero] at hb
  rw [BitVec.getLsbD_and, BitVec.getLsbD_not, decide_eq_true hi]
  cases ha : a.getLsbD i <;> cases hk : k.getLsbD i <;> simp_all

theorem and_not_and {n : Nat} (a k : BitVec n) : a &&& ~~~k &&& k = 0 := by
  refine BitVec.eq_of_getLsbD_eq fun i hi => ?_
  simp only [BitVec.getLsbD_and, BitVec.getLsbD_not, BitVec.ofNat_eq_ofNat, BitVec.getLsbD_zero]
  cases k.getLsbD i <;> simp

/-- What the layout leaves of another partition's resources. -/
structure Left (x : Layout) (y z : Part) : Prop where
  bays : z.bays = y.bays &&& ~~~x.bays
  engines : z.engines = y.engines &&& ~~~x.engines
  dmbox : z.dmbox = y.dmbox &&& ~~~x.dmbox
  ranges : z.ranges = y.ranges.filter (fun g => !x.ranges.contains g)

/-- A partition's resources without those of the layout. -/
def without (x : Layout) (y : Part) : Part := { y with
  bays := y.bays &&& ~~~x.bays, engines := y.engines &&& ~~~x.engines, dmbox := y.dmbox &&& ~~~x.dmbox
  ranges := y.ranges.filter (fun g => !x.ranges.contains g) }

/-- A partition left with nothing is UNUSED. -/
def nowUnused (y : Part) : Part := { y with st := .unused, hold := false, standby := none, started := false, startFailed := false }

/-- The partition is UNUSED where nothing is left of it. -/
def settleEmpty (q : Nat) (s : State) : State :=
  let y := part s q
  if y.bays = 0 && y.engines = 0 && y.ranges = [] && !holdsQueue s q then updPart q nowUnused s else s

/-- What one partition gives up. -/
def giveOne (x : Layout) (q : Nat) (s : State) : State :=
  if !losesTo s q x then s else notice q 3 (BitVec.ofNat 64 q) (settleEmpty q (updPart q (without x) s))

theorem giveUp_eq (x : Layout) : giveUp x s = forEach (otherParts x.p) (giveOne x) s := rfl

theorem part_settleEmpty (q k : Nat) : part (settleEmpty q s) k = part s k ∨ (k = q ∧ part (settleEmpty q s) k = nowUnused (part s q)) := by
  unfold settleEmpty
  dsimp only
  split
  · rw [part_updPart]
    split
    · next hk => exact .inr ⟨hk, rfl⟩
    · exact .inl rfl
  · exact .inl rfl

theorem part_giveOne (x : Layout) (q k : Nat) : part (giveOne x q s) k =
    if losesTo s q x then part (settleEmpty q (updPart q (without x) s)) k else part s k := by
  unfold giveOne
  by_cases h : losesTo s q x = true
  · rw [if_neg (by simp [h]), if_pos h]
    exact ((keeps_refl [.thr, .wake, .log] _).notice).part_eq k
  · rw [if_pos (by simp [h]), if_neg h]

theorem part_giveOne_other (x : Layout) {q k : Nat} (hk : k ≠ q) : part (giveOne x q s) k = part s k := by
  rw [part_giveOne]
  split
  · rcases part_settleEmpty (s := updPart q (without x) s) q k with h | ⟨he, -⟩
    · rw [h, part_updPart, if_neg hk]
    · exact absurd he hk
  · rfl

theorem left_of_keeping {x : Layout} {q : Nat} (h : losesTo s q x = false) : Left x (part s q) (part s q) := by
  unfold losesTo at h
  simp only [Bool.or_eq_false_iff, decide_eq_false_iff_not, not_not] at h
  obtain ⟨⟨⟨hb, he⟩, hd⟩, hr⟩ := h
  exact ⟨(and_not_of_disjoint hb).symm, (and_not_of_disjoint he).symm, (and_not_of_disjoint hd).symm, hr.symm⟩

theorem left_giveOne (x : Layout) (q : Nat) : Left x (part s q) (part (giveOne x q s) q) := by
  rw [part_giveOne]
  split
  · have hself : part (updPart q (without x) s) q = without x (part s q) := by rw [part_updPart, if_pos rfl]
    rcases part_settleEmpty (s := updPart q (without x) s) q q with h | ⟨-, h⟩
    · rw [h, hself]
      exact ⟨rfl, rfl, rfl, rfl⟩
    · rw [h, hself]
      exact ⟨rfl, rfl, rfl, rfl⟩
  · next h => exact left_of_keeping (Bool.eq_false_iff.mpr h)

theorem part_giveOnes_other (x : Layout) {l : List Nat} {k : Nat} (hk : k ∉ l) : part (forEach l (giveOne x) s) k = part s k :=
  forEach_keeps (fun y => part y k = part s k) _ l s rfl fun q hq y hy => by
    rw [part_giveOne_other x (ne_of_mem_of_not_mem hq hk).symm, hy]

theorem left_giveOnes (x : Layout) {l : List Nat} (hl : l.Nodup) {q : Nat} (hq : q ∈ l) :
    Left x (part s q) (part (forEach l (giveOne x) s) q) := by
  induction l generalizing s with
  | nil => exact absurd hq List.not_mem_nil
  | cons a l ih =>
    obtain ⟨ha, hl⟩ := List.nodup_cons.mp hl
    rw [forEach_cons]
    rcases List.mem_cons.mp hq with rfl | hq
    · rw [part_giveOnes_other x ha]
      exact left_giveOne x q
    · have h := ih (s := giveOne x a s) hl hq
      rw [part_giveOne_other x (ne_of_mem_of_not_mem hq ha)] at h
      exact h

/-- Every other partition keeps what the layout does not take, and the layout's own is as before. -/
theorem giveUp_spec (x : Layout) : (∀ q, q < 8 → q ≠ x.p → Left x (part s q) (part (giveUp x s) q)) ∧
    part (giveUp x s) x.p = part s x.p := by
  rw [giveUp_eq]
  refine ⟨fun q hq hne => left_giveOnes x (List.nodup_range.filter _) ?_, part_giveOnes_other x ?_⟩
  · exact List.mem_filter.mpr ⟨List.mem_range.mpr hq, decide_eq_true hne⟩
  · intro h
    exact of_decide_eq_true (List.mem_filter.mp h).2 rfl

theorem keeps_giveUp (x : Layout) : Keeps [.part, .thr, .wake, .log] s (giveUp x s) := by
  rw [giveUp_eq]
  refine Keeps.each (keeps_refl _ s) fun q y hy => ?_
  unfold giveOne settleEmpty
  dsimp only
  split
  · exact hy
  · refine Keeps.notice ?_
    split
    · exact hy.updPart.updPart
    · exact hy.updPart

/-! ## A layout is applied -/

/-- The partition as the layout gives it. -/
def laidOut (x : Layout) (y : Part) : Part := { y with
  bays := x.bays, engines := x.engines, ranges := x.ranges, dmbox := x.dmbox, standby := if x.standbyV then some x.standby else none }

/-- Units that move, by what the partition held and what the layout gives it. -/
def movedBits {n : Nat} (now old : BitVec n) : BitVec n := (now &&& ~~~old) ||| (old &&& ~~~now)

theorem bit_movedBits {n : Nat} (now old : BitVec n) {i : Nat} (hi : i < n) (h : now.getLsbD i ≠ old.getLsbD i) :
    (movedBits now old).getLsbD i = true := by
  unfold movedBits
  simp only [BitVec.getLsbD_or, BitVec.getLsbD_and, BitVec.getLsbD_not, decide_eq_true hi]
  cases hn : now.getLsbD i <;> cases ho : old.getLsbD i <;> simp_all

/-- The partition takes what the layout gives it. -/
def applyAll (x : Layout) (old : Part) (s : State) : State :=
  updPart x.p (afterLayout old.st x.hold) (applyLayout { x with hold := old.hold } s)

/-- The sources of what moves close, and those gained open where the partition serves. -/
def moveSources (x : Layout) (old : Part) (s : State) : State :=
  let gainB := x.bays &&& ~~~old.bays
  let gainE := x.engines &&& ~~~old.engines
  let s := markSources (sourcesAmong (movedBits x.bays old.bays) (movedBits x.engines old.engines)) false s
  if old.st = .active || old.st = .standby then markSources (sourcesAmong gainB gainE) true s else s

theorem setLayout_eq (x : Layout) : setLayout x s =
    settleMode (notice x.p 3 (BitVec.ofNat 64 x.p) (moveSources x (part s x.p)
      (resetUnits (movedBits x.bays (part s x.p).bays) (movedBits x.engines (part s x.p).engines) (x.dmbox ^^^ (part s x.p).dmbox)
        (applyAll x (part s x.p) (giveUp x (cleanRanges (rangesToClean s x) s)))))) := rfl

theorem keeps_moveSources (x : Layout) (old : Part) : Keeps [.srcs] s (moveSources x old s) := by
  unfold moveSources
  dsimp only
  split
  · exact ((keeps_refl _ s).markSources).markSources
  · exact (keeps_refl _ s).markSources

theorem part_applyAll (x : Layout) (old : Part) (q : Nat) : part (applyAll x old s) q =
    if q = x.p then afterLayout old.st x.hold { laidOut x (part s x.p) with hold := old.hold } else part s q := by
  unfold applyAll applyLayout
  rw [part_updPart]
  split
  · rw [part_updPart, if_pos rfl]
    rfl
  · next h => rw [part_updPart, if_neg h]

/-- The settling of a state's own partition does not touch what the layout gives it. -/
theorem afterLayout_keeps (was : PartSt) (hold : Bool) (y : Part) : (afterLayout was hold y).bays = y.bays ∧
    (afterLayout was hold y).engines = y.engines ∧ (afterLayout was hold y).ranges = y.ranges ∧
    (afterLayout was hold y).dmbox = y.dmbox ∧ (afterLayout was hold y).standby = y.standby := by
  cases was <;> cases hold <;> exact ⟨rfl, rfl, rfl, rfl, rfl⟩

/-- Ranges that enter or leave the partition are among those cleaned. -/
theorem mem_rangesToClean {x : Layout} {g : BitVec 13}
    (h : (g ∈ x.ranges ∧ g ∉ (part s x.p).ranges) ∨ (g ∉ x.ranges ∧ g ∈ (part s x.p).ranges)) : g ∈ rangesToClean s x := by
  unfold rangesToClean
  refine List.mem_append_left _ (List.mem_append_left _ ?_)
  rcases h with ⟨hx, ho⟩ | ⟨hx, ho⟩
  · exact List.mem_append_right _ (List.mem_filter.mpr ⟨hx, by simpa using ho⟩)
  · exact List.mem_append_left _ (List.mem_filter.mpr ⟨ho, by simpa using hx⟩)

/-- The effect of a layout on a running device. -/
structure LaidOut (x : Layout) (s t : State) : Prop where
  own : part t x.p = afterLayout (part s x.p).st x.hold { laidOut x (part s x.p) with hold := (part s x.p).hold }
  others : ∀ q, q < 8 → q ≠ x.p → Left x (part s q) (part t q)
  clean : ∀ l, ranged (rangesToClean s x) l = true → isDirty t l = false
  reset : ∀ y, among (movedBits x.bays (part s x.p).bays) (movedBits x.engines (part s x.p).engines) (thrKey y) = true →
    (thr t y).calm = Thread.reset.calm

theorem laidOut_setLayout (x : Layout) : LaidOut x s (setLayout x s) := by
  obtain ⟨a, ha⟩ : ∃ a, a = cleanRanges (rangesToClean s x) s := ⟨_, rfl⟩
  have hka : Keeps [.old, .thr, .core, .bay, .slice, .eng, .net, .ereqs] s a := by
    rw [ha]
    exact (keeps_refl _ s).cleanRanges
  obtain ⟨hothers, hown⟩ := giveUp_spec (s := a) x
  obtain ⟨b, hb⟩ : ∃ b, b = giveUp x a := ⟨_, rfl⟩
  have hkb : Keeps [.part, .thr, .wake, .log] a b := by
    rw [hb]
    exact keeps_giveUp x
  rw [← hb] at hothers hown
  obtain ⟨c, hc⟩ : ∃ c, c = applyAll x (part s x.p) b := ⟨_, rfl⟩
  have hkc : Keeps [.part] b c := by
    rw [hc]
    exact ((keeps_refl [.part] b).updPart).updPart
  obtain ⟨d, hd⟩ : ∃ d, d = resetUnits (movedBits x.bays (part s x.p).bays) (movedBits x.engines (part s x.p).engines)
    (x.dmbox ^^^ (part s x.p).dmbox) c := ⟨_, rfl⟩
  have hkd : Keeps [.thr, .led, .pw, .wake, .bay, .core, .slice, .mem, .poison, .eng, .wr] c d := by
    rw [hd]
    exact (keeps_refl _ c).resetUnits
  obtain ⟨e, he⟩ : ∃ e, e = moveSources x (part s x.p) d := ⟨_, rfl⟩
  have hke : Keeps [.srcs] d e := by
    rw [he]
    exact keeps_moveSources _ _
  obtain ⟨t, ht⟩ : ∃ t, t = setLayout x s := ⟨_, rfl⟩
  have ht' : t = settleMode (notice x.p 3 (BitVec.ofNat 64 x.p) e) := by
    rw [ht, setLayout_eq, ← ha, ← hb, ← hc, ← hd, ← he]
  have hkt : Keeps [.thr, .ridge, .bw, .xing, .out, .pw, .wake, .ep, .pba, .wr, .log] e t := by
    rw [ht']
    exact ((keeps_refl _ e).notice).settleMode
  have hcomp : Composed e t := by
    rw [ht']
    exact (composed_notice _ _ _).trans composed_settleMode
  have hpart (q : Nat) : part t q = part c q := by rw [hkt.part_eq, hke.part_eq, hkd.part_eq]
  rw [← ht]
  refine ⟨?_, fun q hq hne => ?_, fun l hl => ?_, fun y hy => ?_⟩
  · rw [hpart, hc, part_applyAll, if_pos rfl, hown, hka.part_eq]
  · have h := hothers q hq hne
    rw [hka.part_eq] at h
    rw [hpart, hc, part_applyAll, if_neg hne]
    exact h
  · rw [isDirty_of_keeps hkt l, isDirty_of_keeps hke l, isDirty_of_keeps hkd l, isDirty_of_keeps hkc l, isDirty_of_keeps hkb l, ha]
    exact isDirty_cleanRanges hl
  · have hthr : thr e y = thr d y := congrArg (fun l => look Thread.reset l (thrKey y)) (hke .thr (by decide))
    rw [(hcomp y).1, hthr, hd, thr_resetUnits hy]

/-! ## PART_SET -/

theorem partSet_spec (b : MboxSt) :
    let u := replied m (partSet b s)
    let given := parseLayout (pageBytes b 0x40 (boxPlen b))
    (given = none → Says m stBadParam 0 [] s u) ∧
    (∀ x, given = some x → (x.bays = 0 → Says m stBadParam 0 [] s u) ∧
      (x.bays ≠ 0 → s.pw.fenced = true ∨ layoutFits s x = false → Says m stState 0 [] s u) ∧
      (x.bays ≠ 0 → s.pw.fenced = false → layoutFits s x = true → Says m 0 0 [] (setLayout x s) u)) := by
  intro u given
  refine ⟨fun h => replied_bad ?_, fun x h => ⟨fun hb => replied_bad ?_, fun hb hs => replied_bad ?_, fun hb hf hl => replied_ok ?_⟩⟩
  · unfold partSet
    rw [show parseLayout (pageBytes b 0x40 (boxPlen b)) = none from h]
  · unfold partSet
    rw [show parseLayout (pageBytes b 0x40 (boxPlen b)) = some x from h]
    dsimp only
    rw [if_pos hb]
  · unfold partSet
    rw [show parseLayout (pageBytes b 0x40 (boxPlen b)) = some x from h]
    dsimp only
    rw [if_neg hb, if_pos (by simpa using hs)]
  · unfold partSet
    rw [show parseLayout (pageBytes b 0x40 (boxPlen b)) = some x from h]
    dsimp only
    rw [if_neg hb, if_neg (by simp [hf, hl])]

/-! ## PART_STOP, PART_START and PART_STANDBY -/

theorem partNamed_lt (b : MboxSt) : partNamed b < 8 := ((pageWord b 0x40).extractLsb' 0 3).isLt

theorem sourcesOf_updPart_hold (p q : Nat) (hold : Bool) :
    sourcesOf (updPart p (fun x => { x with hold := hold }) s) q = sourcesOf s q := by
  unfold sourcesOf
  rw [part_updPart]
  split
  · next h =>
    rw [h]
  · rfl

theorem partStop_spec (b : MboxSt) :
    let u := replied m (partStop b s)
    let p := partNamed b
    let may := (part s p).st = .active ∨ (part s p).st = .standby
    (Reserved b 0x40 0xF → Says m stBadParam 0 [] s u) ∧
    (¬ Reserved b 0x40 0xF → s.pw.fenced = true ∨ ¬ may → Says m stState 0 [] s u) ∧
    (¬ Reserved b 0x40 0xF → s.pw.fenced = false → may → ∃ t, Says m 0 0 (bytesOf 8 (BitVec.ofNat 64 (ownedOf s p))) t u ∧
      (part t p).st = .down ∧ (part t p).cause = 9 ∧ (part t p).hold = bit (pageWord b 0x40) 3 ∧
      ∀ x ∈ sourcesOf s p, (srcEnt t x).isOpen = false) := by
  intro u p may
  refine ⟨fun hr => replied_bad ?_, fun hr hn => replied_bad ?_, fun hr hf hm => ?_⟩
  · unfold partStop
    dsimp only
    rw [wordFits_of_reserved hr, if_pos (by decide)]
  · unfold partStop
    dsimp only
    rw [wordFits_of_not_reserved hr, if_neg (by decide), if_pos (by simpa [may, p] using hn)]
  · obtain ⟨v, hv⟩ : ∃ v, v = updPart p (fun x => { x with hold := bit (pageWord b 0x40) 3 }) s := ⟨_, rfl⟩
    have hpart : part v p = { part s p with hold := bit (pageWord b 0x40) 3 } := by rw [hv, part_updPart, if_pos rfl]
    have hst : (part v p).st = .active ∨ (part v p).st = .standby := by
      rw [hpart]
      exact hm
    have h := reportCoherence_down (p := ⟨p, partNamed_lt b⟩) 9 0x3F none hst
    have hbody : partStop b s = (ok (bytesOf 8 (BitVec.ofNat 64 (ownedOf s p))), reportCoherence p 9 0x3F none v) := by
      rw [hv]
      unfold partStop
      dsimp only
      rw [wordFits_of_not_reserved hr, if_neg (by decide), if_neg (by simp [hf]; exact fun h0 => hm.resolve_left h0)]
    refine ⟨_, replied_ok hbody, h.st, h.cause, ?_, fun x hx => h.closed x ?_⟩
    · have e := h.hold
      rw [hpart] at e
      exact e
    · rw [hv, sourcesOf_updPart_hold]
      exact hx

theorem partStart_spec (b : MboxSt) :
    let u := replied m (partStart b s)
    let p := partNamed b
    let may := s.pw.fenced = false ∧ (part s p).st = .restarting ∧ (part s p).hold = true
    (Reserved b 0x40 7 → Says m stBadParam 0 [] s u) ∧ (¬ Reserved b 0x40 7 → ¬ may → Says m stState 0 [] s u) ∧
    (¬ Reserved b 0x40 7 → may → ∃ t, Says m 0 0 [] t u ∧ Keeps [.part] s t ∧
      part t p = { part s p with hold := false } ∧ ∀ q, q ≠ p → part t q = part s q) := by
  intro u p may
  refine ⟨fun hr => replied_bad ?_, fun hr hn => replied_bad ?_, fun hr ⟨hf, hst, hh⟩ =>
    ⟨updPart p (fun x => { x with hold := false }) s, replied_ok ?_, (keeps_refl _ s).updPart, ?_, fun q hq => ?_⟩⟩
  · unfold partStart
    dsimp only
    rw [wordFits_of_reserved hr, if_pos (by decide)]
  · have hs : (s.pw.fenced || decide ((part s (partNamed b)).st ≠ .restarting) || !(part s (partNamed b)).hold) = true := by
      by_contra hc
      refine hn ?_
      simpa [and_assoc, may, p] using hc
    unfold partStart
    dsimp only
    rw [wordFits_of_not_reserved hr, if_neg (by decide), if_pos hs]
  · unfold partStart
    dsimp only
    rw [wordFits_of_not_reserved hr, if_neg (by decide), if_neg (by simp [hf, show (part s (partNamed b)).st = .restarting from hst, show (part s (partNamed b)).hold = true from hh])]
  · rw [part_updPart, if_pos rfl]
  · rw [part_updPart, if_neg hq]

theorem partStandby_spec (b : MboxSt) :
    let u := replied m (partStandby b s)
    let p := partNamed b
    let w := pageWord b 0x40
    let may := s.pw.fenced = false ∧
      (if w.getLsbD 7 then (part s p).st = .active ∧ (part s (w.extractLsb' 4 3).toNat).st = .standby
       else (part s p).st ≠ .unused)
    (Reserved b 0x40 0xF7 → Says m stBadParam 0 [] s u) ∧ (¬ Reserved b 0x40 0xF7 → ¬ may → Says m stState 0 [] s u) ∧
    (¬ Reserved b 0x40 0xF7 → may → ∃ t, Says m 0 0 [] t u ∧ Keeps [.part] s t ∧ (∀ q, q ≠ p → part t q = part s q) ∧
      part t p = { part s p with standby := if w.getLsbD 7 then some (w.extractLsb' 4 3).toFin else none }) := by
  intro u p w may
  refine ⟨fun hr => replied_bad ?_, fun hr hn => replied_bad ?_, fun hr hm =>
    ⟨updPart p (fun x => { x with standby := if w.getLsbD 7 then some (w.extractLsb' 4 3).toFin else none }) s, replied_ok ?_,
      (keeps_refl _ s).updPart, fun q hq => ?_, ?_⟩⟩
  · unfold partStandby
    dsimp only
    rw [wordFits_of_reserved hr, if_pos (by decide)]
  · unfold partStandby
    dsimp only
    rw [wordFits_of_not_reserved hr, if_neg (by decide)]
    by_cases hf : s.pw.fenced = true
    · rw [if_pos hf]
    · rw [if_neg hf]
      by_cases h7 : bit (pageWord b 0x40) 7 = true
      · have hs : (decide ((part s p).st ≠ .active) || decide ((part s (w.extractLsb' 4 3).toNat).st ≠ .standby)) = true := by
          by_contra hc
          refine hn ⟨Bool.eq_false_iff.mpr hf, ?_⟩
          rw [if_pos (show w.getLsbD 7 = true from h7)]
          simpa using hc
        rw [if_pos h7]
        exact if_pos hs
      · have hs : (part s p).st = .unused := by
          by_contra hc
          refine hn ⟨Bool.eq_false_iff.mpr hf, ?_⟩
          rw [if_neg (show ¬ w.getLsbD 7 = true from h7)]
          exact hc
        rw [if_neg h7]
        exact if_pos hs
  · obtain ⟨hf, hc⟩ := hm
    unfold partStandby
    dsimp only
    rw [wordFits_of_not_reserved hr, if_neg (by decide), if_neg (by rw [hf]; decide)]
    by_cases h7 : bit (pageWord b 0x40) 7 = true
    · have h7' : w.getLsbD 7 = true := h7
      rw [if_pos h7'] at hc
      obtain ⟨hactive, hstandby⟩ := hc
      have hs : ¬ (decide ((part s p).st ≠ .active) || decide ((part s (w.extractLsb' 4 3).toNat).st ≠ .standby)) = true := by
        rw [decide_eq_false (not_not_intro hactive), decide_eq_false (not_not_intro hstandby)]
        decide
      rw [if_pos h7, h7']
      exact if_neg hs
    · have h7' : ¬ w.getLsbD 7 = true := h7
      rw [if_neg h7'] at hc
      rw [if_neg h7, Bool.eq_false_iff.mpr h7']
      exact if_neg hc
  · rw [part_updPart, if_neg hq]
  · rw [part_updPart, if_pos rfl]

/-! ## PART_FREE -/

/-- The readiness bits of a partition and its bays are clear. -/
def unready (p : Nat) (bays : BitVec 40) (r : Ready) : Ready := { r with part := setBit r.part p false, bay := r.bay &&& ~~~bays }

theorem freePart_eq (p : Nat) : freePart p s =
    settleMode (updPart p unusedPart (setReady (unready p (part s p).bays) (resetUnits (part s p).bays (part s p).engines (part s p).dmbox
      (markSources (sourcesOf (cleanRanges (part s p).ranges s) p) false (dropMessages p (cleanRanges (part s p).ranges s)))))) := rfl

theorem firstFrom_holds {f : Nat → Bool} {n k q : Nat} (h : firstFrom f n k = some q) : f q = true := by
  induction n generalizing k with
  | zero => cases h
  | succ n ih =>
    rw [firstFrom] at h
    split at h
    · next hk =>
      rw [← Option.some.inj h]
      exact hk
    · exact ih h

/-- A thread of a partition is among those of the partition's bays and engines. -/
theorem among_of_partOf {y : Thr} {p : Nat} (h : partOf s y = some p) : among (part s p).bays (part s p).engines (thrKey y) = true := by
  cases y with
  | core i => exact among_core (firstFrom_holds (f := fun q => (part s q).bays.getLsbD (i.val / 16)) h)
  | adze j => exact among_adze (firstFrom_holds (f := fun q => (part s q).engines.getLsbD (j.val / 8)) h)

/-- The effect of a partition's release. -/
structure Freed (p : Nat) (s t : State) : Prop where
  own : part t p = unusedPart (part s p)
  others : ∀ q, q ≠ p → part t q = part s q
  closed : ∀ x ∈ sourcesOf s p, (srcEnt t x).isOpen = false
  clean : ∀ l, ranged (part s p).ranges l = true → isDirty t l = false
  reset : ∀ y, partOf s y = some p → (thr t y).calm = Thread.reset.calm

theorem freed_freePart (p : Nat) : Freed p s (freePart p s) := by
  obtain ⟨a, ha⟩ : ∃ a, a = cleanRanges (part s p).ranges s := ⟨_, rfl⟩
  have hka : Keeps [.old, .thr, .core, .bay, .slice, .eng, .net, .ereqs] s a := by
    rw [ha]
    exact (keeps_refl _ s).cleanRanges
  obtain ⟨c, hc⟩ : ∃ c, c = markSources (sourcesOf a p) false (dropMessages p a) := ⟨_, rfl⟩
  have hkc : Keeps [.net, .ereqs, .downDrop, .srcs] a c := by
    rw [hc]
    exact ((keeps_refl _ a).dropMessages).markSources
  obtain ⟨d, hd⟩ : ∃ d, d = resetUnits (part s p).bays (part s p).engines (part s p).dmbox c := ⟨_, rfl⟩
  have hkd : Keeps [.thr, .led, .pw, .wake, .bay, .core, .slice, .mem, .poison, .eng, .wr] c d := by
    rw [hd]
    exact (keeps_refl _ c).resetUnits
  obtain ⟨e, he⟩ : ∃ e, e = setReady (unready p (part s p).bays) d := ⟨_, rfl⟩
  have hke : Keeps [.ridge, .bw, .xing, .out, .pw, .ep, .pba] d e := by
    rw [he]
    exact (keeps_refl _ d).setReady
  obtain ⟨f, hf⟩ : ∃ f, f = updPart p unusedPart e := ⟨_, rfl⟩
  have hkf : Keeps [.part] e f := by
    rw [hf]
    exact (keeps_refl _ e).updPart
  obtain ⟨t, ht⟩ : ∃ t, t = freePart p s := ⟨_, rfl⟩
  have ht' : t = settleMode f := by rw [ht, freePart_eq, ← ha, ← hc, ← hd, ← he, ← hf]
  have hkt : Keeps [.thr, .ridge, .bw, .xing, .out, .pw, .wake, .ep, .pba, .wr, .log] f t := by
    rw [ht']
    exact (keeps_refl _ f).settleMode
  have hcomp : Composed f t := by
    rw [ht']
    exact composed_settleMode
  have hpart (q : Nat) : part e q = part s q := by rw [hke.part_eq, hkd.part_eq, hkc.part_eq, hka.part_eq]
  have hsources : sourcesOf a p = sourcesOf s p := by
    unfold sourcesOf
    rw [hka.part_eq]
  have hsrcs : t.srcs = c.srcs := by
    rw [show t.srcs = f.srcs from hkt .srcs (by decide), show f.srcs = e.srcs from hkf .srcs (by decide),
      show e.srcs = d.srcs from hke .srcs (by decide), show d.srcs = c.srcs from hkd .srcs (by decide)]
  rw [← ht]
  refine ⟨?_, fun q hq => ?_, fun x hx => ?_, fun l hl => ?_, fun y hy => ?_⟩
  · rw [hkt.part_eq, hf, part_updPart, if_pos rfl, hpart]
  · rw [hkt.part_eq, hf, part_updPart, if_neg hq, hpart]
  · have hsrc : srcEnt t x = srcEnt c x := by
      unfold srcEnt
      rw [hsrcs]
    rw [hsrc, hc]
    exact Bool.eq_false_iff.mpr fun ho => (isOpen_markSources _ ho).1 (by rw [hsources]; exact hx)
  · rw [isDirty_of_keeps hkt l, isDirty_of_keeps hkf l, isDirty_of_keeps hke l, isDirty_of_keeps hkd l, isDirty_of_keeps hkc l, ha]
    exact isDirty_cleanRanges hl
  · have hf' : thr f y = thr e y := congrArg (fun l => look Thread.reset l (thrKey y)) (hkf .thr (by decide))
    have he' : thr e y = thr d y := congrArg (fun l => look Thread.reset l (thrKey y)) (hke .thr (by decide))
    rw [(hcomp y).1, hf', he', hd, thr_resetUnits (among_of_partOf hy)]

theorem partFree_spec (b : MboxSt) :
    let u := replied m (partFree b s)
    let p := partNamed b
    let may := s.pw.fenced = false ∧ movable s p = true ∧ holdsQueue s p = false
    (Reserved b 0x40 7 → Says m stBadParam 0 [] s u) ∧ (¬ Reserved b 0x40 7 → ¬ may → Says m stState 0 [] s u) ∧
    (¬ Reserved b 0x40 7 → may → Says m 0 0 [] (freePart p s) u) := by
  intro u p may
  refine ⟨fun hr => replied_bad ?_, fun hr hn => replied_bad ?_, fun hr ⟨hf, hm, hq⟩ => replied_ok ?_⟩
  · unfold partFree
    dsimp only
    rw [wordFits_of_reserved hr, if_pos (by decide)]
  · have hs : (s.pw.fenced || !movable s p || holdsQueue s p) = true := by
      by_contra hc
      refine hn ?_
      simpa [and_assoc, may, p] using hc
    unfold partFree
    dsimp only
    rw [wordFits_of_not_reserved hr, if_neg (by decide), if_pos hs]
  · have hs : ¬ (s.pw.fenced || !movable s p || holdsQueue s p) = true := by simp [hf, hm, hq]
    unfold partFree
    dsimp only
    rw [wordFits_of_not_reserved hr, if_neg (by decide), if_neg hs]

/-! ## The obligation -/

/-- What PART_SET leaves, in the terms of the statement. -/
theorem partSet_row (s : State) (x : Layout) :
    let t := setLayout x s
    (part t x.p).bays = x.bays ∧ (part t x.p).engines = x.engines ∧ (part t x.p).ranges = x.ranges ∧
      (part t x.p).dmbox = x.dmbox ∧ (part t x.p).standby = (if x.standbyV then some x.standby else none) ∧
      ((part s x.p).st = .unused → x.hold = true → (part t x.p).st = .restarting ∧ (part t x.p).hold = true) ∧
      ((part s x.p).st = .active ∨ (part s x.p).st = .standby → (part t x.p).st = (part s x.p).st) ∧
      (∀ q, q < 8 → q ≠ x.p → (part t q).bays &&& x.bays = 0 ∧ (part t q).engines &&& x.engines = 0 ∧
        (part t q).dmbox &&& x.dmbox = 0 ∧ (part t q).bays = (part s q).bays &&& ~~~x.bays ∧
        (part t q).engines = (part s q).engines &&& ~~~x.engines ∧
        (∀ g, g ∈ (part t q).ranges ↔ g ∈ (part s q).ranges ∧ g ∉ x.ranges)) ∧
      (∀ l : BitVec 42, isDramLine l = true →
        let g := (lineAddr l).extractLsb' 30 13
        ((g ∈ x.ranges ∧ g ∉ (part s x.p).ranges) ∨ (g ∉ x.ranges ∧ g ∈ (part s x.p).ranges)) → isDirty t l = false) ∧
      (∀ i : Fin 640, x.bays.getLsbD (i.val / 16) ≠ (part s x.p).bays.getLsbD (i.val / 16) →
        (thr t (.core i)).calm = Thread.reset.calm) := by
  intro t
  have h : LaidOut x s t := laidOut_setLayout x
  obtain ⟨hbays, heng, hranges, hdmbox, hstandby⟩ :=
    afterLayout_keeps (part s x.p).st x.hold { laidOut x (part s x.p) with hold := (part s x.p).hold }
  rw [h.own]
  refine ⟨hbays, heng, hranges, hdmbox, hstandby, fun hst hh => ?_, fun hst => ?_, fun q hq hne => ?_, fun l hd hg => ?_, fun i hi => ?_⟩
  · rw [hst, hh]
    exact ⟨rfl, rfl⟩
  · rcases hst with hst | hst
    · rw [hst]
      exact hst
    · rw [hst]
      exact hst
  · have hl := h.others q hq hne
    refine ⟨?_, ?_, ?_, hl.bays, hl.engines, fun g => ?_⟩
    · rw [hl.bays, and_not_and]
    · rw [hl.engines, and_not_and]
    · rw [hl.dmbox, and_not_and]
    · rw [hl.ranges]
      simp
  · exact h.clean l (ranged_of_mem hd (mem_rangesToClean hg))
  · exact h.reset _ (among_core (bit_movedBits _ _ (by omega) hi))

/-- Settles O47. -/
theorem partitionCommands : Obligations.PartitionCommands := by
  refine ⟨?_, ?_, ?_, ?_, ?_⟩
  · refine cmdRow_of (body := fun _ => partSet) (plenOk := layoutLen) (fun _ _ _ => rfl) (fun _ _ => rfl) fun s m _ => ?_
    obtain ⟨hnone, hsome⟩ := partSet_spec (s := s) (m := m) (box s m)
    refine ⟨hnone, fun x hx => ?_⟩
    obtain ⟨hbays, hstate, hdone⟩ := hsome x hx
    exact ⟨hbays, hstate, fun hb hf hl => ⟨setLayout x s, hdone hb hf hl, partSet_row s x⟩⟩
  · exact cmdRow_of (body := fun _ => partStop) (plenOk := plenIs 8) (fun _ _ _ => rfl) (fun _ _ => rfl)
      fun s m _ => partStop_spec (box s m)
  · exact cmdRow_of (body := fun _ => partStart) (plenOk := plenIs 8) (fun _ _ _ => rfl) (fun _ _ => rfl)
      fun s m _ => partStart_spec (box s m)
  · exact cmdRow_of (body := fun _ => partStandby) (plenOk := plenIs 8) (fun _ _ _ => rfl) (fun _ _ => rfl)
      fun s m _ => partStandby_spec (box s m)
  · refine cmdRow_of (body := fun _ => partFree) (plenOk := plenIs 8) (fun _ _ _ => rfl) (fun _ _ => rfl) fun s m _ => ?_
    obtain ⟨hbad, hstate, hdone⟩ := partFree_spec (s := s) (m := m) (box s m)
    refine ⟨hbad, hstate, fun hr hm => ?_⟩
    have h : Freed (partNamed (box s m)) s (freePart (partNamed (box s m)) s) := freed_freePart _
    have hown (f : Part → Prop) (hf : f (unusedPart (part s (partNamed (box s m))))) :
        f (part (freePart (partNamed (box s m)) s) (partNamed (box s m))) := h.own ▸ hf
    refine ⟨freePart (partNamed (box s m)) s, hdone hr hm, hown (fun x => x.st = .unused) rfl, hown (fun x => x.bays = 0) rfl,
      hown (fun x => x.engines = 0) rfl, hown (fun x => x.ranges = []) rfl, hown (fun x => x.dmbox = 0) rfl, h.closed,
      fun l hd hg => h.clean l (ranged_of_mem hd hg), h.reset, fun q hq => ?_⟩
    have e : part (freePart (partNamed (box s m)) s) q = part s q := h.others q hq
    exact ⟨congrArg Part.bays e, congrArg Part.ranges e, congrArg Part.st e⟩

end Sys2Proof.Machine
end

section
/-! Bring-up starts, and a die's self-test (R29, R40, R246, R462). -/
namespace Sys2Proof.Machine
set_option Elab.async false
variable {s t u v : State} {P : List Piece}

/-! ## The power state and the Wright, but for what announcements change -/

/-- The power state without the mode as displayed, the readiness map and the events held. -/
def quietOf (p : Power) : Power := { p with mode := 0, modeChanges := 0, ready := Ready.reset, wake := [], routerHeld := [] }

/-- The power state stands but for the mode, the readiness map and the events held. -/
def Poised (s u : State) : Prop := quietOf u.pw = quietOf s.pw

theorem poised_refl (s : State) : Poised s s := rfl

theorem Poised.trans (h : Poised s u) (k : Poised u v) : Poised s v := Eq.trans k h

theorem Poised.keeps (h : Poised s u) (k : Keeps P u v) (hp : Piece.pw ∉ P := by decide) : Poised s v := by
  have e : { v.pw with wake := [], routerHeld := [] } = { u.pw with wake := [], routerHeld := [] } := k .pw hp
  have e' := congrArg quietOf e
  exact h.trans e'

theorem Poised.each {α : Type} {l : List α} {f : α → State → State} (h : Poised s u) (hf : ∀ a x, Poised s x → Poised s (f a x)) :
    Poised s (Machine.forEach l f u) :=
  forEach_keeps (Poised s) f l u h fun a _ x hx => hf a x hx

theorem Poised.field (h : Poised s u) {α : Type} (f : Power → α) (hf : ∀ p, f (quietOf p) = f p := by exact fun _ => rfl) :
    f u.pw = f s.pw := by
  rw [← hf, h, hf]

theorem Poised.setReady {f : Ready → Ready} (h : Poised s u) : Poised s (Machine.setReady f u) := by
  unfold Machine.setReady
  extract_lets r
  split
  · exact h
  · have h' : Poised s (Machine.updPw (fun p => { p with ready := r }) u) := h.trans rfl
    exact h'.keeps (keeps_refl [.ridge, .bw, .xing, .out, .ep, .pba] _).notifyReady

theorem Poised.settleMode (h : Poised s u) : Poised s (Machine.settleMode u) := by
  refine h.trans ?_
  by_cases hm : (decide (modeNow u = u.pw.mode) || decide (modeNow u = 0) || decide (u.pw.mode = 0)) = true
  · rw [show Machine.settleMode u = Machine.updPw (fun p => { p with mode := modeNow u }) u from if_pos hm]
    rfl
  · rw [settleMode_changed hm]
    extract_lets y w y' y''
    have hy : Poised u y := rfl
    exact hy.keeps ((Keeps.each ((keeps_refl [.thr, .wake, .wr, .log] y).updWr.wrightEvent) fun _ _ hx => hx.partEvent))
      |>.keeps (keeps_refl [.ridge, .bw, .xing, .out, .ep, .pba] _).notifyMode

theorem Poised.rail_eq (h : Poised s u) (k : Nat) : rail u k = rail s k := h.field (fun p => look RailSt.reset p.rails k)
theorem Poised.die_eq (h : Poised s u) (d : Nat) : die u d = die s d := h.field (fun p => look Die.reset p.dies d)

/-- The Wright without its logs. -/
def staffOf (w : Wright) : Wright := { w with history := [], log := [], logNext := 0, heldEvents := 0, lostEvents := 0 }

/-- The Wright stands but for what it logs. -/
def Staffed (s u : State) : Prop := staffOf u.wr = staffOf s.wr

theorem staffed_refl (s : State) : Staffed s s := rfl

theorem Staffed.trans (h : Staffed s u) (k : Staffed u v) : Staffed s v := Eq.trans k h

theorem Staffed.keeps (h : Staffed s u) (k : Keeps P u v) (hp : Piece.wr ∉ P := by decide) : Staffed s v := by
  have e : { v.wr with log := [], logNext := 0, heldEvents := 0, lostEvents := 0 } =
      { u.wr with log := [], logNext := 0, heldEvents := 0, lostEvents := 0 } := k .wr hp
  have e' := congrArg (fun w : Wright => { w with history := [] }) e
  exact h.trans e'

theorem Staffed.field (h : Staffed s u) {α : Type} (f : Wright → α) (hf : ∀ w, f (staffOf w) = f w := by exact fun _ => rfl) :
    f u.wr = f s.wr := by
  rw [← hf, h, hf]

theorem Staffed.settleMode (h : Staffed s u) : Staffed s (Machine.settleMode u) := by
  refine h.trans ?_
  by_cases hm : (decide (modeNow u = u.pw.mode) || decide (modeNow u = 0) || decide (u.pw.mode = 0)) = true
  · rw [show Machine.settleMode u = Machine.updPw (fun p => { p with mode := modeNow u }) u from if_pos hm]
    rfl
  · rw [settleMode_changed hm]
    extract_lets y w y' y''
    have hy : Staffed u y' := rfl
    exact hy.keeps ((Keeps.each ((keeps_refl [.thr, .wake, .log] y').wrightEvent) fun _ _ hx => hx.partEvent))
      |>.keeps (keeps_refl [.ridge, .bw, .xing, .out, .ep, .pba] _).notifyMode

/-! ## A setpoint is requested -/

theorem Keeps.requestRail {r : Rail} {mv : BitVec 16} (h : Keeps P s u)
    (hP : ∀ p ∈ ([.pw, .bw, .out] : List Piece), p ∈ P := by decide) : Keeps P s (Machine.requestRail r mv u) := by
  refine h.via ?_ hP
  unfold Machine.requestRail
  exact ((keeps_refl [.pw, .bw, .out] u).updRail).emit

/-- The rail as it stands once the setpoint is requested. -/
def asked (mv : BitVec 16) (now : Word) (x : RailSt) : RailSt := { x with req := some (mv, now) }

theorem poised_requestRail (r : Rail) (mv : BitVec 16) :
    Poised (updRail (railNo r) (asked mv s.time.now) s) (requestRail r mv s) :=
  (poised_refl _).keeps (keeps_refl [.bw, .out] (updRail (railNo r) (asked mv s.time.now) s)).emit

theorem rail_requestRail (r : Rail) (mv : BitVec 16) (k : Nat) :
    rail (requestRail r mv s) k = if k = railNo r then asked mv s.time.now (rail s (railNo r)) else rail s k := by
  rw [(poised_requestRail r mv).rail_eq, rail_updRail]

theorem now_of_keeps (h : Keeps P s u) (hp : Piece.time ∉ P := by decide) : u.time.now = s.time.now :=
  congrArg TimeBase.now (h .time hp)

theorem railNo_vcoreOf {d : Nat} (h : d < 4) : railNo (vcoreOf d) = d := by
  unfold vcoreOf
  rw [dif_pos h]
  rfl

/-- A setpoint is requested of some compute rails. -/
def askCores (l : List Nat) (mv : BitVec 16) (s : State) : State := forEach l (fun d acc => requestRail (vcoreOf d) mv acc) s

theorem keeps_askCores (l : List Nat) (mv : BitVec 16) : Keeps [.pw, .bw, .out] s (askCores l mv s) :=
  Keeps.each (keeps_refl _ s) fun _ _ hx => hx.requestRail

theorem rail_askCores {l : List Nat} (hl : ∀ d ∈ l, d < 4) (mv : BitVec 16) (k : Nat) :
    rail (askCores l mv s) k = if k ∈ l then asked mv s.time.now (rail s k) else rail s k := by
  induction l generalizing s with
  | nil => rfl
  | cons a l ih =>
    have hnow : (requestRail (vcoreOf a) mv s).time.now = s.time.now := now_of_keeps (keeps_refl [.pw, .bw, .out] s).requestRail
    have hstep : askCores (a :: l) mv s = askCores l mv (requestRail (vcoreOf a) mv s) := rfl
    rw [hstep, ih fun d hd => hl d (List.mem_cons_of_mem a hd), hnow, rail_requestRail, railNo_vcoreOf (hl a List.mem_cons_self)]
    by_cases hk : k = a
    · subst hk
      rw [if_pos rfl, if_pos List.mem_cons_self]
      split <;> rfl
    · rw [if_neg hk]
      simp [hk]

/-- What a request changes of the power state is the rail alone. -/
theorem askCores_field {l : List Nat} {mv : BitVec 16} {α : Type} (f : Power → α) (hf : ∀ p, f (quietOf p) = f p := by exact fun _ => rfl)
    (hr : ∀ p r, f { p with rails := r } = f p := by exact fun _ _ => rfl) : f (askCores l mv s).pw = f s.pw := by
  refine forEach_keeps (fun y : State => f y.pw = f s.pw) _ l s rfl fun d _ y hy => ?_
  rw [(poised_requestRail (s := y) (vcoreOf d) mv).field f hf]
  exact (hr _ _).trans hy

/-! ## Bring-up starts -/

theorem mayBringUp_iff : mayBringUp s = true ↔ s.pw.sillOn = true ∧ s.pw.inReset = true ∧ s.pw.pwrgood = true ∧
    (rail s 4).below = false ∧ (rail s 11).below = false ∧ s.pw.thermtrip = false ∧ s.pw.resetN = true ∧ debounced s = true := by
  unfold mayBringUp
  simp only [Bool.and_eq_true, Bool.not_eq_true', and_assoc]

/-- The main domain leaves reset, and the Wright boots. -/
def outOfReset (s : State) : State :=
  let now := s.time.now
  let s := updPw (fun p => { p with inReset := false, bringing := true, bringupDone := false, bringupAt := now }) s
  let s := updWr (fun w => { w with st := .booting, since := now }) s
  updEp (fun e => { e with ringPresent := setBit e.ringPresent (myPos s) true }) s

/-- The endpoint trains, and the sill's die begins its window. -/
def beginTraining (now : Word) (s : State) : State := updDie 4 (fun x => { x with winFrom := now }) (retrainEndpoint s)

theorem bringupStart_eq (h : mayBringUp s = true) : exec .bringupStart s =
    .next (settleMode (setReady (fun r => { r with ledger := true, events := true })
      (beginTraining s.time.now (askCores (List.range 4) 900 (outOfReset s))))) := by
  change execBringupStart s = _
  unfold execBringupStart
  rw [h]
  exact if_neg Bool.false_ne_true

theorem beginTraining_field (now : Word) {α : Type} (f : Power → α) (hf : ∀ p d, f { p with dies := d } = f p := by exact fun _ _ => rfl) :
    f (beginTraining now s).pw = f s.pw := by
  unfold beginTraining retrainEndpoint
  split
  · exact hf _ _
  · exact hf _ _

theorem keeps_beginTraining (now : Word) : Keeps [.pw, .ep] s (beginTraining now s) := by
  unfold beginTraining retrainEndpoint
  split
  · exact (keeps_refl _ s).updDie
  · exact ((keeps_refl _ s).updEp).updDie

theorem standbyCond_eq_false (h4 : (rail s 4).below = false) (h11 : (rail s 11).below = false) (hgood : s.pw.pwrgood = true)
    (htrip : s.pw.thermtrip = false) (hreset : s.pw.inReset = false) : standbyCond s = false := by
  unfold standbyCond
  rw [h4, h11, hgood, htrip, hreset]
  rfl

theorem modeNow_bringing (hon : s.pw.sillOn = true) (hstandby : standbyCond s = false) (hf : s.pw.fenced = false)
    (hb : s.pw.bringing = true) : modeNow s = 2 := by
  unfold modeNow
  rw [hon, hstandby, hf, hb]
  rfl

theorem bringupStart_runs (h : mayBringUp s = true) (hf : s.pw.fenced = false) : ∃ u, exec .bringupStart s = .next u ∧
    u.pw.inReset = false ∧ u.pw.bringing = true ∧ u.pw.mode = 2 ∧ u.pw.bringupAt = s.time.now ∧ u.wr.st = .booting ∧
    u.pw.ready.ledger = true ∧ u.pw.ready.events = true ∧ ∀ d : Fin 4, (rail u d.val).req = some (900, s.time.now) := by
  obtain ⟨hon, -, hgood, h4, h11, htrip, -, -⟩ := mayBringUp_iff.mp h
  obtain ⟨a, ha⟩ : ∃ a, a = outOfReset s := ⟨_, rfl⟩
  obtain ⟨b, hb⟩ : ∃ b, b = beginTraining s.time.now (askCores (List.range 4) 900 a) := ⟨_, rfl⟩
  have hfield {α : Type} (f : Power → α) (hq : ∀ p, f (quietOf p) = f p) (hr : ∀ p r, f { p with rails := r } = f p)
      (hd : ∀ p d, f { p with dies := d } = f p) : f b.pw = f a.pw := by
    rw [hb, beginTraining_field _ f hd, askCores_field f hq hr]
  have hrail (k : Nat) : rail b k = if k ∈ List.range 4 then asked 900 s.time.now (rail s k) else rail s k := by
    have e1 : rail b k = rail (askCores (List.range 4) 900 a) k := by
      rw [hb]
      exact beginTraining_field s.time.now (fun p => look RailSt.reset p.rails k)
    rw [e1, rail_askCores fun d hd => List.mem_range.mp hd]
    rw [ha]
    rfl
  have hbon : b.pw.sillOn = true := by
    rw [hfield Power.sillOn (fun _ => rfl) (fun _ _ => rfl) fun _ _ => rfl, ha]
    exact hon
  have hbringing : b.pw.bringing = true := by
    rw [hfield Power.bringing (fun _ => rfl) (fun _ _ => rfl) fun _ _ => rfl, ha]
    rfl
  have hreset : b.pw.inReset = false := by
    rw [hfield Power.inReset (fun _ => rfl) (fun _ _ => rfl) fun _ _ => rfl, ha]
    rfl
  have hfenced : b.pw.fenced = false := by
    rw [hfield Power.fenced (fun _ => rfl) (fun _ _ => rfl) fun _ _ => rfl, ha]
    exact hf
  have hbgood : b.pw.pwrgood = true := by
    rw [hfield Power.pwrgood (fun _ => rfl) (fun _ _ => rfl) fun _ _ => rfl, ha]
    exact hgood
  have hbtrip : b.pw.thermtrip = false := by
    rw [hfield Power.thermtrip (fun _ => rfl) (fun _ _ => rfl) fun _ _ => rfl, ha]
    exact htrip
  have hb4 : (rail b 4).below = false := by
    rw [hrail, if_neg (by decide)]
    exact h4
  have hb11 : (rail b 11).below = false := by
    rw [hrail, if_neg (by decide)]
    exact h11
  have hat : b.pw.bringupAt = s.time.now := by
    rw [hfield Power.bringupAt (fun _ => rfl) (fun _ _ => rfl) fun _ _ => rfl, ha]
    rfl
  have hwr : b.wr.st = .booting := by
    have hk : Keeps [.pw, .bw, .out, .ep] a b := by
      rw [hb]
      exact keeps_trans (keeps_mono (by decide) (keeps_askCores _ _)) (keeps_mono (by decide) (keeps_beginTraining _))
    rw [((staffed_refl a).keeps hk).field Wright.st, ha]
    rfl
  obtain ⟨c, hc⟩ : ∃ c, c = setReady (fun r => { r with ledger := true, events := true }) b := ⟨_, rfl⟩
  have hpc : Poised b c := by
    rw [hc]
    exact (poised_refl b).setReady
  have hkc : Keeps [.ridge, .bw, .xing, .out, .pw, .ep, .pba] b c := by
    rw [hc]
    exact (keeps_refl _ b).setReady
  have hready : c.pw.ready = { b.pw.ready with ledger := true, events := true } := by
    rw [hc, ready_setReady]
  have hpu : Poised b (settleMode c) := hpc.settleMode
  refine ⟨settleMode c, ?_, ?_, ?_, ?_, ?_, ?_, ?_, ?_, fun d => ?_⟩
  · rw [bringupStart_eq h, ← ha, ← hb, ← hc]
  · rw [hpu.field Power.inReset, hreset]
  · rw [hpu.field Power.bringing, hbringing]
  · rw [mode_settled]
    refine modeNow_bringing ?_ (standbyCond_eq_false ?_ ?_ ?_ ?_ ?_) ?_ ?_
    · rw [hpc.field Power.sillOn, hbon]
    · rw [hpc.rail_eq, hb4]
    · rw [hpc.rail_eq, hb11]
    · rw [hpc.field Power.pwrgood, hbgood]
    · rw [hpc.field Power.thermtrip, hbtrip]
    · rw [hpc.field Power.inReset, hreset]
    · rw [hpc.field Power.fenced, hfenced]
    · rw [hpc.field Power.bringing, hbringing]
  · rw [hpu.field Power.bringupAt, hat]
  · rw [((staffed_refl b).keeps hkc).settleMode.field Wright.st, hwr]
  · rw [ready_settleMode, hready]
  · rw [ready_settleMode, hready]
  · rw [hpu.rail_eq, hrail, if_pos (List.mem_range.mpr d.isLt)]
    rfl

theorem bringupStart_waits (h : mayBringUp s = false) : exec .bringupStart s = .next s := by
  change execBringupStart s = _
  unfold execBringupStart
  rw [h]
  exact if_pos rfl

end Sys2Proof.Machine
end

section
/-! A die's self-test: what failed is out of use (R29, R246, R462). -/
namespace Sys2Proof.Machine
set_option Elab.async false
variable {s t u v : State} {P : List Piece}

/-! ## Changes over a list -/

/-- Where each step changes the entries it names in one and the same idempotent way, so does the whole list. -/
theorem get_forEach {α β : Type} {get : State → Nat → β} {upd : α → State → State} {f : β → β} {q : α → Nat → Bool}
    (hu : ∀ a k (x : State), get (upd a x) k = if q a k then f (get x k) else get x k) (hf : ∀ y, f (f y) = f y) (l : List α) (k : Nat) :
    get (forEach l upd s) k = if l.any (fun a => q a k) then f (get s k) else get s k := by
  induction l generalizing s with
  | nil => rfl
  | cons a l ih =>
    rw [forEach_cons, ih, hu, List.any_cons]
    cases q a k <;> cases l.any (fun a => q a k) <;> simp [hf]

/-- Where one element of the list alone acts, the list acts as it does. -/
theorem forEach_single {α : Type} {f : α → State → State} {a : α} {l : List α} (hl : l.Nodup) (ha : a ∈ l)
    (hbefore : ∀ k ∈ l, k ≠ a → f k s = s) (hafter : ∀ k ∈ l, k ≠ a → f k (f a s) = f a s) : forEach l f s = f a s := by
  induction l with
  | nil => exact absurd ha List.not_mem_nil
  | cons b l ih =>
    obtain ⟨hb, hl⟩ := List.nodup_cons.mp hl
    rw [forEach_cons]
    by_cases he : b = a
    · subst he
      refine forEach_keeps (fun x => x = f b s) _ l _ rfl fun k hk x hx => ?_
      rw [hx]
      exact hafter k (List.mem_cons_of_mem _ hk) (ne_of_mem_of_not_mem hk hb)
    · rw [hbefore b List.mem_cons_self he]
      exact ih hl ((List.mem_cons.mp ha).resolve_left (Ne.symm he)) (fun k hk => hbefore k (List.mem_cons_of_mem _ hk))
        fun k hk => hafter k (List.mem_cons_of_mem _ hk)

theorem mem_bitsOf {n : Nat} {w : BitVec n} {i : Nat} : i ∈ bitsOf w ↔ i < n ∧ w.getLsbD i = true := by
  unfold bitsOf
  rw [List.mem_filter, List.mem_range]

theorem any_bitsOf {n : Nat} {w : BitVec n} {i : Nat} (hi : i < n) : (bitsOf w).any (fun k => decide (i = k)) = w.getLsbD i := by
  rw [Bool.eq_iff_iff, List.any_eq_true]
  constructor
  · rintro ⟨k, hk, he⟩
    rw [of_decide_eq_true he]
    exact (mem_bitsOf.mp hk).2
  · exact fun h => ⟨i, mem_bitsOf.mpr ⟨hi, h⟩, decide_eq_true rfl⟩

/-! ## Sites of a bay's cores -/

/-- The site of a core as its bay maps it. -/
def siteIn (c : Nat) (b : Bay) : BitVec 3 :=
  if c % 4 = 0 then b.site0 else if c % 4 = 1 then b.site1 else if c % 4 = 2 then b.site2 else b.site3

theorem siteOfCore_eq (s : State) (c : Nat) : siteOfCore s c = siteIn c (bay s (c / 4)) := rfl

theorem siteIn_setSite (k c : Nat) (x : BitVec 3) (y : Bay) : siteIn k (setSite c x y) = if k % 4 = c % 4 then x else siteIn k y := by
  have hk : k % 4 = 0 ∨ k % 4 = 1 ∨ k % 4 = 2 ∨ k % 4 = 3 := by omega
  have hc : c % 4 = 0 ∨ c % 4 = 1 ∨ c % 4 = 2 ∨ c % 4 = 3 := by omega
  unfold siteIn setSite
  rcases hk with hk | hk | hk | hk <;> rcases hc with hc | hc | hc | hc <;> simp [hk, hc]

theorem Keeps.bay_eq (h : Keeps P s u) (b : Nat) (hP : Piece.bay ∉ P := by decide) : bay u b = bay s b :=
  congrArg (fun x => look Bay.reset x b) (h .bay hP)

theorem siteOfCore_of_keeps (h : Keeps P s u) (c : Nat) (hP : Piece.bay ∉ P := by decide) : siteOfCore u c = siteOfCore s c := by
  rw [siteOfCore_eq, siteOfCore_eq, h.bay_eq (hP := hP)]

/-! ## A core moves to the spare site -/

theorem keeps_coreToSpare (c : Nat) : Keeps [.bay] s (coreToSpare c s) := (keeps_refl _ s).updBay

/-- The bay once its core stands at the spare site. -/
def spared (c : Nat) (old : BitVec 3) (y : Bay) : Bay :=
  { setSite c y.spare y with retired := setBit (setSite c y.spare y).retired old.toNat true, spare := 7 }

theorem coreToSpare_eq (c : Nat) : coreToSpare c s = updBay (c / 4) (spared c (siteOfCore s c)) s := rfl

/-- The source's entry takes its next generation. -/
def nextGen (now : Word) (e : SrcEnt) : SrcEnt := { e with gen := e.gen + 1, tChange := now }

theorem keeps_toSpare_core (c : Fin 160) : Keeps [.log, .thr, .wake]
    (updSrc (.core c) (nextGen s.time.now) (coreToSpare c.val s)) (toSpare (.core c) s) := by
  change Keeps _ _ (newSite (.core c) (coreToSpare c.val) s)
  unfold newSite
  dsimp only
  split
  · exact ((keeps_refl [.log, .thr, .wake] _).wrightEvent).notice
  · exact (keeps_refl [.log, .thr, .wake] _).wrightEvent

theorem bay_toSpare_core (c : Fin 160) (b : Nat) : bay (toSpare (.core c) s) b =
    if b = c.val / 4 then spared c.val (siteOfCore s c.val) (bay s (c.val / 4)) else bay s b := by
  have h : bay (updSrc (.core c) (nextGen s.time.now) (coreToSpare c.val s)) b = bay (coreToSpare c.val s) b := rfl
  rw [(keeps_toSpare_core c).bay_eq, h, coreToSpare_eq, bay_updBay]

theorem srcEnt_of_keeps (h : Keeps P s u) (x : Src) (hP : Piece.srcs ∉ P := by decide) : srcEnt u x = srcEnt s x := by
  unfold srcEnt
  rw [show u.srcs = s.srcs from h .srcs hP]

theorem gen_toSpare_core (c : Fin 160) : (srcEnt (toSpare (.core c) s) (.core c)).gen = (srcEnt s (.core c)).gen + 1 := by
  rw [srcEnt_of_keeps (keeps_toSpare_core c), srcEnt_updSrc, if_pos rfl]
  rfl

/-! ## A failed site -/

/-- The bay once the site is known to fail. -/
def badSite (site : Nat) (y : Bay) : Bay :=
  { y with bad := setBit y.bad site true, spare := if y.spare = BitVec.ofNat 3 site then 7 else y.spare }

/-- What a failed site does to a core that stands there. -/
def failCore (b : Nat) (w : BitVec 3) (c : Nat) (s : State) : State :=
  let k := 4 * b + c
  if siteOfCore s k ≠ w then s
  else if h : k < 160 then
    (if hasSpare s (.core ⟨k, h⟩) then toSpare (.core ⟨k, h⟩) s else updBay b (setSite k 7) s)
  else s

theorem failSite_eq (b site : Nat) : failSite b site s =
    forEach (List.range 4) (failCore b (BitVec.ofNat 3 site)) (updBay b (badSite site) s) := rfl

theorem keeps_failCore (b : Nat) (w : BitVec 3) (c : Nat) : Keeps [.bay, .srcs, .log, .thr, .wake] s (failCore b w c s) := by
  unfold failCore
  extract_lets k
  split
  · exact keeps_refl _ s
  · split
    · next h =>
      split
      · have hsrc : Keeps [.bay, .srcs, .log, .thr, .wake] s
            (updSrc (.core ⟨k, h⟩) (nextGen s.time.now) (coreToSpare k s)) :=
          ((keeps_refl [.bay, .srcs, .log, .thr, .wake] s).updBay).updSrc
        exact keeps_trans hsrc (keeps_mono (by decide) (keeps_toSpare_core ⟨k, h⟩))
      · exact (keeps_refl _ s).updBay
    · exact keeps_refl _ s

theorem keeps_failSite (b site : Nat) : Keeps [.bay, .srcs, .log, .thr, .wake] s (failSite b site s) := by
  rw [failSite_eq]
  exact Keeps.each ((keeps_refl _ s).updBay) fun _ _ hx => keeps_trans hx (keeps_failCore _ _ _)

theorem bad_setSite (c : Nat) (x : BitVec 3) (y : Bay) : (setSite c x y).bad = y.bad := by
  unfold setSite
  split
  · rfl
  · split
    · rfl
    · split <;> rfl

theorem failed_spared (c : Nat) (old : BitVec 3) (y : Bay) : (spared c old y).failed = y.failed := by
  change (setSite c y.spare y).failed = _
  unfold setSite
  split
  · rfl
  · split
    · rfl
    · split <;> rfl

theorem failed_setSite (c : Nat) (x : BitVec 3) (y : Bay) : (setSite c x y).failed = y.failed := by
  unfold setSite
  split
  · rfl
  · split
    · rfl
    · split <;> rfl

theorem failed_failCore (b : Nat) (w : BitVec 3) (c k : Nat) : (bay (failCore b w c s) k).failed = (bay s k).failed := by
  unfold failCore
  extract_lets i
  split
  · rfl
  · split
    · split
      · rw [bay_toSpare_core]
        split
        · next hk =>
          rw [failed_spared, hk]
        · rfl
      · rw [bay_updBay]
        split
        · next hk =>
          rw [failed_setSite, hk]
        · rfl
    · rfl

/-- A failed site fails no bay. -/
theorem failed_failSite (b site k : Nat) : (bay (failSite b site s) k).failed = (bay s k).failed := by
  rw [failSite_eq]
  refine forEach_keeps (fun x : State => (bay x k).failed = (bay s k).failed) _ _ _ ?_ fun c _ x hx => (failed_failCore _ _ _ _).trans hx
  rw [bay_updBay]
  split
  · next hk =>
    rw [hk]
    rfl
  · rfl

/-- One core stands at the site that failed: what becomes of it. -/
theorem failSite_core {b site : Nat} {c : Fin 160} (hc : c.val / 4 = b) (hsite : siteOfCore s c.val = BitVec.ofNat 3 site)
    (hone : ∀ k : Fin 160, k ≠ c → k.val / 4 = c.val / 4 → siteOfCore s k.val ≠ BitVec.ofNat 3 site) (hv : site < 5) :
    (bay (failSite b site s) b).bad.getLsbD site = true ∧
    ((bay s b).spare ≠ BitVec.ofNat 3 site → hasSpare s (.core c) = true →
      siteOfCore (failSite b site s) c.val = (bay s b).spare ∧ (bay (failSite b site s) b).spare = 7 ∧
      (srcEnt (failSite b site s) (.core c)).gen = (srcEnt s (.core c)).gen + 1) ∧
    (hasSpare s (.core c) = false → siteOfCore (failSite b site s) c.val = 7) := by
  obtain ⟨a, ha⟩ : ∃ a, a = updBay b (badSite site) s := ⟨_, rfl⟩
  have hbay : bay a b = badSite site (bay s b) := by rw [ha, bay_updBay, if_pos rfl]
  have hsrc : srcEnt a (.core c) = srcEnt s (.core c) := by
    rw [ha]
    rfl
  have hsitea (k : Nat) : siteOfCore a k = siteOfCore s k := by
    rw [siteOfCore_eq, siteOfCore_eq, ha, bay_updBay]
    split
    · next hk =>
      rw [hk]
      rfl
    · rfl
  have hbit : (badSite site (bay s b)).bad.getLsbD site = true := bit_setBit _ _ hv
  have hidx : 4 * b + c.val % 4 = c.val := by omega
  have hstep : failCore b (BitVec.ofNat 3 site) (c.val % 4) a =
      if hasSpare a (.core c) then toSpare (.core c) a else updBay b (setSite c.val 7) a := by
    unfold failCore
    simp only [hidx]
    rw [if_neg (by rw [hsitea]; exact not_not_intro hsite), dif_pos c.isLt]
  obtain ⟨w, hw⟩ : ∃ w, w = failCore b (BitVec.ofNat 3 site) (c.val % 4) a := ⟨_, rfl⟩
  have hbayw : bay w b = if hasSpare a (.core c) then spared c.val (siteOfCore a c.val) (badSite site (bay s b))
      else setSite c.val 7 (badSite site (bay s b)) := by
    rw [hw, hstep]
    split
    · rw [bay_toSpare_core, if_pos hc.symm, hc, hbay]
    · rw [bay_updBay, if_pos rfl, hbay]
  have hsitew (k : Nat) (hk : k / 4 = b) (hne : k % 4 ≠ c.val % 4) : siteOfCore w k = siteOfCore s k := by
    rw [← hsitea, siteOfCore_eq, siteOfCore_eq, hk, hbayw, hbay]
    split
    · exact (siteIn_setSite k c.val _ _).trans (if_neg hne)
    · exact (siteIn_setSite k c.val _ _).trans (if_neg hne)
  have hquiet (x : State) (hx : ∀ k, k / 4 = b → k % 4 ≠ c.val % 4 → siteOfCore x k = siteOfCore s k) (k : Nat) (hk : k ∈ List.range 4)
      (hne : k ≠ c.val % 4) : failCore b (BitVec.ofNat 3 site) k x = x := by
    have hk := List.mem_range.mp hk
    have hcl := c.isLt
    have hdiv : (4 * b + k) / 4 = b := by omega
    have hmod : (4 * b + k) % 4 = k := by omega
    refine if_pos ?_
    rw [hx _ hdiv (by omega)]
    refine hone ⟨4 * b + k, by omega⟩ (fun he => ?_) (by simp only [hdiv, hc])
    have he := congrArg Fin.val he
    simp only at he
    omega
  have hall : failSite b site s = w := by
    rw [failSite_eq, ← ha, hw]
    refine forEach_single List.nodup_range (List.mem_range.mpr (Nat.mod_lt _ (by decide))) (fun k hk hne => ?_) fun k hk hne => ?_
    · exact hquiet a (fun k _ _ => hsitea k) k hk hne
    · rw [← hw]
      exact hquiet w hsitew k hk hne
  rw [hall]
  refine ⟨?_, fun hne hsp => ?_, fun hsp => ?_⟩
  · rw [hbayw]
    split
    · exact (congrArg (fun x => BitVec.getLsbD x site) (bad_setSite _ _ _)).trans hbit
    · exact (congrArg (fun x => BitVec.getLsbD x site) (bad_setSite _ _ _)).trans hbit
  · have hspare : (badSite site (bay s b)).spare = (bay s b).spare := if_neg hne
    have hspa : hasSpare a (.core c) = true := by
      unfold hasSpare at hsp ⊢
      rw [hsrc]
      simp only [hc, hbay, hspare, hsitea] at hsp ⊢
      exact hsp
    rw [if_pos hspa] at hbayw
    refine ⟨?_, ?_, ?_⟩
    · rw [siteOfCore_eq, hc, hbayw]
      refine (siteIn_setSite c.val c.val _ _).trans ?_
      rw [if_pos rfl, hspare]
    · rw [hbayw]
      rfl
    · rw [hw, hstep, if_pos hspa, gen_toSpare_core, hsrc]
  · have hspa : ¬ hasSpare a (.core c) = true := by
      intro h
      rw [Bool.eq_false_iff] at hsp
      refine hsp ?_
      unfold hasSpare at h ⊢
      rw [hsrc] at h
      simp only [hc, hbay, hsitea] at h ⊢
      by_cases he : (bay s b).spare = BitVec.ofNat 3 site
      · have h7 : (badSite site (bay s b)).spare = 7 := if_pos he
        rw [h7] at h
        simp at h
      · have hs : (badSite site (bay s b)).spare = (bay s b).spare := if_neg he
        rw [hs] at h
        exact h
    rw [if_neg hspa] at hbayw
    rw [siteOfCore_eq, hc, hbayw]
    exact (siteIn_setSite c.val c.val _ _).trans (if_pos rfl)

end Sys2Proof.Machine
end

section
/-! The end of a die's self-test (R462). -/
namespace Sys2Proof.Machine
set_option Elab.async false
variable {s t u v : State} {P : List Piece}

/-- The bays of a die that failed. -/
def failBays (d : Nat) (w : BitVec 10) (s : State) : State :=
  forEach (bitsOf w) (fun b acc => updBay (10 * d + b) (fun y => { y with failed := true }) acc) s

/-- The engines of one cluster of a die. -/
def failCluster (d k : Nat) (s : State) : State :=
  forEach (List.range 4) (fun i a => updEngine (4 * (4 * d + k) + i) (fun y => { y with outOfService := true }) a) s

/-- The engines of the clusters of a die that failed. -/
def failClusters (d : Nat) (w : BitVec 4) (s : State) : State := forEach (bitsOf w) (failCluster d) s

/-- Every cluster of a die is powered. -/
def powerClusters (d : Nat) (s : State) : State :=
  forEach (List.range 4) (fun k acc => updCluster (4 * d + k) (fun y => { y with powered := true }) acc) s

theorem selfTestDone_eq {d : Fin 4} {sites : List (Fin 10 × Fin 5)} {bays : BitVec 10} {clusters : BitVec 4} (hon : mainOn s = true)
    (hp : (die s d.val).powered = true) (ht : (die s d.val).tested = false) (hr : (die s d.val).railDown = false) :
    exec (.selfTestDone d sites bays clusters) s =
      .next (settleMode (unitBits (dieBits (updDie d.val (fun y => { y with tested := true }) (powerClusters d.val
        (failClusters d.val clusters (failBays d.val bays
          (forEach sites (fun e acc => failSite (10 * d.val + e.1.val) e.2.val acc) s)))))))) := by
  change execSelfTestDone d sites bays clusters s = _
  unfold execSelfTestDone
  exact if_neg (by rw [hon, hp, ht, hr]; decide)

theorem bay_failBays (d : Nat) (w : BitVec 10) (k : Nat) : bay (failBays d w s) k =
    if (bitsOf w).any (fun b => decide (k = 10 * d + b)) then { bay s k with failed := true } else bay s k := by
  refine get_forEach (get := bay) (f := fun y : Bay => { y with failed := true }) (q := fun b k => decide (k = 10 * d + b))
    (fun b k x => ?_) (fun _ => rfl) _ k
  rw [bay_updBay]
  by_cases hk : k = 10 * d + b
  · rw [if_pos hk, if_pos (decide_eq_true hk), hk]
  · rw [if_neg hk, if_neg (by simp [hk])]

theorem engine_failCluster (d k e : Nat) : engine (failCluster d k s) e =
    if decide (e / 4 = 4 * d + k) then { engine s e with outOfService := true } else engine s e := by
  have h := get_forEach (s := s) (get := engine) (f := fun y : Engine => { y with outOfService := true })
    (upd := fun i a => updEngine (4 * (4 * d + k) + i) (fun y => { y with outOfService := true }) a)
    (q := fun i e => decide (e = 4 * (4 * d + k) + i)) (fun i e x => by
      rw [engine_updEngine]
      by_cases he : e = 4 * (4 * d + k) + i
      · rw [if_pos he, if_pos (decide_eq_true he), he]
      · rw [if_neg he, if_neg (by simp [he])]) (fun _ => rfl) (List.range 4) e
  have hany : (List.range 4).any (fun i => decide (e = 4 * (4 * d + k) + i)) = decide (e / 4 = 4 * d + k) := by
    rw [Bool.eq_iff_iff, List.any_eq_true, decide_eq_true_iff]
    constructor
    · rintro ⟨i, hi, he⟩
      have hi := List.mem_range.mp hi
      have he := of_decide_eq_true he
      omega
    · exact fun he => ⟨e % 4, List.mem_range.mpr (by omega), decide_eq_true (by omega)⟩
  rw [hany] at h
  exact h

theorem engine_failClusters (d : Nat) (w : BitVec 4) (e : Nat) : engine (failClusters d w s) e =
    if (bitsOf w).any (fun k => decide (e / 4 = 4 * d + k)) then { engine s e with outOfService := true } else engine s e :=
  get_forEach (get := engine) (f := fun y : Engine => { y with outOfService := true }) (q := fun k e => decide (e / 4 = 4 * d + k))
    (fun k e _ => engine_failCluster d k e) (fun _ => rfl) _ e

theorem cluster_powerClusters (d : Nat) (k : Fin 4) : (cluster (powerClusters d s) (4 * d + k.val)).powered = true := by
  have h := get_forEach (s := s) (get := cluster) (f := fun y : Cluster => { y with powered := true })
    (upd := fun k acc => updCluster (4 * d + k) (fun y => { y with powered := true }) acc) (q := fun k e => decide (e = 4 * d + k))
    (fun i e x => by
      rw [cluster_updCluster]
      by_cases he : e = 4 * d + i
      · rw [if_pos he, if_pos (decide_eq_true he), he]
      · rw [if_neg he, if_neg (by simp [he])]) (fun _ => rfl) (List.range 4) (4 * d + k.val)
  rw [if_pos (List.any_eq_true.mpr ⟨k.val, List.mem_range.mpr k.isLt, decide_eq_true rfl⟩)] at h
  have h' := congrArg Cluster.powered h
  exact h'

theorem keeps_powerClusters (d : Nat) : Keeps [.cluster] s (powerClusters d s) := Keeps.each (keeps_refl _ s) fun _ _ hx => hx.updCluster

theorem keeps_failClusters (d : Nat) (w : BitVec 4) : Keeps [.eng] s (failClusters d w s) :=
  Keeps.each (keeps_refl _ s) fun _ _ hx => Keeps.each hx fun _ _ hy => hy.updEngine

theorem keeps_failBays (d : Nat) (w : BitVec 10) : Keeps [.bay] s (failBays d w s) := Keeps.each (keeps_refl _ s) fun _ _ hx => hx.updBay

theorem Keeps.dieBits (h : Keeps P s u)
    (hP : ∀ p ∈ ([.ridge, .bw, .xing, .out, .pw, .ep, .pba] : List Piece), p ∈ P := by decide) : Keeps P s (Machine.dieBits u) := by
  refine h.via ?_ hP
  unfold Machine.dieBits
  exact (keeps_refl _ u).setReady

theorem Keeps.unitBits (h : Keeps P s u)
    (hP : ∀ p ∈ ([.ridge, .bw, .xing, .out, .pw, .ep, .pba] : List Piece), p ∈ P := by decide) : Keeps P s (Machine.unitBits u) := by
  refine h.via ?_ hP
  unfold Machine.unitBits
  exact (keeps_refl _ u).setReady

theorem Poised.dieBits (h : Poised s u) : Poised s (Machine.dieBits u) := by
  unfold Machine.dieBits
  exact h.setReady

theorem Poised.unitBits (h : Poised s u) : Poised s (Machine.unitBits u) := by
  unfold Machine.unitBits
  exact h.setReady

/-- What the end of a self-test leaves, given the state in which the failed sites are known. -/
structure SelfTested (d : Fin 4) (bays : BitVec 10) (clusters : BitVec 4) (s y u : State) : Prop where
  tested : (die u d.val).tested = true
  site : ∀ c, siteOfCore u c = siteOfCore y c
  bad : ∀ b, (bay u b).bad = (bay y b).bad ∧ (bay u b).spare = (bay y b).spare
  failed : ∀ b : Fin 10, (bay u (10 * d.val + b.val)).failed = ((bay y (10 * d.val + b.val)).failed || bays.getLsbD b.val)
  powered : ∀ k : Fin 4, (cluster u (4 * d.val + k.val)).powered = true
  service : ∀ (k : Fin 4) (i : Fin 4), (engine u (4 * (4 * d.val + k.val) + i.val)).outOfService =
    ((engine y (4 * (4 * d.val + k.val) + i.val)).outOfService || clusters.getLsbD k.val)
  srcs : ∀ x, srcEnt u x = srcEnt y x

theorem selfTestDone_runs {d : Fin 4} {sites : List (Fin 10 × Fin 5)} {bays : BitVec 10} {clusters : BitVec 4} (hon : mainOn s = true)
    (hp : (die s d.val).powered = true) (ht : (die s d.val).tested = false) (hr : (die s d.val).railDown = false) :
    ∃ u, exec (.selfTestDone d sites bays clusters) s = .next u ∧
      SelfTested d bays clusters s (forEach sites (fun e acc => failSite (10 * d.val + e.1.val) e.2.val acc) s) u := by
  obtain ⟨y, hy⟩ : ∃ y, y = forEach sites (fun e acc => failSite (10 * d.val + e.1.val) e.2.val acc) s := ⟨_, rfl⟩
  obtain ⟨a, ha⟩ : ∃ a, a = failBays d.val bays y := ⟨_, rfl⟩
  obtain ⟨b, hb⟩ : ∃ b, b = failClusters d.val clusters a := ⟨_, rfl⟩
  obtain ⟨c, hc⟩ : ∃ c, c = powerClusters d.val b := ⟨_, rfl⟩
  obtain ⟨e, he⟩ : ∃ e, e = updDie d.val (fun y => { y with tested := true }) c := ⟨_, rfl⟩
  obtain ⟨u, hu⟩ : ∃ u, u = settleMode (unitBits (dieBits e)) := ⟨_, rfl⟩
  have hka : Keeps [.bay] y a := ha ▸ keeps_failBays _ _
  have hkb : Keeps [.eng] a b := hb ▸ keeps_failClusters _ _
  have hkc : Keeps [.cluster] b c := hc ▸ keeps_powerClusters _
  have hke : Keeps [.pw] c e := by
    rw [he]
    exact (keeps_refl _ c).updDie
  have hku : Keeps [.thr, .ridge, .bw, .xing, .out, .pw, .wake, .ep, .pba, .wr, .log] e u := by
    rw [hu]
    exact ((keeps_refl _ e).dieBits.unitBits).settleMode
  have hbay (k : Nat) : bay u k = bay a k := by rw [hku.bay_eq, hke.bay_eq, hkc.bay_eq, hkb.bay_eq]
  have hbaya (k : Nat) : bay u k = if (bitsOf bays).any (fun b => decide (k = 10 * d.val + b)) then { bay y k with failed := true }
      else bay y k := by rw [hbay, ha, bay_failBays]
  have heng (k : Nat) : engine u k = engine b k := by rw [hku.engine_eq, hke.engine_eq, hkc.engine_eq]
  have hclu (k : Nat) : cluster u k = cluster c k := by rw [hku.cluster_eq, hke.cluster_eq]
  have hpu : Poised e u := by
    rw [hu]
    exact ((poised_refl e).dieBits.unitBits).settleMode
  rw [← hy]
  refine ⟨u, ?_, ?_, fun k => ?_, fun k => ?_, fun k => ?_, fun k => ?_, fun k i => ?_, fun x => ?_⟩
  · rw [selfTestDone_eq hon hp ht hr, ← hy, ← ha, ← hb, ← hc, ← he, ← hu]
  · rw [hpu.die_eq, he, die_updDie, if_pos rfl]
  · rw [siteOfCore_eq, siteOfCore_eq, hbaya]
    split <;> rfl
  · rw [hbaya]
    split <;> exact ⟨rfl, rfl⟩
  · have hany : (bitsOf bays).any (fun b => decide (10 * d.val + k.val = 10 * d.val + b)) = bays.getLsbD k.val := by
      rw [← any_bitsOf (w := bays) k.isLt]
      simp
    rw [hbaya, hany]
    cases bays.getLsbD k.val <;> simp
  · rw [hclu, hc]
    exact cluster_powerClusters _ _
  · have hdiv : (4 * (4 * d.val + k.val) + i.val) / 4 = 4 * d.val + k.val := by omega
    have hany : (bitsOf clusters).any (fun j => decide ((4 * (4 * d.val + k.val) + i.val) / 4 = 4 * d.val + j)) = clusters.getLsbD k.val := by
      rw [← any_bitsOf (w := clusters) k.isLt, hdiv]
      simp
    rw [heng, hb, engine_failClusters, hany, hka.engine_eq]
    cases clusters.getLsbD k.val <;> simp
  · rw [srcEnt_of_keeps hku, srcEnt_of_keeps hke, srcEnt_of_keeps hkc, srcEnt_of_keeps hkb, srcEnt_of_keeps hka]

/-- The row of the self-test, in the terms of the statement. -/
theorem selfTestDone_row (d : Fin 4) (sites : List (Fin 10 × Fin 5)) (bays : BitVec 10) (clusters : BitVec 4) (hon : mainOn s = true)
    (hp : (die s d.val).powered = true) (ht : (die s d.val).tested = false) (hr : (die s d.val).railDown = false) :
    ∃ u, exec (.selfTestDone d sites bays clusters) s = .next u ∧ (die u d.val).tested = true ∧
      (∀ y : Fin 10, (bay u (10 * d.val + y.val)).failed = ((bay s (10 * d.val + y.val)).failed || bays.getLsbD y.val)) ∧
      (∀ k : Fin 4, (cluster u (4 * d.val + k.val)).powered = true ∧ ∀ i : Fin 4,
        let e := 4 * (4 * d.val + k.val) + i.val
        (engine u e).outOfService = ((engine s e).outOfService || clusters.getLsbD k.val)) ∧
      (sites = [] → ∀ c : Fin 160, siteOfCore u c.val = siteOfCore s c.val) ∧
      (∀ (y : Fin 10) (v : Fin 5) (c : Fin 160), sites = [(y, v)] → c.val / 4 = 10 * d.val + y.val →
        siteOfCore s c.val = BitVec.ofNat 3 v.val →
        (∀ k : Fin 160, k ≠ c → k.val / 4 = c.val / 4 → siteOfCore s k.val ≠ BitVec.ofNat 3 v.val) →
        (bay u (c.val / 4)).bad.getLsbD v.val = true ∧
        ((bay s (c.val / 4)).spare ≠ BitVec.ofNat 3 v.val → hasSpare s (.core c) = true →
          siteOfCore u c.val = (bay s (c.val / 4)).spare ∧ (bay u (c.val / 4)).spare = 7 ∧
          (srcEnt u (.core c)).gen = (srcEnt s (.core c)).gen + 1) ∧
        (hasSpare s (.core c) = false → siteOfCore u c.val = 7)) := by
  obtain ⟨u, hrun, hu⟩ := selfTestDone_runs (sites := sites) (bays := bays) (clusters := clusters) hon hp ht hr
  obtain ⟨y, hy⟩ : ∃ y, y = forEach sites (fun e acc => failSite (10 * d.val + e.1.val) e.2.val acc) s := ⟨_, rfl⟩
  rw [← hy] at hu
  have hk : Keeps [.bay, .srcs, .log, .thr, .wake] s y := by
    rw [hy]
    exact Keeps.each (keeps_refl _ s) fun _ _ hx => keeps_trans hx (keeps_failSite _ _)
  have hfailed (k : Nat) : (bay y k).failed = (bay s k).failed := by
    rw [hy]
    exact forEach_keeps (fun x : State => (bay x k).failed = (bay s k).failed) _ _ s rfl fun e _ x hx =>
      (failed_failSite _ _ _).trans hx
  refine ⟨u, hrun, hu.tested, fun k => ?_, fun k => ⟨hu.powered k, fun i => ?_⟩, fun hnil c => ?_, fun b v c hone hc hsite hothers => ?_⟩
  · rw [hu.failed, hfailed]
  · intro e
    rw [hu.service, hk.engine_eq]
  · rw [hu.site, hy, hnil]
    rfl
  · have hy' : y = failSite (10 * d.val + b.val) v.val s := by
      rw [hy, hone]
      rfl
    obtain ⟨hbad, hspare, hnone⟩ := failSite_core hc hsite hothers v.isLt
    rw [← hy'] at hbad hspare hnone
    rw [hc]
    refine ⟨?_, fun hne hsp => ?_, fun hsp => ?_⟩
    · rw [(hu.bad _).1]
      exact hbad
    · obtain ⟨h1, h2, h3⟩ := hspare hne hsp
      exact ⟨(hu.site _).trans h1, (hu.bad _).2.trans h2, (congrArg SrcEnt.gen (hu.srcs _)).trans h3⟩
    · exact (hu.site _).trans (hnone hsp)

end Sys2Proof.Machine
end

section
/-! The Wright restarts: its watchdog and live update (R416, R439 to R441). -/
namespace Sys2Proof.Machine
set_option Elab.async false
variable {s t u v : State} {P : List Piece} {m : Mbox}

/-! ## What stands as units and messages are released -/

theorem Keeps.placeHeld {x : Thr} {r : EvRec} (h : Keeps P s u)
    (hP : ∀ p ∈ ([.thr, .core, .bay, .slice, .eng, .mem, .old, .poison, .fresh, .chan, .wake, .log] : List Piece), p ∈ P := by decide) :
    Keeps P s (Machine.placeHeld x r u) := by
  refine h.via ?_ hP
  have h := keeps_refl [.thr, .core, .bay, .slice, .eng, .mem, .old, .poison, .fresh, .chan, .wake, .log] u
  unfold Machine.placeHeld
  split
  · split
    · exact h
    · split
      · exact h.accessLost
      · exact h
  · exact h.placeEvent

theorem Keeps.releaseRouter {x : Src} (h : Keeps P s u)
    (hP : ∀ p ∈ ([.thr, .core, .bay, .slice, .eng, .mem, .old, .poison, .fresh, .chan, .wake, .log] : List Piece), p ∈ P := by decide) :
    Keeps P s (Machine.releaseRouter x u) := by
  refine h.via ?_ hP
  unfold Machine.releaseRouter
  extract_lets mine held y
  have hy : Keeps [.thr, .core, .bay, .slice, .eng, .mem, .old, .poison, .fresh, .chan, .wake, .log] u y := by
    intro p hp
    cases p <;> simp_all [Piece.same, y]
  refine Keeps.each hy fun _ _ hx => ?_
  split
  · exact hx.placeHeld
  · exact hx

theorem Keeps.noticeActive {index : BitVec 16} {payload : Word} (h : Keeps P s u)
    (hP : ∀ p ∈ ([.thr, .wake, .log] : List Piece), p ∈ P := by decide) : Keeps P s (Machine.noticeActive index payload u) := by
  refine h.via ?_ hP
  unfold Machine.noticeActive
  refine Keeps.each (keeps_refl _ u) fun _ _ hx => ?_
  split
  · exact hx.notice
  · exact hx

/-! ## A live sistering is undone -/

/-- The threads of units that were to move go on. -/
def unparkAll (s : State) : State :=
  forEach s.wr.sistering (fun e acc => forEach (thrsOfSrc e.1) (fun t a => updThr t (fun th => { th with parked := false }) a) acc) s

/-- No unit is on its way to a spare site. -/
def noSister (s : State) : State := updWr (fun w => { w with sistering := [] }) s

theorem undoSister_eq : undoSister s = answerRunning 0x401 (badD stFailed 0xFFFF)
    (forEach ((unparkAll s).wr.sistering.map (·.1)) releaseRouter (noSister (unparkAll s))) := rfl

/-- The Wright with no unit on its way to a spare site and its mailboxes apart. -/
def unsistered (w : Wright) : Wright := { staffOf w with sistering := [], boxes := [] }

theorem badD_wait (status : BitVec 8) (detail : BitVec 16) : (badD status detail).wait = false := rfl

theorem respond_badD (status : BitVec 8) (detail : BitVec 16) : respond m (badD status detail) s =
    updBox m (fun b => { b with resp := some ⟨status, detail, []⟩, effected := false }) s := rfl

theorem box_respond_badD (status : BitVec 8) (detail : BitVec 16) :
    (box (respond m (badD status detail) s) m).resp = some ⟨status, detail, []⟩ := by
  rw [respond_badD, box_updBox, if_pos rfl]

/-- Undoing it changes nothing of the power state or the Wright but the sistering and the command's answer. -/
theorem undoSister_spec (s : State) : (undoSister s).wr.sistering = [] ∧ unsistered (undoSister s).wr = unsistered s.wr ∧
    Poised s (undoSister s) ∧ (undoSister s).pw.ready = s.pw.ready ∧ (undoSister s).time = s.time ∧
    ((box s m).resp = some ⟨8, 0xFFFF, []⟩ → (box (undoSister s) m).resp = some ⟨8, 0xFFFF, []⟩) := by
  obtain ⟨a, ha⟩ : ∃ a, a = unparkAll s := ⟨_, rfl⟩
  have hka : Keeps [.thr] s a := by
    rw [ha]
    exact Keeps.each (keeps_refl _ s) fun _ _ hx => Keeps.each hx fun _ _ hy => hy.updThr
  obtain ⟨b, hb⟩ : ∃ b, b = noSister a := ⟨_, rfl⟩
  have hkb : Keeps [.wr] a b := by
    rw [hb]
    exact (keeps_refl _ a).updWr
  obtain ⟨c, hc⟩ : ∃ c, c = forEach (a.wr.sistering.map (·.1)) releaseRouter b := ⟨_, rfl⟩
  have hkc : Keeps [.thr, .core, .bay, .slice, .eng, .mem, .old, .poison, .fresh, .chan, .wake, .log] b c := by
    rw [hc]
    exact Keeps.each (keeps_refl _ b) fun _ _ hx => hx.releaseRouter
  have hu : undoSister s = answerRunning 0x401 (badD stFailed 0xFFFF) c := by rw [undoSister_eq, ← ha, ← hb, ← hc]
  have hku : Keeps [.wr] c (undoSister s) := by
    rw [hu]
    unfold answerRunning
    split
    · exact (keeps_refl _ c).updBox
    · exact keeps_refl _ c
  have hstaffc : Staffed b c := (staffed_refl b).keeps hkc
  have hwr : (undoSister s).wr.sistering = c.wr.sistering ∧ unsistered (undoSister s).wr = unsistered c.wr := by
    rw [hu]
    unfold answerRunning
    split <;> exact ⟨rfl, rfl⟩
  refine ⟨?_, ?_, ?_, ?_, ?_, fun hresp => ?_⟩
  · rw [hwr.1, hstaffc.field Wright.sistering, hb]
    rfl
  · rw [hwr.2, hstaffc.field unsistered, hb]
    exact ((staffed_refl s).keeps hka).field unsistered
  · exact ((((poised_refl s).keeps hka).keeps hkb).keeps hkc).keeps hku
  · rw [ready_of_keeps hku, ready_of_keeps hkc, ready_of_keeps hkb, ready_of_keeps hka]
  · rw [show (undoSister s).time = c.time from hku .time (by decide), show c.time = b.time from hkc .time (by decide),
      show b.time = a.time from hkb .time (by decide), show a.time = s.time from hka .time (by decide)]
  · have hbox : box c m = box s m := by
      rw [hkc.box_eq (by decide), hb]
      exact hka.box_eq (by decide) m
    rw [hu]
    unfold answerRunning
    split
    · next k hk =>
      rw [respond_badD, box_updBox]
      split
      · rfl
      · rw [hbox]
        exact hresp
    · rw [hbox]
      exact hresp

/-! ## The Wright stops serving -/

/-- The Wright as it restarts. -/
def restartingWr (s : State) : State := updWr (fun w => { w with st := .restarting, since := s.time.now }) s

theorem restartWright_eq (update : Bool) : restartWright update s =
    noticeActive 1 (atB update 0) (setReady (fun r => { r with wright := false }) (restartingWr s)) := rfl

theorem restartWright_spec (update : Bool) : Staffed (restartingWr s) (restartWright update s) ∧
    (restartWright update s).pw.ready.wright = false := by
  obtain ⟨a, ha⟩ : ∃ a, a = setReady (fun r => { r with wright := false }) (restartingWr s) := ⟨_, rfl⟩
  have hka : Keeps [.ridge, .bw, .xing, .out, .pw, .ep, .pba] (restartingWr s) a := by
    rw [ha]
    exact (keeps_refl _ _).setReady
  have hku : Keeps [.thr, .wake, .log] a (restartWright update s) := by
    rw [restartWright_eq, ← ha]
    exact (keeps_refl _ a).noticeActive
  refine ⟨((staffed_refl _).keeps hka).keeps hku, ?_⟩
  rw [ready_of_keeps hku, ha, ready_setReady]

/-! ## The watchdog -/

/-- Restarts in the last 10 seconds. -/
def recentRestarts (s : State) : List Word := s.wr.restarts.filter (fun t => decide (s.time.now.toNat < t.toNat + 10000000000))

/-- This restart is noted with those of the last 10 seconds. -/
def noteRestart (s : State) : State := updWr (fun w => { w with restarts := recentRestarts s ++ [s.time.now] }) s

/-- A live update that was to begin fails. -/
def failUpdate (s : State) : State :=
  match s.wr.update with
  | .taken m _ => respond m (badD stFailed 0xFFFF) (updWr (fun w => { w with update := .none }) s)
  | _ => s

theorem watchdogExpire_waits (h : s.wr.st ≠ .serving ∨ ¬ s.wr.wdServed.toNat + 50000000 ≤ s.time.now.toNat) :
    exec .watchdogExpire s = .next s := by
  change execWatchdogExpire s = _
  unfold execWatchdogExpire
  refine if_pos ?_
  rcases h with h | h
  · simp [h]
  · simp [Nat.not_le.mp h]

theorem watchdogExpire_eq (hs : s.wr.st = .serving) (hd : s.wr.wdServed.toNat + 50000000 ≤ s.time.now.toNat) :
    exec .watchdogExpire s = if 3 ≤ (recentRestarts s ++ [s.time.now]).length then .next (stopWright (noteRestart s))
      else .next (restartWright false (undoSister (failUpdate (noteRestart s)))) := by
  change execWatchdogExpire s = _
  unfold execWatchdogExpire
  exact if_neg (by simp [hs, Nat.not_lt.mpr hd])

theorem watchdog_restarts (hs : s.wr.st = .serving) (hd : s.wr.wdServed.toNat + 50000000 ≤ s.time.now.toNat)
    (hr : (recentRestarts s).length < 2) : ∃ u, exec .watchdogExpire s = .next u ∧ u.wr.st = .restarting ∧
      u.wr.restarts = recentRestarts s ++ [s.time.now] ∧ u.wr.sistering = [] ∧ u.pw.ready.wright = false ∧
      (∀ (m : Mbox) (a : Bool), s.wr.update = .taken m a → (box u m).resp = some ⟨8, 0xFFFF, []⟩ ∧ u.wr.update = .none) := by
  obtain ⟨a, ha⟩ : ∃ a, a = failUpdate (noteRestart s) := ⟨_, rfl⟩
  have hrun : exec .watchdogExpire s = .next (restartWright false (undoSister a)) := by
    rw [watchdogExpire_eq hs hd, if_neg (by rw [List.length_append]; simpa using hr), ha]
  obtain ⟨hstaff, hready⟩ := restartWright_spec (s := undoSister a) false
  obtain ⟨u, hu⟩ : ∃ u, u = restartWright false (undoSister a) := ⟨_, rfl⟩
  rw [← hu] at hstaff hready
  have hrest : a.wr.restarts = recentRestarts s ++ [s.time.now] := by
    rw [ha]
    unfold failUpdate
    split <;> rfl
  have hfield {α : Type} (f : Wright → α) (hf : ∀ w, f (staffOf w) = f w) (hf' : ∀ w, f (unsistered w) = f w)
      (hst : ∀ w st n, f { w with st := st, since := n } = f w) : f u.wr = f a.wr := by
    rw [hstaff.field f hf]
    refine (hst _ _ _).trans ?_
    obtain ⟨-, hw, -⟩ := undoSister_spec (m := .mgmt) a
    rw [← hf', hw, hf']
  refine ⟨u, hrun.trans (by rw [hu]), ?_, ?_, ?_, hready, fun m b htaken => ⟨?_, ?_⟩⟩
  · rw [hstaff.field Wright.st]
    rfl
  · rw [hfield Wright.restarts (fun _ => rfl) (fun _ => rfl) fun _ _ _ => rfl, hrest]
  · rw [hstaff.field Wright.sistering]
    exact (undoSister_spec (m := .mgmt) a).1
  · have hbox : box u m = box (undoSister a) m := by
      have e := hstaff.field (fun w => look MboxSt.reset w.boxes (boxKey m))
      exact e
    rw [hbox]
    obtain ⟨-, -, -, -, -, hresp⟩ := undoSister_spec (m := m) a
    refine hresp ?_
    have hfail : a = respond m (badD stFailed 0xFFFF) (updWr (fun w => { w with update := .none }) (noteRestart s)) := by
      rw [ha]
      unfold failUpdate
      rw [show (noteRestart s).wr.update = .taken m b from htaken]
    rw [hfail]
    exact box_respond_badD _ _
  · rw [hfield Wright.update (fun _ => rfl) (fun _ => rfl) fun _ _ _ => rfl, ha]
    unfold failUpdate
    rw [show (noteRestart s).wr.update = .taken m b from htaken]
    rfl

/-! ## The Wright is stopped -/

/-- A command that is open is answered UNAVAILABLE. -/
def failBox (m : Mbox) (s : State) : State :=
  if (box s m).st = 1 then finishBox m stUnavailable 0 [] (box s m).lastSeq (box s m).tTaken s else s

/-- The mailboxes that are not on the urgent path. -/
def plainBoxes : List Mbox :=
  (List.finRange 7).map (fun i => Mbox.host (i.castLE (by omega))) ++ [Mbox.mgmt] ++ (List.finRange 16).map Mbox.dev

/-- The Wright stands stopped. -/
def stoppedWr (s : State) : State := updWr (fun w => { w with st := .stopped, update := .none, order := [] }) s

theorem stopWright_eq : stopWright s = forEach plainBoxes failBox (setReady (fun r => { r with wright := false }) (stoppedWr s)) := rfl

theorem mem_plainBoxes (h : isUrgent m = false) : m ∈ plainBoxes := by
  unfold plainBoxes
  rw [List.mem_append, List.mem_append]
  cases m with
  | host k =>
    have hk : k.val ≠ 7 := of_decide_eq_false h
    refine .inl (.inl (List.mem_map.mpr ⟨⟨k.val, by omega⟩, List.mem_finRange _, rfl⟩))
  | mgmt => exact .inl (.inr List.mem_cons_self)
  | mgmtUrgent => cases h
  | dev k => exact .inr (List.mem_map.mpr ⟨k, List.mem_finRange _, rfl⟩)

/-- The mailbox answers that the Wright is gone. -/
def Unserved (seq : BitVec 16) (b : MboxSt) : Prop := b.st = 2 ∧ pageWord b 8 = 0x0C ||| at' seq 32

theorem unserved_finishBox (m : Mbox) (seq : BitVec 16) (taken : Word) :
    Unserved seq (box (finishBox m stUnavailable 0 [] seq taken s) m) := by
  have hb : box (finishBox m stUnavailable 0 [] seq taken s) m = finishedBox stUnavailable 0 [] seq taken s.time.now (box s m) := by
    rw [box_finishBox, if_pos rfl]
  have hpage := answerPage_finishedBox stUnavailable 0 [] seq taken s.time.now (box s m) _ (congrArg MboxSt.page hb)
  refine ⟨by rw [hb]; rfl, ?_⟩
  rw [hpage.1]
  have h0 : at' (BitVec.ofNat 12 ([] : List Byte).length) 16 = 0 := by decide
  have h1 : at' (0 : BitVec 16) 48 = 0 := by decide
  have h2 : at' stUnavailable 0 = (0x0C : Word) := by decide
  rw [h0, h1, h2]
  simp

theorem box_failBox_other {k : Mbox} (hk : m ≠ k) : box (failBox k s) m = box s m := by
  unfold failBox
  split
  · rw [box_finishBox, if_neg hk]
  · rfl

theorem unserved_failBox {seq : BitVec 16} (k : Mbox) (h : Unserved seq (box s m)) : Unserved seq (box (failBox k s) m) := by
  by_cases hk : m = k
  · subst hk
    have hst : ¬ (box s m).st = 1 := by
      rw [h.1]
      decide
    unfold failBox
    rw [if_neg hst]
    exact h
  · rw [box_failBox_other hk]
    exact h

theorem unserved_failBoxes {l : List Mbox} (hm : m ∈ l) (h : (box s m).st = 1) :
    Unserved (box s m).lastSeq (box (forEach l failBox s) m) := by
  induction l generalizing s with
  | nil => exact absurd hm List.not_mem_nil
  | cons k l ih =>
    rw [forEach_cons]
    by_cases hk : m = k
    · subst hk
      have hdone : Unserved (box s m).lastSeq (box (failBox m s) m) := by
        unfold failBox
        rw [if_pos h]
        exact unserved_finishBox _ _ _
      exact forEach_keeps (fun y => Unserved (box s m).lastSeq (box y m)) _ l _ hdone fun k _ y hy => unserved_failBox k hy
    · have hsame := box_failBox_other (s := s) hk
      have h' := ih (s := failBox k s) ((List.mem_cons.mp hm).resolve_left hk) (by rw [hsame]; exact h)
      rw [hsame] at h'
      exact h'

theorem keeps_failBoxes (l : List Mbox) :
    Keeps [.wr, .thr, .ridge, .bw, .xing, .out, .wake, .pba] s (forEach l failBox s) := by
  refine Keeps.each (keeps_refl _ s) fun k y hy => ?_
  unfold failBox
  split
  · exact hy.finishBox
  · exact hy

theorem st_failBoxes (l : List Mbox) : (forEach l failBox s).wr.st = s.wr.st := by
  refine forEach_keeps (fun y : State => y.wr.st = s.wr.st) _ l s rfl fun k _ y hy => ?_
  refine Eq.trans ?_ hy
  unfold failBox
  split
  · unfold finishBox
    dsimp only
    exact ((staffed_refl _).keeps (keeps_signalBox k _ _ _)).field Wright.st
  · rfl

theorem watchdog_stops (hs : s.wr.st = .serving) (hd : s.wr.wdServed.toNat + 50000000 ≤ s.time.now.toNat)
    (hr : 2 ≤ (recentRestarts s).length) : ∃ u, exec .watchdogExpire s = .next u ∧ u.wr.st = .stopped ∧
      u.pw.ready.wright = false ∧ ∀ m, isUrgent m = false → (box s m).st = 1 → (box u m).st = 2 ∧
        pageWord (box u m) 8 = 0x0C ||| at' (box s m).lastSeq 32 := by
  obtain ⟨a, ha⟩ : ∃ a, a = setReady (fun r => { r with wright := false }) (stoppedWr (noteRestart s)) := ⟨_, rfl⟩
  have hka : Keeps [.ridge, .bw, .xing, .out, .pw, .ep, .pba] (stoppedWr (noteRestart s)) a := by
    rw [ha]
    exact (keeps_refl _ _).setReady
  refine ⟨forEach plainBoxes failBox a, ?_, ?_, ?_, fun m hm hst => ?_⟩
  · rw [watchdogExpire_eq hs hd, if_pos (by rw [List.length_append]; simpa using hr), stopWright_eq, ← ha]
  · rw [st_failBoxes, ((staffed_refl _).keeps hka).field Wright.st]
    rfl
  · rw [ready_of_keeps (keeps_failBoxes _), ha, ready_setReady]
  · have hbox : box a m = box s m := hka.box_eq (by decide) m
    have h := unserved_failBoxes (s := a) (mem_plainBoxes hm) (by rw [hbox]; exact hst)
    rw [hbox] at h
    exact h

/-! ## A live update begins, and its time ends -/

theorem activateRestart_runs {a : Bool} (hu : s.wr.update = .taken m a) (hs : s.wr.st = .serving) (ho : ∀ k ∈ s.wr.order, k = m) :
    ∃ u, exec .activateRestart s = .next u ∧ u.wr.st = .restarting ∧ u.wr.update = .starting m a s.time.now ∧
      u.pw.ready.wright = false := by
  obtain ⟨y, hy⟩ : ∃ y, y = updWr (fun w => { w with update := .starting m a s.time.now }) (undoSister s) := ⟨_, rfl⟩
  obtain ⟨hstaff, hready⟩ := restartWright_spec (s := y) true
  refine ⟨restartWright true y, ?_, ?_, ?_, hready⟩
  · change execActivateRestart s = _
    unfold execActivateRestart
    rw [hu]
    dsimp only
    rw [if_neg (by simp [hs]; exact fun k hk => ho k hk), hy]
  · rw [hstaff.field Wright.st]
    rfl
  · rw [hstaff.field Wright.update, hy]
    rfl

theorem activateRestart_waits {a : Bool} (hu : s.wr.update = .taken m a) (ho : ∃ k ∈ s.wr.order, k ≠ m) :
    exec .activateRestart s = .next s := by
  obtain ⟨k, hk, hne⟩ := ho
  have hany : s.wr.order.any (fun x => x ≠ m) = true := List.any_eq_true.mpr ⟨k, hk, decide_eq_true hne⟩
  change execActivateRestart s = _
  unfold execActivateRestart
  rw [hu]
  dsimp only
  rw [if_pos (by rw [hany, Bool.or_true])]

theorem activateTimeout_row {a : Bool} {since : Word} (hu : s.wr.update = .starting m a since) :
    (since.toNat + 200000000 ≤ s.time.now.toNat → ∃ u, exec .activateTimeout s = .next u ∧ Keeps [.wr] s u ∧
      u.wr = { s.wr with update := .returning m a }) ∧
    (s.time.now.toNat < since.toNat + 200000000 → exec .activateTimeout s = .next s) := by
  refine ⟨fun h => ⟨updWr (fun w => { w with update := .returning m a }) s, ?_, (keeps_refl _ s).updWr, rfl⟩, fun h => ?_⟩
  · change execActivateTimeout s = _
    unfold execActivateTimeout
    rw [hu]
    dsimp only
    rw [if_neg (Nat.not_lt.mpr h)]
  · change execActivateTimeout s = _
    unfold execActivateTimeout
    rw [hu]
    dsimp only
    rw [if_pos h]

end Sys2Proof.Machine
end

section
/-! The Wright serves: at boot, after a restart and in a live update (R439, R440, R462, R470, R474). -/
namespace Sys2Proof.Machine
set_option Elab.async false
variable {s t u v : State} {P : List Piece} {m : Mbox}

/-! ## The newest entries of the log -/

/-- The entry stands in the log, with at most `k` entries after it. -/
def Logged (e : LogE) (k : Nat) (s : State) : Prop := ∃ pre post, s.wr.log = pre ++ e :: post ∧ post.length ≤ k

theorem Logged.mem {e : LogE} {k : Nat} (h : Logged e k s) : e ∈ s.wr.log := by
  obtain ⟨pre, post, hlog, -⟩ := h
  rw [hlog]
  exact List.mem_append_right _ List.mem_cons_self

theorem Logged.of_log {e : LogE} {k : Nat} (h : Logged e k s) (hl : u.wr.log = s.wr.log) : Logged e k u := by
  obtain ⟨pre, post, hlog, hk⟩ := h
  exact ⟨pre, post, hl.trans hlog, hk⟩

theorem log_logEntry (type : BitVec 16) (a b : Word) : (logEntry type a b s).wr.log =
    (s.wr.log ++ [LogE.mk s.time.now s.wr.logNext type a b]).drop (s.wr.log.length + 1 - 16384) := by
  unfold logEntry updWr
  dsimp only

/-- The log of 16,384 entries keeps the new one. -/
theorem logged_logEntry (type : BitVec 16) (a b : Word) : Logged ⟨s.time.now, s.wr.logNext, type, a, b⟩ 0 (logEntry type a b s) := by
  refine ⟨s.wr.log.drop (s.wr.log.length + 1 - 16384), [], ?_, le_refl _⟩
  rw [log_logEntry, List.drop_append_of_le_length (by omega)]

theorem Logged.logEntry {e : LogE} {k : Nat} (h : Logged e k s) (hk : k + 2 ≤ 16384) (type : BitVec 16) (a b : Word) :
    Logged e (k + 1) (Machine.logEntry type a b s) := by
  obtain ⟨pre, post, hlog, hpost⟩ := h
  have hlen : s.wr.log.length = pre.length + (post.length + 1) := by rw [hlog, List.length_append, List.length_cons]
  refine ⟨pre.drop (s.wr.log.length + 1 - 16384), post ++ [⟨s.time.now, s.wr.logNext, type, a, b⟩], ?_, by simp; omega⟩
  rw [log_logEntry]
  have hn : s.wr.log.length + 1 - 16384 ≤ pre.length := by omega
  generalize s.wr.log.length + 1 - 16384 = n at hn
  rw [hlog, List.append_assoc, List.drop_append_of_le_length hn, List.cons_append]

theorem Logged.wrightEvent {e : LogE} {k : Nat} (h : Logged e k s) (hk : k + 2 ≤ 16384) (type : BitVec 16) (a b : Word) :
    Logged e (k + 1) (Machine.wrightEvent type a b s) := by
  have hweak : Logged e (k + 1) s := by
    obtain ⟨pre, post, hlog, hpost⟩ := h
    exact ⟨pre, post, hlog, Nat.le_succ_of_le hpost⟩
  unfold Machine.wrightEvent
  split
  · split
    · exact (h.of_log (u := updWr (fun w => { w with heldEvents := w.heldEvents + 1 }) s) rfl).logEntry hk type a b
    · exact hweak.of_log rfl
  · exact h.logEntry hk type a b

theorem Logged.notice {e : LogE} {k : Nat} (h : Logged e k s) (hk : k + 2 ≤ 16384) (p : Nat) (index : BitVec 16) (payload : Word) :
    Logged e (k + 1) (Machine.notice p index payload s) := by
  unfold Machine.notice
  split
  · obtain ⟨pre, post, hlog, hpost⟩ := h
    have hkeep := (keeps_refl [.thr, .wake] s).partEvent (p := p) (source := 7) (index := index) (payload := payload)
    exact ⟨pre, post, ((hkeep .log (by decide)).1).trans hlog, Nat.le_succ_of_le hpost⟩
  · exact h.wrightEvent hk _ _ _

theorem Logged.noticeActive {e : LogE} {k : Nat} (h : Logged e k s) (hk : k + 10 ≤ 16384) (index : BitVec 16) (payload : Word) :
    ∃ j, Logged e j (Machine.noticeActive index payload s) := by
  have hall (l : List Nat) : ∀ {k : Nat} {x : State}, Logged e k x → k + l.length + 2 ≤ 16384 →
      ∃ j, Logged e j (forEach l (fun p acc => if (part acc p).st = .active then Machine.notice p index payload acc else acc) x) := by
    induction l with
    | nil => exact fun hx _ => ⟨_, hx⟩
    | cons p l ih =>
      intro k x hx hlen
      rw [List.length_cons] at hlen
      rw [forEach_cons]
      by_cases hp : (part x p).st = .active
      · rw [if_pos hp]
        exact ih (hx.notice (by omega) p index payload) (by omega)
      · rw [if_neg hp]
        exact ih hx (by omega)
  exact hall (List.range 8) h (by rw [List.length_range]; omega)

/-! ## It serves again -/

theorem keeps_servingAgain (update : Bool) : Keeps [.thr, .wake, .log] s (servingAgain update s) := by
  have hheld (x : State) : Keeps [.thr, .wake, .log] x (updWr (fun w => { w with heldEvents := 0, lostEvents := 0 }) x) := by
    intro p hp
    cases p <;> simp_all [Piece.same, updWr, Wright.noLog]
  unfold servingAgain
  extract_lets n a b
  have ha : Keeps [.thr, .wake, .log] s a := (keeps_refl _ s).logEntry
  have hb : Keeps [.thr, .wake, .log] s b := by
    unfold b
    split
    · exact ha
    · exact ha.logEntry
  exact (keeps_trans hb (hheld b)).noticeActive

/-- The restart is logged with the version that runs. -/
theorem servingAgain_logs (update : Bool) :
    ∃ e ∈ (servingAgain update s).wr.log, e.type = 0x0A ∧ e.b = activeVersion s := by
  unfold servingAgain
  extract_lets n a b
  have ha := logged_logEntry (s := s) 0x000A (atB update 0 ||| at' (BitVec.ofNat 8 n) 8) (activeVersion s)
  have hb : ∃ j, j ≤ 1 ∧ Logged ⟨s.time.now, s.wr.logNext, 0x000A, atB update 0 ||| at' (BitVec.ofNat 8 n) 8, activeVersion s⟩ j b := by
    unfold b
    split
    · exact ⟨0, by decide, ha⟩
    · exact ⟨1, le_refl _, ha.logEntry (by decide) _ _ _⟩
  obtain ⟨j, hj, hlog⟩ := hb
  obtain ⟨i, hi⟩ := (hlog.of_log (u := updWr (fun w => { w with heldEvents := 0, lostEvents := 0 }) b) rfl).noticeActive
    (by omega) 2 (activeVersion b)
  exact ⟨_, hi.mem, rfl, rfl⟩

/-! ## It serves from a slot -/

/-- The Wright as it serves from a slot. -/
def servingWr (b : Bool) (s : State) : State :=
  updWr (fun w => { w with st := .serving, since := s.time.now, wdServed := s.time.now, store := { w.store with active := some b } }) s

theorem serveFrom_eq (b : Bool) : serveFrom b s = setReady (fun r => { r with wright := true, store := true }) (servingWr b s) := rfl

theorem keeps_serveFrom (b : Bool) : Keeps [.ridge, .bw, .xing, .out, .pw, .ep, .pba] (servingWr b s) (serveFrom b s) := by
  rw [serveFrom_eq]
  exact (keeps_refl _ _).setReady

theorem staffed_serveFrom (b : Bool) : Staffed (servingWr b s) (serveFrom b s) := (staffed_refl _).keeps (keeps_serveFrom b)

theorem ready_serveFrom (b : Bool) : (serveFrom b s).pw.ready = { s.pw.ready with wright := true, store := true } := by
  rw [serveFrom_eq, ready_setReady]
  rfl

theorem activeVersion_of {b : Bool} (h : s.wr.store.active = some b) : activeVersion s = fwVersion (slotOf s.wr.store b) := by
  unfold activeVersion
  rw [h]

theorem slotOf_active (st : Store) (a : Option Bool) (b : Bool) : slotOf { st with active := a } b = slotOf st b := by
  cases b <;> rfl

/-- The version's bytes are those of its word. -/
theorem bytesOf_fwVersion (x : Slot) : bytesOf 8 (fwVersion x) = slotBytes x 8 8 := by
  have hlen : (slotBytes x 8 8).length = 8 := by simp [slotBytes]
  refine List.ext_getElem (by rw [length_bytesOf, hlen]) fun i h1 h2 => ?_
  have hi : i < 8 := by rwa [hlen] at h2
  have h := extractLsb'_wordOf (slotBytes x 8 8) i h2 hi
  rw [← h]
  simp only [bytesOf, List.getElem_map, List.getElem_range]
  rfl

theorem servingWr_store (b c : Bool) : (servingWr b s).wr.store.active = some b ∧
    slotOf (servingWr b s).wr.store c = slotOf s.wr.store c :=
  ⟨rfl, slotOf_active _ _ _⟩

/-- The Wright as it serves again from a slot: what each of the three ways shares. -/
theorem serveFrom_again (update b : Bool) : Staffed (servingWr b s) (servingAgain update (serveFrom b s)) ∧
    (servingAgain update (serveFrom b s)).pw.ready.wright = true := by
  refine ⟨(staffed_serveFrom b).keeps (keeps_servingAgain update), ?_⟩
  rw [ready_of_keeps (keeps_servingAgain update), ready_serveFrom]

section restarted
variable (hon : mainOn s = true) (hclk : s.pw.clkWright = false) (hst : s.wr.st = .restarting)
include hon hclk hst

theorem wrightServing_starting {a : Bool} {since : Word} (hu : s.wr.update = .starting m a since) (hpass : slotPasses s a = true)
    (hact : s.wr.store.active ≠ none) : ∃ u, exec .wrightServing s = .next u ∧ u.wr.st = .serving ∧
      u.wr.store.active = some a ∧ u.wr.update = .none ∧ u.pw.ready.wright = true ∧
      (box u m).resp = some ⟨0, 0, slotBytes (slotOf s.wr.store a) 8 8⟩ := by
  obtain ⟨x, hx⟩ : ∃ x, x = updWr (fun w => { w with update := .none }) (serveFrom a s) := ⟨_, rfl⟩
  obtain ⟨y, hy⟩ : ∃ y, y = servingAgain true x := ⟨_, rfl⟩
  have hk : Keeps [.thr, .wake, .log] x y := hy ▸ keeps_servingAgain true
  have hstaff : Staffed x y := (staffed_refl x).keeps hk
  have hfirst : s.wr.store.active.isNone = false := by
    cases h : s.wr.store.active with
    | none => exact absurd h hact
    | some b => rfl
  have hrun : exec .wrightServing s = .next (respond m (ok (bytesOf 8 (activeVersion y))) y) := by
    change execWrightServing s = _
    unfold execWrightServing
    rw [if_neg (by rw [hon, hclk]; decide), hst, hu]
    dsimp only
    rw [if_neg (by rw [hpass]; decide), hfirst, hy, hx]
    exact congrArg Host.Outcome.next (if_neg Bool.false_ne_true)
  have hstore : y.wr.store = { s.wr.store with active := some a } := by
    rw [hstaff.field Wright.store, hx]
    exact (staffed_serveFrom a).field Wright.store
  have hst' : y.wr.st = .serving := by
    rw [hstaff.field Wright.st, hx]
    exact (staffed_serveFrom a).field Wright.st
  have hversion : activeVersion y = fwVersion (slotOf s.wr.store a) := by
    rw [activeVersion_of (b := a) (by rw [hstore]), hstore, slotOf_active]
  have hready : y.pw.ready.wright = true := by
    rw [ready_of_keeps hk, hx]
    change (serveFrom a s).pw.ready.wright = true
    rw [ready_serveFrom]
  refine ⟨_, hrun, hst', ?_, ?_, hready, ?_⟩
  · change y.wr.store.active = _
    rw [hstore]
  · change y.wr.update = _
    rw [hstaff.field Wright.update, hx]
    rfl
  · rw [hversion, bytesOf_fwVersion]
    change (box (updBox m _ y) m).resp = _
    rw [box_updBox, if_pos rfl]
    rfl

theorem wrightServing_returning {a b : Bool} (hu : s.wr.update = .returning m a) (hact : s.wr.store.active = some b) :
    ∃ u, exec .wrightServing s = .next u ∧ u.wr.st = .serving ∧ u.wr.store.active = some b ∧ u.wr.update = .none ∧
      (box u m).resp = some ⟨8, 1, []⟩ := by
  obtain ⟨x, hx⟩ : ∃ x, x = updWr (fun w => { w with update := .none }) s := ⟨_, rfl⟩
  obtain ⟨y, hy⟩ : ∃ y, y = servingAgain true (serveFrom b x) := ⟨_, rfl⟩
  have hrun : exec .wrightServing s = .next (respond m (badD stFailed 1) y) := by
    change execWrightServing s = _
    unfold execWrightServing
    rw [if_neg (by rw [hon, hclk]; decide), hst, hu]
    dsimp only
    rw [hact, hy, hx]
  have hstaff : Staffed (servingWr b x) y := by
    rw [hy]
    exact (serveFrom_again true b).1
  refine ⟨_, hrun, ?_, ?_, ?_, box_respond_badD _ _⟩
  · change y.wr.st = _
    rw [hstaff.field Wright.st]
    rfl
  · change y.wr.store.active = _
    rw [hstaff.field Wright.store]
    rfl
  · change y.wr.update = _
    rw [hstaff.field Wright.update, hx]
    rfl

theorem wrightServing_again {b : Bool} (hu : s.wr.update = .none) (hact : s.wr.store.active = some b) :
    (slotPasses s b = true → ∃ u, exec .wrightServing s = .next u ∧ u.wr.st = .serving ∧ u.wr.store.active = some b ∧
      u.pw.ready.wright = true ∧ ∃ e ∈ u.wr.log, e.type = 0x0A ∧ e.b = fwVersion (slotOf s.wr.store b)) ∧
    (slotPasses s b = false → exec .wrightServing s = .next s) := by
  have hrun : exec .wrightServing s = .next (if slotPasses s b then servingAgain false (serveFrom b s) else s) := by
    change execWrightServing s = _
    unfold execWrightServing
    rw [if_neg (by rw [hon, hclk]; decide), hst, hu]
    dsimp only
    rw [hact]
  refine ⟨fun hp => ?_, fun hp => ?_⟩
  · rw [if_pos hp] at hrun
    obtain ⟨hstaff, hready⟩ := serveFrom_again (s := s) false b
    refine ⟨_, hrun, ?_, ?_, hready, ?_⟩
    · rw [hstaff.field Wright.st]
      rfl
    · rw [hstaff.field Wright.store]
      rfl
    · obtain ⟨e, he, htype, hb⟩ := servingAgain_logs (s := serveFrom b s) false
      refine ⟨e, he, htype, hb.trans ?_⟩
      have hstore : (serveFrom b s).wr.store = { s.wr.store with active := some b } := (staffed_serveFrom b).field Wright.store
      rw [activeVersion_of (b := b) (by rw [hstore]), hstore, slotOf_active]
  · rw [if_neg (by rw [hp]; decide)] at hrun
    exact hrun

end restarted

end Sys2Proof.Machine
end

section
/-! The boot ROM serves from a slot that verifies (R462, R470, R474). -/
namespace Sys2Proof.Machine
set_option Elab.async false
variable {s t u v : State} {P : List Piece}

/-! ## What the firmware's settings leave unchanged -/

/-- The Wright without its logs and its mailboxes. -/
def shelfOf (w : Wright) : Wright := { staffOf w with boxes := [] }

/-- TIME, the readiness map and the Wright's own state stand, its logs and mailboxes apart. -/
structure Booted (s u : State) : Prop where
  time : u.time = s.time
  ready : u.pw.ready = s.pw.ready
  shelf : shelfOf u.wr = shelfOf s.wr

theorem booted_refl (s : State) : Booted s s := ⟨rfl, rfl, rfl⟩

theorem Booted.trans (h : Booted s u) (k : Booted u v) : Booted s v :=
  ⟨k.time.trans h.time, k.ready.trans h.ready, k.shelf.trans h.shelf⟩

theorem Booted.keeps (h : Booted s u) (k : Keeps P u v) (ht : Piece.time ∉ P := by decide) (hp : Piece.pw ∉ P := by decide)
    (hw : Piece.wr ∉ P := by decide) : Booted s v :=
  h.trans ⟨k .time ht, ready_of_keeps k hp, ((staffed_refl u).keeps k hw).field shelfOf⟩

theorem Booted.updPw {f : Power → Power} (h : Booted s u) (hf : ∀ p, (f p).ready = p.ready := by exact fun _ => rfl) :
    Booted s (Machine.updPw f u) := h.trans ⟨rfl, hf _, rfl⟩

theorem Booted.each {α : Type} {l : List α} {f : α → State → State} (h : Booted s u) (hf : ∀ a x, Booted s x → Booted s (f a x)) :
    Booted s (forEach l f u) := forEach_keeps (Booted s) f l u h fun a _ x hx => hf a x hx

theorem Booted.field (h : Booted s u) {α : Type} (f : Wright → α) (hf : ∀ w, f (shelfOf w) = f w := by exact fun _ => rfl) :
    f u.wr = f s.wr := by
  rw [← hf, h.shelf, hf]

theorem Booted.requestRail {r : Rail} {mv : BitVec 16} (h : Booted s u) : Booted s (Machine.requestRail r mv u) := by
  have hr : Booted u (updRail (railNo r) (fun x => { x with req := some (mv, u.time.now) }) u) := ⟨rfl, rfl, rfl⟩
  exact (h.trans hr).keeps (keeps_refl [.bw, .out] _).emit

theorem booted_logUnused : Booted s (logUnused s) :=
  (booted_refl s).each fun _ _ hx => hx.keeps (keeps_refl [.log] _).wrightEvent

theorem booted_applyEndpoint : Booted s (applyEndpoint s) := by
  unfold applyEndpoint
  split
  · exact booted_refl s
  · exact (booted_refl s).updPw

theorem booted_applyVoltage : Booted s (applyVoltage s) := by
  unfold applyVoltage
  split
  · exact booted_refl s
  · extract_lets y
    have hy : Booted s y := (booted_refl s).each fun _ _ hx => hx.trans ⟨rfl, rfl, rfl⟩
    exact hy.trans ⟨rfl, rfl, rfl⟩

theorem keeps_applyRidge : Keeps [.ridge] s (applyRidge s) := by
  unfold applyRidge
  split
  · exact keeps_refl _ s
  · exact Keeps.each (Keeps.each (((keeps_refl _ s).updRidge).updRidge) fun _ _ hx => (hx.updRidge).updRidge)
      fun _ _ hx => (hx.updRidge).updRidge

theorem booted_applyMailbox : Booted s (applyMailbox s) := by
  unfold applyMailbox
  split
  · exact booted_refl s
  · exact (booted_refl s).each fun _ _ hx => hx.trans ⟨rfl, rfl, rfl⟩

theorem booted_applyBringup : Booted s (applyBringup s) := by
  unfold applyBringup
  split
  · exact booted_refl s
  · exact (booted_refl s).updPw

theorem keeps_makeInstance0 : Keeps [.inst] s (makeInstance0 s) := by
  unfold makeInstance0
  split
  · exact (keeps_refl _ s).updInst
  · exact (keeps_refl _ s).updInst

theorem inst_makeInstance0 : (inst (makeInstance0 s) 0).st = 1 := by
  unfold makeInstance0
  split
  · rw [inst_updInst, if_pos rfl]
  · rw [inst_updInst, if_pos rfl]

/-- The controllers' settings of the store, taken. -/
def takeMemory (s : State) : State :=
  match settingOf s.wr.store 5 with
  | some l => forEach (List.range 16) (fun c acc => writeMcCtl c (wordOf (sliceB l (128 + 8 * c) 8)) acc) s
  | none => s

/-- A populated channel begins to train. -/
def trainChan (given : Bool) (c : Nat) (acc : State) : State :=
  let d := dimms acc c
  let unmet := given && !eccFits d (chan acc c).eccMode
  let acc := if unmet then wrightEvent Config.unmetModeType (BitVec.ofNat 64 c) (at' (chan acc c).eccMode 0) acc else acc
  updChan c (fun k => { k with
    eccMode := if given && eccFits d k.eccMode then k.eccMode else strongest d, st := 1, powered := true }) acc

theorem buildMap_eq : ∃ r, buildMap s = { forEach ((List.range 16).filter (populated (takeMemory s)))
    (trainChan (settingOf s.wr.store 5).isSome) (takeMemory s) with region := r } := ⟨_, rfl⟩

theorem keeps_takeMemory : Keeps [.chan] s (takeMemory s) := by
  unfold takeMemory
  split
  · exact Keeps.each (keeps_refl _ s) fun _ _ hx => hx.updChan
  · exact keeps_refl _ s

theorem keeps_trainChan (given : Bool) (c : Nat) : Keeps [.chan, .log] s (trainChan given c s) := by
  unfold trainChan
  dsimp only
  refine Keeps.updChan ?_
  split
  · exact (keeps_refl _ s).wrightEvent
  · exact keeps_refl _ s

theorem keeps_buildMap : Keeps [.chan, .log, .region] s (buildMap s) := by
  obtain ⟨r, hr⟩ := buildMap_eq (s := s)
  obtain ⟨a, ha⟩ : ∃ a, a = forEach ((List.range 16).filter (populated (takeMemory s)))
    (trainChan (settingOf s.wr.store 5).isSome) (takeMemory s) := ⟨_, rfl⟩
  have hka : Keeps [.chan, .log, .region] s a := by
    rw [ha]
    refine Keeps.each (keeps_mono (by decide) keeps_takeMemory) fun c y hy => keeps_trans hy (keeps_mono ?_ (keeps_trainChan _ c))
    decide
  rw [hr, ← ha]
  refine keeps_trans hka fun p hp => ?_
  cases p <;> simp_all [Piece.same]

theorem keeps_startRidge : Keeps [.ridge] s (startRidge s) := by
  unfold startRidge
  extract_lets start a
  have hstart (ns : Bool) (x : State) (hx : Keeps [.ridge] s x) : Keeps [.ridge] s (start ns x) :=
    Keeps.updRidge (Keeps.each hx fun _ _ hy => hy.updPort)
  split
  · exact hstart true _ (hstart false s (keeps_refl _ s))
  · exact hstart false s (keeps_refl _ s)

/-! ## The firmware's steps -/

/-- The settings of the store, taken. -/
def settled (s : State) : State := applyBringup (applyMailbox (applyRidge (applyVoltage (applyEndpoint (logUnused s)))))

/-- The first instance, the map and the ridge. -/
def opened (s : State) : State := startRidge (buildMap (updEp (fun e => { e with crsUntil := none }) (makeInstance0 s)))

/-- Setpoints of the rails of the memory, the links and the dies. -/
def askRails (s : State) : State :=
  let s := forEach (List.finRange 4) (fun g acc => requestRail (.vddq g) 1200 acc) s
  let s := requestRail .vserdes 900 s
  forEach (List.range 4) (fun d acc =>
    if (die acc d).powered && (rail acc d).req.isNone then requestRail (vcoreOf d) (die acc d).opPoint acc else acc) s

theorem firmwareSteps_eq : firmwareSteps s = settleMode (unitBits (askRails (requestRail .vhub 850 (opened (settled s))))) := rfl

theorem booted_settled : Booted s (settled s) :=
  ((((((booted_logUnused).trans booted_applyEndpoint).trans booted_applyVoltage).keeps keeps_applyRidge).trans
    booted_applyMailbox).trans booted_applyBringup)

theorem keeps_opened : Keeps [.ep, .chan, .log, .region, .ridge] (makeInstance0 s) (opened s) := by
  have h1 : Keeps [.ep, .chan, .log, .region, .ridge] (makeInstance0 s) (updEp (fun e => { e with crsUntil := none }) (makeInstance0 s)) :=
    (keeps_refl _ _).updEp
  exact (h1.via keeps_buildMap (by decide)).via keeps_startRidge (by decide)

theorem askRails_spec : Booted s (askRails s) ∧ Keeps [.pw, .bw, .out] s (askRails s) ∧ rail (askRails s) 4 = rail s 4 := by
  unfold askRails
  extract_lets a b
  have ha : Booted s a ∧ Keeps [.pw, .bw, .out] s a ∧ rail a 4 = rail s 4 := by
    refine forEach_keeps (fun y => Booted s y ∧ Keeps [.pw, .bw, .out] s y ∧ rail y 4 = rail s 4) _ _ s
      ⟨booted_refl s, keeps_refl _ s, rfl⟩ fun g _ y hy => ?_
    obtain ⟨h1, h2, h3⟩ := hy
    refine ⟨h1.requestRail, h2.requestRail, ?_⟩
    have hne : ¬ 4 = railNo (.vddq g) := by
      change ¬ 4 = 6 + g.val
      omega
    rw [rail_requestRail, if_neg hne, h3]
  have hb : Booted s b ∧ Keeps [.pw, .bw, .out] s b ∧ rail b 4 = rail s 4 := by
    obtain ⟨h1, h2, h3⟩ := ha
    refine ⟨h1.requestRail, h2.requestRail, ?_⟩
    have hne : ¬ 4 = railNo .vserdes := by decide
    exact (rail_requestRail _ _ _).trans ((if_neg hne).trans h3)
  refine forEach_keeps (fun y => Booted s y ∧ Keeps [.pw, .bw, .out] s y ∧ rail y 4 = rail s 4) _ _ b hb fun d hd y hy => ?_
  obtain ⟨h1, h2, h3⟩ := hy
  split
  · refine ⟨h1.requestRail, h2.requestRail, ?_⟩
    have hd := List.mem_range.mp hd
    have hne : ¬ 4 = railNo (vcoreOf d) := by
      rw [railNo_vcoreOf hd]
      omega
    rw [rail_requestRail, if_neg hne, h3]
  · exact ⟨h1, h2, h3⟩

/-- What the firmware has done once it runs. -/
structure Running (s u : State) : Prop where
  shelf : shelfOf u.wr = shelfOf s.wr
  ready : u.pw.ready.wright = s.pw.ready.wright ∧ u.pw.ready.store = s.pw.ready.store
  inst : (inst u 0).st = 1
  rail : (rail u 4).req = some (850, s.time.now)

theorem Running.field (h : Running s u) {α : Type} (f : Wright → α) (hf : ∀ w, f (shelfOf w) = f w := by exact fun _ => rfl) :
    f u.wr = f s.wr := by
  rw [← hf, h.shelf, hf]

theorem running_firmwareSteps : Running s (firmwareSteps s) := by
  obtain ⟨a, ha⟩ : ∃ a, a = settled s := ⟨_, rfl⟩
  have hba : Booted s a := ha ▸ booted_settled
  obtain ⟨b, hb⟩ : ∃ b, b = opened a := ⟨_, rfl⟩
  have hkb : Keeps [.inst, .ep, .chan, .log, .region, .ridge] a b := by
    rw [hb]
    exact (keeps_mono (l := [.inst]) (by decide) keeps_makeInstance0).via keeps_opened (by decide)
  obtain ⟨c, hc⟩ : ∃ c, c = requestRail .vhub 850 b := ⟨_, rfl⟩
  have hbc : Booted s c := by
    rw [hc]
    exact (hba.keeps hkb).requestRail
  have hkc : Keeps [.pw, .bw, .out] b c := by
    rw [hc]
    exact (keeps_refl _ b).requestRail
  obtain ⟨hbd, hkd, hrail⟩ := askRails_spec (s := c)
  obtain ⟨d, hd⟩ : ∃ d, d = askRails c := ⟨_, rfl⟩
  rw [← hd] at hbd hkd hrail
  obtain ⟨e, he⟩ : ∃ e, e = unitBits d := ⟨_, rfl⟩
  have hke : Keeps [.ridge, .bw, .xing, .out, .pw, .ep, .pba] d e := by
    rw [he]
    exact (keeps_refl _ d).unitBits
  have hu : firmwareSteps s = settleMode e := by rw [firmwareSteps_eq, ← ha, ← hb, ← hc, ← hd, ← he]
  have hbooted : Booted s d := hbc.trans hbd
  have hready : e.pw.ready.wright = d.pw.ready.wright ∧ e.pw.ready.store = d.pw.ready.store := by
    rw [he]
    unfold unitBits
    dsimp only
    rw [ready_setReady]
    exact ⟨rfl, rfl⟩
  have hpoised : Poised d (settleMode e) := by
    rw [he]
    exact ((poised_refl d).unitBits).settleMode
  have hstaff : Staffed d (settleMode e) := ((staffed_refl d).keeps hke).settleMode
  have hku : Keeps [.thr, .ridge, .bw, .xing, .out, .pw, .wake, .ep, .pba, .wr, .log] e (settleMode e) := (keeps_refl _ e).settleMode
  rw [hu]
  refine ⟨(hstaff.field shelfOf).trans hbooted.shelf, ?_, ?_, ?_⟩
  · rw [ready_settleMode, hready.1, hready.2, hbooted.ready]
    exact ⟨rfl, rfl⟩
  · have hkb' : Keeps [.ep, .chan, .log, .region, .ridge] (makeInstance0 a) b := by
      rw [hb]
      exact keeps_opened
    rw [hku.inst_eq, hke.inst_eq, hkd.inst_eq, hkc.inst_eq, hkb'.inst_eq]
    exact inst_makeInstance0
  · have hnow : b.time.now = s.time.now := congrArg TimeBase.now ((hba.keeps hkb).time)
    have hrailc : rail c 4 = { rail b 4 with req := some (850, b.time.now) } := by
      rw [hc]
      exact (rail_requestRail _ _ _).trans (if_pos rfl)
    rw [hpoised.rail_eq, hrail, hrailc, hnow]

/-! ## The slots judged at boot -/

theorem slotOf_setSlot (b c : Bool) (x : Slot) (st : Store) : slotOf (setSlot b x st) c = if c = b then x else slotOf st c := by
  cases b <;> cases c <;> rfl

/-- A slot verified at boot. -/
def judged (s : State) (b : Bool) : Slot := { slotOf s.wr.store b with cond := if slotPasses s b then 1 else 3 }

theorem slotOf_judgeSlot (b c : Bool) : slotOf (judgeSlot b s).wr.store c = if c = b then judged s b else slotOf s.wr.store c :=
  slotOf_setSlot b c _ _

theorem setSlot_same (b : Bool) (x : Slot) (st : Store) : (setSlot b x st).fuse = st.fuse ∧ (setSlot b x st).capacity = st.capacity := by
  cases b <;> exact ⟨rfl, rfl⟩

theorem slotPasses_judgeSlot {b c : Bool} (h : c ≠ b) : slotPasses (judgeSlot b s) c = slotPasses s c := by
  have hslot : slotOf (judgeSlot b s).wr.store c = slotOf s.wr.store c := by rw [slotOf_judgeSlot, if_neg h]
  have hfuse : (judgeSlot b s).wr.store.fuse = s.wr.store.fuse := (setSlot_same b _ _).1
  have hcap : (judgeSlot b s).wr.store.capacity = s.wr.store.capacity := (setSlot_same b _ _).2
  unfold slotPasses
  rw [hslot, hfuse, hcap]

/-- The boot ROM runs. -/
def romRuns (s : State) : State := updPw (fun p => { p with wrightFast := true }) s

/-- The slots the boot ROM has judged. -/
def judgedBoth (s : State) (d : Bool) : State := judgeSlot (!d) (judgeSlot d (romRuns s))

/-- What boot from a slot leaves, given what was judged. -/
theorem boot_serves {a : Bool} {y : State} (hy : (slotOf y.wr.store a).cond = 1) (hnow : y.time.now = s.time.now) :
    (firmwareSteps (serveFrom a y)).wr.st = .serving ∧ (firmwareSteps (serveFrom a y)).wr.store.active = some a ∧
      (slotOf (firmwareSteps (serveFrom a y)).wr.store a).cond = 1 ∧ (firmwareSteps (serveFrom a y)).pw.ready.wright = true ∧
      (firmwareSteps (serveFrom a y)).pw.ready.store = true ∧ (inst (firmwareSteps (serveFrom a y)) 0).st = 1 ∧
      (rail (firmwareSteps (serveFrom a y)) 4).req = some (850, s.time.now) := by
  have h := running_firmwareSteps (s := serveFrom a y)
  have hfield {α : Type} (f : Wright → α) (hf : ∀ w, f (shelfOf w) = f w) (hf' : ∀ w, f (staffOf w) = f w) :
      f (firmwareSteps (serveFrom a y)).wr = f (servingWr a y).wr := by
    rw [h.field f hf]
    exact (staffed_serveFrom a).field f hf'
  have hserve : (serveFrom a y).time.now = s.time.now := (now_of_keeps (keeps_serveFrom a)).trans hnow
  refine ⟨?_, ?_, ?_, ?_, ?_, h.inst, ?_⟩
  · rw [hfield Wright.st (fun _ => rfl) fun _ => rfl]
    rfl
  · rw [hfield (fun w => w.store.active) (fun _ => rfl) fun _ => rfl]
    rfl
  · rw [hfield (fun w => (slotOf w.store a).cond) (fun _ => rfl) fun _ => rfl]
    exact (congrArg Slot.cond (servingWr_store a a).2).trans hy
  · rw [h.ready.1, ready_serveFrom]
  · rw [h.ready.2, ready_serveFrom]
  · rw [h.rail, hserve]

section boot
variable (hon : mainOn s = true) (hclk : s.pw.clkWright = false) (hst : s.wr.st = .booting) (hu : s.wr.update = .none)

theorem bootChoice_default {d : Bool} (hd : bootDefault s.wr.store = d) (hp : slotPasses s d = true) : bootChoice s = some d := by
  unfold bootChoice
  dsimp only
  rw [hd, if_pos hp]

theorem bootChoice_other {d : Bool} (hd : bootDefault s.wr.store = d) (hp : slotPasses s d = false) :
    bootChoice s = if slotPasses s (!d) then some (!d) else none := by
  unfold bootChoice
  dsimp only
  rw [hd, if_neg (by rw [hp]; decide)]

include hon hclk hst hu

theorem wrightServing_booting {d : Bool} (hd : bootDefault s.wr.store = d) : exec .wrightServing s =
    .next (match bootChoice s with
      | some b => firmwareSteps (serveFrom b (if bootChoice s = some d then judgeSlot d (romRuns s) else judgedBoth s d))
      | none => if bootChoice s = some d then judgeSlot d (romRuns s) else judgedBoth s d) := by
  change execWrightServing s = _
  unfold execWrightServing
  rw [if_neg (by rw [hon, hclk]; decide), hst, hu]
  dsimp only
  rw [← hd]
  rfl

/-- The boot ROM serves from the first slot that verifies, or goes on booting. -/
theorem wrightServing_boots {d : Bool} (hd : bootDefault s.wr.store = d) :
    let serves := fun (a : Bool) (u : State) => u.wr.st = .serving ∧ u.wr.store.active = some a ∧
      (slotOf u.wr.store a).cond = 1 ∧ u.pw.ready.wright = true ∧ u.pw.ready.store = true ∧ (inst u 0).st = 1 ∧
      (rail u 4).req = some (850, s.time.now)
    (slotPasses s d = true → ∃ u, exec .wrightServing s = .next u ∧ serves d u) ∧
    (slotPasses s d = false → slotPasses s (!d) = true → ∃ u, exec .wrightServing s = .next u ∧ serves (!d) u ∧
      (slotOf u.wr.store d).cond = 3) ∧
    (slotPasses s d = false → slotPasses s (!d) = false → ∃ u, exec .wrightServing s = .next u ∧ u.wr.st = .booting ∧
      (slotOf u.wr.store d).cond = 3 ∧ (slotOf u.wr.store (!d)).cond = 3) := by
  intro serves
  have hrun := wrightServing_booting hon hclk hst hu hd
  have hne : d ≠ !d := by cases d <;> decide
  have hrom (b : Bool) : slotPasses (romRuns s) b = slotPasses s b := rfl
  have hcond (b c : Bool) (x : State) (hb : slotPasses x b = c) : (slotOf (judgeSlot b x).wr.store b).cond = if c then 1 else 3 := by
    rw [slotOf_judgeSlot, if_pos rfl, ← hb]
    rfl
  have hboth (c : Bool) (hc : slotPasses s (!d) = c) : (slotOf (judgedBoth s d).wr.store (!d)).cond = if c then 1 else 3 :=
    hcond (!d) c _ (by rw [slotPasses_judgeSlot hne.symm, hrom, hc])
  have hfirst (hp : slotPasses s d = false) : (slotOf (judgedBoth s d).wr.store d).cond = 3 := by
    have h : slotOf (judgedBoth s d).wr.store d = slotOf (judgeSlot d (romRuns s)).wr.store d := by
      unfold judgedBoth
      rw [slotOf_judgeSlot, if_neg hne]
    rw [h, hcond d false (romRuns s) hp]
    rfl
  refine ⟨fun hp => ?_, fun hp hq => ?_, fun hp hq => ?_⟩
  · rw [bootChoice_default hd hp] at hrun
    dsimp only at hrun
    rw [if_pos rfl] at hrun
    exact ⟨_, hrun, boot_serves (hcond d true (romRuns s) hp) rfl⟩
  · have hchoice : bootChoice s = some (!d) := by rw [bootChoice_other hd hp, if_pos hq]
    rw [hchoice] at hrun
    dsimp only at hrun
    rw [if_neg fun h => hne (Option.some.inj h).symm] at hrun
    refine ⟨_, hrun, boot_serves (hboth true hq) rfl, ?_⟩
    have h := running_firmwareSteps (s := serveFrom (!d) (judgedBoth s d))
    have hslot : slotOf (firmwareSteps (serveFrom (!d) (judgedBoth s d))).wr.store d = slotOf (judgedBoth s d).wr.store d := by
      rw [h.field Wright.store, (staffed_serveFrom _).field Wright.store]
      exact (servingWr_store _ _).2
    rw [hslot]
    exact hfirst hp
  · have hchoice : bootChoice s = none := by rw [bootChoice_other hd hp, if_neg (by rw [hq]; decide)]
    rw [hchoice] at hrun
    dsimp only at hrun
    rw [if_neg (by simp)] at hrun
    exact ⟨_, hrun, hst, hfirst hp, hboth false hq⟩

end boot

end Sys2Proof.Machine
end

section
/-! A partition starts with its monitor's image (R243, R463). -/
namespace Sys2Proof.Machine
set_option Elab.async false
variable {s t u v : State} {P : List Piece} {p : Fin 8}

/-! ## The sites of the cores stand as memory is written -/

/-- Every core stands at its site. -/
def Sited (s u : State) : Prop := ∀ c, siteOfCore u c = siteOfCore s c

theorem sited_refl (s : State) : Sited s s := fun _ => rfl

theorem Sited.trans (h : Sited s u) (k : Sited u v) : Sited s v := fun c => (k c).trans (h c)

theorem Sited.keeps (h : Sited s u) (k : Keeps P u v) (hb : Piece.bay ∉ P := by decide) : Sited s v :=
  h.trans fun c => siteOfCore_of_keeps k c hb

theorem Sited.each {α : Type} {l : List α} {f : α → State → State} (h : Sited s u) (hf : ∀ a x, Sited x (f a x)) :
    Sited s (forEach l f u) := forEach_keeps (Sited s) f l u h fun a _ x hx => hx.trans (hf a x)

theorem sited_of_bay (h : ∀ c b, siteIn c (bay u b) = siteIn c (bay s b)) : Sited s u := fun c => h c _

theorem sited_dropCopies (l : BitVec 42) : Sited s (dropCopies l s) := by
  refine sited_of_bay fun c b => ?_
  have h : bay (dropCopies l s) b = { bay s b with l2 := editAll CLine.reset (fun _ w => if w.line = l then CLine.reset else w) (bay s b).l2 } :=
    look_editAll Bay.reset _ (fun _ => rfl) s.bay b
  rw [h]
  rfl

theorem sited_keepMon (f : MonE → Bool) : Sited s (keepMon f s) := by
  refine sited_of_bay fun c b => ?_
  have h : bay (keepMon f s) b = { bay s b with mon := (bay s b).mon.filter f } := look_editAll Bay.reset _ (fun _ => rfl) s.bay b
  rw [h]
  rfl

theorem sited_loseResvAt (x : Thr) (g : BitVec 41) : Sited s (loseResvAt x g s) :=
  (((sited_refl s).keeps (keeps_refl [.thr] s).updThr).trans (sited_keepMon _)).trans (sited_keepMon _)

theorem sited_loseResvOn (who : Option Thr) (g : BitVec 41) : Sited s (loseResvOn who g s) := by
  unfold loseResvOn
  refine (sited_refl s).each fun e x => ?_
  split
  · exact sited_refl x
  · split
    · exact sited_refl x
    · split
      · split
        · exact sited_loseResvAt _ _
        · exact sited_refl x
      · exact sited_refl x

theorem sited_storeBytes (who : Option Thr) (pa : BitVec 48) (l : List Byte) (poison : Bool) : Sited s (storeBytes who pa l poison s) := by
  unfold storeBytes
  extract_lets ln w y
  have hw : Sited s w := (sited_refl s).keeps (keeps_refl [.old, .mem] s).dirtyLine.writeBytes
  have hy : Sited s y := by
    change Sited s (if poison then _ else _)
    split
    · exact hw.keeps (keeps_refl [.thr, .poison, .wake, .log] w).poisonLine
    · split
      · exact hw.keeps (keeps_refl [.poison] w).setPoison
      · exact hw
  exact hy.trans (sited_loseResvOn _ _)

theorem sited_hubWrite (pa : BitVec 48) (l : List Byte) (poison : Bool) : Sited s (hubWrite pa l poison s) := by
  unfold hubWrite
  refine (sited_refl s).each fun pc x => ?_
  dsimp only
  split
  · exact (sited_dropCopies _).trans (sited_storeBytes _ _ _ _)
  · exact sited_storeBytes _ _ _ _

theorem startingThreads_congr (q : Nat) (hp : part u q = part s q) (hs : Sited s u) : startingThreads u q = startingThreads s q := by
  unfold startingThreads
  rw [hp]
  simp only [show siteOfCore u = siteOfCore s from funext hs]

/-! ## Threads start -/

/-- A thread of the partition as its monitor starts. -/
def startedAt (pc : Word) (q : Nat) (reason : BitVec 2) (cause : BitVec 8) : Thread :=
  writeG 3 ⟨cause.setWidth 64, false⟩ (writeG 2 ⟨reason.setWidth 64, false⟩
    (writeG 1 ⟨BitVec.ofNat 64 q, false⟩ { Thread.reset with pc := pc, run := .running }))

theorem startThread_eq (x : Thr) (pc : Word) (q : Nat) (reason : BitVec 2) (cause : BitVec 8) :
    startThread x pc q reason cause s = setThr x (startedAt pc q reason cause) s := rfl

theorem keeps_startThread (x : Thr) (pc : Word) (q : Nat) (reason : BitVec 2) (cause : BitVec 8) :
    Keeps [.thr] s (startThread x pc q reason cause s) := by
  intro p hp
  cases p <;> simp_all [Piece.same, startThread, setThr]

theorem thr_startThreads {l : List Thr} {x : Thr} (pc : Word) (q : Nat) (reason : BitVec 2) (cause : BitVec 8) (hx : x ∈ l) :
    thr (forEach l (fun t acc => startThread t pc q reason cause acc) s) x = startedAt pc q reason cause := by
  induction l generalizing s with
  | nil => exact absurd hx List.not_mem_nil
  | cons a l ih =>
    rw [forEach_cons]
    by_cases hl : x ∈ l
    · exact ih hl
    · have hxa : x = a := (List.mem_cons.mp hx).resolve_right hl
      refine forEach_keeps (fun y => thr y x = startedAt pc q reason cause) _ l _ ?_ fun b hb y hy => ?_
      · rw [startThread_eq, thr_setThr, if_pos hxa]
      · rw [startThread_eq, thr_setThr]
        split
        · rfl
        · exact hy

/-- What the registers of a thread that starts hold. -/
theorem readG_startedAt (pc : Word) (q : Nat) (reason : BitVec 2) (cause : BitVec 8) :
    (readG (startedAt pc q reason cause) 1).val = BitVec.ofNat 64 q ∧
    (readG (startedAt pc q reason cause) 2).val = reason.setWidth 64 ∧
    (readG (startedAt pc q reason cause) 3).val = cause.setWidth 64 ∧
    ∀ r : BitVec 5, 4 ≤ r.toNat → (readG (startedAt pc q reason cause) r).val = 0 := by
  have hread (r : BitVec 5) (hr : r ≠ 0) : readG (startedAt pc q reason cause) r =
      if r.toNat = 3 then ⟨cause.setWidth 64, false⟩ else if r.toNat = 2 then ⟨reason.setWidth 64, false⟩
      else if r.toNat = 1 then ⟨BitVec.ofNat 64 q, false⟩ else PReg.zero := by
    have h : readG (startedAt pc q reason cause) r = look PReg.zero (startedAt pc q reason cause).g r.toNat := if_neg hr
    rw [h]
    change look PReg.zero (put PReg.zero (put PReg.zero (put PReg.zero [] 1 _) 2 _) 3 _) r.toNat = _
    rw [look_put, look_put, look_put]
    rfl
  refine ⟨?_, ?_, ?_, fun r hr => ?_⟩
  · rw [hread 1 (by decide)]
    rfl
  · rw [hread 2 (by decide)]
    rfl
  · rw [hread 3 (by decide)]
    rfl
  · rw [hread r (fun h => by rw [h] at hr; exact absurd hr (by decide)), if_neg (by omega), if_neg (by omega), if_neg (by omega)]
    rfl

/-! ## The partition starts -/

/-- The bays and cores of the partition are powered. -/
def powerUp (bays : BitVec 40) (s : State) : State :=
  forEach (bitsOf bays) (fun b acc => updBay b (fun k => { k with powered := true })
    (forEach (List.range 4) (fun c a => updCore (4 * b + c) (fun k => { k with powered := true }) a) acc)) s

theorem keeps_powerUp (bays : BitVec 40) : Keeps [.bay, .core] s (powerUp bays s) :=
  Keeps.each (keeps_refl _ s) fun _ _ hx => Keeps.updBay (Keeps.each hx fun _ _ hy => hy.updCore)

/-- The partition serves. -/
def nowServing (active : Bool) (z : Part) : Part := { z with
  st := if active then .active else .standby, started := true, startFailed := false }

/-- The image is in memory and the sources are open. -/
def imaged (q : Nat) (x : Monitor) (s : State) : State :=
  let base := match (part s q).ranges with | g :: _ => g.toNat * 2 ^ 30 | [] => 0
  let image := match s.wr.store.active with
    | some b => slotBytes (slotOf s.wr.store b) x.imageOff x.imageLen
    | none => []
  let s := hubWrite (BitVec.ofNat 48 (base + x.loadOff)) image false s
  markSources (sourcesOf s q) true s

/-- The threads run from the monitor's entry. -/
def threadsStart (q : Nat) (pc : Word) (s : State) : State :=
  forEach (startingThreads s q) (fun t acc => startThread t pc q (part s q).reason (part s q).cause acc) s

theorem startPartition_eq {q : Nat} {x : Monitor} {g : BitVec 13} {r : List (BitVec 13)} (hr : (part s q).ranges = g :: r) :
    startPartition q x s = settleMode (readyParts q
      (updPart q (nowServing (holdsQueue (powerUp (part (imaged q x s) q).bays
        (threadsStart q (BitVec.ofNat 64 (g.toNat * 2 ^ 30 + x.loadOff + x.entryOff)) (imaged q x s))) q))
        (powerUp (part (imaged q x s) q).bays
          (threadsStart q (BitVec.ofNat 64 (g.toNat * 2 ^ 30 + x.loadOff + x.entryOff)) (imaged q x s))))) := by
  have hbase : (match (part s q).ranges with | g :: _ => g.toNat * 2 ^ 30 | [] => 0) = g.toNat * 2 ^ 30 := by rw [hr]
  have h : startPartition q x s = settleMode (readyParts q
      (updPart q (nowServing (holdsQueue (powerUp (part (imaged q x s) q).bays
        (threadsStart q (BitVec.ofNat 64 ((match (part s q).ranges with | g :: _ => g.toNat * 2 ^ 30 | [] => 0) + x.loadOff + x.entryOff))
          (imaged q x s))) q))
        (powerUp (part (imaged q x s) q).bays
          (threadsStart q (BitVec.ofNat 64 ((match (part s q).ranges with | g :: _ => g.toNat * 2 ^ 30 | [] => 0) + x.loadOff + x.entryOff))
            (imaged q x s))))) := rfl
  rw [h, hbase]

theorem isOpen_markEach (l : List Src) (o : Bool) (now : Word) {x : Src} (hx : x ∈ l) :
    (srcEnt (forEach l (fun y acc => updSrc y (fun e => { e with isOpen := o, tChange := now }) acc) s) x).isOpen = o := by
  induction l generalizing s with
  | nil => exact absurd hx List.not_mem_nil
  | cons a l ih =>
    rw [forEach_cons]
    by_cases hl : x ∈ l
    · exact ih hl
    · have hxa : x = a := (List.mem_cons.mp hx).resolve_right hl
      refine forEach_keeps (fun y => (srcEnt y x).isOpen = o) _ l _ ?_ fun b hb y hy => ?_
      · rw [srcEnt_updSrc, if_pos hxa]
      · rw [srcEnt_updSrc]
        split
        · rfl
        · exact hy

theorem open_markSources {l : List Src} {x : Src} (hx : x ∈ l) : (srcEnt (markSources l true s) x).isOpen = true :=
  isOpen_markEach l true s.time.now hx

theorem imaged_spec (q : Nat) (x : Monitor) : (∀ k, part (imaged q x s) k = part s k) ∧ Sited s (imaged q x s) ∧
    Keeps [.thr, .core, .bay, .slice, .eng, .mem, .old, .poison, .wake, .log, .srcs] s (imaged q x s) ∧
    ∀ k ∈ sourcesOf s q, (srcEnt (imaged q x s) k).isOpen = true := by
  unfold imaged
  extract_lets base image a
  have hka : Keeps [.thr, .core, .bay, .slice, .eng, .mem, .old, .poison, .wake, .log] s a := (keeps_refl _ s).hubWrite
  have hsa : Sited s a := sited_hubWrite _ _ _
  have hk : Keeps [.srcs] a (markSources (sourcesOf a q) true a) := (keeps_refl _ a).markSources
  have hsources : sourcesOf a q = sourcesOf s q := by
    unfold sourcesOf
    rw [hka.part_eq]
  refine ⟨fun k => by rw [hk.part_eq, hka.part_eq], hsa.keeps hk, ?_, fun k hin => ?_⟩
  · exact (keeps_mono (by decide) hka).via hk (by decide)
  · rw [hsources]
    exact open_markSources hin

theorem holdsQueue_congr (q : Nat) (hq : u.queue = s.queue) (hw : u.wr.store = s.wr.store) : holdsQueue u q = holdsQueue s q := by
  unfold holdsQueue
  rw [hq, hw]

/-- What a partition that starts is. -/
structure Started (s u : State) (p : Fin 8) (pc : Word) : Prop where
  st : (part u p.val).st = if holdsQueue s p.val then .active else .standby
  ready : u.pw.ready.part.getLsbD p.val = true
  sources : ∀ k ∈ sourcesOf s p.val, (srcEnt u k).isOpen = true
  thread : ∀ t ∈ startingThreads s p.val,
    (thr u t).calm = (startedAt pc p.val (part s p.val).reason (part s p.val).cause).calm

theorem started_startPartition {x : Monitor} {g : BitVec 13} {r : List (BitVec 13)} (hr : (part s p.val).ranges = g :: r) :
    Started s (startPartition p.val x s) p (BitVec.ofNat 64 (g.toNat * 2 ^ 30 + x.loadOff + x.entryOff)) := by
  obtain ⟨hparta, hsited, hka, hopen⟩ := imaged_spec (s := s) p.val x
  obtain ⟨a, ha⟩ : ∃ a, a = imaged p.val x s := ⟨_, rfl⟩
  rw [← ha] at hparta hsited hka hopen
  obtain ⟨pc, hpc⟩ : ∃ pc : Word, pc = BitVec.ofNat 64 (g.toNat * 2 ^ 30 + x.loadOff + x.entryOff) := ⟨_, rfl⟩
  obtain ⟨b, hb⟩ : ∃ b, b = threadsStart p.val pc a := ⟨_, rfl⟩
  have hkb : Keeps [.thr] a b := by
    rw [hb]
    exact Keeps.each (keeps_refl _ a) fun _ _ hx => keeps_trans hx (keeps_startThread _ _ _ _ _)
  obtain ⟨c, hc⟩ : ∃ c, c = powerUp (part a p.val).bays b := ⟨_, rfl⟩
  have hkc : Keeps [.bay, .core] b c := hc ▸ keeps_powerUp _
  obtain ⟨d, hd⟩ : ∃ d, d = updPart p.val (nowServing (holdsQueue c p.val)) c := ⟨_, rfl⟩
  have hkd : Keeps [.part] c d := by
    rw [hd]
    exact (keeps_refl _ c).updPart
  obtain ⟨e, he⟩ : ∃ e, e = readyParts p.val d := ⟨_, rfl⟩
  have hke : Keeps [.ridge, .bw, .xing, .out, .pw, .ep, .pba] d e := by
    rw [he]
    exact (keeps_refl _ d).setReady
  have hu : startPartition p.val x s = settleMode e := by
    rw [startPartition_eq hr, ← ha, ← hpc, ← hb, ← hc, ← hd, ← he]
  have hku : Keeps [.thr, .ridge, .bw, .xing, .out, .pw, .wake, .ep, .pba, .wr, .log] e (settleMode e) := (keeps_refl _ e).settleMode
  have hqueue : holdsQueue c p.val = holdsQueue s p.val := by
    refine holdsQueue_congr _ ?_ ?_
    · rw [show c.queue = b.queue from hkc .queue (by decide), show b.queue = a.queue from hkb .queue (by decide),
        show a.queue = s.queue from hka .queue (by decide)]
    · exact (((staffed_refl s).keeps hka).keeps hkb).keeps hkc |>.field Wright.store
  rw [hu, ← hpc]
  refine ⟨?_, ?_, fun k hk => ?_, fun t ht => ?_⟩
  · rw [hku.part_eq, hke.part_eq, hd, part_updPart, if_pos rfl, hqueue]
    rfl
  · rw [ready_settleMode, he]
    unfold readyParts
    dsimp only
    rw [ready_setReady]
    exact bit_setBit _ _ p.isLt
  · rw [srcEnt_of_keeps hku, srcEnt_of_keeps hke, srcEnt_of_keeps hkd, srcEnt_of_keeps hkc, srcEnt_of_keeps hkb]
    exact hopen k hk
  · have hthr : thr e t = thr b t := by
      have h1 : e.thr = b.thr := by
        rw [show e.thr = d.thr from hke .thr (by decide), show d.thr = c.thr from hkd .thr (by decide),
          show c.thr = b.thr from hkc .thr (by decide)]
      exact congrArg (fun l => look Thread.reset l (thrKey t)) h1
    have hin : t ∈ startingThreads a p.val := by
      rw [startingThreads_congr _ (hparta _) hsited]
      exact ht
    have hstart : thr b t = startedAt pc p.val (part a p.val).reason (part a p.val).cause := by
      rw [hb]
      exact thr_startThreads _ _ _ _ hin
    rw [(composed_settleMode t).1, hthr, hstart, hparta]

theorem readG_calm (th : Thread) (r : BitVec 5) : readG th.calm r = readG th r := rfl

/-! ## MONITOR_IMAGE_LOADED -/

theorem takeLayout_given (h : (part s p.val).bays ≠ 0) : takeLayout p.val s = s := by
  unfold takeLayout
  exact if_pos (by rw [decide_eq_true h, Bool.or_true, Bool.true_or])

theorem bays_of_startPending (h : startPending s p.val = true) : (part s p.val).bays ≠ 0 := by
  unfold startPending at h
  simp only [Bool.and_eq_true, decide_eq_true_eq] at h
  exact h.1.1.1

section load
variable (hst : s.wr.st = .serving) (hf : s.pw.fenced = false) (hp : startPending s p.val = true) (hl : lowestReady s p.val = true)
  (hbays : ∀ b, (part s p.val).bays.getLsbD b = true → (bay s b).failed = false)
include hst hf hp hl hbays

theorem monitorImageLoaded_eq (copied digestOk : Bool) : exec (.monitorImageLoaded p copied digestOk) s =
    match monitorOf s p.val with
    | none => .next (failStart p.val s)
    | some x => if !monitorFits s x || !copied || !digestOk then .next (failStart p.val s) else .next (startPartition p.val x s) := by
  have hany : (bitsOf (part s p.val).bays).any (fun b => (bay s b).failed) = false := by
    rw [List.any_eq_false]
    intro b hb
    rw [hbays b (mem_bitsOf.mp hb).2]
    exact Bool.false_ne_true
  change execMonitorImageLoaded p copied digestOk s = _
  unfold execMonitorImageLoaded
  rw [if_neg (by simp [hst, hf]), takeLayout_given (bays_of_startPending hp)]
  dsimp only
  refine (if_neg (by simp [hp, hl])).trans ?_
  exact (if_neg (by rw [hany]; exact Bool.false_ne_true)).trans rfl

theorem monitor_starts {x : Monitor} (hx : monitorOf s p.val = some x) (hfits : monitorFits s x = true) {g : BitVec 13}
    {r : List (BitVec 13)} (hr : (part s p.val).ranges = g :: r) : ∃ u, exec (.monitorImageLoaded p true true) s = .next u ∧
      Started s u p (BitVec.ofNat 64 (g.toNat * 2 ^ 30 + x.loadOff + x.entryOff)) := by
  refine ⟨startPartition p.val x s, ?_, started_startPartition hr⟩
  rw [monitorImageLoaded_eq hst hf hp hl hbays, hx]
  dsimp only
  rw [hfits]
  exact if_neg (by decide)

theorem monitor_fails {copied digestOk : Bool} (h : monitorOf s p.val = none ∨ copied = false ∨ digestOk = false) :
    exec (.monitorImageLoaded p copied digestOk) s = .next (failStart p.val s) := by
  rw [monitorImageLoaded_eq hst hf hp hl hbays]
  rcases h with h | h | h
  · rw [h]
  · split
    · rfl
    · rw [h]
      exact if_pos (by simp)
  · split
    · rfl
    · rw [h]
      exact if_pos (by simp)

end load

/-- A start that failed. -/
theorem failStart_spec (q : Nat) : part (failStart q s) q = { part s q with st := .restarting, startFailed := true } ∧
    (∀ k, k ≠ q → part (failStart q s) k = part s k) ∧ ∀ t, (thr (failStart q s) t).calm = (thr s t).calm := by
  obtain ⟨a, ha⟩ : ∃ a, a = updPart q (fun x => { x with st := .restarting, startFailed := true }) s := ⟨_, rfl⟩
  have hka : Keeps [.part] s a := by
    rw [ha]
    exact (keeps_refl _ s).updPart
  obtain ⟨b, hb⟩ : ∃ b, b = wrightEvent 2 (at' (BitVec.ofNat 3 q) 0 ||| at' (part a q).cause 8 ||| at' (0x3F : BitVec 6) 16) 0 a :=
    ⟨_, rfl⟩
  have hkb : Keeps [.log] a b := by
    rw [hb]
    exact (keeps_refl _ a).wrightEvent
  have hu : failStart q s = settleMode b := by
    rw [hb, ha]
    rfl
  have hku : Keeps [.thr, .ridge, .bw, .xing, .out, .pw, .wake, .ep, .pba, .wr, .log] b (settleMode b) := (keeps_refl _ b).settleMode
  rw [hu]
  refine ⟨?_, fun k hk => ?_, fun t => ?_⟩
  · rw [hku.part_eq, hkb.part_eq, ha, part_updPart, if_pos rfl]
  · rw [hku.part_eq, hkb.part_eq, ha, part_updPart, if_neg hk]
  · exact (((((composed_refl s).keeps hka).keeps hkb).trans composed_settleMode) t).1

end Sys2Proof.Machine
end

section
/-! What stands of channels, ports and partitions as a channel or a port fails (R34, R348, R464). -/
namespace Sys2Proof.Machine
set_option Elab.async false
variable {s t u v : State} {P : List Piece}

/-! ## The relation -/

/-- A partition that has not started, has not failed to and is not held. -/
def Unsettled (y : Part) : Prop := y.started = false ∧ y.startFailed = false ∧ y.hold = false

/-- Channels and ports keep their state or have failed, no partition's start is settled, and the store stands. -/
structure Lasting (s u : State) : Prop where
  chan : ∀ i, (chan u i).st = (chan s i).st ∨ (chan u i).st = 4
  port : ∀ i, (port u i).st = (port s i).st ∨ (port u i).st = 5
  part : ∀ q, Unsettled (part s q) → Unsettled (part u q)
  store : u.wr.store = s.wr.store
  column : u.ridge.nsEn = s.ridge.nsEn

theorem lasting_refl (s : State) : Lasting s s := ⟨fun _ => .inl rfl, fun _ => .inl rfl, fun _ h => h, rfl, rfl⟩

theorem Lasting.trans (h : Lasting s u) (k : Lasting u v) : Lasting s v := by
  refine ⟨fun i => ?_, fun i => ?_, fun q hq => k.part q (h.part q hq), k.store.trans h.store, k.column.trans h.column⟩
  · rcases k.chan i with hk | hk
    · rw [hk]
      exact h.chan i
    · exact .inr hk
  · rcases k.port i with hk | hk
    · rw [hk]
      exact h.port i
    · exact .inr hk

theorem Lasting.keeps (h : Lasting s u) (k : Keeps P u v) (hc : Piece.chan ∉ P := by decide) (hr : Piece.ridge ∉ P := by decide)
    (hp : Piece.part ∉ P := by decide) (hw : Piece.wr ∉ P := by decide) : Lasting s v := by
  refine h.trans ⟨fun i => .inl ?_, fun i => .inl ?_, fun q hq => ?_, stored_of_keeps k hw, ?_⟩
  · unfold Machine.chan
    rw [show v.chan = u.chan from k .chan hc]
  · unfold Machine.port
    rw [show v.ridge = u.ridge from k .ridge hr]
  · rw [k.part_eq (hP := hp)]
    exact hq
  · rw [show v.ridge = u.ridge from k .ridge hr]

/-- Transmission changes neither a port's state nor anything else that the relation names. -/
theorem Lasting.wired (h : Lasting s u) (w : Wired u v) (k : Keeps P u v) (hc : Piece.chan ∉ P := by decide)
    (hp : Piece.part ∉ P := by decide) (hw : Piece.wr ∉ P := by decide) : Lasting s v := by
  refine h.trans ⟨fun i => .inl ?_, fun i => .inl (w.linked i PortSt.st), fun q hq => ?_, stored_of_keeps k hw, w.wiring Ridge.nsEn⟩
  · unfold Machine.chan
    rw [show v.chan = u.chan from k .chan hc]
  · rw [k.part_eq (hP := hp)]
    exact hq

theorem Lasting.each {α : Type} {l : List α} {f : α → State → State} (h : Lasting s u) (hf : ∀ a x, Lasting x (f a x)) :
    Lasting s (forEach l f u) := forEach_keeps (Lasting s) f l u h fun a _ x hx => hx.trans (hf a x)

theorem Lasting.updChan {c : Nat} {f : Chan → Chan} (h : Lasting s u) (hf : ∀ k, (f k).st = k.st ∨ (f k).st = 4) :
    Lasting s (Machine.updChan c f u) := by
  refine h.trans ⟨fun i => ?_, fun _ => .inl rfl, fun _ hq => hq, rfl, rfl⟩
  rw [chan_updChan]
  split
  · next hi =>
    rw [hi]
    exact hf _
  · exact .inl rfl

theorem Lasting.updPort {x : Nat} {f : PortSt → PortSt} (h : Lasting s u) (hf : ∀ k, (f k).st = k.st ∨ (f k).st = 5) :
    Lasting s (Machine.updPort x f u) := by
  refine h.trans ⟨fun _ => .inl rfl, fun i => ?_, fun _ hq => hq, rfl, rfl⟩
  rw [port_updPort]
  split
  · next hi =>
    rw [hi]
    exact hf _
  · exact .inl rfl

theorem Lasting.updPart {q : Nat} {f : Part → Part} (h : Lasting s u) (hf : ∀ y, Unsettled y → Unsettled (f y)) :
    Lasting s (Machine.updPart q f u) := by
  refine h.trans ⟨fun _ => .inl rfl, fun _ => .inl rfl, fun k hk => ?_, rfl, rfl⟩
  rw [part_updPart]
  split
  · next he =>
    rw [← he]
    exact hf _ hk
  · exact hk

theorem Lasting.updRidge {f : Ridge → Ridge} (h : Lasting s u)
    (hf : ∀ r, (f r).ports = r.ports ∧ (f r).nsEn = r.nsEn := by exact fun _ => ⟨rfl, rfl⟩) : Lasting s (Machine.updRidge f u) := by
  obtain ⟨hports, hns⟩ := hf u.ridge
  refine h.trans ⟨fun _ => .inl rfl, fun i => .inl ?_, fun _ hq => hq, rfl, hns⟩
  change (look PortSt.reset (f u.ridge).ports i).st = _
  rw [hports]
  rfl

theorem Lasting.notifyReady (h : Lasting s u) : Lasting s (Machine.notifyReady u) := by
  have hk : Keeps [.ridge, .bw, .xing, .out, .ep, .pba] u (Machine.notifyReady u) := (keeps_refl _ u).notifyReady
  refine h.wired ?_ hk
  unfold Machine.notifyReady
  split
  · exact wired_refl u
  · exact ((wired_refl u).updEp).noticeMsg

theorem Lasting.setReady {f : Ready → Ready} (h : Lasting s u) : Lasting s (Machine.setReady f u) := by
  unfold Machine.setReady
  extract_lets r
  split
  · exact h
  · have hr : Lasting u (Machine.updPw (fun p => { p with ready := r }) u) :=
      ⟨fun _ => .inl rfl, fun _ => .inl rfl, fun _ hq => hq, rfl, rfl⟩
    exact (h.trans hr).notifyReady

theorem Lasting.settleMode (h : Lasting s u) : Lasting s (Machine.settleMode u) := by
  have hk : Keeps [.thr, .ridge, .bw, .xing, .out, .pw, .wake, .ep, .pba, .wr, .log] u (Machine.settleMode u) := (keeps_refl _ u).settleMode
  have hw : Wired u (Machine.settleMode u) := (wired_refl u).settleMode
  refine h.trans ⟨fun i => .inl ?_, fun i => .inl (hw.linked i PortSt.st), fun q hq => ?_, stored_settleMode, hw.wiring Ridge.nsEn⟩
  · unfold Machine.chan
    rw [show (Machine.settleMode u).chan = u.chan from hk .chan (by decide)]
  · rw [hk.part_eq]
    exact hq

/-! ## A coherence error -/

theorem Lasting.redirect {q : Nat} (h : Lasting s u) : Lasting s (Machine.redirect q u) := by
  unfold Machine.redirect
  split
  · exact h
  · split
    · exact h
    · extract_lets a b
      have ha : Keeps [.queue] u a := Keeps.each (keeps_refl _ u) fun _ _ hx => Keeps.ite hx.updQueue hx
      have hb : Lasting s b := (h.keeps ha).updPart fun _ hy => hy
      exact hb.keeps (keeps_refl [.thr, .wake, .log] b).notice

theorem Lasting.haltPart {q : Nat} (h : Lasting s u) : Lasting s (Machine.haltPart q u) := by
  unfold Machine.haltPart releaseAll
  extract_lets ts a
  have ha : Lasting s a := h.keeps (keeps_refl [.srcs] u).markSources
  have hb : Keeps [.thr, .core, .bay, .slice, .eng, .mem, .old, .poison, .fresh, .wake, .log] a
      (forEach ts Machine.haltThread (forEach (bitsOf (Machine.part a q).bays)
        (fun b acc => forEach (List.range 4) (fun c x => releaseSolo (4 * b + c) x) acc) a)) :=
    Keeps.each (Keeps.each (keeps_refl _ a) fun _ _ hx => Keeps.each hx fun _ _ hy => hy.releaseSolo) fun _ _ hx => hx.haltThread
  exact ha.keeps hb

theorem Lasting.markDown {q : Nat} {code : BitVec 8} (h : Lasting s u) : Lasting s (Machine.markDown q code u) := by
  unfold Machine.markDown
  extract_lets a bs
  have ha : Lasting s a := h.updPart fun y hy => ⟨rfl, hy.2⟩
  exact ((ha.setReady).keeps (keeps_downItems q code)).settleMode

theorem Lasting.downSteps {q : Nat} {code : BitVec 8} {det : BitVec 6} {unit : Option Src} {w : Word} (h : Lasting s u) :
    Lasting s (Machine.downSteps q code det unit w u) := by
  have ha : Lasting s (Machine.updPart q (downCause code det unit) u) := h.updPart fun y hy => ⟨hy.1, rfl, hy.2.2⟩
  have hb : Lasting s (forgetPart q (Machine.haltPart q (Machine.updPart q (downCause code det unit) u))) :=
    (ha.haltPart).keeps (keeps_forgetPart q)
  rw [downSteps_eq]
  split
  · exact ((hb.markDown).redirect).keeps (keeps_refl [.log] _).wrightEvent
  · exact (hb.markDown).keeps (keeps_refl [.log] _).wrightEvent

theorem Lasting.reportCoherence {q : Nat} {code : BitVec 8} {det : BitVec 6} {unit : Option Src} (h : Lasting s u) :
    Lasting s (Machine.reportCoherence q code det unit u) := by
  have hlog (a b : Word) : Lasting s (wrightEvent 2 a b u) := h.keeps (keeps_refl [.log] u).wrightEvent
  unfold Machine.reportCoherence
  extract_lets w openAgain
  split
  · exact h.downSteps
  · exact h.downSteps
  · split
    · exact h.downSteps
    · exact hlog _ _
  · exact hlog _ _

theorem Lasting.protocol {a : Agent} (h : Lasting s u) : Lasting s (Machine.protocol a u) := by
  unfold Machine.protocol
  split
  · exact h
  · exact h.reportCoherence

/-! ## Homes go on with what waits -/

theorem Keeps.performHub {i : Fin 40} {k : ReqKind} {m : CMsg} (h : Keeps P s u)
    (hP : ∀ p ∈ ([.thr, .bay, .slice, .eng, .net, .mem, .old, .poison, .wake, .log] : List Piece), p ∈ P := by decide) :
    Keeps P s (Machine.performHub i k m u) := by
  refine h.via ?_ hP
  have h := keeps_refl [.thr, .bay, .slice, .eng, .net, .mem, .old, .poison, .wake, .log] u
  unfold Machine.performHub
  dsimp only
  split
  · exact h.storeMasked.llcFill.grant
  · refine Keeps.send ?_
    refine Keeps.llcFill ?_
    split
    · exact h.monTake
    · exact h.stcndDo
    · exact h.atomDo
  · exact h.homeData

theorem Keeps.beginTx {i : Fin 40} {key : Nat} {k : ReqKind} {m : CMsg} (h : Keeps P s u)
    (hP : ∀ p ∈ ([.thr, .bay, .slice, .eng, .net, .mem, .old, .poison, .wake, .log] : List Piece), p ∈ P := by decide) :
    Keeps P s (Machine.beginTx i key k m u) := by
  refine h.via ?_ hP
  have h := keeps_refl [.thr, .bay, .slice, .eng, .net, .mem, .old, .poison, .wake, .log] u
  have hexcl (acks : BitVec 40) (f : DirE → DirE) (data : Bool) :
      Keeps [.thr, .bay, .slice, .eng, .net, .mem, .old, .poison, .wake, .log] u
        (let y := Machine.forwardAll i .fInv acks m.src m (Machine.updDir i.val key f (Machine.clearHomeMon i.val m.line u))
         if data then Machine.homeData i m true acks y else Machine.grant i m acks y) := by
    dsimp only
    split
    · exact h.clearHomeMon.updDir.forwardAll.homeData
    · exact h.clearHomeMon.updDir.forwardAll.grant
  unfold Machine.beginTx
  dsimp only
  split
  · split
    · exact h.updDir.updSlice.forwardAll
    · exact h.updDir.homeData
  · exact Keeps.ite h.clearHomeMon.updDir.forwardAll (hexcl _ _ _)
  · exact Keeps.ite h.clearHomeMon.updDir.forwardAll (hexcl _ _ _)
  · exact Keeps.ite h.clearHomeMon.updDir.forwardAll (hexcl _ _ _)
  · exact Keeps.ite h.updDir.forwardAll h.cleanLine.llcClean.updDir.grant
  · exact Keeps.ite h.updDir.forwardAll h.cleanLine.llcDrop.updDir.forwardAll.grant
  · exact h.discardLine.llcDrop.updDir.forwardAll.grant
  · exact Keeps.ite h.updDir.forwardAll h.performHub
  · refine Keeps.ite h.updDir.forwardAll (Keeps.ite h.updDir.forwardAll ?_)
    exact Keeps.ite h.performHub.updDir h.performHub

theorem Keeps.serve {i : Fin 40} {k : ReqKind} {m : CMsg} (h : Keeps P s u)
    (hP : ∀ p ∈ ([.thr, .bay, .slice, .eng, .net, .mem, .old, .poison, .wake, .log] : List Piece), p ∈ P := by decide) :
    Keeps P s (Machine.serve i k m u) := by
  refine h.via ?_ hP
  have h := keeps_refl [.thr, .bay, .slice, .eng, .net, .mem, .old, .poison, .wake, .log] u
  have hbare : Keeps [.thr, .bay, .slice, .eng, .net, .mem, .old, .poison, .wake, .log] u (Machine.serveBare i k m u) := by
    unfold Machine.serveBare
    dsimp only
    split
    · exact h.cleanLine.llcClean.updSlice.grant
    · exact h.cleanLine.llcDrop.updSlice.grant
    · exact h.discardLine.llcDrop.updSlice.grant
    · exact h.performHub
  unfold Machine.serve
  dsimp only
  split
  · exact h.beginTx
  · split
    · exact hbare
    · split
      · unfold Machine.takeWay
        exact h.updDir.beginTx
      · split
        · exact h
        · exact h.updDir.updSlice.forwardAll

theorem Lasting.absorbWb {i : Fin 40} {k : CKind} {m : CMsg} (h : Lasting s u) : Lasting s (Machine.absorbWb i k m u) := by
  have hack (x : State) (hx : Keeps [.slice, .old] u x) : Lasting s (Machine.send .wbAck (homeMsg x i m.src m) x) :=
    (h.keeps hx).keeps (keeps_refl [.net] x).send
  have hu := keeps_refl [.slice, .old] u
  unfold Machine.absorbWb
  dsimp only
  split
  · split
    · exact h.protocol
    · exact hack u hu
  · split
    · split
      · exact h.protocol
      · exact hack _ hu.llcFill.updDir
    · split
      · exact hack _ hu.updDir
      · exact hack _ hu.updDir

theorem Lasting.settleDir {i : Fin 40} {l : BitVec 42} {n : Nat} (h : Lasting s u) : Lasting s (Machine.settleDir i l n u) := by
  induction n generalizing u with
  | zero => exact h
  | succ n ih =>
    unfold Machine.settleDir
    split
    · exact ih (h.keeps (keeps_refl [.slice] u).updSlice).absorbWb
    · split
      · exact h
      · extract_lets a more b c
        have ha : Lasting s a := h.keeps (keeps_refl [.slice] u).updSlice
        have hb : Lasting s b := by
          unfold b
          split
          · exact ha.keeps (keeps_refl [.slice] a).updDir
          · exact ha
        have hc : Lasting s c := by
          unfold c
          split
          · exact hb.updPart fun _ hy => hy
          · exact hb
        exact ih (hc.keeps (keeps_refl [.thr, .bay, .slice, .eng, .net, .mem, .old, .poison, .wake, .log] c).serve)

theorem Lasting.settleHomes (h : Lasting s u) : Lasting s (Machine.settleHomes u) :=
  h.each fun _ x => (lasting_refl x).each fun _ y => (lasting_refl y).settleDir

/-! ## A channel is retired -/

/-- The channel's work and rows go with it. -/
def retiredChan (k : Chan) : Chan := { k with st := 4, job := none, jobs := [], rows := [], solo := false }

/-- The mate of a mirrored pair serves alone. -/
def mateAlone (c : Nat) (s : State) : State :=
  if inMirror s c && !retired s (mateOf c) then updChan (mateOf c) (fun k => { k with solo := true }) s else s

/-- A dirty line that is lost is counted and poisoned. -/
def loseDirty (c : Nat) (e : Nat × Option (BitVec 512 × Bool)) (acc : State) : State :=
  poisonLine (BitVec.ofNat 42 e.1) (lineWhere acc (BitVec.ofNat 42 e.1))
    (updChan c (fun k => { k with wbLost := satInc k.wbLost }) (discardLine (BitVec.ofNat 42 e.1) acc))

/-- The cached lines of the channel go. -/
def loseLines (c : Nat) (s : State) : State :=
  forEach (s.old.filter (fun e => onDeadChan s c (BitVec.ofNat 42 e.1))) (loseDirty c) (settleHomes (dropCopiesIf (onDeadChan s c) s))

/-- The retirement is announced. -/
def tellRetired (c cause : Nat) (s : State) : State :=
  let s := setReady (fun r => { r with ch := setBit r.ch c false }) s
  let s := wrightEvent 7 (BitVec.ofNat 64 c) (BitVec.ofNat 64 cause) s
  settleMode (forEach (partsOnChan s c) (fun p acc => notice p 6 (at' (BitVec.ofNat 4 c) 0 ||| atB true 8) acc) s)

theorem retireChan_eq {c cause : Nat} (h : ¬ (retired s c || decide ((chan s c).st = 0)) = true) :
    retireChan c cause s = tellRetired c cause (loseLines c (mateAlone c (updChan c retiredChan s))) := if_neg h

theorem Lasting.mateAlone {c : Nat} (h : Lasting s u) : Lasting s (Machine.mateAlone c u) := by
  unfold Machine.mateAlone
  split
  · exact h.updChan fun _ => .inl rfl
  · exact h

theorem lasting_loseDirty (c : Nat) (e : Nat × Option (BitVec 512 × Bool)) : Lasting s (loseDirty c e s) := by
  unfold loseDirty
  have h1 : Lasting s (discardLine (BitVec.ofNat 42 e.1) s) := (lasting_refl s).keeps (keeps_refl [.old, .mem, .poison] s).discardLine
  have h2 := h1.updChan (c := c) (f := fun k => { k with wbLost := satInc k.wbLost }) fun _ => .inl rfl
  exact h2.keeps (keeps_refl [.thr, .poison, .wake, .log] _).poisonLine

theorem Lasting.loseLines {c : Nat} (h : Lasting s u) : Lasting s (Machine.loseLines c u) := by
  unfold Machine.loseLines
  refine Lasting.each ?_ fun e x => lasting_loseDirty c e
  exact (h.keeps (keeps_refl [.thr, .core, .bay, .slice, .eng, .net, .ereqs] u).dropCopiesIf).settleHomes

theorem Lasting.tellRetired {c cause : Nat} (h : Lasting s u) : Lasting s (Machine.tellRetired c cause u) := by
  unfold Machine.tellRetired
  extract_lets a b
  have ha : Lasting s a := h.setReady
  have hb : Lasting s b := ha.keeps (keeps_refl [.log] a).wrightEvent
  exact (hb.each fun _ x => (lasting_refl x).keeps (keeps_refl [.thr, .wake, .log] x).notice).settleMode

theorem Lasting.retireChan {c cause : Nat} (h : Lasting s u) : Lasting s (Machine.retireChan c cause u) := by
  by_cases hr : (retired u c || decide ((Machine.chan u c).st = 0)) = true
  · rw [show Machine.retireChan c cause u = u from if_pos hr]
    exact h
  · rw [retireChan_eq hr]
    exact ((h.updChan (f := retiredChan) fun _ => .inr rfl).mateAlone.loseLines).tellRetired

theorem Lasting.failTraining {c : Nat} (h : Lasting s u) : Lasting s (Machine.failTraining c u) := by
  unfold Machine.failTraining
  extract_lets gib a
  have ha : Lasting s a := by
    unfold a
    split
    · exact h
    · refine h.keeps (P := [.region]) fun p hp => ?_
      cases p <;> simp_all [Piece.same]
  exact ha.retireChan

/-- The channel that fails to train is retired. -/
theorem st_retireChan {c cause : Nat} (hst : (chan s c).st ≠ 0) : (chan (retireChan c cause s) c).st = 4 := by
  by_cases hr : (retired s c || decide ((chan s c).st = 0)) = true
  · rw [show retireChan c cause s = s from if_pos hr]
    rcases Bool.or_eq_true_iff.mp hr with h4 | h0
    · exact of_decide_eq_true h4
    · exact absurd (of_decide_eq_true h0) hst
  · obtain ⟨a, ha⟩ : ∃ a, a = updChan c retiredChan s := ⟨_, rfl⟩
    have hchan : (chan a c).st = 4 := by
      rw [ha, chan_updChan, if_pos rfl]
      rfl
    have h : Lasting a (retireChan c cause s) := by
      rw [retireChan_eq hr, ← ha]
      exact ((lasting_refl a).mateAlone.loseLines).tellRetired
    rcases h.chan c with h | h
    · exact h.trans hchan
    · exact h

end Sys2Proof.Machine
end

section
/-! What stands as a port fails (R404, R409, R410, R464). -/
namespace Sys2Proof.Machine
set_option Elab.async false
variable {s t u v : State} {P : List Piece}

/-! ## An access that is lost -/

theorem lasting_noteError (c : Nat) (x : Loc) (l : BitVec 42) (dev : BitVec 6) (ue patrol : Bool) :
    Lasting s (noteError c x l dev ue patrol s) := by
  unfold noteError
  extract_lets a
  have ha : Lasting s a := (lasting_refl s).updChan fun _ => .inl rfl
  exact ha.keeps (keeps_refl [.log] a).wrightEvent

theorem Lasting.logFound {l : List (BitVec 42 × Fin 16 × BitVec 6)} (h : Lasting s u) : Lasting s (Machine.logFound l u) := by
  unfold Machine.logFound
  refine h.each fun f x => ?_
  split
  · have h1 : Lasting x (Machine.updChan f.2.1.val (fun k => { k with ce := satInc k.ce }) x) :=
      (lasting_refl x).updChan fun _ => .inl rfl
    exact h1.trans (lasting_noteError _ _ _ _ _ _)
  · exact lasting_refl x

theorem Lasting.releaseShim {i : Fin 640} {f : ShimE → Bool} (h : Lasting s u) : Lasting s (Machine.releaseShim i f u) := by
  unfold Machine.releaseShim
  dsimp only
  exact (h.logFound).keeps (keeps_refl [.core] _).freeShim

/-- Counts and the threads' own records are no part of the relation. -/
theorem Lasting.counted (h : Lasting s u) (k : Keeps [.thr, .wake] u v) : Lasting s v := h.keeps k

theorem Lasting.retireTo {x : Thr} {pc : Word} {th0 : Thread} (h : Lasting s u) : Lasting s (Machine.retireTo x pc th0 u) := by
  have h1 : Lasting s (countUnconfirmed x 2 u) := h.counted (keeps_refl _ u).countUnconfirmed
  have hthr (f : Thread → Thread) (y : State) : Keeps [.thr, .wake] y (updThr x f y) := (keeps_refl _ y).updThr
  unfold Machine.retireTo
  dsimp only
  split
  · have h2 : Lasting s (match (motive := Thr → State) x with
        | .core i => Machine.releaseShim i (fun _ => true) (countUnconfirmed x 2 u)
        | .adze _ => countUnconfirmed x 2 u) := by
      split
      · exact h1.releaseShim
      · exact h1
    exact h2.counted (Keeps.each (hthr _ _) fun _ _ hx => hx.countHeld).countMany.countConfirmed
  · split <;> exact h1.counted (hthr _ _)

theorem Lasting.valueDone {x : Thr} {id : Nat} {w : Word} {poison : Bool} (h : Lasting s u) :
    Lasting s (Machine.valueDone x id w poison u) := by
  have hout : Lasting s (removeOut x id u) := h.counted (keeps_refl _ u).removeOut
  unfold Machine.valueDone
  dsimp only
  split
  · exact h
  · split
    · exact hout.counted (keeps_refl _ _).updThr
    · split
      · exact hout
      · exact (hout.counted (keeps_refl _ _).updThr).retireTo

theorem Lasting.accessLost {x : Thr} {a : Access} {cause : LostCause} (h : Lasting s u) : Lasting s (Machine.accessLost x a cause u) := by
  have hlost : Lasting s (lostStore x a cause u) :=
    h.keeps (keeps_refl [.thr, .core, .bay, .slice, .eng, .mem, .old, .poison, .fresh, .wake, .log] u).lostStore
  unfold Machine.accessLost
  dsimp only
  split
  · exact (h.counted ((keeps_refl _ u).updThr.countEvent)).valueDone
  · split
    · exact hlost.valueDone
    · split
      · exact (hlost.keeps (keeps_refl [.thr, .bay, .slice, .eng] _).loseResv).valueDone
      · exact hlost.counted (keeps_refl _ _).removeOut

theorem Lasting.ridgeAccessLost {x : Thr} {id : Nat} {cause : LostCause} (h : Lasting s u) :
    Lasting s (Machine.ridgeAccessLost x id cause u) := by
  unfold Machine.ridgeAccessLost
  split
  · exact h.accessLost
  · exact h

/-! ## A request that is lost -/

theorem Keeps.pumpHeld {n : Nat} (h : Keeps P s u) (hP : ∀ p ∈ ([.ridge, .bw, .xing, .out] : List Piece), p ∈ P := by decide) :
    Keeps P s (Machine.pumpHeld n u) := by
  induction n generalizing u with
  | zero => exact h
  | succ n ih =>
    unfold Machine.pumpHeld
    split
    · exact h
    · exact ih ((h.updRidge fun p hp => hP p (by simp_all)).portSend hP)

theorem Keeps.closeReq {p : RReq → Bool} (h : Keeps P s u) (hP : ∀ p ∈ ([.ridge, .bw, .xing, .out] : List Piece), p ∈ P := by decide) :
    Keeps P s (Machine.closeReq p u) := by
  refine h.via ?_ hP
  unfold Machine.closeReq
  exact (keeps_refl [.ridge, .bw, .xing, .out] u).updRidge.pumpHeld

theorem Lasting.loseReq {q : RReq} (h : Lasting s u) : Lasting s (Machine.loseReq q u) := by
  unfold Machine.loseReq
  extract_lets w
  have hw : Lasting s w := h.wired (wired_refl u).closeReq (keeps_refl [.ridge, .bw, .xing, .out] u).closeReq
  have hcount : Lasting s (countUnreach w) := hw.updRidge
  split
  · exact hcount.ridgeAccessLost
  · split
    · split
      · exact hw
      · split
        · exact hcount.wired (wired_refl _).readFailed
            (keeps_refl [.led, .ridge, .bw, .xing, .out, .pw, .ep] _).readFailed
        · exact hw.wired (wired_refl w).updEp.pumpReads (keeps_refl [.led, .ridge, .bw, .xing, .out, .pw, .ep] w).updRead.pumpReads
    · split
      · exact hw.updRidge.keeps (keeps_refl [.led] _).updEntry
      · exact hw.keeps (keeps_refl [.led] w).updEntry
  · exact hw

theorem Lasting.deliverAll (h : Lasting s u) : Lasting s (Machine.deliverAll u) :=
  h.wired (wired_refl u).deliverAll (keeps_refl [.queue, .led, .inst, .ridge, .bw, .xing, .out, .fresh, .pba] u).deliverAll

theorem Lasting.loseReqs {p : RReq → Bool} (h : Lasting s u) : Lasting s (Machine.loseReqs p u) := by
  unfold Machine.loseReqs
  exact (h.updRidge.each fun _ x => (lasting_refl x).loseReq).deliverAll

/-! ## A port that fails -/

theorem Lasting.topologyNotice (h : Lasting s u) : Lasting s (Machine.topologyNotice u) := by
  unfold Machine.topologyNotice
  refine h.each fun q x => ?_
  split
  · exact (lasting_refl x).keeps (keeps_refl [.thr, .wake, .log] x).notice
  · exact lasting_refl x

theorem Lasting.flood {column : Bool} (h : Lasting s u) : Lasting s (Machine.flood column u) := by
  unfold Machine.flood Machine.markSeen
  extract_lets x n
  have hx : Lasting s x := h.updRidge.topologyNotice
  have hseen := hx.updRidge (f := fun r =>
    if column then { r with seenCol := some n } else { r with seen := put none r.seen (myFrame x) (some n) }) fun r => by split <;> exact ⟨rfl, rfl⟩
  unfold Machine.passOn
  refine hseen.each fun y z => ?_
  split
  · exact (lasting_refl z).wired (wired_refl z).portSend (keeps_refl [.ridge, .bw, .xing, .out] z).portSend
  · exact lasting_refl z

theorem Lasting.discardPort {x : Port} (h : Lasting s u) : Lasting s (Machine.discardPort x u) := by
  unfold Machine.discardPort
  extract_lets k n a b
  have ha : Lasting s a := h.updPort fun _ => .inl rfl
  have hb : Lasting s b := ha.each fun w y =>
    (lasting_refl y).wired (wired_refl y).freeBuffer (keeps_refl [.ridge, .bw, .xing, .out] y).freeBuffer
  exact hb.updRidge

theorem Lasting.portDown {x : Port} (h : Lasting s u) : Lasting s (Machine.portDown x 5 u) := by
  unfold Machine.portDown
  extract_lets a b
  have ha : Lasting s a := h.discardPort.keeps (keeps_refl [.time] _).sourceLost
  have hb : Lasting s b := ha.updPort fun _ => .inr rfl
  exact (hb.setReady.loseReqs).flood

theorem Lasting.failPort {x : Port} (h : Lasting s u) : Lasting s (Machine.failPort x u) := by
  unfold Machine.failPort
  extract_lets partner a b both
  have ha : Lasting s a := h.portDown.updPort fun _ => .inl rfl
  have hb : Lasting s b := ha.keeps (keeps_refl [.log] a).wrightEvent
  refine Lasting.settleMode ?_
  split
  · exact hb.updRidge fun r => by split <;> exact ⟨rfl, rfl⟩
  · exact hb

end Sys2Proof.Machine
end

section
/-! The end of bring-up and its timeout (R464). -/
namespace Sys2Proof.Machine
set_option Elab.async false
variable {s t u v : State} {P : List Piece}

/-! ## BRINGUP_DONE -/

/-- What the declaration that bring-up is done leaves. -/
def Declared (u : State) : Prop := u.pw.bringing = false ∧ u.pw.bringupDone = true ∧ u.pw.mode = modeNow u

theorem declared_declareDone (s : State) : Declared (declareDone s) := by
  obtain ⟨a, ha⟩ : ∃ a, a = updPw (fun p => { p with bringing := false, bringupDone := true }) s := ⟨_, rfl⟩
  have hu : declareDone s = settleMode a := by rw [ha]; rfl
  have hbringing : a.pw.bringing = false := by rw [ha]; rfl
  have hdone : a.pw.bringupDone = true := by rw [ha]; rfl
  rw [hu]
  have hp : Poised a (settleMode a) := (poised_refl a).settleMode
  exact ⟨(hp.field Power.bringing).trans hbringing, (hp.field Power.bringupDone).trans hdone, mode_settleMode⟩

/-- Every function that the settings name is settled. -/
def AllSettled (s : State) : Prop := s.pw.ready.vset = true ∧ (∀ c ∈ expectedChans s, chanSettled s c = true) ∧
  (∀ x ∈ expectedPorts s, portSettled s x = true) ∧ ∀ p, p < 8 → partSettled s p = true

section serving
variable (hb : s.pw.bringing = true) (hst : s.wr.st = .serving)
include hb hst

theorem bringupDone_declares (h : AllSettled s) : exec .bringupDone s = .next (declareDone s) := by
  obtain ⟨hv, hchans, hports, hparts⟩ := h
  have hall : ((expectedChans s).all (chanSettled s) && (expectedPorts s).all (portSettled s) &&
      (List.range 8).all (partSettled s)) = true := by
    rw [List.all_eq_true.mpr hchans, List.all_eq_true.mpr hports,
      List.all_eq_true.mpr fun p hp => hparts p (List.mem_range.mp hp)]
    rfl
  change execBringupDone s = _
  unfold execBringupDone
  rw [if_neg (by simp [hb, hst, hv]), if_pos hall]

theorem bringupDone_waits (h : ¬ AllSettled s) : exec .bringupDone s = .next s := by
  change execBringupDone s = _
  unfold execBringupDone
  split
  · rfl
  · next hgo =>
    rw [if_neg]
    intro hall
    simp only [Bool.and_eq_true, List.all_eq_true] at hall
    obtain ⟨⟨hchans, hports⟩, hparts⟩ := hall
    exact h ⟨by simpa [hb, hst] using hgo, hchans, hports, fun p hp => hparts p (List.mem_range.mpr hp)⟩

/-! ## BRINGUP_TIMEOUT -/

/-- The channels that have not come up fail. -/
def failChans (s : State) : State := forEach ((expectedChans s).filter (fun c => !chanSettled s c)) (fun c acc => failTraining c acc) s

/-- So do the ports. -/
def failPorts (s : State) : State := forEach ((expectedPorts s).filter (fun x => !portSettled s x)) (fun x acc => failPort x acc) s

/-- So do the partitions. -/
def failParts (s : State) : State :=
  forEach ((List.range 8).filter (fun p => !partSettled s p)) (fun p acc => failStart p (takeLayout p acc)) s

theorem bringupTimeout_waits (h : ¬ s.pw.bringupAt.toNat + s.pw.bringupTmo.toNat ≤ s.time.now.toNat) :
    exec .bringupTimeout s = .next s := by
  change execBringupTimeout s = _
  unfold execBringupTimeout
  exact if_pos (by simp [hb, hst]; omega)

theorem bringupTimeout_fails (h : s.pw.bringupAt.toNat + s.pw.bringupTmo.toNat ≤ s.time.now.toNat) :
    exec .bringupTimeout s = .next (declareDone (failParts (failPorts (failChans s)))) := by
  change execBringupTimeout s = _
  unfold execBringupTimeout
  rw [if_neg (by simp [hb, hst]; omega)]
  rfl

end serving

/-- What one element of a list brings about, and no element undoes, stands at the end. -/
theorem forEach_reaches {α : Type} {l : List α} {f : α → State → State} {I Q : State → Prop} {a : α} (ha : a ∈ l)
    (hI : ∀ b x, I x → I (f b x)) (hQ : ∀ x, I x → Q (f a x)) (hkeep : ∀ b x, Q x → Q (f b x)) (h : I s) : Q (forEach l f s) := by
  induction l generalizing s with
  | nil => exact absurd ha List.not_mem_nil
  | cons b l ih =>
    rw [forEach_cons]
    rcases List.mem_cons.mp ha with rfl | hal
    · exact forEach_keeps Q f l _ (hQ s h) fun b _ x hx => hkeep b x hx
    · exact ih hal (hI b s h)

/-! ### Channels and ports -/

theorem lasting_failChans (s : State) : Lasting s (failChans s) := (lasting_refl s).each fun _ x => (lasting_refl x).failTraining

theorem lasting_failPorts (s : State) : Lasting s (failPorts s) := (lasting_refl s).each fun _ x => (lasting_refl x).failPort

theorem Lasting.chan_failed (h : Lasting s u) {c : Nat} (hc : (Machine.chan s c).st = 4) : (Machine.chan u c).st = 4 := by
  rcases h.chan c with hu | hu
  · exact hu.trans hc
  · exact hu

theorem Lasting.port_failed (h : Lasting s u) {i : Nat} (hi : (Machine.port s i).st = 5) : (Machine.port u i).st = 5 := by
  rcases h.port i with hu | hu
  · exact hu.trans hi
  · exact hu

theorem Lasting.chan_used (h : Lasting s u) {c : Nat} (hc : (Machine.chan s c).st ≠ 0) : (Machine.chan u c).st ≠ 0 := by
  rcases h.chan c with hu | hu
  · rw [hu]
    exact hc
  · rw [hu]
    decide

theorem st_failTraining {c : Nat} (hst : (chan s c).st ≠ 0) : (chan (failTraining c s) c).st = 4 := by
  unfold failTraining
  extract_lets gib a
  have ha : chan a c = chan s c := by
    unfold a
    split <;> rfl
  exact st_retireChan (by rw [ha]; exact hst)

theorem st_failChans {c : Nat} (hc : c ∈ expectedChans s) (hn : chanSettled s c = false) (hst : (chan s c).st ≠ 0) :
    (chan (failChans s) c).st = 4 :=
  forEach_reaches (I := fun x => (chan x c).st ≠ 0) (Q := fun x => (chan x c).st = 4)
    (List.mem_filter.mpr ⟨hc, by rw [hn]; rfl⟩)
    (fun _ x hx => (lasting_refl x).failTraining.chan_used hx) (fun _ hx => st_failTraining hx)
    (fun _ x hx => (lasting_refl x).failTraining.chan_failed hx) hst

theorem st_failPorts {x : Port} (hx : x ∈ expectedPorts s) (hn : portSettled s x = false) : (port (failPorts s) (portIx x)).st = 5 :=
  forEach_reaches (I := fun _ => True) (Q := fun y => (port y (portIx x)).st = 5)
    (List.mem_filter.mpr ⟨hx, by rw [hn]; rfl⟩)
    (fun _ _ _ => trivial) (fun _ _ => failPort_spec.1) (fun _ y hy => (lasting_refl y).failPort.port_failed hy) trivial

theorem expectedPorts_of_lasting (h : Lasting s u) : expectedPorts u = expectedPorts s := by
  unfold expectedPorts
  rw [h.store, h.column]

/-- A port that has not come up has failed meanwhile or is among those that now fail. -/
theorem port_unsettled_of_lasting (h : Lasting s u) {x : Port} (hn : portSettled s x = false) :
    (port u (portIx x)).st = 5 ∨ portSettled u x = false := by
  rcases h.port (portIx x) with hu | hu
  · refine .inr ?_
    unfold portSettled portUp at hn ⊢
    rw [hu]
    exact hn
  · exact .inl hu

/-! ### Partitions -/

theorem bringupLayout_isSome (h : u.wr.store = s.wr.store) (q : Nat) : (bringupLayout u q).isSome = (bringupLayout s q).isSome := by
  unfold bringupLayout
  rw [h]
  split
  · by_cases hq : q ≠ 0
    · rw [if_pos hq, if_pos hq]
    · rw [if_neg hq, if_neg hq, Option.isSome_some, Option.isSome_some]
  · rfl

theorem partSettled_eq_false {q : Nat} : partSettled s q = false ↔ (bringupLayout s q).isSome = true ∧ Unsettled (part s q) := by
  unfold partSettled Unsettled
  cases bringupLayout s q <;> simp [and_assoc]

theorem part_unsettled_of_lasting (h : Lasting s u) {q : Nat} (hn : partSettled s q = false) : partSettled u q = false := by
  obtain ⟨hsome, hq⟩ := partSettled_eq_false.mp hn
  exact partSettled_eq_false.mpr ⟨(bringupLayout_isSome h.store q).trans hsome, h.part q hq⟩

/-- Every partition but one, every channel and every port's state stands. -/
structure Apart (q : Nat) (s u : State) : Prop where
  chan : ∀ c, chan u c = chan s c
  port : ∀ i, (port u i).st = (port s i).st
  part : ∀ k, k ≠ q → part u k = part s k

theorem apart_refl (q : Nat) (s : State) : Apart q s s := ⟨fun _ => rfl, fun _ => rfl, fun _ _ => rfl⟩

theorem Apart.trans {q : Nat} (h : Apart q s u) (k : Apart q u v) : Apart q s v :=
  ⟨fun c => (k.chan c).trans (h.chan c), fun i => (k.port i).trans (h.port i), fun j hj => (k.part j hj).trans (h.part j hj)⟩

theorem Apart.updPart {q : Nat} {f : Part → Part} (h : Apart q s u) : Apart q s (Machine.updPart q f u) :=
  h.trans ⟨fun _ => rfl, fun _ => rfl, fun k hk => by rw [part_updPart, if_neg hk]⟩

theorem Apart.wired {q : Nat} (h : Apart q s u) (w : Wired u v) (k : Keeps P u v) (hc : Piece.chan ∉ P := by decide)
    (hp : Piece.part ∉ P := by decide) : Apart q s v := by
  refine h.trans ⟨fun c => ?_, fun i => w.linked i PortSt.st, fun j _ => by rw [k.part_eq (hP := hp)]⟩
  unfold Machine.chan
  rw [show v.chan = u.chan from k .chan hc]

theorem Apart.settleMode {q : Nat} (h : Apart q s u) : Apart q s (Machine.settleMode u) :=
  h.wired (wired_refl u).settleMode (keeps_refl [.thr, .ridge, .bw, .xing, .out, .pw, .wake, .ep, .pba, .wr, .log] u).settleMode

theorem apart_failStart (q : Nat) (s : State) : Apart q s (failStart q s) := by
  unfold failStart
  extract_lets a
  have ha : Apart q s a := (apart_refl q s).updPart
  exact (ha.wired ((wired_refl a).keeps (keeps_wrightEvent _ _ _)) (keeps_refl [.log] a).wrightEvent).settleMode

theorem apart_takeLayout (q : Nat) (s : State) : Apart q s (takeLayout q s) := by
  have hlayout (x : Layout) : Apart q s (applyCohCtl q (applyLayout { x with p := q } s)) := by
    have h : Apart q s (applyLayout { x with p := q } s) := (apart_refl q s).updPart
    unfold applyCohCtl
    split
    · exact h
    · exact h.updPart
  unfold takeLayout
  split
  · exact apart_refl q s
  · split
    · exact apart_refl q s
    · split
      · exact apart_refl q s
      · next x _ _ =>
        dsimp only
        split
        · exact (hlayout x).updPart.settleMode
        · exact hlayout x

theorem Apart.declareDone {q : Nat} (h : Apart q s u) : Apart q s (Machine.declareDone u) := by
  have hp : Apart q s (updPw (fun p => { p with bringing := false, bringupDone := true }) u) :=
    h.trans ⟨fun _ => rfl, fun _ => rfl, fun _ _ => rfl⟩
  exact hp.settleMode

/-- A partition whose start has failed. -/
def StartFailed (y : Part) : Prop := y.st = .restarting ∧ y.startFailed = true

theorem startFailed_failStart (q : Nat) (s : State) : StartFailed (part (failStart q s) q) := by
  rw [(failStart_spec q).1]
  exact ⟨rfl, rfl⟩

theorem startFailed_failParts {q : Nat} (hq : q < 8) (hn : partSettled s q = false) : StartFailed (part (failParts s) q) := by
  refine forEach_reaches (I := fun _ => True) (Q := fun y => StartFailed (part y q))
    (List.mem_filter.mpr ⟨List.mem_range.mpr hq, by rw [hn]; rfl⟩) (fun _ _ _ => trivial)
    (fun _ _ => startFailed_failStart q _) (fun k y hy => ?_) trivial
  by_cases hk : q = k
  · rw [hk]
    exact startFailed_failStart k _
  · rw [(apart_failStart k _).part q hk, (apart_takeLayout k y).part q hk]
    exact hy

theorem failParts_keeps (s : State) : (∀ c, chan (failParts s) c = chan s c) ∧ ∀ i, (port (failParts s) i).st = (port s i).st :=
  forEach_keeps (fun x => (∀ c, chan x c = chan s c) ∧ ∀ i, (port x i).st = (port s i).st) _ _ s ⟨fun _ => rfl, fun _ => rfl⟩
    fun q _ x hx => by
      have h := (apart_takeLayout q x).trans (apart_failStart q _)
      exact ⟨fun c => (h.chan c).trans (hx.1 c), fun i => (h.port i).trans (hx.2 i)⟩

/-- What bring-up's timeout leaves. -/
theorem timeout_spec : let u := declareDone (failParts (failPorts (failChans s)))
    (∀ c ∈ expectedChans s, chanSettled s c = false → (chan s c).st ≠ 0 → (chan u c).st = 4) ∧
    (∀ x ∈ expectedPorts s, portSettled s x = false → (port u (portIx x)).st = 5) ∧
    ∀ p, p < 8 → partSettled s p = false → StartFailed (part u p) := by
  obtain ⟨a, ha⟩ : ∃ a, a = failChans s := ⟨_, rfl⟩
  obtain ⟨b, hb⟩ : ∃ b, b = failPorts a := ⟨_, rfl⟩
  obtain ⟨w, hw⟩ : ∃ w, w = failParts b := ⟨_, rfl⟩
  have hsa : Lasting s a := by rw [ha]; exact lasting_failChans s
  have hab : Lasting a b := by rw [hb]; exact lasting_failPorts a
  have hlast (q : Nat) : Apart q w (declareDone w) := (apart_refl q w).declareDone
  obtain ⟨hchan, hport⟩ : (∀ c, chan w c = chan b c) ∧ ∀ i, (port w i).st = (port b i).st := by
    rw [hw]
    exact failParts_keeps b
  rw [← ha, ← hb, ← hw]
  refine ⟨fun c hc hn hst => ?_, fun x hx hn => ?_, fun p hp hn => ?_⟩
  · rw [(hlast 0).chan, hchan]
    exact hab.chan_failed (by rw [ha]; exact st_failChans hc hn hst)
  · rw [(hlast 0).port, hport]
    rcases port_unsettled_of_lasting hsa hn with h5 | hn'
    · exact hab.port_failed h5
    · rw [hb]
      exact st_failPorts (by rw [expectedPorts_of_lasting hsa]; exact hx) hn'
  · rw [(hlast (p + 1)).part p (by omega), hw]
    exact startFailed_failParts hp (part_unsettled_of_lasting (hsa.trans hab) hn)

end Sys2Proof.Machine
end

section
/-! Bring-up and the Wright's restarts (R416, R439 to R441, R462 to R464). -/
namespace Sys2Proof.Machine
set_option Elab.async false
variable {s u : State}

/-- A thread that stands as its monitor starts it runs at its entry with the partition, the reason and the cause. -/
theorem startedAt_reads {th : Thread} {pc : Word} {q : Nat} {reason : BitVec 2} {cause : BitVec 8}
    (h : th.calm = (startedAt pc q reason cause).calm) :
    th.run = .running ∧ th.tstat = Thread.reset.tstat ∧ th.pc = pc ∧ (readG th 1).val = BitVec.ofNat 64 q ∧
      (readG th 2).val = reason.setWidth 64 ∧ (readG th 3).val = cause.setWidth 64 ∧
      ∀ r : BitVec 5, 4 ≤ r.toNat → (readG th r).val = 0 := by
  obtain ⟨h1, h2, h3, hrest⟩ := readG_startedAt pc q reason cause
  have hread (r : BitVec 5) : readG th r = readG (startedAt pc q reason cause) r := by
    rw [← readG_calm, h, readG_calm]
  refine ⟨?_, ?_, ?_, ?_, ?_, ?_, fun r hr => ?_⟩
  · have e := congrArg Thread.run h
    exact e
  · have e := congrArg Thread.tstat h
    exact e
  · have e := congrArg Thread.pc h
    exact e
  · rw [hread, h1]
  · rw [hread, h2]
  · rw [hread, h3]
  · rw [hread, hrest r hr]

theorem monitor_starts_row {p : Fin 8} {x : Monitor} (hst : s.wr.st = .serving) (hf : s.pw.fenced = false)
    (hp : startPending s p.val = true) (hl : lowestReady s p.val = true)
    (hbays : ∀ b, (part s p.val).bays.getLsbD b = true → (bay s b).failed = false)
    (hx : monitorOf s p.val = some x) (hfits : monitorFits s x = true) (g : BitVec 13) (r : List (BitVec 13))
    (hr : (part s p.val).ranges = g :: r) :
    ∃ u, exec (.monitorImageLoaded p true true) s = .next u ∧
      (part u p.val).st = (if holdsQueue s p.val then .active else .standby) ∧ u.pw.ready.part.getLsbD p.val = true ∧
      (∀ k ∈ sourcesOf s p.val, (srcEnt u k).isOpen = true) ∧
      ∀ t ∈ startingThreads s p.val,
        let base := g.toNat * 2 ^ 30 + x.loadOff
        (thr u t).run = .running ∧ (thr u t).tstat = Thread.reset.tstat ∧ (thr u t).pc = BitVec.ofNat 64 (base + x.entryOff) ∧
        (readG (thr u t) 1).val = BitVec.ofNat 64 p.val ∧ (readG (thr u t) 2).val = (part s p.val).reason.setWidth 64 ∧
        (readG (thr u t) 3).val = (part s p.val).cause.setWidth 64 ∧ ∀ r : BitVec 5, 4 ≤ r.toNat → (readG (thr u t) r).val = 0 := by
  obtain ⟨u, hu, hstarted⟩ := monitor_starts hst hf hp hl hbays hx hfits hr
  exact ⟨u, hu, hstarted.st, hstarted.ready, hstarted.sources, fun t ht => startedAt_reads (hstarted.thread t ht)⟩

theorem monitor_fails_row {p : Fin 8} {copied digestOk : Bool} (hst : s.wr.st = .serving) (hf : s.pw.fenced = false)
    (hp : startPending s p.val = true) (hl : lowestReady s p.val = true)
    (hbays : ∀ b, (part s p.val).bays.getLsbD b = true → (bay s b).failed = false)
    (h : monitorOf s p.val = none ∨ copied = false ∨ digestOk = false) :
    ∃ u, exec (.monitorImageLoaded p copied digestOk) s = .next u ∧ (part u p.val).st = .restarting ∧
      (part u p.val).startFailed = true ∧ ∀ t, (thr u t).calm = (thr s t).calm := by
  obtain ⟨hstate, hfailed⟩ := startFailed_failStart p.val s
  exact ⟨failStart p.val s, monitor_fails hst hf hp hl hbays h, hstate, hfailed, (failStart_spec p.val).2.2⟩

theorem bringupTimeout_row (hb : s.pw.bringing = true) (hst : s.wr.st = .serving)
    (hlate : s.pw.bringupAt.toNat + s.pw.bringupTmo.toNat ≤ s.time.now.toNat) :
    ∃ u, exec .bringupTimeout s = .next u ∧ Declared u ∧
      (∀ c ∈ expectedChans s, chanSettled s c = false → (chan s c).st ≠ 0 → (chan u c).st = 4) ∧
      (∀ x ∈ expectedPorts s, portSettled s x = false → (port u (portIx x)).st = 5) ∧
      ∀ p, p < 8 → partSettled s p = false → StartFailed (part u p) :=
  ⟨_, bringupTimeout_fails hb hst hlate, declared_declareDone _, timeout_spec⟩

/-- Settles O56. -/
theorem bringUp : Obligations.BringUp := by
  unfold Obligations.BringUp
  refine ⟨⟨fun s h hf => bringupStart_runs h hf, fun s h => bringupStart_waits h,
    fun s d sites bays clusters hon hp ht hr => selfTestDone_row d sites bays clusters hon hp ht hr,
    fun s hon hclk hst hu => wrightServing_boots hon hclk hst hu rfl,
    fun s p x hst hf _ hp hl hbays => ⟨?_, ?_⟩, fun s hb hst => ⟨fun h => ?_, ?_, ?_, ?_⟩⟩,
    fun s => ⟨fun h => watchdogExpire_waits h, fun hs hd hr => watchdog_restarts hs hd hr, fun hs hd hr => watchdog_stops hs hd hr,
      fun m a hu hs => ⟨fun ho => activateRestart_runs hu hs ho, fun ho => activateRestart_waits hu ho⟩,
      fun m a t hu => ?_, ?_, ?_⟩⟩
  · exact monitor_starts_row hst hf hp hl hbays
  · exact fun copied digestOk h => monitor_fails_row hst hf hp hl hbays h
  · exact ⟨_, bringupDone_declares hb hst h, declared_declareDone s⟩
  · exact fun h => bringupDone_waits hb hst h
  · exact fun h => bringupTimeout_waits hb hst h
  · exact fun h => bringupTimeout_row hb hst h
  · obtain ⟨hpast, hbefore⟩ := activateTimeout_row hu
    exact ⟨hpast, hbefore, fun hst hon hclk hpass hact => wrightServing_starting hon hclk hst hu hpass hact⟩
  · exact fun m a b hu hact hst hon hclk => wrightServing_returning hon hclk hst hu hact
  · exact fun b hu hact hst hon hclk => wrightServing_again hon hclk hst hu hact

end Sys2Proof.Machine
end
